-- ==== Sys2Proof/Word.lean ====
section
/-! DEFINITION. The word types of the module (R28, R51: registers of 32 and 64 bits, bytes), and sorted sparse maps. -/

namespace Sys2Proof

/-- A byte. -/
abbrev Byte := BitVec 8

/-- A 64-bit register value. -/
abbrev Word := BitVec 64

/-- A sparse map: pairs of a key and a value, keys strictly rising, and no value equal to what an unlisted key reads as. -/
abbrev SMap (α : Type) := List (Nat × α)

end Sys2Proof
end

