-- ==== Sys2Proof/Syntax.lean ====
section
/-! DEFINITION. The commands the module takes (spec/opcode_table.json, 330 rows), one constructor each, with their operands: the
unit that acts, the value a write carries, and what the spec leaves to physics or to partners outside the module. -/

namespace Sys2Proof

abbrev BayId := Fin 48
abbrev ArrId := Fin 8
abbrev QueueId := Fin 4
abbrev CoreId := Fin 192
abbrev AgentId := Fin 17
abbrev DieId := Fin 20

/-- R45, R47, R49: the control pages of the module, each with its instance. -/
inductive Page where
  | hub | mgpwr | sec | coh
  | dlink (n : Fin 31)
  | bayCtl (b : BayId) | doc (b : BayId) | issue (b : BayId) | sync (b : BayId) | pace (b : BayId)
  | arr (b : BayId) (a : ArrId)
  | vec (b : BayId) | tgu (b : BayId) | gth (b : BayId) (g : Fin 2) | mov (b : BayId) (m : Fin 4)
  | store (b : BayId) | bcache (b : BayId) | xlate (b : BayId)
  | mchan (s : Fin 16) (c : Fin 32) | sysc (s : Fin 16)
  | fport (p : Fin 32) | router (f : Fin 2) | flow (f : Fin 2) | ce (f : Fin 2)
  | host
  | pdCtl (d : Fin 4) | clus (d : Fin 4) (j : Fin 6) | l3 (d : Fin 4) | core (n : CoreId)
deriving DecidableEq, Repr

/-- R43: who makes a DCS access. -/
inductive Requester where
  | core (n : CoreId) | host | docent (b : BayId) | hubFirmware | mgFirmware
deriving DecidableEq, Repr

/-- R37: the pacers. -/
inductive PacerId where
  | bay (b : BayId) | cluster (k : Fin 24) | fabric (f : Fin 2)
deriving DecidableEq, Repr

/-- What the checks of one consumed 256-byte block find on their way to the consumer (R232, R239, R315): nothing
wrong, a first comparison that fails and a re-read that matches, or two failures. Physics decides it. -/
inductive Check where
  | ok | once | twice
deriving DecidableEq, Repr

/-- What SECDED finds in the bay-store lines an operation reads (R230), or that a residue or parity check of its datapath fails (R484): physics
decides it. -/
inductive Upset where
  | none | corrected (addr : BitVec 27) | uncorrectable (addr : BitVec 27) | logic
deriving DecidableEq, Repr

/-- R259: what SECDED finds in a cache lookup. -/
inductive Ecc where
  | none | corrected (way : Fin 24) | dataUe (way : Fin 24) | tagUe
deriving DecidableEq, Repr

/-- R257: the private caches of a core. -/
inductive PrivLevel where
  | l1i | l1d | l2
deriving DecidableEq, Repr

/-- R259: what SECDED finds in a core's own caches while an instruction runs: nothing, a corrected error, an uncorrectable error in the data of a line,
or in an L2 tag. -/
inductive CoreEcc where
  | none | corrected | dataUe (lv : PrivLevel) (line : BitVec 34) | tagUe (line : BitVec 34)
deriving DecidableEq, Repr

/-- The issuer of an engine operation: issue queue q by a long word, or hardware group g by TG.MTX or TG.GTH (R98). -/
inductive OpSrc where
  | queue (q : QueueId) | group (g : Fin 64)
deriving DecidableEq, Repr

/-- R95, R169: the fields of a matrix operation. -/
structure MtxOp where
  op : BitVec 4
  la : BitVec 3
  gang : BitVec 2
  start : BitVec 2
  wb : Bool
  kb : BitVec 11
  mfd : BitVec 8
  aAddr : BitVec 21
  bAddr : BitVec 21
  cAddr : BitVec 21
  salt : BitVec 16
deriving DecidableEq, Repr

/-- R127, R170: the fields of a vector pass. -/
structure VecOp where
  op : BitVec 4
  vpd : BitVec 8
  n : BitVec 24
  in0 : BitVec 21
  out0 : BitVec 21
deriving DecidableEq, Repr

/-- R171: the fields of a MOV slot, with its inline payload. -/
structure MovOp where
  asel : BitVec 2
  di : BitVec 10
  space : Bool
  addr : BitVec 64
  payload : List Byte
deriving DecidableEq, Repr

/-- R172: the fields of a GTH slot. -/
structure GthOp where
  op : BitVec 4
  afs : BitVec 3
  di : BitVec 10
  count : BitVec 24
  dst : BitVec 21
deriving DecidableEq, Repr

/-- R278: the caches that have a page. -/
inductive CacheId where
  | l3 (d : Fin 4) | bcache (b : BayId) | sysc (s : Fin 16)
deriving DecidableEq, Repr

/-- R235: an atomic of AOP `aop` on `size` (4 or 8) bytes at byte `off` of the line. -/
structure AtomicOp where
  aop : BitVec 4
  size : Nat
  off : Nat
  operand : BitVec 64
  compare : BitVec 64
deriving DecidableEq, Repr

/-- R314: a whole-block write: 256 bytes, the carried CRC-32C if the write carries one, the writer's format code and
poison mark. -/
structure BlockWr where
  data : List Byte
  crc : Option (BitVec 32)
  tag : Byte
  poison : Bool
deriving DecidableEq, Repr

/-- R333: what a die-link flit carries. -/
structure Flit where
  seq : BitVec 12
  kind : BitVec 3
  channel : BitVec 2
  lane : Bool
  nak : Bool
  ack : BitVec 12
  payload : List Byte
deriving DecidableEq, Repr

/-- R340 to R342: what training finds: the capability record received from each end (none: the Tyari 9 die of R14 is there, whose record R341 gives), and the
wires of each direction that fail. -/
structure TrainResult where
  capA : Option (BitVec 128)
  capB : Option (BitVec 128)
  badAB : List Nat
  badBA : List Nat
deriving DecidableEq, Repr

/-- R372: a fabric packet. -/
structure Packet where
  dstPlace : BitVec 16
  dstRank : BitVec 16
  srcPlace : BitVec 16
  srcRank : BitVec 16
  dstFlow : BitVec 18
  op : BitVec 5
  reread : Bool
  poison : Bool
  carried : Bool
  last : Bool
  psn : BitVec 24
  tag : Byte
  hops : BitVec 6
  level : Bool
  cls : Bool
  status : Byte
  srcEpoch : BitVec 16
  len : BitVec 13
  addr : BitVec 64
  data : List Byte
  crc : BitVec 32
deriving DecidableEq, Repr

/-- R356: the body of a fabric flit: nothing, a packet, or a control record. -/
inductive FabricBody where
  | empty | packet (k : Packet) | control (bytes : List Byte)
deriving DecidableEq, Repr

/-- R355: what the decoder finds of a codeword: clean, up to 15 symbols corrected, or uncorrectable. -/
inductive Fec where
  | clean | corrected | uncorrectable
deriving DecidableEq, Repr

/-- R356: a fabric flit: its numbers and what it carries. -/
structure FabricFlit where
  seq : BitVec 12
  kind : BitVec 4
  ack : BitVec 12
  nak : Bool
  vc : Fin 4
  credit : List Nat
  body : FabricBody
deriving DecidableEq, Repr

/-- R365: the control record exchanged in port training, with what the PHY training finds. -/
structure PeerRecord where
  place : BitVec 16
  port : BitVec 5
  rank : BitVec 16
  epoch : BitVec 16
  lanes : BitVec 8
  rtt : BitVec 32
deriving DecidableEq, Repr

/-- R408: a job-control datagram. -/
structure Datagram where
  src : BitVec 16
  jobId : BitVec 32
  jobEpoch : BitVec 16
  payload : List Byte
deriving DecidableEq, Repr

/-- R436: the MetaValue of a CXL.mem request. -/
inductive Meta where
  | any | shared | invalid
deriving DecidableEq, Repr

/-- R460, R485: what a compute unit's signals show of one period: the frames that ended in it, those of them that each hold a step on which an
issue point held ready work and the step had no pulse, the pulses that the pacer admitted, and those that the issue points took. -/
structure UnitClass where
  frames : Nat
  starved : Nat
  admitted : Nat
  taken : Nat
deriving DecidableEq, Repr

/-- R460: a unit is saturated when at least one quarter of its frames were starved of a pulse. -/
def UnitClass.sat (c : UnitClass) : Bool := decide (0 < c.frames ∧ c.frames ≤ 4 * c.starved)

/-- R460: a unit waits when its issue points took fewer than half of the pulses admitted and it is not saturated. -/
def UnitClass.wait (c : UnitClass) : Bool := decide (2 * c.taken < c.admitted) && !c.sat

/-- R466: the junction reading of one die (signed, 1/16 of a degree). -/
abbrev Temp := BitVec 16

/-- R496: how a start step ended; `degraded` names the channels that fail training (step 4) or the cores that fail their test (step 6). -/
inductive StepOutcome where
  | ok | degraded (units : List Nat) | failed
deriving DecidableEq, Repr

/-- R517: where a management request comes from. -/
inductive MgmtPort where
  | i3c | hostPort
deriving DecidableEq, Repr

/-- R434: how the host completes a device-DMA read. -/
inductive DmaStatus where
  | data (bytes : List Byte) (ep : Bool) | unsupported | aborted
deriving DecidableEq, Repr

/-- R524: what the TAP offers. -/
inductive TapInstr where
  | idcode | bypass | boundaryScan
deriving DecidableEq, Repr

/-- The commands, in the order of spec/opcode_table.json but for a few neighbours. -/
inductive Instr where
  -- 02 control pages, 01 composition
  | run (p : Page) | stop (p : Page) | reset (p : Page) | clrErr (p : Page) | sleep (p : Page) | wake (p : Page)
  | registerWrite (who : Requester) (off : BitVec 26) (size : Nat) (value : BitVec 64)
  | startingDone (p : Page) | stoppingDone (p : Page) | sleepCleanDone (p : Page) | wakeDone (p : Page)
  | logTailWrite (v : BitVec 32)
  | domainRestart (key : BitVec 16) | moduleReset (key : BitVec 16)
  | refclkLoss | refclkReturn
  | meterWindow (i : Fin 75) (ps : BitVec 16)
  | pacerFrame (u : PacerId)
  | stallWatchdog (p : Page)
  | coreInstruction (n : CoreId) (ecc : CoreEcc)
  | cboClean (n : CoreId) (va : BitVec 64) | cboFlush (n : CoreId) (va : BitVec 64)
  | cboInval (n : CoreId) (va : BitVec 64) | cboZero (n : CoreId) (va : BitVec 64)
  | registerParityMismatch (n : CoreId) (file : Fin 3)
  | l1FillChunk (n : CoreId) (fetch : Bool)
  -- 04 arrays
  | mma (b : BayId) (op : MtxOp) (src : OpSrc) (sig : BitVec 8) (u : Upset)
  | arithStart (b : BayId) (a : ArrId)
  | arithEnd (b : BayId) (a : ArrId) (u : Upset) (mismatch : Bool)
  | drainEnd (b : BayId) (a : ArrId) (u : Upset)
  | recomputeEnd (b : BayId) (a : ArrId) (u : Upset) (mismatch : Bool)
  | selfTestDone (b : BayId) (a : ArrId) (colFails spareFails : Bool)
  | checkEnWrite (b : BayId) (a : ArrId) (en : Bool)
  -- 05 vector engine
  | pass (b : BayId) (op : VecOp) (q : QueueId) (sig : BitVec 8)
  | passIssueStart (b : BayId) (u : Upset)
  | spanEnd (b : BayId) (u : Upset)
  | passComplete (b : BayId)
  -- 06 docent and issue
  | docentInstruction (b : BayId) (fetchUe dataUe : Bool) (u : Upset)
  | ebreak (b : BayId) (compressed : Bool)
  | dcPush (b : BayId) (rd rs1 rs2 : Fin 32)
  | dcPushRoom (b : BayId)
  | dcAfp (b : BayId) (rs1 rs2 : Fin 32)
  | dcAfpRoom (b : BayId)
  | dcSum (b : BayId) (rd rs1 rs2 : Fin 32)
  | dcWait (b : BayId) (rs1 rs2 : Fin 32)
  | dcWaitSatisfied (b : BayId)
  | dcSig (b : BayId) (rs1 : Fin 32)
  | dcTest (b : BayId) (rd rs1 : Fin 32)
  | memDataAccess (b : BayId) (write : Option (BitVec 64))
  | issueDoorbell (b : BayId) (q : QueueId) (n : BitVec 32)
  | ringFetch (b : BayId) (q : QueueId) (chk : Check)
  | wordDecode (b : BayId) (q : QueueId) (u : Upset)
  | slotIssue (b : BayId) (q : QueueId) (slot : Fin 6) (u : Upset)
  | ctlNop (b : BayId) (q : QueueId) | call (b : BayId) (q : QueueId) | ret (b : BayId) (q : QueueId)
  | replay (b : BayId) (q : QueueId) | launch (b : BayId) (q : QueueId) | notify (b : BayId) (q : QueueId)
  | record (b : BayId) (q : QueueId) | endrec (b : BayId) (q : QueueId)
  | frameReturn (b : BayId) (q : QueueId)
  | synNop (b : BayId) (q : QueueId) | cadd (b : BayId) (q : QueueId) | cset (b : BayId) (q : QueueId)
  | fclr (b : BayId) (q : QueueId) | fset (b : BayId) (q : QueueId) | drain (b : BayId) (q : QueueId)
  | afPush (b : BayId) (f : Fin 4) (size : Nat) (value : BitVec 64)
  | deadlockDeclared (b : BayId)
  | syncFset (b : BayId) (mask : BitVec 64) | syncFclr (b : BayId) (mask : BitVec 64)
  | cntWrite (b : BayId) (n : Fin 16) (v : BitVec 32) | caddWrite (b : BayId) (n : Fin 16) (v : BitVec 32)
  -- 07 thread groups
  | blockResident (b : BayId)
  | tguIssue (b : BayId) (ready : BitVec 64)
  | threadInstruction (b : BayId) (g : Fin 64) (chk : Check) (u : Upset)
  | tgId (b : BayId) (g : Fin 64) (rd rs1 : Fin 32)
  | tgVoteAny (b : BayId) (g : Fin 64) (rd rs1 : Fin 32) | tgVoteAll (b : BayId) (g : Fin 64) (rd rs1 : Fin 32)
  | tgBallot (b : BayId) (g : Fin 64) (rd rs1 : Fin 32)
  | tgShflIdx (b : BayId) (g : Fin 64) (rd rs1 rs2 : Fin 32) | tgShflUp (b : BayId) (g : Fin 64) (rd rs1 rs2 : Fin 32)
  | tgShflDn (b : BayId) (g : Fin 64) (rd rs1 rs2 : Fin 32) | tgShflXor (b : BayId) (g : Fin 64) (rd rs1 rs2 : Fin 32)
  | tgBar (b : BayId) (g : Fin 64) (rs1 : Fin 32) | tgBarArv (b : BayId) (g : Fin 64) (rs1 : Fin 32)
  | barrierResume (b : BayId) (k : Fin 8) (n : Fin 16)
  | tgYield (b : BayId) (g : Fin 64) | tgExit (b : BayId) (g : Fin 64)
  | tgFenceG (b : BayId) (g : Fin 64) | tgFenceB (b : BayId) (g : Fin 64)
  | tgFenceD (b : BayId) (g : Fin 64) | tgFenceS (b : BayId) (g : Fin 64)
  | tgFenceDone (b : BayId) (g : Fin 64) (lane : Fin 32)
  | tgScope (b : BayId) (g : Fin 64) (rs1 : Fin 32)
  | tgLock (b : BayId) (g : Fin 64) (rd rs1 : Fin 32) | tgUnlock (b : BayId) (g : Fin 64) (rs1 : Fin 32)
  | tgFsig (b : BayId) (g : Fin 64) (rs1 : Fin 32)
  | tgFwait (b : BayId) (g : Fin 64) (rs1 rs2 : Fin 32)
  | tgFwaitSatisfied (b : BayId) (g : Fin 64) (lane : Fin 32)
  | tgFtest (b : BayId) (g : Fin 64) (rd rs1 : Fin 32)
  | tgGth (b : BayId) (g : Fin 64) (rs1 rs2 : Fin 32) | tgMtx (b : BayId) (g : Fin 64) (rs1 rs2 : Fin 32)
  | xtgHandshake (b : BayId) (g : Fin 64) (lane : Fin 32) (u : Upset)
  | barrierStranded (b : BayId) (k : Fin 8) (n : Fin 16)
  | blockComplete (b : BayId) (k : Fin 8)
  -- 08 store, movers, gathers, translation
  | correctionWriteback (b : BayId) (line : Fin 2097152)
  | movDesc (b : BayId) (m : Fin 4) (op : MovOp) (q : QueueId) (sig : BitVec 8) (u : Upset)
  | movInline (b : BayId) (m : Fin 4) (op : MovOp) (q : QueueId) (sig : BitVec 8)
  | movCopy (b : BayId) (m : Fin 4) (chk : Check) (u : Upset) (ahead : Nat) | movConvert (b : BayId) (m : Fin 4) (chk : Check) (u : Upset) (ahead : Nat)
  | movPut (b : BayId) (m : Fin 4) (chk : Check) (u : Upset) (ahead : Nat) | movGet (b : BayId) (m : Fin 4)
  | movAtomic (b : BayId) (m : Fin 4) | movComplete (b : BayId) (m : Fin 4)
  | gather (b : BayId) (g : Fin 2) (op : GthOp) (src : OpSrc) (sig : BitVec 8) (u : Upset)
  | gatherRowArrival (b : BayId) (g : Fin 2) (row : Nat) (chk : Check) (u : Upset) (ahead : Nat)
  | gatherComplete (b : BayId) (g : Fin 2)
  | xlateInval (b : BayId) (scope : BitVec 2) (asid : BitVec 16) | invalDone (b : BayId)
  -- 09 caches
  | cacheLookup (c : CacheId) (cls : Fin 32) (line : BitVec 34) (write : Bool) (ecc : Ecc)
  | wayPowerDown (c : CacheId) (way : Fin 24) | wayPowerUp (c : CacheId) (way : Fin 24)
  | wayOff (c : CacheId) (way : Fin 24) | wayOn (c : CacheId) (way : Fin 24)
  | waymaskWrite (c : CacheId) (cls : Fin 32) (mask : BitVec 24)
  | rangeClean (c : CacheId) | rangeInvalidate (c : CacheId) | rangeCleanInv (c : CacheId) | rangeDone (c : CacheId)
  -- 10 coherence
  | load (a : AgentId) (line : BitVec 34) | storeEvent (a : AgentId) (line : BitVec 34) | evict (a : AgentId) (cls : Fin 32) (line : BitVec 34)
  | rds (a : AgentId) (line : BitVec 34) | rdx (a : AgentId) (line : BitVec 34) | upg (a : AgentId) (line : BitVec 34)
  | rdcur (die : DieId) (cls : Fin 32) (line : BitVec 34)
  | wrfull (die : DieId) (cls : Fin 32) (line : BitVec 34) (data : BitVec 512)
  | wrpart (die : DieId) (cls : Fin 32) (line : BitVec 34) (mask : BitVec 64) (data : BitVec 512)
  | atomicRequest (die : DieId) (cls : Fin 32) (line : BitVec 34) (op : AtomicOp)
  | wb (a : AgentId) (line : BitVec 34) | salvwr (a : AgentId) (line : BitVec 34)
  | snps (a : AgentId) (line : BitVec 34) | snpx (a : AgentId) (line : BitVec 34)
  | snpcur (a : AgentId) (line : BitVec 34) | snpinv (a : AgentId) (line : BitVec 34)
  | snoopAnswer (a : AgentId) (line : BitVec 34)
  | cmpack (a : AgentId) (line : BitVec 34)
  | gnts (a : AgentId) (line : BitVec 34) | gnte (a : AgentId) (line : BitVec 34) | gntm (a : AgentId) (line : BitVec 34)
  | gntupg (a : AgentId) (line : BitVec 34) | wback (a : AgentId) (line : BitVec 34)
  | cmp (die : DieId) (line : BitVec 34) | datacur (die : DieId) (line : BitVec 34)
  | memReadReturn (line : BitVec 34) (chk : Check)
  | snoopTimeout (a : AgentId) (line : BitVec 34) | ackTimeout (line : BitVec 34)
  | grantTimeout (die : DieId) (line : BitVec 34)
  | forceDown (key : BitVec 16) | downSequenceEnd
  | salvage | salvageAgentDone | salvageAgentTimeout
  | dumpAddrWrite (addr : BitVec 64) | dumpDone
  | restartComplete (tokensBack : Bool)
  -- 11 memory
  | blockRead (blk : BitVec 32) (cls : Fin 32) (fill : Bool) (later : Bool) (chk : Check)
  | blockWrite (blk : BitVec 32) (cls : Fin 32) (w : BlockWr)
  | readModifyWrite (blk : BitVec 32) (cls : Fin 32) (mask : BitVec 256) (data : List Byte) (poison : Bool) (chk : Check)
  | reread (blk : BitVec 32) (chk : Check)
  | bankRefresh (s : Fin 16) (c : Fin 32) (bank : Fin 32) | rowIdleClose (s : Fin 16) (c : Fin 32) (bank : Fin 32)
  | stackTempSample (s : Fin 16) (t : List (Option (BitVec 16)))
  | patrolRead (s : Fin 16) (c : Fin 32) (chk : Check) (disagree tagBad : Bool)
  | patrolEnWrite (s : Fin 16) (c : Fin 32) (en : Bool)
  | deaccession (s : Fin 16) (c : Fin 32) (key : BitVec 16)
  | channelRetrain (s : Fin 16) (c : Fin 32) (errs : Fin 17) | channelRetrainDone (s : Fin 16) (c : Fin 32) (ok : Bool)
  -- 12 die links
  | flitReceive (l : Fin 31) (dir : Bool) (f : Flit) (crcOk : Bool)
  | flitReplay (l : Fin 31) (dir : Bool)
  | linkTrain (l : Fin 31) (r : TrainResult)
  | trainPhaseTimeout (l : Fin 31)
  | checkFlit (l : Fin 31) (dir : Bool) (bad : List Nat)
  | wireTest (l : Fin 31) (dir : Bool) (bad : List Nat)
  | wireSpare (l : Fin 31) (dir : Bool) (wire : Nat)
  | linkNarrow (l : Fin 31) (dir : Bool) (overruns : Bool)
  | forwardedClockLoss (l : Fin 31)
  -- 13 fabric ports, routers, flows
  | identityFrame (p : Fin 32) (bytes : List Byte)
  | portTrain (p : Fin 32) (r : PeerRecord)
  | trainFail (p : Fin 32)
  | fabricFlit (p : Fin 32) (f : FabricFlit) (fec : Fec) (second crcOk : Bool)
  | fabricReplay (p : Fin 32)
  | fecWindow (p : Fin 32) (corrected : List Nat) (lost : BitVec 8)
  | laneRemap (p : Fin 32) (lane : Fin 8)
  | heartbeat (p : Fin 32) (highNs : Nat)
  | holdTimeout (p : Fin 32) | neighbourLost (p : Fin 32)
  | sidebandToken (p : Fin 32) (kind : Byte) (chunk : Byte)
  | routeLookup (f : Fin 2) (k : Packet)
  | rtDataWrite (f : Fin 2) (entry : BitVec 32)
  | catalogueWrite (r : Fin 16384) (size : Nat) (value : BitVec 64)
  | flowOpen (f : Fin 2) | flowClose (f : Fin 2) | flowClosed (i : BitVec 18) | flowReset (f : Fin 2)
  | domWrite (f : Fin 2) (n : Fin 64) (satp : BitVec 64)
  | writePacket (k : Packet) | readPacket (k : Packet) (chk : Check) | readRsp (k : Packet)
  | atomicPacket (k : Packet) (chk : Check) | atomicRsp (k : Packet) | msg (k : Packet) | ack (k : Packet) | nak (k : Packet)
  | retransmit (i : BitVec 18)
  -- 14 collectives and jobs
  | ceDoorbell (f : Fin 2) (q : QueueId) (n : BitVec 32)
  | bindCounterChange (f : Fin 2) (q : QueueId)
  | ceEntryFetch (f : Fin 2) (q : QueueId)
  | allreduce (f : Fin 2) (q : QueueId) | reducescatter (f : Fin 2) (q : QueueId) | allgather (f : Fin 2) (q : QueueId)
  | broadcast (f : Fin 2) (q : QueueId) | alltoall (f : Fin 2) (q : QueueId) | barrier (f : Fin 2) (q : QueueId)
  | arrivalToken (k : Packet) | chunk (k : Packet) (chk : Check) (logic : Bool)
  | collectiveComplete (f : Fin 2) (q : QueueId)
  | ceWatchdogTick (f : Fin 2) (q : QueueId)
  | census (d : Datagram) | callDatagram (d : Datagram) | answer (d : Datagram) | verdict (d : Datagram)
  | verdictAck (d : Datagram) | fenceJob (d : Datagram)
  | censusWaitExpiry | ctrlResend
  | cmdCensus (f : Fin 2) | admitMembers (f : Fin 2) (rank : BitVec 16) | leave (f : Fin 2)
  | accStart (f : Fin 2) | accLoaded (f : Fin 2) | resume (f : Fin 2)
  | accReady (d : Datagram) | accAck (d : Datagram) | accAbort (d : Datagram)
  | adopt (d : Datagram) | adoptAck (d : Datagram) | orphan (d : Datagram) | reparent (d : Datagram)
  | storeMsg (d : Datagram) | doneMsg (d : Datagram)
  | accTimeout (child : BitVec 16) | orphanTimeout | accSignatureCheck
  -- 15 host port
  | perstAssert | functionLevelReset | linkDown
  | msixEnable
  | msixMessage (v : Fin 64)
  | memrd (line : BitVec 34) (m : Meta) (chk : Check)
  | memwr (line : BitVec 34) (m : Meta) (data : BitVec 512) (poison : Bool)
  | memwrptl (line : BitVec 34) (m : Meta) (mask : BitVec 64) (data : BitVec 512) (poison : Bool)
  | memclnevct (line : BitVec 34) | meminv (line : BitVec 34)
  | birsp (line : BitVec 34) (data : Option (BitVec 512))
  | backInvalidateTimeout (line : BitVec 34)
  | dcsAccess (who : Requester) (off : BitVec 26) (size : Nat) (write : Option (BitVec 64))
  | dmaTimeout (tag : Nat)
  | hqDoorbell (q : Fin 16) (n : BitVec 32)
  | hqEntryFetch (q : Fin 16) (chk : Check)
  | hqNop (q : Fin 16) | hqWrite (q : Fin 16) | hqDcs (q : Fin 16) | hqSignal (q : Fin 16)
  | hqEntryComplete (q : Fin 16) | hqResume (q : Fin 16)
  | claim (key : BitVec 16) | detach (key : BitVec 16) | detachDone
  -- 16 power
  | capPeriod (p : Nat) (cls : List UnitClass)
  | modeWrite (v : BitVec 2) | modeChangeDone
  | capWrite (v : BitVec 13) | tjLimitWrite (v : BitVec 8)
  | ceilWrite (u : Fin 72) (v : BitVec 6)
  | rateWindow (bayNs : Nat) (power : BitVec 16) (iin : BitVec 32) (coolant : BitVec 16) (tj : List Temp)
  | pbrake | pbrakeRelease | regAlert | brakeHoldExpiry
  | vinChange (mv : BitVec 16)
  | pwrEnAssert | pwrEnDeassert | pwrGoodRise
  | converterFail (c : Fin 8)
  | thermtrip (d : DieId) | thermtripRelease
  -- 17 faults
  | regulatorPoll (bad : List (DieId × Byte))
  | hubHeartbeat | hubFail | mgHeartbeat | mgLost
  -- 18 start and trust, 19 pins
  | modResetAssert | modResetRelease (straps : BitVec 6)
  | startStepDone (o : StepOutcome)
  | portWaitExpiry | startTimeout
  | getReport (port : MgmtPort) (nonce : List Byte)
  | getLog (port : MgmtPort) (first : Nat) | getCerts (port : MgmtPort) (off : Nat)
  | updateBegin (port : MgmtPort) (type : Fin 4) (size : Nat)
  | updateData (port : MgmtPort) (off : Nat) (bytes : List Byte)
  | updateEnd (port : MgmtPort)
  | commit (port : MgmtPort) (mask : BitVec 4)
  | secCommit (key : BitVec 16) (mask : BitVec 4)
  | ledgerRead (port : MgmtPort) (slot : Fin 256)
  | ledgerClear (port : MgmtPort) (slot : Fin 256) (seq : BitVec 32)
  | ledgerClrSlot (key : BitVec 16) | ledgerClrRecords (key : BitVec 16)
  | configRead (port : MgmtPort) (off : Nat)
  | configWrite (port : MgmtPort) (off : Nat) (bytes : List Byte) (lastMsg : Bool)
  | spdmChallenge (nonce : List Byte) | spdmGetMeasurements (index : Nat)
  | jtagInstruction (i : TapInstr)
  | perstRelease | hostLinkUp (width : BitVec 4) (rate : BitVec 2)
  | regAlertEnd
  | dmaReadCompletion (tag : Nat) (st : DmaStatus)
deriving DecidableEq, Repr

end Sys2Proof
end

