-- ==== Sys2Proof/Config.lean ====
section
/-! DEFINITION. What an implementation fixes and the spec leaves open: opaque constants with no body, so that no proof can see a
value. `freeValue` is applied to the counter `State.freeCount`, which every use advances. -/

namespace Sys2Proof.Config

/-- A fresh value the spec does not fix, by the number of the use (log 2). -/
opaque freeValue : Nat → BitVec 64

/-- A byte the spec leaves unspecified, by the number of the use and its place in the run of bytes (log 2). -/
opaque freeByte : Nat → Nat → BitVec 8

/-- R138: which of the codes within 1 unit in the last place EXP2 gives for an FP32 number (log 120). -/
opaque exp2 : BitVec 32 → BitVec 32

/-- R138: which of the codes within 1 unit in the last place LOG2 gives for an FP32 number (log 120). -/
opaque log2 : BitVec 32 → BitVec 32

/-- R506, R514: SHA-384 of a byte string: 48 bytes (log 10: the algorithm is named, not written out). -/
opaque sha384 : List Byte → List Byte

/-- R506: whether a signature (96 bytes) over a digest (48 bytes) verifies under a public key (97 bytes), or under the key with a
given SHA-384 (48 bytes) (log 10). -/
opaque ecdsaVerify : List Byte → List Byte → List Byte → Bool

/-- R514: the signature the module's identity key makes over a message; a fresh number enters each signature (log 10). -/
opaque identitySign : Nat → List Byte → List Byte

/-- R507: the bytes of flash that a copy of an image type has for its payload (log 15). -/
opaque flashArea (type : Nat) : Nat

/-- R515: SHA-384 of the MG boot ROM (log 15). -/
opaque romDigest : List Byte

/-- R432: Dabryx's PCI-SIG vendor ID (log 15). -/
opaque vendorId : BitVec 16

/-- R524: the IDCODE of the TAP (log 15). -/
opaque idcode : BitVec 32

/-- R516: SHA-384 of the identity public key (log 15). -/
opaque identityKeyHash : List Byte

/-- R159, R221: mtval of an exception that carries no address: its cause and the instruction (log 43). RISC-V lets it be 0 or the
instruction. -/
opaque trapValue : Nat → BitVec 32 → BitVec 64

/-- R20 (RVA23): whether a core gives a meaning to a word that the spec's sources in this model do not describe (log 40). -/
opaque rvaDefined : BitVec 32 → Bool

/-- R20 (RVA23): whether a core has a CSR that this model does not describe (log 40). -/
opaque csrDefined : Nat → Bool

/-- The identification CSRs of a core: mvendorid, marchid, mimpid, mconfigptr by number (log 40). -/
opaque coreIdent : Nat → BitVec 64

end Sys2Proof.Config
end

