-- ==== Sys2Proof/Machine/State.lean ====
section
/-! DEFINITION. The state of the module as plain data: every register field (one sparse store), every memory, queue and unit the
spec names, and the queue of waiting commands. -/

namespace Sys2Proof.Machine

/-- R230 to R232: bay store: its bytes (unlisted: 0, R253), the poison bit of each 64-byte line, the carried CRC-32C of each
256-byte region with CV = 1, the lines whose double-bit error has been found and not yet written back, and the words
whose corrected value waits for an idle step. -/
structure Store where
  bytes : SMap Byte := []
  poison : SMap Bool := []
  carried : SMap (Option (BitVec 32)) := []
  ue : SMap Bool := []
  ce : SMap Bool := []
deriving DecidableEq, Repr

/-- R233, R185: an operation that has completed its issue handshake and has not completed: its issuer, its SIG byte, and how
many engines still work on it (the members of a gang, R104). -/
structure Op where
  id : Nat
  src : OpSrc
  sig : BitVec 8
  left : Nat
deriving DecidableEq, Repr

/-- R123: accumulator formats. -/
inductive AccFmt where
  | fp32 | fp64 | int32
deriving DecidableEq, Repr

/-- R105, R113: the phase of an accepted matrix operation. -/
inductive ArrPhase where
  | issued | arith | drain | recompute
deriving DecidableEq, Repr

/-- R97, R105, R115: one operation held by an array: the operation and its member number in the gang, the descriptor as
read at issue, the trigger sum of its operand sentinels, the column it took for checking, its phase, and whether
its result is poisoned; `start` is the start value taken when its arithmetic began, `startMarks` what saturated and flushed in its LOAD
conversion, `satMarks` what saturated in INT32 accumulation; `late` that the page has entered FAULT, or been reset, since it was accepted. -/
structure ArrOp where
  id : Nat
  op : MtxOp
  member : Nat
  src : OpSrc
  mfd : List Byte
  sent : Nat
  seed : BitVec 32
  chkCol : BitVec 6
  phase : ArrPhase
  start : List (BitVec 64)
  startPoison : Bool
  result : List (BitVec 64)
  poison : Bool
  checked : Bool
  mismatch : Bool
  satMarks : List Bool
  startMarks : List (Bool × Bool)
  trigger : Nat
  late : Bool := false
deriving DecidableEq, Repr

/-- R94, R99, R106, R116, R118: one logical array: accumulator (empty: none valid), its format, poison, saturated elements and the
operation that left it, the operations held in issue order, the mode held while CHECK.EN is 0, the consecutive matches counted in
CONFIRM, and whether the self-test runs. -/
structure ArrayUnit where
  acc : List (BitVec 64) := []
  accFmt : AccFmt := .fp32
  accPoison : Bool := false
  accSat : List Bool := []
  accId : Option Nat := none
  ops : List ArrOp := []
  heldMode : BitVec 3 := 0
  matches_ : Nat := 0
  selfTest : Bool := false
deriving DecidableEq, Repr

/-- R128 to R148: a pass in the engine: its operation, the copies it read in its issue phase (descriptor, program, the
values of Σ0 to Σ3 as FP64 bits or counts, the block exponents, the seed at its issue handshake), the spans done and what its records hold so far, and the byte ranges that others
have written since its issue handshake (R131). -/
structure PassRun where
  id : Nat
  op : VecOp
  src : OpSrc
  sig : BitVec 8
  vpd : List Byte := []
  prog : List (BitVec 32) := []
  sums : List (BitVec 64) := []
  sumIsCount : List Bool := []
  eg : List Int := []
  seed : BitVec 32 := 0
  spans : Nat := 0
  total : BitVec 64 := 0
  hi : Option (BitVec 64) := none
  lo : Option (BitVec 64) := none
  active : Nat := 0
  nz : Nat := 0
  nan : Nat := 0
  sat : List Nat := []
  flush : List Nat := []
  recs : List (List (BitVec 32)) := []
  flags : BitVec 4 := 0
  poisoned : Bool := false
  crossed : List (Nat × Nat) := []
deriving DecidableEq, Repr

/-- R128: the vector engine: the running pass (if its issue phase has begun) and the one held behind it. -/
structure VecUnit where
  running : Option PassRun := none
  held : Option PassRun := none
deriving DecidableEq, Repr

/-- R160: what the docent is stalled in. -/
inductive DocStall where
  | none | push (q : QueueId) (rd : Fin 32) (words : List (BitVec 32)) | afp (f : Fin 4) (v : BitVec 64)
  | wait (byte : BitVec 8) (thr : BitVec 32)
deriving DecidableEq, Repr

/-- R157, R160: the docent: x1 to x31 (unlisted: 0), its two memories (unlisted bytes: 0), and its stall. -/
structure Docent where
  x : SMap (BitVec 64) := []
  imem : SMap Byte := []
  dmem : SMap Byte := []
  stall : DocStall := .none
deriving DecidableEq, Repr

/-- R161, R178: where a queue's words come from: pushed words or a ring at depth 0, and the bay store in a frame. -/
inductive FrameKind where
  | call | replay
deriving DecidableEq, Repr

/-- R178, R180: one frame: its body (bay-store byte address and length in words), the offset of the next word, the repetitions
that remain after this one, its PBASE, and the SIG of the slot that opened it. -/
structure Frame where
  kind : FrameKind
  base : Nat
  len : Nat
  off : Nat
  more : Nat
  pbase : Nat
  id : Nat
  sig : BitVec 8
deriving DecidableEq, Repr

/-- R163, R166, R174, R177: a decoded word: its six slots with references resolved (absent: none), their thresholds, the payload of
its MOV slot, its words, where it came from (a pushed word has no address), why and at which slot it is to be refused, which slots have
issued (an absent one counts), which have had their WAIT satisfied, whether it has been checked at the head, the frame that it opens when
it retires, whether it ends the innermost one, and its place in the order of the bay's decodes. -/
structure Decoded where
  slots : List (Option Nat)
  thr : List Nat
  payload : List Byte
  raw : List (BitVec 32)
  addr : Option (BitVec 64)
  ring : Bool
  bad : Option (Nat × Nat) := none
  issued : List Bool
  taken : List Bool := []
  checked : Bool := false
  opens : Option Frame := none
  ends : Bool := false
  seq : Nat := 0
deriving DecidableEq, Repr

/-- R179: a recording: its list (in 64-byte units), its MAXW, and the words copied so far. -/
structure Recording where
  list : Nat
  maxw : Nat
  copied : Nat
deriving DecidableEq, Repr

/-- R161 to R164, R177 to R179: an issue queue: words pushed (without address) or fetched from the ring (with their address) and not yet
decoded, the decoded words (the head first), the frame stack (innermost first), the parameter snapshot (unlisted: 0) and the
recording. -/
structure IssQueue where
  words : List (Option (BitVec 64) × List (BitVec 32)) := []
  decoded : List Decoded := []
  frames : List Frame := []
  snapshot : SMap (BitVec 64) := []
  recording : Option Recording := none
deriving DecidableEq, Repr

/-- R195: a launch in the TGU's launch queue. -/
structure Launch where
  id : Nat
  desc : Nat
  bytes : List Byte
  q : OpSrc
  sig : BitVec 8
deriving DecidableEq, Repr

/-- R194, R199, R208: one thread: its integer and floating registers (unlisted: 0), fcsr, scope register and instructions
retired. -/
structure Thread where
  x : SMap (BitVec 64) := []
  f : SMap (BitVec 64) := []
  fcsr : BitVec 32 := 0
  scope : BitVec 2 := 0
  instret : BitVec 64 := 0
deriving DecidableEq, Repr

/-- R202, R210, R212, R214, R218: what holds a path: a barrier whose phase it has arrived at, or whose phase its threads had reached before
(`arv`: by TG.BAR.ARV) and whose next phase they arrive at, or whose phase has completed; a fence; a wait; an issue handshake. -/
inductive Hold where
  | none | barrier (n : Fin 16) | barNext (n : Fin 16) (arv : Bool) | barDone (n : Fin 16) | fence (s : Bool) | fwait (byte : BitVec 8) (thr : BitVec 32)
  | mtx (op : MtxOp) (sig : BitVec 8) | gth (e : Fin 2) (op : GthOp) (sig : BitVec 8)
deriving DecidableEq, Repr

/-- R205: one path of a group: its PC, its mask of threads, DEFER, and what holds it. -/
structure Path where
  pc : BitVec 64
  mask : BitVec 32
  defer : Bool := false
  hold : Hold := .none
deriving DecidableEq, Repr

/-- R193: a resident group: its block slot, its number within the block, its paths (the current one first), its threads by
lane, the issue steps it has waited while ready (R203), and whether the first path stays the current one (R205). -/
structure Group where
  block : Fin 8
  num : Nat
  paths : List Path := []
  threads : List Thread := []
  waited : Nat := 0
  keep : Bool := false
deriving DecidableEq, Repr

/-- R212: a barrier of a block: the threads that have arrived in its current phase. -/
structure BarrierState where
  begun : Bool := false
  arrived : List Nat := []
deriving DecidableEq, Repr

/-- R193, R200: a resident block. -/
structure Block where
  launch : Launch
  threads : Nat
  seq : BitVec 32
  order : Nat
  barriers : SMap BarrierState := []
  live : Nat
deriving DecidableEq, Repr

/-- R195 to R213: the thread-group unit: the launch queue, block slots and group slots in use, and the instruction cache's
lines (R198: 64-byte lines as they were when fetched), and the launches whose last thread has exited and that have not completed, with
their block slot (R200). -/
structure Tgu where
  queue : List Launch := []
  blocks : SMap (Option Block) := []
  groups : SMap (Option Group) := []
  icache : SMap (List Byte) := []
  ended : List (Nat × Launch) := []
deriving DecidableEq, Repr

/-- R234 to R240: an operation held by a mover: the descriptor with ASEL applied (64 bytes; empty for INLINE), the payload, the
next row and the position in it, the address that its FIFO entry gave, the bytes of the row that have come from the host, the
sentinel records so far and the poisoned ones among them, the row whose conversion failed its check (R484), the remote packets it still waits for, the last host address written, its read-back (0 none, 1
under way, 2 done), and the lowest row that has failed so far (row, PG_ERR bit, address, VA). -/
structure MovRun where
  id : Nat
  desc : List Byte
  inline : Option (Bool × BitVec 64)
  payload : List Byte
  src : OpSrc
  sig : BitVec 8
  seed : BitVec 32 := 0
  started : Bool := false
  performed : Bool := false
  row : Nat := 0
  pos : Nat := 0
  rowAddr : Option (BitVec 64) := none
  buf : List (Nat × List Byte) := []
  bufPoison : Bool := false
  asked : Bool := false
  recs : List (BitVec 32) := []
  recBad : List Nat := []
  logicRow : Option Nat := none
  outst : Nat := 0
  lastHost : Option (BitVec 64) := none
  readBack : Nat := 0
  fail : Option (Nat × Nat × BitVec 64 × Bool) := none
deriving DecidableEq, Repr

/-- R243 to R245: an operation held by a gather engine: the addresses of the rows issued (each with whether it came
from poisoned data), the rows requested, the rows written, and the lowest row that has failed so far (R250). -/
structure GthRun where
  id : Nat
  op : GthOp
  desc : List Byte
  src : OpSrc
  sig : BitVec 8
  thread : Option (BitVec 32 × Nat) := none
  addrs : List (BitVec 64 × Bool) := []
  asked : Nat := 0
  done : List Nat := []
  fail : Option (Nat × Nat × BitVec 64 × Bool) := none
deriving DecidableEq, Repr

/-- R251, R252: one entry of a bay's or a flow engine's TLB. -/
structure TlbEntry where
  vpn : BitVec 64
  size : Nat
  asid : BitVec 16
  pte : BitVec 64
  ppn : BitVec 64
deriving DecidableEq, Repr

/-- R256: an invalidation in progress and one that waits for it. -/
structure Inval where
  scope : BitVec 2
  asid : BitVec 16
  va : BitVec 64
deriving DecidableEq, Repr

/-- R17: the units of one bay; `deep` is the depth with which it last went to sleep (R472). -/
structure Bay where
  store : Store := {}
  nextOp : Nat := 0
  nextDec : Nat := 0
  ops : List Op := []
  arrays : SMap ArrayUnit := []
  vec : VecUnit := {}
  doc : Docent := {}
  queues : SMap IssQueue := []
  afifo : SMap (List (BitVec 64)) := []
  tgu : Tgu := {}
  movs : SMap (List MovRun) := []
  gths : SMap (List GthRun) := []
  tlb : List TlbEntry := []
  inval : Option Inval := none
  invalWait : List Inval := []
  stopHeld : List Nat := []
  deep : Bool := false
deriving DecidableEq, Repr

/-- R257, R264, R269: one line of a cache: its number, and whether the cache holds it dirty and (R260) with a carried CRC. -/
structure CacheLine where
  line : Nat
  dirty : Bool := false
  carried : Bool := false
deriving DecidableEq, Repr

/-- R257, R258: a private cache of a core: lines by set and way (key 32 · set + way; unlisted: invalid) and the pseudo-LRU bits of each set. The data of
a line is held once for its agent (R280). -/
structure PrivCache where
  lines : SMap (Option CacheLine) := []
  plru : SMap Nat := []
deriving DecidableEq, Repr

/-- R20: one processor core: integer, floating and vector registers (unlisted: 0), the privilege mode (3 M, 1 S, 0 U), CSRs by
number (unlisted: 0), the pending external interrupts of its interrupt file, its L1D and L1I fills, the oldest first (R262: the
line, the critical chunk, the number of chunks that have arrived), and its L1I, L1D and L2. -/
structure Hart where
  x : SMap (BitVec 64) := []
  f : SMap (BitVec 64) := []
  v : SMap (BitVec 512) := []
  mode : BitVec 2 := 3
  csr : SMap (BitVec 64) := []
  pendingIntr : List Nat := []
  fills : List (BitVec 34 × Fin 4 × Nat) := []
  ifills : List (BitVec 34 × Fin 4 × Nat) := []
  l1i : PrivCache := {}
  l1d : PrivCache := {}
  l2 : PrivCache := {}
deriving DecidableEq, Repr

/-- R264: a miss register: the line it misses on, the class of the primary request and whether it is a write, and the merged requests in order. -/
structure MissReg where
  line : Nat
  cls : Fin 32
  write : Bool := false
  merged : List (Fin 32 × Bool) := []
deriving DecidableEq, Repr

/-- R271, R274: a range command: its OP and the register values it took. -/
structure RangeCmd where
  op : BitVec 2
  base : BitVec 64
  size : BitVec 64
deriving DecidableEq, Repr

/-- R257 to R278: a cache with a page: lines by slice, set and way (key (slice · sets + set) · 32 + way; unlisted: invalid), the
pseudo-LRU bits of each set, miss registers, the running and the held range command, the ways being cleaned, the
ways powering up, the times of the last corrected errors of each way, and for a system cache the blocks it holds. -/
structure Cache where
  lines : SMap (Option CacheLine) := []
  plru : SMap Nat := []
  miss : List MissReg := []
  inputs : List (Fin 32 × Nat × Bool) := []
  range : Option RangeCmd := none
  held : Option RangeCmd := none
  waiting : List RangeCmd := []
  cleaning : List Nat := []
  upAfter : List Nat := []
  disabling : List Nat := []
  ceTimes : SMap (List Nat) := []
deriving DecidableEq, Repr

/-- R312: a DRAM block's side bits as stored: the CRC (`none`: the CRC-32C of the data the block holds), the tag, whether the tag
parity holds, and the three poison bits. -/
structure Side where
  crc : Option (BitVec 32) := none
  tag : Byte := 0
  tagBad : Bool := false
  poison : BitVec 3 := 0
deriving DecidableEq, Repr

/-- R258, R260: a 256-byte block held dirty or clean by a system cache. -/
structure SyscBlock where
  data : List Byte
  side : Side
  dirty : Bool
  carried : Bool
deriving DecidableEq, Repr

/-- R282, R287: the states of a caching agent for a line. -/
inductive LineState where
  | I | S | E | O | M | IS | IM | SM | OM | IMU | MI | OI | II
deriving DecidableEq, Repr

/-- R282, R287: what an agent holds of a line: its state, its 64 bytes while it holds data, poison, and the local event that
waits (R289). -/
structure AgentLine where
  st : LineState := .I
  data : List Byte := []
  poison : Bool := false
  waitLoad : Bool := false
  waitStore : Bool := false
  cover : BitVec 64 := 0
deriving DecidableEq, Repr

/-- R286: who sends a request: a caching agent, or a die for requests that keep no copy. -/
inductive Reqr where
  | agent (a : AgentId) | die (d : DieId)
deriving DecidableEq, Repr

/-- R286: the request messages. -/
inductive ReqKind where
  | rds | rdx | upg | rdcur | wrfull | wrpart | atomic | wb | salvwr
deriving DecidableEq, Repr

/-- R286: the snoops. -/
inductive SnpKind where
  | snps | snpx | snpcur | snpinv
deriving DecidableEq, Repr

/-- R286: the answers. -/
inductive AnsKind where
  | rspI | rspS | rspU | rspIUpx | rspIWbx | rspID | rspOD | rspUD | rspIDWbx | rspIDUpx
deriving DecidableEq, Repr

/-- R286: the replies of a home. -/
inductive RepKind where
  | gnts | gnte | gntm | gntupg | wback | cmp | datacur
deriving DecidableEq, Repr

/-- R266, R286: a request, with its class and the data, mask or atomic it carries. -/
structure Req where
  who : Reqr
  kind : ReqKind
  cls : Fin 32 := 0
  data : List Byte := []
  mask : BitVec 64 := 0
  atomic : Option AtomicOp := none
  poison : Bool := false
deriving DecidableEq, Repr

/-- R286: a message under way. -/
inductive Msg where
  | req (r : Req) | snp (k : SnpKind) (a : AgentId) | ans (k : AnsKind) (a : AgentId) (data : List Byte) (poison : Bool)
  | rep (k : RepKind) (dst : Reqr) (data : List Byte) (poison : Bool) | cmpack (a : AgentId)
deriving DecidableEq, Repr

/-- R337, R338: one hop of a route: the link, its direction (`true`: B to A), and the lane. -/
structure Hop where
  link : Fin 31
  dir : Bool
  lane : Bool
deriving DecidableEq, Repr

/-- R336, R338: a message that waits at a die to cross a link: the line it is about, its lane there, the hops after that one, whether it passes through
the die, the timer at its arrival there, the flits of its kind that have gone before it, and the number of the flit that carries it. -/
structure TxMsg where
  line : Nat
  msg : Msg
  lane : Bool
  rest : List Hop
  through : Bool
  since : Nat
  passed : Nat := 0
  sent : Option (BitVec 12) := none
deriving DecidableEq, Repr

/-- R293: the states of a line at its home. -/
inductive HomeState where
  | free | snoop | mem | ack
deriving DecidableEq, Repr

/-- R290, R293: a line at its home: state, the request served, the requests queued, the agents whose answers are outstanding, the
answers in hand, and whether the memory read has returned. -/
structure HomeLine where
  st : HomeState := .free
  cur : Option Req := none
  asRdx : Bool := false
  queue : List Req := []
  waiting : List AgentId := []
  sharer : Bool := false
  data : Option (List Byte × Bool) := none
  wbx : Bool := false
  mem : Option (List Byte × Bool) := none
deriving DecidableEq, Repr

/-- R281 to R303: the coherent domain: agents' lines (key agent · 2^34 + line), lines at their homes, messages under way by line, those of them that wait to
cross a link (key 2 · link + direction),
WBX and UPX notes, credits held by each die at each home (key die · 16 + home, unlisted: 64), requests without a reply,
the agent whose salvage turn it is, the restart and dump in progress, and R494: the event lines held while the domain is down. -/
structure Coh where
  agents : SMap AgentLine := []
  homes : SMap HomeLine := []
  msgs : List (Nat × Msg) := []
  tx : SMap (List TxMsg) := []
  wbxNotes : List (Nat × Nat) := []
  upxNotes : List (Nat × Nat) := []
  credits : SMap Nat := []
  salvTurn : Option Nat := none
  restartHeld : Bool := false
  restarting : Bool := false
  downSeq : Bool := false
  dump : Option (BitVec 64) := none
  dumpData : List Byte := []
  heldLines : List Nat := []
deriving DecidableEq, Repr

/-- R314, R315, R319: what a request asks of a channel controller. -/
inductive ChanKind where
  | read | write (w : BlockWr) | rmw (off mask : Nat) (d : List Byte) (poison : Bool) (chk : Check) | reread (chk : Check)
deriving DecidableEq, Repr

/-- R319: a request at a channel controller: its block, the channel-local number of it, its class, the timer at its arrival, and whether it has a miss
register (reads and read-modify-writes take one). -/
structure ChanReq where
  blk : Nat
  q : Nat
  cls : Nat
  kind : ChanKind
  at_ : Nat
  reg : Bool := false
deriving DecidableEq, Repr

/-- R317 to R319, R322, R326: a channel controller: open row of each bank (unlisted: none), the bank whose refresh turn is next, times of permanent
events, retraining, the requests that wait in order of arrival, the blocks (channel-local numbers) in the write buffer, and the times of the last interface
errors. -/
structure Chan where
  openRow : SMap (Option Nat) := []
  refreshTurn : Nat := 0
  permTimes : List Nat := []
  retraining : Bool := false
  reqs : List ChanReq := []
  wbuf : List Nat := []
  ifErrs : List Nat := []
deriving DecidableEq, Repr

/-- R321, R323: what a stack's sampling remembers: the sensors that failed the last sample. -/
structure StackState where
  failed : List Nat := []
  ignored : List Nat := []
  hot : Bool := false
deriving DecidableEq, Repr

/-- R333, R343, R344: one direction of a die link: its flit numbers, the replay buffer, whether its receiver discards and its
transmitter owes a replay, the wires not in use, the wires found failing and not yet repaired, the times of the checked flits in
which a wire mismatched, the times of its CRC mismatches, and whether a wire test is due. -/
structure LinkDir where
  txSeq : BitVec 12 := 0
  rxSeq : BitVec 12 := 0
  buffer : List Flit := []
  discarding : Bool := false
  nak : Bool := false
  excluded : List Nat := []
  faulty : List Nat := []
  suspects : SMap (List Nat) := []
  crcTimes : List Nat := []
  testing : Bool := false
deriving DecidableEq, Repr

/-- R332 to R348: a die link: its two directions (A to B, B to A), and whether its training has restarted once. -/
structure Link where
  ab : LinkDir := {}
  ba : LinkDir := {}
  retried : Bool := false
deriving DecidableEq, Repr

/-- R356 to R367: a fabric port: link-layer numbers, replay buffer, credits it holds at the far end for each VC, packets waiting,
the identity frame and heartbeat being confirmed, consecutive NAKs, sideband tokens and framing. -/
structure Port where
  txSeq : BitVec 12 := 0
  rxSeq : BitVec 12 := 0
  buffer : List FabricFlit := []
  discarding : Bool := false
  nakDue : Bool := false
  nak : Bool := false
  nakCount : Nat := 0
  credits : SMap Nat := []
  owed : SMap Nat := []
  egress : List Packet := []
  ingress : List Packet := []
  lastFrame : List Byte := []
  sameFrames : Nat := 0
  identAt : Nat := 0
  lastHb : Nat := 3
  sameHb : Nat := 0
  tokens : List (Byte × Byte) := []
deriving DecidableEq, Repr

/-- Who waits for a packet: operation `id` of a mover or gather engine, a queue of a collective engine, or accession. -/
inductive FlowWho where
  | mov (b : BayId) (m : Fin 4) (id : Nat) | gth (b : BayId) (g : Fin 2) (id : Nat) | ce (f : Fin 2) (q : QueueId) | acc
deriving DecidableEq, Repr

/-- R374: an operation's part that an unacknowledged packet carries: its row, the local address of the first byte, and the data
positions received. -/
structure FlowOwner where
  psn : Nat
  who : FlowWho
  row : Nat := 0
  dst : BitVec 64 := 0
  got : List Nat := []
  rereads : List Nat := []
deriving DecidableEq, Repr

/-- R371: a flow's context words CTX0 to CTX4, and R374, R375: its unacknowledged packets, the record of received PSNs, the
reorder buffer, the results of its last atomics, the retransmissions in a row, whether the last answer was RXQ_FULL, and the head
word of the receive queue as last read. -/
structure FlowState where
  ctx0 : BitVec 64 := 0
  ctx1 : BitVec 64 := 0
  ctx2 : BitVec 64 := 0
  ctx3 : BitVec 64 := 0
  ctx4 : BitVec 64 := 0
  epochKnown : Bool := false
  unacked : List Packet := []
  received : List Nat := []
  reorder : List Packet := []
  atomics : List (Nat × BitVec 64) := []
  retries : Nat := 0
  closing : Bool := false
  owners : List FlowOwner := []
  full : Bool := false
  headSeen : BitVec 32 := 0
deriving DecidableEq, Repr

/-- R373: the translations a fabric die's flow engine caches. -/
structure FlowDie where
  tlb : List (Nat × TlbEntry) := []
deriving DecidableEq, Repr

/-- R390, R397, R398, R409: a collective on a CE queue: its entry, whether it has begun, N, SELF, the root, the members its schedule needs
with their flows and ranks, the tokens sent and the rounds completed, whether its data phase has begun, the values by position in
FP32 or INT32, the poisoned positions, the wire bytes of final values by first position, the transfers of its schedule that are done
(by their number), the chunks sent and not acknowledged, the counts of its narrowings, and the watchdog's last sample. -/
structure Collective where
  entry : List Byte
  begun : Bool := false
  n : Nat := 0
  self : Nat := 0
  root : Nat := 0
  peers : List (Nat × Nat × Nat) := []
  tokSent : Nat := 0
  round : Nat := 0
  data : Bool := false
  work : SMap (BitVec 32) := []
  bad : List Nat := []
  wire : SMap (List Byte) := []
  moved : List Nat := []
  outst : Nat := 0
  sat : Nat := 0
  flush : Nat := 0
  poisoned : Bool := false
  lastCount : Nat := 0
  idle : Nat := 0
deriving DecidableEq, Repr

/-- R407: an arrival token held for a round not yet reached: SEQ[15:0], its round, and the local flow it came on. -/
structure Token where
  seq : Nat
  round : Nat
  flow : Nat
deriving DecidableEq, Repr

/-- R389 to R409: one collective engine. -/
structure CeUnit where
  running : SMap (Option Collective) := []
  tokens : List Token := []
deriving DecidableEq, Repr

/-- R413 to R417: the census of the member: whether it runs, the rank it is pledged to, the coordinator it addresses, whether it
coordinates, the answers collected, the epoch, lead and parts of the verdict being received, whether the queues are held, the
datagrams to resend (rank, type, payload), and the waits that have ended since the last step. -/
structure Job where
  running : Bool := false
  pledged : Option Nat := none
  place : Nat := 0
  coordinating : Bool := false
  answers : List Nat := []
  verdictEpoch : Nat := 0
  verdictLead : Nat := 0
  parts : SMap (List Byte) := []
  held : Bool := false
  resend : List (Nat × Nat × List Byte) := []
  waits : Nat := 0
deriving DecidableEq, Repr

/-- R419 to R422: one child of this module in the accession tree: its rank, port (0xFF: routed) and flow, its grandchildren (rank, port,
flow), whether its ADOPT_ACK is awaited, the chunks it has acknowledged and those announced to it, chunks to write once more, the
chunk being written with the bytes sent, WRITE packets without acknowledgement, and whether it has sent DONE. -/
structure Child where
  rank : Nat
  port : Nat
  flow : Nat
  grand : List (Nat × Nat × Nat) := []
  awaits : Bool := false
  acked : Nat := 0
  sent : Nat := 0
  redo : List Nat := []
  cur : Option (Nat × Nat) := none
  outst : Nat := 0
  done : Bool := false
deriving DecidableEq, Repr

/-- R418 to R424: accession: whether it runs, the mode in force, FANOUT, the parent's rank and port, the children, the chunks verified,
those that failed once, whether this module is an orphan that waits for the lead, and at the lead the orphans to serve. -/
structure Acc where
  running : Bool := false
  mode : Nat := 0
  fanout : Nat := 0
  parent : Nat := 0
  parentPort : Nat := 255
  table : Nat := 0
  total : Nat := 0
  children : List Child := []
  verified : List Nat := []
  failedOnce : List Nat := []
  waitsLead : Bool := false
  doneSent : Bool := false
  orphans : List Nat := []
deriving DecidableEq, Repr

/-- R439 to R443, R447: a host queue: the entry it executes, with the number it has, whether its operation has been performed,
whether the queue is to be suspended when the entry completes, the last address in host space that it has written and not yet read back,
and the read-back before its message (R433: 0 none, 1 under way, 2 done, 3 failed). -/
structure HostQueue where
  entry : List Byte := []
  num : BitVec 32 := 0
  executed : Bool := false
  suspend : Bool := false
  wrote : Option (BitVec 64) := none
  back : Nat := 0
deriving DecidableEq, Repr

/-- R434: a device-DMA read under way, and who waits for it: a host queue's fetch or read-back, or operation `op` of mover m of bay b. -/
inductive DmaWho where
  | hq (q : Fin 16) | hqBack (q : Fin 16) | mov (b : BayId) (m : Fin 4) (op : Nat) | movBack (b : BayId) (m : Fin 4) (op : Nat)
deriving DecidableEq, Repr

/-- R434: one device-DMA read that waits for its completion. -/
structure DmaRead where
  tag : Nat
  who : DmaWho
  addr : BitVec 64
  len : Nat
  off : Nat := 0
deriving DecidableEq, Repr

/-- R429 to R448: the host port: the link (none: down; its width and rate), whether the host's last access ended with a completer-abort
(R43), function reset, MSI-X enable, function mask, per-vector mask, pending and raise bits, the
tracker's ways (key 16 · set + way; line + 1) and pseudo-LRU bits by set, back-invalidates under way (by line: 1 BISnpInv, 2 BISnpCur),
device-DMA reads and writes sent to the host. The tracker's state of a line is agent 16's. -/
structure HostPort where
  link : Option (BitVec 4 × BitVec 2) := none
  compAbort : Bool := false
  funcReset : Bool := true
  perstLow : Bool := true
  msixOn : Bool := false
  msixFuncMask : Bool := false
  msixMask : SMap Bool := []
  msixPend : SMap Bool := []
  msixRaise : SMap Bool := []
  msixSent : List (Fin 64) := []
  ways : SMap Nat := []
  plru : SMap Nat := []
  bi : SMap Nat := []
  queues : SMap HostQueue := []
  dma : List DmaRead := []
  dmaNext : Nat := 0
  writes : List (BitVec 64 × List Byte × Bool) := []
  detaching : Bool := false
deriving DecidableEq, Repr

/-- R466, R485: one compute unit's junction limit (32: none), and whether PACER_CHECK holds its loop level at 4. The loop level is
LEVEL.LOOP of its page. -/
structure Unit72 where
  tj : Nat := 32
  pacerFault : Bool := false
  levels : Nat := 0
deriving DecidableEq, Repr

/-- R454 to R469, R487: power: the allowance, the units, the pulses of the bays' pacers in RATE's window, PBRAKE_N, the causes of the regulator alert (1 a rail or the 6 V bus, 2 VIN low, 3 VIN
high, 4 a converter failure), the brake, its hold and the first period after it, the mode being entered, converters that failed, the
THERMTRIP latch, VIN and whether it has passed 58.5 V, PWR_EN, the main converters, PWR_GOOD, dies above TJ_LIMIT, the bad reads in a row
of each rail, and whether two failed converters have been reported. -/
structure Power where
  allowance : Nat := 288
  units : SMap Unit72 := []
  pulses : Nat := 0
  pbrakeLow : Bool := false
  alerts : List Nat := []
  holding : Bool := false
  braking : Bool := false
  climb : Bool := false
  modeTo : Option Nat := none
  convOut : List Nat := []
  therm : Bool := false
  vin : Nat := 54000
  overV : Bool := false
  pwrEn : Bool := true
  converters : Bool := true
  pwrGood : Bool := true
  tjDies : List Nat := []
  badReads : SMap Nat := []
  convFault : Bool := false
deriving DecidableEq, Repr

/-- R502: a start-ledger entry. -/
structure LedgerEntry where
  seq : Nat
  boot : Nat
  step : Nat
  kind : Nat
  outcome : Nat
  action : Nat
  unit : Nat
  arg : Nat
deriving DecidableEq, Repr

/-- R506: an image copy in MG flash: header and payload as stored (empty: no image). -/
structure ImageCopy where
  header : List Byte := []
  payload : List Byte := []
deriving DecidableEq, Repr

/-- R510: an update in progress. -/
structure Update where
  type : Nat
  copy : Nat
  size : Nat
  next : Nat := 0
deriving DecidableEq, Repr

/-- R496 to R519: the MG die: ledger slots (unlisted: free), next SEQ, BOOT_COUNT, snapshot, the two configuration copies, the
configuration in force, the image copies (key 2·type + copy), ACTIVE and PENDING copies, the copies this start uses, provenance
entries, the update and the configuration write in progress, the queue of R489, heartbeats and reset pins. -/
structure Mg where
  ledger : SMap (Option LedgerEntry) := []
  nextSeq : Nat := 1
  bootCount : Nat := 0
  snapshot : SMap (Option LedgerEntry) := []
  cfgA : List Byte := []
  cfgB : List Byte := []
  cfg : List Byte := []
  cfgBuf : List Byte := []
  images : SMap ImageCopy := []
  active : SMap Nat := []
  pending : SMap (Option Nat) := []
  used : SMap Nat := []
  fell : List Nat := []
  usedPending : List Nat := []
  prov : List (List Byte) := []
  digest : List Byte := []
  update : Option Update := none
  hubQueue : List LedgerEntry := []
  lost : Bool := false
  hubBeat : Nat := 0
  alert : Bool := false
  startStep : Nat := 1
  startDone : Bool := false
  stepEntries : Nat := 0
  recovery : Bool := false
  inReset : Bool := false
deriving DecidableEq, Repr

/-- R2, R506, R514: what manufacture fixes: the grade, each bay's fused-off physical array on a DXT9-B4, the root-key hash, the
anti-rollback counters, the serial number, the certificate chain. -/
structure Fuses where
  gradeB : Bool := false
  fusedOff : SMap (Fin 8) := []
  rootHash : List Byte := []
  svn : SMap Nat := []
  serial : BitVec 64 := 0
  certs : List Byte := []
deriving DecidableEq, Repr

/-- R521 to R530: pins and straps: SLOT as sampled, REFCLK present, the JTAG instruction. -/
structure Pins where
  slot : BitVec 6 := 63
  refclk : Bool := true
  modResetLow : Bool := false
  jtag : TapInstr := .idcode
deriving DecidableEq, Repr

/-- R68: one entry of the module error log. -/
structure LogEntry where
  time : BitVec 64
  addr : BitVec 64
  src : BitVec 32
  code : BitVec 16
  sev : BitVec 8
  va : Bool
  info : BitVec 32
  seq : BitVec 32
deriving DecidableEq, Repr

/-- R20, R219: who holds a reservation, and of which 64-byte line: of the DRAM space or of a bay store. -/
inductive ResvBy where
  | hart (n : CoreId) | thread (b : BayId) (g : Fin 64) (lane : Fin 32)
deriving DecidableEq, Repr

/-- R219: the line of a reservation. -/
inductive ResvLine where
  | dram (line : Nat) | store (b : BayId) (line : Nat)
deriving DecidableEq, Repr

/-- The module. `regs` holds the register fields of all control pages by the key of Machine/Regs.lean (unlisted: the field's
reset value); maps by unit hold only units that differ from their reset state. -/
structure State where
  pending : List Instr := []
  fuses : Fuses := {}
  regs : SMap (BitVec 64) := []
  heldReset : List Nat := []
  log : SMap (Option LogEntry) := []
  bays : SMap Bay := []
  harts : SMap Hart := []
  caches : SMap Cache := []
  sysc : SMap (Option SyscBlock) := []
  dram : SMap Byte := []
  side : SMap Side := []
  coh : Coh := {}
  chans : SMap Chan := []
  stkTemp : SMap StackState := []
  links : SMap Link := []
  ports : SMap Port := []
  routes : SMap (BitVec 32) := []
  catalogue : SMap (BitVec 64) := []
  flows : SMap FlowState := []
  flowDies : SMap FlowDie := []
  ces : SMap CeUnit := []
  job : Job := {}
  acc : Acc := {}
  netOut : List (Fin 2 × Packet) := []
  netIn : List Packet := []
  hostPort : HostPort := {}
  power : Power := {}
  mg : Mg := {}
  pins : Pins := {}
  freeCount : Nat := 0
  resv : List (ResvBy × ResvLine) := []
  resp : List Byte := []
deriving DecidableEq, Repr

/-- Why the model stops. -/
inductive Fault where
  /-- R454, R532: VIN above 60.0 V, where the spec says only that damage is possible. Raised by VIN_CHANGE. Safe: the model
  stops where the spec states nothing. -/
  | absoluteMaximum
deriving DecidableEq, Repr

/-- Why a command has no meaning. -/
inductive Refusal where
  /-- A command whose meaning is not written. Raised by Dispatch only. Safe. -/
  | notModelled (mnemonic : String)
deriving DecidableEq, Repr

/-- The module right after module reset, before start step 1: every register at its Reset column, memories as R328 and R253
leave them, nothing waiting. The maps list nothing: an unlisted unit is in its reset state. -/
def State.reset : State := {}

end Sys2Proof.Machine
end

