-- ==== Sys2Proof/Machine/Pages.lean ====
section
/-! DEFINITION. The control pages: their slots in the DCS (R45, R47, R49), types and instances (R50), capabilities, and the fixed
facts of dies, links and caches that register reset values name (R13, R14, R257, R266). -/

namespace Sys2Proof

/-- R45, R47, R49: the 4 KiB slot of a page, counted from DCS offset 0. -/
def Page.slot : Page → Nat
  | .hub => 0
  | .mgpwr => 0x100
  | .sec => 0x200
  | .coh => 0x300
  | .dlink n => 0x400 + n.val
  | .bayCtl b => 0x1000 + 64 * b.val
  | .doc b => 0x1001 + 64 * b.val
  | .issue b => 0x1002 + 64 * b.val
  | .sync b => 0x1003 + 64 * b.val
  | .pace b => 0x1004 + 64 * b.val
  | .arr b a => 0x1008 + 64 * b.val + a.val
  | .vec b => 0x1010 + 64 * b.val
  | .tgu b => 0x1011 + 64 * b.val
  | .gth b g => 0x1012 + 64 * b.val + g.val
  | .mov b m => 0x1014 + 64 * b.val + m.val
  | .store b => 0x1018 + 64 * b.val
  | .bcache b => 0x1019 + 64 * b.val
  | .xlate b => 0x101A + 64 * b.val
  | .mchan s c => 0x2000 + 32 * s.val + c.val
  | .sysc s => 0x2400 + s.val
  | .fport p => 0x2800 + p.val
  | .router f => 0x2A00 + f.val
  | .flow f => 0x2A10 + f.val
  | .ce f => 0x2A20 + f.val
  | .host => 0x2C00
  | .pdCtl d => 0x3000 + 256 * d.val
  | .clus d j => 0x3001 + 256 * d.val + j.val
  | .l3 d => 0x3008 + 256 * d.val
  | .core n => 0x3010 + 256 * (n.val / 48) + n.val % 48

/-- `Fin n` from a number, if it is below `n`. -/
def finOf (n k : Nat) : Option (Fin n) := if h : k < n then some ⟨k, h⟩ else none

/-- R47: the page in slot `j` of the region of bay `b`. -/
def bayPage (b : BayId) (j : Nat) : Option Page :=
  if j = 0 then some (.bayCtl b) else if j = 1 then some (.doc b) else if j = 2 then some (.issue b)
  else if j = 3 then some (.sync b) else if j = 4 then some (.pace b) else if j < 8 then none
  else if j < 16 then (finOf 8 (j - 8)).map (.arr b) else if j = 16 then some (.vec b) else if j = 17 then some (.tgu b)
  else if j < 20 then (finOf 2 (j - 18)).map (.gth b) else if j < 24 then (finOf 4 (j - 20)).map (.mov b)
  else if j = 24 then some (.store b) else if j = 25 then some (.bcache b) else if j = 26 then some (.xlate b) else none

/-- R49: the page in slot `j` of the region of processor die `d`. -/
def pdPage (d : Fin 4) (j : Nat) : Option Page :=
  if j = 0 then some (.pdCtl d) else if j < 7 then (finOf 6 (j - 1)).map (.clus d) else if j = 7 then none
  else if j = 8 then some (.l3 d) else if j < 16 then none
  else if j < 64 then (finOf 192 (48 * d.val + (j - 16))).map .core else none

/-- R45, R46: the page whose slot is `k`, if the slot holds one. -/
def pageOfSlot (k : Nat) : Option Page :=
  if k = 0 then some .hub else if k = 0x100 then some .mgpwr else if k = 0x200 then some .sec
  else if k = 0x300 then some .coh else if k < 0x400 then none
  else if k < 0x41F then (finOf 31 (k - 0x400)).map .dlink
  else if k < 0x1000 then none
  else if k < 0x1C00 then (finOf 48 ((k - 0x1000) / 64)).bind (fun b => bayPage b ((k - 0x1000) % 64))
  else if k < 0x2000 then none
  else if k < 0x2200 then (finOf 16 ((k - 0x2000) / 32)).bind (fun s => (finOf 32 ((k - 0x2000) % 32)).map (.mchan s))
  else if k < 0x2400 then none
  else if k < 0x2410 then (finOf 16 (k - 0x2400)).map .sysc
  else if k < 0x2800 then none
  else if k < 0x2820 then (finOf 32 (k - 0x2800)).map .fport
  else if k = 0x2A00 then some (.router 0) else if k = 0x2A01 then some (.router 1)
  else if k = 0x2A10 then some (.flow 0) else if k = 0x2A11 then some (.flow 1)
  else if k = 0x2A20 then some (.ce 0) else if k = 0x2A21 then some (.ce 1)
  else if k = 0x2C00 then some .host
  else if k < 0x3000 then none
  else if k < 0x3400 then (finOf 4 ((k - 0x3000) / 256)).bind (fun d => pdPage d ((k - 0x3000) % 256))
  else none

/-- R50: PG_ID.TYPE. -/
def Page.type : Page → Nat
  | .hub => 0x0001 | .mgpwr => 0x0002 | .sec => 0x0003 | .coh => 0x0004 | .dlink _ => 0x0005
  | .bayCtl _ => 0x0010 | .doc _ => 0x0011 | .issue _ => 0x0012 | .sync _ => 0x0013 | .pace _ => 0x0014
  | .arr _ _ => 0x0018 | .vec _ => 0x0020 | .tgu _ => 0x0021 | .gth _ _ => 0x0022 | .mov _ _ => 0x0023
  | .store _ => 0x0024 | .bcache _ => 0x0025 | .xlate _ => 0x0026
  | .mchan _ _ => 0x0030 | .sysc _ => 0x0031 | .fport _ => 0x0040 | .router _ => 0x0041 | .flow _ => 0x0042
  | .ce _ => 0x0043 | .host => 0x0050 | .pdCtl _ => 0x0060 | .clus _ _ => 0x0061 | .l3 _ => 0x0062 | .core _ => 0x0063

/-- R47, R49, R50: PG_ID.INSTANCE. -/
def Page.inst : Page → Nat
  | .dlink n => n.val
  | .bayCtl b => b.val | .doc b => b.val | .issue b => b.val | .sync b => b.val | .pace b => b.val
  | .arr b a => 8 * b.val + a.val
  | .vec b => b.val | .tgu b => b.val | .gth b g => 2 * b.val + g.val | .mov b m => 4 * b.val + m.val
  | .store b => b.val | .bcache b => b.val | .xlate b => b.val
  | .mchan s c => 32 * s.val + c.val | .sysc s => s.val
  | .fport p => p.val | .router f => f.val | .flow f => f.val | .ce f => f.val
  | .pdCtl d => d.val | .clus d j => 6 * d.val + j.val | .l3 d => d.val | .core n => n.val
  | _ => 0

/-- PG_CAP.RUNCTL, SLEEPCTL, EPOCHCHK and RETAINED, each from its block's rule (R19, R20, R66, R122, R152, R187, R189, R192,
R222, R253, R254, R256, R278, R304, R329, R350, R382, R384, R385, R425, R450, R474, R476, R478, R519). -/
def Page.runctl : Page → Bool
  | .core _ | .doc _ | .issue _ | .arr _ _ | .vec _ | .tgu _ | .gth _ _ | .mov _ _ | .xlate _ | .fport _ | .router _
  | .flow _ | .ce _ | .host => true
  | _ => false

/-- PG_CAP.SLEEPCTL. -/
def Page.sleepctl : Page → Bool
  | .pdCtl _ | .core _ | .bayCtl _ | .doc _ | .issue _ | .arr _ _ | .vec _ | .tgu _ | .gth _ _ | .mov _ _ | .xlate _
  | .fport _ => true
  | _ => false

/-- R425: only the CE pages carry epochs in their commands. -/
def Page.epochchk : Page → Bool
  | .ce _ => true
  | _ => false

/-- PG_CAP.RETAINED. -/
def Page.retained : Page → Bool
  | .core _ | .arr _ _ | .doc _ | .bayCtl _ | .bcache _ | .l3 _ | .sysc _ | .router _ | .ce _ | .host | .mgpwr => true
  | _ => false

/-- PG_CAP.BLOCK, but for the CHECK and SPARE bits of an array (R122), which follow CHECK.MODE. -/
def Page.block : Page → Nat
  | .pdCtl _ => 48 | .core n => n.val | .arr _ _ => 4
  | .vec _ => 32 + 4 * 2 ^ 6 | .doc _ => 64 + 64 * 2 ^ 8 | .issue _ => 4 + 8 * 2 ^ 3 | .sync _ => 64 + 16 * 2 ^ 7
  | .tgu _ => 64 + 8 * 2 ^ 7 + 24 * 2 ^ 11
  | .store _ => 64 | .mov _ _ => 4 | .gth _ _ => 512 + 2 * 2 ^ 10 | .xlate _ => 1024
  | .l3 _ => 24 | .bcache _ => 16 | .sysc _ => 16
  | .coh => 17 + 16 * 2 ^ 5 + 18 * 2 ^ 10
  | .mchan _ _ => 32 + 128 * 2 ^ 6
  | .dlink n => if n.val = 9 ∨ n.val = 10 ∨ n.val = 23 ∨ n.val = 24 then 512 + 8 * 2 ^ 13 else 4096 + 64 * 2 ^ 13
  | .fport _ => 8 | .flow _ => 131072 | .ce _ => 4 | .host => 16 + 256 * 2 ^ 5
  | .mgpwr => 20 | .pace _ => 4 | .clus _ _ => 4
  | _ => 0

/-- R66, R192, R253, R304, R474, R519: pages that are always RUNNING; R277, R476 (DEDUCED): pages that are RUNNING while their
unit is awake, as every unit is after module reset. -/
def Page.alwaysRunning : Page → Bool
  | .hub | .mgpwr | .sec | .coh | .store _ | .sync _ => true
  | _ => false

/-- PG_STATE.STATE after module reset: RUNNING for the pages of `alwaysRunning` and, DEDUCED from R476 and R277, for those of
units that are awake after reset; STOPPED for the others (R51). -/
def Page.resetState (p : Page) : Nat :=
  if p.alwaysRunning then 4 else match p with
  | .pace _ | .clus _ _ | .l3 _ | .bcache _ | .sysc _ => 4
  | _ => 2

/-- R11, R51, R63: the highest event bit that a page's chapter gives; 15 where it gives none. -/
def Page.evtTop : Page → Nat
  | .hub | .sec | .coh | .dlink _ | .arr _ _ | .bcache _ | .l3 _ | .sysc _ => 18
  | .mgpwr | .mchan _ _ | .host => 19
  | .fport _ | .ce _ => 20
  | .issue _ | .vec _ | .tgu _ | .flow _ => 17
  | .bayCtl _ | .doc _ | .pace _ | .clus _ _ | .gth _ _ | .mov _ _ | .store _ | .router _ | .pdCtl _ => 16
  | .sync _ | .xlate _ | .core _ => 15

/-- R11, R63: the bits of PG_EVTEN that are not reserved. -/
def Page.evtMask (p : Page) : Nat := 7 + (2 ^ (p.evtTop + 1) - 2 ^ 16)

/-- R257: ways of the cache of a page. -/
def Page.ways : Page → Nat
  | .l3 _ => 24
  | _ => 16

/-- R257: line size of the cache of a page, as a power of two. -/
def Page.log2line : Page → Nat
  | .sysc _ => 8
  | _ => 6

/-- R257: slices. -/
def Page.slices : Page → Nat
  | .l3 _ => 16 | .bcache _ => 4 | _ => 32

/-- R257: sets per slice. -/
def Page.sets : Page → Nat
  | .l3 _ => 8192 | .bcache _ => 2048 | _ => 512

/-- R257: miss registers. -/
def Page.missRegs : Page → Nat
  | .l3 _ => 512 | .bcache _ => 256 | _ => 1024

/-- R266: whether requester class `i` reaches the cache of a page. -/
def Page.reaches (p : Page) (i : Nat) : Bool :=
  match p with
  | .l3 d => decide (6 * d.val ≤ i ∧ i < 6 * d.val + 6)
  | .bcache _ => decide (24 ≤ i ∧ i ≤ 27)
  | .sysc _ => decide (i < 30)
  | _ => false

/-- R14, with the die codes of R351: the two ends of die link n. -/
def linkEnds (n : Nat) : Nat × Nat :=
  ([(0, 4), (4, 16), (16, 10), (10, 6), (1, 12), (12, 18), (18, 14), (14, 7), (2, 13), (13, 19), (19, 15), (15, 8),
    (3, 5), (5, 17), (17, 11), (11, 9), (0, 1), (1, 2), (2, 3), (4, 12), (12, 13), (13, 5), (16, 18), (18, 19), (19, 17),
    (10, 14), (14, 15), (15, 11), (6, 7), (7, 8), (8, 9)] : List (Nat × Nat)).getD n (0, 0)

/-- R283: the links of the two snoop rings. -/
def linkRing (n : Nat) : Bool :=
  [0, 1, 2, 3, 28, 29, 30, 15, 27, 26, 6, 5, 20, 21, 12, 18, 17, 16].contains n

/-- R347: the links that carry the beat clock to a child. -/
def linkTree (n : Nat) : Bool :=
  [5, 6, 22, 23, 4, 19, 20, 7, 25, 26, 8, 21, 11, 27, 16, 18, 28, 30, 13].contains n

/-- R15, R332: the links of the MG die. -/
def linkMgmt (n : Nat) : Bool := [9, 10, 23, 24].contains n

/-- R17, R13: the matrix die of a bay, and R18: the processor die of a core, as die codes of R351. -/
def bayDie (b : BayId) : Nat := b.val / 4

/-- R18: the die code of the processor die of a core. -/
def coreDie (n : CoreId) : Nat := 12 + n.val / 48

/-- The page of a cache. -/
def CacheId.page : CacheId → Page
  | .l3 d => .l3 d | .bcache b => .bcache b | .sysc s => .sysc s

/-- The cache of a page. -/
def cacheOfPage : Page → Option CacheId
  | .l3 d => some (.l3 d) | .bcache b => some (.bcache b) | .sysc t => some (.sysc t)
  | _ => none

/-- The key of a cache in the state: L3s, then bay caches, then system caches. -/
def CacheId.key : CacheId → Nat
  | .l3 d => d.val | .bcache b => 4 + b.val | .sysc s => 52 + s.val

end Sys2Proof
end

