-- ==== Sys2Proof/Machine/Regs.lean ====
section
/-! DEFINITION. The register tables of the control pages, field by field, from the spec's own tables, and the one store of register
fields: reading, writing, reset values, access codes (R10 to R12). -/

namespace Sys2Proof.Machine

/-- The access codes of a register field. -/
inductive Access where
  | ro | rw | rwl | w1s | w1c
deriving DecidableEq, Repr

/-- One field of a register table: page offset of its register, least significant bit, width, access code, whether it is
retained (R12), reset value. -/
structure Row where
  off : Nat
  lsb : Nat
  width : Nat
  acc : Access
  ret : Bool
  rst : Page → Nat

/-- R51: PG_EPOCH. -/
def hdrEpoch : Row := ⟨0x00C, 0, 32, .ro, true, fun _ => 0⟩
/-- R51: PG_STATE.STATE. -/
def hdrState : Row := ⟨0x014, 0, 4, .ro, false, fun p => p.resetState⟩
/-- R51: PG_STATE.BUSY. -/
def hdrBusy : Row := ⟨0x014, 8, 1, .ro, false, fun _ => 0⟩
/-- R51: PG_ERR. -/
def hdrErr : Row := ⟨0x018, 0, 32, .w1c, false, fun _ => 0⟩
/-- R51: PG_ERRINFO. -/
def hdrErrInfo : Row := ⟨0x01C, 0, 32, .ro, false, fun _ => 0⟩
/-- R51: PG_ERRADDR. -/
def hdrErrAddr : Row := ⟨0x020, 0, 64, .ro, false, fun _ => 0⟩
/-- R51: PG_EVTEN. -/
def hdrEvtEn : Row := ⟨0x028, 0, 32, .rwl, false, fun _ => 0⟩
/-- R51: PG_EVT. -/
def hdrEvt : Row := ⟨0x02C, 0, 32, .w1c, false, fun _ => 0⟩
/-- R51, R31: PG_STEPS. -/
def hdrSteps : Row := ⟨0x030, 0, 64, .ro, true, fun _ => 0⟩
/-- R51: the fields of the common header that are stored. PG_ID, PG_VER and PG_CAP are constants; PG_CTRL reads 0. -/
def hdrRows : List Row :=
  [hdrEpoch, hdrState, hdrBusy, hdrErr, hdrErrInfo, hdrErrAddr, hdrEvtEn, hdrEvt, hdrSteps]

/-- R19: RUN_MASK.CORES. -/
def pdRunMask : Row := ⟨0x100, 0, 48, .ro, false, fun _ => 0⟩
/-- R19: OFF_MASK.CORES. -/
def pdOffMask : Row := ⟨0x108, 0, 48, .ro, false, fun _ => 0⟩
/-- R19: LEFT_OFF.CORES. -/
def pdLeftOff : Row := ⟨0x110, 0, 48, .ro, false, fun _ => 0⟩
/-- The block registers of a pd page. -/
def pdRows : List Row :=
  [pdRunMask, pdOffMask, pdLeftOff]

/-- R21: START_PC.ADDR. -/
def coreStartPc : Row := ⟨0x100, 0, 64, .rw, true, fun _ => 0⟩
/-- R21: PC.PC. -/
def corePc : Row := ⟨0x108, 0, 64, .rw, false, fun _ => 0⟩
/-- R21: HART.HARTID. -/
def coreHartHartid : Row := ⟨0x110, 0, 8, .ro, false, fun p => p.inst⟩
/-- R21: HART.CLUSTER. -/
def coreHartCluster : Row := ⟨0x110, 8, 5, .ro, false, fun p => p.inst / 8⟩
/-- R21: CE_COUNT.COUNT. -/
def coreCeCount : Row := ⟨0x114, 0, 32, .ro, false, fun _ => 0⟩
/-- R21: UE_COUNT.COUNT. -/
def coreUeCount : Row := ⟨0x118, 0, 32, .ro, false, fun _ => 0⟩
/-- The block registers of a core page. -/
def coreRows : List Row :=
  [coreStartPc, corePc, coreHartHartid, coreHartCluster, coreCeCount, coreUeCount]

/-- R66: RST_CAUSE.CAUSE. -/
def hubRstCause : Row := ⟨0x104, 0, 4, .ro, false, fun _ => 1⟩
/-- R66: RST_CTL.DOMAIN_RESTART. -/
def hubRstCtlDomainRestart : Row := ⟨0x108, 0, 1, .w1s, false, fun _ => 0⟩
/-- R66: RST_CTL.MODULE_RESET. -/
def hubRstCtlModuleReset : Row := ⟨0x108, 1, 1, .w1s, false, fun _ => 0⟩
/-- R66: RST_CTL.KEY. -/
def hubRstCtlKey : Row := ⟨0x108, 16, 16, .rwl, false, fun _ => 0⟩
/-- R66: DOMAIN.UP. -/
def hubDomainUp : Row := ⟨0x10C, 0, 1, .ro, false, fun _ => 0⟩
/-- R66: DOMAIN.DOWN_CAUSE. -/
def hubDomainDownCause : Row := ⟨0x10C, 8, 8, .ro, false, fun _ => 0⟩
/-- R66: DOMAIN.RESTARTS. -/
def hubDomainRestarts : Row := ⟨0x10C, 16, 16, .ro, false, fun _ => 0⟩
/-- R66: TIMER.TIME. -/
def hubTimer : Row := ⟨0x110, 0, 64, .ro, false, fun _ => 0⟩
/-- R66: BOOT_COUNT.COUNT. -/
def hubBootCount : Row := ⟨0x118, 0, 32, .ro, true, fun _ => 0⟩
/-- R66: LOG_OVF.COUNT. -/
def hubLogOvf : Row := ⟨0x11C, 0, 32, .ro, false, fun _ => 0⟩
/-- R66: LOG_HEAD.HEAD. -/
def hubLogHead : Row := ⟨0x120, 0, 32, .ro, false, fun _ => 0⟩
/-- R66: LOG_TAIL.TAIL. -/
def hubLogTail : Row := ⟨0x124, 0, 32, .rwl, false, fun _ => 0⟩
/-- R66: CLKSTAT.HOLDOVER. -/
def hubClkstatHoldover : Row := ⟨0x128, 0, 1, .ro, false, fun _ => 0⟩
/-- R66: CLKSTAT.REFCLK_OK. -/
def hubClkstatRefclkOk : Row := ⟨0x128, 1, 1, .ro, false, fun _ => 1⟩
/-- R66: METER i.PS. -/
def hubMeter (i : Nat) : Row := ⟨0x200 + 2 * i, 0, 16, .ro, false, fun _ => 0⟩
/-- The block registers of a hub page. -/
def hubRows : List Row :=
  [hubRstCause, hubRstCtlDomainRestart, hubRstCtlModuleReset, hubRstCtlKey, hubDomainUp, hubDomainDownCause, hubDomainRestarts, hubTimer, hubBootCount, hubLogOvf, hubLogHead, hubLogTail, hubClkstatHoldover, hubClkstatRefclkOk] ++
  (List.range 75).map hubMeter

/-- R86: SR_SEED.SEED. -/
def baySrSeed : Row := ⟨0x100, 0, 32, .rwl, false, fun _ => 1⟩
/-- R477: SLEEP_CFG.DEPTH. -/
def baySleepCfg : Row := ⟨0x104, 0, 1, .rwl, false, fun _ => 0⟩
/-- R477: WAKES.COUNT. -/
def bayWakes : Row := ⟨0x108, 0, 32, .ro, true, fun _ => 0⟩
/-- The block registers of a bay page. -/
def bayRows : List Row :=
  [baySrSeed, baySleepCfg, bayWakes]

/-- R123: MFD_BASE.ADDR. -/
def arrMfdBase : Row := ⟨0x100, 6, 21, .rw, false, fun _ => 0⟩
/-- R123: MFD_COUNT.COUNT. -/
def arrMfdCount : Row := ⟨0x104, 0, 9, .rw, false, fun _ => 0⟩
/-- R123: CHECK.EN. -/
def arrCheckEn : Row := ⟨0x108, 0, 1, .rw, false, fun _ => 1⟩
/-- R123: CHECK.MODE. -/
def arrCheckMode : Row := ⟨0x108, 1, 3, .ro, true, fun _ => 0⟩
/-- R123: CHECK.COL. -/
def arrCheckCol : Row := ⟨0x108, 8, 6, .ro, true, fun _ => 0⟩
/-- R123: CHECK.SPARE_COL. -/
def arrCheckSpareCol : Row := ⟨0x108, 16, 6, .ro, true, fun _ => 0⟩
/-- R123: CHK_LOG.LAST_COL. -/
def arrChkLogLastCol : Row := ⟨0x10C, 0, 6, .ro, true, fun _ => 0⟩
/-- R123: CHK_LOG.LAST_VALID. -/
def arrChkLogLastValid : Row := ⟨0x10C, 6, 1, .ro, true, fun _ => 0⟩
/-- R123: CHK_LOG.COUNT. -/
def arrChkLogCount : Row := ⟨0x10C, 8, 8, .ro, true, fun _ => 0⟩
/-- R123: LAST_TSR.TSR. -/
def arrLastTsr : Row := ⟨0x110, 0, 64, .ro, false, fun _ => 0⟩
/-- R123: ACC.VALID. -/
def arrAccValid : Row := ⟨0x118, 0, 1, .ro, false, fun _ => 0⟩
/-- R123: ACC.FMT. -/
def arrAccFmt : Row := ⟨0x118, 1, 2, .ro, false, fun _ => 0⟩
/-- The block registers of a arr page. -/
def arrRows : List Row :=
  [arrMfdBase, arrMfdCount, arrCheckEn, arrCheckMode, arrCheckCol, arrCheckSpareCol, arrChkLogLastCol, arrChkLogLastValid, arrChkLogCount, arrLastTsr, arrAccValid, arrAccFmt]

/-- R153: VPD_BASE.ADDR. -/
def vecVpdBase : Row := ⟨0x100, 6, 21, .rw, false, fun _ => 0⟩
/-- R153: VPD_COUNT.COUNT. -/
def vecVpdCount : Row := ⟨0x104, 0, 9, .rw, false, fun _ => 0⟩
/-- R153: FLAGS.STICKY. -/
def vecFlags : Row := ⟨0x108, 0, 4, .w1c, false, fun _ => 0⟩
/-- R153: TRAP_INFO.INDEX. -/
def vecTrapInfoIndex : Row := ⟨0x10C, 0, 24, .ro, false, fun _ => 0⟩
/-- R153: TRAP_INFO.FLAG. -/
def vecTrapInfoFlag : Row := ⟨0x10C, 24, 4, .ro, false, fun _ => 0⟩
/-- R153: PASS_SEQ.SEQ. -/
def vecPassSeq : Row := ⟨0x110, 0, 32, .ro, false, fun _ => 0⟩
/-- The block registers of a vec page. -/
def vecRows : List Row :=
  [vecVpdBase, vecVpdCount, vecFlags, vecTrapInfoIndex, vecTrapInfoFlag, vecPassSeq]

/-- R154: SUM.SUM. -/
def vecSlotSum (s : Nat) : Row := ⟨0x200 + 0x40 * s + 0, 0, 64, .ro, false, fun _ => 0⟩
/-- R154: MAX.MAX. -/
def vecSlotMax (s : Nat) : Row := ⟨0x200 + 0x40 * s + 8, 0, 64, .ro, false, fun _ => 0⟩
/-- R154: MIN.MIN. -/
def vecSlotMin (s : Nat) : Row := ⟨0x200 + 0x40 * s + 16, 0, 64, .ro, false, fun _ => 0⟩
/-- R154: ACTIVE.COUNT. -/
def vecSlotActive (s : Nat) : Row := ⟨0x200 + 0x40 * s + 24, 0, 32, .ro, false, fun _ => 0⟩
/-- R154: NZ.COUNT. -/
def vecSlotNz (s : Nat) : Row := ⟨0x200 + 0x40 * s + 28, 0, 32, .ro, false, fun _ => 0⟩
/-- R154: NAN.COUNT. -/
def vecSlotNan (s : Nat) : Row := ⟨0x200 + 0x40 * s + 32, 0, 32, .ro, false, fun _ => 0⟩
/-- R154: SAT.COUNT. -/
def vecSlotSat (s : Nat) : Row := ⟨0x200 + 0x40 * s + 36, 0, 32, .ro, false, fun _ => 0⟩
/-- R154: FLUSH.COUNT. -/
def vecSlotFlush (s : Nat) : Row := ⟨0x200 + 0x40 * s + 40, 0, 32, .ro, false, fun _ => 0⟩
/-- R154: SFLAGS.VALID. -/
def vecSlotSflagsValid (s : Nat) : Row := ⟨0x200 + 0x40 * s + 44, 0, 1, .ro, false, fun _ => 0⟩
/-- R154: SFLAGS.POISONED. -/
def vecSlotSflagsPoisoned (s : Nat) : Row := ⟨0x200 + 0x40 * s + 44, 1, 1, .ro, false, fun _ => 0⟩
/-- R154: SFLAGS.FLAGS. -/
def vecSlotSflagsFlags (s : Nat) : Row := ⟨0x200 + 0x40 * s + 44, 2, 4, .ro, false, fun _ => 0⟩
/-- R154: SEQ.SEQ. -/
def vecSlotSeq (s : Nat) : Row := ⟨0x200 + 0x40 * s + 48, 0, 32, .ro, false, fun _ => 0⟩
/-- The block registers of a vecSlot page. -/
def vecSlotRows : List Row :=
  (List.range 4).map vecSlotSum ++
  (List.range 4).map vecSlotMax ++
  (List.range 4).map vecSlotMin ++
  (List.range 4).map vecSlotActive ++
  (List.range 4).map vecSlotNz ++
  (List.range 4).map vecSlotNan ++
  (List.range 4).map vecSlotSat ++
  (List.range 4).map vecSlotFlush ++
  (List.range 4).map vecSlotSflagsValid ++
  (List.range 4).map vecSlotSflagsPoisoned ++
  (List.range 4).map vecSlotSflagsFlags ++
  (List.range 4).map vecSlotSeq

/-- R187: ENTRY.ADDR. -/
def docEntry : Row := ⟨0x100, 1, 15, .rw, true, fun _ => 0⟩
/-- R187: PC.PC. -/
def docPc : Row := ⟨0x108, 0, 64, .rw, false, fun _ => 0⟩
/-- R187: MEM_ADDR.OFFSET. -/
def docMemAddrOffset : Row := ⟨0x110, 3, 13, .rw, false, fun _ => 0⟩
/-- R187: MEM_ADDR.SPACE. -/
def docMemAddrSpace : Row := ⟨0x110, 16, 1, .rw, false, fun _ => 0⟩
/-- R187: MEM_DATA.DATA. -/
def docMemData : Row := ⟨0x118, 0, 64, .rw, false, fun _ => 0⟩
/-- R187: STATUS.STATE. -/
def docStatusState : Row := ⟨0x120, 0, 2, .ro, false, fun _ => 0⟩
/-- R187: STATUS.WAITING. -/
def docStatusWaiting : Row := ⟨0x120, 2, 1, .ro, false, fun _ => 0⟩
/-- R187: STATUS.PUSH_STALL. -/
def docStatusPushStall : Row := ⟨0x120, 3, 1, .ro, false, fun _ => 0⟩
/-- R187: STATUS.AFP_STALL. -/
def docStatusAfpStall : Row := ⟨0x120, 4, 1, .ro, false, fun _ => 0⟩
/-- R187: TRAP_CAUSE.CAUSE. -/
def docTrapCause : Row := ⟨0x124, 0, 32, .ro, false, fun _ => 0⟩
/-- R187: TRAP_PC.PC. -/
def docTrapPc : Row := ⟨0x128, 0, 64, .ro, false, fun _ => 0⟩
/-- R187: TRAP_VAL.VAL. -/
def docTrapVal : Row := ⟨0x130, 0, 64, .ro, false, fun _ => 0⟩
/-- R187: AWAIT.WAIT. -/
def docAwait : Row := ⟨0x138, 0, 8, .ro, false, fun _ => 0⟩
/-- R187: AWAIT_THR.THR. -/
def docAwaitThr : Row := ⟨0x13C, 0, 32, .ro, false, fun _ => 0⟩
/-- The block registers of a doc page. -/
def docRows : List Row :=
  [docEntry, docPc, docMemAddrOffset, docMemAddrSpace, docMemData, docStatusState, docStatusWaiting, docStatusPushStall, docStatusAfpStall, docTrapCause, docTrapPc, docTrapVal, docAwait, docAwaitThr]

/-- R119, R189: ISSUE.ARRAYS; 15 stands for the count that fusing leaves, which the register reads until start step 8 sets it (`arrCount`). -/
def issArrays : Row := ⟨0x100, 0, 4, .ro, false, fun _ => 15⟩
/-- R189: COLL_VER.VER. -/
def issCollVer : Row := ⟨0x104, 0, 32, .ro, false, fun _ => 0⟩
/-- R189: NOTIFY.CODE. -/
def issNotifyCode : Row := ⟨0x108, 0, 8, .ro, false, fun _ => 0⟩
/-- R189: NOTIFY.COUNT. -/
def issNotifyCount : Row := ⟨0x108, 8, 24, .ro, false, fun _ => 0⟩
/-- R189: DLOCK.QMASK. -/
def issDlockQmask : Row := ⟨0x10C, 0, 4, .ro, false, fun _ => 0⟩
/-- R189: DLOCK.DOC. -/
def issDlockDoc : Row := ⟨0x10C, 4, 1, .ro, false, fun _ => 0⟩
/-- R189: DLOCK.DECLARED. -/
def issDlockDeclared : Row := ⟨0x10C, 8, 1, .ro, false, fun _ => 0⟩
/-- R189: AFf_PUSH.VALUE. -/
def issAfPush (f : Nat) : Row := ⟨0x120 + 0x10 * f, 0, 64, .rwl, false, fun _ => 0⟩
/-- R189: AFf_LEVEL.LEVEL. -/
def issAfLevel (f : Nat) : Row := ⟨0x128 + 0x10 * f, 0, 9, .ro, false, fun _ => 0⟩
/-- R189: Qq.QCFG.MODE. -/
def issQQcfg (q : Nat) : Row := ⟨0x200 + 0x40 * q + 0, 0, 1, .rw, false, fun _ => 0⟩
/-- R189: Qq.RING_BASE.VA. -/
def issQRingBase (q : Nat) : Row := ⟨0x200 + 0x40 * q + 8, 0, 64, .rw, false, fun _ => 0⟩
/-- R189: Qq.RING_SIZE.WORDS. -/
def issQRingSize (q : Nat) : Row := ⟨0x200 + 0x40 * q + 16, 0, 32, .rw, false, fun _ => 0⟩
/-- R189: Qq.DOORBELL.ADD. -/
def issQDoorbell (q : Nat) : Row := ⟨0x200 + 0x40 * q + 20, 0, 32, .rwl, false, fun _ => 0⟩
/-- R189: Qq.PROD.PROD. -/
def issQProd (q : Nat) : Row := ⟨0x200 + 0x40 * q + 24, 0, 32, .ro, false, fun _ => 0⟩
/-- R189: Qq.CONS.CONS. -/
def issQCons (q : Nat) : Row := ⟨0x200 + 0x40 * q + 28, 0, 32, .ro, false, fun _ => 0⟩
/-- R189: Qq.QSEQ.SEQ. -/
def issQQseq (q : Nat) : Row := ⟨0x200 + 0x40 * q + 32, 0, 32, .ro, false, fun _ => 0⟩
/-- R189: Qq.QSTAT.STATE. -/
def issQQstatState (q : Nat) : Row := ⟨0x200 + 0x40 * q + 36, 0, 3, .ro, false, fun _ => 0⟩
/-- R189: Qq.QSTAT.DEPTH. -/
def issQQstatDepth (q : Nat) : Row := ⟨0x200 + 0x40 * q + 36, 3, 4, .ro, false, fun _ => 0⟩
/-- R189: Qq.QSTAT.REC. -/
def issQQstatRec (q : Nat) : Row := ⟨0x200 + 0x40 * q + 36, 7, 1, .ro, false, fun _ => 0⟩
/-- R189: Qq.QSTAT.PENDING. -/
def issQQstatPending (q : Nat) : Row := ⟨0x200 + 0x40 * q + 36, 8, 6, .ro, false, fun _ => 0⟩
/-- R189: Qq.AWAIT.WAIT. -/
def issQAwaitWait (q : Nat) : Row := ⟨0x200 + 0x40 * q + 40, 0, 8, .ro, false, fun _ => 0⟩
/-- R189: Qq.AWAIT.SLOT. -/
def issQAwaitSlot (q : Nat) : Row := ⟨0x200 + 0x40 * q + 40, 8, 3, .ro, false, fun _ => 0⟩
/-- R189: Qq.AWAIT.VALID. -/
def issQAwaitValid (q : Nat) : Row := ⟨0x200 + 0x40 * q + 40, 11, 1, .ro, false, fun _ => 0⟩
/-- R189: Qq.AWAIT_THR.THR. -/
def issQAwaitThr (q : Nat) : Row := ⟨0x200 + 0x40 * q + 44, 0, 32, .ro, false, fun _ => 0⟩
/-- R189: Qq.HEADPTR.ADDR. -/
def issQHeadptrAddr (q : Nat) : Row := ⟨0x200 + 0x40 * q + 48, 0, 63, .ro, false, fun _ => 0⟩
/-- R189: Qq.HEADPTR.SRC. -/
def issQHeadptrSrc (q : Nat) : Row := ⟨0x200 + 0x40 * q + 48, 63, 1, .ro, false, fun _ => 0⟩
/-- R189: Qq.PARAMn.VALUE. -/
def issQParam (q : Nat) (n : Nat) : Row := ⟨0x400 + 0x100 * q + 8 * n, 0, 64, .rwl, false, fun _ => 0⟩
/-- The block registers of a iss page. -/
def issRows : List Row :=
  [issArrays, issCollVer, issNotifyCode, issNotifyCount, issDlockQmask, issDlockDoc, issDlockDeclared] ++
  (List.range 4).map issAfPush ++
  (List.range 4).map issAfLevel ++
  (List.range 4).map issQQcfg ++
  (List.range 4).map issQRingBase ++
  (List.range 4).map issQRingSize ++
  (List.range 4).map issQDoorbell ++
  (List.range 4).map issQProd ++
  (List.range 4).map issQCons ++
  (List.range 4).map issQQseq ++
  (List.range 4).map issQQstatState ++
  (List.range 4).map issQQstatDepth ++
  (List.range 4).map issQQstatRec ++
  (List.range 4).map issQQstatPending ++
  (List.range 4).map issQAwaitWait ++
  (List.range 4).map issQAwaitSlot ++
  (List.range 4).map issQAwaitValid ++
  (List.range 4).map issQAwaitThr ++
  (List.range 4).map issQHeadptrAddr ++
  (List.range 4).map issQHeadptrSrc ++
  (List.range 4).flatMap (fun q => (List.range 32).map (issQParam q))

/-- R192: FLAGS.F. -/
def syncFlags : Row := ⟨0x100, 0, 64, .ro, false, fun _ => 0⟩
/-- R192: FSET.F. -/
def syncFset : Row := ⟨0x108, 0, 64, .w1s, false, fun _ => 0⟩
/-- R192: FCLR.F. -/
def syncFclr : Row := ⟨0x110, 0, 64, .w1c, false, fun _ => 0⟩
/-- R192: XARM_F.F. -/
def syncXarmF : Row := ⟨0x118, 0, 64, .rwl, false, fun _ => 0⟩
/-- R192: XARM_C.C. -/
def syncXarmC : Row := ⟨0x120, 0, 16, .rwl, false, fun _ => 0⟩
/-- R192: OVERSET.F. -/
def syncOverset : Row := ⟨0x128, 0, 64, .w1c, false, fun _ => 0⟩
/-- R192: CNTn.VALUE. -/
def syncCnt (n : Nat) : Row := ⟨0x140 + 4 * n, 0, 32, .rwl, false, fun _ => 0⟩
/-- R192: CADDn.ADD. -/
def syncCadd (n : Nat) : Row := ⟨0x180 + 4 * n, 0, 32, .rwl, false, fun _ => 0⟩
/-- The block registers of a sync page. -/
def syncRows : List Row :=
  [syncFlags, syncFset, syncFclr, syncXarmF, syncXarmC, syncOverset] ++
  (List.range 16).map syncCnt ++
  (List.range 16).map syncCadd

/-- R223: BAR_TIMEOUT.STEPS. -/
def tguBarTimeout : Row := ⟨0x100, 0, 32, .rw, false, fun _ => 16777216⟩
/-- R223: RESIDENT.BLOCKS. -/
def tguResidentBlocks : Row := ⟨0x104, 0, 8, .ro, false, fun _ => 0⟩
/-- R223: RESIDENT.GROUPS. -/
def tguResidentGroups : Row := ⟨0x104, 8, 7, .ro, false, fun _ => 0⟩
/-- R223: RESIDENT.LQ. -/
def tguResidentLq : Row := ⟨0x104, 15, 3, .ro, false, fun _ => 0⟩
/-- R223: LAUNCHED.COUNT. -/
def tguLaunched : Row := ⟨0x108, 0, 32, .ro, false, fun _ => 0⟩
/-- R223: COMPLETED.COUNT. -/
def tguCompleted : Row := ⟨0x10C, 0, 32, .ro, false, fun _ => 0⟩
/-- R223: TRAP_CAUSE.CAUSE. -/
def tguTrapCause : Row := ⟨0x110, 0, 32, .ro, false, fun _ => 0⟩
/-- R223: TRAP_PC.PC. -/
def tguTrapPc : Row := ⟨0x118, 0, 64, .ro, false, fun _ => 0⟩
/-- R223: TRAP_VAL.VAL. -/
def tguTrapVal : Row := ⟨0x120, 0, 64, .ro, false, fun _ => 0⟩
/-- R223: TRAP_WHO.BLOCK. -/
def tguTrapWhoBlock : Row := ⟨0x128, 0, 3, .ro, false, fun _ => 0⟩
/-- R223: TRAP_WHO.GROUP. -/
def tguTrapWhoGroup : Row := ⟨0x128, 8, 5, .ro, false, fun _ => 0⟩
/-- R223: TRAP_WHO.LANE. -/
def tguTrapWhoLane : Row := ⟨0x128, 16, 5, .ro, false, fun _ => 0⟩
/-- R223: STRAND.BARRIER. -/
def tguStrandBarrier : Row := ⟨0x12C, 0, 4, .ro, false, fun _ => 0⟩
/-- R223: STRAND.BLOCK. -/
def tguStrandBlock : Row := ⟨0x12C, 4, 3, .ro, false, fun _ => 0⟩
/-- R223: STRAND.ARRIVED. -/
def tguStrandArrived : Row := ⟨0x12C, 16, 11, .ro, false, fun _ => 0⟩
/-- R223: STRAND_MASKi.MASK. -/
def tguStrandMask (i : Nat) : Row := ⟨0x140 + 8 * i, 0, 64, .ro, false, fun _ => 0⟩
/-- R223: BLKk.DESC.DESC. -/
def tguBlkDescDesc (k : Nat) : Row := ⟨0x200 + 0x20 * k + 0, 0, 21, .ro, false, fun _ => 0⟩
/-- R223: BLKk.DESC.VALID. -/
def tguBlkDescValid (k : Nat) : Row := ⟨0x200 + 0x20 * k + 0, 31, 1, .ro, false, fun _ => 0⟩
/-- R223: BLKk.SHAPE.THREADS. -/
def tguBlkShapeThreads (k : Nat) : Row := ⟨0x200 + 0x20 * k + 4, 0, 11, .ro, false, fun _ => 0⟩
/-- R223: BLKk.SHAPE.GROUPS. -/
def tguBlkShapeGroups (k : Nat) : Row := ⟨0x200 + 0x20 * k + 4, 16, 6, .ro, false, fun _ => 0⟩
/-- R223: BLKk.LIVE.LIVE. -/
def tguBlkLive (k : Nat) : Row := ⟨0x200 + 0x20 * k + 8, 0, 11, .ro, false, fun _ => 0⟩
/-- R223: BLKk.BARPEND.BAR. -/
def tguBlkBarpend (k : Nat) : Row := ⟨0x200 + 0x20 * k + 12, 0, 16, .ro, false, fun _ => 0⟩
/-- R223: BLKk.STEPS.STEPS. -/
def tguBlkSteps (k : Nat) : Row := ⟨0x200 + 0x20 * k + 16, 0, 64, .ro, false, fun _ => 0⟩
/-- The block registers of a tgu page. -/
def tguRows : List Row :=
  [tguBarTimeout, tguResidentBlocks, tguResidentGroups, tguResidentLq, tguLaunched, tguCompleted, tguTrapCause, tguTrapPc, tguTrapVal, tguTrapWhoBlock, tguTrapWhoGroup, tguTrapWhoLane, tguStrandBarrier, tguStrandBlock, tguStrandArrived] ++
  (List.range 16).map tguStrandMask ++
  (List.range 8).map tguBlkDescDesc ++
  (List.range 8).map tguBlkDescValid ++
  (List.range 8).map tguBlkShapeThreads ++
  (List.range 8).map tguBlkShapeGroups ++
  (List.range 8).map tguBlkLive ++
  (List.range 8).map tguBlkBarpend ++
  (List.range 8).map tguBlkSteps

/-- R253: CE_COUNT.COUNT. -/
def stoCeCount : Row := ⟨0x100, 0, 32, .ro, false, fun _ => 0⟩
/-- R253: CE_ADDR.ADDR. -/
def stoCeAddr : Row := ⟨0x108, 0, 27, .ro, false, fun _ => 0⟩
/-- R253: UE_COUNT.COUNT. -/
def stoUeCount : Row := ⟨0x110, 0, 32, .ro, false, fun _ => 0⟩
/-- R253: COLL.BASE. -/
def stoColl : Row := ⟨0x118, 0, 27, .ro, false, fun _ => 125829120⟩
/-- The block registers of a sto page. -/
def stoRows : List Row :=
  [stoCeCount, stoCeAddr, stoUeCount, stoColl]

/-- R254: DESC_BASE.ADDR. -/
def engDescBase : Row := ⟨0x100, 6, 21, .rw, false, fun _ => 0⟩
/-- R254: DESC_COUNT.COUNT. -/
def engDescCount : Row := ⟨0x104, 0, 11, .rw, false, fun _ => 0⟩
/-- R254: HELD.COUNT. -/
def engHeld : Row := ⟨0x108, 0, 10, .ro, false, fun _ => 0⟩
/-- R254: DONE.COUNT. -/
def engDone : Row := ⟨0x10C, 0, 32, .ro, false, fun _ => 0⟩
/-- R254: FAULT_ROW.ROW. -/
def engFaultRow : Row := ⟨0x110, 0, 32, .ro, false, fun _ => 0⟩
/-- The block registers of a eng page. -/
def engRows : List Row :=
  [engDescBase, engDescCount, engHeld, engDone, engFaultRow]

/-- R256: SATP.SATP. -/
def xlSatp : Row := ⟨0x100, 0, 64, .rw, false, fun _ => 0⟩
/-- R256: CFG.ADUE. -/
def xlCfg : Row := ⟨0x108, 0, 1, .rw, false, fun _ => 0⟩
/-- R256: INVAL.SCOPE. -/
def xlInvalScope : Row := ⟨0x110, 0, 2, .rwl, false, fun _ => 0⟩
/-- R256: INVAL.ASID. -/
def xlInvalAsid : Row := ⟨0x110, 16, 16, .rwl, false, fun _ => 0⟩
/-- R256: INVAL_VA.VPN. -/
def xlInvalVa : Row := ⟨0x118, 12, 52, .rwl, false, fun _ => 0⟩
/-- The block registers of a xl page. -/
def xlRows : List Row :=
  [xlSatp, xlCfg, xlInvalScope, xlInvalAsid, xlInvalVa]

/-- R278: GEOM.WAYS. -/
def cacheGeomWays : Row := ⟨0x100, 0, 5, .ro, false, fun p => p.ways⟩
/-- R278: GEOM.LOG2LINE. -/
def cacheGeomLog2line : Row := ⟨0x100, 8, 4, .ro, false, fun p => p.log2line⟩
/-- R278: GEOM.SLICES. -/
def cacheGeomSlices : Row := ⟨0x100, 16, 6, .ro, false, fun p => p.slices⟩
/-- R278: SETS.SETS. -/
def cacheSets : Row := ⟨0x104, 0, 32, .ro, false, fun p => p.sets⟩
/-- R278: MISSREG.COUNT. -/
def cacheMissreg : Row := ⟨0x108, 0, 16, .ro, false, fun p => p.missRegs⟩
/-- R278: WAYPWR.ON. -/
def cacheWaypwr : Row := ⟨0x10C, 0, 24, .rwl, false, fun p => 2 ^ p.ways - 1⟩
/-- R278: WAYDIS.DIS. -/
def cacheWaydis : Row := ⟨0x110, 0, 24, .ro, true, fun _ => 0⟩
/-- R278: WAYSTAT.POWERED. -/
def cacheWaystat : Row := ⟨0x114, 0, 24, .ro, false, fun p => 2 ^ p.ways - 1⟩
/-- R278: CE_COUNT.COUNT. -/
def cacheCeCount : Row := ⟨0x118, 0, 32, .ro, false, fun _ => 0⟩
/-- R278: UE_COUNT.COUNT. -/
def cacheUeCount : Row := ⟨0x11C, 0, 32, .ro, false, fun _ => 0⟩
/-- R278: RANGE_BASE.ADDR. -/
def cacheRangeBase : Row := ⟨0x120, 6, 58, .rwl, false, fun _ => 0⟩
/-- R278: RANGE_SIZE.SIZE. -/
def cacheRangeSize : Row := ⟨0x128, 6, 58, .rwl, false, fun _ => 0⟩
/-- R278: RANGE_CMD.OP. -/
def cacheRangeCmd : Row := ⟨0x130, 0, 2, .rwl, false, fun _ => 0⟩
/-- R278: BG_STAT.RANGE_BUSY. -/
def cacheBgStatRangeBusy : Row := ⟨0x134, 0, 1, .ro, false, fun _ => 0⟩
/-- R278: BG_STAT.WAY_BUSY. -/
def cacheBgStatWayBusy : Row := ⟨0x134, 1, 1, .ro, false, fun _ => 0⟩
/-- R278: BG_STAT.HELD. -/
def cacheBgStatHeld : Row := ⟨0x134, 2, 1, .ro, false, fun _ => 0⟩
/-- R278: RANGE_DONE.COUNT. -/
def cacheRangeDone : Row := ⟨0x138, 0, 32, .ro, false, fun _ => 0⟩
/-- R278: WAYMASKi.ALLOC. -/
def cacheWaymask (i : Nat) : Row := ⟨0x140 + 4 * i, 0, 24, .rwl, false, fun p => if p.reaches i then 2 ^ p.ways - 1 else 0⟩
/-- R278: CEWAYw.COUNT. -/
def cacheCeway (w : Nat) : Row := ⟨0x200 + 4 * w, 0, 16, .ro, false, fun _ => 0⟩
/-- The block registers of a cache page. -/
def cacheRows : List Row :=
  [cacheGeomWays, cacheGeomLog2line, cacheGeomSlices, cacheSets, cacheMissreg, cacheWaypwr, cacheWaydis, cacheWaystat, cacheCeCount, cacheUeCount, cacheRangeBase, cacheRangeSize, cacheRangeCmd, cacheBgStatRangeBusy, cacheBgStatWayBusy, cacheBgStatHeld, cacheRangeDone] ++
  (List.range 32).map cacheWaymask ++
  (List.range 24).map cacheCeway

/-- R304: STATUS.UP. -/
def cohStatusUp : Row := ⟨0x100, 0, 1, .ro, false, fun _ => 0⟩
/-- R304: STATUS.SALVAGED. -/
def cohStatusSalvaged : Row := ⟨0x100, 1, 1, .ro, false, fun _ => 0⟩
/-- R304: STATUS.SALVAGING. -/
def cohStatusSalvaging : Row := ⟨0x100, 2, 1, .ro, false, fun _ => 0⟩
/-- R304: STATUS.RESTARTING. -/
def cohStatusRestarting : Row := ⟨0x100, 3, 1, .ro, false, fun _ => 0⟩
/-- R304: STATUS.CAUSE. -/
def cohStatusCause : Row := ⟨0x100, 8, 8, .ro, false, fun _ => 0⟩
/-- R304: STATUS.AGENT. -/
def cohStatusAgent : Row := ⟨0x100, 16, 5, .ro, false, fun _ => 31⟩
/-- R304: STATUS.HOME. -/
def cohStatusHome : Row := ⟨0x100, 21, 4, .ro, false, fun _ => 0⟩
/-- R304: STATUS.HOME_VALID. -/
def cohStatusHomeValid : Row := ⟨0x100, 25, 1, .ro, false, fun _ => 0⟩
/-- R304: DOWN_MSG.MSG. -/
def cohDownMsgMsg : Row := ⟨0x104, 0, 8, .ro, false, fun _ => 0⟩
/-- R304: DOWN_MSG.STATE. -/
def cohDownMsgState : Row := ⟨0x104, 8, 4, .ro, false, fun _ => 0⟩
/-- R304: DOWN_MSG.AT_HOME. -/
def cohDownMsgAtHome : Row := ⟨0x104, 12, 1, .ro, false, fun _ => 0⟩
/-- R304: DOWN_ADDR.LINE. -/
def cohDownAddr : Row := ⟨0x108, 6, 34, .ro, false, fun _ => 0⟩
/-- R304: DOWN_TIME.TIME. -/
def cohDownTime : Row := ⟨0x110, 0, 64, .ro, false, fun _ => 0⟩
/-- R304: CMD.SALVAGE. -/
def cohCmdSalvage : Row := ⟨0x118, 0, 1, .w1s, false, fun _ => 0⟩
/-- R304: CMD.FORCE_DOWN. -/
def cohCmdForceDown : Row := ⟨0x118, 1, 1, .w1s, false, fun _ => 0⟩
/-- R304: CMD.KEY. -/
def cohCmdKey : Row := ⟨0x118, 16, 16, .rwl, false, fun _ => 0⟩
/-- R304: SALV_FAIL.AGENTS. -/
def cohSalvFail : Row := ⟨0x11C, 0, 17, .ro, false, fun _ => 0⟩
/-- R304: AGENTS.IN_SERVICE. -/
def cohAgents : Row := ⟨0x120, 0, 17, .ro, false, fun _ => 131071⟩
/-- R304: DUMP_ADDR.BLOCK. -/
def cohDumpAddr : Row := ⟨0x130, 8, 32, .rwl, false, fun _ => 0⟩
/-- R304: DUMP_STAT.BUSY. -/
def cohDumpStatBusy : Row := ⟨0x138, 0, 1, .ro, false, fun _ => 0⟩
/-- R304: DUMP_STAT.POISON. -/
def cohDumpStatPoison : Row := ⟨0x138, 1, 1, .ro, false, fun _ => 0⟩
/-- R304: DUMP_STAT.CRC_BAD. -/
def cohDumpStatCrcBad : Row := ⟨0x138, 2, 1, .ro, false, fun _ => 0⟩
/-- R304: DUMP_STAT.RANGE. -/
def cohDumpStatRange : Row := ⟨0x138, 3, 1, .ro, false, fun _ => 0⟩
/-- R304: DUMP_STAT.TAG. -/
def cohDumpStatTag : Row := ⟨0x138, 8, 8, .ro, false, fun _ => 0⟩
/-- R304: DUMP_STAT.CRC. -/
def cohDumpStatCrc : Row := ⟨0x138, 32, 32, .ro, false, fun _ => 0⟩
/-- The block registers of a coh page. -/
def cohRows : List Row :=
  [cohStatusUp, cohStatusSalvaged, cohStatusSalvaging, cohStatusRestarting, cohStatusCause, cohStatusAgent, cohStatusHome, cohStatusHomeValid, cohDownMsgMsg, cohDownMsgState, cohDownMsgAtHome, cohDownAddr, cohDownTime, cohCmdSalvage, cohCmdForceDown, cohCmdKey, cohSalvFail, cohAgents, cohDumpAddr, cohDumpStatBusy, cohDumpStatPoison, cohDumpStatCrcBad, cohDumpStatRange, cohDumpStatTag, cohDumpStatCrc]

/-- R330: LOC.CHANNEL. -/
def mchLocChannel : Row := ⟨0x100, 0, 5, .ro, false, fun p => p.inst % 32⟩
/-- R330: LOC.DIE. -/
def mchLocDie : Row := ⟨0x100, 8, 2, .ro, false, fun p => p.inst % 32 / 8⟩
/-- R330: LOC.SVC_INDEX. -/
def mchLocSvcIndex : Row := ⟨0x100, 16, 5, .ro, false, fun _ => 0⟩
/-- R330: LOC.IN_SERVICE. -/
def mchLocInService : Row := ⟨0x100, 24, 1, .ro, false, fun _ => 0⟩
/-- R330: MEMMAP.MODE. -/
def mchMemmapMode : Row := ⟨0x104, 0, 1, .ro, false, fun _ => 0⟩
/-- R330: MEMMAP.N_STACK. -/
def mchMemmapNStack : Row := ⟨0x104, 8, 6, .ro, false, fun _ => 0⟩
/-- R330: MEMMAP.N_MIN. -/
def mchMemmapNMin : Row := ⟨0x104, 16, 6, .ro, false, fun _ => 0⟩
/-- R330: DOM_BASE.BASE. -/
def mchDomBase : Row := ⟨0x108, 0, 64, .ro, false, fun _ => 0⟩
/-- R330: SPACE_SIZE.BYTES. -/
def mchSpaceSize : Row := ⟨0x110, 0, 64, .ro, false, fun _ => 0⟩
/-- R330: TEMP.STACK_T. -/
def mchTempStackT : Row := ⟨0x118, 0, 16, .ro, false, fun _ => 0⟩
/-- R330: TEMP.REF_RATE. -/
def mchTempRefRate : Row := ⟨0x118, 16, 2, .ro, false, fun _ => 0⟩
/-- R330: TEMP.HOT. -/
def mchTempHot : Row := ⟨0x118, 18, 1, .ro, false, fun _ => 0⟩
/-- R330: TEMP.SENSOR_FAIL. -/
def mchTempSensorFail : Row := ⟨0x118, 19, 1, .ro, false, fun _ => 0⟩
/-- R330: CFG.PATROL_EN. -/
def mchCfgPatrolEn : Row := ⟨0x11C, 0, 1, .rwl, false, fun _ => 1⟩
/-- R330: CFG.PERM_LIMIT. -/
def mchCfgPermLimit : Row := ⟨0x11C, 8, 8, .rwl, false, fun _ => 64⟩
/-- R330: PATROL.NEXT. -/
def mchPatrol : Row := ⟨0x120, 0, 23, .ro, false, fun _ => 0⟩
/-- R330: PASSES.COUNT. -/
def mchPasses : Row := ⟨0x124, 0, 32, .ro, false, fun _ => 0⟩
/-- R330: RR_COUNT.COUNT. -/
def mchRrCount : Row := ⟨0x128, 0, 32, .ro, false, fun _ => 0⟩
/-- R330: TRANS_COUNT.COUNT. -/
def mchTransCount : Row := ⟨0x12C, 0, 32, .ro, false, fun _ => 0⟩
/-- R330: PERM_COUNT.COUNT. -/
def mchPermCount : Row := ⟨0x130, 0, 32, .ro, false, fun _ => 0⟩
/-- R330: DISCARDED.COUNT. -/
def mchDiscarded : Row := ⟨0x134, 0, 32, .ro, false, fun _ => 0⟩
/-- R330: LAST_BAD.ADDR. -/
def mchLastBad : Row := ⟨0x138, 0, 64, .ro, false, fun _ => 0⟩
/-- R330: DEACC.NOW. -/
def mchDeaccNow : Row := ⟨0x140, 0, 1, .w1s, false, fun _ => 0⟩
/-- R330: DEACC.KEY. -/
def mchDeaccKey : Row := ⟨0x140, 16, 16, .rwl, false, fun _ => 0⟩
/-- R330: STATUS.DEACCESSIONED. -/
def mchStatusDeaccessioned : Row := ⟨0x144, 0, 1, .ro, false, fun _ => 0⟩
/-- R330: STATUS.LEDGERED. -/
def mchStatusLedgered : Row := ⟨0x144, 1, 1, .ro, false, fun _ => 0⟩
/-- R330: STATUS.CAUSE. -/
def mchStatusCause : Row := ⟨0x144, 2, 2, .ro, false, fun _ => 0⟩
/-- The block registers of a mch page. -/
def mchRows : List Row :=
  [mchLocChannel, mchLocDie, mchLocSvcIndex, mchLocInService, mchMemmapMode, mchMemmapNStack, mchMemmapNMin, mchDomBase, mchSpaceSize, mchTempStackT, mchTempRefRate, mchTempHot, mchTempSensorFail, mchCfgPatrolEn, mchCfgPermLimit, mchPatrol, mchPasses, mchRrCount, mchTransCount, mchPermCount, mchDiscarded, mchLastBad, mchDeaccNow, mchDeaccKey, mchStatusDeaccessioned, mchStatusLedgered, mchStatusCause]

/-- R351: ENDS.DIE_A. -/
def dlEndsDieA : Row := ⟨0x100, 0, 5, .ro, false, fun p => (linkEnds p.inst).1⟩
/-- R351: ENDS.DIE_B. -/
def dlEndsDieB : Row := ⟨0x100, 8, 5, .ro, false, fun p => (linkEnds p.inst).2⟩
/-- R351: ENDS.RING. -/
def dlEndsRing : Row := ⟨0x100, 16, 1, .ro, false, fun p => if linkRing p.inst then 1 else 0⟩
/-- R351: ENDS.TREE. -/
def dlEndsTree : Row := ⟨0x100, 17, 1, .ro, false, fun p => if linkTree p.inst then 1 else 0⟩
/-- R351: NEG.WIDTH. -/
def dlNegWidth : Row := ⟨0x104, 0, 3, .ro, false, fun _ => 0⟩
/-- R351: NEG.RATE. -/
def dlNegRate : Row := ⟨0x104, 4, 2, .ro, false, fun _ => 0⟩
/-- R351: NEG.PROTO. -/
def dlNegProto : Row := ⟨0x104, 8, 4, .ro, false, fun _ => 0⟩
/-- R351: NEG.MAJOR. -/
def dlNegMajor : Row := ⟨0x104, 16, 8, .ro, false, fun _ => 0⟩
/-- R351: NEG.MINOR. -/
def dlNegMinor : Row := ⟨0x104, 24, 8, .ro, false, fun _ => 0⟩
/-- R351: SPARE_AB, SPARE_BA.USED. -/
def dlSpareUsed (d : Nat) : Row := ⟨0x108 + 4 * d, 0, 7, .ro, false, fun _ => 0⟩
/-- R351: SPARE_AB, SPARE_BA.LEFT. -/
def dlSpareLeft (d : Nat) : Row := ⟨0x108 + 4 * d, 8, 7, .ro, false, fun p => if p.inst == 9 || p.inst == 10 || p.inst == 23 || p.inst == 24 then 8 else 64⟩
/-- R351: CAP_A, CAP_B.CAP. -/
def dlCap (e : Nat) (h : Nat) : Row := ⟨0x110 + 0x10 * e + 8 * h, 0, 64, .ro, false, fun _ => 0⟩
/-- R351: CRC_ERR.COUNT. -/
def dlCrcErr : Row := ⟨0x130, 0, 32, .ro, false, fun _ => 0⟩
/-- R351: WIRE_TESTS.COUNT. -/
def dlWireTests : Row := ⟨0x134, 0, 32, .ro, false, fun _ => 0⟩
/-- R351: LAST_WIRE.WIRE. -/
def dlLastWireWire : Row := ⟨0x138, 0, 13, .ro, false, fun _ => 0⟩
/-- R351: LAST_WIRE.DIR. -/
def dlLastWireDir : Row := ⟨0x138, 13, 1, .ro, false, fun _ => 0⟩
/-- R351: LAST_WIRE.VALID. -/
def dlLastWireValid : Row := ⟨0x138, 14, 1, .ro, false, fun _ => 0⟩
/-- R351: TRAINS.COUNT. -/
def dlTrains : Row := ⟨0x13C, 0, 32, .ro, false, fun _ => 0⟩
/-- The block registers of a dl page. -/
def dlRows : List Row :=
  [dlEndsDieA, dlEndsDieB, dlEndsRing, dlEndsTree, dlNegWidth, dlNegRate, dlNegProto, dlNegMajor, dlNegMinor, dlCrcErr, dlWireTests, dlLastWireWire, dlLastWireDir, dlLastWireValid, dlTrains] ++
  (List.range 2).map dlSpareUsed ++
  (List.range 2).map dlSpareLeft ++
  (List.range 2).flatMap (fun q => (List.range 2).map (dlCap q))

/-- R382: CFG.MEDIUM. -/
def fpCfgMedium : Row := ⟨0x100, 0, 1, .rw, false, fun _ => 0⟩
/-- R382: CFG.LANES. -/
def fpCfgLanes : Row := ⟨0x100, 8, 8, .rw, false, fun _ => 255⟩
/-- R382: CFG.MIN_WIDTH. -/
def fpCfgMinWidth : Row := ⟨0x100, 16, 4, .rw, false, fun _ => 4⟩
/-- R382: LINK.LSTATE. -/
def fpLinkLstate : Row := ⟨0x104, 0, 3, .ro, false, fun _ => 0⟩
/-- R382: LINK.WIDTH. -/
def fpLinkWidth : Row := ⟨0x104, 4, 4, .ro, false, fun _ => 0⟩
/-- R382: LINK.LANES_UP. -/
def fpLinkLanesUp : Row := ⟨0x104, 8, 8, .ro, false, fun _ => 0⟩
/-- R382: SB.TX_PHASE. -/
def fpSbTxPhase : Row := ⟨0x108, 0, 2, .ro, false, fun _ => 0⟩
/-- R382: SB.RX_FORM. -/
def fpSbRxForm : Row := ⟨0x108, 2, 2, .ro, false, fun _ => 0⟩
/-- R382: SB.NBR_HB. -/
def fpSbNbrHb : Row := ⟨0x108, 4, 2, .ro, false, fun _ => 3⟩
/-- R382: SB.TX_HB. -/
def fpSbTxHb : Row := ⟨0x108, 6, 2, .ro, false, fun _ => 0⟩
/-- R382: SB.HOLD_REQ. -/
def fpSbHoldReq : Row := ⟨0x108, 8, 1, .rwl, false, fun _ => 0⟩
/-- R382: NBR_ID.PLACE. -/
def fpNbrIdPlace : Row := ⟨0x10C, 0, 16, .ro, false, fun _ => 0⟩
/-- R382: NBR_ID.PORT. -/
def fpNbrIdPort : Row := ⟨0x10C, 16, 5, .ro, false, fun _ => 0⟩
/-- R382: NBR_ID.VALID. -/
def fpNbrIdValid : Row := ⟨0x10C, 31, 1, .ro, false, fun _ => 0⟩
/-- R382: NBR_EPOCH.EPOCH. -/
def fpNbrEpochEpoch : Row := ⟨0x110, 0, 16, .ro, false, fun _ => 0⟩
/-- R382: NBR_EPOCH.PREV. -/
def fpNbrEpochPrev : Row := ⟨0x110, 16, 16, .ro, false, fun _ => 0⟩
/-- R382: RTT.BEATS. -/
def fpRtt : Row := ⟨0x118, 0, 32, .ro, false, fun _ => 0⟩
/-- R382: FEC_CW.COUNT. -/
def fpFecCw : Row := ⟨0x120, 0, 64, .ro, false, fun _ => 0⟩
/-- R382: FEC_CORR.COUNT. -/
def fpFecCorr : Row := ⟨0x128, 0, 64, .ro, false, fun _ => 0⟩
/-- R382: FEC_UNCORR.COUNT. -/
def fpFecUncorr : Row := ⟨0x130, 0, 32, .ro, false, fun _ => 0⟩
/-- R382: NAKS.COUNT. -/
def fpNaks : Row := ⟨0x134, 0, 32, .ro, false, fun _ => 0⟩
/-- R382: LANE_FAIL.LANES. -/
def fpLaneFail : Row := ⟨0x138, 0, 8, .ro, false, fun _ => 0⟩
/-- R382: TRAINS.COUNT. -/
def fpTrains : Row := ⟨0x13C, 0, 32, .ro, false, fun _ => 0⟩
/-- The block registers of a fp page. -/
def fpRows : List Row :=
  [fpCfgMedium, fpCfgLanes, fpCfgMinWidth, fpLinkLstate, fpLinkWidth, fpLinkLanesUp, fpSbTxPhase, fpSbRxForm, fpSbNbrHb, fpSbTxHb, fpSbHoldReq, fpNbrIdPlace, fpNbrIdPort, fpNbrIdValid, fpNbrEpochEpoch, fpNbrEpochPrev, fpRtt, fpFecCw, fpFecCorr, fpFecUncorr, fpNaks, fpLaneFail, fpTrains]

/-- R384: IDENT.SLOT. -/
def rtrIdentSlot : Row := ⟨0x100, 0, 6, .ro, false, fun _ => 63⟩
/-- R384: IDENT.ENCLOSURE. -/
def rtrIdentEnclosure : Row := ⟨0x100, 6, 10, .rw, true, fun _ => 0⟩
/-- R384: RANK.RANK. -/
def rtrRankRank : Row := ⟨0x104, 0, 16, .rwl, true, fun _ => 0⟩
/-- R384: RANK.VALID. -/
def rtrRankValid : Row := ⟨0x104, 31, 1, .rwl, true, fun _ => 0⟩
/-- R384: FEPOCH.EPOCH. -/
def rtrFepoch : Row := ⟨0x108, 0, 16, .ro, false, fun _ => 0⟩
/-- R384: RT_INDEX.PLACE. -/
def rtrRtIndex : Row := ⟨0x10C, 0, 16, .rwl, false, fun _ => 0⟩
/-- R384: RT_DATA.ENTRY. -/
def rtrRtData : Row := ⟨0x110, 0, 32, .rwl, true, fun _ => 0⟩
/-- R384: NOROUTE.COUNT. -/
def rtrNoroute : Row := ⟨0x114, 0, 32, .ro, false, fun _ => 0⟩
/-- R384: HOPDROP.COUNT. -/
def rtrHopdrop : Row := ⟨0x118, 0, 32, .ro, false, fun _ => 0⟩
/-- R384: PORTS_UP.PORTS. -/
def rtrPortsUp : Row := ⟨0x11C, 0, 32, .ro, false, fun _ => 0⟩
/-- The block registers of a rtr page. -/
def rtrRows : List Row :=
  [rtrIdentSlot, rtrIdentEnclosure, rtrRankRank, rtrRankValid, rtrFepoch, rtrRtIndex, rtrRtData, rtrNoroute, rtrHopdrop, rtrPortsUp]

/-- R385: SEL.FLOW. -/
def flowSel : Row := ⟨0x100, 0, 17, .rwl, false, fun _ => 0⟩
/-- R385: CMD.OP. -/
def flowCmd : Row := ⟨0x104, 0, 2, .rwl, false, fun _ => 0⟩
/-- R385: RTO.UNITS. -/
def flowRto : Row := ⟨0x108, 0, 32, .rw, false, fun _ => 2000⟩
/-- R385: RETRY.MAX. -/
def flowRetry : Row := ⟨0x10C, 0, 4, .rw, false, fun _ => 7⟩
/-- R385: EQ_BASE.ADDR. -/
def flowEqBase : Row := ⟨0x110, 12, 52, .rw, false, fun _ => 0⟩
/-- R385: EQ_SIZE.LOG2. -/
def flowEqSize : Row := ⟨0x118, 0, 5, .rw, false, fun _ => 0⟩
/-- R385: EQ_TAIL.TAIL. -/
def flowEqTail : Row := ⟨0x11C, 0, 32, .ro, false, fun _ => 0⟩
/-- R385: EQ_HEAD.HEAD. -/
def flowEqHead : Row := ⟨0x120, 0, 32, .rwl, false, fun _ => 0⟩
/-- R385: EQ_OVF.COUNT. -/
def flowEqOvf : Row := ⟨0x124, 0, 32, .ro, false, fun _ => 0⟩
/-- R385: OPEN.COUNT. -/
def flowOpen : Row := ⟨0x128, 0, 18, .ro, false, fun _ => 0⟩
/-- R385: DOMn.SATP. -/
def flowDom (n : Nat) : Row := ⟨0x200 + 8 * n, 0, 64, .rwl, false, fun _ => 0⟩
/-- The block registers of a flow page. -/
def flowRows : List Row :=
  [flowSel, flowCmd, flowRto, flowRetry, flowEqBase, flowEqSize, flowEqTail, flowEqHead, flowEqOvf, flowOpen] ++
  (List.range 64).map flowDom

/-- R426: CFG.DOMAIN. -/
def ceCfg : Row := ⟨0x100, 0, 6, .rw, false, fun _ => 0⟩
/-- R426: JOB_ID.ID. -/
def ceJobId : Row := ⟨0x104, 0, 32, .rw, true, fun _ => 0⟩
/-- R426: JOB.EPOCH. -/
def ceJobEpoch : Row := ⟨0x108, 0, 16, .ro, true, fun _ => 0⟩
/-- R426: JOB.VALID. -/
def ceJobValid : Row := ⟨0x108, 16, 1, .rw, true, fun _ => 0⟩
/-- R426: JOB.LEAD. -/
def ceJobLead : Row := ⟨0x108, 17, 1, .ro, false, fun _ => 0⟩
/-- R426: JOB.FENCED. -/
def ceJobFenced : Row := ⟨0x108, 18, 1, .ro, true, fun _ => 0⟩
/-- R426: JOB.CENSUS. -/
def ceJobCensus : Row := ⟨0x108, 19, 1, .ro, false, fun _ => 0⟩
/-- R426: JOB.AWAIT. -/
def ceJobAwait : Row := ⟨0x108, 20, 1, .rw, true, fun _ => 0⟩
/-- R426: LEAD.RANK. -/
def ceLead : Row := ⟨0x10C, 0, 16, .rw, true, fun _ => 0⟩
/-- R426: MEMB_BASE.ADDR. -/
def ceMembBase : Row := ⟨0x110, 11, 53, .rw, true, fun _ => 0⟩
/-- R426: QUORUM.COUNT. -/
def ceQuorum : Row := ⟨0x118, 0, 15, .rw, true, fun _ => 0⟩
/-- R426: SUCC_CNT.COUNT. -/
def ceSuccCnt : Row := ⟨0x11C, 0, 5, .rw, true, fun _ => 0⟩
/-- R426: SUCCi.RANK_2i, RANK_2i+1. -/
def ceSucc (i : Nat) : Row := ⟨0x120 + 2 * i, 0, 16, .rw, true, fun _ => 0⟩
/-- R426: WDOG_TICK.UNITS. -/
def ceWdogTick : Row := ⟨0x140, 0, 32, .rw, false, fun _ => 10000⟩
/-- R426: WDOG_LIMIT.SAMPLES. -/
def ceWdogLimit : Row := ⟨0x144, 0, 16, .rw, false, fun _ => 50⟩
/-- R426: CENSUS_WAIT.UNITS. -/
def ceCensusWait : Row := ⟨0x148, 0, 32, .rw, false, fun _ => 100000⟩
/-- R426: CTRL_RESEND.UNITS. -/
def ceCtrlResend : Row := ⟨0x14C, 0, 32, .rw, false, fun _ => 10000⟩
/-- R426: ACC_TIMEOUT.UNITS. -/
def ceAccTimeout : Row := ⟨0x150, 0, 32, .rw, false, fun _ => 500000⟩
/-- R426: ACC_CFG.MODE. -/
def ceAccCfg : Row := ⟨0x158, 0, 2, .rw, true, fun _ => 0⟩
/-- R426: ACC_PLAN.ADDR. -/
def ceAccPlan : Row := ⟨0x160, 0, 64, .rw, false, fun _ => 0⟩
/-- R426: IMG_BASE.ADDR. -/
def ceImgBase : Row := ⟨0x168, 22, 42, .rw, false, fun _ => 0⟩
/-- R426: ACC_STAT.STATE. -/
def ceAccStatState : Row := ⟨0x170, 0, 3, .ro, false, fun _ => 0⟩
/-- R426: ACC_STAT.RESULT. -/
def ceAccStatResult : Row := ⟨0x170, 8, 4, .ro, false, fun _ => 0⟩
/-- R426: ACC_STAT.PARENT. -/
def ceAccStatParent : Row := ⟨0x170, 16, 16, .ro, false, fun _ => 0⟩
/-- R426: ACC_CHUNKS.VERIFIED. -/
def ceAccChunksVerified : Row := ⟨0x174, 0, 16, .ro, false, fun _ => 0⟩
/-- R426: ACC_CHUNKS.TOTAL. -/
def ceAccChunksTotal : Row := ⟨0x174, 16, 16, .ro, false, fun _ => 0⟩
/-- R426: CMD.CENSUS. -/
def ceCmdCensus : Row := ⟨0x178, 0, 1, .w1s, false, fun _ => 0⟩
/-- R426: CMD.ADMIT. -/
def ceCmdAdmit : Row := ⟨0x178, 1, 1, .w1s, false, fun _ => 0⟩
/-- R426: CMD.LEAVE. -/
def ceCmdLeave : Row := ⟨0x178, 2, 1, .w1s, false, fun _ => 0⟩
/-- R426: CMD.ACC_START. -/
def ceCmdAccStart : Row := ⟨0x178, 3, 1, .w1s, false, fun _ => 0⟩
/-- R426: CMD.ACC_LOADED. -/
def ceCmdAccLoaded : Row := ⟨0x178, 4, 1, .w1s, false, fun _ => 0⟩
/-- R426: CMD.RESUME. -/
def ceCmdResume : Row := ⟨0x178, 5, 1, .w1s, false, fun _ => 0⟩
/-- R426: CMD.ADMIT_RANK. -/
def ceCmdAdmitRank : Row := ⟨0x178, 16, 16, .rwl, false, fun _ => 0⟩
/-- R426: CTRL_DROP.COUNT. -/
def ceCtrlDrop : Row := ⟨0x17C, 0, 32, .ro, false, fun _ => 0⟩
/-- R426: Qq.RING_BASE.VA. -/
def ceQRingBase (q : Nat) : Row := ⟨0x200 + 0x40 * q + 0, 0, 64, .rw, false, fun _ => 0⟩
/-- R426: Qq.RING_LOG2.LOG2. -/
def ceQRingLog2 (q : Nat) : Row := ⟨0x200 + 0x40 * q + 8, 0, 5, .rw, false, fun _ => 4⟩
/-- R426: Qq.BIND.BAY. -/
def ceQBindBay (q : Nat) : Row := ⟨0x200 + 0x40 * q + 12, 0, 6, .rw, false, fun _ => 0⟩
/-- R426: Qq.BIND.COUNTER. -/
def ceQBindCounter (q : Nat) : Row := ⟨0x200 + 0x40 * q + 12, 8, 4, .rw, false, fun _ => 0⟩
/-- R426: Qq.BIND.EN. -/
def ceQBindEn (q : Nat) : Row := ⟨0x200 + 0x40 * q + 12, 16, 1, .rw, false, fun _ => 0⟩
/-- R426: Qq.DOORBELL.ADD. -/
def ceQDoorbell (q : Nat) : Row := ⟨0x200 + 0x40 * q + 16, 0, 32, .rwl, false, fun _ => 0⟩
/-- R426: Qq.PROD.PROD. -/
def ceQProd (q : Nat) : Row := ⟨0x200 + 0x40 * q + 20, 0, 32, .ro, false, fun _ => 0⟩
/-- R426: Qq.CONS.CONS. -/
def ceQCons (q : Nat) : Row := ⟨0x200 + 0x40 * q + 24, 0, 32, .ro, false, fun _ => 0⟩
/-- R426: Qq.QSTAT.STATE. -/
def ceQQstat (q : Nat) : Row := ⟨0x200 + 0x40 * q + 28, 0, 3, .ro, false, fun _ => 0⟩
/-- R426: Qq.SEQ.SEQ. -/
def ceQSeq (q : Nat) : Row := ⟨0x200 + 0x40 * q + 32, 0, 32, .ro, false, fun _ => 0⟩
/-- R426: Qq.CHUNKS.COUNT. -/
def ceQChunks (q : Nat) : Row := ⟨0x200 + 0x40 * q + 36, 0, 32, .ro, false, fun _ => 0⟩
/-- The block registers of a ce page. -/
def ceRows : List Row :=
  [ceCfg, ceJobId, ceJobEpoch, ceJobValid, ceJobLead, ceJobFenced, ceJobCensus, ceJobAwait, ceLead, ceMembBase, ceQuorum, ceSuccCnt, ceWdogTick, ceWdogLimit, ceCensusWait, ceCtrlResend, ceAccTimeout, ceAccCfg, ceAccPlan, ceImgBase, ceAccStatState, ceAccStatResult, ceAccStatParent, ceAccChunksVerified, ceAccChunksTotal, ceCmdCensus, ceCmdAdmit, ceCmdLeave, ceCmdAccStart, ceCmdAccLoaded, ceCmdResume, ceCmdAdmitRank, ceCtrlDrop] ++
  (List.range 16).map ceSucc ++
  (List.range 4).map ceQRingBase ++
  (List.range 4).map ceQRingLog2 ++
  (List.range 4).map ceQBindBay ++
  (List.range 4).map ceQBindCounter ++
  (List.range 4).map ceQBindEn ++
  (List.range 4).map ceQDoorbell ++
  (List.range 4).map ceQProd ++
  (List.range 4).map ceQCons ++
  (List.range 4).map ceQQstat ++
  (List.range 4).map ceQSeq ++
  (List.range 4).map ceQChunks

/-- R451: LINK.WIDTH. -/
def hostLinkWidth : Row := ⟨0x100, 0, 4, .ro, false, fun _ => 0⟩
/-- R451: LINK.RATE. -/
def hostLinkRate : Row := ⟨0x100, 4, 2, .ro, false, fun _ => 0⟩
/-- R451: LINK.UP. -/
def hostLinkUp : Row := ⟨0x100, 6, 1, .ro, false, fun _ => 0⟩
/-- R451: LINK.IDE. -/
def hostLinkIde : Row := ⟨0x100, 7, 1, .ro, false, fun _ => 0⟩
/-- R451: ATTACH.ATTACHED. -/
def hostAttachAttached : Row := ⟨0x104, 0, 1, .ro, true, fun _ => 0⟩
/-- R451: ATTACH.ORPHANED. -/
def hostAttachOrphaned : Row := ⟨0x104, 1, 1, .ro, true, fun _ => 0⟩
/-- R451: ATTACH.CAUSE. -/
def hostAttachCause : Row := ⟨0x104, 4, 4, .ro, true, fun _ => 0⟩
/-- R451: ATTACH.GEN. -/
def hostAttachGen : Row := ⟨0x104, 16, 16, .ro, true, fun _ => 0⟩
/-- R451: LOST_TIME.TIME. -/
def hostLostTime : Row := ⟨0x108, 0, 64, .ro, true, fun _ => 0⟩
/-- R451: LOST_LINES.COUNT. -/
def hostLostLines : Row := ⟨0x110, 0, 19, .ro, true, fun _ => 0⟩
/-- R451: TRACKED.COUNT. -/
def hostTracked : Row := ⟨0x114, 0, 19, .ro, false, fun _ => 0⟩
/-- R451: ATTACH_CMD.CLAIM. -/
def hostAttachCmdClaim : Row := ⟨0x118, 0, 1, .w1s, false, fun _ => 0⟩
/-- R451: ATTACH_CMD.DETACH. -/
def hostAttachCmdDetach : Row := ⟨0x118, 1, 1, .w1s, false, fun _ => 0⟩
/-- R451: ATTACH_CMD.KEY. -/
def hostAttachCmdKey : Row := ⟨0x118, 16, 16, .rwl, false, fun _ => 0⟩
/-- R451: EXW_CFG.EN. -/
def hostExwCfg : Row := ⟨0x11C, 0, 1, .rw, false, fun _ => 0⟩
/-- R451: EXW_BASE.ADDR. -/
def hostExwBase : Row := ⟨0x120, 28, 36, .rw, false, fun _ => 0⟩
/-- R451: EXW_SIZE.UNITS. -/
def hostExwSize : Row := ⟨0x128, 0, 9, .rw, false, fun _ => 0⟩
/-- R451: EXW_DISCARD.COUNT. -/
def hostExwDiscard : Row := ⟨0x12C, 0, 32, .ro, false, fun _ => 0⟩
/-- R451: DMA_TIMEOUT.UNITS. -/
def hostDmaTimeout : Row := ⟨0x130, 0, 32, .rw, false, fun _ => 100000⟩
/-- R451: CPL_DROP.COUNT. -/
def hostCplDrop : Row := ⟨0x134, 0, 32, .ro, false, fun _ => 0⟩
/-- R451: DMA_ERR.COUNT. -/
def hostDmaErr : Row := ⟨0x138, 0, 32, .ro, false, fun _ => 0⟩
/-- R451: HQn.CFG.EN. -/
def hostHqCfgEn (q : Nat) : Row := ⟨0x200 + 0x40 * q + 0, 0, 1, .rw, false, fun _ => 0⟩
/-- R451: HQn.CFG.SPACE. -/
def hostHqCfgSpace (q : Nat) : Row := ⟨0x200 + 0x40 * q + 0, 1, 1, .rw, false, fun _ => 0⟩
/-- R451: HQn.CFG.VECTOR. -/
def hostHqCfgVector (q : Nat) : Row := ⟨0x200 + 0x40 * q + 0, 8, 6, .rw, false, fun _ => 0⟩
/-- R451: HQn.CFG.LOG2. -/
def hostHqCfgLog2 (q : Nat) : Row := ⟨0x200 + 0x40 * q + 0, 16, 5, .rw, false, fun _ => 0⟩
/-- R451: HQn.BASE.ADDR. -/
def hostHqBase (q : Nat) : Row := ⟨0x200 + 0x40 * q + 8, 8, 56, .rw, false, fun _ => 0⟩
/-- R451: HQn.DOORBELL.ADD. -/
def hostHqDoorbell (q : Nat) : Row := ⟨0x200 + 0x40 * q + 16, 0, 32, .rwl, false, fun _ => 0⟩
/-- R451: HQn.PROD.PROD. -/
def hostHqProd (q : Nat) : Row := ⟨0x200 + 0x40 * q + 20, 0, 32, .ro, false, fun _ => 0⟩
/-- R451: HQn.CONS.CONS. -/
def hostHqCons (q : Nat) : Row := ⟨0x200 + 0x40 * q + 24, 0, 32, .ro, false, fun _ => 0⟩
/-- R451: HQn.DONE.COUNT. -/
def hostHqDone (q : Nat) : Row := ⟨0x200 + 0x40 * q + 28, 0, 32, .ro, false, fun _ => 0⟩
/-- R451: HQn.QSTAT.STATE. -/
def hostHqQstatState (q : Nat) : Row := ⟨0x200 + 0x40 * q + 32, 0, 3, .ro, false, fun _ => 0⟩
/-- R451: HQn.QSTAT.STATUS. -/
def hostHqQstatStatus (q : Nat) : Row := ⟨0x200 + 0x40 * q + 32, 8, 8, .ro, false, fun _ => 0⟩
/-- R451: HQn.CTL.RESUME. -/
def hostHqCtl (q : Nat) : Row := ⟨0x200 + 0x40 * q + 36, 0, 1, .w1s, false, fun _ => 0⟩
/-- The block registers of a host page. -/
def hostRows : List Row :=
  [hostLinkWidth, hostLinkRate, hostLinkUp, hostLinkIde, hostAttachAttached, hostAttachOrphaned, hostAttachCause, hostAttachGen, hostLostTime, hostLostLines, hostTracked, hostAttachCmdClaim, hostAttachCmdDetach, hostAttachCmdKey, hostExwCfg, hostExwBase, hostExwSize, hostExwDiscard, hostDmaTimeout, hostCplDrop, hostDmaErr] ++
  (List.range 16).map hostHqCfgEn ++
  (List.range 16).map hostHqCfgSpace ++
  (List.range 16).map hostHqCfgVector ++
  (List.range 16).map hostHqCfgLog2 ++
  (List.range 16).map hostHqBase ++
  (List.range 16).map hostHqDoorbell ++
  (List.range 16).map hostHqProd ++
  (List.range 16).map hostHqCons ++
  (List.range 16).map hostHqDone ++
  (List.range 16).map hostHqQstatState ++
  (List.range 16).map hostHqQstatStatus ++
  (List.range 16).map hostHqCtl

/-- R474: MODE.MODE. -/
def pwrMode : Row := ⟨0x100, 0, 2, .rwl, false, fun _ => 0⟩
/-- R474: CAP.WATTS. -/
def pwrCap : Row := ⟨0x104, 0, 13, .rwl, false, fun _ => 4400⟩
/-- R474: STATUS.MODE_IN_FORCE. -/
def pwrStatusModeInForce : Row := ⟨0x108, 0, 2, .ro, false, fun _ => 0⟩
/-- R474: STATUS.TRANSITION. -/
def pwrStatusTransition : Row := ⟨0x108, 2, 1, .ro, false, fun _ => 0⟩
/-- R474: STATUS.BRAKE. -/
def pwrStatusBrake : Row := ⟨0x108, 3, 1, .ro, false, fun _ => 0⟩
/-- R474: STATUS.REG_ALERT. -/
def pwrStatusRegAlert : Row := ⟨0x108, 4, 1, .ro, false, fun _ => 0⟩
/-- R474: STATUS.HOLD. -/
def pwrStatusHold : Row := ⟨0x108, 5, 1, .ro, false, fun _ => 0⟩
/-- R474: STATUS.HOT. -/
def pwrStatusHot : Row := ⟨0x108, 6, 1, .ro, false, fun _ => 0⟩
/-- R474: STATUS.TJ. -/
def pwrStatusTj : Row := ⟨0x108, 7, 1, .ro, false, fun _ => 0⟩
/-- R474: STATUS.CONV_OUT. -/
def pwrStatusConvOut : Row := ⟨0x108, 8, 1, .ro, true, fun _ => 0⟩
/-- R474: CAP_MAX.WATTS. -/
def pwrCapMax : Row := ⟨0x10C, 0, 13, .ro, false, fun _ => 4400⟩
/-- R474: POWER.WATTS. -/
def pwrPower : Row := ⟨0x110, 0, 16, .ro, false, fun _ => 0⟩
/-- R474: VIN.MV. -/
def pwrVin : Row := ⟨0x114, 0, 16, .ro, false, fun _ => 0⟩
/-- R474: IIN.MA. -/
def pwrIin : Row := ⟨0x118, 0, 32, .ro, false, fun _ => 0⟩
/-- R474: RATE.MSTEPS. -/
def pwrRate : Row := ⟨0x11C, 0, 16, .ro, false, fun _ => 0⟩
/-- R474: TJ_LIMIT.DEGC. -/
def pwrTjLimit : Row := ⟨0x120, 0, 8, .rwl, false, fun _ => 100⟩
/-- R474: TJ_HOT.DEGC. -/
def pwrTjHotDegc : Row := ⟨0x124, 0, 8, .ro, false, fun _ => 0⟩
/-- R474: TJ_HOT.DIE. -/
def pwrTjHotDie : Row := ⟨0x124, 8, 5, .ro, false, fun _ => 0⟩
/-- R474: COOLANT.T. -/
def pwrCoolant : Row := ⟨0x128, 0, 16, .ro, false, fun _ => 0⟩
/-- R474: BRAKES.COUNT. -/
def pwrBrakes : Row := ⟨0x12C, 0, 32, .ro, false, fun _ => 0⟩
/-- R474: TRIP_LAST.DIE. -/
def pwrTripLastDie : Row := ⟨0x130, 0, 5, .ro, true, fun _ => 0⟩
/-- R474: TRIP_LAST.VALID. -/
def pwrTripLastValid : Row := ⟨0x130, 8, 1, .ro, true, fun _ => 0⟩
/-- R474: TJi.T. -/
def pwrTj (i : Nat) : Row := ⟨0x200 + 2 * i, 0, 16, .ro, false, fun _ => 0⟩
/-- The block registers of a pwr page. -/
def pwrRows : List Row :=
  [pwrMode, pwrCap, pwrStatusModeInForce, pwrStatusTransition, pwrStatusBrake, pwrStatusRegAlert, pwrStatusHold, pwrStatusHot, pwrStatusTj, pwrStatusConvOut, pwrCapMax, pwrPower, pwrVin, pwrIin, pwrRate, pwrTjLimit, pwrTjHotDegc, pwrTjHotDie, pwrCoolant, pwrBrakes, pwrTripLastDie, pwrTripLastValid] ++
  (List.range 20).map pwrTj

/-- R476: LEVEL.LEVEL. -/
def paceLevelLevel : Row := ⟨0x100, 0, 6, .ro, false, fun _ => 4⟩
/-- R476: LEVEL.LOOP. -/
def paceLevelLoop : Row := ⟨0x100, 8, 6, .ro, false, fun _ => 4⟩
/-- R476: LEVEL.F_BRAKE. -/
def paceLevelFBrake : Row := ⟨0x100, 16, 1, .ro, false, fun _ => 0⟩
/-- R476: LEVEL.F_HOT. -/
def paceLevelFHot : Row := ⟨0x100, 17, 1, .ro, false, fun _ => 0⟩
/-- R476: LEVEL.F_TJ. -/
def paceLevelFTj : Row := ⟨0x100, 18, 1, .ro, false, fun _ => 0⟩
/-- R476: CEIL.CEIL. -/
def paceCeil : Row := ⟨0x104, 0, 6, .rwl, false, fun _ => 32⟩
/-- R476: METER.PS. -/
def paceMeter : Row := ⟨0x108, 0, 16, .ro, false, fun _ => 0⟩
/-- The block registers of a pace page. -/
def paceRows : List Row :=
  [paceLevelLevel, paceLevelLoop, paceLevelFBrake, paceLevelFHot, paceLevelFTj, paceCeil, paceMeter]

/-- R519: START.STEP. -/
def secStartStep : Row := ⟨0x100, 0, 4, .ro, false, fun _ => 0⟩
/-- R519: START.STATE. -/
def secStartState : Row := ⟨0x100, 4, 3, .ro, false, fun _ => 0⟩
/-- R519: START.DEGRADED. -/
def secStartDegraded : Row := ⟨0x100, 8, 8, .ro, false, fun _ => 0⟩
/-- R519: IMAGES.TYPEt. -/
def secImage (t : Nat) : Row := ⟨0x104 + (t - 1), 0, 8, .ro, false, fun _ => 0⟩
/-- R519: SVNt.ACTIVE. -/
def secSvnActive (t : Nat) : Row := ⟨0x108 + 4 * (t - 1), 0, 8, .ro, false, fun _ => 0⟩
/-- R519: SVNt.FUSE. -/
def secSvnFuse (t : Nat) : Row := ⟨0x108 + 4 * (t - 1), 8, 8, .ro, false, fun _ => 0⟩
/-- R519: CONFIG.SEQ. -/
def secConfig : Row := ⟨0x118, 0, 32, .ro, false, fun _ => 0⟩
/-- R519: LEDGER.USED. -/
def secLedgerUsed : Row := ⟨0x11C, 0, 9, .ro, false, fun _ => 0⟩
/-- R519: LEDGER.FULL. -/
def secLedgerFull : Row := ⟨0x11C, 9, 1, .ro, false, fun _ => 0⟩
/-- R519: LEDGER_IDX.SLOT. -/
def secLedgerIdx : Row := ⟨0x120, 0, 8, .rwl, false, fun _ => 0⟩
/-- R519: LEDGER_CLR.CLEAR. -/
def secLedgerClrClear : Row := ⟨0x124, 0, 1, .w1s, false, fun _ => 0⟩
/-- R519: LEDGER_CLR.RECORDS. -/
def secLedgerClrRecords : Row := ⟨0x124, 1, 1, .w1s, false, fun _ => 0⟩
/-- R519: LEDGER_CLR.KEY. -/
def secLedgerClrKey : Row := ⟨0x124, 16, 16, .rwl, false, fun _ => 0⟩
/-- R519: COMMIT.TYPES. -/
def secCommitTypes : Row := ⟨0x128, 0, 4, .w1s, false, fun _ => 0⟩
/-- R519: COMMIT.KEY. -/
def secCommitKey : Row := ⟨0x128, 16, 16, .rwl, false, fun _ => 0⟩
/-- R519: PROV.COUNT. -/
def secProvCount : Row := ⟨0x12C, 0, 7, .ro, false, fun _ => 0⟩
/-- R519: PROV.FULL. -/
def secProvFull : Row := ⟨0x12C, 7, 1, .ro, false, fun _ => 0⟩
/-- R519: LEDGER_DATAk.DATA. -/
def secLedgerData (k : Nat) : Row := ⟨0x140 + 8 * k, 0, 64, .ro, false, fun _ => 0⟩
/-- R519: PROV_DIGESTk.DATA. -/
def secProvDigest (k : Nat) : Row := ⟨0x180 + 8 * k, 0, 64, .ro, false, fun _ => 0⟩
/-- The block registers of a sec page. -/
def secRows : List Row :=
  [secStartStep, secStartState, secStartDegraded, secConfig, secLedgerUsed, secLedgerFull, secLedgerIdx, secLedgerClrClear, secLedgerClrRecords, secLedgerClrKey, secCommitTypes, secCommitKey, secProvCount, secProvFull] ++
  (List.range 4).map (fun k => secImage (k + 1)) ++
  (List.range 4).map (fun k => secSvnActive (k + 1)) ++
  (List.range 4).map (fun k => secSvnFuse (k + 1)) ++
  (List.range 4).map secLedgerData ++
  (List.range 6).map secProvDigest

/-- The block registers of a page (R19 to R519, the table of its chapter). -/
def pageRows : Page → List Row
  | .hub => hubRows | .mgpwr => pwrRows | .sec => secRows | .coh => cohRows | .dlink _ => dlRows
  | .bayCtl _ => bayRows | .doc _ => docRows | .issue _ => issRows | .sync _ => syncRows | .pace _ => paceRows
  | .arr _ _ => arrRows | .vec _ => vecRows ++ vecSlotRows | .tgu _ => tguRows | .gth _ _ => engRows | .mov _ _ => engRows
  | .store _ => stoRows | .bcache _ => cacheRows | .xlate _ => xlRows | .mchan _ _ => mchRows | .sysc _ => cacheRows
  | .fport _ => fpRows | .router _ => rtrRows | .flow _ => flowRows | .ce _ => ceRows | .host => hostRows
  | .pdCtl _ => pdRows | .clus _ _ => paceRows | .l3 _ => cacheRows | .core _ => coreRows

/-- R384, R387: the page that holds a register: ROUTER1 shares IDENT, RANK and FEPOCH with ROUTER0, CE1 shares the job registers
at offsets 0x104 to 0x17C with CE0. -/
def Row.home (r : Row) : Page → Page
  | .router f => if 0x100 ≤ r.off ∧ r.off ≤ 0x108 then .router 0 else .router f
  | .ce f => if 0x104 ≤ r.off ∧ r.off ≤ 0x17C then .ce 0 else .ce f
  | p => p

/-- The key of a field in `State.regs`: the bit number within the DCS, counting 2^15 bits for each page. -/
def Row.key (r : Row) (p : Page) : Nat := (r.home p).slot * 32768 + (r.off * 8 + r.lsb)

/-- The value of a register field, cut to the field's width. -/
def rd (s : State) (p : Page) (r : Row) : Nat :=
  (mget (BitVec.ofNat 64 (r.rst p)) s.regs (r.key p)).toNat % 2 ^ r.width

/-- The state with a register field holding `v`, cut to the field's width. -/
def wr (s : State) (p : Page) (r : Row) (v : Nat) : State :=
  { s with regs := mset (BitVec.ofNat 64 (r.rst p)) s.regs (r.key p) (BitVec.ofNat 64 (v % 2 ^ r.width)) }

/-- A counter that stops at its largest value. -/
def satAdd (s : State) (p : Page) (r : Row) (k : Nat) : State :=
  wr s p r (min (rd s p r + k) (2 ^ r.width - 1))

/-- A counter that wraps. -/
def wrapAdd (s : State) (p : Page) (r : Row) (k : Nat) : State := wr s p r (rd s p r + k)

/-- Bit `i` of a field. -/
def bitOf (v i : Nat) : Bool := v / 2 ^ i % 2 = 1

/-- `v` with bit `i` set. -/
def setBit (v i : Nat) : Nat := if bitOf v i then v else v + 2 ^ i

/-- `v` with bit `i` cleared. -/
def clrBit (v i : Nat) : Nat := if bitOf v i then v - 2 ^ i else v

/-- Bits [hi:lo] of a number. -/
def bits (v hi lo : Nat) : Nat := v / 2 ^ lo % 2 ^ (hi + 1 - lo)

/-- Bits [hi:lo] of a number as a two's-complement integer. -/
def sbits (v hi lo : Nat) : Int :=
  let w := hi + 1 - lo
  let u := bits v hi lo
  if u < 2 ^ (w - 1) then (u : Int) else (u : Int) - (2 ^ w : Nat)

end Sys2Proof.Machine
end

