-- ==== Sys2Proof/Machine/Ops.lean ====
section
/-! DEFINITION. The shared operations: byte strings, units, page states and epochs, the error log, raising an error bit or an event, the
local timer, free values. -/

namespace Sys2Proof.Machine

/-- The outcome of a command. -/
abbrev Out := Host.Outcome State Fault Refusal

/-- The number a little-endian byte string spells. -/
def leNat : List Byte → Nat
  | [] => 0
  | b :: t => b.toNat + 256 * leNat t

/-- `n` bytes of a number, least significant first. -/
def toLE : Nat → Nat → List Byte
  | 0, _ => []
  | n + 1, v => BitVec.ofNat 8 v :: toLE n (v / 256)

/-- `len` bytes from offset `off`, zero past the end. -/
def slice (l : List Byte) (off len : Nat) : List Byte :=
  let t := (l.drop off).take len
  t ++ List.replicate (len - t.length) 0

/-- The little-endian number in bytes `off` to `off + len - 1`. -/
def fieldAt (l : List Byte) (off len : Nat) : Nat := leNat (slice l off len)

/-- A list with the bytes `d` placed at offset `off`. -/
def splice (l : List Byte) (off : Nat) (d : List Byte) : List Byte :=
  slice l 0 off ++ d ++ l.drop (off + d.length)

/-- Consecutive numbers from `a`, `n` of them. -/
def rangeFrom (a n : Nat) : List Nat := (List.range n).map (· + a)

/-- A signed number as a `w`-bit two's-complement pattern. -/
def ofInt (w : Nat) (i : Int) : Nat := (i % (2 ^ w : Nat)).toNat

/-- A `w`-bit pattern as a signed number. -/
def toInt (w : Nat) (v : Nat) : Int :=
  if v % 2 ^ w < 2 ^ (w - 1) then (v % 2 ^ w : Nat) else ((v % 2 ^ w : Nat) : Int) - (2 ^ w : Nat)

/-- `true` as 1. -/
def b2n (b : Bool) : Nat := if b then 1 else 0

/-- A fresh free value, and the state that has used it. -/
def fresh (s : State) : BitVec 64 × State := (Config.freeValue s.freeCount, { s with freeCount := s.freeCount + 1 })

/-- `n` free bytes, and the state that has used them. -/
def freeBytes (s : State) (n : Nat) : List Byte × State :=
  ((List.range n).map (Config.freeByte s.freeCount), { s with freeCount := s.freeCount + 1 })

/-- Bytes at address `a` with those that lie in one of the given ranges (first, end) free. -/
def freeOver (s : State) (l : List (Nat × Nat)) (a : Nat) (d : List Byte) : List Byte × State :=
  if l.any (fun r => decide (r.1 < a + d.length ∧ a < r.2)) then
    ((List.range d.length).map (fun i =>
      if l.any (fun r => decide (r.1 ≤ a + i ∧ a + i < r.2)) then Config.freeByte s.freeCount i else d.getD i 0),
      { s with freeCount := s.freeCount + 1 })
  else (d, s)

/-! Units. -/

/-- Bay `b`. -/
def bayOf (s : State) (b : BayId) : Bay := mget {} s.bays b.val
/-- The state with bay `b` replaced. -/
def setBay (s : State) (b : BayId) (v : Bay) : State := { s with bays := mset {} s.bays b.val v }
/-- The state with bay `b` changed. -/
def modBay (s : State) (b : BayId) (f : Bay → Bay) : State := setBay s b (f (bayOf s b))
/-- Hart `n`. -/
def hartOf (s : State) (n : CoreId) : Hart := mget {} s.harts n.val
/-- The state with hart `n` replaced. -/
def setHart (s : State) (n : CoreId) (v : Hart) : State := { s with harts := mset {} s.harts n.val v }
/-- A cache with a page. -/
def cacheOf (s : State) (c : CacheId) : Cache := mget {} s.caches c.key
/-- The state with a cache replaced. -/
def setCache (s : State) (c : CacheId) (v : Cache) : State := { s with caches := mset {} s.caches c.key v }

/-! Pages, events and errors. -/

/-- R522: the module is unpowered or in module reset. -/
def held (s : State) : Bool := s.mg.inReset || !s.power.pwrGood

/-- ISSUE.ARRAYS of a bay (R3, R119): as fusing leaves it until start step 8 has counted the arrays in service. -/
def arrCount (s : State) (b : BayId) : Nat :=
  let n := rd s (.issue b) issArrays
  if n = 15 then (if s.fuses.gradeB then 7 else 8) else n

/-- PG_STATE.STATE. R48: the page of a logical array at or above the bay's count is ABSENT. While the module is held, no page takes part in anything: every one counts as
ABSENT (DESIGN CHOICE, log 26). -/
def pgState (s : State) (p : Page) : Nat :=
  if held s then 0
  else match p with
  | .arr b a => if arrCount s b ≤ a.val then 0 else rd s p hdrState
  | _ => rd s p hdrState

/-- R57, R416: a block finishes the operations that have completed their issue handshake while it runs, stops, or is fenced by the job. -/
def pgWorks (s : State) (p : Page) : Bool :=
  let st := pgState s p
  st == 4 || st == 5 || st == 7

/-- HUB.DOMAIN.UP. -/
def domainUp (s : State) : Bool := rd s .hub hubDomainUp = 1

/-- PG_ID. -/
def pgId (p : Page) : Nat := p.type * 65536 + p.inst

/-- R493: the event line of a page. -/
def pgLine : Page → Nat
  | .hub | .mgpwr | .sec | .coh => 0
  | .dlink _ => 1
  | .mchan s _ => 2 + s.val
  | .sysc s => 2 + s.val
  | .bayCtl b | .doc b | .issue b | .sync b | .pace b | .arr b _ | .vec b | .tgu b | .gth b _ | .mov b _ | .store b
  | .bcache b | .xlate b => 18 + b.val / 4
  | .pdCtl d => 30 + d.val
  | .clus d _ => 30 + d.val
  | .l3 d => 30 + d.val
  | .core n => 30 + n.val / 48
  | .fport p => 34 + p.val / 16
  | .router f | .flow f => 36 + f.val
  | .ce f => 38 + f.val
  | .host => 40

/-- R498, R500: bit n of EVT_HARTS of the configuration in force; hart 0 only where none is valid. -/
def evtHart (s : State) (n : Nat) : Bool :=
  if s.mg.cfg = [] then n == 0 else bitOf (fieldAt s.mg.cfg 80 24) n

/-- R493: external interrupt identity 64 + v at the harts the configuration names. -/
def raiseHarts (s : State) (v : Nat) : State :=
  (List.finRange 192).foldl (fun s n =>
    if evtHart s n.val then
      let h := hartOf s n
      setHart s n { h with pendingIntr := if h.pendingIntr.contains (64 + v) then h.pendingIntr else h.pendingIntr ++ [64 + v] }
    else s) s

/-- R433: a page event sets the pending bit of its vector once MSI-X is enabled. -/
def raiseMsix (s : State) (v : Nat) : State :=
  if s.hostPort.msixOn then { s with hostPort := { s.hostPort with msixPend := mset false s.hostPort.msixPend v true } } else s

/-- R493, R494: an event on line v. While the domain is down every line is held for the harts, and every line but 0 for the host. -/
def raiseLine (s : State) (v : Nat) : State :=
  if domainUp s then raiseMsix (raiseHarts s v) v
  else
    let s := { s with coh := { s.coh with heldLines := if s.coh.heldLines.contains v then s.coh.heldLines else s.coh.heldLines ++ [v] } }
    if v = 0 then raiseMsix s v else s

/-- R63: a PG_EVT bit is set, and an event is raised when PG_EVTEN enables it. -/
def setEvt (s : State) (p : Page) (bit : Nat) : State :=
  let s := wr s p hdrEvt (setBit (rd s p hdrEvt) bit)
  if bitOf (rd s p hdrEvtEn) bit then raiseLine s (pgLine p) else s

/-- An error to raise: PG_ERR bit, UNIT, DETAIL, the address if there is one, whether it is virtual, whether it stops the
block, and the log severity where R492 does not leave it to the page state. -/
structure Err where
  bit : Nat
  unit : Nat := 0
  detail : Nat := 0
  addr : Option Nat := none
  va : Bool := false
  stop : Bool := false
  sev : Option Nat := none
deriving DecidableEq, Repr

/-- R53: PG_ERRINFO of an error. -/
def errInfo (e : Err) : Nat :=
  e.bit % 32 * 2 ^ 27 + b2n e.va * 2 ^ 26 + b2n e.addr.isSome * 2 ^ 25 + e.unit % 256 * 2 ^ 16 + e.detail % 65536

/-- R62, R63: a PG_ERR bit goes from 0 to 1: the first error is captured, a later one sets MULTI. -/
def captureErr (s : State) (p : Page) (e : Err) : State :=
  let old := rd s p hdrErr
  let s := wr s p hdrErr (setBit old e.bit)
  if old = 0 then
    setEvt (wr (wr s p hdrErrInfo (errInfo e)) p hdrErrAddr (e.addr.getD 0)) p 0
  else wr s p hdrErrInfo (setBit (rd s p hdrErrInfo) 24)

/-- R68: the hub writes one log entry, or discards it when 256 wait, sets LOG_FULL, and counts the discarded entries (the entry of
LOG_FULL itself among them: DEDUCED, log 11). -/
def logWrite (s : State) (addr src code sev : Nat) (va : Bool) (info : Nat) : State :=
  let h := rd s .hub hubLogHead
  if 256 ≤ h - rd s .hub hubLogTail then
    let s := satAdd s .hub hubLogOvf 1
    if bitOf (rd s .hub hdrErr) 16 then s else satAdd (captureErr s .hub { bit := 16 }) .hub hubLogOvf 1
  else
    let e : LogEntry := {
      time := BitVec.ofNat 64 (rd s .hub hubTimer), addr := BitVec.ofNat 64 addr, src := BitVec.ofNat 32 src,
      code := BitVec.ofNat 16 code, sev := BitVec.ofNat 8 sev, va := va, info := BitVec.ofNat 32 info, seq := BitVec.ofNat 32 (h + 1) }
    setEvt (wr { s with log := mset none s.log (h % 256) (some e) } .hub hubLogHead (h + 1)) .hub 16

/-- R252, R256: BUSY of XLATE in page state `st`: a transition or an invalidation runs; once neither does, the invalidation that has waited
longest starts. -/
def invalNext (s : State) (b : BayId) (st : Nat) : State :=
  let y := bayOf s b
  let p := Page.xlate b
  if st = 3 ∨ st = 5 ∨ y.inval.isSome then wr s p hdrBusy 1
  else match y.invalWait with
  | [] => wr s p hdrBusy 0
  | v :: rest => wr (setBay s b { y with inval := some { v with va := BitVec.ofNat 64 (rd s p xlInvalVa) }, invalWait := rest }) p hdrBusy 1

/-- R274: a cache's background engine runs or holds a command. -/
def cacheBusy (s : State) (c : CacheId) : Bool :=
  let u := cacheOf s c
  u.range.isSome || !u.cleaning.isEmpty || u.held.isSome

/-- R51, R54: BUSY of a page that enters state `st`: a transition, or a background engine. -/
def busyAt (s : State) (p : Page) (st : Nat) : State :=
  match p with
  | .xlate b => invalNext s b st
  | _ => wr s p hdrBusy (b2n (st == 3 || st == 5 || (cacheOfPage p).any (cacheBusy s)))

/-- R54, R63: a page enters a state; entering OFF, STOPPED, FAULT or FENCED sets STATE. -/
def enter (s : State) (p : Page) (st : Nat) : State :=
  let old := pgState s p
  let s := busyAt (wr s p hdrState st) p st
  if old ≠ st ∧ (st = 1 ∨ st = 2 ∨ st = 6 ∨ st = 7) then setEvt s p 1 else s

/-- R57: the page drops a RESET held from STOPPING. -/
def dropHeld (s : State) (p : Page) : State := { s with heldReset := s.heldReset.filter (· ≠ p.slot) }

/-- R148: the summary slots become invalid. -/
def vecInvalidate (s : State) (b : BayId) : State :=
  (List.range 4).foldl (fun s k => wr s (.vec b) (vecSlotSflagsValid k) 0) s

/-- R128: the running pass is abandoned without its SIG. -/
def vecAbandon (s : State) (b : BayId) : State :=
  let y := bayOf s b
  match y.vec.running with
  | none => s
  | some r => setBay s b { y with vec := { y.vec with running := none }, ops := y.ops.filter (fun o => o.id != r.id) }

/-- R99, R98: an array's accumulator becomes invalid, and the operations it holds do not make it valid again. -/
def ArrayUnit.invalid (u : ArrayUnit) : ArrayUnit :=
  { u with acc := [], accPoison := false, accSat := [], accId := none, ops := u.ops.map (fun o => { o with late := true }) }

/-- A change to array `a` of bay `b`. -/
def modArr (s : State) (b : BayId) (a : Nat) (f : ArrayUnit → ArrayUnit) : State :=
  modBay s b (fun y => { y with arrays := mset {} y.arrays a (f (mget {} y.arrays a)) })

/-- Entry into FAULT: an array's accumulator becomes invalid (R99) and its self-test ends; the vector engine abandons its running pass and its summary
slots become invalid (R128, R148); a docent's STATUS reads TRAPPED (R188). -/
def faultHook (s : State) (p : Page) : State :=
  match p with
  | .arr b a => modArr (wr s p arrAccValid 0) b a.val (fun u => { u.invalid with selfTest := false })
  | .vec b => vecInvalidate (vecAbandon s b) b
  | .doc _ => wr s p docStatusState 3
  | _ => s

/-- R55: an error that stops the block takes a page in STARTING, RUNNING or STOPPING to FAULT. -/
def toFault (s : State) (p : Page) : State :=
  let st := pgState s p
  if st = 3 ∨ st = 4 ∨ st = 5 then faultHook (enter (dropHeld s p) p 6) p else s

/-- R61, R62, R68, R492: raising an error on a page: the bit, the first-error record, the log entry, and FAULT where it stops the
block. An ABSENT page records nothing. -/
def raise (s : State) (p : Page) (e : Err) : State :=
  if pgState s p = 0 then s
  else
    let st := pgState s p
    let moved := e.stop && (st == 3 || st == 4 || st == 5)
    let s1 := if bitOf (rd s p hdrErr) e.bit then s
      else
        let s := captureErr s p e
        logWrite s (rd s p hdrErrAddr) (pgId p) e.bit (e.sev.getD (if moved then 2 else 1)) (bitOf (rd s p hdrErrInfo) 26)
          (rd s p hdrErrInfo)
    if e.stop then toFault s1 p else s1

/-- R61: the common bits that stop the block: ABSENT_TARGET, STALL, PROTOCOL. -/
def stops (bit : Nat) : Bool := bit == 3 || bit == 5 || bit == 6

/-- R61: a common error with an address. -/
def raiseAt (s : State) (p : Page) (bit unit : Nat) (addr : Nat) (va : Bool) : State :=
  raise s p { bit := bit, unit := unit, addr := some addr, va := va, stop := stops bit }

/-- R59, R63: PG_EPOCH + 1. -/
def epochInc (s : State) (p : Page) : State := setEvt (wrapAdd s p hdrEpoch 1) p 2

/-- Registers that report what fuses, straps, the start or a link fix and that a page's RESET therefore leaves: ISSUE.ARRAYS (R119),
IDENT.SLOT (R360), PD_CTL's masks (R19), what memory start and training set (R329, R350); and the job registers, which
keep their values across every transition of the CE pages (R388). -/
def rowFixed (p : Page) (r : Row) : Bool :=
  match p with
  | .issue _ => r.off == 0x100
  | .router _ => r.off == 0x100 && r.lsb == 0
  | .ce _ => decide (0x104 ≤ r.off ∧ r.off ≤ 0x17C)
  | .pdCtl _ | .mchan _ _ | .dlink _ => decide (0x100 ≤ r.off)
  | _ => false

/-- R12: registers return to their reset values, the retained ones apart. -/
def resetRows (s : State) (p : Page) (l : List Row) : State :=
  l.foldl (fun s r => if r.ret ∨ r.off = 0x014 ∨ rowFixed p r ∨ r.home p ≠ p then s else wr s p r (r.rst p)) s

/-- R12: every register of a page returns to its reset value, the retained ones apart. -/
def resetRegs (s : State) (p : Page) : State := resetRows s p (hdrRows ++ pageRows p)

/-- R219: a write to a line ends the reservations of it. -/
def loseLine (s : State) (l : ResvLine) : State := { s with resv := s.resv.filter (·.2 ≠ l) }

/-- R40: the local timer counts one unit of 10 ns, from the release of module reset. -/
def timerTick (s : State) : State := if held s then s else wrapAdd s .hub hubTimer 1


end Sys2Proof.Machine
end

