-- ==== Sys2Proof/Machine/Num.lean ====
section
/-! DEFINITION. Numbers: exact dyadic values with infinities and NaN, the module's sixteen formats (R70 to R72), rounding (R84, R85),
the random values of stochastic rounding (R86), narrowing conversion (R87, R88). -/

namespace Sys2Proof.Machine

/-- A value: NaN, an infinity, or (−1)^neg · m · 2^e exactly. -/
inductive Val where
  | nan | inf (neg : Bool) | fin (neg : Bool) (m : Nat) (e : Int)
deriving DecidableEq, Repr

/-- How a magnitude is rounded; `sr u` compares the 16 bits below the point with `u` (R85). -/
inductive RMode where
  | rne | rtz | rdn | rup | rmm | sr (u : Nat)
deriving DecidableEq, Repr

/-- A floating-point layout: mantissa bits, exponent bits, bias, whether E all-ones means infinity and NaN, the largest finite
magnitude code, the canonical NaN. -/
structure FFmt where
  mb : Nat
  eb : Nat
  bias : Nat
  ieee : Bool
  maxCode : Nat
  nan : Option Nat
deriving DecidableEq, Repr

/-- R70: FP64. -/
def f64 : FFmt := ⟨52, 11, 1023, true, 0x7FEFFFFFFFFFFFFF, some 0x7FF8000000000000⟩
/-- R70: FP32. -/
def f32 : FFmt := ⟨23, 8, 127, true, 0x7F7FFFFF, some 0x7FC00000⟩
/-- R70: FP16. -/
def f16 : FFmt := ⟨10, 5, 15, true, 0x7BFF, some 0x7E00⟩
/-- R70: BF16. -/
def fbf16 : FFmt := ⟨7, 8, 127, true, 0x7F7F, some 0x7FC0⟩
/-- R70: E4M3. -/
def fE4m3 : FFmt := ⟨3, 4, 7, false, 0x7E, some 0x7F⟩
/-- R70: E5M2. -/
def fE5m2 : FFmt := ⟨2, 5, 15, true, 0x7B, some 0x7E⟩
/-- R70: E3M2. -/
def fE3m2 : FFmt := ⟨2, 3, 3, false, 0x1F, none⟩
/-- R70: E2M3. -/
def fE2m3 : FFmt := ⟨3, 2, 1, false, 0x1F, none⟩
/-- R70: E2M1. -/
def fE2m1 : FFmt := ⟨1, 2, 1, false, 0x7, none⟩

/-- The width of a layout. -/
def FFmt.width (f : FFmt) : Nat := 1 + f.eb + f.mb
/-- The exponent of the smallest subnormal. -/
def FFmt.q0 (f : FFmt) : Int := 1 - (f.bias : Int) - (f.mb : Int)

/-- R70, R71: the value of a code. -/
def decF (f : FFmt) (c : Nat) : Val :=
  let neg := bitOf c (f.width - 1)
  let mag := c % 2 ^ (f.width - 1)
  let ex := mag / 2 ^ f.mb
  let m := mag % 2 ^ f.mb
  if f.ieee && ex == 2 ^ f.eb - 1 then (if m = 0 then .inf neg else .nan)
  else if !f.ieee && f.nan.isSome && mag == 2 ^ (f.width - 1) - 1 then .nan
  else if ex = 0 then .fin neg m f.q0
  else .fin neg (m + 2 ^ f.mb) (f.q0 + (ex : Int) - 1)

/-- n/d rounded to an integer. -/
def roundQ (rm : RMode) (neg : Bool) (n d : Nat) : Nat :=
  let lo := n / d
  let r := n % d
  let up := match rm with
    | .rne => decide (d < 2 * r) || (decide (2 * r = d) && decide (lo % 2 = 1))
    | .rtz => false
    | .rdn => neg && decide (0 < r)
    | .rup => !neg && decide (0 < r)
    | .rmm => decide (d ≤ 2 * r)
    | .sr u => decide (u < r * 65536 / d)
  if up then lo + 1 else lo

/-- ⌊log2(n/d · 2^e)⌋ for n, d > 0. -/
def flog2 (n d : Nat) (e : Int) : Int :=
  let l : Int := (Nat.log2 n : Int) - (Nat.log2 d : Int)
  let ok := if 0 ≤ l then decide (d * 2 ^ l.toNat ≤ n) else decide (d ≤ n * 2 ^ (-l).toNat)
  e + if ok then l else l - 1

/-- n/d · 2^e in units of 2^q, as a fraction. -/
def inUnits (n d : Nat) (e q : Int) : Nat × Nat :=
  if q ≤ e then (n * 2 ^ (e - q).toNat, d) else (n, d * 2 ^ (q - e).toNat)

/-- The accrued exception bits of a rounding: NX 1, UF 2, OF 4, DZ 8, NV 16 (the RISC-V fflags order). -/
abbrev FFlags := Nat

/-- IEEE rounding of n/d · 2^e to a layout: the code, and NX, UF (tininess after rounding) and OF. -/
def roundRat (f : FFmt) (rm : RMode) (neg : Bool) (n d : Nat) (e : Int) : Nat × FFlags :=
  let sgn := if neg then 2 ^ (f.width - 1) else 0
  if n = 0 then (sgn, 0)
  else
    let l := flog2 n d e
    let q := max (l - f.mb) f.q0
    let u := inUnits n d e q
    let k := roundQ rm neg u.1 u.2
    let code := (q - f.q0).toNat * 2 ^ f.mb + k
    let nx := u.1 % u.2 ≠ 0
    if f.maxCode < code then
      let toMax := match rm with | .rtz => true | .rdn => !neg | .rup => neg | _ => false
      (sgn + (if toMax then f.maxCode else f.maxCode + 1), 5)
    else
      let v := inUnits n d e (l - f.mb)
      let kU := roundQ rm neg v.1 v.2
      let tiny := decide (l - f.mb < f.q0) && (decide (kU < 2 ^ (f.mb + 1)) || decide (l - f.mb + 1 < f.q0))
      (sgn + code, if nx then (if tiny then 3 else 1) else 0)

/-- IEEE rounding of a value: NaN to the canonical NaN. -/
def roundV (f : FFmt) (rm : RMode) : Val → Nat × FFlags
  | .nan => (f.nan.getD 0, 0)
  | .inf neg => ((if neg then 2 ^ (f.width - 1) else 0) + f.maxCode + 1, 0)
  | .fin neg m e => roundRat f rm neg m 1 e

/-! Exact arithmetic. -/

/-- −v. -/
def Val.neg : Val → Val
  | .nan => .nan | .inf s => .inf !s | .fin s m e => .fin (!s) m e

/-- |v|. -/
def Val.abs : Val → Val
  | .nan => .nan | .inf _ => .inf false | .fin _ m e => .fin false m e

/-- Exact sum; an exact zero from unlike signs is −0 only when rounding down. -/
def Val.add (down : Bool) : Val → Val → Val
  | .nan, _ => .nan
  | _, .nan => .nan
  | .inf a, .inf b => if a = b then .inf a else .nan
  | .inf a, _ => .inf a
  | _, .inf b => .inf b
  | .fin s m e, .fin t n g =>
    let q := min e g
    let x : Int := (if s then -1 else 1) * (m * 2 ^ (e - q).toNat : Nat)
    let y : Int := (if t then -1 else 1) * (n * 2 ^ (g - q).toNat : Nat)
    let z := x + y
    if z = 0 then .fin (if m = 0 ∧ n = 0 then (if s = t then s else down) else down) 0 q
    else .fin (decide (z < 0)) z.natAbs q

/-- Exact product. -/
def Val.mul : Val → Val → Val
  | .nan, _ => .nan
  | _, .nan => .nan
  | .inf a, .inf b => .inf (a != b)
  | .inf a, .fin t n _ => if n = 0 then .nan else .inf (a != t)
  | .fin s m _, .inf b => if m = 0 then .nan else .inf (s != b)
  | .fin s m e, .fin t n g => .fin (s != t) (m * n) (e + g)

/-- Exact sum of a list, in order, from +0. -/
def vsum (l : List Val) : Val := l.foldl (Val.add false) (.fin false 0 0)

/-- Whether the value is zero. -/
def Val.isZero : Val → Bool
  | .fin _ 0 _ => true | _ => false

/-- Whether the value is NaN. -/
def Val.isNan : Val → Bool
  | .nan => true | _ => false

/-- The sign, false for NaN. -/
def Val.sgn : Val → Bool
  | .nan => false | .inf s => s | .fin s _ _ => s

/-- m·2^e ≤ n·2^g. -/
def leMag (m : Nat) (e : Int) (n : Nat) (g : Int) : Bool :=
  let q := min e g
  decide (m * 2 ^ (e - q).toNat ≤ n * 2 ^ (g - q).toNat)

/-- a < b for values that are not NaN. -/
def Val.lt : Val → Val → Bool
  | .inf a, .inf b => a && !b
  | .inf a, .fin _ _ _ => a
  | .fin _ _ _, .inf b => !b
  | .fin s m e, .fin t n g =>
    if m = 0 ∧ n = 0 then false
    else if s ≠ t then (s && decide (0 < m)) || (s && decide (0 < n))
    else if s then !leMag m e n g else !leMag n g m e
  | _, _ => false

/-- |a| ≤ |b| where NaN ranks above infinity and infinity above any finite value (R89). -/
def leAbs : Val → Val → Bool
  | _, .nan => true
  | .nan, _ => false
  | _, .inf _ => true
  | .inf _, _ => false
  | .fin _ m e, .fin _ n g => leMag m e n g

/-- The integer i as a value. -/
def ofI (i : Int) : Val := .fin (decide (i < 0)) i.natAbs 0

/-- IEEE quotient. -/
def divV (f : FFmt) (rm : RMode) (a b : Val) : Nat × FFlags :=
  match a, b with
  | .nan, _ => roundV f rm .nan
  | _, .nan => roundV f rm .nan
  | .inf _, .inf _ => ((f.nan.getD 0), 16)
  | .inf s, .fin t _ _ => roundV f rm (.inf (s != t))
  | .fin s _ _, .inf t => roundV f rm (.fin (s != t) 0 0)
  | .fin s m e, .fin t n g =>
    if n = 0 then (if m = 0 then (f.nan.getD 0, 16) else ((roundV f rm (.inf (s != t))).1, 8))
    else roundRat f rm (s != t) m n (e - g)

/-- Integer square root by bisection over `k` bits. -/
def isqrtAux : Nat → Nat → Nat → Nat
  | 0, _, r => r
  | k + 1, n, r => let c := r + 2 ^ k; isqrtAux k n (if c * c ≤ n then c else r)

/-- ⌊√n⌋. -/
def isqrt (n : Nat) : Nat := isqrtAux (Nat.log2 n / 2 + 1) n 0

/-- IEEE square root: the root of m·2^e with 128 extra bits and a sticky bit, rounded once. -/
def sqrtV (f : FFmt) (rm : RMode) : Val → Nat × FFlags
  | .nan => roundV f rm .nan
  | .inf s => if s then (f.nan.getD 0, 16) else roundV f rm (.inf false)
  | .fin s m e =>
    if m = 0 then roundV f rm (.fin s 0 0)
    else if s then (f.nan.getD 0, 16)
    else
      let x := if e % 2 = 0 then (m, e) else (2 * m, e - 1)
      let n := x.1 * 2 ^ 256
      let r := isqrt n
      roundRat f rm false (2 * r + (if r * r = n then 0 else 1)) 1 (x.2 / 2 - 128 - 1)

/-! The formats. -/

/-- R70: the sixteen formats. -/
inductive Elem where
  | fp64 | fp32 | fp16 | bf16 | int32 | int16 | int8 | e8m0 | e4m3 | e5m2 | e3m2 | e2m3 | e2m1 | int4 | q3 | t2
deriving DecidableEq, Repr

/-- Width in bits. -/
def Elem.width : Elem → Nat
  | .fp64 => 64 | .fp32 => 32 | .fp16 => 16 | .bf16 => 16 | .int32 => 32 | .int16 => 16 | .int8 => 8 | .e8m0 => 8
  | .e4m3 => 8 | .e5m2 => 8 | .e3m2 => 6 | .e2m3 => 6 | .e2m1 => 4 | .int4 => 4 | .q3 => 3 | .t2 => 2

/-- The floating-point layout, if the format has one. -/
def Elem.flt : Elem → Option FFmt
  | .fp64 => some f64 | .fp32 => some f32 | .fp16 => some f16 | .bf16 => some fbf16 | .e4m3 => some fE4m3
  | .e5m2 => some fE5m2 | .e3m2 => some fE3m2 | .e2m3 => some fE2m3 | .e2m1 => some fE2m1
  | _ => none

/-- R74: a format code: the element format and its form. -/
inductive Form where
  | plain | single | two
deriving DecidableEq, Repr

/-- A format as a code names it. -/
structure Fmt where
  el : Elem
  form : Form
deriving DecidableEq, Repr

/-- The block formats in code order. -/
def blockElems : List Elem := [.e4m3, .e5m2, .e3m2, .e2m3, .e2m1, .int8, .int4, .q3, .t2]

/-- R74: the format of a code; none for 0x00 and the reserved codes. -/
def fmtOf (c : Nat) : Option Fmt :=
  if c < 0x10 then
    (([none, some .fp64, some .fp32, some .fp16, some .bf16, some .int32, some .int16, some .int8, some .e8m0] :
      List (Option Elem)).getD c none).map (fun e => ⟨e, .plain⟩)
  else if c < 0x20 then (blockElems[c - 0x10]?).map (fun e => ⟨e, .single⟩)
  else (blockElems[c - 0x20]?).map (fun e => ⟨e, .two⟩)

/-- The integer of a two's-complement, Q3 or T2 code. -/
def decI (w c : Nat) : Val := ofI (toInt w c)

/-- R70 to R72: the value of an element code; the escape codes of Q3 and T2 have none here (NaN). -/
def decElem (el : Elem) (c : Nat) : Val :=
  match el.flt with
  | some f => decF f c
  | none => match el with
    | .e8m0 => if c = 255 then .nan else .fin false 1 ((c : Int) - 127)
    | .q3 => if c = 4 then .nan else decI 3 c
    | .t2 => if c = 2 then .nan else decI 2 c
    | e => decI e.width c

/-- R86: one step of the 32-bit Galois LFSR. -/
def lfsrNext (s : Nat) : Nat := if s % 2 = 1 then (s / 2) ^^^ 0x80200003 else s / 2

/-- The LFSR stepped `n` times. -/
def lfsrIter : Nat → Nat → Nat
  | 0, s => s
  | n + 1, s => lfsrIter n (lfsrNext s)

/-- R86: the start state from a seed and a salt. -/
def lfsrStart (seed salt : Nat) : Nat :=
  let s := seed ^^^ (salt * 0x00010001 % 2 ^ 32)
  if s = 0 then 1 else s

/-- R84, R85: the rounding of output element `j`: RNE, or SR with bits [31:16] of its random value. -/
def rmAt (sr : Bool) (s0 j : Nat) : RMode := if sr then .sr (lfsrIter (j + 1) s0 / 65536) else .rne

/-- A converted element: its code, whether it saturated, whether it was flushed. -/
structure Cvt where
  code : Nat
  sat : Bool := false
  flush : Bool := false
deriving DecidableEq, Repr

/-- R87, R88: narrowing to a floating-point layout: saturating; infinities kept where `keepInf` and the layout has them. -/
def cvtF (f : FFmt) (keepInf : Bool) (rm : RMode) (v : Val) : Cvt :=
  match v with
  | .nan => match f.nan with | some c => { code := c } | none => { code := 0, sat := true }
  | .inf neg =>
    let sgn := if neg then 2 ^ (f.width - 1) else 0
    if keepInf && f.ieee then { code := sgn + f.maxCode + 1 } else { code := sgn + f.maxCode, sat := true }
  | .fin neg m e =>
    let sgn := if neg then 2 ^ (f.width - 1) else 0
    match decF f f.maxCode with
    | .fin _ mm me =>
      if !leMag m e mm me then { code := sgn + f.maxCode, sat := true }
      else
        let c := (roundRat f rm neg m 1 e).1
        { code := c, flush := decide (0 < m) && decide (c % 2 ^ (f.width - 1) = 0) }
    | _ => { code := sgn }

/-- R84, R87, R88: rounding n/d to an integer of magnitude at most `lo` below and `hi` above zero, as a `w`-bit code. -/
def cvtI (w lo hi : Nat) (rm : RMode) (neg : Bool) (n d : Nat) : Cvt :=
  let lim := if neg then lo else hi
  if lim * d < n then { code := ofInt w (if neg then -(lo : Int) else hi), sat := true }
  else
    let k := roundQ rm neg n d
    { code := ofInt w (if neg then -(k : Int) else k), flush := decide (0 < n) && decide (k = 0) }

/-- R86: exponent extraction to E8M0. -/
def cvtE8m0 : Val → Cvt
  | .nan => { code := 255 }
  | .inf _ => { code := 254, sat := true }
  | .fin _ m e =>
    if m = 0 then { code := 0 }
    else
      let l := flog2 m 1 e
      if 127 < l then { code := 254, sat := true } else if l < -127 then { code := 0, flush := true }
      else { code := (l + 127).toNat }

/-- R82: conversion of a value to a plain format. -/
def cvtPlain (el : Elem) (rm : RMode) (v : Val) : Cvt :=
  match el.flt with
  | some f => cvtF f true rm v
  | none =>
    if el = .e8m0 then cvtE8m0 v
    else
      let w := el.width
      match v with
      | .nan => { code := 0, sat := true }
      | .inf neg => { code := ofInt w (if neg then -(2 ^ (w - 1) : Nat) else (2 ^ (w - 1) - 1 : Nat)), sat := true }
      | .fin neg m e =>
        let u := inUnits m 1 e 0
        cvtI w (2 ^ (w - 1)) (2 ^ (w - 1) - 1) rm neg u.1 u.2

end Sys2Proof.Machine
end

