-- ==== Sys2Proof/Machine/Blocks.lean ====
section
/-! DEFINITION. Blocks of 32 elements (R76 to R81), the quantiser (R89), and conversion of runs of elements between formats with their
sentinel counts (R82, R90). -/

namespace Sys2Proof.Machine

/-- Whether the format carries a side list (R79). -/
def Elem.side (el : Elem) : Bool := el == .q3 || el == .t2

/-- R78: bytes of the element field. -/
def Elem.field (el : Elem) : Nat := 4 * el.width

/-- R78: the offset of the element field. -/
def elemOff (form : Form) : Nat := if form = .two then 8 else 4

/-- R78: the size of a block. -/
def blkSize (f : Fmt) : Nat := elemOff f.form + f.el.field + (if f.el.side then 8 else 0)

/-- Bytes of `n` elements of a format (a block format holds 32 to a block). -/
def runBytes (f : Fmt) (n : Nat) : Nat := if f.form = .plain then n * (f.el.width / 8) else n / 32 * blkSize f

/-- R77: element `i` of a packed field. -/
def packedAt (w : Nat) (field : Nat) (i : Nat) : Nat := field / 2 ^ (w * i) % 2 ^ w

/-- The escape code of Q3 and T2. -/
def escCode (el : Elem) : Nat := if el = .q3 then 4 else 2

/-- R80: the BF16 value of the side-list entry that names position `i`, if one is valid. -/
def sideVal (bytes : List Byte) (off nesc i : Nat) : Option Val :=
  ((List.range nesc).find? (fun e => decide (fieldAt bytes (off + 4 * e + 2) 1 % 32 = i))).map
    (fun e => decF fbf16 (fieldAt bytes (off + 4 * e) 2))

/-- R76, R79, R80: the 32 values of a block. -/
def decBlock (f : Fmt) (bytes : List Byte) : List Val :=
  let k := fieldAt bytes 0 1
  let nesc := min 2 (fieldAt bytes 1 1 % 4)
  let eo := elemOff f.form
  let fld := leNat (slice bytes eo f.el.field)
  (List.range 32).map (fun i =>
    let c := packedAt f.el.width fld i
    if f.el.side && c == escCode f.el then (sideVal bytes (eo + f.el.field) nesc i).getD .nan
    else if k = 255 then .nan
    else
      let sub := if f.form = .two then decF fE4m3 (fieldAt bytes (4 + i / 8) 1) else .fin false 1 0
      Val.mul (Val.mul (decElem f.el c) sub) (.fin false 1 ((k : Int) - 127)))

/-- R82 class D and the plain formats: `n` elements of a format from their bytes. -/
def decRun (f : Fmt) (n : Nat) (bytes : List Byte) : List Val :=
  if f.form = .plain then
    let w := f.el.width / 8
    (List.range n).map (fun i => decElem f.el (fieldAt bytes (w * i) w))
  else (List.range (n / 32)).flatMap (fun b => decBlock f (slice bytes (b * blkSize f) (blkSize f)))

/-- R89: twice M, the largest magnitude the quantiser writes. -/
def twiceM : Elem → Nat
  | .e4m3 => 896 | .e5m2 => 114688 | .e3m2 => 56 | .e2m3 => 15 | .e2m1 => 12 | .int8 => 254 | .int4 => 14 | .q3 => 6
  | .t2 => 2 | _ => 0

/-- The largest of two magnitudes, the first on a tie. -/
def maxAbs (a b : Val) : Val := if leAbs b a then a else b

/-- R89 step 1: the indices of the `n` largest magnitudes, the lowest index on a tie. -/
def largest (x : List Val) : Nat → List Nat → List Nat
  | 0, acc => acc
  | n + 1, acc =>
    let c := (List.range x.length).filter (fun i => !acc.contains i)
    match c with
    | [] => acc
    | c0 :: cs =>
      let best := cs.foldl (fun b i => if leAbs (x.getD i .nan) (x.getD b .nan) then b else i) c0
      largest x n (acc ++ [best])

/-- m·2^e ≤ (t/2)·2^g. -/
def fits (v : Val) (t : Nat) (g : Int) : Bool :=
  match v with
  | .fin _ m e => leMag m e t (g - 1)
  | _ => false

/-- R89 step 3: the smallest exponent in −127 to 127 at which `amax` fits, else 127. -/
def autoExp (amax : Val) (t : Nat) : Int :=
  (((List.range 255).map (fun (i : Nat) => Int.ofNat i - 127)).find? (fits amax t)).getD 127

/-- R89 step 4: the code of the smallest positive E4M3 value at or above a/((t/2)·2^e), at most 448. -/
def e4m3Ceil (a : Val) (t : Nat) (e : Int) : Nat :=
  ((rangeFrom 1 0x7E).find? (fun c =>
    match decF fE4m3 c with
    | .fin _ m g => fits a (t * m) (e + g)
    | _ => false)).getD 0x7E

/-- What the quantiser needs beyond the values: target, NESC, the block exponent if GIVEN, SR, start state. -/
structure QCfg where
  fmt : Fmt
  nesc : Nat := 0
  given : Option Int := none
  sr : Bool := false
  s0 : Nat := 1
deriving DecidableEq, Repr

/-- R89 step 5: one element: x/(sub·2^e) rounded once and limited to ±M. -/
def quantElem (el : Elem) (rm : RMode) (x : Val) (sub : Nat × Int) (e : Int) : Cvt :=
  match x with
  | .nan => { code := 0, sat := true }
  | .inf neg => match el.flt with
    | some f => { code := (if neg then 2 ^ (f.width - 1) else 0) + f.maxCode, sat := true }
    | none => { code := ofInt el.width (if neg then -(twiceM el / 2 : Nat) else (twiceM el / 2 : Nat)), sat := true }
  | .fin neg m g =>
    let u := inUnits m sub.1 (g - e - sub.2) 0
    match el.flt with
    | some f =>
      let sgn := if neg then 2 ^ (f.width - 1) else 0
      if twiceM el * u.2 < 2 * u.1 then { code := sgn + f.maxCode, sat := true }
      else
        let c := (roundRat f rm neg u.1 u.2 0).1
        { code := c, flush := decide (0 < m) && decide (c % 2 ^ (f.width - 1) = 0) }
    | none => cvtI el.width (twiceM el / 2) (twiceM el / 2) rm neg u.1 u.2

/-- A list of w-bit codes packed from the least significant bit (R77). -/
def packCodes (w : Nat) : List Nat → Nat
  | [] => 0
  | c :: t => c % 2 ^ w + 2 ^ w * packCodes w t

/-- R89: the block of 32 values, and for each element whether it saturated and whether it was flushed. -/
def quantise (q : QCfg) (x : List Val) (j : Nat) : List Byte × List (Bool × Bool) :=
  let el := q.fmt.el
  let two := q.fmt.form == .two
  let esc := if el.side then largest x q.nesc [] else []
  let side : List Byte := (esc.flatMap (fun i =>
    toLE 2 (cvtF fbf16 true (rmAt q.sr q.s0 (j + i)) (x.getD i .nan)).code ++ toLE 2 i))
  let rest := (List.range 32).filter (fun i => !esc.contains i)
  let nanBlk := rest.any (fun i => (x.getD i .nan).isNan)
  let amax := rest.foldl (fun a i => maxAbs a (x.getD i .nan)) (.fin false 0 0)
  let lim := if two then twiceM el * 448 else twiceM el
  let e := q.given.getD (autoExp amax lim)
  let subs := (List.range 4).map (fun g =>
    let ag := (rest.filter (fun i => i / 8 == g)).foldl (fun a i => maxAbs a (x.getD i .nan)) (.fin false 0 0)
    if nanBlk then 0x38 else e4m3Ceil ag (twiceM el) e)
  let els := (List.range 32).map (fun i =>
    if esc.contains i then ({ code := escCode el } : Cvt)
    else if nanBlk then { code := 0, sat := true }
    else
      let sub := if two then (match decF fE4m3 (subs.getD (i / 8) 1) with | .fin _ m g => (m, g) | _ => (1, 0)) else (1, 0)
      quantElem el (rmAt q.sr q.s0 (j + i)) (x.getD i .nan) sub e)
  let k := if nanBlk then 255 else (e + 127).toNat
  (toLE 1 k ++ toLE 1 esc.length ++ toLE 2 0 ++ (if two then subs.flatMap (toLE 1) else []) ++
    toLE el.field (packCodes el.width (els.map (·.code))) ++ (if el.side then slice side 0 8 else []),
    els.map (fun c => (c.sat, c.flush)))

/-- R82, R90: a run of values converted to a format from output index `j`: the bytes, and each element's counts. -/
def encRun (q : QCfg) (x : List Val) (j : Nat) : List Byte × List (Bool × Bool) :=
  if q.fmt.form = .plain then
    let cs := (List.range x.length).map (fun i => cvtPlain q.fmt.el (rmAt q.sr q.s0 (j + i)) (x.getD i .nan))
    (cs.flatMap (fun c => toLE (q.fmt.el.width / 8) c.code), cs.map (fun c => (c.sat, c.flush)))
  else
    let bs := (List.range (x.length / 32)).map (fun b => quantise q ((x.drop (32 * b)).take 32) (j + 32 * b))
    (bs.flatMap (·.1), bs.flatMap (·.2))

/-- R90: the sentinel record of a tile: SAT in [31:16], FLUSH in [15:0], each stopping at 0xFFFF. -/
def sentinel (sat flush : Nat) : Nat := min sat 65535 * 65536 + min flush 65535

/-- The sentinel record of elements. -/
def sentinelOf (l : List (Bool × Bool)) : Nat := sentinel (l.countP (·.1)) (l.countP (·.2))

end Sys2Proof.Machine
end

