-- ==== Sys2Proof/Machine/Ledger.lean ====
section
/-! DEFINITION. The start ledger as the running module writes it (R501 to R505), and the enabled arrays of a bay. -/

namespace Sys2Proof.Machine

/-- R63, R68: an error whose every occurrence writes a log entry. -/
def raiseEach (s : State) (p : Page) (e : Err) : State :=
  if bitOf (rd s p hdrErr) e.bit then
    logWrite s (rd s p hdrErrAddr) (pgId p) e.bit (e.sev.getD 1) (bitOf (rd s p hdrErrInfo) 26) (rd s p hdrErrInfo)
  else raise s p e

/-- R502: the ACTION of a KIND. -/
def ledgerAction (kind : Nat) : Nat :=
  ([0, 0, 1, 2, 8, 5, 3, 4, 6, 7, 8, 0, 9, 10, 0, 0, 12, 13, 0] : List Nat).getD kind 0

/-- R502, R503: a slot that holds no entry. -/
def ledgerFree (l : SMap (Option LedgerEntry)) (i : Nat) : Bool := (mget none l i).isNone

/-- R503: the slot a new entry takes: that of an action entry of the same KIND and UNIT, a free slot, or that of the record with the
lowest SEQ. -/
def ledgerSlot (l : SMap (Option LedgerEntry)) (kind unit : Nat) : Option Nat :=
  let same := (List.range 256).find? (fun i => (mget none l i).any (fun e => e.kind == kind && e.unit == unit))
  let free := (List.range 256).find? (ledgerFree l)
  let recs := (List.range 256).filter (fun i => (mget none l i).any (fun e => e.action == 0))
  let seqOf := fun i => (mget none l i).elim 0 (·.seq)
  let oldest := match recs with
    | [] => none
    | r :: rs => some (rs.foldl (fun b i => if seqOf i < seqOf b then i else b) r)
  if ledgerAction kind ≠ 0 ∧ same.isSome then same else if free.isSome then free else oldest

/-- R519: SEC.LEDGER.USED follows the slots in use. -/
def ledgerCount (s : State) : State :=
  wr s .sec secLedgerUsed ((List.range 256).countP (fun i => !ledgerFree s.mg.ledger i))

/-- R330: STATUS.LEDGERED of a channel: whether the ledger holds its DEACCESSION entry. -/
def ledgered (s : State) (e : LedgerEntry) (on : Bool) : State :=
  if e.kind = 5 then wr s (.mchan ⟨e.unit / 32 % 16, Nat.mod_lt _ (by decide)⟩ ⟨e.unit % 32, Nat.mod_lt _ (by decide)⟩) mchStatusLedgered (b2n on) else s

/-- R503: an entry is written to the ledger; with every slot an action entry it is not stored, and an action entry then sets FULL, LEDGER_FULL
and PG_EVT bit 16 of SEC (R520). -/
def ledgerStore (s : State) (e : LedgerEntry) : State :=
  match ledgerSlot s.mg.ledger e.kind e.unit with
  | some i =>
    ledgered (setEvt (ledgerCount { s with mg := { s.mg with
      ledger := mset none s.mg.ledger i (some { e with seq := s.mg.nextSeq })
      nextSeq := s.mg.nextSeq + 1
      stepEntries := s.mg.stepEntries + 1 } }) .sec 16) e true
  | none => if e.action = 0 then s else setEvt (raise (wr s .sec secLedgerFull 1) .sec { bit := 16 }) .sec 16

/-- R502: the step that writes an entry: the one the start runs, 9 during accession, or 0. -/
def ledgerStep (s : State) : Nat :=
  let a := rd s (.ce 0) ceAccStatState
  if !s.mg.startDone then s.mg.startStep else if 1 ≤ a ∧ a ≤ 3 then 9 else 0

/-- R489, R502: a new entry; while the MG die is lost it waits in the hub's queue of 32. OUTCOME is RECORD but for STEP entries
(log 13). -/
def ledgerAdd (s : State) (kind outcome unit arg : Nat) : State :=
  let e : LedgerEntry := {
    seq := 0, boot := s.mg.bootCount, step := ledgerStep s, kind := kind, outcome := outcome,
    action := ledgerAction kind, unit := unit, arg := arg }
  if s.mg.lost then
    if s.mg.hubQueue.length < 32 then { s with mg := { s.mg with hubQueue := s.mg.hubQueue ++ [e] } } else s
  else ledgerStore s e

/-- A record or repair entry. -/
def ledgerNote (s : State) (kind unit arg : Nat) : State := ledgerAdd s kind 3 unit arg

/-- R496, R502: the STEP entry of the step that ends, with the number of other entries it wrote. -/
def stepEntry (s : State) (step outcome : Nat) : State := ledgerAdd s 1 outcome step s.mg.stepEntries

/-- R496, R520: a FAILED step stops the start. -/
def stepFail (s : State) (step : Nat) : State :=
  setEvt (raise (wr (stepEntry s step 2) .sec secStartState 3) .sec { bit := 18, unit := step }) .sec 17

/-- The entries of the snapshot with a KIND. -/
def snapKind (s : State) (kind : Nat) : List LedgerEntry :=
  s.mg.snapshot.filterMap (fun x => x.2.bind (fun e => if e.kind = kind then some e else none))

/-- R498: FLAGS.KEEP_SPARED of the configuration in force. -/
def keepSpared (s : State) : Bool := s.mg.cfg != [] && bitOf ((s.mg.cfg.getD 13 0).toNat) 0

/-- R505: the physical arrays of a bay that are enabled, in order: logical array i is the i-th. -/
def enabledPhys (s : State) (b : BayId) : List Nat :=
  (List.range 8).filter (fun a =>
    !(s.fuses.gradeB && decide ((mget 0 s.fuses.fusedOff b.val).val = a)) &&
    (keepSpared s || !(snapKind s 6 ++ snapKind s 7).any (fun e => e.unit == 8 * b.val + a)))

/-- The UNIT of a COL_SPARE or CHECKER entry of logical array `a`. -/
def arrUnit (s : State) (b : BayId) (a : Nat) : Nat := 8 * b.val + (enabledPhys s b).getD a a

end Sys2Proof.Machine
end

