-- ==== Sys2Proof/Machine/Crc.lean ====
section
/-! DEFINITION. The module's checksums: CRC-32C (R313) and the CRC-8 of the sideband (R364). -/

namespace Sys2Proof.Machine

/-- One bit of the reflected CRC-32C. -/
def crcBit (c : Nat) : Nat := if c % 2 = 1 then (c / 2) ^^^ 0x82F63B78 else c / 2

/-- One byte of the reflected CRC-32C. -/
def crcByte (c b : Nat) : Nat :=
  crcBit (crcBit (crcBit (crcBit (crcBit (crcBit (crcBit (crcBit (c ^^^ b))))))))

/-- The running CRC over bytes. -/
def crcRun : Nat → List Byte → Nat
  | c, [] => c
  | c, b :: t => crcRun (crcByte c b.toNat) t

/-- R313: CRC-32C of a byte string. -/
def crc32c (l : List Byte) : BitVec 32 := BitVec.ofNat 32 (crcRun 0xFFFFFFFF l ^^^ 0xFFFFFFFF)

/-- One bit of a CRC-8 with polynomial `poly`, most significant bit first. -/
def crc8Bit (poly c : Nat) : Nat := if 128 ≤ c then (c * 2 % 256) ^^^ poly else c * 2

/-- A CRC-8 with polynomial `poly` from `c`. -/
def crc8Run (poly : Nat) : Nat → List Byte → Nat
  | c, [] => c
  | c, b :: t =>
    crc8Run poly (crc8Bit poly (crc8Bit poly (crc8Bit poly (crc8Bit poly (crc8Bit poly (crc8Bit poly (crc8Bit poly
      (crc8Bit poly (c ^^^ b.toNat))))))))) t

end Sys2Proof.Machine
end

