-- ==== Sys2Proof/Machine/Sync.lean ====
section
/-! DEFINITION. A bay's flags and counters, waits and signals (R167, R175, R192), and the operations in flight whose completion
signals (R185, R233). -/

namespace Sys2Proof.Machine

/-- R175: flag `i` is set. -/
def flagIs (s : State) (b : BayId) (i : Nat) : Bool := bitOf (rd s (.sync b) syncFlags) i

/-- R175: a signal on a flag: a flag already set marks OVERSET. -/
def flagSignal (s : State) (b : BayId) (i : Nat) : State :=
  if flagIs s b i then wr s (.sync b) syncOverset (setBit (rd s (.sync b) syncOverset) i)
  else wr s (.sync b) syncFlags (setBit (rd s (.sync b) syncFlags) i)

/-- A flag is cleared. -/
def flagClear (s : State) (b : BayId) (i : Nat) : State := wr s (.sync b) syncFlags (clrBit (rd s (.sync b) syncFlags) i)

/-- Counter `n`. -/
def cnt (s : State) (b : BayId) (n : Nat) : Nat := rd s (.sync b) (syncCnt n)

/-- A counter write. -/
def cntSet (s : State) (b : BayId) (n v : Nat) : State := wr s (.sync b) (syncCnt n) v

/-- A counter addition modulo 2^32. -/
def cntAdd (s : State) (b : BayId) (n v : Nat) : State := cntSet s b n (cnt s b n + v)

/-- R167: the V bit of a WAIT or SIG byte. -/
def byteV (x : Nat) : Bool := bitOf x 7
/-- R167: the K bit: counter. -/
def byteK (x : Nat) : Bool := bitOf x 6
/-- R167: the index. -/
def byteIdx (x : Nat) : Nat := x % 64
/-- R174: V = 0 and not 0x00, or a counter at index 16 or above. -/
def byteBad (x : Nat) : Bool := (!byteV x && x != 0) || (byteV x && byteK x && decide (16 ≤ byteIdx x))

/-- R175: the signal of a SIG byte. -/
def signal (s : State) (b : BayId) (sig : Nat) : State :=
  if byteV sig then if byteK sig then cntAdd s b (byteIdx sig % 16) 1 else flagSignal s b (byteIdx sig) else s

/-- R175: whether a WAIT byte with threshold `thr` is satisfied; an absent WAIT is. -/
def waitOk (s : State) (b : BayId) (w thr : Nat) : Bool :=
  if byteV w then
    if byteK w then decide ((cnt s b (byteIdx w % 16) + 2 ^ 32 - thr % 2 ^ 32) % 2 ^ 32 < 2 ^ 31) else flagIs s b (byteIdx w)
  else true

/-- R175: a satisfied wait on a flag clears it. -/
def waitTake (s : State) (b : BayId) (w : Nat) : State :=
  if byteV w && !byteK w then flagClear s b (byteIdx w) else s

/-- An operation completes its issue handshake: its number, and the state with it in flight on `left` engines. -/
def newOp (s : State) (b : BayId) (src : OpSrc) (sig : BitVec 8) (left : Nat) : Nat × State :=
  let y := bayOf s b
  (y.nextOp, setBay s b { y with nextOp := y.nextOp + 1, ops := y.ops ++ [{ id := y.nextOp, src := src, sig := sig, left := left }] })

/-- One engine has finished its part of operation `id`; after the last, the operation completes and its SIG acts. -/
def opDone (s : State) (b : BayId) (id : Nat) : State :=
  match (bayOf s b).ops.find? (fun o => o.id == id) with
  | none => s
  | some o =>
    if o.left ≤ 1 then
      signal (modBay s b (fun y => { y with ops := y.ops.filter (fun o => o.id != id) })) b o.sig.toNat
    else modBay s b (fun y => { y with ops := y.ops.map (fun o => if o.id == id then { o with left := o.left - 1 } else o) })

/-- A refused or abandoned operation leaves without its SIG (R175). -/
def opDrop (s : State) (b : BayId) (id : Nat) : State :=
  modBay s b (fun y => { y with ops := y.ops.filter (fun o => o.id != id) })

/-- Whether an operation is in flight. -/
def opLive (s : State) (b : BayId) (id : Nat) : Bool := (bayOf s b).ops.any (fun o => o.id == id)

end Sys2Proof.Machine
end

