-- ==== Sys2Proof/Machine/Store.lean ====
section
/-! DEFINITION. Bay store (R226 to R232): bytes, poison of lines, carried checksums of regions, and what SECDED finds. -/

namespace Sys2Proof.Machine

/-- Bay store of bay `b`. -/
def storeOf (s : State) (b : BayId) : Store := (bayOf s b).store
/-- The state with the bay store replaced. -/
def setStore (s : State) (b : BayId) (t : Store) : State := modBay s b (fun y => { y with store := t })

/-- The size of bay store. -/
def storeSize : Nat := 0x8000000
/-- R180, R226: the protected collection region starts here. -/
def collBase : Nat := 0x7800000

/-- `len` bytes from `addr` lie wholly in bay store. -/
def inStore (addr len : Nat) : Bool := decide (addr + len ≤ storeSize)
/-- `len` bytes from `addr` touch the protected collection region. -/
def inColl (addr len : Nat) : Bool := decide (0 < len) && decide (collBase < addr + len)
/-- A range that an engine may write. -/
def storeWritable (addr len : Nat) : Bool := inStore addr len && !inColl addr len

/-- `len` bytes from `addr` as stored. -/
def stBytes (t : Store) (addr len : Nat) : List Byte := (List.range len).map (fun i => mget 0 t.bytes (addr + i))

/-- A map with consecutive bytes written. -/
def putBytes (m : SMap Byte) (addr : Nat) : List Byte → SMap Byte
  | [] => m
  | b :: r => putBytes (mset 0 m addr b) (addr + 1) r

/-- The 64-byte lines that a range touches. -/
def linesOf (addr len : Nat) : List Nat := if len = 0 then [] else rangeFrom (addr / 64) ((addr + len - 1) / 64 + 1 - addr / 64)
/-- The 256-byte regions that a range touches. -/
def regionsOf (addr len : Nat) : List Nat := if len = 0 then [] else rangeFrom (addr / 256) ((addr + len - 1) / 256 + 1 - addr / 256)

/-- A line is delivered poisoned: P = 1, or a double-bit error found and not yet written back (R230). -/
def linePoison (t : Store) (line : Nat) : Bool := mget false t.poison line || mget false t.ue line

/-- R230 to R232: a write of bytes with the writer's poison mark: CV of the touched regions clears; a whole line takes the mark, a
part of a line keeps its P beside it. -/
def stWrite (t : Store) (addr : Nat) (d : List Byte) (poison : Bool) : Store :=
  let lines := linesOf addr d.length
  let whole := fun l => decide (addr ≤ 64 * l) && decide (64 * l + 64 ≤ addr + d.length)
  { t with
    bytes := putBytes t.bytes addr d
    poison := lines.foldl (fun m l => mset false m l (poison || (!whole l && mget false m l))) t.poison
    ue := lines.foldl (fun m l => if whole l then mset false m l false else m) t.ue
    ce := lines.foldl (fun m l => if whole l then mset false m l false else m) t.ce
    carried := (regionsOf addr d.length).foldl (fun m r => mset none m r none) t.carried }

/-- R231: a whole 256-byte block written with its carried CRC-32C. -/
def stWriteCarried (t : Store) (addr : Nat) (d : List Byte) (crc : BitVec 32) (poison : Bool) : Store :=
  let t := stWrite t addr d poison
  { t with carried := mset none t.carried (addr / 256) (some crc) }

/-- R131: the passes that the vector engine holds note a write by another engine. -/
def vecOver (s : State) (b : BayId) (addr n : Nat) : State :=
  let v := (bayOf s b).vec
  if n = 0 ∨ (v.running.isNone ∧ v.held.isNone) then s
  else
    let note := fun (r : PassRun) => { r with crossed := r.crossed ++ [(addr, addr + n)] }
    modBay s b (fun y => { y with vec := { running := y.vec.running.map note, held := y.vec.held.map note } })

/-- Bytes stored; reservations of their lines end (R219). -/
def storePut (s : State) (b : BayId) (addr : Nat) (d : List Byte) (poison : Bool) : State :=
  (linesOf addr d.length).foldl (fun s l => loseLine s (.store b l)) (setStore s b (stWrite (storeOf s b) addr d poison))

/-- A write by an engine other than the vector engine. -/
def storeWrite (s : State) (b : BayId) (addr : Nat) (d : List Byte) (poison : Bool) : State :=
  vecOver (storePut s b addr d poison) b addr d.length

/-- A write of whole 256-byte blocks with their carried checksum (R231). -/
def storeWriteCarried (s : State) (b : BayId) (addr : Nat) (d : List Byte) (crc : BitVec 32) (poison : Bool) : State :=
  vecOver (setStore ((linesOf addr d.length).foldl (fun s l => loseLine s (.store b l)) s) b
    (stWriteCarried (storeOf s b) addr d crc poison)) b addr d.length

/-- R151: a poison mark on every line of a range. -/
def storeMark (s : State) (b : BayId) (addr n : Nat) : State :=
  let t := storeOf s b
  setStore s b { t with poison := (linesOf addr n).foldl (fun m l => mset false m l true) t.poison }

/-- R230: what SECDED finds in the words an operation reads: STORE counts and records it; an error already found and not yet written back is not
counted again. -/
def storeUpset (s : State) (b : BayId) (u : Upset) : State :=
  match u with
  | .none | .logic => s
  | .corrected a =>
    let s := wr (satAdd s (.store b) stoCeCount 1) (.store b) stoCeAddr (a.toNat / 8 * 8)
    let t := storeOf s b
    setEvt (setStore s b { t with ce := mset false t.ce (a.toNat / 64) true }) (.store b) 16
  | .uncorrectable a =>
    let t := storeOf s b
    let l := a.toNat / 64
    if mget false t.ue l then s
    else
      let s := setStore s b { t with ue := mset false t.ue l true }
      raise (satAdd s (.store b) stoUeCount 1) (.store b) { bit := 16, addr := some (64 * l) }

/-- R232: the first reader of a region with CV = 1 verifies it. `bad` says whether the verification failed twice on its way;
a region with a poisoned line is not verified. Answers the store and whether it failed its CRC. -/
def stVerify (t : Store) (r : Nat) (bad : Bool) : Store × Bool :=
  match mget none t.carried r with
  | none => (t, false)
  | some crc =>
    let lines := rangeFrom (4 * r) 4
    let clear : Store := { t with carried := mset none t.carried r none }
    let mark : Store := { clear with poison := lines.foldl (fun m l => mset false m l true) t.poison }
    if lines.any (linePoison t) then (mark, false)
    else if bad || crc32c (stBytes t (256 * r) 256) != crc then (mark, true)
    else (clear, false)

/-- R484: a residue or parity check of an engine fails: POISON in its page, and a log entry whatever PG_ERR held. -/
def logicCheck (s : State) (p : Page) (unit : Nat) (u : Upset) : State :=
  if u = .logic then logWrite (raise s p { bit := 7, unit := unit }) 0 (pgId p) 0x107 1 false (unit % 256) else s

/-- R230, R232: an engine whose page is `p` reads a range: the bytes, whether any line of it is poisoned, and the state in which the
carried regions have been verified and POISON, or CHECKSUM and POISON, are set in the engine's page. -/
def storeRead (s : State) (b : BayId) (p : Page) (unit addr len : Nat) (chk : Check) (u : Upset) :
    List Byte × Bool × State :=
  let s := storeUpset s b u
  let t0 := storeOf s b
  let v := (regionsOf addr len).foldl (fun (a : Store × Bool) r =>
    let x := stVerify a.1 r (chk == .twice)
    (x.1, a.2 || x.2)) (t0, false)
  let s := setStore s b v.1
  let bad := (linesOf addr len).filter (linePoison v.1)
  let at_ := 64 * bad.headD 0
  let s := if v.2 then raiseAt s p 4 unit at_ false else s
  let s := if bad.isEmpty then s else raiseAt s p 7 unit at_ false
  (stBytes v.1 addr len, !bad.isEmpty, s)

/-- R230: CORRECTION_WRITEBACK: a bank writes back a corrected word, or a line whose double-bit error was found, with P = 1. -/
def execCorrectionWriteback (b : BayId) (line : Fin 2097152) (s : State) : Out :=
  let t := storeOf s b
  let l := line.val
  if mget false t.ue l then
    .next (setStore s b { t with ue := mset false t.ue l false, poison := mset false t.poison l true })
  else .next (setStore s b { t with ce := mset false t.ce l false })

end Sys2Proof.Machine
end

