-- ==== Sys2Proof/Machine/Arrays.lean ====
section
/-! DEFINITION. The matrix arrays (R94 to R126). -/

namespace Sys2Proof.Machine

/-- Array `a` of bay `b`. -/
def arrOf (s : State) (b : BayId) (a : Nat) : ArrayUnit := mget {} (bayOf s b).arrays a
/-- The state with an array replaced. -/
def setArr (s : State) (b : BayId) (a : Nat) (v : ArrayUnit) : State :=
  modBay s b (fun y => { y with arrays := mset {} y.arrays a v })
/-- The array with number `n`. -/
def arrId (n : Nat) : ArrId := ⟨n % 8, Nat.mod_lt _ (by decide)⟩
/-- Its page. -/
def arrPage (b : BayId) (n : Nat) : Page := .arr b (arrId n)

/-- R104: the arrays a matrix operation runs on. -/
def gangOf (op : MtxOp) : List Nat := rangeFrom op.la.toNat (2 ^ op.gang.toNat)

/-- R96: a matrix descriptor, decoded. -/
structure Mfd where
  fmtA : Nat
  fmtB : Nat
  fmtC : Nat
  fmtLoad : Nat
  fbA : Nat
  fbB : Nat
  flags : Nat
  eGiven : Int
  strideA : Nat
  strideB : Nat
  strideC : Nat
  fbDeltaA : Int
  fbDeltaB : Int
  fbStrideA : Nat
  fbStrideB : Nat
  sentDeltaA : Int
  sentDeltaB : Int
  sentNA : Nat
  sentNB : Nat
  thresh : Nat
  tsrDelta : Int
  gangB : Nat
  gangC : Nat
deriving DecidableEq, Repr

/-- R96: the fields of 64 descriptor bytes. -/
def mfdOf (m : List Byte) : Mfd where
  fmtA := fieldAt m 0 1
  fmtB := fieldAt m 1 1
  fmtC := fieldAt m 2 1
  fmtLoad := fieldAt m 3 1
  fbA := fieldAt m 4 1
  fbB := fieldAt m 5 1
  flags := fieldAt m 6 1
  eGiven := toInt 8 (fieldAt m 7 1)
  strideA := fieldAt m 8 4
  strideB := fieldAt m 12 4
  strideC := fieldAt m 16 4
  fbDeltaA := toInt 32 (fieldAt m 20 4)
  fbDeltaB := toInt 32 (fieldAt m 24 4)
  fbStrideA := fieldAt m 28 4
  fbStrideB := fieldAt m 32 4
  sentDeltaA := toInt 32 (fieldAt m 36 4)
  sentDeltaB := toInt 32 (fieldAt m 40 4)
  sentNA := fieldAt m 44 2
  sentNB := fieldAt m 46 2
  thresh := fieldAt m 48 2
  tsrDelta := toInt 32 (fieldAt m 52 4)
  gangB := fieldAt m 56 4
  gangC := fieldAt m 60 4

/-- R101: a float block. -/
def Fmt.floatBlk (f : Fmt) : Bool := f.form != .plain && f.el.flt.isSome
/-- R101: an integer block. -/
def Fmt.intBlk (f : Fmt) : Bool := f.form != .plain && !f.el.flt.isSome
/-- R101: BF16 or FP16. -/
def Fmt.half (f : Fmt) : Bool := f.form == .plain && (f.el == .bf16 || f.el == .fp16)
/-- A plain format of the given elements. -/
def Fmt.isPlain (f : Fmt) (el : Elem) : Bool := f.form == .plain && f.el == el

/-- R101: the accumulator of an operand combination, if it is accepted. -/
def accFor (a b : Fmt) : Option AccFmt :=
  if a.isPlain .fp64 && b.isPlain .fp64 then some .fp64
  else if a.isPlain .fp32 && b.isPlain .fp32 then some .fp32
  else if a.isPlain .int8 && b.isPlain .int8 then some .int32
  else if (a.half || a.floatBlk) && (b.half || b.floatBlk) then some .fp32
  else if (a.intBlk || a.floatBlk) && b.intBlk then some .fp32
  else if a.intBlk && b.floatBlk then some .fp32
  else none

/-- `accFor` over format codes. -/
def accOfCodes (a b : Nat) : Option AccFmt := (fmtOf a).bind (fun x => (fmtOf b).bind (accFor x))

/-- R93: whether code `fb` may back primary code `p`; 0x00 names none. -/
def fallbackOk (p fb : Nat) : Bool :=
  if fb = 0 then true
  else match fmtOf p, fmtOf fb with
  | some x, some y =>
    (y.isPlain .bf16 && decide (x.el.width ≤ 8)) || (y.form != .plain && y.el == .e4m3 && decide (x.el.width < 8))
  | _, _ => false

/-- ARR.ACC.FMT of an accumulator format. -/
def AccFmt.code : AccFmt → Nat
  | .fp32 => 0 | .fp64 => 1 | .int32 => 2

/-- The plain element format of an accumulator. -/
def AccFmt.el : AccFmt → Elem
  | .fp32 => .fp32 | .fp64 => .fp64 | .int32 => .int32

/-- R98: what a matrix operation's ranges and fields must satisfy: PG_ERR bit and DETAIL[7:0] of the first failure. `j` is the
member; `A`, `B`, `C` are its starts. -/
def mmaCheckMember (op : MtxOp) (d : Mfd) (j : Nat) : Option (Nat × Nat) :=
  let k := 32 * op.kb.toNat
  let aS : Int := op.aAddr.toNat * 64
  let bS : Int := op.bAddr.toNat * 64 + j * (if op.gang = 0 then 0 else d.gangB)
  let cS : Int := op.cAddr.toNat * 64 + j * (if op.gang = 0 then 0 else d.gangC)
  let armed := d.fbA != 0 || d.fbB != 0
  let inR := fun (start : Int) (len : Nat) => decide (0 ≤ start) && inStore start.toNat len && !inColl start.toNat len
  let area := fun (start : Int) (code stride n : Nat) => match fmtOf code with
    | none => true
    | some f => n == 0 || inR start (63 * stride + runBytes f n)
  let line := fun (code n : Nat) => match fmtOf code with | none => 0 | some f => runBytes f n
  let strideOk := fun (code stride n : Nat) =>
    stride % (if code = 1 then 8 else 4) == 0 && decide (line code n ≤ stride)
  let first : List (Bool × Nat) := [
    (op.wb && bits d.flags 3 2 != 0 && !((fmtOf d.fmtC).any (fun f => f.form != .plain && f.el.side)), 6),
    (op.wb && bitOf d.flags 1 && d.eGiven == -128, 7),
    (!strideOk d.fmtA d.strideA k, 8),
    (!strideOk d.fmtB d.strideB k, 12),
    ((op.wb && !strideOk d.fmtC d.strideC 64) || (op.start == 1 && !strideOk d.fmtLoad d.strideC 64), 16),
    (d.fbA != 0 && !area (aS + d.fbDeltaA) d.fbA d.fbStrideA k, 20),
    (d.fbB != 0 && !area (bS + d.fbDeltaB) d.fbB d.fbStrideB k, 24),
    (d.fbA != 0 && !strideOk d.fbA d.fbStrideA k, 28),
    (d.fbB != 0 && !strideOk d.fbB d.fbStrideB k, 32),
    (armed && d.sentNA != 0 && ((aS + d.sentDeltaA) % 4 != 0 || !inR (aS + d.sentDeltaA) (4 * d.sentNA)), 36),
    (armed && d.sentNB != 0 && ((bS + d.sentDeltaB) % 4 != 0 || !inR (bS + d.sentDeltaB) (4 * d.sentNB)), 40),
    (armed && decide (4096 < d.sentNA), 44),
    (armed && decide (4096 < d.sentNB), 46),
    (op.wb && bitOf d.flags 5 && ((cS + d.tsrDelta) % 8 != 0 || !inR (cS + d.tsrDelta) 8), 52),
    (op.gang != 0 && d.gangB % 64 != 0, 56),
    (op.gang != 0 && d.gangC % 64 != 0, 60),
    (!area aS d.fmtA d.strideA k, 0x47),
    (!area bS d.fmtB d.strideB k, 0x48),
    ((op.wb && !area cS d.fmtC d.strideC 64) || (op.start == 1 && !area cS d.fmtLoad d.strideC 64), 0x49)]
  (first.find? (·.1)).map (fun x => (17, x.2))

/-- R98, R101, R104, R112, R81: the checks of formats, and of the starts of fallback blocks. -/
def mmaCheckFmt (op : MtxOp) (d : Mfd) : Option (Nat × Nat) :=
  let k := 32 * op.kb.toNat
  let bS := op.bAddr.toNat * 64
  let blk := fun (code : Nat) => (fmtOf code).any (fun f => f.form != .plain)
  let fbA := if d.fbA = 0 then d.fmtA else d.fbA
  let fbB := if d.fbB = 0 then d.fmtB else d.fbB
  if (fmtOf d.fmtA).isNone then some (16, 0)
  else if (fmtOf d.fmtB).isNone || (accOfCodes d.fmtA d.fmtB).isNone then some (16, 1)
  else if op.wb && !((fmtOf d.fmtC).any (fun f => f.el != .e8m0)) then some (16, 2)
  else if op.start == 1 && (fmtOf d.fmtLoad).isNone then some (16, 3)
  else if !fallbackOk d.fmtA d.fbA then some (16, 4)
  else if !fallbackOk d.fmtB d.fbB then some (16, 5)
  else if (d.fbA != 0 || d.fbB != 0) && (accOfCodes fbA fbB).isNone then some (16, 4)
  else if blk d.fbA && k != 0 && (op.aAddr.toNat * 64 + d.fbDeltaA) % 4 != 0 then some (16, 20)
  else if blk d.fbB && k != 0 && (bS + d.fbDeltaB) % 4 != 0 then some (16, 24)
  else none

/-- R98, R99: the accumulator that the operations an array has accepted will leave: its format, if valid. It is that of the operation
accepted last, or the one held, if a later operation has left it already. -/
def accLeft (s : State) (b : BayId) (a : Nat) : Option AccFmt :=
  let u := arrOf s b a
  match (u.ops.filter (fun o => !o.late && u.accId.all (fun n => decide (n < o.id)))).getLast? with
  | some o => accOfCodes (mfdOf o.mfd).fmtA (mfdOf o.mfd).fmtB
  | none => if u.acc = [] then none else some u.accFmt

/-- R98: the whole decode check. -/
def mmaCheck (s : State) (b : BayId) (op : MtxOp) (d : Mfd) : Option (Nat × Nat) :=
  match mmaCheckFmt op d with
  | some e => some e
  | none => match (List.range (2 ^ op.gang.toNat)).findSome? (mmaCheckMember op d) with
    | some e => some e
    | none =>
      if op.start == 2 && (gangOf op).any (fun a => accLeft s b a != accOfCodes d.fmtA d.fmtB) then some (18, 0x43) else none

/-- R106: operations an array holds that have not finished their arithmetic. -/
def arrHeld (s : State) (b : BayId) (a : Nat) : Nat :=
  ((arrOf s b a).ops.filter (fun o => o.phase == .issued || o.phase == .arith || o.phase == .recompute)).length

/-- R106, R121: whether every member is RUNNING and has room, so that the issue handshake completes. -/
def mmaAccepts (s : State) (b : BayId) (op : MtxOp) : Bool :=
  (gangOf op).all (fun a => decide (a < 8) && pgState s (arrPage b a) == 4 && decide (arrHeld s b a < 4))

/-- R98: PG_ERRINFO.UNIT of a source. -/
def srcUnit : OpSrc → Nat
  | .queue q => q.val
  | .group g => 128 + g.val

/-- R98: a refusal stops the array of LA, whichever member of a gang it was found at (DEDUCED, log 117). -/
def mmaRefuse (s : State) (b : BayId) (op : MtxOp) (src : OpSrc) (bit off : Nat) : State :=
  raise s (arrPage b op.la.toNat) { bit := bit, unit := srcUnit src, detail := op.mfd.toNat * 256 + off, stop := true }

/-- R111: SAT + FLUSH of `n` sentinel records. -/
def sentSum (l : List Byte) (n : Nat) : Nat :=
  ((List.range n).map (fun t => fieldAt l (4 * t) 2 + fieldAt l (4 * t + 2) 2)).foldl (· + ·) 0

/-- R97, R111, R115: one member of an accepted operation enters its array: sentinel records are read, the check column taken. A
poisoned descriptor or sentinel record poisons the result (DESIGN CHOICE, log 119). -/
def mmaEnter (s : State) (b : BayId) (op : MtxOp) (src : OpSrc) (id : Nat) (mfd : List Byte) (mfdPoison : Bool) (j : Nat) : State :=
  let a := op.la.toNat + j
  let p := arrPage b a
  let d := mfdOf mfd
  let armed := d.fbA != 0 || d.fbB != 0
  let aS : Int := op.aAddr.toNat * 64
  let bS : Int := op.bAddr.toNat * 64 + j * (if op.gang = 0 then 0 else d.gangB)
  let ra := if armed then storeRead s b p (srcUnit src) (aS + d.sentDeltaA).toNat (4 * d.sentNA) .ok .none else ([], false, s)
  let rb := if armed then storeRead ra.2.2 b p (srcUnit src) (bS + d.sentDeltaB).toNat (4 * d.sentNB) .ok .none
    else ([], false, ra.2.2)
  let s := rb.2.2
  let mode := rd s p arrCheckMode
  let col := rd s p arrCheckCol
  let chk := decide (mode < 3)
  let s := if mode = 0 then wr s p arrCheckCol ((col + 1) % 64) else s
  let u := arrOf s b a
  setArr s b a { u with ops := u.ops ++ [{
    id := id, op := op, member := j, src := src, mfd := mfd, sent := sentSum ra.1 d.sentNA + sentSum rb.1 d.sentNB,
    seed := BitVec.ofNat 32 (rd s (.bayCtl b) baySrSeed), chkCol := BitVec.ofNat 6 col, phase := .issued, start := [],
    startPoison := mfdPoison || ra.2.1 || rb.2.1, result := [], poison := false, checked := chk, mismatch := false, satMarks := [], startMarks := [],
    trigger := 0 }] }

/-- R98, R100, R105: a matrix operation completes its issue handshake, is decoded and checked, and enters its arrays. -/
def mmaIssue (s : State) (b : BayId) (op : MtxOp) (src : OpSrc) (sig : BitVec 8) : State :=
  let p := arrPage b op.la.toNat
  if op.op != 1 then mmaRefuse s b op src 17 0x40
  else if op.la.toNat % 2 ^ op.gang.toNat ≠ 0 then mmaRefuse s b op src 17 0x41
  else if op.start == 3 then mmaRefuse s b op src 17 0x43
  else if rd s p arrMfdCount ≤ op.mfd.toNat then mmaRefuse s b op src 17 0x46
  else
    let r := storeRead s b p (srcUnit src) (64 * (rd s p arrMfdBase + op.mfd.toNat)) 64 .ok .none
    let s := r.2.2
    match mmaCheck s b op (mfdOf r.1) with
    | some e => mmaRefuse s b op src e.1 e.2
    | none =>
      let n := newOp s b src sig (if op.kb = 0 then 1 else 2 ^ op.gang.toNat)
      if op.kb = 0 then opDone n.2 b n.1
      else (List.range (2 ^ op.gang.toNat)).foldl (fun s j => mmaEnter s b op src n.1 r.1 r.2.1 j) n.2

/-- MMA: the issue handshake completes when every member can take the operation; until then it waits at issue. `u`: what SECDED finds in the
descriptor and the sentinel records. -/
def execMma (b : BayId) (op : MtxOp) (src : OpSrc) (sig : BitVec 8) (u : Upset) (s : State) : Out :=
  .next (if mmaAccepts s b op then mmaIssue (storeUpset s b u) b op src sig else s)

/-- Whether the array's page lets accepted operations begin (R98: nothing begins in FAULT). -/
def arrGoes (s : State) (b : BayId) (a : Nat) : Bool := pgWorks s (arrPage b a)

/-- R106: operation `id` may begin its arithmetic on array `a`: it is the first not begun, and the ones before it have been
released. -/
def releasable (s : State) (b : BayId) (a id : Nat) : Bool :=
  let before := (arrOf s b a).ops.takeWhile (fun o => o.id != id)
  arrGoes s b a && (arrOf s b a).ops.any (fun o => o.id == id && o.phase == .issued && !o.late) &&
    before.all (fun o => o.phase == .drain && (mfdOf o.mfd).fbA == 0 && (mfdOf o.mfd).fbB == 0)

/-- R94: a start tile: its elements, the saturated and flushed ones of a LOAD conversion, the ones that had saturated in the INT32
accumulation it continues, and whether it is poisoned. -/
structure StartTile where
  vals : List (BitVec 64) := []
  marks : List (Bool × Bool) := []
  sats : List Bool := []
  poison : Bool := false
deriving DecidableEq, Repr

/-- R94: an accumulator's elements in another accumulator format. -/
def accConv (x y : AccFmt) (l : List (BitVec 64)) : List (BitVec 64) :=
  if x = y then l else l.map (fun c => BitVec.ofNat 64 (cvtPlain y.el .rne (decElem x.el c.toNat)).code)

/-- R94: the start tile of a member. ACC continues from what the operation before it has left: the result of the one still draining, or
the accumulator where a later operation has left it. -/
def startValue (s : State) (b : BayId) (a : Nat) (o : ArrOp) (acc : AccFmt) : StartTile × State :=
  let d := mfdOf o.mfd
  if o.op.start == 1 then
    match fmtOf d.fmtLoad with
    | none => ({}, s)
    | some f =>
      let cS := o.op.cAddr.toNat * 64 + o.member * (if o.op.gang = 0 then 0 else d.gangC)
      (List.range 64).foldl (fun (x : StartTile × State) r =>
        let rdd := storeRead x.2 b (arrPage b a) (srcUnit o.src) (cS + r * d.strideC) (runBytes f 64) .ok .none
        let cs := (decRun f 64 rdd.1).map (cvtPlain acc.el .rne)
        ({ vals := x.1.vals ++ cs.map (fun c => BitVec.ofNat 64 c.code), marks := x.1.marks ++ cs.map (fun c => (c.sat, c.flush)),
           poison := x.1.poison || rdd.2.1 }, rdd.2.2)) ({}, s)
  else if o.op.start == 2 then
    let u := arrOf s b a
    match ((u.ops.takeWhile (fun x => x.id != o.id)).filter (fun x => !x.late && u.accId.all (fun n => decide (n < x.id)))).getLast? with
    | some x => ({ vals := x.result, sats := x.satMarks, poison := x.poison }, s)
    | none => ({ vals := accConv u.accFmt acc u.acc, sats := u.accSat, poison := u.accPoison }, s)
  else ({ vals := List.replicate 4096 0 }, s)

/-- A change to one operation of an array. -/
def modArrOp (s : State) (b : BayId) (a id : Nat) (f : ArrOp → ArrOp) : State :=
  let u := arrOf s b a
  setArr s b a { u with ops := u.ops.map (fun o => if o.id == id then f o else o) }

/-- One member begins its arithmetic. -/
def arithBegin (s : State) (b : BayId) (a : Nat) (o : ArrOp) : State :=
  let acc := (accOfCodes (mfdOf o.mfd).fmtA (mfdOf o.mfd).fmtB).getD .fp32
  let v := startValue s b a o acc
  modArrOp v.2 b a o.id (fun o => { o with
    phase := .arith, start := v.1.vals, startMarks := v.1.marks, satMarks := v.1.sats, startPoison := o.startPoison || v.1.poison })

/-- R106: ARITH_START: the first operation of the array not begun starts its arithmetic, all members of a gang on the same step. -/
def execArithStart (b : BayId) (a : ArrId) (s : State) : Out :=
  match (arrOf s b a.val).ops.find? (fun o => o.phase == .issued) with
  | none => .next s
  | some o =>
    if (gangOf o.op).all (fun m => releasable s b m o.id) then
      .next ((gangOf o.op).foldl (fun s m => match (arrOf s b m).ops.find? (fun x => x.id == o.id) with
        | some x => arithBegin s b m x
        | none => s) s)
    else .next s

/-- R91: consecutive runs of 32. -/
def chunks32 {α : Type} : Nat → List α → List (List α)
  | 0, _ => []
  | n + 1, l => l.take 32 :: chunks32 n (l.drop 32)

/-- The integer of an exact value. -/
def valInt : Val → Int
  | .fin s m e => (if s then -1 else 1) * (m * 2 ^ e.toNat : Nat)
  | _ => 0

/-- R91, R92: one cell: the start value and rows of A and columns of B, in increasing K; whether an INT32 sum saturated. -/
def accCell (acc : AccFmt) (perProduct : Bool) (s : Nat) (x y : List Val) : Nat × Bool :=
  match acc with
  | .int32 => (List.zip x y).foldl (fun (v : Nat × Bool) p =>
      let t := toInt 32 v.1 + valInt p.1 * valInt p.2
      if t < -(2 ^ 31 : Nat) then (2 ^ 31, true) else if (2 ^ 31 : Nat) ≤ t then (2 ^ 31 - 1, true) else (ofInt 32 t, v.2)) (s, false)
  | _ =>
    let f := if acc = .fp64 then f64 else f32
    let ps := List.zipWith Val.mul x y
    let terms := if perProduct then ps else (chunks32 (ps.length / 32) ps).map vsum
    (terms.foldl (fun v t => (roundV f .rne (Val.add false (decF f v) t)).1) s, false)

/-- The 64 lines of an operand: their values, and whether any was poisoned. -/
def operandLines (s : State) (b : BayId) (p : Page) (unit : Nat) (code start stride k : Nat) : List (List Val) × Bool × State :=
  match fmtOf code with
  | none => ([], false, s)
  | some f => (List.range 64).foldl (fun (x : List (List Val) × Bool × State) r =>
      let rdd := storeRead x.2.2 b p unit (start + r * stride) (runBytes f k) .ok .none
      (x.1 ++ [decRun f k rdd.1], x.2.1 || rdd.2.1, rdd.2.2)) ([], false, s)

/-- The accumulator format of an operation, of its recomputation if `fb`. -/
def accOfOp (o : ArrOp) (fb : Bool) : AccFmt :=
  let d := mfdOf o.mfd
  (accOfCodes (if fb && d.fbA != 0 then d.fbA else d.fmtA) (if fb && d.fbB != 0 then d.fbB else d.fmtB)).getD .fp32

/-- R113: the start value of an accumulation: that of the operation, converted by R94 where the recomputation accumulates in another
format (DEDUCED, log 14). -/
def startCode (o : ArrOp) (fb : Bool) (i : Nat) : Nat :=
  let c := (o.start.getD i 0).toNat
  let x := accOfOp o false
  let y := accOfOp o fb
  if x = y then c else (cvtPlain y.el .rne (decElem x.el c)).code

/-- The tile C = S + A × B for operand codes and places (R94, R113): values, INT32 saturation marks, poison. -/
def tile (s : State) (b : BayId) (a : Nat) (o : ArrOp) (useFb : Bool) : List (BitVec 64) × List Bool × Bool × State :=
  let d := mfdOf o.mfd
  let k := 32 * o.op.kb.toNat
  let aS : Int := o.op.aAddr.toNat * 64
  let bS : Int := o.op.bAddr.toNat * 64 + o.member * (if o.op.gang = 0 then 0 else d.gangB)
  let fa := useFb && d.fbA != 0
  let fb := useFb && d.fbB != 0
  let cA := if fa then d.fbA else d.fmtA
  let cB := if fb then d.fbB else d.fmtB
  let p := arrPage b a
  let la := operandLines s b p (srcUnit o.src) cA (if fa then (aS + d.fbDeltaA).toNat else aS.toNat) (if fa then d.fbStrideA else d.strideA) k
  let lb := operandLines la.2.2 b p (srcUnit o.src) cB (if fb then (bS + d.fbDeltaB).toNat else bS.toNat)
    (if fb then d.fbStrideB else d.strideB) k
  let acc := (accOfCodes cA cB).getD .fp32
  let per := cA == 1 || cA == 2
  let cells := (List.range 4096).map (fun i =>
    accCell acc per (startCode o useFb i) (la.1.getD (i / 64) []) (lb.1.getD (i % 64) []))
  (cells.map (fun c => BitVec.ofNat 64 c.1), cells.map (·.2), la.2.1 || lb.2.1, lb.2.2)

/-- R115, R116: the comparison of the check column. -/
def checkCompare (s : State) (b : BayId) (a : Nat) (o : ArrOp) (mismatch : Bool) : State :=
  let p := arrPage b a
  if !o.checked then s
  else
    let c := o.chkCol.toNat
    let mode := rd s p arrCheckMode
    let u := arrOf s b a
    if mismatch then
      let again := rd s p arrChkLogLastValid = 1 ∧ rd s p arrChkLogLastCol = c
      let s1 := if mode = 2 ∨ 2 < mode then s
        else if again then wr (wr s p arrCheckMode 2) p arrCheckCol c
        else setArr (wr (wr s p arrCheckMode 1) p arrCheckCol c) b a { u with matches_ := 0 }
      let s2 := satAdd (wr (wr s1 p arrChkLogLastCol c) p arrChkLogLastValid 1) p arrChkLogCount 1
      raise (setEvt s2 p 16) p { bit := 19, unit := c, detail := o.op.mfd.toNat }
    else if mode = 1 ∧ rd s p arrCheckCol = c then
      if u.matches_ + 1 = 2 then
        setArr (wr (wr s p arrCheckMode 0) p arrCheckCol ((c + 1) % 64)) b a { u with matches_ := 0 }
      else setArr s b a { u with matches_ := u.matches_ + 1 }
    else s

/-- R109: a tile status record. -/
def tsrOf (o : ArrOp) (sat flush : Nat) (escalated : Bool) : Nat :=
  let armed := (mfdOf o.mfd).fbA != 0 || (mfdOf o.mfd).fbB != 0
  sentinel sat flush + (if armed then min o.trigger 65535 else 0) * 2 ^ 32 + (if o.checked then o.chkCol.toNat else 0) * 2 ^ 48 +
    b2n armed * 2 ^ 56 + b2n escalated * 2 ^ 57 + b2n o.checked * 2 ^ 58 + b2n o.mismatch * 2 ^ 59 + b2n o.poison * 2 ^ 60

/-- R99, R110: an operation completes: it leaves the array and LAST_TSR is its record. The accumulator is its final C, in the format of
the accumulation that formed it (R113: DESIGN CHOICE, log 116), unless a later operation has left it already, or the page has entered
FAULT since it was accepted. -/
def mmaComplete (s : State) (b : BayId) (a : Nat) (o : ArrOp) (tsr : Nat) (acc : AccFmt) : State :=
  let p := arrPage b a
  let u := arrOf s b a
  let rest := u.ops.filter (fun x => x.id != o.id)
  let s := if o.late ∨ u.accId.any (fun n => decide (o.id < n)) then setArr s b a { u with ops := rest }
    else
      let s := setArr s b a { u with
        acc := o.result, accFmt := acc, accPoison := o.poison, accSat := o.satMarks, accId := some o.id, ops := rest }
      wr (wr s p arrAccValid 1) p arrAccFmt acc.code
  opDone (wr s p arrLastTsr tsr) b o.id

/-- An arithmetic phase ends: the tile is formed and the check column compares. -/
def arithFinish (s : State) (b : BayId) (a : Nat) (o : ArrOp) (u : Upset) (mismatch fb : Bool) : ArrOp × State :=
  let s := logicCheck (storeUpset s b u) (arrPage b a) (srcUnit o.src) u
  let t := tile s b a o fb
  let mm := o.checked && mismatch
  let o' := { o with
    result := t.1
    satMarks := (List.range 4096).map (fun i => t.2.1.getD i false || (!fb && o.satMarks.getD i false))
    poison := o.startPoison || t.2.2.1 || mm || o.mismatch || u == .logic
    mismatch := o.mismatch || mm }
  (o', checkCompare t.2.2.2 b a o mismatch)

/-- R111: the escalation decision. -/
def escalates (o : ArrOp) (trigger : Nat) : Bool :=
  ((mfdOf o.mfd).fbA != 0 || (mfdOf o.mfd).fbB != 0) && decide ((mfdOf o.mfd).thresh < trigger)

/-- R106, R113: ARITH_END: a WRITE operation goes on to its drain; a KEEP operation decides its escalation and completes. -/
def execArithEnd (b : BayId) (a : ArrId) (u : Upset) (mismatch : Bool) (s : State) : Out :=
  match (arrOf s b a.val).ops.find? (fun o => o.phase == .arith) with
  | none => .next s
  | some o =>
    let r := arithFinish s b a.val o u mismatch false
    let o := r.1
    if o.op.wb then .next (modArrOp r.2 b a.val o.id (fun _ => { o with phase := .drain }))
    else if escalates o o.sent then
      .next (setEvt (modArrOp r.2 b a.val o.id (fun _ => { o with phase := .recompute, trigger := o.sent })) (arrPage b a.val) 18)
    else
      let o := { o with trigger := o.sent }
      .next (mmaComplete r.2 b a.val o (tsrOf o 0 0 false) (accOfOp o false))

/-- R108, R109: the write-back of a tile: rows written to C, and the SAT and FLUSH counts of its record, in which an element that
saturated or flushed in the LOAD conversion, or saturated in INT32 accumulation, counts once (R92, R94). A NESC of 3 counts as 2
(DESIGN CHOICE, log 112). -/
def writeBack (s : State) (b : BayId) (o : ArrOp) (acc : AccFmt) : State × Nat × Nat :=
  let d := mfdOf o.mfd
  match fmtOf d.fmtC with
  | none => (s, 0, 0)
  | some f =>
    let cS := o.op.cAddr.toNat * 64 + o.member * (if o.op.gang = 0 then 0 else d.gangC)
    let q : QCfg := {
      fmt := f, nesc := min 2 (bits d.flags 3 2), given := if bitOf d.flags 1 then some d.eGiven else none, sr := bitOf d.flags 0,
      s0 := lfsrStart o.seed.toNat ((o.op.salt.toNat + o.member) % 65536) }
    (List.range 64).foldl (fun (x : State × Nat × Nat) r =>
      let vals := (List.range 64).map (fun c => decElem acc.el ((o.result.getD (64 * r + c) 0).toNat))
      let e := encRun q vals (64 * r)
      let marks := (List.range 64).map (fun c =>
        let half := (vals.drop (c / 32 * 32)).take 32
        let esc := f.form != .plain && f.el.side && (largest half q.nesc []).contains (c % 32)
        let w := e.2.getD c (false, false)
        let l := o.startMarks.getD (64 * r + c) (false, false)
        (w.1 || (!esc && (l.1 || o.satMarks.getD (64 * r + c) false)), w.2 || (!esc && l.2)))
      (storeWrite x.1 b (cS + r * d.strideC) e.1 o.poison, x.2.1 + marks.countP (·.1), x.2.2 + marks.countP (·.2))) (s, 0, 0)

/-- R109: the tile status record written after the result. -/
def writeTsr (s : State) (b : BayId) (o : ArrOp) (tsr : Nat) : State :=
  let d := mfdOf o.mfd
  let cS : Int := o.op.cAddr.toNat * 64 + o.member * (if o.op.gang = 0 then 0 else d.gangC)
  if bitOf d.flags 5 then storeWrite s b (cS + d.tsrDelta).toNat (toLE 8 tsr) false else s

/-- R108, R113: DRAIN_END: the result is in C; the escalation decision is taken, and without escalation the operation completes.
R484: a failed check of the write-back port poisons the result. -/
def execDrainEnd (b : BayId) (a : ArrId) (u : Upset) (s : State) : Out :=
  match (arrOf s b a.val).ops.find? (fun o => o.phase == .drain) with
  | none => .next s
  | some o =>
    let acc := accOfOp o false
    let s := logicCheck s (arrPage b a.val) (srcUnit o.src) u
    let o := { o with poison := o.poison || u == .logic }
    let w := writeBack s b o acc
    let t := o.sent + (if bitOf (mfdOf o.mfd).flags 4 then min w.2.1 65535 + min w.2.2 65535 else 0)
    let o := { o with trigger := t }
    if escalates o t then .next (setEvt (modArrOp w.1 b a.val o.id (fun _ => { o with phase := .recompute })) (arrPage b a.val) 18)
    else
      let tsr := tsrOf o w.2.1 w.2.2 false
      .next (mmaComplete (writeTsr w.1 b o tsr) b a.val o tsr acc)

/-- R113: RECOMPUTE_END: the tile is formed again from the fallbacks and the same start value, replaces the primary in C, and the
operation completes. -/
def execRecomputeEnd (b : BayId) (a : ArrId) (u : Upset) (mismatch : Bool) (s : State) : Out :=
  match (arrOf s b a.val).ops.find? (fun o => o.phase == .recompute) with
  | none => .next s
  | some o =>
    let r := arithFinish s b a.val o u mismatch true
    let o := r.1
    let acc := accOfOp o true
    if o.op.wb then
      let w := writeBack r.2 b o acc
      let tsr := tsrOf o w.2.1 w.2.2 true
      .next (mmaComplete (writeTsr w.1 b o tsr) b a.val o tsr acc)
    else .next (mmaComplete r.2 b a.val o (tsrOf o 0 0 true) acc)

/-- R98: what RESET, and STOP from FAULT, discard: the operations whose arithmetic has not begun, without their SIG actions; from every
member of a gang (DEDUCED, log 118). -/
def arrDiscard (s : State) (b : BayId) (a : Nat) : State :=
  ((arrOf s b a).ops.filter (fun o => o.phase == .issued)).foldl (fun s o =>
    opDrop ((gangOf o.op).foldl (fun s m => modArr s b m (fun u => { u with ops := u.ops.filter (fun x => x.id != o.id) })) s) b o.id) s

/-- R471: an array that loses its power holds no operation, and those it held never complete. -/
def arrLose (s : State) (b : BayId) (a : Nat) : State :=
  let u := arrOf s b a
  u.ops.foldl (fun s o => opDrop s b o.id) (setArr (wr s (arrPage b a) arrAccValid 0) b a { heldMode := u.heldMode })

/-- R99, R118, R123: RESET of an array: registers, accumulator and operations, but for those whose arithmetic has begun (R98); EN returns
to 1, and the mode held while it was 0 with it. -/
def arrReset (s : State) (b : BayId) (a : Nat) : State :=
  let p := arrPage b a
  let held := (arrOf s b a).heldMode.toNat
  let s := if rd s p arrCheckEn = 0 then wr s p arrCheckMode held else s
  let s := resetRegs (arrDiscard s b a) p
  modArr s b a (fun u => { ops := u.invalid.ops })

/-- R117, R118: the mode after a self-test, its PG_ERR and PG_EVT bits, and the start-ledger entry that firmware records. -/
def execSelfTestDone (b : BayId) (a : ArrId) (colFails spareFails : Bool) (s : State) : Out :=
  let p := Page.arr b a
  let u := arrOf s b a.val
  if !u.selfTest ∨ pgState s p ≠ 5 then .next s
  else
    let s := setArr s b a.val { u with selfTest := false, matches_ := 0 }
    let c := rd s p arrCheckCol
    let s :=
      if spareFails then ledgerNote (raise (wr s p arrCheckMode 4) p { bit := 20 }) 7 (arrUnit s b a.val) 0
      else if colFails then ledgerNote (setEvt (wr (wr s p arrCheckMode 3) p arrCheckSpareCol c) p 17) 6 (arrUnit s b a.val) c
      else wr s p arrCheckMode 0
    let held := s.heldReset.contains p.slot
    let s := enter (dropHeld s p) p 2
    .next (if held then epochInc (arrReset s b a.val) p else s)

/-- R118: CHECK.EN: 0 puts the array in UNCHECKED and keeps the mode it held; 1 restores that mode. -/
def checkEnSet (s : State) (b : BayId) (a : Nat) (en : Bool) : State :=
  let p := arrPage b a
  let u := arrOf s b a
  let was := rd s p arrCheckEn
  if was = 1 ∧ en = false then
    let m := BitVec.ofNat 3 (rd s p arrCheckMode)
    setArr (wr (wr s p arrCheckEn 0) p arrCheckMode 4) b a { u with heldMode := m }
  else if was = 0 ∧ en = true then
    setArr (wr (wr s p arrCheckEn 1) p arrCheckMode u.heldMode.toNat) b a { u with heldMode := 0 }
  else s

/-- R10: an RW write while the page is not STOPPED is ignored and sets CFG_LOCKED with the offset written. -/
def cfgLocked (s : State) (p : Page) (off : Nat) : State := raise s p { bit := 0, detail := off }

/-- CHECK_EN_WRITE. -/
def execCheckEnWrite (b : BayId) (a : ArrId) (en : Bool) (s : State) : Out :=
  let p := Page.arr b a
  if pgState s p = 0 then .next s
  else if pgState s p = 2 then .next (checkEnSet s b a.val en)
  else .next (cfgLocked s p 0x108)

end Sys2Proof.Machine
end

