-- ==== Sys2Proof/Machine/CacheOps.lean ====
section
/-! DEFINITION. What the caches with a page share (R257, R258, R267): where a line lies, how a way is found, chosen and touched. -/

namespace Sys2Proof.Machine

/-- Lines present in a set: the way, if a powered way holds line `l` in set slot `k`. -/
def wayFind (s : State) (c : CacheId) (k l : Nat) : Option Nat :=
  (List.range c.page.ways).find? (fun w => bitOf (rd s c.page cacheWaystat) w &&
    (mget none (cacheOf s c).lines (32 * k + w)).any (fun e => e.line == l))

/-- The line a way of a set holds. -/
def wayLine (s : State) (c : CacheId) (k w : Nat) : Option CacheLine := mget none (cacheOf s c).lines (32 * k + w)

/-- The state with the line of a way replaced. -/
def waySet (s : State) (c : CacheId) (k w : Nat) (v : Option CacheLine) : State :=
  setCache s c { cacheOf s c with lines := mset none (cacheOf s c).lines (32 * k + w) v }

/-- R267, R269, R275: a fill of class `cls` may take way `w`: in its mask, requested on, powered, not disabled. -/
def wayAllowed (s : State) (c : CacheId) (cls w : Nat) : Bool :=
  bitOf (rd s c.page (cacheWaymask cls)) w && bitOf (rd s c.page cacheWaypwr) w && bitOf (rd s c.page cacheWaystat) w &&
    !bitOf (rd s c.page cacheWaydis) w && !(cacheOf s c).cleaning.contains w

/-- R267: the tree of pseudo-LRU bits over 32 leaves, of which a cache uses its ways: node n has children 2n and 2n + 1, and a set bit
points to the upper half. An access points every node on its way to the half not used. -/
def plruTouchFrom : Nat → Nat → Nat → Nat → Nat
  | 0, _, _, t => t
  | k + 1, w, node, t =>
    let d := w / 2 ^ k % 2
    plruTouchFrom k w (2 * node + d) (if d = 1 then clrBit t node else setBit t node)

/-- An access to way `w`. -/
def plruTouch (w t : Nat) : Nat := plruTouchFrom 5 w 1 t

/-- The way the tree chooses among the allowed ones, below a node whose lowest leaf is `lo`. -/
def plruPick (ok : Nat → Bool) (t : Nat) : Nat → Nat → Nat → Option Nat
  | 0, _, lo => if ok lo then some lo else none
  | k + 1, node, lo =>
    let a := plruPick ok t k (2 * node) lo
    let b := plruPick ok t k (2 * node + 1) (lo + 2 ^ k)
    if bitOf t node then b.orElse (fun _ => a) else a.orElse (fun _ => b)

/-- R267: the victim: the lowest-numbered invalid allowed way, else the tree's choice; none where no way is allowed. -/
def wayVictim (s : State) (c : CacheId) (cls k : Nat) : Option Nat :=
  let ok := fun w => decide (w < c.page.ways) && wayAllowed s c cls w
  match (List.range c.page.ways).find? (fun w => ok w && (wayLine s c k w).isNone) with
  | some w => some w
  | none => plruPick ok (mget 0 (cacheOf s c).plru k) 5 1 0

/-- An access touches a way of a set. -/
def wayTouch (s : State) (c : CacheId) (k w : Nat) : State :=
  setCache s c { cacheOf s c with plru := mset 0 (cacheOf s c).plru k (plruTouch w (mget 0 (cacheOf s c).plru k)) }

/-- R258: the set slot (slice · sets + set) of a physical line of an L3 or a bay cache. -/
def lineSlot (c : CacheId) (line : Nat) : Nat :=
  let pa := 64 * line
  match c with
  | .l3 _ => ((bits pa 9 6 ^^^ bits pa 26 23) ^^^ bits pa 30 27) * 8192 + bits pa 22 10
  | .bcache _ => (bits pa 7 6 ^^^ bits pa 19 18) * 2048 + bits pa 18 8
  | .sysc _ => 0

/-- R264: the miss register of a line is freed. -/
def missFree (s : State) (c : CacheId) (l : Nat) : State :=
  setCache s c { cacheOf s c with miss := (cacheOf s c).miss.filter (fun m => m.line != l) }

/-- R264: a register holds a line. -/
def missHas (s : State) (c : CacheId) (l : Nat) : Bool := (cacheOf s c).miss.any (fun m => m.line == l)

/-! ### The private caches of a core (R257 to R259, R262, R276). -/

/-- R257: the ways of a private cache. -/
def privWays : PrivLevel → Nat
  | .l2 => 16
  | .l1i | .l1d => 8
/-- R257, R258: the set of a line in a private cache. -/
def privSet (lv : PrivLevel) (line : Nat) : Nat :=
  match lv with
  | .l2 => line % 1024
  | .l1i | .l1d => line % 128
/-- A private cache of a core. -/
def privOf (h : Hart) : PrivLevel → PrivCache
  | .l1i => h.l1i
  | .l1d => h.l1d
  | .l2 => h.l2
/-- The core with a private cache replaced. -/
def setPriv (h : Hart) (lv : PrivLevel) (c : PrivCache) : Hart :=
  match lv with
  | .l1i => { h with l1i := c }
  | .l1d => { h with l1d := c }
  | .l2 => { h with l2 := c }
/-- The way of a private cache that holds a line, with what it holds. -/
def privFind (h : Hart) (lv : PrivLevel) (line : Nat) : Option (Nat × CacheLine) :=
  (List.range (privWays lv)).findSome? (fun w =>
    (mget none (privOf h lv).lines (32 * privSet lv line + w)).bind (fun e => if e.line = line then some (w, e) else none))
/-- A private cache holds a line. -/
def privHas (h : Hart) (lv : PrivLevel) (line : Nat) : Bool := (privFind h lv line).isSome
/-- A private cache holds a line dirty. -/
def privDirty (h : Hart) (lv : PrivLevel) (line : Nat) : Bool := (privFind h lv line).any (fun x => x.2.dirty)
/-- A way of a private cache takes a line, or none. -/
def privPut (h : Hart) (lv : PrivLevel) (set w : Nat) (v : Option CacheLine) : Hart :=
  let c := privOf h lv
  setPriv h lv { lines := mset none c.lines (32 * set + w) v, plru := if v.isSome then mset 0 c.plru set (plruTouch w (mget 0 c.plru set)) else c.plru }
/-- A line leaves one private cache. -/
def privDropAt (lv : PrivLevel) (line : Nat) (h : Hart) : Hart :=
  match privFind h lv line with
  | some x => privPut h lv (privSet lv line) x.1 none
  | none => h
/-- A line leaves a private cache; the L2 includes the L1s (R257). -/
def privDropFrom (lv : PrivLevel) (line : Nat) (h : Hart) : Hart :=
  match lv with
  | .l2 => privDropAt .l1i line (privDropAt .l1d line (privDropAt .l2 line h))
  | l => privDropAt l line h
/-- A line leaves every private cache of a core, and fills of it end. -/
def privLose (line : Nat) (h : Hart) : Hart :=
  let h := privDropFrom .l2 line h
  { h with fills := h.fills.filter (fun f => f.1.toNat != line), ifills := h.ifills.filter (fun f => f.1.toNat != line) }
/-- A private cache takes a line, or touches the one it holds: into an invalid way, or for the line that tree pseudo-LRU chooses. A line that the L2 gives up
leaves the L1s; one that the L1D gives up dirty stays dirty in the L2. -/
def privTake (lv : PrivLevel) (line : Nat) (dirty : Bool) (h : Hart) : Hart :=
  let set := privSet lv line
  let c := privOf h lv
  match privFind h lv line with
  | some x => privPut h lv set x.1 (some { x.2 with dirty := x.2.dirty || dirty })
  | none =>
    let empty := (List.range (privWays lv)).find? (fun w => (mget none c.lines (32 * set + w)).isNone)
    let w := (empty.orElse (fun _ => plruPick (fun w => decide (w < privWays lv)) (mget 0 c.plru set) 5 1 0)).getD 0
    let h := match mget none c.lines (32 * set + w) with
      | none => h
      | some old =>
        let h := privDropFrom lv old.line h
        if old.dirty then match lv, privFind h .l2 old.line with
          | .l1d, some x => privPut h .l2 (privSet .l2 old.line) x.1 (some { x.2 with dirty := true })
          | _, _ => h
        else h
    privPut h lv set w (some { line := line, dirty := dirty })
/-- A line of a core's caches is clean. -/
def privClean (line : Nat) (h : Hart) : Hart :=
  [PrivLevel.l1i, .l1d, .l2].foldl (fun h lv => match privFind h lv line with
    | some x => setPriv h lv { privOf h lv with lines := mset none (privOf h lv).lines (32 * privSet lv line + x.1) (some { x.2 with dirty := false }) }
    | none => h) h
/-- Every core of processor die d whose state is listed changes. -/
def dieHarts (s : State) (d : Nat) (f : Hart → Hart) : State :=
  (mkeys s.harts).foldl (fun s k => match finOf 192 k with
    | some n => if k / 48 = d then setHart s n (f (hartOf s n)) else s
    | none => s) s

/-- R265: the share of one class of a cache's miss registers. -/
def missShare : CacheId → Nat
  | .sysc _ => 256
  | _ => 128

end Sys2Proof.Machine
end

