-- ==== Sys2Proof/Machine/Pacers.lean ====
section
/-! DEFINITION. The pacers' levels and forced limits (R37, R457, R466, R476). -/

namespace Sys2Proof.Machine

/-- R457: the page of compute unit u: bays 0 to 47, then clusters in order. -/
def unitPage (u : Fin 72) : Page :=
  if h : u.val < 48 then .pace ⟨u.val, h⟩ else .clus ⟨(u.val - 48) / 6, by omega⟩ ⟨(u.val - 48) % 6, Nat.mod_lt _ (by decide)⟩

/-- R17, R18: the die code of a compute unit's die, which is also the number of the stack on it (R16). -/
def unitDie (u : Fin 72) : Nat := if u.val < 48 then u.val / 4 else 12 + (u.val - 48) / 6

/-- R459: a unit is awake while its page is not OFF. -/
def unitOn (s : State) (u : Fin 72) : Bool := rd s (unitPage u) hdrState != 1

/-- R466: HOT applies to a unit. -/
def unitHot (s : State) (u : Fin 72) : Bool := (mget ({} : StackState) s.stkTemp (unitDie u)).hot

/-- The junction limit of a unit. -/
def unitTj (s : State) (u : Fin 72) : Nat := (mget ({} : Unit72) s.power.units u.val).tj

/-- R466: the forced limit of a unit. -/
def forcedLimit (s : State) (u : Fin 72) : Nat := if s.power.braking ∨ unitHot s u then 4 else unitTj s u

/-- R457: the level of a unit. -/
def unitLevel (s : State) (u : Fin 72) : Nat :=
  max 4 (min (rd s (unitPage u) paceCeil) (min (rd s (unitPage u) paceLevelLoop) (forcedLimit s u)))

/-- R476: F_BRAKE, F_HOT and F_TJ of one unit, with FORCED where one of them changes; the flag tells that one did. -/
def forcedUnit (x : State × Bool) (u : Fin 72) : State × Bool :=
  let s := x.1
  let p := unitPage u
  let b := b2n s.power.braking
  let h := b2n (unitHot s u)
  let t := b2n (decide (unitTj s u < 32))
  if rd s p hdrState = 1 ∨ (rd s p paceLevelFBrake = b ∧ rd s p paceLevelFHot = h ∧ rd s p paceLevelFTj = t) then x
  else (setEvt (wr (wr (wr s p paceLevelFBrake b) p paceLevelFHot h) p paceLevelFTj t) p 16, true)

/-- R475, R476: the forced limits have changed; an OFF page is not affected (R473). -/
def forcedUpdate (s : State) : State :=
  let r := (List.finRange 72).foldl forcedUnit (s, false)
  if r.2 then setEvt r.1 .mgpwr 17 else r.1

/-- R323, R466, R475: stack `st` becomes HOT or ceases to be. -/
def stackHotSet (s : State) (st : Fin 16) (hot : Bool) : State :=
  let u := mget ({} : StackState) s.stkTemp st.val
  if u.hot = hot then s
  else
    let s := { s with stkTemp := mset {} s.stkTemp st.val { u with hot := hot } }
    let s := wr s .mgpwr pwrStatusHot (b2n (s.stkTemp.any (fun x => x.2.hot)))
    forcedUpdate (if hot then setEvt s .mgpwr 19 else s)

end Sys2Proof.Machine
end

