-- ==== Sys2Proof/Machine/Memory.lean ====
section
/-! DEFINITION. The DRAM space (R306 to R317, R324 to R328): its layout, blocks and side bits, the system caches before it, the channel
controllers' checks, the conservator, refresh and deaccession. -/

namespace Sys2Proof.Machine

/-! Layout. -/

/-- R306: the bytes of a channel. -/
def chanBytes : Nat := 0x60000000

/-- n_s of a stack (R307). -/
def nStack (s : State) (st : Fin 16) : Nat := rd s (.mchan st 0) mchMemmapNStack
/-- n_min (R310). -/
def nMin (s : State) : Nat := rd s (.mchan 0 0) mchMemmapNMin
/-- The size of the DRAM space; 0 before memory start. -/
def dramTop (s : State) : Nat := rd s (.mchan 0 0) mchSpaceSize
/-- R23: far mode. -/
def farMode (s : State) : Bool := rd s (.mchan 0 0) mchMemmapMode = 1
/-- DOM_BASE of a stack. -/
def domBase (s : State) (st : Fin 16) : Nat := rd s (.mchan st 0) mchDomBase

/-- R22: `len` bytes from `a` lie in the DRAM space. -/
def inDram (s : State) (a len : Nat) : Bool := decide (a + len ≤ dramTop s)

/-- R309, R310: the stack and stack-local offset of a physical address. -/
def stackOf (s : State) (a : Nat) : Option (Fin 16 × Nat) :=
  if farMode s then
    let l := nMin s * chanBytes
    if a < 16 * l then
      let g := a / 4096
      some (⟨g % 16, Nat.mod_lt _ (by decide)⟩, g / 16 * 4096 + a % 4096)
    else
      ((List.finRange 16).find? (fun st => decide (nMin s < nStack s st) && decide (domBase s st ≤ a) &&
        decide (a < domBase s st + (nStack s st - nMin s) * chanBytes))).map (fun st => (st, l + (a - domBase s st)))
  else
    ((List.finRange 16).find? (fun st => decide (domBase s st ≤ a) && decide (a < domBase s st + nStack s st * chanBytes))).map
      (fun st => (st, a - domBase s st))

/-- A channel in service has this service index. -/
def chanOfIndex (s : State) (st : Fin 16) (i : Nat) : Option (Fin 32) :=
  (List.finRange 32).find? (fun c => rd s (.mchan st c) mchLocInService == 1 && rd s (.mchan st c) mchLocSvcIndex == i)

/-- Where a block lies: stack, channel, channel-local block number (R308). -/
structure Place where
  st : Fin 16
  ch : Fin 32
  q : Nat
deriving DecidableEq, Repr

/-- R308: the place of block `k` of the DRAM space (physical addresses 256k to 256k + 255). -/
def placeOf (s : State) (k : Nat) : Option Place :=
  (stackOf s (256 * k)).bind (fun x =>
    let b := x.2 / 256
    (chanOfIndex s x.1 (b % nStack s x.1)).map (fun c => ⟨x.1, c, b / nStack s x.1⟩))

/-- R308 to R310 read backwards: the block of the DRAM space at a place. -/
def blockAt (s : State) (st : Fin 16) (ch : Fin 32) (q : Nat) : Nat :=
  let o := (q * nStack s st + rd s (.mchan st ch) mchLocSvcIndex) * 256
  if farMode s then
    let l := nMin s * chanBytes
    if o < l then ((o / 4096 * 16 + st.val) * 4096 + o % 4096) / 256 else (domBase s st + (o - l)) / 256
  else (domBase s st + o) / 256

/-- R308: the bank of a channel-local block number, and its row. -/
def bankOf (q : Nat) : Nat := q % 32
/-- The row. -/
def rowOf (q : Nat) : Nat := q / 256

/-! Blocks in DRAM. -/

/-- R312: the poison bit as the majority of P0, P1 and P2. -/
def majority (p : BitVec 3) : Bool :=
  decide (2 ≤ b2n (bitOf p.toNat 0) + b2n (bitOf p.toNat 1) + b2n (bitOf p.toNat 2))
/-- The three copies of a poison mark. -/
def triple (p : Bool) : BitVec 3 := if p then 7 else 0

/-- The 256 data bytes of a block in DRAM. -/
def dramData (s : State) (k : Nat) : List Byte := (List.range 256).map (fun i => mget 0 s.dram (256 * k + i))
/-- Its side bits. -/
def dramSide (s : State) (k : Nat) : Side := mget {} s.side k

/-- Bytes written into a map of bytes. -/
def putDram (m : SMap Byte) (a : Nat) : List Byte → SMap Byte
  | [] => m
  | b :: r => putDram (mset 0 m a b) (a + 1) r

/-- A block written to the DRAM array. -/
def dramPut (s : State) (k : Nat) (d : List Byte) (sd : Side) : State :=
  { s with dram := putDram s.dram (256 * k) (slice d 0 256), side := mset {} s.side k sd }

/-- R313: the stored CRC matches the data. -/
def crcGood (d : List Byte) (sd : Side) : Bool := match sd.crc with | none => true | some c => crc32c d == c
/-- R312: the tag as it reads. -/
def tagRead (sd : Side) : Byte := if sd.tagBad then 0 else sd.tag

/-! Channels. -/

/-- R327: the channel is deaccessioned. -/
def chanDead (s : State) (st : Fin 16) (ch : Fin 32) : Bool := rd s (.mchan st ch) mchStatusDeaccessioned = 1

/-- A channel controller. -/
def chanOf (s : State) (st : Fin 16) (ch : Fin 32) : Chan := mget {} s.chans (32 * st.val + ch.val)
/-- The state with a channel controller replaced. -/
def setChan (s : State) (st : Fin 16) (ch : Fin 32) (v : Chan) : State :=
  { s with chans := mset {} s.chans (32 * st.val + ch.val) v }

/-- One write or dirty line discarded (R327). -/
def discarded (s : State) (st : Fin 16) (ch : Fin 32) : State := satAdd s (.mchan st ch) mchDiscarded 1

/-- The set slot of a system-cache line (R258). -/
def syscSlot (p : Place) : Nat := p.ch.val * 512 + p.q % 512

/-- The system-cache block, if held. -/
def syscBlk (s : State) (k : Nat) : Option SyscBlock := mget none s.sysc k
/-- The state with a system-cache block replaced. -/
def setSysc (s : State) (k : Nat) (v : Option SyscBlock) : State := { s with sysc := mset none s.sysc k v }

/-- R319: a request that takes a miss register. -/
def needsReg (k : ChanKind) : Bool := match k with | .read | .rmw .. => true | .write _ | .reread _ => false
/-- A request that changes the block. -/
def changesBlock (k : ChanKind) : Bool := match k with | .write _ | .rmw .. => true | .read | .reread _ => false

/-- The row of a block is the open one of its bank. -/
def rowOpened (u : Chan) (q : Nat) : Chan := { u with openRow := mset none u.openRow (bankOf q) (some (rowOf q)) }

/-- R318: an access opens its row. -/
def openRow (s : State) (p : Place) : State := setChan s p.st p.ch (rowOpened (chanOf s p.st p.ch) p.q)

/-! ### What waits at a channel controller (R317, R319, R326). -/

/-- R319: a class has room for one more miss register of a bank, and the controller has one free. -/
def regFree (l : List ChanReq) (cls q : Nat) : Bool :=
  decide (l.countP (fun r => r.reg) < 128 ∧ l.countP (fun r => r.reg && r.cls == cls && bankOf r.q == bankOf q) < 32)

/-- R319: registers are given out in the order of arrival. -/
def admitFrom (done : List ChanReq) : List ChanReq → List ChanReq
  | [] => done
  | r :: l => admitFrom (done ++ [if needsReg r.kind && regFree (done ++ l) r.cls r.q then { r with reg := true } else r]) l

/-- A request arrives at a controller. -/
def chanPush (s : State) (p : Place) (k cls : Nat) (kind : ChanKind) : State :=
  let u := chanOf s p.st p.ch
  setChan s p.st p.ch { u with reqs := admitFrom [] (u.reqs ++ [{ blk := k, q := p.q, cls := cls, kind := kind, at_ := rd s .hub hubTimer }]) }

/-- R317: no older request for the block waits. -/
def chanFree (s : State) (p : Place) (k : Nat) : Bool := (chanOf s p.st p.ch).reqs.all (fun r => r.blk != k)

/-- R319, R326: the channel takes a write now: it does not retrain, and its write buffer has room. -/
def chanOpen (s : State) (p : Place) : Bool :=
  let u := chanOf s p.st p.ch
  !u.retraining && decide (u.wbuf.length < 64)

/-- R317, R326: an access to block k must wait: its channel retrains, or an older request for the block waits. -/
def memHeld (s : State) (k : Nat) : Bool :=
  match placeOf s k with
  | some p => (chanOf s p.st p.ch).retraining || !chanFree s p k
  | none => false

/-- R319: the write buffer is written to the banks. -/
def chanDrain (u : Chan) : Chan := { u.wbuf.foldl rowOpened u with wbuf := [] }

/-- R319: a controller drains its write buffer when it holds 48 blocks or when no read waits, unless it retrains. -/
def chanSettle (s : State) (st : Fin 16) (ch : Fin 32) : State :=
  let u := chanOf s st ch
  if !u.retraining && (decide (48 ≤ u.wbuf.length) || u.reqs.all (fun r => r.kind != .read)) then setChan s st ch (chanDrain u) else s

/-- R319: a block is written: it passes through the write buffer. A read of it takes the data from there, so that the block counts as written. -/
def chanWrite (s : State) (p : Place) (k : Nat) (d : List Byte) (sd : Side) : State :=
  let s := dramPut s k d sd
  let u := chanOf s p.st p.ch
  chanSettle (setChan s p.st p.ch { u with wbuf := u.wbuf ++ [p.q] }) p.st p.ch

/-! ### The system cache. -/

/-- A block leaves the system cache, its way invalid. -/
def syscDrop (s : State) (p : Place) (k : Nat) : State :=
  let c := CacheId.sysc p.st
  let s := match wayFind s c (syscSlot p) k with
    | some w => waySet s c (syscSlot p) w none
    | none => s
  setSysc s k none

/-- R260: the side bits a dirty block is supplied and written with: a carried CRC unchanged, else a CRC formed over its data. -/
def syscSide (b : SyscBlock) : Side := if b.dirty && !b.carried then { b.side with crc := none } else b.side

/-- A dirty block is written to its channel, or discarded where the channel is deaccessioned; the cache keeps it clean. -/
def syscClean (s : State) (p : Place) (k : Nat) : State :=
  match syscBlk s k with
  | none => s
  | some b =>
    if !b.dirty then s
    else
      let sd := syscSide b
      let s := if chanDead s p.st p.ch then discarded s p.st p.ch else chanWrite s p k b.data sd
      let s := match wayFind s (.sysc p.st) (syscSlot p) k with
        | some w => waySet s (.sysc p.st) (syscSlot p) w (some { line := k })
        | none => s
      setSysc s k (some { data := b.data, side := sd, dirty := false, carried := false })

/-- R327: the system cache drops every line of a channel: clean ones silently, dirty ones counted. -/
def syscDropChan (s : State) (st : Fin 16) (ch : Fin 32) : State :=
  (mkeys s.sysc).foldl (fun s k => match placeOf s k, syscBlk s k with
    | some p, some b => if p.st = st ∧ p.ch = ch then syscDrop (if b.dirty then discarded s st ch else s) p k else s
    | _, _ => s) s

/-- R326, R327: deaccession, with its cause. What waits to be written is discarded and counted with the writes that arrive later (DEDUCED, log 127). -/
def deaccess (s : State) (st : Fin 16) (ch : Fin 32) (cause : Nat) : State :=
  if chanDead s st ch then s
  else
    let p := Page.mchan st ch
    let u := chanOf s st ch
    let s := setChan s st ch { u with retraining := false, reqs := u.reqs.filter (fun r => r.kind == .read), wbuf := [] }
    let s := satAdd s p mchDiscarded (u.wbuf.length + u.reqs.countP (fun r => changesBlock r.kind))
    let s := wr (wr s p mchStatusDeaccessioned 1) p mchStatusCause cause
    let s := syscDropChan s st ch
    let s := setEvt (raise s p { bit := 16, stop := true }) p 19
    ledgerNote s 5 (32 * st.val + ch.val) cause

/-- R315, R325, R326: the controller poisons a block that failed twice; the hourly limit may deaccession the channel. -/
def permEvent (s : State) (p : Place) (k : Nat) : State :=
  let pg := Page.mchan p.st p.ch
  let s := { s with side := mset {} s.side k { dramSide s k with poison := 7 } }
  let s := wr (satAdd s pg mchPermCount 1) pg mchLastBad (256 * k)
  let s := raiseEach s pg { bit := 4, addr := some (256 * k) }
  let now := rd s .hub hubTimer
  let lim := rd s pg mchCfgPermLimit
  let u := chanOf s p.st p.ch
  let times := (u.permTimes ++ [now]).drop (u.permTimes.length + 1 - 255)
  let s := setChan s p.st p.ch { u with permTimes := times }
  let last := times.drop (times.length - lim)
  if lim ≠ 0 ∧ lim ≤ times.length ∧ now - last.headD now ≤ 360000000000 then deaccess s p.st p.ch 1 else s

/-- R260, R315: the controller's check of a block it reads from the array: one re-read masks a first mismatch, two failures poison the
block. A poisoned block is not checked (R316). -/
def ctrlVerify (s : State) (p : Place) (k : Nat) (chk : Check) : State :=
  if majority (dramSide s k).poison then s
  else if chk == .twice || !crcGood (dramData s k) (dramSide s k) then permEvent s p k
  else if chk == .once then satAdd s (.mchan p.st p.ch) mchTransCount 1
  else s

/-- R267: a block is allocated in the system cache for a class; the victim is written back. A class whose mask allows no way allocates
nothing, and `miss` is then what happens instead. -/
def syscAlloc (s : State) (p : Place) (k cls : Nat) (b : SyscBlock) (miss : State → State) : State :=
  let c := CacheId.sysc p.st
  let slot := syscSlot p
  match wayVictim s c cls slot with
  | none => miss s
  | some w =>
    let s := match wayLine s c slot w with
      | none => s
      | some e => match placeOf s e.line with
        | some pe => syscDrop (syscClean s pe e.line) pe e.line
        | none => s
    setSysc (wayTouch (waySet s c slot w (some { line := k, dirty := b.dirty, carried := b.carried })) c slot w) k (some b)

/-- A hit touches its way. -/
def syscTouch (s : State) (p : Place) (k : Nat) : State :=
  match wayFind s (.sysc p.st) (syscSlot p) k with
  | some w => wayTouch s (.sysc p.st) (syscSlot p) w
  | none => s

/-- A block as memory delivers it. -/
structure Blk where
  data : List Byte
  crc : BitVec 32
  tag : Byte
  poison : Bool
deriving DecidableEq, Repr

/-- A block with its side bits, as delivered. -/
def blkOf (d : List Byte) (sd : Side) : Blk :=
  { data := d, crc := sd.crc.getD (crc32c d), tag := tagRead sd, poison := majority sd.poison }

/-- R260, R315: a block of the system cache whose CRC does not match is read again: a dirty copy is supplied with a fresh CRC, a clean one is
replaced by what the controller reads and verifies. -/
def syscRefresh (s : State) (p : Place) (k : Nat) (b : SyscBlock) (chk : Check) : State :=
  if b.dirty then setSysc s k (some { b with side := { b.side with crc := none }, carried := false })
  else
    let s := ctrlVerify (openRow s p) p k chk
    if (syscBlk s k).isSome then setSysc s k (some { data := dramData s k, side := dramSide s k, dirty := false, carried := false }) else s

/-- R260, R314, R316, R327: the home reads block `k` for a requester of class `cls`: from the system cache, else from the array, which a
coherent fill and the like verify; the block is allocated clean. A verified read that the system cache serves is checked by the CRC it holds
(DEDUCED, log 124). -/
def memRead (s : State) (k cls : Nat) (verify : Bool) (chk : Check) : Blk × State :=
  match placeOf s k with
  | none => ({ data := List.replicate 256 0, crc := 0, tag := 0, poison := true }, s)
  | some p =>
    match syscBlk s k with
    | some b =>
      let s := syscTouch s p k
      let sd := syscSide b
      if !verify || majority sd.poison || crcGood b.data sd then (blkOf b.data sd, s)
      else
        let s := syscRefresh s p k b .ok
        (match syscBlk s k with
          | some b => blkOf b.data (syscSide b)
          | none => { blkOf (dramData s k) (dramSide s k) with poison := true }, s)
    | none =>
      if chanDead s p.st p.ch then ({ blkOf (dramData s k) (dramSide s k) with poison := true }, s)
      else
        let s := openRow s p
        let s := if verify then ctrlVerify s p k chk else s
        let d := dramData s k
        let sd := dramSide s k
        (blkOf d sd, if chanDead s p.st p.ch then s
          else syscAlloc s p k cls { data := d, side := sd, dirty := false, carried := false } id)

/-- R314, R260: a whole block written by class `cls` once nothing older holds it up. -/
def blockNow (s : State) (p : Place) (k cls : Nat) (w : BlockWr) : State :=
      let sd : Side := { crc := w.crc, tag := w.tag, poison := triple w.poison }
      let b : SyscBlock := { data := slice w.data 0 256, side := sd, dirty := true, carried := w.crc.isSome }
      match wayFind s (.sysc p.st) (syscSlot p) k with
      | some i => setSysc (wayTouch (waySet s (.sysc p.st) (syscSlot p) i (some { line := k, dirty := true, carried := b.carried }))
          (.sysc p.st) (syscSlot p) i) k (some b)
      | none => syscAlloc s p k cls b (fun s => if chanOpen s p then chanWrite s p k b.data sd else chanPush s p k cls (.write w))

/-- R314, R317, R327: a whole block written by class `cls`: after the older requests for the block; a deaccessioned channel discards it. -/
def memWriteBlock (s : State) (k cls : Nat) (w : BlockWr) : State :=
  match placeOf s k with
  | none => s
  | some p =>
    if chanDead s p.st p.ch then discarded s p.st p.ch
    else if chanFree s p k then blockNow s p k cls w
    else chanPush s p k cls (.write w)

/-- Bytes `d` merged at offset `off` under a mask. -/
def mergeBytes (old : List Byte) (off : Nat) (mask : Nat) (d : List Byte) : List Byte :=
  (List.range old.length).map (fun i =>
    if off ≤ i ∧ i < off + d.length ∧ bitOf mask (i - off) then d.getD (i - off) 0 else old.getD i 0)

/-- R260, R314: part of a block written: merged in the system cache where the block is present, else a read-modify-write by the
controller, which verifies the block it reads. -/
def partNow (s : State) (p : Place) (k off mask : Nat) (d : List Byte) (poison : Bool) (chk : Check) : State :=
    match syscBlk s k with
    | some b =>
      let sd : Side := { poison := triple (poison || majority b.side.poison) }
      let s := match wayFind s (.sysc p.st) (syscSlot p) k with
        | some i => wayTouch (waySet s (.sysc p.st) (syscSlot p) i (some { line := k, dirty := true })) (.sysc p.st) (syscSlot p) i
        | none => s
      setSysc s k (some { data := mergeBytes b.data off mask d, side := sd, dirty := true, carried := false })
    | none =>
      let s := ctrlVerify (openRow s p) p k chk
      let sd : Side := { poison := triple (poison || majority (dramSide s k).poison) }
      if chanDead s p.st p.ch then discarded s p.st p.ch
      else chanWrite s p k (mergeBytes (dramData s k) off mask d) sd

/-- R314, R317, R319, R327: part of a block written by class `cls`: the system cache takes it, or the controller once nothing older holds the block up and a
miss register is free. -/
def memWritePart (s : State) (k cls off mask : Nat) (d : List Byte) (poison : Bool) (chk : Check) : State :=
  match placeOf s k with
  | none => s
  | some p =>
    if chanDead s p.st p.ch then discarded s p.st p.ch
    else if (syscBlk s k).isSome || (chanFree s p k && chanOpen s p && regFree (chanOf s p.st p.ch).reqs cls p.q) then
      partNow s p k off mask d poison chk
    else chanPush s p k cls (.rmw off mask d poison chk)

/-! Lines, as the homes read and write them. -/

/-- The 64 bytes of a line in memory, and its poison; the block is read by the home (R291). -/
def lineRead (s : State) (line cls : Nat) (chk : Check) : List Byte × Bool × State :=
  let r := memRead s (line / 4) cls true chk
  (slice r.1.data (line % 4 * 64) 64, r.1.poison, r.2)

/-- A home writes masked bytes of a line to memory for a request of class `cls`. -/
def lineWrite (s : State) (line cls mask : Nat) (d : List Byte) (poison : Bool) : State :=
  memWritePart s (line / 4) cls (line % 4 * 64) mask d poison .ok

/-- A whole line. -/
def allMask : Nat := 2 ^ 64 - 1

/-! Commands of the memory. -/

/-- R315, R316: a consumer's repeated request: from the array past a clean copy, which is replaced; from a dirty copy with a fresh
CRC. -/
def homeReread (s : State) (k : Nat) (chk : Check) : State :=
  match placeOf s k with
  | none => s
  | some p =>
    if chanDead s p.st p.ch then s
    else
      let s := satAdd s (.mchan p.st p.ch) mchRrCount 1
      match syscBlk s k with
      | some b => syscRefresh s p k b chk
      | none => ctrlVerify (openRow s p) p k chk

/-- A waiting request other than a read is carried out. -/
def chanGo (s : State) (p : Place) (r : ChanReq) : State :=
  match r.kind with
  | .read => s
  | .write w => if chanDead s p.st p.ch then discarded s p.st p.ch else blockNow s p r.blk r.cls w
  | .rmw off mask d poison chk => if chanDead s p.st p.ch then discarded s p.st p.ch else partNow s p r.blk off mask d poison chk
  | .reread chk => homeReread s r.blk chk

/-- R317, R319: the first waiting request other than a read that can be carried out: it has a register if it needs one, and none for its block is older. -/
def chanNext (u : Chan) : Option (Nat × ChanReq) :=
  (List.range u.reqs.length).findSome? (fun i => (u.reqs[i]?).bind (fun r =>
    if r.kind != .read && (r.reg || !needsReg r.kind) && (u.reqs.take i).all (fun x => x.blk != r.blk) then some (i, r) else none))

/-- A request leaves its controller, and its register goes to the next. -/
def chanTake (s : State) (st : Fin 16) (ch : Fin 32) (i : Nat) : State :=
  let u := chanOf s st ch
  setChan s st ch { u with reqs := admitFrom [] (u.reqs.eraseIdx i) }

/-- The requests that nothing holds up any more are carried out, the oldest first. -/
def chanPump (st : Fin 16) (ch : Fin 32) : Nat → State → State
  | 0, s => s
  | n + 1, s =>
    let u := chanOf s st ch
    match (if u.retraining then none else chanNext u) with
    | none => s
    | some (i, r) => chanPump st ch n (chanGo (chanTake s st ch i) ⟨st, ch, r.q⟩ r)

/-- R319: the request at place i may be served now: it has a register and no older request for its block waits; the bank's oldest request goes first once it
has waited 256 beats, and before that row hits go first. -/
def chanServes (u : Chan) (now i : Nat) (r : ChanReq) : Bool :=
  let mates := u.reqs.filter (fun x => x.reg && bankOf x.q == bankOf r.q)
  let hit := fun (x : ChanReq) => mget none u.openRow (bankOf x.q) == some (rowOf x.q)
  !u.retraining && r.reg && (u.reqs.take i).all (fun x => x.blk != r.blk) &&
  (if mates.head?.any (fun x => decide (256 ≤ 20 * (now - x.at_))) then (u.reqs.take i).all (fun x => !(x.reg && bankOf x.q == bankOf r.q))
   else hit r || !mates.any hit)

/-- The place of a read in a controller's list. -/
def readAt (u : Chan) (k cls : Nat) : Option (Nat × ChanReq) :=
  (List.range u.reqs.length).findSome? (fun i => (u.reqs[i]?).bind (fun r =>
    if r.kind == .read && r.blk == k && r.cls == cls then some (i, r) else none))

/-- A block and its poison, as delivered to whom it was read for. -/
def answerBlk (s : State) (b : Blk) : State := { s with resp := b.data ++ [BitVec.ofNat 8 (b2n b.poison)] }

/-- The block is read for a miss of class `cls` whose request is at place i. -/
def readServe (s : State) (p : Place) (k cls i : Nat) (verify : Bool) (chk : Check) : State :=
  let r := memRead (chanTake s p.st p.ch i) k cls verify chk
  let s := chanPump p.st p.ch (chanOf r.2 p.st p.ch).reqs.length (missFree r.2 (.sysc p.st) k)
  answerBlk (chanSettle s p.st p.ch) r.1

/-- BLOCK_READ (R316, R319, R320): the controller reads a block for a miss of class `cls`, or (`later`) takes its request only. It verifies the block when the
miss is one of a coherent cache (`fill`, and always for classes 0 to 25) or of the I/O agent, or a fabric READ that does not travel carried (`fill`; R260); the
system cache is filled. -/
def execBlockRead (blk : BitVec 32) (cls : Fin 32) (fill later : Bool) (chk : Check) (s : State) : Out :=
  let k := blk.toNat
  match placeOf s k with
  | none => .next (if later then s else answerBlk s (memRead s k cls.val false chk).1)
  | some p =>
    let s := if (readAt (chanOf s p.st p.ch) k cls.val).isSome then s else chanPush s p k cls.val .read
    match (if later then none else readAt (chanOf s p.st p.ch) k cls.val) with
    | none => .next s
    | some (i, r) =>
      if chanDead s p.st p.ch ∨ chanServes (chanOf s p.st p.ch) (rd s .hub hubTimer) i r then
        .next (readServe s p k cls.val i (fill || decide (cls.val ≤ 25 ∨ cls.val = 28)) chk)
      else .next s

/-- BLOCK_WRITE (R314). -/
def execBlockWrite (blk : BitVec 32) (cls : Fin 32) (w : BlockWr) (s : State) : Out :=
  .next (memWriteBlock s blk.toNat cls.val w)

/-- READ_MODIFY_WRITE (R314): the masked bytes are merged into the block. -/
def execReadModifyWrite (blk : BitVec 32) (cls : Fin 32) (mask : BitVec 256) (data : List Byte) (poison : Bool) (chk : Check)
    (s : State) : Out :=
  .next (memWritePart s blk.toNat cls.val 0 mask.toNat (slice data 0 256) poison chk)

/-- REREAD (R315): the block is read again and delivered; one whose channel retrains waits there. -/
def execReread (blk : BitVec 32) (chk : Check) (s : State) : Out :=
  let k := blk.toNat
  match placeOf s k with
  | none => .next s
  | some p =>
    if memHeld s k then .next (chanPush s p k 0 (.reread chk))
    else
      let s := homeReread s k chk
      let b := match syscBlk s k with
        | some b => blkOf b.data (syscSide b)
        | none => blkOf (dramData s k) (dramSide s k)
      .next (answerBlk s { b with poison := b.poison || chanDead s p.st p.ch })

/-- BANK_REFRESH (R322): the bank whose turn it is closes its row and is refreshed; the next turn is the next bank's. -/
def execBankRefresh (st : Fin 16) (ch : Fin 32) (bank : Fin 32) (s : State) : Out :=
  let u := chanOf s st ch
  if bank.val ≠ u.refreshTurn then .next s
  else .next (setChan s st ch { u with openRow := mset none u.openRow bank.val none, refreshTurn := (bank.val + 1) % 32 })

/-- ROW_IDLE_CLOSE (R318): an open row with no access for tIDLE is closed. -/
def execRowIdleClose (st : Fin 16) (ch : Fin 32) (bank : Fin 32) (s : State) : Out :=
  let u := chanOf s st ch
  .next (setChan s st ch { u with openRow := mset none u.openRow bank.val none })

/-- R321: the refresh rate after a reading, from the rate before (temperatures in 1/16 °C; the rate falls at the falling thresholds). -/
def rateAfter (old : Nat) (t : Int) : Nat :=
  let up := if t > 1520 then 2 else if t > 1360 then 1 else 0
  let hold := if t > 1472 then 2 else if t > 1312 then 1 else 0
  if old < up then up else min old hold

/-- R321: HOT after a reading. -/
def hotAfter (old : Bool) (t : Int) : Bool := decide (t > 1680) || (old && decide (t > 1632))

/-- The largest of some readings. -/
def maxInt : List Int → Int
  | [] => 0
  | x :: l => l.foldl max x

/-- R321, R323: the registers and events of one channel page after a sample. -/
def tempPage (t : Int) (valid ignored : Bool) (s : State) (p : Page) : State :=
  let rate0 := rd s p mchTempRefRate
  let hot0 := rd s p mchTempHot == 1
  let rate := if ignored then 2 else if valid then rateAfter rate0 t else rate0
  let hot := if valid then hotAfter hot0 t else hot0
  let s := if valid then wr s p mchTempStackT (ofInt 16 t) else s
  let s := wr (wr (wr s p mchTempRefRate rate) p mchTempHot (b2n hot)) p mchTempSensorFail (b2n ignored)
  let s := if rate ≠ rate0 then setEvt s p 16 else s
  let s := if hot ≠ hot0 then setEvt s p 17 else s
  let s := if hot ∧ !hot0 then raise s p { bit := 19 } else s
  if ignored then raise s p { bit := 18 } else s

/-- STACK_TEMP_SAMPLE (R321, R323): eight readings, absent where a sensor returns none; a sensor absent on two consecutive samples is
ignored until every sensor reads again. -/
def execStackTempSample (st : Fin 16) (t : List (Option (BitVec 16))) (s : State) : Out :=
  let u := mget ({} : StackState) s.stkTemp st.val
  let missing := (List.range 8).filter (fun i => (t.getD i none).isNone)
  let ignored := if missing.isEmpty then [] else (List.range 8).filter (fun i =>
    u.ignored.contains i || (missing.contains i && u.failed.contains i))
  let vals := ((t.take 8).filterMap id).map (fun v => toInt 16 v.toNat)
  let s := { s with stkTemp := mset {} s.stkTemp st.val { u with failed := missing, ignored := ignored } }
  let s := (List.finRange 32).foldl (fun s ch =>
    if rd s (.mchan st ch) mchLocInService = 1 then tempPage (maxInt vals) (!vals.isEmpty) (!ignored.isEmpty) s (.mchan st ch) else s) s
  .next (if vals.isEmpty then s else stackHotSet s st (hotAfter u.hot (maxInt vals)))

/-- R324: the blocks of a channel. -/
def chanBlocks : Nat := 6291456

/-- PATROL_READ (R317, R324, R325): the conservator visits its next block, after the older requests for it. -/
def execPatrolRead (st : Fin 16) (ch : Fin 32) (chk : Check) (disagree tagBad : Bool) (s : State) : Out :=
  let p := Page.mchan st ch
  let q := rd s p mchPatrol
  let k := blockAt s st ch q
  if rd s p mchLocInService ≠ 1 ∨ chanDead s st ch ∨ rd s p mchCfgPatrolEn ≠ 1 ∨ memHeld s k then .next s
  else
    let dirty := (syscBlk s k).any (·.dirty)
    let sd := dramSide s k
    let noTag := tagBad || sd.tagBad
    let fix := !dirty && (disagree || noTag || (sd.poison != 0 && sd.poison != 7))
    let s := if fix then { s with side := mset {} s.side k { sd with
        poison := triple (majority sd.poison), tag := if noTag then 0 else sd.tag, tagBad := false } } else s
    let s := if dirty then s else ctrlVerify s ⟨st, ch, q⟩ k chk
    .next (if q + 1 = chanBlocks then setEvt (wrapAdd (wr s p mchPatrol 0) p mchPasses 1) p 18 else wr s p mchPatrol (q + 1))

/-- PATROL_EN_WRITE (R324): the conservator stops where it stands, or resumes from PATROL.NEXT. -/
def execPatrolEnWrite (st : Fin 16) (ch : Fin 32) (en : Bool) (s : State) : Out :=
  if pgState s (.mchan st ch) = 0 then .next s else .next (wr s (.mchan st ch) mchCfgPatrolEn (b2n en))

/-- DEACCESSION (R326): DEACC.NOW with DEACC.KEY. -/
def execDeaccession (st : Fin 16) (ch : Fin 32) (key : BitVec 16) (s : State) : Out :=
  if key = 0xD5A7 ∧ rd s (.mchan st ch) mchLocInService = 1 then .next (deaccess s st ch 3) else .next s

/-- CHANNEL_RETRAIN (R326): the interface reports errors; the sixteenth within 1 ms starts a retraining, which holds the channel's requests. -/
def execChannelRetrain (st : Fin 16) (ch : Fin 32) (errs : Fin 17) (s : State) : Out :=
  let u := chanOf s st ch
  let now := rd s .hub hubTimer
  let l := u.ifErrs ++ List.replicate errs.val now
  let l := l.drop (l.length - 16)
  if rd s (.mchan st ch) mchLocInService ≠ 1 ∨ chanDead s st ch ∨ u.retraining then .next s
  else if l.length = 16 ∧ now - l.headD now ≤ 100000 then .next (setChan s st ch { u with retraining := true, ifErrs := [] })
  else .next (setChan s st ch { u with ifErrs := l })

/-- CHANNEL_RETRAIN_DONE (R326): the retraining sets INTERFACE and the requests it held go on, or the channel is deaccessioned. -/
def execChannelRetrainDone (st : Fin 16) (ch : Fin 32) (ok : Bool) (s : State) : Out :=
  if (chanOf s st ch).retraining then
    if ok then
      let s := setChan s st ch { chanOf s st ch with retraining := false }
      let s := chanPump st ch (chanOf s st ch).reqs.length (raise s (.mchan st ch) { bit := 17, sev := some 0 })
      .next (chanSettle s st ch)
    else .next (deaccess s st ch 2)
  else .next s

end Sys2Proof.Machine
end

