-- ==== Sys2Proof/Machine/Down.lean ====
section
/-! DEFINITION. All control pages of a module, and the coherent domain going down (R298, R299, R305). -/

namespace Sys2Proof.Machine

/-- Every control page (R45, R47, R49). -/
def allPages : List Page :=
  [.hub, .mgpwr, .sec, .coh, .host] ++ (List.finRange 31).map .dlink ++
  (List.finRange 48).flatMap (fun b =>
    [Page.bayCtl b, .doc b, .issue b, .sync b, .pace b, .vec b, .tgu b, .gth b 0, .gth b 1, .store b, .bcache b, .xlate b] ++
    (List.finRange 4).map (.mov b) ++ (List.finRange 8).map (.arr b)) ++
  (List.finRange 16).flatMap (fun st => Page.sysc st :: (List.finRange 32).map (.mchan st)) ++
  (List.finRange 32).map .fport ++ [.router 0, .router 1, .flow 0, .flow 1, .ce 0, .ce 1] ++
  (List.finRange 4).flatMap (fun d => [Page.pdCtl d, .l3 d] ++ (List.finRange 6).map (.clus d)) ++
  (List.finRange 192).map .core

/-- R299: the pages that domain-down leaves unfenced. -/
def unfenced : Page → Bool
  | .hub | .coh | .mgpwr | .sec | .store _ | .sync _ => true
  | _ => false

/-- R55: a page is fenced from any state but ABSENT and OFF. A self-test under way ends; it runs again before the page is STOPPED (R117). -/
def fence (s : State) (p : Page) : State :=
  let st := pgState s p
  if st = 0 ∨ st = 1 then s
  else
    let s := match p with
      | .arr b a => modArr s b a.val (fun u => { u with selfTest := false })
      | _ => s
    enter (dropHeld s p) p 7

/-- R299: a bay's operations in progress are abandoned without their SIG actions; what they wrote stays. -/
def bayAbandon (y : Bay) : Bay :=
  { y with
    ops := []
    arrays := mmapv {} (fun u => { u with ops := [], selfTest := false }) y.arrays
    vec := {}
    movs := []
    gths := []
    inval := none
    invalWait := []
    stopHeld := [] }

/-- R298, R305: the PG_ERR bit of COH that a cause sets: PROTOCOL is the common one; REFCLK_LOSS and FORCED have none. -/
def causeBit (cause : Nat) : Option Nat :=
  ([none, some 16, some 6, some 19, some 17, some 18, none, some 20, none] : List (Option Nat)).getD cause none

/-- What the detector of a domain-down sends (R299). -/
structure DownRec where
  cause : Nat
  agent : Nat := 31
  home : Option Nat := none
  msg : Nat := 0
  st : Nat := 0
  atHome : Bool := false
  line : Nat := 0
deriving DecidableEq, Repr

/-- R299, R490: the coherent domain goes down: DOMAIN.UP clears, the record is captured, work is abandoned, homes drop their queues,
pages are fenced, ALERT_N falls. A later cause is logged, those without a bit of their own as DOMAIN_DOWN entries (DEDUCED, log 126), and leaves the
record. -/
def domainDown (s : State) (r : DownRec) : State :=
  let e : Err := { bit := (causeBit r.cause).getD 0, unit := r.agent, addr := some (64 * r.line), sev := some 3 }
  if !domainUp s ∧ !s.coh.restarting then
    if (causeBit r.cause).isSome then raiseEach s .coh e else logWrite s 0 (pgId .coh) 0x103 3 false r.cause
  else
    let s := wr (wr s .hub hubDomainUp 0) .hub hubDomainDownCause r.cause
    let s := wr (wr (wr (wr s .coh cohStatusUp 0) .coh cohStatusSalvaged 0) .coh cohStatusRestarting 0) .coh cohStatusCause r.cause
    let s := wr (wr (wr s .coh cohStatusAgent r.agent) .coh cohStatusHome (r.home.getD 0)) .coh cohStatusHomeValid (b2n r.home.isSome)
    let s := wr (wr (wr s .coh cohDownMsgMsg r.msg) .coh cohDownMsgState r.st) .coh cohDownMsgAtHome (b2n r.atHome)
    let s := wr (wr s .coh cohDownAddr r.line) .coh cohDownTime (rd s .hub hubTimer)
    let s := if (causeBit r.cause).isSome then raise s .coh e else s
    let s := { s with
      coh := { s.coh with homes := [], msgs := [], tx := [], restarting := false, downSeq := true, salvTurn := none }
      bays := mmapv {} bayAbandon s.bays
      ces := mmapv {} (fun u => { u with running := [] }) s.ces
      mg := { s.mg with alert := true } }
    allPages.foldl (fun s p => if unfenced p then s else fence s p) s

end Sys2Proof.Machine
end

