-- ==== Sys2Proof/Machine/Routes.lean ====
section
/-! DEFINITION. Routes over the die links (R13 to R15, R283, R284, R336 to R339): the links that a message crosses, its lane on each, what waits at a die to
cross a link and in which order it goes. -/

namespace Sys2Proof.Machine

/-! ### Places. -/

/-- R13: the grid position of a die (row, column), by the codes of R351. -/
def diePos (d : Nat) : Nat × Nat :=
  ([(0, 0), (1, 0), (2, 0), (3, 0), (0, 1), (3, 1), (0, 4), (1, 4), (2, 4), (3, 4), (0, 3), (3, 3), (1, 1), (2, 1), (1, 3), (2, 3), (0, 2), (3, 2),
    (1, 2), (2, 2)] : List (Nat × Nat)).getD d (0, 0)

/-- The die at a grid position. -/
def dieAt (p : Nat × Nat) : Nat := ((List.range 20).find? (fun d => diePos d == p)).getD 0

/-- R14: the link between two neighbouring dies, in the direction from the first to the second (`true`: from its second end to its first). -/
def linkBetween (a b : Nat) : Option (Fin 31 × Bool) :=
  (List.finRange 31).findSome? (fun l => if linkEnds l.val = (a, b) then some (l, false) else if linkEnds l.val = (b, a) then some (l, true) else none)

/-- R17, R18, R45: the die whose logic serves a page. -/
def pageDie : Page → Nat
  | .hub | .mgpwr | .sec | .coh | .host => 18
  | .dlink n => (linkEnds n.val).1
  | .bayCtl b | .doc b | .issue b | .sync b | .pace b | .arr b _ | .vec b | .tgu b | .gth b _ | .mov b _ | .store b | .bcache b | .xlate b => bayDie b
  | .mchan st _ => st.val
  | .sysc st => st.val
  | .fport p => 16 + p.val / 16
  | .router f => 16 + f.val
  | .flow f => 16 + f.val
  | .ce f => 16 + f.val
  | .pdCtl d => 12 + d.val
  | .clus d _ => 12 + d.val
  | .l3 d => 12 + d.val
  | .core n => coreDie n

/-! ### Routes. -/

/-- The positions from column `c` to column `d` along a row, the first left out. -/
def alongRow (r c d : Nat) : List (Nat × Nat) :=
  if c ≤ d then (rangeFrom (c + 1) (d - c)).map (fun x => (r, x)) else ((rangeFrom d (c - d)).reverse).map (fun x => (r, x))
/-- The positions from row `r` to row `q` along a column, the first left out. -/
def alongColumn (c r q : Nat) : List (Nat × Nat) :=
  if r ≤ q then (rangeFrom (r + 1) (q - r)).map (fun x => (x, c)) else ((rangeFrom q (r - q)).reverse).map (fun x => (x, c))

/-- R337: the positions of a route between dies other than MG, the first left out. -/
def routePlaces (a b : Nat × Nat) : List (Nat × Nat) :=
  if a = b then []
  else if a.1 = 2 ∧ min a.2 b.2 ≤ 2 ∧ 2 ≤ max a.2 b.2 then
    let r := if b.1 = 3 then 3 else 1
    (r, a.2) :: (alongRow r a.2 b.2 ++ alongColumn b.2 r b.1)
  else if b.2 = 2 ∧ ((a.1 < 2 ∧ 2 < b.1) ∨ (b.1 < 2 ∧ 2 < a.1)) then
    let c := if a.2 ≤ 2 then 1 else 3
    alongRow a.1 a.2 c ++ alongColumn c a.1 b.1 ++ alongRow b.1 c 2
  else alongRow a.1 a.2 b.2 ++ alongColumn b.2 a.1 b.1

/-- R338: the hops through a list of positions: lane 1 from the first horizontal hop that follows a vertical one. -/
def hopsFrom (a : Nat × Nat) (lane wasVertical : Bool) : List (Nat × Nat) → List Hop
  | [] => []
  | b :: l =>
    let vertical := a.2 == b.2
    let lane := lane || (wasVertical && !vertical)
    match linkBetween (dieAt a) (dieAt b) with
    | some x => { link := x.1, dir := x.2, lane := lane } :: hopsFrom b lane vertical l
    | none => []

/-- R337, R338: the hops of a memory or stream message, or of a management message between dies other than MG. -/
def dieHops (a b : Nat) : List Hop := hopsFrom (diePos a) false false (routePlaces (diePos a) (diePos b))

/-- R339: the links of a management message; those of MG over links 9, 10 and 24 for PD1, PD3 and FD1, else through HD over link 23. -/
def mgmtLinks (a b : Nat) : List (Fin 31) :=
  let toMg := fun (d : Nat) => if d = 13 then [(9 : Fin 31)] else if d = 15 then [10] else if d = 17 then [24] else (dieHops d 18).map (·.link) ++ [23]
  if a = 19 then toMg b else if b = 19 then toMg a else (dieHops a b).map (·.link)

/-- R345: a link is lost. -/
def linkGone (s : State) (l : Fin 31) : Bool :=
  let st := pgState s (.dlink l)
  (st == 6 || st == 7) && rd s (.dlink l) dlNegWidth == 0

/-- R337, R345: stream messages reach die `b` from die `a`. -/
def dieReach (s : State) (a b : Nat) : Bool := (dieHops a b).all (fun h => !linkGone s h.link)

/-- R339, R345: management messages pass between two dies. -/
def mgmtReach (s : State) (a b : Nat) : Bool := (mgmtLinks a b).all (fun l => !linkGone s l)

/-- R349: a die whose core reset the hub has not yet released: until, in step 3, its links on the hub's management route have trained. -/
def dieHeld (s : State) (d : Nat) : Bool :=
  decide (d < 18) && !s.mg.startDone &&
    (decide (s.mg.startStep < 3) || (s.mg.startStep == 3 && !(mgmtLinks 18 d).all (fun l => pgState s (.dlink l) == 4)))

/-! ### The snoop rings (R283, R284). -/

/-- R283: the dies of the stations. -/
def ringDies : List Nat := [0, 4, 16, 10, 6, 7, 8, 9, 11, 15, 14, 18, 12, 13, 5, 3, 2, 1]

/-- The station of a die. -/
def stationOf (d : Nat) : Nat := ((List.range 18).find? (fun i => ringDies.getD i 99 == d)).getD 0

/-- R284: the dies that a snoop from a home's die visits up to an agent's die: by ring A where it lies at most 9 stations on, else by ring B. -/
def ringPlaces (h a : Nat) : List Nat :=
  let n := (stationOf a + 18 - stationOf h) % 18
  if n ≤ 9 then (rangeFrom 1 n).map (fun i => ringDies.getD ((stationOf h + i) % 18) 0)
  else (rangeFrom 1 (18 - n)).map (fun i => ringDies.getD ((stationOf h + 18 - i) % 18) 0)

/-- The hops through a list of dies on the rings. -/
def ringHops (a : Nat) : List Nat → List Hop
  | [] => []
  | b :: l => match linkBetween a b with
    | some x => { link := x.1, dir := x.2, lane := false } :: ringHops b l
    | none => []

/-- R284: an answer returns over the stations of its snoop. -/
def answerHops (h a : Nat) : List Hop := ringHops a ((h :: ringPlaces h a).reverse.drop 1)

/-! ### What waits at a die to cross a link (R336). -/

/-- R333, R336: the order of what a link sends: management, ring, memory RSP and DAT, memory REQ, stream. -/
def flitClass (f : Flit) : Nat := if f.kind = 4 then 0 else if f.kind = 1 then 1 else if f.kind = 2 then (if f.channel = 0 then 3 else 2) else 4

/-- R286: the channel of a message (numbered in the order of R285: DEDUCED, log 129). -/
def msgChan : Msg → Nat
  | .req _ => 0
  | .snp _ _ => 1
  | .ans k _ _ _ => match k with
    | .rspID | .rspOD | .rspUD | .rspIDWbx | .rspIDUpx => 3
    | .rspI | .rspS | .rspU | .rspIUpx | .rspIWbx => 2
  | .rep k _ _ _ => match k with
    | .gnts | .gnte | .gntm | .datacur => 3
    | .gntupg | .wback | .cmp => 2
  | .cmpack _ => 2

/-- R285: snoops and answers travel on the rings, the rest by memory routes. -/
def msgClass : Msg → Nat
  | .snp _ _ | .ans _ _ _ _ => 1
  | .req _ => 3
  | .rep _ _ _ _ | .cmpack _ => 2

/-- What waits for a direction of a link. -/
def txOf (s : State) (l : Fin 31) (dir : Bool) : List TxMsg := mget [] s.coh.tx (2 * l.val + b2n dir)
/-- The state with it replaced. -/
def setTx (s : State) (l : Fin 31) (dir : Bool) (v : List TxMsg) : State :=
  { s with coh := { s.coh with tx := mset [] s.coh.tx (2 * l.val + b2n dir) v } }

/-- A message arrives at a die with the hops before it: it waits for the first of them; with none it has arrived. -/
def txPut (s : State) (line : Nat) (m : Msg) (through : Bool) : List Hop → State
  | [] => s
  | h :: rest => setTx s h.link h.dir (txOf s h.link h.dir ++
      [{ line := line, msg := m, lane := h.lane, rest := rest, through := through, since := rd s .hub hubTimer }])

/-- A message has waited 16 beats. -/
def txAged (now : Nat) (t : TxMsg) : Bool := decide (16 ≤ 20 * (now - t.since))

/-- R336: the class that goes next among those that wait, and whether it goes because it has waited 16 beats. -/
def txBest (now : Nat) (q : List TxMsg) : Option (Nat × Bool) :=
  let first := fun (p : TxMsg → Bool) => (List.range 5).find? (fun c => q.any (fun t => msgClass t.msg == c && p t))
  ((first (txAged now)).map (fun c => (c, true))).orElse (fun _ => (first (fun _ => true)).map (fun c => (c, false)))

/-- R336: the message that a class sends next: an injected one that has waited 8 flits, else the first that passes through, else the first injected. -/
def txHead (q : List TxMsg) (c : Nat) : Option TxMsg :=
  let mine := q.filter (fun t => msgClass t.msg == c)
  (mine.find? (fun t => !t.through && decide (8 ≤ t.passed))).orElse (fun _ => (mine.find? (·.through)).orElse (fun _ => mine.head?))

/-- The messages that wait and that no flit has taken. -/
def txWaits (q : List TxMsg) : List TxMsg := q.filter (fun t => t.sent.isNone)

/-- R333, R336: a new flit is the one that the transmitter chooses: nothing that waits goes before it, and it carries the channel and the lane of the message
that its kind sends next. What stream and management messages wait is not told apart. -/
def flitChosen (now : Nat) (q : List TxMsg) (f : Flit) : Bool :=
  let w := txWaits q
  match txBest now w with
  | none => true
  | some (c, aged) => match txHead w (flitClass f) with
    | some t => flitClass f == c && f.channel.toNat == msgChan t.msg && f.lane == t.lane
    | none => !aged && decide (flitClass f < c)

/-- R333: the flit takes what waits of its kind, channel and lane (how many messages fit is not stated: DESIGN CHOICE, log 129); the other injected messages
of its kind have waited one flit more. -/
def txSend (q : List TxMsg) (f : Flit) : List TxMsg :=
  q.map (fun t =>
    if t.sent.isSome || msgClass t.msg != flitClass f then t
    else if f.channel.toNat == msgChan t.msg && f.lane == t.lane then { t with sent := some f.seq }
    else if t.through then t else { t with passed := t.passed + 1 })

/-- The messages of a flit that has been received go on. -/
def txArrive (s : State) (l : Fin 31) (dir : Bool) (seq : BitVec 12) : State :=
  let q := txOf s l dir
  (q.filter (fun t => t.sent == some seq)).foldl (fun s t => txPut s t.line t.msg true t.rest)
    (setTx s l dir (q.filter (fun t => t.sent != some seq)))

end Sys2Proof.Machine
end

