-- ==== Sys2Proof/Machine/Coh.lean ====
section
/-! DEFINITION. Coherence within the package (R280 to R305): the agents' tables, the homes, the accesses of the module's own units to
the DRAM space, salvage, dump, and the commands of the protocol. -/

namespace Sys2Proof.Machine

/-! State of lines. -/

/-- The key of an agent's line. -/
def agKey (a : AgentId) (line : Nat) : Nat := a.val * 2 ^ 34 + line
/-- What agent `a` holds of a line. -/
def agentOf (s : State) (a : AgentId) (line : Nat) : AgentLine := mget {} s.coh.agents (agKey a line)
/-- The state with it replaced. -/
def setAgent (s : State) (a : AgentId) (line : Nat) (v : AgentLine) : State :=
  { s with coh := { s.coh with agents := mset {} s.coh.agents (agKey a line) v } }
/-- A line at its home. -/
def homeOf (s : State) (line : Nat) : HomeLine := mget {} s.coh.homes line
/-- The state with it replaced. -/
def setHome (s : State) (line : Nat) (v : HomeLine) : State :=
  { s with coh := { s.coh with homes := mset {} s.coh.homes line v } }
/-- R281: the home of a line, if its address exists. -/
def homeIx (s : State) (line : Nat) : Option Nat := (stackOf s (64 * line)).map (·.1.val)
/-- R280: the die of an agent, by the codes of R351. -/
def agentDie (a : AgentId) : Nat := if a.val = 16 then 18 else a.val
/-- The die of a requester. -/
def reqrDie : Reqr → Nat
  | .agent a => agentDie a
  | .die d => d.val

/-- R286: the dies between which a message about a line passes. -/
def msgEnds (s : State) (line : Nat) (m : Msg) : Option (Nat × Nat) :=
  (homeIx s line).map (fun h => match m with
    | .req r => (reqrDie r.who, h)
    | .snp _ a => (h, agentDie a)
    | .ans _ a _ _ => (agentDie a, h)
    | .rep _ w _ _ => (h, reqrDie w)
    | .cmpack a => (agentDie a, h))

/-- R284, R285, R337: the hops of a message: on the rings for snoops and answers, else by its memory route. -/
def msgHops (s : State) (line : Nat) (m : Msg) : List Hop :=
  match msgEnds s line m with
  | none => []
  | some (a, b) => match m with
    | .snp _ _ => ringHops a (ringPlaces a b)
    | .ans _ _ _ _ => answerHops b a
    | .req _ | .rep _ _ _ _ | .cmpack _ => dieHops a b

/-- A message leaves: it waits for the first link of its route. -/
def sendMsg (s : State) (line : Nat) (m : Msg) : State :=
  txPut { s with coh := { s.coh with msgs := s.coh.msgs ++ [(line, m)] } } line m false (msgHops s line m)

/-- R336, R345: a message has crossed every link of its route, and none of its channel between the same two dies is ahead of it. -/
def msgHere (s : State) (line : Nat) (m : Msg) : Bool :=
  !s.coh.tx.any (fun x => x.2.any (fun t => t.line == line && t.msg == m)) &&
  !(s.coh.msgs.takeWhile (· != (line, m))).any (fun x => msgEnds s x.1 x.2 == msgEnds s line m && msgChan x.2 == msgChan m && msgClass x.2 == msgClass m)
/-- A message is taken. -/
def takeMsg (s : State) (line : Nat) (m : Msg) : State := { s with coh := { s.coh with msgs := s.coh.msgs.erase (line, m) } }
/-- The first message about a line of a kind that has arrived. -/
def findMsg (s : State) (line : Nat) (p : Msg → Bool) : Option Msg :=
  (s.coh.msgs.find? (fun x => x.1 == line && p x.2 && msgHere s line x.2)).map (·.2)
/-- R285: the credits a die holds at a home. -/
def credits (s : State) (die home : Nat) : Nat := mget 64 s.coh.credits (16 * die + home)
/-- The state with them set. -/
def setCredits (s : State) (die home n : Nat) : State :=
  { s with coh := { s.coh with credits := mset 64 s.coh.credits (16 * die + home) n } }
/-- R285: a credit returns with the reply. -/
def creditBack (s : State) (die line : Nat) : State :=
  match homeIx s line with
  | some h => setCredits s die h (min 64 (credits s die h + 1))
  | none => s

/-- R304: the state codes of an agent. -/
def lineStCode : LineState → Nat
  | .I => 0 | .S => 1 | .E => 2 | .O => 3 | .M => 4 | .IS => 5 | .IM => 6 | .SM => 7 | .OM => 8 | .IMU => 9 | .MI => 10 | .OI => 11
  | .II => 12
/-- R304: the state codes of a home. -/
def homeStCode : HomeState → Nat
  | .free => 0 | .snoop => 1 | .mem => 2 | .ack => 3
/-- R286: message codes. -/
def reqCode : ReqKind → Nat
  | .rds => 1 | .rdx => 2 | .upg => 3 | .rdcur => 4 | .wrfull => 5 | .wrpart => 6 | .atomic => 7 | .wb => 8 | .salvwr => 9
/-- Codes of snoops. -/
def snpCode : SnpKind → Nat
  | .snps => 0x10 | .snpx => 0x11 | .snpcur => 0x12 | .snpinv => 0x13
/-- Codes of answers. -/
def ansCode : AnsKind → Nat
  | .rspI => 0x20 | .rspS => 0x21 | .rspU => 0x22 | .rspIUpx => 0x23 | .rspIWbx => 0x24 | .rspID => 0x30 | .rspOD => 0x31
  | .rspUD => 0x32 | .rspIDWbx => 0x33 | .rspIDUpx => 0x34
/-- Codes of replies. -/
def repCode : RepKind → Nat
  | .gntupg => 0x26 | .wback => 0x27 | .cmp => 0x28 | .gnts => 0x35 | .gnte => 0x36 | .gntm => 0x37 | .datacur => 0x38

/-- R298: PROTOCOL detected by an agent. -/
def agentProtocol (s : State) (a : AgentId) (line msg : Nat) : State :=
  domainDown s { cause := 2, agent := a.val, home := homeIx s line, msg := msg, st := lineStCode (agentOf s a line).st, line := line }

/-- R294, R298: PROTOCOL detected by a home. -/
def homeProtocol (s : State) (agent line msg : Nat) : State :=
  domainDown s { cause := 2, agent := agent, home := homeIx s line, msg := msg, st := homeStCode (homeOf s line).st, atHome := true, line := line }

/-! The agents' tables. -/

/-- R288: the answer to a snoop and the next state. -/
def snoopAct : LineState → SnpKind → AnsKind × LineState
  | .S, .snps => (.rspS, .S) | .S, .snpx => (.rspI, .I) | .S, .snpcur => (.rspU, .S) | .S, .snpinv => (.rspI, .I)
  | .E, .snps => (.rspS, .S) | .E, .snpx => (.rspI, .I) | .E, .snpcur => (.rspU, .E) | .E, .snpinv => (.rspI, .I)
  | .O, .snps => (.rspOD, .O) | .O, .snpx => (.rspID, .I) | .O, .snpcur => (.rspUD, .O) | .O, .snpinv => (.rspI, .I)
  | .M, .snps => (.rspOD, .O) | .M, .snpx => (.rspID, .I) | .M, .snpcur => (.rspUD, .M) | .M, .snpinv => (.rspI, .I)
  | .SM, .snps => (.rspS, .SM) | .SM, .snpx => (.rspIUpx, .IMU) | .SM, .snpcur => (.rspU, .SM) | .SM, .snpinv => (.rspIUpx, .IMU)
  | .OM, .snps => (.rspOD, .OM) | .OM, .snpx => (.rspIDUpx, .IMU) | .OM, .snpcur => (.rspUD, .OM) | .OM, .snpinv => (.rspIUpx, .IMU)
  | .MI, .snps => (.rspIDWbx, .II) | .MI, .snpx => (.rspIDWbx, .II) | .MI, .snpcur => (.rspUD, .MI) | .MI, .snpinv => (.rspIWbx, .II)
  | .OI, .snps => (.rspIDWbx, .II) | .OI, .snpx => (.rspIDWbx, .II) | .OI, .snpcur => (.rspUD, .OI) | .OI, .snpinv => (.rspIWbx, .II)
  | .I, _ => (.rspI, .I) | .IS, _ => (.rspI, .IS) | .IM, _ => (.rspI, .IM) | .IMU, _ => (.rspI, .IMU) | .II, _ => (.rspI, .II)

/-- An answer carries data. -/
def ansData : AnsKind → Bool
  | .rspID | .rspOD | .rspUD | .rspIDWbx | .rspIDUpx => true
  | _ => false
/-- An answer carries WBX. -/
def ansWbx : AnsKind → Bool
  | .rspIWbx | .rspIDWbx => true
  | _ => false
/-- An answer carries UPX. -/
def ansUpx : AnsKind → Bool
  | .rspIUpx | .rspIDUpx => true
  | _ => false
/-- An answer that R288 can produce for a snoop. -/
def ansFits (k : SnpKind) (x : AnsKind) : Bool :=
  ([LineState.I, .S, .E, .O, .M, .IS, .IM, .SM, .OM, .IMU, .MI, .OI, .II]).any (fun st => decide ((snoopAct st k).1 = x))

/-- A state that keeps data. -/
def keepsData : LineState → Bool
  | .S | .E | .O | .M | .SM | .OM | .MI | .OI => true
  | _ => false
/-- R301: a state whose copy is dirty. -/
def isDirty : LineState → Bool
  | .O | .M | .OM | .MI | .OI => true
  | _ => false
/-- A stable state. -/
def isStable : LineState → Bool
  | .I | .S | .E | .O | .M => true
  | _ => false

/-- The line in a new state; data goes with the copy. -/
def toSt (g : AgentLine) (st : LineState) : AgentLine :=
  if keepsData st then { g with st := st } else { g with st := st, data := [], poison := false, cover := 0 }

/-- The caches of an agent that have a page. -/
def agentCaches (a : AgentId) : List CacheId :=
  if h : a.val < 12 then (List.finRange 4).map (fun i => CacheId.bcache ⟨4 * a.val + i.val, by omega⟩)
  else if h : a.val < 16 then [CacheId.l3 ⟨a.val - 12, by omega⟩] else []

/-- R257, R280: a line leaves the private caches of an agent's cores. -/
def privDrop (s : State) (a : AgentId) (line : Nat) : State :=
  if 12 ≤ a.val ∧ a.val < 16 then dieHarts s (a.val - 12) (privLose line) else s

/-- R280: a line leaves every cache of an agent. -/
def agentDrop (s : State) (a : AgentId) (line : Nat) : State :=
  (agentCaches a).foldl (fun s c => match wayFind s c (lineSlot c line) line with
    | some w => waySet s c (lineSlot c line) w none
    | none => s) (privDrop s a line)

/-- R266: the class of a write-back or a request that no cached access caused (DESIGN CHOICE, log 128): TG, the die's first cluster, HOST. -/
def agentOwnCls (a : AgentId) : Fin 32 := if a.val < 12 then 25 else if a.val = 12 then 0 else if a.val = 13 then 6 else if a.val = 14 then 12 else if a.val = 15 then 18 else 28

/-- R266: the class of an agent's request for a line: that of the miss that caused it. -/
def agentCls (s : State) (a : AgentId) (line : Nat) : Fin 32 :=
  ((agentCaches a).findSome? (fun c => (cacheOf s c).miss.find? (fun m => m.line == line))).elim (agentOwnCls a) (·.cls)

/-- R288: the line of an agent moves to a state, and its caches follow when the copy is lost. -/
def agentTo (s : State) (a : AgentId) (line : Nat) (st : LineState) : State :=
  let s := setAgent s a line (toSt (agentOf s a line) st)
  if keepsData st then s else agentDrop s a line

/-- R285, R286: an agent sends a request, if its die has a credit and the address a home; else the event waits. -/
def agentReq (s : State) (a : AgentId) (cls : Fin 32) (line : Nat) (k : ReqKind) (st : LineState) (data : List Byte) (poison : Bool) : State :=
  match homeIx s line with
  | none => s
  | some h =>
    let c := credits s (agentDie a) h
    if c = 0 then s
    else
      let s := setCredits s (agentDie a) h (c - 1)
      let s := sendMsg s line (.req { who := .agent a, kind := k, cls := cls, data := data, poison := poison })
      setAgent s a line (toSt (agentOf s a line) st)

/-- R288: LOAD. -/
def evLoad (s : State) (a : AgentId) (line : Nat) : State :=
  let g := agentOf s a line
  match g.st with
  | .I => agentReq s a (agentCls s a line) line .rds .IS [] false
  | .IS | .IM | .IMU | .MI | .OI | .II => setAgent s a line { g with waitLoad := true }
  | .S | .E | .O | .M | .SM | .OM => s

/-- The I/O agent's copy of data that the host keeps in M serves one read. -/
def hostUsed (s : State) (a : AgentId) (line : Nat) : State :=
  if a = 16 then setAgent s 16 line { agentOf s 16 line with data := [], poison := false } else s

/-- R288: STORE. -/
def evStore (s : State) (a : AgentId) (line : Nat) : State :=
  let g := agentOf s a line
  match g.st with
  | .I => agentReq s a (agentCls s a line) line .rdx .IM [] false
  | .S => agentReq s a (agentCls s a line) line .upg .SM [] false
  | .O => agentReq s a (agentCls s a line) line .upg .OM [] false
  | .E => hostUsed (agentTo s a line .M) a line
  | .M => s
  | .IS | .IM | .SM | .OM | .IMU | .MI | .OI | .II => setAgent s a line { g with waitStore := true }

/-- R27, R288: EVICT, for an allocation of class `cls`. -/
def evEvict (s : State) (a : AgentId) (cls : Fin 32) (line : Nat) : State :=
  let g := agentOf s a line
  match g.st with
  | .S | .E => agentTo s a line .I
  | .O =>
    let s' := agentReq s a cls line .wb .OI g.data g.poison
    if (agentOf s' a line).st = .OI then agentDrop s' a line else s'
  | .M =>
    let s' := agentReq s a cls line .wb .MI g.data g.poison
    if (agentOf s' a line).st = .MI then agentDrop s' a line else s'
  | .I | .IS | .IM | .SM | .OM | .IMU | .MI | .OI | .II => s

/-- R289: a waiting Load or Store is served once the line reaches a stable state. -/
def serveWait (s : State) (a : AgentId) (line : Nat) : State :=
  let g := agentOf s a line
  if !isStable g.st then s
  else
    let s := setAgent s a line { g with waitLoad := false, waitStore := false }
    if g.waitStore then evStore s a line else if g.waitLoad then evLoad s a line else s

/-! The home. -/

/-- R291: the snoop of a request; none for WB and SalvWr. -/
def reqSnoop (k : ReqKind) : Option SnpKind :=
  match k with
  | .rds => some .snps | .rdx => some .snpx | .upg => some .snpx | .rdcur => some .snpcur | .wrfull => some .snpinv
  | .wrpart => some .snpx | .atomic => some .snpx | .wb => none | .salvwr => none

/-- R291: the request takes a data answer or memory. -/
def needsData (k : ReqKind) (asRdx : Bool) : Bool :=
  match k with
  | .rds | .rdx | .rdcur | .wrpart | .atomic => true
  | .upg => asRdx
  | .wrfull | .wb | .salvwr => false

/-- R235: the value an atomic of `w` bits leaves. -/
def amo (aop w old operand compare : Nat) : Nat :=
  let x := old % 2 ^ w
  let y := operand % 2 ^ w
  match aop with
  | 0 => (x + y) % 2 ^ w
  | 1 => y
  | 2 => if x = compare % 2 ^ w then y else x
  | 3 => x &&& y
  | 4 => x ||| y
  | 5 => x ^^^ y
  | 6 => if toInt w x < toInt w y then y else x
  | 7 => if toInt w y < toInt w x then y else x
  | 8 => if x < y then y else x
  | 9 => if y < x then y else x
  | 10 =>
    let f := if w = 32 then f32 else f64
    (roundV f .rne (Val.add false (decF f x) (decF f y))).1
  | _ => x

/-- A line after an atomic, and the old value. -/
def atomicLine (d : List Byte) (o : AtomicOp) : List Byte × Nat :=
  let old := fieldAt d o.off o.size
  (splice d o.off (toLE o.size (amo o.aop.toNat (8 * o.size) old o.operand.toNat o.compare.toNat)), old)

/-- R291: the agents a request snoops. -/
def snooped (r : Reqr) : List AgentId :=
  (List.finRange 17).filter (fun a => match r with | .agent b => a != b | .die _ => true)

/-- R290 to R292: a request begins at its home. -/
def homeBegin (s : State) (line : Nat) (r : Req) : State :=
  match r.who, r.kind with
  | .agent a, .wb =>
    let note := (a.val, line)
    let s := if s.coh.wbxNotes.contains note then { s with coh := { s.coh with wbxNotes := s.coh.wbxNotes.erase note } }
      else lineWrite s line r.cls.val allMask r.data r.poison
    sendMsg (setHome s line { homeOf s line with st := .ack, cur := some r }) line (.rep .wback (.agent a) [] false)
  | who, k =>
    let note := match who with | .agent a => (a.val, line) | .die _ => (99, line)
    let asRdx := k == .upg && s.coh.upxNotes.contains note
    let s := if asRdx then { s with coh := { s.coh with upxNotes := s.coh.upxNotes.erase note } } else s
    let k' := (reqSnoop k).getD .snps
    let dst := snooped who
    let s := setHome s line { queue := (homeOf s line).queue, st := .snoop, cur := some r, asRdx := asRdx, waiting := dst }
    dst.foldl (fun s a => sendMsg s line (.snp k' a)) s

/-- R290, R293: a request arrives at the home. -/
def homeArrive (s : State) (line : Nat) (r : Req) : State :=
  let h := homeOf s line
  if h.st = .free then homeBegin s line r else setHome s line { h with queue := h.queue ++ [r] }

/-- R293: the line is free, and the next queued request begins. -/
def homeNext (s : State) (line : Nat) : State :=
  let h := homeOf s line
  match h.queue with
  | [] => setHome s line {}
  | r :: rest => homeBegin (setHome s line { queue := rest }) line r

/-- R291: the reply of a transaction whose answers are in and whose data, if it needs any, is `d` (with poison); `wbx` says that the
data came with WBX. -/
def homeReply (s : State) (line : Nat) (d : List Byte) (poison : Bool) : State :=
  let h := homeOf s line
  match h.cur with
  | none => s
  | some r =>
    let ack := fun (s : State) (k : RepKind) (d : List Byte) (p : Bool) =>
      sendMsg (setHome s line { h with st := .ack, data := none, mem := none, waiting := [] }) line (.rep k r.who d p)
    let done := fun (s : State) (k : RepKind) (d : List Byte) (p : Bool) => homeNext (sendMsg s line (.rep k r.who d p)) line
    match r.kind with
    | .rds => ack (if h.wbx && h.data.isSome then lineWrite s line r.cls.val allMask d poison else s) (if h.sharer then .gnts else .gnte) d poison
    | .rdx => ack s .gntm d poison
    | .upg => if h.asRdx then ack s .gntm d poison else match r.who with
      | .agent a => if s.coh.upxNotes.contains (a.val, line) then homeProtocol s a.val line 0x26 else ack s .gntupg [] false
      | .die _ => ack s .gntupg [] false
    | .rdcur => done s .datacur d poison
    | .wrfull => done (lineWrite (loseLine s (.dram line)) line r.cls.val allMask r.data r.poison) .cmp [] false
    | .wrpart =>
      let m := mergeBytes (slice d 0 64) 0 r.mask.toNat r.data
      done (lineWrite (loseLine s (.dram line)) line r.cls.val allMask m (poison || r.poison)) .cmp [] false
    | .atomic => match r.atomic with
      | some o =>
        let x := atomicLine (slice d 0 64) o
        done (lineWrite (loseLine s (.dram line)) line r.cls.val allMask x.1 poison) .cmp (toLE 8 x.2) poison
      | none => done s .cmp [] false
    | .wb | .salvwr => s

/-- R293: every answer is in: with the data in hand the reply leaves, otherwise the home waits on memory. -/
def homeCombine (s : State) (line : Nat) : State :=
  let h := homeOf s line
  match h.cur with
  | none => s
  | some r =>
    if !needsData r.kind h.asRdx then homeReply s line [] false
    else match h.data, h.mem with
    | some d, _ => homeReply s line d.1 d.2
    | none, some d => homeReply s line d.1 d.2
    | none, none => setHome s line { h with st := .mem }

/-! Accesses by the module's own units, each a whole transaction. -/

/-- R436: the host's state of a line in the tracker: 1 S, 2 E, 3 M, 0 none. -/
def hostTrk (s : State) (line : Nat) : Nat :=
  match (agentOf s 16 line).st with
  | .S => 1 | .E => 2 | .M => 3 | _ => 0

/-- The back-invalidate outstanding for a line. -/
def biOf (s : State) (line : Nat) : Nat := mget 0 s.hostPort.bi line

/-- R437: a back-invalidate goes to the host: 1 BISnpInv, 2 BISnpCur. One for a line is outstanding at a time. -/
def biStart (s : State) (line kind : Nat) : State :=
  if kind = 0 ∨ biOf s line ≠ 0 then s else { s with hostPort := { s.hostPort with bi := mset 0 s.hostPort.bi line kind } }

/-- R436, R437: an access must first take a line, or its data, from the host: a write ends the host's copy, a read needs the data of a line
in M that the I/O agent has not been given. -/
def hostHolds (s : State) (line : Nat) (write : Bool) : Bool :=
  let t := hostTrk s line
  if write then t != 0 else t == 3 && (agentOf s 16 line).data.isEmpty

/-- R317, R326: an access to a line that no cache of the package holds waits for its channel. -/
def memWait (s : State) (line : Nat) : Bool :=
  (syscBlk s (line / 4)).isNone && memHeld s (line / 4) && (List.finRange 17).all (fun a => (agentOf s a line).st == .I)

/-- R337, R345: die `die` and the home of a line reach each other over the die links. -/
def lineReach (s : State) (die line : Nat) : Bool :=
  match homeIx s line with
  | some h => dieReach s die h && dieReach s h die
  | none => true

/-- R290, R345: a line that a transaction, a message or a write-back occupies, that only the host can supply, or whose home no message of die `die` reaches; an
access to it waits. -/
def lineBusy (s : State) (die line : Nat) (write : Bool) : Bool :=
  (homeOf s line).st != .free || s.coh.msgs.any (fun m => m.1 == line) ||
  (List.finRange 17).any (fun a => !isStable (agentOf s a line).st) ||
  hostHolds s line write || biOf s line != 0 || memWait s line || !lineReach s die line

/-- A load that a cache keeps, of a line that the host holds in M, ends the host's copy (R437: SnpS). -/
def loadBusy (s : State) (die line : Nat) : Bool := lineBusy s die line (hostTrk s line == 3)

/-- The lines of a byte range. -/
def lineSpan (a len : Nat) : List Nat := if len = 0 then [] else rangeFrom (a / 64) ((a + len - 1) / 64 + 1 - a / 64)

/-- An access to a range waits. -/
def rangeBusy (s : State) (die a len : Nat) (write : Bool) : Bool := (lineSpan a len).any (fun l => lineBusy s die l write)

/-- R437: an access that waits for the host sends the back-invalidates it needs. -/
def hostAsk (s : State) (a len : Nat) (write : Bool) : State :=
  (lineSpan a len).foldl (fun s l => if hostHolds s l write then biStart s l (if write then 1 else 2) else s) s

/-- A line is delivered poisoned without any check (R316): it is in a cache, or its block in memory is poisoned already. -/
def linePoisoned (s : State) (line : Nat) : Bool :=
  match (List.finRange 17).find? (fun a => (agentOf s a line).st != .I) with
  | some a => (agentOf s a line).poison
  | none => match syscBlk s (line / 4) with
    | some b => majority b.side.poison
    | none => majority (dramSide s (line / 4)).poison

/-- The same for a load that a cache keeps. -/
def loadAsk (s : State) (line : Nat) : State := if hostTrk s line = 3 then biStart s line 1 else s

/-- The agent that holds a line dirty. -/
def dirtyHolder (s : State) (line : Nat) : Option AgentId :=
  (List.finRange 17).find? (fun a => isDirty (agentOf s a line).st)

/-- R291: RdCur as one transaction: the dirty copy, else memory; no copy is kept. -/
def funcRead (s : State) (line cls : Nat) (verify : Bool) (chk : Check) : List Byte × Bool × State :=
  match dirtyHolder s line with
  | some a => (slice (agentOf s a line).data 0 64, (agentOf s a line).poison, hostUsed s a line)
  | none =>
    let r := memRead s (line / 4) cls verify chk
    (slice r.1.data (line % 4 * 64) 64, r.1.poison, r.2)

/-- R288: every copy of a line but agent `keep`'s is given up. -/
def dropCopies (s : State) (line : Nat) (keep : Option AgentId) : State :=
  let s := loseLine s (.dram line)
  (List.finRange 17).foldl (fun s a => if some a = keep ∨ (agentOf s a line).st = .I then s else agentTo s a line .I) s

/-- R291: WrFull or WrPart as one transaction of class `cls`. -/
def funcWrite (s : State) (line cls mask : Nat) (d : List Byte) (poison : Bool) : State :=
  match dirtyHolder s line with
  | some a =>
    let g := agentOf s a line
    let m := mergeBytes (slice g.data 0 64) 0 mask d
    lineWrite (dropCopies s line none) line cls allMask m (poison || (g.poison && mask != allMask))
  | none => lineWrite (dropCopies s line none) line cls mask d poison

/-- R27, R280, R288: a cache gives up a line for an allocation of class `cls`: a copy no other cache of the agent holds is evicted, dirty data written to
memory. -/
def evictCopy (s : State) (a : AgentId) (cls line : Nat) : State :=
  if (agentCaches a).any (fun c => (wayFind s c (lineSlot c line) line).isSome) then s
  else
    let g := agentOf s a line
    let s := if isDirty g.st && isStable g.st then lineWrite s line cls allMask g.data g.poison else s
    if isStable g.st then privDrop (setAgent s a line {}) a line else s

/-- R264, R267: a line is found or allocated in a cache; false where the class may allocate in no way. -/
def cacheInstall (s : State) (c : CacheId) (a : AgentId) (cls line : Nat) (write : Bool) : Bool × State :=
  let k := lineSlot c line
  match wayFind s c k line with
  | some w =>
    let s := if write then waySet s c k w (some { line := line, dirty := true }) else s
    (true, wayTouch s c k w)
  | none => match wayVictim s c cls k with
    | none => (false, s)
    | some w =>
      let old := wayLine s c k w
      let s := wayTouch (waySet s c k w (some { line := line, dirty := write })) c k w
      (true, match old with | some e => evictCopy s a cls e.line | none => s)

/-- R288, R291: a load of agent `a` through cache `c` as one transaction. -/
def cohLoad (s : State) (a : AgentId) (c : CacheId) (cls line : Nat) (chk : Check) : List Byte × Bool × State :=
  let g := agentOf s a line
  if g.st ≠ .I then
    (slice g.data 0 64, g.poison, (cacheInstall s c a cls line false).2)
  else
    let r := funcRead s line cls true chk
    let ci := cacheInstall r.2.2 c a cls line false
    if !ci.1 then r
    else
      let others := (List.finRange 17).filter (fun b => b != a && (agentOf r.2.2 b line).st != .I)
      let s := others.foldl (fun s b => agentTo s b line (snoopAct (agentOf s b line).st .snps).2) ci.2
      (r.1, r.2.1, setAgent s a line { st := if others.isEmpty then .E else .S, data := r.1, poison := r.2.1 })

/-- R288, R291: a store of agent `a` through cache `c` as one transaction: masked bytes of a line. R486: a processor core's stores that
together cover a poisoned line clear its poison while the line stays in the agent. -/
def cohStore (s : State) (a : AgentId) (c : CacheId) (cls line mask : Nat) (d : List Byte) : State :=
  let g := agentOf s a line
  let r := if g.st ≠ .I then (slice g.data 0 64, g.poison, s) else funcRead s line cls true .ok
  let ci := cacheInstall r.2.2 c a cls line true
  if !ci.1 then funcWrite ci.2 line cls mask d false
  else
    let s := dropCopies ci.2 line (some a)
    let cover := if cls < 24 then (agentOf s a line).cover ||| BitVec.ofNat 64 mask else BitVec.ofNat 64 mask
    let poison := r.2.1 && cover != BitVec.allOnes 64
    setAgent s a line { st := .M, data := mergeBytes r.1 0 mask d, poison := poison, cover := if poison then cover else 0 }

/-- No cache of an agent holds a line dirty. -/
def cleanMarks (s : State) (a : AgentId) (line : Nat) : State :=
  let s := (agentCaches a).foldl (fun s c => match wayFind s c (lineSlot c line) line with
    | some w => waySet s c (lineSlot c line) w (some { line := line })
    | none => s) s
  if 12 ≤ a.val ∧ a.val < 16 then dieHarts s (a.val - 12) (privClean line) else s

/-- A write-back that keeps the copy, clean (R271: CLEAN; R276: CBO.CLEAN). -/
def cleanCopy (s : State) (a : AgentId) (line : Nat) : State :=
  let g := agentOf s a line
  let w := fun (s : State) => cleanMarks (lineWrite s line (agentOwnCls a).val allMask g.data g.poison) a line
  match g.st with
  | .M => setAgent (w s) a line { g with st := .E }
  | .O => setAgent (w s) a line { g with st := .S }
  | _ => s

/-- Bytes of the DRAM space as a requester that keeps no copy reads them: value, poison. -/
def cohBytes (s : State) (a len cls : Nat) (verify : Bool) (chk : Check) : List Byte × Bool × State :=
  let r := (lineSpan a len).foldl (fun (x : List Byte × Bool × State) l =>
    let y := funcRead x.2.2 l cls verify chk
    (x.1 ++ y.1, x.2.1 || y.2.1, y.2.2)) ([], false, s)
  (slice r.1 (a % 64) len, r.2.1, r.2.2)

/-- Bytes written by a requester that keeps no copy: line by line under masks. -/
def cohPut (s : State) (a cls : Nat) (d : List Byte) (poison : Bool) : State :=
  (lineSpan a d.length).foldl (fun s l =>
    let lo := max a (64 * l)
    let hi := min (a + d.length) (64 * l + 64)
    let mask := (2 ^ (hi - lo) - 1) * 2 ^ (lo - 64 * l)
    funcWrite s l cls mask (List.replicate (lo - 64 * l) 0 ++ slice d (lo - a) (hi - lo)) poison) s

/-- A whole 256-byte block written by a requester that keeps no copy (R314, R239): the copies of its lines are given up. -/
def cohPutBlock (s : State) (k cls : Nat) (w : BlockWr) : State :=
  memWriteBlock ((rangeFrom (4 * k) 4).foldl (fun s l => dropCopies s l none) s) k cls w

/-- A whole 256-byte block as memory delivers it, with dirty copies of its lines merged (the merged block carries a CRC formed over
it). -/
def cohBlock (s : State) (k cls : Nat) (verify : Bool) (chk : Check) : Blk × State :=
  let r := memRead s k cls verify chk
  let ds := (rangeFrom (4 * k) 4).filterMap (fun l => (dirtyHolder r.2 l).map (fun a => (l, agentOf r.2 a l)))
  if ds.isEmpty then r
  else
    let d := ds.foldl (fun (b : List Byte) x => splice b (x.1 % 4 * 64) (slice x.2.data 0 64)) r.1.data
    ({ data := d, crc := crc32c d, tag := 0, poison := r.1.poison || ds.any (fun x => x.2.poison) },
      ds.foldl (fun s x => if (agentOf s 16 x.1).st = .M then hostUsed s 16 x.1 else s) r.2)

/-- R239, R244, R315, R316: block `k` as a consumer of its own module uses it, and whether it failed the consumer's check twice: a first mismatch
makes it repeat the request. `chk` says which reads a fault on the way spoils; a block delivered poisoned is not checked. -/
def cohVerified (s : State) (k cls : Nat) (chk : Check) : Blk × Bool × State :=
  let x := cohBlock s k cls false .ok
  if x.1.poison || (chk == .ok && crc32c x.1.data == x.1.crc) then (x.1, false, x.2)
  else
    let y := cohBlock (homeReread x.2 k .ok) k cls false .ok
    if y.1.poison || (chk != .twice && crc32c y.1.data == y.1.crc) then (y.1, false, y.2)
    else ({ y.1 with poison := true }, true, y.2)

/-- The 256-byte blocks that a range touches, as (block, first byte, bytes). -/
def blockSpan (a len : Nat) : List (Nat × Nat × Nat) :=
  if len = 0 then []
  else (rangeFrom (a / 256) ((a + len - 1) / 256 + 1 - a / 256)).map (fun k =>
    let lo := max a (256 * k)
    (k, lo, min (a + len) (256 * k + 256) - lo))

/-- A range read block by block by a consumer that verifies: bytes, poison, whether a block failed its check twice. A fault on the way meets the
first block. -/
def cohBlocks (s : State) (a len cls : Nat) (chk : Check) : List Byte × Bool × Bool × State :=
  (blockSpan a len).foldl (fun (x : List Byte × Bool × Bool × State) p =>
    let y := cohVerified x.2.2.2 p.1 cls (if x.1.isEmpty then chk else .ok)
    (x.1 ++ slice y.1.data (p.2.1 % 256) p.2.2, x.2.1 || y.1.poison, x.2.2.1 || y.2.1, y.2.2)) ([], false, false, s)

/-- R314: bytes written by a requester that keeps no copy and forms no CRC: whole blocks as blocks with its format code, the rest as masked lines. -/
def cohPutBlocks (s : State) (a cls : Nat) (d : List Byte) (tag : Byte) (poison : Bool) : State :=
  (blockSpan a d.length).foldl (fun s p =>
    let x := slice d (p.2.1 - a) p.2.2
    if p.2.2 = 256 then cohPutBlock s p.1 cls { data := x, crc := none, tag := tag, poison := poison }
    else cohPut s p.2.1 cls x poison) s

/-! Commands of agents. -/

/-- LOAD. -/
def execLoad (a : AgentId) (line : BitVec 34) (s : State) : Out :=
  .next (if domainUp s then evLoad s a line.toNat else s)
/-- STORE. -/
def execStoreEvent (a : AgentId) (line : BitVec 34) (s : State) : Out :=
  .next (if domainUp s then evStore (loseLine s (.dram line.toNat)) a line.toNat else s)
/-- EVICT. R438: the I/O agent evicts a line that the host holds by BISnpInv. -/
def execEvict (a : AgentId) (cls : Fin 32) (line : BitVec 34) (s : State) : Out :=
  .next (if !domainUp s then s
    else if a = 16 ∧ hostTrk s line.toNat ≠ 0 then biStart s line.toNat 1 else evEvict s a cls line.toNat)

/-- R437: the back-invalidate that agent 16 needs for a snoop of a tracked line: 1 BISnpInv, 2 BISnpCur, 0 none. -/
def biFor (k : SnpKind) (t : Nat) : Nat :=
  match k with
  | .snps => if t = 3 then 1 else 0
  | .snpx | .snpinv => if 0 < t then 1 else 0
  | .snpcur => if t = 3 then 2 else 0

/-- R288: the answer of an agent to a snoop. -/
def answerSnoop (s : State) (a : AgentId) (line : Nat) (k : SnpKind) : State :=
  let g := agentOf s a line
  let x := snoopAct g.st k
  let s := takeMsg s line (.snp k a)
  let s := agentTo s a line x.2
  sendMsg s line (.ans x.1 a (if ansData x.1 then g.data else []) (ansData x.1 && g.poison))

/-- R284, R288, R437: an agent takes a snoop. The I/O agent answers for a line that the host must give up after the BIRsp. -/
def snoop (s : State) (a : AgentId) (line : Nat) (k : SnpKind) : State :=
  if !domainUp s ∨ (findMsg s line (· == .snp k a)).isNone then s
  else
    let bi := biFor k (hostTrk s line)
    if a = 16 ∧ bi ≠ 0 then biStart s line bi else answerSnoop s a line k

/-- SNPS. -/
def execSnps (a : AgentId) (line : BitVec 34) (s : State) : Out := .next (snoop s a line.toNat .snps)
/-- SNPX. -/
def execSnpx (a : AgentId) (line : BitVec 34) (s : State) : Out := .next (snoop s a line.toNat .snpx)
/-- SNPCUR. -/
def execSnpcur (a : AgentId) (line : BitVec 34) (s : State) : Out := .next (snoop s a line.toNat .snpcur)
/-- SNPINV. -/
def execSnpinv (a : AgentId) (line : BitVec 34) (s : State) : Out := .next (snoop s a line.toNat .snpinv)

/-- R289: the state a reply installs, if the table allows it. -/
def replyAct : LineState → RepKind → Option LineState
  | .IS, .gnts => some .S | .IS, .gnte => some .E | .IM, .gntm => some .M | .SM, .gntupg => some .M | .OM, .gntupg => some .M
  | .IMU, .gntm => some .M | .MI, .wback => some .I | .OI, .wback => some .I | .II, .wback => some .I
  | _, _ => none

/-- R264: the requests of a register that are still to be served once reads, and writes where the line may be written, have been, in order. -/
def mergedRest (mayWrite : Bool) : List (Fin 32 × Bool) → List (Fin 32 × Bool)
  | [] => []
  | (c, w) :: l => if w && !mayWrite then (c, w) :: l else mergedRest mayWrite l

/-- R264, R267: the data of a miss arrives: the line is allocated for the class of the primary miss; the primary request and those merged are served in
order, and the register frees once all are. A write waits until the line may be written. A class that may allocate in no way leaves no copy. -/
def missFill (s : State) (a : AgentId) (line : Nat) : State :=
  (agentCaches a).foldl (fun s c => match (cacheOf s c).miss.find? (fun m => m.line == line) with
    | none => s
    | some m =>
      let st := (agentOf s a line).st
      let rest := mergedRest (st == .M || st == .E) ((m.cls, m.write) :: m.merged)
      let wrote := decide (rest.length ≤ m.merged.length) && (((m.cls, m.write) :: m.merged).take (m.merged.length + 1 - rest.length)).any (·.2)
      let s := if wrote then setAgent s a line { agentOf s a line with st := .M } else s
      let x := cacheInstall s c a m.cls.val line wrote
      match rest with
      | [] => (let s := missFree x.2 c line; if x.1 then s else evEvict s a m.cls line)
      | q :: l => setCache x.2 c { cacheOf x.2 c with
          miss := (cacheOf x.2 c).miss.map (fun r => if r.line == line then { r with write := q.2, merged := l } else r) }) s

/-- R289: an agent takes a reply: it installs the line and sends CmpAck, or reports PROTOCOL. -/
def agentReply (s : State) (a : AgentId) (line : Nat) (k : RepKind) : State :=
  if !domainUp s then s
  else match findMsg s line (fun m => match m with | .rep k' (.agent b) _ _ => k' == k && b == a | _ => false) with
  | some (.rep k' dst d p) =>
    let s := takeMsg s line (.rep k' dst d p)
    let g := agentOf s a line
    match replyAct g.st k with
    | none => agentProtocol s a line (repCode k)
    | some st =>
      let g' := if k == .gntupg then { g with st := st } else if k == .wback then toSt g st else { g with st := st, data := d, poison := p }
      let s := setAgent s a line g'
      let s := if a = 16 ∧ st = .M then hostUsed s a line else s
      let s := creditBack s (agentDie a) line
      let s := if k == .wback then s else missFill s a line
      serveWait (sendMsg s line (.cmpack a)) a line
  | _ => s

/-- GNTS. -/
def execGnts (a : AgentId) (line : BitVec 34) (s : State) : Out := .next (agentReply s a line.toNat .gnts)
/-- GNTE. -/
def execGnte (a : AgentId) (line : BitVec 34) (s : State) : Out := .next (agentReply s a line.toNat .gnte)
/-- GNTM. -/
def execGntm (a : AgentId) (line : BitVec 34) (s : State) : Out := .next (agentReply s a line.toNat .gntm)
/-- GNTUPG. -/
def execGntupg (a : AgentId) (line : BitVec 34) (s : State) : Out := .next (agentReply s a line.toNat .gntupg)
/-- WBACK. -/
def execWback (a : AgentId) (line : BitVec 34) (s : State) : Out := .next (agentReply s a line.toNat .wback)

/-! Commands of homes. -/

/-- A request of an agent arrives at the home. R294: one from a die that holds no credit for it is a protocol error. -/
def agentArrives (s : State) (a : AgentId) (line : Nat) (k : ReqKind) : State :=
  if !domainUp s then s
  else match findMsg s line (fun m => match m with | .req r => r.who == .agent a && r.kind == k | _ => false) with
  | some (.req r) => homeArrive (takeMsg s line (.req r)) line r
  | _ => match homeIx s line with
    | some h => if credits s (agentDie a) h = 0 then homeProtocol s a.val line (reqCode k) else s
    | none => s

/-- RDS. -/
def execRds (a : AgentId) (line : BitVec 34) (s : State) : Out := .next (agentArrives s a line.toNat .rds)
/-- RDX. -/
def execRdx (a : AgentId) (line : BitVec 34) (s : State) : Out := .next (agentArrives s a line.toNat .rdx)
/-- UPG. -/
def execUpg (a : AgentId) (line : BitVec 34) (s : State) : Out := .next (agentArrives s a line.toNat .upg)
/-- WB. -/
def execWb (a : AgentId) (line : BitVec 34) (s : State) : Out := .next (agentArrives s a line.toNat .wb)

/-- R285, R294: a request that keeps no copy arrives from a die; from one that holds no credit it is a protocol error. The MG die sends
none. -/
def dieArrives (s : State) (die : DieId) (line : Nat) (r : Req) : State :=
  match domainUp s, homeIx s line with
  | true, some h =>
    if die.val = 19 ∨ credits s die.val h = 0 then homeProtocol s 31 line (reqCode r.kind)
    else homeArrive (setCredits s die.val h (credits s die.val h - 1)) line r
  | _, _ => s

/-- R266: the class of a request of a die that keeps no copy: a matrix die's movers or gather engines, the hub's I/O agent, else FABRIC. -/
def dieCls (die : DieId) (cls : Fin 32) : Fin 32 :=
  if die.val < 12 then (if cls = 26 then 26 else 27) else if die.val = 18 then 28 else 29

/-- RDCUR. -/
def execRdcur (die : DieId) (cls : Fin 32) (line : BitVec 34) (s : State) : Out :=
  .next (dieArrives s die line.toNat { who := .die die, kind := .rdcur, cls := dieCls die cls })
/-- WRFULL. -/
def execWrfull (die : DieId) (cls : Fin 32) (line : BitVec 34) (data : BitVec 512) (s : State) : Out :=
  .next (dieArrives s die line.toNat { who := .die die, kind := .wrfull, cls := dieCls die cls, data := toLE 64 data.toNat })
/-- WRPART. -/
def execWrpart (die : DieId) (cls : Fin 32) (line : BitVec 34) (mask : BitVec 64) (data : BitVec 512) (s : State) : Out :=
  .next (dieArrives s die line.toNat { who := .die die, kind := .wrpart, cls := dieCls die cls, data := toLE 64 data.toNat, mask := mask })
/-- ATOMIC_REQUEST. -/
def execAtomicRequest (die : DieId) (cls : Fin 32) (line : BitVec 34) (op : AtomicOp) (s : State) : Out :=
  .next (dieArrives s die line.toNat { who := .die die, kind := .atomic, cls := dieCls die cls, atomic := some op })

/-- SALVWR (R301, R294): the home writes a salvage line of the agent whose turn it is; outside salvage it is a protocol error. -/
def execSalvwr (a : AgentId) (line : BitVec 34) (s : State) : Out :=
  let l := line.toNat
  let g := agentOf s a l
  match s.coh.salvTurn with
  | none => .next (homeProtocol s a.val l 9)
  | some t =>
    if t = a.val ∧ a = 16 ∧ hostHolds s l false then .next (biStart s l 1)
    else if t = a.val ∧ isDirty g.st then
      .next (setAgent (lineWrite s l (agentOwnCls a).val allMask g.data g.poison) a l (if g.st = .MI ∨ g.st = .OI ∨ a = 16 then {} else { g with st := .S }))
    else .next s

/-- R292: an answer's notes. -/
def addNotes (s : State) (a : AgentId) (line : Nat) (k : AnsKind) : State :=
  { s with coh := { s.coh with
    wbxNotes := if ansWbx k then s.coh.wbxNotes ++ [(a.val, line)] else s.coh.wbxNotes
    upxNotes := if ansUpx k then s.coh.upxNotes ++ [(a.val, line)] else s.coh.upxNotes } }

/-- SNOOP_ANSWER (R291 to R294): the home takes the answer of an agent. -/
def execSnoopAnswer (a : AgentId) (line : BitVec 34) (s : State) : Out :=
  let l := line.toNat
  if !domainUp s then .next s
  else match findMsg s l (fun m => match m with | .ans _ b _ _ => b == a | _ => false) with
  | some (.ans k b d p) =>
    let s := takeMsg s l (.ans k b d p)
    let h := homeOf s l
    let snp := h.cur.bind (fun r => reqSnoop r.kind)
    let note := (a.val, l)
    let bad := h.st != .snoop || !h.waiting.contains a || !(snp.any (fun x => ansFits x k)) || (ansData k && h.data.isSome) ||
      (ansWbx k && s.coh.wbxNotes.contains note) || (ansUpx k && s.coh.upxNotes.contains note)
    if bad then .next (homeProtocol s a.val l (ansCode k))
    else
      let h' : HomeLine := { h with
        waiting := h.waiting.erase a
        sharer := h.sharer || k == .rspS || k == .rspOD
        data := if ansData k then some (d, p) else h.data
        wbx := h.wbx || (ansWbx k && ansData k) }
      let s := setHome (addNotes s a l k) l h'
      .next (if h'.waiting.isEmpty then homeCombine s l else s)
  | _ => .next s

/-- CMPACK (R293): the requester has installed the reply; the next queued request begins. -/
def execCmpack (a : AgentId) (line : BitVec 34) (s : State) : Out :=
  let l := line.toNat
  if !domainUp s ∨ (findMsg s l (· == .cmpack a)).isNone then .next s
  else
    let s := takeMsg s l (.cmpack a)
    let h := homeOf s l
    if h.st = .ack ∧ h.cur.any (fun r => r.who == .agent a) then .next (homeNext s l)
    else .next (homeProtocol s a.val l 0x25)

/-- MEM_READ_RETURN (R260, R293, R314): a home's memory read returns. It is verified but where a mover or gather engine consumes it. -/
def execMemReadReturn (line : BitVec 34) (chk : Check) (s : State) : Out :=
  let l := line.toNat
  let h := homeOf s l
  match h.cur with
  | none => .next s
  | some r =>
    let verify := match r.who with | .agent _ => true | .die d => decide (16 ≤ d.val) || r.kind != .rdcur
    if domainUp s ∧ needsData r.kind h.asRdx ∧ h.mem.isNone ∧ (h.st = .snoop ∨ h.st = .mem) ∧
        ((syscBlk s (l / 4)).isSome ∨ memHeld s (l / 4) = false) then
      let x := memRead s (l / 4) r.cls.val verify chk
      let d := slice x.1.data (l % 4 * 64) 64
      if h.st = .mem then .next (homeReply x.2 l d x.1.poison)
      else .next (setHome x.2 l { h with mem := some (d, x.1.poison) })
    else .next s

/-- CMP and DATACUR (R291): a requester that keeps no copy takes its reply. -/
def dieReply (s : State) (die : DieId) (line : Nat) (k : RepKind) : State :=
  match findMsg s line (fun m => match m with | .rep k' (.die d) _ _ => k' == k && d == die | _ => false) with
  | some (.rep k' dst d p) => { creditBack (takeMsg s line (.rep k' dst d p)) die.val line with resp := d ++ [BitVec.ofNat 8 (b2n p)] }
  | _ => s

/-- CMP. -/
def execCmp (die : DieId) (line : BitVec 34) (s : State) : Out := .next (if domainUp s then dieReply s die line.toNat .cmp else s)
/-- DATACUR. -/
def execDatacur (die : DieId) (line : BitVec 34) (s : State) : Out := .next (if domainUp s then dieReply s die line.toNat .datacur else s)

/-! Timeouts and domain-down. -/

/-- SNOOP_TIMEOUT (R293, R298). -/
def execSnoopTimeout (a : AgentId) (line : BitVec 34) (s : State) : Out :=
  let l := line.toNat
  let h := homeOf s l
  if domainUp s ∧ h.st = .snoop ∧ h.waiting.contains a then
    .next (domainDown s {
      cause := 1, agent := a.val, home := homeIx s l, line := l, atHome := true, st := 1,
      msg := ((h.cur.bind (fun r => reqSnoop r.kind)).map snpCode).getD 0 })
  else .next s

/-- The agent that a requester names in a record. -/
def reqrAgent : Reqr → Nat
  | .agent a => a.val
  | .die _ => 31

/-- ACK_TIMEOUT (R293, R298). -/
def execAckTimeout (line : BitVec 34) (s : State) : Out :=
  let l := line.toNat
  let h := homeOf s l
  if domainUp s ∧ h.st = .ack then
    .next (domainDown s {
      cause := 4, agent := (h.cur.map (fun r => reqrAgent r.who)).getD 31, home := homeIx s l, line := l,
      atHome := true, st := 3, msg := 0x25 })
  else .next s

/-- The agent on a die, if it has one. -/
def dieAgent (d : Nat) : Option AgentId := if h : d < 16 then some ⟨d, by omega⟩ else if d = 18 then some 16 else none

/-- R287: the code of the request that an agent in a transient state waits on. -/
def stReq : LineState → Option Nat
  | .IS => some 1 | .IM => some 2 | .SM | .OM | .IMU => some 3 | .MI | .OI | .II => some 8
  | .I | .S | .E | .O | .M => none

/-- R297: a request of the die for the line whose reply has not reached it: its code. Of a Cmp on its way without data only that it answers WrFull or WrPart is
known (a free value). -/
def outstanding (s : State) (die : DieId) (line : Nat) : Option Nat :=
  let mine := fun (r : Req) => match r.who with | .die d => d == die | .agent _ => false
  let h := homeOf s line
  let waiting := (s.coh.msgs.filterMap (fun m => match m.2 with | .req r => if m.1 = line ∧ mine r then some (reqCode r.kind) else none | _ => none)) ++
    ((h.queue.filter mine).map (fun r => reqCode r.kind)) ++
    (match h.cur with | some r => if mine r ∧ (h.st = .snoop ∨ h.st = .mem) then [reqCode r.kind] else [] | none => []) ++
    (s.coh.msgs.filterMap (fun m => match m.2 with
      | .rep .datacur (.die d) _ _ => if m.1 = line ∧ d = die then some 4 else none
      | .rep .cmp (.die d) x _ => if m.1 = line ∧ d = die then some (if x = [] then 5 + (fresh s).1.toNat % 2 else 7) else none
      | _ => none))
  ((dieAgent die.val).bind (fun a => stReq (agentOf s a line).st)).orElse (fun _ => waiting.head?)

/-- GRANT_TIMEOUT (R297, R298), also of an access that a lost link keeps from its home (R345), whose message code is free. -/
def execGrantTimeout (die : DieId) (line : BitVec 34) (s : State) : Out :=
  let l := line.toNat
  let lost := if lineReach s die.val l then none else some ((fresh s).1.toNat % 64)
  match domainUp s, (outstanding s die l).orElse (fun _ => lost) with
  | true, some m =>
    let a := dieAgent die.val
    .next (domainDown s {
      cause := 5, agent := (a.map (·.val)).getD 31, home := homeIx s l, line := l, msg := m,
      st := (a.map (fun a => lineStCode (agentOf s a l).st)).getD 0 })
  | _, _ => .next s

/-- FORCE_DOWN (R298, R303): COH.CMD.FORCE_DOWN with its key. -/
def execForceDown (key : BitVec 16) (s : State) : Out :=
  if key = 0xD5A7 then .next (domainDown s { cause := 8 }) else .next s

/-! Salvage and dump. -/

/-- R301: salvage starts. -/
def salvageStart (s : State) : State :=
  let s := wr (wr s .coh cohStatusSalvaging 1) .coh cohSalvFail 0
  { s with coh := { s.coh with salvTurn := some 0 } }

/-- SALVAGE (R301, R303): COH.CMD.SALVAGE while the domain is down; ignored while salvage runs or has completed. -/
def execSalvage (s : State) : Out :=
  if domainUp s ∨ s.coh.salvTurn.isSome ∨ rd s .coh cohStatusSalvaged = 1 ∨ s.coh.restarting then .next s else .next (salvageStart s)

/-- The lines that the host holds. -/
def hostLines (s : State) : List Nat :=
  s.coh.agents.filterMap (fun x => if x.1 / 2 ^ 34 = 16 ∧ hostTrk s (x.1 % 2 ^ 34) ≠ 0 then some (x.1 % 2 ^ 34) else none)

/-- R450, R448: every tracked line is back-invalidated. -/
def backInvalidateAll (s : State) : State := (hostLines s).foldl (fun s l => biStart s l 1) s

/-- R502: the UNIT of a WAY entry. -/
def cacheUnit (c : CacheId) : Nat :=
  match c with
  | .l3 d => d.val | .bcache b => 256 + b.val | .sysc st => 512 + st.val

/-- R275: the marks of a disabled way: WAYDIS, ON cleared, PG_ERR and PG_EVT, the ledger entry. -/
def wayMarkDisabled (s : State) (c : CacheId) (w : Nat) : State :=
  let p := c.page
  let s := wr (wr s p cacheWaydis (setBit (rd s p cacheWaydis) w)) p cacheWaypwr (clrBit (rd s p cacheWaypwr) w)
  ledgerNote (setEvt (raiseEach s p { bit := 17, unit := w, sev := some 0 }) p 18) 8 (cacheUnit c) w

/-- R447: the host has been lost, and none has claimed the port since. -/
def hostLostNow (s : State) : Bool :=
  rd s .host hostAttachAttached == 0 && decide (1 ≤ rd s .host hostAttachCause ∧ rd s .host hostAttachCause ≤ 3)

/-- R429, R446: the host link is up. HOST.LINK reports it (R451). -/
def hostUp (s : State) : Bool := s.hostPort.link.isSome

/-- R447: host space cannot be reached. -/
def hostGone (s : State) : Bool := !hostUp s || hostLostNow s

/-- Every coherent cache with a page. -/
def cohCaches : List CacheId := (List.finRange 4).map .l3 ++ (List.finRange 48).map .bcache

/-- R275, R303: a cache is emptied without write-back; what its background engine ran has ended, and a way that became disabled meanwhile is marked. -/
def cacheEmpty (s : State) (c : CacheId) : State :=
  let u := cacheOf s c
  u.disabling.foldl (fun s w => wayMarkDisabled s c w) (setCache s c { ceTimes := u.ceTimes })

/-- R303: step 1 done, the restart's steps 2 and 3: caches are invalidated without write-back, host-held lines back-invalidated while the host is there and the
window left orphaned where it is not, homes cleared, credits returned. -/
def restartClear (s : State) : State :=
  let s := cohCaches.foldl cacheEmpty s
  let s := { s with harts := mmapv {} (fun h => { h with l1i := {}, l1d := {}, l2 := {}, fills := [], ifills := [] }) s.harts }
  let s := if !hostGone s || (hostLines s).isEmpty then s else wr s .host hostAttachOrphaned 1
  let s := { s with
    coh := { s.coh with
      agents := if !hostGone s then s.coh.agents.filter (fun x => x.1 / 2 ^ 34 == 16 && hostTrk s (x.1 % 2 ^ 34) != 0) else []
      homes := [], msgs := [], tx := [], wbxNotes := [], upxNotes := [], credits := [], restarting := true, restartHeld := false }
    hostPort := if !hostGone s then { s.hostPort with bi := [] } else { s.hostPort with ways := [], plru := [], bi := [] } }
  backInvalidateAll (wr s .coh cohStatusRestarting 1)

/-- R301, R303: the next agent's turn, or the end of salvage; a restart that waited goes on. -/
def salvageNext (s : State) : State :=
  match s.coh.salvTurn with
  | none => s
  | some t =>
    if t < 16 then { s with coh := { s.coh with salvTurn := some (t + 1) } }
    else
      let s := { s with coh := { s.coh with salvTurn := none } }
      let s := setEvt (wr (wr s .coh cohStatusSalvaging 0) .coh cohStatusSalvaged 1) .coh 17
      if s.coh.restartHeld then restartClear s else s

/-- The dirty lines of an agent that salvage has not written. -/
def salvageLeft (s : State) (t : Nat) : Bool :=
  s.coh.agents.any (fun x => x.1 / 2 ^ 34 == t && isDirty x.2.st)

/-- SALVAGE_AGENT_DONE (R301): the agent whose turn it is has written its last dirty line. -/
def execSalvageAgentDone (s : State) : Out :=
  match s.coh.salvTurn with
  | some t => if salvageLeft s t then .next s else .next (salvageNext s)
  | none => .next s

/-- SALVAGE_AGENT_TIMEOUT (R301): the agent is marked in SALV_FAIL, and its dirty lines are lost. -/
def execSalvageAgentTimeout (s : State) : Out :=
  match s.coh.salvTurn with
  | some t =>
    let s := wr s .coh cohSalvFail (setBit (rd s .coh cohSalvFail) t)
    let s := raise s .coh { bit := 21, unit := t }
    let s := { s with coh := { s.coh with agents := s.coh.agents.filter (fun x => !(x.1 / 2 ^ 34 == t && isDirty x.2.st)) } }
    .next (salvageNext s)
  | none => .next s

/-- DUMP_ADDR_WRITE (R302): a block read starts, unless one runs. -/
def execDumpAddrWrite (addr : BitVec 64) (s : State) : Out :=
  if rd s .coh cohDumpStatBusy = 1 then .next s
  else
    let b := bits addr.toNat 39 8
    let s := wr (wr s .coh cohDumpAddr b) .coh cohDumpStatBusy 1
    .next { s with coh := { s.coh with dump := some (BitVec.ofNat 64 b) } }

/-- DUMP_DONE (R302): the block as stored, its side bits and the check of its CRC; an address outside the space sets RANGE. -/
def execDumpDone (s : State) : Out :=
  match s.coh.dump with
  | none => .next s
  | some b =>
    let k := b.toNat
    let s := wr s .coh cohDumpStatBusy 0
    let s := { s with coh := { s.coh with dump := none } }
    if !inDram s (256 * k) 256 then .next (wr s .coh cohDumpStatRange 1)
    else
      let x := match syscBlk s k with
        | some b => (b.data, syscSide b)
        | none => (dramData s k, dramSide s k)
      let s := { s with coh := { s.coh with dumpData := x.1 } }
      let s := wr (wr s .coh cohDumpStatRange 0) .coh cohDumpStatPoison (b2n (majority x.2.poison))
      let s := wr (wr s .coh cohDumpStatCrcBad (b2n (!crcGood x.1 x.2))) .coh cohDumpStatTag (tagRead x.2).toNat
      .next (wr s .coh cohDumpStatCrc (x.2.crc.getD (crc32c x.1)).toNat)

end Sys2Proof.Machine
end

