-- ==== Sys2Proof/Machine/Caches.lean ====
section
/-! DEFINITION. The caches with a page (R257 to R279): lookups, miss registers, way power, way disable, range operations. -/

namespace Sys2Proof.Machine

/-- R280: the agent of a coherent cache. -/
def cacheAgent : CacheId → Option AgentId
  | .l3 d => some ⟨12 + d.val, by omega⟩
  | .bcache b => some ⟨b.val / 4, by omega⟩
  | .sysc _ => none

/-- BG_STAT and BUSY follow what the background engine runs (R274). -/
def bgStat (s : State) (c : CacheId) : State :=
  let u := cacheOf s c
  let p := c.page
  let r := u.range.isSome
  let w := !u.cleaning.isEmpty
  let h := u.held.isSome
  wr (wr (wr (wr s p cacheBgStatRangeBusy (b2n r)) p cacheBgStatWayBusy (b2n w)) p cacheBgStatHeld (b2n h)) p hdrBusy (b2n (r || w || h))

/-- R269, R275: a way starts being cleaned. -/
def wayClean (s : State) (c : CacheId) (w : Nat) : State :=
  let u := cacheOf s c
  bgStat (setCache s c { u with cleaning := if u.cleaning.contains w then u.cleaning else u.cleaning ++ [w] }) c

/-- R259, R275: a corrected error in way `w`: counted, and the fourth within an hour disables the way. -/
def wayCorrected (s : State) (c : CacheId) (w : Nat) : State :=
  let p := c.page
  let s := satAdd (satAdd s p cacheCeCount 1) p (cacheCeway w) 1
  let now := rd s .hub hubTimer
  let u := cacheOf s c
  let times := mget [] u.ceTimes w ++ [now]
  let times := times.drop (times.length - 4)
  let s := setCache s c { u with ceTimes := mset [] u.ceTimes w times }
  if times.length = 4 ∧ now - times.headD now ≤ 360000000000 ∧ !bitOf (rd s p cacheWaydis) w then
    if u.cleaning.contains w then
      setCache s c { cacheOf s c with disabling := if u.disabling.contains w then u.disabling else u.disabling ++ [w] }
    else wayClean (wayMarkDisabled s c w) c w
  else s

/-- The place of a block's line in a system cache, or the line's set slot in a coherent cache; the number kept for the line. -/
def lookupKey (s : State) (c : CacheId) (line : Nat) : Option (Nat × Nat) :=
  match c with
  | .sysc st => match placeOf s (line / 4) with
    | some p => if p.st = st then some (syscSlot p, line / 4) else none
    | none => none
  | c => some (lineSlot c line, line)

/-- R259: an uncorrectable data error in way `w` of the line looked up: a clean line is invalidated and fetched again, a dirty one, or a
system-cache line whose DRAM copy is older, is marked poisoned. -/
def dataUe (s : State) (c : CacheId) (k l line w : Nat) : State :=
  let p := c.page
  let s := satAdd s p cacheUeCount 1
  let bad := fun (s : State) => raise s p { bit := 16, addr := some (if (cacheAgent c).isSome then 64 * line else 256 * l) }
  match wayLine s c k w with
  | none => s
  | some e =>
    if e.line ≠ l then s
    else match cacheAgent c with
    | some a =>
      let g := agentOf s a line
      if isDirty g.st then bad (setAgent s a line { g with poison := true })
      else evictCopy (waySet s c k w none) a (agentOwnCls a).val line
    | none => match syscBlk s l with
      | none => s
      | some b =>
        if b.dirty then bad (setSysc s l (some { b with side := { b.side with poison := 7 } }))
        else setSysc (waySet s c k w none) l none

/-- R263, R265: an older request at the slice input keeps this one waiting: one for the same line, or, where this one needs a miss register, one of its
class that waits for one. -/
def inputAhead (s : State) (c : CacheId) (older : List (Fin 32 × Nat × Bool)) (cls : Fin 32) (line : Nat) (needs : Bool) : Bool :=
  older.any (fun x => x.2.1 == line || (needs && x.1 == cls && !(cacheOf s c).miss.any (fun m => m.line == ((lookupKey s c x.2.1).elim x.2.1 (·.2)))))

/-- CACHE_LOOKUP (R259, R263 to R267): a slice looks up a request: a hit touches its way; a miss of a line that the agent may use already takes it at once;
another merges into the line's register, or takes one and starts its fill, or waits at the slice input, where it keeps its place. -/
def execCacheLookup (c : CacheId) (cls : Fin 32) (line : BitVec 34) (write : Bool) (ecc : Ecc) (s : State) : Out :=
  let p := c.page
  let n := line.toNat
  if pgState s p ≠ 4 then .next s
  else match lookupKey s c n with
  | none => .next s
  | some (k, l) =>
    match ecc with
    | .tagUe => .next (domainDown s {
        cause := 3, agent := ((cacheAgent c).map (·.val)).getD 31, home := homeIx s n, line := n, atHome := (cacheAgent c).isNone })
    | _ =>
      let s := match ecc with
        | .corrected w => if w.val < p.ways then wayCorrected s c w.val else s
        | .dataUe w => if w.val < p.ways then dataUe s c k l n w.val else s
        | _ => s
      let u := cacheOf s c
      let me := (cls, n, write)
      let older := u.inputs.takeWhile (· != me)
      let wait := if u.inputs.contains me then s else setCache s c { u with inputs := u.inputs ++ [me] }
      let goes := setCache s c { u with inputs := u.inputs.erase me }
      let event := fun (s : State) => match cacheAgent c with
        | some a => if write then evStore s a n else evLoad s a n
        | none => s
      let has := match cacheAgent c with
        | some a => let st := (agentOf s a n).st; if write then st == .E || st == .M else keepsData st && st != .MI && st != .OI
        | none => false
      match wayFind s c k l, u.miss.find? (fun m => m.line == l) with
      | some w, none =>
        if inputAhead s c older cls n false then .next wait
        else if write && (cacheAgent c).isSome && !has then
          if p.missRegs ≤ u.miss.length ∨ missShare c ≤ u.miss.countP (fun m => m.cls == cls) ∨ inputAhead s c older cls n true then .next wait
          else .next (event (setCache goes c { cacheOf goes c with miss := u.miss ++ [{ line := l, cls := cls, write := true }] }))
        else
          let s := event (wayTouch goes c k w)
          .next (if write && (cacheAgent c).isSome then waySet s c k w (some { line := l, dirty := true }) else s)
      | _, some m =>
        if m.merged.length < 8 ∧ !inputAhead s c older cls n false then
          .next (event (setCache goes c { cacheOf goes c with
            miss := u.miss.map (fun x => if x.line == l then { x with merged := x.merged ++ [(cls, write)] } else x) }))
        else .next wait
      | none, none =>
        if inputAhead s c older cls n (!has) then .next wait
        else if has then match cacheAgent c with
          | some a => .next (cacheInstall (event goes) c a cls.val n write).2
          | none => .next wait
        else if p.missRegs ≤ u.miss.length ∨ missShare c ≤ u.miss.countP (fun m => m.cls == cls) then .next wait
        else .next (event (setCache goes c { cacheOf goes c with miss := u.miss ++ [{ line := l, cls := cls, write := write }] }))

/-- WAY_POWER_DOWN (R269): writing 0 to a bit of WAYPWR.ON that reads 1. -/
def execWayPowerDown (c : CacheId) (way : Fin 24) (s : State) : Out :=
  let p := c.page
  if way.val < p.ways ∧ bitOf (rd s p cacheWaypwr) way.val then
    let s := wr s p cacheWaypwr (clrBit (rd s p cacheWaypwr) way.val)
    .next (if bitOf (rd s p cacheWaystat) way.val then wayClean s c way.val else s)
  else .next s

/-- WAY_POWER_UP (R270): writing 1 to a bit of WAYPWR.ON that reads 0; ignored for a disabled way. -/
def execWayPowerUp (c : CacheId) (way : Fin 24) (s : State) : Out :=
  let p := c.page
  if way.val < p.ways ∧ !bitOf (rd s p cacheWaypwr) way.val ∧ !bitOf (rd s p cacheWaydis) way.val then
    .next (wr s p cacheWaypwr (setBit (rd s p cacheWaypwr) way.val))
  else .next s

/-- A visit of the background engine drops one line: dirty data is written back, whichever other cache of the agent holds the line too. -/
def dropLine (s : State) (c : CacheId) (key : Nat) (e : CacheLine) : State :=
  match cacheAgent c with
  | some a =>
    let s := cleanCopy s a e.line
    evictCopy (setCache s c { cacheOf s c with lines := mset none (cacheOf s c).lines key none }) a (agentOwnCls a).val e.line
  | none => match placeOf s e.line with
    | some p => syscDrop (syscClean s p e.line) p e.line
    | none => s

/-- A line the cache holds that a transaction occupies: its visit waits. -/
def visitBusy (s : State) (c : CacheId) (e : CacheLine) : Bool :=
  match cacheAgent c with
  | some a => lineBusy s (agentDie a) e.line false
  | none => false

/-- WAY_OFF (R269, R275): every set of the way has been visited and its write-backs acknowledged. -/
def execWayOff (c : CacheId) (way : Fin 24) (s : State) : Out :=
  let w := way.val
  let p := c.page
  let u := cacheOf s c
  let mine := u.lines.filterMap (fun x => match x.2 with | some e => if x.1 % 32 = w then some (x.1, e) else none | none => none)
  if !u.cleaning.contains w ∨ mine.any (fun x => visitBusy s c x.2) ∨ pgState s p ≠ 4 then .next s
  else
    let s := mine.foldl (fun s x => dropLine s c x.1 x.2) s
    let s := wr s p cacheWaystat (clrBit (rd s p cacheWaystat) w)
    let s := setCache s c { cacheOf s c with cleaning := u.cleaning.filter (· != w), disabling := u.disabling.filter (· != w) }
    let s := setEvt s p 17
    .next (bgStat (if u.disabling.contains w then wayMarkDisabled s c w else s) c)

/-- WAY_ON (R270): 256 steps after its power-up, and not before its cleaning has ended, the way enters service with every line invalid. -/
def execWayOn (c : CacheId) (way : Fin 24) (s : State) : Out :=
  let p := c.page
  if way.val < p.ways ∧ bitOf (rd s p cacheWaypwr) way.val ∧ !bitOf (rd s p cacheWaystat) way.val ∧ !(cacheOf s c).cleaning.contains way.val then
    .next (wr s p cacheWaystat (setBit (rd s p cacheWaystat) way.val))
  else .next s

/-- WAYMASK_WRITE (R266, R268): the mask of a class that reaches the cache. -/
def execWaymaskWrite (c : CacheId) (cls : Fin 32) (mask : BitVec 24) (s : State) : Out :=
  if c.page.reaches cls.val then .next (wr s c.page (cacheWaymask cls.val) (mask.toNat % 2 ^ c.page.ways)) else .next s

/-- R271, R274: a RANGE_CMD write: it starts, or is held, or waits, with the register values of its write. -/
def rangeStart (s : State) (c : CacheId) (op : BitVec 2) : State :=
  if op = 0 then s
  else
    let u := cacheOf s c
    let r : RangeCmd := {
      op := op, base := BitVec.ofNat 64 (64 * rd s c.page cacheRangeBase), size := BitVec.ofNat 64 (64 * rd s c.page cacheRangeSize) }
    bgStat (setCache s c
      (if u.range.isNone then { u with range := some r } else if u.held.isNone then { u with held := some r }
       else { u with waiting := u.waiting ++ [r] })) c

/-- RANGE_CLEAN. -/
def execRangeClean (c : CacheId) (s : State) : Out := .next (rangeStart s c 1)
/-- RANGE_INVALIDATE. -/
def execRangeInvalidate (c : CacheId) (s : State) : Out := .next (rangeStart s c 2)
/-- RANGE_CLEAN_INV. -/
def execRangeCleanInv (c : CacheId) (s : State) : Out := .next (rangeStart s c 3)

/-- R271: what a range operation does to one line present in the cache, kept at `key`. -/
def rangeLine (s : State) (c : CacheId) (r : RangeCmd) (key : Nat) (e : CacheLine) : State :=
  let lo := r.base.toNat
  let hi := lo + r.size.toNat
  match cacheAgent c with
  | some a =>
    if lo ≤ 64 * e.line ∧ 64 * e.line < hi then
      if r.op = 1 then
        let s := cleanCopy s a e.line
        setCache s c { cacheOf s c with lines := mset none (cacheOf s c).lines key (some { e with dirty := false }) }
      else dropLine s c key e
    else s
  | none =>
    let a := 256 * e.line
    if a < hi ∧ lo < a + 256 ∧ lo < hi then match placeOf s e.line with
      | some p =>
        if r.op = 1 then syscClean s p e.line
        else if r.op = 2 ∧ lo ≤ a ∧ a + 256 ≤ hi then syscDrop s p e.line
        else dropLine s c key e
      | none => s
    else s

/-- RANGE_DONE (R272 to R274): the visits end, and every write-back of the range has been acknowledged; the held command starts. -/
def execRangeDone (c : CacheId) (s : State) : Out :=
  let u := cacheOf s c
  match u.range with
  | none => .next s
  | some r =>
    let ls := u.lines.filterMap (fun x => x.2.map (fun e => (x.1, e)))
    let inR := fun (e : CacheLine) => decide (r.base.toNat ≤ 64 * e.line) && decide (64 * e.line < r.base.toNat + r.size.toNat)
    let back : Bool := match cacheAgent c with
      | some a => s.coh.agents.any (fun x => x.1 / 2 ^ 34 == a.val && inR { line := x.1 % 2 ^ 34 } && [LineState.MI, .OI, .II].contains x.2.st)
      | none => false
    if pgState s c.page ≠ 4 ∨ back ∨ ls.any (fun x => inR x.2 && visitBusy s c x.2) then .next s
    else
      let s := ls.foldl (fun s x => rangeLine s c r x.1 x.2) s
      let u := cacheOf s c
      let s := setCache s c { u with range := u.held, held := u.waiting.head?, waiting := u.waiting.drop 1 }
      .next (bgStat (setEvt (wrapAdd s c.page cacheRangeDone 1) c.page 16) c)

end Sys2Proof.Machine
end

