-- ==== Sys2Proof/Machine/Vector.lean ====
section
/-! DEFINITION. The vector engine (R127 to R156): descriptors, element programs, spans, summaries. -/

namespace Sys2Proof.Machine

/-- R133, R135: the lane types: FP32, INT32, FP64. -/
inductive LaneTy where
  | fp32 | int32 | fp64
deriving DecidableEq, Repr

/-- R135: a TYPE field. -/
def laneTy (n : Nat) : Option LaneTy :=
  match n with | 0 => some .fp32 | 1 => some .int32 | 2 => some .fp64 | _ => none

/-- The layout of a floating lane type (FP32 for INT32, which has none). -/
def LaneTy.flt : LaneTy → FFmt
  | .fp64 => f64 | _ => f32

/-- R133: the lane type of a stream format. -/
def laneOf (f : Fmt) : LaneTy :=
  if f.form = .plain then
    match f.el with | .fp64 => .fp64 | .int32 | .int16 | .int8 => .int32 | _ => .fp32
  else .fp32

/-- The value of lane bits. -/
def laneVal (t : LaneTy) (c : Nat) : Val :=
  match t with | .fp32 => decF f32 (c % 2 ^ 32) | .fp64 => decF f64 c | .int32 => decI 32 c

/-- R138: conversion to a lane type: IEEE overflow to an infinity, INT32 saturating with 0 for NaN. -/
def toLane (t : LaneTy) (v : Val) : Nat :=
  match t with
  | .int32 => (cvtPlain .int32 .rne v).code
  | t => (roundV t.flt .rne v).1

/-- R135: the fields of a micro-operation word. -/
structure MicroOp where
  opc : Nat
  guard : Nat
  dst : Nat
  a : Nat
  b : Nat
  c : Nat
  ty : Nat
deriving DecidableEq, Repr

/-- R135: a word's fields. -/
def microOf (w : Nat) : MicroOp :=
  ⟨bits w 31 26, bits w 25 22, bits w 21 17, bits w 16 12, bits w 11 7, bits w 6 2, bits w 1 0⟩

/-- R136: a comparison or predicate operation. -/
def isPredOp (o : Nat) : Bool := decide (0x28 ≤ o ∧ o ≤ 0x2E)

/-- R136: the types an operation allows; none for a reserved OPC. -/
def opTypes (o : Nat) : Option (List Nat) :=
  if o = 0x01 ∨ o = 0x0C ∨ o = 0x18 then some [0, 1, 2]
  else if (0x02 ≤ o ∧ o ≤ 0x0B) ∨ (0x28 ≤ o ∧ o ≤ 0x2A) ∨ (0x2C ≤ o ∧ o ≤ 0x2E) then some [0, 1, 2]
  else if o = 0x10 ∨ o = 0x12 ∨ o = 0x15 ∨ o = 0x16 ∨ o = 0x2B then some [0, 2]
  else if o = 0x11 ∨ o = 0x13 ∨ o = 0x14 then some [0]
  else if 0x20 ≤ o ∧ o ≤ 0x25 then some [1, 2]
  else none

/-- R136: how many of a, b, c an operation reads as value operands. -/
def opArity (o : Nat) : Nat :=
  if o = 0 ∨ (0x2C ≤ o ∧ o ≤ 0x2E) then 0
  else if o = 0x05 ∨ o = 0x06 ∨ o = 0x0B then 3
  else if o = 0x01 ∨ o = 0x09 ∨ o = 0x0A ∨ (0x10 ≤ o ∧ o ≤ 0x15) ∨ o = 0x18 ∨ o = 0x2B then 1
  else 2

/-- The source codes a word reads as values. -/
def readCodes (m : MicroOp) : List Nat := [m.a, m.b, m.c].take (opArity m.opc)

/-- R137: whether the engine refuses a word, given the formats of I0 to I3 and of O0 and O1. -/
def microBad (fi fo : List Nat) (m : MicroOp) : Bool :=
  if m.opc = 0 then false
  else match opTypes m.opc with
  | none => true
  | some ts =>
    !ts.contains m.ty || m.dst == 18 || m.dst == 19 || decide (24 ≤ m.dst) ||
    (decide (20 ≤ m.dst) != isPredOp m.opc) ||
    (readCodes m).any (fun c => decide (16 ≤ c ∧ c < 20) && fi.getD (c - 16) 0 == 0) ||
    (decide (16 ≤ m.dst ∧ m.dst < 18) && fo.getD (m.dst - 16) 0 == 0) ||
    ((m.opc == 0x0C || m.opc == 0x18) && decide (4 ≤ m.c)) || (m.opc == 0x18 && m.c == 3) ||
    (decide (0x2C ≤ m.opc) && (decide (4 ≤ m.a) || (m.opc != 0x2E && decide (4 ≤ m.b))))

/-- R134: what the program holds for one element. -/
structure ElemSt where
  t : List Nat := List.replicate 16 0
  tt : List LaneTy := List.replicate 16 .fp32
  p : List Bool := [false, false, false, false]
  o : List (Nat × LaneTy) := [(0, .fp32), (0, .fp32)]
  flags : Nat := 0
deriving DecidableEq, Repr

/-- What an element program reads besides its temporaries: inputs, summary operands, constants. -/
structure ElemIn where
  ins : List Nat
  sums : List (BitVec 64)
  counts : List Bool
  consts : List (BitVec 64)
deriving DecidableEq, Repr

/-- R135: a source operand read in a type. -/
def srcRead (x : ElemIn) (e : ElemSt) (t : LaneTy) (c : Nat) : Nat :=
  let cut := fun v => if t = .fp64 then v % 2 ^ 64 else v % 2 ^ 32
  if c < 16 then cut (e.t.getD c 0)
  else if c < 20 then cut (x.ins.getD (c - 16) 0)
  else if c < 24 then
    let v := (x.sums.getD (c - 20) 0).toNat
    toLane t (if x.counts.getD (c - 20) false then ofI v else decF f64 v)
  else cut ((x.consts.getD (c - 24) 0).toNat)

/-- R138: MIN (or MAX): the operand that is not NaN when one is, −0 below +0. -/
def laneMin (mx : Bool) (f : FFmt) (a b : Nat) : Nat :=
  let va := decF f a
  let vb := decF f b
  if va.isNan && vb.isNan then f.nan.getD 0
  else if va.isNan then b else if vb.isNan then a
  else
    let less := va.lt vb || (va.isZero && vb.isZero && va.sgn && !vb.sgn)
    if less != mx then a else b

/-- R138: 1/√a rounded once. -/
def rsqV (f : FFmt) : Val → Nat
  | .nan => f.nan.getD 0
  | .inf s => if s then f.nan.getD 0 else 0
  | .fin s m e =>
    if m = 0 then (roundV f .rne (.inf s)).1
    else if s then f.nan.getD 0
    else
      let x := if e % 2 = 0 then (m, e) else (2 * m, e - 1)
      let r := isqrt (2 ^ 512 / x.1)
      (roundRat f .rne false (2 * r + (if r * r * x.1 = 2 ^ 512 then 0 else 1)) 1 (-256 - x.2 / 2 - 1)).1

/-- R138: an FP32 code within 1 unit in the last place of the positive number n·2^e, or, unless `exact`, of one just above it: the next code
at or below it, the one after, or the one before where it is as near. `pick` is the implementation's choice (log 120). -/
def ulpPick (pick n : Nat) (e : Int) (exact : Bool) : Nat :=
  let t := (roundRat f32 .rtz false n 1 e).1
  let near := match decF f32 t with
    | .fin _ m g => decide (0 < m) && (exact || (m == 2 ^ 23 && decide (2 ^ 24 ≤ t) && leMag n e (2 * m + 1) (g - 1)))
    | _ => false
  if pick % 3 = 1 then t + 1 else if pick % 3 == 2 && near then t - 1 else t

/-- 2^(fr/2^149) · 2^256, rounded down, for fr < 2^149: the product of the square roots of 2 that the bits of fr select. -/
def exp2Frac (fr : Nat) : Nat :=
  ((List.range 149).foldl (fun (x : Nat × Nat) j =>
    let root := isqrt (x.1 * 2 ^ 256)
    (root, if bitOf fr (148 - j) then x.2 * root / 2 ^ 256 else x.2)) (2 ^ 257, 2 ^ 256)).2

/-- log2(x/2^300) · 2^128, rounded down, for 2^300 ≤ x < 2^301: repeated squaring gives one bit each time. -/
def log2Frac (x : Nat) : Nat :=
  ((List.range 128).foldl (fun (v : Nat × Nat) _ =>
    let q := v.1 * v.1 / 2 ^ 300
    if 2 ^ 301 ≤ q then (q / 2, 2 * v.2 + 1) else (q, 2 * v.2)) (x, 0)).2

/-- R136, R138: EXP2: overflow gives an infinity; any other finite input a code within 1 unit in the last place. -/
def exp2V (a : Nat) : Nat :=
  match decF f32 a with
  | .nan => 0x7FC00000 | .inf s => if s then 0 else 0x7F800000
  | .fin s m e =>
    let u := m * 2 ^ (e + 149).toNat
    let i : Int := (if s then -(u : Int) else u) / (2 ^ 149 : Nat)
    let fr := ((if s then -(u : Int) else u) % (2 ^ 149 : Nat)).toNat
    if 128 ≤ i then 0x7F800000 else ulpPick (Config.exp2 (BitVec.ofNat 32 a)).toNat (exp2Frac fr) (max i (-400) - 256) (fr == 0)

/-- R136, R138: LOG2: of a positive finite input, a code within 1 unit in the last place; of 1, +0. -/
def log2V (a : Nat) : Nat :=
  match decF f32 a with
  | .nan => 0x7FC00000 | .inf s => if s then 0x7FC00000 else 0x7F800000
  | .fin s m e =>
    if m = 0 then 0xFF800000 else if s then 0x7FC00000
    else
      let l := Nat.log2 m
      let fr := log2Frac (m * 2 ^ (300 - l))
      let exact := m == 2 ^ l
      let v : Int := ((l : Int) + e) * (2 ^ 128 : Nat) + (fr : Int)
      if v = 0 ∧ exact then 0
      else
        let mag := if v < 0 then (-v).toNat - (if exact then 0 else 1) else v.toNat
        (if v < 0 then 2 ^ 31 else 0) + ulpPick (Config.log2 (BitVec.ofNat 32 a)).toNat mag (-128) exact

/-- R136: the floating results of an operation on operand codes. -/
def fltOp (f : FFmt) (o a b c bi : Nat) : Nat :=
  let va := decF f a
  let vb := decF f b
  let vc := decF f c
  let r := fun v => (roundV f .rne v).1
  if o = 0x02 then r (Val.add false va vb)
  else if o = 0x03 then r (Val.add false va vb.neg)
  else if o = 0x04 then r (Val.mul va vb)
  else if o = 0x05 then r (Val.add false (Val.mul va vb) vc)
  else if o = 0x06 then r (Val.add false (Val.mul va vb).neg vc)
  else if o = 0x07 then laneMin false f a b
  else if o = 0x08 then laneMin true f a b
  else if o = 0x09 then r va.abs
  else if o = 0x0A then r va.neg
  else if o = 0x0B then laneMin false f (laneMin true f a b) c
  else if o = 0x10 then (divV f .rne (.fin false 1 0) va).1
  else if o = 0x11 then rsqV f va
  else if o = 0x12 then (sqrtV f .rne va).1
  else if o = 0x13 then exp2V a
  else if o = 0x14 then log2V a
  else if o = 0x15 then
    match va with
    | .fin s m e => let u := inUnits m 1 e 0; r (.fin s (roundQ .rne s u.1 u.2) 0)
    | v => r v
  else
    match va with
    | .fin s m e => r (.fin s m (e + toInt 32 bi))
    | v => r v

/-- R136: the integer results of an operation. -/
def intOp (o a b c : Nat) : Nat :=
  let x := toInt 32 a
  let y := toInt 32 b
  let z := toInt 32 c
  ofInt 32 (
    if o = 0x02 then x + y else if o = 0x03 then x - y else if o = 0x04 then x * y else if o = 0x05 then x * y + z
    else if o = 0x06 then z - x * y else if o = 0x07 then min x y else if o = 0x08 then max x y else if o = 0x09 then x.natAbs
    else if o = 0x0A then -x else min (max x y) z)

/-- R136: AND, OR, XOR and the shifts on `w` bits. -/
def bitOp (w o a b : Nat) : Nat :=
  let n := b % 64
  (if o = 0x20 then a &&& b else if o = 0x21 then a ||| b else if o = 0x22 then a ^^^ b
   else if o = 0x23 then a * 2 ^ n else if o = 0x24 then a / 2 ^ n
   else ofInt w (toInt w a / (2 ^ n : Nat))) % 2 ^ w

/-- R141: the flags of a floating operation: INV 1, DZ 2, OVF 4. -/
def fltFlags (f : FFmt) (o : Nat) (ops : List Nat) (res : Nat) : Nat :=
  let vs := ops.map (decF f)
  let fin := fun (v : Val) => match v with | .fin _ _ _ => true | _ => false
  let inv := (decF f res).isNan && vs.all (fun v => !v.isNan)
  let dz := (o == 0x10 || o == 0x11 || o == 0x14) && (vs.headD .nan).isZero
  let ovf := (match decF f res with | .inf _ => true | _ => false) && vs.all fin
  b2n inv + 2 * b2n dz + 4 * b2n ovf

/-- R139: a micro-operation takes effect for an active element. -/
def guardOk (m : MicroOp) (e : ElemSt) : Bool :=
  !bitOf m.guard 3 || (e.p.getD (m.guard % 4) false != bitOf m.guard 2)

/-- R134: a result written to its destination. -/
def elemWrite (e : ElemSt) (dst : Nat) (t : LaneTy) (v : Nat) : ElemSt :=
  if dst < 16 then { e with t := e.t.set dst v, tt := e.tt.set dst t } else { e with o := e.o.set (dst - 16) (v, t) }

/-- R134 to R141: one micro-operation on one element. -/
def microStep (x : ElemIn) (e : ElemSt) (m : MicroOp) : ElemSt :=
  if m.opc = 0 || !guardOk m e then e
  else
    let t := (laneTy m.ty).getD .fp32
    let a := srcRead x e t m.a
    let b := srcRead x e t m.b
    let c := srcRead x e t m.c
    if 0x2C ≤ m.opc then
      let pa := e.p.getD m.a false
      let pb := e.p.getD m.b false
      { e with p := e.p.set (m.dst - 20) (if m.opc = 0x2C then pa && pb else if m.opc = 0x2D then pa || pb else !pa) }
    else if 0x28 ≤ m.opc then
      let va := laneVal t a
      let vb := laneVal t b
      let un := va.isNan || vb.isNan
      let r := if m.opc = 0x2B then va.isNan else if un then false
        else if m.opc = 0x28 then !va.lt vb && !vb.lt va else if m.opc = 0x29 then va.lt vb else !vb.lt va
      { e with p := e.p.set (m.dst - 20) r }
    else if m.opc = 0x01 then elemWrite e m.dst t a
    else if m.opc = 0x0C then elemWrite e m.dst t (if e.p.getD (m.c % 4) false then a else b)
    else if m.opc = 0x18 then
      let st := (laneTy (m.c % 4)).getD .fp32
      let v := laneVal st (srcRead x e st m.a)
      let r := toLane t v
      let fl := match t with
        | .int32 => b2n (cvtPlain .int32 .rne v).sat
        | t => match v, laneVal t r with | .fin _ _ _, .inf _ => 4 | _, _ => 0
      { elemWrite e m.dst t r with flags := e.flags ||| fl }
    else if 0x20 ≤ m.opc then elemWrite e m.dst t (bitOp (if t = .fp64 then 64 else 32) m.opc a b)
    else match t with
    | .int32 => elemWrite e m.dst t (intOp m.opc a b c)
    | t =>
      let bi := b % 2 ^ 32
      let r := fltOp t.flt m.opc a b c bi
      let ops := if m.opc = 0x16 then [a] else [a, b, c].take (opArity m.opc)
      { elemWrite e m.dst t r with flags := e.flags ||| fltFlags t.flt m.opc ops r }

/-- R129: descriptor fields used below. -/
def vpdFmtI (d : List Byte) : List Nat := (List.range 4).map (fun i => fieldAt d i 1)
/-- R129: FMT_O0, FMT_O1. -/
def vpdFmtO (d : List Byte) : List Nat := (List.range 2).map (fun i => fieldAt d (4 + i) 1)
/-- R129: NOPS. -/
def vpdNops (d : List Byte) : Nat := fieldAt d 6 1 % 64
/-- R130: the start of input `i`. -/
def vpdInStart (d : List Byte) (op : VecOp) (i : Nat) : Int :=
  op.in0.toNat * 64 + (if i = 0 then 0 else toInt 32 (fieldAt d (16 + 4 * i) 4))
/-- R130: the start of output `k`. -/
def vpdOutStart (d : List Byte) (op : VecOp) (k : Nat) : Int :=
  op.out0.toNat * 64 + (if k = 0 ∨ fieldAt d 4 1 = 0 then 0 else toInt 32 (fieldAt d 32 4))
/-- R130: the start of the mask stream. -/
def vpdMaskStart (d : List Byte) (op : VecOp) : Int :=
  op.in0.toNat * 64 + (if fieldAt d 0 1 = 0 then 0 else toInt 32 (fieldAt d 36 4))
/-- R129: MASK_EN. -/
def vpdMaskEn (d : List Byte) : Bool := bitOf (fieldAt d 7 1) 1
/-- R129: PROG_ADDR. -/
def vpdProg (d : List Byte) : Nat := fieldAt d 16 4

/-- R130: a range a pass touches. -/
def vecRange (start : Int) (len : Nat) : Bool := len == 0 || (decide (0 ≤ start) && inStore start.toNat len && !inColl start.toNat len)

/-- The bytes that `n` elements of a code take (0 for an unused stream). -/
def codeBytes (code n : Nat) : Nat := match fmtOf code with | none => 0 | some f => runBytes f n

/-- R130, R137: the decode checks of a pass: PG_ERR bit and DETAIL[7:0]. `prog` is the program as read. -/
def passCheck (d : List Byte) (op : VecOp) (prog : List MicroOp) : Option (Nat × Nat) :=
  let fi := vpdFmtI d
  let fo := vpdFmtO d
  let n := op.n.toNat
  let f0 := fieldAt d 7 1
  let badFmt := (List.range 6).find? (fun i => let c := fieldAt d i 1; c != 0 && (fmtOf c).isNone)
  let sumRead := fun k => prog.any (fun m => (readCodes m).contains (20 + k))
  let blockO := fun k => (fmtOf (fo.getD k 0)).any (fun f => f.form != .plain)
  let align := fun code => if code = 1 then 8 else 4
  let nesc := fun k => bits (fieldAt d (9 + k) 1) 3 2
  if 32 < vpdNops d then some (18, 32)
  else match badFmt with
  | some i => some (16, i)
  | none =>
    if n = 0 ∨ vpdNops d = 0 then none
    else
      let used := fun c => c != 0
      let ins := (List.range 4).map (fun i =>
        (used (fi.getD i 0) && (vpdInStart d op i % align (fi.getD i 0) != 0 || !vecRange (vpdInStart d op i) (codeBytes (fi.getD i 0) n)),
          if i = 0 then 0x43 else 16 + 4 * i))
      let outBad := fun k => used (fo.getD k 0) &&
        (vpdOutStart d op k % align (fo.getD k 0) != 0 || !vecRange (vpdOutStart d op k) (codeBytes (fo.getD k 0) n))
      let sentBad := fun k => used (fo.getD k 0) && bitOf (fieldAt d 13 1) k &&
        (let a := vpdOutStart d op k + toInt 32 (fieldAt d (40 + 4 * k) 4)
         a % 4 != 0 || !vecRange a (4 * ((n + 4095) / 4096)))
      let maskBad := vpdMaskEn d && (vpdMaskStart d op % 4 != 0 || !vecRange (vpdMaskStart d op) ((n + 7) / 8))
      let list : List (Bool × Nat) := [
        (!bitOf f0 2 && (blockO 0 || blockO 1), 7),
        (used (fo.getD 0 0) && nesc 0 != 0 && !((fmtOf (fo.getD 0 0)).any (fun f => f.form != .plain && f.el.side)), 9),
        (used (fo.getD 1 0) && nesc 1 != 0 && !((fmtOf (fo.getD 1 0)).any (fun f => f.form != .plain && f.el.side)), 10),
        (used (fo.getD 0 0) && bits (fieldAt d 9 1) 1 0 == 1 && fieldAt d 11 1 == 0x80, 11),
        (used (fo.getD 1 0) && bits (fieldAt d 10 1) 1 0 == 1 && fieldAt d 12 1 == 0x80, 12),
        (vpdProg d % 4 != 0 || !vecRange (vpdProg d) (4 * vpdNops d), 16)] ++ ins.tail ++ [
        (outBad 1, if fieldAt d 4 1 = 0 then 0x44 else 32),
        (fieldAt d 0 1 != 0 && maskBad, 36),
        (sentBad 0, 40), (sentBad 1, 44)] ++
        (List.range 4).map (fun k => (sumRead k && decide (4 < bits (fieldAt d (48 + k) 1) 4 2), 48 + k)) ++ [
        (n % 32 != 0 && (fi ++ fo).any (fun c => (fmtOf c).any (fun f => f.form != .plain)), 0x42)] ++ ins.take 1 ++ [
        (fieldAt d 0 1 == 0 && maskBad, 0x43), (outBad 0, 0x44)]
      match list.find? (·.1) with
      | some x => some (17, x.2)
      | none => ((List.range prog.length).find? (fun i => match prog[i]? with | some m => microBad fi fo m | none => false)).map (fun i => (18, i))

/-- R128, R121: the engine takes a pass when its page is RUNNING and it holds none behind the running one. -/
def vecAccepts (s : State) (b : BayId) : Bool := pgState s (.vec b) == 4 && (bayOf s b).vec.held.isNone

/-- R128, R86: a pass completes its issue handshake into the engine's queue; SR_SEED is read then. -/
def passIssue (s : State) (b : BayId) (op : VecOp) (q : QueueId) (sig : BitVec 8) : State :=
  let n := newOp s b (.queue q) sig 1
  modBay n.2 b (fun y => { y with vec := { y.vec with held := some {
    id := n.1, op := op, src := .queue q, sig := sig, seed := BitVec.ofNat 32 (rd s (.bayCtl b) baySrSeed) } } })

/-- PASS. -/
def execPass (b : BayId) (op : VecOp) (q : QueueId) (sig : BitVec 8) (s : State) : Out :=
  .next (if vecAccepts s b then passIssue s b op q sig else s)

/-- The FP64 value of the magnitude key: MAX, MIN order −0 below +0. -/
def ordKey (c : Nat) : Int := if c < 2 ^ 63 then (c : Int) + 1 else -((c - 2 ^ 63 : Nat) : Int)

/-- R146: AMAX of a slot. -/
def slotAmax (s : State) (b : BayId) (k : Nat) : Nat :=
  let mx := rd s (.vec b) (vecSlotMax k) % 2 ^ 63
  let mn := rd s (.vec b) (vecSlotMin k) % 2 ^ 63
  max mx mn

/-- R129, R146: a summary operand: its FP64 bits, or a count. -/
def sumOperand (s : State) (b : BayId) (sel : Nat) : BitVec 64 × Bool :=
  let k := sel % 4
  let f := bits sel 4 2
  if f = 4 then (BitVec.ofNat 64 (rd s (.vec b) (vecSlotActive k)), true)
  else (BitVec.ofNat 64 (
    if f = 0 then rd s (.vec b) (vecSlotMax k) else if f = 1 then rd s (.vec b) (vecSlotMin k)
    else if f = 2 then rd s (.vec b) (vecSlotSum k) else slotAmax s b k), false)

/-- R145: the block exponent of output `k`, if SCALE is GIVEN. -/
def passExp (s : State) (b : BayId) (d : List Byte) (k : Nat) : Option Int :=
  let sc := fieldAt d (9 + k) 1
  if !bitOf sc 0 then none
  else if !bitOf sc 1 then some (toInt 8 (fieldAt d (11 + k) 1))
  else match fmtOf (fieldAt d (4 + k) 1) with
  | none => none
  | some f =>
    let r := bits sc 5 4
    let ok := rd s (.vec b) (vecSlotSflagsValid r) = 1 ∧ rd s (.vec b) (vecSlotActive r) ≠ 0
    let amax := if ok then decF f64 (slotAmax s b r) else .fin false 0 0
    some (autoExp amax (if f.form = .two then twiceM f.el * 448 else twiceM f.el))

/-- R146, R154: a summary slot written at completion. -/
def slotWrite (s : State) (b : BayId) (k : Nat) (r : PassRun) (seq : Nat) : State :=
  let p := Page.vec b
  let m32 := 2 ^ 32 - 1
  let s := wr s p (vecSlotSum k) r.total.toNat
  let s := wr s p (vecSlotMax k) (r.hi.elim 0 (·.toNat))
  let s := wr s p (vecSlotMin k) (r.lo.elim 0 (·.toNat))
  let s := wr s p (vecSlotActive k) (min r.active m32)
  let s := wr s p (vecSlotNz k) (min r.nz m32)
  let s := wr s p (vecSlotNan k) (min r.nan m32)
  let s := wr s p (vecSlotSat k) (min (r.sat.foldl (· + ·) 0) m32)
  let s := wr s p (vecSlotFlush k) (min (r.flush.foldl (· + ·) 0) m32)
  let s := wr s p (vecSlotSflagsValid k) 1
  let s := wr s p (vecSlotSflagsPoisoned k) (b2n r.poisoned)
  let s := wr s p (vecSlotSflagsFlags k) r.flags.toNat
  wr s p (vecSlotSeq k) seq

/-- R131: the elements of a stream of `n` elements that a byte range touches: first and end. -/
def elemsHit (code start n : Nat) (rg : Nat × Nat) : List (Nat × Nat) :=
  match fmtOf code with
  | none => []
  | some f =>
    let lo := max rg.1 start
    let hi := min rg.2 (start + runBytes f n)
    let u := if f.form = .plain then (1, f.el.width / 8) else (32, blkSize f)
    if lo < hi then [(u.1 * ((lo - start) / u.2), u.1 * ((hi - start + u.2 - 1) / u.2))] else []

/-- R131: the elements whose results a write by another engine overlaps. -/
def passHits (r : PassRun) : List (Nat × Nat) :=
  let n := r.op.n.toNat
  let mask := fun (rg : Nat × Nat) =>
    let st := (vpdMaskStart r.vpd r.op).toNat
    let lo := max rg.1 st
    let hi := min rg.2 (st + (n + 7) / 8)
    if vpdMaskEn r.vpd ∧ lo < hi then [(8 * (lo - st), min n (8 * (hi - st)))] else []
  r.crossed.flatMap (fun rg =>
    (List.range 4).flatMap (fun i => elemsHit (fieldAt r.vpd i 1) (vpdInStart r.vpd r.op i).toNat n rg) ++
    (List.range 2).flatMap (fun k => elemsHit (fieldAt r.vpd (4 + k) 1) (vpdOutStart r.vpd r.op k).toNat n rg) ++ mask rg)

/-- R131: free bytes in place of elements `e0` to `e1 - 1` of an output. -/
def freeElems (s : State) (b : BayId) (r : PassRun) (k : Nat) (h : Nat × Nat) : State :=
  match fmtOf (fieldAt r.vpd (4 + k) 1) with
  | none => s
  | some f =>
    let u := if f.form = .plain then 1 else 32
    let e0 := h.1 / u * u
    let e1 := min r.op.n.toNat ((h.2 + u - 1) / u * u)
    let v := freeBytes s (runBytes f (e1 - e0))
    storePut v.2 b ((vpdOutStart r.vpd r.op k).toNat + runBytes f e0) v.1 false

/-- R131: a summary slot of a pass whose streams another engine wrote: free values, VALID, POISONED and SEQ apart. -/
def slotFree (s : State) (b : BayId) (k : Nat) : State :=
  [vecSlotSum k, vecSlotMax k, vecSlotMin k, vecSlotActive k, vecSlotNz k, vecSlotNan k, vecSlotSat k, vecSlotFlush k,
    vecSlotSflagsFlags k].foldl (fun s row => let v := fresh s; wr v.2 (.vec b) row v.1.toNat) s

/-- R131: what a pass whose streams another engine wrote between its issue and its SIG leaves undefined: the results of the elements
concerned, the sentinel records and the summary (log 121). -/
def passUndefined (s : State) (b : BayId) (r : PassRun) : State :=
  let l := passHits r
  if l.isEmpty then s
  else
    let s := l.foldl (fun s h => freeElems (freeElems s b r 0 h) b r 1 h) s
    let s := (List.range 2).foldl (fun s k =>
      if bitOf (fieldAt r.vpd 13 1) k && fieldAt r.vpd (4 + k) 1 != 0 then
        let v := freeBytes s (4 * (r.recs.getD k []).length)
        storePut v.2 b (vpdOutStart r.vpd r.op k + toInt 32 (fieldAt r.vpd (40 + 4 * k) 4)).toNat v.1 false
      else s) s
    if bitOf (fieldAt r.vpd 7 1) 3 then slotFree s b (bits (fieldAt r.vpd 8 1) 5 4) else s

/-- R146, R149, R153: a pass completes: sentinel records, summary slot, PASS_SEQ and SIG. -/
def passFinish (s : State) (b : BayId) (r : PassRun) : State :=
  let p := Page.vec b
  let s := (List.range 2).foldl (fun s k =>
    if bitOf (fieldAt r.vpd 13 1) k && fieldAt r.vpd (4 + k) 1 != 0 then
      storePut s b (vpdOutStart r.vpd r.op k + toInt 32 (fieldAt r.vpd (40 + 4 * k) 4)).toNat
        ((r.recs.getD k []).flatMap (fun w => toLE 4 w.toNat)) false
    else s) s
  let s := wrapAdd s p vecPassSeq 1
  let s := if bitOf (fieldAt r.vpd 7 1) 3 then slotWrite s b (bits (fieldAt r.vpd 8 1) 5 4) r (rd s p vecPassSeq) else s
  let s := passUndefined (if 0 < r.sat.foldl (· + ·) 0 then setEvt s p 17 else s) b r
  opDone (modBay s b (fun y => { y with vec := { y.vec with running := none } })) b r.id

/-- R130, R156: a refusal: FAULT, the pass leaves without its SIG. -/
def passRefuse (s : State) (b : BayId) (r : PassRun) (bit det : Nat) : State :=
  let q := match r.src with | .queue q => q.val | .group g => g.val
  opDrop (raise s (.vec b) { bit := bit, unit := q, detail := r.op.vpd.toNat * 256 + det, stop := true }) b r.id

/-- R128 to R132: PASS_ISSUE_START: the held pass starts its issue phase when no pass runs: descriptor, program and summary operands
are read, the pass is checked; with N = 0 or NOPS = 0 it completes. `u`: what SECDED finds in the descriptor and the program. -/
def execPassIssueStart (b : BayId) (u : Upset) (s : State) : Out :=
  let p := Page.vec b
  let y := bayOf s b
  match y.vec.running, y.vec.held with
  | none, some h =>
    if !pgWorks s p then .next s
    else
      let s := storeUpset (setBay s b { y with vec := { y.vec with held := none } }) b u
      if h.op.op != 1 then .next (passRefuse s b h 17 0x40)
      else if rd s p vecVpdCount ≤ h.op.vpd.toNat then .next (passRefuse s b h 17 0x41)
      else
        let q := match h.src with | .queue q => q.val | .group g => g.val
        let rd0 := storeRead s b p q (64 * rd s p vecVpdBase + 128 * h.op.vpd.toNat) 128 .ok .none
        let d := rd0.1
        let s := rd0.2.2
        let progOk := decide (vpdNops d ≤ 32) && vecRange (vpdProg d) (4 * vpdNops d) && h.op.n != 0
        let rd1 := if progOk then storeRead s b p q (vpdProg d) (4 * vpdNops d) .ok .none else ([], false, s)
        let s := rd1.2.2
        let words := (List.range (if progOk then vpdNops d else 0)).map (fun i => fieldAt rd1.1 (4 * i) 4)
        match passCheck d h.op (words.map microOf) with
        | some e => .next (passRefuse s b h e.1 e.2)
        | none =>
          let r : PassRun := { h with
            vpd := d
            prog := words.map (BitVec.ofNat 32)
            sums := (List.range 4).map (fun k => (sumOperand s b (fieldAt d (48 + k) 1)).1)
            sumIsCount := (List.range 4).map (fun k => (sumOperand s b (fieldAt d (48 + k) 1)).2)
            eg := (List.range 2).map (fun k => (passExp s b d k).getD 0)
            sat := [0, 0], flush := [0, 0], recs := [[], []], poisoned := rd0.2.1 || rd1.2.1 }
          if h.op.n = 0 ∨ vpdNops d = 0 then .next (passFinish s b { r with recs := [[], []] })
          else .next (modBay s b (fun y => { y with vec := { y.vec with running := some r } }))
  | _, _ => .next s

/-- R131: the bytes of `n` elements of a stream: first and end. -/
def streamOf (code : Nat) (start : Int) (n : Nat) : Nat × Nat := (start.toNat, start.toNat + codeBytes code n)

/-- Where two byte ranges meet, if they do. -/
def meetOf (x y : Nat × Nat) : List (Nat × Nat) := if max x.1 y.1 < min x.2 y.2 then [(max x.1 y.1, min x.2 y.2)] else []

/-- R131: the bytes in which an output stream of a pass overlaps another stream of it; an input with the same start and format code runs in
place. -/
def passClash (d : List Byte) (op : VecOp) : List (Nat × Nat) :=
  let n := op.n.toNat
  let ins := (List.range 4).map (fun i => (fieldAt d i 1, vpdInStart d op i))
  let out := fun k => streamOf (fieldAt d (4 + k) 1) (vpdOutStart d op k) n
  let mask := if vpdMaskEn d then ((vpdMaskStart d op).toNat, (vpdMaskStart d op).toNat + (n + 7) / 8) else (0, 0)
  (List.range 2).flatMap (fun k =>
    ins.flatMap (fun x => if x.1 = fieldAt d (4 + k) 1 ∧ x.2 = vpdOutStart d op k then [] else meetOf (out k) (streamOf x.1 x.2 n)) ++
    meetOf (out k) mask) ++
  meetOf (out 0) (out 1)

/-- R143, R138: one span of an input: lane codes (a finite value beyond the lane type gives an infinity), flags of each element (OVF 4,
NAN_IN 8), poison. -/
def spanIn (s : State) (b : BayId) (q : Nat) (cl : List (Nat × Nat)) (code : Nat) (start : Int) (first n : Nat) :
    List (Nat × Nat) × Bool × State :=
  match fmtOf code with
  | none => (List.replicate n (0, 0), false, s)
  | some f =>
    let rdd := storeRead s b (.vec b) q (start.toNat + runBytes f first) (runBytes f n) .ok .none
    let x := freeOver rdd.2.2 cl (start.toNat + runBytes f first) rdd.1
    let t := laneOf f
    ((decRun f n x.1).map (fun v => match t with
      | .int32 => ((cvtPlain .int32 .rne v).code, 0)
      | t =>
        let c := toLane t v
        let inf := match v, laneVal t c with | .fin _ _ _, .inf _ => true | _, _ => false
        (c, (if inf then 4 else 0) + (if v.isNan then 8 else 0))), rdd.2.1, x.2)

/-- R147: the balanced pairwise tree. -/
def pairTree : Nat → List Nat → Nat
  | 0, l => l.headD 0
  | k + 1, l =>
    (roundV f64 .rne (Val.add false (decF f64 (pairTree k (l.take (2 ^ k)))) (decF f64 (pairTree k (l.drop (2 ^ k)))))).1

/-- R140, R144: one span of output `k` is encoded and written: SAT and FLUSH of its elements. -/
def spanOut (s : State) (b : BayId) (r : PassRun) (k first : Nat) (els : List (Bool × ElemSt)) (poison : Bool) :
    State × List (Bool × Bool) :=
  match fmtOf (fieldAt r.vpd (4 + k) 1) with
  | none => (s, [])
  | some f =>
    let sc := fieldAt r.vpd (9 + k) 1
    let q : QCfg := {
      fmt := f, nesc := min 2 (bits sc 3 2), given := if bitOf sc 0 then some (r.eg.getD k 0) else none,
      sr := bitOf (fieldAt r.vpd 7 1) 0, s0 := lfsrStart r.seed.toNat (fieldAt r.vpd 14 2) }
    let vals := els.map (fun e => if e.1 then let o := e.2.o.getD k (0, .fp32); laneVal o.2 o.1 else .fin false 0 0)
    let e := encRun q vals first
    let start := (vpdOutStart r.vpd r.op k).toNat + runBytes f first
    let x := freeOver s (passClash r.vpd r.op ++ r.crossed) start e.1
    let s := x.2
    let keep := !bitOf (fieldAt r.vpd 7 1) 2 && els.any (fun e => !e.1)
    if keep then
      let w := f.el.width / 8
      let s := (List.range els.length).foldl (fun s i =>
        if (els.getD i (false, {})).1 then storePut s b (start + w * i) (slice x.1 (w * i) w) poison else s) s
      (if poison then storeMark s b start (w * els.length) else s, e.2)
    else (storePut s b start x.1 poison, e.2)

/-- R90: a tile's record with a span's counts added. -/
def recAdd (recs : List (BitVec 32)) (tile : Nat) (c : List (Bool × Bool)) : List (BitVec 32) :=
  let old := (recs.getD tile 0).toNat
  let new := BitVec.ofNat 32 (sentinel (old / 65536 + c.countP (·.1)) (old % 65536 + c.countP (·.2)))
  if tile < recs.length then recs.set tile new else recs ++ [new]

/-- The summary value of an element: the FP64 bits of SUMSRC by the type that last wrote it (R146). -/
def sumVal (e : ElemSt) (k : Nat) : Nat :=
  (roundV f64 .rne (laneVal (e.tt.getD k .fp32) (e.t.getD k 0))).1

/-- R146, R147: the pass's records with one span added. -/
def spanSum (r : PassRun) (els : List (Bool × ElemSt)) : PassRun :=
  let src := fieldAt r.vpd 8 1 % 16
  let vals := els.map (fun e => if e.1 then some (sumVal e.2 src) else none)
  let live := (vals.filterMap id).filter (fun c => !(decF f64 c).isNan)
  let tree := vals.map (fun v => match v with | some c => if (decF f64 c).isNan then 0 else c | none => 0)
  let better := fun (mx : Bool) (o : Option (BitVec 64)) (c : Nat) => match o with
    | none => some (BitVec.ofNat 64 c)
    | some x => if (if mx then ordKey x.toNat < ordKey c else ordKey c < ordKey x.toNat) then some (BitVec.ofNat 64 c) else o
  { r with
    total := BitVec.ofNat 64 (roundV f64 .rne (Val.add false (decF f64 r.total.toNat) (decF f64 (pairTree 10 tree)))).1
    hi := live.foldl (better true) r.hi
    lo := live.foldl (better false) r.lo
    active := r.active + vals.countP (·.isSome)
    nz := r.nz + live.countP (fun c => !(decF f64 c).isZero)
    nan := r.nan + vals.countP (fun v => v.any (fun c => (decF f64 c).isNan)) }

/-- R139 to R144: the elements of one span: whether active, and what the program leaves for each. -/
def spanRun (r : PassRun) (mask : List Byte) (first n : Nat) (ins : List (List (Nat × Nat))) : List (Bool × ElemSt) :=
  let prog := r.prog.map (fun w => microOf w.toNat)
  let consts := (List.range 8).map (fun k => BitVec.ofNat 64 (fieldAt r.vpd (64 + 8 * k) 8))
  (List.range n).map (fun i =>
    let active := !vpdMaskEn r.vpd || bitOf ((mask.getD ((first + i) / 8 - first / 8) 0).toNat) ((first + i) % 8)
    if active then
      let iv := ins.map (fun l => l.getD i (0, 0))
      let x : ElemIn := { ins := iv.map (·.1), sums := r.sums, counts := r.sumIsCount, consts := consts }
      (true, prog.foldl (microStep x) { flags := iv.foldl (fun a v => a ||| v.2) 0 })
    else (false, {}))

/-- R139 to R147, R151: SPAN_END: the lane work of the next span ends: its outputs are written, or the engine traps. -/
def execSpanEnd (b : BayId) (u : Upset) (s : State) : Out :=
  let p := Page.vec b
  match (bayOf s b).vec.running with
  | none => .next s
  | some r =>
    let total := r.op.n.toNat
    let first := 1024 * r.spans
    if total ≤ first then .next s
    else
      let n := min 1024 (total - first)
      let q := match r.src with | .queue q => q.val | .group g => g.val
      let s := logicCheck (storeUpset s b u) p q u
      let fi := vpdFmtI r.vpd
      let cl := passClash r.vpd r.op ++ r.crossed
      let rds := (List.range 4).foldl (fun (x : List (List (Nat × Nat)) × Bool × State) i =>
        let y := spanIn x.2.2 b q cl (fi.getD i 0) (vpdInStart r.vpd r.op i) first n
        (x.1 ++ [y.1], x.2.1 || y.2.1, y.2.2)) ([], false, s)
      let rm := if vpdMaskEn r.vpd then storeRead rds.2.2 b p q ((vpdMaskStart r.vpd r.op).toNat + first / 8) ((n + 7) / 8) .ok .none
        else ([], false, rds.2.2)
      let mk := freeOver rm.2.2 cl ((vpdMaskStart r.vpd r.op).toNat + first / 8) rm.1
      let s := mk.2
      let els := spanRun r mk.1 first n rds.1
      let fl := els.foldl (fun a e => a ||| e.2.flags) 0
      let s := wr s p vecFlags (rd s p vecFlags ||| fl)
      let trap := fieldAt r.vpd 7 1 / 16
      match (List.range n).find? (fun i => (els.getD i (false, {})).2.flags &&& trap != 0) with
      | some i =>
        let s := wr (wr s p vecTrapInfoIndex (first + i)) p vecTrapInfoFlag ((els.getD i (false, {})).2.flags &&& trap)
        .next (raise (setEvt (vecAbandon s b) p 16) p { bit := 19, unit := q, detail := r.op.vpd.toNat * 256, stop := true })
      | none =>
        let poison := rds.2.1 || rm.2.1 || u == .logic
        let o0 := spanOut s b r 0 first els poison
        let o1 := spanOut o0.1 b r 1 first els poison
        let r := spanSum r els
        let r := { r with
          spans := r.spans + 1
          sat := [r.sat.getD 0 0 + o0.2.countP (·.1), r.sat.getD 1 0 + o1.2.countP (·.1)]
          flush := [r.flush.getD 0 0 + o0.2.countP (·.2), r.flush.getD 1 0 + o1.2.countP (·.2)]
          recs := [recAdd (r.recs.getD 0 []) (first / 4096) o0.2, recAdd (r.recs.getD 1 []) (first / 4096) o1.2]
          flags := r.flags ||| BitVec.ofNat 4 fl
          poisoned := r.poisoned || poison }
        .next (modBay o1.1 b (fun y => { y with vec := { y.vec with running := some r } }))

/-- R149: PASS_COMPLETE: every span is done. -/
def execPassComplete (b : BayId) (s : State) : Out :=
  match (bayOf s b).vec.running with
  | none => .next s
  | some r => if r.op.n.toNat ≤ 1024 * r.spans then .next (passFinish s b r) else .next s

/-- R128, R148: RESET, and STOP from FAULT, discard the passes held; RESET also clears the summary slots with the registers. -/
def vecDiscard (s : State) (b : BayId) : State :=
  let y := bayOf s b
  let s := vecAbandon s b
  match y.vec.held with
  | none => s
  | some h => modBay s b (fun y => { y with vec := { y.vec with held := none }, ops := y.ops.filter (fun o => o.id != h.id) })

end Sys2Proof.Machine
end

