-- ==== Sys2Proof/Machine/Descs.lean ====
section
/-! DEFINITION. The descriptors of movers and gather engines (R234, R242). -/

namespace Sys2Proof.Machine

/-- R234: a mover descriptor. -/
structure MovDesc where
  kind : Nat
  aop : Nat
  srcSpace : Nat
  dstSpace : Nat
  order : Bool
  remote : Bool
  fmtS : Nat
  fmtD : Nat
  sr : Bool
  given : Bool
  nesc : Nat
  sentEn : Bool
  eGiven : Int
  salt : Nat
  src : Nat
  dst : Nat
  rowLen : Nat
  rows : Nat
  srcStride : Nat
  dstStride : Nat
  rank : Nat
  afEn : Bool
  af : Nat
  afDst : Bool
  flow : Nat
  operand : Nat
  compare : Nat
deriving DecidableEq, Repr

/-- R234: the fields of 64 descriptor bytes. -/
def movDesc (d : List Byte) : MovDesc where
  kind := fieldAt d 0 1 % 16
  aop := fieldAt d 0 1 / 16
  srcSpace := fieldAt d 1 1 % 4
  dstSpace := bits (fieldAt d 1 1) 3 2
  order := bitOf (fieldAt d 1 1) 4
  remote := bitOf (fieldAt d 1 1) 5
  fmtS := fieldAt d 2 1
  fmtD := fieldAt d 3 1
  sr := bitOf (fieldAt d 4 1) 0
  given := bitOf (fieldAt d 4 1) 1
  nesc := min 2 (bits (fieldAt d 4 1) 3 2)
  sentEn := bitOf (fieldAt d 4 1) 4
  eGiven := toInt 8 (fieldAt d 5 1)
  salt := fieldAt d 6 2
  src := fieldAt d 8 8
  dst := fieldAt d 16 8
  rowLen := fieldAt d 24 4
  rows := fieldAt d 28 4
  srcStride := fieldAt d 32 4
  dstStride := fieldAt d 36 4
  rank := fieldAt d 40 2
  afEn := bitOf (fieldAt d 42 1) 0
  af := bits (fieldAt d 42 1) 2 1
  afDst := bitOf (fieldAt d 42 1) 3
  flow := fieldAt d 44 4 % 2 ^ 18
  operand := fieldAt d 48 8
  compare := fieldAt d 56 8

/-- R235: the bytes of a source row, and of a written row. -/
def MovDesc.srcLen (d : MovDesc) : Nat := if d.kind = 1 then codeBytes d.fmtS d.rowLen else d.rowLen
/-- The written row. -/
def MovDesc.dstLen (d : MovDesc) : Nat := if d.kind = 1 then codeBytes d.fmtD d.rowLen else d.rowLen

/-- R242: a gather descriptor. -/
structure GthDesc where
  space : Nat
  mode : Nat
  rank : Nat
  rowBytes : Nat
  base : Nat
  rowStride : Nat
  idxAddr : Nat
  dstStride : Nat
  extBase : Nat
  extSize : Nat
  flow : Nat
deriving DecidableEq, Repr

/-- R242: the fields of 64 descriptor bytes. -/
def gthDesc (d : List Byte) : GthDesc where
  space := fieldAt d 0 1 % 4
  mode := bits (fieldAt d 0 1) 3 2
  rank := fieldAt d 2 2
  rowBytes := fieldAt d 4 4
  base := fieldAt d 8 8
  rowStride := fieldAt d 16 8
  idxAddr := fieldAt d 24 4
  dstStride := fieldAt d 28 4
  extBase := fieldAt d 32 8
  extSize := fieldAt d 40 8
  flow := fieldAt d 48 4 % 2 ^ 18

/-- R243: the size of an index element. -/
def GthDesc.idxSize (d : GthDesc) : Nat := if d.mode = 0 then 4 else 8

end Sys2Proof.Machine
end

