-- ==== Sys2Proof/Machine/Schedule.lean ====
section
/-! DEFINITION. Collectives (R390, R395 to R398): the entry of a command, and the schedule of each algorithm as a list of transfers. -/

namespace Sys2Proof.Machine

/-! The entry of a command (R390). -/

/-- OP. -/
def cOp (e : List Byte) : Nat := fieldAt e 0 1 % 16
/-- ALG. -/
def cAlg (e : List Byte) : Nat := fieldAt e 0 1 / 16
/-- IN_FMT. -/
def cIn (e : List Byte) : Nat := fieldAt e 1 1
/-- OUT_FMT. -/
def cOut (e : List Byte) : Nat := fieldAt e 2 1
/-- WIRE. -/
def cWire (e : List Byte) : Nat := fieldAt e 3 1
/-- COUNT. -/
def cCount (e : List Byte) : Nat := fieldAt e 24 8
/-- SRC. -/
def cSrc (e : List Byte) : Nat := fieldAt e 32 8
/-- DST. -/
def cDst (e : List Byte) : Nat := fieldAt e 40 8
/-- RESID. -/
def cResid (e : List Byte) : Nat := fieldAt e 48 8
/-- RMODE = SR. -/
def cSr (e : List Byte) : Bool := bitOf (fieldAt e 4 1) 0
/-- ARRIVAL. -/
def cArrival (e : List Byte) : Bool := bitOf (fieldAt e 4 1) 2
/-- The reduction type is INT32. -/
def cInt (e : List Byte) : Bool := cWire e == 5
/-- R402: residuals apply: enabled, and the wire is narrower than the reduction type. -/
def cRes (e : List Byte) : Bool := bitOf (fieldAt e 4 1) 1 && cWire e != 2 && cWire e != 5

/-- The format of a code of R390. -/
def cFmt (c : Nat) : Fmt := (fmtOf c).getD ⟨.fp32, .plain⟩
/-- Bytes of an element of a vector. -/
def cWidth (c : Nat) : Nat := if c = 2 ∨ c = 5 then 4 else 2

/-! Segments, chunks and transfers (R396, R397, R401). -/

/-- R396: bound B_i of s segments of a vector of `len` elements. -/
def segBound (len s i : Nat) : Nat := min len (32 * (i * ((len + 31) / 32) / s))

/-- R396: segment i of s: its first element and its length. -/
def segAt (len s i : Nat) : Nat × Nat := (segBound len s i, segBound len s (i + 1) - segBound len s i)

/-- R401: elements of a full chunk. -/
def chunkElems (wire : Nat) : Nat := if wire = 2 ∨ wire = 5 then 64 else if wire = 3 ∨ wire = 4 then 128 else 224

/-- R401: the chunks of a run of elements. -/
def chunksOf (cs : Nat) (r : Nat × Nat) : List (Nat × Nat) :=
  (List.range ((r.2 + cs - 1) / cs)).map (fun i => (r.1 + cs * i, min cs (r.2 - cs * i)))

/-- One chunk moved: sent or received, the member it goes to or comes from, the step in its packet, the position its values have here and
in the packet, its length, and whether it carries a final value (a gather, chain or broadcast) or a partial sum. -/
structure Xfer where
  send : Bool
  peer : Nat
  step : Nat
  pos : Nat
  wirePos : Nat
  len : Nat
  final : Bool
deriving DecidableEq, Repr

/-- The transfers of one exchange: runs of elements to or from one member. -/
def xfers (cs : Nat) (send final : Bool) (peer step : Nat) (runs : List (Nat × Nat)) : List Xfer :=
  (runs.flatMap (chunksOf cs)).map (fun c => { send := send, peer := peer, step := step, pos := c.1, wirePos := c.1, len := c.2, final := final })

/-- R397: RING, reducing: member m sends segment m − t − 1 and adds segment m − t − 2. -/
def ringReduce (cs n m : Nat) (seg : Nat → Nat × Nat) : List Xfer :=
  (List.range (n - 1)).flatMap (fun t =>
    xfers cs true false ((m + 1) % n) t [seg ((m + 2 * n - t - 1) % n)] ++ xfers cs false false ((m + n - 1) % n) t [seg ((m + 2 * n - t - 2) % n)])

/-- R397: RING, gathering: member m sends what it owns, then what it has received. -/
def ringGather (cs n m step0 : Nat) (part : Nat → Nat × Nat) : List Xfer :=
  (List.range (n - 1)).flatMap (fun t =>
    xfers cs true true ((m + 1) % n) (step0 + t) [part ((m + n - t) % n)] ++
    xfers cs false true ((m + n - 1) % n) (step0 + t) [part ((m + 2 * n - t - 1) % n)])

/-- The largest power of two not above n, with its logarithm. -/
def log2p (n : Nat) : Nat := Nat.log2 n

/-- Bit `d` (a power of two) of m flipped. -/
def flipBit (m d : Nat) : Nat := if m / d % 2 = 1 then m - d else m + d

/-- R397: the halving exchanges of RHALF from a range of parts: the transfers in order. -/
def halving (cs m step : Nat) (part : Nat → Nat × Nat) : Nat → Nat → List Xfer
  | 0, _ => []
  | k + 1, lo =>
    let d := 2 ^ k
    let low := (rangeFrom lo d).map part
    let high := (rangeFrom (lo + d) d).map part
    if m / d % 2 = 0 then
      xfers cs true false (flipBit m d) step high ++ xfers cs false false (flipBit m d) step low ++ halving cs m (step + 1) part k lo
    else
      xfers cs true false (flipBit m d) step low ++ xfers cs false false (flipBit m d) step high ++ halving cs m (step + 1) part k (lo + d)

/-- R397: the gather of RHALF: at distance 2^k each member sends the whole range it holds and receives its partner's. -/
def doubling (cs m step : Nat) (part : Nat → Nat × Nat) (lg : Nat) : List Xfer :=
  (List.range lg).flatMap (fun k =>
    let d := 2 ^ k
    let own := m / d * d
    xfers cs true true (flipBit m d) (step + k) ((rangeFrom own d).map part) ++
    xfers cs false true (flipBit m d) (step + k) ((rangeFrom (flipBit own d) d).map part))

/-- R397: the children of relative index i in a binomial tree of n members, in increasing order. -/
def treeKids (n i : Nat) : List Nat :=
  (List.range 15).filterMap (fun k =>
    if i % 2 ^ (k + 1) = 0 ∧ i + 2 ^ k < n then some (i + 2 ^ k) else none)

/-- R397: the parent of relative index i: its lowest set bit cleared. -/
def treeParent (i : Nat) : Nat :=
  match (List.range 15).find? (fun k => bitOf i k) with
  | some k => i - 2 ^ k
  | none => 0

/-- R397: the broadcast down a tree with its root at member `root`. -/
def treeDown (cs n m root step : Nat) (runs : List (Nat × Nat)) : List Xfer :=
  let i := (m + n - root) % n
  (if i = 0 then [] else xfers cs false true ((treeParent i + root) % n) step runs) ++
  (treeKids n i).flatMap (fun c => xfers cs true true ((c + root) % n) step runs)

/-- R397: the reduction up a tree. -/
def treeUp (cs n m : Nat) (runs : List (Nat × Nat)) : List Xfer :=
  (treeKids n m).flatMap (fun c => xfers cs false false c 0 runs) ++
  (if m = 0 then [] else xfers cs true false (treeParent m) 0 runs)

/-- R395, R397: the schedule of a command for member m of n, with L elements. -/
def schedule (op alg wire n m root len : Nat) : List Xfer :=
  let cs := chunkElems wire
  let lg := log2p n
  let p := 2 ^ lg
  let seg := segAt len n
  let segs := (List.range n).map seg
  let half := segAt len p
  let halves := (List.range p).map half
  let part := fun (k : Nat) => (k * len, len)
  if n ≤ 1 ∨ len = 0 then []
  else match op, alg with
  | 1, 0 => ringReduce cs n m seg ++ ringGather cs n m (n - 1) seg
  | 1, 1 => treeUp cs n m segs ++ treeDown cs n m 0 1 segs
  | 1, _ =>
    if p ≤ m then xfers cs true false (m - p) 0 halves ++ xfers cs false true (m - p) (2 * lg + 1) halves
    else
      (if m + p < n then xfers cs false false (m + p) 0 halves else []) ++ halving cs m 1 half lg 0 ++ doubling cs m (lg + 1) half lg ++
      (if m + p < n then xfers cs true true (m + p) (2 * lg + 1) halves else [])
  | 2, 0 => ringReduce cs n m seg
  | 2, _ => halving cs m 1 half lg 0
  | 3, 0 => ringGather cs n m 0 part
  | 3, _ => doubling cs m 0 part lg
  | 4, 0 =>
    (if m = root then [] else xfers cs false true ((m + n - 1) % n) 0 segs) ++
    (if (m + 1) % n = root then [] else xfers cs true true ((m + 1) % n) 0 segs)
  | 4, _ => treeDown cs n m root 0 segs
  | 5, _ => (rangeFrom 1 (n - 1)).flatMap (fun t =>
      let dst := (m + t) % n
      let fr := (m + n - t) % n
      (xfers cs true true dst t [part dst]).map (fun x => { x with wirePos := x.pos - dst * len + m * len }) ++
      (xfers cs false true fr t [(n * len + fr * len, len)]).map (fun x => { x with wirePos := x.pos - n * len }))
  | _, _ => []

/-- The schedule of a running collective. -/
def ceSched (c : Collective) : List Xfer := schedule (cOp c.entry) (cAlg c.entry) (cWire c.entry) c.n c.self c.root (cCount c.entry)

/-- R398: the rounds of the arrival barrier: the logarithm of n, rounded up. -/
def ceRounds (n : Nat) : Nat := if n ≤ 1 then 0 else Nat.log2 (n - 1) + 1

/-- R392, R397: the members whose flows a command needs. -/
def cePeers (op alg wire n m root len : Nat) : List Nat :=
  let arr := (List.range (ceRounds n)).flatMap (fun k => [(m + 2 ^ k) % n, (m + n * 2 ^ k - 2 ^ k) % n])
  (((schedule op alg wire n m root (if len = 0 then 0 else n * 32)).map (·.peer)) ++ arr).foldl (fun l x => if l.contains x then l else l ++ [x]) []

/-- Two runs of positions overlap. -/
def overlap (a b : Xfer) : Bool := decide (a.pos < b.pos + b.len) && decide (b.pos < a.pos + a.len)

/-- R397: what must come before transfer i: earlier received chunks that it covers; for a received chunk earlier sends as well, the partial sums of
other members only in deterministic order. -/
def xferReady (c : Collective) (l : List Xfer) (i : Nat) (x : Xfer) : Bool :=
  (List.range i).all (fun j =>
    c.moved.contains j ||
    match l[j]? with
    | some y => !overlap x y || (x.send && y.send) || (cArrival c.entry && cAlg c.entry == 1 && !x.send && !x.final && !y.send && !y.final)
    | none => true)

/-! Inputs and outputs. -/

/-- R404: the position that the rounding and the residual of an element take. -/
def inputPos (c : Collective) (pos : Nat) : Nat := if cOp c.entry = 3 then pos - c.self * cCount c.entry else pos

/-- R395: the runs of the input vector that this member reads: position here, first input element, length. -/
def inputRuns (c : Collective) : List (Nat × Nat × Nat) :=
  let len := cCount c.entry
  match cOp c.entry with
  | 1 => [(0, 0, len)]
  | 2 => [(0, 0, len)]
  | 3 => [(c.self * len, 0, len)]
  | 4 => if c.self = c.root then [(0, 0, len)] else []
  | 5 => [(0, 0, c.n * len)]
  | _ => []

/-- R395: the run of positions that the output vector holds: first position, length. -/
def outputRun (c : Collective) : Nat × Nat :=
  let len := cCount c.entry
  match cOp c.entry with
  | 1 => (0, len)
  | 2 => segAt len (if cAlg c.entry = 0 then c.n else 2 ^ log2p c.n) c.self
  | 3 => (0, c.n * len)
  | 4 => (0, len)
  | 5 => (c.n * len, c.n * len)
  | _ => (0, 0)

end Sys2Proof.Machine
end

