-- ==== Sys2Proof/Machine/Walk.lean ====
section
/-! DEFINITION. Address translation (R251, R252, R373): the Sv57 walk, a bay's translation unit, and the bays' accesses to the DRAM
space by virtual address. -/

namespace Sys2Proof.Machine

/-- The answer of a translation: a physical address, a page fault, or that the access must wait. -/
inductive Xr where
  | ok (pa : Nat) | fault | wait
deriving DecidableEq, Repr

/-- The end of a walk: a leaf (its PTE, the PTE's address and the page's size as a power of two), a page fault, a PTE outside the DRAM space,
a PTE that meets poison, or a page-table line that is busy. -/
inductive Walk where
  | leaf (pte addr size : Nat) | fault | absent | poison (addr : Nat) | wait
deriving DecidableEq, Repr

/-- Bits of a PTE. -/
def pteV (p : Nat) : Bool := bitOf p 0
/-- R. -/
def pteR (p : Nat) : Bool := bitOf p 1
/-- W. -/
def pteW (p : Nat) : Bool := bitOf p 2
/-- X. -/
def pteX (p : Nat) : Bool := bitOf p 3
/-- U. -/
def pteU (p : Nat) : Bool := bitOf p 4
/-- G. -/
def pteG (p : Nat) : Bool := bitOf p 5
/-- A. -/
def pteA (p : Nat) : Bool := bitOf p 6
/-- D. -/
def pteD (p : Nat) : Bool := bitOf p 7
/-- The PPN of a PTE. -/
def ptePpn (p : Nat) : Nat := bits p 53 10
/-- N (Svnapot). -/
def pteN (p : Nat) : Bool := bitOf p 63

/-- RISC-V: an invalid PTE, or one with a reserved encoding or bit. -/
def pteInvalid (p : Nat) : Bool := !pteV p || (!pteR p && pteW p) || bits p 60 54 != 0

/-- R251: the page size of a leaf at a level (0 the lowest), if it lies below level `top`, the first the unit does not support. -/
def leafSize (top p lvl : Nat) : Option Nat :=
  if top ≤ lvl then none
  else if pteN p then if lvl = 0 ∧ ptePpn p % 16 = 8 then some 16 else none
  else if ptePpn p % 2 ^ (9 * lvl) = 0 then some (12 + 9 * lvl) else none

/-- R251: the walk from a table at physical address `base` over `n` levels. -/
def walkFrom (top : Nat) (rdPte : State → Nat → Option (Nat × Bool) × State) (va : Nat) : Nat → Nat → State → Walk × State
  | 0, _, s => (.fault, s)
  | n + 1, base, s =>
    let a := base + 8 * (va / 2 ^ (12 + 9 * n) % 512)
    if !inDram s a 8 then (.absent, s)
    else match rdPte s a with
    | (none, s) => (.wait, s)
    | (some (p, poison), s) =>
      if poison then (.poison a, s)
      else if pteInvalid p then (.fault, s)
      else if pteR p || pteX p then
        match leafSize top p n with
        | some z => (.leaf p a z, s)
        | none => (.fault, s)
      else if pteU p || pteA p || pteD p || pteN p then (.fault, s)
      else walkFrom top rdPte va n (ptePpn p * 4096) s

/-- RISC-V Sv57: bits [63:57] of a virtual address equal bit 56. -/
def canonical57 (va : Nat) : Bool := va / 2 ^ 56 == 0 || va / 2 ^ 56 == 255

/-- The physical address of `va` under a leaf. -/
def leafPa (ppn size va : Nat) : Nat := ppn / 2 ^ (size - 12) * 2 ^ size + va % 2 ^ size

/-- Kinds of access: read, write (or atomic), instruction fetch. -/
inductive Acc3 where
  | read | write | exec
deriving DecidableEq, Repr

/-- R251: user permissions of a leaf. -/
def userPerm (p : Nat) : Acc3 → Bool
  | .read => pteU p && pteR p
  | .write => pteU p && pteR p && pteW p
  | .exec => pteU p && pteX p

/-- A leaf needs its A or D bit set first. -/
def needsAD (p : Nat) (k : Acc3) : Bool := !pteA p || (k == .write && !pteD p)

/-- A PTE with A, and D for a write, set. -/
def withAD (p : Nat) (k : Acc3) : Nat := let q := setBit p 6; if k = .write then setBit q 7 else q

/-- The entry of a TLB for a virtual address. -/
def tlbFind (l : List TlbEntry) (asid va : Nat) : Option TlbEntry :=
  l.find? (fun e => e.vpn.toNat == va / 2 ^ e.size && (pteG e.pte.toNat || e.asid.toNat == asid))

/-- A TLB with a new entry, the oldest leaving when `cap` are held. -/
def tlbAdd (l : List TlbEntry) (cap asid va pte size : Nat) : List TlbEntry :=
  let e : TlbEntry := {
    vpn := BitVec.ofNat 64 (va / 2 ^ size), size := size, asid := BitVec.ofNat 16 asid, pte := BitVec.ofNat 64 pte,
    ppn := BitVec.ofNat 64 (ptePpn pte) }
  let l := l.filter (fun x => !(x.vpn.toNat == va / 2 ^ x.size && x.asid.toNat == asid))
  (l ++ [e]).drop (l.length + 1 - cap)

/-- The I/O-coherent read of a PTE for requesters without a cache of their own (R373: class FABRIC). -/
def sysPte (die cls : Nat) (s : State) (a : Nat) : Option (Nat × Bool) × State :=
  if lineBusy s die (a / 64) false then (none, hostAsk s a 8 false)
  else
    let r := funcRead s (a / 64) cls true .ok
    (some (fieldAt r.1 (a % 64) 8, r.2.1), r.2.2)

/-- The caching agent of a bay's matrix die. -/
def bayAgent (b : BayId) : AgentId := ⟨b.val / 4, by omega⟩

/-- R251: page-table reads of a bay go through its bay cache. -/
def bayPte (b : BayId) (cls : Nat) (s : State) (a : Nat) : Option (Nat × Bool) × State :=
  if loadBusy s (bayDie b) (a / 64) then (none, loadAsk s (a / 64))
  else
    let r := cohLoad s (bayAgent b) (.bcache b) cls (a / 64) .ok
    (some (fieldAt r.1 (a % 64) 8, r.2.1), r.2.2)

/-- R251: the atomic update of a PTE's A and D bits by the bay cache. -/
def bayPteSet (s : State) (b : BayId) (cls a pte : Nat) : State :=
  cohStore s (bayAgent b) (.bcache b) cls (a / 64) (255 * 2 ^ (a % 64)) (List.replicate (a % 64) 0 ++ toLE 8 pte)

/-- R251, R252, R256: the bay's translation of `va` for class `cls`. While XLATE is not RUNNING the request waits. -/
def bayXlate (s : State) (b : BayId) (cls va : Nat) (k : Acc3) : Xr × State :=
  let p := Page.xlate b
  let satp := rd s p xlSatp
  let asid := bits satp 59 44
  if pgState s p ≠ 4 then (.wait, s)
  else if !canonical57 va then (.fault, s)
  else
    let walk := fun (_ : Unit) =>
      match walkFrom 3 (bayPte b cls) va 5 (bits satp 43 0 * 4096) s with
      | (.wait, s) => (Xr.wait, s)
      | (.fault, s) | (.absent, s) => (Xr.fault, s)
      | (.poison a, s) => (Xr.fault, raise s p { bit := 7, addr := some a })
      | (.leaf pte a z, s) =>
        if !userPerm pte k then (Xr.fault, s)
        else if needsAD pte k && rd s p xlCfg == 0 then (Xr.fault, s)
        else if needsAD pte k && lineBusy s (bayDie b) (a / 64) true then (Xr.wait, hostAsk s a 8 true)
        else
          let pte' := withAD pte k
          let s := if needsAD pte k then bayPteSet s b cls a pte' else s
          (Xr.ok (leafPa (ptePpn pte) z va), modBay s b (fun y => { y with tlb := tlbAdd y.tlb 1024 asid va pte' z }))
    match tlbFind (bayOf s b).tlb asid va with
    | some e =>
      if !userPerm e.pte.toNat k then (.fault, s)
      else if needsAD e.pte.toNat k then walk ()
      else (.ok (leafPa e.ppn.toNat e.size va), s)
    | none => walk ()

/-- What an access by virtual address meets. -/
inductive VaRes where
  | ok (data : List Byte) (poison : Bool) | fault (va : Nat) | absent (va : Nat) | wait
deriving DecidableEq, Repr

/-- The pieces of a range that lie within 4 KiB pages: offset and length. -/
def pieces : Nat → Nat → Nat → List (Nat × Nat)
  | 0, _, _ => []
  | n + 1, a, len => if len = 0 then [] else
    let k := min len (4096 - a % 4096)
    (a, k) :: pieces n (a + k) (len - k)

/-- The pieces of a range, each within one page of 4 KiB. -/
def pagePieces (a len : Nat) : List (Nat × Nat) := pieces (len / 4096 + 2) a len

/-- R251: every page of a range translates: the physical pieces, or what stops the access at its lowest failing address. -/
def bayRange (s : State) (b : BayId) (cls a len : Nat) (k : Acc3) : (VaRes ⊕ List (Nat × Nat)) × State :=
  (pagePieces a len).foldl (fun (x : (VaRes ⊕ List (Nat × Nat)) × State) pc => match x.1 with
    | .inl _ => x
    | .inr l => match bayXlate x.2 b cls (pc.1 % 2 ^ 64) k with
      | (.wait, s) => (.inl .wait, s)
      | (.fault, s) => (.inl (.fault (pc.1 % 2 ^ 64)), s)
      | (.ok pa, s) =>
        if !inDram s pa pc.2 then (.inl (.absent (pc.1 % 2 ^ 64)), s)
        else if rangeBusy s (bayDie b) pa pc.2 (k == .write) then (.inl .wait, hostAsk s pa pc.2 (k == .write))
        else (.inr (l ++ [(pa, pc.2)]), s)) (.inr [], s)

/-- R239, R244: a read of virtual memory by a requester whose data does not enter the bay cache and that verifies the blocks; and whether a block
failed its check twice. -/
def vaRead (s : State) (b : BayId) (cls a len : Nat) (chk : Check) : VaRes × Bool × State :=
  match bayRange s b cls a len .read with
  | (.inl r, s) => (r, false, s)
  | (.inr l, s) =>
    let x := l.foldl (fun (x : List Byte × Bool × Bool × State) pc =>
      let y := cohBlocks x.2.2.2 pc.1 pc.2 cls (if x.1.isEmpty then chk else .ok)
      (x.1 ++ y.1, x.2.1 || y.2.1, x.2.2.1 || y.2.2.1, y.2.2.2)) ([], false, false, s)
    (.ok x.1 x.2.1, x.2.2.1, x.2.2.2)

/-- R239, R314: a write of virtual memory, with the writer's format code, by a requester whose data does not enter the bay cache; the system cache
or the controller forms the CRC. -/
def vaWrite (s : State) (b : BayId) (cls a : Nat) (d : List Byte) (tag : Byte) (poison : Bool) : VaRes × State :=
  match bayRange s b cls a d.length .write with
  | (.inl r, s) => (r, s)
  | (.inr l, s) =>
    let x := l.foldl (fun (x : Nat × State) pc => (x.1 + pc.2, cohPutBlocks x.2 pc.1 cls (slice d x.1 pc.2) tag poison)) (0, s)
    (.ok [] false, x.2)

/-- R249: whether run-ahead may touch address `a` after a demand access at `va`: within the declared extent (base and size; size 0 for none), else
within the translation page of that access. -/
def aheadOk (s : State) (b : BayId) (ext : Nat × Nat) (va a : Nat) : Bool :=
  let asid := bits (rd s (.xlate b) xlSatp) 59 44
  let page := match tlbFind (bayOf s b).tlb asid va with | some e => 2 ^ e.size | none => 4096
  (decide (ext.1 ≤ a) && decide (a < ext.1 + ext.2)) || a / page == va / page

/-- R249: one run-ahead fetch or walk at `a`: it fills the TLB and the system cache; one that fails is dropped without a trace. -/
def aheadOne (s : State) (b : BayId) (cls a : Nat) : State :=
  match bayXlate s b cls a .read with
  | (.ok pa, s') => if inDram s' pa 1 then (memRead s' (pa / 256) cls false .ok).2 else s
  | _ => s

/-- R249: run-ahead after a demand access of `len` bytes at `va`: the walk of the page that follows, and the fetch of `n` blocks that follow in
address order, as far as each is allowed. `n` is the engine's choice. -/
def runAhead (s : State) (b : BayId) (cls : Nat) (ext : Nat × Nat) (va len n : Nat) : State :=
  if n = 0 then s
  else
    let go := fun (s : State) (a : Nat) => if decide (a < 2 ^ 64) && aheadOk s b ext va a then aheadOne s b cls a else s
    let next := (va / 4096 + 1) * 4096
    (List.range n).foldl (fun s i => go s (((va + len - 1) / 256 + 1 + i) * 256)) (go s next)

/-- XLATE_INVAL (R252, R256): a write to INVAL starts an invalidation with BUSY = 1, or waits while BUSY is 1. INVAL_VA is taken when
the invalidation starts. -/
def execXlateInval (b : BayId) (scope : BitVec 2) (asid : BitVec 16) (s : State) : Out :=
  let p := Page.xlate b
  if pgState s p = 0 then .next s
  else
    let y := bayOf s b
    let v : Inval := { scope := scope, asid := asid, va := BitVec.ofNat 64 (rd s p xlInvalVa) }
    .next (invalNext (setBay s b { y with invalWait := y.invalWait ++ [v] }) b (pgState s p))

/-- R256: the entries that an invalidation names; one by ASID leaves the global entries. -/
def invalHits (v : Inval) (e : TlbEntry) : Bool :=
  let covers := v.va.toNat * 4096 / 2 ^ e.size == e.vpn.toNat % 2 ^ (64 - e.size)
  let mine := e.asid == v.asid && !pteG e.pte.toNat
  match v.scope.toNat with
  | 0 => true
  | 1 => mine
  | 2 => covers
  | _ => covers && mine

/-- INVAL_DONE (R252): the search ends and no access that used a named entry is in flight; BUSY clears, and one that waited starts. -/
def execInvalDone (b : BayId) (s : State) : Out :=
  let y := bayOf s b
  match y.inval with
  | none => .next s
  | some v =>
    .next (invalNext (setBay s b { y with tlb := y.tlb.filter (fun e => !invalHits v e), inval := none }) b (pgState s (.xlate b)))

end Sys2Proof.Machine
end

