-- ==== Sys2Proof/Machine/Net.lean ====
section
/-! DEFINITION. What the fabric units share: names of modules (R360 to R362), flows and their errors (R363, R371 to R379), demand
faults of movers and gather engines (R250), collectives that end (R393), the census that a failure starts (R413, R414). -/

namespace Sys2Proof.Machine

/-! Movers and gather engines: the operations they hold. -/

/-- The operations of a mover. -/
def movList (s : State) (b : BayId) (m : Fin 4) : List MovRun := mget [] (bayOf s b).movs m.val
/-- The state with them replaced; HELD follows. -/
def setMovs (s : State) (b : BayId) (m : Fin 4) (l : List MovRun) : State :=
  wr (modBay s b (fun y => { y with movs := mset [] y.movs m.val l })) (.mov b m) engHeld l.length
/-- One operation changed. -/
def modMov (s : State) (b : BayId) (m : Fin 4) (id : Nat) (f : MovRun → MovRun) : State :=
  setMovs s b m ((movList s b m).map (fun r => if r.id == id then f r else r))
/-- The operations of a gather engine. -/
def gthList (s : State) (b : BayId) (g : Fin 2) : List GthRun := mget [] (bayOf s b).gths g.val
/-- The row requests outstanding of an operation. -/
def gthOut (r : GthRun) : Nat := r.asked - r.done.length
/-- R244: the row requests outstanding of an engine. -/
def gthHeld (l : List GthRun) : Nat := (l.map gthOut).foldl (· + ·) 0
/-- The state with the operations replaced; HELD counts the requests outstanding. -/
def setGths (s : State) (b : BayId) (g : Fin 2) (l : List GthRun) : State :=
  wr (modBay s b (fun y => { y with gths := mset [] y.gths g.val l })) (.gth b g) engHeld (gthHeld l)
/-- One operation changed. -/
def modGth (s : State) (b : BayId) (g : Fin 2) (id : Nat) (f : GthRun → GthRun) : State :=
  setGths s b g ((gthList s b g).map (fun r => if r.id == id then f r else r))

/-- R250: a demand fault stops an engine: FAULT_ROW, DETAIL and PG_ERRADDR; no SIG acts. -/
def demandFault (s : State) (b : BayId) (p : Page) (src : OpSrc) (id : Nat) (f : Nat × Nat × BitVec 64 × Bool) : State :=
  if pgWorks s p then
    opDrop (raise (wr s p engFaultRow f.1) p {
      bit := f.2.1, unit := srcUnit src, detail := f.1 % 65536, addr := some f.2.2.1.toNat, va := f.2.2.2, stop := true }) b id
  else opDrop s b id

/-- The lower of two failures by row. -/
def lowerFail (old : Option (Nat × Nat × BitVec 64 × Bool)) (f : Nat × Nat × BitVec 64 × Bool) :
    Option (Nat × Nat × BitVec 64 × Bool) :=
  match old with
  | some o => if f.1 < o.1 then some f else some o
  | none => some f

/-- R183: the next entry of an address FIFO, and the state without it. -/
def afPop (s : State) (b : BayId) (f : Nat) : Option (BitVec 64 × State) :=
  match mget [] (bayOf s b).afifo f with
  | [] => none
  | v :: rest => some (v, wr (modBay s b (fun y => { y with afifo := mset [] y.afifo f rest })) (.issue b) (issAfLevel f) rest.length)

/-! Names. -/

/-- ROUTER.RANK. -/
def myRank (s : State) : Nat := rd s (.router 0) rtrRankRank
/-- RANK.VALID. -/
def rankValid (s : State) : Bool := rd s (.router 0) rtrRankValid = 1
/-- R360: PLACE = ENCLOSURE × 64 + SLOT. -/
def myPlace (s : State) : Nat := rd s (.router 0) rtrIdentEnclosure * 64 + rd s (.router 0) rtrIdentSlot
/-- R376: FABRIC_EPOCH. -/
def fepoch (s : State) : Nat := rd s .hub hubBootCount % 256 * 256 + rd s .hub hubDomainRestarts % 256
/-- R362: the place of a rank, if its catalogue entry is valid. -/
def rankPlace (s : State) (r : Nat) : Option Nat :=
  let e := (mget 0 s.catalogue r).toNat
  if bitOf e 63 then some (e % 65536) else none

/-! Flows. -/

/-- R371: the fabric die of a flow. -/
def flowDie (i : Nat) : Fin 2 := ⟨i / 131072 % 2, Nat.mod_lt _ (by decide)⟩
/-- Flow `i`. -/
def flw (s : State) (i : Nat) : FlowState := mget {} s.flows i
/-- The state with it replaced. -/
def setFlw (s : State) (i : Nat) (v : FlowState) : State := { s with flows := mset {} s.flows i v }
/-- CTX0.STATE: 0 CLOSED, 1 OPEN, 2 ERROR. -/
def flwSt (v : FlowState) : Nat := bits v.ctx0.toNat 35 34
/-- A field of a 64-bit word replaced. -/
def putBits (w : BitVec 64) (hi lo v : Nat) : BitVec 64 :=
  let old := w.toNat
  BitVec.ofNat 64 (old - bits old hi lo * 2 ^ lo + v % 2 ^ (hi + 1 - lo) * 2 ^ lo)
/-- REMOTE_RANK. -/
def flwRank (v : FlowState) : Nat := v.ctx0.toNat % 65536
/-- REMOTE_FLOW. -/
def flwRemote (v : FlowState) : Nat := bits v.ctx0.toNat 33 16
/-- DOMAIN. -/
def flwDomain (v : FlowState) : Nat := bits v.ctx0.toNat 42 37
/-- REMOTE_EPOCH. -/
def flwEpoch (v : FlowState) : Nat := v.ctx1.toNat % 65536
/-- TX_PSN. -/
def flwTx (v : FlowState) : Nat := bits v.ctx1.toNat 39 16
/-- RX_PSN. -/
def flwRx (v : FlowState) : Nat := bits v.ctx1.toNat 63 40
/-- RXQ_TAIL. -/
def flwTail (v : FlowState) : Nat := bits v.ctx3.toNat 63 32

/-- R368: a packet leaves the endpoint of die `f` for that die's router. -/
def netSend (s : State) (f : Fin 2) (k : Packet) : State := { s with netOut := s.netOut ++ [(f, k)] }

/-- R371, R385: FLOW.OPEN counts the open flows of a die. -/
def flowState (s : State) (i : Nat) (v : FlowState) (st : Nat) : State :=
  let pg := Page.flow (flowDie i)
  let n := rd s pg flowOpen
  let n := if flwSt v = 1 ∧ st ≠ 1 then n - 1 else if flwSt v ≠ 1 ∧ st = 1 then n + 1 else n
  wr (setFlw s i { v with ctx0 := putBits v.ctx0 35 34 st }) pg flowOpen n

/-! Translation in a flow domain. -/

/-- R373: the TLB of a fabric die holds 4,096 entries, the oldest leaving. -/
def domTlbAdd (l : List (Nat × TlbEntry)) (n asid va pte size : Nat) : List (Nat × TlbEntry) :=
  let l := l.filter (fun x => !(x.1 == n && x.2.vpn.toNat == va / 2 ^ x.2.size && x.2.asid.toNat == asid))
  (l ++ (tlbAdd [] 1 asid va pte size).map (fun e => (n, e))).drop (l.length + 1 - 4096)

/-- R373: an address in domain `n` of die `f`, with the permissions of a user access; A and D are never set by the flow engine. -/
def domXlate (s : State) (f : Fin 2) (n va : Nat) (k : Acc3) : Xr × State :=
  let satp := rd s (.flow f) (flowDom n)
  let asid := bits satp 59 44
  let fd := mget ({} : FlowDie) s.flowDies f.val
  let tlb := (fd.tlb.filter (fun x => x.1 == n)).map (·.2)
  let fits := fun (p : Nat) => userPerm p k && !needsAD p k
  if bits satp 63 60 ≠ 10 ∨ !canonical57 va then (.fault, s)
  else match tlbFind tlb asid va with
  | some e => if fits e.pte.toNat then (.ok (leafPa e.ppn.toNat e.size va), s) else (.fault, s)
  | none => match walkFrom 3 (sysPte (16 + f.val) 29) va 5 (bits satp 43 0 * 4096) s with
    | (.wait, s) => (.wait, s)
    | (.fault, s) | (.absent, s) => (.fault, s)
    | (.poison a, s) => (.fault, raise s (.flow f) { bit := 7, addr := some a })
    | (.leaf pte _ z, s) =>
      if !fits pte then (.fault, s)
      else (.ok (leafPa (ptePpn pte) z va),
        { s with flowDies := mset {} s.flowDies f.val { fd with tlb := domTlbAdd fd.tlb n asid va pte z } })

/-- R373: a range in a flow domain: its physical pieces, or what stops the access. -/
def domRange (s : State) (f : Fin 2) (n a len : Nat) (k : Acc3) : (VaRes ⊕ List (Nat × Nat)) × State :=
  (pagePieces a len).foldl (fun (x : (VaRes ⊕ List (Nat × Nat)) × State) pc => match x.1 with
    | .inl _ => x
    | .inr l => match domXlate x.2 f n (pc.1 % 2 ^ 64) k with
      | (.wait, s) => (.inl .wait, s)
      | (.fault, s) => (.inl (.fault (pc.1 % 2 ^ 64)), s)
      | (.ok pa, s) =>
        if !inDram s pa pc.2 then (.inl (.absent (pc.1 % 2 ^ 64)), s)
        else if rangeBusy s (16 + f.val) pa pc.2 (k == .write) then (.inl .wait, hostAsk s pa pc.2 (k == .write))
        else (.inr (l ++ [(pa, pc.2)]), s)) (.inr [], s)

/-- A read in a flow domain, with class FABRIC. -/
def domRead (s : State) (f : Fin 2) (n a len : Nat) (chk : Check) : VaRes × State :=
  match domRange s f n a len .read with
  | (.inl r, s) => (r, s)
  | (.inr l, s) =>
    let x := l.foldl (fun (x : List Byte × Bool × State) pc =>
      let y := cohBytes x.2.2 pc.1 pc.2 29 true chk
      (x.1 ++ y.1, x.2.1 || y.2.1, y.2.2)) ([], false, s)
    (.ok x.1 x.2.1, x.2.2)

/-- R406: the same, by a consumer that verifies the blocks; and whether a block failed its check twice. -/
def domReadV (s : State) (f : Fin 2) (n a len : Nat) (chk : Check) : VaRes × Bool × State :=
  match domRange s f n a len .read with
  | (.inl r, s) => (r, false, s)
  | (.inr l, s) =>
    let x := l.foldl (fun (x : List Byte × Bool × Bool × State) pc =>
      let y := cohBlocks x.2.2.2 pc.1 pc.2 29 (if x.1.isEmpty then chk else .ok)
      (x.1 ++ y.1, x.2.1 || y.2.1, x.2.2.1 || y.2.2.1, y.2.2.2)) ([], false, false, s)
    (.ok x.1 x.2.1, x.2.2.1, x.2.2.2)

/-- What keeps a write in a flow domain from being made now, if anything does. -/
def domStops (s : State) (f : Fin 2) (n a len : Nat) : Option (VaRes × State) :=
  match domRange s f n a len .write with
  | (.inl r, s) => some (r, s)
  | (.inr _, _) => none

/-- A write in a flow domain. -/
def domPut (s : State) (f : Fin 2) (n a : Nat) (d : List Byte) (poison : Bool) : VaRes × State :=
  match domRange s f n a d.length .write with
  | (.inl r, s) => (r, s)
  | (.inr l, s) =>
    let x := l.foldl (fun (x : Nat × State) pc => (x.1 + pc.2, cohPut x.2 pc.1 29 (slice d x.1 pc.2) poison)) (0, s)
    (.ok [] false, x.2)

/-! Control datagrams (R408). -/

/-- R408: a datagram's body: JOB_ID, JOB_EPOCH, TYPE and the payload. -/
def ctrlBody (s : State) (epoch type : Nat) (payload : List Byte) : List Byte :=
  toLE 4 (rd s (.ce 0) ceJobId) ++ toLE 2 epoch ++ toLE 1 type ++ [0] ++ payload.take 248

/-- R408: job control to a rank, addressed through the catalogue; a rank with no valid entry is sent nothing. A VERDICT carries the epoch
that it ends, also when it is sent again. -/
def ctrlSend (s : State) (rank type : Nat) (payload : List Byte) : State :=
  match rankPlace s rank with
  | none => s
  | some pl =>
    let epoch := if type = 0x13 then (fieldAt payload 0 2 + 65535) % 65536 else rd s (.ce 0) ceJobEpoch
    let body := ctrlBody s epoch type payload
    netSend s 0 {
      dstPlace := BitVec.ofNat 16 pl, dstRank := BitVec.ofNat 16 rank, srcPlace := BitVec.ofNat 16 (myPlace s),
      srcRank := BitVec.ofNat 16 (myRank s), dstFlow := 0, op := 0x0A, reread := false, poison := false, carried := false,
      last := true, psn := 0, tag := 0, hops := 0, level := false, cls := false, status := 0,
      srcEpoch := BitVec.ofNat 16 (fepoch s), len := BitVec.ofNat 13 body.length, addr := 0, data := body, crc := 0 }

/-- R408: a datagram that expects an answer is resent until the answer comes. -/
def ctrlAsk (s : State) (rank type : Nat) (payload : List Byte) : State :=
  let s := ctrlSend s rank type payload
  { s with job := { s.job with resend := s.job.resend ++ [(rank, type, payload)] } }

/-- The answer has come, or the wait has ended. -/
def ctrlGot (s : State) (p : Nat → Nat → Bool) : State :=
  { s with job := { s.job with resend := s.job.resend.filter (fun x => !p x.1 x.2.1) } }

/-! Collectives. -/

/-- A queue of a collective engine: its running collective. -/
def ceRun (s : State) (f : Fin 2) (q : QueueId) : Option Collective := mget none (mget ({} : CeUnit) s.ces f.val).running q.val
/-- The state with it replaced. -/
def setCe (s : State) (f : Fin 2) (q : QueueId) (v : Option Collective) : State :=
  let u := mget ({} : CeUnit) s.ces f.val
  { s with ces := mset {} s.ces f.val { u with running := mset none u.running q.val v } }
/-- CE.CFG.DOMAIN. -/
def ceDomain (s : State) (f : Fin 2) : Nat := rd s (.ce f) ceCfg
/-- CPL of an entry. -/
def entCpl (e : List Byte) : Nat := fieldAt e 64 8
/-- SEQ of an entry. -/
def entSeq (e : List Byte) : Nat := fieldAt e 16 4

/-- R393: the completion record and the notification of a command. -/
def ceRecord (s : State) (f : Fin 2) (e : List Byte) (status sat flush : Nat) : State :=
  let rec_ := toLE 1 status ++ [0, 0, 0] ++ toLE 4 (entSeq e) ++ toLE 4 (min sat (2 ^ 32 - 1)) ++ toLE 4 (min flush (2 ^ 32 - 1))
  let s := (domPut s f (ceDomain s f) (entCpl e) rec_ false).2
  let s := if bitOf (fieldAt e 4 1) 3 then
    (match (finOf 48 (fieldAt e 6 1 % 64)) with | some b => signal s b (fieldAt e 5 1) | none => s) else s
  setEvt s (.ce f) 16

/-- Free bytes in a flow domain, in pieces of `w` bytes, where they can be written. -/
def domFree (s : State) (f : Fin 2) (a w n : Nat) : State :=
  (List.range n).foldl (fun s i =>
    let x := freeBytes s w
    (domPut x.2 f (ceDomain s f) (a + w * i) x.1 false).2) s

/-- R413: the outputs of a collective that ends early, and the residual entries of its unsent positions, are unspecified. -/
def ceScrap (s : State) (f : Fin 2) (c : Collective) : State :=
  if cCount c.entry = 0 then s
  else
    let s := domFree s f (cDst c.entry) (cWidth (cOut c.entry)) (outputRun c).2
    if !cRes c.entry then s
    else
      let l := ceSched c
      (List.range l.length).foldl (fun s j => match l[j]? with
        | some x => if x.send && !c.moved.contains j && (!x.final || mget [] c.wire x.pos == []) then
            domFree s f (cResid c.entry + 4 * inputPos c x.pos) 4 x.len
          else s
        | none => s) s

/-- R393, R413: a running collective ends with a status; one that stalls or that a census ends leaves its results open. -/
def ceEnd (s : State) (f : Fin 2) (q : QueueId) (status : Nat) : State :=
  match ceRun s f q with
  | none => s
  | some c =>
    let s := if status = 1 ∨ status = 2 then ceScrap s f c else s
    let s := ceRecord s f c.entry status c.sat c.flush
    wr (setCe s f q none) (.ce f) (ceQQstat q.val) (if s.job.held then 4 else 0)

/-- Every running collective of both engines ends with a status. -/
def ceEndAll (s : State) (status : Nat) : State :=
  ([0, 1] : List (Fin 2)).foldl (fun s f => (List.finRange 4).foldl (fun s q => ceEnd s f q status) s) s

/-- R426: QSTAT of every idle queue of both engines: 0 IDLE, or 4 HELD. -/
def ceHold (s : State) (st : Nat) : State :=
  ([0, 1] : List (Fin 2)).foldl (fun s f => (List.finRange 4).foldl (fun s q =>
    if (ceRun s f q).isNone then wr s (.ce f) (ceQQstat q.val) st else s) s) s

/-! Census. -/

/-- The membership bitmap: whether rank `r` is a member. -/
def isMember (s : State) (r : Nat) : Bool :=
  if r < 16384 then
    let a := rd s (.ce 0) ceMembBase * 2048 + r / 8
    let x := (funcRead s (a / 64) 29 false .ok).1
    bitOf (x.getD (a % 64) 0).toNat (r % 8)
  else false

/-- The members. -/
def members (s : State) : List Nat :=
  let base := rd s (.ce 0) ceMembBase * 2048
  let bytes := (cohBytes s base 2048 29 false .ok).1
  (List.range 16384).filter (fun r => bitOf (bytes.getD (r / 8) 0).toNat (r % 8))

/-- R412: the coordinators, in order of precedence. -/
def coordinators (s : State) : List Nat :=
  rd s (.ce 0) ceLead :: (List.range (min 16 (rd s (.ce 0) ceSuccCnt))).map (fun i => rd s (.ce 0) (ceSucc i))

/-- R414 step 3: this module coordinates: it pledges to itself and calls every member. -/
def coordinate (s : State) : State :=
  let s := { s with job := { s.job with
    pledged := some (myRank s), coordinating := true, answers := [], waits := 0, resend := [] } }
  ((members s).filter (· != myRank s)).foldl (fun s r => ctrlAsk s r 0x11 (toLE 2 (myRank s))) s

/-- R414 step 1: CENSUS to the coordinator at the place reached; at its own place an unpledged member coordinates. -/
def censusPlace (s : State) (n : Nat) : State :=
  let s := { s with job := { s.job with place := n, waits := 0, resend := [] } }
  match (coordinators s)[n]? with
  | none => s
  | some r => if r = myRank s then coordinate s else ctrlAsk s r 0x10 []

/-- R413: a census starts: running collectives end with STATUS CENSUS and the queues hold. -/
def censusStart (s : State) : State :=
  if rd s (.ce 0) ceJobValid = 0 ∨ s.job.running ∨ rd s (.ce 0) ceJobFenced = 1 then s
  else
    let s := ceEndAll s 2
    let s := { s with job := { s.job with
      running := true, pledged := none, coordinating := false, answers := [], parts := [], held := true } }
    let s := ceHold s 4
    censusPlace (setEvt (wr s (.ce 0) ceJobCensus 1) (.ce 0) 17) 0

/-! Errors of flows. -/

/-- R250: a mover or gather operation's remote part fails with REMOTE_ERR; the engine stops once every lower row has settled. -/
def movRemoteFail (s : State) (b : BayId) (m : Fin 4) (id row addr : Nat) : State :=
  modMov s b m id (fun r => { r with fail := lowerFail r.fail (row, 19, BitVec.ofNat 64 addr, true), outst := r.outst - 1 })

/-- The same of a gather engine. -/
def gthRemoteFail (s : State) (b : BayId) (g : Fin 2) (id row addr : Nat) : State :=
  modGth s b g id (fun r => { r with fail := lowerFail r.fail (row, 18, BitVec.ofNat 64 addr, true) })

/-- Free bytes in bay store, where they can be written. -/
def storeFree (s : State) (b : BayId) (a n : Nat) : State :=
  if storeWritable a n then (fun x : List Byte × State => storeWrite x.2 b a x.1 false) (freeBytes s n) else s

/-- Free bytes at a mover's local destination: bay store (space 0) or virtual memory (space 1). -/
def destFree (s : State) (b : BayId) (space a n : Nat) : State :=
  match space with
  | 0 => storeFree s b a n
  | 1 => (pagePieces a n).foldl (fun s pc =>
      let x := freeBytes s pc.2
      (vaWrite x.2 b 27 (pc.1 % 2 ^ 64) x.1 0 false).2) s
  | _ => s

/-- R250: the bytes of the failing row and of higher rows of a mover's destination are unspecified. With an address FIFO for the destination
only the row at hand has an address. -/
def movScrap (s : State) (b : BayId) (m : Fin 4) (r : MovRun) (row : Nat) : State :=
  let d := movDesc r.desc
  if !pgWorks s (.mov b m) then s
  else match r.inline with
  | some x => destFree s b (if x.1 then 0 else 1) (if x.1 then x.2.toNat % 2 ^ 27 else x.2.toNat) r.payload.length
  | none =>
    if d.kind = 4 then storeFree s b (d.src + 8 * row) (8 * (d.rows - row))
    else if d.kind = 2 then s
    else if d.afEn ∧ d.afDst then (match r.rowAddr with | some a => destFree s b d.dstSpace a.toNat d.dstLen | none => s)
    else (rangeFrom row (d.rows - row)).foldl (fun s i => destFree s b d.dstSpace ((d.dst + i * d.dstStride) % 2 ^ 64) d.dstLen) s

/-- R250: the same of a gather's rows. -/
def gthScrap (s : State) (b : BayId) (g : Fin 2) (r : GthRun) (row : Nat) : State :=
  let d := gthDesc r.desc
  if !pgWorks s (.gth b g) then s
  else (rangeFrom row (r.op.count.toNat - row)).foldl (fun s i => storeFree s b (64 * r.op.dst.toNat + i * d.dstStride) d.rowBytes) s

/-- R250: a mover stops when the failure it holds has the lowest row that can still fail. -/
def movSettle (s : State) (b : BayId) (m : Fin 4) (id : Nat) : State :=
  match (movList s b m).find? (fun r => r.id == id) with
  | none => s
  | some r => match r.fail with
    | none => s
    | some f =>
      let flow := fieldAt r.desc 44 4 % 2 ^ 18
      let lower := (flw s flow).owners.any (fun o => o.who == .mov b m id && decide (o.row < f.1))
      if lower then s
      else
        let s := movScrap s b m r f.1
        demandFault (setMovs s b m ((movList s b m).filter (fun x => x.id != id))) b (.mov b m) r.src id f

/-- R250: a gather engine stops when every row below the failure has been written. -/
def gthSettle (s : State) (b : BayId) (g : Fin 2) (id : Nat) : State :=
  match (gthList s b g).find? (fun r => r.id == id) with
  | none => s
  | some r => match r.fail with
    | none => s
    | some f =>
      if (r.done.filter (fun i => decide (i < f.1))).length < f.1 then s
      else
        let s := gthScrap s b g r f.1
        demandFault (setGths s b g ((gthList s b g).filter (fun x => x.id != id))) b (.gth b g) r.src id f

/-- One packet's operation fails at its owner. -/
def ownerFail (s : State) (o : FlowOwner) (addr : Nat) : State :=
  match o.who with
  | .mov b m id => movSettle (movRemoteFail s b m id o.row addr) b m id
  | .gth b g id => gthSettle (gthRemoteFail s b g id o.row addr) b g id
  | .ce _ _ => s
  | .acc => s

/-- Every outstanding operation of a flow completes with REMOTE_ERR. -/
def ownersFail (s : State) (i : Nat) : State :=
  let v := flw s i
  let s := setFlw s i { v with unacked := [], owners := [], retries := 0, full := false }
  v.owners.foldl (fun s o => ownerFail s o ((v.unacked.find? (fun k => k.psn.toNat == o.psn)).elim 0 (fun k => k.addr.toNat))) s

/-- R379: a record in the error queue. -/
def eqRecord (s : State) (i code rank : Nat) : State :=
  let pg := Page.flow (flowDie i)
  let n := 2 ^ rd s pg flowEqSize
  let tail := rd s pg flowEqTail
  let s := if tail - rd s pg flowEqHead = n ∨ tail + 2 ^ 32 - rd s pg flowEqHead = n then
      raise (satAdd s pg flowEqOvf 1) pg { bit := 16 }
    else
      let a := rd s pg flowEqBase * 4096 + 8 * (tail % n)
      let w := i % 131072 + code % 256 * 2 ^ 24 + rank % 65536 * 2 ^ 32
      let s := if inDram s a 8 then cohPut s a 29 (toLE 8 w) false else s
      wrapAdd s pg flowEqTail 1
  setEvt s pg 16

/-- The flows that a running collective names: those of its group (R391, R413). -/
def ceUses (s : State) (i : Nat) : Bool :=
  ([0, 1] : List (Fin 2)).any (fun f => (List.finRange 4).any (fun q => match ceRun s f q with
    | none => false
    | some c => c.peers.any (fun x => x.2.1 == i)))

/-- R371, R379, R413: a flow enters ERROR with a code: its operations complete with REMOTE_ERR, a record is written, and one that a
running collective names starts a census. -/
def flowError (s : State) (i code : Nat) : State :=
  let v := flw s i
  if flwSt v ≠ 1 then s
  else
    let s := flowState s i { v with ctx4 := putBits v.ctx4 7 0 code, closing := false } 2
    let uses := ceUses s i
    let s := eqRecord (ownersFail s i) i code (flwRank v)
    if uses ∧ code ≠ 5 then censusStart s else s

/-! Sending on a flow. -/

/-- What happens to a packet an operation offers to a flow. -/
inductive SendRes where
  | sent (s : State) | wait | fail
deriving DecidableEq, Repr

/-- R337, R345: an operation and the fabric die of a flow reach each other over the die links. -/
def whoReach (s : State) (w : FlowWho) (i : Nat) : Bool :=
  let d := 16 + (flowDie i).val
  match w with
  | .mov b _ _ | .gth b _ _ => dieReach s (bayDie b) d && dieReach s d (bayDie b)
  | .ce f _ => dieReach s (16 + f.val) d && dieReach s d (16 + f.val)
  | .acc => true

/-- R361, R362, R371, R374, R385: a request packet is offered to flow `i`: the flow must be OPEN and the rank in the catalogue; the window
of 256 packets, 8 of them atomics, and a STOPPED page make it wait. -/
def flowSend (s : State) (i rank : Nat) (k : Packet) (o : FlowOwner) : SendRes :=
  let v := flw s i
  if flwSt v ≠ 1 then .fail
  else match rankPlace s rank with
  | none => .fail
  | some pl =>
    if pgState s (.flow (flowDie i)) ≠ 4 ∨ !rankValid s ∨ v.closing ∨ !whoReach s o.who i then .wait
    else if 256 ≤ v.unacked.length ∨ (k.op = 4 ∧ 8 ≤ (v.unacked.filter (fun x => x.op == 4)).length) then .wait
    else
      let psn := flwTx v
      let k := { k with
        dstPlace := BitVec.ofNat 16 pl, dstRank := BitVec.ofNat 16 rank, srcPlace := BitVec.ofNat 16 (myPlace s),
        srcRank := BitVec.ofNat 16 (myRank s), dstFlow := BitVec.ofNat 18 (flwRemote v), psn := BitVec.ofNat 24 psn,
        srcEpoch := BitVec.ofNat 16 (fepoch s), hops := 0, level := false, cls := false, status := 0 }
      .sent (netSend (setFlw s i { v with
        ctx1 := putBits v.ctx1 39 16 (psn + 1), unacked := v.unacked ++ [k], owners := v.owners ++ [{ o with psn := psn }] }) (flowDie i) k)

/-- A packet with nothing set but its operation, address and body. -/
def mkPkt (op addr len : Nat) (data : List Byte) : Packet := {
  dstPlace := 0, dstRank := 0, srcPlace := 0, srcRank := 0, dstFlow := 0, op := BitVec.ofNat 5 op, reread := false,
  poison := false, carried := false, last := false, psn := 0, tag := 0, hops := 0, level := false, cls := false, status := 0,
  srcEpoch := 0, len := BitVec.ofNat 13 len, addr := BitVec.ofNat 64 addr, data := data, crc := 0 }

end Sys2Proof.Machine
end

