-- ==== Sys2Proof/Machine/Movers.lean ====
section
/-! DEFINITION. The movers (R233 to R241, R250, R255). -/

namespace Sys2Proof.Machine

/-- The end of the last row of a side. -/
def rowsEnd (start stride rows len : Nat) : Nat := start + (rows - 1) * stride + len

/-- R75, R236: the refusal of a descriptor whatever its rows: its kind, its formats and its spaces, for a payload of `plen` bytes: PG_ERR bit and
the offset of the field at fault. -/
def movForm (d : MovDesc) (plen : Nat) : Option (Nat × Nat) :=
  if 4 < d.kind ∨ (d.kind = 4 ∧ 10 < d.aop) ∨ (d.kind ≠ 4 ∧ d.aop ≠ 0) then some (17, 0)
  else if d.kind = 1 ∧ (fmtOf d.fmtS).isNone then some (16, 2)
  else if d.kind = 1 ∧ (fmtOf d.fmtD).isNone then some (16, 3)
  else if d.dstSpace = 2 ∨ (d.srcSpace = 2 ∧ plen = 0) then some (17, 1)
  else if d.kind = 4 ∧ !d.remote ∧ d.dstSpace ≠ 1 then some (17, 1)
  else none

/-- R236: the refusal of a descriptor with rows, beside `movForm`. -/
def movCheck (d : MovDesc) (plen : Nat) : Option (Nat × Nat) :=
  let blk := fun c => (fmtOf c).any (fun f => f.form != .plain)
  let reads := d.kind = 0 ∨ d.kind = 1 ∨ d.kind = 2
  let writes := d.kind = 0 ∨ d.kind = 1 ∨ d.kind = 3
  let srcAf := d.afEn ∧ !d.afDst
  let dstAf := d.afEn ∧ d.afDst
  if d.kind = 4 ∧ (d.src % 8 ≠ 0 ∨ !storeWritable d.src (8 * d.rows)) then some (17, 8)
  else if reads ∧ d.srcSpace = 2 ∧ !srcAf ∧ plen < rowsEnd d.src d.srcStride d.rows d.srcLen then some (17, 8)
  else if d.kind = 1 ∧ blk d.fmtS ∧ !srcAf ∧ d.src % 4 ≠ 0 then some (17, 8)
  else if reads ∧ d.srcSpace = 0 ∧ !srcAf ∧ storeSize < rowsEnd d.src d.srcStride d.rows d.srcLen then some (17, 8)
  else if d.kind = 4 ∧ d.rowLen ≠ 4 ∧ d.rowLen ≠ 8 then some (17, 24)
  else if d.kind = 4 ∧ !dstAf ∧ d.dst % d.rowLen ≠ 0 then some (17, 16)
  else if d.kind = 1 ∧ blk d.fmtD ∧ !dstAf ∧ d.dst % 4 ≠ 0 then some (17, 16)
  else if writes ∧ d.dstSpace = 0 ∧ !dstAf ∧ collBase < rowsEnd d.dst d.dstStride d.rows d.dstLen then some (17, 16)
  else if d.kind = 1 ∧ (blk d.fmtS ∨ blk d.fmtD) ∧ d.rowLen % 32 ≠ 0 then some (17, 24)
  else if d.kind = 1 ∧ blk d.fmtS ∧ !srcAf ∧ 1 < d.rows ∧ d.srcStride % 4 ≠ 0 then some (17, 32)
  else if d.kind = 1 ∧ blk d.fmtD ∧ !dstAf ∧ 1 < d.rows ∧ d.dstStride % 4 ≠ 0 then some (17, 36)
  else if d.kind = 4 ∧ !dstAf ∧ 1 < d.rows ∧ d.dstStride % d.rowLen ≠ 0 then some (17, 36)
  else if 1 < d.rows ∧ d.dstStride < d.dstLen then some (17, 36)
  else if d.kind = 1 ∧ d.sentEn ∧ d.dstSpace = 0 ∧
      !vecRange ((d.dst : Int) + toInt 64 d.operand) (4 * ((d.rows * d.rowLen + 4095) / 4096)) then some (17, 48)
  else none

/-- R233: a mover accepts while it is RUNNING and holds fewer than 4 operations. -/
def movAccepts (s : State) (b : BayId) (m : Fin 4) : Bool := pgState s (.mov b m) == 4 && decide ((movList s b m).length < 4)

/-- R236: a refusal stops the mover. -/
def movRefuse (s : State) (b : BayId) (m : Fin 4) (op : MovOp) (src : OpSrc) (bit off : Nat) : State :=
  raise s (.mov b m) { bit := bit, unit := srcUnit src, detail := op.di.toNat * 256 + off, stop := true }

/-- DONE and PG_EVT bit 16 of a completed operation, whose SIG acts. -/
def engDoneOp (s : State) (b : BayId) (p : Page) (id : Nat) : State :=
  opDone (setEvt (wrapAdd s p engDone 1) p 16) b id

/-- R234, R236, R238: a DESC operation completes its issue handshake; one without rows or bytes is refused only for what `movForm` checks. -/
def movDescIssue (s : State) (b : BayId) (m : Fin 4) (op : MovOp) (src : OpSrc) (sig : BitVec 8) : State :=
  let p := Page.mov b m
  if op.asel = 3 then movRefuse s b m op src 17 0x42
  else if rd s p engDescCount ≤ op.di.toNat then movRefuse s b m op src 17 0x43
  else
    let r := storeRead s b p (srcUnit src) (64 * (rd s p engDescBase + op.di.toNat)) 64 .ok .none
    let raw := if op.asel = 1 then splice r.1 8 (toLE 8 op.addr.toNat)
      else if op.asel = 2 then splice r.1 16 (toLE 8 op.addr.toNat) else r.1
    let d := movDesc raw
    let s := r.2.2
    match movForm d op.payload.length with
    | some e => movRefuse s b m op src e.1 e.2
    | none =>
    if d.rows = 0 ∨ d.rowLen = 0 then
      let n := newOp s b src sig 1
      engDoneOp n.2 b p n.1
    else match movCheck d op.payload.length with
    | some e => movRefuse s b m op src e.1 e.2
    | none =>
      let n := newOp s b src sig 1
      setMovs n.2 b m (movList n.2 b m ++ [{
        id := n.1, desc := raw, inline := none, payload := op.payload, src := src, sig := sig,
        seed := BitVec.ofNat 32 (rd s (.bayCtl b) baySrSeed), bufPoison := r.2.1 }])

/-- R237, R238: an INLINE operation completes its issue handshake. -/
def movInlineIssue (s : State) (b : BayId) (m : Fin 4) (op : MovOp) (src : OpSrc) (sig : BitVec 8) : State :=
  let p := Page.mov b m
  if op.payload.length = 0 then
    let n := newOp s b src sig 1
    engDoneOp n.2 b p n.1
  else if op.space ∧ !storeWritable (op.addr.toNat % 2 ^ 27) op.payload.length then movRefuse s b m op src 17 0x46
  else
    let n := newOp s b src sig 1
    setMovs n.2 b m (movList n.2 b m ++ [{
      id := n.1, desc := [], inline := some (op.space, op.addr), payload := op.payload, src := src, sig := sig }])

/-- What the processing of a piece of a row meets. -/
inductive MovRes where
  | ok (s : State) | wait (s : State) | fail (row bit addr : Nat) (va : Bool) (s : State)
deriving Repr

/-- The failure of an access by virtual address: PAGE_FAULT is bit `pf`, ABSENT_TARGET bit 3. -/
def vaFail (r : VaRes) (row pf : Nat) (s : State) : MovRes :=
  match r with
  | .ok _ _ => .ok s
  | .fault a => .fail row pf a true s
  | .absent a => .fail row 3 a true s
  | .wait => .wait s

/-- R434: the requests that cover a host range: at most `cap` bytes each, none across a 4 KiB boundary. -/
def hostPieces (cap : Nat) : Nat → Nat → Nat → List (Nat × Nat)
  | 0, _, _ => []
  | n + 1, a, len => if len = 0 then [] else
    let k := min len (min cap (4096 - a % 4096))
    (a, k) :: hostPieces cap n (a + k) (len - k)

/-- R434: a device-DMA read leaves for the host. -/
def dmaAsk (s : State) (who : DmaWho) (addr len off : Nat) : State :=
  let h := s.hostPort
  { s with hostPort := { h with
    dma := h.dma ++ [{ tag := h.dmaNext, who := who, addr := BitVec.ofNat 64 addr, len := len, off := off }], dmaNext := h.dmaNext + 1 } }

/-- The bytes of a row that came from the host, once all have. -/
def bufRow (buf : List (Nat × List Byte)) (len : Nat) : Option (List Byte) :=
  if (buf.map (fun x => x.2.length)).foldl (· + ·) 0 = len then
    some (buf.foldl (fun l x => splice l x.1 x.2) (List.replicate len 0))
  else none

/-- The mover's checks of bytes it reads: poison sets POISON. -/
def movPoison (s : State) (b : BayId) (m : Fin 4) (src : OpSrc) (addr : Nat) (va : Bool) (bad crc : Bool) : State :=
  let s := if crc then raiseAt s (.mov b m) 4 (srcUnit src) addr va else s
  if bad then raiseAt s (.mov b m) 7 (srcUnit src) addr va else s

/-- A read of `len` source bytes at `a` (row offset `pos`): the bytes and their poison, or what stops it. An address FIFO may give a row that breaks
R236: BAD_DESC at that row (log 123). -/
def movRead (s : State) (b : BayId) (m : Fin 4) (r : MovRun) (d : MovDesc) (a pos len : Nat) (chk : Check) :
    (MovRes ⊕ (List Byte × Bool)) × State :=
  match d.srcSpace with
  | 0 =>
    if !inStore a len then (.inl (.fail r.row 17 a false s), s)
    else
      let x := storeRead s b (.mov b m) (srcUnit r.src) a len chk .none
      (.inr (x.1, x.2.1), x.2.2)
  | 1 => match vaRead s b 27 a len chk with
    | (.ok dt p, crc, s) => (.inr (dt, p), movPoison s b m r.src a true p crc)
    | (e, _, s) => (.inl (vaFail e r.row 18 s), s)
  | 2 =>
    if r.payload.length < a + len then (.inl (.fail r.row 17 a false s), s)
    else (.inr (slice r.payload a len, false), s)
  | _ =>
    if hostGone s then (.inl (.fail r.row 20 a false s), s)
    else match bufRow r.buf d.srcLen with
      | some dt => (.inr (slice dt pos len, false), s)
      | none =>
        if r.asked then (.inl (.wait s), s)
        else
          let row := a - pos
          let s := (hostPieces 4096 (d.srcLen / 4096 + 2) row d.srcLen).foldl
            (fun s x => dmaAsk s (.mov b m r.id) x.1 x.2 (x.1 - row)) s
          let s := modMov s b m r.id (fun r => { r with asked := true })
          (.inl (.wait s), s)

/-- R434: bytes written to the host. -/
def hostWrite (s : State) (a : Nat) (d : List Byte) (poison : Bool) : State :=
  let h := s.hostPort
  { s with hostPort := { h with writes := h.writes ++
    (hostPieces 256 (d.length / 256 + d.length / 4096 + 3) a d.length).map (fun x => (BitVec.ofNat 64 x.1, slice d (x.1 - a) x.2, poison)) } }

/-- A write of bytes, of format code `tag`, to a local destination space of an operation. -/
def movWrite (s : State) (b : BayId) (m : Fin 4) (id row space a : Nat) (dt : List Byte) (tag : Byte) (poison : Bool) : MovRes :=
  match space with
  | 0 => if storeWritable a dt.length then .ok (storeWrite s b a dt poison) else .fail row 17 a false s
  | 1 => match vaWrite s b 27 a dt tag poison with
    | (.ok _ _, s) => .ok s
    | (e, s) => vaFail e row 18 s
  | _ =>
    if hostGone s then .fail row 20 a false s
    else .ok (modMov (hostWrite s a dt poison) b m id (fun r => { r with lastHost := some (BitVec.ofNat 64 (a + dt.length - 1)) }))

/-- R239: a whole block that memory delivers with its side bits, at a virtual address. -/
def movBlock (s : State) (b : BayId) (row a : Nat) : (MovRes ⊕ Blk) × State :=
  match bayRange s b 27 a 256 .read with
  | (.inl e, s) => (.inl (vaFail e row 18 s), s)
  | (.inr l, s) =>
    let x := cohBlock s ((l.headD (0, 0)).1 / 256) 27 false .ok
    (.inr x.1, x.2)

/-- R231, R239: a whole block written with its carried CRC. -/
def movPutCarried (s : State) (b : BayId) (row space a : Nat) (k : Blk) : MovRes :=
  match space with
  | 0 =>
    if storeWritable a 256 then .ok (storeWriteCarried s b a k.data k.crc k.poison) else .fail row 17 a false s
  | _ => match bayRange s b 27 a 256 .write with
    | (.inl e, s) => vaFail e row 18 s
    | (.inr l, s) => .ok (cohPutBlock s ((l.headD (0, 0)).1 / 256) 27
        { data := k.data, crc := some k.crc, tag := k.tag, poison := k.poison })

/-- R234: the address that the FIFO gives the current row, taken when the row begins. -/
def movAf (s : State) (b : BayId) (m : Fin 4) (r : MovRun) (d : MovDesc) : Option (MovRun × State) :=
  if !d.afEn ∨ r.rowAddr.isSome then some (r, s)
  else match afPop s b d.af with
    | none => none
    | some (v, s) =>
      let f := fun (r : MovRun) => { r with rowAddr := some v }
      some (f r, modMov s b m r.id f)

/-- What the operation writes of its current row is poisoned whatever it reads: its descriptor was, or a check of its datapath failed on the row
(R484). -/
def movBad (r : MovRun) : Bool := r.bufPoison || r.logicRow == some r.row

/-- R234: the source address of the current row. -/
def movSrcAddr (r : MovRun) (d : MovDesc) : Nat :=
  if d.afEn ∧ !d.afDst then (r.rowAddr.getD 0).toNat else (d.src + r.row * d.srcStride) % 2 ^ 64
/-- Its destination address. -/
def movDstAddr (r : MovRun) (d : MovDesc) : Nat :=
  if d.afEn ∧ d.afDst then (r.rowAddr.getD 0).toNat else (d.dst + r.row * d.dstStride) % 2 ^ 64

/-- The operation advances by `k` bytes of its row. -/
def movAdvance (d : MovDesc) (k : Nat) (r : MovRun) : MovRun :=
  if r.pos + k < d.srcLen ∧ d.kind ≠ 1 ∧ d.kind ≠ 4 then { r with pos := r.pos + k }
  else { r with row := r.row + 1, pos := 0, rowAddr := none, buf := [], asked := false }

/-- The state with an operation advanced. -/
def movNext (s : State) (b : BayId) (m : Fin 4) (id : Nat) (d : MovDesc) (k : Nat) : State := modMov s b m id (movAdvance d k)

/-- R239: COPY of the piece at the current position: whole aligned blocks of DRAM are carried, everything else is verified on read. -/
def movCopyPiece (s : State) (b : BayId) (m : Fin 4) (r : MovRun) (d : MovDesc) (chk : Check) : MovRes :=
  let a := (movSrcAddr r d + r.pos) % 2 ^ 64
  let t := (movDstAddr r d + r.pos) % 2 ^ 64
  let k := min (d.rowLen - r.pos) (min (256 - a % 256) (256 - t % 256))
  let step := fun (x : MovRes) => match x with
    | .ok s => MovRes.ok (movNext s b m r.id d k)
    | e => e
  if k = 256 ∧ d.srcSpace = 1 ∧ d.dstSpace ≤ 1 then
    match movBlock s b r.row a with
    | (.inl e, _) => e
    | (.inr x, s) => step (movPutCarried (movPoison s b m r.src a true x.poison false) b r.row d.dstSpace t
        { x with poison := x.poison || movBad r })
  else match movRead s b m r d a r.pos k chk with
    | (.inl e, _) => e
    | (.inr x, s) => step (movWrite s b m r.id r.row d.dstSpace t x.1 0 (x.2 || movBad r))

/-- The open scale code of SCALE = GIVEN with E_GIVEN = −128, which E8M0 cannot hold: a free byte in each block (log 20). -/
def freeScales (s : State) (f : Fmt) (bytes : List Byte) : List Byte × State :=
  (List.range (bytes.length / blkSize f)).foldl (fun (x : List Byte × State) i =>
    let v := fresh x.2
    (splice x.1 (i * blkSize f) (toLE 1 (v.1.toNat % 256)), v.2)) (bytes, s)

/-- R235: CONVERT of the current row. A block address from the FIFO that breaks R81 is refused at its row (log 123). -/
def movConvertRow (s : State) (b : BayId) (m : Fin 4) (r : MovRun) (d : MovDesc) (chk : Check) : MovRes :=
  match fmtOf d.fmtS, fmtOf d.fmtD with
  | some fs, some fd =>
    if (fs.form != .plain && (movSrcAddr r d) % 4 != 0) then .fail r.row 17 (movSrcAddr r d) (d.srcSpace == 1) s
    else if (fd.form != .plain && (movDstAddr r d) % 4 != 0) then .fail r.row 17 (movDstAddr r d) (d.dstSpace == 1) s
    else match movRead s b m r d (movSrcAddr r d) 0 d.srcLen chk with
    | (.inl e, _) => e
    | (.inr x, s) =>
      let q : QCfg := {
        fmt := fd, nesc := d.nesc, given := if d.given then some d.eGiven else none, sr := d.sr,
        s0 := lfsrStart r.seed.toNat d.salt }
      let j := r.row * d.rowLen
      let e := encRun q (decRun fs d.rowLen x.1) j
      let y := if d.given ∧ fd.form ≠ .plain ∧ d.eGiven = -128 then freeScales s fd e.1 else (e.1, s)
      let bad := x.2 || movBad r
      match movWrite y.2 b m r.id r.row d.dstSpace (movDstAddr r d) y.1 (BitVec.ofNat 8 d.fmtD) bad with
      | .ok s =>
        let mine := rangeFrom (j / 4096) ((j + d.rowLen + 4095) / 4096 - j / 4096)
        let recs := (List.range (d.rowLen / 4096 + 2)).foldl (fun l i =>
          let lo := max j ((j / 4096 + i) * 4096)
          let hi := min (j + d.rowLen) ((j / 4096 + i + 1) * 4096)
          if lo < hi then recAdd l (j / 4096 + i) ((e.2.drop (lo - j)).take (hi - lo)) else l) r.recs
        .ok (movNext (modMov s b m r.id (fun r => { r with recs := recs, recBad := if bad then r.recBad ++ mine else r.recBad })) b m r.id d d.srcLen)
      | e => e
  | _, _ => .wait s

/-- R235: PUT of the piece at the current position: one WRITE packet. -/
def movPutPiece (s : State) (b : BayId) (m : Fin 4) (r : MovRun) (d : MovDesc) (chk : Check) : MovRes :=
  let a := (movSrcAddr r d + r.pos) % 2 ^ 64
  let t := (movDstAddr r d + r.pos) % 2 ^ 64
  let k := min (d.rowLen - r.pos) (min (256 - a % 256) (256 - t % 256))
  let last := decide (r.row + 1 = d.rows ∧ r.pos + k = d.rowLen)
  let go := fun (s : State) (p : Packet) =>
    match flowSend s d.flow d.rank { p with last := last } { psn := 0, who := .mov b m r.id, row := r.row } with
    | .sent s => MovRes.ok (movNext (modMov s b m r.id (fun r => { r with outst := r.outst + 1 })) b m r.id d k)
    | .wait => .wait s
    | .fail => .fail r.row 19 t true s
  if k = 256 ∧ d.srcSpace = 1 then
    match movBlock s b r.row a with
    | (.inl e, _) => e
    | (.inr x, s) =>
      go (movPoison s b m r.src a true x.poison false)
        { mkPkt 1 t 256 x.data with carried := true, crc := x.crc, tag := x.tag, poison := x.poison || movBad r }
  else match movRead s b m r d a r.pos k chk with
    | (.inl e, _) => e
    | (.inr x, s) => go s { mkPkt 1 t k x.1 with poison := x.2 || movBad r }

/-- R235: GET of the piece at the current position: one READ packet of at most 4,096 bytes. -/
def movGetPiece (s : State) (b : BayId) (m : Fin 4) (r : MovRun) (d : MovDesc) : MovRes :=
  let a := (movSrcAddr r d + r.pos) % 2 ^ 64
  let t := (movDstAddr r d + r.pos) % 2 ^ 64
  let k := min (d.rowLen - r.pos) (4096 - a % 4096)
  match flowSend s d.flow d.rank (mkPkt 2 a k []) { psn := 0, who := .mov b m r.id, row := r.row, dst := BitVec.ofNat 64 t } with
  | .sent s => .ok (movNext (modMov s b m r.id (fun r => { r with outst := r.outst + 1 })) b m r.id d k)
  | .wait => .wait s
  | .fail => .fail r.row 19 a true s

/-- The result of an atomic goes to bay store at SRC + 8i, zero-extended to 8 bytes. -/
def atomicOut (s : State) (b : BayId) (d : MovDesc) (i old : Nat) (poison : Bool) : State :=
  storeWrite s b (d.src + 8 * i) (toLE 8 old) poison

/-- R235: one atomic: on a local target in the bay cache with the line held exclusively, on a remote one by an ATOMIC packet. The packet's
TAG carries AOP and the operand size, which R372 does not place (log 21). -/
def movAtomicRow (s : State) (b : BayId) (m : Fin 4) (r : MovRun) (d : MovDesc) : MovRes :=
  let t := movDstAddr r d
  if t % d.rowLen ≠ 0 then .fail r.row 17 t true s
  else if d.remote then
    match flowSend s d.flow d.rank { mkPkt 4 t 16 (toLE 8 d.operand ++ toLE 8 d.compare) with tag := BitVec.ofNat 8 (d.aop + 16 * d.rowLen) }
        { psn := 0, who := .mov b m r.id, row := r.row } with
    | .sent s => .ok (movNext (modMov s b m r.id (fun r => { r with outst := r.outst + 1 })) b m r.id d 1)
    | .wait => .wait s
    | .fail => .fail r.row 19 t true s
  else match bayXlate s b 27 t .write with
    | (.wait, s) => .wait s
    | (.fault, s) => .fail r.row 18 t true s
    | (.ok pa, s) =>
      if !inDram s pa d.rowLen then .fail r.row 3 t true s
      else if lineBusy s (bayDie b) (pa / 64) true then .wait (hostAsk s pa d.rowLen true)
      else
        let x := cohLoad s (bayAgent b) (.bcache b) 27 (pa / 64) .ok
        let o : AtomicOp := {
          aop := BitVec.ofNat 4 d.aop, size := d.rowLen, off := pa % 64, operand := BitVec.ofNat 64 d.operand,
          compare := BitVec.ofNat 64 d.compare }
        let y := atomicLine x.1 o
        let s := cohStore x.2.2 (bayAgent b) (.bcache b) 27 (pa / 64) ((2 ^ d.rowLen - 1) * 2 ^ (pa % 64)) y.1
        let s := movPoison s b m r.src t true x.2.1 false
        .ok (movNext (atomicOut s b d r.row y.2 x.2.1) b m r.id d 1)

/-- R230, R235: after the last row of a CONVERT its sentinel records are written from DST + SENT_DELTA, those of poisoned rows with their mark. -/
def movFinish (s : State) (b : BayId) (m : Fin 4) (r : MovRun) (d : MovDesc) : MovRes :=
  let done := fun (s : State) => MovRes.ok (modMov s b m r.id (fun r => { r with performed := true }))
  if d.kind = 1 ∧ d.sentEn then
    let a := ofInt 64 ((d.dst : Int) + toInt 64 d.operand)
    let put := fun (s : State) (i : Nat) (l : List (BitVec 32)) (bad : Bool) =>
      movWrite s b m r.id (d.rows - 1) d.dstSpace ((a + 4 * i) % 2 ^ 64) (l.flatMap (fun x => toLE 4 x.toNat)) 0 bad
    match r.recBad.eraseDups.foldl (fun (x : MovRes) i => match x with
        | .ok s => put s i [r.recs.getD i 0] true
        | e => e) (put s 0 r.recs r.bufPoison) with
    | .ok s => done s
    | e => e
  else done s

/-- The operation of a mover that its next data step belongs to: the first that has not performed its accesses; one with ORDER = 1 waits
until every earlier one has completed. -/
def movCurrent (s : State) (b : BayId) (m : Fin 4) : Option MovRun :=
  let l := movList s b m
  match l.find? (fun r => !r.performed) with
  | none => none
  | some r =>
    let first := l.head?.any (fun x => x.id == r.id)
    if r.inline.isNone ∧ (movDesc r.desc).order ∧ !first then none else if r.fail.isSome then none else some r

/-- Pieces of one operation, until it has no more, waits or fails. -/
def movLoop (piece : State → MovRun → MovDesc → MovRes) (b : BayId) (m : Fin 4) (id : Nat) : Nat → State → State
  | 0, s => s
  | n + 1, s =>
    match (movList s b m).find? (fun r => r.id == id) with
    | none => s
    | some r =>
      let d := movDesc r.desc
      let fail := fun (row bit addr : Nat) (va : Bool) (s : State) =>
        movSettle (modMov s b m id (fun r => { r with fail := lowerFail r.fail (row, bit, BitVec.ofNat 64 addr, va) })) b m id
      if d.rows ≤ r.row then
        match movFinish s b m r d with
        | .ok s => s
        | .wait s => s
        | .fail row bit a va s => fail row bit a va s
      else match movAf s b m r d with
      | none => s
      | some (r, s) => match piece s r d with
        | .ok s => movLoop piece b m id n s
        | .wait s => s
        | .fail row bit a va s => fail row bit a va s

/-- A mover works on its current operation if it is of the kind named: STOP lets held operations finish. -/
def movRun (s : State) (b : BayId) (m : Fin 4) (kind : Nat) (piece : State → MovRun → MovDesc → MovRes) : State :=
  if !pgWorks s (.mov b m) then s
  else match movCurrent s b m with
  | none => s
  | some r =>
    let d := movDesc r.desc
    if r.inline.isSome ∨ d.kind ≠ kind then s
    else movLoop piece b m r.id (d.rows * (d.rowLen / 64 + 3) + 2) (modMov s b m r.id (fun r => { r with started := true }))

/-- R249: run-ahead on the sides of an operation that lie in the DRAM space, after its access to its current row. -/
def movAhead (s : State) (b : BayId) (r : MovRun) (d : MovDesc) (n : Nat) : State :=
  let s := if d.srcSpace = 1 ∧ d.kind ≠ 3 ∧ d.kind ≠ 4 ∧ !(d.afEn ∧ !d.afDst) then
      runAhead s b 27 (d.src, (d.rows - 1) * d.srcStride + d.srcLen) (movSrcAddr r d) d.srcLen n else s
  if d.dstSpace = 1 ∧ d.kind ≤ 1 ∧ !(d.afEn ∧ d.afDst) then
    runAhead s b 27 (d.dst, (d.rows - 1) * d.dstStride + d.dstLen) (movDstAddr r d) d.dstLen n else s

/-- A mover's data steps: what SECDED and the datapath's checks find in them (R230, R484), the steps, and the run-ahead that follows (R249). -/
def movWork (s : State) (b : BayId) (m : Fin 4) (kind : Nat) (u : Upset) (ahead : Nat) (piece : State → MovRun → MovDesc → MovRes) : State :=
  match movCurrent s b m with
  | none => s
  | some r =>
    let d := movDesc r.desc
    if !pgWorks s (.mov b m) ∨ r.inline.isSome ∨ d.kind ≠ kind then s
    else
      let s := logicCheck (storeUpset s b u) (.mov b m) (srcUnit r.src) u
      let s := if u = .logic then modMov s b m r.id (fun r => { r with logicRow := some r.row }) else s
      movAhead (movRun s b m kind piece) b r d ahead

/-- MOV_DESC (R233, R234, R236, R238). `u`: what SECDED finds in the descriptor. -/
def execMovDesc (b : BayId) (m : Fin 4) (op : MovOp) (q : QueueId) (sig : BitVec 8) (u : Upset) (s : State) : Out :=
  .next (if movAccepts s b m then movDescIssue (storeUpset s b u) b m op (.queue q) sig else s)

/-- MOV_INLINE (R237, R238). -/
def execMovInline (b : BayId) (m : Fin 4) (op : MovOp) (q : QueueId) (sig : BitVec 8) (s : State) : Out :=
  .next (if movAccepts s b m then movInlineIssue s b m op (.queue q) sig else s)

/-- MOV_COPY (R235, R239): the current COPY moves its rows; it goes on with a later MOV_COPY where it has to wait. -/
def execMovCopy (b : BayId) (m : Fin 4) (chk : Check) (u : Upset) (ahead : Nat) (s : State) : Out :=
  .next (movWork s b m 0 u ahead (fun s r d => movCopyPiece s b m r d chk))

/-- MOV_CONVERT (R235). -/
def execMovConvert (b : BayId) (m : Fin 4) (chk : Check) (u : Upset) (ahead : Nat) (s : State) : Out :=
  .next (movWork s b m 1 u ahead (fun s r d => movConvertRow s b m r d chk))

/-- MOV_PUT (R235, R239, R372). -/
def execMovPut (b : BayId) (m : Fin 4) (chk : Check) (u : Upset) (ahead : Nat) (s : State) : Out :=
  .next (movWork s b m 2 u ahead (fun s r d => movPutPiece s b m r d chk))

/-- MOV_GET (R235, R239, R372). -/
def execMovGet (b : BayId) (m : Fin 4) (s : State) : Out := .next (movRun s b m 3 (fun s r d => movGetPiece s b m r d))

/-- MOV_ATOMIC (R235). -/
def execMovAtomic (b : BayId) (m : Fin 4) (s : State) : Out := .next (movRun s b m 4 (fun s r d => movAtomicRow s b m r d))

/-- R237: an INLINE write of the head operation is performed. -/
def movInlineRun (s : State) (b : BayId) (m : Fin 4) (r : MovRun) (x : Bool × BitVec 64) : MovRes :=
  match movWrite s b m r.id 0 (if x.1 then 0 else 1) (if x.1 then x.2.toNat % 2 ^ 27 else x.2.toNat) r.payload 0 false with
  | .ok s => .ok (modMov s b m r.id (fun r => { r with performed := true }))
  | e => e

/-- MOV_COMPLETE (R233, R240): the oldest operation completes once its writes are performed: an INLINE one writes its payload; one that
wrote to the host first reads back the last line it wrote. -/
def execMovComplete (b : BayId) (m : Fin 4) (s : State) : Out :=
  if !pgWorks s (.mov b m) then .next s
  else match movList s b m with
  | [] => .next s
  | r :: rest =>
    let finish := fun (s : State) => engDoneOp (setMovs s b m rest) b (.mov b m) r.id
    match r.inline with
    | some x => match movInlineRun s b m r x with
      | .ok s => .next (finish s)
      | .wait s => .next s
      | .fail row bit a va s => .next (demandFault (setMovs (movScrap s b m r 0) b m rest) b (.mov b m) r.src r.id (row, bit, BitVec.ofNat 64 a, va))
    | none =>
      if !r.performed ∨ r.outst ≠ 0 ∨ r.fail.isSome then .next s
      else match r.lastHost, r.readBack with
      | none, _ => .next (finish s)
      | some _, 2 => .next (finish s)
      | some _, 1 => .next s
      | some a, _ =>
        let line := a.toNat / 64 * 64
        .next (modMov (dmaAsk s (.movBack b m r.id) line 64 0) b m r.id (fun r => { r with readBack := 1 }))

end Sys2Proof.Machine
end

