-- ==== Sys2Proof/Machine/HostPort.lean ====
section
/-! DEFINITION. The host port (R429 to R453): the function's reset, MSI-X, the exhibit window and its tracker, back-invalidates, device DMA,
host queues, host loss and attachment. -/

namespace Sys2Proof.Machine

/-- The host-port record replaced. -/
def setHost (s : State) (f : HostPort → HostPort) : State := { s with hostPort := f s.hostPort }

/-! MSI-X (R433). -/

/-- A vector is raised: pending while MSI-X is enabled, else held. -/
def raiseVector (s : State) (v : Nat) : State :=
  setHost s (fun h => if h.msixOn then { h with msixPend := mset false h.msixPend v true }
    else { h with msixRaise := mset false h.msixRaise v true })

/-- A function reset clears the MSI-X table with its pending and raise bits, and the IDE keys (R431). -/
def functionReset (s : State) : State :=
  let s := setHost s (fun h => { h with
    msixOn := false, msixFuncMask := false, msixMask := [], msixPend := [], msixRaise := [] })
  wr s .host hostLinkIde 0

/-- R493: an event line on which some page holds a bit set in both PG_EVT and PG_EVTEN. -/
def lineHeld (s : State) (v : Nat) : Bool :=
  allPages.any (fun p => pgLine p == v && pgState s p != 0 && (rd s p hdrEvt &&& rd s p hdrEvtEn) != 0)

/-- MSIX_ENABLE. -/
def execMsixEnable (s : State) : Out :=
  if s.hostPort.funcReset ∨ s.hostPort.msixOn then .next s
  else
    let lines := (List.range 41).filter (lineHeld s)
    .next (setHost s (fun h =>
      let pend := (mkeys h.msixRaise ++ lines).foldl (fun m v => mset false m v true) h.msixPend
      { h with msixOn := true, msixPend := pend, msixRaise := [] }))

/-- MSIX_MESSAGE: a pending, unmasked vector's message is sent; R494: while the domain is down only line 0's is. -/
def execMsixMessage (v : Fin 64) (s : State) : Out :=
  let h := s.hostPort
  if !hostUp s ∨ s.pins.jtag = .boundaryScan ∨ !h.msixOn ∨ !mget false h.msixPend v.val ∨ h.msixFuncMask ∨ mget false h.msixMask v.val ∨
      (!domainUp s ∧ v.val ≠ 0) then .next s
  else .next (setHost s (fun h => { h with msixPend := mset false h.msixPend v.val false, msixSent := h.msixSent ++ [v] }))

/-! The exhibit window and its tracker (R435 to R438). -/

/-- R435: the window is open. -/
def windowOpen (s : State) : Bool :=
  pgState s .host == 4 && rd s .host hostExwCfg == 1 && rd s .host hostAttachAttached == 1 && domainUp s

/-- R435: a device line beyond EXW_SIZE. -/
def windowBeyond (s : State) (line : Nat) : Bool := decide (rd s .host hostExwSize * 4194304 ≤ line)

/-- R435: the physical line of a device line. -/
def windowLine (s : State) (line : Nat) : Nat := rd s .host hostExwBase * 4194304 + line

/-- A request beyond the window's size sets EXW_RANGE. -/
def windowRange (s : State) (line : Nat) : State := if windowBeyond s line then raise s .host { bit := 20 } else s

/-- A request on this line of the window cannot be carried out: the window is closed or ends below it. -/
def windowRefuses (s : State) (line : Nat) : Bool := !windowOpen s || windowBeyond s line

/-- R435: a read of the closed window: poisoned data, whose bytes the spec does not give. -/
def windowNoRead (s : State) (line : Nat) : State :=
  let x := freeBytes (windowRange s line) 64
  { x.2 with resp := x.1 ++ [1] }

/-- R435: a write of the closed window is discarded and counted. -/
def windowNoWrite (s : State) (line : Nat) : State :=
  { satAdd (windowRange s line) .host hostExwDiscard 1 with resp := [] }

/-- R438: a request waits for a back-invalidate of its line, for a transaction that occupies it, or for its home's channel or a link to it. -/
def hostWaits (s : State) (line : Nat) : Bool :=
  biOf s line != 0 || (homeOf s line).st != .free || s.coh.msgs.any (fun m => m.1 == line) ||
  (List.finRange 17).any (fun a => !isStable (agentOf s a line).st) || memWait s line || !lineReach s 18 line

/-- R438: the ways of a line's set that hold a tracked line. -/
def trackedIn (s : State) (set w : Nat) : Option Nat :=
  let l := mget 0 s.hostPort.ways (16 * set + w)
  if l ≠ 0 ∧ hostTrk s (l - 1) ≠ 0 then some (l - 1) else none

/-- R438: room for a line in its set: a way that holds it or none, and the line to be evicted where there is no such way. -/
def trackerWay (s : State) (line : Nat) : Nat ⊕ Nat :=
  let set := line % 16384
  let mine := (List.range 16).find? (fun w => trackedIn s set w == some line)
  let free := (List.range 16).find? (fun w => (trackedIn s set w).isNone)
  match mine.orElse (fun _ => free) with
  | some w => .inl w
  | none => .inr ((plruPick (fun w => decide (w < 16)) (mget 0 s.hostPort.plru set) 5 1 0).elim 0 (fun w => (trackedIn s set w).getD 0))

/-- The line takes a way, which becomes the most recently used. -/
def trackIn (s : State) (line w : Nat) : State :=
  let set := line % 16384
  setHost s (fun h => { h with
    ways := mset 0 h.ways (16 * set + w) (line + 1), plru := mset 0 h.plru set (plruTouch w (mget 0 h.plru set)) })

/-- R438: a caching request for a line: with room in its set it goes on; else the set's pseudo-LRU line is evicted first. -/
def withTracker (s : State) (line : Nat) (go : State → State) : State :=
  match trackerWay s line with
  | .inl w => go (trackIn s line w)
  | .inr v => biStart s v 1

/-- The data of a read that goes to the host. -/
def hostData (s : State) (d : List Byte) (poison : Bool) : State := { s with resp := d ++ [BitVec.ofNat 8 (b2n poison)] }

/-- MEMRD (R435, R436), of line `line` of the window: MetaValue A takes the line in M, MetaValue S in S or E, and I reads it without a
copy. A caching request for a line the host holds in M is not one the table gives: it changes nothing. -/
def execMemrd (line : BitVec 34) (m : Meta) (chk : Check) (s : State) : Out :=
  let d := line.toNat
  if !hostUp s then .next s
  else if windowRefuses s d then .next (windowNoRead s d)
  else
    let l := windowLine s d
    if hostWaits s l then .next s
    else match m with
    | .invalid =>
      if hostHolds s l false then .next (biStart s l 2)
      else
        let r := funcRead s l 28 true chk
        .next (hostData r.2.2 r.1 r.2.1)
    | .any =>
      if hostTrk s l = 3 ∨ s.hostPort.detaching then .next s
      else .next (withTracker s l (fun s =>
        let r := funcRead s l 28 true chk
        let s := setAgent (dropCopies r.2.2 l none) 16 l { st := .M }
        hostData s r.1 r.2.1))
    | .shared =>
      if hostTrk s l = 3 ∨ s.hostPort.detaching then .next s
      else .next (withTracker s l (fun s =>
        if hostTrk s l ≠ 0 then hostData s (agentOf s 16 l).data (agentOf s 16 l).poison
        else
        let r := funcRead s l 28 true chk
        let others := (List.finRange 17).filter (fun b => (agentOf r.2.2 b l).st != .I)
        let s := others.foldl (fun s b => agentTo s b l (snoopAct (agentOf s b l).st .snps).2) r.2.2
        let s := setAgent s 16 l { st := if others.isEmpty then .E else .S, data := r.1, poison := r.2.1 }
        hostData s r.1 r.2.1))

/-- The write has been performed; with a MetaValue that keeps a copy BISnpInv follows (R436). -/
def hostWrote (s : State) (line : Nat) (m : Meta) : State :=
  { (if m = .invalid then s else biStart s line 1) with resp := [] }

/-- MEMWR: a full line: from M a write-back, of an untracked line WrFull; a copy in S or E is given up first. -/
def execMemwr (line : BitVec 34) (m : Meta) (data : BitVec 512) (poison : Bool) (s : State) : Out :=
  let d := line.toNat
  if !hostUp s then .next s
  else if windowRefuses s d then .next (windowNoWrite s d)
  else
    let l := windowLine s d
    if hostWaits s l then .next s
    else if hostTrk s l = 3 then .next (hostWrote (lineWrite (setAgent (loseLine s (.dram l)) 16 l {}) l 28 allMask (toLE 64 data.toNat) poison) l m)
    else if hostTrk s l ≠ 0 then .next (biStart s l 1)
    else .next (hostWrote (funcWrite s l 28 allMask (toLE 64 data.toNat) poison) l m)

/-- MEMWRPTL: WrPart of an untracked line; a tracked line is given up first. -/
def execMemwrptl (line : BitVec 34) (m : Meta) (mask : BitVec 64) (data : BitVec 512) (poison : Bool) (s : State) : Out :=
  let d := line.toNat
  if !hostUp s then .next s
  else if windowRefuses s d then .next (windowNoWrite s d)
  else
    let l := windowLine s d
    if hostWaits s l then .next s
    else if hostTrk s l ≠ 0 then .next (biStart s l 1)
    else .next (hostWrote (funcWrite s l 28 mask.toNat (toLE 64 data.toNat) poison) l m)

/-- R436, R447: a line that the host held in M goes to memory poisoned: the data last written to the device, marked. -/
def poisonBack (s : State) (l : Nat) : State := lineWrite (setAgent s 16 l {}) l 28 0 [] true

/-- MEMCLNEVCT: S and E end silently; M, returned without data, is written to memory poisoned. -/
def execMemclnevct (line : BitVec 34) (s : State) : Out :=
  let l := windowLine s line.toNat
  let s := windowRange s line.toNat
  if !hostUp s ∨ !domainUp s ∨ hostWaits s l then .next s
  else if hostTrk s l = 3 then .next { poisonBack s l with resp := [] }
  else if hostTrk s l ≠ 0 then .next { setAgent s 16 l {} with resp := [] }
  else .next { s with resp := [] }

/-- MEMINV: S and E end silently. -/
def execMeminv (line : BitVec 34) (s : State) : Out :=
  let l := windowLine s line.toNat
  let s := windowRange s line.toNat
  if !hostUp s ∨ !domainUp s ∨ hostWaits s l ∨ hostTrk s l = 3 then .next s
  else if hostTrk s l ≠ 0 then .next { setAgent s 16 l {} with resp := [] }
  else .next { s with resp := [] }

/-- The snoop of agent 16 that waits for back-invalidate `k` of a line. -/
def biSnoop (s : State) (l k : Nat) : Option SnpKind :=
  ([SnpKind.snps, .snpx, .snpcur, .snpinv]).find? (fun x => biFor x (hostTrk s l) == k && (findMsg s l (· == .snp x 16)).isSome)

/-- A line in M whose data is in the I/O agent's hands goes to memory: at once where its home is free, else by WB. -/
def hostBack (s : State) (l : Nat) : State :=
  let g := agentOf s 16 l
  if (homeOf s l).st = .free ∧ !s.coh.msgs.any (fun m => m.1 == l) then lineWrite (setAgent s 16 l {}) l 28 allMask g.data g.poison
  else evEvict s 16 28 l

/-- R437: what follows a back-invalidate's end for a line whose data, if it was in M, is `d` with poison `p`. While the domain is down the
data waits for salvage (R301); a restart gives the line up (R303). -/
def biEnd (s : State) (l k : Nat) (d : List Byte) (p : Bool) : State :=
  let snp := biSnoop s l k
  let t := hostTrk s l
  if t = 0 then s
  else if s.coh.restarting then setAgent s 16 l {}
  else if t = 3 then
    let s := setAgent s 16 l { agentOf s 16 l with data := d, poison := p }
    if !domainUp s then s
    else match snp with
    | some .snps => evEvict (answerSnoop s 16 l .snps) 16 28 l
    | some .snpcur => hostUsed (answerSnoop s 16 l .snpcur) 16 l
    | some x => answerSnoop s 16 l x
    | none => if k = 1 then hostBack s l else s
  else match snp with
  | some x => answerSnoop s 16 l x
  | none => setAgent s 16 l {}

/-- The data that stands in for data the host did not return: the data last written to the device. -/
def lastData (s : State) (l : Nat) : List Byte := (lineRead s l 28 .ok).1

/-- BIRSP (R437), of physical line `line`: without data for a line in M, the data is marked poisoned. -/
def execBirsp (line : BitVec 34) (data : Option (BitVec 512)) (s : State) : Out :=
  let l := line.toNat
  let k := biOf s l
  if k = 0 ∨ !hostUp s ∨ s.pins.jtag = .boundaryScan then .next s
  else
    let s := setHost s (fun h => { h with bi := mset 0 h.bi l 0 })
    .next (match data with
      | some d => biEnd s l k (toLE 64 d.toNat) false
      | none => biEnd s l k (lastData s l) true)

/-! Device DMA (R434). -/

/-- A failed device-DMA request. -/
def dmaError (s : State) : State := raise (satAdd s .host hostDmaErr 1) .host { bit := 19 }

/-- R434, R255: a mover operation on host space fails with HOST_ERR. -/
def movHostFail (s : State) (b : BayId) (m : Fin 4) (op addr : Nat) : State :=
  movSettle (modMov s b m op (fun r => { r with fail := lowerFail r.fail (r.row, 20, BitVec.ofNat 64 addr, false) })) b m op

/-- A host queue. -/
def hqOf (s : State) (q : Fin 16) : HostQueue := mget {} s.hostPort.queues q.val
/-- The state with it replaced. -/
def setHq (s : State) (q : Fin 16) (v : HostQueue) : State := setHost s (fun h => { h with queues := mset {} h.queues q.val v })
/-- QSTAT.STATE. -/
def hqState (s : State) (q : Fin 16) : Nat := rd s .host (hostHqQstatState q.val)

/-- R442: a queue halts with a status. -/
def hqHalt (s : State) (q : Fin 16) (status : Nat) : State :=
  let s := setHq s q { wrote := (hqOf s q).wrote }
  let s := wr (wr s .host (hostHqQstatState q.val) 3) .host (hostHqQstatStatus q.val) status
  setEvt (raise s .host { bit := 17, unit := q.val }) .host 18

/-- A device-DMA read fails: its mover operation with HOST_ERR, its queue with status HOST_ERR; a queue that has halted keeps its
status, and the message that waited is not sent. -/
def dmaFail (s : State) (d : DmaRead) : State :=
  match d.who with
  | .hq q => hqHalt (wrapAdd s .host (hostHqCons q.val) 1) q 4
  | .hqBack q =>
    if (hqOf s q).entry.isEmpty then setHq s q { hqOf s q with back := 0 } else setHq (hqHalt s q 4) q { back := 3 }
  | .mov b m op => movHostFail s b m op d.addr.toNat
  | .movBack b m op => movHostFail s b m op d.addr.toNat

/-- The read with a tag. -/
def dmaFind (s : State) (tag : Nat) : Option DmaRead := s.hostPort.dma.find? (fun d => d.tag == tag)
/-- The state without it. -/
def dmaTake (s : State) (tag : Nat) : State := setHost s (fun h => { h with dma := h.dma.filter (fun d => d.tag != tag) })

/-- DMA_TIMEOUT. -/
def execDmaTimeout (tag : Nat) (s : State) : Out :=
  match dmaFind s tag with
  | none => .next s
  | some d => .next (dmaFail (dmaError (dmaTake s tag)) d)

/-! Host queues (R439 to R443). -/

/-- HQ_DOORBELL (R439). -/
def execHqDoorbell (q : Fin 16) (n : BitVec 32) (s : State) : Out :=
  let s := wrapAdd s .host (hostHqProd q.val) n.toNat
  let ahead := (rd s .host (hostHqProd q.val) + 2 ^ 32 - rd s .host (hostHqCons q.val)) % 2 ^ 32
  .next (if 2 ^ rd s .host (hostHqCfgLog2 q.val) < ahead then raise s .host { bit := 18, unit := q.val } else s)

/-- R440: the fields of an entry. -/
structure HqEntry where
  op : Nat
  cpl : Bool
  msi : Bool
  cplHost : Bool
  len : Nat
  sig : Nat
  bay : Nat
  dst : Nat
  cplAddr : Nat
  tag : List Byte
  payload : List Byte
  reserved : Bool
deriving DecidableEq, Repr

/-- R440: an entry as its 256 bytes spell it; `reserved` says that a reserved bit is set. -/
def hqEntry (e : List Byte) : HqEntry where
  op := fieldAt e 0 1
  cpl := bitOf (fieldAt e 1 1) 0
  msi := bitOf (fieldAt e 1 1) 1
  cplHost := bitOf (fieldAt e 1 1) 2
  len := fieldAt e 2 2
  sig := fieldAt e 4 1
  bay := fieldAt e 5 1 % 64
  dst := fieldAt e 8 8
  cplAddr := fieldAt e 16 8
  tag := slice e 24 8
  payload := slice e 32 224
  reserved := decide (fieldAt e 1 1 / 8 ≠ 0 ∨ fieldAt e 5 1 / 64 ≠ 0 ∨ fieldAt e 6 2 ≠ 0)

/-- R442: the status with which an entry is refused, if it is. -/
def hqRefusal (s : State) (e : HqEntry) : Option Nat :=
  if 3 < e.op ∨ e.reserved ∨ 224 < e.len ∨ (e.cpl ∧ e.cplAddr % 16 ≠ 0) then some 1
  else if e.op = 2 ∧ (e.len % 8 ≠ 0 ∨ e.dst % 8 ≠ 0 ∨ 0x4000000 < e.dst + e.len) then some 1
  else if e.op = 3 ∧ (48 ≤ e.bay ∨ !byteV e.sig ∨ byteBad e.sig) then some 1
  else if e.op = 1 ∧ e.len ≠ 0 ∧ !inDram s e.dst e.len then some 2
  else none

/-- R447: what a queue's access to the host comes to while the host is lost: it is dropped and counted for a ring in device memory; for a
ring in host space it fails with HOST_ERR. -/
def hqLost (s : State) (q : Fin 16) : State :=
  if rd s .host (hostHqCfgSpace q.val) = 0 then satAdd s .host hostCplDrop 1 else wr s .host (hostHqQstatStatus q.val) 4

/-- R443: a completion record in device memory or host space; R25, R61: an address that is neither is an absent one. -/
def hqRecord (s : State) (q : Fin 16) (e : HqEntry) (num status : Nat) : State :=
  let rec' := e.tag ++ [BitVec.ofNat 8 status, 0, 0, 0] ++ toLE 4 num
  if !e.cpl ∨ e.cplAddr % 16 ≠ 0 then s
    else if e.cplHost then
      if hostLostNow s then hqLost s q
      else hostWrite (setHq s q { hqOf s q with wrote := some (BitVec.ofNat 64 (e.cplAddr / 64 * 64)) }) e.cplAddr rec' false
    else if inDram s e.cplAddr 16 then cohPut s e.cplAddr 28 rec' false else raiseAt s .host 3 q.val e.cplAddr false

/-- R440: the vector that an entry raises after its record. -/
def hqVector (s : State) (q : Fin 16) (msi : Bool) : State :=
  if !msi then s
  else if hostLostNow s then hqLost s q
  else raiseVector s (rd s .host (hostHqCfgVector q.val))

/-- R433: what the queue has written to host space must be read back before its message: the address. -/
def hqUnread (s : State) (q : Fin 16) (msi : Bool) : Option (BitVec 64) :=
  if msi && !hostLostNow s then (hqOf s q).wrote else none

/-- A record in device memory must first take its line from the host, or waits for a transaction on it. -/
def recordBusy (s : State) (e : HqEntry) : Bool :=
  e.cpl && !e.cplHost && decide (e.cplAddr % 16 = 0) && inDram s e.cplAddr 16 && rangeBusy s 18 e.cplAddr 16 true

/-- R442: an entry has arrived: it is refused, with its record where CPL_ADDR is usable, or waits to be executed. -/
def hqArrive (s : State) (q : Fin 16) (d : List Byte) : State :=
  let num := rd s .host (hostHqCons q.val)
  let e := hqEntry d
  match hqRefusal s e with
  | some st =>
    if recordBusy s e then hostAsk s e.cplAddr 16 true
    else
      let s := hqHalt (hqRecord (wrapAdd s .host (hostHqCons q.val) 1) q e num st) q st
      match hqUnread s q e.msi with
      | some a => setHq (dmaAsk s (.hqBack q) a.toNat 64 0) q { hqOf s q with back := 1 }
      | none => hqVector s q e.msi
  | none =>
    let s := wrapAdd s .host (hostHqCons q.val) 1
    let s := wr s .host (hostHqQstatState q.val) 2
    setHq s q { entry := d, num := BitVec.ofNat 32 num, wrote := (hqOf s q).wrote }

/-- R442: a poisoned or twice-failing entry: POISON, with CHECKSUM where the check failed; its record's address cannot be used. -/
def hqPoison (s : State) (q : Fin 16) (addr : Nat) (crc : Bool) : State :=
  let s := wrapAdd s .host (hostHqCons q.val) 1
  let s := if crc then raise s .host { bit := 4, unit := q.val, addr := some addr } else s
  hqHalt (raise s .host { bit := 7, unit := q.val, addr := some addr }) q 3

/-- R439: the address of the next entry of a queue. -/
def hqNext (s : State) (q : Fin 16) : Nat :=
  256 * rd s .host (hostHqBase q.val) + 256 * (rd s .host (hostHqCons q.val) % 2 ^ rd s .host (hostHqCfgLog2 q.val))

/-- R439: a queue that may fetch. -/
def hqReady (s : State) (q : Fin 16) : Bool :=
  pgState s .host == 4 && rd s .host (hostHqCfgEn q.val) == 1 && hqState s q == 0 && (hqOf s q).entry.isEmpty && (hqOf s q).back == 0 &&
  rd s .host (hostHqProd q.val) != rd s .host (hostHqCons q.val)

/-- R439: PROD − CONS exceeds the ring, whose contents are then undefined. -/
def hqOver (s : State) (q : Fin 16) : Bool :=
  decide (2 ^ rd s .host (hostHqCfgLog2 q.val) < (rd s .host (hostHqProd q.val) + 2 ^ 32 - rd s .host (hostHqCons q.val)) % 2 ^ 32)

/-- HQ_ENTRY_FETCH: from device memory at once, from the host by a device-DMA read. An overrun ring gives free entries (log 50). -/
def execHqEntryFetch (q : Fin 16) (chk : Check) (s : State) : Out :=
  let a := hqNext s q
  if !hqReady s q then .next s
  else if rd s .host (hostHqCfgSpace q.val) = 1 then .next (wr (dmaAsk s (.hq q) a 256 0) .host (hostHqQstatState q.val) 1)
  else if rangeBusy s 18 a 256 false then .next (hostAsk s a 256 false)
  else
    let r := cohBlocks s a 256 28 chk
    if r.2.1 then .next (hqPoison r.2.2.2 q a r.2.2.1)
    else
      let x := if hqOver s q then freeBytes r.2.2.2 256 else (r.1, r.2.2.2)
      .next (hqArrive x.2 q x.1)

/-- R433: the read-back of a queue's host-space writes has been answered: the message of a refused entry leaves, an entry that completes
goes on. -/
def hqBacked (s : State) (q : Fin 16) : State :=
  let h := { hqOf s q with wrote := none }
  if h.entry.isEmpty then hqVector (setHq s q { h with back := 0 }) q true else setHq s q { h with back := 2 }

/-- DMA_READ_COMPLETION: data for a queue's fetch or a mover's row; poisoned data marks POISON at its consumer. -/
def execDmaReadCompletion (tag : Nat) (st : DmaStatus) (s : State) : Out :=
  match (if s.pins.jtag = .boundaryScan then none else dmaFind s tag) with
  | none => .next s
  | some d => match st with
    | .unsupported => .next (dmaFail (dmaError (dmaTake s tag)) d)
    | .aborted => .next (dmaFail (dmaError (dmaTake s tag)) d)
    | .data bytes ep =>
      let s := dmaTake s tag
      match d.who with
      | .hq q => .next (if ep then hqPoison s q d.addr.toNat false
          else hqArrive (wr s .host (hostHqQstatState q.val) 0) q (slice bytes 0 256))
      | .hqBack q => .next (hqBacked s q)
      | .mov b m op =>
        let src := ((movList s b m).find? (fun r => r.id == op)).elim (OpSrc.queue 0) (·.src)
        let s := if ep then movPoison s b m src d.addr.toNat false true false else s
        .next (modMov s b m op (fun r => { r with buf := r.buf ++ [(d.off, slice bytes 0 d.len)], bufPoison := r.bufPoison || ep }))
      | .movBack b m op => .next (modMov s b m op (fun r => { r with readBack := 2 }))

/-- The queue's entry waits to be executed, is of operation `op`, and its page still works. -/
def hqRuns (s : State) (q : Fin 16) (op : Nat) : Bool :=
  let h := hqOf s q
  let st := pgState s .host
  (st == 4 || st == 5) && !h.entry.isEmpty && !h.executed && (hqEntry h.entry).op == op

/-- The entry's operation has been performed. -/
def hqExecuted (s : State) (q : Fin 16) : State := setHq s q { hqOf s q with executed := true }

/-- HQ_NOP. -/
def execHqNop (q : Fin 16) (s : State) : Out := .next (if hqRuns s q 0 then hqExecuted s q else s)

/-- HQ_WRITE: LEN payload bytes at DST, as a request that keeps no copy. -/
def execHqWrite (q : Fin 16) (s : State) : Out :=
  let e := hqEntry (hqOf s q).entry
  if !hqRuns s q 1 then .next s
  else if e.len ≠ 0 ∧ rangeBusy s 18 e.dst e.len true then .next (hostAsk s e.dst e.len true)
  else .next (hqExecuted (cohPut s e.dst 28 (slice e.payload 0 e.len) false) q)

/-- HQ_SIGNAL: SIG on bay BAY (R175). -/
def execHqSignal (q : Fin 16) (s : State) : Out :=
  let e := hqEntry (hqOf s q).entry
  if !hqRuns s q 3 then .next s
  else match finOf 48 e.bay with
  | some b => .next (hqExecuted (signal s b e.sig) q)
  | none => .next s

/-- The entry leaves the queue, which goes on or is suspended. -/
def hqFree (s : State) (q : Fin 16) : State :=
  let h := hqOf s q
  wr (setHq s q { wrote := h.wrote }) .host (hostHqQstatState q.val) (if h.suspend then 4 else 0)

/-- HQ_ENTRY_COMPLETE (R441, R443): the record, DONE, and the vector; what the queue wrote to host space is read back before its message. A queue whose
host was lost meanwhile is suspended (R447). -/
def execHqEntryComplete (q : Fin 16) (s : State) : Out :=
  let h := hqOf s q
  let e := hqEntry h.entry
  let st := pgState s .host
  if h.entry.isEmpty ∨ !h.executed ∨ (st ≠ 4 ∧ st ≠ 5) then .next s
  else if recordBusy s e then .next (hostAsk s e.cplAddr 16 true)
  else if h.back = 1 then .next s
  else if h.back = 2 then .next (hqFree (hqVector s q e.msi) q)
  else
    let s := wrapAdd (hqRecord s q e h.num.toNat 0) .host (hostHqDone q.val) 1
    match hqUnread s q e.msi with
    | some a => .next (setHq (dmaAsk s (.hqBack q) a.toNat 64 0) q { hqOf s q with back := 1 })
    | none => .next (hqFree (hqVector s q e.msi) q)

/-- HQ_RESUME (R442): HQn.CTL.RESUME: the refused entry counts as done, and the queue goes on with the next. -/
def execHqResume (q : Fin 16) (s : State) : Out :=
  if hqState s q = 3 then
    let s := if (hqOf s q).back = 3 then setHq s q { hqOf s q with back := 0 } else wrapAdd s .host (hostHqDone q.val) 1
    .next (wr (wr s .host (hostHqQstatState q.val) 0) .host (hostHqQstatStatus q.val) 0)
  else .next s

/-- R450: RUN restarts every enabled queue at CONS. -/
def hqRestart (s : State) : State :=
  (List.finRange 16).foldl (fun s q =>
    if rd s .host (hostHqCfgEn q.val) = 1 ∧ 3 ≤ hqState s q then
      wr (wr (if (hqOf s q).back = 3 then setHq s q { hqOf s q with back := 0 } else s) .host (hostHqQstatState q.val) 0) .host (hostHqQstatStatus q.val) 0
    else s) s

/-- R447, R448: queues with SPACE = 1 are suspended, after the entry in progress. -/
def hqSuspend (s : State) : State :=
  (List.finRange 16).foldl (fun s q =>
    if rd s .host (hostHqCfgSpace q.val) = 1 ∧ rd s .host (hostHqCfgEn q.val) = 1 ∧ hqState s q ≠ 3 then
      if (hqOf s q).entry.isEmpty then wr s .host (hostHqQstatState q.val) 4 else setHq s q { hqOf s q with suspend := true }
    else s) s

/-! Host loss and attachment (R446 to R448). -/

/-- R301, R447: while the domain is down a line that the host held in M waits for salvage, poisoned; a restart gives it up (R303). -/
def poisonHeld (s : State) (l : Nat) : State :=
  if s.coh.restarting then setAgent s 16 l {} else setAgent s 16 l { agentOf s 16 l with data := lastData s l, poison := true }

/-- R297, R447: a tracked line ends: S and E are dropped; M is written back poisoned, unless a snoop waits for it, which is answered as if the host had given
up its copy, with no data. -/
def lineEnds (s : State) (l : Nat) : State :=
  let k := biOf s l
  let s := setHost s (fun h => { h with bi := mset 0 h.bi l 0 })
  if hostTrk s l = 3 then
    match biSnoop s l k with
    | some x => if domainUp s then setAgent (sendMsg (takeMsg s l (.snp x 16)) l (.ans .rspI 16 [] false)) 16 l {} else poisonHeld s l
    | none => if domainUp s then poisonBack s l else poisonHeld s l
  else if k ≠ 0 ∧ domainUp s then biEnd s l k [] false
  else setAgent s 16 l {}

/-- R447: the host is lost, with its cause; only the first loss since a host claimed the port counts (R446). -/
def hostLoss (s : State) (cause : Nat) : State :=
  if hostLostNow s then s
  else
    let opened := windowOpen s
    let lines := hostLines s
    let s := setEvt (raise s .host { bit := 16 }) .host 16
    let s := wr (wr s .host hostAttachAttached 0) .host hostAttachCause cause
    let s := wr s .host hostLostTime (rd s .hub hubTimer)
    let s := if opened || (s.coh.restarting && !lines.isEmpty) then wr s .host hostAttachOrphaned 1 else s
    let s := wr s .host hostLostLines (lines.countP (fun l => hostTrk s l == 3))
    let s := lines.foldl lineEnds s
    let s := setHost s (fun h => { h with bi := [], detaching := false })
    let dma := s.hostPort.dma
    let s := setHost s (fun h => { h with dma := [] })
    let s := dma.foldl (fun s d => match d.who with
      | .hq _ => s
      | .hqBack q => hqBacked s q
      | _ => dmaFail s d) s
    hqSuspend s

/-- R453: LINK takes new values; a change sets PG_EVT bit 19. -/
def showHostLink (s : State) (up width rate : Nat) : State :=
  if rd s .host hostLinkUp = up ∧ rd s .host hostLinkWidth = width ∧ rd s .host hostLinkRate = rate then s
  else setEvt (wr (wr (wr s .host hostLinkUp up) .host hostLinkWidth width) .host hostLinkRate rate) .host 19

/-- The link takes a state, and LINK shows it. -/
def setHostLink (s : State) (l : Option (BitVec 4 × BitVec 2)) : State :=
  let s := setHost s (fun h => { h with link := l })
  match l with
  | some x => showHostLink s 1 x.1.toNat x.2.toNat
  | none => showHostLink s 0 0 0

/-- R446, R431: the link goes down: the function is reset, and the host lost. -/
def hostLinkGone (s : State) (cause : Nat) : State :=
  if hostUp s then functionReset (setHostLink (hostLoss s cause) none) else functionReset s

/-- LINK_DOWN. -/
def execLinkDown (s : State) : Out := .next (if hostUp s then hostLinkGone s 1 else s)

/-- PERST_ASSERT. -/
def execPerstAssert (s : State) : Out :=
  if s.hostPort.perstLow then .next s
  else .next (setHost (hostLinkGone s 2) (fun h => { h with perstLow := true, funcReset := true }))

/-- FUNCTION_LEVEL_RESET (R431). -/
def execFunctionLevelReset (s : State) : Out := .next (functionReset s)

/-- R528: start step 2 has completed. -/
def step2Done (s : State) : Bool := s.mg.startDone || decide (3 ≤ s.mg.startStep)

/-- PERST_RELEASE (R528): the function leaves reset once start step 2 has completed. -/
def execPerstRelease (s : State) : Out :=
  .next (setHost s (fun h => { h with perstLow := false, funcReset := !step2Done s }))

/-- HOST_LINK_UP (R429, R453): x8 or x4 at 32 or 64 GT/s. -/
def execHostLinkUp (width : BitVec 4) (rate : BitVec 2) (s : State) : Out :=
  if s.hostPort.funcReset ∨ s.hostPort.perstLow ∨ rd s .hub hubClkstatHoldover = 1 ∨ (width ≠ 4 ∧ width ≠ 8) ∨ (rate ≠ 1 ∧ rate ≠ 2) then .next s
  else .next (setHostLink s (some (width, rate)))

/-- BACK_INVALIDATE_TIMEOUT (R438). -/
def execBackInvalidateTimeout (line : BitVec 34) (s : State) : Out :=
  .next (if biOf s line.toNat = 0 then s else hostLoss s 3)

/-- CLAIM (R448). -/
def execClaim (key : BitVec 16) (s : State) : Out :=
  if key ≠ 0xD5A7 ∨ !hostUp s ∨ rd s .host hostAttachAttached = 1 then .next s
  else
    let s := wr (wr s .host hostAttachAttached 1) .host hostAttachOrphaned 0
    .next (setEvt (wrapAdd s .host hostAttachGen 1) .host 17)

/-- DETACH (R448): every tracked line is back-invalidated. -/
def execDetach (key : BitVec 16) (s : State) : Out :=
  if key ≠ 0xD5A7 ∨ !hostUp s ∨ rd s .host hostAttachAttached = 0 ∨ s.hostPort.detaching then .next s
  else .next (backInvalidateAll (setHost s (fun h => { h with detaching := true })))

/-- DETACH_DONE: every answer has come. -/
def execDetachDone (s : State) : Out :=
  if !s.hostPort.detaching ∨ !(hostLines s).isEmpty ∨ !s.hostPort.bi.isEmpty then .next s
  else
    let s := wr (wr s .host hostAttachAttached 0) .host hostAttachCause 4
    .next (hqSuspend (setHost s (fun h => { h with detaching := false })))

/-! Configuration space (R432). -/

/-- R432: what the function's configuration space reports: identity, the CXL Device DVSEC, and the sizes of BAR0 and BAR2. -/
structure HostConfig where
  vendor : BitVec 16
  device : Nat
  classCode : Nat
  cacheCapable : Bool
  ioCapable : Bool
  memCapable : Bool
  hdmCount : Nat
  range1Size : Nat
  memoryActive : Bool
  bar0Size : Nat
  bar2Size : Nat
deriving DecidableEq, Repr

/-- R432: the configuration space of a state. -/
def hostConfig (s : State) : HostConfig where
  vendor := Config.vendorId
  device := if s.fuses.gradeB then 0xD9B4 else 0xD9A4
  classCode := 0x120000
  cacheCapable := false
  ioCapable := true
  memCapable := true
  hdmCount := 1
  range1Size := if rd s .host hostExwCfg = 1 then rd s .host hostExwSize * 2 ^ 28 else 0
  memoryActive := windowOpen s
  bar0Size := 2 ^ 26
  bar2Size := 2 ^ 17

end Sys2Proof.Machine
end

