-- ==== Sys2Proof/Machine/Images.lean ====
section
/-! DEFINITION. What firmware reads in MG flash (R498 to R500, R506, R507) and the provenance log (R515): the configuration in force, image
copies and their verification, measurements. -/

namespace Sys2Proof.Machine

/-! The configuration in force (R498, R500). -/

/-- A field of the configuration in force, or its default. -/
def cfgField (s : State) (off len dflt : Nat) : Nat := if s.mg.cfg = [] then dflt else fieldAt s.mg.cfg off len
/-- MEMMODE. -/
def cfgFar (s : State) : Bool := cfgField s 8 1 0 == 1
/-- PFW_BASE. -/
def pfwBase (s : State) : Nat := cfgField s 72 8 0x1000000
/-- PORT_WAIT in ms. -/
def cfgPortWait (s : State) : Nat := cfgField s 16 4 10000
/-- The 4 KiB of the configuration in force, or of the defaults, which spell the fields of R500 and are zero elsewhere. -/
def cfgBytes (s : State) : List Byte :=
  if s.mg.cfg = [] then
    slice ([0x01, 0, 0xC0, 0xD9, 0, 0, 0, 0, 0, 0] ++ toLE 2 4400 ++ [100, 0, 0, 0] ++ toLE 4 10000 ++ List.replicate 52 0 ++ toLE 8 0x1000000 ++
      [1]) 0 4096
  else slice s.mg.cfg 0 4096

/-! Image copies (R506). -/

/-- Copy c (0 A, 1 B) of image type t. -/
def imgCopy (s : State) (t c : Nat) : ImageCopy := mget {} s.mg.images (2 * t + c)
/-- VERSION. -/
def imgVersion (i : ImageCopy) : Nat := fieldAt i.header 8 4
/-- SVN. -/
def imgSvn (i : ImageCopy) : Nat := fieldAt i.header 12 4
/-- SIZE. -/
def imgSize (i : ImageCopy) : Nat := fieldAt i.header 16 8
/-- ENTRY. -/
def imgEntry (i : ImageCopy) : Nat := fieldAt i.header 24 8
/-- DIGEST. -/
def imgDigest (i : ImageCopy) : List Byte := slice i.header 32 48
/-- The ACTIVE copy of a type. -/
def activeCopy (s : State) (t : Nat) : Nat := mget 0 s.mg.active t
/-- The copy that this start uses. -/
def usedCopy (s : State) (t : Nat) : Nat := mget 0 s.mg.used t
/-- The anti-rollback counter of a type (R509). -/
def svnFuse (s : State) (t : Nat) : Nat := mget 0 s.fuses.svn t

/-- R507: the reason why a copy does not verify; none where it does. The payload is digested as read. -/
def imageReason (s : State) (t c : Nat) : Option Nat :=
  let i := imgCopy s t c
  let h := i.header
  if fieldAt h 0 4 ≠ 0xD9F10001 ∨ fieldAt h 5 1 ≠ 1 ∨ fieldAt h 4 1 ≠ t ∨ Config.flashArea t < imgSize i then some 1
  else if Config.sha384 (slice h 80 97) ≠ s.fuses.rootHash then some 2
  else if !Config.ecdsaVerify (slice h 80 97) (slice h 288 96) (Config.sha384 (slice h 184 104)) ∨ !bitOf (fieldAt h 284 4) t then some 3
  else if !Config.ecdsaVerify (slice h 184 97) (slice h 384 96) (Config.sha384 (slice h 0 384)) then some 4
  else if 64 < imgSvn i ∨ imgSvn i < svnFuse s t then some 5
  else if imgDigest i ≠ Config.sha384 (slice i.payload 0 (imgSize i)) then some 6
  else none

/-- R502: an IMAGE entry, and IMAGE_FAIL (R520). -/
def imageFail (s : State) (t c reason : Nat) : State :=
  ledgerNote (raise s .sec { bit := 17, unit := t }) 0x10 t (c + 256 * reason)

/-- R507: an IMAGE entry marks the copy AVOID_COPY: in the snapshot, or for step 1, which comes before it, in the ledger. -/
def avoided (s : State) (t c : Nat) : Bool :=
  (if t = 1 then s.mg.ledger else s.mg.snapshot).any (fun x => x.2.any (fun e => e.kind == 0x10 && e.unit == t && e.arg % 2 == c))

/-- How a type's copy was chosen (R507, R511): a copy, with whether it is the fallback; none; or a PENDING copy that fails. -/
inductive Choice where
  | copy (c : Nat) (fell : Bool) | none | pendingFails
deriving DecidableEq, Repr

/-- The copy is tried, if no entry marks it. -/
def tryCopy (s : State) (t c : Nat) (used : State → State) (next : State → Choice × State) (fell : Bool) : Choice × State :=
  if avoided s t c then next s
  else match imageReason s t c with
    | .none => (.copy c fell, used s)
    | .some r => next (imageFail s t c r)

/-- R507: the verifier of a type chooses a copy: the PENDING one if there is one, else the ACTIVE one, else the other. -/
def chooseImage (s : State) (t : Nat) : Choice × State :=
  let use := fun (c : Nat) (s : State) => { s with mg := { s.mg with used := mset 0 s.mg.used t c } }
  match mget none s.mg.pending t with
  | some c =>
    match imageReason s t c with
    | none => (.copy c false, { use c s with mg := { (use c s).mg with usedPending := s.mg.usedPending ++ [t] } })
    | some r => (.pendingFails, imageFail { s with mg := { s.mg with pending := mset none s.mg.pending t none } } t c r)
  | none =>
    let a := activeCopy s t
    tryCopy s t a (use a) (fun s => tryCopy s t (1 - a) (use (1 - a)) (fun s => (.none, s)) true) false

/-! Measurements (R515). -/

/-- The running digest R_n. -/
def runDigest (s : State) : List Byte := slice s.mg.digest 0 48

/-- The MG die's start-time counter in µs, taken from the local timer, which starts with it (log 16). -/
def mgTime (s : State) : Nat := rd s .hub hubTimer / 100

/-- One measurement: an entry of 64 bytes, unless 64 are held. -/
def measure (s : State) (kind copy version : Nat) (digest : List Byte) : State :=
  let n := s.mg.prov.length
  if 64 ≤ n then wr s .sec secProvFull 1
  else
    let e := toLE 2 n ++ toLE 1 kind ++ toLE 1 copy ++ toLE 4 version ++ toLE 8 (mgTime s) ++ slice digest 0 48
    let s := { s with mg := { s.mg with prov := s.mg.prov ++ [e], digest := Config.sha384 (runDigest s ++ e) } }
    let s := wr s .sec secProvCount (n + 1)
    (List.range 6).foldl (fun s k => wr s .sec (secProvDigest k) (fieldAt s.mg.digest (8 * k) 8)) s

/-! The processor firmware in DRAM (R496 step 5, R497). -/

/-- The processor firmware's ENTRY as an address. -/
def pfwEntry (s : State) : Nat := pfwBase s + imgEntry (imgCopy s 3 (usedCopy s 3))

/-- The image at PFW_BASE is the copy this start uses. -/
def pfwGood (s : State) : Bool :=
  let i := imgCopy s 3 (usedCopy s 3)
  let r := cohBytes s (pfwBase s) (imgSize i) 29 true .ok
  Config.sha384 r.1 == imgDigest i && !r.2.1

/-- The image and the configuration are copied to DRAM. -/
def pfwLoad (s : State) : State :=
  let i := imgCopy s 3 (usedCopy s 3)
  cohPut (cohPut s (pfwBase s) 28 (slice i.payload 0 (imgSize i)) false) (pfwBase s - 4096) 28 (cfgBytes s) false

/-- R497, R512: the copy that a domain restart takes: the one this start uses, else the other, unless an update has made that one PENDING. -/
def pfwCopy (s : State) : Choice × State :=
  let u := usedCopy s 3
  let use := fun (c : Nat) (s : State) => { s with mg := { s.mg with used := mset 0 s.mg.used 3 c } }
  tryCopy s 3 u id (fun s => if mget none s.mg.pending 3 = some (1 - u) then (.none, s) else
    tryCopy s 3 (1 - u) (use (1 - u)) (fun s => (.none, s)) true) false

/-- R497: at a domain restart the firmware is verified in place, and copied from flash again where that fails. -/
def pfwAgain (s : State) : State :=
  if pfwGood s then s
  else match pfwCopy s with
    | (.copy c _, s) => measure (pfwLoad s) 10 c (imgVersion (imgCopy s 3 c)) (imgDigest (imgCopy s 3 c))
    | (_, s) => s

/-- R496 step 8, R472: the collection is loaded into a bay, and ISSUE.COLL_VER set. -/
def loadCollection (s : State) (b : BayId) : State :=
  let i := imgCopy s 4 (usedCopy s 4)
  let s := modBay s b (fun y => { y with store := stWrite y.store collBase (slice i.payload 0 (imgSize i)) false })
  wr s (.issue b) issCollVer (imgVersion i)

/-- R253: bay store is cleared. -/
def storeClear (s : State) (b : BayId) : State := modBay s b (fun y => { y with store := {} })

end Sys2Proof.Machine
end

