-- ==== Sys2Proof/Machine/Access.lean ====
section
/-! DEFINITION. Accession as the engine carries it on (R418 to R424): the plan, the manifest, chunks written to children, tokens, failed
children and orphans. -/

namespace Sys2Proof.Machine

/-- ACC_STAT.STATE changes, which raises PG_EVT bit 20 (R428). -/
def accState (s : State) (st result : Nat) : State :=
  let old := rd s (.ce 0) ceAccStatState
  let s := wr (wr s (.ce 0) ceAccStatState st) (.ce 0) ceAccStatResult result
  if old = st then s else setEvt s (.ce 0) 20

/-- The accession record replaced. -/
def setAcc (s : State) (f : Acc → Acc) : State := { s with acc := f s.acc }

/-- The child of a rank changed. -/
def modChild (s : State) (r : Nat) (f : Child → Child) : State :=
  setAcc s (fun a => { a with children := a.children.map (fun c => if c.rank = r then f c else c) })

/-- The child of a rank. -/
def childOf (s : State) (r : Nat) : Option Child := s.acc.children.find? (fun c => c.rank == r)

/-- Physical bytes read by firmware of the fabric die, with class FABRIC. -/
def accBytes (s : State) (a len : Nat) : List Byte := (cohBytes s a len 29 true .ok).1

/-- R420: the address of chunk k. -/
def chunkAddr (s : State) (k : Nat) : Nat := (rd s (.ce 0) ceImgBase + k) * 4194304

/-- R420: bytes of chunk k, for a manifest of C chunks and `bytes` image bytes. -/
def chunkLen (c bytes k : Nat) : Nat := if k = 0 then 260 + 4 * c else if k < c then 4194304 else bytes - 4194304 * (c - 1)

/-- R420: C and the image bytes, as the manifest has them. -/
def manifest (s : State) : Nat × Nat :=
  let h := accBytes s (chunkAddr s 0) 16
  (fieldAt h 4 4, fieldAt h 8 8)

/-- R420, R421: chunk k matches its CRC. -/
def chunkOk (s : State) (k : Nat) : Bool :=
  let m := manifest s
  let c := m.1
  let base := chunkAddr s 0
  if k = 0 then
    decide (1 ≤ c ∧ c ≤ 16383) && fieldAt (accBytes s base 4) 0 4 == 0xD9AC0001 &&
      (crc32c (accBytes s base (256 + 4 * c))).toNat == fieldAt (accBytes s (base + 256 + 4 * c) 4) 0 4
  else decide (k ≤ c) && (crc32c (accBytes s (chunkAddr s k) (chunkLen c m.2 k))).toNat == fieldAt (accBytes s (base + 256 + 4 * (k - 1)) 4) 0 4

/-- R422: H: the highest chunk up to which all are verified; 0xFFFF where none is. -/
def accHigh (v : List Nat) (total : Nat) : Nat :=
  let n := ((List.range (total + 1)).find? (fun k => !v.contains k)).getD (total + 1)
  (n + 65535) % 65536

/-- R426: ACC_CHUNKS follows. -/
def accCount (s : State) : State :=
  let h := accHigh s.acc.verified s.acc.total
  wr (wr s (.ce 0) ceAccChunksVerified (if h = 65535 then 0 else h)) (.ce 0) ceAccChunksTotal s.acc.total

/-- R419, R421: a token to a neighbour or along a routed edge. -/
def accToken (s : State) (rank port type k : Nat) (ask : Bool) : State :=
  match finOf 32 port with
  | some p =>
    let kind : Byte := if type = 0x20 then 0x52 else if type = 0x21 then 0x41 else 0x58
    let u := mget {} s.ports p.val
    { s with ports := mset {} s.ports p.val { u with tokens := u.tokens ++ [(kind, BitVec.ofNat 8 k)] } }
  | none => if ask then ctrlAsk s rank type (toLE 2 k) else ctrlSend s rank type (toLE 2 k)

/-! Chunks to children. -/

/-- R421: the next chunk that a child is to be sent: one to repeat, or the next verified one within 4 of its last ACK. -/
def childNext (a : Acc) (c : Child) : Option Nat :=
  if c.awaits ∨ a.total = 0 then none
  else match c.redo with
    | k :: _ => some k
    | [] => if c.sent < c.acked + 4 ∧ c.sent < a.total ∧ a.verified.contains c.sent then some c.sent else none

/-- One WRITE packet of a chunk: up to 4,096 bytes. -/
def childWrite (s : State) (c : Child) (k off len : Nat) : SendRes :=
  let n := min 4096 (len - off)
  let a := chunkAddr s k + off
  let x := cohBytes s a n 29 true .ok
  flowSend x.2.2 c.flow c.rank { mkPkt 1 a n x.1 with poison := x.2.1 } { psn := 0, who := .acc, row := c.rank }

/-- R421: chunks are written with WRITE packets; READY follows once they are acknowledged. -/
def childPump (r : Nat) : Nat → State → State
  | 0, s => s
  | n + 1, s => match childOf s r with
    | none => s
    | some c => match c.cur with
      | none => (match childNext s.acc c with
        | none => s
        | some k => childPump r n (modChild s r (fun c => { c with cur := some (k, 0) })))
      | some (k, off) =>
        let m := manifest s
        let len := chunkLen m.1 m.2 k
        if off < len then
          match childWrite s c k off len with
          | .sent s => childPump r n (modChild s r (fun c => { c with cur := some (k, off + min 4096 (len - off)), outst := c.outst + 1 }))
          | _ => s
        else if c.outst ≠ 0 then s
        else
          let s := modChild s r (fun c => { c with
            cur := none, redo := c.redo.filter (· != k), sent := if k = c.sent then k + 1 else c.sent })
          childPump r n (accToken s r c.port 0x20 k true)

/-- Every child is served as far as its flow takes it. -/
def accPump (s : State) : State :=
  if s.acc.running then s.acc.children.foldl (fun s c => childPump c.rank 2048 s) s else s

/-- A WRITE packet of accession has been acknowledged. -/
def accAck (s : State) (rank : Nat) : State :=
  childPump rank 2048 (modChild s rank (fun c => { c with outst := c.outst - 1 }))

/-- R421: DONE to the parent once every chunk is verified and every child has sent DONE; ports leave the accession phase. -/
def accDone (s : State) : State :=
  let a := s.acc
  if !a.running ∨ a.doneSent ∨ a.total = 0 ∨ !(List.range a.total).all (fun k => a.verified.contains k) ∨ !a.children.all (·.done) then s
  else
    let s := setAcc s (fun a => { a with doneSent := true })
    let s := (a.parentPort :: a.children.map (·.port)).foldl (fun s p => match finOf 32 p with
      | some p => if rd s (.fport p) fpSbTxPhase = 1 then wr s (.fport p) fpSbTxPhase 2 else s
      | none => s) s
    if a.parent = 0xFFFF then s else ctrlSend s a.parent 0x28 []

/-- R424: a chunk is verified; with the last of them the image waits for its signature check. -/
def accVerified (s : State) (k : Nat) : State :=
  let s := setAcc s (fun a => { a with verified := if a.verified.contains k then a.verified else a.verified ++ [k] })
  let s := if k = 0 then setAcc s (fun a => { a with total := (manifest s).1 + 1 }) else s
  let s := accPump (accCount s)
  if s.acc.total ≠ 0 ∧ (List.range s.acc.total).all (fun k => s.acc.verified.contains k) then accDone (accState s 3 0) else s

/-! Orphans and failed children. -/

/-- R424: the ledger entry of a module that is to load from storage. -/
def ledgerStorage (s : State) : State := ledgerNote s 0xC (myRank s) 0xFFFF

/-- R423: this module loads from its host's storage. -/
def waitHost (s : State) : State := ledgerStorage (accState (setAcc s (fun a => { a with waitsLead := false })) 2 0)

/-- R423: the module is an orphan. -/
def orphaned (s : State) : State :=
  if s.acc.mode = 0 then
    ctrlAsk (setAcc s (fun a => { a with waitsLead := true, parent := 0xFFFE, parentPort := 255 })) (rd s (.ce 0) ceLead) 0x25 (toLE 2 (myRank s))
  else waitHost s

/-- R419: a record of the plan: rank, port, flow, grandchild count. -/
def planRec (d : List Byte) (off : Nat) : Nat × Nat × Nat × Nat :=
  let v := fieldAt d off 8
  (v % 65536, bits v 23 16, bits v 41 24, bits v 46 42)

/-- R422: a child has failed: ABORT to it; its grandchildren are adopted up to the fan-out, in plan order; the others go to the lead or
to storage. -/
def childFailed (s : State) (r : Nat) : State :=
  match childOf s r with
  | none => s
  | some c =>
    let s := accToken s r c.port 0x22 (c.acked % 65536) false
    let rest := s.acc.children.filter (fun x => x.rank != r)
    let room := s.acc.fanout - rest.length
    let taken := c.grand.take room
    let left := c.grand.drop room
    let s := setAcc s (fun a => { a with children := rest ++ taken.map (fun g =>
      ({ rank := g.1, port := 255, flow := g.2.2, awaits := true } : Child)) })
    let s := ledgerNote s 0xD r r
    let s := taken.foldl (fun s g => ledgerNote (ctrlAsk s g.1 0x23 (toLE 2 (myRank s))) 0xD g.1 (g.1 + 65536)) s
    let s := if s.acc.mode = 0 then
        (if left.isEmpty then s else ctrlAsk s (rd s (.ce 0) ceLead) 0x25 ((left.flatMap (fun g => toLE 2 g.1)).take 248))
      else left.foldl (fun s g => ctrlSend s g.1 0x27 []) s
    accDone s

/-- A rank put into a rising list. -/
def insertRank (r : Nat) : List Nat → List Nat
  | [] => [r]
  | x :: t => if r < x then r :: x :: t else if r = x then x :: t else x :: insertRank r t

/-- R423: the lead serves its orphans 16 at a time, in increasing rank order, over its table of flows. -/
def serveOrphans (s : State) : State :=
  let busy := s.acc.children.countP (fun c => s.acc.orphans.contains c.rank && !c.done)
  let waiting := s.acc.orphans.filter (fun r => !s.acc.children.any (fun c => c.rank == r))
  (waiting.take (16 - busy)).foldl (fun s r =>
    let flow := fieldAt (accBytes s (s.acc.table + 4 * r) 4) 0 4 % 2 ^ 18
    let s := setAcc s (fun a => { a with children := a.children ++ [{ rank := r, port := 255, flow := flow, awaits := true }] })
    ctrlAsk s r 0x26 []) s

end Sys2Proof.Machine
end

