-- ==== Sys2Proof/Machine/Collect.lean ====
section
/-! DEFINITION. Collectives (R387 to R411): conversion to and from the wire with residuals, and the engine's own progress: tokens, chunks
sent, results written. -/

namespace Sys2Proof.Machine

/-! Values and the wire (R400 to R404). -/

/-- A value of the reduction type. -/
def accVal (int : Bool) (v : BitVec 32) : Val := if int then decI 32 v.toNat else decF f32 v.toNat

/-- R397, R400: received + own, rounded once: FP32, or INT32 that saturates and counts. -/
def accAdd (int : Bool) (a b : BitVec 32) : BitVec 32 × Bool :=
  if int then
    let z := a.toInt + b.toInt
    if 2 ^ 31 - 1 < z then (0x7FFFFFFF, true) else if z < -2 ^ 31 then (0x80000000, true) else (BitVec.ofInt 32 z, false)
  else (BitVec.ofNat 32 (roundV f32 .rne (Val.add false (decF f32 a.toNat) (decF f32 b.toNat))).1, false)

/-- R73: an FP32 value with the canonical NaN in place of any other. -/
def quietF32 (v : BitVec 32) : BitVec 32 := if (decF f32 v.toNat).isNan then 0x7FC00000 else v

/-- R400, R401: `n` elements from wire or vector bytes. R73: a NaN becomes the canonical one. -/
def widenRun (code n : Nat) (bytes : List Byte) : List (BitVec 32) :=
  if code = 2 then (List.range n).map (fun i => quietF32 (BitVec.ofNat 32 (fieldAt bytes (4 * i) 4)))
  else if code = 5 then (List.range n).map (fun i => BitVec.ofNat 32 (fieldAt bytes (4 * i) 4))
  else
    let vs := decRun (cFmt code) ((n + 31) / 32 * 32) bytes
    (List.range n).map (fun i => BitVec.ofNat 32 (roundV f32 .rne (vs.getD i .nan)).1)

/-- R401: the bytes a chunk of `n` elements takes on the wire. -/
def wireBytes (code n : Nat) : Nat :=
  if (cFmt code).form = .plain then n * cWidth code else (n + 31) / 32 * blkSize (cFmt code)

/-- R404: the quantiser and rounding of a command. -/
def cQuant (c : Collective) (code : Nat) : QCfg := {
  fmt := cFmt code, sr := cSr c.entry, s0 := lfsrStart (fieldAt c.entry 12 4) ((fieldAt c.entry 10 2 + c.self) % 65536) }

/-- R401, R404: values converted to a code from position j: the bytes and each element's counts. -/
def narrowRun (c : Collective) (code : Nat) (x : List (BitVec 32)) (j : Nat) : List Byte × List (Bool × Bool) :=
  if code = 2 ∨ code = 5 then
    (x.flatMap (fun v => toLE 4 (if code = 2 then quietF32 v else v).toNat), x.map (fun _ => (false, false)))
  else
    let vs := x.map (fun v => decF f32 v.toNat)
    let pad := if (cFmt code).form = .plain then [] else List.replicate ((32 - x.length % 32) % 32) (Val.fin false 0 0)
    let r := encRun (cQuant c code) (vs ++ pad) j
    (r.1, r.2.take x.length)

/-- The values at `len` positions. -/
def workAt (c : Collective) (pos len : Nat) : List (BitVec 32) := (List.range len).map (fun i => mget 0 c.work (pos + i))

/-- The values at positions from `pos` replaced. -/
def workSet (c : Collective) (pos : Nat) (l : List (BitVec 32)) : Collective :=
  { c with work := (l.foldl (fun (x : Nat × SMap (BitVec 32)) v => (x.1 + 1, mset 0 x.2 x.1 v)) (pos, c.work)).2 }

/-- Whether any of `len` positions is poisoned. -/
def workBad (c : Collective) (pos len : Nat) : Bool := c.bad.any (fun i => decide (pos ≤ i ∧ i < pos + len))

/-- Positions become poisoned. -/
def markBad (c : Collective) (pos len : Nat) : Collective :=
  { c with poisoned := true, bad := c.bad ++ (rangeFrom pos len).filter (fun i => !c.bad.contains i) }

/-- R406: what an operand that is poisoned, or that failed its check twice, sets in the engine's page. -/
def ceFlag (s : State) (f : Fin 2) (q : QueueId) (a : Nat) (crc poison : Bool) : State :=
  let s := if crc then raiseAt s (.ce f) 4 q.val a true else s
  if crc || poison then raiseAt s (.ce f) 7 q.val a true else s

/-- R402, R406: the residuals of a run of elements, added: y, whether any residual was poisoned, and the state. -/
def addResid (s : State) (f : Fin 2) (q : QueueId) (c : Collective) (j : Nat) (x : List (BitVec 32)) : List (BitVec 32) × Bool × State :=
  if !cRes c.entry then (x, false, s)
  else match domReadV s f (ceDomain s f) (cResid c.entry + 4 * j) (4 * x.length) .ok with
    | (.ok d p, e, s) =>
      let s := ceFlag s f q (cResid c.entry + 4 * j) e p
      ((List.range x.length).map (fun i => (accAdd false (x.getD i 0) (BitVec.ofNat 32 (fieldAt d (4 * i) 4))).1), p, s)
    | (_, _, s) => (x, false, s)

/-- R402: the residuals that remain are written. -/
def putResid (s : State) (f : Fin 2) (c : Collective) (j : Nat) (y w : List (BitVec 32)) (sat : List (Bool × Bool)) (bad : Bool) : State :=
  if !cRes c.entry then s
  else
    let d := (List.range y.length).flatMap (fun i =>
      let yi := y.getD i 0
      if (sat.getD i (false, false)).1 || (decF f32 yi.toNat).isNan then toLE 4 0
      else toLE 4 (roundV f32 .rne (Val.add false (decF f32 yi.toNat) (Val.neg (decF f32 (w.getD i 0).toNat)))).1)
    (domPut s f (ceDomain s f) (cResid c.entry + 4 * j) d bad).2

/-- R402, R403: the wire bytes of a chunk to send: a final value is narrowed once, kept, and replaces the value it came from. -/
def wireOf (s : State) (f : Fin 2) (q : QueueId) (c : Collective) (x : Xfer) : List Byte × Collective × State :=
  let kept := mget [] c.wire x.pos
  if x.final ∧ kept ≠ [] then (kept, c, s)
  else
    let code := cWire c.entry
    let j := inputPos c x.pos
    let v := workAt c x.pos x.len
    let r := addResid s f q c j v
    let c := if r.2.1 then markBad c x.pos x.len else c
    let n := narrowRun c code r.1 j
    let w := widenRun code x.len n.1
    let s := putResid r.2.2 f c j r.1 w n.2 (workBad c x.pos x.len)
    let c := { c with sat := c.sat + n.2.countP (·.1), flush := c.flush + n.2.countP (·.2) }
    (n.1, if x.final then workSet { c with wire := mset [] c.wire x.pos n.1 } x.pos w else c, s)

/-! Inputs and outputs. -/

/-- A read that the engine makes: poisoned data sets POISON; a missing address stops the engine. -/
def ceFail (s : State) (f : Fin 2) (q : QueueId) (r : VaRes) : State :=
  match r with
  | .fault a => raiseAt s (.ce f) 3 q.val a true
  | .absent a => raiseAt s (.ce f) 3 q.val a true
  | _ => s

/-- R400, R406: one 64-byte piece of the input is read. -/
def loadPiece (f : Fin 2) (q : QueueId) (x : Option Collective × State) (pos first n : Nat) : Option Collective × State :=
  match x.1 with
  | none => x
  | some c =>
    let w := cWidth (cIn c.entry)
    let a := cSrc c.entry + w * first
    match domReadV x.2 f (ceDomain x.2 f) a (w * n) .ok with
    | (.ok d p, e, s) =>
      let s := ceFlag s f q a e p
      let c := workSet c pos (widenRun (cIn c.entry) n d)
      (some (if p then markBad c pos n else c), s)
    | (r, _, s) => (none, ceFail s f q r)

/-- R400: the inputs are read; none when a line is busy or an address is missing. -/
def loadInputs (s : State) (f : Fin 2) (q : QueueId) (c : Collective) : Option Collective × State :=
  let k := 64 / cWidth (cIn c.entry)
  let r := (inputRuns c).foldl (fun x run =>
    (chunksOf k (0, run.2.2)).foldl (fun x ch => loadPiece f q x (run.1 + ch.1) (run.2.1 + ch.1) ch.2) x) (some c, s)
  match r.1 with
  | none => r
  | some c =>
    if cOp c.entry = 5 then
      let len := cCount c.entry
      let from_ := c.self * len
      let c2 := workSet c (c.n * len + from_) (workAt c from_ len)
      (some { c2 with bad := c2.bad ++ (c2.bad.filter (fun i => decide (from_ ≤ i ∧ i < from_ + len))).map (· + c.n * len) }, r.2)
    else r

/-- R400, R403, R406: the outputs are written in OUT_FMT. -/
def writeOutputs (s : State) (f : Fin 2) (c : Collective) : Collective × State :=
  let code := cOut c.entry
  let w := cWidth code
  let run := outputRun c
  (chunksOf (64 / w) (0, run.2)).foldl (fun x ch =>
    let r := narrowRun c code (workAt c (run.1 + ch.1) ch.2) ch.1
    let s := (domPut x.2 f (ceDomain x.2 f) (cDst c.entry + w * ch.1) r.1 (workBad c (run.1 + ch.1) ch.2)).2
    ({ x.1 with sat := x.1.sat + r.2.countP (·.1), flush := x.1.flush + r.2.countP (·.2) }, s)) (c, s)

/-! Progress of the engine. -/

/-- The flow and rank of a member of the schedule. -/
def cePeer (c : Collective) (m : Nat) : Nat × Nat := ((c.peers.find? (fun x => x.1 == m)).map (·.2)).getD (0, 0)

/-- R407: the packet of a chunk or a token. -/
def cePacket (c : Collective) (pos step : Nat) (data : List Byte) (poison : Bool) : Packet :=
  { mkPkt 9 (pos % 2 ^ 32 + entSeq c.entry % 65536 * 2 ^ 32 + step % 256 * 2 ^ 48) data.length data with
    tag := BitVec.ofNat 8 (cWire c.entry), poison := poison }

/-- R397 to R399: whether the command has a data phase. -/
def ceHasData (c : Collective) : Bool := cOp c.entry != 6 && cCount c.entry != 0

/-- The tokens that both engines hold, without one. -/
def tokenTake (s : State) (t : Token) : Option State :=
  ([0, 1] : List (Fin 2)).findSome? (fun f =>
    let u := mget ({} : CeUnit) s.ces f.val
    if u.tokens.contains t then some { s with ces := mset {} s.ces f.val { u with tokens := u.tokens.erase t } } else none)

/-- R398: the arrival round: the token of a round leaves when the round begins, and the round completes with the token it waits for. -/
def cePumpRounds (f : Fin 2) (q : QueueId) : Nat → State → State
  | 0, s => s
  | k + 1, s => match ceRun s f q with
    | none => s
    | some c =>
      if c.data ∨ ceRounds c.n ≤ c.round then s
      else if c.tokSent ≤ c.round then
        let p := cePeer c ((c.self + 2 ^ c.round) % c.n)
        match flowSend s p.1 p.2 (cePacket c 0 c.round [] false) { psn := 0, who := .ce f q, row := 1, dst := BitVec.ofNat 64 (entSeq c.entry) } with
        | .sent s => cePumpRounds f q k (setCe s f q (some { c with tokSent := c.round + 1 }))
        | _ => s
      else
        let p := cePeer c ((c.self + c.n * 2 ^ c.round - 2 ^ c.round) % c.n)
        match tokenTake s { seq := entSeq c.entry % 65536, round := c.round, flow := p.1 } with
        | some s => cePumpRounds f q k (setCe s f q (some { c with round := c.round + 1 }))
        | none => s

/-- The data phase begins once the last round has completed and the inputs can be read. -/
def cePumpStart (s : State) (f : Fin 2) (q : QueueId) : State :=
  match ceRun s f q with
  | none => s
  | some c =>
    if c.data ∨ !ceHasData c ∨ c.round < ceRounds c.n then s
    else match loadInputs s f q c with
      | (some c, s) => wr (setCe s f q (some { c with data := true, lastCount := rd s (.ce f) (ceQChunks q.val) })) (.ce f) (ceQQstat q.val) 3
      | (none, s) => s

/-- R402: the residuals of a transfer's positions, where it narrows, can be read and written now. -/
def residStops (s : State) (f : Fin 2) (c : Collective) (x : Xfer) : Option (VaRes × State) :=
  if cRes c.entry ∧ !(x.final ∧ mget [] c.wire x.pos ≠ []) then
    domStops s f (ceDomain s f) (cResid c.entry + 4 * inputPos c x.pos) (4 * x.len)
  else none

/-- Transfer i is sent if it is ready and its flow takes it. -/
def ceSendOne (f : Fin 2) (q : QueueId) (s : State) (i : Nat) (x : Xfer) (l : List Xfer) : State :=
  match ceRun s f q with
  | none => s
  | some c =>
    if !x.send ∨ c.moved.contains i ∨ !xferReady c l i x then s
    else match residStops s f c x with
    | some (r, s) => ceFail s f q r
    | none =>
      let p := cePeer c x.peer
      let r := wireOf s f q c x
      match flowSend r.2.2 p.1 p.2 (cePacket r.2.1 x.wirePos x.step r.1 (workBad r.2.1 x.pos x.len))
          { psn := 0, who := .ce f q, dst := BitVec.ofNat 64 (entSeq c.entry) } with
      | .sent s =>
        wrapAdd (setCe s f q (some { r.2.1 with moved := r.2.1.moved ++ [i], outst := r.2.1.outst + 1 })) (.ce f) (ceQChunks q.val) 1
      | _ => s

/-- R57, R425: what has begun goes on while the page is RUNNING, STOPPING or in FAULT, and after STOP from FAULT (DEDUCED, log 131). -/
def ceGoes (s : State) (f : Fin 2) : Bool := let st := pgState s (.ce f); st == 2 || st == 4 || st == 5 || st == 6

/-- The engine works on a queue's collective: tokens, then every chunk that can leave. -/
def cePump (s : State) (f : Fin 2) (q : QueueId) : State :=
  match ceRun s f q with
  | none => s
  | some c =>
    if !c.begun ∨ !ceGoes s f then s
    else
      let s := cePumpStart (cePumpRounds f q 64 s) f q
      match ceRun s f q with
      | none => s
      | some c =>
        if !c.data then s
        else
          let l := ceSched c
          (List.range l.length).foldl (fun s i => match l[i]? with | some x => ceSendOne f q s i x l | none => s) s

end Sys2Proof.Machine
end

