-- ==== Sys2Proof/Machine/Gather.lean ====
section
/-! DEFINITION. The gather engines (R242 to R250, R255). -/

namespace Sys2Proof.Machine

/-- R246: the refusal of a descriptor: the offset of the field at fault. -/
def gthCheck (op : GthOp) (raw : List Byte) : Option Nat :=
  let d := gthDesc raw
  let n := op.count.toNat
  if d.space = 3 ∨ d.mode = 3 ∨ fieldAt raw 0 1 / 16 ≠ 0 then some 0
  else if fieldAt raw 1 1 ≠ 0 then some 1
  else if d.rowBytes % 64 ≠ 0 ∨ d.rowBytes < 64 ∨ 4096 < d.rowBytes then some 4
  else if d.idxAddr % d.idxSize ≠ 0 ∨ (op.afs = 0 ∧ !inStore d.idxAddr (n * d.idxSize)) then some 24
  else if d.dstStride % 64 ≠ 0 ∨ d.dstStride < d.rowBytes ∨ !storeWritable (64 * op.dst.toNat) (n * d.dstStride) then some 28
  else if fieldAt raw 48 4 / 2 ^ 18 ≠ 0 then some 48
  else if fieldAt raw 52 12 ≠ 0 then some 52
  else none

/-- R245: a gather engine accepts while it is RUNNING and holds fewer than 2 operations. -/
def gthAccepts (s : State) (b : BayId) (g : Fin 2) : Bool := pgState s (.gth b g) == 4 && decide ((gthList s b g).length < 2)

/-- R246: a refusal stops the engine. -/
def gthRefuse (s : State) (b : BayId) (g : Fin 2) (op : GthOp) (src : OpSrc) (off : Nat) : State :=
  raise s (.gth b g) { bit := 16, unit := srcUnit src, detail := op.di.toNat * 256 + off, stop := true }

/-- R243: the value of row i: an index element or the next FIFO entry, with its poison; none while the FIFO is empty. -/
def gthValue (s : State) (b : BayId) (g : Fin 2) (r : GthRun) (d : GthDesc) (i : Nat) : Option (Nat × Bool × State) :=
  if r.op.afs = 0 then
    let x := storeRead s b (.gth b g) (srcUnit r.src) (d.idxAddr + i * d.idxSize) d.idxSize .ok .none
    some (leNat x.1, x.2.1, x.2.2)
  else (afPop s b (r.op.afs.toNat % 4)).map (fun x => (x.1.toNat, false, x.2))

/-- R243: the row address. -/
def gthAddr (d : GthDesc) (v : Nat) : Nat :=
  match d.mode with
  | 0 => ofInt 64 ((d.base : Int) + toInt 32 v * (d.rowStride : Int))
  | 1 => (d.base + v * d.rowStride) % 2 ^ 64
  | _ => v

/-- R243 to R246: requests are issued in row order, at most 512 outstanding in the engine, those of remote rows as READ packets while the flow takes
them. A row address that breaks R246 fails its row once every row before it has been requested. -/
def gthAsk (b : BayId) (g : Fin 2) (id : Nat) : Nat → State → State
  | 0, s => s
  | n + 1, s =>
    match (gthList s b g).find? (fun r => r.id == id) with
    | none => s
    | some r =>
      let d := gthDesc r.desc
      let i := r.asked
      if r.op.count.toNat ≤ i ∨ 512 ≤ gthHeld (gthList s b g) ∨ r.fail.isSome then s
      else match r.addrs[i]? with
      | none => (match gthValue s b g r d i with
        | none => s
        | some (v, p, s) =>
          let a := gthAddr d v
          let bad := a % 64 != 0 || (d.space == 0 && !inStore a d.rowBytes)
          let s := modGth s b g id (fun r => { r with
            addrs := r.addrs ++ [(BitVec.ofNat 64 a, p)]
            fail := if bad then lowerFail r.fail (i, 19, BitVec.ofNat 64 a, d.space != 0) else r.fail })
          if bad then gthSettle s b g id else gthAsk b g id n s)
      | some x =>
        let a := x.1.toNat
        let asked := fun (s : State) => modGth s b g id (fun r => { r with asked := r.asked + 1 })
        if d.space ≠ 2 then gthAsk b g id n (asked s)
        else match flowSend s d.flow d.rank (mkPkt 2 a d.rowBytes [])
            { psn := 0, who := .gth b g id, row := i, dst := BitVec.ofNat 64 (64 * r.op.dst.toNat + i * d.dstStride) } with
        | .sent s => gthAsk b g id n (asked s)
        | .wait => s
        | .fail => gthSettle (gthRemoteFail s b g id i a) b g id

/-- R245: a queued operation's requests start once the one before it has issued its last. -/
def gthPump (s : State) (b : BayId) (g : Fin 2) : State :=
  let l := gthList s b g
  let go := fun (s : State) (r : GthRun) => gthAsk b g r.id 1025 s
  match l with
  | [] => s
  | r :: rest =>
    let s := go s r
    match rest, (gthList s b g).head? with
    | q :: _, some r' => if r'.id = r.id ∧ r'.asked = r'.op.count.toNat then go s q else s
    | _, _ => s

/-- R242, R243, R246, R244: a gather completes its issue handshake and starts issuing its rows. `th`: the thread that submitted it, as the sequence
number of its block and its index. -/
def gatherIssue (s : State) (b : BayId) (g : Fin 2) (op : GthOp) (src : OpSrc) (sig : BitVec 8) (th : Option (BitVec 32 × Nat)) : State :=
  let p := Page.gth b g
  if op.op ≠ 1 then gthRefuse s b g op src 0x40
  else if 1 ≤ op.afs.toNat ∧ op.afs.toNat ≤ 3 then gthRefuse s b g op src 0x42
  else if rd s p engDescCount ≤ op.di.toNat then gthRefuse s b g op src 0x43
  else if op.count = 0 then
    let n := newOp s b src sig 1
    engDoneOp n.2 b p n.1
  else
    let r := storeRead s b p (srcUnit src) (64 * (rd s p engDescBase + op.di.toNat)) 64 .ok .none
    let s := r.2.2
    match gthCheck op r.1 with
    | some off => gthRefuse s b g op src off
    | none =>
      let n := newOp s b src sig 1
      gthPump (setGths n.2 b g (gthList n.2 b g ++ [{ id := n.1, op := op, desc := r.1, src := src, sig := sig, thread := th }])) b g

/-- GATHER. `u`: what SECDED finds in the descriptor and the index elements. -/
def execGather (b : BayId) (g : Fin 2) (op : GthOp) (src : OpSrc) (sig : BitVec 8) (u : Upset) (s : State) : Out :=
  .next (if gthAccepts s b g then gatherIssue (storeUpset s b u) b g op src sig none else s)

/-- A row has been written. -/
def gthRowDone (s : State) (b : BayId) (g : Fin 2) (id row : Nat) : State :=
  gthSettle (modGth s b g id (fun r => { r with done := r.done ++ [row] })) b g id

/-- R244, R250: row `i` of an operation arrives from bay store or the DRAM space, is verified and written; `lg`: a check of the engine failed on it
(R484). -/
def gthRow (s : State) (b : BayId) (g : Fin 2) (r : GthRun) (i : Nat) (chk : Check) (lg : Bool) : State :=
  let d := gthDesc r.desc
  let x := r.addrs.getD i (0, false)
  let a := x.1.toNat
  let t := 64 * r.op.dst.toNat + i * d.dstStride
  if d.space = 0 then
    let y := storeRead s b (.gth b g) (srcUnit r.src) a d.rowBytes chk .none
    gthRowDone (storeWrite y.2.2 b t y.1 (y.2.1 || x.2 || lg)) b g r.id i
  else match vaRead s b 26 a d.rowBytes chk with
    | (.ok dt p, crc, s) =>
      let s := if crc then raiseAt s (.gth b g) 4 (srcUnit r.src) a true else s
      let s := if p then raiseAt s (.gth b g) 7 (srcUnit r.src) a true else s
      gthRowDone (storeWrite s b t dt (p || x.2 || lg)) b g r.id i
    | (.wait, _, s) => s
    | (.fault v, _, s) => gthSettle (modGth s b g r.id (fun r => { r with fail := lowerFail r.fail (i, 17, BitVec.ofNat 64 v, true) })) b g r.id
    | (.absent v, _, s) => gthSettle (modGth s b g r.id (fun r => { r with fail := lowerFail r.fail (i, 3, BitVec.ofNat 64 v, true) })) b g r.id

/-- The operation whose row `i` is outstanding and comes from bay store or the DRAM space. -/
def gthWaits (s : State) (b : BayId) (g : Fin 2) (i : Nat) : Option GthRun :=
  (gthList s b g).find? (fun r => decide (i < r.asked) && !r.done.contains i && (gthDesc r.desc).space != 2 &&
    (match r.fail with | none => true | some f => decide (i < f.1)))

/-- R249: run-ahead of a gather after row `i`, within its declared extent. -/
def gthAhead (s : State) (b : BayId) (r : GthRun) (i n : Nat) : State :=
  let d := gthDesc r.desc
  if d.space = 1 then runAhead s b 26 (d.extBase, d.extSize) (r.addrs.getD i (0, false)).1.toNat d.rowBytes n else s

/-- GATHER_ROW_ARRIVAL (R244, R249, R250). `u`: what SECDED and the engine's checks find; `ahead`: how far the engine runs ahead. -/
def execGatherRowArrival (b : BayId) (g : Fin 2) (row : Nat) (chk : Check) (u : Upset) (ahead : Nat) (s : State) : Out :=
  if !pgWorks s (.gth b g) then .next s
  else
    let s := gthPump s b g
    match gthWaits s b g row with
    | none => .next s
    | some r =>
      let s := logicCheck (storeUpset s b u) (.gth b g) (srcUnit r.src) u
      .next (gthAhead (gthPump (gthRow s b g r row chk (u == .logic)) b g) b r row ahead)

/-- GATHER_COMPLETE (R244, R245): every row of the oldest operation is written. -/
def execGatherComplete (b : BayId) (g : Fin 2) (s : State) : Out :=
  match gthList s b g with
  | [] => .next s
  | r :: rest =>
    if r.done.length = r.op.count.toNat ∧ r.fail.isNone ∧ pgWorks s (.gth b g) then
      .next (gthPump (engDoneOp (setGths s b g rest) b (.gth b g) r.id) b g)
    else .next s

end Sys2Proof.Machine
end

