-- ==== Sys2Proof/Machine/Fabric.lean ====
section
/-! DEFINITION. Fabric ports, routers and flows (R353 to R386): the commands of chapter 13 but those that the loss of a neighbour and the
sideband's accession tokens share with accession (Machine/Jobs.lean). -/

namespace Sys2Proof.Machine

/-! Ports. -/

/-- Port `p`. -/
def portOf (s : State) (p : Fin 32) : Port := mget {} s.ports p.val
/-- The state with it replaced. -/
def setPort (s : State) (p : Fin 32) (v : Port) : State := { s with ports := mset {} s.ports p.val v }
/-- LINK.LSTATE: 0 DOWN, 1 IDENT, 2 TRAIN, 3 UP, 4 REMAP, 5 MISCABLED. -/
def lstate (s : State) (p : Fin 32) : Nat := rd s (.fport p) fpLinkLstate
/-- R382: the page lets its port run: RUNNING, STOPPING, or FENCED, which leaves ports trained (R381). -/
def portOn (s : State) (p : Fin 32) : Bool :=
  let st := pgState s (.fport p)
  st == 4 || st == 5 || st == 7

/-- R366: the state a port sends: FENCE before HOLD before NORMAL. Training after the run phase has begun is retraining (R357). -/
def txHb (s : State) (p : Fin 32) : Nat :=
  if !domainUp s ∨ rd s (.ce 0) ceJobFenced = 1 then 2
  else if lstate s p = 4 ∨ (lstate s p = 2 ∧ rd s (.fport p) fpSbTxPhase ≠ 0) ∨ pgState s (.fport p) = 5 ∨ rd s (.fport p) fpSbHoldReq = 1 then 1 else 0

/-- SB.TX_HB follows. -/
def portHb (s : State) (p : Fin 32) : State := wr s (.fport p) fpSbTxHb (txHb s p)

/-- PORTS_UP of both routers follows a port. -/
def portsUp (s : State) (p : Fin 32) (up : Bool) : State :=
  ([0, 1] : List (Fin 2)).foldl (fun s f =>
    let v := rd s (.router f) rtrPortsUp
    wr s (.router f) rtrPortsUp (if up then setBit v p.val else clrBit v p.val)) s

/-- A port enters a link state. -/
def setLstate (s : State) (p : Fin 32) (st : Nat) : State :=
  portHb (portsUp (wr s (.fport p) fpLinkLstate st) p (st == 3)) p

/-- R364, R382: the identity phase begins. What waited on the link is discarded (R367), unless `keep` (R357, R365). -/
def portIdentity (s : State) (p : Fin 32) (keep : Bool) : State :=
  let u := portOf s p
  let u : Port := if keep then u else { lastFrame := u.lastFrame, sameFrames := u.sameFrames }
  let s := setPort s p { u with identAt := rd s .hub hubTimer, lastHb := 3, sameHb := 0 }
  let s := wr (wr (wr s (.fport p) fpLinkWidth 0) (.fport p) fpLinkLanesUp 0) (.fport p) fpSbTxPhase 0
  let s := if rd s (.fport p) fpSbNbrHb = 3 then s else setEvt (wr s (.fport p) fpSbNbrHb 3) (.fport p) 19
  setLstate s p 1

/-- R364: a port leaves the identity phase for training once NBR_ID is valid and it has sent three frames of 62 µs. -/
def identityEnd (s : State) (p : Fin 32) : State :=
  if lstate s p = 1 ∧ portOn s p ∧ rd s (.fport p) fpNbrIdValid = 1 ∧ (portOf s p).identAt + 18600 ≤ rd s .hub hubTimer then setLstate s p 2 else s

/-- A packet's VC (R369): 2 × CLASS + LEVEL. -/
def vcOf (cls level : Bool) : Nat := 2 * b2n cls + b2n level

/-- R372: the header of a packet. Of byte 16, LEVEL is bit 6 and CLASS bit 7, as R369 numbers a VC (DEDUCED, log 130). -/
def packetHead (k : Packet) : List Byte :=
  [k.dstPlace, k.dstRank, k.srcPlace, k.srcRank].flatMap (fun v => toLE 2 v.toNat) ++
  toLE 4 (k.dstFlow.toNat + k.op.toNat * 2 ^ 18 + b2n k.reread * 2 ^ 23 + b2n k.poison * 2 ^ 24 + b2n k.carried * 2 ^ 25 + b2n k.last * 2 ^ 26) ++
  toLE 4 (k.psn.toNat + k.tag.toNat * 2 ^ 24) ++ toLE 1 (k.hops.toNat + 64 * vcOf k.cls k.level) ++ [k.status] ++ toLE 2 k.srcEpoch.toNat ++
  toLE 2 k.len.toNat ++ [0, 0] ++ toLE 8 k.addr.toNat

/-- R356, R372: the 304 bytes of a flit's body: a packet, its carried CRC at byte 288, or a control record, zero-padded. -/
def bodyBytes : FabricBody → List Byte
  | .empty => slice [] 0 304
  | .packet k => slice (packetHead k ++ slice k.data 0 256 ++ (if k.carried then toLE 4 k.crc.toNat else [])) 0 304
  | .control b => slice b 0 304

/-- R356: the 320 bytes of a flit: the CRC-32C of what follows it, the numbers, the credits and the body. -/
def fabricBytes (f : FabricFlit) : List Byte :=
  let d := toLE 2 (f.seq.toNat + f.kind.toNat * 2 ^ 12) ++ toLE 2 (f.ack.toNat + b2n f.nak * 2 ^ 12) ++ [BitVec.ofNat 8 f.vc.val, 0] ++
    (List.range 4).map (fun v => BitVec.ofNat 8 (f.credit.getD v 0)) ++ [0, 0] ++ bodyBytes f.body
  toLE 4 (crc32c d).toNat ++ d

/-- R355: the 20-bit framing field of codeword `n`, before its two flits. -/
def framing (n lanes : Nat) : Nat := n % 4096 + lanes % 256 * 4096

/-- R355: the lane that carries symbol `i` of a port's stream of 544-symbol codewords: round-robin over the lanes in use. -/
def symbolLane (lanes i : Nat) : Option Nat :=
  let l := (List.range 8).filter (fun k => bitOf lanes k)
  l[i % l.length]?

/-- R356 to R358: packets waiting at a port leave while credits and the replay buffer allow, in order for each VC, each in a flit that returns the credits
owed and sends the NAK that is due. A received HOLD (R366) and boundary scan (R524) stop them. -/
def portPump (s : State) (p : Fin 32) : State :=
  let u := portOf s p
  if lstate s p ≠ 3 ∨ rd s (.fport p) fpSbNbrHb = 1 ∨ s.pins.jtag = .boundaryScan then s
  else
    let r := u.egress.foldl (fun (x : Port × List Packet) k =>
      let vc := vcOf k.cls k.level
      let c := mget 128 x.1.credits vc
      if c = 0 ∨ 512 ≤ x.1.buffer.length ∨ x.2.any (fun j => vcOf j.cls j.level == vc) then (x.1, x.2 ++ [k])
      else
        let f : FabricFlit := {
          seq := x.1.txSeq, kind := 1, ack := x.1.rxSeq - 1, nak := x.1.nakDue, vc := ⟨vc % 4, Nat.mod_lt _ (by decide)⟩,
          credit := (List.range 4).map (mget 0 x.1.owed), body := .packet k }
        ({ x.1 with
          credits := mset 128 x.1.credits vc (c - 1), owed := [], nakDue := false, buffer := x.1.buffer ++ [f], txSeq := x.1.txSeq + 1 }, x.2)) (u, [])
    setPort s p { r.1 with egress := r.2 }

/-- R364: the identity frame that port `p` sends on SBA. -/
def identityFrame (s : State) (p : Fin 32) : List Byte :=
  let d := 0xD9 :: toLE 2 (myPlace s) ++ [BitVec.ofNat 8 (p.val + 2 ^ 5)]
  d ++ [BitVec.ofNat 8 (crc8Run 7 0 d)]

/-- R364: an identity frame is valid. -/
def frameOk (f : List Byte) : Bool :=
  f.length == 5 && fieldAt f 0 1 == 0xD9 && fieldAt f 3 1 / 32 == 1 && crc8Run 7 0 (f.take 4) == fieldAt f 4 1

/-- IDENTITY_FRAME (R364): three valid identical frames set NBR_ID, whatever the page state; the module's own place sets MISCABLE. -/
def execIdentityFrame (p : Fin 32) (bytes : List Byte) (s : State) : Out :=
  let pg := Page.fport p
  let v := s
  let s := wr s pg fpSbRxForm 1
  let u := portOf s p
  if held s then .next v
  else if !frameOk bytes then .next (setPort s p { u with sameFrames := 0 })
  else
    let n := if bytes = u.lastFrame then u.sameFrames + 1 else 1
    let s := setPort s p { u with lastFrame := bytes, sameFrames := min n 3 }
    let place := fieldAt bytes 1 2
    if place = myPlace s then .next (setLstate (raise s pg { bit := 18 }) p 5)
    else if n < 3 then .next s
    else
      let s := wr (wr (wr s pg fpNbrIdPlace place) pg fpNbrIdPort (fieldAt bytes 3 1 % 32)) pg fpNbrIdValid 1
      .next (identityEnd s p)

/-- The lanes a mask holds. -/
def lanesIn (m : Nat) : Nat := (List.range 8).countP (fun i => bitOf m i)
/-- Lanes common to two masks. -/
def laneAnd (a b : Nat) : Nat := (List.range 8).foldl (fun v i => if bitOf a i && bitOf b i then v + 2 ^ i else v) 0

/-- PORT_TRAIN (R365): the PHY trains and the control records are exchanged. -/
def execPortTrain (p : Fin 32) (r : PeerRecord) (s : State) : Out :=
  let pg := Page.fport p
  let s := identityEnd s p
  if lstate s p ≠ 2 ∨ !portOn s p then .next s
  else if r.place.toNat ≠ rd s pg fpNbrIdPlace then .next (setLstate (raise s pg { bit := 18 }) p 5)
  else
    let lanes := laneAnd r.lanes.toNat (rd s pg fpCfgLanes)
    if lanesIn lanes < rd s pg fpCfgMinWidth then .next s
    else
      let old := rd s pg fpNbrEpochEpoch
      let s := if r.epoch.toNat = old then s
        else setEvt (wr (wr s pg fpNbrEpochPrev old) pg fpNbrEpochEpoch r.epoch.toNat) pg 20
      let width := rd s pg fpLinkWidth
      let s := if width ≠ 0 ∧ width ≠ lanesIn lanes then setEvt s pg 18 else s
      let s := wr (wr (wr s pg fpLinkWidth (lanesIn lanes)) pg fpLinkLanesUp lanes) pg fpRtt r.rtt.toNat
      let s := wrapAdd (wr s pg fpLaneFail 0) pg fpTrains 1
      let s := if rd s pg fpSbTxPhase = 1 then s else wr s pg fpSbTxPhase 2
      .next (portPump (setEvt (setLstate s p 3) pg 16) p)

/-- TRAIN_FAIL (R365): not UP within 5 ms: the port starts again from the identity phase. -/
def execTrainFail (p : Fin 32) (s : State) : Out :=
  let s := identityEnd s p
  if lstate s p = 2 ∧ portOn s p then .next (portIdentity (raise s (.fport p) { bit := 19 }) p true) else .next s

/-- The distance from `a` to `b` modulo 4,096. -/
def seqDist (a b : BitVec 12) : Nat := (b - a).toNat

/-- R356, R357: what the ACK and NAK fields of an intact flit do to a transmitter. -/
def portAck (u : Port) (ack : BitVec 12) (nak : Bool) : Port :=
  let kept := u.buffer.filter (fun x => decide (2048 ≤ seqDist x.seq ack))
  let moved := decide (kept.length < u.buffer.length)
  { u with
    buffer := kept, nak := u.nak || nak
    nakCount := if nak then (if moved then 1 else u.nakCount + 1) else if moved then 0 else u.nakCount }

/-- R355: the codeword counters, at a codeword's first flit. -/
def fecCount (s : State) (p : Fin 32) (fec : Fec) : State :=
  let pg := Page.fport p
  let s := wrapAdd s pg fpFecCw 1
  match fec with
  | .clean => s
  | .corrected => wrapAdd s pg fpFecCorr 1
  | .uncorrectable => satAdd s pg fpFecUncorr 1

/-- R357: what a flit intact and not discarded brings: acknowledgement, credits, and what it carries. -/
def flitIn (u : Port) (f : FabricFlit) : Port :=
  let u := portAck u f.ack f.nak
  let u := { u with credits := (List.range 4).foldl (fun c v => mset 128 c v (min 128 (mget 128 c v + f.credit.getD v 0))) u.credits }
  if f.kind = 0 then u
  else
    let u := { u with discarding := false, rxSeq := u.rxSeq + 1 }
    match f.body with
    | .packet k => if f.kind = 1 then { u with ingress := u.ingress ++ [k] } else u
    | _ => u

/-- FABRIC_FLIT (R355 to R358): a port receives a flit, the first or second of its codeword. One that fails is discarded with everything after it until the
replay, and NAKed; so is a replay that fails again (DEDUCED, log 130). -/
def execFabricFlit (p : Fin 32) (f : FabricFlit) (fec : Fec) (second crcOk : Bool) (s : State) : Out :=
  let pg := Page.fport p
  if (lstate s p ≠ 3 ∧ lstate s p ≠ 4) ∨ !portOn s p then .next s
  else
    let s := if second then s else fecCount s p fec
    let u := portOf s p
    let due := f.kind ≠ 0 ∧ f.seq = u.rxSeq
    if fec = .uncorrectable ∨ !crcOk then
      if u.discarding ∧ !due then .next s
      else .next (satAdd (setPort s p { u with discarding := true, nakDue := true }) pg fpNaks 1)
    else if due ∨ (f.kind = 0 ∧ !u.discarding) then .next (portPump (setPort s p (flitIn u f)) p)
    else if u.discarding then .next s
    else .next (setPort s p (portAck u f.ack f.nak))

/-- FABRIC_REPLAY (R357): the transmitter replays from ACK + 1, what it sends being in `resp`; eight NAKs of one SEQ make the port train again with its
replay buffer. -/
def execFabricReplay (p : Fin 32) (s : State) : Out :=
  let u := portOf s p
  if !u.nak ∨ lstate s p ≠ 3 ∨ !portOn s p then .next s
  else if 8 ≤ u.nakCount then .next (setLstate (setPort s p { u with nak := false, nakCount := 0 }) p 2)
  else .next { setPort s p { u with nak := false } with resp := u.buffer.flatMap (fun f => fabricBytes { f with ack := u.rxSeq - 1 }) }

/-- FEC_WINDOW (R359): at the end of a window of 10 µs every lane is checked: `corrected` is what it counted of each lane, `lost` the lanes without signal or
lock. -/
def execFecWindow (p : Fin 32) (corrected : List Nat) (lost : BitVec 8) (s : State) : Out :=
  let pg := Page.fport p
  if lstate s p ≠ 3 ∨ !portOn s p then .next s
  else
    let up := rd s pg fpLinkLanesUp
    let bad := (List.range 8).filter (fun i => bitOf up i && (lost.getLsbD i || decide (2048 < corrected.getD i 0)))
    .next (if bad.isEmpty then s
      else
        let s := bad.foldl (fun s i =>
          raise (wr s pg fpLaneFail (setBit (rd s pg fpLaneFail) i)) pg { bit := 16, unit := i, sev := some 0 }) s
        setLstate (ledgerNote s 0xB p.val (bad.foldl (fun m i => m + 2 ^ i) 0)) p 4)

/-- A port goes down, its lanes unused. -/
def portDown (s : State) (p : Fin 32) : State :=
  let pg := Page.fport p
  let s := wr (wr s pg fpLinkWidth 0) pg fpLinkLanesUp 0
  setEvt (setLstate s p 0) pg 17

/-- R359: the remap has ended, and the flits that were not acknowledged are replayed. -/
def remapEnd (s : State) (p : Fin 32) : State :=
  let s := setLstate s p 3
  let u := portOf s p
  portPump (setPort s p { u with nak := u.nak || !u.buffer.isEmpty }) p

/-- LANE_REMAP (R359): a failed lane leaves at a codeword boundary; below MIN_WIDTH the port goes down. -/
def execLaneRemap (p : Fin 32) (lane : Fin 8) (s : State) : Out :=
  let pg := Page.fport p
  let up := rd s pg fpLinkLanesUp
  if lstate s p ≠ 4 ∨ !bitOf up lane.val ∨ !bitOf (rd s pg fpLaneFail) lane.val then .next s
  else
    let m := clrBit up lane.val
    let s := setEvt (wr (wr s pg fpLinkLanesUp m) pg fpLinkWidth (lanesIn m)) pg 18
    if lanesIn m < rd s pg fpCfgMinWidth then .next (portDown s p)
    else if laneAnd m (rd s pg fpLaneFail) = 0 then .next (remapEnd s p)
    else .next s

/-- R530: the heartbeat state that a high time of less than 900 ns means (0 NORMAL, 1 HOLD, 2 FENCE; a time on a limit of the table counts as
the longer pulse: DESIGN CHOICE, log 133). -/
def hbDecode (ns : Nat) : Nat := if ns < 375 then 1 else if ns < 625 then 0 else 2

/-- R366: a pulse of a state arrives: four that agree change the received state; a HOLD that ends lets the port send again. -/
def hbPulse (s : State) (p : Fin 32) (hb : Nat) : State :=
  let pg := Page.fport p
  let u := portOf s p
  let n := if u.lastHb = hb then u.sameHb + 1 else 1
  let s := wr (setPort s p { u with lastHb := hb, sameHb := min n 4 }) pg fpSbRxForm 2
  if 4 ≤ n ∧ rd s pg fpSbNbrHb ≠ hb then portPump (setEvt (wr s pg fpSbNbrHb hb) pg 19) p else s

/-- HEARTBEAT (R364, R366, R529, R530): a pulse of the measured high time: one shorter than 125 ns is ignored, one from 900 ns breaks the run of
agreeing pulses, and one of 1,000 ns or more is the byte form. -/
def execHeartbeat (p : Fin 32) (highNs : Nat) (s : State) : Out :=
  if held s ∨ highNs < 125 then .next s
  else if highNs < 900 then .next (hbPulse s p (hbDecode highNs))
  else
    let s := setPort s p { portOf s p with lastHb := 3, sameHb := 0 }
    .next (if highNs < 1000 then s else wr s (.fport p) fpSbRxForm 1)

/-! Routing. -/

/-- R368: entry `place` of a route table. -/
def routeOf (s : State) (f : Fin 2) (place : Nat) : Nat := (mget 0 s.routes (f.val * 65536 + place)).toNat

/-- Port `n` as an index. -/
def portId (n : Nat) : Fin 32 := ⟨n % 32, Nat.mod_lt _ (by decide)⟩

/-- R368, R369: a candidate passes for a packet that is looked up on die `f`: a port of the other fabric die is reached over the die links. -/
def candOk (s : State) (f : Fin 2) (c : Nat) (level : Bool) : Bool :=
  let p := portId (c % 32)
  bitOf c 7 && (c % 32 / 16 == f.val || dieReach s (16 + f.val) (17 - f.val)) && lstate s p == 3 && rd s (.fport p) fpSbNbrHb != 1 && !(bitOf c 5 && level)

/-- R369: the packet belongs to a PINNED flow of this module. -/
def pinnedPkt (s : State) (k : Packet) : Bool :=
  k.srcPlace.toNat == myPlace s && s.flows.any (fun x =>
    bitOf x.2.ctx0.toNat 36 && flwRank x.2 == k.dstRank.toNat && flwRemote x.2 == k.dstFlow.toNat)

/-- R369: the candidate the router takes: the most credits at the far end, on a tie the lower number; the lowest for a pinned flow. -/
def routeChoice (s : State) (f : Fin 2) (k : Packet) : Option (Fin 32 × Bool) :=
  let e := routeOf s f k.dstPlace.toNat
  let cs := ((List.range 4).map (fun i => bits e (8 * i + 7) (8 * i))).filter (fun c => candOk s f c k.level)
  let free := fun (c : Nat) => mget 128 (portOf s (portId (c % 32))).credits (vcOf k.cls (k.level || bitOf c 5))
  let best := if pinnedPkt s k then cs.head? else match cs with
    | [] => none
    | c :: rest => some (rest.foldl (fun b c => if free b < free c then c else b) c)
  best.map (fun c => (portId (c % 32), bitOf c 5))

/-- R358, R368: where a packet waits for its lookup on die `f`: it left the die's endpoint, or a port's buffer holds it, which then owes a credit. -/
def routeTake (s : State) (f : Fin 2) (k : Packet) : Option State :=
  if s.netOut.contains (f, k) then some { s with netOut := s.netOut.erase (f, k) }
  else ((List.finRange 32).find? (fun p => decide (p.val / 16 = f.val) && (portOf s p).ingress.contains k)).map (fun p =>
    let u := portOf s p
    let vc := vcOf k.cls k.level
    setPort s p { u with ingress := u.ingress.erase k, owed := mset 0 u.owed vc (mget 0 u.owed vc + 1) })

/-- ROUTE_LOOKUP (R368, R369): a packet for this module goes to its endpoint; any other leaves through a candidate or is dropped. -/
def execRouteLookup (f : Fin 2) (k : Packet) (s : State) : Out :=
  let pg := Page.router f
  let st := pgState s pg
  if st ≠ 4 ∧ st ≠ 7 then .next s
  else match routeTake s f k with
  | none => .next s
  | some s =>
    if k.dstPlace.toNat = myPlace s then .next { s with netIn := s.netIn ++ [k] }
    else if k.hops = 63 then .next (raise (satAdd s pg rtrHopdrop 1) pg { bit := 17 })
    else match routeChoice s f k with
    | none => .next (setEvt (raise (satAdd s pg rtrNoroute 1) pg { bit := 16 }) pg 16)
    | some (p, dl) =>
      let k := { k with hops := k.hops + 1, level := k.level || dl }
      .next (portPump (setPort s p { portOf s p with egress := (portOf s p).egress ++ [k] }) p)

/-- RT_DATA_WRITE (R384): entry RT_INDEX is replaced. -/
def execRtDataWrite (f : Fin 2) (entry : BitVec 32) (s : State) : Out :=
  .next { s with routes := mset 0 s.routes (f.val * 65536 + rd s (.router f) rtrRtIndex) entry }

/-- R362, R363: a catalogue entry is written; a changed place or VALID bit puts the open flows to that rank in ERROR. -/
def catalogueSet (s : State) (r : Nat) (v : BitVec 64) : State :=
  let old := (mget 0 s.catalogue r).toNat
  let new := v.toNat
  let s := { s with catalogue := mset 0 s.catalogue r (BitVec.ofNat 64 (new % 65536 + new / 2 ^ 63 * 2 ^ 63)) }
  if old % 65536 = new % 65536 ∧ old / 2 ^ 63 = new / 2 ^ 63 then s
  else (mkeys s.flows).foldl (fun s i => if flwSt (flw s i) = 1 ∧ flwRank (flw s i) = r then flowError s i 5 else s) s

/-- CATALOGUE_WRITE (R362): only one 8-byte access writes an entry; the requester that a refused one names is free (log 22). -/
def execCatalogueWrite (r : Fin 16384) (size : Nat) (value : BitVec 64) (s : State) : Out :=
  if size = 8 then .next (catalogueSet s r.val value)
  else
    let x := fresh s
    .next (logWrite x.2 0 (pgId .hub) 0x102 1 false (x.1.toNat % 2 ^ 32))

/-! Flow commands. -/

/-- The flow that FLOW.SEL addresses. -/
def selFlow (s : State) (f : Fin 2) : Nat := f.val * 131072 + rd s (.flow f) flowSel

/-- FLOW_OPEN (R371). -/
def execFlowOpen (f : Fin 2) (s : State) : Out :=
  let i := selFlow s f
  let v := flw s i
  if flwSt v ≠ 0 then .next s
  else .next (flowState s i { v with
    ctx1 := 0, ctx4 := putBits v.ctx4 7 0 0, epochKnown := false, unacked := [], received := [], reorder := [], atomics := [],
    retries := 0, closing := false, owners := [], full := false } 1)

/-- A closing flow with nothing outstanding is CLOSED. -/
def flowCloseNow (s : State) (i : Nat) : State := flowState s i { flw s i with closing := false } 0

/-- FLOW_CLOSE (R371): an OPEN flow closes once its outstanding operations have completed. -/
def execFlowClose (f : Fin 2) (s : State) : Out :=
  let i := selFlow s f
  let v := flw s i
  if flwSt v ≠ 1 then .next s
  else if v.unacked.isEmpty then .next (flowCloseNow s i)
  else .next (setFlw s i { v with closing := true })

/-- FLOW_CLOSED (R371): the last operation of a closing flow has completed. -/
def execFlowClosed (i : BitVec 18) (s : State) : Out :=
  let v := flw s i.toNat
  if flwSt v = 1 ∧ v.closing ∧ v.unacked.isEmpty then .next (flowCloseNow s i.toNat) else .next s

/-- FLOW_RESET (R371): any flow closes at once; its operations complete with REMOTE_ERR. -/
def execFlowReset (f : Fin 2) (s : State) : Out :=
  let i := selFlow s f
  let s := flowState s i { flw s i with closing := false } 0
  .next (ownersFail s i)

/-- DOM_WRITE (R373): a new root; that domain's TLB entries are invalidated. -/
def execDomWrite (f : Fin 2) (n : Fin 64) (satp : BitVec 64) (s : State) : Out :=
  if pgState s (.flow f) = 0 then .next s
  else
    let s := wr s (.flow f) (flowDom n.val) satp.toNat
    let fd := mget ({} : FlowDie) s.flowDies f.val
    .next { s with flowDies := mset {} s.flowDies f.val { fd with tlb := fd.tlb.filter (fun x => x.1 != n.val) } }

/-! The target side. -/

/-- The packet is taken from the endpoint. -/
def netTake (s : State) (k : Packet) : State := { s with netIn := s.netIn.erase k }

/-- R374, R376: a response to a request. -/
def netReply (s : State) (k : Packet) (op status addr : Nat) (data : List Byte) : Packet :=
  let v := flw s k.dstFlow.toNat
  { mkPkt op addr data.length data with
    dstPlace := k.srcPlace, dstRank := k.srcRank, srcPlace := BitVec.ofNat 16 (myPlace s), srcRank := BitVec.ofNat 16 (myRank s),
    dstFlow := BitVec.ofNat 18 (flwRemote v), psn := k.psn, cls := true, status := BitVec.ofNat 8 status,
    srcEpoch := BitVec.ofNat 16 (fepoch s) }

/-- A NAK with a status. -/
def nakFor (s : State) (k : Packet) (status : Nat) : State := netSend (netTake s k) (flowDie k.dstFlow.toNat) (netReply s k 8 status 0 [])

/-- R374: the acknowledgement: the lowest PSN not yet performed. -/
def ackFor (s : State) (k : Packet) : State :=
  netSend (netTake s k) (flowDie k.dstFlow.toNat) (netReply s k 7 0 (flwRx (flw s k.dstFlow.toNat)) [])

/-- R371: the PERM bit of an operation. -/
def permBit (op : Nat) : Option Nat :=
  match op with
  | 1 => some 44 | 2 => some 43 | 4 => some 45 | 6 => some 46
  | _ => none

/-- R373: the checks of a request that come before its address: its status, 0 for none. -/
def targetStatus (s : State) (k : Packet) : Nat :=
  let i := k.dstFlow.toNat
  let v := flw s i
  if !domainUp s ∨ rd s (.ce 0) ceJobFenced = 1 then 7
  else if !rankValid s ∨ k.dstRank.toNat ≠ myRank s then 2
  else if flwSt v ≠ 1 ∨ flwRank v ≠ k.srcRank.toNat ∨ pgState s (.flow (flowDie i)) = 2 then 1
  else if v.epochKnown ∧ flwEpoch v ≠ k.srcEpoch.toNat then 3
  else match permBit k.op.toNat with
  | some b => if bitOf v.ctx0.toNat b then 0 else 4
  | none => 0

/-- R373: the far end's epoch is learned from its first packet. -/
def learnEpoch (s : State) (i : Nat) (e : BitVec 16) : State :=
  let v := flw s i
  if v.epochKnown then s else setFlw s i { v with epochKnown := true, ctx1 := putBits v.ctx1 15 0 e.toNat }

/-- R374: the lowest PSN moves past every PSN performed. -/
def rxAdvance : Nat → Nat → List Nat → Nat × List Nat
  | 0, rx, l => (rx, l)
  | n + 1, rx, l => if l.contains rx then rxAdvance n ((rx + 1) % 2 ^ 24) (l.erase rx) else (rx, l)

/-- R374: a PSN has been performed. -/
def rxMark (s : State) (i psn : Nat) : State :=
  let v := flw s i
  let r := rxAdvance 257 (flwRx v) (v.received ++ [psn])
  setFlw s i { v with ctx1 := putBits v.ctx1 63 40 r.1, received := r.2, reorder := v.reorder.filter (fun k => k.psn.toNat != psn) }

/-- R374: the PSN lies in the window and has not been performed. -/
def rxNew (v : FlowState) (psn : Nat) : Bool :=
  decide ((psn + 2 ^ 24 - flwRx v) % 2 ^ 24 < 256) && !v.received.contains psn

/-- R373: the checks of a request and the duplicate rule of R374: the request goes on with `go` when it is new; `dup` answers one that was
performed before. -/
def target (s : State) (k : Packet) (dup go : State → State) : State :=
  let i := k.dstFlow.toNat
  match targetStatus s k with
  | 0 =>
    let s := learnEpoch s i k.srcEpoch
    if rxNew (flw s i) k.psn.toNat then go s else dup s
  | 3 => flowError (nakFor s k 3) i 3
  | 4 => let s := learnEpoch s i k.srcEpoch
    if rxNew (flw s i) k.psn.toNat then rxMark (nakFor s k 4) i k.psn.toNat else nakFor s k 4
  | st => nakFor s k st

/-- R373: what an address failure answers. -/
def addrNak (s : State) (k : Packet) (r : VaRes) : State :=
  match r with
  | .fault _ => nakFor s k 5
  | .absent _ => nakFor s k 6
  | _ => s

/-- R373: the same of a packet that then counts as performed. -/
def targetFail (s : State) (k : Packet) (r : VaRes) : State :=
  match r with
  | .fault _ | .absent _ => rxMark (addrNak s k r) k.dstFlow.toNat k.psn.toNat
  | _ => s

/-- A flow's translation domain and die. -/
def flwDom (s : State) (i : Nat) : Fin 2 × Nat := (flowDie i, flwDomain (flw s i))

/-- WRITE_PACKET (R373, R374, R377): the data is written as it arrives; a carried block is stored with its CRC and TAG. -/
def execWritePacket (k : Packet) (s : State) : Out :=
  let i := k.dstFlow.toNat
  .next (target s k (fun s => ackFor s k) (fun s =>
    let d := flwDom s i
    let a := k.addr.toNat
    let len := k.len.toNat
    match domRange s d.1 d.2 a len .write with
    | (.inl .wait, s) => s
    | (.inl r, s) => targetFail s k r
    | (.inr l, s) =>
      let s := if k.carried ∧ len = 256 ∧ a % 256 = 0 then
          cohPutBlock s ((l.headD (0, 0)).1 / 256) 29 { data := slice k.data 0 256, crc := some k.crc, tag := k.tag, poison := k.poison }
        else (l.foldl (fun (x : Nat × State) pc => (x.1 + pc.2, cohPutBlocks x.2 pc.1 29 (slice k.data x.1 pc.2) 0 k.poison)) (0, s)).2
      ackFor (rxMark s i k.psn.toNat) k))

/-- R374: an early READ, ATOMIC or MSG waits in the reorder buffer of 16; beyond it the packet is discarded. -/
def inOrder (s : State) (k : Packet) (go : State → State) : State :=
  let i := k.dstFlow.toNat
  let v := flw s i
  if flwRx v = k.psn.toNat then go s
  else if v.reorder.any (fun x => x.psn == k.psn) ∨ 16 ≤ v.reorder.length then netTake s k
  else netTake (setFlw s i { v with reorder := v.reorder ++ [k] }) k

/-- R372, R377: the READ_RSP packets of a read: one for each aligned 256 bytes touched, a whole aligned block carried; the position is
the remote address of the data. -/
def readReplies (s : State) (k : Packet) (chk : Check) : Nat → Nat → Nat → State
  | 0, _, _ => s
  | n + 1, a, len =>
    if len = 0 then s
    else
      let d := flwDom s k.dstFlow.toNat
      let m := min len (256 - a % 256)
      match domXlate s d.1 d.2 a .read with
      | (.ok pa, s) =>
        let rsp := netReply s k 3 0 a
        let r := if m = 256 then
            let s := if k.reread then homeReread s (pa / 256) chk else s
            let x := cohBlock s (pa / 256) 29 false .ok
            ({ rsp x.1.data with carried := true, crc := x.1.crc, tag := x.1.tag, poison := x.1.poison }, x.2)
          else
            let x := cohBytes s pa m 29 true chk
            ({ rsp x.1 with poison := x.2.1 }, x.2.2)
        readReplies (netSend r.2 d.1 { r.1 with last := decide (m = len) }) k chk n (a + m) (len - m)
      | (_, s) => s

/-- READ_PACKET (R373, R374, R377): a READ is performed in PSN order; one repeated performs again. -/
def execReadPacket (k : Packet) (chk : Check) (s : State) : Out :=
  let i := k.dstFlow.toNat
  let perform := fun (s : State) (mark : Bool) =>
    let d := flwDom s i
    match domRange s d.1 d.2 k.addr.toNat k.len.toNat .read with
    | (.inl .wait, s) => s
    | (.inl r, s) => if mark then targetFail s k r else addrNak s k r
    | (.inr _, s) =>
      let s := readReplies s k chk 18 k.addr.toNat k.len.toNat
      netTake (if mark then rxMark s i k.psn.toNat else s) k
  .next (target s k (fun s => perform s false) (fun s => inOrder s k (fun s => perform s true)))

/-- ATOMIC_PACKET (R373, R374): a remote atomic is performed at its home in PSN order; a duplicate is answered from the record of the
last 8 results. -/
def execAtomicPacket (k : Packet) (chk : Check) (s : State) : Out :=
  let i := k.dstFlow.toNat
  let rsp := fun (s : State) (old : BitVec 64) (p : Bool) => netSend (netTake s k) (flowDie i) { netReply s k 5 0 k.addr.toNat (toLE 8 old.toNat) with poison := p }
  .next (target s k
    (fun s => match (flw s i).atomics.find? (fun x => x.1 == k.psn.toNat) with
      | some x => rsp s x.2 false
      | none => ackFor s k)
    (fun s => inOrder s k (fun s =>
      let d := flwDom s i
      let size := k.tag.toNat / 16
      match domRange s d.1 d.2 k.addr.toNat size .write with
      | (.inl .wait, s) => s
      | (.inl r, s) => targetFail s k r
      | (.inr l, s) =>
        let pa := (l.headD (0, 0)).1
        let x := funcRead s (pa / 64) 29 true chk
        let o : AtomicOp := {
          aop := BitVec.ofNat 4 (k.tag.toNat % 16), size := size, off := pa % 64, operand := BitVec.ofNat 64 (fieldAt k.data 0 8),
          compare := BitVec.ofNat 64 (fieldAt k.data 8 8) }
        let y := atomicLine x.1 o
        let s := funcWrite x.2.2 (pa / 64) 29 allMask y.1 x.2.1
        let s := rxMark s i k.psn.toNat
        let v := flw s i
        let at_ := v.atomics ++ [(k.psn.toNat, BitVec.ofNat 64 y.2)]
        rsp (setFlw s i { v with atomics := at_.drop (at_.length - 8) }) (BitVec.ofNat 64 y.2) x.2.1)))

/-- MSG (R373, R374, R378): a message is delivered into the receive queue and signalled. -/
def execMsg (k : Packet) (s : State) : Out :=
  let i := k.dstFlow.toNat
  .next (target s k (fun s => ackFor s k) (fun s => inOrder s k (fun s =>
    let v := flw s i
    let n := 2 ^ (v.ctx3.toNat % 32)
    let base := v.ctx2.toNat / 256 * 256
    let d := flwDom s i
    let tail := flwTail v
    let used := fun (h : Nat) => (tail + 2 ^ 32 - h) % 2 ^ 32
    let hw := if used v.headSeen.toNat < n then (VaRes.ok (toLE 8 v.headSeen.toNat) false, s) else domRead s d.1 d.2 (base + 512 * n) 8 .ok
    match hw with
    | (.wait, s) => s
    | (.ok hb _, s) =>
      let head := leNat hb % 2 ^ 32
      let v := flw s i
      let s := setFlw s i { v with headSeen := BitVec.ofNat 32 head }
      if n ≤ used head then nakFor s k 8
      else
        let entry := slice k.data 0 256 ++ toLE 8 (k.srcRank.toNat + k.len.toNat % 512 * 65536 + tail * 2 ^ 32)
        match domPut s d.1 d.2 (base + 512 * (tail % n)) entry k.poison with
        | (.ok _ _, s) =>
          let v := flw s i
          let s := setFlw s i { v with ctx3 := putBits v.ctx3 63 32 (tail + 1) }
          let s := if bitOf v.ctx3.toNat 22 then
            (match finOf 48 (bits v.ctx3.toNat 21 16) with
              | some b => signal s b (bits v.ctx3.toNat 15 8)
              | none => s) else s
          ackFor (rxMark s i k.psn.toNat) k
        | (.wait, s) => s
        | (r, s) => targetFail s k r
    | (r, s) => targetFail s k r)))

/-! The source side. -/

/-- R376: a response with another epoch than the flow's puts the flow in ERROR; false when the response is not to be used. -/
def rspCheck (s : State) (k : Packet) : Bool × State :=
  let i := k.dstFlow.toNat
  let v := flw s i
  if flwSt v ≠ 1 ∨ pgState s (.flow (flowDie i)) = 2 then (false, netTake s k)
  else if v.epochKnown ∧ flwEpoch v ≠ k.srcEpoch.toNat then (false, setEvt (flowError (netTake s k) i 3) (.flow (flowDie i)) 17)
  else (true, learnEpoch s i k.srcEpoch)

/-- A packet leaves the list of the unacknowledged: progress. -/
def unackDrop (s : State) (i psn : Nat) : State :=
  let v := flw s i
  setFlw s i { v with
    unacked := v.unacked.filter (fun x => x.psn.toNat != psn), owners := v.owners.filter (fun o => o.psn != psn), retries := 0, full := false }

/-- An operation's packet has completed. -/
def ownerDone (s : State) (o : FlowOwner) : State :=
  match o.who with
  | .mov b m id => movSettle (modMov s b m id (fun r => { r with outst := r.outst - 1 })) b m id
  | .gth b g id => if (gthList s b g).any (fun r => r.id == id && !r.done.contains o.row) then gthPump (gthRowDone s b g id o.row) b g else s
  | .ce f q => match ceRun s f q with
    | some c =>
      if o.row = 0 ∧ o.dst.toNat = entSeq c.entry then
        cePump (wrapAdd (setCe s f q (some { c with outst := c.outst - 1 })) (.ce f) (ceQChunks q.val) 1) f q
      else cePump s f q
    | none => s
  | .acc => accAck s o.row

/-- The page and UNIT of a packet's owner. -/
def ownerPage : FlowOwner → Option (Page × BayId)
  | ⟨_, .mov b m _, _, _, _, _⟩ => some (.mov b m, b)
  | ⟨_, .gth b g _, _, _, _, _⟩ => some (.gth b g, b)
  | _ => none

/-- R239, R244, R377: the data of a READ_RSP is written locally for its owner. A carried block keeps its CRC where it lands whole and
aligned; otherwise it is verified here, and a mismatch poisons it (`twice`). -/
def rspWrite (s : State) (k : Packet) (o : FlowOwner) (t : Nat) (twice : Bool) : MovRes :=
  let bad := k.poison || twice
  if !whoReach s o.who k.dstFlow.toNat then .wait s
  else
  let flag := fun (s : State) => match ownerPage o with
    | some x =>
      let s := if twice then raiseAt s x.1 4 0 k.addr.toNat true else s
      if bad then raiseAt s x.1 7 0 k.addr.toNat true else s
    | none => s
  match o.who with
  | .mov b m id => match (movList s b m).find? (fun r => r.id == id) with
    | none => .ok s
    | some r =>
      let sp := (movDesc r.desc).dstSpace
      if k.carried ∧ t % 256 = 0 ∧ sp ≤ 1 then
        movPutCarried (flag s) b o.row sp t { data := slice k.data 0 256, crc := k.crc, tag := k.tag, poison := bad }
      else movWrite (flag s) b m id o.row sp t (slice k.data 0 k.len.toNat) 0 bad
  | .gth b g id =>
    let idx := ((gthList s b g).find? (fun r => r.id == id)).any (fun r => (r.addrs.getD o.row (0, false)).2)
    .ok (storeWrite (flag s) b t (slice k.data 0 k.len.toNat) (bad || idx))
  | _ => .ok s

/-- R239, R377: a carried block that is verified on arrival fails its CRC. -/
def rspBad (s : State) (k : Packet) (o : FlowOwner) (t : Nat) : Bool :=
  let keeps := match o.who with
    | .mov b m id => ((movList s b m).find? (fun r => r.id == id)).any (fun r => decide ((movDesc r.desc).dstSpace ≤ 1 ∧ t % 256 = 0))
    | _ => false
  k.carried && !k.poison && !keeps && crc32c (slice k.data 0 256) != k.crc

/-- READ_RSP (R239, R372, R377): the source writes the data; the READ completes with the last of its responses. -/
def execReadRsp (k : Packet) (s : State) : Out :=
  let i := k.dstFlow.toNat
  let c := rspCheck s k
  if !c.1 then .next c.2
  else
    let s := c.2
    let v := flw s i
    let psn := k.psn.toNat
    match v.owners.find? (fun o => o.psn == psn), v.unacked.find? (fun x => x.psn == k.psn) with
    | some o, some req =>
      let a := k.addr.toNat
      let first := req.addr.toNat
      if o.got.contains a ∨ a < first ∨ first + req.len.toNat < a + k.len.toNat then .next (netTake s k)
      else
        let t := o.dst.toNat + (a - first)
        let bad := rspBad s k o t
        let finish := fun (s : State) =>
          let got := o.got ++ [a]
          let s := setFlw s i { flw s i with
            owners := (flw s i).owners.map (fun x => if x.psn == psn then { x with got := got } else x), retries := 0 }
          if (first + req.len.toNat - 1) / 256 - first / 256 + 1 ≤ got.length then ownerDone (unackDrop s i psn) o else s
        if bad ∧ o.rereads.isEmpty then
          match flowSend s i k.srcRank.toNat { mkPkt 2 a k.len.toNat [] with reread := true }
              { o with dst := BitVec.ofNat 64 t, got := [], rereads := [a] } with
          | .sent s =>
            let s := match o.who with
              | .mov b m id => modMov s b m id (fun r => { r with outst := r.outst + 1 })
              | _ => s
            .next (netTake (finish s) k)
          | _ => .next s
        else match rspWrite s k o t bad with
        | .ok s => .next (netTake (finish s) k)
        | .wait _ => .next s
        | .fail row bit addr va s =>
          let s := unackDrop (netTake s k) i psn
          match o.who with
          | .mov b m id => .next (movSettle (modMov s b m id (fun r => { r with
              fail := lowerFail r.fail (row, bit, BitVec.ofNat 64 addr, va), outst := r.outst - 1 })) b m id)
          | _ => .next s
    | _, _ => .next (netTake s k)

/-- ATOMIC_RSP (R235, R372): the old value is written to bay store and the atomic completes. -/
def execAtomicRsp (k : Packet) (s : State) : Out :=
  let i := k.dstFlow.toNat
  let c := rspCheck s k
  if !c.1 then .next c.2
  else
    let s := netTake c.2 k
    match (flw s i).owners.find? (fun o => o.psn == k.psn.toNat) with
    | none => .next s
    | some o =>
      let s := match o.who with
        | .mov b m id => match (movList s b m).find? (fun r => r.id == id) with
          | some r =>
            let d := movDesc r.desc
            movPoison (atomicOut s b d o.row (leNat (slice k.data 0 8) % 2 ^ (8 * d.rowLen)) k.poison) b m r.src k.addr.toNat true k.poison false
          | none => s
        | _ => s
      .next (ownerDone (unackDrop s i k.psn.toNat) o)

/-- R374: PSN `a` comes before PSN `b`. -/
def psnBefore (a b : Nat) : Bool := let d := (b + 2 ^ 24 - a % 2 ^ 24) % 2 ^ 24; decide (0 < d) && decide (d < 2 ^ 23)

/-- ACK (R372, R374): every WRITE, MSG and CHUNK below the acknowledged PSN completes. -/
def execAck (k : Packet) (s : State) : Out :=
  let i := k.dstFlow.toNat
  let c := rspCheck s k
  if !c.1 then .next c.2
  else
    let s := netTake c.2 k
    let v := flw s i
    let done := v.unacked.filter (fun x => (x.op == 1 || x.op == 6 || x.op == 9) && psnBefore x.psn.toNat k.addr.toNat)
    .next (done.foldl (fun s x =>
      let o := (flw s i).owners.find? (fun o => o.psn == x.psn.toNat)
      let s := unackDrop s i x.psn.toNat
      match o with
      | some o => ownerDone s o
      | none => s) s)

/-- NAK (R372, R373, R375): NO_FLOW, RANK_MISMATCH and EPOCH put the flow in ERROR; RXQ_FULL leaves the message to be retransmitted;
any other status fails its operation. -/
def execNak (k : Packet) (s : State) : Out :=
  let i := k.dstFlow.toNat
  let c := rspCheck s k
  if !c.1 then .next c.2
  else
    let s := netTake c.2 k
    let v := flw s i
    match k.status.toNat with
    | 1 => .next (flowError s i 2)
    | 2 => .next (flowError s i 4)
    | 3 => .next (flowError s i 3)
    | 8 => .next (setFlw s i { v with full := true })
    | _ => match v.owners.find? (fun o => o.psn == k.psn.toNat) with
      | some o =>
        let a := (v.unacked.find? (fun x => x.psn == k.psn)).elim 0 (fun x => x.addr.toNat)
        .next (ownerFail (unackDrop s i k.psn.toNat) o a)
      | none => .next (unackDrop s i k.psn.toNat)

/-- RETRANSMIT (R375): no progress for RTO: every unacknowledged packet leaves again, or after RETRY.MAX times the flow enters ERROR with
TIMEOUT, or RXQ_FULL where the receive queue stayed full. -/
def execRetransmit (i : BitVec 18) (s : State) : Out :=
  let v := flw s i.toNat
  let pg := Page.flow (flowDie i.toNat)
  if flwSt v ≠ 1 ∨ v.unacked.isEmpty ∨ pgState s pg ≠ 4 then .next s
  else if rd s pg flowRetry ≤ v.retries then .next (flowError s i.toNat (if v.full then 6 else 1))
  else
    let s := setFlw s i.toNat { v with retries := v.retries + 1 }
    .next (v.unacked.foldl (fun s k => netSend s (flowDie i.toNat) k) s)

end Sys2Proof.Machine
end

