-- ==== Sys2Proof/Machine/Engine.lean ====
section
/-! DEFINITION. The commands of the collective engines (R387 to R411). -/

namespace Sys2Proof.Machine

/-- R389: PROD − CONS exceeds the ring. -/
def ceOver (s : State) (f : Fin 2) (q : QueueId) : Bool :=
  let p := Page.ce f
  decide (2 ^ rd s p (ceQRingLog2 q.val) < (rd s p (ceQProd q.val) + 2 ^ 32 - rd s p (ceQCons q.val)) % 2 ^ 32)

/-- R389: PROD − CONS beyond the ring sets DB_OVR. -/
def ceOvr (s : State) (f : Fin 2) (q : QueueId) : State :=
  if ceOver s f q then raise s (.ce f) { bit := 22, unit := q.val } else s

/-- CE_DOORBELL (R389): adds to PROD while the queue is not bound to a counter. -/
def execCeDoorbell (f : Fin 2) (q : QueueId) (n : BitVec 32) (s : State) : Out :=
  if rd s (.ce f) (ceQBindEn q.val) = 1 then .next s
  else .next (ceOvr (wrapAdd s (.ce f) (ceQProd q.val) n.toNat) f q)

/-- BIND_COUNTER_CHANGE (R389): PROD takes the bound counter's value. -/
def execBindCounterChange (f : Fin 2) (q : QueueId) (s : State) : Out :=
  let p := Page.ce f
  if rd s p (ceQBindEn q.val) = 0 then .next s
  else match finOf 48 (rd s p (ceQBindBay q.val)) with
    | none => .next s
    | some b => .next (ceOvr (wr s p (ceQProd q.val) (cnt s b (rd s p (ceQBindCounter q.val)))) f q)

/-! The checks of an entry (R392). -/

/-- A reserved OP, ALG or bit, or a combination that R395 does not allow; n is 0 where the group cannot be read. -/
def badCmd (e : List Byte) (n : Nat) : Bool :=
  let op := cOp e
  let alg := cAlg e
  let pow2 := n == 0 || n == 2 ^ log2p n
  let comb := match op with
    | 1 => decide (alg < 3)
    | 2 => alg == 0 || (alg == 2 && pow2)
    | 3 => alg == 0 || (alg == 2 && pow2)
    | 4 => decide (alg < 2)
    | 5 => true
    | 6 => true
    | _ => false
  !comb || decide (16 ≤ fieldAt e 4 1) || decide (64 ≤ fieldAt e 6 1) || fieldAt e 7 1 != 0 || fieldAt e 22 2 != 0 ||
    leNat (slice e 72 56) != 0 || (decide (n ≤ fieldAt e 20 2) && fieldAt e 20 2 != 0xFFFF && n != 0) || entCpl e % 16 != 0

/-- A format outside R390, or INT32 with any other code. -/
def badFormat (e : List Byte) : Bool :=
  let vec := fun (c : Nat) => decide (2 ≤ c ∧ c ≤ 5)
  !vec (cIn e) || !vec (cOut e) || !(vec (cWire e) || cWire e == 0x10 || cWire e == 0x11) ||
    ((cIn e == 5 || cOut e == 5 || cWire e == 5) && !(cIn e == 5 && cOut e == 5 && cWire e == 5))

/-- The group is not this member's, has a rank that is no member, or lacks a flow that the schedule needs. -/
def badGroup (s : State) (c : Collective) (ranks : List (Nat × Nat)) : Bool :=
  decide (c.n = 0) || decide (16384 < c.n) || decide (c.n ≤ c.self) || (ranks.getD c.self (0, 0)).1 != myRank s ||
    ranks.any (fun x => !isMember s x.1) ||
    c.peers.any (fun x => x.1 != c.self && (decide (2 ^ 18 - 1 = x.2.1) || flwSt (flw s x.2.1) != 1 || flwRank (flw s x.2.1) != x.2.2))

/-- R412: the root member: ROOT, or the lead's index where it is 0xFFFF; n where the lead is no member of the group. -/
def rootOf (s : State) (e : List Byte) (ranks : List (Nat × Nat)) : Nat :=
  let r := fieldAt e 20 2
  if r = 0xFFFF then ((List.range ranks.length).find? (fun i => (ranks.getD i (0, 0)).1 == rd s (.ce 0) ceLead)).getD ranks.length else r

/-- R392: a refused entry stops the engine. -/
def ceRefuse (s : State) (f : Fin 2) (q : QueueId) (bit cons : Nat) : State :=
  raise s (.ce f) { bit := bit, unit := q.val, detail := cons % 65536, stop := true }

/-- R391, R392: an entry with its group is checked and becomes the queue's command. -/
def ceAccept (s : State) (f : Fin 2) (q : QueueId) (cons : Nat) (e : List Byte) (n self : Nat) (grp : List Byte) : State :=
  let ranks := (List.range n).map (fun i => (fieldAt grp (8 * i) 2, fieldAt grp (8 * i) 8 / 65536 % 2 ^ 18))
  let root := rootOf s e ranks
  if badCmd e n ∨ (cOp e = 4 ∧ 0 < n ∧ n ≤ root) then ceRefuse s f q 16 cons
  else if badFormat e then ceRefuse s f q 17 cons
  else
    let peers := (cePeers (cOp e) (cAlg e) (cWire e) n self root (if cOp e = 6 then 0 else cCount e)).map (fun m =>
      (m, (ranks.getD m (0, 0)).2, (ranks.getD m (0, 0)).1))
    let c : Collective := { entry := e, n := n, self := self, root := root, peers := peers }
    if badGroup s c ranks then ceRefuse s f q 18 cons
    else
      let s := wr (wr s (.ce f) (ceQSeq q.val) (entSeq e)) (.ce f) (ceQChunks q.val) 0
      wr (setCe s f q (some c)) (.ce f) (ceQQstat q.val) 1

/-- CE_ENTRY_FETCH (R389, R392): the queue fetches its next entry and checks it. A read that finds no memory stops the engine with
ABSENT_TARGET, a poisoned entry with POISON recorded is refused with BAD_CMD (log 24). An overrun ring gives free entries (log 50). -/
def execCeEntryFetch (f : Fin 2) (q : QueueId) (s : State) : Out :=
  let p := Page.ce f
  let cons := rd s p (ceQCons q.val)
  if pgState s p ≠ 4 ∨ (ceRun s f q).isSome ∨ s.job.held ∨ rd s p (ceQProd q.val) = cons then .next s
  else
    let dom := ceDomain s f
    let va := (rd s p (ceQRingBase q.val) + 128 * (cons % 2 ^ rd s p (ceQRingLog2 q.val))) % 2 ^ 64
    match domReadV s f dom va 128 .ok with
    | (.wait, _, s) => .next s
    | (.ok mem bad, e1, s1) =>
      let x := if ceOver s f q then freeBytes s1 128 else (mem, s1)
      let e := x.1
      let s1 := x.2
      let s1 := wrapAdd s1 p (ceQCons q.val) 1
      if bad then .next (ceRefuse (ceFlag s1 f q va e1 bad) f q 16 cons)
      else if fieldAt e 8 2 ≠ rd s p hdrEpoch % 65536 then match domStops s1 f dom (entCpl e) 16 with
        | some (.wait, w) => .next { s with hostPort := w.hostPort }
        | some (r, s) => .next (ceFail s f q r)
        | none => .next (raise (ceRecord s1 f e 5 0 0) p { bit := 8, unit := q.val })
      else
        let g := fieldAt e 56 8
        match domReadV s1 f dom g 16 .ok with
        | (.wait, _, w) => .next { s with hostPort := w.hostPort }
        | (.ok h bad, e2, s2) =>
          let n := fieldAt h 0 4
          let self := fieldAt h 4 4
          if bad then .next (ceRefuse (ceFlag s2 f q g e2 bad) f q 18 cons)
          else if 16384 < n ∨ n ≤ self then .next (ceRefuse s2 f q (if badCmd e 0 then 16 else if badFormat e then 17 else 18) cons)
          else match domReadV s2 f dom (g + 16) (8 * n) .ok with
            | (.wait, _, w) => .next { s with hostPort := w.hostPort }
            | (.ok t bad, e3, s3) =>
              if bad then .next (ceRefuse (ceFlag s3 f q g e3 bad) f q 18 cons)
              else .next (ceAccept s3 f q cons e n self t)
            | (r, _, s3) => .next (ceFail s3 f q r)
        | (r, _, s2) => .next (ceFail s2 f q r)
    | (r, _, s1) => .next (ceFail s1 f q r)

/-! The start of an operation. -/

/-- R398: a fetched command of the given OP begins its arrival round. -/
def ceBegin (op : Nat) (f : Fin 2) (q : QueueId) (s : State) : State :=
  match ceRun s f q with
  | none => s
  | some c =>
    if cOp c.entry ≠ op ∨ c.begun ∨ pgState s (.ce f) ≠ 4 then s
    else cePump (wr (setCe s f q (some { c with begun := true })) (.ce f) (ceQQstat q.val) 2) f q

/-- ALLREDUCE (R395, R397). -/
def execAllreduce (f : Fin 2) (q : QueueId) (s : State) : Out := .next (ceBegin 1 f q s)
/-- REDUCESCATTER (R395, R397). -/
def execReducescatter (f : Fin 2) (q : QueueId) (s : State) : Out := .next (ceBegin 2 f q s)
/-- ALLGATHER (R395, R397). -/
def execAllgather (f : Fin 2) (q : QueueId) (s : State) : Out := .next (ceBegin 3 f q s)
/-- BROADCAST (R395, R397). -/
def execBroadcast (f : Fin 2) (q : QueueId) (s : State) : Out := .next (ceBegin 4 f q s)
/-- ALLTOALL (R395, R397). -/
def execAlltoall (f : Fin 2) (q : QueueId) (s : State) : Out := .next (ceBegin 5 f q s)
/-- BARRIER (R398): the arrival round alone. -/
def execBarrier (f : Fin 2) (q : QueueId) (s : State) : Out := .next (ceBegin 6 f q s)

/-! Packets (R407). -/

/-- The queues of both engines. -/
def ceQueues : List (Fin 2 × QueueId) := ([0, 1] : List (Fin 2)).flatMap (fun f => (List.finRange 4).map (fun q => (f, q)))

/-- The queue whose begun collective has SEQ[15:0] = `seq` and a member reached by local flow `flow`. -/
def ceFind (s : State) (seq flow : Nat) : Option (Fin 2 × QueueId) :=
  ceQueues.find? (fun x => match ceRun s x.1 x.2 with
    | some c => c.begun && entSeq c.entry % 65536 == seq && c.peers.any (fun y => y.2.1 == flow)
    | none => false)

/-- ARRIVAL_TOKEN (R398, R407): a token is held until its round; one beyond the table of 4,096 is answered with PERM. -/
def execArrivalToken (k : Packet) (s : State) : Out :=
  let i := k.dstFlow.toNat
  .next (target s k (fun s => ackFor s k) (fun s =>
    let seq := bits k.addr.toNat 47 32
    let f := flowDie i
    let u := mget ({} : CeUnit) s.ces f.val
    let run := ceFind s seq i
    if run.isNone ∧ 4096 ≤ u.tokens.length then rxMark (nakFor s k 4) i k.psn.toNat
    else
      let t : Token := { seq := seq, round := bits k.addr.toNat 55 48, flow := i }
      let s := { s with ces := mset {} s.ces f.val { u with tokens := u.tokens ++ [t] } }
      let s := ackFor (rxMark s i k.psn.toNat) k
      match run with
      | some x => cePump s x.1 x.2
      | none => s))

/-- R406: the local operands of a chunk that is combined are verified as they are read; what fails twice is poisoned. -/
def ceOperand (s : State) (f : Fin 2) (q : QueueId) (c : Collective) (x : Xfer) (chk : Check) : Collective × State :=
  if x.final ∨ chk = .ok then (c, s)
  else
    let w := cWidth (cIn c.entry)
    let a := cSrc c.entry + w * x.pos
    match domReadV s f (ceDomain s f) a (w * x.len) chk with
    | (.ok _ bad, e, s) => (if bad then markBad c x.pos x.len else c, ceFlag s f q a e bad)
    | (_, _, s) => (c, s)

/-- R397, R403: the values of a received chunk are added, or stored with the wire bits they came in. -/
def ceCombine (c : Collective) (x : Xfer) (data : List Byte) (poison : Bool) : Collective :=
  let code := cWire c.entry
  let w := widenRun code x.len data
  let c := if poison then markBad c x.pos x.len else c
  if x.final then workSet { c with wire := mset [] c.wire x.pos (slice data 0 (wireBytes code x.len)) } x.pos w
  else
    let own := workAt c x.pos x.len
    let sums := (List.range x.len).map (fun i => accAdd (cInt c.entry) (w.getD i 0) (own.getD i 0))
    workSet { c with sat := c.sat + sums.countP (·.2) } x.pos (sums.map (·.1))

/-- R406, R484: the residue or parity check of the conversion fails: the chunk's elements are poisoned. -/
def ceLogic (s : State) (f : Fin 2) (q : QueueId) (c : Collective) (x : Xfer) (logic : Bool) : Collective × State :=
  if logic then (markBad c x.pos x.len, logicCheck s (.ce f) q.val .logic) else (c, s)

/-- CHUNK (R397, R400 to R407, R484): a chunk of a started collective is combined or stored, then acknowledged; one of any other SEQ is answered
with PERM. A chunk that comes before what R397 puts ahead of it waits. -/
def execChunk (k : Packet) (chk : Check) (logic : Bool) (s : State) : Out :=
  let i := k.dstFlow.toNat
  .next (target s k (fun s => ackFor s k) (fun s =>
    let deny := rxMark (nakFor s k 4) i k.psn.toNat
    match ceFind s (bits k.addr.toNat 47 32) i with
    | none => deny
    | some (f, q) => match ceRun s f q with
      | none => deny
      | some c =>
        let l := ceSched c
        let hit := (List.range l.length).find? (fun j => match l[j]? with
          | some x => !x.send && !c.moved.contains j && (cePeer c x.peer).1 == i && x.step % 256 == bits k.addr.toNat 55 48 &&
              x.wirePos % 2 ^ 32 == k.addr.toNat % 2 ^ 32 && wireBytes (cWire c.entry) x.len == k.len.toNat && k.tag.toNat == cWire c.entry
          | none => false)
        match hit.bind (fun j => (l[j]?).map (fun x => (j, x))) with
        | none => if c.data then deny else s
        | some (j, x) =>
          if !c.data ∨ !xferReady c l j x ∨ !ceGoes s f then s
          else
            let r := ceOperand s f q c x chk
            let g := ceLogic r.2 f q (ceCombine { r.1 with moved := r.1.moved ++ [j] } x k.data k.poison) x logic
            let c := g.1
            let s := if k.poison then raiseAt g.2 (.ce f) 7 q.val k.addr.toNat true else g.2
            let s := wrapAdd (setCe s f q (some c)) (.ce f) (ceQChunks q.val) 1
            cePump (ackFor (rxMark s i k.psn.toNat) k) f q))

/-! The end. -/

/-- A collective has nothing left to do but its outputs and its record. -/
def ceFinished (c : Collective) : Bool :=
  c.begun && decide (ceRounds c.n ≤ c.round) &&
  (!ceHasData c || (c.data && decide (c.outst = 0) && (List.range (ceSched c).length).all (fun j => c.moved.contains j)))

/-- What keeps the output vector and the completion record from being written now. -/
def ceStops (s : State) (f : Fin 2) (c : Collective) : Option (VaRes × State) :=
  (if ceHasData c then domStops s f (ceDomain s f) (cDst c.entry) (cWidth (cOut c.entry) * (outputRun c).2) else none).orElse (fun _ =>
    domStops s f (ceDomain s f) (entCpl c.entry) 16)

/-- COLLECTIVE_COMPLETE (R393, R399, R400, R406): the outputs, the completion record and the notification are written. -/
def execCollectiveComplete (f : Fin 2) (q : QueueId) (s : State) : Out :=
  if !ceGoes s f then .next s
  else
    let s1 := cePump s f q
    match ceRun s1 f q with
    | none => .next s1
    | some c =>
      if !ceFinished c then .next s1
      else match ceStops s1 f c with
      | some (r, s) => .next (ceFail s f q r)
      | none =>
        let r := if ceHasData c then writeOutputs s1 f c else (c, s1)
        .next (ceEnd (setCe r.2 f q (some r.1)) f q (if c.poisoned then 3 else 0))

/-- CE_WATCHDOG_TICK (R409): a sample of the chunk count; WDOG_LIMIT samples without change end the collective as STALLED. -/
def execCeWatchdogTick (f : Fin 2) (q : QueueId) (s : State) : Out :=
  match ceRun s f q with
  | none => .next s
  | some c =>
    if !c.data then .next s
    else
      let n := rd s (.ce f) (ceQChunks q.val)
      let idle := if n = c.lastCount then c.idle + 1 else 0
      let s := setCe s f q (some { c with lastCount := n, idle := idle })
      if rd s (.ce f) ceWdogLimit ≤ idle then .next (censusStart (ceEnd (raise s (.ce f) { bit := 19, unit := q.val }) f q 1))
      else .next s

end Sys2Proof.Machine
end

