-- ==== Sys2Proof/Machine/Reset.lean ====
section
/-! DEFINITION. What RESET, STOP from FAULT, sleep and the way out of a fence do to a block (R12, R20, R57, R99, R164, R187, R201, R222, R254,
R256, R382, R385, R425). -/

namespace Sys2Proof.Machine

/-- The operations whose numbers are listed leave without their SIG actions. -/
def opsDrop (s : State) (b : BayId) (ids : List Nat) : State := ids.foldl (fun s i => opDrop s b i) s

/-- R223: RESIDENT follows the launches, blocks and groups that the TGU holds. -/
def tguCount (s : State) (b : BayId) : State :=
  let t := (bayOf s b).tgu
  let p := Page.tgu b
  let used := (List.range 8).foldl (fun v k => if (mget none t.blocks k).isSome then v + 2 ^ k else v) 0
  wr (wr (wr s p tguResidentBlocks used) p tguResidentGroups ((List.range 64).countP (fun g => (mget none t.groups g).isSome))) p
    tguResidentLq t.queue.length

/-- R219: the reservations of the threads of a bay are lost: none of them stays resident. -/
def threadResvDrop (s : State) (b : BayId) : State :=
  { s with resv := s.resv.filter (fun r => match r.1 with | .thread b' _ _ => b' != b | _ => true) }

/-- R201, R222: the TGU discards every resident and queued block; its launches count as completed, without SIG. -/
def tguDiscard (s : State) (b : BayId) : State :=
  let t := (bayOf s b).tgu
  let ids := t.queue.map (·.id) ++ t.blocks.filterMap (fun x => x.2.map (fun k => k.launch.id))
  let s := threadResvDrop (opsDrop (modBay s b (fun y => { y with tgu := { y.tgu with queue := [], blocks := [], groups := [] } })) b ids) b
  let s := (List.range 8).foldl (fun s k =>
    wr (wr (wr (wr s (.tgu b) (tguBlkDescValid k) 0) (.tgu b) (tguBlkLive k) 0) (.tgu b) (tguBlkBarpend k) 0) (.tgu b) (tguBlkShapeThreads k) 0) s
  tguCount s b

/-- R254: a mover discards its operations. -/
def movDiscard (s : State) (b : BayId) (m : Fin 4) : State :=
  opsDrop (setMovs s b m []) b ((movList s b m).map (·.id))

/-- R254: a gather engine discards its operations. -/
def gthDiscard (s : State) (b : BayId) (g : Fin 2) : State :=
  opsDrop (setGths s b g []) b ((gthList s b g).map (·.id))

/-- R201 by analogy: the operations of a queue's CALL and REPLAY that have not completed. -/
def frameOps (u : IssQueue) : List Nat :=
  u.frames.map (·.id) ++ u.decoded.filterMap (fun d => if d.issued.headD false then d.opens.map (·.id) else none)

/-- R164: every queue's words and frames are discarded; the CALLs and REPLAYs under way never signal. -/
def issueDiscard (s : State) (b : BayId) : State :=
  let ids := (bayOf s b).queues.flatMap (fun x => frameOps x.2)
  let s := opsDrop (modBay s b (fun y => { y with queues := [] })) b ids
  (List.range 4).foldl (fun s q =>
    wr (wr (wr (wr s (.issue b) (issQQstatState q) 0) (.issue b) (issQQstatDepth q) 0) (.issue b) (issQQstatRec q) 0) (.issue b) (issQQstatPending q) 0) s

/-- R425: the commands fetched by a collective engine that have not begun. -/
def ceDiscard (s : State) (f : Fin 2) : State :=
  (List.finRange 4).foldl (fun s q => if (ceRun s f q).any (!·.begun) then
    wr (setCe s f q none) (.ce f) (ceQQstat q.val) (if s.job.held then 4 else 0) else s) s

/-- R57: the unissued work that a block discards on STOP from FAULT, RESET and SLEEP. -/
def blockDiscard (s : State) (p : Page) : State :=
  match p with
  | .arr b a => arrDiscard s b a.val
  | .vec b => vecDiscard s b
  | .tgu b => tguDiscard s b
  | .mov b m => movDiscard s b m
  | .gth b g => gthDiscard s b g
  | .issue b => issueDiscard s b
  | .doc b => modBay s b (fun y => { y with doc := { y.doc with stall := .none } })
  | .ce f => ceDiscard s f
  | _ => s

/-- R20, R494: the RISC-V reset state, the interrupt file's with it. -/
def hartReset (s : State) (n : CoreId) : State :=
  let h := hartOf s n
  setHart { s with resv := s.resv.filter (·.1 ≠ .hart n) } n { l1i := h.l1i, l1d := h.l1d, l2 := h.l2 }

/-- R425: RESET of a collective engine: running collectives complete with FENCED; the held tokens are discarded. -/
def ceReset (s : State) (f : Fin 2) : State :=
  let s := (List.finRange 4).foldl (fun s q => ceEnd s f q 4) s
  let u := mget ({} : CeUnit) s.ces f.val
  { s with ces := mset {} s.ces f.val { u with tokens := [] } }

/-- R385: every flow of a die is CLOSED with its context words at reset; operations in flight complete with REMOTE_ERR. -/
def flowDieReset (s : State) (f : Fin 2) : State :=
  let mine := (mkeys s.flows).filter (fun i => i / 131072 == f.val)
  let s := mine.foldl (fun s i => ownersFail s i) s
  { s with flows := s.flows.filter (fun x => x.1 / 131072 != f.val), flowDies := mset {} s.flowDies f.val {} }

/-- What RESET does inside a block. -/
def blockReset (s : State) (p : Page) : State :=
  let s := blockDiscard s p
  match p with
  | .core n => hartReset s n
  | .doc b => modBay s b (fun y => { y with doc := { y.doc with x := [] } })
  | .issue b => modBay s b (fun y => { y with queues := [], afifo := [] })
  | .arr b a => arrReset s b a.val
  | .xlate b => modBay s b (fun y => { y with tlb := [], inval := none, invalWait := [] })
  | .fport q => portsUp (setPort s q {}) q false
  | .flow f => flowDieReset s f
  | .ce f => ceReset s f
  | .host => { s with hostPort := { s.hostPort with
      queues := [], dma := s.hostPort.dma.filter (fun d => match d.who with | .hq _ => false | .hqBack _ => false | _ => true) } }
  | _ => s

/-- R12, R20, R187: a page at its reset values. -/
def pageReset (s : State) (p : Page) : State :=
  let s := resetRegs (blockReset s p) p
  match p with
  | .core _ => wr s p corePc (rd s p coreStartPc)
  | .doc _ => wr s p docPc (2 * rd s p docEntry)
  | _ => s

/-- R117: an array in SPARE_PENDING that is to enter STOPPED first runs its self-test. -/
def enterStopped (s : State) (p : Page) : State :=
  match p with
  | .arr b a =>
    if rd s p arrCheckMode = 2 then
      enter (setArr s b a.val { arrOf s b a.val with selfTest := true }) p 5
    else enter s p 2
  | _ => enter s p 2

/-- R54: a page enters STOPPED with reset values and EPOCH + 1. -/
def toReset (s : State) (p : Page) : State := epochInc (enterStopped (pageReset (dropHeld s p) p) p) p

/-- R471: what a block loses when its power goes. -/
def sleepLose (s : State) (p : Page) : State :=
  let s := blockDiscard s p
  match p with
  | .doc b => modBay s b (fun y => { y with doc := {} })
  | .tgu b => opsDrop (modBay s b (fun y => { y with tgu := {} })) b ((bayOf s b).tgu.ended.map (·.2.id))
  | .arr b a => arrLose s b a.val
  | .vec b => vecInvalidate s b
  | .issue b => modBay s b (fun y => { y with queues := [], afifo := [] })
  | .xlate b => modBay s b (fun y => { y with tlb := [], inval := none, invalWait := [] })
  | .core n => setHart (hartReset s n) n {}
  | .fport q => portsUp (setPort s q {}) q false
  | _ => s

end Sys2Proof.Machine
end

