-- ==== Sys2Proof/Machine/Jobs.lean ====
section
/-! DEFINITION. Jobs (R408, R412 to R417): the census, verdicts and the job fence; accession (R418 to R424); and the loss of a neighbour
(R366, R367), which starts both. -/

namespace Sys2Proof.Machine

/-! Datagrams (R408). -/

/-- R408: a datagram of this job and this epoch; any other is dropped and counted. -/
def ctrlFor (s : State) (d : Datagram) : Bool :=
  decide (rd s (.ce 0) ceJobValid = 1 ∧ d.jobId.toNat = rd s (.ce 0) ceJobId ∧ d.jobEpoch.toNat = rd s (.ce 0) ceJobEpoch)

/-- A datagram is dropped. -/
def ctrlDrop (s : State) : State := satAdd s (.ce 0) ceCtrlDrop 1

/-- A datagram acts if it is for this job. -/
def ctrlTake (s : State) (d : Datagram) (go : State → State) : State := if ctrlFor s d then go s else ctrlDrop s

/-! The job fence (R416). -/

/-- R416: the pages that a job fence fences: those with RUNCTL = 1 in every bay region, and both CE pages. -/
def jobPages : List Page :=
  (List.finRange 48).flatMap (fun b =>
    [Page.doc b, .issue b, .vec b, .tgu b, .gth b 0, .gth b 1, .xlate b] ++
    (List.finRange 4).map (.mov b) ++ (List.finRange 8).map (.arr b)) ++ [.ce 0, .ce 1]

/-- The census, if one runs, is over. -/
def censusEnd (s : State) : State :=
  { wr s (.ce 0) ceJobCensus 0 with job := { s.job with running := false, pledged := none, coordinating := false, answers := [], waits := 0 } }

/-- R416: every port sends FENCE, or withdraws it. -/
def portsHb (s : State) : State := (List.finRange 32).foldl portHb s

/-- R416: the job fence. -/
def jobFence (s : State) : State :=
  let s := censusEnd (ceEndAll s 4)
  let s := wr s (.ce 0) ceJobFenced 1
  let s := jobPages.foldl fence s
  let s := (mkeys s.flows).foldl (fun s i => flowError s i 7) s
  portsHb (setEvt (raiseEach s (.ce 0) { bit := 20 }) (.ce 0) 19)

/-- R417: the fence is left: its pages enter STOPPED with reset values and EPOCH + 1, and the ports stop sending FENCE. -/
def leaveFence (s : State) : State :=
  if rd s (.ce 0) ceJobFenced = 0 then s
  else
    let s := wr s (.ce 0) ceJobFenced 0
    portsHb (jobPages.foldl (fun s p => if pgState s p = 7 then toReset s p else s) s)

/-! Verdicts (R415, R417). -/

/-- A bitmap of members. -/
def bitmapOf (l : List Nat) : List Byte :=
  (List.range 2048).map (fun i => BitVec.ofNat 8 ((List.range 8).foldl (fun v k => if l.contains (8 * i + k) then v + 2 ^ k else v) 0))

/-- R415: the verdict is applied. -/
def applyVerdict (s : State) (epoch lead : Nat) (bitmap : List Byte) : State :=
  let s := leaveFence s
  let s := cohPut s (rd s (.ce 0) ceMembBase * 2048) 29 (slice bitmap 0 2048) false
  let s := wr (wr (wr s (.ce 0) ceLead lead) (.ce 0) ceJobEpoch epoch) (.ce 0) ceJobAwait 0
  let s := wr s (.ce 0) ceJobLead (b2n (lead == myRank s && rankValid s))
  censusEnd (setEvt s (.ce 0) 18)

/-- R415, R417: the lead of the new epoch sends VERDICT to every other member of S, in 16 parts, and applies it. -/
def issueVerdict (s : State) (l : List Nat) : State :=
  let epoch := (rd s (.ce 0) ceJobEpoch + 1) % 65536
  let bm := bitmapOf l
  let s := { s with job := { s.job with resend := [] } }
  let s := (l.filter (· != myRank s)).foldl (fun s r => (List.range 16).foldl (fun s k =>
    ctrlAsk s r 0x13 (toLE 2 epoch ++ toLE 2 (myRank s) ++ toLE 1 k ++ slice bm (128 * k) 128)) s) s
  applyVerdict s epoch (myRank s) bm

/-- R412: the quorum in force. -/
def quorum (s : State) : Nat :=
  let q := rd s (.ce 0) ceQuorum
  if q = 0 then (members s).length / 2 + 1 else q

/-- R415: the coordinator decides: a verdict with quorum, else a fence for itself and S. -/
def decideCensus (s : State) : State :=
  let set := s.job.answers ++ [myRank s]
  if quorum s ≤ set.length then issueVerdict s set
  else
    let s := { s with job := { s.job with resend := [] } }
    let s := s.job.answers.foldl (fun s r => ctrlAsk s r 0x15 []) s
    jobFence s

/-! Commands of the census. -/

/-- CENSUS (R413, R414): a member asks a coordinator for a census; a coordinator calls it. -/
def execCensus (d : Datagram) (s : State) : Out :=
  .next (ctrlTake s d (fun s =>
    let s := censusStart s
    if s.job.coordinating then ctrlAsk s d.src.toNat 0x11 (toLE 2 (myRank s)) else s))

/-- CALL_DATAGRAM (R413, R414): a member pledges to the first CALL it receives and answers it, also when its coordinator repeats it. -/
def execCallDatagram (d : Datagram) (s : State) : Out :=
  .next (ctrlTake s d (fun s =>
    let s := censusStart s
    let r := fieldAt d.payload 0 2
    if s.job.running ∧ (s.job.pledged = none ∨ s.job.pledged = some r) then
      let s := if s.job.pledged = none then
          ctrlGot { s with job := { s.job with pledged := some r, waits := 0 } } (fun _ t => t == 0x10) else s
      ctrlSend s r 0x12 []
    else s))

/-- ANSWER (R414): a coordinator collects it. -/
def execAnswer (d : Datagram) (s : State) : Out :=
  .next (ctrlTake s d (fun s =>
    let r := d.src.toNat
    if s.job.coordinating then
      ctrlGot { s with job := { s.job with answers := if s.job.answers.contains r then s.job.answers else s.job.answers ++ [r] } }
        (fun x t => x == r && t == 0x11)
    else s))

/-- R417: the VERDICT forms that a module outside the epoch accepts: a fenced one, or one that waits to be admitted. -/
def verdictOpen (s : State) (d : Datagram) : Bool :=
  d.jobId.toNat == rd s (.ce 0) ceJobId && (rd s (.ce 0) ceJobFenced == 1 || rd s (.ce 0) ceJobAwait == 1)

/-- VERDICT (R408, R415, R417): once all 16 parts have arrived it is applied and acknowledged. -/
def execVerdict (d : Datagram) (s : State) : Out :=
  let out := verdictOpen s d
  if !out ∧ !ctrlFor s d then .next (ctrlDrop s)
  else
    let epoch := fieldAt d.payload 0 2
    let lead := fieldAt d.payload 2 2
    let part := fieldAt d.payload 4 1 % 16
    let j := if s.job.verdictEpoch = epoch ∧ s.job.verdictLead = lead then s.job
      else { s.job with verdictEpoch := epoch, verdictLead := lead, parts := [] }
    let j := { j with parts := minsert j.parts part (slice d.payload 5 128) }
    let s := { s with job := j }
    if j.parts.length < 16 then .next s
    else
      let bm := j.parts.flatMap (·.2)
      let me := myRank s
      let named := bitOf (bm.getD (me / 8) 0).toNat (me % 8)
      let s := { s with job := { s.job with parts := [] } }
      if out ∧ !named then .next s
      else
        let s := { s with job := { s.job with resend := [] } }
        .next (ctrlSend (applyVerdict s epoch lead bm) d.src.toNat 0x14 (toLE 2 epoch))

/-- VERDICT_ACK (R408): the verdict is no longer sent to that member. -/
def execVerdictAck (d : Datagram) (s : State) : Out :=
  .next (ctrlTake s d (fun s => ctrlGot s (fun r t => r == d.src.toNat && t == 0x13)))

/-- FENCE_JOB (R415): the member fences. -/
def execFenceJob (d : Datagram) (s : State) : Out :=
  .next (ctrlTake s d (fun s => if rd s (.ce 0) ceJobFenced = 1 then s else jobFence s))

/-- CENSUS_WAIT_EXPIRY (R414, R415): a coordinator decides; a pledged member fences after the second wait; any other goes on to the next
coordinator, or fences when the list is exhausted. -/
def execCensusWaitExpiry (s : State) : Out :=
  if !s.job.running then .next (ctrlGot s (fun _ t => t == 0x15))
  else if s.job.coordinating then .next (decideCensus s)
  else if s.job.pledged.isSome then
    if 1 ≤ s.job.waits then .next (jobFence { s with job := { s.job with resend := [] } })
    else .next { s with job := { s.job with waits := s.job.waits + 1 } }
  else if (coordinators s).length ≤ s.job.place + 1 then .next (jobFence { s with job := { s.job with resend := [] } })
  else .next (censusPlace s (s.job.place + 1))

/-- CTRL_RESEND (R408): every datagram that expects an answer is sent again. -/
def execCtrlResend (s : State) : Out :=
  .next (s.job.resend.foldl (fun s x => ctrlSend s x.1 x.2.1 x.2.2) s)

/-- CMD_CENSUS (R413): system software starts a census. -/
def execCmdCensus (f : Fin 2) (s : State) : Out :=
  if pgState s (.ce f) = 0 then .next s else .next (censusStart s)

/-- ADMIT (R417): the lead admits a rank by a verdict. -/
def execAdmitMembers (f : Fin 2) (rank : BitVec 16) (s : State) : Out :=
  if pgState s (.ce f) = 0 ∨ rd s (.ce 0) ceJobValid = 0 ∨ !rankValid s ∨ rd s (.ce 0) ceLead ≠ myRank s ∨ s.job.running ∨
      rd s (.ce 0) ceJobFenced = 1 then .next s
  else
    let l := members s
    .next (issueVerdict s (if l.contains rank.toNat then l else l ++ [rank.toNat]))

/-- LEAVE (R417): a fenced module leaves the job and the fence. -/
def execLeave (f : Fin 2) (s : State) : Out :=
  if pgState s (.ce f) = 0 ∨ rd s (.ce 0) ceJobFenced = 0 then .next s
  else .next (leaveFence (wr s (.ce 0) ceJobValid 0))

/-- RESUME (R413): after a verdict the queues start collectives again. -/
def execResume (f : Fin 2) (s : State) : Out :=
  if pgState s (.ce f) = 0 ∨ s.job.running then .next s
  else .next (ceHold { s with job := { s.job with held := false } } 0)

/-! Commands of accession. -/

/-- R419, R424: the children of a plan, changed by the ACC_CHILD entries of the snapshot. -/
def planChildren (s : State) (plan : List Byte) (n : Nat) : List Child :=
  let recs := (List.range n).map (fun i => planRec plan (16 + 8 * i))
  let kids := (recs.foldl (fun (x : Nat × List Child) r =>
    let grand := (List.range r.2.2.2).map (fun j => let g := planRec plan (x.1 + 8 * j); (g.1, g.2.1, g.2.2.1))
    (x.1 + 8 * r.2.2.2, x.2 ++ [{ rank := r.1, port := r.2.1, flow := r.2.2.1, grand := grand }])) (16 + 8 * n, [])).2
  let all := kids.flatMap (fun c => (c.rank, c.port, c.flow) :: c.grand)
  (snapKind s 0xD).foldl (fun (l : List Child) e =>
    let r := e.arg % 65536
    if bitOf e.arg 16 then
      let g := (all.find? (fun x => x.1 == r)).getD (r, 255, 0x3FFFF)
      if l.any (fun c => c.rank == r) then l else l ++ [{ rank := g.1, port := g.2.1, flow := g.2.2 }]
    else l.filter (fun c => c.rank != r)) kids

/-- ACC_START (R418, R419): accession starts by the plan, or by what the start ledger puts in its place. The lead's own chunks are verified
as they stand. -/
def execAccStart (f : Fin 2) (s : State) : Out :=
  if pgState s (.ce f) = 0 ∨ rd s (.ce 0) ceJobValid = 0 ∨ !rankValid s ∨ (1 ≤ rd s (.ce 0) ceAccStatState ∧ rd s (.ce 0) ceAccStatState ≤ 3) then .next s
  else
    let plan := accBytes s (rd s (.ce 0) ceAccPlan) 4096
    let n := min (fieldAt plan 3 1 % 32) 16
    let own := (snapKind s 0xC).getLast?
    let parent := (own.map (fun e => e.arg % 65536)).getD (fieldAt plan 4 2)
    let port := if own.isSome then 255 else fieldAt plan 6 1
    let lead := rd s (.ce 0) ceLead == myRank s
    let kids := planChildren s plan n
    let store := rd s (.ce 0) ceAccCfg = 1 ∨ (own.isSome ∧ parent = 0xFFFF)
    if !store ∧ kids.any (fun c => flwSt (flw s c.flow) != 1) then .next s
    else
      let s := setAcc s (fun _ => {
        running := true, mode := if store then 1 else rd s (.ce 0) ceAccCfg, fanout := fieldAt plan 2 1,
        parent := if lead then 0xFFFF else parent, parentPort := if lead then 255 else port, table := fieldAt plan 8 8, children := kids })
      let s := wr { s with mg := { s.mg with startStep := 9, stepEntries := 0 } } .sec secStartStep 9
      let s := wr s (.ce 0) ceAccStatParent (if lead then 0xFFFF else parent)
      let s := (port :: kids.map (·.port)).foldl (fun s p => match finOf 32 p with
        | some p => if lstate s p = 3 then wr s (.fport p) fpSbTxPhase 1 else s
        | none => s) s
      if store then .next (accState s 2 0)
      else
        let s := accState s 1 0
        if lead ∧ chunkOk s 0 then
          .next ((List.range ((manifest s).1 + 1)).foldl (fun s k => if chunkOk s k then accVerified s k else s) s)
        else .next s

/-- R421: READY(k) from the parent: the chunk is checked. -/
def accReady (s : State) (k : Nat) : State :=
  let a := s.acc
  let s := ctrlGot s (fun _ t => t == 0x24)
  if chunkOk s k then accVerified (accToken s a.parent a.parentPort 0x21 k false) k
  else if a.failedOnce.contains k then orphaned (accToken s a.parent a.parentPort 0x22 k false)
  else accToken (setAcc s (fun a => { a with failedOnce := a.failedOnce ++ [k] })) a.parent a.parentPort 0x22 k false

/-- R421: ACK(k) from a child. -/
def accAcked (s : State) (r k : Nat) : State :=
  let s := ctrlGot s (fun x t => x == r && t == 0x20)
  childPump r 2048 (modChild s r (fun c => if c.acked ≤ k ∧ k < c.sent then { c with acked := k + 1 } else c))

/-- R421: ABORT(k) from a child: the chunk is sent once more. -/
def accRedo (s : State) (r k : Nat) : State :=
  let s := ctrlGot s (fun x t => x == r && t == 0x20)
  childPump r 2048 (modChild s r (fun c => if k < c.sent ∧ !c.redo.contains k then { c with redo := c.redo ++ [k] } else c))

/-- Tokens act while accession runs and the image is not complete at its parent's word. -/
def accLive (s : State) : Bool := s.acc.running

/-- ACC_READY (R421). -/
def execAccReady (d : Datagram) (s : State) : Out :=
  .next (ctrlTake s d (fun s => if accLive s && d.src.toNat == s.acc.parent then accReady s (fieldAt d.payload 0 2) else s))

/-- ACC_ACK (R421). -/
def execAccAck (d : Datagram) (s : State) : Out :=
  .next (ctrlTake s d (fun s => if accLive s && (childOf s d.src.toNat).isSome then accAcked s d.src.toNat (fieldAt d.payload 0 2) else s))

/-- ACC_ABORT (R421): from the parent, this module becomes an orphan; from a child, the chunk is sent once more. -/
def execAccAbort (d : Datagram) (s : State) : Out :=
  .next (ctrlTake s d (fun s =>
    let r := d.src.toNat
    if !accLive s then s
    else if r = s.acc.parent then orphaned s
    else if (childOf s r).isSome then accRedo s r (fieldAt d.payload 0 2) else s))

/-- A new parent: ADOPT_ACK with H, and the ledger entry of R424. -/
def newParent (s : State) (r : Nat) : State :=
  let s := setAcc s (fun a => { a with parent := r, parentPort := 255, waitsLead := false })
  let s := ctrlGot (wr s (.ce 0) ceAccStatParent r) (fun _ t => t == 0x25)
  ledgerNote (ctrlSend s r 0x24 (toLE 2 (accHigh s.acc.verified s.acc.total))) 0xC (myRank s) r

/-- ADOPT (R422): a grandparent becomes the parent. -/
def execAdopt (d : Datagram) (s : State) : Out :=
  .next (ctrlTake s d (fun s => if accLive s then newParent s (fieldAt d.payload 0 2) else s))

/-- ADOPT_ACK (R422, R423): the new parent sends from chunk H + 1. -/
def execAdoptAck (d : Datagram) (s : State) : Out :=
  .next (ctrlTake s d (fun s =>
    let r := d.src.toNat
    let h := (fieldAt d.payload 0 2 + 1) % 65536
    let s := ctrlGot s (fun x t => x == r && (t == 0x23 || t == 0x26))
    childPump r 2048 (modChild s r (fun c => if c.awaits then { c with awaits := false, acked := h, sent := h } else c))))

/-- ORPHAN (R423): the lead takes the ranks named and serves its orphans. -/
def execOrphan (d : Datagram) (s : State) : Out :=
  .next (ctrlTake s d (fun s =>
    if accLive s && rd s (.ce 0) ceLead == myRank s then
      let l := (List.range (min 124 (d.payload.length / 2))).map (fun i => fieldAt d.payload (2 * i) 2)
      serveOrphans (setAcc s (fun a => { a with orphans := l.foldl (fun o r => insertRank r o) a.orphans }))
    else s))

/-- REPARENT (R423): the lead serves this orphan. -/
def execReparent (d : Datagram) (s : State) : Out :=
  .next (ctrlTake s d (fun s => if accLive s then newParent s d.src.toNat else s))

/-- STORE (R422, R423): this orphan loads from storage. -/
def execStoreMsg (d : Datagram) (s : State) : Out :=
  .next (ctrlTake s d (fun s => if accLive s then waitHost s else s))

/-- DONE (R421): a child has its image. -/
def execDoneMsg (d : Datagram) (s : State) : Out :=
  .next (ctrlTake s d (fun s =>
    let s := modChild s d.src.toNat (fun c => { c with done := true })
    accDone (if s.acc.orphans.contains d.src.toNat then serveOrphans s else s)))

/-- ACC_TIMEOUT (R422): a child that has given no ACK for ACC_TIMEOUT has failed. -/
def execAccTimeout (child : BitVec 16) (s : State) : Out :=
  match childOf s child.toNat with
  | none => .next s
  | some c => if accLive s ∧ !c.done ∧ (c.acked < c.sent ∨ c.outst ≠ 0 ∨ c.awaits) then .next (childFailed s child.toNat) else .next s

/-- R423: accession ends without a source. -/
def noSource (s : State) : State :=
  let s := stepFail (ledgerStorage s) 9
  raise (accState (setAcc s (fun a => { a with running := false, waitsLead := false })) 5 1) (.ce 0) { bit := 21 }

/-- ORPHAN_TIMEOUT (R423): the parent has been silent for 2 × ACC_TIMEOUT, or the lead for 4. -/
def execOrphanTimeout (s : State) : Out :=
  if !s.acc.running ∨ rd s (.ce 0) ceAccStatState ≠ 1 then .next s
  else if s.acc.waitsLead then .next (noSource s)
  else if s.acc.parent = 0xFFFF then .next s
  else .next (orphaned s)

/-- ACC_LOADED (R423): the host has written the image: every chunk not yet verified is checked. -/
def execAccLoaded (f : Fin 2) (s : State) : Out :=
  if pgState s (.ce f) = 0 ∨ !s.acc.running ∨ rd s (.ce 0) ceAccStatState ≠ 2 then .next s
  else if !chunkOk s 0 then .next (wr s (.ce 0) ceAccStatResult 2)
  else
    let total := (manifest s).1 + 1
    let s := (List.range total).foldl (fun s k => if !s.acc.verified.contains k && chunkOk s k then accVerified s k else s) s
    .next (if (List.range total).all (fun k => s.acc.verified.contains k) then s else wr s (.ce 0) ceAccStatResult 2)

/-! Neighbours. -/

/-- R413: the lost place belongs to a member. -/
def memberAt (s : State) (place : Nat) : Bool :=
  s.catalogue.any (fun x => bitOf x.2.toNat 63 && x.2.toNat % 65536 == place && isMember s x.1)

/-- R367, R413, R422, R423: a port loses its neighbour. -/
def portLost (s : State) (p : Fin 32) : State :=
  let pg := Page.fport p
  if rd s pg fpNbrIdValid = 0 then s
  else
    let place := rd s pg fpNbrIdPlace
    let s := portDown s p
    let s := setEvt (raise s pg { bit := 17, addr := some place }) pg 17
    let s := portIdentity (wr s pg fpNbrIdValid 0) p false
    let s := (s.acc.children.filter (fun c => c.port == p.val && !c.done)).foldl (fun s c => if s.acc.running then childFailed s c.rank else s) s
    let s := if s.acc.running ∧ s.acc.waitsLead ∧ rankPlace s (rd s (.ce 0) ceLead) = some place then noSource s else s
    if memberAt s place then censusStart s else s

/-- NEIGHBOUR_LOST (R367). -/
def execNeighbourLost (p : Fin 32) (s : State) : Out := if portOn s p then .next (portLost s p) else .next s

/-- HOLD_TIMEOUT (R366): after 10 ms of continuous HOLD the port is treated as down. -/
def execHoldTimeout (p : Fin 32) (s : State) : Out :=
  if portOn s p ∧ rd s (.fport p) fpSbNbrHb = 1 ∧ lstate s p = 3 then .next (portLost s p) else .next s

/-- R421: a chunk number from its low 8 bits: at most 4 are outstanding. -/
def chunkNear (base k : Nat) : Nat := base + (k + 256 - base % 256) % 256

/-- SIDEBAND_TOKEN (R365, R421): a token of the accession phase from the neighbour on a port. -/
def execSidebandToken (p : Fin 32) (kind : Byte) (chunk : Byte) (s : State) : Out :=
  let v := s
  let s := wr s (.fport p) fpSbRxForm 1
  if held s then .next v
  else if !accLive s ∨ rd s (.fport p) fpSbTxPhase ≠ 1 then .next s
  else
    let k := chunk.toNat
    if s.acc.parentPort = p.val then
      let next := (List.range (s.acc.verified.length + 1)).find? (fun i => !s.acc.verified.contains i)
      if kind = 0x52 then .next (accReady s (chunkNear ((next.getD 0) - 4) k))
      else if kind = 0x58 then .next (orphaned s) else .next s
    else match s.acc.children.find? (fun c => c.port == p.val) with
      | none => .next s
      | some c =>
        if kind = 0x41 then .next (accAcked s c.rank (chunkNear c.acked k))
        else if kind = 0x58 then .next (accRedo s c.rank (chunkNear (c.acked - 4) k)) else .next s

end Sys2Proof.Machine
end

