-- ==== Sys2Proof/Machine/Links.lean ====
section
/-! DEFINITION. Die links (R332 to R352): flits and their replay, training and negotiation, wire checks, spares and narrowing, the loss of a
forwarded clock. -/

namespace Sys2Proof.Machine

/-- Link `l`. -/
def linkOf (s : State) (l : Fin 31) : Link := mget {} s.links l.val
/-- The state with it replaced. -/
def setLink (s : State) (l : Fin 31) (v : Link) : State := { s with links := mset {} s.links l.val v }
/-- One direction: `true` is B to A. -/
def linkDir (s : State) (l : Fin 31) (d : Bool) : LinkDir := if d then (linkOf s l).ba else (linkOf s l).ab
/-- The state with it replaced. -/
def setDir (s : State) (l : Fin 31) (d : Bool) (v : LinkDir) : State :=
  setLink s l (if d then { linkOf s l with ba := v } else { linkOf s l with ab := v })

/-- R332: data wires of each direction. -/
def linkWires (l : Fin 31) : Nat := if linkMgmt l.val then 512 else 4096
/-- R332: spare wires of each direction. -/
def linkSpares (l : Fin 31) : Nat := if linkMgmt l.val then 8 else 64
/-- R351: the wires of a WIDTH code. -/
def widthWires (code : Nat) : Nat := if code = 0 then 0 else 2 ^ (8 + code)

/-- R345, R350: a link carries traffic while its page is RUNNING or FENCED, unless it is lost. -/
def linkUp (s : State) (l : Fin 31) : Bool :=
  let st := pgState s (.dlink l)
  (st == 4 || st == 7) && rd s (.dlink l) dlNegWidth != 0

/-- Wires of a direction in [lo, hi) that are not excluded. -/
def wiresIn (v : LinkDir) (lo hi : Nat) : Nat := (hi - lo) - (v.excluded.filter (fun w => decide (lo ≤ w ∧ w < hi))).length

/-- R351: SPARE_AB and SPARE_BA: spares in use for data positions, and those still free. -/
def spareCount (s : State) (l : Fin 31) (d : Bool) : State :=
  let v := linkDir s l d
  let w := linkWires l
  let used := widthWires (rd s (.dlink l) dlNegWidth) - wiresIn v 0 w
  let free := wiresIn v w (w + linkSpares l)
  wr (wr s (.dlink l) (dlSpareUsed (b2n d)) used) (.dlink l) (dlSpareLeft (b2n d)) (free - used)

/-! Flits. -/

/-- The depth of a direction's replay buffer: RETRY of the transmitting end, at least 64 (R341). -/
def retryDepth (s : State) (l : Fin 31) (d : Bool) : Nat := max 64 (bits (rd s (.dlink l) (dlCap (b2n d) 1)) 15 8)

/-- R333: the header of a flit. -/
def flitHeader (f : Flit) : Nat :=
  b2n f.nak * 2 ^ 30 + f.ack.toNat * 2 ^ 18 + f.seq.toNat * 2 ^ 6 + b2n f.lane * 2 ^ 5 + f.channel.toNat * 2 ^ 3 + f.kind.toNat

/-- R333: the 1,024 bytes of a flit: header, CRC-32C over header and payload, payload. -/
def flitBytes (f : Flit) : List Byte :=
  let h := toLE 4 (flitHeader f)
  let d := slice f.payload 0 1016
  h ++ toLE 4 (crc32c (h ++ d)).toNat ++ d

/-- R344: a wire test or a repair holds the traffic of both directions. -/
def linkPaused (s : State) (l : Fin 31) : Bool :=
  let x := linkOf s l
  x.ab.testing || x.ba.testing || !x.ab.faulty.isEmpty || !x.ba.faulty.isEmpty

/-- R335, R342: the link carries the flit's kind: a negotiated protocol, or idle, check and repair flits; kind 7 is reserved. -/
def linkCarries (s : State) (l : Fin 31) (f : Flit) : Bool :=
  if 1 ≤ f.kind ∧ f.kind ≤ 4 then bitOf (rd s (.dlink l) dlNegProto) (f.kind.toNat - 1) else f.kind != 7

/-- R344: four CRC mismatches within 2,000,000 beats start a wire test. -/
def crcMiss (v : LinkDir) (now : Nat) : LinkDir :=
  let t := v.crcTimes.filter (fun x => decide (now < x + 100000)) ++ [now]
  if 4 ≤ t.length then { v with crcTimes := [], testing := true } else { v with crcTimes := t }

/-- R333: what the header of an intact flit does to the transmitter of the other direction. -/
def flitAck (v : LinkDir) (f : Flit) : LinkDir :=
  { v with buffer := v.buffer.filter (fun x => decide (2048 ≤ (f.ack - x.seq).toNat)), nak := v.nak || f.nak }

/-- R343: the receiver's part. -/
def flitTake (s : State) (l : Fin 31) (dir : Bool) (f : Flit) (crcOk : Bool) : State :=
  let v := linkDir s l dir
  if !crcOk then
    satAdd (setDir s l dir (crcMiss { v with discarding := true, nak := true } (rd s .hub hubTimer))) (.dlink l) dlCrcErr 1
  else
    let s := setDir s l (!dir) (flitAck (linkDir s l (!dir)) f)
    let v := linkDir s l dir
    if f.kind = 0 ∨ f.seq ≠ v.rxSeq then s
    else
      let s := setDir s l dir { v with rxSeq := v.rxSeq + 1, discarding := false }
      if f.kind = 1 ∨ f.kind = 2 ∨ f.kind = 3 ∨ f.kind = 4 then { txArrive s l dir f.seq with resp := f.payload } else s

/-- FLIT_RECEIVE (R333, R335, R336, R343): a flit crosses the link. A new one is of a kind that the link carries and the one that the transmitter chooses; it
takes the messages that wait of its kind, channel and lane, and enters the replay buffer. The receiver discards a flit with a CRC mismatch and everything after
it until the replay, and sends NAK. -/
def execFlitReceive (l : Fin 31) (dir : Bool) (f : Flit) (crcOk : Bool) (s : State) : Out :=
  let v := linkDir s l dir
  let new := f.kind ≠ 0 ∧ f.seq = v.txSeq
  let msgs := 1 ≤ f.kind ∧ f.kind ≤ 4
  if !linkUp s l ∨ !linkCarries s l f ∨ (linkPaused s l ∧ crcOk) ∨ (new ∧ retryDepth s l dir ≤ v.buffer.length) ∨
      (new ∧ msgs ∧ !flitChosen (rd s .hub hubTimer) (txOf s l dir) f) then .next s
  else
    let s := if new then setDir s l dir { v with txSeq := v.txSeq + 1, buffer := v.buffer ++ [f] } else s
    let s := if new ∧ msgs then setTx s l dir (txSend (txOf s l dir) f) else s
    .next (flitTake s l dir f crcOk)

/-- FLIT_REPLAY (R343, R344): after a NAK the transmitter sends its buffer again, from ACK + 1, and after a wire test or a repair that runs; what it sends is in
`resp`, with the receiver's ACK and NAK of the moment. -/
def execFlitReplay (l : Fin 31) (dir : Bool) (s : State) : Out :=
  let v := linkDir s l dir
  if !linkUp s l ∨ !v.nak ∨ linkPaused s l then .next s
  else
    let r := linkDir s l (!dir)
    .next { setDir s l dir { v with nak := false } with
      resp := v.buffer.flatMap (fun f => flitBytes { f with ack := r.rxSeq - 1, nak := r.discarding }) }

/-! Failure. -/

/-- R345, R346, R352: the link is lost: LINK_LOST, FAULT, and for a full-width link a ledger entry. -/
def linkLost (s : State) (l : Fin 31) : State :=
  let p := Page.dlink l
  let s := setEvt (raise s p { bit := 18, sev := some 2, stop := true }) p 18
  let s := enter (wr s p dlNegWidth 0) p 6
  if linkMgmt l.val then s else ledgerNote s 4 l.val 0

/-! Training. -/

/-- R346: the wires that the snapshot's WIRE entries exclude. -/
def snapWires (s : State) (l : Fin 31) (d : Bool) : List Nat :=
  (snapKind s 2).filterMap (fun e =>
    if e.unit % 32 = l.val ∧ bitOf e.unit 8 = d then some (bits e.unit 24 12) else none)

/-- R346: the width that the snapshot records for a link. -/
def snapWidth (s : State) (l : Fin 31) : Option Nat :=
  ((snapKind s 3).find? (fun e => e.unit == l.val)).map (fun e => e.arg % 8)

/-- R341: TYPE and INDEX of a die code. -/
def dieTypeIndex (d : Nat) : Nat × Nat :=
  if d < 12 then (1, d) else if d < 16 then (2, d - 12) else if d < 18 then (3, d - 16) else if d = 18 then (4, 0) else (5, 0)

/-- R335, R341: the record that the Tyari 9 die `d` sends on link `l`: it offers exactly the protocols of the link. -/
def tyariCap (l : Fin 31) (d : Nat) : Nat :=
  let m := linkMgmt l.val
  let ti := dieTypeIndex d
  let body := 2 + 0x0D9B * 2 ^ 16 + ti.1 * 2 ^ 32 + ti.2 * 2 ^ 40 + (if m then 1 else 0xE) * 2 ^ 48 + 3 * 2 ^ 52 +
    (if m then 8 else if linkRing l.val then 0xF else 0xE) * 2 ^ 56 + (if m then 8 else 64) * 2 ^ 64 + 64 * 2 ^ 72
  body + (crc32c (toLE 12 body)).toNat * 2 ^ 96

/-- R341: the far end is a die of another make. -/
def capForeign (c : Nat) : Bool := decide (0x80 ≤ bits c 39 32) && decide (bits c 39 32 ≤ 0xFE)

/-- R341: a capability record's CRC holds. -/
def capOk (c : Nat) : Bool := (crc32c (toLE 12 c)).toNat == bits c 127 96

/-- R341: the ends are the dies that R14 places there; an end that is, or faces, a die of another make is not compared. -/
def capIdent (l : Fin 31) (a b : Nat) : Bool :=
  let fits := fun (c die : Nat) => (bits c 39 32, bits c 47 40) == dieTypeIndex die
  capForeign a || capForeign b || (fits a (linkEnds l.val).1 && fits b (linkEnds l.val).2)

/-- Bits common to two numbers, of the lowest `n`. -/
def andBits (n a b : Nat) : Nat := (List.range n).foldl (fun v i => if bitOf a i && bitOf b i then v + 2 ^ i else v) 0

/-- R342: the largest WIDTH code that both ends offer and both directions can wire, at most `top`. -/
def widthChoice (offered avail top : Nat) : Nat :=
  (([4, 3, 2, 1] : List Nat).find? (fun c => decide (c ≤ top) && bitOf offered (c - 1) && decide (widthWires c ≤ avail))).getD 0

/-- A duplicate-free union. -/
def unionNat (a b : List Nat) : List Nat := b.foldl (fun l x => if l.contains x then l else l ++ [x]) a

/-- The number of working wires of a direction, spares among them. -/
def workWires (l : Fin 31) (v : LinkDir) : Nat := wiresIn v 0 (linkWires l + linkSpares l)

/-- A wire that training found failing is recorded (R346). -/
def noteWires (s : State) (l : Fin 31) (d : Bool) (bad : List Nat) : State :=
  let old := snapWires s l d
  (bad.filter (fun w => !old.contains w)).foldl (fun s w => ledgerNote s 2 (l.val + 256 * b2n d + 4096 * w) 0) s

/-- A phase overruns its bound (R340): training restarts once, a second overrun fails the link. -/
def trainOverrun (s : State) (l : Fin 31) : State :=
  let v := linkOf s l
  if v.retried then linkLost (setLink s l { v with retried := false }) l else setLink s l { v with retried := true }

/-- R349, R496: a link may train once its link reset is released: link 23 from step 2, which has taken the snapshot, the others from step 3. -/
def linkReleased (s : State) (l : Fin 31) : Bool :=
  s.mg.startDone || decide ((if l.val = 23 then 2 else 3) ≤ s.mg.startStep)

/-- LINK_TRAIN (R340 to R342, R346): a link trains: the ends exchange capability records, failed wires are mapped to spares, and the rate,
the protocols and the width follow. -/
def execLinkTrain (l : Fin 31) (r : TrainResult) (s : State) : Out :=
  let p := Page.dlink l
  if pgState s p ≠ 2 ∨ !linkReleased s l then .next s
  else
    let a := r.capA.elim (tyariCap l (linkEnds l.val).1) (·.toNat)
    let b := r.capB.elim (tyariCap l (linkEnds l.val).2) (·.toNat)
    if !(r.capA.all (fun c => capOk c.toNat)) ∨ !(r.capB.all (fun c => capOk c.toNat)) then .next (trainOverrun s l)
    else
      let w := linkWires l + linkSpares l
      let badAB := r.badAB.filter (fun x => decide (x < w))
      let badBA := r.badBA.filter (fun x => decide (x < w))
      let ab : LinkDir := { excluded := unionNat (unionNat [] (snapWires s l false)) badAB }
      let ba : LinkDir := { excluded := unionNat (unionNat [] (snapWires s l true)) badBA }
      let s := setLink (wrapAdd s p dlTrains 1) l { ab := ab, ba := ba }
      let s := wr (wr s p (dlCap 0 0) (a % 2 ^ 64)) p (dlCap 0 1) (a / 2 ^ 64)
      let s := wr (wr s p (dlCap 1 0) (b % 2 ^ 64)) p (dlCap 1 1) (b / 2 ^ 64)
      let major := min (a % 256) (b % 256)
      let minor := if a % 256 < b % 256 then bits a 15 8 else if b % 256 < a % 256 then bits b 15 8 else min (bits a 15 8) (bits b 15 8)
      let rates := if major = 1 then 1 else andBits 2 (bits a 55 52) (bits b 55 52)
      let proto := andBits 4 (bits a 59 56) (bits b 59 56)
      let proto := if major = 1 then andBits 4 proto 0xC else proto
      let top := (snapWidth s l).getD 4
      let width := widthChoice (andBits 4 (bits a 51 48) (bits b 51 48)) (min (workWires l ab) (workWires l ba)) top
      let least := if linkMgmt l.val then 1 else 2
      if major = 0 ∨ rates = 0 ∨ !bitOf proto 3 ∨ (linkRing l.val ∧ !bitOf proto 0) ∨ width < least ∨
          !capIdent l a b then .next (linkLost s l)
      else
        let s := noteWires (noteWires s l false badAB) l true badBA
        let s := if !linkMgmt l.val ∧ width < min top 4 then ledgerNote s 3 l.val width else s
        let s := wr (wr (wr s p dlNegWidth width) p dlNegRate (if bitOf rates 1 then 2 else 1)) p dlNegProto proto
        let s := wr (wr s p dlNegMajor major) p dlNegMinor minor
        .next (enter (spareCount (spareCount s l false) l true) p 4)

/-- TRAIN_PHASE_TIMEOUT (R340): a training phase exceeds its bound. -/
def execTrainPhaseTimeout (l : Fin 31) (s : State) : Out :=
  if pgState s (.dlink l) ≠ 2 ∨ !linkReleased s l then .next s else .next (trainOverrun s l)

/-! Wires. -/

/-- Wires found failing in a direction that are in use. -/
def addFaulty (l : Fin 31) (v : LinkDir) (bad : List Nat) : LinkDir :=
  { v with faulty := unionNat v.faulty (bad.filter (fun w =>
      decide (w < linkWires l + linkSpares l) && !v.excluded.contains w)) }

/-- CHECK_FLIT (R344): a checked flit is compared wire by wire; a wire that mismatches in two of them within 2,000,000 beats is to be
spared. -/
def execCheckFlit (l : Fin 31) (dir : Bool) (bad : List Nat) (s : State) : Out :=
  if !linkUp s l then .next s
  else
    let now := rd s .hub hubTimer
    .next (setDir s l dir (bad.eraseDups.foldl (fun (v : LinkDir) w =>
      let t := (mget [] v.suspects w).filter (fun x => decide (now < x + 100000)) ++ [now]
      if 2 ≤ t.length then addFaulty l { v with suspects := mset [] v.suspects w [] } [w]
      else { v with suspects := mset [] v.suspects w t }) (linkDir s l dir)))

/-- WIRE_TEST (R344): the wire test that repeated CRC mismatches started finds the failing wires. -/
def execWireTest (l : Fin 31) (dir : Bool) (bad : List Nat) (s : State) : Out :=
  let v := linkDir s l dir
  if !linkUp s l ∨ !v.testing then .next s
  else .next (satAdd (setDir s l dir (addFaulty l { v with testing := false } bad)) (.dlink l) dlWireTests 1)

/-- WIRE_SPARE (R344, R346, R352): a failing wire is mapped to a free spare, or was itself a spare. -/
def execWireSpare (l : Fin 31) (dir : Bool) (wire : Nat) (s : State) : Out :=
  let p := Page.dlink l
  let v := linkDir s l dir
  if !linkUp s l ∨ !v.faulty.contains wire ∨ rd s p (dlSpareLeft (b2n dir)) = 0 then .next s
  else
    let s := setDir s l dir { v with faulty := v.faulty.filter (· != wire), excluded := unionNat v.excluded [wire] }
    let s := wr (wr (wr s p dlLastWireWire wire) p dlLastWireDir (b2n dir)) p dlLastWireValid 1
    let s := setEvt (raise (spareCount s l dir) p { bit := 16, unit := b2n dir, sev := some 0 }) p 16
    .next (ledgerNote s 2 (l.val + 256 * b2n dir + 4096 * wire) 0)

/-- LINK_NARROW (R340, R345, R346, R352): a direction needs a spare and has none: a ring link takes the domain down, any other full-width link
retrains at the next lower width or is lost (`overruns`: the retraining exceeds its bound twice), a management link is lost. -/
def execLinkNarrow (l : Fin 31) (dir : Bool) (overruns : Bool) (s : State) : Out :=
  let p := Page.dlink l
  let v := linkDir s l dir
  if !linkUp s l ∨ v.faulty.isEmpty ∨ rd s p (dlSpareLeft (b2n dir)) ≠ 0 then .next s
  else
    let s := setDir s l dir { v with faulty := [], excluded := unionNat v.excluded v.faulty }
    if linkRing l.val then .next (domainDown s { cause := 7 })
    else if linkMgmt l.val then .next (linkLost s l)
    else
      let offered := andBits 4 (bits (rd s p (dlCap 0 0)) 51 48) (bits (rd s p (dlCap 1 0)) 51 48)
      let avail := min (workWires l (linkDir s l false)) (workWires l (linkDir s l true))
      let width := widthChoice offered avail (rd s p dlNegWidth - 1)
      if width < 2 ∨ overruns then .next (linkLost s l)
      else
        let s := wrapAdd (wr s p dlNegWidth width) p dlTrains 1
        let s := setEvt (raise (spareCount (spareCount s l false) l true) p { bit := 17, unit := b2n dir, sev := some 0 }) p 17
        .next (ledgerNote s 3 l.val width)

/-! Clocks. -/

/-- R32, R33: the hub's path when a clock is lost: REFCLK_LOSS in the log, and the coherent domain goes down. -/
def refclkPath (s : State) : State :=
  domainDown (logWrite s 0 (pgId .hub) 0x101 3 false 0) { cause := 6 }

/-- FORWARDED_CLOCK_LOSS (R348): a forwarded clock stops: on a full-width link CLOCK_LOST and the path of R32; a management link is lost. -/
def execForwardedClockLoss (l : Fin 31) (s : State) : Out :=
  let p := Page.dlink l
  if !linkUp s l then .next s
  else if linkMgmt l.val then .next (linkLost s l)
  else
    let s := enter (wr (setEvt (raise s p { bit := 19, sev := some 2, stop := true }) p 18) p dlNegWidth 0) p 6
    .next (refclkPath s)

end Sys2Proof.Machine
end

