-- ==== Sys2Proof/Machine/Control.lean ====
section
/-! DEFINITION. Page commands and state transitions (R52 to R57), sleep and wake (R471 to R478), the domain restart (R67, R299, R303), the
reference clock (R32, R33), meters, stall watchdogs and the log's tail. -/

namespace Sys2Proof.Machine

/-! Checks at RUN (R56). -/

/-- A bay-store table of `n` entries of `len` bytes at 64-byte unit `base`: leaving bay store or touching the collection region. -/
def tableBad (base n len : Nat) : Bool := !storeWritable (64 * base) (n * len)

/-- A power of two within bounds. -/
def pow2In (v lo hi : Nat) : Bool := decide (lo ≤ v ∧ v ≤ hi) && 2 ^ Nat.log2 v == v

/-- R124, R155, R254: the checks of a descriptor table: count offset 0x104, base offset 0x100. -/
def tableCheck (base count maxCount len : Nat) : List (Nat × Nat) :=
  (if count = 0 then [(1, 0x104)] else []) ++ (if maxCount < count then [(2, 0x104)] else []) ++
  (if tableBad base count len then [(2, 0x100)] else [])

/-- R190: the checks of one queue of the issue unit. -/
def issueCheck (s : State) (p : Page) (q : Nat) : List (Nat × Nat) :=
  let n := rd s p (issQRingSize q)
  if rd s p (issQQcfg q) = 0 then []
  else (if n = 0 then [(1, 0x210 + 0x40 * q)] else []) ++ (if pow2In n 16 16777216 then [] else [(2, 0x210 + 0x40 * q)]) ++
    (if rd s p (issQRingBase q) % 64 ≠ 0 then [(2, 0x208 + 0x40 * q)] else [])

/-- R427: a strictly rising list. -/
def rising : List Nat → Bool
  | a :: b :: t => decide (a < b) && rising (b :: t)
  | _ => true

/-- R427: the checks of a collective engine. -/
def ceCheck (s : State) (p : Page) : List (Nat × Nat) :=
  let zero : Row → List (Nat × Nat) := fun r => if rd s p r = 0 then [(1, r.off)] else []
  let n := rd s p ceSuccCnt
  zero ceWdogTick ++ zero ceWdogLimit ++ zero ceCensusWait ++ zero ceCtrlResend ++ zero ceAccTimeout ++
  (List.range 4).flatMap (fun q => zero (ceQRingLog2 q) ++
    (if rd s p (ceQRingLog2 q) < 4 ∨ 16 < rd s p (ceQRingLog2 q) then [(2, (ceQRingLog2 q).off)] else [])) ++
  (if 16 < n then [(2, ceSuccCnt.off)] else []) ++
  (if rising ((List.range (min n 16)).map (fun i => rd s p (ceSucc i))) then [] else [(2, 0x120)]) ++
  (if rd s p ceAccCfg = 3 then [(2, ceAccCfg.off)] else [])

/-- R452: the checks of the host page. -/
def hostCheck (s : State) : List (Nat × Nat) :=
  let en := rd s .host hostExwCfg = 1
  let n := rd s .host hostExwSize
  (if rd s .host hostDmaTimeout = 0 then [(1, 0x130)] else []) ++ (if en ∧ n = 0 then [(1, 0x128)] else []) ++
  (if 256 < n then [(2, 0x128)] else []) ++
  (if en ∧ !inDram s (rd s .host hostExwBase * 2 ^ 28) (n * 2 ^ 28) then [(2, 0x120)] else []) ++
  (List.range 16).flatMap (fun q =>
    if rd s .host (hostHqCfgEn q) = 0 then []
    else
      let l := rd s .host (hostHqCfgLog2 q)
      (if l = 0 then [(1, 0x200 + 0x40 * q)] else []) ++ (if l < 4 ∨ 16 < l then [(2, 0x200 + 0x40 * q)] else []) ++
      (if rd s .host (hostHqCfgSpace q) = 0 ∧ !inDram s (256 * rd s .host (hostHqBase q)) (256 * 2 ^ l) then [(2, 0x208 + 0x40 * q)] else []))

/-- R56: what RUN finds at fault on a page: CFG_ZERO (1) or CFG_RANGE (2), each with the offset of its field. -/
def runCheck (s : State) (p : Page) : List (Nat × Nat) :=
  match p with
  | .core _ => if rd s p corePc % 2 ≠ 0 then [(2, 0x108)] else []
  | .arr _ _ => tableCheck (rd s p arrMfdBase) (rd s p arrMfdCount) 256 64
  | .vec _ => tableCheck (rd s p vecVpdBase) (rd s p vecVpdCount) 256 128
  | .mov _ _ | .gth _ _ => tableCheck (rd s p engDescBase) (rd s p engDescCount) 1024 64
  | .issue _ => (List.range 4).flatMap (issueCheck s p)
  | .tgu _ => if rd s p tguBarTimeout = 0 then [(1, 0x100)] else []
  | .xlate _ => if bits (rd s p xlSatp) 63 60 ≠ 10 then [(2, 0x100)] else []
  | .fport _ =>
    let w := rd s p fpCfgMinWidth
    if w < 4 ∨ 8 < w ∨ lanesIn (rd s p fpCfgLanes) < w then [(2, 0x100)] else []
  | .flow _ =>
    let l := rd s p flowEqSize
    (if rd s p flowRto = 0 then [(1, 0x108)] else []) ++ (if rd s p flowRetry = 0 then [(1, 0x10C)] else []) ++
    (if l = 0 then [(1, 0x118)] else []) ++ (if l < 4 ∨ 16 < l then [(2, 0x118)] else []) ++
    (if !inDram s (4096 * rd s p flowEqBase) (8 * 2 ^ l) then [(2, 0x110)] else [])
  | .ce _ => ceCheck s p
  | .host => hostCheck s
  | _ => []

/-- The lowest offset at which a bit was found. -/
def lowestOf (l : List (Nat × Nat)) (bit : Nat) : Option Nat :=
  match (l.filter (fun x => x.1 == bit)).map (·.2) with
  | [] => none
  | a :: t => some (t.foldl min a)

/-- R56: both bits are set where both conditions hold; the record names the lowest offset. -/
def runRefuse (s : State) (p : Page) (l : List (Nat × Nat)) : State :=
  let put := fun (s : State) (bit : Nat) => match lowestOf l bit with
    | some o => raise s p { bit := bit, detail := o }
    | none => s
  if (lowestOf l 1).getD 4096 ≤ (lowestOf l 2).getD 4096 then put (put s 1) 2 else put (put s 2) 1

/-! Commands (R52, R54). -/

/-- A page whose unit cleans before sleep (R20, R277, R471). It takes no command but CLR_ERR until it is OFF (DESIGN CHOICE, log 102). -/
def cleaning (s : State) (p : Page) : Bool :=
  (match p with
   | .core _ | .bayCtl _ | .pdCtl _ => true
   | _ => false) && pgState s p == 2 && rd s p hdrBusy == 1

/-- RUN (R54, R56); a die in core reset takes none (R349); R252: that of XLATE empties the TLB. -/
def execRun (p : Page) (s : State) : Out :=
  if !p.runctl ∨ pgState s p ≠ 2 ∨ cleaning s p ∨ dieHeld s (pageDie p) then .next s
  else match runCheck s p with
  | [] => .next (enter (match p with
      | .xlate b => modBay s b (fun y => { y with tlb := [] })
      | _ => s) p 3)
  | l => .next (runRefuse s p l)

/-- R187: a stalled instruction of the docent is abandoned with no effect. -/
def docAbandon (s : State) (b : BayId) : State :=
  let s := modBay s b (fun y => { y with doc := { y.doc with stall := .none } })
  wr (wr (wr s (.doc b) docStatusWaiting 0) (.doc b) docStatusPushStall 0) (.doc b) docStatusAfpStall 0

/-- What STOP or RESET of a running page begins: R187, R382, R450. -/
def stopBegin (s : State) (p : Page) : State :=
  let s := enter s p 5
  match p with
  | .doc b => docAbandon s b
  | .fport q => portHb s q
  | .host => backInvalidateAll s
  | _ => s

/-- What holds of a block once it is STOPPED by a command: R187, R382, R450. -/
def stopEnd (s : State) (p : Page) : State :=
  match p with
  | .host => backInvalidateAll s
  | .doc b => wr (docAbandon s b) p docStatusState 0
  | .fport q => if lstate s q = 0 then s else portDown s q
  | _ => s

/-- R54: STOP of a page. -/
def stopCmd (s : State) (p : Page) : State :=
  if !p.runctl then s
  else
    let st := pgState s p
    if st = 3 then enterStopped (stopEnd s p) p
    else if st = 4 then stopBegin s p
    else if st = 6 then enterStopped (stopEnd (blockDiscard s p) p) p
    else s

/-- STOP. -/
def execStop (p : Page) (s : State) : Out := .next (stopCmd s p)

/-- R19, R478: the pages without RUNCTL that accept RESET; on PD_CTL it only adds 1 to EPOCH. -/
def resetOnly : Page → Bool
  | .bayCtl _ | .pdCtl _ => true
  | _ => false

/-- RESET. -/
def execReset (p : Page) (s : State) : Out :=
  let st := pgState s p
  if resetOnly p then .next (if st = 2 ∧ !cleaning s p then epochInc (if p.type = 0x0060 then s else pageReset s p) p else s)
  else if !p.runctl ∨ cleaning s p then .next s
  else if st = 2 then .next (stopEnd (epochInc (pageReset s p) p) p)
  else if st = 3 ∨ st = 6 ∨ (st = 7 ∧ domainUp s) then .next (stopEnd (toReset s p) p)
  else if st = 4 then .next (let s := stopBegin s p; { s with heldReset := s.heldReset ++ [p.slot] })
  else if st = 5 then .next (if s.heldReset.contains p.slot then s else { s with heldReset := s.heldReset ++ [p.slot] })
  else .next s

/-- CLR_ERR: in every state but ABSENT. -/
def execClrErr (p : Page) (s : State) : Out := .next (if pgState s p = 0 then s else wr s p hdrErr 0)

/-- R187, R382, R450: what begins when a page enters RUNNING. HOST.LINK, which RESET returned to 0 (R12), shows the link again (DESIGN
CHOICE, log 101). -/
def startEnd (s : State) (p : Page) : State :=
  match p with
  | .doc _ => wr (wr (wr s p docStatusState 1) p docAwait 0) p docAwaitThr 0
  | .fport q => portIdentity s q false
  | .host => hqRestart (setHostLink s s.hostPort.link)
  | _ => s

/-- STARTING_DONE. -/
def execStartingDone (p : Page) (s : State) : Out := .next (if pgState s p = 3 then startEnd (enter s p 4) p else s)

/-- R57: the last issued operation of a block has completed. -/
def drained (s : State) (p : Page) : Bool :=
  match p with
  | .arr b a => (arrOf s b a.val).ops.isEmpty && !(arrOf s b a.val).selfTest
  | .vec b => (bayOf s b).vec.running.isNone && (bayOf s b).vec.held.isNone
  | .mov b m => (movList s b m).isEmpty
  | .gth b g => (gthList s b g).isEmpty
  | .tgu b => (List.range 8).all (fun k => (mget none (bayOf s b).tgu.blocks k).isNone) && (bayOf s b).tgu.ended.isEmpty
  | .core n => (hartOf s n).fills.isEmpty && (hartOf s n).ifills.isEmpty
  | .fport q => (portOf s q).egress.isEmpty && (portOf s q).buffer.isEmpty
  | .flow f => s.flows.all (fun x => x.1 / 131072 != f.val || (x.2.unacked.isEmpty && x.2.owners.isEmpty))
  | .ce f => (List.finRange 4).all (fun q => !(ceRun s f q).any (·.begun))
  | .host => (hostLines s).isEmpty && s.hostPort.bi.isEmpty && (List.finRange 16).all (fun q => (hqOf s q).entry.isEmpty && hqState s q != 1)
  | _ => true

/-- STOPPING_DONE (R57, R117): STOPPED, with a RESET held from STOPPING; an array in SPARE_PENDING first runs its self-test. -/
def execStoppingDone (p : Page) (s : State) : Out :=
  if pgState s p ≠ 5 ∨ !drained s p then .next s
  else
    let test := match p with
      | .arr _ _ => rd s p arrCheckMode == 2
      | _ => false
    if test then .next (enterStopped s p)
    else if s.heldReset.contains p.slot then .next (stopEnd (toReset s p) p)
    else .next (enterStopped (stopEnd s p) p)

/-! Sleep and wake (R471 to R478, R19, R20, R277). -/

/-- The pages of a bay. -/
def bayPages (b : BayId) : List Page :=
  [.bayCtl b, .doc b, .issue b, .sync b, .pace b, .vec b, .tgu b, .gth b 0, .gth b 1, .store b, .bcache b, .xlate b] ++
  (List.finRange 4).map (.mov b) ++ (List.finRange 8).map (.arr b)

/-- The cores of a processor die. -/
def dieCores (d : Fin 4) : List CoreId := (List.finRange 192).filter (fun n => n.val / 48 == d.val)

/-- The cluster page of a core. -/
def coreClus (n : CoreId) : Page := .clus ⟨n.val / 48, by omega⟩ ⟨n.val / 8 % 6, Nat.mod_lt _ (by decide)⟩

/-- R471: the further condition for SLEEP. -/
def sleepOk (s : State) (p : Page) : Bool :=
  match p with
  | .bayCtl b => (bayPages b).all (fun q => !q.runctl || (let st := pgState s q; st == 2 || st == 0 || st == 1))
  | .pdCtl d => (dieCores d).all (fun n => let st := pgState s (.core n); st == 1 || st == 0)
  | _ => true

/-- A page loses its power. -/
def powerOff (s : State) (p : Page) : State := enter (dropHeld (sleepLose s p) p) p 1

/-- SLEEP: from STOPPED. CORE, BAY_CTL and PD_CTL clean first; the others hold nothing to clean. -/
def execSleep (p : Page) (s : State) : Out :=
  if !p.sleepctl ∨ pgState s p ≠ 2 ∨ cleaning s p ∨ !sleepOk s p then .next s
  else match p with
  | .bayCtl b =>
    let deep := rd s p baySleepCfg == 1
    .next (modBay (wr s p hdrBusy 1) b (fun y => { y with deep := deep }))
  | .pdCtl _ => .next (wr s p hdrBusy 1)
  | .core _ => .next (wr s p hdrBusy 1)
  | _ => .next (powerOff s p)

/-- The lines that an agent holds. -/
def agentLines (s : State) (a : AgentId) : List Nat :=
  s.coh.agents.filterMap (fun x => if x.1 / 2 ^ 34 = a.val ∧ x.2.st ≠ .I then some (x.1 % 2 ^ 34) else none)

/-- R277: the lines that a cache answers for when it is cleaned: those it holds, and those of its agent that no cache holds. -/
def linesToClean (s : State) (c : CacheId) (a : AgentId) : List Nat :=
  (agentLines s a).filter (fun l => (wayFind s c (lineSlot c l) l).isSome ||
    (agentCaches a).all (fun d => (wayFind s d (lineSlot d l) l).isNone))

/-- A cache page whose dirty lines can all be cleaned now: none is in a transaction, and no miss is under way. -/
def cleanable (s : State) (c : CacheId) : Bool :=
  (cacheOf s c).miss.isEmpty && (match cacheAgent c with
    | some a => (linesToClean s c a).all (fun l => !lineBusy s (agentDie a) l false)
    | none => true)

/-- R277: every dirty line is written back and every line given up. -/
def cleanAll (s : State) (c : CacheId) : State :=
  match cacheAgent c with
  | some a =>
    let s := (linesToClean s c a).foldl (fun s l =>
      let s := cleanCopy s a l
      let s := match wayFind s c (lineSlot c l) l with
        | some w => waySet s c (lineSlot c l) w none
        | none => s
      evictCopy s a (agentOwnCls a).val l) s
    setCache s c {}
  | none => s

/-- R472: every page of the bay but SYNC and the ABSENT ones is OFF; the SYNC page keeps its flags. -/
def bayOff (s : State) (b : BayId) : State :=
  let s := (bayPages b).foldl (fun s p => if p = .sync b ∨ pgState s p = 0 ∨ pgState s p = 1 then s else powerOff s p) s
  if (bayOf s b).deep then storeClear s b else s

/-- The page of a cluster is OFF once its cores are. -/
def clusOff (s : State) (n : CoreId) : State :=
  let p := coreClus n
  let all := (List.finRange 192).all (fun m => m.val / 8 != n.val / 8 || pgState s (.core m) == 1 || pgState s (.core m) == 0)
  if all ∧ pgState s p = 4 then powerOff s p else s

/-- SLEEP_CLEAN_DONE. -/
def execSleepCleanDone (p : Page) (s : State) : Out :=
  if !cleaning s p then .next s
  else match p with
  | .bayCtl b => .next (if cleanable s (.bcache b) then bayOff (cleanAll s (.bcache b)) b else s)
  | .pdCtl d => .next (if cleanable s (.l3 d) then powerOff (powerOff (cleanAll s (.l3 d)) (.l3 d)) p else s)
  | .core n => .next (clusOff (powerOff s p) n)
  | _ => .next s

/-- A page wakes with its unit and runs while the unit is awake. -/
def wakeRun (s : State) (p : Page) : State := if pgState s p = 1 then enter (toReset s p) p 4 else s

/-- A bay page cannot wake while its bay sleeps, nor a core while its die does. -/
def unitSleeps (s : State) (p : Page) : Bool :=
  match p with
  | .doc b | .issue b | .vec b | .tgu b | .xlate b => pgState s (.bayCtl b) == 1
  | .arr b _ => pgState s (.bayCtl b) == 1
  | .gth b _ => pgState s (.bayCtl b) == 1
  | .mov b _ => pgState s (.bayCtl b) == 1
  | .core n => pgState s (.pdCtl ⟨n.val / 48, by omega⟩) == 1
  | _ => false

/-- WAKE: power returns; BUSY until the page can be used. -/
def execWake (p : Page) (s : State) : Out :=
  if !p.sleepctl ∨ pgState s p ≠ 1 ∨ unitSleeps s p then .next s else .next (wr s p hdrBusy 1)

/-- R12, R472: the pages of a bay wake with it, at reset values; after a DEEP sleep the bay store is cleared and the collection reloaded, which
sets COLL_VER. -/
def bayWake (s : State) (b : BayId) : State :=
  let s := forcedUpdate (wakeRun (wakeRun (wakeRun s (.pace b)) (.store b)) (.bcache b))
  let s := (bayPages b).foldl (fun s p => if p ≠ .bayCtl b ∧ pgState s p = 1 then toReset s p else s) s
  if (bayOf s b).deep then loadCollection (storeClear s b) b else s

/-- WAKE_DONE: STOPPED with reset values and EPOCH + 1. -/
def execWakeDone (p : Page) (s : State) : Out :=
  if pgState s p ≠ 1 ∨ rd s p hdrBusy = 0 then .next s
  else match p with
  | .bayCtl b =>
    let s := toReset (bayWake s b) p
    .next (setEvt (wrapAdd s p bayWakes 1) p 16)
  | .pdCtl d =>
    .next (setEvt (toReset (wakeRun s (.l3 d)) p) p 16)
  | .core n =>
    let s := toReset s p
    .next (if pgState s (coreClus n) = 1 then forcedUpdate (wakeRun s (coreClus n)) else s)
  | _ => .next (toReset s p)

/-! The domain restart (R67, R299, R303). -/

/-- R303: a restart begins: salvage first unless it has completed; one that runs is waited for. -/
def restartBegin (s : State) : State :=
  if s.coh.restarting then s
  else if s.coh.downSeq ∨ s.coh.salvTurn.isSome then { s with coh := { s.coh with restartHeld := true } }
  else if rd s .coh cohStatusSalvaged = 1 then restartClear s
  else wr (salvageStart { s with coh := { s.coh with restartHeld := true } }) .coh cohStatusRestarting 1

/-- DOMAIN_RESTART: only with the key and while the domain is down. -/
def execDomainRestart (key : BitVec 16) (s : State) : Out :=
  if key ≠ 0xD5A7 ∨ domainUp s then .next s else .next (restartBegin s)

/-- DOWN_SEQUENCE_END (R299): ports signal FENCE, the DOMAIN_DOWN entry is written and the event raised; a held restart acts. -/
def execDownSequenceEnd (s : State) : Out :=
  if !s.coh.downSeq then .next s
  else
    let s := portsHb { s with coh := { s.coh with downSeq := false } }
    let s := setEvt (logWrite s 0 (pgId .coh) 0x103 3 false (rd s .coh cohStatusCause)) .coh 16
    .next (if s.coh.restartHeld then restartBegin s else s)

/-- R329, R350, R381: a page that keeps its block registers through a restart: STOPPED with EPOCH + 1, then RUNNING. -/
def restartKept (s : State) (p : Page) : State := enter (epochInc (enter (resetRows s p hdrRows) p 2) p) p 4

/-- R303: what the restart makes of a fenced page. -/
def restartPage (s : State) (p : Page) : State :=
  if pgState s p ≠ 7 then s
  else match p with
  | .mchan st ch =>
    let s := restartKept s p
    if chanDead s st ch then raise s p { bit := 16, stop := true } else s
  | .dlink _ =>
    let s := restartKept s p
    if rd s p dlNegWidth = 0 then enter s p 6 else s
  | .fport _ => restartKept s p
  | .router _ => restartKept s p
  | .pace _ => enter (toReset s p) p 4
  | .clus _ _ => enter (toReset s p) p 4
  | .l3 _ => enter (toReset s p) p 4
  | .bcache _ => enter (toReset s p) p 4
  | .sysc c => enter (toReset (setCache s (.sysc c) { cacheOf s (.sysc c) with miss := [], inputs := [], range := none, held := none, waiting := [], cleaning := [], upAfter := [], disabling := [] }) p) p 4
  | .core n => toReset s (.core n)
  | _ => toReset s p

/-- R20, R303, R496: hub firmware writes START_PC and runs the core from there. -/
def coreStart (s : State) (n : CoreId) : State :=
  let p := Page.core n
  let e := pfwEntry s
  enter (wr (wr (hartReset s n) p coreStartPc e) p corePc e) p 4

/-- R192: flags and counters are 0. -/
def syncClear (s : State) (b : BayId) : State :=
  (List.range 16).foldl (fun s n => cntSet s b n 0) (wr s (.sync b) syncFlags 0)

/-- R494: the events held while the domain was down. -/
def heldDeliver (s : State) : State :=
  let l := s.coh.heldLines
  l.foldl (fun s v => let s := raiseHarts s v; if v = 0 then s else raiseMsix s v) { s with coh := { s.coh with heldLines := [] } }

/-- RESTART_COMPLETE (R303, R497): the host has given up its lines and the check tokens of step 4 are back; then steps 5 and 6, or the domain goes down again
with RING_LINK. -/
def execRestartComplete (tokensBack : Bool) (s : State) : Out :=
  if !s.coh.restarting ∨ !(hostLines s).isEmpty then .next s
  else if !tokensBack then .next (domainDown s { cause := 7 })
  else
    let cores := (List.finRange 192).filter (fun n => pgState s (.core n) = 7)
    let s := { s with coh := { s.coh with restarting := false } }
    let s := wr (satAdd s .hub hubDomainRestarts 1) .hub hubDomainUp 1
    let s := wr (wr (wr s .coh cohStatusUp 1) .coh cohStatusRestarting 0) .coh cohStatusSalvaged 0
    let s := allPages.foldl restartPage s
    let s := (List.finRange 48).foldl syncClear s
    let s := setEvt s .coh 18
    let s := cores.foldl coreStart (pfwAgain s)
    .next (heldDeliver (portsHb s))

/-! Clock, meters, watchdogs, log. -/

/-- REFCLK_LOSS (R32, R33): holdover, the domain down with REFCLK_LOSS, the host link down. -/
def execRefclkLoss (s : State) : Out :=
  if !s.pins.refclk ∨ held s then .next { s with pins := { s.pins with refclk := false } }
  else
    let s := wr { s with pins := { s.pins with refclk := false } } .hub hubClkstatRefclkOk 0
    if rd s .hub hubClkstatHoldover = 1 then .next s
    else
      let s := setEvt (raise (wr s .hub hubClkstatHoldover 1) .hub { bit := 18 }) .hub 18
      .next (hostLinkGone (refclkPath s) 1)

/-- REFCLK_RETURN: REFCLK_OK; the module stays on holdover. A module reset that waits for REFCLK ends (R32). -/
def execRefclkReturn (s : State) : Out :=
  let s := { s with pins := { s.pins with refclk := true }, mg := { s.mg with inReset := s.mg.inReset && s.pins.modResetLow } }
  .next (wr s .hub hubClkstatRefclkOk 1)

/-- The die of a die link whose meter times the link's page: the first end that has a meter. -/
def linkHome (n : Nat) : Nat := if (linkEnds n).1 = 19 then (linkEnds n).2 else (linkEnds n).1

/-- The die codes (R351) of the logic that meter i times besides what a pacer paces (R30): a matrix die by bay 4m, a processor die by
cluster 6d, a fabric die, the hub die. -/
def meterDie (i : Nat) : Option Nat :=
  if i < 48 then (if i % 4 = 0 then some (i / 4) else none)
  else if i < 72 then (if (i - 48) % 6 = 0 then some (12 + (i - 48) / 6) else none)
  else if i < 74 then some (16 + (i - 72)) else some 18

/-- The pages without a pacer whose blocks are timed by meter i (R30, R31; which die a link's page belongs to: DESIGN CHOICE, log 103). -/
def meterPages (i : Nat) : List Page :=
  match meterDie i with
  | none => []
  | some d =>
    ((List.finRange 31).filter (fun n => linkHome n.val == d)).map Page.dlink ++
    (match finOf 16 d with
     | some st => Page.sysc st :: (List.finRange 32).map (.mchan st)
     | none => []) ++
    (match finOf 4 (d - 12) with
     | some k => if 12 ≤ d then [Page.l3 k] else []
     | none => []) ++
    (if d = 18 then [Page.hub, .mgpwr, .sec, .coh, .host] else [])

/-- METER_WINDOW (R30, R31): the mean step time of a window of 512 ns; PACE and CLUS hold a copy; the blocks without a pacer count the
whole steps of the window (log 103). -/
def execMeterWindow (i : Fin 75) (ps : BitVec 16) (s : State) : Out :=
  let s := wr s .hub (hubMeter i.val) ps.toNat
  let s := (meterPages i.val).foldl (fun s p => if pgState s p = 4 then wrapAdd s p hdrSteps (512000 / ps.toNat) else s) s
  match finOf 48 i.val with
  | some b => .next (wr s (.pace b) paceMeter ps.toNat)
  | none => match finOf 24 (i.val - 48) with
    | some k => .next (wr s (.clus ⟨k.val / 6, by omega⟩ ⟨k.val % 6, Nat.mod_lt _ (by decide)⟩) paceMeter ps.toNat)
    | none => .next s

/-- STALL_WATCHDOG (R483): STALL; UNIT is the stage group, which the hardware's structure decides (a free value). -/
def execStallWatchdog (p : Page) (s : State) : Out :=
  let st := pgState s p
  if !p.runctl ∨ (st ≠ 4 ∧ st ≠ 5) then .next s
  else
    let v := fresh s
    .next (raise v.2 p { bit := 5, unit := v.1.toNat, stop := true })

/-- LOG_TAIL_WRITE (R68). -/
def execLogTailWrite (v : BitVec 32) (s : State) : Out :=
  if rd s .hub hubLogHead < v.toNat ∨ v.toNat < rd s .hub hubLogTail then .next (raise s .hub { bit := 2, detail := 0x124 })
  else .next (wr s .hub hubLogTail v.toNat)

end Sys2Proof.Machine
end

