-- ==== Sys2Proof/Machine/ModReset.lean ====
section
/-! DEFINITION. Module reset (R67, R522, R526 to R528) and what the security page copies from the MG die (R519). -/

namespace Sys2Proof.Machine

/-- R519: IMAGES of one type: ACTIVE, PENDING, FELLBACK, and COMMITTED, which reads 1 while the counter has reached the active copy's SVN
(DEDUCED, log 27). -/
def imageBits (s : State) (t : Nat) : Nat :=
  activeCopy s t + 2 * b2n (mget none s.mg.pending t).isSome + 4 * b2n (s.mg.fell.contains t) +
  8 * b2n (decide (imgSvn (imgCopy s t (activeCopy s t)) ≤ svnFuse s t))

/-- R519: the page follows the MG die's state. -/
def secRefresh (s : State) : State :=
  let s := [1, 2, 3, 4].foldl (fun s t =>
    wr (wr (wr s .sec (secImage t) (imageBits s t)) .sec (secSvnActive t) (imgSvn (imgCopy s t (activeCopy s t)))) .sec (secSvnFuse t) (svnFuse s t)) s
  ledgerCount (wr s .sec secConfig (cfgField s 4 4 0))

/-- R469: the die of the last THERMTRIP entry of the ledger. -/
def lastTrip (s : State) : Option Nat :=
  let l := s.mg.ledger.filterMap (fun x => x.2.bind (fun e => if e.kind = 15 then some (e.seq, e.unit) else none))
  (l.foldl (fun (b : Option (Nat × Nat)) e => match b with
    | some o => if o.1 < e.1 then some e else b
    | none => some e) none).map (·.2)

/-- R526: the sampled straps, as each ROUTER page reports them. -/
def slotSample (s : State) : State :=
  [Page.router 0, Page.router 1].foldl (fun s p => wr s p rtrIdentSlot s.pins.slot.toNat) s

/-- R12, R40, R67, R501, R522: the whole module at its reset values but for what lies outside it or in MG flash: the queue of commands, fuses,
pins and power inputs, the ledger, configuration and image copies. The start begins once MOD_RESET_N is high and REFCLK runs (R32). -/
def moduleReset (s : State) (cause : Nat) : State :=
  let s1 : State := {
    pending := s.pending
    fuses := s.fuses
    freeCount := s.freeCount
    resp := s.resp
    pins := { s.pins with jtag := .idcode }
    hostPort := { perstLow := s.hostPort.perstLow }
    power := {
      pbrakeLow := s.power.pbrakeLow, alerts := s.power.alerts, therm := s.power.therm, vin := s.power.vin, overV := s.power.overV
      pwrEn := s.power.pwrEn, converters := s.power.converters, pwrGood := s.power.pwrGood }
    mg := {
      ledger := s.mg.ledger, nextSeq := s.mg.nextSeq, bootCount := s.mg.bootCount, cfgA := s.mg.cfgA, cfgB := s.mg.cfgB
      images := s.mg.images, active := s.mg.active, pending := s.mg.pending, used := s.mg.used, lost := s.mg.lost
      inReset := s.pins.modResetLow || !s.pins.refclk } }
  let s1 := wr (wr s1 .hub hubRstCause cause) .hub hubBootCount s.mg.bootCount
  let s1 := wr s1 .hub hubClkstatRefclkOk (b2n s.pins.refclk)
  let s1 := match lastTrip s1 with
    | some d => wr (wr s1 .mgpwr pwrTripLastDie d) .mgpwr pwrTripLastValid 1
    | none => s1
  secRefresh (slotSample s1)

/-- R516, R511: a module reset by the MG die that is not the watchdog's: the spec gives its RST_CAUSE no value, so it is a free one. -/
def mgReset (s : State) : State :=
  let v := fresh s
  moduleReset v.2 (v.1.toNat % 16)

/-- MODULE_RESET (R67): with the key. -/
def execModuleReset (key : BitVec 16) (s : State) : Out :=
  if key ≠ 0xD5A7 ∨ held s then .next s else .next (moduleReset s 3)

/-- MOD_RESET_ASSERT (R527, R528): MOD_RESET_N falls; it acts while the module is powered. -/
def execModResetAssert (s : State) : Out :=
  let s1 := { s with pins := { s.pins with modResetLow := true } }
  if s.pins.modResetLow ∨ !s.power.pwrGood then .next s1 else .next (moduleReset s1 2)

/-- MOD_RESET_RELEASE (R349, R526): MOD_RESET_N rises, the straps are sampled and the start begins. -/
def execModResetRelease (straps : BitVec 6) (s : State) : Out :=
  if !s.pins.modResetLow then .next s
  else
    let s1 := { s with pins := { s.pins with modResetLow := false, slot := straps } }
    .next (slotSample { s1 with mg := { s1.mg with inReset := s1.mg.inReset && !s1.pins.refclk } })

end Sys2Proof.Machine
end

