-- ==== Sys2Proof/Machine/Power.lean ====
section
/-! DEFINITION. Power, pacing and temperature (R37, R454 to R470, R474 to R476, R485): pacer frames, the cap loop, modes, brakes, the input
voltage, converters and THERMTRIP. -/

namespace Sys2Proof.Machine

/-! Pacer frames (R31, R37, R457, R458). -/

/-- The pages whose blocks count the steps of a pacer's frames. -/
def pacerPages : PacerId → List Page
  | .bay b => bayPages b
  | .cluster k => .clus ⟨k.val / 6, by omega⟩ ⟨k.val % 6, Nat.mod_lt _ (by decide)⟩ ::
      ((List.finRange 192).filter (fun n => n.val / 8 == k.val)).map .core
  | .fabric f => [.router f, .flow f, .ce f] ++ ((List.finRange 32).filter (fun p => p.val / 16 == f.val)).map .fport

/-- PG_STEPS counts the 32 steps of the frame that begins, on every RUNNING page. -/
def frameSteps (s : State) (l : List Page) : State :=
  l.foldl (fun s p => if pgState s p = 4 then wrapAdd s p hdrSteps 32 else s) s

/-- A compute unit's page takes its level, which the hub adds to those of the unit's frames (R485) and, for a bay, to the pulses that RATE
counts (R465). -/
def frameLevel (s : State) (u : Fin 72) : State :=
  if held s ∨ !unitOn s u then s
  else
    let l := unitLevel s u
    let x := mget ({} : Unit72) s.power.units u.val
    let s := { s with power := { s.power with
      units := mset {} s.power.units u.val { x with levels := x.levels + l }
      pulses := s.power.pulses + (if u.val < 48 then l else 0) } }
    wr s (unitPage u) paceLevelLevel l

/-- R223: BLKk.STEPS counts the steps of the resident blocks. -/
def blockSteps (s : State) (b : BayId) : State :=
  (List.range 8).foldl (fun s k => if rd s (.tgu b) (tguBlkDescValid k) = 1 then wrapAdd s (.tgu b) (tguBlkSteps k) 32 else s) s

/-- PACER_FRAME: the first step of a frame. A fabric die's pacer always admits 32 pulses. -/
def execPacerFrame (u : PacerId) (s : State) : Out :=
  let s := match u with
    | .bay b => blockSteps (frameLevel s ⟨b.val, by omega⟩) b
    | .cluster k => frameLevel s ⟨48 + k.val, by omega⟩
    | .fabric _ => s
  .next (frameSteps s (pacerPages u))

/-! Brakes (R466 to R468). -/

/-- R468: each brake sets PG_ERR bit 16 and writes one log entry, also where the bit is set already. -/
def brakeError (s : State) : State :=
  if bitOf (rd s .mgpwr hdrErr) 16 then logWrite s 0 (pgId .mgpwr) 16 1 false (errInfo { bit := 16 }) else raise s .mgpwr { bit := 16 }

/-- A cause of a brake is accepted: it starts one, or extends the one that runs. -/
def brakeCause (s : State) : State :=
  if held s then s
  else if s.power.braking then wr { s with power := { s.power with holding := false } } .mgpwr pwrStatusHold 0
  else
    let s := { s with power := { s.power with braking := true, climb := false } }
    forcedUpdate (setEvt (brakeError (satAdd s .mgpwr pwrBrakes 1)) .mgpwr 18)

/-- A cause has ended: after the last one the hold of 50 µs runs. -/
def causeEnd (s : State) : State :=
  if s.power.braking ∧ !s.power.pbrakeLow ∧ s.power.alerts = [] ∧ !s.power.holding then
    wr { s with power := { s.power with holding := true } } .mgpwr pwrStatusHold 1
  else s

/-- PBRAKE: PBRAKE_N has stayed low for 200 ns. It is ignored while the module is unpowered or in reset (R523). -/
def execPbrake (s : State) : Out :=
  if s.power.pbrakeLow then .next s
  else
    let s := { s with power := { s.power with pbrakeLow := true } }
    .next (if held s then s else brakeCause (wr s .mgpwr pwrStatusBrake 1))

/-- PBRAKE_RELEASE. -/
def execPbrakeRelease (s : State) : Out :=
  if !s.power.pbrakeLow then .next s
  else .next (causeEnd (wr { s with power := { s.power with pbrakeLow := false } } .mgpwr pwrStatusBrake 0))

/-- R467: a cause of the regulator alert begins. -/
def alertUp (s : State) (c : Nat) : State :=
  if s.power.alerts.contains c then s
  else
    let first := s.power.alerts.isEmpty
    let s := { s with power := { s.power with alerts := s.power.alerts ++ [c] } }
    if held s then s
    else
      let s := wr s .mgpwr pwrStatusRegAlert 1
      brakeCause (if first then raise s .mgpwr { bit := 17 } else s)

/-- A cause of the regulator alert ends. -/
def alertDown (s : State) (c : Nat) : State :=
  if !s.power.alerts.contains c then s
  else
    let s := { s with power := { s.power with alerts := s.power.alerts.filter (· ≠ c) } }
    if s.power.alerts = [] then causeEnd (wr s .mgpwr pwrStatusRegAlert 0) else s

/-- REG_ALERT: a rail reports over-current or under-voltage, or the 6 V bus falls below 5.60 V. -/
def execRegAlert (s : State) : Out := .next (alertUp s 1)

/-- REG_ALERT_END: the alert of a rail or of a converter failure falls; one that VIN holds stays. -/
def execRegAlertEnd (s : State) : Out := .next (alertDown (alertDown s 1) 4)

/-- BRAKE_HOLD_EXPIRY: the brake ends, and the loop levels climb from 4, the first period still setting 4 (R468: DEDUCED, log 28). -/
def execBrakeHoldExpiry (s : State) : Out :=
  if !s.power.holding then .next s
  else .next (forcedUpdate (wr { s with power := { s.power with holding := false, braking := false, climb := true } } .mgpwr pwrStatusHold 0))

/-! The cap loop (R459 to R464). -/

/-- One awake unit in a period of the loop: `lo` and the target. -/
structure LoopUnit where
  u : Fin 72
  lo : Nat
  t : Nat
  sat : Bool
deriving DecidableEq, Repr

/-- `top`: the unit with the largest target, the highest number among equals, of those that may be trimmed. -/
def loopTop (l : List LoopUnit) : Option LoopUnit :=
  l.foldl (fun b x => match b with
    | none => some x
    | some y => if y.t < x.t ∨ (y.t = x.t ∧ y.u.val < x.u.val) then some x else b) none

/-- One trimming loop: while the targets sum to more than the allowance and some unit may be trimmed. -/
def loopTrim (every : Bool) (a : Nat) : Nat → List LoopUnit → List LoopUnit
  | 0, l => l
  | n + 1, l =>
    if (l.map (·.t)).sum ≤ a then l
    else match loopTop (l.filter (fun x => (every || !x.sat) && decide (x.lo < x.t))) with
      | none => l
      | some y => loopTrim every a n (l.map (fun x => if x.u = y.u then { x with t := x.t - 1 } else x))

/-- The units that are awake. -/
def awakeUnits (s : State) : List (Fin 72) := (List.finRange 72).filter (unitOn s)

/-- The cap in force (R456). -/
def capInForce (s : State) : Nat := min (rd s .mgpwr pwrCap) (rd s .mgpwr pwrCapMax)

/-- The allowance of a CAPPED period with mean input power `p`. -/
def allowanceAfter (s : State) (p n : Nat) : Nat :=
  let a : Int := (s.power.allowance : Int) + Int.tdiv ((capInForce s : Int) - (p : Int)) 3
  max (4 * n) (min (32 * n) a.toNat)

/-- R485: a unit whose pacer failed its check is held at loop level 4. -/
def unitBad (s : State) (u : Fin 72) : Bool := (mget ({} : Unit72) s.power.units u.val).pacerFault

/-- The targets of a period before trimming. -/
def loopTargets (s : State) (cls : List UnitClass) : List LoopUnit :=
  (awakeUnits s).map (fun u =>
    let c := cls.getD u.val ⟨0, 0, 0, 0⟩
    let v := rd s (unitPage u) paceLevelLoop
    let lo := max 4 (v - 4)
    { u := u, lo := lo, t := if unitBad s u then lo else if c.wait then lo else min 32 (v + 4), sat := c.sat })

/-- R466: the junction limits of a period: 4 below the loop level while the die is too hot, rising by 4 after. -/
def tjPeriod (s : State) : State :=
  (List.finRange 72).foldl (fun s u =>
    let x := mget ({} : Unit72) s.power.units u.val
    let v := rd s (unitPage u) paceLevelLoop
    let tj := if s.power.tjDies.contains (unitDie u) then max 4 (v - 4) else min 32 (x.tj + 4)
    { s with power := { s.power with units := mset {} s.power.units u.val { x with tj := tj } } }) s

/-- A unit's loop level of the period: clamped by the forced limit, by 4 in the first period after a brake, and by R485. -/
def loopSet (s : State) (u : Fin 72) (v : Nat) : State :=
  let v := if s.power.climb then min v 4 else v
  let v := if unitBad s u then 4 else v
  wr s (unitPage u) paceLevelLoop (min v (forcedLimit s u))

/-- A period in CAPPED mode. -/
def cappedPeriod (s : State) (p : Nat) (cls : List UnitClass) : State :=
  let a := allowanceAfter s p (awakeUnits s).length
  let l := loopTrim true a 576 (loopTrim false a 576 (loopTargets s cls))
  l.foldl (fun s x => loopSet s x.u (min x.t (rd s (unitPage x.u) paceCeil))) { s with power := { s.power with allowance := a } }

/-- R459: in FIXED and LOWEST the allowance is the sum of the levels in force. -/
def allowanceHold (s : State) : State :=
  { s with power := { s.power with allowance := ((awakeUnits s).map (unitLevel s)).sum } }

/-- A period in FIXED or LOWEST mode: 32 but for the climb after a forced limit, or 4. -/
def heldPeriod (s : State) (lowest : Bool) : State :=
  allowanceHold ((awakeUnits s).foldl (fun s u =>
    loopSet s u (if lowest then 4 else min 32 (rd s (unitPage u) paceLevelLoop + 4))) s)

/-- R485: the pages that PACER_CHECK stops. -/
def unitRunPages (u : Fin 72) : List Page :=
  if h : u.val < 48 then (bayPages ⟨u.val, h⟩).filter Page.runctl
  else ((List.finRange 192).filter (fun n => n.val / 8 == u.val - 48)).map .core

/-- R485: the pulses that a pacer reports differ from the levels of its frames by more than its frames. -/
def pacerBad (s : State) (cls : List UnitClass) (u : Fin 72) : Bool :=
  let c := cls.getD u.val ⟨0, 0, 0, 0⟩
  let l := (mget ({} : Unit72) s.power.units u.val).levels
  !unitBad s u && decide (l + c.frames < c.admitted ∨ c.admitted + c.frames < l)

/-- A new period's sums of levels begin. -/
def levelsClear (s : State) : State :=
  { s with power := { s.power with units := s.power.units.map (fun x => (x.1, { x.2 with levels := 0 })) } }

/-- R485: PACER_CHECK. -/
def pacerCheck (s : State) (u : Fin 72) : State :=
  let x := mget ({} : Unit72) s.power.units u.val
  let s := logWrite s 0 (pgId (unitPage u)) 0x106 1 false u.val
  (unitRunPages u).foldl stopCmd { s with power := { s.power with units := mset {} s.power.units u.val { x with pacerFault := true } } }

/-- R459: the loop runs from start step 2 on. -/
def loopRuns (s : State) : Bool := !held s && (s.mg.startDone || decide (3 ≤ s.mg.startStep))

/-- CAP_PERIOD: `p` is the mean input power of the period, `cls` what each unit reports. -/
def execCapPeriod (p : Nat) (cls : List UnitClass) (s : State) : Out :=
  if !loopRuns s then .next s
  else
    let s := if (s.power.pbrakeLow ∨ s.power.alerts ≠ []) ∧ !s.power.braking then
        brakeCause (wr (wr s .mgpwr pwrStatusBrake (b2n s.power.pbrakeLow)) .mgpwr pwrStatusRegAlert (b2n (!s.power.alerts.isEmpty)))
      else s
    let s := tjPeriod (levelsClear (((awakeUnits s).filter (pacerBad s cls)).foldl pacerCheck s))
    let mode := rd s .mgpwr pwrStatusModeInForce
    let s := if mode = 0 then cappedPeriod s p cls else heldPeriod s (mode == 2)
    .next (forcedUpdate { s with power := { s.power with climb := false } })

/-! MODE, CAP, TJ_LIMIT and CEIL (R462, R463, R474, R476). -/

/-- R462: the mode that MODE selects begins to take effect. -/
def modeBegin (s : State) (m : Nat) : State :=
  if m = s.power.modeTo.getD (rd s .mgpwr pwrStatusModeInForce) then s
  else wr { s with power := { s.power with modeTo := some m } } .mgpwr pwrStatusTransition 1

/-- R56, R462, R463, R474: one write of MODE, CAP and TJ_LIMIT, each if present: it stores all of them or none. -/
def pwrStore (s : State) (m c t : Option Nat) (off : Nat) : State :=
  let mode := m.getD (rd s .mgpwr pwrMode)
  let cap := c.getD (rd s .mgpwr pwrCap)
  let badMode := (m.isSome || c.isSome) && (mode == 3 || (mode == 1 && (decide (cap < 4400) || decide (rd s .mgpwr pwrCapMax < 4400))))
  let badCap := c.any (fun v => decide (v < 1500 ∨ 4400 < v))
  let badTj := t.any (fun v => decide (v < 80 ∨ 105 < v))
  if badMode ∨ badCap ∨ badTj then raise s .mgpwr { bit := 2, detail := off }
  else
    let s := (c.map (wr s .mgpwr pwrCap)).getD s
    let s := (t.map (wr s .mgpwr pwrTjLimit)).getD s
    match m with
    | some v => modeBegin (wr s .mgpwr pwrMode v) v
    | none => s

/-- MODE_WRITE. -/
def execModeWrite (v : BitVec 2) (s : State) : Out :=
  .next (if held s then s else pwrStore s (some v.toNat) none none 0x100)

/-- CAP_WRITE. -/
def execCapWrite (v : BitVec 13) (s : State) : Out :=
  .next (if held s then s else pwrStore s none (some v.toNat) none 0x104)

/-- TJ_LIMIT_WRITE. -/
def execTjLimitWrite (v : BitVec 8) (s : State) : Out :=
  .next (if held s then s else pwrStore s none none (some v.toNat) 0x120)

/-- MODE_CHANGE_DONE (R459, R462): the mode is in force; FIXED and LOWEST set the loop levels, which a forced limit clamps. -/
def execModeChangeDone (s : State) : Out :=
  match s.power.modeTo with
  | none => .next s
  | some m =>
    let s := wr { s with power := { s.power with modeTo := none } } .mgpwr pwrStatusTransition 0
    if m = rd s .mgpwr pwrStatusModeInForce then .next s
    else
      let s := setEvt (wr s .mgpwr pwrStatusModeInForce m) .mgpwr 16
      if m = 0 then .next s
      else .next (allowanceHold ((awakeUnits s).foldl (fun s u => loopSet s u (if m = 2 then 4 else 32)) s))

/-- CEIL_WRITE. -/
def execCeilWrite (u : Fin 72) (v : BitVec 6) (s : State) : Out :=
  let p := unitPage u
  if pgState s p = 0 then .next s
  else if v.toNat < 4 ∨ 32 < v.toNat then .next (raise s p { bit := 2, detail := 0x104 })
  else .next (wr s p paceCeil v.toNat)

/-! Measurements (R465, R466, R474). -/

/-- R466, R475: a die passes TJ_LIMIT, or cools to 2 °C below it. -/
def tjDie (s : State) (d t : Nat) : State :=
  let lim : Int := 16 * (rd s .mgpwr pwrTjLimit : Int)
  let v := toInt 16 t
  let s := wr s .mgpwr (pwrTj d) t
  if v > lim ∧ !s.power.tjDies.contains d then
    setEvt (raise { s with power := { s.power with tjDies := s.power.tjDies ++ [d] } } .mgpwr { bit := 20, unit := d }) .mgpwr 19
  else if v ≤ lim - 32 then { s with power := { s.power with tjDies := s.power.tjDies.filter (· ≠ d) } }
  else s

/-- The hottest of the junction readings and its die. -/
def tjHottest : List Temp → Nat → Nat × Int → Nat × Int
  | [], _, b => b
  | t :: l, d, b => tjHottest l (d + 1) (if toInt 16 t.toNat > b.2 then (d, toInt 16 t.toNat) else b)

/-- RATE_WINDOW (R465): what is measured over 1 ms: RATE, in M steps/s, from the pulses of the bays' pacers and the time in bay-nanoseconds for which
bays were awake (0 where none was); POWER, IIN, VIN, the coolant and the junctions. -/
def execRateWindow (bayNs : Nat) (power : BitVec 16) (iin : BitVec 32) (coolant : BitVec 16) (tj : List Temp) (s : State) : Out :=
  if held s then .next s
  else
    let s := wr (wr s .mgpwr pwrRate (s.power.pulses * 1000 / bayNs)) .mgpwr pwrPower power.toNat
    let s := { s with power := { s.power with pulses := 0 } }
    let s := wr (wr (wr s .mgpwr pwrIin iin.toNat) .mgpwr pwrCoolant coolant.toNat) .mgpwr pwrVin s.power.vin
    let l := tj.take 20
    let s := (l.zipIdx).foldl (fun s x => tjDie s x.2 x.1.toNat) s
    let s := wr s .mgpwr pwrStatusTj (b2n (!s.power.tjDies.isEmpty))
    match l with
    | [] => .next s
    | t :: r =>
      let h := tjHottest r 1 (0, toInt 16 t.toNat)
      .next (wr (wr s .mgpwr pwrTjHotDegc (ofInt 8 (h.2 / 16))) .mgpwr pwrTjHotDie h.1)

/-! The input, the converters and THERMTRIP (R454, R456, R469, R527, R528). -/

/-- The main converters turn off: all state outside the MG die is lost, and the next start is a power-on. -/
def convertersOff (s : State) : State :=
  let on := s.power.pwrGood
  let s := { s with power := { s.power with converters := false, pwrGood := false } }
  if on then moduleReset s 1 else s

/-- The main converters start where VIN, PWR_EN and the THERMTRIP latch allow. -/
def convertersTry (s : State) : State :=
  if s.power.pwrEn ∧ 48000 ≤ s.power.vin ∧ !s.power.overV ∧ !s.power.therm ∧ !s.power.converters then
    { s with power := { s.power with converters := true } }
  else s

/-- Standby power goes: what the MG die holds outside its flash is lost; its return is a power cycle (R489). -/
def standbyOff (s : State) : State :=
  { s with mg := { s.mg with lost := false, update := none, cfgBuf := [], alert := false } }

/-- R467: VIN in a range that holds the alert: below 50.0 V or above 57.5 V with the converters on (between 44.0 V and 48.0 V the 6 V bus lies
below 5.60 V). -/
def vinAlerts (s : State) : State :=
  let lo := s.power.converters && decide (s.power.vin < 50000)
  let hi := s.power.converters && decide (57500 < s.power.vin)
  let s := if lo then alertUp s 2 else alertDown s 2
  if hi then alertUp s 3 else alertDown s 3

/-- VIN_CHANGE. Above 60.0 V the spec states no behaviour. -/
def execVinChange (mv : BitVec 16) (s : State) : Out :=
  if 60000 < mv.toNat then .fault .absoluteMaximum
  else
    let old := s.power.vin
    let v := mv.toNat
    let s := { s with power := { s.power with vin := v, overV := if 58500 < v then true else if v < 57500 then false else s.power.overV } }
    let s := if s.power.converters ∧ (v < 44000 ∨ 58500 < v) then convertersOff s else s
    let s := vinAlerts (convertersTry (if v < 36000 then standbyOff s else s))
    if held s then .next s
    else
      let s := wr s .mgpwr pwrVin v
      let s := if v < 50000 ∧ 50000 ≤ old then raise s .mgpwr { bit := 18 } else s
      .next (if 57500 < v ∧ old ≤ 57500 then raise s .mgpwr { bit := 19 } else s)

/-- PWR_EN_ASSERT. -/
def execPwrEnAssert (s : State) : Out := .next (vinAlerts (convertersTry { s with power := { s.power with pwrEn := true } }))

/-- PWR_EN_DEASSERT. -/
def execPwrEnDeassert (s : State) : Out :=
  let s := { s with power := { s.power with pwrEn := false } }
  .next (if s.power.converters then vinAlerts (convertersOff s) else s)

/-- PWR_GOOD_RISE: every rail is in regulation; the module is in reset, and starts where MOD_RESET_N is high already. -/
def execPwrGoodRise (s : State) : Out :=
  if !s.power.converters ∨ s.power.pwrGood then .next s
  else .next (moduleReset { s with power := { s.power with pwrGood := true } } 1)

/-- R462: CAP_MAX has fallen: FIXED gives way to CAPPED. -/
def fixedEnds (s : State) : State := if rd s .mgpwr pwrMode = 1 then modeBegin (wr s .mgpwr pwrMode 0) 0 else s

/-- R456: CAP_MAX and CONV_OUT with a converter out. -/
def derate (s : State) : State := fixedEnds (wr (wr s .mgpwr pwrCapMax 3850) .mgpwr pwrStatusConvOut 1)

/-- CONVERTER_FAIL (R456): a second one is found by the regulator poll (R487). -/
def execConverterFail (c : Fin 8) (s : State) : Out :=
  if held s ∨ s.power.convOut.contains c.val then .next s
  else
    let s := raise { s with power := { s.power with convOut := s.power.convOut ++ [c.val] } } .mgpwr { bit := 21, sev := some 0 }
    .next (alertUp (ledgerNote (derate s) 9 c.val 0) 4)

/-- THERMTRIP: the latch records the die and turns the converters off. -/
def execThermtrip (d : DieId) (s : State) : Out :=
  if s.power.therm ∨ !s.power.converters then .next s
  else
    let s := ledgerNote s 15 d.val 0
    .next (convertersOff { s with power := { s.power with therm := true } })

/-- THERMTRIP_RELEASE: VIN has stayed below 36.0 V for 1 s. -/
def execThermtripRelease (s : State) : Out :=
  .next (if s.power.vin < 36000 then { s with power := { s.power with therm := false } } else s)

end Sys2Proof.Machine
end

