-- ==== Sys2Proof/Machine/Faults.lean ====
section
/-! DEFINITION. The regulator poll and the mutual watchdogs of the hub and MG dies (R487 to R490). -/

namespace Sys2Proof.Machine

/-- R487: a regulator fault: the log entry, the domain forced down, the ledger entry; ALERT_N falls (R490). -/
def regulatorFault (s : State) (die rail : Nat) : State :=
  let s := logWrite s 0 (pgId .mgpwr) 0x105 1 false (die % 32 + 256 * (rail % 256))
  let s := if domainUp s then domainDown s { cause := 8 } else s
  let s := ledgerNote s 0x0A die rail
  { s with mg := { s.mg with alert := true } }

/-- The number of a rail. -/
def railOf (x : DieId × Byte) : Nat := 256 * x.1.val + x.2.toNat

/-- R487: the rails' bad reads in a row after a poll that found the rails `bad` out of regulation. -/
def badReadsAfter (s : State) (bad : List (DieId × Byte)) : SMap Nat :=
  bad.foldl (fun m x => mset 0 m (railOf x) (mget 0 s.power.badReads (railOf x) + 1)) []

/-- REGULATOR_POLL: `bad` names the rails found out of regulation. Two failed converters are a regulator fault too, for which the spec
gives no die and no rail (free values). -/
def execRegulatorPoll (bad : List (DieId × Byte)) (s : State) : Out :=
  if held s then .next s
  else
    let s := { s with power := { s.power with badReads := badReadsAfter s bad } }
    let s := (bad.eraseDups.filter (fun x => mget 0 s.power.badReads (railOf x) == 5)).foldl (fun s x => regulatorFault s x.1.val x.2.toNat) s
    if 2 ≤ s.power.convOut.length ∧ !s.power.convFault then
      let v := fresh { s with power := { s.power with convFault := true } }
      .next (regulatorFault v.2 (v.1.toNat % 20) (v.1.toNat / 32 % 256))
    else .next s

/-- HUB_HEARTBEAT: the MG die receives the hub's heartbeat, which takes link 23 (R339). -/
def execHubHeartbeat (s : State) : Out :=
  .next (if held s ∨ linkGone s 23 then s else { s with mg := { s.mg with hubBeat := mgTime s } })

/-- HUB_FAIL (R488): ALERT_N, the ledger entry, and a module reset, which releases ALERT_N (R490). Only a hub that has been started can
fail so. -/
def execHubFail (s : State) : Out :=
  if held s ∨ s.mg.lost ∨ (s.mg.startStep < 2 ∧ !s.mg.startDone) then .next s
  else
    let s := { s with mg := { s.mg with alert := true } }
    let s := ledgerNote s 0x0E (if s.mg.startDone then 0 else s.mg.startStep) ((mgTime s - s.mg.hubBeat) % 2 ^ 32)
    .next (moduleReset s 4)

/-- MG_LOST (R489): the hub declares MG failure. -/
def execMgLost (s : State) : Out :=
  if held s ∨ s.mg.lost then .next s
  else
    let s := logWrite { s with mg := { s.mg with lost := true, alert := true } } 0 (pgId .hub) 0x104 1 false 0
    .next (setEvt (raise s .hub { bit := 17 }) .hub 17)

/-- MG_HEARTBEAT: the MG die answers, over link 23 (R339); the entries that the hub queued are written. The other limits of R489 last until a power cycle. -/
def execMgHeartbeat (s : State) : Out :=
  if held s ∨ !s.mg.lost ∨ linkGone s 23 then .next s
  else .next (s.mg.hubQueue.foldl ledgerStore { s with mg := { s.mg with hubQueue := [] } })

end Sys2Proof.Machine
end

