-- ==== Sys2Proof/Machine/Start.lean ====
section
/-! DEFINITION. The start sequence (R496 to R501, R505, R507, R508, R511, R515): what each step does, how it ends, and the signature check of
accession (R424). -/

namespace Sys2Proof.Machine

/-- How the work of a step ends: it is not ready to end, it ends with an outcome (0 OK, 1 DEGRADED, 2 FAILED), or the module resets. -/
inductive StepEnd where
  | waits | done (o : Nat) (s : State) | resets (s : State)
deriving DecidableEq, Repr

/-! Measurements and images. -/

/-- A measurement that has neither copy nor version; the spec gives their VERSION field no value (a free value). -/
def measureFree (s : State) (kind : Nat) (digest : List Byte) : State :=
  let v := fresh s
  measure v.2 kind 0xFF (v.1.toNat % 2 ^ 32) digest

/-- R507, R515: the copy of a type is in use: it is measured. -/
def imageUse (s : State) (t c kind : Nat) (fell : Bool) : State :=
  let i := imgCopy s t c
  let s := { s with mg := { s.mg with used := mset 0 s.mg.used t c, fell := if fell then s.mg.fell ++ [t] else s.mg.fell } }
  measure s kind c (imgVersion i) (imgDigest i)

/-- R507, R511: a step selects and verifies an image; `k` is the rest of the step, given whether the other copy was used. -/
def withImage (s : State) (t kind : Nat) (k : Bool → State → StepEnd) : StepEnd :=
  match chooseImage s t with
  | (.copy c fell, s) => k fell (imageUse s t c kind fell)
  | (.none, s) => .done 2 s
  | (.pendingFails, s) => .resets (mgReset s)

/-! Step 1. -/

/-- R515: what the fuses' measurement digests: the root-key hash and the four counters, two bytes each (DEDUCED from R516, log 29). -/
def fuseBytes (s : State) : List Byte := slice s.fuses.rootHash 0 48 ++ [1, 2, 3, 4].flatMap (fun t => toLE 2 (svnFuse s t))

/-- Step 1: the boot ROM and the fuses are measured, and a Curator copy is selected. -/
def step1 (s : State) : StepEnd :=
  let s := measureFree (measureFree s 1 Config.romDigest) 2 (Config.sha384 (fuseBytes s))
  match withImage s 1 3 (fun fell s => .done (b2n fell) s) with
  | .done 2 s => .done 2 { s with mg := { s.mg with recovery := true } }
  | r => r

/-! Step 2. -/

/-- R500: the bytes the DRAM space will have: 1.5 GiB for each channel that the snapshot does not leave out. -/
def spaceAfter (s : State) : Nat :=
  ((List.range 512).filter (fun c => !(snapKind s 5).any (fun e => e.unit == c))).length * chanBytes

/-- R500: a configuration copy is valid and in range. -/
def cfgValid (s : State) (c : List Byte) : Bool :=
  let pw := fieldAt c 9 1
  let cap := fieldAt c 10 2
  let tj := fieldAt c 12 1
  let wait := fieldAt c 16 4
  let base := fieldAt c 72 8
  fieldAt c 0 4 == 0xD9C00001 && fieldAt c 4092 4 == (crc32c (slice c 0 4092)).toNat && decide (fieldAt c 8 1 ≤ 1) &&
  (pw == 0 || pw == 2 || (pw == 1 && cap == 4400)) && decide (1500 ≤ cap ∧ cap ≤ 4400) && decide (80 ≤ tj ∧ tj ≤ 105) &&
  decide (1 ≤ wait ∧ wait ≤ 60000) && decide (4096 ≤ base ∧ base < spaceAfter s ∧ base % 4096 = 0)

/-- R499, R500: the configuration that a start uses: the copy (0 A, 1 B, 0xFF the defaults) and the copy rejected, if one was. -/
def cfgChoose (s : State) : Nat × Option Nat :=
  let hi := if fieldAt s.mg.cfgA 4 4 < fieldAt s.mg.cfgB 4 4 then 1 else 0
  let copy := fun (c : Nat) => if c = 0 then s.mg.cfgA else s.mg.cfgB
  if cfgValid s (copy hi) then (hi, none)
  else if cfgValid s (copy (1 - hi)) then (1 - hi, some hi)
  else (0xFF, some hi)

/-- R498, R500, R515: the configuration is read and measured; the flag tells that it fell back. -/
def cfgRead (s : State) : State × Bool :=
  let c := cfgChoose s
  let s := { s with mg := { s.mg with cfg := if c.1 = 0 then slice s.mg.cfgA 0 4096 else if c.1 = 1 then slice s.mg.cfgB 0 4096 else [] } }
  let s := match c.2 with
    | some r => ledgerNote s 0x12 0 (r + 2 * b2n (c.1 == 0xFF))
    | none => s
  (measure s 4 c.1 (cfgField s 4 4 0) (Config.sha384 (cfgBytes s)), c.2.isSome)

/-- R502: the 32 bytes of a ledger slot; zero in a free one. -/
def ledgerBytes : Option LedgerEntry → List Byte
  | none => List.replicate 32 0
  | some e =>
    let b := toLE 4 e.seq ++ toLE 4 e.boot ++ toLE 1 e.step ++ toLE 1 e.kind ++ toLE 1 e.outcome ++ toLE 1 e.action ++ toLE 4 e.unit ++ toLE 8 e.arg ++
      toLE 4 0
    b ++ toLE 4 (crc32c b).toNat

/-- R511: the hub-firmware copy that the last three starts did not use, when each of the three most recent HUB_FAIL entries comes from one of
them and names the same step. -/
def hubFailCopy (s : State) : Option Nat :=
  let l := snapKind s 14
  let last := fun (n : Nat) => (l.filter (fun e => e.boot + n == s.mg.bootCount)).getLast?
  let top := (l.map (·.seq)).foldl max 0
  match last 1, last 2, last 3 with
  | some a, some b, some c =>
    if a.seq = top ∧ a.unit = b.unit ∧ b.unit = c.unit ∧ (l.filter (fun e => c.seq ≤ e.seq)).length = 3 then some (1 - usedCopy s 2) else none
  | _, _, _ => none

/-- Step 2 after the hub firmware runs: MGPWR is written and the cap loop starts with 4 for every awake unit. -/
def step2Power (s : State) : State :=
  let out := (snapKind s 9).map (·.unit)
  let s := if out = [] then s
    else wr (wr { s with power := { s.power with convOut := out } } .mgpwr pwrCapMax 3850) .mgpwr pwrStatusConvOut 1
  let s := pwrStore s (some (cfgField s 9 1 0)) (some (cfgField s 10 2 4400)) none 0x100
  let s := pwrStore s none none (some (cfgField s 12 1 100)) 0x120
  { s with power := { s.power with allowance := 4 * (awakeUnits s).length } }

/-- Step 2: the configuration, the snapshot's measurement, the hub firmware over link 23. -/
def step2 (s : State) : StepEnd :=
  if pgState s (.dlink 23) ≠ 4 then .waits
  else
    let c := cfgRead s
    let s := measureFree c.1 5 (Config.sha384 ((List.range 256).flatMap (fun i => ledgerBytes (mget none s.mg.snapshot i))))
    match hubFailCopy s with
    | some k =>
      match imageReason s 2 k with
      | none => .done 1 (step2Power (imageUse s 2 k 6 true))
      | some r => .done 2 (imageFail s 2 k r)
    | none => withImage s 2 6 (fun fell s => .done (b2n (fell || c.2)) (step2Power s))

/-! Step 3. -/

/-- A link has spared a wire or runs narrow. -/
def linkRepaired (s : State) (l : Fin 31) : Bool :=
  let v := mget ({} : Link) s.links l.val
  v.ab.excluded != [] || v.ba.excluded != [] || (!linkMgmt l.val && decide (rd s (.dlink l) dlNegWidth < 4))

/-- Step 3: the links have trained. -/
def step3 (s : State) : StepEnd :=
  let st := fun (l : Fin 31) => pgState s (.dlink l)
  if (List.finRange 31).any (fun l => st l != 4 && st l != 6) then .waits
  else if (List.finRange 31).any (fun l => !linkMgmt l.val && st l == 6) ∨ !(snapKind s 4).isEmpty ∨ !(snapKind s 0xA).isEmpty then .done 2 s
  else .done (b2n ((List.finRange 31).any (linkRepaired s) || !s.power.convOut.isEmpty)) s

/-! Step 4. -/

/-- R307: the channels of a stack in service. -/
def serviceOf (out : List Nat) (st : Fin 16) : List (Fin 32) := (List.finRange 32).filter (fun c => !out.contains (32 * st.val + c.val))

/-- R24, R310: DOM_BASE of a stack, from the channel counts. -/
def baseOf (n : List Nat) (far : Bool) (st : Nat) : Nat :=
  let nm := n.foldl min 32
  if far then
    if n.getD st 0 ≤ nm then 0 else 16 * nm * chanBytes + ((n.take st).map (fun x => (x - nm) * chanBytes)).sum
  else ((n.take st).map (· * chanBytes)).sum

/-- R311, R329, R330: the page of one channel at memory start. -/
def chanStart (far : Bool) (n : List Nat) (out : List Nat) (st : Fin 16) (s : State) (c : Fin 32) : State :=
  let p := Page.mchan st c
  let on := serviceOf out st
  let s := wr (wr s p mchMemmapMode (b2n far)) p mchMemmapNStack (n.getD st.val 0)
  let s := wr (wr s p mchMemmapNMin (n.foldl min 32)) p mchDomBase (baseOf n far st.val)
  let s := wr s p mchSpaceSize (n.sum * chanBytes)
  if on.contains c then
    enter (wr (wr s p mchLocSvcIndex (on.countP (fun x => x.val < c.val))) p mchLocInService 1) p 4
  else enter (wr s p mchLocInService 0) p 0

/-- R23, R307 to R311, R328: memory start with the channels `out` left out; every block is zero. The domain is up from here on (DEDUCED: the
next step copies firmware to DRAM, and the cores start after it; log 30). -/
def memoryStart (s : State) (out : List Nat) : State :=
  let far := cfgFar s
  let n := (List.finRange 16).map (fun st => (serviceOf out st).length)
  let s := (List.finRange 16).foldl (fun s st => (List.finRange 32).foldl (chanStart far n out st) s) { s with dram := [], side := [], sysc := [] }
  wr (wr s .hub hubDomainUp 1) .coh cohStatusUp 1

/-- Step 4 (R328): channels fail training, each with an entry of its own; which, physics decides. A channel already left out is not trained. -/
def step4 (s : State) (fails : List Nat) : StepEnd :=
  let known := (snapKind s 5).map (·.unit)
  let bad := fails.eraseDups.filter (fun c => decide (c < 512) && !known.contains c)
  let s := bad.foldl (fun s c => ledgerNote s 5 c 0) s
  let out := known ++ bad
  if (List.range 512).all (fun c => out.contains c) then .done 2 s
  else .done (b2n ((List.range 512).any (fun c => out.contains c))) (memoryStart s out)

/-! Steps 5 and 6. -/

/-- Step 5: the processor firmware and the configuration in DRAM. -/
def step5 (s : State) : StepEnd := withImage s 3 7 (fun fell s => .done (b2n fell) (pfwLoad s))

/-- R275, R502: a way that the snapshot disables. -/
def wayOff (s : State) (e : LedgerEntry) : State :=
  let i := e.unit % 256
  let c : Option CacheId := if e.unit / 256 = 0 then (finOf 4 i).map .l3 else if e.unit / 256 = 1 then (finOf 48 i).map .bcache
    else if e.unit / 256 = 2 then (finOf 16 i).map .sysc else none
  match c with
  | none => s
  | some c =>
    let p := c.page
    let w := e.arg % 32
    if p.ways ≤ w then s
    else wr (wr (wr s p cacheWaydis (setBit (rd s p cacheWaydis) w)) p cacheWaypwr (clrBit (rd s p cacheWaypwr) w)) p cacheWaystat
      (clrBit (rd s p cacheWaystat) w)

/-- R19: a core that is left off. -/
def leaveOff (s : State) (n : CoreId) : State :=
  let d : Page := .pdCtl ⟨n.val / 48, by omega⟩
  enter (wr s d pdLeftOff (setBit (rd s d pdLeftOff) (n.val % 48))) (.core n) 0

/-- Step 6: cores fail their built-in test; which, physics decides. -/
def step6 (s : State) (fails : List Nat) : StepEnd :=
  let known := (snapKind s 0x11).map (·.unit)
  let bad := fails.eraseDups.filter (fun n => decide (n < 192) && !known.contains n)
  let s := bad.foldl (fun s n => ledgerNote s 0x11 n 0) s
  let off := known ++ bad
  let ways := snapKind s 8
  let s := ways.foldl wayOff s
  let s := ((List.finRange 192).filter (fun n => off.contains n.val)).foldl leaveOff s
  let on := (List.finRange 192).filter (fun n => !off.contains n.val)
  if on = [] then .done 2 s
  else .done (b2n (decide (on.length < 192) || !ways.isEmpty)) (on.foldl coreStart s)

/-! Steps 7 and 8. -/

/-- A page runs. -/
def runPage (s : State) (p : Page) : State := startEnd (enter (enter s p 3) p 4) p

/-- Step 7 begins: ENCLOSURE, the ROUTER pages, the FPORT pages. -/
def step7Begin (s : State) : State :=
  let e := cfgField s 14 2 0 % 1024
  let s := wr (wr s (.router 0) rtrIdentEnclosure e) (.router 1) rtrIdentEnclosure e
  (List.finRange 32).foldl (fun s p => runPage s (.fport p)) (runPage (runPage s (.router 0)) (.router 1))

/-- Every port is UP. -/
def portsAllUp (s : State) : Bool := (List.finRange 32).all (fun p => lstate s p == 3)

/-- R118, R505: an array that stays in service under an entry: UNCHECKED for CHECKER, SPARED for COL_SPARE. -/
def arraySpare (s : State) (b : BayId) (a : Fin 8) (phys : Nat) : State :=
  let unit := 8 * b.val + phys
  let p := Page.arr b a
  if (snapKind s 7).any (fun e => e.unit == unit) then
    wr (setArr s b a.val { arrOf s b a.val with heldMode := 4 }) p arrCheckMode 4
  else match (snapKind s 6).find? (fun e => e.unit == unit) with
    | some e => wr (wr s p arrCheckMode 3) p arrCheckSpareCol (e.arg % 64)
    | none => s

/-- R48, R505: the arrays of a bay: those in service take their numbers, the pages above the count are ABSENT. -/
def bayArrays (s : State) (b : BayId) : State :=
  let l := enabledPhys s b
  let s := wr s (.issue b) issArrays l.length
  (List.finRange 8).foldl (fun s a =>
    match l[a.val]? with
    | some phys => arraySpare s b a phys
    | none => enter s (.arr b a) 0) s

/-- R496, R505: an array that fusing leaves enabled was retired, or a spare was applied. With KEEP_SPARED no array is retired, and a spare is applied
to an array that only COL_SPARE entries name. -/
def arrayEntry (s : State) : Bool :=
  (snapKind s 6 ++ (if keepSpared s then [] else snapKind s 7)).any (fun e =>
    decide (e.unit < 384) && !(s.fuses.gradeB && decide ((mget 0 s.fuses.fusedOff (e.unit / 8)).val = e.unit % 8)) &&
    !(keepSpared s && (snapKind s 7).any (fun x => x.unit == e.unit)))

/-- Step 8: the collection, bay stores, arrays. -/
def step8 (s : State) : StepEnd :=
  withImage s 4 8 (fun fell s =>
    let s := (List.finRange 48).foldl (fun s b => loadCollection (bayArrays (storeClear s b) b) b) s
    .done (b2n (fell || arrayEntry s)) s)

/-! The sequence. -/

/-- What a step does as it begins (R501: the snapshot and BOOT_COUNT at step 2; R528: once step 2 has completed, the host function is in reset
only while PERST_N is low). -/
def stepBegin (s : State) (k : Nat) : State :=
  let s := wr { s with mg := { s.mg with startStep := k, stepEntries := 0 } } .sec secStartStep k
  if k = 2 then
    let n := s.mg.bootCount + 1
    wr { s with mg := { s.mg with snapshot := s.mg.ledger, bootCount := n } } .hub hubBootCount n
  else if k = 3 then { s with hostPort := { s.hostPort with funcReset := s.hostPort.perstLow } }
  else if k = 7 then step7Begin s
  else s

/-- R511: every PENDING copy that this start used becomes ACTIVE. -/
def pendingActive (s : State) : State :=
  let l := s.mg.usedPending
  let s := l.foldl (fun s t => { s with mg := { s.mg with
    active := mset 0 s.mg.active t (usedCopy s t), pending := mset none s.mg.pending t none } }) { s with mg := { s.mg with usedPending := [] } }
  if l = [] then s else setEvt s .sec 18

/-- R496: step 8 has ended: the start is complete as far as firmware is concerned. -/
def startComplete (s : State) : State :=
  let s := pendingActive { s with mg := { s.mg with startDone := true } }
  secRefresh (setEvt (wr s .sec secStartState (if rd s .sec secStartDegraded = 0 then 1 else 2)) .sec 17)

/-- R496: a step ends with an outcome. -/
def stepClose (s : State) (k o : Nat) : State :=
  if o = 2 then secRefresh (stepFail s k)
  else
    let s := stepEntry s k o
    let s := if o = 1 then wr s .sec secStartDegraded (setBit (rd s .sec secStartDegraded) (k - 1)) else s
    if k = 8 then startComplete s else secRefresh (stepBegin s (k + 1))

/-- The work of step k. -/
def stepWork (s : State) (k : Nat) (fails : List Nat) : StepEnd :=
  if k = 1 then step1 s else if k = 2 then step2 s else if k = 3 then step3 s else if k = 4 then step4 s fails
  else if k = 5 then step5 s else if k = 6 then step6 s fails else if k = 7 then (if portsAllUp s then .done 0 s else .waits)
  else step8 s

/-- The start runs: not before the release of reset, not once complete, stopped, in recovery, or without the MG die. -/
def startRuns (s : State) : Bool :=
  !held s && !s.mg.startDone && !s.mg.recovery && !s.mg.lost && rd s .sec secStartState != 3

/-- START_STEP_DONE (R496): the step ends as its work and the operand say: `failed` stops the start in any step but 7, `degraded` names the units that
fail their test in step 4 or 6. A step that is not ready waits. -/
def execStartStepDone (o : StepOutcome) (s : State) : Out :=
  let k := s.mg.startStep
  if !startRuns s then .next s
  else if o = .failed ∧ k ≠ 7 then .next (stepClose s k 2)
  else match stepWork s k (match o with | .degraded l => l | .ok | .failed => []) with
    | .waits => .next s
    | .done r s => .next (stepClose s k r)
    | .resets s => .next s

/-- PORT_WAIT_EXPIRY (R497): step 7 ends, DEGRADED where a port is not UP. -/
def execPortWaitExpiry (s : State) : Out :=
  if !startRuns s ∨ s.mg.startStep ≠ 7 then .next s else .next (stepClose s 7 (b2n (!portsAllUp s)))

/-- START_TIMEOUT (R511): a start that uses a PENDING copy has not completed step 8 within 2 s, step 7 not counted. -/
def execStartTimeout (s : State) : Out :=
  if held s ∨ s.mg.startDone ∨ s.mg.usedPending = [] then .next s
  else
    let s := s.mg.usedPending.foldl (fun s t =>
      imageFail { s with mg := { s.mg with pending := mset none s.mg.pending t none } } t (usedCopy s t) 7) s
    .next (mgReset s)

/-! Step 9 (R424). -/

/-- R420, R424: the image's digest and signature are good, under the key that the configuration names; an all-zero ACC_KEY names none. -/
def accImageGood (s : State) : Bool :=
  let base := chunkAddr s 0
  let m := accBytes s base 256
  let img := cohBytes s (chunkAddr s 1) (manifest s).2 29 true .ok
  let key := if s.mg.cfg = [] then List.replicate 48 0 else slice s.mg.cfg 24 48
  key != List.replicate 48 0 && slice m 64 48 == key && !img.2.1 && slice m 16 48 == Config.sha384 img.1 &&
    Config.ecdsaVerify (slice m 64 48) (slice m 112 96) (Config.sha384 (slice m 0 112))

/-- ACC_SIGNATURE_CHECK. -/
def execAccSignatureCheck (s : State) : Out :=
  if held s ∨ rd s (.ce 0) ceAccStatState ≠ 3 then .next s
  else if accImageGood s then
    let s := measureFree s 9 (slice (accBytes s (chunkAddr s 0) 64) 16 48)
    let s := stepEntry s 9 (b2n (decide (s.mg.stepEntries ≠ 0)))
    .next (accState s 4 0)
  else
    let s := stepFail (ledgerStorage s) 9
    .next (raise (accState s 5 3) (.ce 0) { bit := 21 })

end Sys2Proof.Machine
end

