-- ==== Sys2Proof/Machine/Mgmt.lean ====
section
/-! DEFINITION. Management (R508 to R519): attestation, updates, commits, the ledger and the configuration as operators reach them, SPDM, and the
TAP (R524). -/

namespace Sys2Proof.Machine

/-- A management response: the completion code and the data. -/
def reply (s : State) (code : Nat) (d : List Byte) : State := { s with resp := BitVec.ofNat 8 code :: d }

/-- R517: a request reaches the MG die: on I3C while standby power lasts, on the host port while its link is up and the hub runs. -/
def mgReach (s : State) : MgmtPort → Bool
  | .i3c => decide (36000 ≤ s.power.vin)
  | .hostPort => !held s && mgmtReach s 18 19 && hostUp s && !s.mg.recovery && (s.mg.startDone || decide (3 ≤ s.mg.startStep))

/-- FLAGS.HOSTMGMT of the configuration in force. -/
def hostMgmt (s : State) : Bool := bitOf (cfgField s 13 1 0) 1

/-- R518: a request that does not reach the MG die has no answer; one that may not act is refused with NOT_ALLOWED. -/
def mgRequest (s : State) (port : MgmtPort) (writes : Bool) (k : State → State) : Out :=
  if !mgReach s port then .next s
  else if s.mg.lost ∨ (writes ∧ port = .hostPort ∧ !hostMgmt s) then .next (reply s 3 [])
  else .next (k s)

/-! Attestation (R514 to R517). -/

/-- The digest of the last measurement of a kind; zero where there is none. -/
def provDigest (s : State) (kind : Nat) : List Byte :=
  match (s.mg.prov.filter (fun e => fieldAt e 2 1 == kind)).getLast? with
  | some e => slice e 16 48
  | none => List.replicate 48 0

/-- R2: HUB.GRADE.CODE. -/
def gradeCode (s : State) : Nat := if s.fuses.gradeB then 0xB4 else 0xA4

/-- R516: bytes 164 to 167. -/
def reportCopies (s : State) : Nat :=
  ([1, 2, 3, 4].map (fun t => (activeCopy s t + 16 * b2n (mget none s.mg.pending t).isSome) * 2 ^ (t - 1))).sum

/-- R516: bytes 0 to 479 of a report. -/
def reportBody (s : State) (nonce : List Byte) : List Byte :=
  toLE 4 0xD9A70001 ++ toLE 4 576 ++ toLE 8 s.fuses.serial.toNat ++ toLE 1 (gradeCode s) ++ toLE 1 1 ++ toLE 2 0 ++ toLE 4 s.mg.bootCount ++
  toLE 8 (mgTime s) ++ slice nonce 0 32 ++ slice Config.identityKeyHash 0 48 ++ runDigest s ++ toLE 2 s.mg.prov.length ++
  toLE 1 (rd s .sec secStartState) ++ toLE 1 0 ++ toLE 4 (reportCopies s) ++
  [1, 2, 3, 4].flatMap (fun t => toLE 2 (imgSvn (imgCopy s t (activeCopy s t)))) ++ [1, 2, 3, 4].flatMap (fun t => toLE 2 (svnFuse s t)) ++ toLE 8 0 ++
  [3, 4, 6, 7, 8, 5].flatMap (provDigest s)

/-- R514: the identity key's signature over a message, and the state whose next signature differs. -/
def signed (s : State) (m : List Byte) : List Byte × State :=
  (slice (Config.identitySign s.freeCount m) 0 96, { s with freeCount := s.freeCount + 1 })

/-- GET_REPORT. -/
def execGetReport (port : MgmtPort) (nonce : List Byte) (s : State) : Out :=
  mgRequest s port false (fun s =>
    if nonce.length ≠ 32 then reply s 2 []
    else
      let b := reportBody s nonce
      let x := signed s (Config.sha384 b)
      reply x.2 0 (b ++ x.1))

/-- GET_LOG: up to 16 provenance entries. -/
def execGetLog (port : MgmtPort) (first : Nat) (s : State) : Out :=
  mgRequest s port false (fun s => reply s 0 ((s.mg.prov.drop first).take 16).flatten)

/-- GET_CERTS: up to 1,024 bytes of the chain. -/
def execGetCerts (port : MgmtPort) (off : Nat) (s : State) : Out :=
  mgRequest s port false (fun s => reply s 0 ((s.fuses.certs.drop off).take 1024))

/-- R517: the SPDM responder of the DOE mailbox answers. -/
def spdm (s : State) (k : State → State) : Out := mgRequest s .hostPort false k

/-- SPDM_CHALLENGE: the identity key signs over the requester's nonce. -/
def execSpdmChallenge (nonce : List Byte) (s : State) : Out :=
  spdm s (fun s => let x := signed s (Config.sha384 nonce); reply x.2 0 x.1)

/-- SPDM_GET_MEASUREMENTS: block i is provenance entry i − 1; index 0 asks for the number of blocks, and 255 for all of them (PRESUMED: SPDM 1.2,
log 31). The identity key signs the answer. -/
def execSpdmGetMeasurements (index : Nat) (s : State) : Out :=
  spdm s (fun s =>
    let d := if index = 0 then toLE 1 s.mg.prov.length else if index = 255 then s.mg.prov.flatten else s.mg.prov.getD (index - 1) []
    if index ≠ 0 ∧ index ≠ 255 ∧ s.mg.prov.length < index then reply s 2 []
    else let x := signed s (Config.sha384 d); reply x.2 0 (d ++ x.1))

/-! Updates (R508, R510, R513). -/

/-- R515: the kind of measurement of an image type. -/
def imageKind (t : Nat) : Nat := ([0, 3, 6, 7, 8] : List Nat).getD t 0

/-- R510: a copy is in use during a start. -/
def copyInUse (s : State) (t c : Nat) : Bool :=
  !s.mg.startDone && usedCopy s t == c && s.mg.prov.any (fun e => fieldAt e 2 1 == imageKind t)

/-- R504, R513: the IMAGE entries of a copy leave the ledger. -/
def imageEntriesClear (s : State) (t c : Nat) : State :=
  let mine := fun (x : Nat × Option LedgerEntry) => x.2.any (fun e => e.kind == 0x10 && e.unit == t && e.arg % 2 == c)
  if s.mg.ledger.any mine then
    setEvt (ledgerCount { s with mg := { s.mg with ledger := s.mg.ledger.filter (fun x => !mine x) } }) .sec 16
  else s

/-- UPDATE_BEGIN: `type` 0 to 3 names image types 1 to 4. -/
def execUpdateBegin (port : MgmtPort) (type : Fin 4) (size : Nat) (s : State) : Out :=
  mgRequest s port true (fun s =>
    let t := type.val + 1
    let c := if s.mg.recovery then 0 else 1 - activeCopy s t
    if s.mg.recovery ∧ (t ≠ 1 ∨ port ≠ .i3c) then reply s 3 []
    else if s.mg.update.isSome then reply s 1 []
    else if 512 + Config.flashArea t < size then reply s 2 []
    else if !s.mg.recovery ∧ copyInUse s t c then reply s 1 []
    else
      let s := { s with mg := { s.mg with
        images := mset {} s.mg.images (2 * t + c) {}
        pending := if mget none s.mg.pending t = some c then mset none s.mg.pending t none else s.mg.pending
        update := some { type := t, copy := c, size := size } } }
      reply (secRefresh (imageEntriesClear s t c)) 0 [])

/-- Bytes appended to a copy: the header is its first 512. -/
def imageAppend (i : ImageCopy) (d : List Byte) : ImageCopy :=
  let all := i.header ++ i.payload ++ d
  { header := all.take 512, payload := all.drop 512 }

/-- UPDATE_DATA: in order, at most 1,024 bytes. -/
def execUpdateData (port : MgmtPort) (off : Nat) (bytes : List Byte) (s : State) : Out :=
  mgRequest s port true (fun s =>
    match s.mg.update with
    | none => reply s 2 []
    | some u =>
      if off ≠ u.next ∨ 1024 < bytes.length ∨ u.size < off + bytes.length then reply s 2 []
      else
        let k := 2 * u.type + u.copy
        reply { s with mg := { s.mg with
          images := mset {} s.mg.images k (imageAppend (mget {} s.mg.images k) bytes), update := some { u with next := off + bytes.length } } } 0 [])

/-- UPDATE_END: a copy that verifies becomes PENDING; in recovery it runs at once, and the start goes on at step 2. -/
def execUpdateEnd (port : MgmtPort) (s : State) : Out :=
  mgRequest s port true (fun s =>
    match s.mg.update with
    | none => reply s 2 []
    | some u =>
      let s := { s with mg := { s.mg with update := none } }
      match imageReason s u.type u.copy with
      | some r => reply { s with mg := { s.mg with images := mset {} s.mg.images (2 * u.type + u.copy) {} } } 4 (toLE 1 r)
      | none =>
        if s.mg.recovery then
          let s := setEvt (wr { s with mg := { s.mg with recovery := false } } .sec secStartState 0) .sec 17
          reply (secRefresh (stepBegin (imageUse s 1 u.copy 3 false) 2)) 0 []
        else
          let s := { s with mg := { s.mg with pending := mset none s.mg.pending u.type (some u.copy) } }
          reply (secRefresh (setEvt s .sec 18)) 0 [])

/-! Commit (R509). -/

/-- COMMIT of the types in a mask (bit t − 1): refused whole while one of them has a PENDING copy. -/
def commitTypes (s : State) (mask : Nat) : Option State :=
  let l := [1, 2, 3, 4].filter (fun t => bitOf mask (t - 1))
  if l.any (fun t => (mget none s.mg.pending t).isSome) then none
  else
    let next := fun (s : State) (t : Nat) => max (svnFuse s t) (min 64 (imgSvn (imgCopy s t (activeCopy s t))))
    let moved := l.any (fun t => decide (svnFuse s t < next s t))
    let s := l.foldl (fun s t => { s with fuses := { s.fuses with svn := mset 0 s.fuses.svn t (next s t) } }) s
    some (secRefresh (if moved then setEvt s .sec 18 else s))

/-- COMMIT: answers the new counters; the code of the refusal is one that the spec does not state (a free value). -/
def execCommit (port : MgmtPort) (mask : BitVec 4) (s : State) : Out :=
  mgRequest s port true (fun s =>
    match commitTypes s mask.toNat with
    | some s => reply s 0 ([1, 2, 3, 4].flatMap (fun t => toLE 2 (svnFuse s t)))
    | none => let v := fresh s; reply v.2 (1 + v.1.toNat % 5) [])

/-- R519: while the MG die is lost, the page's commands are ignored and set CFG_LOCKED. -/
def secLocked (s : State) (off : Nat) : State := raise s .sec { bit := 0, detail := off }

/-- SEC_COMMIT: with the key. -/
def execSecCommit (key : BitVec 16) (mask : BitVec 4) (s : State) : Out :=
  if held s then .next s
  else if s.mg.lost then .next (secLocked s 0x128)
  else if key ≠ 0xD5A7 then .next s
  else .next ((commitTypes s mask.toNat).getD s)

/-! The ledger (R504). -/

/-- LEDGER_READ. -/
def execLedgerRead (port : MgmtPort) (slot : Fin 256) (s : State) : Out :=
  mgRequest s port false (fun s => reply s 0 (ledgerBytes (mget none s.mg.ledger slot.val)))

/-- A slot is cleared. -/
def ledgerDrop (s : State) (i : Nat) : State :=
  match mget none s.mg.ledger i with
  | none => s
  | some e => ledgered (setEvt (ledgerCount { s with mg := { s.mg with ledger := mset none s.mg.ledger i none } }) .sec 16) e false

/-- LEDGER_CLEAR: MISMATCH where the SEQ differs. -/
def execLedgerClear (port : MgmtPort) (slot : Fin 256) (seq : BitVec 32) (s : State) : Out :=
  mgRequest s port true (fun s =>
    if ((mget none s.mg.ledger slot.val).elim 0 (·.seq)) ≠ seq.toNat then reply s 5 [] else reply (ledgerDrop s slot.val) 0 [])

/-- LEDGER_CLR_SLOT: the slot in LEDGER_IDX. -/
def execLedgerClrSlot (key : BitVec 16) (s : State) : Out :=
  if held s then .next s
  else if s.mg.lost then .next (secLocked s 0x124)
  else if key ≠ 0xD5A7 then .next s
  else .next (ledgerDrop s (rd s .sec secLedgerIdx))

/-- LEDGER_CLR_RECORDS: every record at once. -/
def execLedgerClrRecords (key : BitVec 16) (s : State) : Out :=
  if held s then .next s
  else if s.mg.lost then .next (secLocked s 0x124)
  else if key ≠ 0xD5A7 then .next s
  else
    let rec_ := fun (x : Nat × Option LedgerEntry) => x.2.any (fun e => e.action == 0)
    if s.mg.ledger.any rec_ then
      .next (setEvt (ledgerCount { s with mg := { s.mg with ledger := s.mg.ledger.filter (fun x => !rec_ x) } }) .sec 16)
    else .next s

/-! The start configuration (R498, R499). -/

/-- CONFIG_READ: up to 1,024 bytes of the configuration in force. -/
def execConfigRead (port : MgmtPort) (off : Nat) (s : State) : Out :=
  mgRequest s port false (fun s => reply s 0 (((cfgBytes s).drop off).take 1024))

/-- R499: the copy with the lower SEQ is replaced, with the higher SEQ plus 1 and the CRC that this makes (DEDUCED: R500 checks it, log 32). -/
def cfgStore (s : State) (d : List Byte) : State :=
  let a := fieldAt s.mg.cfgA 4 4
  let b := fieldAt s.mg.cfgB 4 4
  let d := splice (slice d 0 4092) 4 (toLE 4 (max a b + 1))
  let d := d ++ toLE 4 (crc32c d).toNat
  { s with mg := { s.mg with
    cfgA := if a < b ∨ (a = b ∧ s.mg.cfgA = []) then d else s.mg.cfgA
    cfgB := if a < b ∨ (a = b ∧ s.mg.cfgA = []) then s.mg.cfgB else d } }

/-- CONFIG_WRITE: bytes gather until the last message, whose CRC must hold. -/
def execConfigWrite (port : MgmtPort) (off : Nat) (bytes : List Byte) (lastMsg : Bool) (s : State) : Out :=
  mgRequest s port true (fun s =>
    if 1024 < bytes.length ∨ 4096 < off + bytes.length then reply s 2 []
    else
      let d := splice (slice s.mg.cfgBuf 0 4096) off bytes
      if !lastMsg then reply { s with mg := { s.mg with cfgBuf := d } } 0 []
      else
        let s := { s with mg := { s.mg with cfgBuf := [] } }
        if fieldAt d 4092 4 = (crc32c (slice d 0 4092)).toNat then reply (cfgStore s d) 0 [] else reply s 2 [])

/-! The TAP (R524). -/

/-- JTAG_INSTRUCTION: IDCODE answers; while boundary scan is active nothing leaves on the fabric and the host port. -/
def execJtagInstruction (i : TapInstr) (s : State) : Out :=
  if !s.power.pwrGood then .next s
  else
    let s1 := { s with pins := { s.pins with jtag := i }, resp := if i = .idcode then toLE 4 Config.idcode.toNat else [] }
    .next (if s.pins.jtag = .boundaryScan ∧ i ≠ .boundaryScan then (List.finRange 32).foldl portPump s1 else s1)

end Sys2Proof.Machine
end

