-- ==== Sys2Proof/Machine/Issue.lean ====
section
/-! DEFINITION. Issue queues (R161 to R164), long words (R165 to R174), references (R176, R177), frames, replay lists, recording and
the collection (R178 to R182), address FIFOs (R183), the wait monitor (R185, R186), the ISSUE and SYNC pages' writes (R162, R192). -/

namespace Sys2Proof.Machine

/-- Queue `q` of a bay. -/
def queueOf (s : State) (b : BayId) (q : QueueId) : IssQueue := mget {} (bayOf s b).queues q.val
/-- The state with a queue replaced. -/
def setQueue (s : State) (b : BayId) (q : QueueId) (u : IssQueue) : State :=
  modBay s b (fun y => { y with queues := mset {} y.queues q.val u })
/-- The state with a queue changed. -/
def modQueue (s : State) (b : BayId) (q : QueueId) (f : IssQueue → IssQueue) : State := setQueue s b q (f (queueOf s b q))

/-! ### Long words. -/

/-- The length of a word by its header, at least 1. -/
def wordLen (h : Nat) : Nat := max 1 (bits h 19 12)

/-- R165: a word's i-th 32-bit word. -/
def wAt (raw : List (BitVec 32)) (i : Nat) : Nat := (raw.getD i 0).toNat

/-- `n` words from index `i` as one number, least significant first. -/
def wNum (raw : List (BitVec 32)) (i : Nat) : Nat → Nat
  | 0 => 0
  | n + 1 => wAt raw i + 2 ^ 32 * wNum raw (i + 1) n

/-- R166: the words of slot i without payload. -/
def slotWords (i : Nat) : Nat := match i with | 1 => 4 | 2 => 3 | 3 => 4 | 4 => 3 | _ => 2

/-- R166: where the present slots start, from index `i` on: slot number and start, and the end. -/
def slotStarts (raw : List (BitVec 32)) (pres : Nat) : List Nat → Nat → List (Nat × Nat) × Nat
  | [], i => ([], i)
  | k :: ks, i =>
    if bitOf pres k then
      let pay := if k = 3 then (bits (wNum raw i 2) 42 34 + 3) / 4 else 0
      let r := slotStarts raw pres ks (i + slotWords k + pay)
      ((k, i) :: r.1, r.2)
    else slotStarts raw pres ks i

/-- How many of the six bits are set. -/
def pop6 (v : Nat) : Nat := ((List.range 6).filter (bitOf v)).length

/-- R166: the first number of thresholds that agrees with the WAIT bytes and LEN: the number and the slots' starts. -/
def layout (raw : List (BitVec 32)) : Option (Nat × List (Nat × Nat)) :=
  let h := wAt raw 0
  let pres := bits h 5 0
  let refs := pop6 (bits h 11 6)
  (List.range (pop6 pres + 1)).findSome? (fun t =>
    let l := slotStarts raw pres (List.range 6) (1 + t + refs)
    let n := (l.1.filter (fun x => let w := wAt raw x.2 % 256; byteV w && byteK w)).length
    if n = t ∧ l.2 = bits h 19 12 ∧ raw.length = l.2 then some (t, l.1) else none)

/-- R168, R173: the highest bit of a CTL (slot 0) or SYN slot's operands plus one, for an OP; none for a reserved OP. -/
def ctlTop (slot op : Nat) : Option Nat :=
  if slot = 0 then (match op with | 0 => some 20 | 1 => some 35 | 2 => some 20 | 3 => some 62 | 4 => some 41 | 5 => some 28 | 6 => some 61 | 7 => some 20 | _ => none)
  else (match op with | 0 => some 20 | 1 => some 56 | 2 => some 56 | 3 => some 26 | 4 => some 26 | 5 => some 20 | _ => none)

/-- R176: the place (lsb, width) of the field that an entry names in a slot. -/
def refField (slot op field : Nat) : Option (Nat × Nat) :=
  match slot, field with
  | 0, 1 => (match op with | 1 => some (20, 10) | 3 => some (20, 21) | 6 => some (20, 21) | 4 => some (20, 21) | 5 => some (20, 8) | _ => none)
  | 0, 2 => (match op with | 3 => some (41, 16) | 6 => some (41, 20) | _ => none)
  | 0, 3 => (match op with | 1 => some (30, 5) | 3 => some (57, 5) | _ => none)
  | 1, 1 => some (47, 21) | 1, 2 => some (68, 21) | 1, 3 => some (89, 21) | 1, 4 => some (28, 11) | 1, 5 => some (110, 16) | 1, 6 => some (39, 8)
  | 2, 1 => some (52, 21) | 2, 2 => some (73, 21) | 2, 3 => some (28, 24) | 2, 4 => some (20, 8)
  | 3, 1 => some (64, 64) | 3, 2 => some (24, 10)
  | 4, 1 => some (58, 21) | 4, 2 => some (34, 24) | 4, 3 => some (24, 10)
  | 5, 1 => if op = 1 ∨ op = 2 then some (24, 32) else none
  | 5, 2 => (match op with | 1 => some (20, 4) | 2 => some (20, 4) | 3 => some (20, 6) | 4 => some (20, 6) | _ => none)
  | _, _ => none

/-- A number with `w` bits from `lsb` replaced. -/
def putField (v lsb w x : Nat) : Nat := v - v / 2 ^ lsb % 2 ^ w * 2 ^ lsb + x % 2 ^ w * 2 ^ lsb

/-- The entries (FIELD, PARAM) of a reference word. -/
def refEntries (w : Nat) : List (Nat × Nat) := (List.range 4).map (fun i => (bits w (8 * i + 7) (8 * i + 5), bits w (8 * i + 4) (8 * i)))

/-- R176: a reference word that breaks the rules. -/
def refBad (slot v w : Nat) : Bool :=
  let es := refEntries w
  let used := (es.map (·.1)).filter (· != 0)
  es.any (fun e => e.1 == 0 && e.2 != 0) ||
  used.any (fun f => if f = 7 then !(byteV (v % 256) && byteK (v % 256)) else (refField slot (bits v 19 16) f).isNone) ||
  !decide used.Nodup

/-- R177: a slot and its threshold with the references of its reference word resolved. -/
def refApply (slot : Nat) (param : Nat → Nat) (base w : Nat) (v thr : Nat) : Nat × Nat :=
  let op := bits v 19 16
  (refEntries w).foldl (fun (x : Nat × Nat) e =>
    let p := param ((base + e.2) % 32)
    if e.1 = 7 then (x.1, p % 2 ^ 32)
    else match refField slot op e.1 with
      | some f => (putField x.1 f.1 f.2 p, x.2)
      | none => x) (v, thr)

/-- R174: what refuses slot `k` with value `v`. -/
def slotBad (k v : Nat) : Bool :=
  byteBad (v % 256) || byteBad (bits v 15 8) ||
  ((k == 0 || k == 5) && (match ctlTop k (bits v 19 16) with | none => true | some top => decide (2 ^ top ≤ v))) ||
  (k == 3 && decide (256 < bits v 42 34))

/-- R174, R176, R177, R120: the slots of a word, their thresholds, the payload; or the error bit and the slot of the refusal. -/
def decodeWord (raw : List (BitVec 32)) (arrays : Nat) (param : Nat → Nat) (base : Nat) :
    (List (Option Nat) × List Nat × List Byte) ⊕ (Nat × Nat) :=
  let h := wAt raw 0
  let pres := bits h 5 0
  let pref := bits h 11 6
  if bits h 23 20 ≠ 0xA ∨ bits h 31 24 ≠ 0 then .inr (16, 7)
  else match (List.range 6).find? (fun k => bitOf pref k && !bitOf pres k) with
  | some k => .inr (16, k)
  | none => match layout raw with
    | none => .inr (16, 7)
    | some (t, l) =>
      let val := fun (x : Nat × Nat) => wNum raw x.2 (slotWords x.1)
      let rank := fun (p : Nat → Bool) (k : Nat) => ((List.range k).filter p).length
      let onCnt := fun k => l.any (fun x => x.1 == k && (let w := val x % 256; byteV w && byteK w))
      let refW := fun k => if bitOf pref k then wAt raw (1 + t + rank (bitOf pref) k) else 0
      match l.find? (fun x => slotBad x.1 (val x) || refBad x.1 (val x) (refW x.1)) with
      | some x => .inr (16, x.1)
      | none =>
        let thrRaw := fun k => if onCnt k then wAt raw (1 + rank onCnt k) else 0
        let done := l.map (fun x => (x.1, refApply x.1 param base (refW x.1) (val x) (thrRaw x.1)))
        let at_ := fun k => (done.find? (fun x => x.1 == k)).map (·.2)
        let absent := match at_ 1 with
          | some v => decide (arrays < bits v.1 22 20 + 2 ^ bits v.1 24 23)
          | none => false
        if absent then .inr (3, 1)
        else
          let pay := match l.find? (fun x => x.1 == 3) with
            | some x => slice ((rangeFrom (x.2 + 4) 64).flatMap (fun i => toLE 4 (wAt raw i))) 0 (bits (val x) 42 34)
            | none => []
          .inl ((List.range 6).map (fun k => (at_ k).map (·.1)), (List.range 6).map (fun k => ((at_ k).map (·.2)).getD 0), pay)

/-! ### Refusals and status. -/

/-- R174: a word is refused: ISSUE enters FAULT. -/
def wordRefuse (s : State) (b : BayId) (q : QueueId) (bit slot : Nat) (addr : Option (BitVec 64)) (ring : Bool) : State :=
  raise s (.issue b) {
    bit := bit, unit := q.val * 64 + slot * 8,
    detail := (queueOf s b q).frames.length * 4096 + rd s (.issue b) (issQQseq q.val) % 4096,
    addr := addr.map (·.toNat), va := ring, stop := true }

/-- Slot `i` of a decoded word. -/
def Decoded.slot (d : Decoded) (i : Nat) : Option Nat := d.slots.getD i none
/-- Whether slot `i` still has to issue. -/
def Decoded.open_ (d : Decoded) (i : Nat) : Bool := (d.slot i).isSome && !d.issued.getD i false
/-- Whether slot `i` is held by its WAIT. -/
def slotHeld (s : State) (b : BayId) (d : Decoded) (i : Nat) : Bool :=
  d.open_ i && !d.taken.getD i false && !waitOk s b ((d.slot i).getD 0 % 256) (d.thr.getD i 0)

/-- R173: operations that this queue has issued and that have not completed; the CALLs and REPLAYs around it do not count. -/
def queueBusy (s : State) (b : BayId) (q : QueueId) : Bool :=
  let fr := frameOps (queueOf s b q)
  (bayOf s b).ops.any (fun o => o.src == .queue q && !fr.contains o.id)

/-- R161: a queue has no words and no frames, and its ring nothing to fetch. -/
def queueEmpty (s : State) (b : BayId) (q : QueueId) : Bool :=
  let u := queueOf s b q
  let p := Page.issue b
  u.decoded.isEmpty && u.words.isEmpty && u.frames.isEmpty &&
    (rd s p (issQQcfg q.val) == 0 || rd s p (issQProd q.val) == rd s p (issQCons q.val))

/-- QSTAT.STATE (DEDUCED from its names, log 41). -/
def queueState (s : State) (b : BayId) (q : QueueId) : Nat :=
  let u := queueOf s b q
  if queueEmpty s b q then 0
  else if pgState s (.issue b) ≠ 4 then 6
  else match u.decoded with
  | d :: _ =>
    if d.open_ 5 ∧ bits ((d.slot 5).getD 0) 19 16 = 5 ∧ !slotHeld s b d 5 ∧ queueBusy s b q then 5
    else if (List.range 6).any (slotHeld s b d) then 3 else 4
  | [] => if u.frames.isEmpty ∧ !u.words.isEmpty then 2 else 1

/-- R189: QSTAT, HEADPTR, AWAIT and AWAIT_THR of a queue brought up to date. AWAIT keeps its value while a deadlock stands declared. -/
def queueShow (s : State) (b : BayId) (q : QueueId) : State :=
  let u := queueOf s b q
  let p := Page.issue b
  let n := q.val
  let d := u.decoded.head?
  let pend := match d with | some d => ((List.range 6).filter d.open_).foldl (fun v i => v + 2 ^ i) 0 | none => 0
  let aw := d.bind (fun d => ((List.range 6).find? (slotHeld s b d)).map (fun i => ((d.slot i).getD 0 % 256, i, d.thr.getD i 0)))
  let head := match d with
    | some d => (d.addr.map (fun a => (a, d.ring)))
    | none => match u.words with
      | (some a, _) :: _ => if u.frames.isEmpty then some (a, true) else none
      | _ => none
  let kept := pgState s p == 6 && rd s p issDlockDeclared == 1
  let s := wr (wr (wr (wr s p (issQQstatState n) (queueState s b q)) p (issQQstatDepth n) u.frames.length)
    p (issQQstatRec n) (b2n u.recording.isSome)) p (issQQstatPending n) pend
  let s := wr (wr s p (issQHeadptrAddr n) ((head.map (·.1.toNat)).getD 0)) p (issQHeadptrSrc n) (b2n ((head.map (·.2)).getD false))
  if kept then s
  else match aw with
    | some (w, i, t) => wr (wr (wr (wr s p (issQAwaitWait n) w) p (issQAwaitSlot n) i) p (issQAwaitValid n) 1) p (issQAwaitThr n) t
    | none => wr (wr (wr (wr s p (issQAwaitWait n) 0) p (issQAwaitSlot n) 0) p (issQAwaitValid n) 0) p (issQAwaitThr n) 0

/-- The four queues brought up to date, as a read of the page finds them. -/
def issueShow (s : State) (b : BayId) : State := (List.finRange 4).foldl (fun s q => queueShow s b q) s

/-! ### Frames and the head. -/

/-- R177: parameter n as a word of this queue reads it. -/
def paramOf (s : State) (b : BayId) (q : QueueId) (n : Nat) : Nat :=
  let u := queueOf s b q
  if u.frames.isEmpty then rd s (.issue b) (issQParam q.val n) else (mget 0 u.snapshot n).toNat

/-- R178: the innermost frame ends, and its SIG acts. -/
def framePop (s : State) (b : BayId) (q : QueueId) : State :=
  match (queueOf s b q).frames with
  | [] => s
  | f :: _ => opDone (modQueue s b q (fun u => { u with frames := u.frames.drop 1 })) b f.id

/-- R178: with the last word of a repetition retired and repetitions left, the body starts again. -/
def frameLoop (u : IssQueue) : IssQueue :=
  match u.frames with
  | f :: r => if u.decoded.isEmpty ∧ f.off = f.len ∧ 0 < f.more then { u with frames := { f with off := 0, more := f.more - 1 } :: r } else u
  | [] => u

/-- R163, R177, R178: the head word retires. -/
def headRetire (s : State) (b : BayId) (q : QueueId) : State :=
  let u := queueOf s b q
  match u.decoded with
  | [] => s
  | d :: rest =>
    let top := u.frames.isEmpty
    let s := if top then wrapAdd s (.issue b) (issQQseq q.val) 1 else s
    let snap : SMap (BitVec 64) := if top ∧ d.opens.isSome then
      (List.range 32).foldl (fun m n => mset 0 m n (BitVec.ofNat 64 (rd s (.issue b) (issQParam q.val n)))) [] else u.snapshot
    let s := setQueue s b q { u with decoded := rest, frames := d.opens.toList ++ u.frames, snapshot := snap }
    let s := if d.ends then framePop s b q else s
    modQueue s b q frameLoop

/-- R178 to R180, R182: what CALL, RET, REPLAY, RECORD and ENDREC find at the head: refused, or the frame to open if there is one. -/
def ctlPlan (s : State) (b : BayId) (q : QueueId) (v : Nat) : Option (Option Frame) × State :=
  let u := queueOf s b q
  let p := Page.issue b
  let depth := u.frames.length
  let sig := BitVec.ofNat 8 (bits v 15 8)
  match bits v 19 16 with
  | 1 =>
    let r := storeRead s b p q.val (collBase + 8 * bits v 29 20) 8 .ok .none
    let e := leNat r.1
    let off := bits e 31 0
    let len := bits e 55 32
    if !bitOf e 63 || !inStore (collBase + off) (4 * len) then (none, r.2.2)
    else if len = 0 then (some none, r.2.2)
    else if 8 ≤ depth then (none, r.2.2)
    else (some (some { kind := .call, base := collBase + off, len := len, off := 0, more := 0, pbase := bits v 34 30, id := 0, sig := sig }), r.2.2)
  | 2 => (if depth = 0 then none else some none, s)
  | 3 =>
    let a := 64 * bits v 40 20
    let r := storeRead s b p q.val a 8 .ok .none
    let h := leNat r.1
    let len := bits h 31 0
    let count := bits v 56 41
    if bits h 39 32 ≠ 0xA5 || !inStore a (8 + 4 * len) then (none, r.2.2)
    else if len = 0 ∨ count = 0 then (some none, r.2.2)
    else if 8 ≤ depth then (none, r.2.2)
    else (some (some { kind := .replay, base := a + 8, len := len, off := 0, more := count - 1, pbase := bits v 61 57, id := 0, sig := sig }), r.2.2)
  | 6 =>
    let a := 64 * bits v 40 20
    let n := 8 + 4 * bits v 60 41
    (if depth ≠ 0 ∨ u.recording.isSome ∨ !storeWritable a n then none else some none, s)
  | 7 => (if u.recording.isNone then none else some none, s)
  | _ => (some none, s)

/-- R174: the head word is checked in full before any slot issues: refused, or ready to issue; a word without slots retires at once. -/
def headCheck (s : State) (b : BayId) (q : QueueId) : State :=
  match (queueOf s b q).decoded with
  | [] => s
  | d :: rest =>
    if d.checked then s
    else match d.bad with
    | some e => wordRefuse s b q e.1 e.2 d.addr d.ring
    | none =>
      let r := match d.slot 0 with | some v => ctlPlan s b q v | none => (some none, s)
      match r.1 with
      | none => wordRefuse r.2 b q 17 0 d.addr d.ring
      | some f =>
        let s := modQueue r.2 b q (fun u => { u with decoded := { d with checked := true, opens := f } :: rest })
        if (List.range 6).any d.open_ then s else headRetire s b q

/-- The head words are checked as far as they retire without slots. -/
def headPump (s : State) (b : BayId) (q : QueueId) : State :=
  (List.range 4).foldl (fun s _ => if pgState s (.issue b) = 4 then headCheck s b q else s) s

/-! ### Slots. -/

/-- R169: the matrix operation of an MTX slot. -/
def mtxOf (v : Nat) : MtxOp := {
  op := BitVec.ofNat 4 (bits v 19 16), la := BitVec.ofNat 3 (bits v 22 20), gang := BitVec.ofNat 2 (bits v 24 23),
  start := BitVec.ofNat 2 (bits v 26 25), wb := bitOf v 27, kb := BitVec.ofNat 11 (bits v 38 28), mfd := BitVec.ofNat 8 (bits v 46 39),
  aAddr := BitVec.ofNat 21 (bits v 67 47), bAddr := BitVec.ofNat 21 (bits v 88 68), cAddr := BitVec.ofNat 21 (bits v 109 89),
  salt := BitVec.ofNat 16 (bits v 125 110) }

/-- R170: the pass of a VEC slot. -/
def vecOpOf (v : Nat) : VecOp := {
  op := BitVec.ofNat 4 (bits v 19 16), vpd := BitVec.ofNat 8 (bits v 27 20), n := BitVec.ofNat 24 (bits v 51 28),
  in0 := BitVec.ofNat 21 (bits v 72 52), out0 := BitVec.ofNat 21 (bits v 93 73) }

/-- R171: the mover operation of a MOV slot. -/
def movOpOf (v : Nat) (payload : List Byte) : MovOp := {
  asel := BitVec.ofNat 2 (bits v 23 22), di := BitVec.ofNat 10 (bits v 33 24), space := bitOf v 43,
  addr := BitVec.ofNat 64 (bits v 127 64), payload := payload }

/-- R172: the gather of a GTH slot. -/
def gthOpOf (v : Nat) : GthOp := {
  op := BitVec.ofNat 4 (bits v 19 16), afs := BitVec.ofNat 3 (bits v 23 21), di := BitVec.ofNat 10 (bits v 33 24),
  count := BitVec.ofNat 24 (bits v 57 34), dst := BitVec.ofNat 21 (bits v 78 58) }

/-- A MOV slot reaches its mover: R234, R237, or a refusal by R236 (where a reserved bit is set, DETAIL's low byte is open: a free value). -/
def movSlot (s : State) (b : BayId) (v : Nat) (payload : List Byte) (src : OpSrc) (sig : BitVec 8) : State :=
  let m : Fin 4 := ⟨bits v 21 20 % 4, Nat.mod_lt _ (by decide)⟩
  let op := movOpOf v payload
  if bits v 63 44 ≠ 0 then let f := fresh s; movRefuse f.2 b m op src 17 (f.1.toNat % 256)
  else if bits v 19 16 = 1 then movDescIssue s b m op src sig
  else if bits v 19 16 = 2 then movInlineIssue s b m op src sig
  else movRefuse s b m op src 17 0x40

/-- A GTH slot reaches its engine: R242, or a refusal by R246. -/
def gthSlot (s : State) (b : BayId) (v : Nat) (src : OpSrc) (sig : BitVec 8) : State :=
  let g : Fin 2 := ⟨bits v 20 20 % 2, Nat.mod_lt _ (by decide)⟩
  if bits v 95 79 ≠ 0 then let f := fresh s; gthRefuse f.2 b g (gthOpOf v) src (f.1.toNat % 256)
  else gatherIssue s b g (gthOpOf v) src sig none

/-- R195, R200: LAUNCH enters the launch queue; one of no threads completes at once. -/
def launchIssue (s : State) (b : BayId) (src : OpSrc) (v : Nat) (sig : BitVec 8) : State :=
  let desc := bits v 40 20
  let r := storeRead s b (.tgu b) 0 (64 * desc) 64 .ok .none
  if fieldAt r.1 8 4 = 0 then signal r.2.2 b sig.toNat
  else
    let n := newOp r.2.2 b src sig 1
    tguCount (modBay n.2 b (fun y => { y with tgu := { y.tgu with queue := y.tgu.queue ++ [
      { id := n.1, desc := desc, bytes := r.1, q := src, sig := sig }] } })) b

/-- Whether the engine of slot `i` completes the handshake now (R121, R163, R173, R195). -/
def slotAccepts (s : State) (b : BayId) (q : QueueId) (i v : Nat) : Bool :=
  match i with
  | 0 => bits v 19 16 != 4 || (pgState s (.tgu b) == 4 && decide ((bayOf s b).tgu.queue.length < 4))
  | 1 => mmaAccepts s b (mtxOf v)
  | 2 => vecAccepts s b
  | 3 => movAccepts s b ⟨bits v 21 20 % 4, Nat.mod_lt _ (by decide)⟩
  | 4 => gthAccepts s b ⟨bits v 20 20 % 2, Nat.mod_lt _ (by decide)⟩
  | _ => bits v 19 16 != 5 || !queueBusy s b q

/-- R179: ENDREC writes the list header and ends the recording. -/
def recEnd (s : State) (b : BayId) (q : QueueId) : State :=
  match (queueOf s b q).recording with
  | none => s
  | some r => storeWrite (modQueue s b q (fun u => { u with recording := none })) b (64 * r.list) (toLE 4 r.copied ++ [0xA5, 0, 0, 0]) false

/-- R168: what a CTL slot does at its handshake. -/
def ctlGo (s : State) (b : BayId) (q : QueueId) (v : Nat) : State :=
  let sig := BitVec.ofNat 8 (bits v 15 8)
  let fin := fun (s : State) => signal s b sig.toNat
  let head := fun (s : State) (f : Decoded → Decoded) => modQueue s b q (fun u => { u with decoded := match u.decoded with | d :: r => f d :: r | [] => [] })
  let opens := ((queueOf s b q).decoded.head?.bind (·.opens)).isSome
  match bits v 19 16 with
  | 2 => fin (head s (fun d => { d with ends := true }))
  | 4 => launchIssue s b (.queue q) v sig
  | 5 =>
    let p := Page.issue b
    fin (setEvt (wrapAdd (wr s p issNotifyCode (bits v 27 20)) p issNotifyCount 1) p 16)
  | 6 => fin (modQueue s b q (fun u => { u with recording := some { list := bits v 40 20, maxw := bits v 60 41, copied := 0 } }))
  | 7 => fin (recEnd s b q)
  | _ =>
    if opens then
      let n := newOp s b (.queue q) sig 1
      head n.2 (fun d => { d with opens := d.opens.map (fun f => { f with id := n.1 }) })
    else fin s

/-- R173: what a SYN slot does at its handshake, its SIG last. -/
def synGo (s : State) (b : BayId) (v : Nat) : State :=
  let c := bits v 23 20
  let s := match bits v 19 16 with
    | 1 => cntAdd s b c (bits v 55 24)
    | 2 => cntSet s b c (bits v 55 24)
    | 3 => flagClear s b (bits v 25 20)
    | 4 => flagSignal s b (bits v 25 20)
    | _ => s
  signal s b (bits v 15 8)

/-- The issue handshake of slot `i` with value `v`. -/
def slotTake (s : State) (b : BayId) (q : QueueId) (d : Decoded) (i v : Nat) : State :=
  let sig := BitVec.ofNat 8 (bits v 15 8)
  match i with
  | 0 => ctlGo s b q v
  | 1 => mmaIssue s b (mtxOf v) (.queue q) sig
  | 2 => passIssue s b (vecOpOf v) q sig
  | 3 => movSlot s b v d.payload (.queue q) sig
  | 4 => gthSlot s b v (.queue q) sig
  | _ => synGo s b v

/-- A list with entry `i` true. -/
def markAt (l : List Bool) (i : Nat) : List Bool := (List.range 6).map (fun k => l.getD k false || k == i)

/-- R163: slot `i` of the head word of queue q offers itself: its word's place in the order of decodes, and its value. -/
def slotOffers (s : State) (b : BayId) (q : QueueId) (i : Nat) : Option (Nat × Nat) :=
  match (queueOf s b q).decoded with
  | [] => none
  | d :: _ => if d.checked ∧ d.open_ i ∧ !slotHeld s b d i then some (d.seq, (d.slot i).getD 0) else none

/-- R163: two slots with number `i` and values v and w name the same engine. -/
def sameEngine (i v w : Nat) : Bool :=
  match i with
  | 0 => bits v 19 16 == 4 && bits w 19 16 == 4
  | 1 => (gangOf (mtxOf v)).any (fun a => (gangOf (mtxOf w)).contains a)
  | 2 => true
  | 3 => bits v 21 20 == bits w 21 20
  | 4 => bits v 20 20 == bits w 20 20
  | _ => false

/-- R163: no other queue's slot goes before slot `i` with value `v` of queue q, decoded as word `n` of the bay, to the same engine: the word
decoded first goes first, then the lower-numbered queue. -/
def slotFirst (s : State) (b : BayId) (q : QueueId) (i n v : Nat) : Bool :=
  (List.finRange 4).all (fun r => r == q || match slotOffers s b r i with
    | none => true
    | some (m, w) => !sameEngine i v w || !slotAccepts s b r i w || decide (n < m ∨ (n = m ∧ q < r)))

/-- R175: slots whose wait flag `f` could satisfy, as (place in the order of decodes, queue, slot). -/
def flagWaiters (s : State) (b : BayId) (f : Nat) : List (Nat × Nat × Nat) :=
  if pgState s (.issue b) ≠ 4 then []
  else (List.finRange 4).flatMap (fun q => match (queueOf s b q).decoded with
    | [] => []
    | d :: _ => (List.range 6).filterMap (fun i =>
      let w := (d.slot i).getD 0 % 256
      if d.checked ∧ d.open_ i ∧ !d.taken.getD i false ∧ byteV w ∧ !byteK w ∧ byteIdx w = f then some (d.seq, q.val, i) else none))

/-- R175: of the waits that one flag could satisfy, that of slot `i` with WAIT byte `w` comes first: the earliest-decoded word, then the
lower-numbered queue, then the lower-numbered slot. -/
def flagFirst (s : State) (b : BayId) (q : QueueId) (i n w : Nat) : Bool :=
  !byteV w || byteK w || (flagWaiters s b (byteIdx w)).all (fun x =>
    decide (n < x.1 ∨ (n = x.1 ∧ (q.val < x.2.1 ∨ (q.val = x.2.1 ∧ i ≤ x.2.2)))))

/-- R163, R175: slot `i` of the head word: its WAIT is satisfied and consumed, then its handshake completes once its engine accepts; the word
retires with its last slot. -/
def slotGo (s : State) (b : BayId) (q : QueueId) (i : Nat) : State :=
  let s := headPump s b q
  match (queueOf s b q).decoded with
  | [] => s
  | d :: _ =>
    let v := (d.slot i).getD 0
    if pgState s (.issue b) ≠ 4 ∨ !d.checked ∨ !d.open_ i ∨ slotHeld s b d i ∨
        (!d.taken.getD i false ∧ !flagFirst s b q i d.seq (v % 256)) then s
    else
      let set := fun (s : State) (f : Decoded → Decoded) => modQueue s b q (fun u => { u with decoded := match u.decoded with | d :: r => f d :: r | [] => [] })
      let s := if d.taken.getD i false then s else set (waitTake s b (v % 256)) (fun d => { d with taken := markAt d.taken i })
      if !slotAccepts s b q i v ∨ !slotFirst s b q i d.seq v then s
      else
        let s := set (slotTake s b q d i v) (fun d => { d with issued := markAt d.issued i })
        match (queueOf s b q).decoded with
        | d :: _ => if (List.range 6).any d.open_ then s else headPump (headRetire s b q) b q
        | [] => s

/-- SLOT_ISSUE. `u`: what SECDED finds in the bay-store lines that the handshake reads (a descriptor, a list's header, a directory entry). -/
def execSlotIssue (b : BayId) (q : QueueId) (slot : Fin 6) (u : Upset) (s : State) : Out := .next (slotGo (storeUpset s b u) b q slot.val)

/-- A command that names the operation of the head word's CTL (slot 0) or SYN (slot 5) slot. -/
def ctlSlot (s : State) (b : BayId) (q : QueueId) (slot op : Nat) : State :=
  match (queueOf s b q).decoded.head?.bind (fun d => d.slot slot) with
  | some v => if bits v 19 16 = op then slotGo s b q slot else s
  | none => s

/-- CTL NOP. -/
def execCtlNop (b : BayId) (q : QueueId) (s : State) : Out := .next (ctlSlot s b q 0 0)
/-- CALL. -/
def execCall (b : BayId) (q : QueueId) (s : State) : Out := .next (ctlSlot s b q 0 1)
/-- RET. -/
def execRet (b : BayId) (q : QueueId) (s : State) : Out := .next (ctlSlot s b q 0 2)
/-- REPLAY. -/
def execReplay (b : BayId) (q : QueueId) (s : State) : Out := .next (ctlSlot s b q 0 3)
/-- LAUNCH. -/
def execLaunch (b : BayId) (q : QueueId) (s : State) : Out := .next (ctlSlot s b q 0 4)
/-- NOTIFY. -/
def execNotify (b : BayId) (q : QueueId) (s : State) : Out := .next (ctlSlot s b q 0 5)
/-- RECORD. -/
def execRecord (b : BayId) (q : QueueId) (s : State) : Out := .next (ctlSlot s b q 0 6)
/-- ENDREC. -/
def execEndrec (b : BayId) (q : QueueId) (s : State) : Out := .next (ctlSlot s b q 0 7)
/-- SYN NOP. -/
def execSynNop (b : BayId) (q : QueueId) (s : State) : Out := .next (ctlSlot s b q 5 0)
/-- CADD. -/
def execCadd (b : BayId) (q : QueueId) (s : State) : Out := .next (ctlSlot s b q 5 1)
/-- CSET. -/
def execCset (b : BayId) (q : QueueId) (s : State) : Out := .next (ctlSlot s b q 5 2)
/-- FCLR. -/
def execFclr (b : BayId) (q : QueueId) (s : State) : Out := .next (ctlSlot s b q 5 3)
/-- FSET. -/
def execFset (b : BayId) (q : QueueId) (s : State) : Out := .next (ctlSlot s b q 5 4)
/-- DRAIN. -/
def execDrain (b : BayId) (q : QueueId) (s : State) : Out := .next (ctlSlot s b q 5 5)

/-- FRAME_RETURN (R178): the body has been issued COUNT times. -/
def execFrameReturn (b : BayId) (q : QueueId) (s : State) : Out :=
  let u := queueOf s b q
  match u.frames with
  | f :: _ => .next (if pgState s (.issue b) = 4 ∧ u.decoded.isEmpty ∧ f.off = f.len ∧ f.more = 0 then
      modQueue (framePop s b q) b q frameLoop else s)
  | [] => .next s

/-! ### Words enter and are decoded. -/

/-- R161: the 32-bit words that a queue holds at depth 0. -/
def queueHolds (u : IssQueue) : Nat :=
  (u.words.map (·.2.length)).foldl (· + ·) 0 + (if u.frames.isEmpty then (u.decoded.map (·.raw.length)).foldl (· + ·) 0 else 0)

/-- R161: room for `n` more of the 512 words. -/
def queueRoom (s : State) (b : BayId) (q : QueueId) (n : Nat) : Bool := decide (queueHolds (queueOf s b q) + n ≤ 512)

/-- R160, R189: the position of the word pushed last: the value that QSEQ will have once it has retired (DEDUCED, log 42). -/
def queuePos (s : State) (b : BayId) (q : QueueId) : Nat :=
  let u := queueOf s b q
  (rd s (.issue b) (issQQseq q.val) + u.words.length + (if u.frames.isEmpty then u.decoded.length else 0)) % 2 ^ 32

/-- A word enters the queue. -/
def queuePut (s : State) (b : BayId) (q : QueueId) (addr : Option (BitVec 64)) (ws : List (BitVec 32)) : State :=
  modQueue s b q (fun u => { u with words := u.words ++ [(addr, ws)] })

/-- 32-bit words of a byte string. -/
def wordsOf (d : List Byte) (n : Nat) : List (BitVec 32) := (List.range n).map (fun i => BitVec.ofNat 32 (fieldAt d (4 * i) 4))

/-- R163: words behind this one may not be decoded yet: it changes the frame or the recording, or is refused. -/
def Decoded.blocks (d : Decoded) : Bool :=
  d.bad.isSome || (match d.slot 0 with | some v => [1, 2, 3, 6, 7].contains (bits v 19 16) | none => false)

/-- The next word of a queue at its depth: its words, its address, whether it runs past its body's end; and the state past it. -/
def nextWord (s : State) (b : BayId) (q : QueueId) : Option (List (BitVec 32) × Option (BitVec 64) × Bool × State) :=
  let u := queueOf s b q
  match u.frames with
  | f :: r =>
    if f.len ≤ f.off then none
    else
      let a := f.base + 4 * f.off
      let h := storeRead s b (.issue b) q.val a 4 .ok .none
      let n := wordLen (leNat h.1)
      let k := min n (f.len - f.off)
      let d := storeRead h.2.2 b (.issue b) q.val a (4 * k) .ok .none
      some (wordsOf d.1 k, some (BitVec.ofNat 64 a), decide (k < n),
        modQueue d.2.2 b q (fun u => { u with frames := { f with off := f.off + k } :: r }))
  | [] => match u.words with
    | w :: r => some (w.2, w.1, false, setQueue s b q { u with words := r })
    | [] => none

/-- R179: a word is copied to the list, or refused. -/
def recCopy (s : State) (b : BayId) (q : QueueId) (r : Recording) (raw : List (BitVec 32)) (addr : Option (BitVec 64)) : State :=
  let ring := addr.isSome
  if bits (wAt raw 0) 23 20 ≠ 0xA ∨ (layout raw).isNone then wordRefuse s b q 16 7 addr ring
  else if r.maxw < r.copied + raw.length then wordRefuse s b q 17 7 addr ring
  else
    let s := storeWrite s b (64 * r.list + 8 + 4 * r.copied) (raw.flatMap (fun w => toLE 4 w.toNat)) false
    wrapAdd (modQueue s b q (fun u => { u with recording := some { r with copied := r.copied + raw.length } })) (.issue b) (issQQseq q.val) 1

/-- WORD_DECODE (R163, R174, R177, R179). `u`: what SECDED finds in the words of a frame's body. -/
def execWordDecode (b : BayId) (q : QueueId) (u : Upset) (s : State) : Out :=
  let s := headPump (storeUpset s b u) b q
  let u := queueOf s b q
  if pgState s (.issue b) ≠ 4 ∨ 3 ≤ u.decoded.length ∨ u.decoded.any (·.blocks) then .next s
  else match nextWord s b q with
  | none => .next s
  | some (raw, addr, past, s) =>
    let base := (u.frames.map (·.pbase)).foldl (· + ·) 0
    let r := decodeWord raw (arrCount s b) (paramOf s b q) base
    let isRec := match layout raw with
      | some (_, (0, i) :: _) => [6, 7].contains (bits (wAt raw i) 19 16)
      | _ => false
    match u.recording, u.frames.isEmpty && !isRec with
    | some rc, true => .next (recCopy s b q rc raw addr)
    | _, _ =>
      let ring := addr.isSome && u.frames.isEmpty
      let d : Decoded := match r with
        | .inl x => { slots := x.1, thr := x.2.1, payload := x.2.2, raw := raw, addr := addr, ring := ring,
                      bad := if past then some (16, 7) else none, issued := [], seq := (bayOf s b).nextDec }
        | .inr e => { slots := [], thr := [], payload := [], raw := raw, addr := addr, ring := ring,
                      bad := some (if past then (16, 7) else e), issued := [], seq := (bayOf s b).nextDec }
      let s := modBay s b (fun y => { y with nextDec := y.nextDec + 1 })
      .next (headPump (modQueue s b q (fun u => { u with decoded := u.decoded ++ [d] })) b q)

/-- R251, R191: bytes of the ring read through the bay cache: wait, fault bits, or the bytes. -/
inductive RingRes where
  | ok (d : List Byte) | wait | fault (bits : List Nat)
deriving DecidableEq, Repr

/-- One 4-byte word of the ring at virtual address `va`, translated and read through the bay cache (class DOC). -/
def ringWord (s : State) (b : BayId) (va : Nat) (chk : Check) : RingRes × State :=
  match bayXlate s b 24 va .read with
  | (.wait, s) => (.wait, s)
  | (.fault, s) => (.fault [18], s)
  | (.ok pa, s) =>
    if !inDram s pa 4 then (.fault [18, 3], s)
    else if loadBusy s (bayDie b) (pa / 64) then (.wait, loadAsk s (pa / 64))
    else
      let old := linePoisoned s (pa / 64)
      let r := cohLoad s (bayAgent b) (.bcache b) 24 (pa / 64) chk
      if r.2.1 then (.fault (if !old && chk == .twice then [18, 4, 7] else [18, 7]), r.2.2)
      else (.ok (slice r.1 (pa % 64) 4), r.2.2)

/-- Words of the ring from position `c`, `n` of them. -/
def ringWords (b : BayId) (base size : Nat) (chk : Check) : Nat → Nat → List (BitVec 32) → State → (RingRes × List (BitVec 32)) × State
  | 0, _, acc, s => ((.ok [], acc), s)
  | n + 1, c, acc, s =>
    match ringWord s b ((base + 4 * (c % size)) % 2 ^ 64) chk with
    | (.ok d, s) => ringWords b base size chk n (c + 1) (acc ++ [BitVec.ofNat 32 (leNat d)]) s
    | (r, s) => ((r, acc), s)

/-- `n` free words, by the number of the use. -/
def freeWords (k n : Nat) : List (BitVec 32) :=
  (List.range n).map (fun i => BitVec.ofNat 32 (leNat ((List.range 4).map (fun j => Config.freeByte k (4 * i + j)))))

/-- RING_FETCH (R162, R191): the next word, once PROD covers it whole, is fetched and CONS advances; a fault is recorded with the word's
virtual address. While PROD − CONS exceeds RING_SIZE the
ring's contents are undefined: the words fetched are free (log 50). -/
def execRingFetch (b : BayId) (q : QueueId) (chk : Check) (s : State) : Out :=
  let p := Page.issue b
  let n := q.val
  let size := rd s p (issQRingSize n)
  let base := rd s p (issQRingBase n)
  let cons := rd s p (issQCons n)
  let have_ := (rd s p (issQProd n) + 2 ^ 32 - cons) % 2 ^ 32
  let at_ := base + 4 * (cons % size)
  let fail := fun (bs : List Nat) (s : State) =>
    .next (bs.foldl (fun s i => raise s p { bit := i, unit := n * 64 + 56, addr := some at_, va := true, stop := i == 18 || i == 3 }) s)
  if pgState s p ≠ 4 ∨ rd s p (issQQcfg n) = 0 ∨ have_ = 0 ∨ size = 0 then .next s
  else match ringWords b base size chk 1 cons [] s with
  | ((.fault bs, _), s) => fail bs s
  | ((.wait, _), s) => .next s
  | ((.ok _, h), s) =>
    let past := decide (size < have_)
    let k := s.freeCount
    let taken := fun (l : List (BitVec 32)) => if past then freeWords k l.length else l
    let s := if past then { s with freeCount := k + 1 } else s
    let len := wordLen (wAt (taken h) 0)
    if have_ < len ∨ !queueRoom s b q len then .next s
    else match ringWords b base size chk len cons [] s with
    | ((.fault bs, _), s) => fail bs s
    | ((.wait, _), s) => .next s
    | ((.ok _, ws), s) =>
      .next (wrapAdd (queuePut s b q (some (BitVec.ofNat 64 at_)) (taken ws)) p (issQCons n) len)

/-! ### Writes to the ISSUE and SYNC pages. -/

/-- R162: a write to DOORBELL, in every page state but ABSENT. -/
def doorbell (s : State) (b : BayId) (q : QueueId) (n : Nat) : State :=
  let p := Page.issue b
  if pgState s p = 0 ∨ n = 0 then s
  else
    let s := wrapAdd s p (issQProd q.val) n
    let past := (rd s p (issQProd q.val) + 2 ^ 32 - rd s p (issQCons q.val)) % 2 ^ 32
    if rd s p (issQRingSize q.val) < past then raise s p { bit := 19, unit := q.val } else s

/-- ISSUE_DOORBELL. -/
def execIssueDoorbell (b : BayId) (q : QueueId) (n : BitVec 32) (s : State) : Out := .next (doorbell s b q n.toNat)

/-- R183: the FIFO takes an entry. -/
def afPut (s : State) (b : BayId) (f : Nat) (v : BitVec 64) : State :=
  let l := mget [] (bayOf s b).afifo f ++ [v]
  wr (modBay s b (fun y => { y with afifo := mset [] y.afifo f l })) (.issue b) (issAfLevel f) l.length

/-- R183: whether the FIFO has room. -/
def afRoom (s : State) (b : BayId) (f : Nat) : Bool := decide ((mget [] (bayOf s b).afifo f).length < 256)

/-- R183: a DCS write to AFf_PUSH. -/
def afWrite (s : State) (b : BayId) (f size : Nat) (v : BitVec 64) : State :=
  if pgState s (.issue b) = 0 ∨ size ≠ 8 then s
  else if afRoom s b f then afPut s b f v
  else raise s (.issue b) { bit := 20, unit := f }

/-- AF_PUSH. -/
def execAfPush (b : BayId) (f : Fin 4) (size : Nat) (value : BitVec 64) (s : State) : Out := .next (afWrite s b f.val size value)

/-- R192: a DCS write to FSET signals flags. -/
def fsetWrite (s : State) (b : BayId) (mask : Nat) : State :=
  if pgState s (.sync b) = 0 then s
  else (List.range 64).foldl (fun s i => if bitOf mask i then flagSignal s b i else s) s

/-- SYNC_FSET. -/
def execSyncFset (b : BayId) (mask : BitVec 64) (s : State) : Out := .next (fsetWrite s b mask.toNat)

/-- R192: a DCS write to FCLR clears flags. -/
def fclrWrite (s : State) (b : BayId) (mask : Nat) : State :=
  if pgState s (.sync b) = 0 then s
  else (List.range 64).foldl (fun s i => if bitOf mask i then flagClear s b i else s) s

/-- SYNC_FCLR. -/
def execSyncFclr (b : BayId) (mask : BitVec 64) (s : State) : Out := .next (fclrWrite s b mask.toNat)

/-- CNT_WRITE (R192). -/
def execCntWrite (b : BayId) (n : Fin 16) (v : BitVec 32) (s : State) : Out :=
  .next (if pgState s (.sync b) = 0 then s else cntSet s b n.val v.toNat)

/-- CADD_WRITE (R192). -/
def execCaddWrite (b : BayId) (n : Fin 16) (v : BitVec 32) (s : State) : Out :=
  .next (if pgState s (.sync b) = 0 then s else cntAdd s b n.val v.toNat)

/-! ### The wait monitor. -/

/-- R185: the WAIT bytes of the slots that hold a queue's head word, where nothing else does. -/
def queueHeld (s : State) (b : BayId) (q : QueueId) : Option (List Nat) :=
  match (queueOf s b q).decoded with
  | [] => none
  | d :: _ =>
    let l := (List.range 6).filter d.open_
    if d.checked ∧ l ≠ [] ∧ l.all (slotHeld s b d) then some (l.map (fun i => (d.slot i).getD 0 % 256)) else none

/-- R185: an awaited index has a pending source. -/
def pendingSource (s : State) (b : BayId) (w : Nat) : Bool :=
  let same := fun (x : Nat) => byteV x && byteK x == byteK w && byteIdx x == byteIdx w
  (bayOf s b).ops.any (fun o => same o.sig.toNat) || (bayOf s b).tgu.blocks.any (fun x => x.2.isSome) ||
    (if byteK w then bitOf (rd s (.sync b) syncXarmC) (byteIdx w) else bitOf (rd s (.sync b) syncXarmF) (byteIdx w))

/-- R185: a quiet step: the held queues and the WAIT byte of a held docent. -/
def quiet (s : State) (b : BayId) : Option (List QueueId × Option (Nat × Nat)) :=
  let doc := (bayOf s b).doc.stall
  let docRuns := pgState s (.doc b) == 4
  let docW : Option (Nat × Nat) := match doc with
    | .wait w t => if docRuns && !waitOk s b w.toNat t.toNat then some (w.toNat, t.toNat) else none
    | _ => none
  let docOk := !docRuns || docW.isSome || (match doc with | .push .. => true | .afp .. => true | _ => false)
  let held := (List.finRange 4).filter (fun q => (queueHeld s b q).isSome)
  let waits := held.flatMap (fun q => (queueHeld s b q).getD []) ++ docW.toList.map (·.1)
  if pgState s (.issue b) = 4 ∧ held ≠ [] ∧ (List.finRange 4).all (fun q => held.contains q || queueEmpty s b q) ∧ docOk ∧
      waits.all (fun w => !pendingSource s b w) then some (held, docW) else none

/-- DEADLOCK_DECLARED (R186): the 4,096th consecutive quiet step. -/
def execDeadlockDeclared (b : BayId) (s : State) : Out :=
  match quiet s b with
  | none => .next s
  | some (held, docW) =>
    let p := Page.issue b
    let mask := held.foldl (fun v q => v + 2 ^ q.val) 0
    let s := issueShow s b
    let s := wr (wr (wr s p issDlockQmask mask) p issDlockDoc (b2n docW.isSome)) p issDlockDeclared 1
    let s := raise s p { bit := 5, unit := mask + 16 * b2n docW.isSome, stop := true }
    let s := match docW with
      | some (w, t) =>
        let s := wr (wr s (.doc b) docAwait w) (.doc b) docAwaitThr t
        let s := raise s (.doc b) { bit := 5, stop := true }
        wr (modBay s b (fun y => { y with doc := { y.doc with stall := .none } })) (.doc b) docStatusWaiting 0
      | none => s
    .next (setEvt s p 17)

end Sys2Proof.Machine
end

