-- ==== Sys2Proof/Machine/Rv64.lean ====
section
/-! DEFINITION. RISC-V instructions as the docents (R157 to R159: RV64IMC), the threads (R194: RV64IMAFD) and the cores (R20: RVA23) run
them: expansion of compressed words, decoding, and what an instruction does, over register values given as functions. The spec takes these
meanings from the RISC-V specifications (PRESUMED, log 40). -/

namespace Sys2Proof.Machine

/-- What a hart offers: A, F and D, Zicsr, the compressed words, and the RVA23 additions (Zba, Zbb, Zbs, Zicond, Zimop, Zcb, CBO, the
system instructions), and whether a signalling NaN differs from a quiet one (R73: not in a thread group). -/
structure Isa where
  a : Bool
  fd : Bool
  csr : Bool
  c : Bool
  rva : Bool
  sn : Bool
deriving DecidableEq, Repr

/-- R157: RV64IMC. -/
def isaDoc : Isa := ⟨false, false, false, true, false, false⟩
/-- R194: RV64IMAFD with the CSR instructions. -/
def isaThread : Isa := ⟨true, true, true, false, false, false⟩
/-- R20: RVA23. -/
def isaCore : Isa := ⟨true, true, true, true, true, true⟩

/-- What one instruction does. `fwr` and `xwr` carry the exception flags that accrue. -/
inductive Act where
  | illegal
  | xwr (rd : Nat) (v : BitVec 64) (flags : Nat)
  | fwr (rd : Nat) (v : BitVec 64) (flags : Nat)
  | jump (rd : Nat) (target : BitVec 64)
  | branch (taken : Bool) (target : BitVec 64)
  | load (rd : Nat) (addr : BitVec 64) (size : Nat) (signed fp : Bool)
  | store (addr : BitVec 64) (size : Nat) (v : BitVec 64)
  | lr (rd : Nat) (addr : BitVec 64) (size : Nat)
  | sc (rd : Nat) (addr : BitVec 64) (size : Nat) (v : BitVec 64)
  | amo (rd : Nat) (addr : BitVec 64) (size op : Nat) (v : BitVec 64)
  | fence
  | csr (rd op num : Nat) (src : BitVec 64) (writes : Bool)
  | ecall | ebreak | mret | sret | wfi | sfence
  | cbo (kind : Nat) (addr : BitVec 64)
  | custom0 | custom1
deriving DecidableEq, Repr

/-- A `w`-bit pattern sign-extended to 64 bits. -/
def sx64 (w v : Nat) : BitVec 64 := BitVec.ofInt 64 (toInt w v)

/-! ### Compressed words. -/

/-- An I-type word. -/
def encI (op f3 rd rs1 imm : Nat) : Nat := op + rd * 2 ^ 7 + f3 * 2 ^ 12 + rs1 * 2 ^ 15 + imm % 4096 * 2 ^ 20
/-- An R-type word. -/
def encR (op f3 f7 rd rs1 rs2 : Nat) : Nat := op + rd * 2 ^ 7 + f3 * 2 ^ 12 + rs1 * 2 ^ 15 + rs2 * 2 ^ 20 + f7 * 2 ^ 25
/-- An S-type word. -/
def encS (op f3 rs1 rs2 imm : Nat) : Nat :=
  op + imm % 32 * 2 ^ 7 + f3 * 2 ^ 12 + rs1 * 2 ^ 15 + rs2 * 2 ^ 20 + imm % 4096 / 32 * 2 ^ 25
/-- A B-type word. -/
def encB (f3 rs1 rs2 imm : Nat) : Nat :=
  0x63 + bits imm 11 11 * 2 ^ 7 + bits imm 4 1 * 2 ^ 8 + f3 * 2 ^ 12 + rs1 * 2 ^ 15 + rs2 * 2 ^ 20 + bits imm 10 5 * 2 ^ 25 +
    bits imm 12 12 * 2 ^ 31
/-- A JAL word. -/
def encJ (rd imm : Nat) : Nat :=
  0x6F + rd * 2 ^ 7 + bits imm 19 12 * 2 ^ 12 + bits imm 11 11 * 2 ^ 20 + bits imm 10 1 * 2 ^ 21 + bits imm 20 20 * 2 ^ 31

/-- A `w`-bit signed field as a 21-bit pattern. -/
def sext21 (w v : Nat) : Nat := ofInt 21 (toInt w v)

/-- Quadrant 0. -/
def cQuad0 (isa : Isa) (c : Nat) : Option Nat :=
  let rd := 8 + bits c 4 2
  let rs := 8 + bits c 9 7
  let uw := bits c 12 10 * 8 + bits c 6 6 * 4 + bits c 5 5 * 64
  let ud := bits c 12 10 * 8 + bits c 6 5 * 64
  match bits c 15 13 with
  | 0 =>
    let imm := bits c 12 11 * 16 + bits c 10 7 * 64 + bits c 6 6 * 4 + bits c 5 5 * 8
    if imm = 0 then none else some (encI 0x13 0 rd 2 imm)
  | 1 => if isa.fd then some (encI 0x07 3 rd rs ud) else none
  | 2 => some (encI 0x03 2 rd rs uw)
  | 3 => some (encI 0x03 3 rd rs ud)
  | 4 =>
    if !isa.rva then none
    else match bits c 12 10 with
      | 0 => some (encI 0x03 4 rd rs (bits c 6 6 + bits c 5 5 * 2))
      | 1 => some (encI 0x03 (if bitOf c 6 then 1 else 5) rd rs (bits c 5 5 * 2))
      | 2 => some (encS 0x23 0 rs rd (bits c 6 6 + bits c 5 5 * 2))
      | 3 => if bitOf c 6 then none else some (encS 0x23 1 rs rd (bits c 5 5 * 2))
      | _ => none
  | 5 => if isa.fd then some (encS 0x27 3 rs rd ud) else none
  | 6 => some (encS 0x23 2 rs rd uw)
  | _ => some (encS 0x23 3 rs rd ud)

/-- Quadrant 1, MISC-ALU. -/
def cMisc (isa : Isa) (c : Nat) : Option Nat :=
  let rd := 8 + bits c 9 7
  let rs2 := 8 + bits c 4 2
  let sh := bits c 12 12 * 32 + bits c 6 2
  match bits c 11 10 with
  | 0 => some (encI 0x13 5 rd rd sh)
  | 1 => some (encI 0x13 5 rd rd (0x400 + sh))
  | 2 => some (encI 0x13 7 rd rd (ofInt 12 (toInt 6 sh)))
  | _ =>
    match bits c 12 12 * 4 + bits c 6 5 with
    | 0 => some (encR 0x33 0 0x20 rd rd rs2)
    | 1 => some (encR 0x33 4 0 rd rd rs2)
    | 2 => some (encR 0x33 6 0 rd rd rs2)
    | 3 => some (encR 0x33 7 0 rd rd rs2)
    | 4 => some (encR 0x3B 0 0x20 rd rd rs2)
    | 5 => some (encR 0x3B 0 0 rd rd rs2)
    | 6 => if isa.rva then some (encR 0x33 0 1 rd rd rs2) else none
    | _ =>
      if !isa.rva then none
      else match bits c 4 2 with
        | 0 => some (encI 0x13 7 rd rd 0xFF)
        | 1 => some (encI 0x13 1 rd rd 0x604)
        | 2 => some (encR 0x3B 4 4 rd rd 0)
        | 3 => some (encI 0x13 1 rd rd 0x605)
        | 4 => some (encR 0x3B 0 4 rd rd 0)
        | 5 => some (encI 0x13 4 rd rd 0xFFF)
        | _ => none

/-- Quadrant 1. -/
def cQuad1 (isa : Isa) (c : Nat) : Option Nat :=
  let rd := bits c 11 7
  let imm := ofInt 12 (toInt 6 (bits c 12 12 * 32 + bits c 6 2))
  let zero := bits c 12 12 * 32 + bits c 6 2 = 0
  let j := sext21 12 (bits c 12 12 * 2048 + bits c 11 11 * 16 + bits c 10 9 * 256 + bits c 8 8 * 1024 + bits c 7 7 * 64 + bits c 6 6 * 128 +
    bits c 5 3 * 2 + bits c 2 2 * 32)
  let bo := sext21 9 (bits c 12 12 * 256 + bits c 11 10 * 8 + bits c 6 5 * 64 + bits c 4 3 * 2 + bits c 2 2 * 32)
  match bits c 15 13 with
  | 0 => some (encI 0x13 0 rd rd imm)
  | 1 => if rd = 0 then none else some (encI 0x1B 0 rd rd imm)
  | 2 => some (encI 0x13 0 rd 0 imm)
  | 3 =>
    if rd = 2 then
      let i := bits c 12 12 * 512 + bits c 6 6 * 16 + bits c 5 5 * 64 + bits c 4 3 * 128 + bits c 2 2 * 32
      if i = 0 then none else some (encI 0x13 0 2 2 (ofInt 12 (toInt 10 i)))
    else if zero then (if isa.rva ∧ rd % 2 = 1 ∧ rd < 16 then some (encI 0x13 0 0 0 0) else none)
    else some (0x37 + rd * 2 ^ 7 + ofInt 20 (toInt 6 (bits c 12 12 * 32 + bits c 6 2)) * 2 ^ 12)
  | 4 => cMisc isa c
  | 5 => some (encJ 0 j)
  | 6 => some (encB 0 (8 + bits c 9 7) 0 bo)
  | _ => some (encB 1 (8 + bits c 9 7) 0 bo)

/-- Quadrant 2. -/
def cQuad2 (isa : Isa) (c : Nat) : Option Nat :=
  let rd := bits c 11 7
  let rs2 := bits c 6 2
  let lw := bits c 12 12 * 32 + bits c 6 4 * 4 + bits c 3 2 * 64
  let ld := bits c 12 12 * 32 + bits c 6 5 * 8 + bits c 4 2 * 64
  let sd := bits c 12 10 * 8 + bits c 9 7 * 64
  match bits c 15 13 with
  | 0 => some (encI 0x13 1 rd rd (bits c 12 12 * 32 + bits c 6 2))
  | 1 => if isa.fd then some (encI 0x07 3 rd 2 ld) else none
  | 2 => if rd = 0 then none else some (encI 0x03 2 rd 2 lw)
  | 3 => if rd = 0 then none else some (encI 0x03 3 rd 2 ld)
  | 4 =>
    if bitOf c 12 then
      if rd = 0 ∧ rs2 = 0 then some 0x00100073
      else if rs2 = 0 then some (encI 0x67 0 1 rd 0)
      else some (encR 0x33 0 0 rd rd rs2)
    else if rs2 = 0 then (if rd = 0 then none else some (encI 0x67 0 0 rd 0))
    else some (encR 0x33 0 0 rd 0 rs2)
  | 5 => if isa.fd then some (encS 0x27 3 2 rs2 sd) else none
  | 6 => some (encS 0x23 2 2 rs2 (bits c 12 9 * 4 + bits c 8 7 * 64))
  | _ => some (encS 0x23 3 2 rs2 sd)

/-- A compressed word as the 32-bit word that it stands for; none where it is illegal. -/
def cExpand (isa : Isa) (c : Nat) : Option Nat :=
  match c % 4 with
  | 0 => cQuad0 isa c
  | 1 => cQuad1 isa c
  | _ => cQuad2 isa c

/-! ### Integer operations. -/

/-- Number of leading zeros of a `w`-bit pattern. -/
def clzN (w v : Nat) : Nat := if v = 0 then w else w - 1 - Nat.log2 v
/-- Number of trailing zeros of a `w`-bit pattern. -/
def ctzN (w v : Nat) : Nat := ((List.range w).find? (fun i => bitOf v i)).getD w
/-- Number of one bits of a `w`-bit pattern. -/
def popN (w v : Nat) : Nat := ((List.range w).filter (fun i => bitOf v i)).length

/-- Signed quotient, RISC-V corners: by zero −1, overflow the dividend. -/
def sdiv (w : Nat) (a b : Nat) : Nat :=
  if b % 2 ^ w = 0 then 2 ^ w - 1 else ofInt w (Int.tdiv (toInt w a) (toInt w b))
/-- Signed remainder: by zero the dividend. -/
def srem (w : Nat) (a b : Nat) : Nat := if b % 2 ^ w = 0 then a % 2 ^ w else ofInt w (Int.tmod (toInt w a) (toInt w b))
/-- Unsigned quotient. -/
def udivN (w : Nat) (a b : Nat) : Nat := if b % 2 ^ w = 0 then 2 ^ w - 1 else a % 2 ^ w / (b % 2 ^ w)
/-- Unsigned remainder. -/
def uremN (w : Nat) (a b : Nat) : Nat := if b % 2 ^ w = 0 then a % 2 ^ w else a % 2 ^ w % (b % 2 ^ w)

/-- OP with funct7 = 1. -/
def mulOp (f3 : Nat) (a b : BitVec 64) : BitVec 64 :=
  match f3 with
  | 0 => a * b
  | 1 => BitVec.ofInt 64 (a.toInt * b.toInt / 2 ^ 64)
  | 2 => BitVec.ofInt 64 (a.toInt * (b.toNat : Int) / 2 ^ 64)
  | 3 => BitVec.ofNat 64 (a.toNat * b.toNat / 2 ^ 64)
  | 4 => BitVec.ofNat 64 (sdiv 64 a.toNat b.toNat)
  | 5 => BitVec.ofNat 64 (udivN 64 a.toNat b.toNat)
  | 6 => BitVec.ofNat 64 (srem 64 a.toNat b.toNat)
  | _ => BitVec.ofNat 64 (uremN 64 a.toNat b.toNat)

/-- A rotation to the right. -/
def ror (w v n : Nat) : Nat := (v / 2 ^ (n % w) + v * 2 ^ (w - n % w)) % 2 ^ w

/-- OP (64 bits). -/
def opR (rva : Bool) (f7 f3 : Nat) (a b : BitVec 64) : Option (BitVec 64) :=
  let sh := b.toNat % 64
  if f7 = 1 then some (mulOp f3 a b)
  else match f7, f3 with
  | 0x00, 0 => some (a + b)
  | 0x20, 0 => some (a - b)
  | 0x00, 1 => some (a <<< sh)
  | 0x00, 2 => some (BitVec.ofNat 64 (b2n (decide (a.toInt < b.toInt))))
  | 0x00, 3 => some (BitVec.ofNat 64 (b2n (decide (a.toNat < b.toNat))))
  | 0x00, 4 => some (a ^^^ b)
  | 0x00, 5 => some (a >>> sh)
  | 0x20, 5 => some (a.sshiftRight sh)
  | 0x00, 6 => some (a ||| b)
  | 0x00, 7 => some (a &&& b)
  | _, _ =>
    if !rva then none
    else match f7, f3 with
    | 0x20, 7 => some (a &&& ~~~b)
    | 0x20, 6 => some (a ||| ~~~b)
    | 0x20, 4 => some (~~~(a ^^^ b))
    | 0x10, 2 => some ((a <<< 1) + b)
    | 0x10, 4 => some ((a <<< 2) + b)
    | 0x10, 6 => some ((a <<< 3) + b)
    | 0x05, 4 => some (if a.toInt < b.toInt then a else b)
    | 0x05, 5 => some (if a.toNat < b.toNat then a else b)
    | 0x05, 6 => some (if a.toInt < b.toInt then b else a)
    | 0x05, 7 => some (if a.toNat < b.toNat then b else a)
    | 0x30, 1 => some (BitVec.ofNat 64 (ror 64 a.toNat (64 - sh)))
    | 0x30, 5 => some (BitVec.ofNat 64 (ror 64 a.toNat sh))
    | 0x24, 1 => some (BitVec.ofNat 64 (clrBit a.toNat sh))
    | 0x24, 5 => some (BitVec.ofNat 64 (b2n (bitOf a.toNat sh)))
    | 0x34, 1 => some (a ^^^ (1#64 <<< sh))
    | 0x14, 1 => some (a ||| (1#64 <<< sh))
    | 0x07, 5 => some (if b = 0 then 0 else a)
    | 0x07, 7 => some (if b = 0 then a else 0)
    | _, _ => none

/-- OP-32. -/
def opRW (rva : Bool) (f7 f3 rs2 : Nat) (a b : BitVec 64) : Option (BitVec 64) :=
  let x := a.toNat % 2 ^ 32
  let y := b.toNat % 2 ^ 32
  let sh := y % 32
  match f7, f3 with
  | 0x00, 0 => some (sx64 32 (x + y))
  | 0x20, 0 => some (sx64 32 (x + 2 ^ 32 - y))
  | 0x00, 1 => some (sx64 32 (x * 2 ^ sh))
  | 0x00, 5 => some (sx64 32 (x / 2 ^ sh))
  | 0x20, 5 => some (BitVec.ofInt 64 (toInt 32 x / 2 ^ sh))
  | 0x01, 0 => some (sx64 32 (x * y))
  | 0x01, 4 => some (sx64 32 (sdiv 32 x y))
  | 0x01, 5 => some (sx64 32 (udivN 32 x y))
  | 0x01, 6 => some (sx64 32 (srem 32 x y))
  | 0x01, 7 => some (sx64 32 (uremN 32 x y))
  | _, _ =>
    if !rva then none
    else match f7, f3 with
    | 0x04, 0 => some (BitVec.ofNat 64 x + b)
    | 0x04, 4 => if rs2 = 0 then some (BitVec.ofNat 64 (x % 65536)) else none
    | 0x10, 2 => some (BitVec.ofNat 64 (2 * x) + b)
    | 0x10, 4 => some (BitVec.ofNat 64 (4 * x) + b)
    | 0x10, 6 => some (BitVec.ofNat 64 (8 * x) + b)
    | 0x30, 1 => some (sx64 32 (ror 32 x (32 - sh)))
    | 0x30, 5 => some (sx64 32 (ror 32 x sh))
    | _, _ => none

/-- OP-IMM. -/
def opI (rva : Bool) (f3 imm : Nat) (a : BitVec 64) : Option (BitVec 64) :=
  let i := sx64 12 imm
  let sh := imm % 64
  match f3 with
  | 0 => some (a + i)
  | 2 => some (BitVec.ofNat 64 (b2n (decide (a.toInt < i.toInt))))
  | 3 => some (BitVec.ofNat 64 (b2n (decide (a.toNat < i.toNat))))
  | 4 => some (a ^^^ i)
  | 6 => some (a ||| i)
  | 7 => some (a &&& i)
  | 1 =>
    match imm / 64 with
    | 0x00 => some (a <<< sh)
    | 0x18 =>
      if !rva then none
      else match sh with
        | 0 => some (BitVec.ofNat 64 (clzN 64 a.toNat))
        | 1 => some (BitVec.ofNat 64 (ctzN 64 a.toNat))
        | 2 => some (BitVec.ofNat 64 (popN 64 a.toNat))
        | 4 => some (sx64 8 a.toNat)
        | 5 => some (sx64 16 a.toNat)
        | _ => none
    | 0x12 => if rva then some (BitVec.ofNat 64 (clrBit a.toNat sh)) else none
    | 0x1A => if rva then some (a ^^^ (1#64 <<< sh)) else none
    | 0x0A => if rva then some (a ||| (1#64 <<< sh)) else none
    | _ => none
  | _ =>
    match imm / 64 with
    | 0x00 => some (a >>> sh)
    | 0x10 => some (a.sshiftRight sh)
    | 0x18 => if rva then some (BitVec.ofNat 64 (ror 64 a.toNat sh)) else none
    | 0x12 => if rva then some (BitVec.ofNat 64 (b2n (bitOf a.toNat sh))) else none
    | 0x0A =>
      if rva ∧ sh = 7 then
        some (BitVec.ofNat 64 (leNat ((toLE 8 a.toNat).map (fun x => if x = 0 then 0 else 0xFF#8))))
      else none
    | 0x1A => if rva ∧ sh = 0x38 then some (BitVec.ofNat 64 (leNat (toLE 8 a.toNat).reverse)) else none
    | _ => none

/-- OP-IMM-32. -/
def opIW (rva : Bool) (f3 imm : Nat) (a : BitVec 64) : Option (BitVec 64) :=
  let x := a.toNat % 2 ^ 32
  let sh := imm % 32
  match f3 with
  | 0 => some (sx64 32 (a + sx64 12 imm).toNat)
  | 1 =>
    if imm / 32 = 0 then some (sx64 32 (x * 2 ^ sh))
    else if !rva then none
    else if imm / 64 = 2 then some (BitVec.ofNat 64 (x * 2 ^ (imm % 64)))
    else match imm with
      | 0x600 => some (BitVec.ofNat 64 (clzN 32 x))
      | 0x601 => some (BitVec.ofNat 64 (ctzN 32 x))
      | 0x602 => some (BitVec.ofNat 64 (popN 32 x))
      | _ => none
  | 5 =>
    match imm / 32 with
    | 0x00 => some (sx64 32 (x / 2 ^ sh))
    | 0x20 => some (BitVec.ofInt 64 (toInt 32 x / 2 ^ sh))
    | 0x30 => if rva then some (sx64 32 (ror 32 x sh)) else none
    | _ => none
  | _ => none

/-- The result of an atomic (R235's AOP order is the mover's; this is the RISC-V funct5 order): new value of the word. -/
def amoNew (op size : Nat) (old v : Nat) : Option Nat :=
  let w := 8 * size
  let a := old % 2 ^ w
  let b := v % 2 ^ w
  match op with
  | 0x01 => some b
  | 0x00 => some ((a + b) % 2 ^ w)
  | 0x04 => some (a ^^^ b)
  | 0x0C => some (a &&& b)
  | 0x08 => some (a ||| b)
  | 0x10 => some (if toInt w a < toInt w b then a else b)
  | 0x14 => some (if toInt w a < toInt w b then b else a)
  | 0x18 => some (min a b)
  | 0x1C => some (max a b)
  | _ => none

/-! ### Floating point. -/

/-- A register holding a value of the layout: FP32 NaN-boxed. -/
def box (f : FFmt) (c : Nat) : BitVec 64 := if f.width = 32 then BitVec.ofNat 64 (0xFFFFFFFF00000000 + c) else BitVec.ofNat 64 c
/-- The code a register holds in the layout: an FP32 value that is not boxed reads as the canonical NaN. -/
def unbox (f : FFmt) (v : BitVec 64) : Nat :=
  if f.width = 32 then (if v.toNat / 2 ^ 32 = 0xFFFFFFFF then v.toNat % 2 ^ 32 else 0x7FC00000) else v.toNat

/-- A signalling NaN, where the architecture tells it apart. -/
def sNan (sn : Bool) (f : FFmt) (c : Nat) : Bool := sn && (decF f c).isNan && !bitOf c (f.mb - 1)
/-- NV where one of the codes is a signalling NaN. -/
def nvOf (sn : Bool) (f : FFmt) (l : List Nat) : Nat := if l.any (sNan sn f) then 16 else 0

/-- The rounding mode of an rm field; `frm` for the dynamic one. -/
def rmOf (rm frm : Nat) : Option RMode :=
  match (if rm = 7 then frm else rm) with
  | 0 => some .rne | 1 => some .rtz | 2 => some .rdn | 3 => some .rup | 4 => some .rmm | _ => none

/-- A rounded result with the invalid operation of its operands. -/
def arith (sn : Bool) (f : FFmt) (rm : RMode) (codes : List Nat) (v : Val) : Nat × Nat :=
  let r := roundV f rm v
  let fresh_nan := v.isNan && !(codes.any (fun c => (decF f c).isNan))
  (r.1, r.2 ||| nvOf sn f codes ||| (if fresh_nan then 16 else 0))

/-- a · b + c rounded once; 0 · ∞ is invalid even beside a quiet NaN. -/
def fmaOp (sn : Bool) (f : FFmt) (rm : RMode) (a b c : Nat) (negP negC : Bool) : Nat × Nat :=
  let va := decF f a
  let vb := decF f b
  let p := va.mul vb
  let p := if negP then p.neg else p
  let vc := decF f c
  let vc := if negC then vc.neg else vc
  let inv := p.isNan && !va.isNan && !vb.isNan
  let r := arith sn f rm [a, b, c] (Val.add (rm = .rdn) p vc)
  (r.1, r.2 ||| (if inv then 16 else 0))

/-- FMIN and FMAX. -/
def minmax (sn : Bool) (f : FFmt) (isMax : Bool) (a b : Nat) : Nat × Nat :=
  let va := decF f a
  let vb := decF f b
  let fl := nvOf sn f [a, b]
  let r :=
    if va.isNan && vb.isNan then f.nan.getD 0
    else if va.isNan then b else if vb.isNan then a
    else if va.isZero && vb.isZero then (if va.sgn = isMax then b else a)
    else if va.lt vb = isMax then b else a
  (r, fl)

/-- FCLASS. -/
def fclass (sn : Bool) (f : FFmt) (c : Nat) : Nat :=
  match decF f c with
  | .nan => if sNan sn f c then 0x100 else 0x200
  | .inf true => 1
  | .inf false => 0x80
  | .fin s m _ =>
    if m = 0 then (if s then 8 else 0x10)
    else if m < 2 ^ f.mb then (if s then 4 else 0x20)
    else if s then 2 else 0x40

/-- A value to a `w`-bit integer: the pattern, and NV or NX. -/
def cvtToInt (w : Nat) (uns : Bool) (rm : RMode) (v : Val) : Nat × Nat :=
  let hi : Int := if uns then 2 ^ w - 1 else 2 ^ (w - 1) - 1
  let lo : Int := if uns then 0 else -(2 ^ (w - 1))
  match v with
  | .nan => (ofInt w hi, 16)
  | .inf s => (ofInt w (if s then lo else hi), 16)
  | .fin s m e =>
    if m = 0 then (0, 0)
    else if 200 < flog2 m 1 e then (ofInt w (if s then lo else hi), 16)
    else
      let u := inUnits m 1 e 0
      let k : Int := roundQ rm s u.1 u.2
      let i := if s then -k else k
      if i < lo ∨ hi < i then (ofInt w (if s then lo else hi), 16)
      else (ofInt w i, if u.1 % u.2 = 0 then 0 else 1)

/-- OP-FP, and the result it gives. -/
def opFp (sn : Bool) (w : Nat) (x f : Nat → BitVec 64) (frm : Nat) : Act :=
  let rd := bits w 11 7
  let rm := bits w 14 12
  let rs1 := bits w 19 15
  let rs2 := bits w 24 20
  let f5 := bits w 31 27
  let fmt? : Option FFmt := match bits w 26 25 with | 0 => some f32 | 1 => some f64 | _ => none
  match fmt? with
  | none => .illegal
  | some fm =>
    let a := unbox fm (f rs1)
    let b := unbox fm (f rs2)
    let fr := fun (r : Nat × Nat) => Act.fwr rd (box fm r.1) r.2
    let sb := 2 ^ (fm.width - 1)
    let rounded := fun (k : RMode → Act) => match rmOf rm frm with | some m => k m | none => .illegal
    match f5 with
    | 0 => rounded (fun m => fr (arith sn fm m [a, b] (Val.add (m = .rdn) (decF fm a) (decF fm b))))
    | 1 => rounded (fun m => fr (arith sn fm m [a, b] (Val.add (m = .rdn) (decF fm a) (decF fm b).neg)))
    | 2 => rounded (fun m => fr (arith sn fm m [a, b] ((decF fm a).mul (decF fm b))))
    | 3 => rounded (fun m => let r := divV fm m (decF fm a) (decF fm b); fr (r.1, r.2 ||| nvOf sn fm [a, b]))
    | 0x0B => if rs2 = 0 then rounded (fun m => let r := sqrtV fm m (decF fm a); fr (r.1, r.2 ||| nvOf sn fm [a])) else .illegal
    | 4 =>
      match rm with
      | 0 => fr (a % sb + b / sb * sb, 0)
      | 1 => fr (a % sb + (1 - b / sb) * sb, 0)
      | 2 => fr (a % sb + (if a / sb = b / sb then 0 else sb), 0)
      | _ => .illegal
    | 5 => if rm = 0 then fr (minmax sn fm false a b) else if rm = 1 then fr (minmax sn fm true a b) else .illegal
    | 8 =>
      let from? : Option FFmt := match bits w 26 25, rs2 with | 0, 1 => some f64 | 1, 0 => some f32 | _, _ => none
      match from? with
      | none => .illegal
      | some g =>
        let c := unbox g (f rs1)
        rounded (fun m => let r := roundV fm m (decF g c); fr (r.1, r.2 ||| nvOf sn g [c]))
    | 0x14 =>
      let va := decF fm a
      let vb := decF fm b
      let nan := va.isNan || vb.isNan
      let quiet := nvOf sn fm [a, b]
      let noisy := if nan then 16 else 0
      let eq := !nan && !va.lt vb && !vb.lt va
      match rm with
      | 0 => .xwr rd (BitVec.ofNat 64 (b2n (!nan && !vb.lt va))) noisy
      | 1 => .xwr rd (BitVec.ofNat 64 (b2n (!nan && va.lt vb))) noisy
      | 2 => .xwr rd (BitVec.ofNat 64 (b2n eq)) quiet
      | _ => .illegal
    | 0x18 =>
      if 3 < rs2 then .illegal
      else
        let iw := if rs2 < 2 then 32 else 64
        rounded (fun m => let r := cvtToInt iw (rs2 % 2 = 1) m (decF fm a); .xwr rd (sx64 iw r.1) r.2)
    | 0x1A =>
      if 3 < rs2 then .illegal
      else
        let iw := if rs2 < 2 then 32 else 64
        let v : Nat := (x rs1).toNat % 2 ^ iw
        let i : Int := if rs2 % 2 = 1 then (v : Int) else toInt iw v
        rounded (fun m => fr (roundV fm m (ofI i)))
    | 0x1C =>
      if rs2 ≠ 0 then .illegal
      else if rm = 0 then .xwr rd (if fm.width = 32 then sx64 32 (f rs1).toNat else f rs1) 0
      else if rm = 1 then .xwr rd (BitVec.ofNat 64 (fclass sn fm a)) 0
      else .illegal
    | 0x1E => if rs2 = 0 ∧ rm = 0 then fr ((x rs1).toNat % 2 ^ fm.width, 0) else .illegal
    | _ => .illegal

/-- SYSTEM. -/
def opSys (isa : Isa) (w : Nat) (x : Nat → BitVec 64) : Act :=
  let rd := bits w 11 7
  let f3 := bits w 14 12
  let rs1 := bits w 19 15
  if f3 = 0 then
    if w = 0x00000073 then .ecall
    else if w = 0x00100073 then .ebreak
    else if !isa.rva then .illegal
    else if w = 0x30200073 then .mret
    else if w = 0x10200073 then .sret
    else if w = 0x10500073 then .wfi
    else if w = 0x00D00073 ∨ w = 0x01D00073 then .xwr 0 0 0
    else if (bits w 31 25 = 0x09 ∨ bits w 31 25 = 0x0B ∨ w = 0x18000073 ∨ w = 0x18100073) ∧ rd = 0 then .sfence
    else .illegal
  else if f3 = 4 then
    if isa.rva ∧ bitOf w 31 ∧ bits w 29 28 = 0 ∧ (bitOf w 25 ∨ bits w 25 22 = 7) then .xwr rd 0 0 else .illegal
  else if !isa.csr then .illegal
  else
    let src := if f3 < 4 then x rs1 else BitVec.ofNat 64 rs1
    .csr rd (f3 % 4) (bits w 31 20) src (f3 % 4 = 1 || rs1 ≠ 0)

/-- What the 32-bit word at `pc` does. -/
def rvExec (isa : Isa) (w : Nat) (pc : BitVec 64) (x f : Nat → BitVec 64) (frm : Nat) : Act :=
  let rd := bits w 11 7
  let f3 := bits w 14 12
  let a := x (bits w 19 15)
  let b := x (bits w 24 20)
  let f7 := bits w 31 25
  let immI := sx64 12 (bits w 31 20)
  let immS := sx64 12 (bits w 31 25 * 32 + bits w 11 7)
  let immU := sx64 32 (bits w 31 12 * 4096)
  let immB := sx64 13 (bits w 31 31 * 4096 + bits w 7 7 * 2048 + bits w 30 25 * 32 + bits w 11 8 * 2)
  let immJ := sx64 21 (bits w 31 31 * 2 ^ 20 + bits w 19 12 * 4096 + bits w 20 20 * 2048 + bits w 30 21 * 2)
  let res := fun (o : Option (BitVec 64)) => match o with | some v => Act.xwr rd v 0 | none => .illegal
  match w % 128 with
  | 0x37 => .xwr rd immU 0
  | 0x17 => .xwr rd (pc + immU) 0
  | 0x6F => .jump rd (pc + immJ)
  | 0x67 => if f3 = 0 then .jump rd ((a + immI) &&& ~~~1#64) else .illegal
  | 0x63 =>
    let t : Option Bool := match f3 with
      | 0 => some (a == b) | 1 => some (a != b)
      | 4 => some (decide (a.toInt < b.toInt)) | 5 => some (decide (b.toInt ≤ a.toInt))
      | 6 => some (decide (a.toNat < b.toNat)) | 7 => some (decide (b.toNat ≤ a.toNat))
      | _ => none
    match t with | some t => .branch t (pc + immB) | none => .illegal
  | 0x03 => if f3 = 7 then .illegal else .load rd (a + immI) (2 ^ (f3 % 4)) (f3 < 4) false
  | 0x23 => if 3 < f3 then .illegal else .store (a + immS) (2 ^ f3) b
  | 0x13 => res (opI isa.rva f3 (bits w 31 20) a)
  | 0x1B => res (opIW isa.rva f3 (bits w 31 20) a)
  | 0x33 => res (opR isa.rva f7 f3 a b)
  | 0x3B => res (opRW isa.rva f7 f3 (bits w 24 20) a b)
  | 0x0F =>
    if f3 = 0 then .fence
    else if isa.rva ∧ f3 = 1 then .fence
    else if isa.rva ∧ f3 = 2 ∧ rd = 0 ∧ (bits w 31 20 ≤ 2 ∨ bits w 31 20 = 4) then .cbo (bits w 31 20) a
    else .illegal
  | 0x73 => opSys isa w x
  | 0x07 => if isa.fd ∧ (f3 = 2 ∨ f3 = 3 ∨ (f3 = 1 ∧ isa.rva)) then .load rd (a + immI) (2 ^ f3) false true else .illegal
  | 0x27 => if isa.fd ∧ (f3 = 2 ∨ f3 = 3 ∨ (f3 = 1 ∧ isa.rva)) then .store (a + immS) (2 ^ f3) (f (bits w 24 20)) else .illegal
  | 0x53 => if isa.fd then opFp isa.sn w x f frm else .illegal
  | 0x43 | 0x47 | 0x4B | 0x4F =>
    let fmt? : Option FFmt := match bits w 26 25 with | 0 => some f32 | 1 => some f64 | _ => none
    match isa.fd, fmt?, rmOf f3 frm with
    | true, some fm, some m =>
      let k := bits w 3 2
      let r := fmaOp isa.sn fm m (unbox fm (f (bits w 19 15))) (unbox fm (f (bits w 24 20))) (unbox fm (f (bits w 31 27))) (decide (2 ≤ k))
        (k == 1 || k == 3)
      .fwr rd (box fm r.1) r.2
    | _, _, _ => .illegal
  | 0x2F =>
    if !isa.a || !(f3 == 2 || f3 == 3) then .illegal
    else
      let sz := 2 ^ f3
      match bits w 31 27 with
      | 2 => if bits w 24 20 = 0 then .lr rd a sz else .illegal
      | 3 => .sc rd a sz b
      | o => if (amoNew o sz 0 0).isSome then .amo rd a sz o b else .illegal
  | 0x0B => .custom0
  | 0x2B => .custom1
  | _ => .illegal

/-- A loaded value as the register takes it: sign- or zero-extended, an FP32 value boxed. -/
def loadVal (size : Nat) (signed fp : Bool) (d : List Byte) : BitVec 64 :=
  let v := leNat d
  if fp && size = 4 then BitVec.ofNat 64 (0xFFFFFFFF00000000 + v)
  else if fp && size = 2 then BitVec.ofNat 64 (0xFFFFFFFFFFFF0000 + v)
  else if signed then sx64 (8 * size) v else BitVec.ofNat 64 v

end Sys2Proof.Machine
end

