-- ==== Sys2Proof/Machine/Threads.lean ====
section
/-! DEFINITION. The thread-group unit (R193 to R225): launches and residence, scheduling, paths, the thread instructions, Xtg, locks,
barriers, matrix and gather issue, exceptions. -/

namespace Sys2Proof.Machine

/-! ### Blocks, groups and paths. -/

/-- The TGU of a bay. -/
def tguOf (s : State) (b : BayId) : Tgu := (bayOf s b).tgu
/-- The state with the TGU changed. -/
def modTgu (s : State) (b : BayId) (f : Tgu → Tgu) : State := modBay s b (fun y => { y with tgu := f y.tgu })
/-- The group in a hardware group slot. -/
def groupOf (s : State) (b : BayId) (g : Nat) : Option Group := mget none (tguOf s b).groups g
/-- The state with a group slot written. -/
def setGroup (s : State) (b : BayId) (g : Nat) (v : Option Group) : State := modTgu s b (fun t => { t with groups := mset none t.groups g v })
/-- The block in a block slot. -/
def blockOf (s : State) (b : BayId) (k : Nat) : Option Block := mget none (tguOf s b).blocks k
/-- The state with a block slot written. -/
def setBlock (s : State) (b : BayId) (k : Nat) (v : Option Block) : State := modTgu s b (fun t => { t with blocks := mset none t.blocks k v })

/-- The lanes of a mask, in order. -/
def lanesOf (m : BitVec 32) : List Nat := (List.range 32).filter (fun i => bitOf m.toNat i)
/-- The mask of some lanes. -/
def maskOf (l : List Nat) : BitVec 32 := BitVec.ofNat 32 (l.foldl (fun v i => v ||| 2 ^ i) 0)
/-- R193: the thread index of a lane. -/
def tidOf (gr : Group) (lane : Nat) : Nat := 32 * gr.num + lane
/-- The lanes of a group that have not exited. -/
def liveLanes (gr : Group) : List Nat := (List.range 32).filter (fun i => gr.paths.any (fun p => bitOf p.mask.toNat i))
/-- The group slots of a block. -/
def groupsOf (s : State) (b : BayId) (k : Nat) : List (Nat × Group) :=
  (List.range 64).filterMap (fun g => (groupOf s b g).bind (fun gr => if gr.block.val = k then some (g, gr) else none))
/-- R212: the threads of a block that have not exited. -/
def liveThreads (s : State) (b : BayId) (k : Nat) : List Nat :=
  (groupsOf s b k).flatMap (fun x => (liveLanes x.2).map (tidOf x.2))

/-- R205: ready paths with the same PC merge; the flag says whether the first path took part. -/
def mergePaths : List Path → List Path
  | [] => []
  | p :: r =>
    let same := fun (q : Path) => p.hold == .none && q.hold == .none && q.pc == p.pc
    let twins := r.filter same
    let p' := if twins.isEmpty then p else { p with mask := twins.foldl (fun m q => m ||| q.mask) p.mask, defer := false }
    p' :: mergePathsTail same r
where
  /-- The paths that did not merge into the one before, themselves merged. -/
  mergePathsTail (same : Path → Bool) : List Path → List Path
  | [] => []
  | q :: r => if same q then mergePathsTail same r else q :: mergePathsTail same r

/-- R205: all merges of a list of at most 32 paths. -/
def mergeAll (l : List Path) : List Path :=
  (List.range l.length).foldl (fun l i => l.take i ++ mergePaths (l.drop i)) l

/-- The path with the lowest PC. -/
def lowestPc (l : List Path) : Option Path :=
  l.foldl (fun (a : Option Path) p => match a with | none => some p | some q => if p.pc.toNat < q.pc.toNat then some p else some q) none

/-- R205: the group selects its current path and puts it first; `none` where no path is ready. -/
def selectPath (gr : Group) : Option Group :=
  let ready := gr.paths.filter (fun p => p.hold == .none)
  let merged := mergeAll gr.paths
  let same := merged.head? == gr.paths.head?
  let stays := gr.keep && same && (match merged with | p :: _ => p.hold == .none | [] => false)
  if ready.isEmpty then none
  else if stays then some { gr with paths := merged }
  else
    let rd := merged.filter (fun p => p.hold == .none)
    let allDef := rd.all (·.defer)
    let paths := if allDef then merged.map (fun p => { p with defer := false }) else merged
    match lowestPc (paths.filter (fun p => p.hold == .none && !p.defer)) with
    | some p => some { gr with paths := p :: paths.filter (· != p), keep := true }
    | none => none

/-! ### Residence. -/

/-- R197: a descriptor that is refused. -/
def launchBad (desc : Nat) (d : List Byte) : Bool :=
  let pc := fieldAt d 0 8
  let threads := fieldAt d 8 4
  let flags := fieldAt d 12 4
  let wb := fieldAt d 16 4
  let ws := fieldAt d 20 4
  let wv := fieldAt d 24 8
  inColl (64 * desc) 64 || (decide (ws ≠ 0) && (!inStore wb ws || inColl wb ws)) || decide (1024 < threads) ||
  decide (pc % 4 ≠ 0) || decide (wb % 4096 ≠ 0) || decide (ws % 4096 ≠ 0) || decide (wv % 4096 ≠ 0) || decide (fieldAt d 40 4 % 16 ≠ 0) ||
  (decide (ws ≠ 0) && (decide (2 ^ 64 < wv + ws) || !canonical57 (wv + ws - 1))) ||
  decide (8 ≤ flags) || decide (fieldAt d 44 4 ≠ 0)

/-- R199: a thread as it starts. -/
def threadStart (d : List Byte) (t : Nat) : Thread :=
  let v := fun (i n : Nat) => BitVec.ofNat 64 (fieldAt d i n)
  let sp := fieldAt d 40 4
  let sets := [(10, v 48 8), (11, v 56 8), (12, BitVec.ofNat 64 t), (13, v 8 4),
    (2, if sp = 0 then 0 else BitVec.ofNat 64 (fieldAt d 32 8 + (t + 1) * sp))]
  { x := sets.foldl (fun m r => mset 0 m r.1 r.2) [], scope := BitVec.ofNat 2 (bits (fieldAt d 12 4) 2 1) }

/-- R223: BARPEND of a block. -/
def showBar (s : State) (b : BayId) (k : Nat) : State :=
  match blockOf s b k with
  | none => s
  | some bl => wr s (.tgu b) (tguBlkBarpend k) ((List.range 16).foldl (fun v n => if (mget {} bl.barriers n).begun then v + 2 ^ n else v) 0)

/-- BLOCK_RESIDENT (R197, R198): the launch at the head is checked; it becomes resident in the lowest free slots once enough are free. -/
def execBlockResident (b : BayId) (s : State) : Out :=
  let p := Page.tgu b
  let t := tguOf s b
  match t.queue with
  | [] => .next s
  | l :: rest =>
    if pgState s p ≠ 4 then .next s
    else if launchBad l.desc l.bytes then
      let s := tguCount (opDrop (modTgu s b (fun t => { t with queue := rest })) b l.id) b
      .next (raise s p { bit := 16, detail := l.desc % 65536, stop := true })
    else
      let threads := fieldAt l.bytes 8 4
      let n := (threads + 31) / 32
      let free := (List.range 64).filter (fun g => (groupOf s b g).isNone)
      match (List.finRange 8).find? (fun k => (blockOf s b k.val).isNone) with
      | none => .next s
      | some k =>
        if free.length < n then .next s
        else
          let s := wrapAdd s p tguLaunched 1
          let order := (t.blocks.foldl (fun m x => match x.2 with | some bl => max m bl.order | none => m) 0) + 1
          let bl : Block := {
            launch := l, threads := threads, seq := BitVec.ofNat 32 (rd s p tguLaunched), order := order, live := threads }
          let s := modTgu s b (fun t => { t with
            queue := rest, blocks := mset none t.blocks k.val (some bl),
            icache := if bitOf (fieldAt l.bytes 12 4) 0 then [] else t.icache })
          let s := (List.range n).foldl (fun s i =>
            let cnt := min 32 (threads - 32 * i)
            let gr : Group := {
              block := k, num := i, threads := (List.range 32).map (fun j => threadStart l.bytes (32 * i + j)),
              paths := [{ pc := BitVec.ofNat 64 (fieldAt l.bytes 0 8), mask := maskOf (List.range cnt) }] }
            setGroup s b (free.getD i 0) (some gr)) s
          let s := wr (wr (wr s p (tguBlkDescDesc k.val) l.desc) p (tguBlkDescValid k.val) 1) p (tguBlkShapeThreads k.val) threads
          let s := wr (wr (wr (wr s p (tguBlkShapeGroups k.val) n) p (tguBlkLive k.val) threads) p (tguBlkBarpend k.val) 0) p (tguBlkSteps k.val) 0
          .next (tguCount s b)

/-! ### Memory. -/

/-- R216: where a data access goes, or what stops it. -/
inductive ThTgt where
  | store (a : Nat) | dram (pa : Nat) | trap (cause : Nat) (absent : Bool) | wait
deriving DecidableEq, Repr

/-- R216: a thread's data address, with R251's translation (class TG) outside the window. `k` is read or write. -/
def thTarget (s : State) (b : BayId) (bl : Block) (a size : Nat) (k : Acc3) : ThTgt × State :=
  let d := bl.launch.bytes
  let wv := fieldAt d 24 8
  let ws := fieldAt d 20 4
  let w := k == .write
  if a % size ≠ 0 then (.trap (if w then 6 else 4) false, s)
  else if wv ≤ a ∧ a < wv + ws then (.store (fieldAt d 16 4 + (a - wv)), s)
  else match bayXlate s b 25 a k with
    | (.wait, s) => (.wait, s)
    | (.fault, s) => (.trap (if w then 15 else 13) false, s)
    | (.ok pa, s) =>
      if !inDram s pa size then (.trap (if w then 7 else 5) true, s)
      else if w && lineBusy s (bayDie b) (pa / 64) true then (.wait, hostAsk s pa size true)
      else if !w && loadBusy s (bayDie b) (pa / 64) then (.wait, loadAsk s (pa / 64))
      else (.dram pa, s)

/-- The line of an access, as reservations name it. -/
def tgtLine (b : BayId) : ThTgt → ResvLine
  | .store a => .store b (a / 64)
  | .dram pa => .dram (pa / 64)
  | _ => .dram 0

/-- R216, R221: a read: bytes, poison (POISON, or CHECKSUM and POISON, set), state. -/
def thRead (s : State) (b : BayId) (unit : Nat) (t : ThTgt) (size : Nat) (chk : Check) : List Byte × Bool × State :=
  match t with
  | .store a => storeRead s b (.tgu b) unit a size chk .none
  | .dram pa =>
    let old := linePoisoned s (pa / 64)
    let r := cohLoad s (bayAgent b) (.bcache b) 25 (pa / 64) chk
    let s := r.2.2
    let s := if r.2.1 && !old && chk == .twice then raise s (.tgu b) { bit := 4, unit := unit, addr := some pa } else s
    let s := if r.2.1 then raise s (.tgu b) { bit := 7, unit := unit, addr := some pa } else s
    (slice r.1 (pa % 64) size, r.2.1, s)
  | _ => ([], false, s)

/-- A write. -/
def thWrite (s : State) (b : BayId) (t : ThTgt) (d : List Byte) : State :=
  match t with
  | .store a => storeWrite s b a d false
  | .dram pa =>
    cohStore s (bayAgent b) (.bcache b) 25 (pa / 64) ((2 ^ d.length - 1) * 2 ^ (pa % 64)) (List.replicate (pa % 64) 0 ++ d)
  | _ => s

/-- A write by a thread that does not end its own reservation. -/
def thWriteOwn (s : State) (b : BayId) (who : ResvBy) (t : ThTgt) (d : List Byte) : State :=
  let own := s.resv.filter (·.1 = who)
  let s := thWrite s b t d
  { s with resv := s.resv.filter (·.1 ≠ who) ++ own }

/-- A reservation taken, or with `none` given up. -/
def setResv (s : State) (who : ResvBy) (l : Option ResvLine) : State :=
  { s with resv := s.resv.filter (·.1 ≠ who) ++ (l.map (fun l => (who, l))).toList }

/-- R219: reservations are lost when the path switches: those of the threads outside the current path. -/
def dropResv (s : State) (b : BayId) (g : Fin 64) (mask : BitVec 32) : State :=
  { s with resv := s.resv.filter (fun r => match r.1 with
    | .thread b' g' l => !(b' == b && g' == g) || bitOf mask.toNat l.val
    | _ => true) }

/-! ### Instruction fetch. -/

/-- R198: the word at `pc` through the instruction cache (64 KiB; the line of the lowest address leaves when it is full: DESIGN CHOICE, log 44):
the word, or a cause and whether the address is absent; or a wait. -/
def thFetch (s : State) (b : BayId) (unit : Nat) (pc : BitVec 64) (chk : Check) : (Nat ⊕ Option (Nat × Bool)) × State :=
  match bayXlate s b 25 pc.toNat .exec with
  | (.wait, s) => (.inr none, s)
  | (.fault, s) => (.inr (some (12, false)), s)
  | (.ok pa, s) =>
    if !inDram s pa 4 then (.inr (some (1, true)), s)
    else match mget [] (tguOf s b).icache (pa / 64) with
    | x :: l => (.inl (fieldAt (x :: l) (pa % 64) 4), s)
    | [] =>
      if loadBusy s (bayDie b) (pa / 64) then (.inr none, loadAsk s (pa / 64))
      else
        let r := thRead s b unit (.dram (pa / 64 * 64)) 64 chk
        if r.2.1 then (.inr (some (1, false)), r.2.2)
        else
          let s := modTgu r.2.2 b (fun t => { t with icache := mset [] (if 1024 ≤ t.icache.length then t.icache.drop 1 else t.icache) (pa / 64) r.1 })
          (.inl (fieldAt r.1 (pa % 64) 4), s)

/-! ### Exceptions. -/

/-- PG_ERRINFO.UNIT of a group. -/
def tguUnit (gr : Group) : Nat := gr.block.val * 32 + gr.num % 32

/-- R221, R223: an exception stops the TGU; the TRAP registers are captured with the first error (`first`: PG_ERR was all zero). An address in
neither space, or in the DCS, sets ABSENT_TARGET with the address (R25, R216). -/
def tguTrap (s : State) (b : BayId) (gr : Group) (lane cause : Nat) (pc val : BitVec 64) (bit : Nat) (first : Bool) : State :=
  let p := Page.tgu b
  let s := if first then
      wr (wr (wr (wr (wr (wr s p tguTrapCause cause) p tguTrapPc pc.toNat) p tguTrapVal val.toNat) p tguTrapWhoBlock gr.block.val)
        p tguTrapWhoGroup gr.num) p tguTrapWhoLane lane
    else s
  raise s p { bit := bit, unit := tguUnit gr, addr := if bit = 3 then some val.toNat else none, va := bit == 3, stop := true }

/-- Whether PG_ERR of the TGU is all zero. -/
def tguClean (s : State) (b : BayId) : Bool := rd s (.tgu b) hdrErr == 0

/-! ### Lanes. -/

/-- x of a thread. -/
def thX (t : Thread) (r : Nat) : BitVec 64 := if r = 0 then 0 else mget 0 t.x r
/-- x written; x0 discards. -/
def thSetX (t : Thread) (r : Nat) (v : BitVec 64) : Thread := if r = 0 then t else { t with x := mset 0 t.x r v }
/-- f written. -/
def thSetF (t : Thread) (r : Nat) (v : BitVec 64) : Thread := { t with f := mset 0 t.f r v }
/-- Exception flags accrue. -/
def thFlags (t : Thread) (fl : Nat) : Thread := { t with fcsr := t.fcsr ||| BitVec.ofNat 32 fl }

/-- The thread of a lane. -/
def thOf (gr : Group) (l : Nat) : Thread := gr.threads.getD l {}
/-- The group with a lane's thread replaced. -/
def setLane (gr : Group) (l : Nat) (t : Thread) : Group := { gr with threads := gr.threads.set l t }

/-- R194: a CSR's value; none where the access is an illegal instruction. -/
def thCsr (s : State) (b : BayId) (t : Thread) (n : Nat) : Option Nat :=
  match n with
  | 1 => some (t.fcsr.toNat % 32)
  | 2 => some (t.fcsr.toNat / 32 % 8)
  | 3 => some (t.fcsr.toNat % 256)
  | 0xC00 => some (rd s (.tgu b) hdrSteps)
  | 0xC01 => some (rd s .hub hubTimer)
  | 0xC02 => some t.instret.toNat
  | _ => none

/-- R194: a CSR written; none where it is read-only. -/
def thSetCsr (t : Thread) (n v : Nat) : Option Thread :=
  match n with
  | 1 => some { t with fcsr := BitVec.ofNat 32 (t.fcsr.toNat / 32 * 32 + v % 32) }
  | 2 => some { t with fcsr := BitVec.ofNat 32 (t.fcsr.toNat % 32 + v % 8 * 32) }
  | 3 => some { t with fcsr := BitVec.ofNat 32 (v % 256) }
  | _ => none

/-- Zicsr: the new value of a CSR. -/
def csrNew (op old src : Nat) : Nat := match op with | 1 => src | 2 => old ||| src | _ => old - (old &&& src)

/-- What a lane's instruction comes to: its thread, the next PC and whether a branch or jump was taken; or an exception. -/
inductive LaneRes where
  | ok (t : Thread) (next : BitVec 64) (taken : Bool) | fence (t : Thread) | trap (cause : Nat) (val : BitVec 64) (absent : Bool) | wait
deriving DecidableEq, Repr

/-- An access of a lane whose target has been found, to `go` on with it. -/
def withTgt (r : ThTgt × State) (a : BitVec 64) (go : ThTgt → State → LaneRes × State) : LaneRes × State :=
  match r.1 with
  | .wait => (.wait, r.2)
  | .trap c abs => (.trap c a abs, r.2)
  | t => go t r.2

/-- One lane runs the word at `pc` (R194, R216, R219, R221). -/
def laneExec (s : State) (b : BayId) (g : Fin 64) (gr : Group) (bl : Block) (lane : Fin 32) (w : Nat) (pc : BitVec 64) (chk : Check) :
    LaneRes × State :=
  let t := thOf gr lane.val
  let who := ResvBy.thread b g lane
  let unit := tguUnit gr
  let next := pc + 4
  let ill : LaneRes × State := (.trap 2 (Config.trapValue 2 (BitVec.ofNat 32 w)) false, s)
  match rvExec isaThread w pc (thX t) (fun r => mget 0 t.f r) (t.fcsr.toNat / 32 % 8) with
  | .xwr rd v fl => (.ok (thFlags (thSetX t rd v) fl) next false, s)
  | .fwr rd v fl => (.ok (thFlags (thSetF t rd v) fl) next false, s)
  | .jump rd a => if a.toNat % 4 ≠ 0 then (.trap 0 a false, s) else (.ok (thSetX t rd next) a true, s)
  | .branch tk a => if tk then (if a.toNat % 4 ≠ 0 then (.trap 0 a false, s) else (.ok t a true, s)) else (.ok t next false, s)
  | .load rd a size sg fp =>
    withTgt (thTarget s b bl a.toNat size .read) a (fun x s =>
      let r := thRead s b unit x size chk
      if r.2.1 then (.trap 5 a false, r.2.2)
      else
        let v := loadVal size sg fp r.1
        (.ok (if fp then thSetF t rd v else thSetX t rd v) next false, r.2.2))
  | .store a size v =>
    withTgt (thTarget s b bl a.toNat size .write) a (fun x s => (.ok t next false, thWriteOwn s b who x (toLE size v.toNat)))
  | .lr rd a size =>
    withTgt (thTarget s b bl a.toNat size .read) a (fun x s =>
      let r := thRead s b unit x size chk
      if r.2.1 then (.trap 5 a false, r.2.2)
      else (.ok (thSetX t rd (loadVal size true false r.1)) next false, setResv r.2.2 who (some (tgtLine b x))))
  | .sc rd a size v =>
    withTgt (thTarget s b bl a.toNat size .write) a (fun x s =>
      let okv := s.resv.contains (who, tgtLine b x)
      let s := setResv s who none
      (.ok (thSetX t rd (if okv then 0 else 1)) next false, if okv then thWrite s b x (toLE size v.toNat) else s))
  | .amo rd a size op v =>
    withTgt (thTarget s b bl a.toNat size .write) a (fun x s =>
      let r := thRead s b unit x size chk
      if r.2.1 then (.trap 7 a false, r.2.2)
      else
        let n := (amoNew op size (leNat r.1) v.toNat).getD 0
        (.ok (thSetX t rd (loadVal size true false r.1)) next false, thWriteOwn r.2.2 b who x (toLE size n)))
  | .fence => (.fence t, s)
  | .csr rd op num src wr_ =>
    match thCsr s b t num with
    | none => ill
    | some old =>
      let done := fun (t : Thread) => (LaneRes.ok (thSetX t rd (BitVec.ofNat 64 old)) next false, s)
      if !wr_ then done t
      else match thSetCsr t num (csrNew op old src.toNat) with
      | some t => done t
      | none => ill
  | .ecall => (.trap 8 0 false, s)
  | .ebreak => (.trap 3 (Config.trapValue 3 (BitVec.ofNat 32 w)) false, s)
  | _ => ill

/-! ### Barriers and exits. -/

/-- R212: a phase of barrier n of a block completes if every live thread has arrived: its paths will resume; the threads that had
reached it before arrive at the next phase. -/
def barComplete (b : BayId) (k : Nat) (n : Fin 16) : Nat → State → State
  | 0, s => s
  | fuel + 1, s =>
    match blockOf s b k with
    | none => s
    | some bl =>
      let br := mget {} bl.barriers n.val
      if !br.begun || !(liveThreads s b k).all (fun t => br.arrived.contains t) then s
      else
        let waiting := (groupsOf s b k).flatMap (fun x => (x.2.paths.filter (fun p => match p.hold with | .barNext m _ => m == n | _ => false)).flatMap
          (fun p => (lanesOf p.mask).map (tidOf x.2)))
        let s := setBlock s b k (some { bl with barriers := mset {} bl.barriers n.val { begun := !waiting.isEmpty, arrived := waiting } })
        let s := (groupsOf s b k).foldl (fun s x => setGroup s b x.1 (some { x.2 with paths := x.2.paths.map (fun p => match p.hold with
          | .barrier m => if m = n then { p with hold := .barDone n } else p
          | .barNext m arv => if m = n then { p with hold := if arv then .none else .barrier n } else p
          | _ => p) })) s
        barComplete b k n fuel s

/-- All barriers of a block are looked at after an arrival or an exit. -/
def barPump (s : State) (b : BayId) (k : Nat) : State :=
  showBar ((List.finRange 16).foldl (fun s n => barComplete b k n 3 s) s) b k

/-- R219: the reservations of threads that have exited are lost. -/
def resvPrune (s : State) (b : BayId) : State :=
  { s with resv := s.resv.filter (fun r => match r.1 with
    | .thread b' g l => b' != b || (match groupOf s b g.val with | some gr => (liveLanes gr).contains l.val | none => false)
    | _ => true) }

/-- R193, R200, R208: threads of group g have exited: LIVE, the barriers; with the block's last thread its slots become free. -/
def afterExit (s : State) (b : BayId) (k : Nat) (count : Nat) : State :=
  let p := Page.tgu b
  let s := resvPrune s b
  match blockOf s b k with
  | none => s
  | some bl =>
    let live := bl.live - count
    let s := setBlock s b k (some { bl with live := live })
    let s := wr s p (tguBlkLive k) live
    if live = 0 then
      let s := (groupsOf s b k).foldl (fun s x => setGroup s b x.1 none) s
      let s := modTgu (setBlock s b k none) b (fun t => { t with ended := t.ended ++ [(k, bl.launch)] })
      tguCount (wr (wr s p (tguBlkDescValid k) 0) p (tguBlkBarpend k) 0) b
    else
      let s := (groupsOf s b k).foldl (fun s x => if x.2.paths.isEmpty then setGroup s b x.1 none else s) s
      tguCount (barPump s b k) b

/-! ### Paths move on. -/

/-- Lanes with the PC they go to and whether a branch or jump was taken. -/
structure LaneNext where
  lane : Nat
  pc : BitVec 64
  taken : Bool
deriving DecidableEq, Repr

/-- R205, R206: the current path moves on: it divides by next PC; a part that took a backward branch or jump has DEFER set; threads that
return to address 0 exit. -/
def pathMove (s : State) (b : BayId) (g : Fin 64) (gr : Group) (p : Path) (rest : List Path) (nx : List LaneNext) (sw : Bool) : State :=
  let stay := nx.filter (fun x => !(x.taken && x.pc == 0))
  let gone := nx.length - stay.length
  let pcs := (stay.map (·.pc)).eraseDups
  let back := fun (pc : BitVec 64) => stay.any (fun x => x.pc == pc && x.taken && decide (pc.toNat ≤ p.pc.toNat))
  let parts := pcs.map (fun pc => ({ p with
    pc := pc, mask := maskOf ((stay.filter (·.pc == pc)).map (·.lane)), defer := p.defer || sw || back pc } : Path))
  let switch := sw || pcs.any back || decide (pcs.length ≠ 1)
  let gr' : Group := { gr with paths := parts ++ rest, keep := gr.keep && !switch }
  let s := setGroup s b g.val (some gr')
  if gone = 0 then s else afterExit s b gr.block.val gone

/-- Each active thread has retired one more instruction. -/
def retireAll (gr : Group) (m : BitVec 32) : Group :=
  (lanesOf m).foldl (fun gr l => let t := thOf gr l; setLane gr l { t with instret := t.instret + 1 }) gr

/-- The current path goes on at the next instruction, held by `h`. -/
def pathHold (s : State) (b : BayId) (g : Fin 64) (gr : Group) (p : Path) (rest : List Path) (h : Hold) : State :=
  setGroup s b g.val (some { retireAll gr p.mask with paths := { p with pc := p.pc + 4, hold := h } :: rest, keep := gr.keep && h == .none })

/-- The current path goes on at the next instruction. -/
def pathNext (s : State) (b : BayId) (g : Fin 64) (gr : Group) (p : Path) (rest : List Path) : State := pathHold s b g gr p rest .none

/-- A group that can issue: its page works, and a path is ready: the group with its current path first. -/
def groupReady (s : State) (b : BayId) (g : Fin 64) : Option (Group × Path × List Path × State) :=
  if !pgWorks s (.tgu b) then none
  else match (groupOf s b g.val).bind selectPath with
  | none => none
  | some gr => match gr.paths with
    | p :: rest => some (gr, p, rest, dropResv s b g p.mask)
    | [] => none

/-! ### Xtg (R208). -/

/-- The lowest active lane of a path. -/
def firstLane (p : Path) : Nat := (lanesOf p.mask).headD 0

/-- One result register written in every active thread. -/
def laneResults (gr : Group) (p : Path) (rd : Nat) (f : Nat → BitVec 64) : Group :=
  (lanesOf p.mask).foldl (fun g2 l => setLane g2 l (thSetX (thOf g2 l) rd (f l))) gr

/-- TG.ID: an identity item. -/
def tgIdItem (b : BayId) (gr : Group) (bl : Block) (lane : Nat) (v : BitVec 64) : BitVec 64 :=
  BitVec.ofNat 64 (match v.toNat with
    | 0 => lane | 1 => gr.num | 2 => tidOf gr lane | 3 => gr.block.val | 4 => b.val | 5 => bl.threads
    | 6 => (bl.threads + 31) / 32 | 7 => bl.seq.toNat | _ => 0)

/-- The source lane of a shuffle. -/
def shflLane (f7 lane : Nat) (v : BitVec 64) : Int :=
  let k := v.toNat % 32
  match f7 with
  | 0 => k
  | 1 => (lane : Int) - k
  | 2 => lane + k
  | _ => ((lane ^^^ k : Nat) : Int)

/-- TG.SHFL: rs1 of the source lane if it is active, else the thread's own. -/
def shfl (gr : Group) (p : Path) (f7 rs1 rs2 lane : Nat) : BitVec 64 :=
  let t := thOf gr lane
  let src := shflLane f7 lane (thX t rs2)
  if 0 ≤ src ∧ src < 32 ∧ bitOf p.mask.toNat src.toNat then thX (thOf gr src.toNat) rs1 else thX t rs1

/-- R212: one thread arrives at barrier n, if it has not reached the current phase; the flag says whether it had. -/
def barArrive (s : State) (b : BayId) (k n t : Nat) : Bool × State :=
  match blockOf s b k with
  | none => (false, s)
  | some bl =>
    let br := mget {} bl.barriers n
    if br.arrived.contains t then (true, s)
    else (false, setBlock s b k (some { bl with barriers := mset {} bl.barriers n { begun := true, arrived := br.arrived ++ [t] } }))

/-- R212: TG.BAR and TG.BAR.ARV: the path divides by barrier and by whether a thread has reached the current phase before. -/
def tgBarGo (s : State) (b : BayId) (g : Fin 64) (gr : Group) (p : Path) (rest : List Path) (rs1 : Nat) (arv : Bool) : State :=
  let k := gr.block.val
  let bar := fun l => (thX (thOf gr l) rs1).toNat % 16
  let x := (lanesOf p.mask).foldl (fun (x : List (Nat × Bool) × State) l =>
    let r := barArrive x.2 b k (bar l) (tidOf gr l)
    (x.1 ++ [(l, r.1)], r.2)) ([], s)
  let holdOf := fun (y : Nat × Bool) => let n : Fin 16 := ⟨bar y.1 % 16, Nat.mod_lt _ (by decide)⟩
    if y.2 then Hold.barNext n arv else if arv then .none else .barrier n
  let holds := (x.1.map holdOf).eraseDups
  let parts := holds.map (fun h => ({ p with
    pc := p.pc + 4, mask := maskOf ((x.1.filter (fun y => holdOf y == h)).map (·.1)), hold := h } : Path))
  let gr' : Group := { retireAll gr p.mask with paths := parts ++ rest, keep := gr.keep && holds == [.none] }
  barPump (setGroup x.2 b g.val (some gr')) b k

/-- R209, R211: the attempts of TG.LOCK, or the releases of TG.UNLOCK, in lane order. -/
def lockLanes (b : BayId) (g : Fin 64) (bl : Block) (lock : Bool) (rd rs1 : Nat) :
    List Nat → Group → State → (Option (Nat × LaneRes) × Group × Bool) × State
  | [], gr, s => ((none, gr, false), s)
  | l :: ls, gr, s =>
    let t := thOf gr l
    let a := thX t rs1
    let lane : Fin 32 := ⟨l % 32, Nat.mod_lt _ (by decide)⟩
    match thTarget s b bl a.toNat 8 .write with
    | (.wait, s) => ((some (l, .wait), gr, false), s)
    | (.trap c abs, s) => ((some (l, .trap c a abs), gr, false), s)
    | (x, s) =>
      if lock then
        let r := thRead s b (tguUnit gr) x 8 .ok
        if r.2.1 then ((some (l, .trap 7 a false), gr, false), r.2.2)
        else
          let free := leNat r.1 = 0
          let s := if free then thWriteOwn r.2.2 b (.thread b g lane) x (toLE 8 (8192 * b.val + 1024 * gr.block.val + tidOf gr l + 1)) else r.2.2
          let y := lockLanes b g bl lock rd rs1 ls (setLane gr l (thSetX t rd (if free then 1 else 0))) s
          ((y.1.1, y.1.2.1, y.1.2.2 || !free), y.2)
      else lockLanes b g bl lock rd rs1 ls gr (thWriteOwn s b (.thread b g lane) x (toLE 8 0))

/-- What an Xtg instruction comes to: the state, or an exception of a lane, or a wait. -/
inductive XtgRes where
  | ok (s : State) | trap (lane cause : Nat) (val : BitVec 64) (absent : Bool) (s : State) | refuse (bit : Nat) (s : State) | wait (s : State)
deriving Repr

/-- R214, R215: the checks of TG.MTX's and TG.GTH's operand on its WAIT and SIG bytes. -/
def xtgBad (v : Nat) : Bool := decide (v % 256 ≠ 0) || byteBad (bits v 15 8)

/-- One Xtg instruction on the current path of a group (R208 to R215). -/
def xtgExec (s : State) (b : BayId) (g : Fin 64) (gr : Group) (bl : Block) (p : Path) (rest : List Path) (w : Nat) : XtgRes :=
  let rd := bits w 11 7
  let rs1 := bits w 19 15
  let rs2 := bits w 24 20
  let lanes := lanesOf p.mask
  let l0 := firstLane p
  let ill := XtgRes.trap l0 2 (Config.trapValue 2 (BitVec.ofNat 32 w)) false s
  let fin := fun (gr : Group) (s : State) => XtgRes.ok (pathNext s b g gr p rest)
  let x := fun (l r : Nat) => thX (thOf gr l) r
  let some? := fun (f : Nat → BitVec 64) => fin (laneResults gr p rd f) s
  let fence := fun (sys : Bool) => XtgRes.ok (pathHold s b g gr p rest (.fence sys))
  let byte := (x l0 rs1).toNat % 256
  let byteIll := !byteV byte || byteBad byte
  if (w / 2 ^ 12 % 8, w / 2 ^ 25) ∈ [(0, 0), (0, 1), (0, 2), (0, 3), (5, 2)] ∧ rs2 ≠ 0 then ill
  else match bits w 14 12, bits w 31 25 with
  | 0, 0 => some? (fun l => tgIdItem b gr bl l (x l rs1))
  | 0, 1 => some? (fun _ => if lanes.any (fun l => x l rs1 != 0) then 1 else 0)
  | 0, 2 => some? (fun _ => if lanes.all (fun l => x l rs1 != 0) then 1 else 0)
  | 0, 3 => some? (fun _ => BitVec.ofNat 64 (maskOf (lanes.filter (fun l => x l rs1 != 0))).toNat)
  | 1, f7 => if 3 < f7 then ill else some? (shfl gr p f7 rs1 rs2)
  | 2, 0 => if rd ≠ 0 ∨ rs2 ≠ 0 then ill else .ok (tgBarGo s b g gr p rest rs1 false)
  | 2, 1 => if rd ≠ 0 ∨ rs2 ≠ 0 then ill else .ok (tgBarGo s b g gr p rest rs1 true)
  | 2, 2 =>
    if rd ≠ 0 ∨ rs1 ≠ 0 ∨ rs2 ≠ 0 then ill
    else .ok (pathMove s b g (retireAll gr p.mask) p rest (lanes.map (fun l => ⟨l, p.pc + 4, false⟩)) true)
  | 2, 3 =>
    if rd ≠ 0 ∨ rs1 ≠ 0 ∨ rs2 ≠ 0 then ill
    else .ok (pathMove s b g gr p rest (lanes.map (fun l => ⟨l, 0, true⟩)) false)
  | 3, 4 =>
    if rd ≠ 0 ∨ rs2 ≠ 0 then ill
    else fin (lanes.foldl (fun g2 l => setLane g2 l { thOf g2 l with scope := BitVec.ofNat 2 (x l rs1).toNat }) gr) s
  | 3, f7 =>
    if 3 < f7 ∨ rd ≠ 0 ∨ rs1 ≠ 0 ∨ rs2 ≠ 0 then ill
    else if f7 < 2 then fin gr s else fence (f7 == 3)
  | 4, f7 =>
    if 1 < f7 ∨ rs2 ≠ 0 ∨ (f7 = 1 ∧ rd ≠ 0) then ill
    else match lockLanes b g bl (f7 == 0) rd rs1 lanes gr s with
    | ((some (_, .wait), _, _), s) => .wait s
    | ((some (l, .trap c v a), _, _), s) => .trap l c v a s
    | ((_, gr, failed), s) => .ok (pathMove s b g (retireAll gr p.mask) p rest (lanes.map (fun l => ⟨l, p.pc + 4, false⟩)) failed)
  | 5, 0 => if rd ≠ 0 ∨ rs2 ≠ 0 ∨ byteIll then ill else fin gr (signal s b byte)
  | 5, 1 =>
    if rd ≠ 0 ∨ byteIll then ill
    else .ok (pathHold s b g gr p rest (.fwait (BitVec.ofNat 8 byte) (BitVec.ofNat 32 (x l0 rs2).toNat)))
  | 5, 2 =>
    if byteIll then ill
    else
      let v := BitVec.ofNat 64 (if byteK byte then cnt s b (byteIdx byte) else b2n (flagIs s b (byteIdx byte)))
      some? (fun _ => v)
  | 6, 0 =>
    let v := (x l0 rs1).toNat + 2 ^ 64 * (x l0 rs2).toNat
    if rd ≠ 0 then ill
    else if xtgBad v ∨ bits v 127 79 ≠ 0 then .refuse 19 s
    else .ok (pathHold s b g gr p rest (.gth ⟨bits v 20 20 % 2, Nat.mod_lt _ (by decide)⟩ (gthOpOf v) (BitVec.ofNat 8 (bits v 15 8))))
  | 7, 0 =>
    let v := (x l0 rs1).toNat + 2 ^ 64 * (x l0 rs2).toNat
    if rd ≠ 0 then ill
    else if xtgBad v ∨ bits v 127 126 ≠ 0 then .refuse 19 s
    else if arrCount s b < bits v 22 20 + 2 ^ bits v 24 23 then .refuse 3 s
    else .ok (pathHold s b g gr p rest (.mtx (mtxOf v) (BitVec.ofNat 8 (bits v 15 8))))
  | _, _ => ill

/-- What an Xtg instruction comes to, as the TGU takes it: an exception stops it (R221), a refusal by R214 likewise; an access that has to wait leaves
the rest of the state as it was. -/
def xtgTake (s : State) (b : BayId) (gr : Group) (p : Path) (r : XtgRes) : State :=
  let first := tguClean s b
  match r with
  | .ok s => s
  | .wait s => s
  | .trap l c v a s => tguTrap s b gr l c p.pc v (if a then 3 else 18) first
  | .refuse bit s =>
    let s := if first then wr s (.tgu b) tguTrapPc p.pc.toNat else s
    raise s (.tgu b) { bit := bit, unit := tguUnit gr, stop := true }

/-- TG.LOCK and TG.UNLOCK wait as a whole: their accesses are first looked at without effect. -/
def xtgWaits (s : State) (b : BayId) (gr : Group) (bl : Block) (p : Path) (w : Nat) : Option State :=
  if bits w 14 12 ≠ 4 then none
  else (lanesOf p.mask).findSome? (fun l => match thTarget s b bl (thX (thOf gr l) (bits w 19 15)).toNat 8 .write with
    | (.wait, s) => some s
    | _ => none)

/-- An Xtg instruction of the given word on the current path of group g. -/
def xtgGo (s : State) (b : BayId) (g : Fin 64) (w : Nat) : State :=
  match groupReady s b g with
  | none => s
  | some (gr, p, rest, s1) => match blockOf s b gr.block.val with
    | none => s
    | some bl => match xtgWaits s1 b gr bl p w with
      | some s2 => s2
      | none => xtgTake s1 b gr p (xtgExec s1 b g gr bl p rest w)

/-- The word of an Xtg instruction (R208). -/
def encXtg (f3 f7 rd rs1 rs2 : Nat) : Nat := encR 0x2B f3 f7 rd rs1 rs2

/-! ### Instructions. -/

/-- The lanes of a path run a word one after the other, up to the first that meets an exception or has to wait. -/
def lanesRun (b : BayId) (g : Fin 64) (bl : Block) (w : Nat) (pc : BitVec 64) (chk : Check) :
    List Nat → Group → State → (Option (Nat × LaneRes) × Group × List LaneNext × Bool) × State
  | [], gr, s => ((none, gr, [], false), s)
  | l :: ls, gr, s =>
    match laneExec s b g gr bl ⟨l % 32, Nat.mod_lt _ (by decide)⟩ w pc chk with
    | (.ok t nx tk, s) =>
      let y := lanesRun b g bl w pc chk ls (setLane gr l { t with instret := t.instret + 1 }) s
      ((y.1.1, y.1.2.1, ⟨l, nx, tk⟩ :: y.1.2.2.1, y.1.2.2.2), y.2)
    | (.fence _, s) =>
      let y := lanesRun b g bl w pc chk ls gr s
      ((y.1.1, y.1.2.1, y.1.2.2.1, true), y.2)
    | (r, s) => ((some (l, r), gr, [], false), s)

/-- An access of some lane that has to wait, found without any effect but what the wait itself asks for. -/
def lanesWait (s : State) (b : BayId) (g : Fin 64) (gr : Group) (bl : Block) (p : Path) (w : Nat) : Option State :=
  (lanesOf p.mask).findSome? (fun l => match laneExec s b g gr bl ⟨l % 32, Nat.mod_lt _ (by decide)⟩ w p.pc .ok with
    | (.wait, s) => some s
    | _ => none)

/-- R194: the current path of group g runs the word fetched at its PC for its active threads. -/
def threadStep (s : State) (b : BayId) (g : Fin 64) (chk : Check) : State :=
  match groupReady s b g with
  | none => s
  | some (gr, p, rest, s1) => match blockOf s b gr.block.val with
    | none => s
    | some bl =>
      let first := tguClean s b
      match thFetch s1 b (tguUnit gr) p.pc chk with
      | (.inr none, s) => s
      | (.inr (some (c, abs)), s) => tguTrap s b gr (firstLane p) c p.pc p.pc (if abs then 3 else 18) first
      | (.inl w, s) =>
        if w % 128 = 0x2B then
          match xtgWaits s b gr bl p w with
          | some s => s
          | none => xtgTake s b gr p (xtgExec s b g gr bl p rest w)
        else match lanesWait s b g gr bl p w with
        | some s => s
        | none => match lanesRun b g bl w p.pc chk (lanesOf p.mask) gr s with
          | ((some (l, .trap c v a), _, _, _), s) => tguTrap s b gr l c p.pc v (if a then 3 else 18) first
          | ((some _, _, _, _), _) => s
          | ((none, gr, nx, fence), s) =>
            if fence then pathHold s b g gr p rest (.fence false)
            else pathMove s b g gr p rest nx false

/-- R484: a residue or parity check of the thread-group unit fails: POISON, and the first active thread of the group's current path takes an
access fault (its TRAP_VAL is open, log 122). -/
def threadLogic (s : State) (b : BayId) (g : Fin 64) : State :=
  match groupReady s b g with
  | none => s
  | some (gr, p, _, s) =>
    let first := tguClean s b
    tguTrap (logicCheck s (.tgu b) (tguUnit gr) .logic) b gr (firstLane p) 5 p.pc (Config.trapValue 5 0) 18 first

/-- THREAD_INSTRUCTION. -/
def execThreadInstruction (b : BayId) (g : Fin 64) (chk : Check) (u : Upset) (s : State) : Out :=
  if !pgWorks s (.tgu b) then .next s
  else if u = .logic then .next (threadLogic s b g)
  else .next (threadStep (storeUpset s b u) b g chk)

/-- R202, R203: the groups that can issue, oldest first. -/
def readyGroups (s : State) (b : BayId) (ready : BitVec 64) : List (Fin 64 × Nat × Nat × Nat) :=
  (List.finRange 64).filterMap (fun g => match groupOf s b g.val with
    | none => none
    | some gr =>
      if bitOf ready.toNat g.val && gr.paths.any (fun p => p.hold == .none) then
        (blockOf s b gr.block.val).map (fun bl => (g, bl.order, gr.num, gr.waited))
      else none)

/-- The oldest of some groups. -/
def oldestGroup (l : List (Fin 64 × Nat × Nat × Nat)) : Option (Fin 64 × Nat × Nat × Nat) :=
  l.foldl (fun (a : Option (Fin 64 × Nat × Nat × Nat)) x => match a with
    | none => some x
    | some y => if x.2.1 < y.2.1 ∨ (x.2.1 = y.2.1 ∧ x.2.2.1 < y.2.2.1) then some x else some y) none

/-- TGU_ISSUE (R202, R203): on an admitted step up to two groups issue; `ready` says which groups have their operands and their unit. -/
def execTguIssue (b : BayId) (ready : BitVec 64) (s : State) : Out :=
  if !pgWorks s (.tgu b) then .next s
  else
    let l := readyGroups s b ready
    let g0 := oldestGroup l
    let l1 := l.filter (fun x => some x.1 != g0.map (·.1))
    let most := l1.foldl (fun m x => max m x.2.2.2) 0
    let g1 := if 32 ≤ most then oldestGroup (l1.filter (fun x => x.2.2.2 == most)) else oldestGroup l1
    let go := (g0.toList ++ g1.toList).map (·.1)
    let s := (List.finRange 64).foldl (fun s g => match groupOf s b g.val with
      | none => s
      | some gr =>
        let waits := l.any (fun x => x.1 == g) && !go.contains g
        setGroup s b g.val (some { gr with waited := if waits then gr.waited + 1 else 0 })) s
    .next (go.foldl (fun s g => threadStep s b g .ok) s)

/-- TG.ID. -/
def execTgId (b : BayId) (g : Fin 64) (rd rs1 : Fin 32) (s : State) : Out := .next (xtgGo s b g (encXtg 0 0 rd.val rs1.val 0))
/-- TG.VOTE.ANY. -/
def execTgVoteAny (b : BayId) (g : Fin 64) (rd rs1 : Fin 32) (s : State) : Out := .next (xtgGo s b g (encXtg 0 1 rd.val rs1.val 0))
/-- TG.VOTE.ALL. -/
def execTgVoteAll (b : BayId) (g : Fin 64) (rd rs1 : Fin 32) (s : State) : Out := .next (xtgGo s b g (encXtg 0 2 rd.val rs1.val 0))
/-- TG.BALLOT. -/
def execTgBallot (b : BayId) (g : Fin 64) (rd rs1 : Fin 32) (s : State) : Out := .next (xtgGo s b g (encXtg 0 3 rd.val rs1.val 0))
/-- TG.SHFL.IDX. -/
def execTgShflIdx (b : BayId) (g : Fin 64) (rd rs1 rs2 : Fin 32) (s : State) : Out := .next (xtgGo s b g (encXtg 1 0 rd.val rs1.val rs2.val))
/-- TG.SHFL.UP. -/
def execTgShflUp (b : BayId) (g : Fin 64) (rd rs1 rs2 : Fin 32) (s : State) : Out := .next (xtgGo s b g (encXtg 1 1 rd.val rs1.val rs2.val))
/-- TG.SHFL.DN. -/
def execTgShflDn (b : BayId) (g : Fin 64) (rd rs1 rs2 : Fin 32) (s : State) : Out := .next (xtgGo s b g (encXtg 1 2 rd.val rs1.val rs2.val))
/-- TG.SHFL.XOR. -/
def execTgShflXor (b : BayId) (g : Fin 64) (rd rs1 rs2 : Fin 32) (s : State) : Out := .next (xtgGo s b g (encXtg 1 3 rd.val rs1.val rs2.val))
/-- TG.BAR. -/
def execTgBar (b : BayId) (g : Fin 64) (rs1 : Fin 32) (s : State) : Out := .next (xtgGo s b g (encXtg 2 0 0 rs1.val 0))
/-- TG.BAR.ARV. -/
def execTgBarArv (b : BayId) (g : Fin 64) (rs1 : Fin 32) (s : State) : Out := .next (xtgGo s b g (encXtg 2 1 0 rs1.val 0))
/-- TG.YIELD. -/
def execTgYield (b : BayId) (g : Fin 64) (s : State) : Out := .next (xtgGo s b g (encXtg 2 2 0 0 0))
/-- TG.EXIT. -/
def execTgExit (b : BayId) (g : Fin 64) (s : State) : Out := .next (xtgGo s b g (encXtg 2 3 0 0 0))
/-- TG.FENCE.G. -/
def execTgFenceG (b : BayId) (g : Fin 64) (s : State) : Out := .next (xtgGo s b g (encXtg 3 0 0 0 0))
/-- TG.FENCE.B. -/
def execTgFenceB (b : BayId) (g : Fin 64) (s : State) : Out := .next (xtgGo s b g (encXtg 3 1 0 0 0))
/-- TG.FENCE.D. -/
def execTgFenceD (b : BayId) (g : Fin 64) (s : State) : Out := .next (xtgGo s b g (encXtg 3 2 0 0 0))
/-- TG.FENCE.S. -/
def execTgFenceS (b : BayId) (g : Fin 64) (s : State) : Out := .next (xtgGo s b g (encXtg 3 3 0 0 0))
/-- TG.SCOPE. -/
def execTgScope (b : BayId) (g : Fin 64) (rs1 : Fin 32) (s : State) : Out := .next (xtgGo s b g (encXtg 3 4 0 rs1.val 0))
/-- TG.LOCK. -/
def execTgLock (b : BayId) (g : Fin 64) (rd rs1 : Fin 32) (s : State) : Out := .next (xtgGo s b g (encXtg 4 0 rd.val rs1.val 0))
/-- TG.UNLOCK. -/
def execTgUnlock (b : BayId) (g : Fin 64) (rs1 : Fin 32) (s : State) : Out := .next (xtgGo s b g (encXtg 4 1 0 rs1.val 0))
/-- TG.FSIG. -/
def execTgFsig (b : BayId) (g : Fin 64) (rs1 : Fin 32) (s : State) : Out := .next (xtgGo s b g (encXtg 5 0 0 rs1.val 0))
/-- TG.FWAIT. -/
def execTgFwait (b : BayId) (g : Fin 64) (rs1 rs2 : Fin 32) (s : State) : Out := .next (xtgGo s b g (encXtg 5 1 0 rs1.val rs2.val))
/-- TG.FTEST. -/
def execTgFtest (b : BayId) (g : Fin 64) (rd rs1 : Fin 32) (s : State) : Out := .next (xtgGo s b g (encXtg 5 2 rd.val rs1.val 0))
/-- TG.GTH. -/
def execTgGth (b : BayId) (g : Fin 64) (rs1 rs2 : Fin 32) (s : State) : Out := .next (xtgGo s b g (encXtg 6 0 0 rs1.val rs2.val))
/-- TG.MTX. -/
def execTgMtx (b : BayId) (g : Fin 64) (rs1 rs2 : Fin 32) (s : State) : Out := .next (xtgGo s b g (encXtg 7 0 0 rs1.val rs2.val))

/-! ### What releases a path. -/

/-- The path of group g that holds a lane is released by `go`, if it answers. -/
def releasePath (s : State) (b : BayId) (g : Fin 64) (lane : Fin 32) (go : Group → Path → Option State) : State :=
  if !pgWorks s (.tgu b) then s
  else match groupOf s b g.val with
  | none => s
  | some gr => match gr.paths.find? (fun p => bitOf p.mask.toNat lane.val) with
    | none => s
    | some p => match go gr p with
      | none => s
      | some s2 => match groupOf s2 b g.val with
        | none => s2
        | some gr2 => setGroup s2 b g.val (some { gr2 with paths := gr2.paths.map (fun q => if q.mask = p.mask then { q with hold := .none } else q) })

/-- A thread of a group as a gather names the one that submitted it. -/
def threadName (s : State) (b : BayId) (gr : Group) (lane : Nat) : Option (BitVec 32 × Nat) :=
  (blockOf s b gr.block.val).map (fun bl => (bl.seq, tidOf gr lane))

/-- R218: a remote read of a gather that a thread of the path submitted has not completed. -/
def remoteReads (s : State) (b : BayId) (gr : Group) (p : Path) : Bool :=
  (bayOf s b).gths.any (fun x => x.2.any (fun r =>
    (gthDesc r.desc).space == 2 && r.fail.isNone && r.done.length != r.op.count.toNat &&
    (lanesOf p.mask).any (fun l => r.thread.isSome && r.thread == threadName s b gr l)))

/-- TG_FENCE_DONE (R218): the outstanding accesses of a D or S fence are acknowledged; an S fence also waits for the remote reads of the gathers
that the path's threads submitted. -/
def execTgFenceDone (b : BayId) (g : Fin 64) (lane : Fin 32) (s : State) : Out :=
  .next (releasePath s b g lane (fun gr p => match p.hold with
    | .fence sys => if sys && remoteReads s b gr p then none else some s
    | _ => none))

/-- R202: group x is older than group y. -/
def olderGroup (s : State) (b : BayId) (x y : Group) : Bool :=
  let o := fun (z : Group) => ((blockOf s b z.block.val).map (·.order)).getD 0
  decide (o x < o y ∨ (o x = o y ∧ x.num < y.num))

/-- No group older than `gr` has a path with a hold for which `f` holds. -/
def oldestFor (s : State) (b : BayId) (gr : Group) (f : Hold → Bool) : Bool :=
  (List.range 64).all (fun g => match groupOf s b g with
    | none => true
    | some x => !(olderGroup s b x gr && x.paths.any (fun p => f p.hold)))

/-- Whether a hold is a wait on the flag of index f. -/
def holdsOnFlag (f : Nat) (h : Hold) : Bool :=
  match h with
  | .fwait w _ => byteV w.toNat && !byteK w.toNat && byteIdx w.toNat == f
  | _ => false

/-- The docent waits in DC.WAIT on the flag of index f. -/
def docOnFlag (s : State) (b : BayId) (f : Nat) : Bool :=
  pgState s (.doc b) == 4 && (match (bayOf s b).doc.stall with
    | .wait w _ => byteV w.toNat && !byteK w.toNat && byteIdx w.toNat == f
    | _ => false)

/-- R210: of the waits that one flag could satisfy, that of path p comes first: after the queues' and the docent's, by the age of its group, and
within the group by path PC. -/
def fwaitFirst (s : State) (b : BayId) (gr : Group) (p : Path) (w : Nat) : Bool :=
  let f := byteIdx w
  !byteV w || byteK w ||
    ((flagWaiters s b f).isEmpty && !docOnFlag s b f && oldestFor s b gr (holdsOnFlag f) &&
      gr.paths.all (fun q => !(holdsOnFlag f q.hold && decide (q.pc.toNat < p.pc.toNat))))

/-- TG_FWAIT_SATISFIED (R210, R175). -/
def execTgFwaitSatisfied (b : BayId) (g : Fin 64) (lane : Fin 32) (s : State) : Out :=
  .next (releasePath s b g lane (fun gr p => match p.hold with
    | .fwait w t => if waitOk s b w.toNat t.toNat && fwaitFirst s b gr p w.toNat then some (waitTake s b w.toNat) else none
    | _ => none))

/-- R214: no long-word slot `i` whose value names the same engine offers to it and could enter it. -/
def slotsYield (s : State) (b : BayId) (i : Nat) (same : Nat → Bool) : Bool :=
  (List.finRange 4).all (fun q => match slotOffers s b q i with
    | some (_, w) => !(same w && slotAccepts s b q i w)
    | none => true)

/-- Two matrix operations meet in an array. -/
def sameArrays (x y : MtxOp) : Bool := (gangOf x).any (fun a => (gangOf y).contains a)

/-- R214, R215: the operation on which a path is held goes first: no long-word slot and no older group offers to the same engine. -/
def xtgFirst (s : State) (b : BayId) (gr : Group) (h : Hold) : Bool :=
  match h with
  | .mtx op _ => slotsYield s b 1 (fun w => sameArrays op (mtxOf w)) &&
      oldestFor s b gr (fun h => match h with | .mtx o _ => sameArrays op o && mmaAccepts s b o | _ => false)
  | .gth e _ _ => slotsYield s b 4 (fun w => bits w 20 20 == e.val) &&
      oldestFor s b gr (fun h => match h with | .gth e' _ _ => e' == e | _ => false)
  | _ => true

/-- XTG_HANDSHAKE (R214, R215): the engine accepts the operation, and the path resumes. `u`: what SECDED finds in what the engine reads at the
handshake. -/
def execXtgHandshake (b : BayId) (g : Fin 64) (lane : Fin 32) (u : Upset) (s : State) : Out :=
  .next (releasePath s b g lane (fun gr p =>
    if !xtgFirst s b gr p.hold then none
    else match p.hold with
    | .mtx op sig => if mmaAccepts s b op then some (mmaIssue (storeUpset s b u) b op (.group g) sig) else none
    | .gth e op sig =>
      if gthAccepts s b e then some (gatherIssue (storeUpset s b u) b e op (.group g) sig (threadName s b gr (firstLane p))) else none
    | _ => none))

/-- BARRIER_RESUME (R212): the paths held at a completed phase of barrier n resume. -/
def execBarrierResume (b : BayId) (k : Fin 8) (n : Fin 16) (s : State) : Out :=
  if !pgWorks s (.tgu b) then .next s
  else .next ((groupsOf s b k.val).foldl (fun s x => setGroup s b x.1 (some { x.2 with
    paths := x.2.paths.map (fun p => if p.hold = .barDone n then { p with hold := .none } else p) })) s)

/-- BARRIER_STRANDED (R213): a phase that has begun is still incomplete after BAR_TIMEOUT steps. -/
def execBarrierStranded (b : BayId) (k : Fin 8) (n : Fin 16) (s : State) : Out :=
  let p := Page.tgu b
  match blockOf s b k.val with
  | none => .next s
  | some bl =>
    let br := mget {} bl.barriers n.val
    if !pgWorks s p ∨ !br.begun then .next s
    else
      let live := liveThreads s b k.val
      let all := (bl.threads + 31) / 32 * 32
      let here := (List.range all).filter (fun t => br.arrived.contains t || !live.contains t)
      let s := if tguClean s b then
          let s := wr (wr (wr s p tguStrandBarrier n.val) p tguStrandBlock k.val) p tguStrandArrived here.length
          (List.range 16).foldl (fun s i => wr s p (tguStrandMask i)
            ((here.filter (fun t => t / 64 == i)).foldl (fun v t => v + 2 ^ (t % 64)) 0)) s
        else s
      .next (setEvt (raise s p { bit := 17, unit := k.val * 32 + n.val, stop := true }) p 17)

/-- BLOCK_COMPLETE (R200): 4 steps after the last thread has exited. -/
def execBlockComplete (b : BayId) (k : Fin 8) (s : State) : Out :=
  let p := Page.tgu b
  match (tguOf s b).ended.find? (fun x => x.1 == k.val) with
  | none => .next s
  | some x =>
    if pgState s p = 0 then .next s
    else
      let s := modTgu s b (fun t => { t with ended := t.ended.erase x })
      .next (opDone (setEvt (wrapAdd s p tguCompleted 1) p 16) b x.2.id)

end Sys2Proof.Machine
end

