-- ==== Sys2Proof/Machine/Dcs.lean ====
section
/-! DEFINITION. The device control space (R10, R11, R42 to R52, R65 to R68): reading and writing any register by offset and width, the
tables, the docent's memory port (R187), and the host-queue's DCS entries (R440). -/

namespace Sys2Proof.Machine

/-- R492: how INFO names a requester. -/
def requesterCode : Requester → Nat
  | .core n => n.val | .docent b => 0x100 + b.val | .host => 0x200 | .hubFirmware => 0x300 | .mgFirmware => 0x301

/-- R43: an access of 4 or 8 bytes, naturally aligned. -/
def dcsAligned (off size : Nat) : Bool := (size == 4 || size == 8) && off % size == 0

/-- R43: any other access changes no register and is logged. -/
def dcsRefuse (s : State) (who : Requester) : State :=
  if held s then s else logWrite s 0 (pgId .hub) 0x102 1 false (requesterCode who)

/-- The state a total command leaves. -/
def after (s : State) : Out → State
  | .next t => t
  | _ => s

/-! ### Windows on fields. -/

/-- A field as a read finds it: first bit within its page, width, value. -/
structure FieldVal where
  bit : Nat
  width : Nat
  val : Nat
deriving DecidableEq, Repr

/-- The bits that `size` bytes at `off` show of a field. -/
def FieldVal.part (f : FieldVal) (off size : Nat) : Nat :=
  let lo := max f.bit (8 * off)
  let hi := min (f.bit + f.width) (8 * (off + size))
  if hi ≤ lo then 0 else f.val / 2 ^ (lo - f.bit) % 2 ^ (hi - lo) * 2 ^ (lo - 8 * off)

/-- What a write of `size` bytes at `off` carries for a field: the mask of the field's bits it covers and their values; none where it
covers nothing. -/
def covered (bit width off size value : Nat) : Option (Nat × Nat) :=
  let lo := max bit (8 * off)
  let hi := min (bit + width) (8 * (off + size))
  if hi ≤ lo then none
  else some ((2 ^ (hi - lo) - 1) * 2 ^ (lo - bit), value / 2 ^ (lo - 8 * off) % 2 ^ (hi - lo) * 2 ^ (lo - bit))

/-- A value with the bits of a mask replaced. -/
def merge (old mask v : Nat) : Nat := old - (old &&& mask) + v

/-! ### Reads. -/

/-- The registers that are computed when read, brought up to date: R19, R189, R361, R376, R384, R428, R450, R519. -/
def pageShow (s : State) (p : Page) : State :=
  match p with
  | .issue b => wr (issueShow s b) p issArrays (arrCount s b)
  | .pdCtl d =>
    let mask := fun (st : Nat) => ((List.finRange 192).filter (fun n => n.val / 48 == d.val && pgState s (.core n) == st)).foldl
      (fun v n => v + 2 ^ (n.val % 48)) 0
    wr (wr s p pdRunMask (mask 4)) p pdOffMask (mask 1)
  | .router f => wr (wr s p rtrFepoch (fepoch s)) p rtrRtData (mget 0 s.routes (f.val * 65536 + rd s p rtrRtIndex)).toNat
  | .ce _ => wr s p ceJobLead (b2n (rd s p ceLead == myRank s && rankValid s))
  | .host => wr s p hostTracked (hostLines s).length
  | .sec =>
    let e := ledgerBytes (mget none s.mg.ledger (rd s .sec secLedgerIdx))
    (List.range 4).foldl (fun s k => wr s .sec (secLedgerData k) (fieldAt e (8 * k) 8)) s
  | _ => s

/-- R51: PG_CAP; R122: an array shows whether its check column and its spare serve. -/
def pgCap (s : State) (p : Page) : Nat :=
  let blk := match p with
    | .arr _ _ =>
      let m := rd s p arrCheckMode
      p.block + 16 * b2n (decide (m ≤ 2)) + 32 * b2n (m != 3 && (match p with | .arr b a => (arrOf s b a.val).heldMode != 3#3 | _ => true))
    | _ => p.block
  b2n p.runctl * 2 ^ 31 + b2n p.sleepctl * 2 ^ 30 + b2n p.epochchk * 2 ^ 29 + b2n p.retained * 2 ^ 28 + blk

/-- The five context words of a flow (R371). -/
def ctxWord (v : FlowState) (w : Nat) : BitVec 64 :=
  match w with | 0 => v.ctx0 | 1 => v.ctx1 | 2 => v.ctx2 | 3 => v.ctx3 | _ => v.ctx4

/-- Every field of a page that reads as something: R46, R51, R66 (GRADE), R302, R385, and the stored ones. An ABSENT page shows only PG_ID,
PG_VER and PG_STATE. -/
def pageFields (s : State) (p : Page) : List FieldVal :=
  let id : List FieldVal := [⟨0, 32, pgId p⟩, ⟨32, 32, 0x01000000⟩]
  if pgState s p = 0 then id
  else
    let s := pageShow s p
    let own : List FieldVal := match p with
      | .hub => [⟨0x800, 8, gradeCode s⟩, ⟨0x808, 4, if s.fuses.gradeB then 7 else 8⟩, ⟨0x810, 8, 48⟩]
      | .flow f => (List.range 5).map (fun w => ⟨8 * (0x140 + 8 * w), 64, (ctxWord (flw s (selFlow s f)) w).toNat⟩)
      | .coh => [⟨8 * 0x200, 2048, leNat (slice s.coh.dumpData 0 256)⟩]
      | _ => []
    id ++ [⟨64, 32, pgCap s p⟩] ++ own ++ (hdrRows ++ pageRows p).map (fun r => ⟨8 * r.off + r.lsb, r.width, rd s p r⟩)

/-- A read of `size` bytes of a page. -/
def pageRead (s : State) (p : Page) (off size : Nat) : Nat := ((pageFields s p).map (fun f => f.part off size)).sum

/-- R187: MEM_DATA: 8 bytes of the memory that MEM_ADDR selects. -/
def docMemBytes (s : State) (b : BayId) : SMap Byte × Nat :=
  let d := (bayOf s b).doc
  (if rd s (.doc b) docMemAddrSpace = 1 then d.dmem else d.imem, 8 * rd s (.doc b) docMemAddrOffset)

/-- R187: a read or write of MEM_DATA: outside STOPPED a read returns 0 and changes nothing, and a write sets CFG_LOCKED (R10). -/
def memData (s : State) (b : BayId) (write : Option (BitVec 64)) : Nat × State :=
  let p := Page.doc b
  let st := pgState s p
  let step := fun (s : State) => wrapAdd s p docMemAddrOffset 1
  let m := docMemBytes s b
  if st = 0 then (0, s)
  else match write with
  | none =>
    if st ≠ 2 then (0, s)
    else (leNat ((List.range 8).map (fun i => mget 0 m.1 (m.2 + i))), step s)
  | some v =>
    if st ≠ 2 then (0, cfgLocked s p 0x118)
    else
      let new := putBytes m.1 m.2 (toLE 8 v.toNat)
      (0, step (modBay s b (fun y => { y with doc := if rd s p docMemAddrSpace = 1 then { y.doc with dmem := new } else { y.doc with imem := new } })))

/-- MEM_DATA_ACCESS. -/
def execMemDataAccess (b : BayId) (write : Option (BitVec 64)) (s : State) : Out :=
  let r := memData s b write
  .next (if write.isNone then { r.2 with resp := toLE 8 r.1 } else r.2)

/-- R68: the 32 bytes of a log entry. -/
def logBytes : Option LogEntry → List Byte
  | none => List.replicate 32 0
  | some e => toLE 8 e.time.toNat ++ toLE 8 e.addr.toNat ++ toLE 4 e.src.toNat ++ toLE 2 e.code.toNat ++ [e.sev, if e.va then 1 else 0] ++
      toLE 4 e.info.toNat ++ toLE 4 e.seq.toNat

/-- R45, R46: a read of `size` bytes at a DCS offset. A 4-byte read of MEM_DATA shows nothing and moves nothing (DESIGN CHOICE, log 45). -/
def dcsRead (s : State) (off size : Nat) : Nat × State :=
  if held s then (0, s)
  else if 0x1000 ≤ off ∧ off < 0x3000 then
    (fieldAt (logBytes (mget none s.log ((off - 0x1000) / 32))) (off % 32) size, s)
  else if 0x2B00000 ≤ off ∧ off < 0x2B20000 then
    (fieldAt (toLE 8 (mget 0 s.catalogue ((off - 0x2B00000) / 8)).toNat) (off % 8) size, s)
  else match pageOfSlot (off / 4096) with
  | none => (0, s)
  | some p => match p, off % 4096, size with
    | .doc b, 0x118, 8 => memData s b none
    | _, o, _ => (pageRead s p o size, s)

/-! ### Writes. -/

/-- R52: PG_CTRL: CLR_ERR first, then the command of highest precedence. -/
def ctrlWrite (s : State) (p : Page) (v : Nat) : State :=
  let s := if bitOf v 3 then after s (execClrErr p s) else s
  if bitOf v 2 then after s (execReset p s)
  else if bitOf v 1 then after s (execStop p s)
  else if bitOf v 4 then after s (execSleep p s)
  else if bitOf v 5 then after s (execWake p s)
  else if bitOf v 0 then after s (execRun p s)
  else s

/-- R371: the fields of context words that software may write while the flow is CLOSED: the mask of each word. -/
def ctxMask (w : Nat) : Nat :=
  match w with
  | 0 => (2 ^ 34 - 1) + (2 ^ 11 - 1) * 2 ^ 36
  | 2 => (2 ^ 56 - 1) * 2 ^ 8
  | 3 => 31 + (2 ^ 15 - 1) * 2 ^ 8
  | _ => 0

/-- R371: a write to CTXw of the flow that SEL names. -/
def ctxWrite (s : State) (f : Fin 2) (w mask v off : Nat) : State :=
  let i := selFlow s f
  let u := flw s i
  let m := mask &&& ctxMask w
  if m = 0 then s
  else if flwSt u ≠ 0 then cfgLocked s (.flow f) off
  else
    let new := BitVec.ofNat 64 (merge (ctxWord u w).toNat m (v &&& m))
    setFlw s i (match w with | 0 => { u with ctx0 := new } | 2 => { u with ctx2 := new } | 3 => { u with ctx3 := new } | _ => u)

/-- Registers of 64 bits whose write does more than store: the page, the offset of the register, the mask and value of the bits written, the
width and offset of the access; none for the others. -/
def write64 (s : State) (p : Page) (o mask v size off : Nat) : Option State :=
  let w64 := BitVec.ofNat 64 v
  match p with
  | .mgpwr => if o = 0x100 ∧ size = 8 then some (pwrStore s (some (v % 4)) (some (v / 2 ^ 32 % 2 ^ 13)) none 0x100) else none
  | .doc b => if o = 0x118 then some (if size = 8 then (memData s b (some w64)).2 else if pgState s p = 2 then s else cfgLocked s p off) else none
  | .issue b =>
    if 0x120 ≤ o ∧ o < 0x160 ∧ o % 16 = 0 then some (afWrite s b ((o - 0x120) / 16) size w64) else none
  | .sync b =>
    if o = 0x108 then some (fsetWrite s b v) else if o = 0x110 then some (fclrWrite s b v) else none
  | .coh => if o = 0x130 then
      some (after s (execDumpAddrWrite (BitVec.ofNat 64 (merge (rd s p cohDumpAddr * 256) mask v)) s)) else none
  | .flow f =>
    if 0x140 ≤ o ∧ o < 0x168 then some (ctxWrite s f ((o - 0x140) / 8) mask v off)
    else if 0x200 ≤ o ∧ o < 0x400 then
      match finOf 64 ((o - 0x200) / 8) with
      | some n => some (after s (execDomWrite f n (BitVec.ofNat 64 (merge (rd s p (flowDom n.val)) mask v)) s))
      | none => none
    else none
  | _ => none

/-- The number of a compute unit of a page with CEIL. -/
def ceilUnit : Page → Option (Fin 72)
  | .pace b => some ⟨b.val, by omega⟩
  | .clus d j => some ⟨48 + 6 * d.val + j.val, by omega⟩
  | _ => none

/-- R269, R270: WAYPWR written whole: each bit that changes powers its way down or up. -/
def waypwrWrite (s : State) (c : CacheId) (v : Nat) : State :=
  (List.finRange 24).foldl (fun s w =>
    let on := bitOf (rd s c.page cacheWaypwr) w.val
    if bitOf v w.val = on then s else after s (if on then execWayPowerDown c w s else execWayPowerUp c w s)) s

/-- R426: the commands of CE.CMD, each bit in order. -/
def ceCmdWrite (s : State) (f : Fin 2) (v : Nat) : State :=
  let run := fun (i : Nat) (k : State → Out) (s : State) => if bitOf v i then after s (k s) else s
  run 5 (execResume f) (run 4 (execAccLoaded f) (run 3 (execAccStart f) (run 2 (execLeave f)
    (run 1 (execAdmitMembers f (BitVec.ofNat 16 (v / 65536))) (run 0 (execCmdCensus f) s)))))

/-- Registers of 32 bits whose write does more than store; none for the others. `o` is the register's offset. -/
def write32 (s : State) (p : Page) (o v : Nat) : Option State :=
  let key := BitVec.ofNat 16 (v / 65536)
  match p with
  | .hub =>
    if o = 0x108 then some (if bitOf v 1 then after s (execModuleReset key s) else if bitOf v 0 then after s (execDomainRestart key s) else s)
    else if o = 0x124 then some (after s (execLogTailWrite (BitVec.ofNat 32 v) s))
    else none
  | .mgpwr =>
    if o = 0x100 then some (after s (execModeWrite (BitVec.ofNat 2 v) s))
    else if o = 0x104 then some (after s (execCapWrite (BitVec.ofNat 13 v) s))
    else if o = 0x120 then some (after s (execTjLimitWrite (BitVec.ofNat 8 v) s))
    else none
  | .sec =>
    if o = 0x124 then
      let s := if bitOf v 0 then after s (execLedgerClrSlot key s) else s
      some (if bitOf v 1 then after s (execLedgerClrRecords key s) else s)
    else if o = 0x128 then some (if v % 16 = 0 then s else after s (execSecCommit key (BitVec.ofNat 4 v) s))
    else none
  | .coh =>
    if o = 0x118 then
      let s := if bitOf v 0 then after s (execSalvage s) else s
      some (if bitOf v 1 then after s (execForceDown key s) else s)
    else none
  | .issue b =>
    if o % 64 = 20 then (finOf 4 ((o - 0x214) / 64)).bind (fun q => if o = 0x214 + 64 * q.val then some (doorbell s b q v) else none)
    else none
  | .sync b => (finOf 16 ((o - 0x180) / 4)).bind (fun n => if o = 0x180 + 4 * n.val then some (cntAdd s b n.val v) else none)
  | .arr b a => if o = 0x108 then some (after s (execCheckEnWrite b a (bitOf v 0) s)) else none
  | .xlate b => if o = 0x110 then some (after s (execXlateInval b (BitVec.ofNat 2 v) key s)) else none
  | .mchan st c =>
    if o = 0x11C then some (after s (execPatrolEnWrite st c (bitOf v 0) (wr s p mchCfgPermLimit (bits v 15 8))))
    else if o = 0x140 then some (if bitOf v 0 then after s (execDeaccession st c key s) else s)
    else none
  | .fport q => if o = 0x108 then some (portHb (wr s p fpSbHoldReq (bits v 8 8)) q) else none
  | .router f => if o = 0x110 then some (after s (execRtDataWrite f (BitVec.ofNat 32 v) s)) else none
  | .flow f =>
    if o = 0x104 then
      some (match v % 4 with
        | 1 => after s (execFlowOpen f s) | 2 => after s (execFlowClose f s) | 3 => after s (execFlowReset f s) | _ => s)
    else none
  | .ce f =>
    if o = 0x178 then some (ceCmdWrite s f v)
    else (finOf 4 ((o - 0x210) / 64)).bind (fun q => if o = 0x210 + 64 * q.val then some (after s (execCeDoorbell f q (BitVec.ofNat 32 v) s)) else none)
  | .host =>
    if o = 0x118 then
      let s := if bitOf v 0 then after s (execClaim key s) else s
      some (if bitOf v 1 then after s (execDetach key s) else s)
    else (finOf 16 ((o - 0x210) / 64)).bind (fun q =>
      if o = 0x210 + 64 * q.val then some (after s (execHqDoorbell q (BitVec.ofNat 32 v) s))
      else if o = 0x224 + 64 * q.val then some (if bitOf v 0 then after s (execHqResume q s) else s)
      else none)
  | _ =>
    match ceilUnit p, cacheOfPage p with
    | some u, _ => if o = 0x104 then some (after s (execCeilWrite u (BitVec.ofNat 6 v) s)) else none
    | none, some c =>
      if o = 0x10C then some (waypwrWrite s c v)
      else if o = 0x130 then some (rangeStart s c (BitVec.ofNat 2 v))
      else (finOf 32 ((o - 0x140) / 4)).bind (fun i =>
        if o = 0x140 + 4 * i.val then some (after s (execWaymaskWrite c i (BitVec.ofNat 24 v) s)) else none)
    | none, none => none

/-- R10, R11: the fields of one 32-bit word written by their access codes; RW fields of a page that is not STOPPED keep their value. -/
def writeRows (s : State) (p : Page) (o v : Nat) : State :=
  (hdrRows ++ pageRows p).foldl (fun s r =>
    match covered (8 * r.off + r.lsb) r.width o 4 v with
    | none => s
    | some (mask, new) => match r.acc with
      | .ro | .w1s => s
      | .w1c => wr s p r (rd s p r - (rd s p r &&& new))
      | .rwl => wr s p r (merge (rd s p r) mask (if r.off = hdrEvtEn.off then new &&& p.evtMask else new))
      | .rw => if pgState s p = 2 then wr s p r (merge (rd s p r) mask new) else s) s

/-- Whether a write covers an RW field of a page. -/
def coversRw (p : Page) (off size : Nat) : Bool :=
  (pageRows p).any (fun r => r.acc == .rw && (covered (8 * r.off + r.lsb) r.width off size 0).isSome)

/-- One 32-bit word of a write. -/
def writeWord (s : State) (p : Page) (o v : Nat) : State :=
  if o = 0x10 then ctrlWrite s p v
  else match write32 s p o v with
  | some s => s
  | none => writeRows s p o v

/-- R10, R11, R52, R56: a write of 4 or 8 bytes to a page. An RW field written while the page is not STOPPED is ignored and sets
CFG_LOCKED with the offset of the write. -/
def pageWrite (s : State) (p : Page) (off size v : Nat) : State :=
  if pgState s p = 0 then s
  else
    let lock := pgState s p ≠ 2 && coversRw p off size && (match p with | .arr _ _ => off / 8 * 8 != 0x108 | .doc _ => off / 8 * 8 != 0x118 | _ => true)
    let sh := 8 * (off % 8)
    let s := match write64 s p (off / 8 * 8) ((2 ^ (8 * size) - 1) * 2 ^ sh) (v * 2 ^ sh) size off with
      | some s => s
      | none =>
        let s := writeWord s p off (v % 2 ^ 32)
        if size = 8 then writeWord s p (off + 4) (v / 2 ^ 32 % 2 ^ 32) else s
    if lock then cfgLocked s p off else s

/-- R45, R46, R68, R362: a write of 4 or 8 bytes at a DCS offset. -/
def dcsWrite (s : State) (who : Requester) (off size v : Nat) : State :=
  if held s then s
  else if 0x2B00000 ≤ off ∧ off < 0x2B20000 then
    if size = 8 then catalogueSet s ((off - 0x2B00000) / 8) (BitVec.ofNat 64 v) else dcsRefuse s who
  else match pageOfSlot (off / 4096) with
  | none => s
  | some p => pageWrite s p (off % 4096) size v

/-- The die of a requester. -/
def requesterDie : Requester → Nat
  | .core n => coreDie n
  | .docent b => bayDie b
  | .host | .hubFirmware => 18
  | .mgFirmware => 19

/-- R335, R339, R345, R349: an access crosses the links between a requester's die and the page's, which is out of reset. -/
def dcsCarried (s : State) (who : Requester) (off : Nat) : Bool :=
  match pageOfSlot (off / 4096) with
  | none => true
  | some p =>
    let a := requesterDie who
    !dieHeld s (pageDie p) && (if a = 19 then mgmtReach s 19 (pageDie p) else dieReach s a (pageDie p))

/-- R43, R300: whether a requester reaches an offset: a core and a docent while they run, a docent only the 256 KiB of its bay, the host while
its link is up, the MG die's firmware while the MG die answers. -/
def dcsReaches (s : State) (who : Requester) (off : Nat) : Bool :=
  dcsCarried s who off && match who with
  | .core n => let st := pgState s (.core n); st == 4 || st == 5
  | .docent b => (let st := pgState s (.doc b); st == 4 || st == 5) && off / 0x40000 == 64 + b.val
  | .host => hostUp s
  | .hubFirmware => true
  | .mgFirmware => !s.mg.lost

/-- HQ_DCS (R440): the payload is written to consecutive registers, 8 bytes at a time. -/
def execHqDcs (q : Fin 16) (s : State) : Out :=
  let e := hqEntry (hqOf s q).entry
  if !hqRuns s q 2 then .next s
  else
    let s := (List.range (e.len / 8)).foldl (fun s i => dcsWrite s .host (e.dst + 8 * i) 8 (fieldAt e.payload (8 * i) 8)) s
    .next (hqExecuted s q)

end Sys2Proof.Machine
end

