-- ==== Sys2Proof/Machine/Harts.lean ====
section
/-! DEFINITION. The state of a processor core as its instructions see it (R18, R20, R21): registers, CSRs, traps, translation, and its
accesses to the DRAM space and the device control space (R25, R43, R262, R486). The architecture is RVA23's (PRESUMED, log 40). -/

namespace Sys2Proof.Machine

/-- A hart changed. -/
def modHart (s : State) (n : CoreId) (f : Hart → Hart) : State := setHart s n (f (hartOf s n))
/-- An integer register; x0 reads 0. -/
def coreX (s : State) (n : CoreId) (r : Nat) : BitVec 64 := if r = 0 then 0 else mget 0 (hartOf s n).x r
/-- An integer register written; x0 keeps 0. -/
def setCoreX (s : State) (n : CoreId) (r : Nat) (v : BitVec 64) : State :=
  if r = 0 then s else modHart s n (fun h => { h with x := mset 0 h.x r v })
/-- A floating register. -/
def coreF (s : State) (n : CoreId) (r : Nat) : BitVec 64 := mget 0 (hartOf s n).f r
/-- A floating register written. -/
def setCoreF (s : State) (n : CoreId) (r : Nat) (v : BitVec 64) : State := modHart s n (fun h => { h with f := mset 0 h.f r v })
/-- CORE.PC. -/
def corePcV (s : State) (n : CoreId) : BitVec 64 := BitVec.ofNat 64 (rd s (.core n) corePc)
/-- The hart goes on at an address. -/
def coreGo (s : State) (n : CoreId) (pc : BitVec 64) : State := wr s (.core n) corePc pc.toNat

/-! ### CSRs, as stored. -/

/-- A CSR's stored value. -/
def csrOf (s : State) (n : CoreId) (k : Nat) : Nat := (mget 0 (hartOf s n).csr k).toNat
/-- A CSR's stored value replaced. -/
def setCsr (s : State) (n : CoreId) (k v : Nat) : State :=
  modHart s n (fun h => { h with csr := mset 0 h.csr k (BitVec.ofNat 64 v) })
/-- A field of a number replaced. -/
def withBits (v lsb w x : Nat) : Nat := v - bits v (lsb + w - 1) lsb * 2 ^ lsb + x % 2 ^ w * 2 ^ lsb

/-- CSR numbers. -/
def csrMstatus : Nat := 0x300
/-- mstatus as stored. -/
def mstatusV (s : State) (n : CoreId) : Nat := csrOf s n csrMstatus
/-- The hart's mode. -/
def modeOf (s : State) (n : CoreId) : Nat := (hartOf s n).mode.toNat

/-- mip: the software-set bits and, while the interrupt file holds an identity, MEIP (log 47). -/
def mipV (s : State) (n : CoreId) : Nat :=
  let v := csrOf s n 0x344
  if (hartOf s n).pendingIntr.isEmpty then v else setBit v 11

/-- mtopei: the lowest identity pending, twice. -/
def topei (s : State) (n : CoreId) : Nat := ((hartOf s n).pendingIntr.min?).getD 0 * 65537

/-! ### Traps. -/

/-- A trap: to S where it is delegated and the mode is S or U, else to M. -/
def coreTrap (s : State) (n : CoreId) (intr : Bool) (cause : Nat) (val : BitVec 64) : State :=
  let h := hartOf s n
  let m := h.mode.toNat
  let toS := decide (m ≤ 1) && bitOf (csrOf s n (if intr then 0x303 else 0x302)) cause
  let ms := mstatusV s n
  let pc := rd s (.core n) corePc
  let code := cause + b2n intr * 2 ^ 63
  let vec := fun (tv : Nat) => BitVec.ofNat 64 (tv / 4 * 4 + (if intr && tv % 4 == 1 then 4 * cause else 0))
  let put := fun (s : State) (e c t st : Nat) => setCsr (setCsr (setCsr (setCsr s n e pc) n c code) n t val.toNat) n csrMstatus st
  if toS then
    let st := withBits (withBits (withBits ms 5 1 (bits ms 1 1)) 1 1 0) 8 1 m
    coreGo (modHart (put s 0x141 0x142 0x143 st) n (fun h => { h with mode := 1 })) n (vec (csrOf s n 0x105))
  else
    let st := withBits (withBits (withBits ms 7 1 (bits ms 3 3)) 3 1 0) 11 2 m
    coreGo (modHart (put s 0x341 0x342 0x343 st) n (fun h => { h with mode := 3 })) n (vec (csrOf s n 0x305))

/-- An illegal instruction. -/
def coreIllegal (s : State) (n : CoreId) (w : Nat) : State := coreTrap s n false 2 (Config.trapValue 2 (BitVec.ofNat 32 w))

/-- The interrupt a hart takes next, if one is pending and enabled for its mode. -/
def coreIntr (s : State) (n : CoreId) : Option Nat :=
  let m := modeOf s n
  let ms := mstatusV s n
  let on := mipV s n &&& csrOf s n 0x304
  let dl := csrOf s n 0x303
  let pick := fun (v : Nat) => [11, 3, 7, 9, 1, 5].find? (fun i => bitOf v i)
  let mInt := if m < 3 || bitOf ms 3 then pick (on - (on &&& dl)) else none
  let sInt := if m = 0 || (m == 1 && bitOf ms 1) then pick (on &&& dl) else none
  mInt.orElse (fun _ => sInt)

/-- MRET. -/
def coreMret (s : State) (n : CoreId) : State :=
  let ms := mstatusV s n
  let mpp := bits ms 12 11
  let st := withBits (withBits (withBits ms 3 1 (bits ms 7 7)) 7 1 1) 11 2 0
  let st := if mpp = 3 then st else withBits st 17 1 0
  coreGo (modHart (setCsr s n csrMstatus st) n (fun h => { h with mode := BitVec.ofNat 2 mpp })) n (BitVec.ofNat 64 (csrOf s n 0x341))

/-- SRET. -/
def coreSret (s : State) (n : CoreId) : State :=
  let ms := mstatusV s n
  let spp := bits ms 8 8
  let st := withBits (withBits (withBits (withBits ms 1 1 (bits ms 5 5)) 5 1 1) 8 1 0) 17 1 0
  coreGo (modHart (setCsr s n csrMstatus st) n (fun h => { h with mode := BitVec.ofNat 2 spp })) n (BitVec.ofNat 64 (csrOf s n 0x141))

/-! ### CSR reads and writes. -/

/-- The bits of mstatus that sstatus shows. -/
def sstatusMask : Nat := 2 ^ 1 + 2 ^ 5 + 3 * 2 ^ 9 + 3 * 2 ^ 13 + 2 ^ 18 + 2 ^ 19 + 2 ^ 8
/-- The bits of mstatus that software writes. -/
def mstatusMask : Nat := sstatusMask + 2 ^ 3 + 2 ^ 7 + 3 * 2 ^ 11 + 2 ^ 17 + 2 ^ 20 + 2 ^ 21 + 2 ^ 22
/-- mstatus or sstatus as read: SD, and 64-bit S and U modes. -/
def statusRead (ms mask : Nat) : Nat :=
  let sd := if bits ms 14 13 = 3 ∨ bits ms 10 9 = 3 then 2 ^ 63 else 0
  sd + 2 * 2 ^ 32 + (if mask = sstatusMask then 0 else 2 * 2 ^ 34) + (ms &&& mask)
/-- Bits of a mask replaced. -/
def under (old mask v : Nat) : Nat := old - (old &&& mask) + (v &&& mask)

/-- The CSRs with a meaning of their own here. -/
def csrKnown (k : Nat) : Bool :=
  [0x1, 0x2, 0x3, 0x8, 0x9, 0xA, 0xF, 0x100, 0x104, 0x105, 0x106, 0x10A, 0x140, 0x141, 0x142, 0x143, 0x144, 0x180, 0x300, 0x301, 0x302,
    0x303, 0x304, 0x305, 0x306, 0x30A, 0x340, 0x341, 0x342, 0x343, 0x344, 0x35C, 0xB00, 0xB02, 0xC00, 0xC01, 0xC02, 0xC20, 0xC21, 0xC22,
    0xF11, 0xF12, 0xF13, 0xF14, 0xF15].contains k

/-- Whether the hart may access a CSR. -/
def csrAllowed (s : State) (n : CoreId) (k : Nat) (writes : Bool) : Bool :=
  let m := modeOf s n
  let ms := mstatusV s n
  let lvl := let b := bits k 9 8; if b = 2 then 1 else b
  decide (lvl ≤ m) && !(writes && bits k 11 10 == 3) && (csrKnown k || Config.csrDefined k) &&
    !(([1, 2, 3].contains k) && bits ms 14 13 == 0) && !(([8, 9, 0xA, 0xF, 0xC20, 0xC21, 0xC22].contains k) && bits ms 10 9 == 0) &&
    !(k == 0x180 && m == 1 && bitOf ms 20) &&
    !((0xC00 ≤ k && k ≤ 0xC1F) && ((m < 3 && !bitOf (csrOf s n 0x306) (k % 32)) || (m == 0 && !bitOf (csrOf s n 0x106) (k % 32))))

/-- A CSR as read: time is the local timer (R40); the other counters read free values. -/
def csrRead (s : State) (n : CoreId) (k : Nat) : Nat × State :=
  let c := csrOf s n
  match k with
  | 0x1 => (c 3 % 32, s) | 0x2 => (bits (c 3) 7 5, s) | 0x3 => (c 3 % 256, s)
  | 0x9 => (c 0xF % 2, s) | 0xA => (bits (c 0xF) 2 1, s)
  | 0x100 => (statusRead (mstatusV s n) sstatusMask, s)
  | 0x104 => (c 0x304 &&& c 0x303, s) | 0x144 => (mipV s n &&& c 0x303, s)
  | 0x300 => (statusRead (mstatusV s n) mstatusMask, s)
  | 0x301 => (2 * 2 ^ 62 + 0x3411AF, s)
  | 0x344 => (mipV s n, s)
  | 0x35C => (topei s n, s)
  | 0xC01 => (rd s .hub hubTimer, s)
  | 0xB00 | 0xB02 | 0xC00 | 0xC02 => let r := fresh s; (r.1.toNat, r.2)
  | 0xC22 => (64, s)
  | 0xF11 | 0xF12 | 0xF13 | 0xF15 => ((Config.coreIdent k).toNat, s)
  | 0xF14 => (n.val, s)
  | _ => (c k, s)

/-- A CSR written. -/
def csrWrite (s : State) (n : CoreId) (k v : Nat) : State :=
  let c := csrOf s n
  let ms := mstatusV s n
  let set := setCsr s n
  let dirtyF := fun (s : State) => setCsr s n csrMstatus (withBits (mstatusV s n) 13 2 3)
  let dirtyV := fun (s : State) => setCsr s n csrMstatus (withBits (mstatusV s n) 9 2 3)
  let status := fun (mask : Nat) =>
    let new := under ms mask v
    set csrMstatus (if bits new 12 11 = 2 then withBits new 11 2 (bits ms 12 11) else new)
  let tvec := fun (k : Nat) => set k (if 1 < v % 4 then v / 4 * 4 + c k % 4 else v)
  match k with
  | 0x1 => dirtyF (set 3 (withBits (c 3) 0 5 v)) | 0x2 => dirtyF (set 3 (withBits (c 3) 5 3 v)) | 0x3 => dirtyF (set 3 (v % 256))
  | 0x8 => dirtyV (set 8 (v % 512)) | 0x9 => dirtyV (set 0xF (withBits (c 0xF) 0 1 v)) | 0xA => dirtyV (set 0xF (withBits (c 0xF) 1 2 v))
  | 0xF => dirtyV (set 0xF (v % 8))
  | 0x100 => status sstatusMask | 0x300 => status mstatusMask
  | 0x104 => set 0x304 (under (c 0x304) (c 0x303 &&& 0x222) v)
  | 0x144 => set 0x344 (under (c 0x344) (c 0x303 &&& 2) v)
  | 0x302 => set k (under 0 0xB3FF v)
  | 0x303 => set k (v &&& 0x222)
  | 0x304 => set k (v &&& 0xAAA)
  | 0x344 => set k (v &&& 0x222)
  | 0x105 | 0x305 => tvec k
  | 0x141 | 0x341 => set k (v / 2 * 2)
  | 0x180 => if [0, 8, 9, 10].contains (v / 2 ^ 60) then set k v else s
  | 0x301 | 0xB00 | 0xB02 => s
  | 0x35C => modHart s n (fun h => { h with pendingIntr := h.pendingIntr.erase ((h.pendingIntr.min?).getD 0) })
  | _ => set k v

/-! ### Translation. -/

/-- The caching agent of a core's die. -/
def coreAgent (n : CoreId) : AgentId := ⟨12 + n.val / 48, by omega⟩
/-- The L3 of its die. -/
def coreCache (n : CoreId) : CacheId := .l3 ⟨n.val / 48, by omega⟩
/-- R266: its class. -/
def coreCls (n : CoreId) : Nat := n.val / 8

/-- Where an access of a core goes, or what stops it. -/
inductive CTgt where
  | dram (pa : Nat) | dcs (off : Nat) | trap (cause : Nat) | wait
deriving DecidableEq, Repr

/-- Page-table reads of a core go through its caches. -/
def corePte (n : CoreId) (s : State) (a : Nat) : Option (Nat × Bool) × State :=
  if loadBusy s (coreDie n) (a / 64) then (none, loadAsk s (a / 64))
  else
    let r := cohLoad s (coreAgent n) (coreCache n) (coreCls n) (a / 64) .ok
    (some (fieldAt r.1 (a % 64) 8, r.2.1), r.2.2)

/-- The mode of a data access. -/
def dataMode (s : State) (n : CoreId) (k : Acc3) : Nat :=
  let ms := mstatusV s n
  if k ≠ .exec ∧ modeOf s n = 3 ∧ bitOf ms 17 then bits ms 12 11 else modeOf s n

/-- RISC-V: permissions of a leaf in mode `m`. -/
def corePerm (ms m p : Nat) (k : Acc3) : Bool :=
  (if m = 0 then pteU p else !pteU p || (k != .exec && bitOf ms 18)) &&
  (match k with | .exec => pteX p | .read => pteR p || (bitOf ms 19 && pteX p) | .write => pteW p)

/-- The page-fault and access-fault causes of an access. -/
def pageCause : Acc3 → Nat
  | .exec => 12 | .read => 13 | .write => 15
/-- The access-fault cause. -/
def accessCause : Acc3 → Nat
  | .exec => 1 | .read => 5 | .write => 7

/-- The physical address of an access. Sv57 (the spec's), and Sv39 and Sv48, whichever satp selects; A and D are never set by the
hardware; a page table outside the DRAM space is an access fault (R25). -/
def coreXlate (s : State) (n : CoreId) (va : Nat) (k cause : Acc3) : (Nat ⊕ Option Nat) × State :=
  let satp := csrOf s n 0x180
  let m := dataMode s n k
  let lv := satp / 2 ^ 60 - 5
  if m = 3 ∨ satp / 2 ^ 60 = 0 then (.inl va, s)
  else
    let top := va / 2 ^ (11 + 9 * lv)
    if top ≠ 0 ∧ top ≠ 2 ^ (53 - 9 * lv) - 1 then (.inr (some (pageCause cause)), s)
    else match walkFrom 5 (corePte n) va lv (bits satp 43 0 * 4096) s with
    | (.wait, s) => (.inr none, s)
    | (.fault, s) => (.inr (some (pageCause cause)), s)
    | (.absent, s) => (.inr (some (accessCause cause)), s)
    | (.poison a, s) => (.inr (some (accessCause cause)), raise s (.core n) { bit := 7, addr := some a })
    | (.leaf pte _ z, s) =>
      if corePerm (mstatusV s n) m pte k && !needsAD pte k then (.inl (leafPa (ptePpn pte) z va), s)
      else (.inr (some (pageCause cause)), s)

/-! ### The L1s and the L2 (R257 to R262). -/

/-- R267: the L3 holds a line or may allocate it for the core's class; where it may not, no copy is kept at any level (R257). -/
def l3Takes (s : State) (n : CoreId) (l : Nat) : Bool :=
  let c := coreCache n
  (wayFind s c (lineSlot c l) l).isSome || (wayVictim s c (coreCls n) (lineSlot c l)).isSome

/-- The fills of the fetch or the data side. -/
def fillsOf (h : Hart) (fetch : Bool) : List (BitVec 34 × Fin 4 × Nat) := if fetch then h.ifills else h.fills

/-- R257: the L1 of a side, with its miss registers. -/
def l1Of (fetch : Bool) : PrivLevel × Nat := if fetch then (.l1i, 8) else (.l1d, 16)

/-- R262: a line enters an L1, through the L2, and its chunks are on their way, the critical one first. -/
def startFill (fetch : Bool) (l pa : Nat) (h : Hart) : Hart :=
  let h := privTake (l1Of fetch).1 l false (privTake .l2 l false h)
  let f : BitVec 34 × Fin 4 × Nat := (BitVec.ofNat 34 l, ⟨pa % 64 / 16, by omega⟩, 0)
  if fetch then { h with ifills := h.ifills ++ [f] } else { h with fills := h.fills ++ [f] }

/-- R257, R262: an L1 miss: the line comes from the L2, or from the L3, which takes it first. With no miss register free the core waits. -/
def l1Miss (s : State) (n : CoreId) (fetch : Bool) (l pa : Nat) : State :=
  let h := hartOf s n
  if (l1Of fetch).2 ≤ (fillsOf h fetch).length then s
  else
    let s := if privHas h .l2 l then s else (cohLoad s (coreAgent n) (coreCache n) (coreCls n) l .ok).2.2
    modHart s n (startFill fetch l pa)

/-- A core's L1 holds a line that its die's agent holds. -/
def l1Holds (s : State) (n : CoreId) (fetch : Bool) (l : Nat) : Bool :=
  privHas (hartOf s n) (l1Of fetch).1 l && (agentOf s (coreAgent n) l).st != .I

/-- R262: a store merges into a line once its last chunk has arrived; a line that the L1D lacks is filled first. Answers whether the store may go. -/
def storeReady (s : State) (n : CoreId) (l pa : Nat) : Bool × State :=
  if (hartOf s n).fills.any (fun f => f.1.toNat == l) then (false, s)
  else if l1Holds s n false l ∨ !l3Takes s n l then (true, s)
  else (false, l1Miss s n false l pa)

/-- R25, R43: where the bytes of one line go. -/
def coreTarget (s : State) (n : CoreId) (va len : Nat) (k : Acc3) : CTgt × State :=
  match coreXlate s n va k k with
  | (.inr none, s) => (.wait, s)
  | (.inr (some c), s) => (.trap c, s)
  | (.inl pa, s) =>
    if inDram s pa len then
      if k = .write then
        if lineBusy s (coreDie n) (pa / 64) true then (.wait, hostAsk s pa len true)
        else
          let r := storeReady s n (pa / 64) pa
          (if r.1 then .dram pa else .wait, r.2)
      else if loadBusy s (coreDie n) (pa / 64) then (.wait, loadAsk s (pa / 64))
      else (.dram pa, s)
    else if 0x10000000000 ≤ pa ∧ pa < 0x10004000000 then (.dcs (pa - 0x10000000000), s)
    else (.trap (accessCause k), s)

/-- The pieces of an access within 64-byte lines. -/
def linePieces (va len : Nat) : List (Nat × Nat) :=
  let k := 64 - va % 64
  if len ≤ k then [(va, len)] else [(va, k), ((va + k) % 2 ^ 64, len - k)]

/-- Where every piece of an access goes; a device-control access is whole, of 4 or 8 bytes and aligned, and no fetch, or it is refused
and logged (R43). -/
def coreSpan (s : State) (n : CoreId) (va len : Nat) (k : Acc3) : (List (CTgt × Nat) ⊕ Option (Nat × Nat)) × State :=
  (linePieces va len).foldl (fun (x : (List (CTgt × Nat) ⊕ Option (Nat × Nat)) × State) pc =>
    match x.1 with
    | .inr _ => x
    | .inl l => match coreTarget x.2 n pc.1 pc.2 k with
      | (.wait, s) => (.inr none, s)
      | (.trap c, s) => (.inr (some (c, pc.1)), s)
      | (.dcs off, s) =>
        if k == .exec || pc.2 != len || !dcsAligned off len then (.inr (some (accessCause k, pc.1)), dcsRefuse s (.core n))
        else (.inl (l ++ [(.dcs off, pc.2)]), s)
      | (t, s) => (.inl (l ++ [(t, pc.2)]), s)) (.inl [], s)

/-! ### Accesses. -/

/-- What an access answers. -/
inductive CRes where
  | ok (d : List Byte) | trap (cause va : Nat) | wait
deriving DecidableEq, Repr

/-- R262: the chunks of a line that an access needs have arrived, critical chunk first and in wrapping order. -/
def chunksHere (crit got a len : Nat) : Bool :=
  (rangeFrom (a % 64 / 16) ((a % 64 + len - 1) / 16 + 1 - a % 64 / 16)).all (fun c => decide ((c + 4 - crit) % 4 < got))

/-- R262, R486: the bytes of one line of the DRAM space as a core's fetch or data side reads them: from its L1, once the chunks they lie in have arrived; a miss
starts a fill and waits; from the home where no cache keeps a copy. -/
def coreLine (s : State) (n : CoreId) (pa len : Nat) (fetch : Bool) : Option (List Byte × Bool) × State :=
  let l := pa / 64
  let g := agentOf s (coreAgent n) l
  if l1Holds s n fetch l then
    if (fillsOf (hartOf s n) fetch).any (fun f => f.1.toNat == l && !chunksHere f.2.1.val f.2.2 pa len) then (none, s)
    else (some (slice (slice g.data 0 64) (pa % 64) len, g.poison), modHart s n (privTake (l1Of fetch).1 l false))
  else if !l3Takes s n l then
    let r := cohLoad s (coreAgent n) (coreCache n) (coreCls n) l .ok
    (some (slice r.1 (pa % 64) len, r.2.1), r.2.2)
  else (none, l1Miss s n fetch l pa)

/-- A read of a core: a load (`k` = read), a fetch (exec), or the read of an atomic (write). -/
def coreRead (s : State) (n : CoreId) (va len : Nat) (k : Acc3) : CRes × State :=
  match coreSpan s n va len k with
  | (.inr none, s) => (.wait, s)
  | (.inr (some (c, a)), s) => (.trap c a, s)
  | (.inl l, s) =>
    let r := l.foldl (fun (x : CRes × Nat × State) t => match x.1, t.1 with
      | .ok d, .dcs off =>
        let r := dcsRead x.2.2 off t.2
        (.ok (d ++ toLE t.2 r.1), x.2.1 + t.2, r.2)
      | .ok d, .dram pa =>
        (match coreLine x.2.2 n pa t.2 (k == .exec) with
        | (none, s) => (.wait, x.2.1, s)
        | (some (y, poison), s) =>
          if poison then (.trap (accessCause k) x.2.1, x.2.1, raise s (.core n) { bit := 7, addr := some pa })
          else (.ok (d ++ y), x.2.1 + t.2, s))
      | _, _ => x) (.ok [], va, s)
    (r.1, r.2.2)

/-- R257, R280: a core's store: the line is dirty in its L1D, and its die's other cores give up their copies. Reservations but the hart's own fall with it
(R286). -/
def coreStoreLine (s : State) (n : CoreId) (pa : Nat) (d : List Byte) : State :=
  let own := s.resv.filter (·.1 = .hart n)
  let l := pa / 64
  let h := hartOf s n
  let s := setHart (dieHarts s (n.val / 48) (privLose l)) n h
  let s := cohStore s (coreAgent n) (coreCache n) (coreCls n) (pa / 64) ((2 ^ d.length - 1) * 2 ^ (pa % 64)) (List.replicate (pa % 64) 0 ++ d)
  let s := if (agentOf s (coreAgent n) l).st = .M then modHart s n (fun h => privTake .l1d l true (privTake .l2 l false h)) else s
  { s with resv := s.resv.filter (·.1 ≠ .hart n) ++ own }

/-- A store of a core. -/
def coreWrite (s : State) (n : CoreId) (va : Nat) (d : List Byte) : CRes × State :=
  match coreSpan s n va d.length .write with
  | (.inr none, s) => (.wait, s)
  | (.inr (some (c, a)), s) => (.trap c a, s)
  | (.inl l, s) =>
    let r := l.foldl (fun (x : Nat × State) t => match t.1 with
      | .dcs off => (x.1 + t.2, dcsWrite x.2 (.core n) off t.2 (leNat d))
      | .dram pa => (x.1 + t.2, coreStoreLine x.2 n pa (slice d x.1 t.2))
      | _ => x) (0, s)
    (.ok [], r.2)

end Sys2Proof.Machine
end

