-- ==== Sys2Proof/Machine/Cores.lean ====
section
/-! DEFINITION. The instructions of the processor cores (R18, R20, R262, R276, R486): scalar instructions, vector configuration, loads and
stores; every other RVA23 encoding leaves free values in its destination (log 40). -/

namespace Sys2Proof.Machine

/-! ### Vector loads and stores. -/

/-- vtype.SEW in bits. -/
def vSew (t : Nat) : Nat := 8 * 2 ^ bits t 5 3
/-- vtype.LMUL in eighths. -/
def vLmul8 (t : Nat) : Nat := if bits t 2 0 < 4 then 8 * 2 ^ bits t 2 0 else 2 ^ (bits t 2 0 - 5)
/-- A vtype that the cores support (ELEN = 64). -/
def vtypeOk (t : Nat) : Bool := decide (t < 256) && decide (bits t 5 3 ≤ 3) && bits t 2 0 != 4 && decide (vSew t ≤ 8 * vLmul8 t)
/-- VLMAX for 512-bit registers. -/
def vlMax (t : Nat) : Nat := 64 * vLmul8 t / vSew t

/-- The bytes of the vector registers, register r at 64 r. -/
def vByte (s : State) (n : CoreId) (i : Nat) : Byte := BitVec.ofNat 8 ((mget 0 (hartOf s n).v (i / 64)).toNat / 2 ^ (8 * (i % 64)))
/-- `k` bytes of the vector registers. -/
def vBytes (s : State) (n : CoreId) (i k : Nat) : List Byte := (List.range k).map (fun j => vByte s n (i + j))
/-- Bytes of one vector register written. -/
def setVBytes (s : State) (n : CoreId) (i : Nat) (d : List Byte) : State :=
  modHart s n (fun h =>
    let old := toLE 64 (mget 0 h.v (i / 64)).toNat
    { h with v := mset 0 h.v (i / 64) (BitVec.ofNat 512 (leNat (splice old (i % 64) d))) })

/-- An element access: the offset of its bytes in the vector registers, its address and its size. -/
structure VElem where
  idx : Nat
  field : Nat
  reg : Nat
  addr : Nat
  size : Nat
deriving DecidableEq, Repr

/-- The elements of a vector load or store, in order; none where the word is reserved under vtype. `firstFault` loads are not told apart
here. -/
def vElems (s : State) (n : CoreId) (w : Nat) : Option (List VElem) :=
  let t := csrOf s n 0xC21
  let base := (coreX s n (bits w 19 15)).toNat
  let vd := bits w 11 7
  let rs2 := bits w 24 20
  let mop := bits w 27 26
  let nf := bits w 31 29 + 1
  let eew := match bits w 14 12 with | 0 => 1 | 5 => 2 | 6 => 4 | _ => 8
  let start := csrOf s n 8
  let active := fun (i : Nat) => bitOf w 25 || bitOf (vByte s n (i / 8)).toNat (i % 8)
  let whole := decide (mop = 0 ∧ rs2 = 8)
  let maskOp := decide (mop = 0 ∧ rs2 = 11)
  let indexed := mop % 2 = 1
  let esz := if indexed then vSew t / 8 else if maskOp then 1 else eew
  let emul8 := if indexed then vLmul8 t else eew * 8 * vLmul8 t / vSew t
  let regs := if whole then 1 else max 1 (emul8 / 8)
  let idx8 := eew * 8 * vLmul8 t / vSew t
  let vl := if whole then nf * 64 / esz else if maskOp then (csrOf s n 0xC20 + 7) / 8 else csrOf s n 0xC20
  let fields := if whole then 1 else nf
  let off := fun (i f : Nat) =>
    if indexed then leNat (vBytes s n (64 * rs2 + i * eew) eew) + f * esz
    else if mop = 2 then i * (coreX s n rs2).toNat + f * esz
    else (i * fields + f) * esz
  if bitOf w 28 ∨ (mop = 0 ∧ !([0, 8, 11, 16].contains rs2)) then none
  else if !whole && !vtypeOk t then none
  else if !whole && !maskOp && (emul8 = 0 || 64 < emul8 || (indexed && (idx8 = 0 || 64 < idx8))) then none
  else if 32 < vd + (if whole then nf else fields * regs) then none
  else some ((List.range vl).flatMap (fun i => if i < start || !(whole || maskOp || active i) then []
    else (List.range fields).map (fun f =>
      { idx := i, field := f, reg := 64 * (vd + f * regs) + i * esz, addr := (base + off i f) % 2 ^ 64, size := esz })))

/-- vstart written by the hardware. -/
def setVstart (s : State) (n : CoreId) (v : Nat) : State :=
  setCsr (setCsr s n 8 v) n csrMstatus (withBits (mstatusV s n) 9 2 3)

/-- The elements in order: at a trap or a wait, vstart names the element; a fault-only-first load that fails beyond element 0 ends with a
shorter vl. -/
def vMove (n : CoreId) (store ff : Bool) (next : BitVec 64) : List VElem → State → State
  | [], s => coreGo (setVstart s n 0) n next
  | e :: l, s =>
    let r := if store then coreWrite s n e.addr (vBytes s n e.reg e.size) else coreRead s n e.addr e.size .read
    match r.1 with
    | .ok d => vMove n store ff next l (if store then r.2 else setVBytes r.2 n e.reg d)
    | .wait => setVstart r.2 n e.idx
    | .trap c a =>
      if ff && e.idx ≠ 0 then coreGo (setVstart (setCsr r.2 n 0xC20 e.idx) n 0) n next
      else coreTrap (setVstart r.2 n e.idx) n false c (BitVec.ofNat 64 a)

/-- A vector load or store. -/
def vMemory (s : State) (n : CoreId) (w : Nat) (store : Bool) (next : BitVec 64) : State :=
  if bits (mstatusV s n) 10 9 = 0 then coreIllegal s n w
  else match vElems s n w with
  | none => coreIllegal s n w
  | some l => vMove n store (!store && bits w 27 26 == 0 && bits w 24 20 == 16) next l s

/-- vsetvli, vsetivli and vsetvl. -/
def vSet (s : State) (n : CoreId) (w : Nat) (next : BitVec 64) : State :=
  let rd' := bits w 11 7
  let rs1 := bits w 19 15
  let imm := bits w 31 30 = 3
  let t := if imm then bits w 29 20 else if bitOf w 31 then (coreX s n (bits w 24 20)).toNat else bits w 30 20
  let avl := if imm then rs1 else if rs1 ≠ 0 then (coreX s n rs1).toNat else if rd' ≠ 0 then 2 ^ 64 - 1 else csrOf s n 0xC20
  if bits (mstatusV s n) 10 9 = 0 ∨ (bits w 31 30 = 2 ∧ bits w 29 25 ≠ 0) then coreIllegal s n w
  else
    let vl := if vtypeOk t then min avl (vlMax t) else 0
    let s := setCsr (setCsr s n 0xC21 (if vtypeOk t then t else 2 ^ 63)) n 0xC20 vl
    coreGo (setCoreX (setVstart s n 0) n rd' (BitVec.ofNat 64 vl)) n next

/-! ### Encodings whose results stay open. -/

/-- A vector register takes a free value. -/
def freeV (s : State) (n : CoreId) (r : Nat) : State :=
  let d := (List.range 8).foldl (fun (x : List Byte × State) _ => let f := fresh x.2; (x.1 ++ toLE 8 f.1.toNat, f.2)) ([], s)
  setVBytes d.2 n (64 * (r % 32)) d.1

/-- A word without a meaning above: where the cores define it, its destination takes free values and the exception flags may
accrue; else it is illegal (log 40). -/
def coreOther (s : State) (n : CoreId) (w : Nat) (next : BitVec 64) : State :=
  let ms := mstatusV s n
  let op := w % 128
  let rd' := bits w 11 7
  let f6 := bits w 31 26
  let f3 := bits w 14 12
  let vec := op = 0x57
  let fpOp := op = 0x53
  let off := (vec ∧ bits ms 10 9 = 0) ∨ (fpOp ∧ bits ms 14 13 = 0)
  if off ∨ !Config.rvaDefined (BitVec.ofNat 32 w) then coreIllegal s n w
  else
    let toF := (vec ∧ f3 = 1 ∧ f6 = 0x10) ∨ (fpOp ∧ !([0x14, 0x18, 0x1C].contains (bits w 31 27)))
    let toV := vec ∧ !(f6 = 0x10 ∧ (f3 = 1 ∨ f3 = 2))
    let a := fresh s
    let b := fresh a.2
    let s := if toV then (List.range 8).foldl (fun s i => freeV s n (rd' + i)) b.2
      else if toF then setCoreF b.2 n rd' a.1 else setCoreX b.2 n rd' a.1
    let s := if vec ∨ fpOp then setCsr (setCsr s n 3 (csrOf s n 3 ||| b.1.toNat % 32)) n 0xF (csrOf s n 0xF ||| bits b.1.toNat 5 5) else s
    coreGo (if vec then setVstart s n 0 else s) n next

/-! ### Cache-block operations (R276). -/

/-- Whether the mode may run a cache-block operation: CBIE, CBCFE and CBZE of menvcfg and senvcfg. -/
def cboAllowed (s : State) (n : CoreId) (kind : Nat) : Bool :=
  let m := modeOf s n
  let ok := fun (v : Nat) => if kind = 0 then bits v 5 4 != 0 else if kind = 4 then bitOf v 7 else bitOf v 6
  (m == 3 || ok (csrOf s n 0x30A)) && (m != 0 || ok (csrOf s n 0x10A))

/-- CBO.CLEAN at the line's home: every dirty copy of the domain is written back and stays. -/
def domainClean (s : State) (line : Nat) : State := (List.finRange 17).foldl (fun s a => cleanCopy s a line) s

/-- CBO.FLUSH at the line's home: dirty data written back, every copy given up. -/
def domainFlush (s : State) (line : Nat) : State := dropCopies (domainClean s line) line none

/-- A cache-block operation on the 64-byte block of `va`: kind 0 INVAL (acts as FLUSH), 1 CLEAN, 2 FLUSH, 4 ZERO. -/
def cboGo (s : State) (n : CoreId) (kind va w : Nat) (next : BitVec 64) : State :=
  let k : Acc3 := if kind = 4 then .write else .read
  let a := va / 64 * 64
  if !cboAllowed s n kind then coreIllegal s n w
  else match coreXlate s n a k .write with
  | (.inr none, s) => s
  | (.inr (some c), s) => coreTrap s n false c (BitVec.ofNat 64 va)
  | (.inl pa, s) =>
    if !inDram s pa 64 then
      let s := if 0x10000000000 ≤ pa ∧ pa < 0x10004000000 then dcsRefuse s (.core n) else s
      coreTrap s n false 7 (BitVec.ofNat 64 va)
    else if lineBusy s (coreDie n) (pa / 64) (kind != 1) then hostAsk s pa 64 (kind != 1)
    else
      let l := pa / 64
      coreGo (if kind = 1 then domainClean s l else if kind = 4 then coreStoreLine s n (64 * l) (List.replicate 64 0) else domainFlush s l) n next

/-- CBO_CLEAN. -/
def execCboClean (n : CoreId) (va : BitVec 64) (s : State) : Out :=
  .next (if pgState s (.core n) = 4 then cboGo s n 1 va.toNat 0x0010200F (corePcV s n + 4) else s)
/-- CBO_FLUSH. -/
def execCboFlush (n : CoreId) (va : BitVec 64) (s : State) : Out :=
  .next (if pgState s (.core n) = 4 then cboGo s n 2 va.toNat 0x0020200F (corePcV s n + 4) else s)
/-- CBO_INVAL: acts as CBO.FLUSH. -/
def execCboInval (n : CoreId) (va : BitVec 64) (s : State) : Out :=
  .next (if pgState s (.core n) = 4 then cboGo s n 0 va.toNat 0x0000200F (corePcV s n + 4) else s)
/-- CBO_ZERO. -/
def execCboZero (n : CoreId) (va : BitVec 64) (s : State) : Out :=
  .next (if pgState s (.core n) = 4 then cboGo s n 4 va.toNat 0x0040200F (corePcV s n + 4) else s)

/-! ### One instruction (R20). -/

/-- The exception flags of a floating instruction accrue; the floating state is dirty. -/
def coreFlags (s : State) (n : CoreId) (fl : Nat) (fp : Bool) : State :=
  if fp then setCsr (setCsr s n 3 (csrOf s n 3 ||| fl)) n csrMstatus (withBits (mstatusV s n) 13 2 3) else s

/-- Whether a word needs the floating-point unit. -/
def isFpWord (w : Nat) : Bool :=
  [0x43, 0x47, 0x4B, 0x4F, 0x53].contains (w % 128) || ([0x07, 0x27].contains (w % 128) && [1, 2, 3].contains (bits w 14 12))

/-- Whether a word is a vector load or store. -/
def isVecMem (w : Nat) : Bool := [0x07, 0x27].contains (w % 128) && [0, 5, 6, 7].contains (bits w 14 12)

/-- The privilege of MRET, SRET, WFI and SFENCE.VMA: whether the mode may run it. -/
def sysAllowed (s : State) (n : CoreId) : Act → Bool
  | .mret => modeOf s n == 3
  | .sret => modeOf s n == 3 || (modeOf s n == 1 && !bitOf (mstatusV s n) 22)
  | .wfi => modeOf s n == 3 || !bitOf (mstatusV s n) 21
  | .sfence => modeOf s n == 3 || (modeOf s n == 1 && !bitOf (mstatusV s n) 20)
  | _ => true

/-- A scalar instruction of `len` bytes. -/
def coreAct (s : State) (n : CoreId) (w : Nat) (next : BitVec 64) : State :=
  let pc := corePcV s n
  let fp := isFpWord w
  let act := rvExec isaCore w pc (coreX s n) (coreF s n) (bits (csrOf s n 3) 7 5)
  let trap := fun (s : State) (c a : Nat) => coreTrap s n false c (BitVec.ofNat 64 a)
  if fp && bits (mstatusV s n) 14 13 == 0 then coreIllegal s n w
  else if !sysAllowed s n act then coreIllegal s n w
  else match act with
  | .illegal => coreOther s n w next
  | .custom0 | .custom1 => coreIllegal s n w
  | .xwr r v fl => coreGo (coreFlags (setCoreX s n r v) n fl fp) n next
  | .fwr r v fl => coreGo (coreFlags (setCoreF s n r v) n fl fp) n next
  | .jump r t => coreGo (setCoreX s n r next) n t
  | .branch t a => coreGo s n (if t then a else next)
  | .load r a size sg f =>
    let x := coreRead s n a.toNat size .read
    match x.1 with
    | .ok d => coreGo (if f then coreFlags (setCoreF x.2 n r (loadVal size sg f d)) n 0 true else setCoreX x.2 n r (loadVal size sg f d)) n next
    | .trap c va => trap x.2 c va
    | .wait => x.2
  | .store a size v =>
    let x := coreWrite s n a.toNat (toLE size (v.toNat % 2 ^ (8 * size)))
    match x.1 with
    | .ok _ => coreGo x.2 n next
    | .trap c va => trap x.2 c va
    | .wait => x.2
  | .lr r a size =>
    if a.toNat % size ≠ 0 then trap s 4 a.toNat
    else match coreTarget s n a.toNat size .read with
    | (.wait, s) => s
    | (.trap c, s) => trap s c a.toNat
    | (.dcs _, s) => trap (dcsRefuse s (.core n)) 5 a.toNat
    | (.dram pa, s) => match coreLine s n pa size false with
      | (none, s) => s
      | (some (d, poison), s) =>
        if poison then trap (raise s (.core n) { bit := 7, addr := some pa }) 5 a.toNat
        else
          let s := setCoreX s n r (loadVal size true false d)
          coreGo { s with resv := s.resv.filter (·.1 ≠ .hart n) ++ [(.hart n, .dram (pa / 64))] } n next
  | .sc r a size v =>
    if a.toNat % size ≠ 0 then trap s 6 a.toNat
    else match coreTarget s n a.toNat size .write with
    | (.wait, s) => s
    | (.trap c, s) => trap s c a.toNat
    | (.dcs _, s) => trap (dcsRefuse s (.core n)) 7 a.toNat
    | (.dram pa, s) =>
      let won := s.resv.contains (.hart n, .dram (pa / 64))
      let s := if won then coreStoreLine s n pa (toLE size (v.toNat % 2 ^ (8 * size))) else s
      coreGo (setCoreX { s with resv := s.resv.filter (·.1 ≠ .hart n) } n r (if won then 0 else 1)) n next
  | .amo r a size op v =>
    if a.toNat % size ≠ 0 then trap s 6 a.toNat
    else match coreTarget s n a.toNat size .write with
    | (.wait, s) => s
    | (.trap c, s) => trap s c a.toNat
    | (.dcs _, s) => trap (dcsRefuse s (.core n)) 7 a.toNat
    | (.dram pa, s) => match coreLine s n pa size false with
      | (none, s) => s
      | (some (d, poison), s) =>
        if poison then trap (raise s (.core n) { bit := 7, addr := some pa }) 7 a.toNat
        else
          let v := (amoNew op size (leNat d) v.toNat).getD 0
          coreGo (setCoreX (coreStoreLine s n pa (toLE size v)) n r (loadVal size true false d)) n next
  | .fence | .wfi | .sfence => coreGo s n next
  | .csr r op num src wr_ =>
    if !csrAllowed s n num wr_ then coreIllegal s n w
    else
      let o := csrRead s n num
      let s := if wr_ then csrWrite o.2 n num (csrNew op o.1 src.toNat) else o.2
      coreGo (setCoreX s n r (BitVec.ofNat 64 o.1)) n next
  | .ecall => coreTrap s n false (if modeOf s n = 3 then 11 else 8 + modeOf s n) 0
  | .ebreak => coreTrap s n false 3 (Config.trapValue 3 (BitVec.ofNat 32 w))
  | .mret => coreMret s n
  | .sret => coreSret s n
  | .cbo kind a => cboGo s n kind a.toNat w next

/-- The word at CORE.PC: its bits and length. -/
def coreFetch (s : State) (n : CoreId) : CRes × State :=
  let pc := (corePcV s n).toNat
  match coreRead s n pc 2 .exec with
  | (.ok d, s) =>
    if leNat d % 4 ≠ 3 then (.ok d, s)
    else match coreRead s n ((pc + 2) % 2 ^ 64) 2 .exec with
    | (.ok e, s) => (.ok (d ++ e), s)
    | r => r
  | r => r

/-- R259, R275: an error in a core's own caches: a corrected one is counted; of an uncorrectable one in the data of a line, a clean line is invalidated and
fetched again, a dirty one marked poisoned, with CHECKSUM and POISON on the core's page. -/
def coreCacheError (s : State) (n : CoreId) : CoreEcc → State
  | .none | .tagUe _ => s
  | .corrected => satAdd s (.core n) coreCeCount 1
  | .dataUe lv line =>
    let l := line.toNat
    let h := hartOf s n
    if !privHas h lv l then s
    else
      let s := satAdd s (.core n) coreUeCount 1
      if privDirty h lv l then
        let s := setAgent s (coreAgent n) l { agentOf s (coreAgent n) l with poison := true }
        raise (raise s (.core n) { bit := 4, addr := some (64 * l) }) (.core n) { bit := 7, addr := some (64 * l) }
      else modHart s n (privDropFrom lv l)

/-- R259: an uncorrectable tag error of an L2 takes the domain down. -/
def coreTagError (s : State) (n : CoreId) (line : BitVec 34) : State :=
  domainDown s { cause := 3, agent := (coreAgent n).val, home := homeIx s line.toNat, line := line.toNat }

/-- One instruction, or the interrupt that comes first. -/
def coreRun (n : CoreId) (s : State) : Out :=
  match coreIntr s n with
  | some c => .next (coreTrap s n true c 0)
  | none => match coreFetch s n with
    | (.wait, s) => .next s
    | (.trap c a, s) => .next (coreTrap s n false c (BitVec.ofNat 64 a))
    | (.ok d, s) =>
      let next := corePcV s n + BitVec.ofNat 64 d.length
      match (if d.length = 2 then cExpand isaCore (leNat d) else some (leNat d)) with
      | none => .next (coreOther s n (leNat d) next)
      | some w =>
        if isVecMem w then .next (vMemory s n w (w % 128 == 0x27) next)
        else if w % 128 = 0x57 ∧ bits w 14 12 = 7 then .next (vSet s n w next)
        else .next (coreAct s n w next)

/-- CORE_INSTRUCTION (R20): the core takes a pending interrupt, or runs the instruction at CORE.PC, or waits for its memory; `ecc` is what SECDED finds in its
caches. -/
def execCoreInstruction (n : CoreId) (ecc : CoreEcc) (s : State) : Out :=
  if pgState s (.core n) ≠ 4 then .next s
  else match ecc with
    | .tagUe line => .next (coreTagError s n line)
    | e => coreRun n (coreCacheError s n e)

/-- The next chunk of the oldest fill: with the fourth the line is whole. -/
def nextChunk : List (BitVec 34 × Fin 4 × Nat) → List (BitVec 34 × Fin 4 × Nat)
  | [] => []
  | f :: l => if f.2.2 = 3 then l else (f.1, f.2.1, f.2.2 + 1) :: l

/-- L1_FILL_CHUNK (R262): the next chunk of the oldest fill of the fetch or the data side arrives. -/
def execL1FillChunk (n : CoreId) (fetch : Bool) (s : State) : Out :=
  .next (modHart s n (fun h => if fetch then { h with ifills := nextChunk h.ifills } else { h with fills := nextChunk h.fills }))

/-- REGISTER_PARITY_MISMATCH (R20, R486): 0 integer, 1 floating, 2 vector file. -/
def execRegisterParityMismatch (n : CoreId) (file : Fin 3) (s : State) : Out :=
  let st := pgState s (.core n)
  .next (if st = 4 ∨ st = 5 then raise s (.core n) { bit := 6, unit := file.val, stop := true } else s)

/-! ### Accesses to the device control space as commands (R43). -/

/-- R43: an access that is not 4 or 8 bytes wide and aligned changes no register and is logged; a core takes an access fault, the host a
completer-abort completion. -/
def dcsBad (s : State) (who : Requester) (off : Nat) (write : Bool) : State :=
  let s := dcsRefuse s who
  match who with
  | .core n => coreTrap s n false (if write then 7 else 5) (BitVec.ofNat 64 (0x10000000000 + off))
  | .host => { s with hostPort := { s.hostPort with compAbort := true } }
  | _ => s

/-- The completion that the host receives for an access that is carried out. -/
def dcsGood (s : State) (who : Requester) : State :=
  match who with
  | .host => { s with hostPort := { s.hostPort with compAbort := false } }
  | _ => s

/-- DCS_ACCESS (R43): an access of a requester; a read answers its value. -/
def execDcsAccess (who : Requester) (off : BitVec 26) (size : Nat) (write : Option (BitVec 64)) (s : State) : Out :=
  let o := off.toNat
  if held s ∨ !dcsReaches s who o then .next s
  else if !dcsAligned o size then .next (dcsBad s who o write.isSome)
  else match write with
  | some v => .next (dcsWrite (dcsGood s who) who o size (v.toNat % 2 ^ (8 * size)))
  | none =>
    let r := dcsRead (dcsGood s who) o size
    .next { r.2 with resp := toLE size r.1 }

/-- REGISTER_WRITE (R10, R11). -/
def execRegisterWrite (who : Requester) (off : BitVec 26) (size : Nat) (value : BitVec 64) (s : State) : Out :=
  let o := off.toNat
  if held s ∨ !dcsReaches s who o then .next s
  else if !dcsAligned o size then .next (dcsBad s who o true)
  else .next (dcsWrite (dcsGood s who) who o size (value.toNat % 2 ^ (8 * size)))

end Sys2Proof.Machine
end

