-- ==== Sys2Proof/Machine/Docent.lean ====
section
/-! DEFINITION. The docent (R157 to R160, R187, R188): its RV64IMC instructions, its six own instructions, its exceptions and EBREAK. -/

namespace Sys2Proof.Machine

/-- A register of the docent; x0 reads 0. -/
def docX (s : State) (b : BayId) (r : Nat) : BitVec 64 := if r = 0 then 0 else mget 0 (bayOf s b).doc.x r

/-- A register write; x0 keeps 0. -/
def setDocX (s : State) (b : BayId) (r : Nat) (v : BitVec 64) : State :=
  if r = 0 then s else modBay s b (fun y => { y with doc := { y.doc with x := mset 0 y.doc.x r v } })

/-- DOC.PC. -/
def docPcV (s : State) (b : BayId) : BitVec 64 := BitVec.ofNat 64 (rd s (.doc b) docPc)

/-- The docent goes on at an address. -/
def docGo (s : State) (b : BayId) (pc : BitVec 64) : State := wr s (.doc b) docPc pc.toNat

/-- Whether the docent can take an instruction: DOC is RUNNING and nothing stalls it. -/
def docReady (s : State) (b : BayId) : Bool := pgState s (.doc b) == 4 && decide ((bayOf s b).doc.stall = .none)

/-- R159, R188: an exception: recorded, DOC_TRAP set, and the page in FAULT. -/
def docTrap (s : State) (b : BayId) (cause : Nat) (val : BitVec 64) : State :=
  let p := Page.doc b
  let s := wr (wr (wr s p docTrapCause cause) p docTrapPc (rd s p docPc)) p docTrapVal val.toNat
  raise s p { bit := 16, stop := true }

/-- An illegal instruction; its TRAP_VAL is not stated (log 43). -/
def docIllegal (s : State) (b : BayId) (w : Nat) : State := docTrap s b 2 (Config.trapValue 2 (BitVec.ofNat 32 w))

/-- R188: an uncorrectable error in one of the docent's memories: POISON and an access fault. -/
def docMemError (s : State) (b : BayId) (cause addr : Nat) : State :=
  docTrap (raise s (.doc b) { bit := 7 }) b cause (BitVec.ofNat 64 addr)

/-! ### Accesses (R157). -/

/-- The regions of R157. -/
inductive DocRegion where
  | imem (off : Nat) | dmem (off : Nat) | store (addr : Nat) | ctl (off : Nat)
deriving DecidableEq, Repr

/-- The region that holds all bytes of an access. -/
def docRegion (b : BayId) (a size : Nat) : Option DocRegion :=
  let e := a + size
  let c := 0x10001000000 + b.val * 0x40000
  if e ≤ 0x10000 then some (.imem a)
  else if 0x10000 ≤ a ∧ e ≤ 0x20000 then some (.dmem (a - 0x10000))
  else if 0x8000000 ≤ a ∧ e ≤ 0x10000000 then some (.store (a - 0x8000000))
  else if c ≤ a ∧ e ≤ c + 0x40000 then some (.ctl (a - 0x10000000000))
  else none

/-- `n` bytes of a docent memory. -/
def docBytes (m : SMap Byte) (off n : Nat) : List Byte := (List.range n).map (fun i => mget 0 m (off + i))

/-- A load of R157: its bytes, or the exception's cause, and the state left. A misaligned one takes cause 4 where the region asks for
natural alignment (DEDUCED, log 46); the control region refuses it as R43 does. -/
def docLoad (s : State) (b : BayId) (a size : Nat) : Except Nat (List Byte) × State :=
  match docRegion b a size with
  | none => (.error 5, s)
  | some (.imem o) => (.ok (docBytes (bayOf s b).doc.imem o size), s)
  | some (.dmem o) => if a % size ≠ 0 then (.error 4, s) else (.ok (docBytes (bayOf s b).doc.dmem o size), s)
  | some (.store o) =>
    if a % size ≠ 0 then (.error 4, s)
    else
      let r := storeRead s b (.doc b) 0 o size .ok .none
      if r.2.1 then (.error 5, r.2.2) else (.ok r.1, r.2.2)
  | some (.ctl o) =>
    if !dcsAligned o size then (.error 5, dcsRefuse s (.docent b))
    else
      let r := dcsRead s o size
      (.ok (toLE size r.1), r.2)

/-- A store of R157: the exception's cause, if any, and the state left. -/
def docStore (s : State) (b : BayId) (a size : Nat) (v : BitVec 64) : Option Nat × State :=
  let d := toLE size (v.toNat % 2 ^ (8 * size))
  match docRegion b a size with
  | none | some (.imem _) => (some 7, s)
  | some (.dmem o) =>
    if a % size ≠ 0 then (some 6, s)
    else (none, modBay s b (fun y => { y with doc := { y.doc with dmem := putBytes y.doc.dmem o d } }))
  | some (.store o) =>
    if a % size ≠ 0 then (some 6, s) else if inColl o size then (some 7, s) else (none, storeWrite s b o d false)
  | some (.ctl o) =>
    if !dcsAligned o size then (some 7, dcsRefuse s (.docent b))
    else (none, dcsWrite s (.docent b) o size (v.toNat % 2 ^ (8 * size)))

/-! ### The docent's own instructions (R160). Each takes DOC.PC 4 bytes on when it completes. -/

/-- The completion of an instruction with a result. -/
def docDone (s : State) (b : BayId) (rd' : Nat) (v : BitVec 64) : State := docGo (setDocX s b rd' v) b (docPcV s b + 4)

/-- A DC instruction's encoding, for the value of an illegal one. -/
def encDc (f3 rd' rs1 rs2 : Nat) : Nat := encR 0x0B f3 0 rd' rs1 rs2

/-- R160: the word of a DC.PUSH, or the exception: the queue's mode (24), alignment (4) and data memory (5). -/
def pushWord (s : State) (b : BayId) (q : QueueId) (a : Nat) : Except Nat (List (BitVec 32)) :=
  let m := (bayOf s b).doc.dmem
  if rd s (.issue b) (issQQcfg q.val) = 1 then .error 24
  else if a % 4 ≠ 0 then .error 4
  else match docRegion b a 4 with
  | some (.dmem o) =>
    let n := wordLen (leNat (docBytes m o 4))
    match docRegion b a (4 * n) with
    | some (.dmem o) => .ok (wordsOf (docBytes m o (4 * n)) n)
    | _ => .error 5
  | _ => .error 5

/-- The word enters the queue, and rd takes its position. -/
def pushDone (s : State) (b : BayId) (q : QueueId) (rd' : Nat) (ws : List (BitVec 32)) : State :=
  let s := queuePut s b q none ws
  docDone s b rd' (BitVec.ofNat 64 (queuePos s b q))

/-- Whether a queue takes a word: its page works and it has room. -/
def pushFits (s : State) (b : BayId) (q : QueueId) (n : Nat) : Bool := decide (2 ≤ pgState s (.issue b)) && queueRoom s b q n

/-- The docent stalls; DOC.PC goes on naming the instruction. -/
def docStallIn (s : State) (b : BayId) (st : DocStall) (r : Row) : State :=
  wr (modBay s b (fun y => { y with doc := { y.doc with stall := st } })) (.doc b) r 1

/-- DC.PUSH. -/
def dcPushAct (b : BayId) (rd' rs1 rs2 : Fin 32) (s : State) : State :=
  let q : QueueId := ⟨(docX s b rs2.val).toNat % 4, Nat.mod_lt _ (by decide)⟩
  let a := docX s b rs1.val
  match pushWord s b q a.toNat with
  | .error 24 => docTrap s b 24 (Config.trapValue 24 (BitVec.ofNat 32 (encDc 0 rd'.val rs1.val rs2.val)))
  | .error c => docTrap s b c a
  | .ok ws => if pushFits s b q ws.length then pushDone s b q rd'.val ws else docStallIn s b (.push q rd' ws) docStatusPushStall

/-- DC_PUSH (R160). -/
def execDcPush (b : BayId) (rd' rs1 rs2 : Fin 32) (s : State) : Out :=
  .next (if docReady s b then dcPushAct b rd' rs1 rs2 s else s)

/-- A stall ends. -/
def docUnstall (s : State) (b : BayId) (r : Row) : State :=
  wr (modBay s b (fun y => { y with doc := { y.doc with stall := .none } })) (.doc b) r 0

/-- DC_PUSH_ROOM (R160). -/
def execDcPushRoom (b : BayId) (s : State) : Out :=
  match (bayOf s b).doc.stall with
  | .push q rd' ws =>
    .next (if pgState s (.doc b) = 4 ∧ pushFits s b q ws.length then pushDone (docUnstall s b docStatusPushStall) b q rd'.val ws else s)
  | _ => .next s

/-- Whether an address FIFO takes a value. -/
def afFits (s : State) (b : BayId) (f : Nat) : Bool := decide (2 ≤ pgState s (.issue b)) && afRoom s b f

/-- DC.AFP. -/
def dcAfpAct (b : BayId) (rs1 rs2 : Fin 32) (s : State) : State :=
  let f : Fin 4 := ⟨(docX s b rs2.val).toNat % 4, Nat.mod_lt _ (by decide)⟩
  let v := docX s b rs1.val
  if afFits s b f.val then docDone (afPut s b f.val v) b 0 0 else docStallIn s b (.afp f v) docStatusAfpStall

/-- DC_AFP (R160). -/
def execDcAfp (b : BayId) (rs1 rs2 : Fin 32) (s : State) : Out := .next (if docReady s b then dcAfpAct b rs1 rs2 s else s)

/-- DC_AFP_ROOM (R160). -/
def execDcAfpRoom (b : BayId) (s : State) : Out :=
  match (bayOf s b).doc.stall with
  | .afp f v =>
    .next (if pgState s (.doc b) = 4 ∧ afFits s b f.val then docDone (afPut (docUnstall s b docStatusAfpStall) b f.val v) b 0 0 else s)
  | _ => .next s

/-- R160: a field of a summary slot; none for 11 to 15. -/
def sumField (s : State) (b : BayId) (k f : Nat) : Option Nat :=
  let p := Page.vec b
  match f with
  | 0 => some (rd s p (vecSlotSum k)) | 1 => some (rd s p (vecSlotMax k)) | 2 => some (rd s p (vecSlotMin k))
  | 3 => some (slotAmax s b k) | 4 => some (rd s p (vecSlotActive k)) | 5 => some (rd s p (vecSlotNz k))
  | 6 => some (rd s p (vecSlotNan k)) | 7 => some (rd s p (vecSlotSat k)) | 8 => some (rd s p (vecSlotFlush k))
  | 9 => some (rd s p (vecSlotSflagsValid k) + 2 * rd s p (vecSlotSflagsPoisoned k) + 4 * rd s p (vecSlotSflagsFlags k))
  | 10 => some (rd s p (vecSlotSeq k))
  | _ => none

/-- DC.SUM. -/
def dcSumAct (b : BayId) (rd' rs1 rs2 : Fin 32) (s : State) : State :=
  match sumField s b ((docX s b rs1.val).toNat % 4) ((docX s b rs2.val).toNat % 16) with
  | some v => docDone s b rd'.val (BitVec.ofNat 64 v)
  | none => docIllegal s b (encDc 2 rd'.val rs1.val rs2.val)

/-- DC_SUM (R160). -/
def execDcSum (b : BayId) (rd' rs1 rs2 : Fin 32) (s : State) : Out := .next (if docReady s b then dcSumAct b rd' rs1 rs2 s else s)

/-- R160: a byte of DC.WAIT, DC.SIG or DC.TEST that makes the instruction illegal: V = 0, or a counter at index 16 or above. -/
def dcByteBad (w : Nat) : Bool := !byteV w || byteBad w

/-- R175: a slot of a queue's head word waits on the same flag: it consumes the flag before the docent. -/
def queueWants (s : State) (b : BayId) (w : Nat) : Bool := byteV w && !byteK w && !(flagWaiters s b (byteIdx w)).isEmpty

/-- R175: the docent's wait is satisfied. -/
def docWaitOk (s : State) (b : BayId) (w thr : Nat) : Bool := waitOk s b w thr && !queueWants s b w

/-- DC.WAIT. -/
def dcWaitAct (b : BayId) (rs1 rs2 : Fin 32) (s : State) : State :=
  let w := BitVec.ofNat 8 (docX s b rs1.val).toNat
  let t := BitVec.ofNat 32 (docX s b rs2.val).toNat
  if dcByteBad w.toNat then docIllegal s b (encDc 3 0 rs1.val rs2.val)
  else if docWaitOk s b w.toNat t.toNat then docDone (waitTake s b w.toNat) b 0 0
  else wr (wr (docStallIn s b (.wait w t) docStatusWaiting) (.doc b) docAwait w.toNat) (.doc b) docAwaitThr t.toNat

/-- DC_WAIT (R160). -/
def execDcWait (b : BayId) (rs1 rs2 : Fin 32) (s : State) : Out := .next (if docReady s b then dcWaitAct b rs1 rs2 s else s)

/-- DC_WAIT_SATISFIED (R175). -/
def execDcWaitSatisfied (b : BayId) (s : State) : Out :=
  match (bayOf s b).doc.stall with
  | .wait w t =>
    .next (if pgState s (.doc b) = 4 ∧ docWaitOk s b w.toNat t.toNat then
      docDone (waitTake (docUnstall s b docStatusWaiting) b w.toNat) b 0 0 else s)
  | _ => .next s

/-- DC.SIG. -/
def dcSigAct (b : BayId) (rs1 : Fin 32) (s : State) : State :=
  let w := (docX s b rs1.val).toNat % 256
  if dcByteBad w then docIllegal s b (encDc 4 0 rs1.val 0) else docDone (signal s b w) b 0 0

/-- DC_SIG (R160). -/
def execDcSig (b : BayId) (rs1 : Fin 32) (s : State) : Out := .next (if docReady s b then dcSigAct b rs1 s else s)

/-- DC.TEST. -/
def dcTestAct (b : BayId) (rd' rs1 : Fin 32) (s : State) : State :=
  let w := (docX s b rs1.val).toNat % 256
  if dcByteBad w then docIllegal s b (encDc 5 rd'.val rs1.val 0)
  else docDone s b rd'.val (BitVec.ofNat 64 (if byteK w then cnt s b (byteIdx w) else b2n (flagIs s b (byteIdx w))))

/-- DC_TEST (R160). -/
def execDcTest (b : BayId) (rd' rs1 : Fin 32) (s : State) : Out := .next (if docReady s b then dcTestAct b rd' rs1 s else s)

/-- R159: EBREAK: the docent's normal end; PC names the next instruction. -/
def docHalt (b : BayId) (len : Nat) (s : State) : State :=
  let p := Page.doc b
  let s := docGo s b (docPcV s b + BitVec.ofNat 64 len)
  setEvt (enter (wr s p docStatusState 2) p 2) p 16

/-- EBREAK (R159). -/
def execEbreak (b : BayId) (compressed : Bool) (s : State) : Out :=
  .next (if docReady s b then docHalt b (if compressed then 2 else 4) s else s)

/-! ### One instruction (R158). -/

/-- A 5-bit register number. -/
def reg5 (w hi lo : Nat) : Fin 32 := ⟨bits w hi lo % 32, Nat.mod_lt _ (by decide)⟩

/-- R160: a custom-0 word. -/
def docCustom (b : BayId) (w : Nat) (s : State) : State :=
  let d := reg5 w 11 7
  let r1 := reg5 w 19 15
  let r2 := reg5 w 24 20
  if bits w 31 25 ≠ 0 then docIllegal s b w
  else match bits w 14 12 with
  | 0 => dcPushAct b d r1 r2 s
  | 1 => if d = 0 then dcAfpAct b r1 r2 s else docIllegal s b w
  | 2 => dcSumAct b d r1 r2 s
  | 3 => if d = 0 then dcWaitAct b r1 r2 s else docIllegal s b w
  | 4 => if d = 0 ∧ r2 = 0 then dcSigAct b r1 s else docIllegal s b w
  | 5 => if r2 = 0 then dcTestAct b d r1 s else docIllegal s b w
  | _ => docIllegal s b w

/-- R484: a residue or parity check of the docent fails: the instruction takes an access fault, POISON and a log entry. Which of the access
faults, and its TRAP_VAL, the spec does not state (log 122). -/
def docLogic (b : BayId) (w : Nat) (s : State) : State :=
  docTrap (logicCheck s (.doc b) 0 .logic) b (if w % 128 = 0x23 then 7 else 5) (Config.trapValue 5 (BitVec.ofNat 32 w))

/-- R188: a DC.PUSH whose word in data memory is read with an uncorrectable error. -/
def pushUe (b : BayId) (w : Nat) (ue : Bool) (s : State) : Bool :=
  ue && w % 128 == 0x0B && bits w 31 25 == 0 && bits w 14 12 == 0 &&
    (match pushWord s b ⟨(docX s b (reg5 w 24 20).val).toNat % 4, Nat.mod_lt _ (by decide)⟩ (docX s b (reg5 w 19 15).val).toNat with
      | .ok _ => true
      | .error _ => false)

/-- What the docent does with a decoded word of `len` bytes; `ue`: its load from its memories, or DC.PUSH's read of its word, finds an
uncorrectable error. -/
def docAct (b : BayId) (w len : Nat) (ue : Bool) (s : State) : State :=
  let pc := docPcV s b
  let next := pc + BitVec.ofNat 64 len
  match rvExec isaDoc w pc (docX s b) (fun _ => 0) 0 with
  | .xwr r v _ => docGo (setDocX s b r v) b next
  | .jump r t => docGo (setDocX s b r next) b t
  | .branch t a => docGo s b (if t then a else next)
  | .load r a size sg _ =>
    let own := match docRegion b a.toNat size with | some (.imem _) | some (.dmem _) => true | _ => false
    if ue && own then docMemError s b 5 a.toNat
    else
      let v := docLoad s b a.toNat size
      match v.1 with
      | .ok d => docGo (setDocX v.2 b r (loadVal size sg false d)) b next
      | .error c => docTrap v.2 b c a
  | .store a size v =>
    let r := docStore s b a.toNat size v
    match r.1 with
    | none => docGo r.2 b next
    | some c => docTrap r.2 b c a
  | .fence => docGo s b next
  | .ecall => docTrap s b 11 0
  | .ebreak => docHalt b len s
  | .custom0 => if pushUe b w ue s then docMemError s b 5 (docX s b (reg5 w 19 15).val).toNat else docCustom b w s
  | _ => docIllegal s b w

/-- DOCENT_INSTRUCTION (R158, R159): the instruction at DOC.PC. `fetchUe`, `dataUe`: its fetch, or its load or DC.PUSH from the docent's own
memories, finds an uncorrectable error; `u`: what SECDED finds in bay store where it loads from there, or a failed check of the docent. -/
def execDocentInstruction (b : BayId) (fetchUe dataUe : Bool) (u : Upset) (s : State) : Out :=
  let pc := (docPcV s b).toNat
  let m := (bayOf s b).doc.imem
  if !docReady s b then .next s
  else if pc % 2 ≠ 0 then .next (docTrap s b 0 (BitVec.ofNat 64 pc))
  else if 0x10000 < pc + 2 then .next (docTrap s b 1 (BitVec.ofNat 64 pc))
  else
    let h := leNat (docBytes m pc 2)
    let long := h % 4 = 3
    if long ∧ 0x10000 < pc + 4 then .next (docTrap s b 1 (BitVec.ofNat 64 (pc + 2)))
    else
      if fetchUe then .next (docMemError s b 1 pc)
      else match if long then some (leNat (docBytes m pc 4)) else cExpand isaDoc h with
      | none => .next (docIllegal s b h)
      | some w => .next (if u = .logic then docLogic b w s else docAct b w (if long then 4 else 2) dataUe (storeUpset s b u))

end Sys2Proof.Machine
end

