-- ==== Sys2Proof/Machine/Dispatch.lean ====
section
/-! DEFINITION. One arm per command: its meaning. -/

namespace Sys2Proof.Machine

def exec (i : Instr) (s : State) : Host.Outcome State Fault Refusal :=
  match i with
  -- 02 control pages, 01 composition
  | .run p => Sys2Proof.Machine.execRun p s
  | .stop p => Sys2Proof.Machine.execStop p s
  | .reset p => Sys2Proof.Machine.execReset p s
  | .clrErr p => Sys2Proof.Machine.execClrErr p s
  | .sleep p => Sys2Proof.Machine.execSleep p s
  | .wake p => Sys2Proof.Machine.execWake p s
  | .registerWrite who off size value => Sys2Proof.Machine.execRegisterWrite who off size value s
  | .startingDone p => Sys2Proof.Machine.execStartingDone p s
  | .stoppingDone p => Sys2Proof.Machine.execStoppingDone p s
  | .sleepCleanDone p => Sys2Proof.Machine.execSleepCleanDone p s
  | .wakeDone p => Sys2Proof.Machine.execWakeDone p s
  | .logTailWrite v => Sys2Proof.Machine.execLogTailWrite v s
  | .domainRestart key => Sys2Proof.Machine.execDomainRestart key s
  | .moduleReset key => Sys2Proof.Machine.execModuleReset key s
  | .refclkLoss => Sys2Proof.Machine.execRefclkLoss s
  | .refclkReturn => Sys2Proof.Machine.execRefclkReturn s
  | .meterWindow ix ps => Sys2Proof.Machine.execMeterWindow ix ps s
  | .pacerFrame u => Sys2Proof.Machine.execPacerFrame u s
  | .stallWatchdog p => Sys2Proof.Machine.execStallWatchdog p s
  | .coreInstruction n ecc => Sys2Proof.Machine.execCoreInstruction n ecc s
  | .cboClean n va => Sys2Proof.Machine.execCboClean n va s
  | .cboFlush n va => Sys2Proof.Machine.execCboFlush n va s
  | .cboInval n va => Sys2Proof.Machine.execCboInval n va s
  | .cboZero n va => Sys2Proof.Machine.execCboZero n va s
  | .registerParityMismatch n file => Sys2Proof.Machine.execRegisterParityMismatch n file s
  | .l1FillChunk n fetch => Sys2Proof.Machine.execL1FillChunk n fetch s
  -- 04 arrays
  | .mma b op src sig u => Sys2Proof.Machine.execMma b op src sig u s
  | .arithStart b a => Sys2Proof.Machine.execArithStart b a s
  | .arithEnd b a u mismatch => Sys2Proof.Machine.execArithEnd b a u mismatch s
  | .drainEnd b a u => Sys2Proof.Machine.execDrainEnd b a u s
  | .recomputeEnd b a u mismatch => Sys2Proof.Machine.execRecomputeEnd b a u mismatch s
  | .selfTestDone b a colFails spareFails => Sys2Proof.Machine.execSelfTestDone b a colFails spareFails s
  | .checkEnWrite b a en => Sys2Proof.Machine.execCheckEnWrite b a en s
  -- 05 vector engine
  | .pass b op q sig => Sys2Proof.Machine.execPass b op q sig s
  | .passIssueStart b u => Sys2Proof.Machine.execPassIssueStart b u s
  | .spanEnd b u => Sys2Proof.Machine.execSpanEnd b u s
  | .passComplete b => Sys2Proof.Machine.execPassComplete b s
  -- 06 docent and issue
  | .docentInstruction b fetchUe dataUe u => Sys2Proof.Machine.execDocentInstruction b fetchUe dataUe u s
  | .ebreak b compressed => Sys2Proof.Machine.execEbreak b compressed s
  | .dcPush b rd rs1 rs2 => Sys2Proof.Machine.execDcPush b rd rs1 rs2 s
  | .dcPushRoom b => Sys2Proof.Machine.execDcPushRoom b s
  | .dcAfp b rs1 rs2 => Sys2Proof.Machine.execDcAfp b rs1 rs2 s
  | .dcAfpRoom b => Sys2Proof.Machine.execDcAfpRoom b s
  | .dcSum b rd rs1 rs2 => Sys2Proof.Machine.execDcSum b rd rs1 rs2 s
  | .dcWait b rs1 rs2 => Sys2Proof.Machine.execDcWait b rs1 rs2 s
  | .dcWaitSatisfied b => Sys2Proof.Machine.execDcWaitSatisfied b s
  | .dcSig b rs1 => Sys2Proof.Machine.execDcSig b rs1 s
  | .dcTest b rd rs1 => Sys2Proof.Machine.execDcTest b rd rs1 s
  | .memDataAccess b write => Sys2Proof.Machine.execMemDataAccess b write s
  | .issueDoorbell b q n => Sys2Proof.Machine.execIssueDoorbell b q n s
  | .ringFetch b q chk => Sys2Proof.Machine.execRingFetch b q chk s
  | .wordDecode b q u => Sys2Proof.Machine.execWordDecode b q u s
  | .slotIssue b q slot u => Sys2Proof.Machine.execSlotIssue b q slot u s
  | .ctlNop b q => Sys2Proof.Machine.execCtlNop b q s
  | .call b q => Sys2Proof.Machine.execCall b q s
  | .ret b q => Sys2Proof.Machine.execRet b q s
  | .replay b q => Sys2Proof.Machine.execReplay b q s
  | .launch b q => Sys2Proof.Machine.execLaunch b q s
  | .notify b q => Sys2Proof.Machine.execNotify b q s
  | .record b q => Sys2Proof.Machine.execRecord b q s
  | .endrec b q => Sys2Proof.Machine.execEndrec b q s
  | .frameReturn b q => Sys2Proof.Machine.execFrameReturn b q s
  | .synNop b q => Sys2Proof.Machine.execSynNop b q s
  | .cadd b q => Sys2Proof.Machine.execCadd b q s
  | .cset b q => Sys2Proof.Machine.execCset b q s
  | .fclr b q => Sys2Proof.Machine.execFclr b q s
  | .fset b q => Sys2Proof.Machine.execFset b q s
  | .drain b q => Sys2Proof.Machine.execDrain b q s
  | .afPush b f size value => Sys2Proof.Machine.execAfPush b f size value s
  | .deadlockDeclared b => Sys2Proof.Machine.execDeadlockDeclared b s
  | .syncFset b mask => Sys2Proof.Machine.execSyncFset b mask s
  | .syncFclr b mask => Sys2Proof.Machine.execSyncFclr b mask s
  | .cntWrite b n v => Sys2Proof.Machine.execCntWrite b n v s
  | .caddWrite b n v => Sys2Proof.Machine.execCaddWrite b n v s
  -- 07 thread groups
  | .blockResident b => Sys2Proof.Machine.execBlockResident b s
  | .tguIssue b ready => Sys2Proof.Machine.execTguIssue b ready s
  | .threadInstruction b g chk u => Sys2Proof.Machine.execThreadInstruction b g chk u s
  | .tgId b g rd rs1 => Sys2Proof.Machine.execTgId b g rd rs1 s
  | .tgVoteAny b g rd rs1 => Sys2Proof.Machine.execTgVoteAny b g rd rs1 s
  | .tgVoteAll b g rd rs1 => Sys2Proof.Machine.execTgVoteAll b g rd rs1 s
  | .tgBallot b g rd rs1 => Sys2Proof.Machine.execTgBallot b g rd rs1 s
  | .tgShflIdx b g rd rs1 rs2 => Sys2Proof.Machine.execTgShflIdx b g rd rs1 rs2 s
  | .tgShflUp b g rd rs1 rs2 => Sys2Proof.Machine.execTgShflUp b g rd rs1 rs2 s
  | .tgShflDn b g rd rs1 rs2 => Sys2Proof.Machine.execTgShflDn b g rd rs1 rs2 s
  | .tgShflXor b g rd rs1 rs2 => Sys2Proof.Machine.execTgShflXor b g rd rs1 rs2 s
  | .tgBar b g rs1 => Sys2Proof.Machine.execTgBar b g rs1 s
  | .tgBarArv b g rs1 => Sys2Proof.Machine.execTgBarArv b g rs1 s
  | .barrierResume b k n => Sys2Proof.Machine.execBarrierResume b k n s
  | .tgYield b g => Sys2Proof.Machine.execTgYield b g s
  | .tgExit b g => Sys2Proof.Machine.execTgExit b g s
  | .tgFenceG b g => Sys2Proof.Machine.execTgFenceG b g s
  | .tgFenceB b g => Sys2Proof.Machine.execTgFenceB b g s
  | .tgFenceD b g => Sys2Proof.Machine.execTgFenceD b g s
  | .tgFenceS b g => Sys2Proof.Machine.execTgFenceS b g s
  | .tgFenceDone b g lane => Sys2Proof.Machine.execTgFenceDone b g lane s
  | .tgScope b g rs1 => Sys2Proof.Machine.execTgScope b g rs1 s
  | .tgLock b g rd rs1 => Sys2Proof.Machine.execTgLock b g rd rs1 s
  | .tgUnlock b g rs1 => Sys2Proof.Machine.execTgUnlock b g rs1 s
  | .tgFsig b g rs1 => Sys2Proof.Machine.execTgFsig b g rs1 s
  | .tgFwait b g rs1 rs2 => Sys2Proof.Machine.execTgFwait b g rs1 rs2 s
  | .tgFwaitSatisfied b g lane => Sys2Proof.Machine.execTgFwaitSatisfied b g lane s
  | .tgFtest b g rd rs1 => Sys2Proof.Machine.execTgFtest b g rd rs1 s
  | .tgGth b g rs1 rs2 => Sys2Proof.Machine.execTgGth b g rs1 rs2 s
  | .tgMtx b g rs1 rs2 => Sys2Proof.Machine.execTgMtx b g rs1 rs2 s
  | .xtgHandshake b g lane u => Sys2Proof.Machine.execXtgHandshake b g lane u s
  | .barrierStranded b k n => Sys2Proof.Machine.execBarrierStranded b k n s
  | .blockComplete b k => Sys2Proof.Machine.execBlockComplete b k s
  -- 08 store, movers, gathers, translation
  | .correctionWriteback b line => Sys2Proof.Machine.execCorrectionWriteback b line s
  | .movDesc b m op q sig u => Sys2Proof.Machine.execMovDesc b m op q sig u s
  | .movInline b m op q sig => Sys2Proof.Machine.execMovInline b m op q sig s
  | .movCopy b m chk u ahead => Sys2Proof.Machine.execMovCopy b m chk u ahead s
  | .movConvert b m chk u ahead => Sys2Proof.Machine.execMovConvert b m chk u ahead s
  | .movPut b m chk u ahead => Sys2Proof.Machine.execMovPut b m chk u ahead s
  | .movGet b m => Sys2Proof.Machine.execMovGet b m s
  | .movAtomic b m => Sys2Proof.Machine.execMovAtomic b m s
  | .movComplete b m => Sys2Proof.Machine.execMovComplete b m s
  | .gather b g op src sig u => Sys2Proof.Machine.execGather b g op src sig u s
  | .gatherRowArrival b g row chk u ahead => Sys2Proof.Machine.execGatherRowArrival b g row chk u ahead s
  | .gatherComplete b g => Sys2Proof.Machine.execGatherComplete b g s
  | .xlateInval b scope asid => Sys2Proof.Machine.execXlateInval b scope asid s
  | .invalDone b => Sys2Proof.Machine.execInvalDone b s
  -- 09 caches
  | .cacheLookup c cls line write ecc => Sys2Proof.Machine.execCacheLookup c cls line write ecc s
  | .wayPowerDown c way => Sys2Proof.Machine.execWayPowerDown c way s
  | .wayPowerUp c way => Sys2Proof.Machine.execWayPowerUp c way s
  | .wayOff c way => Sys2Proof.Machine.execWayOff c way s
  | .wayOn c way => Sys2Proof.Machine.execWayOn c way s
  | .waymaskWrite c cls mask => Sys2Proof.Machine.execWaymaskWrite c cls mask s
  | .rangeClean c => Sys2Proof.Machine.execRangeClean c s
  | .rangeInvalidate c => Sys2Proof.Machine.execRangeInvalidate c s
  | .rangeCleanInv c => Sys2Proof.Machine.execRangeCleanInv c s
  | .rangeDone c => Sys2Proof.Machine.execRangeDone c s
  -- 10 coherence
  | .load a line => Sys2Proof.Machine.execLoad a line s
  | .storeEvent a line => Sys2Proof.Machine.execStoreEvent a line s
  | .evict a cls line => Sys2Proof.Machine.execEvict a cls line s
  | .rds a line => Sys2Proof.Machine.execRds a line s
  | .rdx a line => Sys2Proof.Machine.execRdx a line s
  | .upg a line => Sys2Proof.Machine.execUpg a line s
  | .rdcur die cls line => Sys2Proof.Machine.execRdcur die cls line s
  | .wrfull die cls line data => Sys2Proof.Machine.execWrfull die cls line data s
  | .wrpart die cls line mask data => Sys2Proof.Machine.execWrpart die cls line mask data s
  | .atomicRequest die cls line op => Sys2Proof.Machine.execAtomicRequest die cls line op s
  | .wb a line => Sys2Proof.Machine.execWb a line s
  | .salvwr a line => Sys2Proof.Machine.execSalvwr a line s
  | .snps a line => Sys2Proof.Machine.execSnps a line s
  | .snpx a line => Sys2Proof.Machine.execSnpx a line s
  | .snpcur a line => Sys2Proof.Machine.execSnpcur a line s
  | .snpinv a line => Sys2Proof.Machine.execSnpinv a line s
  | .snoopAnswer a line => Sys2Proof.Machine.execSnoopAnswer a line s
  | .cmpack a line => Sys2Proof.Machine.execCmpack a line s
  | .gnts a line => Sys2Proof.Machine.execGnts a line s
  | .gnte a line => Sys2Proof.Machine.execGnte a line s
  | .gntm a line => Sys2Proof.Machine.execGntm a line s
  | .gntupg a line => Sys2Proof.Machine.execGntupg a line s
  | .wback a line => Sys2Proof.Machine.execWback a line s
  | .cmp die line => Sys2Proof.Machine.execCmp die line s
  | .datacur die line => Sys2Proof.Machine.execDatacur die line s
  | .memReadReturn line chk => Sys2Proof.Machine.execMemReadReturn line chk s
  | .snoopTimeout a line => Sys2Proof.Machine.execSnoopTimeout a line s
  | .ackTimeout line => Sys2Proof.Machine.execAckTimeout line s
  | .grantTimeout die line => Sys2Proof.Machine.execGrantTimeout die line s
  | .forceDown key => Sys2Proof.Machine.execForceDown key s
  | .downSequenceEnd => Sys2Proof.Machine.execDownSequenceEnd s
  | .salvage => Sys2Proof.Machine.execSalvage s
  | .salvageAgentDone => Sys2Proof.Machine.execSalvageAgentDone s
  | .salvageAgentTimeout => Sys2Proof.Machine.execSalvageAgentTimeout s
  | .dumpAddrWrite addr => Sys2Proof.Machine.execDumpAddrWrite addr s
  | .dumpDone => Sys2Proof.Machine.execDumpDone s
  | .restartComplete tokensBack => Sys2Proof.Machine.execRestartComplete tokensBack s
  -- 11 memory
  | .blockRead blk cls fill later chk => Sys2Proof.Machine.execBlockRead blk cls fill later chk s
  | .blockWrite blk cls w => Sys2Proof.Machine.execBlockWrite blk cls w s
  | .readModifyWrite blk cls mask data poison chk => Sys2Proof.Machine.execReadModifyWrite blk cls mask data poison chk s
  | .reread blk chk => Sys2Proof.Machine.execReread blk chk s
  | .bankRefresh stk c bank => Sys2Proof.Machine.execBankRefresh stk c bank s
  | .rowIdleClose stk c bank => Sys2Proof.Machine.execRowIdleClose stk c bank s
  | .stackTempSample stk t => Sys2Proof.Machine.execStackTempSample stk t s
  | .patrolRead stk c chk disagree tagBad => Sys2Proof.Machine.execPatrolRead stk c chk disagree tagBad s
  | .patrolEnWrite stk c en => Sys2Proof.Machine.execPatrolEnWrite stk c en s
  | .deaccession stk c key => Sys2Proof.Machine.execDeaccession stk c key s
  | .channelRetrain stk c errs => Sys2Proof.Machine.execChannelRetrain stk c errs s
  | .channelRetrainDone stk c ok => Sys2Proof.Machine.execChannelRetrainDone stk c ok s
  -- 12 die links
  | .flitReceive l dir f crcOk => Sys2Proof.Machine.execFlitReceive l dir f crcOk s
  | .flitReplay l dir => Sys2Proof.Machine.execFlitReplay l dir s
  | .linkTrain l r => Sys2Proof.Machine.execLinkTrain l r s
  | .trainPhaseTimeout l => Sys2Proof.Machine.execTrainPhaseTimeout l s
  | .checkFlit l dir bad => Sys2Proof.Machine.execCheckFlit l dir bad s
  | .wireTest l dir bad => Sys2Proof.Machine.execWireTest l dir bad s
  | .wireSpare l dir wire => Sys2Proof.Machine.execWireSpare l dir wire s
  | .linkNarrow l dir overruns => Sys2Proof.Machine.execLinkNarrow l dir overruns s
  | .forwardedClockLoss l => Sys2Proof.Machine.execForwardedClockLoss l s
  -- 13 fabric ports, routers, flows
  | .identityFrame p bytes => Sys2Proof.Machine.execIdentityFrame p bytes s
  | .portTrain p r => Sys2Proof.Machine.execPortTrain p r s
  | .trainFail p => Sys2Proof.Machine.execTrainFail p s
  | .fabricFlit p f fec second crcOk => Sys2Proof.Machine.execFabricFlit p f fec second crcOk s
  | .fabricReplay p => Sys2Proof.Machine.execFabricReplay p s
  | .fecWindow p corrected lost => Sys2Proof.Machine.execFecWindow p corrected lost s
  | .laneRemap p lane => Sys2Proof.Machine.execLaneRemap p lane s
  | .heartbeat p highNs => Sys2Proof.Machine.execHeartbeat p highNs s
  | .holdTimeout p => Sys2Proof.Machine.execHoldTimeout p s
  | .neighbourLost p => Sys2Proof.Machine.execNeighbourLost p s
  | .sidebandToken p kind chunk => Sys2Proof.Machine.execSidebandToken p kind chunk s
  | .routeLookup f k => Sys2Proof.Machine.execRouteLookup f k s
  | .rtDataWrite f entry => Sys2Proof.Machine.execRtDataWrite f entry s
  | .catalogueWrite r size value => Sys2Proof.Machine.execCatalogueWrite r size value s
  | .flowOpen f => Sys2Proof.Machine.execFlowOpen f s
  | .flowClose f => Sys2Proof.Machine.execFlowClose f s
  | .flowClosed ix => Sys2Proof.Machine.execFlowClosed ix s
  | .flowReset f => Sys2Proof.Machine.execFlowReset f s
  | .domWrite f n satp => Sys2Proof.Machine.execDomWrite f n satp s
  | .writePacket k => Sys2Proof.Machine.execWritePacket k s
  | .readPacket k chk => Sys2Proof.Machine.execReadPacket k chk s
  | .readRsp k => Sys2Proof.Machine.execReadRsp k s
  | .atomicPacket k chk => Sys2Proof.Machine.execAtomicPacket k chk s
  | .atomicRsp k => Sys2Proof.Machine.execAtomicRsp k s
  | .msg k => Sys2Proof.Machine.execMsg k s
  | .ack k => Sys2Proof.Machine.execAck k s
  | .nak k => Sys2Proof.Machine.execNak k s
  | .retransmit ix => Sys2Proof.Machine.execRetransmit ix s
  -- 14 collectives and jobs
  | .ceDoorbell f q n => Sys2Proof.Machine.execCeDoorbell f q n s
  | .bindCounterChange f q => Sys2Proof.Machine.execBindCounterChange f q s
  | .ceEntryFetch f q => Sys2Proof.Machine.execCeEntryFetch f q s
  | .allreduce f q => Sys2Proof.Machine.execAllreduce f q s
  | .reducescatter f q => Sys2Proof.Machine.execReducescatter f q s
  | .allgather f q => Sys2Proof.Machine.execAllgather f q s
  | .broadcast f q => Sys2Proof.Machine.execBroadcast f q s
  | .alltoall f q => Sys2Proof.Machine.execAlltoall f q s
  | .barrier f q => Sys2Proof.Machine.execBarrier f q s
  | .arrivalToken k => Sys2Proof.Machine.execArrivalToken k s
  | .chunk k chk logic => Sys2Proof.Machine.execChunk k chk logic s
  | .collectiveComplete f q => Sys2Proof.Machine.execCollectiveComplete f q s
  | .ceWatchdogTick f q => Sys2Proof.Machine.execCeWatchdogTick f q s
  | .census d => Sys2Proof.Machine.execCensus d s
  | .callDatagram d => Sys2Proof.Machine.execCallDatagram d s
  | .answer d => Sys2Proof.Machine.execAnswer d s
  | .verdict d => Sys2Proof.Machine.execVerdict d s
  | .verdictAck d => Sys2Proof.Machine.execVerdictAck d s
  | .fenceJob d => Sys2Proof.Machine.execFenceJob d s
  | .censusWaitExpiry => Sys2Proof.Machine.execCensusWaitExpiry s
  | .ctrlResend => Sys2Proof.Machine.execCtrlResend s
  | .cmdCensus f => Sys2Proof.Machine.execCmdCensus f s
  | .admitMembers f rank => Sys2Proof.Machine.execAdmitMembers f rank s
  | .leave f => Sys2Proof.Machine.execLeave f s
  | .accStart f => Sys2Proof.Machine.execAccStart f s
  | .accLoaded f => Sys2Proof.Machine.execAccLoaded f s
  | .resume f => Sys2Proof.Machine.execResume f s
  | .accReady d => Sys2Proof.Machine.execAccReady d s
  | .accAck d => Sys2Proof.Machine.execAccAck d s
  | .accAbort d => Sys2Proof.Machine.execAccAbort d s
  | .adopt d => Sys2Proof.Machine.execAdopt d s
  | .adoptAck d => Sys2Proof.Machine.execAdoptAck d s
  | .orphan d => Sys2Proof.Machine.execOrphan d s
  | .reparent d => Sys2Proof.Machine.execReparent d s
  | .storeMsg d => Sys2Proof.Machine.execStoreMsg d s
  | .doneMsg d => Sys2Proof.Machine.execDoneMsg d s
  | .accTimeout child => Sys2Proof.Machine.execAccTimeout child s
  | .orphanTimeout => Sys2Proof.Machine.execOrphanTimeout s
  | .accSignatureCheck => Sys2Proof.Machine.execAccSignatureCheck s
  -- 15 host port
  | .perstAssert => Sys2Proof.Machine.execPerstAssert s
  | .functionLevelReset => Sys2Proof.Machine.execFunctionLevelReset s
  | .linkDown => Sys2Proof.Machine.execLinkDown s
  | .msixEnable => Sys2Proof.Machine.execMsixEnable s
  | .msixMessage v => Sys2Proof.Machine.execMsixMessage v s
  | .memrd line m chk => Sys2Proof.Machine.execMemrd line m chk s
  | .memwr line m data poison => Sys2Proof.Machine.execMemwr line m data poison s
  | .memwrptl line m mask data poison => Sys2Proof.Machine.execMemwrptl line m mask data poison s
  | .memclnevct line => Sys2Proof.Machine.execMemclnevct line s
  | .meminv line => Sys2Proof.Machine.execMeminv line s
  | .birsp line data => Sys2Proof.Machine.execBirsp line data s
  | .backInvalidateTimeout line => Sys2Proof.Machine.execBackInvalidateTimeout line s
  | .dcsAccess who off size write => Sys2Proof.Machine.execDcsAccess who off size write s
  | .dmaTimeout tag => Sys2Proof.Machine.execDmaTimeout tag s
  | .hqDoorbell q n => Sys2Proof.Machine.execHqDoorbell q n s
  | .hqEntryFetch q chk => Sys2Proof.Machine.execHqEntryFetch q chk s
  | .hqNop q => Sys2Proof.Machine.execHqNop q s
  | .hqWrite q => Sys2Proof.Machine.execHqWrite q s
  | .hqDcs q => Sys2Proof.Machine.execHqDcs q s
  | .hqSignal q => Sys2Proof.Machine.execHqSignal q s
  | .hqEntryComplete q => Sys2Proof.Machine.execHqEntryComplete q s
  | .hqResume q => Sys2Proof.Machine.execHqResume q s
  | .claim key => Sys2Proof.Machine.execClaim key s
  | .detach key => Sys2Proof.Machine.execDetach key s
  | .detachDone => Sys2Proof.Machine.execDetachDone s
  -- 16 power
  | .capPeriod p cls => Sys2Proof.Machine.execCapPeriod p cls s
  | .modeWrite v => Sys2Proof.Machine.execModeWrite v s
  | .modeChangeDone => Sys2Proof.Machine.execModeChangeDone s
  | .capWrite v => Sys2Proof.Machine.execCapWrite v s
  | .tjLimitWrite v => Sys2Proof.Machine.execTjLimitWrite v s
  | .ceilWrite u v => Sys2Proof.Machine.execCeilWrite u v s
  | .rateWindow bayNs power iin coolant tj => Sys2Proof.Machine.execRateWindow bayNs power iin coolant tj s
  | .pbrake => Sys2Proof.Machine.execPbrake s
  | .pbrakeRelease => Sys2Proof.Machine.execPbrakeRelease s
  | .regAlert => Sys2Proof.Machine.execRegAlert s
  | .brakeHoldExpiry => Sys2Proof.Machine.execBrakeHoldExpiry s
  | .vinChange mv => Sys2Proof.Machine.execVinChange mv s
  | .pwrEnAssert => Sys2Proof.Machine.execPwrEnAssert s
  | .pwrEnDeassert => Sys2Proof.Machine.execPwrEnDeassert s
  | .pwrGoodRise => Sys2Proof.Machine.execPwrGoodRise s
  | .converterFail c => Sys2Proof.Machine.execConverterFail c s
  | .thermtrip d => Sys2Proof.Machine.execThermtrip d s
  | .thermtripRelease => Sys2Proof.Machine.execThermtripRelease s
  -- 17 faults
  | .regulatorPoll bad => Sys2Proof.Machine.execRegulatorPoll bad s
  | .hubHeartbeat => Sys2Proof.Machine.execHubHeartbeat s
  | .hubFail => Sys2Proof.Machine.execHubFail s
  | .mgHeartbeat => Sys2Proof.Machine.execMgHeartbeat s
  | .mgLost => Sys2Proof.Machine.execMgLost s
  -- 18 start and trust, 19 pins
  | .modResetAssert => Sys2Proof.Machine.execModResetAssert s
  | .modResetRelease straps => Sys2Proof.Machine.execModResetRelease straps s
  | .startStepDone o => Sys2Proof.Machine.execStartStepDone o s
  | .portWaitExpiry => Sys2Proof.Machine.execPortWaitExpiry s
  | .startTimeout => Sys2Proof.Machine.execStartTimeout s
  | .getReport port nonce => Sys2Proof.Machine.execGetReport port nonce s
  | .getLog port first => Sys2Proof.Machine.execGetLog port first s
  | .getCerts port off => Sys2Proof.Machine.execGetCerts port off s
  | .updateBegin port type size => Sys2Proof.Machine.execUpdateBegin port type size s
  | .updateData port off bytes => Sys2Proof.Machine.execUpdateData port off bytes s
  | .updateEnd port => Sys2Proof.Machine.execUpdateEnd port s
  | .commit port mask => Sys2Proof.Machine.execCommit port mask s
  | .secCommit key mask => Sys2Proof.Machine.execSecCommit key mask s
  | .ledgerRead port slot => Sys2Proof.Machine.execLedgerRead port slot s
  | .ledgerClear port slot seq => Sys2Proof.Machine.execLedgerClear port slot seq s
  | .ledgerClrSlot key => Sys2Proof.Machine.execLedgerClrSlot key s
  | .ledgerClrRecords key => Sys2Proof.Machine.execLedgerClrRecords key s
  | .configRead port off => Sys2Proof.Machine.execConfigRead port off s
  | .configWrite port off bytes lastMsg => Sys2Proof.Machine.execConfigWrite port off bytes lastMsg s
  | .spdmChallenge nonce => Sys2Proof.Machine.execSpdmChallenge nonce s
  | .spdmGetMeasurements index => Sys2Proof.Machine.execSpdmGetMeasurements index s
  | .jtagInstruction ix => Sys2Proof.Machine.execJtagInstruction ix s
  | .perstRelease => Sys2Proof.Machine.execPerstRelease s
  | .hostLinkUp width rate => Sys2Proof.Machine.execHostLinkUp width rate s
  | .regAlertEnd => Sys2Proof.Machine.execRegAlertEnd s
  | .dmaReadCompletion tag st => Sys2Proof.Machine.execDmaReadCompletion tag st s

end Sys2Proof.Machine
end

