-- ==== Sys2Proof/Machine/Pins.lean ====
section
/-! DEFINITION. The phases of the module's life and the state of every pin in each (R521 to R524, R528, R531). -/

namespace Sys2Proof.Machine

/-- R522: the phases of an installed module. -/
inductive Phase where
  | unpowered | reset | identity | run
deriving DecidableEq, Repr

/-- R522: the phase. -/
def phase (s : State) : Phase :=
  if !s.power.pwrGood then .unpowered
  else if s.mg.inReset then .reset
  else if s.mg.startDone ∨ 8 ≤ s.mg.startStep then .run
  else .identity

/-- R522: the MG die's standby domain is powered. -/
def standby (s : State) : Bool := decide (36000 ≤ s.power.vin)

/-- R521: the signals of the module's connectors. -/
inductive PinId where
  | cxlTx | cxlRx | refclk | perstN | clkreqN
  | ftx (q : Fin 32) (lane : Fin 8) | frx (q : Fin 32) | sba (q : Fin 32) | sbb (q : Fin 32)
  | i3c | uartTx | uartRx | tapIn | tdo | pbrakeN | thermtripN | alertN | pwrEn | pwrGood | modResetN | slot | presentN
deriving DecidableEq, Repr

/-- R523: what a pin shows, or what the module does with an input. -/
inductive PinMode where
  | hiZ | low | high | idle | training | active | noTermination | terminated | ignored | acts | mustRun | pulledLow | frames | tokens
  | heartbeat | notDecoded | decoded | answers | console | operates | whileShifting | pulledUp | sampled
deriving DecidableEq, Repr

/-- R523: SBA of a port: low until its FPORT page runs, then what the port's phase sends. -/
def sbaMode (s : State) (q : Fin 32) : PinMode :=
  if !portOn s q then .low
  else match rd s (.fport q) fpSbTxPhase with
    | 0 => .frames
    | 1 => .tokens
    | _ => .heartbeat

/-- R365, R523: a transmit lane is active while its port trains it or has it in use. -/
def ftxMode (s : State) (q : Fin 32) (lane : Fin 8) : PinMode :=
  if s.pins.jtag = .boundaryScan then .idle
  else if lstate s q = 2 ∧ bitOf (rd s (.fport q) fpCfgLanes) lane.val then .training
  else if bitOf (rd s (.fport q) fpLinkLanesUp) lane.val then .active
  else .idle

/-- R523: the column UNPOWERED. -/
def pinUnpowered (s : State) : PinId → PinMode
  | .cxlTx | .refclk | .clkreqN | .ftx _ _ | .tdo | .alertN => .hiZ
  | .cxlRx | .frx _ => .noTermination
  | .perstN | .tapIn | .pbrakeN | .modResetN => .ignored
  | .sba _ => .pulledLow
  | .sbb _ => .notDecoded
  | .i3c => if standby s then .answers else .hiZ
  | .uartTx => if standby s then .console else .hiZ
  | .uartRx => if standby s then .console else .ignored
  | .thermtripN => if s.power.therm then .low else .hiZ
  | .pwrEn => if 48000 ≤ s.power.vin then .acts else .ignored
  | .pwrGood => if standby s then .low else .hiZ
  | .slot => .pulledUp
  | .presentN => .low

/-- R523: what the columns RESET, IDENTITY and RUN share. -/
def pinPowered (s : State) : PinId → PinMode
  | .refclk => .mustRun
  | .clkreqN | .presentN => .low
  | .cxlTx | .ftx _ _ => .idle
  | .cxlRx | .frx _ => .noTermination
  | .perstN | .pbrakeN => .ignored
  | .sba _ => .pulledLow
  | .sbb _ => .decoded
  | .i3c => .answers
  | .uartTx | .uartRx => .console
  | .tapIn => .operates
  | .tdo => .whileShifting
  | .thermtripN => if s.power.therm then .low else .hiZ
  | .alertN => .hiZ
  | .pwrEn => .acts
  | .pwrGood => .high
  | .modResetN => .low
  | .slot => .sampled

/-- R523: the columns IDENTITY and RUN, where they differ from RESET; `run` tells them apart. -/
def pinStarted (s : State) (run : Bool) : PinId → PinMode
  | .cxlTx =>
    if s.pins.jtag = .boundaryScan ∨ !step2Done s then .idle
    else if run then .active
    else if s.hostPort.perstLow then .idle else .training
  | .cxlRx => if step2Done s then .terminated else .noTermination
  | .perstN => if step2Done s then .acts else .ignored
  | .ftx q lane => if run then ftxMode s q lane else .idle
  | .frx _ => .terminated
  | .sba q => sbaMode s q
  | .pbrakeN | .modResetN => .acts
  | .alertN => if s.mg.alert then .low else .hiZ
  | .slot => .ignored
  | p => pinPowered s p

/-- R523: the state of a pin. -/
def pinMode (s : State) (p : PinId) : PinMode :=
  match phase s with
  | .unpowered => pinUnpowered s p
  | .reset => pinPowered s p
  | .identity => pinStarted s false p
  | .run => pinStarted s true p

end Sys2Proof.Machine
end

