-- ==== Sys2Proof/Safety.lean ====
section
/-! DEFINITION. The terms in which claims about runs are stated: the invariant of the module's stored state, what a command may do to the
fuses, and the commands' outcomes. -/

namespace Sys2Proof.Machine

/-- The keys of a sparse map rise strictly. -/
abbrev Rising {α : Type} (m : SMap α) : Prop := List.Pairwise (fun a b => a.1 < b.1) m

/-- A sparse map in its canonical form: keys rise strictly and no entry holds the value an unlisted key reads as. -/
abbrev Canonical {α : Type} (d : α) (m : SMap α) : Prop := Rising m ∧ ∀ x ∈ m, x.2 ≠ d

/-- The memories and the unit tables of a state are in their canonical form, and the register store lists each field once: equal memories
are equal data. -/
abbrev MapsCanonical (s : State) : Prop :=
  Rising s.regs ∧ Canonical none s.log ∧ Canonical {} s.bays ∧ Canonical {} s.harts ∧ Canonical {} s.caches ∧ Canonical none s.sysc ∧
  Canonical 0 s.dram ∧ Canonical {} s.side ∧ Canonical {} s.chans ∧ Canonical {} s.stkTemp ∧ Canonical {} s.links ∧ Canonical {} s.ports ∧
  Canonical 0 s.routes ∧ Canonical 0 s.catalogue ∧ Canonical {} s.flows ∧ Canonical {} s.flowDies ∧ Canonical {} s.ces

/-- R506: the anti-rollback counters of a set of fuses: canonical, and at most 64 fuses blown each. -/
abbrev FusesOk (f : Fuses) : Prop := Canonical 0 f.svn ∧ ∀ x ∈ f.svn, x.2 ≤ 64

/-- The invariant that every command keeps. -/
abbrev StateInv (s : State) : Prop := MapsCanonical s ∧ FusesOk s.fuses

/-- Fuses blow and never heal: only the anti-rollback counters change, and they only rise. -/
def FusesGrow (a b : Fuses) : Prop :=
  b = { a with svn := b.svn } ∧ ∀ k, mget 0 a.svn k ≤ mget 0 b.svn k

/-- The commands that may blow fuses (R509). -/
def blowsFuses : Instr → Bool
  | .commit _ _ | .secCommit _ _ => true
  | _ => false

/-- Register fields but those at the keys `ks` read as before. -/
def FieldsBut (ks : List Nat) (s t : State) : Prop := ∀ p r, r.key p ∉ ks → rd t p r = rd s p r

/-- Nothing but register fields has changed. -/
def OnlyRegs (s t : State) : Prop := t = { s with regs := t.regs }

/-- Nothing has changed but register fields and what an event reaches: interrupts pending at harts, the MSI-X pending bits, and the event
lines held while the domain is down. -/
def OnlyEvents (s t : State) : Prop :=
  t = { s with regs := t.regs, harts := t.harts, hostPort := { s.hostPort with msixPend := t.hostPort.msixPend }, coh := { s.coh with heldLines := t.coh.heldLines } }

/-- Nothing has changed but register fields, what an event reaches, and the error log. -/
def OnlyErrors (s t : State) : Prop :=
  t = { s with
    regs := t.regs, harts := t.harts, hostPort := { s.hostPort with msixPend := t.hostPort.msixPend }
    coh := { s.coh with heldLines := t.coh.heldLines }, log := t.log }

/-- Of the bays only bay `b` has changed. -/
def OtherBays (b : BayId) (s t : State) : Prop := ∀ b', b' ≠ b → bayOf t b' = bayOf s b'

/-- A memory in its canonical form: addresses strictly rising, and no byte equal to what an unlisted address reads as. -/
def Memory.wf (m : SMap Byte) : Bool := mwf 0 m

/-- Issue queue `q` of bay `b` runs; it holds one decoded word, checked and without references to apply, whose only slot is slot `i` with value
`v` (without WAIT and SIG), which opens frame `o` if any; no word follows it, and its frame stack is `fr`. -/
def SoleSlot (s : State) (b : BayId) (q : QueueId) (i v : Nat) (o : Option Frame) (fr : List Frame) : Prop :=
  pgState s (.issue b) = 4 ∧ Rising (bayOf s b).queues ∧ v % 65536 = 0 ∧ (queueOf s b q).frames = fr ∧
  ∃ d, (queueOf s b q).decoded = [d] ∧ d.checked = true ∧ d.issued = [] ∧ d.taken = [] ∧ d.ends = false ∧ d.opens = o ∧
    d.slots = (List.range 6).map (fun k => if k = i then some v else none)

/-- The head word of queue `q` has retired: no decoded word is left, and QSEQ has counted it. -/
def Retired (s t : State) (b : BayId) (q : QueueId) : Prop :=
  (queueOf t b q).decoded = [] ∧ rd t (.issue b) (issQQseq q.val) = (rd s (.issue b) (issQQseq q.val) + 1) % 2 ^ 32

/-- Hardware group `g` of bay `b` can issue: its group is `gr` with the current path `p` (which has active threads) before the paths `rest`, in the
resident block `bl`; its maps are in canonical form. -/
def GroupOn (s : State) (b : BayId) (g : Fin 64) (gr : Group) (p : Path) (rest : List Path) (bl : Block) : Prop :=
  (groupReady s b g).map (fun x => (x.1, x.2.1, x.2.2.1)) = some (gr, p, rest) ∧ blockOf s b gr.block.val = some bl ∧ gr.threads.length = 32 ∧
  (∀ t ∈ gr.threads, Rising t.x) ∧ lanesOf p.mask ≠ [] ∧ Rising (tguOf s b).groups ∧ Rising (tguOf s b).blocks

/-- Group `g` has gone on: it is `gr'`, of the same block and number, with its current path at the next instruction, held by `h`. -/
def GroupWent (t : State) (b : BayId) (g : Fin 64) (gr gr' : Group) (p : Path) (rest : List Path) (h : Hold) : Prop :=
  groupOf t b g.val = some gr' ∧ gr'.block = gr.block ∧ gr'.num = gr.num ∧
  ∃ q, gr'.paths = q :: rest ∧ q.pc = p.pc + 4 ∧ q.hold = h ∧ lanesOf q.mask = lanesOf p.mask

/-- R288: agent `a` has answered a snoop `k` of a line by the table: its new state, and its answer with data and poison where the answer carries any; no
register and no byte of DRAM has changed. -/
def SnoopAnswered (s t : State) (a : AgentId) (line : Nat) (k : SnpKind) : Prop :=
  let g := agentOf s a line
  let x := snoopAct g.st k
  (agentOf t a line).st = x.2 ∧
  t.coh.msgs.getLast? = some (line, .ans x.1 a (if ansData x.1 then g.data else []) (ansData x.1 && g.poison)) ∧ t.dram = s.dram ∧ t.regs = s.regs

/-- The commands of the arrays, the vector engine, bay store and the translation unit of bay `b`. -/
def bayEngine (b : BayId) : Instr → Bool
  | .mma b' _ _ _ _ | .arithStart b' _ | .arithEnd b' _ _ _ | .drainEnd b' _ _ | .recomputeEnd b' _ _ _ | .selfTestDone b' _ _ _ | .checkEnWrite b' _ _
  | .pass b' _ _ _ | .passIssueStart b' _ | .spanEnd b' _ | .passComplete b' | .correctionWriteback b' _ | .xlateInval b' _ _ | .invalDone b' => b' == b
  | _ => false

/-- The commands that write settings: limits, ceilings, masks, enables, the log's tail, meters, CLR_ERR, WAKE, and RUN of a page but XLATE, whose
RUN empties its TLB. -/
def writesSettings : Instr → Bool
  | .run (.xlate _) => false
  | .capWrite _ | .tjLimitWrite _ | .ceilWrite _ _ | .logTailWrite _ | .meterWindow _ _ | .patrolEnWrite _ _ _ | .waymaskWrite _ _ _ | .wayPowerUp _ _
  | .wayOn _ _ | .run _ | .wake _ | .clrErr _ => true
  | _ => false

/-- The commands that reset the module, or reach a register through a control-space access, whose command may be any. -/
def resetsOrDispatches : Instr → Bool
  | .registerWrite _ _ _ _ | .moduleReset _ | .coreInstruction _ _ | .docentInstruction _ _ _ _ | .dcsAccess _ _ _ _ | .hqDcs _ | .vinChange _
  | .pwrEnDeassert | .pwrGoodRise | .thermtrip _ | .hubFail | .modResetAssert | .startStepDone _ | .startTimeout => true
  | _ => false

/-- The commands that may change a byte of the DRAM space, its side bits, or a line of the system cache. -/
def mayWriteDram : Instr → Bool
  | .reset _ | .registerWrite _ _ _ _ | .stoppingDone _ | .sleepCleanDone _ | .wakeDone _ | .moduleReset _ | .refclkLoss | .coreInstruction _ _
  | .cboClean _ _ | .cboFlush _ _ | .cboInval _ _ | .cboZero _ _ | .docentInstruction _ _ _ _ | .ringFetch _ _ _ | .tguIssue _ _
  | .threadInstruction _ _ _ _ | .tgId _ _ _ _ | .tgVoteAny _ _ _ _ | .tgVoteAll _ _ _ _ | .tgBallot _ _ _ _ | .tgShflIdx _ _ _ _ _
  | .tgShflUp _ _ _ _ _ | .tgShflDn _ _ _ _ _ | .tgShflXor _ _ _ _ _ | .tgBar _ _ _ | .tgBarArv _ _ _ | .tgYield _ _ | .tgExit _ _ | .tgFenceG _ _
  | .tgFenceB _ _ | .tgFenceD _ _ | .tgFenceS _ _ | .tgScope _ _ _ | .tgLock _ _ _ _ | .tgUnlock _ _ _ | .tgFsig _ _ _ | .tgFwait _ _ _ _
  | .tgFtest _ _ _ _ | .tgGth _ _ _ _ | .tgMtx _ _ _ _ | .movCopy _ _ _ _ _ | .movConvert _ _ _ _ _ | .movPut _ _ _ _ _ | .movGet _ _ | .movAtomic _ _
  | .movComplete _ _ | .gatherRowArrival _ _ _ _ _ _ | .cacheLookup _ _ _ _ _ | .wayOff _ _ | .rangeDone _ | .rds _ _ | .rdx _ _ | .upg _ _
  | .rdcur _ _ _ | .wrfull _ _ _ _ | .wrpart _ _ _ _ _ | .atomicRequest _ _ _ _ | .wb _ _ | .salvwr _ _ | .snoopAnswer _ _ | .cmpack _ _ | .gnts _ _
  | .gnte _ _ | .gntm _ _ | .gntupg _ _ | .wback _ _ | .memReadReturn _ _ | .restartComplete _ | .blockRead _ _ _ _ _ | .blockWrite _ _ _
  | .readModifyWrite _ _ _ _ _ _ | .reread _ _ | .patrolRead _ _ _ _ _ | .deaccession _ _ _ | .channelRetrainDone _ _ _ | .holdTimeout _
  | .neighbourLost _ | .sidebandToken _ _ _ | .catalogueWrite _ _ _ | .writePacket _ | .readPacket _ _ | .readRsp _ | .atomicPacket _ _
  | .atomicRsp _ | .msg _ | .ack _ | .nak _ | .retransmit _ | .ceEntryFetch _ _ | .allreduce _ _ | .reducescatter _ _ | .allgather _ _
  | .broadcast _ _ | .alltoall _ _ | .barrier _ _ | .arrivalToken _ | .chunk _ _ _ | .collectiveComplete _ _ | .ceWatchdogTick _ _ | .census _
  | .callDatagram _ | .verdict _ | .fenceJob _ | .censusWaitExpiry | .cmdCensus _ | .admitMembers _ _ | .leave _ | .accStart _ | .accLoaded _
  | .accReady _ | .accAck _ | .accAbort _ | .adoptAck _ | .orphan _ | .doneMsg _ | .accSignatureCheck | .perstAssert | .linkDown | .memrd _ _ _
  | .memwr _ _ _ _ | .memwrptl _ _ _ _ _ | .memclnevct _ | .birsp _ _ | .backInvalidateTimeout _ | .dcsAccess _ _ _ _ | .hqEntryFetch _ _
  | .hqWrite _ | .hqDcs _ | .hqEntryComplete _ | .vinChange _ | .pwrEnDeassert | .pwrGoodRise | .thermtrip _ | .hubFail | .modResetAssert
  | .startStepDone _ | .startTimeout | .dmaReadCompletion _ _
  | .dmaTimeout _ | .flowReset _ => true
  | _ => false

/-- The commands of the die links. -/
def trainsLinks : Instr → Bool
  | .flitReceive _ _ _ _ | .flitReplay _ _ | .linkTrain _ _ | .trainPhaseTimeout _ | .checkFlit _ _ _ | .wireTest _ _ _ | .wireSpare _ _ _
  | .linkNarrow _ _ _ => true
  | _ => false

/-- The command that writes the routing table. -/
def writesRoutes : Instr → Bool
  | .rtDataWrite _ _ => true
  | _ => false

/-- The command that writes the catalogue. -/
def writesCatalogue : Instr → Bool
  | .catalogueWrite _ _ _ => true
  | _ => false

/-- The commands of the reference clock, the reset pin and the TAP. -/
def movesPins : Instr → Bool
  | .refclkLoss | .refclkReturn | .modResetRelease _ | .jtagInstruction _ => true
  | _ => false

/-- The command that samples a stack's temperature. -/
def samplesStacks : Instr → Bool
  | .stackTempSample _ _ => true
  | _ => false

/-- R82: the conversions between plain formats that are exact: source and destination. -/
def exactPairs : List (Elem × Elem) :=
  [(.fp64, .fp64), (.fp32, .fp64), (.fp32, .fp32), (.fp16, .fp64), (.fp16, .fp32), (.fp16, .fp16), (.bf16, .fp64), (.bf16, .fp32), (.bf16, .bf16),
   (.int32, .fp64), (.int32, .int32), (.int16, .fp64), (.int16, .fp32), (.int16, .int32), (.int16, .int16), (.int8, .fp64), (.int8, .fp32),
   (.int8, .fp16), (.int8, .bf16), (.int8, .int32), (.int8, .int16), (.int8, .int8), (.e8m0, .fp64), (.e8m0, .fp32), (.e8m0, .bf16), (.e8m0, .e8m0)]

/-- Two values are the same: both NaN, the same infinity, or equal in sign and magnitude. -/
def SameVal : Val → Val → Prop
  | .nan, .nan => True
  | .inf a, .inf b => a = b
  | .fin s m e, .fin t n g => s = t ∧ leMag m e n g = true ∧ leMag n g m e = true
  | _, _ => False

/-- A run of the module reaches a state: each step answers the next. -/
inductive Reaches : State → State → Prop where
  | refl (s : State) : Reaches s s
  | step {s t u : State} : Reaches s t → step t = .next u → Reaches s u

end Sys2Proof.Machine
end

