-- ==== Sys2Proof/WellFormed.lean ====
section
/-! DEFINITION. The operands that a command can carry beyond what their types say: lengths of byte strings and lists, and numbers of ways,
wires and rows. A command's meaning is total; these are the commands that hardware can present. -/

namespace Sys2Proof

/-- R372: a packet carries at most 256 bytes. -/
def Packet.wf (k : Packet) : Bool := decide (k.data.length ≤ 256)

/-- R408: a datagram's payload is at most 248 bytes. -/
def Datagram.wf (d : Datagram) : Bool := decide (d.payload.length ≤ 248)

/-- R171: a MOV slot carries at most 256 bytes. -/
def MovOp.wf (o : MovOp) : Bool := decide (o.payload.length ≤ 256)

/-- R314: a whole block is 256 bytes. -/
def BlockWr.wf (w : BlockWr) : Bool := decide (w.data.length = 256)

/-- R235, R291: an atomic acts on 4 or 8 bytes, aligned, within its line. -/
def AtomicOp.wf (o : AtomicOp) : Bool := (o.size == 4 || o.size == 8) && decide (o.off % o.size = 0) && decide (o.off + o.size ≤ 64)

/-- R333: a flit carries at most 1,016 bytes. -/
def Flit.wf (f : Flit) : Bool := decide (f.payload.length ≤ 1016)

/-- R356: a fabric flit returns credits of four virtual channels, and its packet is one. -/
def FabricFlit.wf (f : FabricFlit) : Bool := decide (f.credit.length ≤ 4) && (match f.body with | .packet k => k.wf | .control b => decide (b.length ≤ 304) | .empty => true)

/-- R257: the ways of a cache. -/
def CacheId.ways : CacheId → Nat
  | .l3 _ => 24 | _ => 16

/-- R332: wires of one direction of a link, the spares among them, are numbered below 4,160. -/
def wireOk (w : Nat) : Bool := decide (w < 4160)

/-- The commands whose operands hardware can present. -/
def WellFormed (i : Instr) : Bool :=
  match i with
  | .registerWrite _ _ size _ => decide (1 ≤ size ∧ size ≤ 64)
  | .dcsAccess _ _ size _ => decide (1 ≤ size ∧ size ≤ 64)
  | .afPush _ _ size _ => size == 4 || size == 8
  | .catalogueWrite _ size _ => size == 4 || size == 8
  | .movDesc _ _ op _ _ _ => op.wf
  | .movInline _ _ op _ _ => op.wf
  | .gatherRowArrival _ _ row _ _ _ => decide (row < 2 ^ 24)
  | .wayPowerDown c w => decide (w.val < c.ways)
  | .wayPowerUp c w => decide (w.val < c.ways)
  | .wayOff c w => decide (w.val < c.ways)
  | .wayOn c w => decide (w.val < c.ways)
  | .atomicRequest _ _ _ op => op.wf
  | .blockWrite _ _ w => w.wf
  | .readModifyWrite _ _ _ d _ _ => decide (d.length = 256)
  | .stackTempSample _ t => decide (t.length = 8)
  | .flitReceive _ _ f _ => f.wf
  | .linkTrain _ r => r.badAB.all wireOk && r.badBA.all wireOk
  | .checkFlit _ _ bad => bad.all wireOk
  | .wireTest _ _ bad => bad.all wireOk
  | .wireSpare _ _ w => wireOk w
  | .identityFrame _ bytes => decide (bytes.length = 5)
  | .fabricFlit _ f _ _ _ => f.wf
  | .fecWindow _ c _ => decide (c.length = 8)
  | .routeLookup _ k | .writePacket k | .readPacket k _ | .readRsp k | .atomicPacket k _ | .atomicRsp k | .msg k | .ack k | .nak k
  | .arrivalToken k | .chunk k _ _ => k.wf
  | .census d | .callDatagram d | .answer d | .verdict d | .verdictAck d | .fenceJob d | .accReady d | .accAck d | .accAbort d | .adopt d
  | .adoptAck d | .orphan d | .reparent d | .storeMsg d | .doneMsg d => d.wf
  | .capPeriod _ cls => decide (cls.length = 72)
  | .rateWindow _ _ _ _ tj => decide (tj.length = 20)
  | .updateData _ _ bytes => decide (bytes.length ≤ 1024)
  | .configWrite _ _ bytes _ => decide (bytes.length ≤ 1024)
  | .dmaReadCompletion _ st => match st with | .data b _ => decide (b.length ≤ 4096) | _ => true
  | _ => true

end Sys2Proof
end

