-- ==== Sys2Proof/Certificates/Slice0/Obligations.lean ====
section
/-! DEFINITION. The statements for the provers: what each family of commands does, the rules of the spec that hold in every state, and the
invariants that every step keeps. -/

open Sys2Proof Sys2Proof.Machine

/-- The page commands: RUN with sound settings takes a STOPPED page to STARTING, and its completion to RUNNING; STOP takes STARTING to STOPPED
and RUNNING to STOPPING; RESET of a RUNNING page is held from STOPPING, of a STOPPED mover discards its operations and counts the epoch;
CLR_ERR clears PG_ERR; STOPPING ends in STOPPED once the block has drained. Sleep and wake: SLEEP takes a STOPPED page to OFF at once, but a
bay, a processor die or a core first cleans, with BUSY 1; a core goes OFF when its cleaning ends; WAKE sets BUSY, and at its end the page is
STOPPED with its epoch counted. -/
def Obligations.PageCommandsMoveThePageState : Prop :=
  (∀ (s : State) (p : Page), StateInv s → p.runctl = true → pgState s p = 2 → rd s p hdrBusy = 0 → dieHeld s (pageDie p) = false →
    runCheck s p = [] →
    ∃ t, exec (.run p) s = .next t ∧ pgState t p = 3 ∧ rd t p hdrBusy = 1 ∧ FieldsBut [hdrState.key p, hdrBusy.key p, hdrEvt.key p] s t ∧
      ((∀ b, p ≠ .xlate b) → OnlyRegs s t) ∧ (∀ b, p = .xlate b → (bayOf t b).tlb = [] ∧ OtherBays b s t)) ∧
  (∀ (s : State) (p : Page), StateInv s → p.runctl = true → pgState s p = 3 →
    ∃ t, exec (.startingDone p) s = .next t ∧ pgState t p = 4 ∧
      rd t p hdrBusy = b2n (match p with | .xlate b => (bayOf t b).inval.isSome | _ => false)) ∧
  (∀ (s : State) (p : Page), StateInv s → p.runctl = true → pgState s p = 3 → (∀ b a, p = .arr b a → rd s p arrCheckMode ≠ 2) →
    ∃ t, exec (.stop p) s = .next t ∧ pgState t p = 2 ∧
      rd t p hdrBusy = b2n (match p with | .xlate b => (bayOf t b).inval.isSome | _ => false) ∧
      ((match p with | .doc _ | .xlate _ | .fport _ | .host => false | _ => true) = true →
        OnlyEvents s t ∧ FieldsBut [hdrState.key p, hdrBusy.key p, hdrEvt.key p] s t)) ∧
  (∀ (s : State) (p : Page), StateInv s → p.runctl = true → pgState s p = 4 →
    ∃ t, exec (.stop p) s = .next t ∧ pgState t p = 5 ∧ rd t p hdrBusy = 1) ∧
  (∀ (s : State) (p : Page), StateInv s → p.runctl = true → pgState s p = 4 →
    ∃ t, exec (.reset p) s = .next t ∧ pgState t p = 5 ∧ p.slot ∈ t.heldReset) ∧
  (∀ (s : State) (b : BayId) (m : Fin 4), StateInv s → pgState s (.mov b m) = 2 → rd s (.mov b m) hdrBusy = 0 →
    ∃ t, exec (.reset (.mov b m)) s = .next t ∧ pgState t (.mov b m) = 2 ∧
      rd t (.mov b m) hdrEpoch = (rd s (.mov b m) hdrEpoch + 1) % 2 ^ 32 ∧ rd t (.mov b m) hdrErr = 0 ∧ rd t (.mov b m) hdrEvtEn = 0) ∧
  (∀ (s : State) (p : Page), StateInv s → pgState s p ≠ 0 →
    ∃ t, exec (.clrErr p) s = .next t ∧ rd t p hdrErr = 0 ∧ OnlyRegs s t ∧ FieldsBut [hdrErr.key p] s t) ∧
  (∀ (s : State) (b : BayId) (m : Fin 4), StateInv s → pgState s (.mov b m) = 5 → movList s b m = [] →
    ¬ (Page.mov b m).slot ∈ s.heldReset →
    ∃ t, exec (.stoppingDone (.mov b m)) s = .next t ∧ pgState t (.mov b m) = 2 ∧ rd t (.mov b m) hdrBusy = 0) ∧
  (∀ (s : State) (p : Page), StateInv s → p.sleepctl = true → pgState s p = 2 → rd s p hdrBusy = 0 → sleepOk s p = true →
    (∃ b, p = .bayCtl b) ∨ (∃ d, p = .pdCtl d) ∨ (∃ n, p = .core n) →
    ∃ t, exec (.sleep p) s = .next t ∧ pgState t p = 2 ∧ rd t p hdrBusy = 1 ∧ FieldsBut [hdrBusy.key p] s t) ∧
  (∀ (s : State) (b : BayId) (m : Fin 4), StateInv s → pgState s (.mov b m) = 2 → rd s (.mov b m) hdrBusy = 0 →
    ∃ t, exec (.sleep (.mov b m)) s = .next t ∧ pgState t (.mov b m) = 1 ∧ rd t (.mov b m) hdrBusy = 0) ∧
  (∀ (s : State) (n : CoreId), StateInv s → pgState s (.core n) = 2 → rd s (.core n) hdrBusy = 1 →
    ∃ t, exec (.sleepCleanDone (.core n)) s = .next t ∧ pgState t (.core n) = 1) ∧
  (∀ (s : State) (p : Page), StateInv s → p.sleepctl = true → pgState s p = 1 → unitSleeps s p = false →
    ∃ t, exec (.wake p) s = .next t ∧ pgState t p = 1 ∧ rd t p hdrBusy = 1 ∧ OnlyRegs s t ∧ FieldsBut [hdrBusy.key p] s t) ∧
  (∀ (s : State) (b : BayId) (m : Fin 4), StateInv s → pgState s (.mov b m) = 1 → rd s (.mov b m) hdrBusy = 1 →
    ∃ t, exec (.wakeDone (.mov b m)) s = .next t ∧ pgState t (.mov b m) = 2 ∧ rd t (.mov b m) hdrBusy = 0 ∧
      rd t (.mov b m) hdrEpoch = (rd s (.mov b m) hdrEpoch + 1) % 2 ^ 32)

/-- Accesses of the device control space: a read of PG_ID of a page that is there answers TYPE and INSTANCE and changes nothing; a write of
PG_EVTEN stores the bits of events that the page has and nothing else; an access of another width or alignment is refused and logged, and
the host takes a completer abort. -/
def Obligations.DcsAccessesReadAndWrite : Prop :=
  (∀ (s : State) (who : Requester) (p : Page), held s = false → dcsReaches s who (4096 * p.slot) = true →
    ∃ t, exec (.dcsAccess who (BitVec.ofNat 26 (4096 * p.slot)) 4 none) s = .next t ∧
      t = { dcsGood s who with resp := toLE 4 (p.type * 65536 + p.inst) }) ∧
  (∀ (s : State) (who : Requester) (p : Page) (v : BitVec 32), StateInv s → pgState s p ≠ 0 → dcsReaches s who (4096 * p.slot + 0x28) = true →
    ∃ t, exec (.registerWrite who (BitVec.ofNat 26 (4096 * p.slot + 0x28)) 4 (v.zeroExtend 64)) s = .next t ∧
      rd t p hdrEvtEn = v.toNat &&& p.evtMask ∧ OnlyRegs (dcsGood s who) t ∧ FieldsBut [hdrEvtEn.key p] s t) ∧
  (∀ (s : State) (who : Requester) (off : BitVec 26) (size : Nat) (v : BitVec 64), StateInv s → held s = false →
    dcsReaches s who off.toNat = true → dcsAligned off.toNat size = false → rd s .hub hubLogHead - rd s .hub hubLogTail < 256 →
    ∃ t, exec (.registerWrite who off size v) s = .next t ∧ exec (.dcsAccess who off size (some v)) s = .next t ∧
      (mget none t.log (rd s .hub hubLogHead % 256)).map (fun e => (e.code.toNat, e.info.toNat)) = some (0x102, requesterCode who) ∧
      FieldsBut ([hubLogHead.key .hub, hdrEvt.key .hub] ++ (match who with | .core n => [corePc.key (.core n)] | _ => [])) s t ∧
      (who = .host → t.hostPort.compAbort = true))

/-- The hub's log tail, meters and clock: a LOG_TAIL between the old tail and the head is stored, another sets CFG_RANGE and is ignored; a meter
window stores the mean step time; the reference clock's return sets REFCLK_OK; its loss while held only marks the pin. -/
def Obligations.HubRegistersFollowTheirEvents : Prop :=
  (∀ (s : State) (v : BitVec 32), StateInv s → rd s .hub hubLogTail ≤ v.toNat → v.toNat ≤ rd s .hub hubLogHead →
    ∃ t, exec (.logTailWrite v) s = .next t ∧ rd t .hub hubLogTail = v.toNat ∧ OnlyRegs s t ∧ FieldsBut [hubLogTail.key .hub] s t) ∧
  (∀ (s : State) (v : BitVec 32), StateInv s → pgState s .hub ≠ 0 → v.toNat < rd s .hub hubLogTail ∨ rd s .hub hubLogHead < v.toNat →
    ∃ t, exec (.logTailWrite v) s = .next t ∧ bitOf (rd t .hub hdrErr) 2 = true ∧ rd t .hub hubLogTail = rd s .hub hubLogTail) ∧
  (∀ (s : State) (i : Fin 75) (ps : BitVec 16), StateInv s →
    ∃ t, exec (.meterWindow i ps) s = .next t ∧ rd t .hub (hubMeter i.val) = ps.toNat ∧ OnlyRegs s t ∧
      (∀ b : BayId, b.val = i.val → rd t (.pace b) paceMeter = ps.toNat)) ∧
  (∀ s : State, StateInv s →
    ∃ t, exec .refclkReturn s = .next t ∧ t.pins.refclk = true ∧ rd t .hub hubClkstatRefclkOk = 1 ∧
      rd t .hub hubClkstatHoldover = rd s .hub hubClkstatHoldover ∧ FieldsBut [hubClkstatRefclkOk.key .hub] s t) ∧
  (∀ s : State, StateInv s → s.pins.refclk = true → held s = false → rd s .hub hubClkstatHoldover = 1 →
    ∃ t, exec .refclkLoss s = .next t ∧ t.pins.refclk = false ∧ rd t .hub hubClkstatRefclkOk = 0 ∧
      FieldsBut [hubClkstatRefclkOk.key .hub] s t) ∧
  (∀ s : State, s.pins.refclk = true → held s = false → rd s .hub hubClkstatHoldover = 0 →
    ∃ t, exec .refclkLoss s = .next t ∧ t.pins.refclk = false)

/-- The whole-module restarts: RST_CTL.MODULE_RESET with its key puts every register at its reset value but the ones R12 and R67 name, keeps the
ledger, the configuration and image copies, the fuses and the waiting commands; without its key it changes nothing. A module reset from the
pin does the same with cause 2; the release samples the straps. RST_CTL.DOMAIN_RESTART with its key begins salvage while the domain is down.
-/
def Obligations.ModuleResetKeepsWhatItMust : Prop :=
  (∀ (s : State), held s = false →
    ∃ t, exec (.moduleReset 0xD5A7) s = .next t ∧ rd t .hub hubRstCause = 3 ∧ rd t .hub hubBootCount = s.mg.bootCount % 2 ^ 32 ∧
      t.mg.ledger = s.mg.ledger ∧ t.mg.cfgA = s.mg.cfgA ∧ t.mg.cfgB = s.mg.cfgB ∧ t.mg.images = s.mg.images ∧ t.fuses = s.fuses ∧
      t.pending = s.pending ∧ t.dram = [] ∧ t.bays = [] ∧ t.log = [] ∧ t.mg.startStep = 1) ∧
  (∀ (s : State) (key : BitVec 16), key ≠ 0xD5A7 → exec (.moduleReset key) s = .next s) ∧
  (∀ (s : State), s.pins.modResetLow = false → s.power.pwrGood = true →
    ∃ t, exec .modResetAssert s = .next t ∧ rd t .hub hubRstCause = 2 ∧ held t = true ∧ t.mg.ledger = s.mg.ledger) ∧
  (∀ (s : State) (straps : BitVec 6), StateInv s → s.pins.modResetLow = true →
    ∃ t, exec (.modResetRelease straps) s = .next t ∧ t.pins.slot = straps ∧ t.pins.modResetLow = false ∧
      rd t (.router 0) rtrIdentSlot = straps.toNat ∧ rd t (.router 1) rtrIdentSlot = straps.toNat) ∧
  (∀ (s : State), StateInv s → domainUp s = false → s.coh.restarting = false → s.coh.downSeq = false → s.coh.salvTurn = none →
    rd s .coh cohStatusSalvaged ≠ 1 →
    ∃ t, exec (.domainRestart 0xD5A7) s = .next t ∧ t.coh.salvTurn = some 0 ∧ t.coh.restartHeld = true ∧ rd t .coh cohStatusSalvaging = 1)

/-- Flits on a die link: an intact new flit of a negotiated kind, the one that the transmitter chooses, is delivered and both flit numbers
advance; a flit with a CRC mismatch makes the receiver discard and ask for a replay, and is counted; the replay sends the buffer's flits
again, with the ACK and NAK of the moment, and ends the request. Die-link training: two Tyari 9 dies, and two sound records of MAJOR 2 that
offer every width, rate and protocol, with no failing wire and no width recorded for the link, bring the link up at full width; a record
with a bad CRC, or a phase that exceeds its bound, restarts training once, and the second time the link is lost. Wires of a die link: a
second mismatch within the window marks a wire; a wire test ends with its wires marked and counted; a marked wire is mapped to a spare and
named in LAST_WIRE; without a spare a ring link takes the domain down and a management link is lost; a forwarded clock that stops does the
same. -/
def Obligations.DieLinksTrainCarryAndRepair : Prop :=
  (∀ (s : State) (l : Fin 31) (dir : Bool) (f : Flit), StateInv s → linkUp s l = true →
    linkPaused s l = false → linkCarries s l f = true → flitChosen (rd s .hub hubTimer) (txOf s l dir) f = true →
    1 ≤ f.kind.toNat → f.kind.toNat ≤ 4 → f.seq = (linkDir s l dir).txSeq → f.seq = (linkDir s l dir).rxSeq →
    (linkDir s l dir).buffer.length < retryDepth s l dir →
    ∃ t, exec (.flitReceive l dir f true) s = .next t ∧ t.resp = f.payload ∧ (linkDir t l dir).rxSeq = f.seq + 1 ∧
      (linkDir t l dir).txSeq = f.seq + 1 ∧ f ∈ (linkDir t l dir).buffer ∧ (linkDir t l dir).discarding = false ∧
      t = { s with links := t.links, resp := t.resp, coh := { s.coh with tx := t.coh.tx } }) ∧
  (∀ (s : State) (l : Fin 31) (dir : Bool) (f : Flit), StateInv s → linkUp s l = true → linkCarries s l f = true → f.seq ≠ (linkDir s l dir).txSeq →
    ∃ t, exec (.flitReceive l dir f false) s = .next t ∧ (linkDir t l dir).discarding = true ∧ (linkDir t l dir).nak = true ∧
      (linkDir t l dir).rxSeq = (linkDir s l dir).rxSeq ∧
      rd t (.dlink l) dlCrcErr = min (rd s (.dlink l) dlCrcErr + 1) (2 ^ dlCrcErr.width - 1)) ∧
  (∀ (s : State) (l : Fin 31) (dir : Bool), StateInv s → linkUp s l = true → (linkDir s l dir).nak = true → linkPaused s l = false →
    ∃ t, exec (.flitReplay l dir) s = .next t ∧ t.resp = (linkDir s l dir).buffer.flatMap (fun f => flitBytes
        { f with ack := (linkDir s l (!dir)).rxSeq - 1, nak := (linkDir s l (!dir)).discarding }) ∧
      linkDir t l dir = { linkDir s l dir with nak := false } ∧ linkDir t l (!dir) = linkDir s l (!dir) ∧
      t = { s with links := t.links, resp := t.resp }) ∧
  (∀ (s : State) (l : Fin 31) (r : TrainResult), StateInv s → pgState s (.dlink l) = 2 → linkReleased s l = true → s.mg.snapshot = [] →
    r.capA = none → r.capB = none → r.badAB = [] → r.badBA = [] →
    ∃ t, exec (.linkTrain l r) s = .next t ∧ pgState t (.dlink l) = 4 ∧
      rd t (.dlink l) dlNegWidth = (if linkMgmt l.val then 1 else 4) ∧ rd t (.dlink l) dlNegMajor = 2 ∧ rd t (.dlink l) dlNegRate = 2 ∧
      rd t (.dlink l) dlNegProto = (if linkMgmt l.val then 8 else if linkRing l.val then 15 else 14) ∧
      rd t (.dlink l) dlTrains = (rd s (.dlink l) dlTrains + 1) % 2 ^ 32 ∧ linkOf t l = {}) ∧
  (∀ (s : State) (l : Fin 31) (r : TrainResult) (a b : BitVec 128), StateInv s → pgState s (.dlink l) = 2 → linkReleased s l = true →
    s.mg.snapshot = [] → r.capA = some a → r.capB = some b → capOk a.toNat = true → capOk b.toNat = true → capIdent l a.toNat b.toNat = true →
    a.toNat % 256 = 2 → b.toNat % 256 = 2 → bits a.toNat 55 52 = 3 → bits b.toNat 55 52 = 3 →
    bits a.toNat 51 48 = 15 → bits b.toNat 51 48 = 15 →
    bits a.toNat 59 56 = 15 → bits b.toNat 59 56 = 15 → r.badAB = [] → r.badBA = [] →
    ∃ t, exec (.linkTrain l r) s = .next t ∧ pgState t (.dlink l) = 4 ∧
      rd t (.dlink l) dlNegWidth = (if linkMgmt l.val then 1 else 4) ∧ rd t (.dlink l) dlNegMajor = 2 ∧ rd t (.dlink l) dlNegRate = 2 ∧
      rd t (.dlink l) dlTrains = (rd s (.dlink l) dlTrains + 1) % 2 ^ 32 ∧ linkOf t l = {}) ∧
  (∀ (s : State) (l : Fin 31) (r : TrainResult) (a : BitVec 128), StateInv s → pgState s (.dlink l) = 2 → linkReleased s l = true →
    r.capA = some a → capOk a.toNat = false →
    (linkOf s l).retried = false →
    ∃ t, exec (.linkTrain l r) s = .next t ∧ (linkOf t l).retried = true ∧ t = { s with links := t.links }) ∧
  (∀ (s : State) (l : Fin 31), StateInv s → pgState s (.dlink l) = 2 → linkReleased s l = true → (linkOf s l).retried = false →
    ∃ t, exec (.trainPhaseTimeout l) s = .next t ∧ (linkOf t l).retried = true ∧ t = { s with links := t.links }) ∧
  (∀ (s : State) (l : Fin 31), StateInv s → pgState s (.dlink l) = 2 → linkReleased s l = true → (linkOf s l).retried = true →
    ∃ t, exec (.trainPhaseTimeout l) s = .next t ∧ pgState t (.dlink l) = 6 ∧ rd t (.dlink l) dlNegWidth = 0 ∧
      bitOf (rd t (.dlink l) hdrErr) 18 = true) ∧
  (∀ (s : State) (l : Fin 31) (dir : Bool) (w x : Nat), StateInv s → linkUp s l = true → w < linkWires l + linkSpares l →
    Rising (linkDir s l dir).suspects → ¬ w ∈ (linkDir s l dir).excluded → mget [] (linkDir s l dir).suspects w = [x] →
    rd s .hub hubTimer < x + 100000 →
    ∃ t, exec (.checkFlit l dir [w]) s = .next t ∧ w ∈ (linkDir t l dir).faulty ∧ linkDir t l (!dir) = linkDir s l (!dir) ∧
      t = { s with links := t.links }) ∧
  (∀ (s : State) (l : Fin 31) (dir : Bool) (bad : List Nat), StateInv s → linkUp s l = true → (linkDir s l dir).testing = true →
    ∃ t, exec (.wireTest l dir bad) s = .next t ∧ (linkDir t l dir).testing = false ∧
      (∀ w ∈ bad, w < linkWires l + linkSpares l → ¬ w ∈ (linkDir s l dir).excluded → w ∈ (linkDir t l dir).faulty) ∧
      rd t (.dlink l) dlWireTests = min (rd s (.dlink l) dlWireTests + 1) (2 ^ 32 - 1)) ∧
  (∀ (s : State) (l : Fin 31) (dir : Bool) (w : Nat), StateInv s → linkUp s l = true → w ∈ (linkDir s l dir).faulty → w < 4160 →
    rd s (.dlink l) (dlSpareLeft (b2n dir)) ≠ 0 →
    ∃ t, exec (.wireSpare l dir w) s = .next t ∧ w ∈ (linkDir t l dir).excluded ∧ ¬ w ∈ (linkDir t l dir).faulty ∧
      rd t (.dlink l) dlLastWireWire = w ∧ rd t (.dlink l) dlLastWireDir = b2n dir ∧ rd t (.dlink l) dlLastWireValid = 1) ∧
  (∀ (s : State) (l : Fin 31) (dir ov : Bool), StateInv s → linkUp s l = true → (linkDir s l dir).faulty ≠ [] →
    rd s (.dlink l) (dlSpareLeft (b2n dir)) = 0 → linkRing l.val = true → domainUp s = true →
    ∃ t, exec (.linkNarrow l dir ov) s = .next t ∧ domainUp t = false ∧ rd t .hub hubDomainDownCause = 7) ∧
  (∀ (s : State) (l : Fin 31) (dir ov : Bool), StateInv s → linkUp s l = true → (linkDir s l dir).faulty ≠ [] →
    rd s (.dlink l) (dlSpareLeft (b2n dir)) = 0 → linkMgmt l.val = true →
    ∃ t, exec (.linkNarrow l dir ov) s = .next t ∧ pgState t (.dlink l) = 6 ∧ rd t (.dlink l) dlNegWidth = 0) ∧
  (∀ (s : State) (l : Fin 31), StateInv s → linkUp s l = true → linkMgmt l.val = true →
    ∃ t, exec (.forwardedClockLoss l) s = .next t ∧ pgState t (.dlink l) = 6 ∧ rd t (.dlink l) dlNegWidth = 0) ∧
  (∀ (s : State) (l : Fin 31), StateInv s → linkUp s l = true → linkMgmt l.val = false → domainUp s = true →
    ∃ t, exec (.forwardedClockLoss l) s = .next t ∧ domainUp t = false ∧ rd t .hub hubDomainDownCause = 6 ∧ rd t (.dlink l) dlNegWidth = 0)

/-- A whole block written to a channel in service that nothing waits for reads back with its bytes and its poison mark, whether the system cache
takes it or not; its carried checksum, if any, is the CRC-32C of its bytes. -/
def Obligations.BlockWriteThenReadReturnsTheBlock : Prop :=
  ∀ (s : State) (blk : BitVec 32) (cls cls' : Fin 32) (fill : Bool) (w : BlockWr) (p : Place), StateInv s → placeOf s blk.toNat = some p →
    (chanOf s p.st p.ch).reqs = [] → chanOpen s p = true → chanDead s p.st p.ch = false →
    (wayFind s (.sysc p.st) (syscSlot p) blk.toNat).isSome = true ∨ syscBlk s blk.toNat = none → w.data.length = 256 → w.crc = none ∨ w.crc = some (crc32c w.data) →
    ∃ t, exec (.blockWrite blk cls w) s = .next t ∧
      ∃ u, exec (.blockRead blk cls' fill false .ok) t = .next u ∧ u.resp = w.data ++ [BitVec.ofNat 8 (b2n w.poison)]

/-- The other operations of the memory channels: a partial write that nothing holds up merges its bytes into a block in DRAM; a re-read of an
intact block is counted and delivers it; refresh, in the turn of the banks, and idle close a bank's row; sixteen interface errors start a
retraining, and its end releases the channel; the conservator advances or is stopped; DEACC with its key takes the channel out of service. A
sample of eight readings of a stack: no sensor is ignored, and the stack is HOT above 105 °C, and until it falls to 102 °C or below. A bank
of bay store writes back what SECDED found: a line with a double-bit error becomes poisoned in store, a corrected word only loses its mark.
Data and every other bay stay. -/
def Obligations.MemoryAndStoreMaintenanceTakesEffect : Prop :=
  (∀ (s : State) (blk : BitVec 32) (cls : Fin 32) (mask : BitVec 256) (data : List Byte) (poison : Bool) (p : Place), StateInv s →
    placeOf s blk.toNat = some p → chanFree s p blk.toNat = true → chanOpen s p = true → regFree (chanOf s p.st p.ch).reqs cls.val p.q = true →
    chanDead s p.st p.ch = false → syscBlk s blk.toNat = none →
    crcGood (dramData s blk.toNat) (dramSide s blk.toNat) = true →
    ∃ t, exec (.readModifyWrite blk cls mask data poison .ok) s = .next t ∧
      dramData t blk.toNat = mergeBytes (dramData s blk.toNat) 0 mask.toNat (slice data 0 256) ∧
      majority (dramSide t blk.toNat).poison = (poison || majority (dramSide s blk.toNat).poison) ∧
      (∀ a, a / 256 ≠ blk.toNat → mget 0 t.dram a = mget 0 s.dram a) ∧
      t = { s with dram := t.dram, side := t.side, chans := t.chans }) ∧
  (∀ (s : State) (blk : BitVec 32) (p : Place), StateInv s → placeOf s blk.toNat = some p → memHeld s blk.toNat = false →
    chanDead s p.st p.ch = false → syscBlk s blk.toNat = none → crcGood (dramData s blk.toNat) (dramSide s blk.toNat) = true →
    ∃ t, exec (.reread blk .ok) s = .next t ∧
      rd t (.mchan p.st p.ch) mchRrCount = min (rd s (.mchan p.st p.ch) mchRrCount + 1) (2 ^ mchRrCount.width - 1) ∧
      t.resp = dramData s blk.toNat ++ [BitVec.ofNat 8 (b2n (majority (dramSide s blk.toNat).poison))] ∧
      t = { s with regs := t.regs, chans := t.chans, resp := t.resp }) ∧
  (∀ (s : State) (st : Fin 16) (ch bank : Fin 32), StateInv s → Rising (chanOf s st ch).openRow → bank.val = (chanOf s st ch).refreshTurn →
    ∃ t, exec (.bankRefresh st ch bank) s = .next t ∧ mget none (chanOf t st ch).openRow bank.val = none ∧
      (chanOf t st ch).refreshTurn = (bank.val + 1) % 32 ∧ t = { s with chans := t.chans }) ∧
  (∀ (s : State) (st : Fin 16) (ch bank : Fin 32), StateInv s → Rising (chanOf s st ch).openRow →
    ∃ t, exec (.rowIdleClose st ch bank) s = .next t ∧ mget none (chanOf t st ch).openRow bank.val = none ∧
      (chanOf t st ch).refreshTurn = (chanOf s st ch).refreshTurn ∧ t = { s with chans := t.chans }) ∧
  (∀ (s : State) (st : Fin 16) (ch : Fin 32), StateInv s → rd s (.mchan st ch) mchLocInService = 1 → chanDead s st ch = false →
    (chanOf s st ch).retraining = false →
    ∃ t, exec (.channelRetrain st ch 16) s = .next t ∧ (chanOf t st ch).retraining = true ∧ t = { s with chans := t.chans }) ∧
  (∀ (s : State) (st : Fin 16) (ch : Fin 32), StateInv s → pgState s (.mchan st ch) ≠ 0 → (chanOf s st ch).retraining = true → (chanOf s st ch).reqs = [] →
    ∃ t, exec (.channelRetrainDone st ch true) s = .next t ∧ (chanOf t st ch).retraining = false ∧
      bitOf (rd t (.mchan st ch) hdrErr) 17 = true) ∧
  (∀ (s : State) (st : Fin 16) (ch : Fin 32) (en : Bool), StateInv s → pgState s (.mchan st ch) ≠ 0 →
    ∃ t, exec (.patrolEnWrite st ch en) s = .next t ∧ rd t (.mchan st ch) mchCfgPatrolEn = b2n en ∧ OnlyRegs s t ∧
      FieldsBut [mchCfgPatrolEn.key (.mchan st ch)] s t) ∧
  (∀ (s : State) (st : Fin 16) (ch : Fin 32), StateInv s → rd s (.mchan st ch) mchLocInService = 1 → chanDead s st ch = false →
    rd s (.mchan st ch) mchCfgPatrolEn = 1 → rd s (.mchan st ch) mchPatrol + 1 < chanBlocks →
    memHeld s (blockAt s st ch (rd s (.mchan st ch) mchPatrol)) = false →
    (∃ b, syscBlk s (blockAt s st ch (rd s (.mchan st ch) mchPatrol)) = some b ∧ b.dirty = true) →
    ∃ t, exec (.patrolRead st ch .ok false false) s = .next t ∧
      rd t (.mchan st ch) mchPatrol = rd s (.mchan st ch) mchPatrol + 1 ∧ OnlyRegs s t) ∧
  (∀ (s : State) (st : Fin 16) (ch : Fin 32), StateInv s → rd s (.mchan st ch) mchLocInService = 1 → chanDead s st ch = false →
    ∃ t, exec (.deaccession st ch 0xD5A7) s = .next t ∧ rd t (.mchan st ch) mchStatusDeaccessioned = 1 ∧
      rd t (.mchan st ch) mchStatusCause = 3 ∧
      (s.mg.lost = false → (ledgerSlot s.mg.ledger 5 (32 * st.val + ch.val)).isSome = true → rd t (.mchan st ch) mchStatusLedgered = 1)) ∧
  (∀ (s : State) (st : Fin 16) (ch : Fin 32) (key : BitVec 16), key ≠ 0xD5A7 → exec (.deaccession st ch key) s = .next s) ∧
  (∀ (s : State) (st : Fin 16) (v : List (BitVec 16)), StateInv s → v.length = 8 →
    ∃ t, exec (.stackTempSample st (v.map some)) s = .next t ∧ (mget {} t.stkTemp st.val).ignored = [] ∧ (mget {} t.stkTemp st.val).failed = [] ∧
      (mget {} t.stkTemp st.val).hot = (decide (maxInt (v.map (fun x => toInt 16 x.toNat)) > 105 * 16) ||
        ((mget {} s.stkTemp st.val).hot && decide (maxInt (v.map (fun x => toInt 16 x.toNat)) > 102 * 16)))) ∧
  (∀ (s : State) (b : BayId) (line : Fin 2097152), StateInv s → Rising (storeOf s b).ue → Rising (storeOf s b).poison → Rising (storeOf s b).ce →
    ∃ t, exec (.correctionWriteback b line) s = .next t ∧
      (mget false (storeOf s b).ue line.val = true → mget false (storeOf t b).poison line.val = true ∧ mget false (storeOf t b).ue line.val = false) ∧
      (mget false (storeOf s b).ue line.val = false → mget false (storeOf t b).ce line.val = false ∧ (storeOf t b).poison = (storeOf s b).poison) ∧
      (storeOf t b).bytes = (storeOf s b).bytes ∧ (∀ l, linePoison (storeOf t b) l = linePoison (storeOf s b) l) ∧
      OtherBays b s t ∧ t = { s with bays := t.bays })

/-- The ways of a cache: powering down clears ON and starts the cleaning of a powered way; powering up sets ON of a way that is not disabled;
the way serves again once WAYSTAT is set; a class's mask is stored within the ways there are. Lookups and range operations: a read of a line
the cache may read touches its way and keeps every line; a system-cache miss takes a miss register; a range command takes the range
registers of its write and starts at once while none runs; a range operation on an empty cache with no write-back under way ends, is
counted, and the held one starts. -/
def Obligations.CachesLookUpAndPowerTheirWays : Prop :=
  (∀ (s : State) (c : CacheId) (w : Fin 24), StateInv s → w.val < c.page.ways → bitOf (rd s c.page cacheWaypwr) w.val = true →
    bitOf (rd s c.page cacheWaystat) w.val = true →
    ∃ t, exec (.wayPowerDown c w) s = .next t ∧ bitOf (rd t c.page cacheWaypwr) w.val = false ∧ w.val ∈ (cacheOf t c).cleaning ∧
      rd t c.page cacheBgStatWayBusy = 1 ∧ (cacheOf t c).lines = (cacheOf s c).lines) ∧
  (∀ (s : State) (c : CacheId) (w : Fin 24), StateInv s → w.val < c.page.ways → bitOf (rd s c.page cacheWaypwr) w.val = false →
    bitOf (rd s c.page cacheWaydis) w.val = false →
    ∃ t, exec (.wayPowerUp c w) s = .next t ∧ bitOf (rd t c.page cacheWaypwr) w.val = true ∧ OnlyRegs s t ∧
      FieldsBut [cacheWaypwr.key c.page] s t) ∧
  (∀ (s : State) (c : CacheId) (w : Fin 24), StateInv s → pgState s c.page = 4 → w.val ∈ (cacheOf s c).cleaning → (cacheOf s c).lines = [] →
    (cacheOf s c).disabling = [] →
    ∃ t, exec (.wayOff c w) s = .next t ∧ bitOf (rd t c.page cacheWaystat) w.val = false ∧ ¬ w.val ∈ (cacheOf t c).cleaning ∧
      bitOf (rd t c.page hdrEvt) 17 = true) ∧
  (∀ (s : State) (c : CacheId) (w : Fin 24), StateInv s → w.val < c.page.ways → bitOf (rd s c.page cacheWaypwr) w.val = true →
    bitOf (rd s c.page cacheWaystat) w.val = false → ¬ w.val ∈ (cacheOf s c).cleaning →
    ∃ t, exec (.wayOn c w) s = .next t ∧ bitOf (rd t c.page cacheWaystat) w.val = true ∧ OnlyRegs s t ∧
      FieldsBut [cacheWaystat.key c.page] s t) ∧
  (∀ (s : State) (c : CacheId) (cls : Fin 32) (mask : BitVec 24), StateInv s → c.page.reaches cls.val = true →
    ∃ t, exec (.waymaskWrite c cls mask) s = .next t ∧ rd t c.page (cacheWaymask cls.val) = mask.toNat % 2 ^ c.page.ways ∧ OnlyRegs s t ∧
      FieldsBut [(cacheWaymask cls.val).key c.page] s t) ∧
  (∀ (s : State) (c : CacheId) (cls : Fin 32) (line : BitVec 34) (k l w : Nat), StateInv s → pgState s c.page = 4 →
    lookupKey s c line.toNat = some (k, l) → wayFind s c k l = some w → Rising (cacheOf s c).plru →
    (cacheOf s c).miss = [] → (cacheOf s c).inputs = [] →
    (∀ a, cacheAgent c = some a → (agentOf s a line.toNat).st ∈ [LineState.S, .E, .O, .M, .SM, .OM]) →
    ∃ t, exec (.cacheLookup c cls line false .none) s = .next t ∧ (cacheOf t c).lines = (cacheOf s c).lines ∧
      mget 0 (cacheOf t c).plru k = plruTouch w (mget 0 (cacheOf s c).plru k) ∧ t = { s with caches := t.caches }) ∧
  (∀ (s : State) (st : Fin 16) (cls : Fin 32) (line : BitVec 34) (k l : Nat), StateInv s → pgState s (.sysc st) = 4 →
    lookupKey s (.sysc st) line.toNat = some (k, l) → wayFind s (.sysc st) k l = none → (cacheOf s (.sysc st)).miss = [] →
    (cacheOf s (.sysc st)).inputs = [] →
    ∃ t, exec (.cacheLookup (.sysc st) cls line false .none) s = .next t ∧ (cacheOf t (.sysc st)).miss = [{ line := l, cls := cls, write := false }] ∧
      t = { s with caches := t.caches }) ∧
  (∀ (s : State) (c : CacheId), StateInv s → (cacheOf s c).range = none →
    (∃ t, exec (.rangeClean c) s = .next t ∧ rd t c.page cacheBgStatRangeBusy = 1 ∧ (cacheOf t c).range = some ⟨1,
      BitVec.ofNat 64 (64 * rd s c.page cacheRangeBase), BitVec.ofNat 64 (64 * rd s c.page cacheRangeSize)⟩) ∧
    (∃ t, exec (.rangeInvalidate c) s = .next t ∧ rd t c.page cacheBgStatRangeBusy = 1 ∧ (cacheOf t c).range = some ⟨2,
      BitVec.ofNat 64 (64 * rd s c.page cacheRangeBase), BitVec.ofNat 64 (64 * rd s c.page cacheRangeSize)⟩) ∧
    (∃ t, exec (.rangeCleanInv c) s = .next t ∧ rd t c.page cacheBgStatRangeBusy = 1 ∧ (cacheOf t c).range = some ⟨3,
      BitVec.ofNat 64 (64 * rd s c.page cacheRangeBase), BitVec.ofNat 64 (64 * rd s c.page cacheRangeSize)⟩)) ∧
  (∀ (s : State) (c : CacheId) (r : RangeCmd), StateInv s → pgState s c.page = 4 → (cacheOf s c).range = some r → (cacheOf s c).lines = [] →
    (∀ a, cacheAgent c = some a → ∀ x ∈ s.coh.agents, x.1 / 2 ^ 34 = a.val → x.2.st ≠ .MI ∧ x.2.st ≠ .OI ∧ x.2.st ≠ .II) →
    ∃ t, exec (.rangeDone c) s = .next t ∧ (cacheOf t c).range = (cacheOf s c).held ∧ bitOf (rd t c.page hdrEvt) 16 = true ∧
      rd t c.page cacheRangeDone = (rd s c.page cacheRangeDone + 1) % 2 ^ cacheRangeDone.width)

/-- The local events of a caching agent: a load or a store of a line it does not hold sends RdS or RdX to the line's home, takes a credit and
waits; a store to an exclusive line modifies it without a message; a clean line is evicted without a message, and a modified one goes back
to memory with its data and the class of the allocation. An agent takes its grant: the line moves to the state the table gives, holds the
granted data, CmpAck goes back and the credit returns; a requester that keeps no copy gets its reply. -/
def Obligations.AgentsRequestAndTakeReplies : Prop :=
  (∀ (s : State) (a : AgentId) (line : BitVec 34) (h : Nat), domainUp s = true → (agentOf s a line.toNat).st = .I →
    homeIx s line.toNat = some h → 1 ≤ credits s (agentDie a) h → credits s (agentDie a) h ≤ 64 →
    ∃ t, exec (.load a line) s = .next t ∧ (agentOf t a line.toNat).st = .IS ∧
      t.coh.msgs = s.coh.msgs ++ [(line.toNat, .req { who := .agent a, kind := .rds, cls := agentCls s a line.toNat })] ∧
      credits t (agentDie a) h + 1 = credits s (agentDie a) h ∧ t = { s with coh := t.coh }) ∧
  (∀ (s : State) (a : AgentId) (line : BitVec 34) (h : Nat), domainUp s = true → (agentOf s a line.toNat).st = .I →
    homeIx s line.toNat = some h → 1 ≤ credits s (agentDie a) h → credits s (agentDie a) h ≤ 64 →
    ∃ t, exec (.storeEvent a line) s = .next t ∧ (agentOf t a line.toNat).st = .IM ∧
      t.coh.msgs = s.coh.msgs ++ [(line.toNat, .req { who := .agent a, kind := .rdx, cls := agentCls s a line.toNat })] ∧
      credits t (agentDie a) h + 1 = credits s (agentDie a) h ∧ t = { s with coh := t.coh, resv := t.resv }) ∧
  (∀ (s : State) (a : AgentId) (line : BitVec 34), domainUp s = true → a ≠ 16 → (agentOf s a line.toNat).st = .E →
    ∃ t, exec (.storeEvent a line) s = .next t ∧ (agentOf t a line.toNat).st = .M ∧ t.coh.msgs = s.coh.msgs ∧
      (agentOf t a line.toNat).data = (agentOf s a line.toNat).data) ∧
  (∀ (s : State) (a : AgentId) (cls : Fin 32) (line : BitVec 34), Rising s.coh.agents → domainUp s = true → a ≠ 16 →
    (agentOf s a line.toNat).st = .E →
    ∃ t, exec (.evict a cls line) s = .next t ∧ (agentOf t a line.toNat).st = .I ∧ t.coh.msgs = s.coh.msgs ∧ t.dram = s.dram) ∧
  (∀ (s : State) (a : AgentId) (cls : Fin 32) (line : BitVec 34) (h : Nat), domainUp s = true → a ≠ 16 → (agentOf s a line.toNat).st = .M →
    homeIx s line.toNat = some h → 1 ≤ credits s (agentDie a) h →
    ∃ t, exec (.evict a cls line) s = .next t ∧ (agentOf t a line.toNat).st = .MI ∧
      t.coh.msgs = s.coh.msgs ++ [(line.toNat, .req
        { who := .agent a, kind := .wb, cls := cls, data := (agentOf s a line.toNat).data, poison := (agentOf s a line.toNat).poison })]) ∧
  (∀ (s : State) (a : AgentId) (line : BitVec 34) (d : List Byte) (p : Bool), domainUp s = true → a ≠ 16 →
    (∀ c ∈ agentCaches a, (cacheOf s c).miss = []) → (agentOf s a line.toNat).waitLoad = false → (agentOf s a line.toNat).waitStore = false →
    ((agentOf s a line.toNat).st = .IS → findMsg s line.toNat (fun m => match m with
        | .rep k' (.agent b) _ _ => k' == RepKind.gnts && b == a | _ => false) = some (.rep .gnts (.agent a) d p) →
      ∃ t, exec (.gnts a line) s = .next t ∧ (agentOf t a line.toNat).st = .S ∧ (agentOf t a line.toNat).data = d ∧
        (agentOf t a line.toNat).poison = p ∧ t.coh.msgs.getLast? = some (line.toNat, .cmpack a)) ∧
    ((agentOf s a line.toNat).st = .IS → findMsg s line.toNat (fun m => match m with
        | .rep k' (.agent b) _ _ => k' == RepKind.gnte && b == a | _ => false) = some (.rep .gnte (.agent a) d p) →
      ∃ t, exec (.gnte a line) s = .next t ∧ (agentOf t a line.toNat).st = .E ∧ (agentOf t a line.toNat).data = d ∧
        t.coh.msgs.getLast? = some (line.toNat, .cmpack a)) ∧
    ((agentOf s a line.toNat).st = .IM → findMsg s line.toNat (fun m => match m with
        | .rep k' (.agent b) _ _ => k' == RepKind.gntm && b == a | _ => false) = some (.rep .gntm (.agent a) d p) →
      ∃ t, exec (.gntm a line) s = .next t ∧ (agentOf t a line.toNat).st = .M ∧ (agentOf t a line.toNat).data = d ∧
        t.coh.msgs.getLast? = some (line.toNat, .cmpack a)) ∧
    ((agentOf s a line.toNat).st = .SM → findMsg s line.toNat (fun m => match m with
        | .rep k' (.agent b) _ _ => k' == RepKind.gntupg && b == a | _ => false) = some (.rep .gntupg (.agent a) d p) →
      ∃ t, exec (.gntupg a line) s = .next t ∧ (agentOf t a line.toNat).st = .M ∧
        (agentOf t a line.toNat).data = (agentOf s a line.toNat).data ∧ t.coh.msgs.getLast? = some (line.toNat, .cmpack a))) ∧
  (∀ (s : State) (a : AgentId) (line : BitVec 34), Rising s.coh.agents → domainUp s = true → a ≠ 16 →
    (agentOf s a line.toNat).waitLoad = false → (agentOf s a line.toNat).waitStore = false → (agentOf s a line.toNat).st = .MI →
    findMsg s line.toNat (fun m => match m with
        | .rep k' (.agent b) _ _ => k' == RepKind.wback && b == a | _ => false) = some (.rep .wback (.agent a) [] false) →
    ∃ t, exec (.wback a line) s = .next t ∧ agentOf t a line.toNat = {} ∧ t.coh.msgs.getLast? = some (line.toNat, .cmpack a)) ∧
  (∀ (s : State) (d : DieId) (line : BitVec 34) (v : List Byte) (p : Bool), domainUp s = true →
    (findMsg s line.toNat (fun m => match m with
        | .rep k' (.die e) _ _ => k' == RepKind.cmp && e == d | _ => false) = some (.rep .cmp (.die d) v p) →
      ∃ t, exec (.cmp d line) s = .next t ∧ t.resp = v ++ [BitVec.ofNat 8 (b2n p)] ∧ t = { s with coh := t.coh, resp := t.resp }) ∧
    (findMsg s line.toNat (fun m => match m with
        | .rep k' (.die e) _ _ => k' == RepKind.datacur && e == d | _ => false) = some (.rep .datacur (.die d) v p) →
      ∃ t, exec (.datacur d line) s = .next t ∧ t.resp = v ++ [BitVec.ofNat 8 (b2n p)] ∧ t = { s with coh := t.coh, resp := t.resp }))

/-- A request that reaches a free home is served at once: every caching agent but the requester is snooped, and the home waits for their
answers; a write-back whose data a snoop has already taken is acknowledged without a write. The home collects answers and acknowledgements:
an answer without data, not the last one, is crossed off; CmpAck of the requester frees a line that nothing waits for; a memory read that
returns while answers are outstanding is kept. -/
def Obligations.HomesBeginAndCollect : Prop :=
  (∀ (s : State) (a : AgentId) (line : BitVec 34) (r : Req), domainUp s = true → r.who = .agent a → (homeOf s line.toNat).st = .free →
    findMsg s line.toNat (fun m => match m with | .req r => r.who == .agent a && r.kind == .rds | _ => false) = some (.req r) →
    ∃ t, exec (.rds a line) s = .next t ∧ (homeOf t line.toNat).st = .snoop ∧ (homeOf t line.toNat).cur = some r ∧
      (homeOf t line.toNat).waiting = snooped (.agent a) ∧ t = { s with coh := t.coh }) ∧
  (∀ (s : State) (a : AgentId) (line : BitVec 34) (r : Req), domainUp s = true → r.who = .agent a → (homeOf s line.toNat).st = .free →
    findMsg s line.toNat (fun m => match m with | .req r => r.who == .agent a && r.kind == .rdx | _ => false) = some (.req r) →
    ∃ t, exec (.rdx a line) s = .next t ∧ (homeOf t line.toNat).st = .snoop ∧ (homeOf t line.toNat).cur = some r ∧
      (homeOf t line.toNat).waiting = snooped (.agent a) ∧ t = { s with coh := t.coh }) ∧
  (∀ (s : State) (a : AgentId) (line : BitVec 34) (r : Req), domainUp s = true → r.who = .agent a → r.kind = .upg →
    (homeOf s line.toNat).st = .free →
    findMsg s line.toNat (fun m => match m with | .req r => r.who == .agent a && r.kind == .upg | _ => false) = some (.req r) →
    ∃ t, exec (.upg a line) s = .next t ∧ (homeOf t line.toNat).st = .snoop ∧ (homeOf t line.toNat).cur = some r ∧
      (homeOf t line.toNat).asRdx = s.coh.upxNotes.contains (a.val, line.toNat) ∧ t = { s with coh := t.coh }) ∧
  (∀ (s : State) (a : AgentId) (line : BitVec 34) (r : Req), domainUp s = true → r.who = .agent a → r.kind = .wb →
    (homeOf s line.toNat).st = .free → (a.val, line.toNat) ∈ s.coh.wbxNotes →
    findMsg s line.toNat (fun m => match m with | .req r => r.who == .agent a && r.kind == .wb | _ => false) = some (.req r) →
    ∃ t, exec (.wb a line) s = .next t ∧ (homeOf t line.toNat).st = .ack ∧
      (line.toNat, .rep .wback (.agent a) [] false) ∈ t.coh.msgs ∧ t = { s with coh := t.coh }) ∧
  (∀ (s : State) (d : DieId) (cls : Fin 32) (line : BitVec 34) (h : Nat), domainUp s = true → d.val ≠ 19 → homeIx s line.toNat = some h →
    1 ≤ credits s d.val h → (homeOf s line.toNat).st = .free →
    (∃ t, exec (.rdcur d cls line) s = .next t ∧ (homeOf t line.toNat).st = .snoop ∧ (homeOf t line.toNat).waiting = List.finRange 17 ∧
      (homeOf t line.toNat).cur = some { who := .die d, kind := .rdcur, cls := dieCls d cls } ∧ t = { s with coh := t.coh }) ∧
    (∀ data, ∃ t, exec (.wrfull d cls line data) s = .next t ∧ (homeOf t line.toNat).st = .snoop ∧
      (homeOf t line.toNat).cur = some { who := .die d, kind := .wrfull, cls := dieCls d cls, data := toLE 64 data.toNat } ∧ t = { s with coh := t.coh }) ∧
    (∀ mask data, ∃ t, exec (.wrpart d cls line mask data) s = .next t ∧ (homeOf t line.toNat).st = .snoop ∧
      (homeOf t line.toNat).cur = some { who := .die d, kind := .wrpart, cls := dieCls d cls, data := toLE 64 data.toNat, mask := mask } ∧ t = { s with coh := t.coh }) ∧
    (∀ op, ∃ t, exec (.atomicRequest d cls line op) s = .next t ∧ (homeOf t line.toNat).st = .snoop ∧
      (homeOf t line.toNat).cur = some { who := .die d, kind := .atomic, cls := dieCls d cls, atomic := some op } ∧ t = { s with coh := t.coh })) ∧
  (∀ (s : State) (a b : AgentId) (line : BitVec 34) (r : Req) (l : List AgentId), domainUp s = true → a ≠ b →
    findMsg s line.toNat (fun m => match m with | .ans _ b _ _ => b == a | _ => false) = some (.ans .rspI a [] false) →
    (homeOf s line.toNat).st = .snoop → (homeOf s line.toNat).cur = some r → (reqSnoop r.kind).isSome → (homeOf s line.toNat).waiting = a :: b :: l →
    ∃ t, exec (.snoopAnswer a line) s = .next t ∧ (homeOf t line.toNat).st = .snoop ∧ (homeOf t line.toNat).waiting = b :: l ∧
      (homeOf t line.toNat).data = (homeOf s line.toNat).data ∧ t = { s with coh := t.coh }) ∧
  (∀ (s : State) (a : AgentId) (line : BitVec 34) (r : Req), Rising s.coh.homes → domainUp s = true →
    findMsg s line.toNat (· == .cmpack a) = some (.cmpack a) →
    (homeOf s line.toNat).st = .ack → (homeOf s line.toNat).cur = some r → r.who = .agent a → (homeOf s line.toNat).queue = [] →
    ∃ t, exec (.cmpack a line) s = .next t ∧ homeOf t line.toNat = {} ∧ t = { s with coh := t.coh }) ∧
  (∀ (s : State) (line : BitVec 34) (chk : Check) (r : Req), domainUp s = true → (homeOf s line.toNat).st = .snoop →
    (homeOf s line.toNat).cur = some r → needsData r.kind (homeOf s line.toNat).asRdx = true → (homeOf s line.toNat).mem = none →
    (syscBlk s (line.toNat / 4)).isSome = true ∨ memHeld s (line.toNat / 4) = false →
    ∃ t, exec (.memReadReturn line chk) s = .next t ∧ (homeOf t line.toNat).mem.isSome = true ∧ (homeOf t line.toNat).st = .snoop)

/-- An agent that a snoop has reached answers from its table and moves to the table's next state; the I/O agent does so at once for a line that
the host need not give up. -/
def Obligations.SnoopedAgentsAnswerByTheTable : Prop :=
  ∀ (s : State) (a : AgentId) (line : BitVec 34), Rising s.coh.agents → domainUp s = true →
    (findMsg s line.toNat (· == .snp .snps a) ≠ none → a ≠ 16 ∨ biFor .snps (hostTrk s line.toNat) = 0 →
      ∃ t, exec (.snps a line) s = .next t ∧ SnoopAnswered s t a line.toNat .snps) ∧
    (findMsg s line.toNat (· == .snp .snpx a) ≠ none → a ≠ 16 ∨ biFor .snpx (hostTrk s line.toNat) = 0 →
      ∃ t, exec (.snpx a line) s = .next t ∧ SnoopAnswered s t a line.toNat .snpx) ∧
    (findMsg s line.toNat (· == .snp .snpcur a) ≠ none → a ≠ 16 ∨ biFor .snpcur (hostTrk s line.toNat) = 0 →
      ∃ t, exec (.snpcur a line) s = .next t ∧ SnoopAnswered s t a line.toNat .snpcur) ∧
    (findMsg s line.toNat (· == .snp .snpinv a) ≠ none → a ≠ 16 ∨ biFor .snpinv (hostTrk s line.toNat) = 0 →
      ∃ t, exec (.snpinv a line) s = .next t ∧ SnoopAnswered s t a line.toNat .snpinv)

/-- The coherent domain goes down: on a snoop, an acknowledgement or a grant that does not come, and on FORCE_DOWN with its key, HUB.DOMAIN.UP
clears and DOWN_CAUSE names the cause; FORCE_DOWN during a restart ends it so. FORCE_DOWN without its key changes nothing. While the domain
is down: the end of its sequence raises COH's DOWN event; salvage starts, takes the agents in turn, marks one that does not answer, and ends
with SALVAGED; a salvage write stores a dirty line and keeps it clean; a dump reads a block as it is stored; a restart whose check tokens do
not come back goes down again with RING_LINK. A domain restart whose check tokens have come back, no line held by the host any more, brings
the coherent domain up and counts the restart. -/
def Obligations.DomainGoesDownAndRestarts : Prop :=
  (∀ (s : State) (a : AgentId) (line : BitVec 34), StateInv s → domainUp s = true → (homeOf s line.toNat).st = .snoop →
    a ∈ (homeOf s line.toNat).waiting →
    ∃ t, exec (.snoopTimeout a line) s = .next t ∧ domainUp t = false ∧ rd t .hub hubDomainDownCause = 1 ∧ t.coh.downSeq = true) ∧
  (∀ (s : State) (line : BitVec 34), StateInv s → domainUp s = true → (homeOf s line.toNat).st = .ack →
    ∃ t, exec (.ackTimeout line) s = .next t ∧ domainUp t = false ∧ rd t .hub hubDomainDownCause = 4 ∧ t.coh.downSeq = true) ∧
  (∀ (s : State) (d : DieId) (line : BitVec 34) (m : Nat), StateInv s → domainUp s = true → outstanding s d line.toNat = some m →
    ∃ t, exec (.grantTimeout d line) s = .next t ∧ domainUp t = false ∧ rd t .hub hubDomainDownCause = 5 ∧ t.coh.downSeq = true) ∧
  (∀ (s : State), StateInv s → domainUp s = true →
    ∃ t, exec (.forceDown 0xD5A7) s = .next t ∧ domainUp t = false ∧ rd t .hub hubDomainDownCause = 8 ∧ t.coh.downSeq = true) ∧
  (∀ (s : State), StateInv s → s.coh.restarting = true →
    ∃ t, exec (.forceDown 0xD5A7) s = .next t ∧ domainUp t = false ∧ t.coh.restarting = false ∧ rd t .hub hubDomainDownCause = 8) ∧
  (∀ (s : State) (key : BitVec 16), key ≠ 0xD5A7 → exec (.forceDown key) s = .next s) ∧
  (∀ (s : State), StateInv s → s.coh.downSeq = true → s.coh.restartHeld = false →
    ∃ t, exec .downSequenceEnd s = .next t ∧ t.coh.downSeq = false ∧ bitOf (rd t .coh hdrEvt) 16 = true) ∧
  (∀ (s : State), StateInv s → domainUp s = false → s.coh.salvTurn = none → rd s .coh cohStatusSalvaged ≠ 1 → s.coh.restarting = false →
    ∃ t, exec .salvage s = .next t ∧ t.coh.salvTurn = some 0 ∧ rd t .coh cohStatusSalvaging = 1 ∧ rd t .coh cohSalvFail = 0) ∧
  (∀ (s : State) (n : Nat), s.coh.salvTurn = some n → n < 16 → salvageLeft s n = false →
    ∃ t, exec .salvageAgentDone s = .next t ∧ t.coh.salvTurn = some (n + 1) ∧ t = { s with coh := t.coh }) ∧
  (∀ (s : State), StateInv s → s.coh.salvTurn = some 16 → salvageLeft s 16 = false → s.coh.restartHeld = false →
    ∃ t, exec .salvageAgentDone s = .next t ∧ t.coh.salvTurn = none ∧ rd t .coh cohStatusSalvaging = 0 ∧ rd t .coh cohStatusSalvaged = 1) ∧
  (∀ (s : State) (n : Nat), StateInv s → s.coh.salvTurn = some n → n < 16 →
    ∃ t, exec .salvageAgentTimeout s = .next t ∧ t.coh.salvTurn = some (n + 1) ∧ bitOf (rd t .coh cohSalvFail) n = true ∧
      salvageLeft t n = false) ∧
  (∀ (s : State) (a : AgentId) (line : BitVec 34), s.coh.salvTurn = some a.val → a ≠ 16 → (agentOf s a line.toNat).st = .M →
    ∃ t, exec (.salvwr a line) s = .next t ∧ (agentOf t a line.toNat).st = .S ∧ (agentOf t a line.toNat).data = (agentOf s a line.toNat).data) ∧
  (∀ (s : State) (addr : BitVec 64), StateInv s → rd s .coh cohDumpStatBusy ≠ 1 →
    ∃ t, exec (.dumpAddrWrite addr) s = .next t ∧ rd t .coh cohDumpStatBusy = 1 ∧ t.coh.dump = some (BitVec.ofNat 64 (bits addr.toNat 39 8)) ∧
      rd t .coh cohDumpAddr = bits addr.toNat 39 8) ∧
  (∀ (s : State) (k : BitVec 64), StateInv s → s.coh.dump = some k → inDram s (256 * k.toNat) 256 = true → syscBlk s k.toNat = none →
    ∃ t, exec .dumpDone s = .next t ∧ rd t .coh cohDumpStatBusy = 0 ∧ t.coh.dump = none ∧ t.coh.dumpData = dramData s k.toNat ∧
      rd t .coh cohDumpStatPoison = b2n (majority (dramSide s k.toNat).poison) ∧ t.dram = s.dram) ∧
  (∀ (s : State), StateInv s → s.coh.restarting = true → hostLines s = [] →
    ∃ t, exec (.restartComplete false) s = .next t ∧ domainUp t = false ∧ rd t .hub hubDomainDownCause = 7 ∧ t.coh.restarting = false) ∧
  (∀ (s : State), StateInv s → s.coh.restarting = true → hostLines s = [] →
    ∃ t, exec (.restartComplete true) s = .next t ∧ domainUp t = true ∧ t.coh.restarting = false ∧
      rd t .hub hubDomainRestarts = min (rd s .hub hubDomainRestarts + 1) (2 ^ hubDomainRestarts.width - 1))

/-- Matrix operations: an accepted and sound operation enters every array of its gang; the first one held begins its arithmetic from zero; its
tile goes to write-back, or becomes the accumulator where it is kept and nothing escalates; a drained or recomputed tile becomes the
accumulator, where no later operation has left it already and no FAULT came between, and the operation leaves. The check column: CHECK.EN of
a STOPPED array set to 0 puts it in UNCHECKED and keeps the mode; a self-test that finds nothing returns to SCAN and stops the array. -/
def Obligations.MatrixOperationsRunThroughTheirPhases : Prop :=
  (∀ (s : State) (b : BayId) (op : MtxOp) (src : OpSrc) (sig : BitVec 8) (u : Upset), mmaAccepts s b op = true → op.op = 1 → op.start ≠ 3 → op.kb ≠ 0 →
    op.la.toNat % 2 ^ op.gang.toNat = 0 → op.mfd.toNat < rd s (arrPage b op.la.toNat) arrMfdCount →
    (let r := storeRead (storeUpset s b u) b (arrPage b op.la.toNat) (srcUnit src) (64 * (rd s (arrPage b op.la.toNat) arrMfdBase + op.mfd.toNat)) 64 .ok .none
     mmaCheck r.2.2 b op (mfdOf r.1) = none) →
    ∃ t, exec (.mma b op src sig u) s = .next t ∧
      ∀ a ∈ gangOf op, ∃ o ∈ (arrOf t b a).ops, o.op = op ∧ o.src = src ∧ o.phase = .issued) ∧
  (∀ (s : State) (b : BayId) (a : ArrId) (o : ArrOp) (l : List ArrOp), arrGoes s b a.val = true → (arrOf s b a.val).ops = o :: l →
    o.phase = .issued → o.late = false → o.op.la.toNat = a.val → o.op.gang = 0 → o.op.start = 0 →
    ∃ t, exec (.arithStart b a) s = .next t ∧
      ∃ o' ∈ (arrOf t b a.val).ops, o'.id = o.id ∧ o'.phase = .arith ∧ o'.start = List.replicate 4096 0) ∧
  (∀ (s : State) (b : BayId) (a : ArrId) (u : Upset) (o : ArrOp) (l : List ArrOp), (arrOf s b a.val).ops = o :: l → o.phase = .arith →
    o.op.wb = true →
    ∃ t, exec (.arithEnd b a u false) s = .next t ∧
      ∃ o' ∈ (arrOf t b a.val).ops, o'.id = o.id ∧ o'.phase = .drain ∧
        o'.result = (tile (logicCheck (storeUpset s b u) (arrPage b a.val) (srcUnit o.src) u) b a.val o false).1) ∧
  (∀ (s : State) (b : BayId) (a : ArrId) (u : Upset) (o : ArrOp) (l : List ArrOp), (arrOf s b a.val).ops = o :: l → o.phase = .arith →
    o.op.wb = false → escalates o o.sent = false → o.late = false → (arrOf s b a.val).accId.all (fun n => decide (n ≤ o.id)) = true →
    ∃ t, exec (.arithEnd b a u false) s = .next t ∧
      (arrOf t b a.val).acc = (tile (logicCheck (storeUpset s b u) (arrPage b a.val) (srcUnit o.src) u) b a.val o false).1 ∧
      ∀ o' ∈ (arrOf t b a.val).ops, o'.id ≠ o.id) ∧
  (∀ (s : State) (b : BayId) (a : ArrId) (u : Upset) (o : ArrOp) (l : List ArrOp), (arrOf s b a.val).ops = o :: l → o.phase = .drain →
    (mfdOf o.mfd).fbA = 0 → (mfdOf o.mfd).fbB = 0 → o.late = false → (arrOf s b a.val).accId.all (fun n => decide (n ≤ o.id)) = true →
    ∃ t, exec (.drainEnd b a u) s = .next t ∧ (arrOf t b a.val).acc = o.result ∧ ∀ o' ∈ (arrOf t b a.val).ops, o'.id ≠ o.id) ∧
  (∀ (s : State) (b : BayId) (a : ArrId) (u : Upset) (o : ArrOp) (l : List ArrOp), (arrOf s b a.val).ops = o :: l → o.phase = .recompute →
    o.op.wb = false → o.late = false → (arrOf s b a.val).accId.all (fun n => decide (n ≤ o.id)) = true →
    ∃ t, exec (.recomputeEnd b a u false) s = .next t ∧
      (arrOf t b a.val).acc = (tile (logicCheck (storeUpset s b u) (arrPage b a.val) (srcUnit o.src) u) b a.val o true).1 ∧
      ∀ o' ∈ (arrOf t b a.val).ops, o'.id ≠ o.id) ∧
  (∀ (s : State) (b : BayId) (a : ArrId), StateInv s → pgState s (.arr b a) = 2 → rd s (.arr b a) arrCheckEn = 1 →
    ∃ t, exec (.checkEnWrite b a false) s = .next t ∧ rd t (.arr b a) arrCheckEn = 0 ∧ rd t (.arr b a) arrCheckMode = 4 ∧
      FieldsBut [arrCheckEn.key (.arr b a), arrCheckMode.key (.arr b a)] s t ∧ OtherBays b s t) ∧
  (∀ (s : State) (b : BayId) (a : ArrId), StateInv s → pgState s (.arr b a) = 5 → (arrOf s b a.val).selfTest = true →
    ¬ (Page.arr b a).slot ∈ s.heldReset →
    ∃ t, exec (.selfTestDone b a false false) s = .next t ∧ rd t (.arr b a) arrCheckMode = 0 ∧ pgState t (.arr b a) = 2 ∧
      rd t (.arr b a) hdrBusy = 0)

/-- Vector passes: an accepted pass is held with a number of its own and the SR_SEED of its issue; an empty one completes and PASS_SEQ counts
it; a span without a trap is counted; a pass whose spans are done leaves the engine and PASS_SEQ counts it. -/
def Obligations.VectorPassesRunAndComplete : Prop :=
  (∀ (s : State) (b : BayId) (op : VecOp) (q : QueueId) (sig : BitVec 8), vecAccepts s b = true →
    ∃ t, exec (.pass b op q sig) s = .next t ∧
      (bayOf t b).vec.held = some {
        id := (bayOf s b).nextOp, op := op, src := .queue q, sig := sig, seed := BitVec.ofNat 32 (rd s (.bayCtl b) baySrSeed) } ∧
      (bayOf t b).vec.running = (bayOf s b).vec.running ∧ (bayOf t b).nextOp = (bayOf s b).nextOp + 1 ∧ t = { s with bays := t.bays }) ∧
  (∀ (s : State) (b : BayId) (h : PassRun) (u : Upset), StateInv s → (bayOf s b).vec = { running := none, held := some h } → pgWorks s (.vec b) = true →
    h.op.op = 1 → h.op.n = 0 → h.op.vpd.toNat < rd s (.vec b) vecVpdCount →
    passCheck (stBytes (storeOf s b) (64 * rd s (.vec b) vecVpdBase + 128 * h.op.vpd.toNat) 128) h.op [] = none →
    ∃ t, exec (.passIssueStart b u) s = .next t ∧ (bayOf t b).vec = {} ∧
      rd t (.vec b) vecPassSeq = (rd s (.vec b) vecPassSeq + 1) % 2 ^ 32) ∧
  (∀ (s : State) (b : BayId) (u : Upset) (r : PassRun), (bayOf s b).vec.running = some r → 1024 * r.spans < r.op.n.toNat →
    fieldAt r.vpd 7 1 < 16 →
    ∃ t, exec (.spanEnd b u) s = .next t ∧ ∃ r', (bayOf t b).vec.running = some r' ∧ r'.spans = r.spans + 1 ∧ r'.id = r.id ∧ r'.op = r.op) ∧
  (∀ (s : State) (b : BayId) (r : PassRun), StateInv s → (bayOf s b).vec.running = some r → r.op.n.toNat ≤ 1024 * r.spans →
    ∃ t, exec (.passComplete b) s = .next t ∧ (bayOf t b).vec.running = none ∧
      rd t (.vec b) vecPassSeq = (rd s (.vec b) vecPassSeq + 1) % 2 ^ 32)

/-- A mover takes an operation: a sound descriptor, or an inline write within bay store, joins the operations it holds; an inline operation
without payload completes at once and DONE counts it. The only operation of a mover moves its row: a COPY within bay store of a row that
lies in one 256-byte region on each side makes the destination bytes equal the source bytes and leaves every other byte of the store;
afterwards its accesses are performed. CONVERT of a one-element FP32 row within bay store that holds 1.0 writes 1.0; a performed operation
completes, leaves the mover and is counted. -/
def Obligations.MoversTakeMoveAndComplete : Prop :=
  (∀ (s : State) (b : BayId) (m : Fin 4) (op : MovOp) (q : QueueId) (sig : BitVec 8) (u : Upset), movAccepts s b m = true → op.asel = 0 →
    op.di.toNat < rd s (.mov b m) engDescCount →
    (let d := movDesc (stBytes (storeOf s b) (64 * (rd s (.mov b m) engDescBase + op.di.toNat)) 64)
     d.rows ≠ 0 ∧ d.rowLen ≠ 0 ∧ movForm d op.payload.length = none ∧ movCheck d op.payload.length = none) →
    ∃ t, exec (.movDesc b m op q sig u) s = .next t ∧ ∃ r, movList t b m = movList s b m ++ [r] ∧ r.sig = sig ∧ r.payload = op.payload ∧
      r.desc = stBytes (storeOf s b) (64 * (rd s (.mov b m) engDescBase + op.di.toNat)) 64 ∧ r.row = 0 ∧ r.performed = false) ∧
  (∀ (s : State) (b : BayId) (m : Fin 4) (op : MovOp) (q : QueueId) (sig : BitVec 8), movAccepts s b m = true → op.payload ≠ [] →
    op.space = false ∨ storeWritable (op.addr.toNat % 2 ^ 27) op.payload.length = true →
    ∃ t, exec (.movInline b m op q sig) s = .next t ∧ ∃ r, movList t b m = movList s b m ++ [r] ∧ r.sig = sig ∧
      r.inline = some (op.space, op.addr) ∧ r.payload = op.payload ∧ OtherBays b s t) ∧
  (∀ (s : State) (b : BayId) (m : Fin 4) (op : MovOp) (q : QueueId), StateInv s → movAccepts s b m = true → op.payload = [] →
    ∃ t, exec (.movInline b m op q 0) s = .next t ∧ movList t b m = movList s b m ∧
      rd t (.mov b m) engDone = (rd s (.mov b m) engDone + 1) % 2 ^ engDone.width ∧ bitOf (rd t (.mov b m) hdrEvt) 16 = true) ∧
  (∀ (s : State) (b : BayId) (m : Fin 4) (r : MovRun) (ahead : Nat), pgWorks s (.mov b m) = true → movList s b m = [r] → r.performed = false → r.fail = none →
    r.inline = none → r.row = 0 → r.pos = 0 → (storeOf s b).carried = [] → (storeOf s b).poison = [] → (storeOf s b).ue = [] →
    Rising (storeOf s b).bytes → r.bufPoison = false →
    (let d := movDesc r.desc
     d.kind = 0 ∧ d.srcSpace = 0 ∧ d.dstSpace = 0 ∧ d.afEn = false ∧ d.rows = 1 ∧ 0 < d.rowLen ∧ d.src % 256 + d.rowLen ≤ 256 ∧
       d.dst % 256 + d.rowLen ≤ 256 ∧ inStore d.src d.rowLen = true ∧ storeWritable d.dst d.rowLen = true) →
    ∃ t, exec (.movCopy b m .ok .none ahead) s = .next t ∧
      stBytes (storeOf t b) (movDesc r.desc).dst (movDesc r.desc).rowLen = stBytes (storeOf s b) (movDesc r.desc).src (movDesc r.desc).rowLen ∧
      (∀ a, a < (movDesc r.desc).dst ∨ (movDesc r.desc).dst + (movDesc r.desc).rowLen ≤ a →
        mget 0 (storeOf t b).bytes a = mget 0 (storeOf s b).bytes a) ∧
      ∃ r', movList t b m = [r'] ∧ r'.id = r.id ∧ r'.performed = true) ∧
  (∀ (s : State) (b : BayId) (m : Fin 4) (r : MovRun) (ahead : Nat), pgWorks s (.mov b m) = true → movList s b m = [r] → r.performed = false → r.fail = none →
    r.inline = none → r.row = 0 → r.pos = 0 → (storeOf s b).carried = [] → (storeOf s b).poison = [] → (storeOf s b).ue = [] →
    Rising (storeOf s b).bytes → r.bufPoison = false →
    (let d := movDesc r.desc
     d.kind = 1 ∧ d.fmtS = 2 ∧ d.fmtD = 2 ∧ d.srcSpace = 0 ∧ d.dstSpace = 0 ∧ d.afEn = false ∧ d.sentEn = false ∧ d.given = false ∧ d.rows = 1 ∧
       d.rowLen = 1 ∧ d.sr = false ∧ inStore d.src 4 = true ∧ storeWritable d.dst 4 = true ∧
       fieldAt (stBytes (storeOf s b) d.src 4) 0 4 = 0x3F800000) →
    ∃ t, exec (.movConvert b m .ok .none ahead) s = .next t ∧ fieldAt (stBytes (storeOf t b) (movDesc r.desc).dst 4) 0 4 = 0x3F800000 ∧
      ∃ r', movList t b m = [r'] ∧ r'.performed = true) ∧
  (∀ (s : State) (b : BayId) (m : Fin 4) (r : MovRun) (l : List MovRun), StateInv s → pgWorks s (.mov b m) = true → movList s b m = r :: l →
    r.inline = none → r.performed = true → r.outst = 0 → r.fail = none → r.lastHost = none →
    ∃ t, exec (.movComplete b m) s = .next t ∧ movList t b m = l ∧
      rd t (.mov b m) engDone = (rd s (.mov b m) engDone + 1) % 2 ^ engDone.width)

/-- The remote kinds of mover operation: where the flow that the descriptor names is OPEN with room, PUT sends one WRITE packet with the bytes
of its row, GET one READ packet for them, ATOMIC one ATOMIC packet, each kept by the flow until it is acknowledged, and the operation waits
for the answer. -/
def Obligations.RemoteMoverOperationsSendTheirPackets : Prop :=
  ∀ (s : State) (b : BayId) (m : Fin 4) (r : MovRun) (pl : Nat), StateInv s → pgWorks s (.mov b m) = true → movList s b m = [r] →
    r.performed = false → r.fail = none → r.inline = none → r.row = 0 → r.pos = 0 → r.outst = 0 → r.bufPoison = false →
    (movDesc r.desc).afEn = false → (movDesc r.desc).rows = 1 → 0 < (movDesc r.desc).rowLen →
    flwSt (flw s (movDesc r.desc).flow) = 1 → rankPlace s (movDesc r.desc).rank = some pl →
    pgState s (.flow (flowDie (movDesc r.desc).flow)) = 4 → rankValid s = true → (flw s (movDesc r.desc).flow).closing = false →
    (flw s (movDesc r.desc).flow).unacked.length < 8 → whoReach s (.mov b m r.id) (movDesc r.desc).flow = true →
    ((movDesc r.desc).kind = 2 → (movDesc r.desc).srcSpace = 0 → (movDesc r.desc).src % 256 + (movDesc r.desc).rowLen ≤ 256 →
      (movDesc r.desc).dst % 256 + (movDesc r.desc).rowLen ≤ 256 → inStore (movDesc r.desc).src (movDesc r.desc).rowLen = true →
      (storeOf s b).carried = [] → (storeOf s b).poison = [] → (storeOf s b).ue = [] →
      ∃ t, exec (.movPut b m .ok .none 0) s = .next t ∧ ∃ k, (flw t (movDesc r.desc).flow).unacked = (flw s (movDesc r.desc).flow).unacked ++ [k] ∧
        k.op = 1 ∧ k.data = stBytes (storeOf s b) (movDesc r.desc).src (movDesc r.desc).rowLen ∧ k.addr.toNat = (movDesc r.desc).dst ∧
        k.last = true ∧ ∃ r', movList t b m = [r'] ∧ r'.outst = 1 ∧ r'.performed = true) ∧
    ((movDesc r.desc).kind = 3 → (movDesc r.desc).src % 4096 + (movDesc r.desc).rowLen ≤ 4096 →
      ∃ t, exec (.movGet b m) s = .next t ∧ ∃ k, (flw t (movDesc r.desc).flow).unacked = (flw s (movDesc r.desc).flow).unacked ++ [k] ∧
        k.op = 2 ∧ k.addr.toNat = (movDesc r.desc).src ∧ k.len.toNat = (movDesc r.desc).rowLen ∧
        ∃ r', movList t b m = [r'] ∧ r'.outst = 1 ∧ r'.performed = true) ∧
    ((movDesc r.desc).kind = 4 → (movDesc r.desc).remote = true → (movDesc r.desc).dst % (movDesc r.desc).rowLen = 0 →
      ∃ t, exec (.movAtomic b m) s = .next t ∧ ∃ k, (flw t (movDesc r.desc).flow).unacked = (flw s (movDesc r.desc).flow).unacked ++ [k] ∧
        k.op = 4 ∧ k.addr.toNat = (movDesc r.desc).dst ∧ k.data = toLE 8 (movDesc r.desc).operand ++ toLE 8 (movDesc r.desc).compare ∧
        ∃ r', movList t b m = [r'] ∧ r'.outst = 1 ∧ r'.performed = true)

/-- Gather engines: a sound gather from bay store joins the operations held and issues its rows' addresses; a row that arrives is written and
marked done; an operation with every row written completes, leaves the engine and is counted. Translations: an INVAL of a bay's unit starts
at once while BUSY is 0, and shows BUSY; when it is done the translations it names have left the TLB and BUSY clears. -/
def Obligations.GathersAndInvalidationsComplete : Prop :=
  (∀ (s : State) (b : BayId) (g : Fin 2) (op : GthOp) (src : OpSrc) (u : Upset), StateInv s → gthAccepts s b g = true → op.op = 1 → op.afs = 0 →
    op.di.toNat < rd s (.gth b g) engDescCount → op.count = 0 →
    ∃ t, exec (.gather b g op src 0 u) s = .next t ∧ gthList t b g = gthList s b g ∧
      rd t (.gth b g) engDone = (rd s (.gth b g) engDone + 1) % 2 ^ engDone.width) ∧
  (∀ (s : State) (b : BayId) (g : Fin 2) (r : GthRun) (ahead : Nat), StateInv s → pgWorks s (.gth b g) = true → gthList s b g = [r] →
    (gthDesc r.desc).space = 0 → r.op.count = 1 → r.addrs.length = 1 → r.done = [] → r.fail = none → r.asked = 0 →
    ∃ t, exec (.gatherRowArrival b g 0 .ok .none ahead) s = .next t ∧ ∃ r', gthList t b g = [r'] ∧ r'.done = [0] ∧ r'.id = r.id) ∧
  (∀ (s : State) (b : BayId) (g : Fin 2) (r : GthRun), StateInv s → pgWorks s (.gth b g) = true → gthList s b g = [r] →
    r.done.length = r.op.count.toNat → r.fail = none →
    ∃ t, exec (.gatherComplete b g) s = .next t ∧ gthList t b g = [] ∧
      rd t (.gth b g) engDone = (rd s (.gth b g) engDone + 1) % 2 ^ engDone.width) ∧
  (∀ (s : State) (b : BayId) (scope : BitVec 2) (asid : BitVec 16), StateInv s → pgState s (.xlate b) ≠ 0 → pgState s (.xlate b) ≠ 3 →
    pgState s (.xlate b) ≠ 5 → (bayOf s b).inval = none → (bayOf s b).invalWait = [] →
    ∃ t, exec (.xlateInval b scope asid) s = .next t ∧
      (bayOf t b).inval = some { scope := scope, asid := asid, va := BitVec.ofNat 64 (rd s (.xlate b) xlInvalVa) } ∧
      rd t (.xlate b) hdrBusy = 1 ∧ (bayOf t b).tlb = (bayOf s b).tlb ∧ OtherBays b s t ∧ FieldsBut [hdrBusy.key (.xlate b)] s t) ∧
  (∀ (s : State) (b : BayId) (v : Inval), StateInv s → (bayOf s b).inval = some v → (bayOf s b).invalWait = [] →
    pgState s (.xlate b) ≠ 3 → pgState s (.xlate b) ≠ 5 →
    ∃ t, exec (.invalDone b) s = .next t ∧ (bayOf t b).inval = none ∧ rd t (.xlate b) hdrBusy = 0 ∧
      (bayOf t b).tlb = (bayOf s b).tlb.filter (fun e => !invalHits v e) ∧ OtherBays b s t)

/-- The CTL operations of a long word: NOP retires the word; CALL and REPLAY open the frame that their check has found, as an operation in
flight; RET ends the innermost frame; LAUNCH, in its turn, enters the launch queue; NOTIFY shows its code, counts and raises its event;
RECORD and ENDREC begin and end the recording, the list's header being written at its end. The SYN operations of a long word: NOP changes no
flag or counter; CADD adds to a counter modulo 2^32 and CSET sets it; FCLR and FSET clear and signal a flag; DRAIN completes once nothing of
its queue is in flight. A SLOT_ISSUE of the SYN slot does what its operation says. -/
def Obligations.SlotsOfLongWordsTakeEffect : Prop :=
  (∀ (s : State) (b : BayId) (q : QueueId) (v : Nat), StateInv s → SoleSlot s b q 0 v none [] → bits v 19 16 = 0 →
    ∃ t, exec (.ctlNop b q) s = .next t ∧ Retired s t b q) ∧
  (∀ (s : State) (b : BayId) (q : QueueId) (v : Nat) (f : Frame), StateInv s → SoleSlot s b q 0 v (some f) [] → bits v 19 16 = 1 → f.off < f.len →
    ∃ t, exec (.call b q) s = .next t ∧ Retired s t b q ∧ (queueOf t b q).frames = [{ f with id := (bayOf s b).nextOp }]) ∧
  (∀ (s : State) (b : BayId) (q : QueueId) (v : Nat) (f : Frame), StateInv s → SoleSlot s b q 0 v (some f) [] → bits v 19 16 = 3 → f.off < f.len →
    ∃ t, exec (.replay b q) s = .next t ∧ Retired s t b q ∧ (queueOf t b q).frames = [{ f with id := (bayOf s b).nextOp }]) ∧
  (∀ (s : State) (b : BayId) (q : QueueId) (v : Nat) (f : Frame), StateInv s → SoleSlot s b q 0 v none [f] → bits v 19 16 = 2 →
    ∃ t, exec (.ret b q) s = .next t ∧ (queueOf t b q).decoded = [] ∧ (queueOf t b q).frames = []) ∧
  (∀ (s : State) (b : BayId) (q : QueueId) (v : Nat), StateInv s → SoleSlot s b q 0 v none [] → bits v 19 16 = 4 → pgState s (.tgu b) = 4 →
    (∀ d, (queueOf s b q).decoded = [d] → slotFirst s b q 0 d.seq v = true) →
    (bayOf s b).tgu.queue.length < 4 → (storeOf s b).carried = [] → (storeOf s b).poison = [] → (storeOf s b).ue = [] →
    fieldAt (stBytes (storeOf s b) (64 * bits v 40 20) 64) 8 4 ≠ 0 →
    ∃ t, exec (.launch b q) s = .next t ∧ Retired s t b q ∧
      ∃ l, (bayOf t b).tgu.queue = (bayOf s b).tgu.queue ++ [l] ∧ l.desc = bits v 40 20 ∧ l.id = (bayOf s b).nextOp) ∧
  (∀ (s : State) (b : BayId) (q : QueueId) (v : Nat), StateInv s → SoleSlot s b q 0 v none [] → bits v 19 16 = 5 →
    ∃ t, exec (.notify b q) s = .next t ∧ Retired s t b q ∧ rd t (.issue b) issNotifyCode = bits v 27 20 ∧
      rd t (.issue b) issNotifyCount = (rd s (.issue b) issNotifyCount + 1) % 2 ^ 24 ∧ bitOf (rd t (.issue b) hdrEvt) 16 = true) ∧
  (∀ (s : State) (b : BayId) (q : QueueId) (v : Nat), StateInv s → SoleSlot s b q 0 v none [] → bits v 19 16 = 6 →
    ∃ t, exec (.record b q) s = .next t ∧ Retired s t b q ∧
      (queueOf t b q).recording = some { list := bits v 40 20, maxw := bits v 60 41, copied := 0 }) ∧
  (∀ (s : State) (b : BayId) (q : QueueId) (v : Nat) (r : Recording), StateInv s → SoleSlot s b q 0 v none [] → bits v 19 16 = 7 →
    (queueOf s b q).recording = some r → Rising (storeOf s b).bytes →
    ∃ t, exec (.endrec b q) s = .next t ∧ Retired s t b q ∧ (queueOf t b q).recording = none ∧
      stBytes (storeOf t b) (64 * r.list) 8 = toLE 4 r.copied ++ [0xA5, 0, 0, 0]) ∧
  (∀ (s : State) (b : BayId) (q : QueueId) (v : Nat), StateInv s → SoleSlot s b q 5 v none [] → bits v 19 16 = 0 →
    ∃ t, exec (.synNop b q) s = .next t ∧ Retired s t b q ∧ FieldsBut [(issQQseq q.val).key (.issue b)] s t ∧ OtherBays b s t) ∧
  (∀ (s : State) (b : BayId) (q : QueueId) (v : Nat), StateInv s → SoleSlot s b q 5 v none [] → bits v 19 16 = 1 →
    ∃ t, exec (.cadd b q) s = .next t ∧ Retired s t b q ∧
      cnt t b (bits v 23 20) = (cnt s b (bits v 23 20) + bits v 55 24) % 2 ^ 32 ∧
      FieldsBut [(issQQseq q.val).key (.issue b), (syncCnt (bits v 23 20)).key (.sync b)] s t ∧ OtherBays b s t) ∧
  (∀ (s : State) (b : BayId) (q : QueueId) (v : Nat), StateInv s → SoleSlot s b q 5 v none [] → bits v 19 16 = 2 →
    ∃ t, exec (.cset b q) s = .next t ∧ exec (.slotIssue b q 5 .none) s = .next t ∧ Retired s t b q ∧ cnt t b (bits v 23 20) = bits v 55 24 ∧
      FieldsBut [(issQQseq q.val).key (.issue b), (syncCnt (bits v 23 20)).key (.sync b)] s t ∧ OtherBays b s t) ∧
  (∀ (s : State) (b : BayId) (q : QueueId) (v : Nat), StateInv s → SoleSlot s b q 5 v none [] → bits v 19 16 = 3 →
    ∃ t, exec (.fclr b q) s = .next t ∧ Retired s t b q ∧ flagIs t b (bits v 25 20) = false ∧
      FieldsBut [(issQQseq q.val).key (.issue b), syncFlags.key (.sync b)] s t ∧ OtherBays b s t) ∧
  (∀ (s : State) (b : BayId) (q : QueueId) (v : Nat), StateInv s → SoleSlot s b q 5 v none [] → bits v 19 16 = 4 →
    ∃ t, exec (.fset b q) s = .next t ∧ Retired s t b q ∧ flagIs t b (bits v 25 20) = true ∧
      FieldsBut [(issQQseq q.val).key (.issue b), syncFlags.key (.sync b), syncOverset.key (.sync b)] s t ∧ OtherBays b s t) ∧
  (∀ (s : State) (b : BayId) (q : QueueId) (v : Nat), StateInv s → SoleSlot s b q 5 v none [] → bits v 19 16 = 5 → (bayOf s b).ops = [] →
    ∃ t, exec (.drain b q) s = .next t ∧ Retired s t b q ∧ FieldsBut [(issQQseq q.val).key (.issue b)] s t ∧ OtherBays b s t)

/-- Words enter an issue queue and frames end: a sound word without a CTL slot is decoded with its references resolved and becomes the head; the
ring's next word, once it can be read whole and fits, joins the queue and CONS advances by its length; the last repetition of a body ends
its frame. Writes to the issue and synchronization pages: a doorbell adds to PROD, and past the ring's size sets DB_OVR; an 8-byte push
enters the address FIFO or, without room, sets AF_OVF; FSET signals each flag of its mask and FCLR clears it; a counter write sets the
counter and an addition adds modulo 2^32. The wait monitor and the stall watchdog: where the bay has been quiet, a deadlock is declared:
DLOCK.DECLARED is 1, QMASK names the held queues, and ISSUE is in FAULT with STALL; the stall watchdog of a running page with run control
sets STALL and takes it to FAULT. -/
def Obligations.IssueQueuesTakeWordsAndStall : Prop :=
  (∀ (s : State) (b : BayId) (q : QueueId) (a : Option (BitVec 64)) (raw : List (BitVec 32)) (rest : List (Option (BitVec 64) × List (BitVec 32)))
    (slots : List (Option Nat)) (thr : List Nat) (pay : List Byte), StateInv s → pgState s (.issue b) = 4 → Rising (bayOf s b).queues →
    (queueOf s b q).words = (a, raw) :: rest → (queueOf s b q).decoded = [] → (queueOf s b q).frames = [] → (queueOf s b q).recording = none →
    decodeWord raw (arrCount s b) (fun n => rd s (.issue b) (issQParam q.val n)) 0 = .inl (slots, thr, pay) →
    slots.getD 0 none = none → (∃ i, i < 6 ∧ (slots.getD i none).isSome = true) →
    ∃ t, exec (.wordDecode b q .none) s = .next t ∧ (queueOf t b q).words = rest ∧
      ∃ d, (queueOf t b q).decoded = [d] ∧ d.slots = slots ∧ d.thr = thr ∧ d.payload = pay ∧ d.checked = true) ∧
  (∀ (s s1 s2 : State) (b : BayId) (q : QueueId) (chk : Check) (h ws : List (BitVec 32)), StateInv s → pgState s (.issue b) = 4 →
    rd s (.issue b) (issQQcfg q.val) = 1 → rd s (.issue b) (issQRingSize q.val) ≠ 0 →
    rd s (.issue b) (issQProd q.val) ≠ rd s (.issue b) (issQCons q.val) →
    ringWords b (rd s (.issue b) (issQRingBase q.val)) (rd s (.issue b) (issQRingSize q.val)) chk 1 (rd s (.issue b) (issQCons q.val)) [] s =
      ((.ok [], h), s1) →
    (rd s (.issue b) (issQProd q.val) + 2 ^ 32 - rd s (.issue b) (issQCons q.val)) % 2 ^ 32 ≤ rd s (.issue b) (issQRingSize q.val) →
    wordLen (wAt h 0) ≤ (rd s (.issue b) (issQProd q.val) + 2 ^ 32 - rd s (.issue b) (issQCons q.val)) % 2 ^ 32 →
    queueRoom s1 b q (wordLen (wAt h 0)) = true →
    ringWords b (rd s (.issue b) (issQRingBase q.val)) (rd s (.issue b) (issQRingSize q.val)) chk (wordLen (wAt h 0))
      (rd s (.issue b) (issQCons q.val)) [] s1 = ((.ok [], ws), s2) → StateInv s2 →
    ∃ t, exec (.ringFetch b q chk) s = .next t ∧ ∃ a, (queueOf t b q).words = (queueOf s2 b q).words ++ [(some a, ws)] ∧
      rd t (.issue b) (issQCons q.val) = (rd s2 (.issue b) (issQCons q.val) + wordLen (wAt h 0)) % 2 ^ 32) ∧
  (∀ (s : State) (b : BayId) (q : QueueId) (f : Frame), StateInv s → pgState s (.issue b) = 4 → Rising (bayOf s b).queues →
    (queueOf s b q).frames = [f] → (queueOf s b q).decoded = [] → f.off = f.len → f.more = 0 →
    ∃ t, exec (.frameReturn b q) s = .next t ∧ (queueOf t b q).frames = [] ∧ (queueOf t b q).words = (queueOf s b q).words) ∧
  (∀ (s : State) (b : BayId) (q : QueueId) (n : BitVec 32), StateInv s → pgState s (.issue b) ≠ 0 →
    ∃ t, exec (.issueDoorbell b q n) s = .next t ∧
      rd t (.issue b) (issQProd q.val) = (rd s (.issue b) (issQProd q.val) + n.toNat) % 2 ^ 32 ∧
      ((rd t (.issue b) (issQProd q.val) + 2 ^ 32 - rd t (.issue b) (issQCons q.val)) % 2 ^ 32 ≤ rd s (.issue b) (issQRingSize q.val) →
        OnlyRegs s t ∧ FieldsBut [(issQProd q.val).key (.issue b)] s t) ∧
      (n ≠ 0 → rd s (.issue b) (issQRingSize q.val) < (rd t (.issue b) (issQProd q.val) + 2 ^ 32 - rd t (.issue b) (issQCons q.val)) % 2 ^ 32 →
        bitOf (rd t (.issue b) hdrErr) 19 = true ∧ OnlyErrors s t)) ∧
  (∀ (s : State) (b : BayId) (f : Fin 4) (v : BitVec 64), StateInv s → pgState s (.issue b) ≠ 0 → afRoom s b f.val = true →
    ∃ t, exec (.afPush b f 8 v) s = .next t ∧ mget [] (bayOf t b).afifo f.val = mget [] (bayOf s b).afifo f.val ++ [v] ∧
      rd t (.issue b) (issAfLevel f.val) = (mget [] (bayOf s b).afifo f.val).length + 1 ∧ OtherBays b s t ∧
      FieldsBut [(issAfLevel f.val).key (.issue b)] s t) ∧
  (∀ (s : State) (b : BayId) (f : Fin 4) (v : BitVec 64), StateInv s → pgState s (.issue b) ≠ 0 → afRoom s b f.val = false →
    ∃ t, exec (.afPush b f 8 v) s = .next t ∧ bitOf (rd t (.issue b) hdrErr) 20 = true ∧ OnlyErrors s t) ∧
  (∀ (s : State) (b : BayId) (mask : BitVec 64), StateInv s → pgState s (.sync b) ≠ 0 →
    ∃ t, exec (.syncFset b mask) s = .next t ∧ (∀ i, i < 64 → flagIs t b i = (flagIs s b i || mask.getLsbD i)) ∧
      (∀ i, i < 64 → bitOf (rd t (.sync b) syncOverset) i = (bitOf (rd s (.sync b) syncOverset) i || (mask.getLsbD i && flagIs s b i))) ∧
      OnlyRegs s t ∧ FieldsBut [syncFlags.key (.sync b), syncOverset.key (.sync b)] s t) ∧
  (∀ (s : State) (b : BayId) (mask : BitVec 64), StateInv s → pgState s (.sync b) ≠ 0 →
    ∃ t, exec (.syncFclr b mask) s = .next t ∧ (∀ i, i < 64 → flagIs t b i = (flagIs s b i && !mask.getLsbD i)) ∧
      OnlyRegs s t ∧ FieldsBut [syncFlags.key (.sync b)] s t) ∧
  (∀ (s : State) (b : BayId) (n : Fin 16) (v : BitVec 32), StateInv s → pgState s (.sync b) ≠ 0 →
    ∃ t, exec (.cntWrite b n v) s = .next t ∧ cnt t b n.val = v.toNat ∧ OnlyRegs s t ∧ FieldsBut [(syncCnt n.val).key (.sync b)] s t) ∧
  (∀ (s : State) (b : BayId) (n : Fin 16) (v : BitVec 32), StateInv s → pgState s (.sync b) ≠ 0 →
    ∃ t, exec (.caddWrite b n v) s = .next t ∧ cnt t b n.val = (cnt s b n.val + v.toNat) % 2 ^ 32 ∧ OnlyRegs s t ∧
      FieldsBut [(syncCnt n.val).key (.sync b)] s t) ∧
  (∀ (s : State) (b : BayId) (qs : List QueueId) (w : Option (Nat × Nat)), StateInv s → quiet s b = some (qs, w) →
    ∃ t, exec (.deadlockDeclared b) s = .next t ∧ pgState t (.issue b) = 6 ∧ rd t (.issue b) issDlockDeclared = 1 ∧
      bitOf (rd t (.issue b) hdrErr) 5 = true ∧ (∀ q ∈ qs, bitOf (rd t (.issue b) issDlockQmask) q.val = true)) ∧
  (∀ (s : State) (p : Page), StateInv s → p.runctl = true → pgState s p = 4 →
    ∃ t, exec (.stallWatchdog p) s = .next t ∧ pgState t p = 6 ∧ bitOf (rd t p hdrErr) 5 = true)

/-- The docent's own instructions on its queues and address FIFOs: DC.PUSH of a word that fits appends it and gives rd its position, and else
stalls until there is room; DC.AFP appends its value to the FIFO, or stalls until there is room; each advances DOC.PC by 4 when it
completes. The docent's own instructions on flags, counters and summaries: DC.WAIT completes when its wait is satisfied (and consumes a
flag), else stalls with AWAIT naming it, until it is satisfied; DC.SIG signals; DC.TEST reads a flag or counter; DC.SUM reads a summary
field; a byte that is no WAIT or SIG is an illegal instruction, and the docent traps. -/
def Obligations.DocentPushesWaitsAndReads : Prop :=
  (∀ (s : State) (b : BayId) (rd' rs1 rs2 : Fin 32) (q : QueueId) (ws : List (BitVec 32)), StateInv s → docReady s b = true →
    Rising (bayOf s b).doc.x → (docX s b rs2.val).toNat % 4 = q.val → pushWord s b q (docX s b rs1.val).toNat = .ok ws →
    pushFits s b q ws.length = true →
    ∃ t, exec (.dcPush b rd' rs1 rs2) s = .next t ∧ (queueOf t b q).words = (queueOf s b q).words ++ [(none, ws)] ∧
      docPcV t b = docPcV s b + 4 ∧ (rd'.val ≠ 0 → docX t b rd'.val = BitVec.ofNat 64 (queuePos t b q)) ∧
      (∀ r, r ≠ rd'.val → docX t b r = docX s b r) ∧ OtherBays b s t) ∧
  (∀ (s : State) (b : BayId) (rd' rs1 rs2 : Fin 32) (q : QueueId) (ws : List (BitVec 32)), StateInv s → docReady s b = true →
    (docX s b rs2.val).toNat % 4 = q.val → pushWord s b q (docX s b rs1.val).toNat = .ok ws → pushFits s b q ws.length = false →
    ∃ t, exec (.dcPush b rd' rs1 rs2) s = .next t ∧ (bayOf t b).doc.stall = .push q rd' ws ∧ rd t (.doc b) docStatusPushStall = 1 ∧
      docPcV t b = docPcV s b ∧ (queueOf t b q).words = (queueOf s b q).words) ∧
  (∀ (s : State) (b : BayId) (rd' : Fin 32) (q : QueueId) (ws : List (BitVec 32)), StateInv s → pgState s (.doc b) = 4 →
    (bayOf s b).doc.stall = .push q rd' ws → pushFits s b q ws.length = true →
    ∃ t, exec (.dcPushRoom b) s = .next t ∧ (queueOf t b q).words = (queueOf s b q).words ++ [(none, ws)] ∧
      (bayOf t b).doc.stall = .none ∧ rd t (.doc b) docStatusPushStall = 0 ∧ docPcV t b = docPcV s b + 4) ∧
  (∀ (s : State) (b : BayId) (rs1 rs2 : Fin 32) (f : Fin 4), StateInv s → docReady s b = true → (docX s b rs2.val).toNat % 4 = f.val →
    afFits s b f.val = true →
    ∃ t, exec (.dcAfp b rs1 rs2) s = .next t ∧
      mget [] (bayOf t b).afifo f.val = mget [] (bayOf s b).afifo f.val ++ [docX s b rs1.val] ∧ docPcV t b = docPcV s b + 4 ∧
      (bayOf t b).doc = (bayOf s b).doc ∧ OtherBays b s t) ∧
  (∀ (s : State) (b : BayId) (f : Fin 4) (v : BitVec 64), StateInv s → pgState s (.doc b) = 4 → (bayOf s b).doc.stall = .afp f v →
    afFits s b f.val = true →
    ∃ t, exec (.dcAfpRoom b) s = .next t ∧ mget [] (bayOf t b).afifo f.val = mget [] (bayOf s b).afifo f.val ++ [v] ∧
      (bayOf t b).doc.stall = .none ∧ rd t (.doc b) docStatusAfpStall = 0 ∧ docPcV t b = docPcV s b + 4) ∧
  (∀ (s : State) (b : BayId) (rs1 rs2 : Fin 32) (w : BitVec 8) (t' : BitVec 32), StateInv s → docReady s b = true →
    BitVec.ofNat 8 (docX s b rs1.val).toNat = w → BitVec.ofNat 32 (docX s b rs2.val).toNat = t' → dcByteBad w.toNat = false →
    (docWaitOk s b w.toNat t'.toNat = true →
      ∃ t, exec (.dcWait b rs1 rs2) s = .next t ∧ docPcV t b = docPcV s b + 4 ∧ OnlyRegs s t ∧
        (byteK w.toNat = false → flagIs t b (byteIdx w.toNat) = false) ∧
        FieldsBut [docPc.key (.doc b), syncFlags.key (.sync b)] s t) ∧
    (docWaitOk s b w.toNat t'.toNat = false →
      ∃ t, exec (.dcWait b rs1 rs2) s = .next t ∧ (bayOf t b).doc.stall = .wait w t' ∧ rd t (.doc b) docStatusWaiting = 1 ∧
        rd t (.doc b) docAwait = w.toNat ∧ rd t (.doc b) docAwaitThr = t'.toNat ∧ docPcV t b = docPcV s b)) ∧
  (∀ (s : State) (b : BayId) (w : BitVec 8) (t' : BitVec 32), StateInv s → pgState s (.doc b) = 4 → (bayOf s b).doc.stall = .wait w t' →
    docWaitOk s b w.toNat t'.toNat = true →
    ∃ t, exec (.dcWaitSatisfied b) s = .next t ∧ (bayOf t b).doc.stall = .none ∧ rd t (.doc b) docStatusWaiting = 0 ∧
      docPcV t b = docPcV s b + 4) ∧
  (∀ (s : State) (b : BayId) (rs1 : Fin 32), StateInv s → docReady s b = true → dcByteBad ((docX s b rs1.val).toNat % 256) = false →
    ∃ t, exec (.dcSig b rs1) s = .next t ∧ docPcV t b = docPcV s b + 4 ∧ OnlyRegs s t ∧
      (byteK ((docX s b rs1.val).toNat % 256) = false → flagIs t b (byteIdx ((docX s b rs1.val).toNat % 256)) = true) ∧
      (byteK ((docX s b rs1.val).toNat % 256) = true →
        cnt t b (byteIdx ((docX s b rs1.val).toNat % 256)) = (cnt s b (byteIdx ((docX s b rs1.val).toNat % 256)) + 1) % 2 ^ 32)) ∧
  (∀ (s : State) (b : BayId) (rd' rs1 : Fin 32), StateInv s → docReady s b = true → Rising (bayOf s b).doc.x →
    dcByteBad ((docX s b rs1.val).toNat % 256) = false → rd' ≠ 0 →
    ∃ t, exec (.dcTest b rd' rs1) s = .next t ∧ docPcV t b = docPcV s b + 4 ∧
      docX t b rd'.val = BitVec.ofNat 64 (let w := (docX s b rs1.val).toNat % 256
        if byteK w then cnt s b (byteIdx w) else b2n (flagIs s b (byteIdx w))) ∧ FieldsBut [docPc.key (.doc b)] s t ∧ OtherBays b s t) ∧
  (∀ (s : State) (b : BayId) (rd' rs1 rs2 : Fin 32) (v : Nat), StateInv s → docReady s b = true → Rising (bayOf s b).doc.x → rd' ≠ 0 →
    sumField s b ((docX s b rs1.val).toNat % 4) ((docX s b rs2.val).toNat % 16) = some v →
    ∃ t, exec (.dcSum b rd' rs1 rs2) s = .next t ∧ docPcV t b = docPcV s b + 4 ∧ docX t b rd'.val = BitVec.ofNat 64 v ∧
      FieldsBut [docPc.key (.doc b)] s t ∧ OtherBays b s t) ∧
  (∀ (s : State) (b : BayId) (rs1 : Fin 32), StateInv s → docReady s b = true → dcByteBad ((docX s b rs1.val).toNat % 256) = true →
    ∃ t, exec (.dcSig b rs1) s = .next t ∧ pgState t (.doc b) = 6 ∧ rd t (.doc b) docTrapCause = 2 ∧
      rd t (.doc b) docTrapPc = rd s (.doc b) docPc ∧ bitOf (rd t (.doc b) hdrErr) 16 = true)

/-- The docent runs RV64 instructions from its instruction memory: a 4-byte ADDI adds its immediate and goes on; EBREAK ends in STOPPED with
STATUS HALTED and the event of its end; a misaligned PC takes exception 0. MEM_DATA of a STOPPED docent reads and writes eight bytes and
steps on. -/
def Obligations.DocentRunsItsInstructions : Prop :=
  (∀ (s : State) (b : BayId) (w : Nat) (ue : Bool), StateInv s → docReady s b = true → Rising (bayOf s b).doc.x → (docPcV s b).toNat % 2 = 0 →
    (docPcV s b).toNat + 4 ≤ 0x10000 → leNat (docBytes (bayOf s b).doc.imem (docPcV s b).toNat 4) = w →
    leNat (docBytes (bayOf s b).doc.imem (docPcV s b).toNat 2) % 4 = 3 → w % 128 = 0x13 → bits w 14 12 = 0 → bits w 11 7 ≠ 0 →
    ∃ t, exec (.docentInstruction b false ue .none) s = .next t ∧ docPcV t b = docPcV s b + 4 ∧
      docX t b (bits w 11 7) = docX s b (bits w 19 15) + BitVec.ofInt 64 (sbits w 31 20) ∧ FieldsBut [docPc.key (.doc b)] s t ∧
      (∀ r, r ≠ bits w 11 7 → docX t b r = docX s b r) ∧ OtherBays b s t) ∧
  (∀ (s : State) (b : BayId) (c : Bool), StateInv s → docReady s b = true →
    ∃ t, exec (.ebreak b c) s = .next t ∧ pgState t (.doc b) = 2 ∧ rd t (.doc b) docStatusState = 2 ∧
      docPcV t b = docPcV s b + (if c then 2 else 4) ∧ bitOf (rd t (.doc b) hdrEvt) 16 = true ∧ OnlyEvents s t) ∧
  (∀ (s : State) (b : BayId) (ue de : Bool) (u : Upset), StateInv s → docReady s b = true → (docPcV s b).toNat % 2 ≠ 0 →
    ∃ t, exec (.docentInstruction b ue de u) s = .next t ∧ pgState t (.doc b) = 6 ∧ rd t (.doc b) docTrapCause = 0 ∧
      rd t (.doc b) docTrapVal = (docPcV s b).toNat ∧ rd t (.doc b) docStatusState = 3) ∧
  (∀ (s : State) (b : BayId) (v : BitVec 64), StateInv s → pgState s (.doc b) = 2 → Rising (bayOf s b).doc.dmem → Rising (bayOf s b).doc.imem →
    ∃ t, exec (.memDataAccess b (some v)) s = .next t ∧
      (List.range 8).map (fun i => mget 0 (if rd s (.doc b) docMemAddrSpace = 1 then (bayOf t b).doc.dmem else (bayOf t b).doc.imem)
        (8 * rd s (.doc b) docMemAddrOffset + i)) = toLE 8 v.toNat ∧
      rd t (.doc b) docMemAddrOffset = (rd s (.doc b) docMemAddrOffset + 1) % 2 ^ 13 ∧
      FieldsBut [docMemAddrOffset.key (.doc b)] s t ∧ OtherBays b s t) ∧
  (∀ (s : State) (b : BayId), StateInv s → pgState s (.doc b) = 2 →
    ∃ t, exec (.memDataAccess b none) s = .next t ∧
      t.resp = toLE 8 (leNat ((List.range 8).map (fun i => mget 0 (docMemBytes s b).1 ((docMemBytes s b).2 + i)))) ∧
      rd t (.doc b) docMemAddrOffset = (rd s (.doc b) docMemAddrOffset + 1) % 2 ^ 13)

/-- TG.ID, the votes and the shuffles give every active thread its result and the path goes on: ID the item that rs1 names; VOTE.ANY, VOTE.ALL
and BALLOT what holds of rs1 over the active threads; a shuffle rs1 of the source lane, if it is active, else the thread's own. Fences,
TG.SCOPE, TG.YIELD and TG.EXIT: G and B fences only go on; D and S fences hold the path until it is released; SCOPE sets each active
thread's scope; YIELD goes on with DEFER set; EXIT ends the active threads of a block that goes on, and LIVE counts down. -/
def Obligations.ThreadGroupsExchangeFenceAndExit : Prop :=
  (∀ (s : State) (b : BayId) (g : Fin 64) (gr : Group) (p : Path) (rest : List Path) (bl : Block) (rd' rs1 rs2 : Fin 32), StateInv s →
    GroupOn s b g gr p rest bl → rd' ≠ 0 →
    (∃ t gr', exec (.tgId b g rd' rs1) s = .next t ∧ GroupWent t b g gr gr' p rest .none ∧
      ∀ l ∈ lanesOf p.mask, thX (thOf gr' l) rd'.val = tgIdItem b gr bl l (thX (thOf gr l) rs1.val)) ∧
    (∃ t gr', exec (.tgVoteAny b g rd' rs1) s = .next t ∧ GroupWent t b g gr gr' p rest .none ∧
      ∀ l ∈ lanesOf p.mask, thX (thOf gr' l) rd'.val = if ∃ k ∈ lanesOf p.mask, thX (thOf gr k) rs1.val ≠ 0 then 1 else 0) ∧
    (∃ t gr', exec (.tgVoteAll b g rd' rs1) s = .next t ∧ GroupWent t b g gr gr' p rest .none ∧
      ∀ l ∈ lanesOf p.mask, thX (thOf gr' l) rd'.val = if ∀ k ∈ lanesOf p.mask, thX (thOf gr k) rs1.val ≠ 0 then 1 else 0) ∧
    (∃ t gr', exec (.tgBallot b g rd' rs1) s = .next t ∧ GroupWent t b g gr gr' p rest .none ∧
      ∀ l ∈ lanesOf p.mask, ∀ i, i < 64 →
        ((thX (thOf gr' l) rd'.val).getLsbD i = true ↔ i ∈ lanesOf p.mask ∧ thX (thOf gr i) rs1.val ≠ 0)) ∧
    (∃ t gr', exec (.tgShflIdx b g rd' rs1 rs2) s = .next t ∧ GroupWent t b g gr gr' p rest .none ∧
      ∀ l ∈ lanesOf p.mask, thX (thOf gr' l) rd'.val = (let k := (thX (thOf gr l) rs2.val).toNat % 32
        if k ∈ lanesOf p.mask then thX (thOf gr k) rs1.val else thX (thOf gr l) rs1.val)) ∧
    (∃ t gr', exec (.tgShflUp b g rd' rs1 rs2) s = .next t ∧ GroupWent t b g gr gr' p rest .none ∧
      ∀ l ∈ lanesOf p.mask, thX (thOf gr' l) rd'.val = (let k := (thX (thOf gr l) rs2.val).toNat % 32
        if k ≤ l ∧ l - k ∈ lanesOf p.mask then thX (thOf gr (l - k)) rs1.val else thX (thOf gr l) rs1.val)) ∧
    (∃ t gr', exec (.tgShflDn b g rd' rs1 rs2) s = .next t ∧ GroupWent t b g gr gr' p rest .none ∧
      ∀ l ∈ lanesOf p.mask, thX (thOf gr' l) rd'.val = (let k := (thX (thOf gr l) rs2.val).toNat % 32
        if l + k ∈ lanesOf p.mask then thX (thOf gr (l + k)) rs1.val else thX (thOf gr l) rs1.val)) ∧
    (∃ t gr', exec (.tgShflXor b g rd' rs1 rs2) s = .next t ∧ GroupWent t b g gr gr' p rest .none ∧
      ∀ l ∈ lanesOf p.mask, thX (thOf gr' l) rd'.val = (let k := (thX (thOf gr l) rs2.val).toNat % 32
        if l ^^^ k ∈ lanesOf p.mask then thX (thOf gr (l ^^^ k)) rs1.val else thX (thOf gr l) rs1.val))) ∧
  (∀ (s : State) (b : BayId) (g : Fin 64) (gr : Group) (p : Path) (rest : List Path) (bl : Block), StateInv s → GroupOn s b g gr p rest bl →
    (∃ t gr', exec (.tgFenceG b g) s = .next t ∧ GroupWent t b g gr gr' p rest .none) ∧
    (∃ t gr', exec (.tgFenceB b g) s = .next t ∧ GroupWent t b g gr gr' p rest .none) ∧
    (∃ t gr', exec (.tgFenceD b g) s = .next t ∧ GroupWent t b g gr gr' p rest (.fence false)) ∧
    (∃ t gr', exec (.tgFenceS b g) s = .next t ∧ GroupWent t b g gr gr' p rest (.fence true)) ∧
    (∀ rs1 : Fin 32, ∃ t gr', exec (.tgScope b g rs1) s = .next t ∧ GroupWent t b g gr gr' p rest .none ∧
      ∀ l ∈ lanesOf p.mask, (thOf gr' l).scope = BitVec.ofNat 2 (thX (thOf gr l) rs1.val).toNat) ∧
    (∃ t gr', exec (.tgYield b g) s = .next t ∧ GroupWent t b g gr gr' p rest p.hold ∧ (gr'.paths.map (·.defer)).head? = some true ∧
      gr'.keep = false)) ∧
  (∀ (s : State) (b : BayId) (g : Fin 64) (gr : Group) (p : Path) (rest : List Path) (bl : Block), StateInv s → GroupOn s b g gr p rest bl →
    (lanesOf p.mask).length < bl.live → bl.live ≤ 1024 →
    ∃ t, exec (.tgExit b g) s = .next t ∧
      rd t (.tgu b) (tguBlkLive gr.block.val) = bl.live - (lanesOf p.mask).length ∧
      (∃ bl', blockOf t b gr.block.val = some bl' ∧ bl'.live = bl.live - (lanesOf p.mask).length) ∧
      (rest = [] → groupOf t b g.val = none)) ∧
  (∀ (s : State) (b : BayId) (g : Fin 64) (lane : Fin 32) (gr : Group) (p : Path) (rest : List Path), StateInv s → pgWorks s (.tgu b) = true →
    groupOf s b g.val = some gr → gr.paths = p :: rest → bitOf p.mask.toNat lane.val = true → p.hold = .fence false →
    ∃ t gr', exec (.tgFenceDone b g lane) s = .next t ∧ groupOf t b g.val = some gr' ∧ gr'.paths.head? = some { p with hold := .none })

/-- Barriers: where another group of the block has a thread that has not arrived, TG.BAR holds the path at its barrier and TG.BAR.ARV goes on,
and both mark its threads as arrived; the paths held at a completed phase resume; a phase stranded past its timeout takes TGU to FAULT.
Locks: TG.LOCK by one active thread takes a lock that reads 0 within the window: rd is 1 and the lock holds the thread's identity; TG.UNLOCK
writes 0. -/
def Obligations.BarriersAndLocksHoldAndRelease : Prop :=
  (∀ (s : State) (b : BayId) (g g' : Fin 64) (gr gr2 : Group) (p : Path) (rest : List Path) (bl : Block) (rs1 : Fin 32) (n : Fin 16) (l' : Nat),
    StateInv s → GroupOn s b g gr p rest bl → bl.barriers = [] → g' ≠ g → groupOf s b g'.val = some gr2 → gr2.block = gr.block →
    gr2.num ≠ gr.num → l' ∈ liveLanes gr2 → (∀ l ∈ lanesOf p.mask, (thX (thOf gr l) rs1.val).toNat % 16 = n.val) →
    (∃ t gr' bl', exec (.tgBar b g rs1) s = .next t ∧ GroupWent t b g gr gr' p rest (.barrier n) ∧ blockOf t b gr.block.val = some bl' ∧
      ∀ l ∈ lanesOf p.mask, tidOf gr l ∈ (mget {} bl'.barriers n.val).arrived) ∧
    (∃ t gr' bl', exec (.tgBarArv b g rs1) s = .next t ∧ GroupWent t b g gr gr' p rest .none ∧ blockOf t b gr.block.val = some bl' ∧
      ∀ l ∈ lanesOf p.mask, tidOf gr l ∈ (mget {} bl'.barriers n.val).arrived)) ∧
  (∀ (s : State) (b : BayId) (k : Fin 8) (n : Fin 16) (g : Fin 64) (gr : Group), StateInv s → pgWorks s (.tgu b) = true →
    groupOf s b g.val = some gr → gr.block = k →
    ∃ t gr', exec (.barrierResume b k n) s = .next t ∧ groupOf t b g.val = some gr' ∧
      gr'.paths = gr.paths.map (fun p => if p.hold = .barDone n then { p with hold := .none } else p)) ∧
  (∀ (s : State) (b : BayId) (k : Fin 8) (n : Fin 16) (bl : Block), StateInv s → pgState s (.tgu b) = 4 → blockOf s b k.val = some bl →
    (mget {} bl.barriers n.val).begun = true → rd s (.tgu b) hdrErr = 0 →
    ∃ t, exec (.barrierStranded b k n) s = .next t ∧ pgState t (.tgu b) = 6 ∧ bitOf (rd t (.tgu b) hdrErr) 17 = true ∧
      rd t (.tgu b) tguStrandBarrier = n.val ∧ rd t (.tgu b) tguStrandBlock = k.val) ∧
  (∀ (s : State) (b : BayId) (g : Fin 64) (gr : Group) (p : Path) (rest : List Path) (bl : Block) (rd' rs1 : Fin 32) (l a : Nat), StateInv s →
    GroupOn s b g gr p rest bl → lanesOf p.mask = [l] → rd' ≠ 0 → (thX (thOf gr l) rs1.val).toNat = a → a % 8 = 0 →
    fieldAt bl.launch.bytes 24 8 ≤ a → a < fieldAt bl.launch.bytes 24 8 + fieldAt bl.launch.bytes 20 4 →
    (storeOf s b).carried = [] → (storeOf s b).poison = [] → (storeOf s b).ue = [] → Rising (storeOf s b).bytes →
    (leNat (stBytes (storeOf s b) (fieldAt bl.launch.bytes 16 4 + (a - fieldAt bl.launch.bytes 24 8)) 8) = 0 →
      ∃ t gr', exec (.tgLock b g rd' rs1) s = .next t ∧ GroupWent t b g gr gr' p rest p.hold ∧ thX (thOf gr' l) rd'.val = 1 ∧
        stBytes (storeOf t b) (fieldAt bl.launch.bytes 16 4 + (a - fieldAt bl.launch.bytes 24 8)) 8 =
          toLE 8 (8192 * b.val + 1024 * gr.block.val + tidOf gr l + 1)) ∧
    (leNat (stBytes (storeOf s b) (fieldAt bl.launch.bytes 16 4 + (a - fieldAt bl.launch.bytes 24 8)) 8) ≠ 0 →
      ∃ t gr', exec (.tgLock b g rd' rs1) s = .next t ∧ GroupWent t b g gr gr' p rest p.hold ∧ thX (thOf gr' l) rd'.val = 0 ∧
        (storeOf t b).bytes = (storeOf s b).bytes) ∧
    (∃ t gr', exec (.tgUnlock b g rs1) s = .next t ∧ GroupWent t b g gr gr' p rest p.hold ∧
      stBytes (storeOf t b) (fieldAt bl.launch.bytes 16 4 + (a - fieldAt bl.launch.bytes 24 8)) 8 = toLE 8 0))

/-- A group's flags and engine operations: TG.FSIG signals its flag or counter; TG.FTEST reads it; TG.FWAIT, TG.MTX and TG.GTH hold the path
until the wait is satisfied or the engine takes the operation, in its turn, and it then goes on. Blocks and threads: a sound launch whose
slots are free becomes resident, with LAUNCHED counting it; a thread instruction that is fetched from the instruction cache runs in every
active thread (ADDI); TGU_ISSUE runs the only ready group; a block whose last thread has exited completes and COMPLETED counts it. -/
def Obligations.ThreadGroupsSubmitAndBlocksComplete : Prop :=
  (∀ (s : State) (b : BayId) (g : Fin 64) (gr : Group) (p : Path) (rest : List Path) (bl : Block) (rs1 rs2 : Fin 32) (w : Nat), StateInv s →
    GroupOn s b g gr p rest bl → (thX (thOf gr (firstLane p)) rs1.val).toNat % 256 = w → byteV w = true → byteBad w = false →
    (∃ t gr', exec (.tgFsig b g rs1) s = .next t ∧ GroupWent t b g gr gr' p rest .none ∧
      (byteK w = false → flagIs t b (byteIdx w) = true) ∧
      (byteK w = true → cnt t b (byteIdx w) = (cnt s b (byteIdx w) + 1) % 2 ^ 32)) ∧
    (∃ t gr', exec (.tgFwait b g rs1 rs2) s = .next t ∧
      GroupWent t b g gr gr' p rest (.fwait (BitVec.ofNat 8 w) (BitVec.ofNat 32 (thX (thOf gr (firstLane p)) rs2.val).toNat))) ∧
    (∀ rd' : Fin 32, rd' ≠ 0 → ∃ t gr', exec (.tgFtest b g rd' rs1) s = .next t ∧ GroupWent t b g gr gr' p rest .none ∧
      ∀ l ∈ lanesOf p.mask, thX (thOf gr' l) rd'.val =
        BitVec.ofNat 64 (if byteK w then cnt s b (byteIdx w) else b2n (flagIs s b (byteIdx w))))) ∧
  (∀ (s : State) (b : BayId) (g : Fin 64) (gr : Group) (p : Path) (rest : List Path) (bl : Block) (rs1 rs2 : Fin 32) (v : Nat), StateInv s →
    GroupOn s b g gr p rest bl →
    (thX (thOf gr (firstLane p)) rs1.val).toNat + 2 ^ 64 * (thX (thOf gr (firstLane p)) rs2.val).toNat = v → xtgBad v = false →
    (bits v 127 79 = 0 → ∃ t gr', exec (.tgGth b g rs1 rs2) s = .next t ∧ ∃ e : Fin 2, e.val = bits v 20 20 ∧
      GroupWent t b g gr gr' p rest (.gth e (gthOpOf v) (BitVec.ofNat 8 (bits v 15 8)))) ∧
    (bits v 127 126 = 0 → bits v 22 20 + 2 ^ bits v 24 23 ≤ arrCount s b →
      ∃ t gr', exec (.tgMtx b g rs1 rs2) s = .next t ∧ GroupWent t b g gr gr' p rest (.mtx (mtxOf v) (BitVec.ofNat 8 (bits v 15 8))))) ∧
  (∀ (s : State) (b : BayId) (g : Fin 64) (lane : Fin 32) (gr : Group) (p : Path) (rest : List Path), StateInv s → pgWorks s (.tgu b) = true →
    groupOf s b g.val = some gr → gr.paths = p :: rest → bitOf p.mask.toNat lane.val = true →
    (∀ w t', p.hold = .fwait w t' → waitOk s b w.toNat t'.toNat = true → fwaitFirst s b gr p w.toNat = true →
      ∃ t gr', exec (.tgFwaitSatisfied b g lane) s = .next t ∧ groupOf t b g.val = some gr' ∧
        gr'.paths.head? = some { p with hold := .none } ∧ (byteV w.toNat = true → byteK w.toNat = false → flagIs t b (byteIdx w.toNat) = false)) ∧
    (∀ op sig u, p.hold = .mtx op sig → mmaAccepts s b op = true → xtgFirst s b gr p.hold = true →
      ∃ t gr', exec (.xtgHandshake b g lane u) s = .next t ∧ groupOf t b g.val = some gr' ∧ gr'.paths.head? = some { p with hold := .none })) ∧
  (∀ (s : State) (b : BayId) (l : Launch) (rest : List Launch), StateInv s → pgState s (.tgu b) = 4 → (tguOf s b).queue = l :: rest →
    launchBad l.desc l.bytes = false → (∃ k : Fin 8, blockOf s b k.val = none) →
    (fieldAt l.bytes 8 4 + 31) / 32 ≤ ((List.range 64).filter (fun g => (groupOf s b g).isNone)).length →
    ∃ t, exec (.blockResident b) s = .next t ∧ (tguOf t b).queue = rest ∧
      rd t (.tgu b) tguLaunched = (rd s (.tgu b) tguLaunched + 1) % 2 ^ 32 ∧
      ∃ (k : Fin 8) (bl : Block), blockOf s b k.val = none ∧ blockOf t b k.val = some bl ∧ bl.launch = l ∧ bl.threads = fieldAt l.bytes 8 4 ∧
        bl.live = fieldAt l.bytes 8 4) ∧
  (∀ (s s1 : State) (b : BayId) (g : Fin 64) (chk : Check) (gr : Group) (p : Path) (rest : List Path) (bl : Block) (pa w : Nat) (x : Byte)
    (ln : List Byte), StateInv s → GroupOn s b g gr p rest bl → groupReady s b g = some (gr, p, rest, s1) →
    bayXlate s1 b 25 p.pc.toNat .exec = (.ok pa, s1) → inDram s1 pa 4 = true → mget [] (tguOf s b).icache (pa / 64) = x :: ln →
    fieldAt (x :: ln) (pa % 64) 4 = w → w % 128 = 0x13 → bits w 14 12 = 0 → bits w 11 7 ≠ 0 →
    ∃ t gr', exec (.threadInstruction b g chk .none) s = .next t ∧ GroupWent t b g gr gr' p rest p.hold ∧
      ∀ l ∈ lanesOf p.mask, thX (thOf gr' l) (bits w 11 7) = thX (thOf gr l) (bits w 19 15) + BitVec.ofInt 64 (sbits w 31 20) ∧
        (thOf gr' l).instret = (thOf gr l).instret + 1) ∧
  (∀ (s : State) (b : BayId) (ready : BitVec 64) (g : Fin 64) (o n w : Nat), StateInv s → pgWorks s (.tgu b) = true →
    readyGroups s b ready = [(g, o, n, w)] → Rising (tguOf s b).groups →
    ∃ s', exec (.tguIssue b ready) s = .next (threadStep s' b g .ok) ∧ s'.regs = s.regs ∧
      ∀ k, k < 64 → groupOf s' b k = (groupOf s b k).map (fun gr => { gr with waited := 0 })) ∧
  (∀ (s : State) (b : BayId) (k : Fin 8) (l : Launch) (rest : List (Nat × Launch)), StateInv s → pgState s (.tgu b) ≠ 0 →
    (tguOf s b).ended = (k.val, l) :: rest →
    ∃ t, exec (.blockComplete b k) s = .next t ∧ (tguOf t b).ended = rest ∧
      rd t (.tgu b) tguCompleted = (rd s (.tgu b) tguCompleted + 1) % 2 ^ 32 ∧ bitOf (rd t (.tgu b) hdrEvt) 16 = true)

/-- The cores: a core that has fetched an ADDI and has no interrupt to take adds its immediate and goes on; an ECALL in machine mode takes cause
11, its address in mepc and its handler at mtvec; a register parity mismatch takes the core to FAULT with PROTOCOL; a chunk of the oldest L1
fill of the fetch or the data side arrives, the fourth ends the fill; an error that SECDED corrects in the core's own caches counts in
CE_COUNT; an uncorrectable one of a clean line counts in UE_COUNT and invalidates the line there. The cache-block operations of a core in
machine mode, on a line that nothing holds up: CLEAN leaves no dirty copy, FLUSH and INVAL leave no copy, ZERO leaves zeros in the core's
copy; each goes on at the next instruction. -/
def Obligations.CoresRunAndActOnCacheBlocks : Prop :=
  (∀ (s s1 : State) (n : CoreId) (d : List Byte) (w : Nat), StateInv s1 → pgState s (.core n) = 4 → coreIntr s n = none →
    coreFetch s n = (.ok d, s1) → d.length = 4 → leNat d = w → w % 128 = 0x13 → bits w 14 12 = 0 → bits w 11 7 ≠ 0 →
    Rising (hartOf s1 n).x →
    ∃ t, exec (.coreInstruction n .none) s = .next t ∧ corePcV t n = corePcV s1 n + 4 ∧
      coreX t n (bits w 11 7) = coreX s1 n (bits w 19 15) + BitVec.ofInt 64 (sbits w 31 20) ∧
      (∀ r, r ≠ bits w 11 7 → coreX t n r = coreX s1 n r) ∧ FieldsBut [corePc.key (.core n)] s1 t ∧
      (∀ m, m ≠ n → hartOf t m = hartOf s1 m)) ∧
  (∀ (s s1 : State) (n : CoreId) (d : List Byte), StateInv s1 → pgState s (.core n) = 4 → coreIntr s n = none →
    coreFetch s n = (.ok d, s1) → d.length = 4 → leNat d = 0x73 → modeOf s1 n = 3 → Rising (hartOf s1 n).csr →
    ∃ t, exec (.coreInstruction n .none) s = .next t ∧ csrOf t n 0x342 = 11 ∧ csrOf t n 0x341 = rd s1 (.core n) corePc ∧ modeOf t n = 3 ∧
      (corePcV t n).toNat = csrOf s1 n 0x305 / 4 * 4) ∧
  (∀ (s : State) (n : CoreId) (file : Fin 3), StateInv s → pgState s (.core n) = 4 →
    ∃ t, exec (.registerParityMismatch n file) s = .next t ∧ pgState t (.core n) = 6 ∧ bitOf (rd t (.core n) hdrErr) 6 = true) ∧
  (∀ (s : State) (n : CoreId) (fetch : Bool) (f : BitVec 34 × Fin 4 × Nat) (l : List (BitVec 34 × Fin 4 × Nat)), StateInv s →
    fillsOf (hartOf s n) fetch = f :: l →
    ∃ t, exec (.l1FillChunk n fetch) s = .next t ∧ fillsOf (hartOf t n) fetch = (if f.2.2 = 3 then l else (f.1, f.2.1, f.2.2 + 1) :: l) ∧
      fillsOf (hartOf t n) (!fetch) = fillsOf (hartOf s n) (!fetch) ∧ (∀ m, m ≠ n → hartOf t m = hartOf s m)) ∧
  (∀ (s : State) (n : CoreId), StateInv s → pgState s (.core n) = 4 →
    exec (.coreInstruction n .corrected) s = exec (.coreInstruction n .none) (satAdd s (.core n) coreCeCount 1)) ∧
  (∀ (s : State) (n : CoreId) (lv : PrivLevel) (line : BitVec 34), StateInv s → pgState s (.core n) = 4 →
    privHas (hartOf s n) lv line.toNat = true → privDirty (hartOf s n) lv line.toNat = false →
    exec (.coreInstruction n (.dataUe lv line)) s =
      exec (.coreInstruction n .none) (modHart (satAdd s (.core n) coreUeCount 1) n (privDropFrom lv line.toNat))) ∧
  (∀ (s : State) (n : CoreId) (va : BitVec 64), StateInv s → Rising s.coh.agents → pgState s (.core n) = 4 → dataMode s n .read = 3 →
    modeOf s n = 3 → inDram s (va.toNat / 64 * 64) 64 = true → lineBusy s (coreDie n) (va.toNat / 64) true = false →
    (∃ t, exec (.cboClean n va) s = .next t ∧ corePcV t n = corePcV s n + 4 ∧
      ∀ a, isDirty (agentOf t a (va.toNat / 64)).st = false) ∧
    (∃ t, exec (.cboFlush n va) s = .next t ∧ corePcV t n = corePcV s n + 4 ∧ ∀ a, (agentOf t a (va.toNat / 64)).st = .I) ∧
    (∃ t, exec (.cboInval n va) s = .next t ∧ corePcV t n = corePcV s n + 4 ∧ ∀ a, (agentOf t a (va.toNat / 64)).st = .I) ∧
    (∃ t, exec (.cboZero n va) s = .next t ∧ corePcV t n = corePcV s n + 4 ∧
      ((agentOf t (coreAgent n) (va.toNat / 64)).st = .M → (agentOf t (coreAgent n) (va.toNat / 64)).data = List.replicate 64 0)))

/-- Fabric ports train: the third identical identity frame of another place names the neighbour and, once the port has sent its own three,
begins training; a control record from that neighbour with enough lanes brings the port up; a training that fails starts again from the
identity phase and keeps what waits; four agreeing pulses change the neighbour's received state, and a pulse shorter than 125 ns changes
nothing. Flits of a fabric port: an intact packet flit with the expected number is taken and counted; a bad one makes the port discard and
NAK; the replay answers a NAK, and the eighth of one number trains again; a lane whose codewords are lost is mapped out, and the port goes
on with the others. -/
def Obligations.FabricPortsTrainAndCarry : Prop :=
  (∀ (s : State) (p : Fin 32) (bytes : List Byte), StateInv s → portOn s p = true → lstate s p = 1 → frameOk bytes = true →
    bytes = (portOf s p).lastFrame → 2 ≤ (portOf s p).sameFrames → fieldAt bytes 1 2 ≠ myPlace s → held s = false →
    ∃ t, exec (.identityFrame p bytes) s = .next t ∧ lstate t p = (if (portOf s p).identAt + 18600 ≤ rd s .hub hubTimer then 2 else 1) ∧ rd t (.fport p) fpNbrIdPlace = fieldAt bytes 1 2 ∧
      rd t (.fport p) fpNbrIdPort = fieldAt bytes 3 1 % 32 ∧ rd t (.fport p) fpNbrIdValid = 1) ∧
  (∀ (s : State) (p : Fin 32) (r : PeerRecord), StateInv s → portOn s p = true → lstate s p = 2 →
    r.place.toNat = rd s (.fport p) fpNbrIdPlace →
    rd s (.fport p) fpCfgMinWidth ≤ lanesIn (laneAnd r.lanes.toNat (rd s (.fport p) fpCfgLanes)) →
    ∃ t, exec (.portTrain p r) s = .next t ∧ lstate t p = 3 ∧
      rd t (.fport p) fpLinkLanesUp = laneAnd r.lanes.toNat (rd s (.fport p) fpCfgLanes) ∧ rd t (.fport p) fpNbrEpochEpoch = r.epoch.toNat ∧
      rd t (.fport p) fpTrains = (rd s (.fport p) fpTrains + 1) % 2 ^ fpTrains.width ∧ bitOf (rd t (.fport p) hdrEvt) 16 = true) ∧
  (∀ (s : State) (p : Fin 32), StateInv s → portOn s p = true → lstate s p = 2 →
    ∃ t, exec (.trainFail p) s = .next t ∧ lstate t p = 1 ∧ bitOf (rd t (.fport p) hdrErr) 19 = true ∧
      portOf t p = { portOf s p with identAt := rd s .hub hubTimer, lastHb := 3, sameHb := 0 }) ∧
  (∀ (s : State) (p : Fin 32) (highNs : Nat), StateInv s → held s = false → 125 ≤ highNs → highNs < 900 →
    (portOf s p).lastHb = hbDecode highNs → 3 ≤ (portOf s p).sameHb → rd s (.fport p) fpSbNbrHb ≠ hbDecode highNs →
    ∃ t, exec (.heartbeat p highNs) s = .next t ∧ rd t (.fport p) fpSbNbrHb = hbDecode highNs ∧ bitOf (rd t (.fport p) hdrEvt) 19 = true) ∧
  (∀ (s : State) (p : Fin 32) (highNs : Nat), highNs < 125 → ∃ t, exec (.heartbeat p highNs) s = .next t ∧ t = s) ∧
  (∀ (s : State) (p : Fin 32) (f : FabricFlit) (fec : Fec) (second : Bool) (k : Packet), StateInv s → portOn s p = true → lstate s p = 3 →
    f.kind = 1 → f.seq = (portOf s p).rxSeq → f.body = .packet k → fec ≠ .uncorrectable →
    ∃ t, exec (.fabricFlit p f fec second true) s = .next t ∧ (portOf t p).ingress = (portOf s p).ingress ++ [k] ∧
      (portOf t p).rxSeq = f.seq + 1 ∧ (portOf t p).discarding = false ∧
      rd t (.fport p) fpFecCw = (if second then rd s (.fport p) fpFecCw else (rd s (.fport p) fpFecCw + 1) % 2 ^ fpFecCw.width) ∧
      FieldsBut [fpFecCw.key (.fport p), fpFecCorr.key (.fport p)] s t) ∧
  (∀ (s : State) (p : Fin 32) (f : FabricFlit) (fec : Fec) (crcOk : Bool), StateInv s → portOn s p = true → lstate s p = 3 →
    (portOf s p).discarding = false → fec = .uncorrectable ∨ crcOk = false →
    ∃ t, exec (.fabricFlit p f fec true crcOk) s = .next t ∧ portOf t p = { portOf s p with discarding := true, nakDue := true } ∧
      rd t (.fport p) fpNaks = min (rd s (.fport p) fpNaks + 1) (2 ^ fpNaks.width - 1)) ∧
  (∀ (s : State) (p : Fin 32), StateInv s → portOn s p = true → lstate s p = 3 → (portOf s p).nak = true → (portOf s p).nakCount < 8 →
    ∃ t, exec (.fabricReplay p) s = .next t ∧ portOf t p = { portOf s p with nak := false } ∧
      t.resp = (portOf s p).buffer.flatMap (fun f => fabricBytes { f with ack := (portOf s p).rxSeq - 1 }) ∧
      t = { s with ports := t.ports, resp := t.resp }) ∧
  (∀ (s : State) (p : Fin 32), StateInv s → portOn s p = true → lstate s p = 3 → (portOf s p).nak = true → 8 ≤ (portOf s p).nakCount →
    ∃ t, exec (.fabricReplay p) s = .next t ∧ lstate t p = 2 ∧ (portOf t p).nak = false ∧ (portOf t p).buffer = (portOf s p).buffer) ∧
  (∀ (s : State) (p : Fin 32) (c : List Nat) (lost : BitVec 8) (i : Fin 8), StateInv s → portOn s p = true → lstate s p = 3 →
    bitOf (rd s (.fport p) fpLinkLanesUp) i.val = true → lost.getLsbD i.val = true →
    ∃ t, exec (.fecWindow p c lost) s = .next t ∧ lstate t p = 4 ∧ bitOf (rd t (.fport p) fpLaneFail) i.val = true) ∧
  (∀ (s : State) (p : Fin 32) (lane : Fin 8), StateInv s → lstate s p = 4 → bitOf (rd s (.fport p) fpLinkLanesUp) lane.val = true →
    bitOf (rd s (.fport p) fpLaneFail) lane.val = true →
    rd s (.fport p) fpCfgMinWidth ≤ lanesIn (clrBit (rd s (.fport p) fpLinkLanesUp) lane.val) →
    laneAnd (clrBit (rd s (.fport p) fpLinkLanesUp) lane.val) (rd s (.fport p) fpLaneFail) = 0 →
    ∃ t, exec (.laneRemap p lane) s = .next t ∧ lstate t p = 3 ∧
      rd t (.fport p) fpLinkLanesUp = clrBit (rd s (.fport p) fpLinkLanesUp) lane.val ∧ bitOf (rd t (.fport p) hdrEvt) 18 = true)

/-- Routing: a packet for this module reaches its endpoint; one for another place leaves through the port that the route table chooses, its HOPS
counted, in a flit that acknowledges and returns the credits owed; one with 63 hops is dropped; a packet taken from a port's buffer frees
it. A route entry is replaced; an 8-byte catalogue write stores the place and VALID. Flow commands: OPEN opens a CLOSED flow with PSNs and
epoch cleared and counts it; CLOSE closes a flow with nothing outstanding, and one that waits closes when its last packet has gone; RESET
closes at once; a translation domain takes its root and loses its translations. -/
def Obligations.RoutersForwardAndFlowsOpen : Prop :=
  (∀ (s : State) (f : Fin 2) (k : Packet), StateInv s → pgState s (.router f) = 4 ∨ pgState s (.router f) = 7 → (f, k) ∈ s.netOut →
    k.dstPlace.toNat = myPlace s →
    ∃ t, exec (.routeLookup f k) s = .next t ∧ t = { s with netOut := s.netOut.erase (f, k), netIn := s.netIn ++ [k] }) ∧
  (∀ (s : State) (f : Fin 2) (k : Packet) (p : Fin 32), StateInv s → pgState s (.router f) = 4 ∨ pgState s (.router f) = 7 → (f, k) ∉ s.netOut →
    p.val / 16 = f.val → k ∈ (portOf s p).ingress → (∀ q : Fin 32, q < p → k ∉ (portOf s q).ingress) → k.dstPlace.toNat = myPlace s →
    ∃ t, exec (.routeLookup f k) s = .next t ∧ (portOf t p).ingress = (portOf s p).ingress.erase k ∧
      mget 0 (portOf t p).owed (vcOf k.cls k.level) = mget 0 (portOf s p).owed (vcOf k.cls k.level) + 1 ∧
      t = { s with ports := t.ports, netIn := s.netIn ++ [k] }) ∧
  (∀ (s : State) (f : Fin 2) (k : Packet), StateInv s → pgState s (.router f) = 4 ∨ pgState s (.router f) = 7 → (f, k) ∈ s.netOut →
    k.dstPlace.toNat ≠ myPlace s → k.hops = 63 →
    ∃ t, exec (.routeLookup f k) s = .next t ∧ t.netOut = s.netOut.erase (f, k) ∧ t.ports = s.ports ∧ bitOf (rd t (.router f) hdrErr) 17 = true ∧
      rd t (.router f) rtrHopdrop = min (rd s (.router f) rtrHopdrop + 1) (2 ^ rtrHopdrop.width - 1)) ∧
  (∀ (s : State) (f : Fin 2) (k : Packet) (p : Fin 32) (dl : Bool), StateInv s → pgState s (.router f) = 4 ∨ pgState s (.router f) = 7 →
    (f, k) ∈ s.netOut → k.dstPlace.toNat ≠ myPlace s → k.hops ≠ 63 → routeChoice s f k = some (p, dl) → (portOf s p).egress = [] →
    mget 128 (portOf s p).credits (vcOf k.cls (k.level || dl)) ≠ 0 → (portOf s p).buffer.length < 512 → s.pins.jtag ≠ .boundaryScan →
    ∃ t, exec (.routeLookup f k) s = .next t ∧ (portOf t p).egress = [] ∧ (portOf t p).txSeq = (portOf s p).txSeq + 1 ∧ (portOf t p).owed = [] ∧
      (portOf t p).nakDue = false ∧
      ∃ v : FabricFlit, (portOf t p).buffer = (portOf s p).buffer ++ [v] ∧ v.seq = (portOf s p).txSeq ∧ v.kind = 1 ∧
        v.ack = (portOf s p).rxSeq - 1 ∧ v.nak = (portOf s p).nakDue ∧ v.vc.val = vcOf k.cls (k.level || dl) ∧
        v.credit = (List.range 4).map (mget 0 (portOf s p).owed) ∧
        v.body = .packet { k with hops := k.hops + 1, level := k.level || dl }) ∧
  (∀ (s : State) (f : Fin 2) (e : BitVec 32), StateInv s →
    ∃ t, exec (.rtDataWrite f e) s = .next t ∧ routeOf t f (rd s (.router f) rtrRtIndex) = e.toNat ∧ t = { s with routes := t.routes } ∧
      (∀ f' place, place < 65536 → f' ≠ f ∨ place ≠ rd s (.router f) rtrRtIndex → routeOf t f' place = routeOf s f' place)) ∧
  (∀ (s : State) (r : Fin 16384) (v : BitVec 64), StateInv s → s.flows = [] →
    ∃ t, exec (.catalogueWrite r 8 v) s = .next t ∧ t = { s with catalogue := t.catalogue } ∧
      (mget 0 t.catalogue r.val).toNat = v.toNat % 65536 + v.toNat / 2 ^ 63 * 2 ^ 63 ∧
      (∀ r', r' ≠ r.val → mget 0 t.catalogue r' = mget 0 s.catalogue r')) ∧
  (∀ (s : State) (f : Fin 2), StateInv s → flwSt (flw s (selFlow s f)) = 0 →
    ∃ t, exec (.flowOpen f) s = .next t ∧ flwSt (flw t (selFlow s f)) = 1 ∧ (flw t (selFlow s f)).ctx1 = 0 ∧
      (flw t (selFlow s f)).epochKnown = false ∧ (flw t (selFlow s f)).ctx2 = (flw s (selFlow s f)).ctx2 ∧
      rd t (.flow f) flowOpen = (rd s (.flow f) flowOpen + 1) % 2 ^ flowOpen.width ∧
      (∀ i, i ≠ selFlow s f → flw t i = flw s i)) ∧
  (∀ (s : State) (f : Fin 2), StateInv s → flwSt (flw s (selFlow s f)) = 1 → (flw s (selFlow s f)).unacked = [] →
    ∃ t, exec (.flowClose f) s = .next t ∧ flwSt (flw t (selFlow s f)) = 0 ∧ (∀ i, i ≠ selFlow s f → flw t i = flw s i)) ∧
  (∀ (s : State) (f : Fin 2), StateInv s → flwSt (flw s (selFlow s f)) = 1 → (flw s (selFlow s f)).unacked ≠ [] →
    ∃ t, exec (.flowClose f) s = .next t ∧ flw t (selFlow s f) = { flw s (selFlow s f) with closing := true } ∧ t = { s with flows := t.flows }) ∧
  (∀ (s : State) (i : BitVec 18), StateInv s → flwSt (flw s i.toNat) = 1 → (flw s i.toNat).closing = true → (flw s i.toNat).unacked = [] →
    ∃ t, exec (.flowClosed i) s = .next t ∧ flwSt (flw t i.toNat) = 0 ∧ (flw t i.toNat).closing = false) ∧
  (∀ (s : State) (f : Fin 2), StateInv s → (flw s (selFlow s f)).owners = [] →
    ∃ t, exec (.flowReset f) s = .next t ∧ flwSt (flw t (selFlow s f)) = 0 ∧ (flw t (selFlow s f)).unacked = []) ∧
  (∀ (s : State) (f : Fin 2) (n : Fin 64) (satp : BitVec 64), StateInv s → pgState s (.flow f) ≠ 0 →
    ∃ t, exec (.domWrite f n satp) s = .next t ∧ rd t (.flow f) (flowDom n.val) = satp.toNat ∧
      (mget {} t.flowDies f.val).tlb = (mget {} s.flowDies f.val).tlb.filter (fun x => x.1 != n.val) ∧
      FieldsBut [(flowDom n.val).key (.flow f)] s t)

/-- Requests at their target: where the checks pass, the packet is new and nothing holds its address up, a WRITE is answered with an ACK, an in-
order READ within one block with its READ_RSP, an ATOMIC with the old value, and a MSG with an ACK; a request for another rank is answered
with a NAK; a NAK of RXQ_FULL marks the flow. Answers at their source: a READ_RSP that is not the last of its READ writes its bytes to the
gather engine's bay store and is recorded; an ATOMIC_RSP and an ACK end the packets they answer; a NAK of RXQ_FULL marks the flow;
RETRANSMIT sends every unacknowledged packet again and counts, and after RETRY.MAX times the flow enters ERROR. -/
def Obligations.PacketsAreAnsweredAndTaken : Prop :=
  (∀ (s s2 : State) (k : Packet) (pa : Nat), StateInv s → targetStatus s k = 0 → rxNew (flw s k.dstFlow.toNat) k.psn.toNat = true →
    domRange (learnEpoch s k.dstFlow.toNat k.srcEpoch) (flowDie k.dstFlow.toNat) (flwDomain (flw s k.dstFlow.toNat)) k.addr.toNat k.len.toNat
      .write = (.inr [(pa, k.len.toNat)], s2) → k.len.toNat < 256 →
    ∃ t, exec (.writePacket k) s = .next t ∧
      t = ackFor (rxMark (cohPutBlocks s2 pa 29 (slice k.data 0 k.len.toNat) 0 k.poison) k.dstFlow.toNat k.psn.toNat) k ∧
      ∃ a, t.netOut.getLast? = some (flowDie k.dstFlow.toNat, a) ∧ a.op = 7 ∧ a.psn = k.psn ∧ a.dstRank = k.srcRank ∧ a.dstPlace = k.srcPlace) ∧
  (∀ (s s2 s3 : State) (k : Packet) (pa pb : Nat), StateInv s → targetStatus s k = 0 → rxNew (flw s k.dstFlow.toNat) k.psn.toNat = true →
    flwRx (flw s k.dstFlow.toNat) = k.psn.toNat → 0 < k.len.toNat → k.len.toNat < 256 → k.addr.toNat % 256 + k.len.toNat ≤ 256 →
    domRange (learnEpoch s k.dstFlow.toNat k.srcEpoch) (flowDie k.dstFlow.toNat) (flwDomain (flw s k.dstFlow.toNat)) k.addr.toNat k.len.toNat
      .read = (.inr [(pa, k.len.toNat)], s2) →
    domXlate s2 (flowDie k.dstFlow.toNat) (flwDomain (flw s2 k.dstFlow.toNat)) k.addr.toNat .read = (.ok pb, s3) →
    ∃ t, exec (.readPacket k .ok) s = .next t ∧
      ∃ a, t.netOut.getLast? = some (flowDie k.dstFlow.toNat, a) ∧ a.op = 3 ∧ a.psn = k.psn ∧ a.last = true ∧ a.data = (cohBytes s3 pb k.len.toNat 29 true .ok).1) ∧
  (∀ (s s2 : State) (k : Packet) (pa : Nat), StateInv s → targetStatus s k = 0 → rxNew (flw s k.dstFlow.toNat) k.psn.toNat = true →
    flwRx (flw s k.dstFlow.toNat) = k.psn.toNat → k.tag.toNat / 16 = 8 →
    domRange (learnEpoch s k.dstFlow.toNat k.srcEpoch) (flowDie k.dstFlow.toNat) (flwDomain (flw s k.dstFlow.toNat)) k.addr.toNat 8 .write =
      (.inr [(pa, 8)], s2) →
    ∃ t, exec (.atomicPacket k .ok) s = .next t ∧
      ∃ a, t.netOut.getLast? = some (flowDie k.dstFlow.toNat, a) ∧ a.op = 5 ∧ a.psn = k.psn ∧ a.dstRank = k.srcRank ∧
        a.data = toLE 8 (fieldAt (funcRead s2 (pa / 64) 29 true .ok).1 (pa % 64) 8)) ∧
  (∀ (s s2 : State) (k : Packet) (z : Bool) (hb : List Byte), StateInv s → targetStatus s k = 0 →
    rxNew (flw s k.dstFlow.toNat) k.psn.toNat = true → flwRx (flw s k.dstFlow.toNat) = k.psn.toNat →
    (flwTail (flw s k.dstFlow.toNat) + 2 ^ 32 - (flw s k.dstFlow.toNat).headSeen.toNat) % 2 ^ 32 <
      2 ^ ((flw s k.dstFlow.toNat).ctx3.toNat % 32) →
    domPut (setFlw (learnEpoch s k.dstFlow.toNat k.srcEpoch) k.dstFlow.toNat
        { flw (learnEpoch s k.dstFlow.toNat k.srcEpoch) k.dstFlow.toNat with headSeen := (flw s k.dstFlow.toNat).headSeen })
      (flowDie k.dstFlow.toNat) (flwDomain (flw s k.dstFlow.toNat))
      ((flw s k.dstFlow.toNat).ctx2.toNat / 256 * 256 + 512 * (flwTail (flw s k.dstFlow.toNat) % 2 ^ ((flw s k.dstFlow.toNat).ctx3.toNat % 32)))
      (slice k.data 0 256 ++ toLE 8 (k.srcRank.toNat + k.len.toNat % 512 * 65536 + flwTail (flw s k.dstFlow.toNat) * 2 ^ 32)) k.poison =
        (.ok hb z, s2) →
    ∃ t, exec (.msg k) s = .next t ∧ ∃ a, t.netOut.getLast? = some (flowDie k.dstFlow.toNat, a) ∧ a.op = 7 ∧ a.psn = k.psn ∧ a.dstRank = k.srcRank) ∧
  (∀ (s : State) (k : Packet), StateInv s → targetStatus s k = 2 →
    ∃ t, exec (.writePacket k) s = .next t ∧ exec (.msg k) s = .next t ∧ ∃ a, t.netOut = s.netOut ++ [(flowDie k.dstFlow.toNat, a)] ∧ a.op = 8 ∧ a.status = 2 ∧
      a.psn = k.psn ∧ a.dstRank = k.srcRank ∧ t = { s with netOut := t.netOut, netIn := s.netIn.erase k }) ∧
  (∀ (s : State) (k req : Packet) (o : FlowOwner) (b : BayId) (g : Fin 2) (id : Nat), StateInv s → rspCheck s k = (true, s) →
    (flw s k.dstFlow.toNat).owners = [o] → (flw s k.dstFlow.toNat).unacked = [req] → o.psn = k.psn.toNat → req.psn = k.psn →
    o.who = .gth b g id → o.got = [] → k.poison = false → k.carried = false → 0 < k.len.toNat → k.data.length = k.len.toNat →
    req.addr.toNat ≤ k.addr.toNat → k.addr.toNat + k.len.toNat ≤ req.addr.toNat + req.len.toNat →
    2 ≤ (req.addr.toNat + req.len.toNat - 1) / 256 - req.addr.toNat / 256 + 1 → (∀ r ∈ gthList s b g, ∀ x ∈ r.addrs, x.2 = false) →
    whoReach s o.who k.dstFlow.toNat = true →
    Rising (storeOf s b).bytes →
    ∃ t, exec (.readRsp k) s = .next t ∧
      stBytes (storeOf t b) (o.dst.toNat + (k.addr.toNat - req.addr.toNat)) k.len.toNat = k.data ∧
      (flw t k.dstFlow.toNat).owners = [{ o with got := [k.addr.toNat] }] ∧ (flw t k.dstFlow.toNat).unacked = [req] ∧
      t.netIn = s.netIn.erase k) ∧
  (∀ (s : State) (k req : Packet) (o : FlowOwner) (b : BayId) (m : Fin 4) (r : MovRun), StateInv s → rspCheck s k = (true, s) →
    (flw s k.dstFlow.toNat).owners = [o] → (flw s k.dstFlow.toNat).unacked = [req] → o.psn = k.psn.toNat → req.psn = k.psn →
    o.who = .mov b m r.id → movList s b m = [r] → r.fail = none → k.poison = false →
    ∃ t, exec (.atomicRsp k) s = .next t ∧ (flw t k.dstFlow.toNat).unacked = [] ∧ (flw t k.dstFlow.toNat).owners = [] ∧
      ∃ r', movList t b m = [r'] ∧ r'.outst = r.outst - 1 ∧ r'.id = r.id) ∧
  (∀ (s : State) (k req : Packet) (o : FlowOwner) (b : BayId) (m : Fin 4) (r : MovRun), StateInv s → rspCheck s k = (true, s) →
    (flw s k.dstFlow.toNat).owners = [o] → (flw s k.dstFlow.toNat).unacked = [req] → o.psn = req.psn.toNat → req.op = 1 →
    psnBefore req.psn.toNat k.addr.toNat = true → o.who = .mov b m r.id → movList s b m = [r] → r.fail = none →
    ∃ t, exec (.ack k) s = .next t ∧ (flw t k.dstFlow.toNat).unacked = [] ∧ (flw t k.dstFlow.toNat).owners = [] ∧
      ∃ r', movList t b m = [r'] ∧ r'.outst = r.outst - 1 ∧ r'.id = r.id) ∧
  (∀ (s : State) (k : Packet), StateInv s → rspCheck s k = (true, s) → k.status = 8 →
    ∃ t, exec (.nak k) s = .next t ∧ flw t k.dstFlow.toNat = { flw s k.dstFlow.toNat with full := true } ∧
      t = { s with flows := t.flows, netIn := s.netIn.erase k }) ∧
  (∀ (s : State) (i : BitVec 18), StateInv s → flwSt (flw s i.toNat) = 1 → (flw s i.toNat).unacked ≠ [] →
    pgState s (.flow (flowDie i.toNat)) = 4 → (flw s i.toNat).retries < rd s (.flow (flowDie i.toNat)) flowRetry →
    ∃ t, exec (.retransmit i) s = .next t ∧ t.netOut = s.netOut ++ (flw s i.toNat).unacked.map (fun k => (flowDie i.toNat, k)) ∧
      flw t i.toNat = { flw s i.toNat with retries := (flw s i.toNat).retries + 1 } ∧ t = { s with flows := t.flows, netOut := t.netOut })

/-- The queues of a collective engine: a doorbell adds to PROD and a bound counter sets it; a fetched entry that passes its checks becomes the
queue's command, with SEQ and QSTAT showing it; the watchdog samples a running collective's chunks. -/
def Obligations.CollectiveQueuesFetch : Prop :=
  (∀ (s : State) (f : Fin 2) (q : QueueId) (n : BitVec 32), StateInv s → rd s (.ce f) (ceQBindEn q.val) = 0 →
    ∃ t, exec (.ceDoorbell f q n) s = .next t ∧ OnlyErrors s t ∧
      rd t (.ce f) (ceQProd q.val) = (rd s (.ce f) (ceQProd q.val) + n.toNat) % 2 ^ 32) ∧
  (∀ (s : State) (f : Fin 2) (q : QueueId) (b : BayId), StateInv s → rd s (.ce f) (ceQBindEn q.val) = 1 →
    rd s (.ce f) (ceQBindBay q.val) = b.val →
    ∃ t, exec (.bindCounterChange f q) s = .next t ∧ OnlyErrors s t ∧
      rd t (.ce f) (ceQProd q.val) = cnt s b (rd s (.ce f) (ceQBindCounter q.val))) ∧
  (∀ (s s1 s2 s3 : State) (f : Fin 2) (q : QueueId) (e h tb : List Byte) (v1 v2 v3 : Bool), StateInv s → StateInv s3 → pgState s (.ce f) = 4 →
    ceRun s f q = none → s.job.held = false → rd s (.ce f) (ceQProd q.val) ≠ rd s (.ce f) (ceQCons q.val) → ceOver s f q = false →
    domReadV s f (ceDomain s f) ((rd s (.ce f) (ceQRingBase q.val) + 128 * (rd s (.ce f) (ceQCons q.val) % 2 ^ rd s (.ce f) (ceQRingLog2 q.val))) %
      2 ^ 64) 128 .ok = (.ok e false, v1, s1) →
    fieldAt e 8 2 = rd s (.ce f) hdrEpoch % 65536 →
    domReadV (wrapAdd s1 (.ce f) (ceQCons q.val) 1) f (ceDomain s f) (fieldAt e 56 8) 16 .ok = (.ok h false, v2, s2) →
    fieldAt h 0 4 ≤ 16384 → fieldAt h 4 4 < fieldAt h 0 4 →
    domReadV s2 f (ceDomain s f) (fieldAt e 56 8 + 16) (8 * fieldAt h 0 4) .ok = (.ok tb false, v3, s3) →
    badCmd e (fieldAt h 0 4) = false → cOp e ≠ 4 → badFormat e = false →
    (let n := fieldAt h 0 4
     let self := fieldAt h 4 4
     let ranks := (List.range n).map (fun i => (fieldAt tb (8 * i) 2, fieldAt tb (8 * i) 8 / 65536 % 2 ^ 18))
     badGroup s3 { entry := e, n := n, self := self, root := rootOf s3 e ranks,
                   peers := (cePeers (cOp e) (cAlg e) (cWire e) n self (rootOf s3 e ranks) (if cOp e = 6 then 0 else cCount e)).map (fun m =>
                     (m, (ranks.getD m (0, 0)).2, (ranks.getD m (0, 0)).1)) } ranks = false) →
    ∃ t, exec (.ceEntryFetch f q) s = .next t ∧ ∃ c, ceRun t f q = some c ∧ c.entry = e ∧ c.n = fieldAt h 0 4 ∧ c.begun = false ∧
      rd t (.ce f) (ceQQstat q.val) = 1 ∧ rd t (.ce f) (ceQSeq q.val) = entSeq e) ∧
  (∀ (s : State) (f : Fin 2) (q : QueueId) (c : Collective), StateInv s → ceRun s f q = some c → c.data = true →
    rd s (.ce f) (ceQChunks q.val) ≠ c.lastCount → rd s (.ce f) ceWdogLimit ≠ 0 →
    ∃ t, exec (.ceWatchdogTick f q) s = .next t ∧
      ceRun t f q = some { c with lastCount := rd s (.ce f) (ceQChunks q.val), idle := 0 } ∧ t = { s with ces := t.ces })

/-- Collectives begin: each of the six commands, on a queue that holds an entry of its operation for two or more members, sends the first token
of the arrival round to the next member and shows QSTAT 2. Collectives receive and end: an arrival token that no running collective awaits
is held and acknowledged; a chunk that its collective awaits is combined, counted and acknowledged; a finished barrier ends, with its queue
idle and the completion event raised. The segments of a collective's vector (R396): their bounds begin at 0, end at L, never fall, and each
but L is a multiple of 32. -/
def Obligations.CollectivesArriveReceiveAndComplete : Prop :=
  (∀ (s : State) (f : Fin 2) (q : QueueId) (c : Collective) (pl : Nat), StateInv s →
    ceRun s f q = some c → c.begun = false → c.data = false → c.tokSent = 0 → c.round = 0 → 2 ≤ c.n →
    pgState s (.ce f) = 4 → (mget ({} : CeUnit) s.ces 0).tokens = [] → (mget ({} : CeUnit) s.ces 1).tokens = [] →
    flwSt (flw s (cePeer c ((c.self + 1) % c.n)).1) = 1 → rankPlace s (cePeer c ((c.self + 1) % c.n)).2 = some pl →
    pgState s (.flow (flowDie (cePeer c ((c.self + 1) % c.n)).1)) = 4 → rankValid s = true →
    whoReach s (.ce f q) (cePeer c ((c.self + 1) % c.n)).1 = true → (flw s (cePeer c ((c.self + 1) % c.n)).1).closing = false →
    (flw s (cePeer c ((c.self + 1) % c.n)).1).unacked.length < 256 →
    ∃ t, (cOp c.entry = 1 → exec (.allreduce f q) s = .next t) ∧ (cOp c.entry = 2 → exec (.reducescatter f q) s = .next t) ∧
      (cOp c.entry = 3 → exec (.allgather f q) s = .next t) ∧ (cOp c.entry = 4 → exec (.broadcast f q) s = .next t) ∧
      (cOp c.entry = 5 → exec (.alltoall f q) s = .next t) ∧ (cOp c.entry = 6 → exec (.barrier f q) s = .next t) ∧
      ceRun t f q = some { c with begun := true, tokSent := 1 } ∧
      ∃ k, t.netOut = s.netOut ++ [(flowDie (cePeer c ((c.self + 1) % c.n)).1, k)] ∧ k.op = 9 ∧
      k.dstPlace = BitVec.ofNat 16 pl ∧ k.data = [] ∧ rd t (.ce f) (ceQQstat q.val) = 2) ∧
  (∀ (s : State) (k : Packet), StateInv s → targetStatus s k = 0 → rxNew (flw s k.dstFlow.toNat) k.psn.toNat = true →
    ceFind s (bits k.addr.toNat 47 32) k.dstFlow.toNat = none → (mget ({} : CeUnit) s.ces (flowDie k.dstFlow.toNat).val).tokens.length < 4096 →
    ∃ t, exec (.arrivalToken k) s = .next t ∧
      (mget ({} : CeUnit) t.ces (flowDie k.dstFlow.toNat).val).tokens = (mget ({} : CeUnit) s.ces (flowDie k.dstFlow.toNat).val).tokens ++
        [{ seq := bits k.addr.toNat 47 32, round := bits k.addr.toNat 55 48, flow := k.dstFlow.toNat }] ∧
      ∃ a, t.netOut = s.netOut ++ [(flowDie k.dstFlow.toNat, a)] ∧ a.op = 7 ∧ a.psn = k.psn) ∧
  (∀ (s : State) (k : Packet) (f : Fin 2) (q : QueueId) (c : Collective) (x : Xfer) (l : List Xfer), StateInv s → targetStatus s k = 0 →
    rxNew (flw s k.dstFlow.toNat) k.psn.toNat = true → ceFind s (bits k.addr.toNat 47 32) k.dstFlow.toNat = some (f, q) →
    ceRun s f q = some c → ceSched c = x :: l → c.data = true → pgState s (.ce f) = 4 → x.send = false → ¬ 0 ∈ c.moved →
    (cePeer c x.peer).1 = k.dstFlow.toNat → x.step % 256 = bits k.addr.toNat 55 48 → x.wirePos % 2 ^ 32 = k.addr.toNat % 2 ^ 32 →
    wireBytes (cWire c.entry) x.len = k.len.toNat → k.tag.toNat = cWire c.entry → k.poison = false →
    ∃ t s2, exec (.chunk k .ok false) s = .next t ∧ t = cePump s2 f q ∧
      ceRun s2 f q = some (ceCombine { c with moved := c.moved ++ [0] } x k.data false) ∧
      rd s2 (.ce f) (ceQChunks q.val) = (rd s (.ce f) (ceQChunks q.val) + 1) % 2 ^ 32 ∧
      ∃ a, s2.netOut = s.netOut ++ [(flowDie k.dstFlow.toNat, a)] ∧ a.op = 7 ∧ a.psn = k.psn) ∧
  (∀ (s : State) (f : Fin 2) (q : QueueId) (c : Collective), StateInv s → pgState s (.ce f) = 4 → ceRun s f q = some c → cOp c.entry = 6 →
    c.begun = true → ceRounds c.n ≤ c.round → c.data = false → c.poisoned = false → domStops s f (ceDomain s f) (entCpl c.entry) 16 = none →
    Rising (mget ({} : CeUnit) s.ces f.val).running →
    ∃ t, exec (.collectiveComplete f q) s = .next t ∧ ceRun t f q = none ∧
      rd t (.ce f) (ceQQstat q.val) = (if s.job.held then 4 else 0) ∧ bitOf (rd t (.ce f) hdrEvt) 16 = true) ∧
  (∀ (len n i : Nat), 0 < n → i < n →
    segBound len n 0 = 0 ∧ segBound len n n = len ∧ segBound len n i ≤ segBound len n (i + 1) ∧
    (segBound len n i = len ∨ segBound len n i % 32 = 0))

/-- The census: a census asked for or started shows CENSUS and holds the queues; a member pledges to the first CALL and answers it; a
coordinator collects an ANSWER; a pledged member's first wait is counted; what awaits an answer is resent; an acknowledged verdict no longer
is. A datagram of another job or epoch is counted and dropped. Verdicts and the job fence: the sixteenth part of a verdict of this epoch
applies it: LEAD and the epoch take its values, AWAIT clears, the census ends; ADMIT by the lead counts the epoch; FENCE_JOB fences the
member and ends the census; LEAVE leaves the job and the fence. -/
def Obligations.CensusAndVerdictsApply : Prop :=
  (∀ (s : State) (d : Datagram), StateInv s → ctrlFor s d = false →
    ∃ t, exec (.census d) s = .next t ∧ exec (.answer d) s = .next t ∧ OnlyRegs s t ∧ FieldsBut [ceCtrlDrop.key (.ce 0)] s t ∧
      rd t (.ce 0) ceCtrlDrop = min (rd s (.ce 0) ceCtrlDrop + 1) (2 ^ 32 - 1)) ∧
  (∀ (s : State) (d : Datagram), StateInv s → s.ces = [] → ctrlFor s d = true → s.job.running = false → rd s (.ce 0) ceJobFenced = 0 →
    ∃ t, exec (.census d) s = .next t ∧ t.job.running = true ∧ t.job.held = true ∧ rd t (.ce 0) ceJobCensus = 1 ∧
      (∀ f q, q < 4 → rd t (.ce f) (ceQQstat q) = 4)) ∧
  (∀ (s : State) (f : Fin 2), StateInv s → s.ces = [] → pgState s (.ce f) ≠ 0 → rd s (.ce 0) ceJobValid = 1 → s.job.running = false →
    rd s (.ce 0) ceJobFenced = 0 →
    ∃ t, exec (.cmdCensus f) s = .next t ∧ t.job.running = true ∧ t.job.held = true ∧ rd t (.ce 0) ceJobCensus = 1) ∧
  (∀ (s : State) (d : Datagram) (pl : Nat), StateInv s → ctrlFor s d = true → s.job.running = true → s.job.pledged = none →
    rankPlace s (fieldAt d.payload 0 2) = some pl →
    ∃ t, exec (.callDatagram d) s = .next t ∧ t.job.pledged = some (fieldAt d.payload 0 2) ∧ ∃ k, t.netOut = s.netOut ++ [(0, k)] ∧ k.op = 10 ∧
      k.dstPlace = BitVec.ofNat 16 pl ∧ fieldAt k.data 6 1 = 0x12 ∧ t = { s with job := t.job, netOut := t.netOut }) ∧
  (∀ (s : State) (d : Datagram), StateInv s → ctrlFor s d = true → s.job.coordinating = true →
    ∃ t, exec (.answer d) s = .next t ∧ d.src.toNat ∈ t.job.answers ∧ (∀ r ∈ s.job.answers, r ∈ t.job.answers) ∧ t = { s with job := t.job }) ∧
  (∀ (s : State) (d : Datagram), StateInv s → ctrlFor s d = true →
    ∃ t, exec (.verdictAck d) s = .next t ∧ (∀ x ∈ t.job.resend, ¬ (x.1 = d.src.toNat ∧ x.2.1 = 0x13)) ∧ t = { s with job := t.job }) ∧
  (∀ (s : State), s.job.running = true → s.job.coordinating = false → s.job.pledged ≠ none → s.job.waits = 0 →
    exec .censusWaitExpiry s = .next { s with job := { s.job with waits := 1 } }) ∧
  (∀ (s : State) (r ty pl : Nat) (pay : List Byte), s.job.resend = [(r, ty, pay)] → rankPlace s r = some pl →
    ∃ t, exec .ctrlResend s = .next t ∧ ∃ k, t.netOut = s.netOut ++ [(0, k)] ∧ t = { s with netOut := t.netOut } ∧ k.op = 10 ∧ k.dstPlace = BitVec.ofNat 16 pl ∧
      k.dstRank = BitVec.ofNat 16 r) ∧
  (∀ (s : State) (f : Fin 2), StateInv s → s.ces = [] → pgState s (.ce f) ≠ 0 → s.job.running = false →
    ∃ t, exec (.resume f) s = .next t ∧ t.job.held = false ∧ ∀ f' q, q < 4 → rd t (.ce f') (ceQQstat q) = 0) ∧
  (∀ (s : State) (d : Datagram) (epoch lead : Nat), StateInv s → ctrlFor s d = true → verdictOpen s d = false →
    rd s (.ce 0) ceJobFenced = 0 → fieldAt d.payload 0 2 = epoch → fieldAt d.payload 2 2 = lead → s.job.verdictEpoch = epoch →
    s.job.verdictLead = lead → (minsert s.job.parts (fieldAt d.payload 4 1 % 16) (slice d.payload 5 128)).length = 16 →
    ∃ t, exec (.verdict d) s = .next t ∧ rd t (.ce 0) ceJobEpoch = epoch ∧ rd t (.ce 0) ceLead = lead ∧ rd t (.ce 0) ceJobAwait = 0 ∧
      rd t (.ce 0) ceJobCensus = 0 ∧ t.job.running = false ∧ t.job.parts = [] ∧ bitOf (rd t (.ce 0) hdrEvt) 18 = true) ∧
  (∀ (s : State) (f : Fin 2) (rank : BitVec 16), StateInv s → pgState s (.ce f) ≠ 0 → rd s (.ce 0) ceJobValid = 1 → rankValid s = true →
    rd s (.ce 0) ceLead = myRank s → s.job.running = false → rd s (.ce 0) ceJobFenced = 0 →
    ∃ t, exec (.admitMembers f rank) s = .next t ∧ rd t (.ce 0) ceJobEpoch = (rd s (.ce 0) ceJobEpoch + 1) % 65536 ∧
      rd t (.ce 0) ceLead = myRank s ∧ bitOf (rd t (.ce 0) hdrEvt) 18 = true) ∧
  (∀ (s : State) (d : Datagram), StateInv s → s.ces = [] → s.flows = [] → ctrlFor s d = true → rd s (.ce 0) ceJobFenced = 0 →
    ∃ t, exec (.fenceJob d) s = .next t ∧ rd t (.ce 0) ceJobFenced = 1 ∧ t.job.running = false ∧
      ∀ p ∈ jobPages, pgState s p ≠ 0 → pgState s p ≠ 1 → pgState t p = 7) ∧
  (∀ (s : State) (f : Fin 2), StateInv s → pgState s (.ce f) ≠ 0 → rd s (.ce 0) ceJobFenced = 1 → (∀ p ∈ jobPages, pgState s p ≠ 7) →
    ∃ t, exec (.leave f) s = .next t ∧ rd t (.ce 0) ceJobValid = 0 ∧ rd t (.ce 0) ceJobFenced = 0 ∧ OnlyRegs s t)

/-- Accession begins and ends: ACC_START in storage mode shows state 2 and the start step 9; ACC_LOADED with a bad manifest shows RESULT 2 and
waits; the signature check of a whole image ends accession, loaded or failed; a new parent is taken from ADOPT and REPARENT; STORE sends the
module to its storage; the timeouts make it an orphan. Accession carries chunks: a chunk that its parent announces and that fails its CRC is
reported once and its failure remembered; a child's ACK, with nothing more to send, moves its count; an adopting parent begins where the
child stands; a child that has its image is done; a failed child leaves the tree; the lead takes an orphan. The neighbour of a port is lost
when its identity stays away, or when it holds the port for too long: NBR_ID is no longer valid, NBR_LOST and the event are raised, and the
port is back in its identity phase; a sideband token ABORT from the parent makes the module an orphan. -/
def Obligations.AccessionCarriesTheImage : Prop :=
  (∀ (s : State) (f : Fin 2), StateInv s → pgState s (.ce f) ≠ 0 → rd s (.ce 0) ceJobValid = 1 → rankValid s = true →
    rd s (.ce 0) ceAccStatState = 0 → rd s (.ce 0) ceAccCfg = 1 →
    ∃ t, exec (.accStart f) s = .next t ∧ rd t (.ce 0) ceAccStatState = 2 ∧ t.acc.running = true ∧ t.acc.mode = 1 ∧ t.mg.startStep = 9) ∧
  (∀ (s : State) (f : Fin 2), StateInv s → pgState s (.ce f) ≠ 0 → s.acc.running = true → rd s (.ce 0) ceAccStatState = 2 → chunkOk s 0 = false →
    ∃ t, exec (.accLoaded f) s = .next t ∧ rd t (.ce 0) ceAccStatResult = 2 ∧ rd t (.ce 0) ceAccStatState = 2 ∧ OnlyRegs s t) ∧
  (∀ (s : State) (d : Datagram), StateInv s → ctrlFor s d = true → s.acc.running = true →
    (∃ t, exec (.adopt d) s = .next t ∧ t.acc.parent = fieldAt d.payload 0 2 ∧ t.acc.parentPort = 255 ∧ t.acc.waitsLead = false ∧
      rd t (.ce 0) ceAccStatParent = fieldAt d.payload 0 2) ∧
    (∃ t, exec (.reparent d) s = .next t ∧ t.acc.parent = d.src.toNat ∧ t.acc.waitsLead = false ∧ rd t (.ce 0) ceAccStatParent = d.src.toNat) ∧
    (∃ t, exec (.storeMsg d) s = .next t ∧ t.acc.waitsLead = false ∧ rd t (.ce 0) ceAccStatState = 2) ∧
    (d.src.toNat = s.acc.parent → s.acc.mode = 0 →
      ∃ t, exec (.accAbort d) s = .next t ∧ t.acc.waitsLead = true ∧ t.acc.parent = 0xFFFE)) ∧
  (∀ (s : State), StateInv s → s.acc.running = true → rd s (.ce 0) ceAccStatState = 1 → s.acc.waitsLead = false → s.acc.parent ≠ 0xFFFF →
    s.acc.mode = 0 → ∃ t, exec .orphanTimeout s = .next t ∧ t.acc.waitsLead = true ∧ t.acc.parent = 0xFFFE) ∧
  (∀ (s : State), StateInv s → held s = false → rd s (.ce 0) ceAccStatState = 3 →
    ∃ t, exec .accSignatureCheck s = .next t ∧
      (accImageGood s = true → rd t (.ce 0) ceAccStatState = 4 ∧ rd t (.ce 0) ceAccStatResult = 0 ∧ bitOf (rd t (.ce 0) hdrEvt) 20 = true) ∧
      (accImageGood s = false → rd t (.ce 0) ceAccStatState = 5 ∧ rd t (.ce 0) ceAccStatResult = 3)) ∧
  (∀ (s : State), StateInv s → s.acc.running = true → rd s (.ce 0) ceAccStatState = 1 → s.acc.waitsLead = true →
    ∃ t, exec .orphanTimeout s = .next t ∧ t.acc.running = false ∧ rd t (.ce 0) ceAccStatState = 5) ∧
  (∀ (s : State) (d : Datagram), StateInv s → ctrlFor s d = true → s.acc.running = true → d.src.toNat = s.acc.parent → s.acc.parentPort = 255 →
    chunkOk (ctrlGot s (fun _ t => t == 0x24)) (fieldAt d.payload 0 2) = false → s.acc.failedOnce = [] →
    ∃ t, exec (.accReady d) s = .next t ∧ t.acc.failedOnce = [fieldAt d.payload 0 2] ∧ t.acc.verified = s.acc.verified) ∧
  (∀ (s : State) (d : Datagram) (c : Child), StateInv s → ctrlFor s d = true → s.acc.running = true → s.acc.children = [c] →
    c.rank = d.src.toNat → c.cur = none → c.redo = [] → c.acked ≤ fieldAt d.payload 0 2 → fieldAt d.payload 0 2 + 1 = c.sent →
    c.sent = s.acc.total → c.awaits = false →
    ∃ t, exec (.accAck d) s = .next t ∧ t.acc.children = [{ c with acked := fieldAt d.payload 0 2 + 1 }]) ∧
  (∀ (s : State) (d : Datagram) (c : Child), StateInv s → ctrlFor s d = true → s.acc.children = [c] → c.rank = d.src.toNat → c.awaits = true →
    c.cur = none → c.redo = [] → s.acc.total = fieldAt d.payload 0 2 + 1 → fieldAt d.payload 0 2 < 65535 →
    ∃ t, exec (.adoptAck d) s = .next t ∧
      t.acc.children = [{ c with awaits := false, acked := fieldAt d.payload 0 2 + 1, sent := fieldAt d.payload 0 2 + 1 }]) ∧
  (∀ (s : State) (d : Datagram) (c : Child), StateInv s → ctrlFor s d = true → s.acc.children = [c] → c.rank = d.src.toNat →
    s.acc.orphans = [] → ∃ t, exec (.doneMsg d) s = .next t ∧ t.acc.children = [{ c with done := true }]) ∧
  (∀ (s : State) (c : Child), StateInv s → s.acc.running = true → s.acc.children = [c] → c.grand = [] → c.done = false → c.awaits = true →
    c.rank < 65536 →
    ∃ t, exec (.accTimeout (BitVec.ofNat 16 c.rank)) s = .next t ∧ t.acc.children = []) ∧
  (∀ (s : State) (d : Datagram), StateInv s → ctrlFor s d = true → s.acc.running = true → rd s (.ce 0) ceLead = myRank s →
    s.acc.orphans = [] → s.acc.children = [] → d.payload.length = 2 →
    ∃ t, exec (.orphan d) s = .next t ∧ t.acc.orphans = [fieldAt d.payload 0 2] ∧
      ∃ c, t.acc.children = [c] ∧ c.rank = fieldAt d.payload 0 2 ∧ c.awaits = true) ∧
  (∀ (s : State) (p : Fin 32), StateInv s → portOn s p = true → rd s (.fport p) fpNbrIdValid = 1 → s.acc.children = [] → s.catalogue = [] →
    ∃ t, exec (.neighbourLost p) s = .next t ∧ rd t (.fport p) fpNbrIdValid = 0 ∧ bitOf (rd t (.fport p) hdrErr) 17 = true ∧
      bitOf (rd t (.fport p) hdrEvt) 17 = true ∧ lstate t p = 1) ∧
  (∀ (s : State) (p : Fin 32), StateInv s → portOn s p = true → rd s (.fport p) fpNbrIdValid = 1 → rd s (.fport p) fpSbNbrHb = 1 →
    lstate s p = 3 → s.acc.children = [] → s.catalogue = [] →
    ∃ t, exec (.holdTimeout p) s = .next t ∧ rd t (.fport p) fpNbrIdValid = 0 ∧ bitOf (rd t (.fport p) hdrErr) 17 = true ∧ lstate t p = 1) ∧
  (∀ (s : State) (p : Fin 32) (chunk : Byte), StateInv s → held s = false → s.acc.running = true → rd s (.fport p) fpSbTxPhase = 1 → s.acc.parentPort = p.val →
    s.acc.mode = 0 →
    ∃ t, exec (.sidebandToken p 0x58 chunk) s = .next t ∧ t.acc.waitsLead = true ∧ t.acc.parent = 0xFFFE ∧ rd t (.fport p) fpSbRxForm = 1)

/-- The host function's resets and link: a function reset clears the MSI-X table and the IDE keys; a link down takes the link away and resets
the function; PERST# holds it in reset and its release lets it out once start step 2 has completed; the link comes up with its width and
rate. MSI-X: enabling it makes every held vector pending; the message of a pending, unmasked vector is sent and its pending bit clears.
Claim and detach: CLAIM with its key attaches the host, clears ORPHANED, counts GEN and raises its event; DETACH back-invalidates the
tracked lines and, when every answer has come, ends the attachment with cause 4; a back-invalidate that is not answered loses the host with
cause 3. -/
def Obligations.HostsClaimAndTakeMessages : Prop :=
  (∀ s : State, StateInv s →
    ∃ t, exec .functionLevelReset s = .next t ∧ rd t .host hostLinkIde = 0 ∧ FieldsBut [hostLinkIde.key .host] s t ∧
      t.hostPort = { s.hostPort with msixOn := false, msixFuncMask := false, msixMask := [], msixPend := [], msixRaise := [] }) ∧
  (∀ s : State, StateInv s → hostUp s = true → rd s .host hostLinkUp = 1 → hostLostNow s = true →
    ∃ t, exec .linkDown s = .next t ∧ rd t .host hostLinkUp = 0 ∧ rd t .host hostLinkWidth = 0 ∧ t.hostPort.msixOn = false ∧
      bitOf (rd t .host hdrEvt) 19 = true) ∧
  (∀ s : State, StateInv s → hostUp s = false → s.hostPort.perstLow = false →
    ∃ t, exec .perstAssert s = .next t ∧ t.hostPort.perstLow = true ∧ t.hostPort.funcReset = true ∧ t.hostPort.msixOn = false) ∧
  (∀ s : State,
    ∃ t, exec .perstRelease s = .next t ∧ t = { s with hostPort := { s.hostPort with perstLow := false, funcReset := !step2Done s } }) ∧
  (∀ (s : State) (width : BitVec 4) (rate : BitVec 2), StateInv s → s.hostPort.funcReset = false → s.hostPort.perstLow = false →
    rd s .hub hubClkstatHoldover = 0 → width = 4 ∨ width = 8 → rate = 1 ∨ rate = 2 → rd s .host hostLinkUp = 0 →
    ∃ t, exec (.hostLinkUp width rate) s = .next t ∧ rd t .host hostLinkUp = 1 ∧ rd t .host hostLinkWidth = width.toNat ∧
      rd t .host hostLinkRate = rate.toNat ∧ bitOf (rd t .host hdrEvt) 19 = true ∧
      OnlyEvents { s with hostPort := { s.hostPort with link := some (width, rate) } } t) ∧
  (∀ (s : State) (v : Nat), StateInv s → s.hostPort.funcReset = false → s.hostPort.msixOn = false →
    v ∈ mkeys s.hostPort.msixRaise ∨ (v < 41 ∧ lineHeld s v = true) →
    ∃ t, exec .msixEnable s = .next t ∧ t.hostPort.msixOn = true ∧ mget false t.hostPort.msixPend v = true ∧ t.hostPort.msixRaise = []) ∧
  (∀ (s : State) (v : Fin 64), StateInv s → hostUp s = true → s.pins.jtag ≠ .boundaryScan → s.hostPort.msixOn = true →
    mget false s.hostPort.msixPend v.val = true → s.hostPort.msixFuncMask = false → mget false s.hostPort.msixMask v.val = false →
    domainUp s = true ∨ v.val = 0 → Rising s.hostPort.msixPend →
    ∃ t, exec (.msixMessage v) s = .next t ∧ t.hostPort.msixSent = s.hostPort.msixSent ++ [v] ∧
      mget false t.hostPort.msixPend v.val = false ∧ t = { s with hostPort := t.hostPort }) ∧
  (∀ s : State, StateInv s → hostUp s = true → rd s .host hostAttachAttached = 0 →
    ∃ t, exec (.claim 0xD5A7) s = .next t ∧ rd t .host hostAttachAttached = 1 ∧ rd t .host hostAttachOrphaned = 0 ∧
      rd t .host hostAttachGen = (rd s .host hostAttachGen + 1) % 2 ^ 16 ∧ bitOf (rd t .host hdrEvt) 17 = true ∧ OnlyEvents s t) ∧
  (∀ (s : State) (key : BitVec 16), key ≠ 0xD5A7 → exec (.claim key) s = .next s ∧ exec (.detach key) s = .next s) ∧
  (∀ s : State, StateInv s → hostUp s = true → rd s .host hostAttachAttached = 1 → s.hostPort.detaching = false →
    ∃ t, exec (.detach 0xD5A7) s = .next t ∧ t.hostPort.detaching = true ∧ ∀ l ∈ hostLines s, biOf t l ≠ 0) ∧
  (∀ s : State, StateInv s → s.hostPort.detaching = true → hostLines s = [] → s.hostPort.bi = [] →
    ∃ t, exec .detachDone s = .next t ∧ rd t .host hostAttachAttached = 0 ∧ rd t .host hostAttachCause = 4 ∧
      t.hostPort.detaching = false) ∧
  (∀ (s : State) (line : BitVec 34), StateInv s → pgState s .host ≠ 0 → biOf s line.toNat ≠ 0 → hostLostNow s = false → hostLines s = [] →
    s.hostPort.dma = [] →
    ∃ t, exec (.backInvalidateTimeout line) s = .next t ∧ rd t .host hostAttachAttached = 0 ∧ rd t .host hostAttachCause = 3 ∧
      t.hostPort.bi = [] ∧ bitOf (rd t .host hdrErr) 16 = true ∧ bitOf (rd t .host hdrEvt) 16 = true)

/-- The exhibit window: a read of a closed window answers 64 poisoned bytes and a write is discarded and counted; in an open window MEMRD
answers the line and, as its MetaValue asks, tracks it; MEMWR and MEMWRPTL write an untracked line; MEMCLNEVCT and MEMINV end a clean copy;
BIRSP ends a back-invalidate of a line that is no longer held. -/
def Obligations.ExhibitWindowServesTheHost : Prop :=
  (∀ (s : State) (line : BitVec 34) (m : Meta) (data : BitVec 512) (mask : BitVec 64) (p : Bool) (chk : Check), StateInv s →
    hostUp s = true → windowOpen s = false → windowBeyond s line.toNat = false →
    (∃ t, exec (.memrd line m chk) s = .next t ∧ t.resp.length = 65 ∧ t.resp.getLast? = some 1 ∧
      t = { s with resp := t.resp, freeCount := t.freeCount }) ∧
    (∃ t, exec (.memwr line m data p) s = .next t ∧ exec (.memwrptl line m mask data p) s = .next t ∧
      rd t .host hostExwDiscard = min (rd s .host hostExwDiscard + 1) (2 ^ 32 - 1) ∧ t = { s with regs := t.regs, resp := [] } ∧
      FieldsBut [hostExwDiscard.key .host] s t)) ∧
  (∀ (s : State) (line : BitVec 34) (chk : Check) (d : List Byte) (p : Bool) (s2 : State), StateInv s → hostUp s = true →
    windowRefuses s line.toNat = false → hostWaits s (windowLine s line.toNat) = false → hostTrk s (windowLine s line.toNat) = 0 →
    (funcRead s (windowLine s line.toNat) 28 true chk = (d, p, s2) →
      ∃ t, exec (.memrd line .invalid chk) s = .next t ∧ t = { s2 with resp := d ++ [BitVec.ofNat 8 (b2n p)] }) ∧
    (∀ w, s.hostPort.detaching = false → trackerWay s (windowLine s line.toNat) = .inl w →
      ∃ t, exec (.memrd line .any chk) s = .next t ∧ hostTrk t (windowLine s line.toNat) = 3) ∧
    (∀ w, s.hostPort.detaching = false → trackerWay s (windowLine s line.toNat) = .inl w →
      ∃ t, exec (.memrd line .shared chk) s = .next t ∧
        (hostTrk t (windowLine s line.toNat) = 1 ∨ hostTrk t (windowLine s line.toNat) = 2)) ∧
    (∀ data q, ∃ t, exec (.memwr line .invalid data q) s = .next t ∧
      t = { funcWrite s (windowLine s line.toNat) 28 allMask (toLE 64 data.toNat) q with resp := [] }) ∧
    (∀ mask data q, ∃ t, exec (.memwrptl line .invalid mask data q) s = .next t ∧
      t = { funcWrite s (windowLine s line.toNat) 28 mask.toNat (toLE 64 data.toNat) q with resp := [] })) ∧
  (∀ (s : State) (line : BitVec 34), StateInv s → Rising s.coh.agents → hostUp s = true → domainUp s = true → windowBeyond s line.toNat = false →
    hostWaits s (windowLine s line.toNat) = false →
    hostTrk s (windowLine s line.toNat) = 1 ∨ hostTrk s (windowLine s line.toNat) = 2 →
    ∃ t, exec (.memclnevct line) s = .next t ∧ exec (.meminv line) s = .next t ∧ hostTrk t (windowLine s line.toNat) = 0 ∧ t.resp = [] ∧
      t.dram = s.dram ∧ t.sysc = s.sysc) ∧
  (∀ (s : State) (line : BitVec 34) (d : Option (BitVec 512)), StateInv s → Rising s.hostPort.bi → biOf s line.toNat ≠ 0 →
    hostUp s = true → s.pins.jtag ≠ .boundaryScan → hostTrk s line.toNat = 0 →
    ∃ t, exec (.birsp line d) s = .next t ∧ biOf t line.toNat = 0 ∧ t = { s with hostPort := { s.hostPort with bi := t.hostPort.bi } })

/-- Host queues fetch: a doorbell adds to PROD; a ready queue in host space asks the host for its entry, one in device memory takes it; the
entry that comes back from the host is taken when it is sound; a read that times out halts the queue with HOST_ERR; RESUME lets a halted
queue go on. Host queues execute: NOP performs nothing; WRITE writes its payload at DST; DCS writes its payload to registers; SIGNAL signals
its flag; an entry performed, without record and message, completes: DONE counts it and the queue is idle. -/
def Obligations.HostQueuesFetchAndExecute : Prop :=
  (∀ (s : State) (q : Fin 16) (n : BitVec 32), StateInv s →
    ∃ t, exec (.hqDoorbell q n) s = .next t ∧ rd t .host (hostHqProd q.val) = (rd s .host (hostHqProd q.val) + n.toNat) % 2 ^ 32 ∧
      OnlyErrors s t) ∧
  (∀ (s : State) (q : Fin 16) (chk : Check), StateInv s → hqReady s q = true → rd s .host (hostHqCfgSpace q.val) = 1 →
    ∃ t, exec (.hqEntryFetch q chk) s = .next t ∧ rd t .host (hostHqQstatState q.val) = 1 ∧
      ∃ d, t.hostPort.dma = s.hostPort.dma ++ [d] ∧ d.who = .hq q ∧ d.len = 256 ∧ d.addr = BitVec.ofNat 64 (hqNext s q)) ∧
  (∀ (s s2 : State) (q : Fin 16) (e : List Byte) (v : Bool), StateInv s2 → hqReady s q = true → hqOver s q = false → rd s .host (hostHqCfgSpace q.val) = 0 →
    rangeBusy s 18 (hqNext s q) 256 false = false → cohBlocks s (hqNext s q) 256 28 .ok = (e, false, v, s2) → hqRefusal s2 (hqEntry e) = none →
    ∃ t, exec (.hqEntryFetch q .ok) s = .next t ∧ rd t .host (hostHqQstatState q.val) = 2 ∧ (hqOf t q).entry = e ∧ (hqOf t q).executed = false ∧
      rd t .host (hostHqCons q.val) = (rd s2 .host (hostHqCons q.val) + 1) % 2 ^ 32) ∧
  (∀ (s : State) (q : Fin 16) (tag : Nat) (d : DmaRead) (bytes : List Byte), StateInv s → s.pins.jtag ≠ .boundaryScan →
    dmaFind s tag = some d → d.who = .hq q → bytes.length = 256 → hqRefusal s (hqEntry bytes) = none →
    ∃ t, exec (.dmaReadCompletion tag (.data bytes false)) s = .next t ∧ rd t .host (hostHqQstatState q.val) = 2 ∧ (hqOf t q).entry = bytes ∧
      dmaFind t tag = none) ∧
  (∀ (s : State) (q : Fin 16) (tag : Nat) (d : DmaRead), StateInv s → dmaFind s tag = some d → d.who = .hq q →
    ∃ t, exec (.dmaTimeout tag) s = .next t ∧ rd t .host (hostHqQstatState q.val) = 3 ∧ rd t .host (hostHqQstatStatus q.val) = 4 ∧
      rd t .host hostDmaErr = min (rd s .host hostDmaErr + 1) (2 ^ 32 - 1) ∧ dmaFind t tag = none) ∧
  (∀ (s : State) (q : Fin 16), StateInv s → hqState s q = 3 → (hqOf s q).back ≠ 3 →
    ∃ t, exec (.hqResume q) s = .next t ∧ hqState t q = 0 ∧ rd t .host (hostHqQstatStatus q.val) = 0 ∧
      rd t .host (hostHqDone q.val) = (rd s .host (hostHqDone q.val) + 1) % 2 ^ 32 ∧ OnlyRegs s t) ∧
  (∀ (s : State) (q : Fin 16), StateInv s → hqRuns s q 0 = true →
    ∃ t, exec (.hqNop q) s = .next t ∧ hqOf t q = { hqOf s q with executed := true } ∧ t = { s with hostPort := t.hostPort }) ∧
  (∀ (s : State) (q : Fin 16), StateInv s → hqRuns s q 1 = true →
    rangeBusy s 18 (hqEntry (hqOf s q).entry).dst (hqEntry (hqOf s q).entry).len true = false →
    ∃ t, exec (.hqWrite q) s = .next t ∧ (hqOf t q).executed = true ∧
      t.dram = (cohPut s (hqEntry (hqOf s q).entry).dst 28 (slice (hqEntry (hqOf s q).entry).payload 0 (hqEntry (hqOf s q).entry).len) false).dram) ∧
  (∀ (s : State) (q : Fin 16), StateInv s → hqRuns s q 2 = true → (hqEntry (hqOf s q).entry).len = 8 →
    ∃ t, exec (.hqDcs q) s = .next t ∧ (hqOf t q).executed = true ∧
      t.regs = (dcsWrite s .host (hqEntry (hqOf s q).entry).dst 8 (fieldAt (hqEntry (hqOf s q).entry).payload 0 8)).regs) ∧
  (∀ (s : State) (q : Fin 16) (b : BayId), StateInv s → hqRuns s q 3 = true → (hqEntry (hqOf s q).entry).bay = b.val →
    byteV (hqEntry (hqOf s q).entry).sig = true → byteK (hqEntry (hqOf s q).entry).sig = false →
    ∃ t, exec (.hqSignal q) s = .next t ∧ (hqOf t q).executed = true ∧ flagIs t b (byteIdx (hqEntry (hqOf s q).entry).sig) = true) ∧
  (∀ (s : State) (q : Fin 16), StateInv s → pgState s .host = 4 → (hqOf s q).entry ≠ [] → (hqOf s q).executed = true →
    (hqEntry (hqOf s q).entry).cpl = false → (hqEntry (hqOf s q).entry).msi = false → (hqOf s q).back = 0 → (hqOf s q).suspend = false →
    Rising s.hostPort.queues →
    ∃ t, exec (.hqEntryComplete q) s = .next t ∧ (hqOf t q).entry = [] ∧ hqState t q = 0 ∧
      rd t .host (hostHqDone q.val) = (rd s .host (hostHqDone q.val) + 1) % 2 ^ 32)

/-- The settings of power: CAP and TJ_LIMIT in range are stored and change nothing else; outside, or with FIXED against the cap, the write sets
CFG_RANGE and stores nothing; MODE is stored and the transition shown until the change is done; CEIL in range is stored. -/
def Obligations.PowerSettingsAreChecked : Prop :=
  (∀ (s : State) (v : BitVec 13), StateInv s → held s = false → rd s .mgpwr pwrMode = 0 ∨ rd s .mgpwr pwrMode = 2 → 1500 ≤ v.toNat →
    v.toNat ≤ 4400 →
    ∃ t, exec (.capWrite v) s = .next t ∧ rd t .mgpwr pwrCap = v.toNat ∧ OnlyRegs s t ∧ FieldsBut [pwrCap.key .mgpwr] s t) ∧
  (∀ (s : State) (v : BitVec 13), StateInv s → pgState s .mgpwr ≠ 0 → v.toNat < 1500 ∨ 4400 < v.toNat ∨ (rd s .mgpwr pwrMode = 1 ∧ v.toNat < 4400) →
    ∃ t, exec (.capWrite v) s = .next t ∧ rd t .mgpwr pwrCap = rd s .mgpwr pwrCap ∧ bitOf (rd t .mgpwr hdrErr) 2 = true) ∧
  (∀ (s : State) (v : BitVec 8), StateInv s → held s = false → 80 ≤ v.toNat → v.toNat ≤ 105 →
    ∃ t, exec (.tjLimitWrite v) s = .next t ∧ rd t .mgpwr pwrTjLimit = v.toNat ∧ OnlyRegs s t ∧ FieldsBut [pwrTjLimit.key .mgpwr] s t) ∧
  (∀ (s : State) (v : BitVec 8), StateInv s → pgState s .mgpwr ≠ 0 → v.toNat < 80 ∨ 105 < v.toNat →
    ∃ t, exec (.tjLimitWrite v) s = .next t ∧ rd t .mgpwr pwrTjLimit = rd s .mgpwr pwrTjLimit ∧ bitOf (rd t .mgpwr hdrErr) 2 = true) ∧
  (∀ (s : State) (v : BitVec 2), StateInv s → held s = false → v.toNat ≠ 3 →
    (v.toNat = 1 → 4400 ≤ rd s .mgpwr pwrCap ∧ 4400 ≤ rd s .mgpwr pwrCapMax) → s.power.modeTo = none →
    v.toNat ≠ rd s .mgpwr pwrStatusModeInForce →
    ∃ t, exec (.modeWrite v) s = .next t ∧ rd t .mgpwr pwrMode = v.toNat ∧ t.power.modeTo = some v.toNat ∧
      rd t .mgpwr pwrStatusTransition = 1 ∧ rd t .mgpwr pwrStatusModeInForce = rd s .mgpwr pwrStatusModeInForce) ∧
  (∀ (s : State) (v : BitVec 2), StateInv s → pgState s .mgpwr ≠ 0 → v.toNat = 3 ∨ (v.toNat = 1 ∧ rd s .mgpwr pwrCap < 4400) →
    ∃ t, exec (.modeWrite v) s = .next t ∧ rd t .mgpwr pwrMode = rd s .mgpwr pwrMode ∧ t.power.modeTo = s.power.modeTo ∧
      bitOf (rd t .mgpwr hdrErr) 2 = true) ∧
  (∀ (s : State), StateInv s → s.power.modeTo = some 0 → rd s .mgpwr pwrStatusModeInForce ≠ 0 →
    ∃ t, exec .modeChangeDone s = .next t ∧ t.power.modeTo = none ∧ rd t .mgpwr pwrStatusModeInForce = 0 ∧
      rd t .mgpwr pwrStatusTransition = 0 ∧ bitOf (rd t .mgpwr hdrEvt) 16 = true) ∧
  (∀ (s : State) (u : Fin 72) (v : BitVec 6), StateInv s → pgState s (unitPage u) ≠ 0 → 4 ≤ v.toNat → v.toNat ≤ 32 →
    ∃ t, exec (.ceilWrite u v) s = .next t ∧ rd t (unitPage u) paceCeil = v.toNat ∧ OnlyRegs s t ∧ FieldsBut [paceCeil.key (unitPage u)] s t) ∧
  (∀ (s : State) (u : Fin 72) (v : BitVec 6), StateInv s → pgState s (unitPage u) ≠ 0 → v.toNat < 4 ∨ 32 < v.toNat →
    ∃ t, exec (.ceilWrite u v) s = .next t ∧ rd t (unitPage u) paceCeil = rd s (unitPage u) paceCeil ∧
      bitOf (rd t (unitPage u) hdrErr) 2 = true)

/-- The cap loop and the pacers: a CAPPED period clamps the allowance between 4 and 32 levels a unit; no period raises a loop level by more than
4, and a period in LOWEST leaves every awake unit at no more than 4; a frame counts 32 steps on every RUNNING page of its pacer, and takes
the unit's level; a rate window stores what was measured, with the pulses of the bays for the time they were awake as RATE. -/
def Obligations.CapLoopBoundsTheLevels : Prop :=
  (∀ (s : State) (p : Nat) (cls : List UnitClass), StateInv s → loopRuns s = true → s.power.pbrakeLow = false → s.power.alerts = [] →
    (∀ u ∈ awakeUnits s, pacerBad s cls u = false) → rd s .mgpwr pwrStatusModeInForce = 0 →
    ∃ t, exec (.capPeriod p cls) s = .next t ∧
      t.power.allowance = max (4 * (awakeUnits s).length) (min (32 * (awakeUnits s).length)
        ((s.power.allowance : Int) + Int.tdiv ((min (rd s .mgpwr pwrCap) (rd s .mgpwr pwrCapMax) : Nat) - (p : Int)) 3).toNat)) ∧
  (∀ (s : State) (p : Nat) (cls : List UnitClass) (u : Fin 72), StateInv s → loopRuns s = true →
    ∃ t, exec (.capPeriod p cls) s = .next t ∧ rd t (unitPage u) paceLevelLoop ≤ rd s (unitPage u) paceLevelLoop + 4) ∧
  (∀ (s : State) (p : Nat) (cls : List UnitClass) (u : Fin 72), StateInv s → loopRuns s = true → rd s .mgpwr pwrStatusModeInForce = 2 →
    unitOn s u = true → ∃ t, exec (.capPeriod p cls) s = .next t ∧ rd t (unitPage u) paceLevelLoop ≤ 4) ∧
  (∀ (s : State) (u : PacerId) (p : Page), StateInv s → p ∈ pacerPages u →
    ∃ t, exec (.pacerFrame u) s = .next t ∧
      rd t p hdrSteps = if pgState s p = 4 then (rd s p hdrSteps + 32) % 2 ^ 64 else rd s p hdrSteps) ∧
  (∀ (s : State) (b : BayId), StateInv s → held s = false → rd s (.pace b) hdrState ≠ 1 →
    ∃ t, exec (.pacerFrame (.bay b)) s = .next t ∧ rd t (.pace b) paceLevelLevel = unitLevel s ⟨b.val, by omega⟩) ∧
  (∀ (s : State) (bayNs : Nat) (power : BitVec 16) (iin : BitVec 32) (coolant : BitVec 16) (tj : List Temp), StateInv s → held s = false →
    tj.length ≤ 20 →
    ∃ t, exec (.rateWindow bayNs power iin coolant tj) s = .next t ∧ rd t .mgpwr pwrRate = s.power.pulses * 1000 / bayNs % 2 ^ pwrRate.width ∧
      t.power.pulses = 0 ∧ rd t .mgpwr pwrPower = power.toNat ∧ rd t .mgpwr pwrIin = iin.toNat ∧
      rd t .mgpwr pwrCoolant = coolant.toNat ∧ rd t .mgpwr pwrVin = s.power.vin % 65536 ∧
      (∀ d, (h : d < tj.length) → rd t .mgpwr (pwrTj d) = (tj[d]).toNat))

/-- Brakes: PBRAKE and the regulator alert begin a brake, which counts in BRAKES, shows its cause and holds every compute unit at level 4; the
end of the last cause begins the hold, and its expiry ends the brake. The input and the converters: VIN in the normal range is measured;
below 50 V it sets VIN_LOW and brakes; below 44 V, or with PWR_EN away, or after THERMTRIP, the converters are off and the module is held;
they start when PWR_EN, VIN and the latch allow; PWR_GOOD begins a power-on; a failed converter lowers CAP_MAX; VIN above 60 V stops the
model. -/
def Obligations.PowerIsLimitedAndHeld : Prop :=
  (∀ (s : State), StateInv s → pgState s .mgpwr ≠ 0 → s.power.pbrakeLow = false → s.power.braking = false →
    ∃ t, exec .pbrake s = .next t ∧ t.power.braking = true ∧ t.power.pbrakeLow = true ∧ rd t .mgpwr pwrStatusBrake = 1 ∧
      rd t .mgpwr pwrBrakes = min (rd s .mgpwr pwrBrakes + 1) (2 ^ 32 - 1) ∧ bitOf (rd t .mgpwr hdrErr) 16 = true ∧
      bitOf (rd t .mgpwr hdrEvt) 18 = true ∧ ∀ u, unitLevel t u = 4) ∧
  (∀ (s : State), StateInv s → pgState s .mgpwr ≠ 0 → s.power.alerts = [] → s.power.braking = false →
    ∃ t, exec .regAlert s = .next t ∧ t.power.braking = true ∧ t.power.alerts = [1] ∧ rd t .mgpwr pwrStatusRegAlert = 1 ∧
      bitOf (rd t .mgpwr hdrErr) 17 = true ∧ ∀ u, unitLevel t u = 4) ∧
  (∀ (s : State), StateInv s → s.power.pbrakeLow = true → s.power.braking = true → s.power.alerts = [] → s.power.holding = false →
    ∃ t, exec .pbrakeRelease s = .next t ∧ t.power.pbrakeLow = false ∧ rd t .mgpwr pwrStatusBrake = 0 ∧ rd t .mgpwr pwrStatusHold = 1 ∧
      t.power.braking = true ∧ t.power.holding = true) ∧
  (∀ (s : State), StateInv s → s.power.alerts = [1] → s.power.braking = true → s.power.pbrakeLow = false → s.power.holding = false →
    ∃ t, exec .regAlertEnd s = .next t ∧ t.power.alerts = [] ∧ rd t .mgpwr pwrStatusRegAlert = 0 ∧ rd t .mgpwr pwrStatusHold = 1 ∧
      t.power.braking = true ∧ t.power.holding = true) ∧
  (∀ (s : State), StateInv s → s.power.holding = true →
    ∃ t, exec .brakeHoldExpiry s = .next t ∧ t.power.braking = false ∧ t.power.holding = false ∧ rd t .mgpwr pwrStatusHold = 0) ∧
  (∀ (s : State) (mv : BitVec 16), 60000 < mv.toNat → exec (.vinChange mv) s = .fault .absoluteMaximum) ∧
  (∀ (s : State) (mv : BitVec 16), StateInv s → held s = false → s.power.converters = true → s.power.alerts = [] → s.power.overV = false →
    50000 ≤ s.power.vin → s.power.vin ≤ 57500 → 50000 ≤ mv.toNat → mv.toNat ≤ 57500 →
    ∃ t, exec (.vinChange mv) s = .next t ∧ t.power.vin = mv.toNat ∧ rd t .mgpwr pwrVin = mv.toNat ∧ t.power.alerts = [] ∧
      t.power.converters = true ∧ FieldsBut [pwrVin.key .mgpwr] s t) ∧
  (∀ (s : State) (mv : BitVec 16), StateInv s → pgState s .mgpwr ≠ 0 → s.power.converters = true → s.power.overV = false →
    s.power.alerts = [] → 50000 ≤ s.power.vin → 44000 ≤ mv.toNat → mv.toNat < 50000 →
    ∃ t, exec (.vinChange mv) s = .next t ∧ 2 ∈ t.power.alerts ∧ t.power.braking = true ∧ bitOf (rd t .mgpwr hdrErr) 18 = true ∧
      rd t .mgpwr pwrVin = mv.toNat) ∧
  (∀ (s : State) (mv : BitVec 16), s.power.converters = true → mv.toNat < 44000 →
    ∃ t, exec (.vinChange mv) s = .next t ∧ t.power.converters = false ∧ t.power.pwrGood = false ∧ held t = true) ∧
  (∀ (s : State), s.power.converters = true →
    ∃ t, exec .pwrEnDeassert s = .next t ∧ t.power.pwrEn = false ∧ t.power.converters = false ∧ held t = true) ∧
  (∀ (s : State), s.power.converters = false → s.power.overV = false → s.power.therm = false → 48000 ≤ s.power.vin →
    ∃ t, exec .pwrEnAssert s = .next t ∧ t.power.pwrEn = true ∧ t.power.converters = true) ∧
  (∀ (s : State), s.power.converters = true → s.power.pwrGood = false →
    ∃ t, exec .pwrGoodRise s = .next t ∧ t.power.pwrGood = true ∧ rd t .hub hubRstCause = 1 ∧ t.mg.ledger = s.mg.ledger) ∧
  (∀ (s : State) (c : Fin 8), StateInv s → pgState s .mgpwr ≠ 0 → ¬ s.power.convOut.contains c.val → s.power.braking = false →
    ∃ t, exec (.converterFail c) s = .next t ∧ c.val ∈ t.power.convOut ∧ rd t .mgpwr pwrCapMax = 3850 ∧ rd t .mgpwr pwrStatusConvOut = 1 ∧
      bitOf (rd t .mgpwr hdrErr) 21 = true ∧ 4 ∈ t.power.alerts ∧ (rd s .mgpwr pwrMode = 1 → rd t .mgpwr pwrMode = 0)) ∧
  (∀ (s : State) (d : DieId), s.power.therm = false → s.power.converters = true →
    ∃ t, exec (.thermtrip d) s = .next t ∧ t.power.therm = true ∧ t.power.converters = false ∧ held t = true ∧
      pinMode t .thermtripN = .low ∧ ∀ q lane, pinMode t (.ftx q lane) = .hiZ) ∧
  (∀ (s : State), s.power.vin < 36000 → exec .thermtripRelease s = .next { s with power := { s.power with therm := false } }) ∧
  (∀ (s : State), 36000 ≤ s.power.vin → exec .thermtripRelease s = .next s)

/-- The watchdogs between the hub and MG dies: the fifth bad poll in a row is a regulator fault, which ALERT_N shows; a heartbeat is remembered,
unless the link it takes is lost; a hub failure resets the module with its own cause; the loss of the MG die is logged and raised, and its
return writes what the hub queued. The start: a step that fails stops it; a step that ends well gives place to the next; step 7 ends when
every port is up, or DEGRADED at the port wait's expiry; a start with a PENDING copy that takes too long resets the module. -/
def Obligations.WatchdogsAndStartSteps : Prop :=
  (∀ (s : State), held s = false → s.power.convOut.length < 2 →
    exec (.regulatorPoll []) s = .next { s with power := { s.power with badReads := [] } }) ∧
  (∀ (s : State) (d : DieId) (r : Byte), StateInv s → held s = false → s.power.convOut.length < 2 →
    mget 0 s.power.badReads (256 * d.val + r.toNat) = 4 → rd s .hub hubLogHead - rd s .hub hubLogTail < 256 →
    ∃ t, exec (.regulatorPoll [(d, r)]) s = .next t ∧ t.mg.alert = true ∧
      (mget none t.log (rd s .hub hubLogHead % 256)).map (fun e => (e.code.toNat, e.info.toNat)) = some (0x105, d.val + 256 * r.toNat)) ∧
  (∀ (s : State), held s = false → linkGone s 23 = false → exec .hubHeartbeat s = .next { s with mg := { s.mg with hubBeat := rd s .hub hubTimer / 100 } }) ∧
  (∀ (s : State), linkGone s 23 = true → exec .hubHeartbeat s = .next s) ∧
  (∀ (s : State), held s = false → s.mg.lost = false → s.mg.startDone = true →
    ∃ t, exec .hubFail s = .next t ∧ rd t .hub hubRstCause = 4 ∧ t.mg.startStep = 1 ∧ t.mg.alert = false) ∧
  (∀ (s : State), StateInv s → pgState s .hub ≠ 0 → s.mg.lost = false →
    ∃ t, exec .mgLost s = .next t ∧ t.mg.lost = true ∧ t.mg.alert = true ∧
      (phase t = .identity ∨ phase t = .run → pinMode t .alertN = .low) ∧ bitOf (rd t .hub hdrErr) 17 = true ∧
      bitOf (rd t .hub hdrEvt) 17 = true) ∧
  (∀ (s : State) (e : LedgerEntry), StateInv s → held s = false → linkGone s 23 = false → s.mg.lost = true → s.mg.hubQueue = [e] → s.mg.ledger = [] →
    ∃ t, exec .mgHeartbeat s = .next t ∧ t.mg.hubQueue = [] ∧ t.mg.ledger = [(0, some { e with seq := s.mg.nextSeq })] ∧
      t.mg.nextSeq = s.mg.nextSeq + 1) ∧
  (∀ (s : State), StateInv s → pgState s .sec ≠ 0 → startRuns s = true → s.mg.startStep ≠ 7 → s.mg.startStep < 10 →
    ∃ t, exec (.startStepDone .failed) s = .next t ∧ rd t .sec secStartState = 3 ∧ bitOf (rd t .sec hdrErr) 18 = true ∧
      bitOf (rd t .sec hdrEvt) 17 = true) ∧
  (∀ (s : State) (o : StepOutcome), StateInv s → startRuns s = true → s.mg.startStep = 7 → (∀ p : Fin 32, lstate s p = 3) →
    ∃ t, exec (.startStepDone o) s = .next t ∧ t.mg.startStep = 8 ∧ rd t .sec secStartStep = 8 ∧
      rd t .sec secStartDegraded = rd s .sec secStartDegraded) ∧
  (∀ (s : State), StateInv s → startRuns s = true → s.mg.startStep = 7 → portsAllUp s = false →
    ∃ t, exec .portWaitExpiry s = .next t ∧ t.mg.startStep = 8 ∧ rd t .sec secStartStep = 8 ∧ bitOf (rd t .sec secStartDegraded) 6 = true) ∧
  (∀ (s : State), StateInv s → startRuns s = true → s.mg.startStep = 3 → (∀ l : Fin 31, pgState s (.dlink l) = 4) → s.mg.snapshot = [] →
    s.links = [] → s.power.convOut = [] → (∀ l : Fin 31, rd s (.dlink l) dlNegWidth = 4) →
    ∃ t, exec (.startStepDone .ok) s = .next t ∧ t.mg.startStep = 4 ∧ rd t .sec secStartStep = 4 ∧
      rd t .sec secStartDegraded = rd s .sec secStartDegraded) ∧
  (∀ (s : State), StateInv s → startRuns s = true → s.mg.startStep = 4 → s.mg.snapshot = [] →
    ∃ t, exec (.startStepDone .ok) s = .next t ∧ t.mg.startStep = 5 ∧ rd t .hub hubDomainUp = 1 ∧ t.dram = [] ∧ t.sysc = []) ∧
  (∀ (s : State), StateInv s → Rising s.mg.pending → held s = false → s.mg.startDone = false → s.mg.usedPending ≠ [] →
    ∃ t, exec .startTimeout s = .next t ∧ t.mg.startStep = 1 ∧ t.mg.usedPending = [] ∧ ∀ k ∈ s.mg.usedPending, mget none t.mg.pending k = none)

/-- Attestation on a management port that reaches the MG die: a report answers its 576 bytes with the nonce, the log and the certificates their
bytes, SPDM a signature over the nonce and a measured block; each answer changes nothing but the response and the count of signatures.
Updates on I3C: an update begins on the copy that is not active, takes its bytes in order, and ends PENDING where it verifies, or with code
4 and the reason where it does not; SEC_COMMIT without its key changes nothing. The ledger and the configuration as operators reach them,
and the TAP: a slot reads its 32 bytes and clears when its SEQ is given; the page's commands clear the slot in LEDGER_IDX and every record,
with the key alone; the configuration in force is read, and bytes written gather until the last message; IDCODE answers four bytes. -/
def Obligations.ManagementAnswersAndUpdates : Prop :=
  (∀ (s : State) (port : MgmtPort) (nonce : List Byte), mgReach s port = true → s.mg.lost = false → nonce.length = 32 →
    ∃ t, exec (.getReport port nonce) s = .next t ∧ t.resp.length = 577 ∧ t.resp.take 5 = [0, 0x01, 0, 0xA7, 0xD9] ∧
      (t.resp.drop 33).take 32 = nonce ∧ t = { s with resp := t.resp, freeCount := s.freeCount + 1 }) ∧
  (∀ (s : State) (port : MgmtPort) (nonce : List Byte), mgReach s port = true → s.mg.lost = false → nonce.length ≠ 32 →
    exec (.getReport port nonce) s = .next { s with resp := [2] }) ∧
  (∀ (s : State) (port : MgmtPort) (first : Nat), mgReach s port = true → s.mg.lost = false →
    exec (.getLog port first) s = .next { s with resp := 0 :: ((s.mg.prov.drop first).take 16).flatten }) ∧
  (∀ (s : State) (port : MgmtPort) (off : Nat), mgReach s port = true → s.mg.lost = false →
    exec (.getCerts port off) s = .next { s with resp := 0 :: (s.fuses.certs.drop off).take 1024 }) ∧
  (∀ (s : State) (nonce : List Byte), mgReach s .hostPort = true → s.mg.lost = false →
    ∃ t, exec (.spdmChallenge nonce) s = .next t ∧ t.resp.length = 97 ∧ t = { s with resp := t.resp, freeCount := s.freeCount + 1 }) ∧
  (∀ (s : State) (i : Nat), mgReach s .hostPort = true → s.mg.lost = false → 1 ≤ i → i ≤ s.mg.prov.length → i < 255 →
    ∃ t g, exec (.spdmGetMeasurements i) s = .next t ∧ t.resp = 0 :: (s.mg.prov.getD (i - 1) [] ++ g) ∧ g.length = 96 ∧
      t = { s with resp := t.resp, freeCount := s.freeCount + 1 }) ∧
  (∀ (s : State) (type : Fin 4) (size : Nat), mgReach s .i3c = true → s.mg.lost = false → s.mg.recovery = false → s.mg.update = none →
    s.mg.startDone = true → size ≤ 512 + Config.flashArea (type.val + 1) →
    ∃ t, exec (.updateBegin .i3c type size) s = .next t ∧ t.resp = [0] ∧
      t.mg.update = some { type := type.val + 1, copy := 1 - activeCopy s (type.val + 1), size := size } ∧
      t.fuses = s.fuses ∧ t.mg.active = s.mg.active) ∧
  (∀ (s : State) (bytes : List Byte) (u : Update), mgReach s .i3c = true → s.mg.lost = false → s.mg.update = some u →
    bytes.length ≤ 1024 → u.next + bytes.length ≤ u.size →
    ∃ t, exec (.updateData .i3c u.next bytes) s = .next t ∧ t.resp = [0] ∧ t.mg.update = some { u with next := u.next + bytes.length } ∧
      t = { s with mg := { s.mg with images := t.mg.images, update := t.mg.update }, resp := [0] }) ∧
  (∀ (s : State) (u : Update), mgReach s .i3c = true → s.mg.lost = false → s.mg.recovery = false → s.mg.update = some u →
    ∃ t, exec (.updateEnd .i3c) s = .next t ∧ t.mg.update = none ∧ t.fuses = s.fuses ∧
      (imageReason s u.type u.copy = none → t.resp = [0] ∧ mget none t.mg.pending u.type = some u.copy) ∧
      (∀ r, imageReason s u.type u.copy = some r → t.resp = [4, BitVec.ofNat 8 r] ∧ t.mg.pending = s.mg.pending)) ∧
  (∀ (s : State) (key : BitVec 16) (mask : BitVec 4), s.mg.lost = false → key ≠ 0xD5A7 → exec (.secCommit key mask) s = .next s) ∧
  (∀ (s : State) (port : MgmtPort) (slot : Fin 256), mgReach s port = true → s.mg.lost = false →
    ∃ t, exec (.ledgerRead port slot) s = .next t ∧ t = { s with resp := 0 :: ledgerBytes (mget none s.mg.ledger slot.val) } ∧ t.resp.length = 33) ∧
  (∀ (s : State) (slot : Fin 256) (e : LedgerEntry), Rising s.mg.ledger → mgReach s .i3c = true → s.mg.lost = false →
    mget none s.mg.ledger slot.val = some e → e.seq < 2 ^ 32 →
    (∃ t, exec (.ledgerClear .i3c slot (BitVec.ofNat 32 e.seq)) s = .next t ∧ t.resp = [0] ∧
      t.mg.ledger = mset none s.mg.ledger slot.val none ∧ mget none t.mg.ledger slot.val = none) ∧
    (∀ seq : BitVec 32, seq.toNat ≠ e.seq → exec (.ledgerClear .i3c slot seq) s = .next { s with resp := [5] })) ∧
  (∀ (s : State), StateInv s → Rising s.mg.ledger → held s = false → s.mg.lost = false →
    ∃ t, exec (.ledgerClrSlot 0xD5A7) s = .next t ∧ mget none t.mg.ledger (rd s .sec secLedgerIdx) = none ∧
      ∀ i, i ≠ rd s .sec secLedgerIdx → mget none t.mg.ledger i = mget none s.mg.ledger i) ∧
  (∀ (s : State), held s = false → s.mg.lost = false →
    ∃ t, exec (.ledgerClrRecords 0xD5A7) s = .next t ∧
      t.mg.ledger = s.mg.ledger.filter (fun x => !x.2.any (fun e => e.action == 0))) ∧
  (∀ (s : State) (key : BitVec 16), s.mg.lost = false → key ≠ 0xD5A7 →
    exec (.ledgerClrSlot key) s = .next s ∧ exec (.ledgerClrRecords key) s = .next s) ∧
  (∀ (s : State) (port : MgmtPort) (off : Nat), mgReach s port = true → s.mg.lost = false →
    exec (.configRead port off) s = .next { s with resp := 0 :: ((cfgBytes s).drop off).take 1024 }) ∧
  (∀ (s : State) (off : Nat) (bytes : List Byte), mgReach s .i3c = true → s.mg.lost = false → bytes.length ≤ 1024 → off + bytes.length ≤ 4096 →
    ∃ t, exec (.configWrite .i3c off bytes false) s = .next t ∧ t.resp = [0] ∧ (t.mg.cfgBuf.drop off).take bytes.length = bytes ∧
      t = { s with mg := { s.mg with cfgBuf := t.mg.cfgBuf }, resp := [0] }) ∧
  (∀ (s : State), s.power.pwrGood = true → s.pins.jtag = .idcode →
    ∃ t, exec (.jtagInstruction .idcode) s = .next t ∧ t = { s with resp := toLE 4 Config.idcode.toNat }) ∧
  (∀ (s : State), s.power.pwrGood = true → s.pins.jtag = .idcode →
    ∃ t, exec (.jtagInstruction .boundaryScan) s = .next t ∧ t.pins.jtag = .boundaryScan ∧
      t = { s with pins := { s.pins with jtag := .boundaryScan }, resp := [] })

/-- A step with a command at the front of the queue is exec of that command on the state with the queue's rest. -/
def Obligations.StepRunsTheFrontCommand : Prop :=
  ∀ (s : State) (c : Instr) (rest : List Instr), s.pending = c :: rest → step s = exec c { s with pending := rest }

/-- On an empty queue a step is one unit of the local timer (the model's choice, log 8): TIMER counts 10 ns and nothing else changes; while the
module is held nothing changes. -/
def Obligations.EmptyQueueCountsTheTimer : Prop :=
  (∀ s : State, StateInv s → s.pending = [] → held s = false →
    ∃ t, step s = .next t ∧ rd t .hub hubTimer = (rd s .hub hubTimer + 1) % 2 ^ 64 ∧ OnlyRegs s t ∧ FieldsBut [hubTimer.key .hub] s t) ∧
  (∀ s : State, s.pending = [] → held s = true → step s = .next s)

/-- Every command leaves the queue of waiting commands as it is. -/
def Obligations.CommandsLeaveTheQueue : Prop :=
  ∀ (c : Instr) (s t : State), exec c s = .next t → t.pending = s.pending

/-- Every command answers a next state, in every state and on every operand, but VIN_CHANGE above 60.0 V, for which R454 states no behaviour. -/
def Obligations.EveryCommandCompletes : Prop :=
  ∀ (c : Instr) (s : State), (∀ mv, c = .vinChange mv → mv.toNat ≤ 60000) → ∃ t, exec c s = .next t

/-- Reset leaves the values of the spec's register tables, reads as zero everywhere in DRAM, and has no command waiting; the page states are the
tables'. -/
def Obligations.ResetLeavesTheTablesValues : Prop :=
  (∀ (p : Page) (r : Row), rd State.reset p r = r.rst p % 2 ^ 64 % 2 ^ r.width) ∧
  rd State.reset .hub hubRstCause = 1 ∧ rd State.reset .hub hubTimer = 0 ∧ rd State.reset .mgpwr pwrCap = 4400 ∧
  rd State.reset .mgpwr pwrTjLimit = 100 ∧ (∀ u, rd State.reset (unitPage u) paceCeil = 32) ∧ (∀ b, rd State.reset (.bayCtl b) baySrSeed = 1) ∧
  (∀ b a, pgState State.reset (.arr b a) = 2) ∧ pgState State.reset .hub = 4 ∧ (∀ a, mget 0 State.reset.dram a = 0) ∧ State.reset.pending = [] ∧
  held State.reset = false

/-- The invariant of the stored state holds at reset. -/
def Obligations.ResetMeetsTheInvariant : Prop :=
 StateInv State.reset

/-- The invariant of the stored state (every memory and unit table in its canonical form, every fuse counter at most 64) is kept by every step,
from every state that meets it. -/
def Obligations.EveryStepKeepsTheInvariant : Prop :=
  ∀ s t : State, StateInv s → step s = .next t → StateInv t

/-- Fuses only ever advance, and only COMMIT and SEC_COMMIT touch them (R509): a step of any other command leaves them; a commit sets the
counters that it names to their ACTIVE copy's SVN where that is higher, and is refused, changing none, while one has a PENDING copy; a copy
whose SVN lies below its counter does not verify. -/
def Obligations.FusesOnlyAdvance : Prop :=
  (∀ (c : Instr) (s t : State), exec c s = .next t → blowsFuses c = false → t.fuses = s.fuses) ∧
  (∀ (c : Instr) (s t : State), StateInv s → exec c s = .next t → FusesGrow s.fuses t.fuses ∧ FusesOk t.fuses) ∧
  (∀ (s : State) (port : MgmtPort) (mask : BitVec 4) (k : Nat), k = 1 ∨ k = 2 ∨ k = 3 ∨ k = 4 → bitOf mask.toNat (k - 1) = true →
    mget none s.mg.pending k ≠ none → mgReach s port = true →
    ∃ t, exec (.commit port mask) s = .next t ∧ t.fuses = s.fuses ∧ t.resp ≠ [] ∧ t.resp.head? ≠ some 0) ∧
  (∀ (s t : State) (key : BitVec 16) (mask : BitVec 4) (k : Nat), k = 1 ∨ k = 2 ∨ k = 3 ∨ k = 4 → bitOf mask.toNat (k - 1) = true →
    mget none s.mg.pending k ≠ none → exec (.secCommit key mask) s = .next t → t.fuses = s.fuses) ∧
  (∀ (s : State) (mask : BitVec 4), StateInv s → mgReach s .i3c = true → s.mg.lost = false → s.mg.pending = [] →
    ∃ t, exec (.commit .i3c mask) s = .next t ∧ FusesGrow s.fuses t.fuses ∧
      ∀ k, k = 1 ∨ k = 2 ∨ k = 3 ∨ k = 4 → svnFuse t k =
        if bitOf mask.toNat (k - 1) then max (svnFuse s k) (min 64 (imgSvn (imgCopy s k (activeCopy s k)))) else svnFuse s k) ∧
  (∀ (s : State) (mask : BitVec 4), StateInv s → held s = false → s.mg.lost = false → s.mg.pending = [] →
    ∃ t, exec (.secCommit 0xD5A7 mask) s = .next t ∧ FusesGrow s.fuses t.fuses ∧
      ∀ k, k = 1 ∨ k = 2 ∨ k = 3 ∨ k = 4 → svnFuse t k =
        if bitOf mask.toNat (k - 1) then max (svnFuse s k) (min 64 (imgSvn (imgCopy s k (activeCopy s k)))) else svnFuse s k) ∧
  (∀ (s : State) (k c : Nat), imgSvn (imgCopy s k c) < svnFuse s k → imageReason s k c ≠ none)

/-- Writing a copy with UPDATE_BEGIN clears every IMAGE entry for that copy (R513). -/
def Obligations.UpdateBeginClearsTheCopysImageEntries : Prop :=
  ∀ (s : State) (port : MgmtPort) (type : Fin 4) (size : Nat) (u : Update) (t : State), s.mg.update = none →
    exec (.updateBegin port type size) s = .next t → t.mg.update = some u →
      (∀ x ∈ t.mg.ledger, ∀ e, x.2 = some e → ¬ (e.kind = 0x10 ∧ e.unit = u.type ∧ e.arg % 2 = u.copy)) ∧
      (∀ x ∈ s.mg.ledger, (∀ e, x.2 = some e → ¬ (e.kind = 0x10 ∧ e.unit = u.type ∧ e.arg % 2 = u.copy)) → x ∈ t.mg.ledger) ∧
      u.type = type.val + 1

/-- CONFIG_WRITE replaces the configuration copy with the lower SEQ and leaves the other intact; the new copy has the higher SEQ plus 1 (R499).
-/
def Obligations.ConfigWriteReplacesTheOlderCopy : Prop :=
  ∀ (s : State) (bytes : List Byte) (off : Nat), mgReach s .i3c = true → s.mg.lost = false → bytes.length ≤ 1024 → off + bytes.length ≤ 4096 →
    (let d := splice (slice s.mg.cfgBuf 0 4096) off bytes
     fieldAt d 4092 4 = (crc32c (slice d 0 4092)).toNat) →
    fieldAt s.mg.cfgA 4 4 ≠ fieldAt s.mg.cfgB 4 4 → max (fieldAt s.mg.cfgA 4 4) (fieldAt s.mg.cfgB 4 4) + 1 < 2 ^ 32 →
    ∃ t, exec (.configWrite .i3c off bytes true) s = .next t ∧ t.resp = [0] ∧ t.mg.cfg = s.mg.cfg ∧
      (fieldAt s.mg.cfgA 4 4 < fieldAt s.mg.cfgB 4 4 → t.mg.cfgB = s.mg.cfgB ∧ fieldAt t.mg.cfgA 4 4 = fieldAt s.mg.cfgB 4 4 + 1) ∧
      (fieldAt s.mg.cfgB 4 4 < fieldAt s.mg.cfgA 4 4 → t.mg.cfgA = s.mg.cfgA ∧ fieldAt t.mg.cfgB 4 4 = fieldAt s.mg.cfgA 4 4 + 1)

/-- RUN checks the settings of the table engines and of the thread-group unit (R124, R155, R224): an empty table sets CFG_ZERO; one of more than
256 entries, or whose bytes leave bay store or touch the protected region, sets CFG_RANGE; BAR_TIMEOUT of 0 sets CFG_ZERO; in each case the
page stays STOPPED, and in no other. -/
def Obligations.RunChecksTheSettings : Prop :=
  (∀ (s : State) (p : Page), StateInv s → (∃ b a, p = .arr b a) ∨ (∃ b, p = .vec b) → pgState s p = 2 → rd s p hdrBusy = 0 →
    dieHeld s (pageDie p) = false →
    (let len := (match p with | .vec _ => 128 | _ => 64 : Nat)
     let base := 64 * (match p with | .vec _ => rd s p vecVpdBase | _ => rd s p arrMfdBase)
     let n := (match p with | .vec _ => rd s p vecVpdCount | _ => rd s p arrMfdCount)
     let zero := n = 0
     let range := 256 < n ∨ 0x8000000 < base + len * n ∨ (0 < n ∧ 0x7800000 < base + len * n)
     ∃ t, exec (.run p) s = .next t ∧ (zero → bitOf (rd t p hdrErr) 1 = true) ∧ (range → bitOf (rd t p hdrErr) 2 = true) ∧
       (zero ∨ range → pgState t p = 2) ∧ (¬ zero → ¬ range → pgState t p = 3 ∧ rd t p hdrErr = rd s p hdrErr))) ∧
  (∀ (s : State) (b : BayId), StateInv s → pgState s (.tgu b) = 2 → rd s (.tgu b) hdrBusy = 0 → dieHeld s (pageDie (.tgu b)) = false →
    ∃ t, exec (.run (.tgu b)) s = .next t ∧
      (rd s (.tgu b) tguBarTimeout = 0 → bitOf (rd t (.tgu b) hdrErr) 1 = true ∧ pgState t (.tgu b) = 2) ∧
      (rd s (.tgu b) tguBarTimeout ≠ 0 → pgState t (.tgu b) = 3 ∧ rd t (.tgu b) hdrErr = rd s (.tgu b) hdrErr))

/-- PG_CTRL reads 0; a write performs CLR_ERR first and then the one command of highest precedence; a command that the page does not accept in
its state, or does not offer, changes nothing (R52). -/
def Obligations.ControlWritesFollowPrecedence : Prop :=
  (∀ (s : State) (who : Requester) (p : Page), held s = false → dcsReaches s who (4096 * p.slot + 0x10) = true →
    exec (.dcsAccess who (BitVec.ofNat 26 (4096 * p.slot + 0x10)) 4 none) s = .next { dcsGood s who with resp := [0, 0, 0, 0] }) ∧
  (∀ (s : State) (who : Requester) (p : Page) (v : BitVec 32), dcsReaches s who (4096 * p.slot + 0x10) = true → pgState s p ≠ 0 →
    ∃ u, exec (.clrErr p) (dcsGood s who) = .next u ∧
      exec (.registerWrite who (BitVec.ofNat 26 (4096 * p.slot + 0x10)) 4 (v.zeroExtend 64)) s =
        (let s' := if bitOf v.toNat 3 then u else dcsGood s who
         if bitOf v.toNat 2 then exec (.reset p) s' else if bitOf v.toNat 1 then exec (.stop p) s' else if bitOf v.toNat 4 then exec (.sleep p) s'
         else if bitOf v.toNat 5 then exec (.wake p) s' else if bitOf v.toNat 0 then exec (.run p) s' else .next s')) ∧
  (∀ (s : State) (p : Page), p.runctl = false ∨ pgState s p ≠ 2 → exec (.run p) s = .next s) ∧
  (∀ (s : State) (p : Page), p.runctl = false ∨ (pgState s p ≠ 3 ∧ pgState s p ≠ 4 ∧ pgState s p ≠ 6) → exec (.stop p) s = .next s) ∧
  (∀ (s : State) (p : Page), pgState s p = 0 ∨ pgState s p = 1 ∨ (pgState s p = 7 ∧ domainUp s = false) → exec (.reset p) s = .next s) ∧
  (∀ (s : State) (p : Page), p.sleepctl = false ∨ pgState s p ≠ 2 → exec (.sleep p) s = .next s) ∧
  (∀ (s : State) (p : Page), p.sleepctl = false ∨ pgState s p ≠ 1 → exec (.wake p) s = .next s) ∧
  (∀ (s : State) (p : Page), pgState s p = 0 → exec (.clrErr p) s = .next s)

/-- Every page lies in a slot of its own, below 64 MiB, and the slot names it (R42, R45, R49). -/
def Obligations.PagesHaveTheirOwnSlots : Prop :=
  (∀ p : Page, pageOfSlot p.slot = some p ∧ p.slot < 16384) ∧ (∀ p q : Page, p.slot = q.slot → p = q) ∧ (∀ p q : Page, pgId p = pgId q → p = q)

/-- An error that goes from 0 to 1 sets its bit; the first one since PG_ERR was zero is captured whole and raises its event, a later one sets
MULTI and keeps the record (R53, R62); one log entry names the page, the bit and the record (R68). A full log keeps its entries: the new one
is discarded and counted, and LOG_FULL stands in HUB PG_ERR (R68). -/
def Obligations.ErrorsAreCapturedAndLogged : Prop :=
  (∀ (s : State) (p : Page) (e : Err), StateInv s → pgState s p ≠ 0 → e.stop = false → e.bit < 32 → bitOf (rd s p hdrErr) e.bit = false →
    rd s .hub hubLogHead - rd s .hub hubLogTail < 256 →
    bitOf (rd (raise s p e) p hdrErr) e.bit = true ∧ (∀ i, i ≠ e.bit → bitOf (rd (raise s p e) p hdrErr) i = bitOf (rd s p hdrErr) i) ∧
    (rd s p hdrErr = 0 → rd (raise s p e) p hdrErrInfo = errInfo e ∧ rd (raise s p e) p hdrErrAddr = e.addr.getD 0 % 2 ^ 64 ∧
      bitOf (rd (raise s p e) p hdrEvt) 0 = true) ∧
    (rd s p hdrErr ≠ 0 → rd (raise s p e) p hdrErrInfo = setBit (rd s p hdrErrInfo) 24 ∧
      rd (raise s p e) p hdrErrAddr = rd s p hdrErrAddr) ∧
    rd (raise s p e) .hub hubLogHead = (rd s .hub hubLogHead + 1) % 2 ^ 32 ∧
    (mget none (raise s p e).log (rd s .hub hubLogHead % 256)).map (fun x => (x.src.toNat, x.code.toNat, x.info.toNat)) =
      some (pgId p, e.bit, rd (raise s p e) p hdrErrInfo)) ∧
  (∀ (s : State) (addr src code sev info : Nat) (va : Bool), StateInv s → 256 ≤ rd s .hub hubLogHead - rd s .hub hubLogTail →
    (logWrite s addr src code sev va info).log = s.log ∧ rd (logWrite s addr src code sev va info) .hub hubLogHead = rd s .hub hubLogHead ∧
    rd (logWrite s addr src code sev va info) .hub hubLogTail = rd s .hub hubLogTail ∧
    bitOf (rd (logWrite s addr src code sev va info) .hub hdrErr) 16 = true ∧
    rd s .hub hubLogOvf ≤ rd (logWrite s addr src code sev va info) .hub hubLogOvf ∧
    (rd s .hub hubLogOvf < 2 ^ 32 - 1 → rd s .hub hubLogOvf < rd (logWrite s addr src code sev va info) .hub hubLogOvf))

/-- The exact conversions of R82's table: a code of the source format converts to a code of the same value, neither saturated nor flushed, under
every rounding. -/
def Obligations.ExactConversionsKeepTheValue : Prop :=
  ∀ (x y : Elem) (c : Nat) (rm : RMode), (x, y) ∈ exactPairs → c < 2 ^ x.width →
    (cvtPlain y rm (decElem x c)).sat = false ∧ (cvtPlain y rm (decElem x c)).flush = false ∧
    (cvtPlain y rm (decElem x c)).code < 2 ^ y.width ∧ SameVal (decElem y (cvtPlain y rm (decElem x c)).code) (decElem x c)

/-- Elements packed from the least significant bit (R77): element i of width w occupies bits w·i to w·i + w − 1 of the field, and the n-th byte
of the field holds its bits 8n to 8n + 7. -/
def Obligations.ElementsArePackedFromTheLeastBit : Prop :=
  (∀ (w : Nat) (l : List Nat) (i : Nat), 0 < w → (∀ c ∈ l, c < 2 ^ w) → (h : i < l.length) →
    bits (packCodes w l) (w * i + w - 1) (w * i) = l[i]) ∧
  (∀ (w : Nat) (l : List Nat) (i : Nat), (∀ c ∈ l, c < 2 ^ w) → (h : i < l.length) → packedAt w (packCodes w l) i = l[i]) ∧
  (∀ (k field n : Nat), n < k → ((toLE k field).getD n 0).toNat = bits field (8 * n + 7) (8 * n)) ∧
  (∀ (k field : Nat), field < 2 ^ (8 * k) → leNat (toLE k field) = field)

/-- RNE rounds to the nearest integer, and of two equally near ones to the even one (R84). -/
def Obligations.RoundingGoesToNearestEven : Prop :=
  ∀ (neg : Bool) (n d : Nat), 0 < d →
    (2 * (roundQ .rne neg n d * d) ≤ 2 * n + d) ∧ (2 * n ≤ 2 * (roundQ .rne neg n d * d) + d) ∧
    (2 * (roundQ .rne neg n d * d) = 2 * n + d ∨ 2 * n = 2 * (roundQ .rne neg n d * d) + d → roundQ .rne neg n d % 2 = 0)

/-- The engines of a bay leave everything but their bay alone: no command of the arrays, the vector engine, bay store or the translation unit
changes another bay, DRAM, a cache, a link, a port, the host port's tracker or the start's state. -/
def Obligations.BayEnginesStayInTheirBay : Prop :=
  ∀ (b : BayId) (c : Instr) (s t : State), bayEngine b c = true → exec c s = .next t →
    OtherBays b s t ∧ t = { s with
      regs := t.regs, harts := t.harts, hostPort := { s.hostPort with msixPend := t.hostPort.msixPend }
      coh := { s.coh with heldLines := t.coh.heldLines }, log := t.log, bays := t.bays, heldReset := t.heldReset, freeCount := t.freeCount, resv := t.resv
      mg := { s.mg with ledger := t.mg.ledger, nextSeq := t.mg.nextSeq, stepEntries := t.mg.stepEntries, hubQueue := t.mg.hubQueue } }

/-- The commands that write settings change nothing but register fields, what an event reaches, and the error log, in every state and on every
operand. -/
def Obligations.SettingsWritesTouchRegistersOnly : Prop :=
  ∀ (c : Instr) (s t : State), writesSettings c = true → exec c s = .next t → OnlyErrors s t

/-- Every byte of the DRAM space, its side bits and the lines of the system cache stay as they are under every command but those that store to
memory, take a line from or give one to it, start it or reset the module; links, routes, the catalogue, pins and stack temperatures change
by their own commands, a reset or a register write only. -/
def Obligations.OnlyTheirCommandsChange : Prop :=
  ∀ (c : Instr) (s t : State), exec c s = .next t →
    (mayWriteDram c = false → t.dram = s.dram ∧ t.side = s.side ∧ t.sysc = s.sysc) ∧
    (resetsOrDispatches c = false →
      (trainsLinks c = false → t.links = s.links) ∧ (writesRoutes c = false → t.routes = s.routes) ∧
      (writesCatalogue c = false → t.catalogue = s.catalogue) ∧ (movesPins c = false → t.pins = s.pins) ∧
      (samplesStacks c = false → t.stkTemp = s.stkTemp))
end

