-- ==== Sys2Proof/Laws/Maps.lean ====
section
/-! SUPPORT. The laws of the sparse maps: reading after writing, and the canonical form that every operation keeps. -/

namespace Sys2Proof.Machine

variable {α : Type}

theorem mget_minsert_same (d : α) (m : SMap α) (k : Nat) (v : α) : mget d (minsert m k v) k = v := by
  induction m with
  | nil => simp [minsert, mget]
  | cons x t ih =>
    obtain ⟨j, w⟩ := x
    simp only [minsert]
    split
    · simp [mget]
    · split
      · simp [mget]
      · simp [mget, *]

theorem mget_minsert_other (d : α) (m : SMap α) (k k' : Nat) (v : α) (h : k' ≠ k) : mget d (minsert m k v) k' = mget d m k' := by
  induction m with
  | nil => simp [minsert, mget, h]
  | cons x t ih =>
    obtain ⟨j, w⟩ := x
    simp only [minsert]
    split
    · subst_vars; simp [mget, h]
    · split
      · simp only [mget, h, if_false]
        split
        · have h1 : k' ≠ j := by omega
          have h2 : k' < j := by omega
          simp [h1, h2]
        · rfl
      · simp [mget, ih]

theorem Rising.tail {x : Nat × α} {m : SMap α} (h : Rising (x :: m)) : Rising m := (List.pairwise_cons.1 h).2

theorem Rising.head {x : Nat × α} {m : SMap α} (h : Rising (x :: m)) : ∀ y ∈ m, x.1 < y.1 := (List.pairwise_cons.1 h).1

theorem mget_below (d : α) (m : SMap α) (k : Nat) (h : ∀ y ∈ m, k < y.1) : mget d m k = d := by
  cases m with
  | nil => rfl
  | cons x t =>
    obtain ⟨j, w⟩ := x
    have h1 : k < j := h (j, w) (by simp)
    have h2 : k ≠ j := by omega
    simp [mget, h1, h2]

theorem mget_merase_same (d : α) (m : SMap α) (k : Nat) (h : Rising m) : mget d (merase m k) k = d := by
  induction m with
  | nil => rfl
  | cons x t ih =>
    obtain ⟨j, w⟩ := x
    simp only [merase]
    split
    · subst_vars; exact mget_below d t _ h.head
    · split
      · rename_i h1 h2; simp [mget, h1, h2]
      · rename_i h1 h2; simp [mget, h1, h2, ih h.tail]

theorem mget_merase_other (d : α) (m : SMap α) (k k' : Nat) (hk : k' ≠ k) (h : Rising m) :
    mget d (merase m k) k' = mget d m k' := by
  induction m with
  | nil => rfl
  | cons x t ih =>
    obtain ⟨j, w⟩ := x
    simp only [merase]
    split
    · rename_i h0
      subst h0
      by_cases h1 : k' < k
      · rw [mget_below d t k' (fun y hy => Nat.lt_trans h1 (h.head y hy))]
        simp [mget, hk, h1]
      · simp [mget, hk, h1]
    · split
      · rfl
      · simp [mget, ih h.tail]

/-- A key reads the value written to it. -/
theorem mget_mset_same [DecidableEq α] (d : α) (m : SMap α) (k : Nat) (v : α) (h : Rising m) : mget d (mset d m k v) k = v := by
  unfold mset
  split
  · rename_i hv; rw [hv]; exact mget_merase_same d m k h
  · exact mget_minsert_same d m k v

/-- Every other key reads as before. -/
theorem mget_mset_other [DecidableEq α] (d d' : α) (m : SMap α) (k k' : Nat) (v : α) (hk : k' ≠ k) (h : Rising m) :
    mget d' (mset d m k v) k' = mget d' m k' := by
  unfold mset
  split
  · exact mget_merase_other d' m k k' hk h
  · exact mget_minsert_other d' m k k' v hk

theorem mem_minsert {m : SMap α} {k : Nat} {v : α} {y : Nat × α} (h : y ∈ minsert m k v) : y = (k, v) ∨ y ∈ m := by
  induction m with
  | nil => simpa [minsert] using h
  | cons x t ih =>
    obtain ⟨j, w⟩ := x
    simp only [minsert] at h
    split at h
    · rcases List.mem_cons.1 h with h | h
      · exact .inl h
      · exact .inr (List.mem_cons_of_mem _ h)
    · split at h
      · rcases List.mem_cons.1 h with h | h
        · exact .inl h
        · exact .inr h
      · rcases List.mem_cons.1 h with h | h
        · exact .inr (by simp [h])
        · rcases ih h with h | h
          · exact .inl h
          · exact .inr (List.mem_cons_of_mem _ h)

theorem mem_merase {m : SMap α} {k : Nat} {y : Nat × α} (h : y ∈ merase m k) : y ∈ m := by
  induction m with
  | nil => simp [merase] at h
  | cons x t ih =>
    obtain ⟨j, w⟩ := x
    simp only [merase] at h
    split at h
    · exact List.mem_cons_of_mem _ h
    · split at h
      · exact h
      · rcases List.mem_cons.1 h with h | h
        · simp [h]
        · exact List.mem_cons_of_mem _ (ih h)

theorem Rising.minsert {m : SMap α} (h : Rising m) (k : Nat) (v : α) : Rising (minsert m k v) := by
  induction m with
  | nil => simp [Machine.minsert, Rising]
  | cons x t ih =>
    obtain ⟨j, w⟩ := x
    simp only [Machine.minsert]
    split
    · subst_vars; exact List.pairwise_cons.2 ⟨h.head, h.tail⟩
    · split
      · rename_i h1 h2
        refine List.pairwise_cons.2 ⟨fun y hy => ?_, h⟩
        rcases List.mem_cons.1 hy with hy | hy
        · simpa [hy] using h2
        · exact Nat.lt_trans h2 (h.head y hy)
      · rename_i h1 h2
        refine List.pairwise_cons.2 ⟨fun y hy => ?_, ih h.tail⟩
        rcases mem_minsert hy with hy | hy
        · simp only [hy]; omega
        · exact h.head y hy

theorem Rising.merase {m : SMap α} (h : Rising m) (k : Nat) : Rising (merase m k) := by
  induction m with
  | nil => simp [Machine.merase, Rising]
  | cons x t ih =>
    obtain ⟨j, w⟩ := x
    simp only [Machine.merase]
    split
    · exact h.tail
    · split
      · exact h
      · exact List.pairwise_cons.2 ⟨fun y hy => h.head y (mem_merase hy), ih h.tail⟩

/-- A write keeps the keys rising. -/
theorem Rising.mset [DecidableEq α] {m : SMap α} (h : Rising m) (d : α) (k : Nat) (v : α) : Rising (mset d m k v) := by
  unfold Machine.mset
  split
  · exact h.merase k
  · exact h.minsert k v

/-- A write keeps the canonical form. -/
theorem Canonical.mset [DecidableEq α] {d : α} {m : SMap α} (h : Canonical d m) (k : Nat) (v : α) : Canonical d (mset d m k v) := by
  refine ⟨h.1.mset d k v, fun y hy => ?_⟩
  unfold Machine.mset at hy
  split at hy
  · exact h.2 y (mem_merase hy)
  · rcases mem_minsert hy with hy | hy
    · subst hy; assumption
    · exact h.2 y hy

/-- Dropping entries keeps it. -/
theorem Canonical.filter {d : α} {m : SMap α} (h : Canonical d m) (p : Nat × α → Bool) : Canonical d (m.filter p) :=
  ⟨h.1.filter p, fun y hy => h.2 y (List.mem_filter.1 hy).1⟩

/-- The empty map is canonical. -/
theorem Canonical.nil (d : α) : Canonical d ([] : SMap α) := ⟨List.Pairwise.nil, by simp⟩

/-- Mapping the values keeps it. -/
theorem Canonical.mmapv [DecidableEq α] {d : α} {m : SMap α} (h : Canonical d m) (f : α → α) : Canonical d (mmapv d f m) := by
  constructor
  · refine List.Pairwise.filterMap _ (fun a a' haa' b hb b' hb' => ?_) h.1
    split at hb
    · cases hb
    · split at hb'
      · cases hb'
      · cases hb
        cases hb'
        exact haa'
  · intro y hy
    simp only [Machine.mmapv, List.mem_filterMap] at hy
    obtain ⟨x, -, hx⟩ := hy
    split at hx
    · cases hx
    · rename_i h1
      cases hx
      exact h1

/-- Two canonical maps that read alike are the same data. -/
theorem Canonical.ext_get {d : α} {m n : SMap α} (hm : Canonical d m) (hn : Canonical d n) (h : ∀ k, mget d m k = mget d n k) : m = n := by
  induction m generalizing n with
  | nil =>
    cases n with
    | nil => rfl
    | cons y u =>
      obtain ⟨k, w⟩ := y
      have := h k
      simp [mget] at this
      exact absurd this.symm (hn.2 (k, w) (by simp))
  | cons x t ih =>
    obtain ⟨j, v⟩ := x
    have hv : v ≠ d := hm.2 (j, v) (by simp)
    cases n with
    | nil =>
      have := h j
      simp [mget] at this
      exact absurd this hv
    | cons y u =>
      obtain ⟨k, w⟩ := y
      have hw : w ≠ d := hn.2 (k, w) (by simp)
      have hjk : j = k := by
        rcases Nat.lt_trichotomy j k with h1 | h1 | h1
        · have := h j
          simp [mget, h1, Nat.ne_of_lt h1] at this
          exact absurd this hv
        · exact h1
        · have := h k
          simp [mget, h1, Nat.ne_of_lt h1] at this
          exact absurd this.symm hw
      subst hjk
      have hvw : v = w := by simpa [mget] using h j
      subst hvw
      have : t = u := by
        refine ih ⟨hm.1.tail, fun y hy => hm.2 y (by simp [hy])⟩ ⟨hn.1.tail, fun y hy => hn.2 y (by simp [hy])⟩ (fun k => ?_)
        have hk := h k
        by_cases h1 : k = j
        · subst h1
          rw [mget_below d t k hm.1.head, mget_below d u k hn.1.head]
        · by_cases h2 : k < j
          · rw [mget_below d t k (fun y hy => Nat.lt_trans h2 (hm.1.head y hy)), mget_below d u k (fun y hy => Nat.lt_trans h2 (hn.1.head y hy))]
          · simpa [mget, h1, h2] using hk
      rw [this]

end Sys2Proof.Machine
end

