-- ==== Sys2Proof/Laws/Memory.lean ====
section
/-! SUPPORT. What the operations on byte memories do: DRAM and bay store keep the canonical form, a write is read back, and every byte outside it
reads as before. -/

namespace Sys2Proof.Machine

theorem mwfFrom_iff {α : Type} [DecidableEq α] (d : α) (m : SMap α) :
    ∀ lo : Option Nat, mwfFrom d lo m = true ↔ (∀ l, lo = some l → ∀ x ∈ m, l < x.1) ∧ Canonical d m := by
  induction m with
  | nil => intro lo; simp [mwfFrom, Canonical, Rising]
  | cons y t ih =>
    intro lo
    obtain ⟨j, v⟩ := y
    simp only [mwfFrom, Bool.and_eq_true, decide_eq_true_eq, ih]
    constructor
    · rintro ⟨⟨hl, hv⟩, hb, hr, hc⟩
      refine ⟨?_, List.pairwise_cons.mpr ⟨fun x hx => hb j rfl x hx, hr⟩, ?_⟩
      · rintro l rfl x hx
        have hlj : l < j := by simpa using hl
        rcases List.mem_cons.mp hx with rfl | hx
        · exact hlj
        · exact Nat.lt_trans hlj (hb j rfl x hx)
      · intro x hx
        rcases List.mem_cons.mp hx with rfl | hx
        · exact hv
        · exact hc x hx
    · rintro ⟨hb, hr, hc⟩
      have hr' := List.pairwise_cons.mp hr
      refine ⟨⟨?_, hc (j, v) (List.mem_cons_self ..)⟩, ?_, hr'.2, fun x hx => hc x (List.mem_cons_of_mem _ hx)⟩
      · cases lo with
        | none => rfl
        | some l => simpa using hb l rfl (j, v) (List.mem_cons_self ..)
      · rintro l hl x hx
        cases hl
        exact hr'.1 x hx

/-- The check of the form and the form. -/
theorem mwf_iff {α : Type} [DecidableEq α] (d : α) (m : SMap α) : mwf d m = true ↔ Canonical d m := by
  rw [mwf, mwfFrom_iff]; simp

theorem Memory.wf_iff (m : SMap Byte) : Memory.wf m = true ↔ Canonical 0 m := mwf_iff 0 m

/-! Consecutive bytes. -/

theorem Canonical.putBytes {m : SMap Byte} (h : Canonical 0 m) (a : Nat) (d : List Byte) : Canonical 0 (putBytes m a d) := by
  induction d generalizing m a with
  | nil => exact h
  | cons b r ih => exact ih (h.mset a b) (a + 1)

theorem Memory.wf_putBytes {m : SMap Byte} (h : Memory.wf m = true) (a : Nat) (d : List Byte) : Memory.wf (Machine.putBytes m a d) = true :=
  (Memory.wf_iff _).mpr (((Memory.wf_iff _).mp h).putBytes a d)

theorem Rising.putBytes {m : SMap Byte} (h : Rising m) (a : Nat) (d : List Byte) : Rising (putBytes m a d) := by
  induction d generalizing m a with
  | nil => exact h
  | cons b r ih => exact ih (h.mset 0 a b) (a + 1)

/-- A byte outside the bytes written reads as before. -/
theorem mget_putBytes_other {m : SMap Byte} (h : Rising m) (a k : Nat) (d : List Byte) (hk : k < a ∨ a + d.length ≤ k) :
    mget 0 (putBytes m a d) k = mget 0 m k := by
  induction d generalizing m a with
  | nil => rfl
  | cons b r ih =>
    simp only [List.length_cons] at hk
    rw [Machine.putBytes, ih (h.mset 0 a b) (a + 1) (by omega), mget_mset_other (hk := by omega) (h := h)]

/-- A byte written reads as written. -/
theorem mget_putBytes_in {m : SMap Byte} (h : Rising m) (a : Nat) (d : List Byte) (i : Nat) (hi : i < d.length) :
    mget 0 (putBytes m a d) (a + i) = d[i] := by
  induction d generalizing m a i with
  | nil => simp at hi
  | cons b r ih =>
    rw [Machine.putBytes]
    cases i with
    | zero => rw [mget_putBytes_other (h.mset 0 a b) (a + 1) (a + 0) r (by omega)]; exact mget_mset_same (h := h) ..
    | succ i => simpa [Nat.add_assoc, Nat.add_comm 1 i] using ih (h.mset 0 a b) (a + 1) i (by simpa using hi)

theorem putDram_eq (m : SMap Byte) (a : Nat) (d : List Byte) : putDram m a d = putBytes m a d := by
  induction d generalizing m a with
  | nil => rfl
  | cons b r ih => exact ih _ _

/-! DRAM. -/

theorem dramPut_canonical {s : State} (h : Canonical 0 s.dram) (k : Nat) (d : List Byte) (sd : Side) : Canonical 0 (dramPut s k d sd).dram := by
  show Canonical 0 (putDram s.dram _ _)
  rw [putDram_eq]; exact h.putBytes _ _

theorem dramPut_side {s : State} (h : Canonical {} s.side) (k : Nat) (d : List Byte) (sd : Side) : Canonical {} (dramPut s k d sd).side :=
  h.mset k sd

/-- A block written to the DRAM array changes no byte of another block. -/
theorem dramPut_other {s : State} (h : Rising s.dram) (k : Nat) (d : List Byte) (sd : Side) (a : Nat) (ha : a < 256 * k ∨ 256 * k + 256 ≤ a) :
    mget 0 (dramPut s k d sd).dram a = mget 0 s.dram a := by
  show mget 0 (putDram s.dram _ _) a = _
  rw [putDram_eq]
  refine mget_putBytes_other h _ _ _ ?_
  have : (slice d 0 256).length = 256 := by simp only [slice, List.length_append, List.length_take, List.length_drop, List.length_replicate]; omega
  omega

/-! Bay store. -/

theorem stWrite_canonical {t : Store} (h : Canonical 0 t.bytes) (a : Nat) (d : List Byte) (p : Bool) : Canonical 0 (stWrite t a d p).bytes :=
  h.putBytes a d

theorem stWriteCarried_canonical {t : Store} (h : Canonical 0 t.bytes) (a : Nat) (d : List Byte) (c : BitVec 32) (p : Bool) :
    Canonical 0 (stWriteCarried t a d c p).bytes := h.putBytes a d

/-- A write of bay store changes no byte outside it. -/
theorem stWrite_other {t : Store} (h : Rising t.bytes) (a : Nat) (d : List Byte) (p : Bool) (k : Nat) (hk : k < a ∨ a + d.length ≤ k) :
    mget 0 (stWrite t a d p).bytes k = mget 0 t.bytes k := mget_putBytes_other h a k d hk

/-- A write of bay store is read back. -/
theorem stBytes_stWrite {t : Store} (h : Rising t.bytes) (a : Nat) (d : List Byte) (p : Bool) : stBytes (stWrite t a d p) a d.length = d := by
  refine List.ext_getElem (by simp [stBytes]) ?_
  intro i h1 h2
  have := mget_putBytes_in h a d i h2
  simpa [stBytes, stWrite] using this

/-- Reset memory has the form. -/
theorem reset_memory_wf : Memory.wf State.reset.dram = true := rfl

end Sys2Proof.Machine
end

