-- ==== Sys2Proof/Laws/Regs.lean ====
section
/-! SUPPORT. The laws of the register store: a field reads what was written to it, cut to its width; every other field reads as before; a
register write changes nothing else. -/

namespace Sys2Proof.Machine

theorem pow_two_le_of_le {a b : Nat} (h : a ≤ b) : 2 ^ a ≤ 2 ^ b := Nat.pow_le_pow_right (by decide) h

/-- A field reads the value written, cut to its width. -/
theorem rd_wr_same (s : State) (p : Page) (r : Row) (v : Nat) (hs : Rising s.regs) (hw : r.width ≤ 64) :
    rd (wr s p r v) p r = v % 2 ^ r.width := by
  have h1 : v % 2 ^ r.width < 2 ^ r.width := Nat.mod_lt _ (Nat.two_pow_pos _)
  have h2 := pow_two_le_of_le hw
  simp only [rd, wr]
  rw [mget_mset_same _ _ _ _ hs, BitVec.toNat_ofNat, Nat.mod_eq_of_lt (b := 2 ^ 64) (by omega), Nat.mod_eq_of_lt h1]

/-- A field reads below 2 to its width. -/
theorem rd_lt (s : State) (p : Page) (r : Row) : rd s p r < 2 ^ r.width := Nat.mod_lt _ (Nat.two_pow_pos _)

/-- A field at another key reads as before. -/
theorem rd_wr_other (s : State) (p p' : Page) (r r' : Row) (v : Nat) (hs : Rising s.regs) (hk : r'.key p' ≠ r.key p) :
    rd (wr s p r v) p' r' = rd s p' r' := by
  simp only [rd, wr]
  rw [mget_mset_other _ _ _ _ _ _ hk hs]

/-- A register write keeps the register store's keys rising. -/
theorem wr_rising (s : State) (p : Page) (r : Row) (v : Nat) (h : Rising s.regs) : Rising (wr s p r v).regs := h.mset _ _ _

section
variable (s : State) (p : Page) (r : Row) (v : Nat)
@[simp] theorem wr_pending : (wr s p r v).pending = s.pending := rfl
@[simp] theorem wr_fuses : (wr s p r v).fuses = s.fuses := rfl
@[simp] theorem wr_heldReset : (wr s p r v).heldReset = s.heldReset := rfl
@[simp] theorem wr_log : (wr s p r v).log = s.log := rfl
@[simp] theorem wr_bays : (wr s p r v).bays = s.bays := rfl
@[simp] theorem wr_harts : (wr s p r v).harts = s.harts := rfl
@[simp] theorem wr_caches : (wr s p r v).caches = s.caches := rfl
@[simp] theorem wr_sysc : (wr s p r v).sysc = s.sysc := rfl
@[simp] theorem wr_dram : (wr s p r v).dram = s.dram := rfl
@[simp] theorem wr_side : (wr s p r v).side = s.side := rfl
@[simp] theorem wr_coh : (wr s p r v).coh = s.coh := rfl
@[simp] theorem wr_chans : (wr s p r v).chans = s.chans := rfl
@[simp] theorem wr_stkTemp : (wr s p r v).stkTemp = s.stkTemp := rfl
@[simp] theorem wr_links : (wr s p r v).links = s.links := rfl
@[simp] theorem wr_ports : (wr s p r v).ports = s.ports := rfl
@[simp] theorem wr_routes : (wr s p r v).routes = s.routes := rfl
@[simp] theorem wr_catalogue : (wr s p r v).catalogue = s.catalogue := rfl
@[simp] theorem wr_flows : (wr s p r v).flows = s.flows := rfl
@[simp] theorem wr_flowDies : (wr s p r v).flowDies = s.flowDies := rfl
@[simp] theorem wr_ces : (wr s p r v).ces = s.ces := rfl
@[simp] theorem wr_job : (wr s p r v).job = s.job := rfl
@[simp] theorem wr_acc : (wr s p r v).acc = s.acc := rfl
@[simp] theorem wr_netOut : (wr s p r v).netOut = s.netOut := rfl
@[simp] theorem wr_netIn : (wr s p r v).netIn = s.netIn := rfl
@[simp] theorem wr_hostPort : (wr s p r v).hostPort = s.hostPort := rfl
@[simp] theorem wr_power : (wr s p r v).power = s.power := rfl
@[simp] theorem wr_mg : (wr s p r v).mg = s.mg := rfl
@[simp] theorem wr_pins : (wr s p r v).pins = s.pins := rfl
@[simp] theorem wr_freeCount : (wr s p r v).freeCount = s.freeCount := rfl
@[simp] theorem wr_resv : (wr s p r v).resv = s.resv := rfl
@[simp] theorem wr_resp : (wr s p r v).resp = s.resp := rfl
end

end Sys2Proof.Machine
end

