-- ==== Sys2Proof/Laws/Ops.lean ====
section
/-! SUPPORT. What the shared operations can do: entering a state, events, the error log, raising an error. -/

namespace Sys2Proof.Machine

theorem rd_congr {s t : State} (h : t.regs = s.regs) (p : Page) (r : Row) : rd t p r = rd s p r := by simp [rd, h]

theorem held_congr {s t : State} (h1 : t.mg = s.mg) (h2 : t.power = s.power) : held t = held s := by simp [held, h1, h2]

theorem arrCount_congr {s t : State} (h : t.fuses = s.fuses) {b : BayId} (hr : rd t (.issue b) issArrays = rd s (.issue b) issArrays) :
    arrCount t b = arrCount s b := by
  unfold arrCount; rw [h, hr]

/-- The state of a page follows its PG_STATE field, and that of an array's page also the bay's count of arrays, whatever else has changed but the
power and the fuses. -/
theorem pgState_congr {s t : State} (h1 : t.mg = s.mg) (h2 : t.power = s.power) (h3 : t.fuses = s.fuses) {p : Page}
    (h4 : rd t p hdrState = rd s p hdrState)
    (h5 : ∀ b a, p = .arr b a → rd t (.issue b) issArrays = rd s (.issue b) issArrays) : pgState t p = pgState s p := by
  unfold pgState
  rw [held_congr h1 h2, h4]
  cases p with
  | arr b a => simp only [arrCount_congr h3 (h5 b a rfl)]
  | _ => rfl

theorem FieldsBut.refl (ks : List Nat) (s : State) : FieldsBut ks s s := fun _ _ _ => rfl

theorem FieldsBut.of_regs {s t : State} (ks : List Nat) (h : t.regs = s.regs) : FieldsBut ks s t := fun p r _ => rd_congr h p r

theorem FieldsBut.mono {ks js : List Nat} {s t : State} (h : FieldsBut ks s t) (hs : ∀ k ∈ ks, k ∈ js) : FieldsBut js s t :=
  fun p r hk => h p r (fun hm => hk (hs _ hm))

theorem FieldsBut.trans {ks js : List Nat} {s t u : State} (h1 : FieldsBut ks s t) (h2 : FieldsBut js t u) : FieldsBut (ks ++ js) s u :=
  fun p r hk => by
    rw [h2 p r (fun hm => hk (List.mem_append_right _ hm)), h1 p r (fun hm => hk (List.mem_append_left _ hm))]

theorem FieldsBut.wr (s : State) (p : Page) (r : Row) (v : Nat) (hs : Rising s.regs) : FieldsBut [r.key p] s (wr s p r v) :=
  fun p' r' hk => rd_wr_other s p p' r r' v hs (fun h => hk (by simp [h]))

/-- A header field of a page lies at home there. -/
theorem key_hdr (p : Page) {r : Row} (h : r.off < 0x100) : r.key p = p.slot * 32768 + (r.off * 8 + r.lsb) := by
  have : r.home p = p := by
    cases p <;> simp [Row.home] <;> omega
  simp [Row.key, this]

/-! Frames of the whole state. -/

theorem OnlyRegs.refl (s : State) : OnlyRegs s s := rfl
theorem OnlyRegs.trans {s t u : State} (h1 : OnlyRegs s t) (h2 : OnlyRegs t u) : OnlyRegs s u := by
  unfold OnlyRegs at *; rw [h1] at h2; exact h2
theorem OnlyRegs.wr (s : State) (p : Page) (r : Row) (v : Nat) : OnlyRegs s (wr s p r v) := rfl

theorem OnlyEvents.refl (s : State) : OnlyEvents s s := rfl
theorem OnlyEvents.trans {s t u : State} (h1 : OnlyEvents s t) (h2 : OnlyEvents t u) : OnlyEvents s u := by
  unfold OnlyEvents at *; rw [h1] at h2; exact h2
theorem OnlyEvents.of_regs {s t : State} (h : OnlyRegs s t) : OnlyEvents s t := by unfold OnlyEvents; unfold OnlyRegs at h; rw [h]
theorem OnlyEvents.wr (s : State) (p : Page) (r : Row) (v : Nat) : OnlyEvents s (wr s p r v) := rfl

theorem OnlyErrors.refl (s : State) : OnlyErrors s s := rfl
theorem OnlyErrors.trans {s t u : State} (h1 : OnlyErrors s t) (h2 : OnlyErrors t u) : OnlyErrors s u := by
  unfold OnlyErrors at *; rw [h1] at h2; exact h2
theorem OnlyErrors.of_events {s t : State} (h : OnlyEvents s t) : OnlyErrors s t := by unfold OnlyErrors; unfold OnlyEvents at h; rw [h]
theorem OnlyErrors.wr (s : State) (p : Page) (r : Row) (v : Nat) : OnlyErrors s (wr s p r v) := rfl

section
variable {s t : State}
theorem OnlyErrors.pending (h : OnlyErrors s t) : t.pending = s.pending := by rw [h]
theorem OnlyErrors.fuses (h : OnlyErrors s t) : t.fuses = s.fuses := by rw [h]
theorem OnlyErrors.bays (h : OnlyErrors s t) : t.bays = s.bays := by rw [h]
theorem OnlyErrors.links (h : OnlyErrors s t) : t.links = s.links := by rw [h]
theorem OnlyErrors.chans (h : OnlyErrors s t) : t.chans = s.chans := by rw [h]
theorem OnlyErrors.dram (h : OnlyErrors s t) : t.dram = s.dram := by rw [h]
theorem OnlyErrors.side (h : OnlyErrors s t) : t.side = s.side := by rw [h]
theorem OnlyErrors.mg (h : OnlyErrors s t) : t.mg = s.mg := by rw [h]
theorem OnlyErrors.power (h : OnlyErrors s t) : t.power = s.power := by rw [h]
theorem OnlyErrors.caches (h : OnlyErrors s t) : t.caches = s.caches := by rw [h]
theorem OnlyErrors.pins (h : OnlyErrors s t) : t.pins = s.pins := by rw [h]
end

/-! Events. -/

theorem raiseHarts_only (s : State) (v : Nat) : raiseHarts s v = { s with harts := (raiseHarts s v).harts } := by
  unfold raiseHarts
  generalize List.finRange 192 = l
  induction l generalizing s with
  | nil => rfl
  | cons a t ih =>
    simp only [List.foldl_cons]
    rw [ih]
    split <;> simp [setHart]

theorem raiseMsix_only (s : State) (v : Nat) :
    raiseMsix s v = { s with hostPort := { s.hostPort with msixPend := (raiseMsix s v).hostPort.msixPend } } := by
  unfold raiseMsix; split <;> rfl

theorem raiseHarts_events (s : State) (v : Nat) : OnlyEvents s (raiseHarts s v) := by
  unfold OnlyEvents; rw [raiseHarts_only]

theorem raiseMsix_events (s : State) (v : Nat) : OnlyEvents s (raiseMsix s v) := by
  unfold OnlyEvents; rw [raiseMsix_only]

theorem raiseLine_events (s : State) (v : Nat) : OnlyEvents s (raiseLine s v) := by
  unfold raiseLine
  split
  · exact (raiseHarts_events s v).trans (raiseMsix_events _ v)
  · extract_lets y x
    have hx : OnlyEvents s x := rfl
    split
    · exact hx.trans (raiseMsix_events _ v)
    · exact hx

@[simp] theorem raiseLine_regs (s : State) (v : Nat) : (raiseLine s v).regs = s.regs := by
  unfold raiseLine
  split
  · rw [raiseMsix_only, raiseHarts_only]
  · simp only
    split
    · rw [raiseMsix_only]
    · rfl

/-- An event changes nothing but register fields and what an event reaches. -/
theorem setEvt_events (s : State) (p : Page) (b : Nat) : OnlyEvents s (setEvt s p b) := by
  unfold setEvt
  extract_lets x
  split
  · exact (OnlyEvents.wr ..).trans (raiseLine_events ..)
  · exact OnlyEvents.wr ..

/-- Of the registers an event writes PG_EVT of its page alone. -/
theorem setEvt_regs (s : State) (p : Page) (b : Nat) : (setEvt s p b).regs = (wr s p hdrEvt (setBit (rd s p hdrEvt) b)).regs := by
  unfold setEvt; simp only; split <;> simp

theorem setEvt_rising (s : State) (p : Page) (b : Nat) (h : Rising s.regs) : Rising (setEvt s p b).regs := by
  rw [setEvt_regs]; exact wr_rising _ _ _ _ h

theorem setEvt_fields (s : State) (p : Page) (b : Nat) (h : Rising s.regs) : FieldsBut [hdrEvt.key p] s (setEvt s p b) := fun p' r hk => by
  rw [rd_congr (setEvt_regs s p b)]
  exact FieldsBut.wr s p hdrEvt _ h p' r hk

/-! Page states. -/

/-- Of the registers the BUSY rule writes BUSY of its page alone. -/
theorem busyAt_regs (s : State) (p : Page) (st : Nat) : ∃ v, (busyAt s p st).regs = (wr s p hdrBusy v).regs := by
  unfold busyAt
  split
  · unfold invalNext
    extract_lets y q
    split
    · exact ⟨1, rfl⟩
    · split
      · exact ⟨0, rfl⟩
      · exact ⟨1, rfl⟩
  · exact ⟨_, rfl⟩

theorem busyAt_rising (s : State) (p : Page) (st : Nat) (h : Rising s.regs) : Rising (busyAt s p st).regs := by
  obtain ⟨v, e⟩ := busyAt_regs s p st
  rw [e]; exact wr_rising _ _ _ _ h

theorem busyAt_fields (s : State) (p : Page) (st : Nat) (h : Rising s.regs) : FieldsBut [hdrBusy.key p] s (busyAt s p st) := fun p' r hk => by
  obtain ⟨v, e⟩ := busyAt_regs s p st
  rw [rd_congr e]; exact FieldsBut.wr s p hdrBusy v h p' r hk

/-- The BUSY rule changes registers and bays alone: a waiting invalidation may start. -/
theorem busyAt_only (s : State) (p : Page) (st : Nat) : busyAt s p st = { s with regs := (busyAt s p st).regs, bays := (busyAt s p st).bays } := by
  unfold busyAt
  split
  · unfold invalNext
    extract_lets y q
    split
    · rfl
    · split <;> rfl
  · rfl

theorem busyAt_wr (s : State) (p : Page) (st : Nat) (hp : ∀ b, p ≠ .xlate b) :
    busyAt s p st = wr s p hdrBusy (b2n (st == 3 || st == 5 || (cacheOfPage p).any (cacheBusy s))) := by
  unfold busyAt
  split
  · exact absurd rfl (hp _)
  · rfl

/-- BUSY is 1 in STARTING and STOPPING. -/
theorem busyAt_busy (s : State) (p : Page) (st : Nat) (hs : Rising s.regs) (h : st = 3 ∨ st = 5) : rd (busyAt s p st) p hdrBusy = 1 := by
  have hb : ∀ v, rd (wr s p hdrBusy v) p hdrBusy = v % 2 := fun v => rd_wr_same _ _ _ _ hs (by decide)
  cases p with
  | xlate b =>
    have e : busyAt s (.xlate b) st = wr s (.xlate b) hdrBusy 1 := by
      show invalNext s b st = _
      unfold invalNext
      extract_lets y q
      rw [if_pos (by tauto)]
    rw [e, hb]
  | _ =>
    rw [busyAt_wr _ _ _ (by simp), hb]
    rcases h with rfl | rfl <;> rfl

/-- Entering a state changes nothing but register fields, what an event reaches, and for XLATE its bay. -/
theorem enter_events (s : State) (p : Page) (st : Nat) (hp : ∀ b, p ≠ .xlate b) : OnlyEvents s (enter s p st) := by
  unfold enter
  extract_lets old x
  have hx : OnlyEvents s x := by
    show OnlyEvents s (busyAt _ _ _)
    rw [busyAt_wr _ _ _ hp]
    exact (OnlyEvents.wr ..).trans (OnlyEvents.wr ..)
  split
  · exact hx.trans (setEvt_events ..)
  · exact hx

theorem enter_rising (s : State) (p : Page) (st : Nat) (h : Rising s.regs) : Rising (enter s p st).regs := by
  unfold enter
  extract_lets old x
  have hx : Rising x.regs := busyAt_rising _ _ _ (wr_rising _ _ _ _ h)
  split
  · exact setEvt_rising _ _ _ hx
  · exact hx

/-- Entering a state writes STATE, BUSY and PG_EVT of the page, no other field. -/
theorem enter_fields (s : State) (p : Page) (st : Nat) (h : Rising s.regs) :
    FieldsBut [hdrState.key p, hdrBusy.key p, hdrEvt.key p] s (enter s p st) := by
  unfold enter
  extract_lets old x
  have hw := wr_rising s p hdrState st h
  have hx : FieldsBut [hdrState.key p, hdrBusy.key p] s x := (FieldsBut.wr s p hdrState st h).trans (busyAt_fields _ p _ hw)
  split
  · exact hx.trans (setEvt_fields _ _ _ (busyAt_rising _ _ _ hw))
  · exact hx.mono (by simp)

/-- Entering a state changes neither the MG die, the power nor the fuses. -/
theorem enter_keeps (s : State) (p : Page) (st : Nat) :
    (enter s p st).mg = s.mg ∧ (enter s p st).power = s.power ∧ (enter s p st).fuses = s.fuses := by
  unfold enter
  extract_lets old x
  have hx : x.mg = s.mg ∧ x.power = s.power ∧ x.fuses = s.fuses := by
    have e : x = { wr s p hdrState st with regs := x.regs, bays := x.bays } := busyAt_only _ p st
    rw [e]; exact ⟨rfl, rfl, rfl⟩
  split
  · have he : OnlyEvents x (setEvt x p 1) := setEvt_events ..
    rw [he]; exact hx
  · exact hx

theorem key_hdr_ne (p : Page) {r r' : Row} (h : r.off < 0x100) (h' : r'.off < 0x100) (hn : r.off * 8 + r.lsb ≠ r'.off * 8 + r'.lsb) :
    r.key p ≠ r'.key p := by
  rw [key_hdr p h, key_hdr p h']; omega

/-- The page reads the state it entered, and BUSY as the BUSY rule left it. -/
theorem enter_rd (s : State) (p : Page) (st : Nat) (h : Rising s.regs) :
    rd (enter s p st) p hdrState = st % 16 ∧ rd (enter s p st) p hdrBusy = rd (busyAt (wr s p hdrState st) p st) p hdrBusy := by
  unfold enter
  extract_lets old x
  have h1 := wr_rising s p hdrState st h
  have hx : Rising x.regs := busyAt_rising _ _ _ h1
  have e1 : rd x p hdrState = st % 16 := by
    show rd (busyAt _ _ _) p hdrState = _
    rw [busyAt_fields _ p st h1 p hdrState (by simpa using key_hdr_ne p (by decide) (by decide) (by decide)), rd_wr_same _ _ _ _ h (by decide)]; rfl
  have e2 : rd x p hdrBusy = rd (busyAt (wr s p hdrState st) p st) p hdrBusy := rfl
  split
  · have hf := setEvt_fields x p 1 hx
    rw [hf p hdrState (by simpa using key_hdr_ne p (by decide) (by decide) (by decide)),
      hf p hdrBusy (by simpa using key_hdr_ne p (by decide) (by decide) (by decide))]
    exact ⟨e1, e2⟩
  · exact ⟨e1, e2⟩

/-- A page that is there is in the state it entered. -/
theorem enter_pgState (s : State) (p : Page) (st : Nat) (h : Rising s.regs) (hp : pgState s p ≠ 0) : pgState (enter s p st) p = st % 16 := by
  obtain ⟨hm, hw, hf⟩ := enter_keeps s p st
  have h1 := (enter_rd s p st h).1
  have hh : held (enter s p st) = held s := held_congr hm hw
  unfold pgState at hp ⊢
  rw [hh, h1]
  by_cases hl : held s = true
  · simp [hl] at hp
  · simp only [hl] at hp ⊢
    cases p with
    | arr b a =>
      have hc : arrCount (enter s (.arr b a) st) b = arrCount s b := by
        refine arrCount_congr hf (enter_fields s _ st h (.issue b) issArrays ?_)
        have hk : ∀ r : Row, r.off < 0x100 → issArrays.key (.issue b) ≠ r.key (.arr b a) := by
          intro r hr he
          rw [key_hdr _ hr] at he
          unfold Row.key Row.home Page.slot at he
          simp [issArrays] at he
          omega
        simp [hk hdrState (by decide), hk hdrBusy (by decide), hk hdrEvt (by decide)]
      by_cases hn : arrCount s b ≤ a.val
      · simp [hn] at hp
      · simp [hc, hn]
    | _ => rfl

/-- The offset of a field within its page, read off its key. -/
theorem key_mod (p : Page) (r : Row) (h : r.off * 8 + r.lsb < 32768) : r.key p % 32768 = r.off * 8 + r.lsb := by
  unfold Row.key; omega

/-- Fields at different offsets have different keys, whatever their pages. -/
theorem key_ne_off (p q : Page) {r r' : Row} (h : r.off * 8 + r.lsb < 32768) (h' : r'.off * 8 + r'.lsb < 32768)
    (hn : r.off * 8 + r.lsb ≠ r'.off * 8 + r'.lsb) : r.key p ≠ r'.key q := by
  intro he
  have h1 := key_mod p r h
  have h2 := key_mod q r' h'
  rw [he, h2] at h1
  exact hn h1.symm

/-! Errors and the log. -/

/-- The fields that the first-error record of a page takes. -/
def errKeys (p : Page) : List Nat := [hdrErr.key p, hdrErrInfo.key p, hdrErrAddr.key p, hdrEvt.key p]

/-- The fields that a log entry may change. -/
def logKeys : List Nat := hubLogOvf.key .hub :: hubLogHead.key .hub :: errKeys .hub

theorem captureErr_events (s : State) (p : Page) (e : Err) : OnlyEvents s (captureErr s p e) := by
  unfold captureErr
  extract_lets old x
  have hx : OnlyEvents s x := OnlyEvents.wr ..
  split
  · exact hx.trans (((OnlyEvents.wr ..).trans (OnlyEvents.wr ..)).trans (setEvt_events ..))
  · exact hx.trans (OnlyEvents.wr ..)

theorem captureErr_rising (s : State) (p : Page) (e : Err) (h : Rising s.regs) : Rising (captureErr s p e).regs := by
  unfold captureErr
  extract_lets old x
  have hx : Rising x.regs := wr_rising _ _ _ _ h
  split
  · exact setEvt_rising _ _ _ (wr_rising _ _ _ _ (wr_rising _ _ _ _ hx))
  · exact wr_rising _ _ _ _ hx

theorem captureErr_fields (s : State) (p : Page) (e : Err) (h : Rising s.regs) : FieldsBut (errKeys p) s (captureErr s p e) := by
  unfold captureErr
  extract_lets old x
  have hx : Rising x.regs := wr_rising _ _ _ _ h
  have fx : FieldsBut [hdrErr.key p] s x := FieldsBut.wr _ _ _ _ h
  split
  · have h1 := wr_rising x p hdrErrInfo (errInfo e) hx
    have h2 := wr_rising _ p hdrErrAddr (e.addr.getD 0) h1
    exact (fx.trans (((FieldsBut.wr _ _ _ _ hx).trans (FieldsBut.wr _ _ _ _ h1)).trans (setEvt_fields _ _ _ h2))).mono (by simp [errKeys])
  · exact (fx.trans (FieldsBut.wr _ _ _ _ hx)).mono (by simp [errKeys])

theorem bitOf_setBit (v i : Nat) : bitOf (setBit v i) i = true := by
  unfold setBit
  split
  · assumption
  · rename_i h
    simp only [bitOf, decide_eq_true_eq] at *
    rw [Nat.add_div_right _ (Nat.two_pow_pos i)]
    omega

/-- Setting one bit leaves the others. -/
theorem bitOf_setBit_other (v i j : Nat) (hj : j ≠ i) : bitOf (setBit v i) j = bitOf v j := by
  unfold setBit
  split
  · rfl
  · rename_i h
    simp only [bitOf, decide_eq_true_eq] at h
    simp only [bitOf]
    rcases Nat.lt_or_gt_of_ne hj with hl | hl
    · obtain ⟨d, rfl⟩ : ∃ d, i = j + (d + 1) := ⟨i - j - 1, by omega⟩
      have : (v + 2 ^ (j + (d + 1))) / 2 ^ j = v / 2 ^ j + 2 * 2 ^ d := by
        rw [Nat.pow_add, Nat.add_mul_div_left _ _ (Nat.two_pow_pos j), Nat.pow_succ, Nat.mul_comm (2 ^ d)]
      rw [this, Nat.add_mul_mod_self_left]
    · obtain ⟨d, rfl⟩ : ∃ d, j = i + (d + 1) := ⟨j - i - 1, by omega⟩
      have e : 2 ^ (i + (d + 1)) = 2 ^ i * (2 * 2 ^ d) := by rw [Nat.pow_add, Nat.pow_succ, Nat.mul_comm (2 ^ d)]
      rw [e, ← Nat.div_div_eq_div_mul, ← Nat.div_div_eq_div_mul, ← Nat.div_div_eq_div_mul, ← Nat.div_div_eq_div_mul,
        Nat.add_div_right _ (Nat.two_pow_pos i)]
      have : (v / 2 ^ i + 1) / 2 = v / 2 ^ i / 2 := by omega
      rw [this]

theorem bitOf_mod (v w i : Nat) (h : i < w) : bitOf (v % 2 ^ w) i = bitOf v i := by
  simp only [bitOf]
  rw [← Nat.testBit_eq_decide_div_mod_eq, ← Nat.testBit_eq_decide_div_mod_eq, Nat.testBit_mod_two_pow]
  simp [h]

/-- The bit is set. -/
theorem captureErr_bit (s : State) (p : Page) (e : Err) (h : Rising s.regs) (he : e.bit < 32) :
    bitOf (rd (captureErr s p e) p hdrErr) e.bit = true := by
  unfold captureErr
  extract_lets old x
  have hx : Rising x.regs := wr_rising _ _ _ _ h
  have e1 : rd x p hdrErr = setBit old e.bit % 2 ^ 32 := rd_wr_same _ _ _ _ h (by decide)
  have e2 : bitOf (rd x p hdrErr) e.bit = true := by rw [e1, bitOf_mod _ _ _ he, bitOf_setBit]
  have k1 : hdrErr.key p ≠ hdrErrInfo.key p := key_hdr_ne p (by decide) (by decide) (by decide)
  have k2 : hdrErr.key p ≠ hdrErrAddr.key p := key_hdr_ne p (by decide) (by decide) (by decide)
  have k3 : hdrErr.key p ≠ hdrEvt.key p := key_hdr_ne p (by decide) (by decide) (by decide)
  split
  · have h1 := wr_rising x p hdrErrInfo (errInfo e) hx
    have h2 := wr_rising _ p hdrErrAddr (e.addr.getD 0) h1
    rw [setEvt_fields _ _ _ h2 p hdrErr (by simpa using k3), rd_wr_other _ _ _ _ _ _ h1 k2, rd_wr_other _ _ _ _ _ _ hx k1]
    exact e2
  · rw [rd_wr_other _ _ _ _ _ _ hx k1]; exact e2

theorem logWrite_errors (s : State) (addr src code sev : Nat) (va : Bool) (info : Nat) :
    OnlyErrors s (logWrite s addr src code sev va info) := by
  unfold logWrite
  extract_lets h x e
  split
  · have hx : OnlyErrors s x := OnlyErrors.wr ..
    split
    · exact hx
    · exact hx.trans ((OnlyErrors.of_events (captureErr_events ..)).trans (OnlyErrors.wr ..))
  · refine OnlyErrors.trans (t := { s with log := mset none s.log (h % 256) (some e) }) rfl ?_
    exact (OnlyErrors.wr ..).trans (OnlyErrors.of_events (setEvt_events ..))

theorem logWrite_rising (s : State) (addr src code sev : Nat) (va : Bool) (info : Nat) (hs : Rising s.regs) :
    Rising (logWrite s addr src code sev va info).regs := by
  unfold logWrite
  extract_lets h x e
  split
  · have hx : Rising x.regs := wr_rising _ _ _ _ hs
    split
    · exact hx
    · exact wr_rising _ _ _ _ (captureErr_rising _ _ _ hx)
  · exact setEvt_rising _ _ _ (wr_rising _ _ _ _ hs)

/-- A log entry writes the hub's log registers and, when the log is full, its first-error record. -/
theorem logWrite_fields (s : State) (addr src code sev : Nat) (va : Bool) (info : Nat) (hs : Rising s.regs) :
    FieldsBut logKeys s (logWrite s addr src code sev va info) := by
  unfold logWrite
  extract_lets h x e
  split
  · have hx : Rising x.regs := wr_rising _ _ _ _ hs
    have fx : FieldsBut [hubLogOvf.key .hub] s x := FieldsBut.wr _ _ _ _ hs
    split
    · exact fx.mono (by simp [logKeys])
    · exact (fx.trans ((captureErr_fields _ _ _ hx).trans (FieldsBut.wr _ _ _ _ (captureErr_rising _ _ _ hx)))).mono (by simp [logKeys]; tauto)
  · have f1 : FieldsBut [] s { s with log := mset none s.log (h % 256) (some e) } := FieldsBut.of_regs _ rfl
    exact ((f1.trans (FieldsBut.wr _ _ _ _ hs)).trans (setEvt_fields _ _ _ (wr_rising _ _ _ _ hs))).mono (by simp [logKeys, errKeys])

/-- The fields that raising an error may change where it does not stop the block. -/
def raiseKeys (p : Page) : List Nat := errKeys p ++ logKeys

theorem raise_errors (s : State) (p : Page) (e : Err) (h : e.stop = false) : OnlyErrors s (raise s p e) := by
  unfold raise
  extract_lets st moved x s1
  have hs : OnlyErrors s s1 := by
    show OnlyErrors s (if _ then _ else _)
    split
    · exact rfl
    · exact (OnlyErrors.of_events (captureErr_events ..)).trans (logWrite_errors ..)
  simp only [h]
  split
  · exact rfl
  · exact hs

theorem raise_rising (s : State) (p : Page) (e : Err) (h : e.stop = false) (hs : Rising s.regs) : Rising (raise s p e).regs := by
  unfold raise
  extract_lets st moved x s1
  have h1 : Rising s1.regs := by
    show Rising (State.regs (if _ then _ else _))
    split
    · exact hs
    · exact logWrite_rising _ _ _ _ _ _ _ (captureErr_rising _ _ _ hs)
  simp only [h]
  split
  · exact hs
  · exact h1

/-- An error that does not stop the block writes its page's first-error record and a log entry, no other field. -/
theorem raise_fields (s : State) (p : Page) (e : Err) (h : e.stop = false) (hs : Rising s.regs) : FieldsBut (raiseKeys p) s (raise s p e) := by
  unfold raise
  extract_lets st moved x s1
  have h1 : FieldsBut (raiseKeys p) s s1 := by
    show FieldsBut _ s (if _ then _ else _)
    split
    · exact FieldsBut.refl _ _
    · exact (captureErr_fields _ _ _ hs).trans (logWrite_fields _ _ _ _ _ _ _ (captureErr_rising _ _ _ hs))
  simp only [h]
  split
  · exact FieldsBut.refl _ _
  · exact h1

theorem hdr_not_logKeys {p : Page} (hp : p ≠ .hub) {r : Row} (h : r.off < 0x100) (hl : r.off * 8 + r.lsb < 2048) : r.key p ∉ logKeys := by
  have hz : ∀ q : Page, q.slot = 0 → q = .hub := by intro q; cases q <;> simp [Page.slot]
  have h0 : p.slot ≠ 0 := fun h => hp (hz p h)
  have k := key_hdr p h
  have e1 := key_hdr .hub (r := hdrErr) (by decide)
  have e2 := key_hdr .hub (r := hdrErrInfo) (by decide)
  have e3 := key_hdr .hub (r := hdrErrAddr) (by decide)
  have e4 := key_hdr .hub (r := hdrEvt) (by decide)
  have e5 : hubLogOvf.key .hub < 32768 := by decide
  have e6 : hubLogHead.key .hub < 32768 := by decide
  simp only [logKeys, errKeys, List.mem_cons, List.not_mem_nil, or_false, not_or]
  have z : Page.hub.slot = 0 := rfl
  rw [z] at e1 e2 e3 e4
  have w1 : hdrErr.off * 8 + hdrErr.lsb < 2048 := by decide
  have w2 : hdrErrInfo.off * 8 + hdrErrInfo.lsb < 2048 := by decide
  have w3 : hdrErrAddr.off * 8 + hdrErrAddr.lsb < 2048 := by decide
  have w4 : hdrEvt.off * 8 + hdrEvt.lsb < 2048 := by decide
  refine ⟨?_, ?_, ?_, ?_, ?_, ?_⟩ <;> omega

/-- A log entry clears no error bit of the hub. -/
theorem logWrite_bit (x : State) (addr src code sev : Nat) (va : Bool) (info : Nat) (hr : Rising x.regs) (b : Nat) (hb : b < 32)
    (hc : bitOf (rd x .hub hdrErr) b = true) : bitOf (rd (logWrite x addr src code sev va info) .hub hdrErr) b = true := by
  unfold logWrite
  extract_lets l y z
  split
  · have hy : Rising y.regs := wr_rising _ _ _ _ hr
    have ey : bitOf (rd y .hub hdrErr) b = true := by
      show bitOf (rd (wr _ _ _ _) .hub hdrErr) b = true
      rw [rd_wr_other _ _ _ _ _ _ hr (by decide)]; exact hc
    split
    · exact ey
    · have hy' := captureErr_rising y .hub { bit := 16 } hy
      show bitOf (rd (wr _ _ _ _) .hub hdrErr) b = true
      rw [rd_wr_other _ _ _ _ _ _ hy' (by decide)]
      unfold captureErr
      extract_lets old w
      have hw : Rising w.regs := wr_rising _ _ _ _ hy
      have ew : bitOf (rd w .hub hdrErr) b = true := by
        have : rd w .hub hdrErr = setBit old 16 % 2 ^ 32 := rd_wr_same _ _ _ _ hy (by decide)
        rw [this, bitOf_mod _ _ _ hb]
        by_cases h16 : b = 16
        · rw [h16]; exact bitOf_setBit _ _
        · rw [bitOf_setBit_other _ _ _ h16]; exact ey
      split
      · have h1 := wr_rising w .hub hdrErrInfo (errInfo { bit := 16 }) hw
        have h2 := wr_rising _ .hub hdrErrAddr ((none : Option Nat).getD 0) h1
        rw [setEvt_fields _ _ _ h2 .hub hdrErr (by decide), rd_wr_other _ _ _ _ _ _ h1 (by decide), rd_wr_other _ _ _ _ _ _ hw (by decide)]
        exact ew
      · rw [rd_wr_other _ _ _ _ _ _ hw (by decide)]; exact ew
  · have hw : Rising (wr { x with log := mset none x.log (l % 256) (some z) } .hub hubLogHead (l + 1)).regs := wr_rising _ _ _ _ hr
    rw [setEvt_fields _ .hub 16 hw .hub hdrErr (by decide), rd_wr_other _ .hub .hub hubLogHead _ _ (by exact hr) (by decide)]
    exact hc

/-- A raised error sets its bit, in a page that is there. -/
theorem raise_bit (s : State) (p : Page) (e : Err) (h : e.stop = false) (hs : Rising s.regs) (hp : pgState s p ≠ 0) (he : e.bit < 32) :
    bitOf (rd (raise s p e) p hdrErr) e.bit = true := by
  unfold raise
  extract_lets st moved x s1
  simp only [h, hp, if_false, Bool.false_eq_true]
  show bitOf (rd (if _ then _ else _) p hdrErr) e.bit = true
  split
  · assumption
  · have hc := captureErr_bit s p e hs he
    have hr := captureErr_rising s p e hs
    by_cases hh : p = .hub
    · subst hh
      exact logWrite_bit _ _ _ _ _ _ _ hr _ he hc
    · rw [logWrite_fields _ _ _ _ _ _ _ hr p hdrErr (hdr_not_logKeys hh (by decide) (by decide))]
      exact hc

end Sys2Proof.Machine
end

