-- ==== Sys2Proof/Laws/State.lean ====
section
/-! SUPPORT. What each update of State leaves as it was, field by field, and the field that it writes: no later proof unfolds a record update. (Those
of `wr`, the update of a register field, stand in Laws/Regs.lean.) -/

namespace Sys2Proof.Machine

variable (s : State)

/-! setHost. -/

@[simp] theorem setHost_pending (f : HostPort → HostPort) : (setHost s f).pending = s.pending := rfl
@[simp] theorem setHost_fuses (f : HostPort → HostPort) : (setHost s f).fuses = s.fuses := rfl
@[simp] theorem setHost_regs (f : HostPort → HostPort) : (setHost s f).regs = s.regs := rfl
@[simp] theorem setHost_heldReset (f : HostPort → HostPort) : (setHost s f).heldReset = s.heldReset := rfl
@[simp] theorem setHost_log (f : HostPort → HostPort) : (setHost s f).log = s.log := rfl
@[simp] theorem setHost_bays (f : HostPort → HostPort) : (setHost s f).bays = s.bays := rfl
@[simp] theorem setHost_harts (f : HostPort → HostPort) : (setHost s f).harts = s.harts := rfl
@[simp] theorem setHost_caches (f : HostPort → HostPort) : (setHost s f).caches = s.caches := rfl
@[simp] theorem setHost_sysc (f : HostPort → HostPort) : (setHost s f).sysc = s.sysc := rfl
@[simp] theorem setHost_dram (f : HostPort → HostPort) : (setHost s f).dram = s.dram := rfl
@[simp] theorem setHost_side (f : HostPort → HostPort) : (setHost s f).side = s.side := rfl
@[simp] theorem setHost_coh (f : HostPort → HostPort) : (setHost s f).coh = s.coh := rfl
@[simp] theorem setHost_chans (f : HostPort → HostPort) : (setHost s f).chans = s.chans := rfl
@[simp] theorem setHost_stkTemp (f : HostPort → HostPort) : (setHost s f).stkTemp = s.stkTemp := rfl
@[simp] theorem setHost_links (f : HostPort → HostPort) : (setHost s f).links = s.links := rfl
@[simp] theorem setHost_ports (f : HostPort → HostPort) : (setHost s f).ports = s.ports := rfl
@[simp] theorem setHost_routes (f : HostPort → HostPort) : (setHost s f).routes = s.routes := rfl
@[simp] theorem setHost_catalogue (f : HostPort → HostPort) : (setHost s f).catalogue = s.catalogue := rfl
@[simp] theorem setHost_flows (f : HostPort → HostPort) : (setHost s f).flows = s.flows := rfl
@[simp] theorem setHost_flowDies (f : HostPort → HostPort) : (setHost s f).flowDies = s.flowDies := rfl
@[simp] theorem setHost_ces (f : HostPort → HostPort) : (setHost s f).ces = s.ces := rfl
@[simp] theorem setHost_job (f : HostPort → HostPort) : (setHost s f).job = s.job := rfl
@[simp] theorem setHost_acc (f : HostPort → HostPort) : (setHost s f).acc = s.acc := rfl
@[simp] theorem setHost_netOut (f : HostPort → HostPort) : (setHost s f).netOut = s.netOut := rfl
@[simp] theorem setHost_netIn (f : HostPort → HostPort) : (setHost s f).netIn = s.netIn := rfl
@[simp] theorem setHost_hostPort_new (f : HostPort → HostPort) : (setHost s f).hostPort = f s.hostPort := rfl
@[simp] theorem setHost_power (f : HostPort → HostPort) : (setHost s f).power = s.power := rfl
@[simp] theorem setHost_mg (f : HostPort → HostPort) : (setHost s f).mg = s.mg := rfl
@[simp] theorem setHost_pins (f : HostPort → HostPort) : (setHost s f).pins = s.pins := rfl
@[simp] theorem setHost_freeCount (f : HostPort → HostPort) : (setHost s f).freeCount = s.freeCount := rfl
@[simp] theorem setHost_resv (f : HostPort → HostPort) : (setHost s f).resv = s.resv := rfl
@[simp] theorem setHost_resp (f : HostPort → HostPort) : (setHost s f).resp = s.resp := rfl

/-! dramPut. -/

@[simp] theorem dramPut_pending (k : Nat) (d : List Byte) (sd : Side) : (dramPut s k d sd).pending = s.pending := rfl
@[simp] theorem dramPut_fuses (k : Nat) (d : List Byte) (sd : Side) : (dramPut s k d sd).fuses = s.fuses := rfl
@[simp] theorem dramPut_regs (k : Nat) (d : List Byte) (sd : Side) : (dramPut s k d sd).regs = s.regs := rfl
@[simp] theorem dramPut_heldReset (k : Nat) (d : List Byte) (sd : Side) : (dramPut s k d sd).heldReset = s.heldReset := rfl
@[simp] theorem dramPut_log (k : Nat) (d : List Byte) (sd : Side) : (dramPut s k d sd).log = s.log := rfl
@[simp] theorem dramPut_bays (k : Nat) (d : List Byte) (sd : Side) : (dramPut s k d sd).bays = s.bays := rfl
@[simp] theorem dramPut_harts (k : Nat) (d : List Byte) (sd : Side) : (dramPut s k d sd).harts = s.harts := rfl
@[simp] theorem dramPut_caches (k : Nat) (d : List Byte) (sd : Side) : (dramPut s k d sd).caches = s.caches := rfl
@[simp] theorem dramPut_sysc (k : Nat) (d : List Byte) (sd : Side) : (dramPut s k d sd).sysc = s.sysc := rfl
@[simp] theorem dramPut_coh (k : Nat) (d : List Byte) (sd : Side) : (dramPut s k d sd).coh = s.coh := rfl
@[simp] theorem dramPut_chans (k : Nat) (d : List Byte) (sd : Side) : (dramPut s k d sd).chans = s.chans := rfl
@[simp] theorem dramPut_stkTemp (k : Nat) (d : List Byte) (sd : Side) : (dramPut s k d sd).stkTemp = s.stkTemp := rfl
@[simp] theorem dramPut_links (k : Nat) (d : List Byte) (sd : Side) : (dramPut s k d sd).links = s.links := rfl
@[simp] theorem dramPut_ports (k : Nat) (d : List Byte) (sd : Side) : (dramPut s k d sd).ports = s.ports := rfl
@[simp] theorem dramPut_routes (k : Nat) (d : List Byte) (sd : Side) : (dramPut s k d sd).routes = s.routes := rfl
@[simp] theorem dramPut_catalogue (k : Nat) (d : List Byte) (sd : Side) : (dramPut s k d sd).catalogue = s.catalogue := rfl
@[simp] theorem dramPut_flows (k : Nat) (d : List Byte) (sd : Side) : (dramPut s k d sd).flows = s.flows := rfl
@[simp] theorem dramPut_flowDies (k : Nat) (d : List Byte) (sd : Side) : (dramPut s k d sd).flowDies = s.flowDies := rfl
@[simp] theorem dramPut_ces (k : Nat) (d : List Byte) (sd : Side) : (dramPut s k d sd).ces = s.ces := rfl
@[simp] theorem dramPut_job (k : Nat) (d : List Byte) (sd : Side) : (dramPut s k d sd).job = s.job := rfl
@[simp] theorem dramPut_acc (k : Nat) (d : List Byte) (sd : Side) : (dramPut s k d sd).acc = s.acc := rfl
@[simp] theorem dramPut_netOut (k : Nat) (d : List Byte) (sd : Side) : (dramPut s k d sd).netOut = s.netOut := rfl
@[simp] theorem dramPut_netIn (k : Nat) (d : List Byte) (sd : Side) : (dramPut s k d sd).netIn = s.netIn := rfl
@[simp] theorem dramPut_hostPort (k : Nat) (d : List Byte) (sd : Side) : (dramPut s k d sd).hostPort = s.hostPort := rfl
@[simp] theorem dramPut_power (k : Nat) (d : List Byte) (sd : Side) : (dramPut s k d sd).power = s.power := rfl
@[simp] theorem dramPut_mg (k : Nat) (d : List Byte) (sd : Side) : (dramPut s k d sd).mg = s.mg := rfl
@[simp] theorem dramPut_pins (k : Nat) (d : List Byte) (sd : Side) : (dramPut s k d sd).pins = s.pins := rfl
@[simp] theorem dramPut_freeCount (k : Nat) (d : List Byte) (sd : Side) : (dramPut s k d sd).freeCount = s.freeCount := rfl
@[simp] theorem dramPut_resv (k : Nat) (d : List Byte) (sd : Side) : (dramPut s k d sd).resv = s.resv := rfl
@[simp] theorem dramPut_resp (k : Nat) (d : List Byte) (sd : Side) : (dramPut s k d sd).resp = s.resp := rfl

/-! setChan. -/

@[simp] theorem setChan_pending (i : Fin 16) (c : Fin 32) (v : Chan) : (setChan s i c v).pending = s.pending := rfl
@[simp] theorem setChan_fuses (i : Fin 16) (c : Fin 32) (v : Chan) : (setChan s i c v).fuses = s.fuses := rfl
@[simp] theorem setChan_regs (i : Fin 16) (c : Fin 32) (v : Chan) : (setChan s i c v).regs = s.regs := rfl
@[simp] theorem setChan_heldReset (i : Fin 16) (c : Fin 32) (v : Chan) : (setChan s i c v).heldReset = s.heldReset := rfl
@[simp] theorem setChan_log (i : Fin 16) (c : Fin 32) (v : Chan) : (setChan s i c v).log = s.log := rfl
@[simp] theorem setChan_bays (i : Fin 16) (c : Fin 32) (v : Chan) : (setChan s i c v).bays = s.bays := rfl
@[simp] theorem setChan_harts (i : Fin 16) (c : Fin 32) (v : Chan) : (setChan s i c v).harts = s.harts := rfl
@[simp] theorem setChan_caches (i : Fin 16) (c : Fin 32) (v : Chan) : (setChan s i c v).caches = s.caches := rfl
@[simp] theorem setChan_sysc (i : Fin 16) (c : Fin 32) (v : Chan) : (setChan s i c v).sysc = s.sysc := rfl
@[simp] theorem setChan_dram (i : Fin 16) (c : Fin 32) (v : Chan) : (setChan s i c v).dram = s.dram := rfl
@[simp] theorem setChan_side (i : Fin 16) (c : Fin 32) (v : Chan) : (setChan s i c v).side = s.side := rfl
@[simp] theorem setChan_coh (i : Fin 16) (c : Fin 32) (v : Chan) : (setChan s i c v).coh = s.coh := rfl
@[simp] theorem setChan_chans_new (i : Fin 16) (c : Fin 32) (v : Chan) : (setChan s i c v).chans = mset {} s.chans (32 * i.val + c.val) v := rfl
@[simp] theorem setChan_stkTemp (i : Fin 16) (c : Fin 32) (v : Chan) : (setChan s i c v).stkTemp = s.stkTemp := rfl
@[simp] theorem setChan_links (i : Fin 16) (c : Fin 32) (v : Chan) : (setChan s i c v).links = s.links := rfl
@[simp] theorem setChan_ports (i : Fin 16) (c : Fin 32) (v : Chan) : (setChan s i c v).ports = s.ports := rfl
@[simp] theorem setChan_routes (i : Fin 16) (c : Fin 32) (v : Chan) : (setChan s i c v).routes = s.routes := rfl
@[simp] theorem setChan_catalogue (i : Fin 16) (c : Fin 32) (v : Chan) : (setChan s i c v).catalogue = s.catalogue := rfl
@[simp] theorem setChan_flows (i : Fin 16) (c : Fin 32) (v : Chan) : (setChan s i c v).flows = s.flows := rfl
@[simp] theorem setChan_flowDies (i : Fin 16) (c : Fin 32) (v : Chan) : (setChan s i c v).flowDies = s.flowDies := rfl
@[simp] theorem setChan_ces (i : Fin 16) (c : Fin 32) (v : Chan) : (setChan s i c v).ces = s.ces := rfl
@[simp] theorem setChan_job (i : Fin 16) (c : Fin 32) (v : Chan) : (setChan s i c v).job = s.job := rfl
@[simp] theorem setChan_acc (i : Fin 16) (c : Fin 32) (v : Chan) : (setChan s i c v).acc = s.acc := rfl
@[simp] theorem setChan_netOut (i : Fin 16) (c : Fin 32) (v : Chan) : (setChan s i c v).netOut = s.netOut := rfl
@[simp] theorem setChan_netIn (i : Fin 16) (c : Fin 32) (v : Chan) : (setChan s i c v).netIn = s.netIn := rfl
@[simp] theorem setChan_hostPort (i : Fin 16) (c : Fin 32) (v : Chan) : (setChan s i c v).hostPort = s.hostPort := rfl
@[simp] theorem setChan_power (i : Fin 16) (c : Fin 32) (v : Chan) : (setChan s i c v).power = s.power := rfl
@[simp] theorem setChan_mg (i : Fin 16) (c : Fin 32) (v : Chan) : (setChan s i c v).mg = s.mg := rfl
@[simp] theorem setChan_pins (i : Fin 16) (c : Fin 32) (v : Chan) : (setChan s i c v).pins = s.pins := rfl
@[simp] theorem setChan_freeCount (i : Fin 16) (c : Fin 32) (v : Chan) : (setChan s i c v).freeCount = s.freeCount := rfl
@[simp] theorem setChan_resv (i : Fin 16) (c : Fin 32) (v : Chan) : (setChan s i c v).resv = s.resv := rfl
@[simp] theorem setChan_resp (i : Fin 16) (c : Fin 32) (v : Chan) : (setChan s i c v).resp = s.resp := rfl

/-! setSysc. -/

@[simp] theorem setSysc_pending (k : Nat) (v : Option SyscBlock) : (setSysc s k v).pending = s.pending := rfl
@[simp] theorem setSysc_fuses (k : Nat) (v : Option SyscBlock) : (setSysc s k v).fuses = s.fuses := rfl
@[simp] theorem setSysc_regs (k : Nat) (v : Option SyscBlock) : (setSysc s k v).regs = s.regs := rfl
@[simp] theorem setSysc_heldReset (k : Nat) (v : Option SyscBlock) : (setSysc s k v).heldReset = s.heldReset := rfl
@[simp] theorem setSysc_log (k : Nat) (v : Option SyscBlock) : (setSysc s k v).log = s.log := rfl
@[simp] theorem setSysc_bays (k : Nat) (v : Option SyscBlock) : (setSysc s k v).bays = s.bays := rfl
@[simp] theorem setSysc_harts (k : Nat) (v : Option SyscBlock) : (setSysc s k v).harts = s.harts := rfl
@[simp] theorem setSysc_caches (k : Nat) (v : Option SyscBlock) : (setSysc s k v).caches = s.caches := rfl
@[simp] theorem setSysc_sysc_new (k : Nat) (v : Option SyscBlock) : (setSysc s k v).sysc = mset none s.sysc k v := rfl
@[simp] theorem setSysc_dram (k : Nat) (v : Option SyscBlock) : (setSysc s k v).dram = s.dram := rfl
@[simp] theorem setSysc_side (k : Nat) (v : Option SyscBlock) : (setSysc s k v).side = s.side := rfl
@[simp] theorem setSysc_coh (k : Nat) (v : Option SyscBlock) : (setSysc s k v).coh = s.coh := rfl
@[simp] theorem setSysc_chans (k : Nat) (v : Option SyscBlock) : (setSysc s k v).chans = s.chans := rfl
@[simp] theorem setSysc_stkTemp (k : Nat) (v : Option SyscBlock) : (setSysc s k v).stkTemp = s.stkTemp := rfl
@[simp] theorem setSysc_links (k : Nat) (v : Option SyscBlock) : (setSysc s k v).links = s.links := rfl
@[simp] theorem setSysc_ports (k : Nat) (v : Option SyscBlock) : (setSysc s k v).ports = s.ports := rfl
@[simp] theorem setSysc_routes (k : Nat) (v : Option SyscBlock) : (setSysc s k v).routes = s.routes := rfl
@[simp] theorem setSysc_catalogue (k : Nat) (v : Option SyscBlock) : (setSysc s k v).catalogue = s.catalogue := rfl
@[simp] theorem setSysc_flows (k : Nat) (v : Option SyscBlock) : (setSysc s k v).flows = s.flows := rfl
@[simp] theorem setSysc_flowDies (k : Nat) (v : Option SyscBlock) : (setSysc s k v).flowDies = s.flowDies := rfl
@[simp] theorem setSysc_ces (k : Nat) (v : Option SyscBlock) : (setSysc s k v).ces = s.ces := rfl
@[simp] theorem setSysc_job (k : Nat) (v : Option SyscBlock) : (setSysc s k v).job = s.job := rfl
@[simp] theorem setSysc_acc (k : Nat) (v : Option SyscBlock) : (setSysc s k v).acc = s.acc := rfl
@[simp] theorem setSysc_netOut (k : Nat) (v : Option SyscBlock) : (setSysc s k v).netOut = s.netOut := rfl
@[simp] theorem setSysc_netIn (k : Nat) (v : Option SyscBlock) : (setSysc s k v).netIn = s.netIn := rfl
@[simp] theorem setSysc_hostPort (k : Nat) (v : Option SyscBlock) : (setSysc s k v).hostPort = s.hostPort := rfl
@[simp] theorem setSysc_power (k : Nat) (v : Option SyscBlock) : (setSysc s k v).power = s.power := rfl
@[simp] theorem setSysc_mg (k : Nat) (v : Option SyscBlock) : (setSysc s k v).mg = s.mg := rfl
@[simp] theorem setSysc_pins (k : Nat) (v : Option SyscBlock) : (setSysc s k v).pins = s.pins := rfl
@[simp] theorem setSysc_freeCount (k : Nat) (v : Option SyscBlock) : (setSysc s k v).freeCount = s.freeCount := rfl
@[simp] theorem setSysc_resv (k : Nat) (v : Option SyscBlock) : (setSysc s k v).resv = s.resv := rfl
@[simp] theorem setSysc_resp (k : Nat) (v : Option SyscBlock) : (setSysc s k v).resp = s.resp := rfl

/-! setAgent. -/

@[simp] theorem setAgent_pending (a : AgentId) (l : Nat) (v : AgentLine) : (setAgent s a l v).pending = s.pending := rfl
@[simp] theorem setAgent_fuses (a : AgentId) (l : Nat) (v : AgentLine) : (setAgent s a l v).fuses = s.fuses := rfl
@[simp] theorem setAgent_regs (a : AgentId) (l : Nat) (v : AgentLine) : (setAgent s a l v).regs = s.regs := rfl
@[simp] theorem setAgent_heldReset (a : AgentId) (l : Nat) (v : AgentLine) : (setAgent s a l v).heldReset = s.heldReset := rfl
@[simp] theorem setAgent_log (a : AgentId) (l : Nat) (v : AgentLine) : (setAgent s a l v).log = s.log := rfl
@[simp] theorem setAgent_bays (a : AgentId) (l : Nat) (v : AgentLine) : (setAgent s a l v).bays = s.bays := rfl
@[simp] theorem setAgent_harts (a : AgentId) (l : Nat) (v : AgentLine) : (setAgent s a l v).harts = s.harts := rfl
@[simp] theorem setAgent_caches (a : AgentId) (l : Nat) (v : AgentLine) : (setAgent s a l v).caches = s.caches := rfl
@[simp] theorem setAgent_sysc (a : AgentId) (l : Nat) (v : AgentLine) : (setAgent s a l v).sysc = s.sysc := rfl
@[simp] theorem setAgent_dram (a : AgentId) (l : Nat) (v : AgentLine) : (setAgent s a l v).dram = s.dram := rfl
@[simp] theorem setAgent_side (a : AgentId) (l : Nat) (v : AgentLine) : (setAgent s a l v).side = s.side := rfl
@[simp] theorem setAgent_chans (a : AgentId) (l : Nat) (v : AgentLine) : (setAgent s a l v).chans = s.chans := rfl
@[simp] theorem setAgent_stkTemp (a : AgentId) (l : Nat) (v : AgentLine) : (setAgent s a l v).stkTemp = s.stkTemp := rfl
@[simp] theorem setAgent_links (a : AgentId) (l : Nat) (v : AgentLine) : (setAgent s a l v).links = s.links := rfl
@[simp] theorem setAgent_ports (a : AgentId) (l : Nat) (v : AgentLine) : (setAgent s a l v).ports = s.ports := rfl
@[simp] theorem setAgent_routes (a : AgentId) (l : Nat) (v : AgentLine) : (setAgent s a l v).routes = s.routes := rfl
@[simp] theorem setAgent_catalogue (a : AgentId) (l : Nat) (v : AgentLine) : (setAgent s a l v).catalogue = s.catalogue := rfl
@[simp] theorem setAgent_flows (a : AgentId) (l : Nat) (v : AgentLine) : (setAgent s a l v).flows = s.flows := rfl
@[simp] theorem setAgent_flowDies (a : AgentId) (l : Nat) (v : AgentLine) : (setAgent s a l v).flowDies = s.flowDies := rfl
@[simp] theorem setAgent_ces (a : AgentId) (l : Nat) (v : AgentLine) : (setAgent s a l v).ces = s.ces := rfl
@[simp] theorem setAgent_job (a : AgentId) (l : Nat) (v : AgentLine) : (setAgent s a l v).job = s.job := rfl
@[simp] theorem setAgent_acc (a : AgentId) (l : Nat) (v : AgentLine) : (setAgent s a l v).acc = s.acc := rfl
@[simp] theorem setAgent_netOut (a : AgentId) (l : Nat) (v : AgentLine) : (setAgent s a l v).netOut = s.netOut := rfl
@[simp] theorem setAgent_netIn (a : AgentId) (l : Nat) (v : AgentLine) : (setAgent s a l v).netIn = s.netIn := rfl
@[simp] theorem setAgent_hostPort (a : AgentId) (l : Nat) (v : AgentLine) : (setAgent s a l v).hostPort = s.hostPort := rfl
@[simp] theorem setAgent_power (a : AgentId) (l : Nat) (v : AgentLine) : (setAgent s a l v).power = s.power := rfl
@[simp] theorem setAgent_mg (a : AgentId) (l : Nat) (v : AgentLine) : (setAgent s a l v).mg = s.mg := rfl
@[simp] theorem setAgent_pins (a : AgentId) (l : Nat) (v : AgentLine) : (setAgent s a l v).pins = s.pins := rfl
@[simp] theorem setAgent_freeCount (a : AgentId) (l : Nat) (v : AgentLine) : (setAgent s a l v).freeCount = s.freeCount := rfl
@[simp] theorem setAgent_resv (a : AgentId) (l : Nat) (v : AgentLine) : (setAgent s a l v).resv = s.resv := rfl
@[simp] theorem setAgent_resp (a : AgentId) (l : Nat) (v : AgentLine) : (setAgent s a l v).resp = s.resp := rfl

/-! setHome. -/

@[simp] theorem setHome_pending (l : Nat) (v : HomeLine) : (setHome s l v).pending = s.pending := rfl
@[simp] theorem setHome_fuses (l : Nat) (v : HomeLine) : (setHome s l v).fuses = s.fuses := rfl
@[simp] theorem setHome_regs (l : Nat) (v : HomeLine) : (setHome s l v).regs = s.regs := rfl
@[simp] theorem setHome_heldReset (l : Nat) (v : HomeLine) : (setHome s l v).heldReset = s.heldReset := rfl
@[simp] theorem setHome_log (l : Nat) (v : HomeLine) : (setHome s l v).log = s.log := rfl
@[simp] theorem setHome_bays (l : Nat) (v : HomeLine) : (setHome s l v).bays = s.bays := rfl
@[simp] theorem setHome_harts (l : Nat) (v : HomeLine) : (setHome s l v).harts = s.harts := rfl
@[simp] theorem setHome_caches (l : Nat) (v : HomeLine) : (setHome s l v).caches = s.caches := rfl
@[simp] theorem setHome_sysc (l : Nat) (v : HomeLine) : (setHome s l v).sysc = s.sysc := rfl
@[simp] theorem setHome_dram (l : Nat) (v : HomeLine) : (setHome s l v).dram = s.dram := rfl
@[simp] theorem setHome_side (l : Nat) (v : HomeLine) : (setHome s l v).side = s.side := rfl
@[simp] theorem setHome_chans (l : Nat) (v : HomeLine) : (setHome s l v).chans = s.chans := rfl
@[simp] theorem setHome_stkTemp (l : Nat) (v : HomeLine) : (setHome s l v).stkTemp = s.stkTemp := rfl
@[simp] theorem setHome_links (l : Nat) (v : HomeLine) : (setHome s l v).links = s.links := rfl
@[simp] theorem setHome_ports (l : Nat) (v : HomeLine) : (setHome s l v).ports = s.ports := rfl
@[simp] theorem setHome_routes (l : Nat) (v : HomeLine) : (setHome s l v).routes = s.routes := rfl
@[simp] theorem setHome_catalogue (l : Nat) (v : HomeLine) : (setHome s l v).catalogue = s.catalogue := rfl
@[simp] theorem setHome_flows (l : Nat) (v : HomeLine) : (setHome s l v).flows = s.flows := rfl
@[simp] theorem setHome_flowDies (l : Nat) (v : HomeLine) : (setHome s l v).flowDies = s.flowDies := rfl
@[simp] theorem setHome_ces (l : Nat) (v : HomeLine) : (setHome s l v).ces = s.ces := rfl
@[simp] theorem setHome_job (l : Nat) (v : HomeLine) : (setHome s l v).job = s.job := rfl
@[simp] theorem setHome_acc (l : Nat) (v : HomeLine) : (setHome s l v).acc = s.acc := rfl
@[simp] theorem setHome_netOut (l : Nat) (v : HomeLine) : (setHome s l v).netOut = s.netOut := rfl
@[simp] theorem setHome_netIn (l : Nat) (v : HomeLine) : (setHome s l v).netIn = s.netIn := rfl
@[simp] theorem setHome_hostPort (l : Nat) (v : HomeLine) : (setHome s l v).hostPort = s.hostPort := rfl
@[simp] theorem setHome_power (l : Nat) (v : HomeLine) : (setHome s l v).power = s.power := rfl
@[simp] theorem setHome_mg (l : Nat) (v : HomeLine) : (setHome s l v).mg = s.mg := rfl
@[simp] theorem setHome_pins (l : Nat) (v : HomeLine) : (setHome s l v).pins = s.pins := rfl
@[simp] theorem setHome_freeCount (l : Nat) (v : HomeLine) : (setHome s l v).freeCount = s.freeCount := rfl
@[simp] theorem setHome_resv (l : Nat) (v : HomeLine) : (setHome s l v).resv = s.resv := rfl
@[simp] theorem setHome_resp (l : Nat) (v : HomeLine) : (setHome s l v).resp = s.resp := rfl

/-! setTx. -/

@[simp] theorem setTx_pending (l : Fin 31) (d : Bool) (v : List TxMsg) : (setTx s l d v).pending = s.pending := rfl
@[simp] theorem setTx_fuses (l : Fin 31) (d : Bool) (v : List TxMsg) : (setTx s l d v).fuses = s.fuses := rfl
@[simp] theorem setTx_regs (l : Fin 31) (d : Bool) (v : List TxMsg) : (setTx s l d v).regs = s.regs := rfl
@[simp] theorem setTx_heldReset (l : Fin 31) (d : Bool) (v : List TxMsg) : (setTx s l d v).heldReset = s.heldReset := rfl
@[simp] theorem setTx_log (l : Fin 31) (d : Bool) (v : List TxMsg) : (setTx s l d v).log = s.log := rfl
@[simp] theorem setTx_bays (l : Fin 31) (d : Bool) (v : List TxMsg) : (setTx s l d v).bays = s.bays := rfl
@[simp] theorem setTx_harts (l : Fin 31) (d : Bool) (v : List TxMsg) : (setTx s l d v).harts = s.harts := rfl
@[simp] theorem setTx_caches (l : Fin 31) (d : Bool) (v : List TxMsg) : (setTx s l d v).caches = s.caches := rfl
@[simp] theorem setTx_sysc (l : Fin 31) (d : Bool) (v : List TxMsg) : (setTx s l d v).sysc = s.sysc := rfl
@[simp] theorem setTx_dram (l : Fin 31) (d : Bool) (v : List TxMsg) : (setTx s l d v).dram = s.dram := rfl
@[simp] theorem setTx_side (l : Fin 31) (d : Bool) (v : List TxMsg) : (setTx s l d v).side = s.side := rfl
@[simp] theorem setTx_chans (l : Fin 31) (d : Bool) (v : List TxMsg) : (setTx s l d v).chans = s.chans := rfl
@[simp] theorem setTx_stkTemp (l : Fin 31) (d : Bool) (v : List TxMsg) : (setTx s l d v).stkTemp = s.stkTemp := rfl
@[simp] theorem setTx_links (l : Fin 31) (d : Bool) (v : List TxMsg) : (setTx s l d v).links = s.links := rfl
@[simp] theorem setTx_ports (l : Fin 31) (d : Bool) (v : List TxMsg) : (setTx s l d v).ports = s.ports := rfl
@[simp] theorem setTx_routes (l : Fin 31) (d : Bool) (v : List TxMsg) : (setTx s l d v).routes = s.routes := rfl
@[simp] theorem setTx_catalogue (l : Fin 31) (d : Bool) (v : List TxMsg) : (setTx s l d v).catalogue = s.catalogue := rfl
@[simp] theorem setTx_flows (l : Fin 31) (d : Bool) (v : List TxMsg) : (setTx s l d v).flows = s.flows := rfl
@[simp] theorem setTx_flowDies (l : Fin 31) (d : Bool) (v : List TxMsg) : (setTx s l d v).flowDies = s.flowDies := rfl
@[simp] theorem setTx_ces (l : Fin 31) (d : Bool) (v : List TxMsg) : (setTx s l d v).ces = s.ces := rfl
@[simp] theorem setTx_job (l : Fin 31) (d : Bool) (v : List TxMsg) : (setTx s l d v).job = s.job := rfl
@[simp] theorem setTx_acc (l : Fin 31) (d : Bool) (v : List TxMsg) : (setTx s l d v).acc = s.acc := rfl
@[simp] theorem setTx_netOut (l : Fin 31) (d : Bool) (v : List TxMsg) : (setTx s l d v).netOut = s.netOut := rfl
@[simp] theorem setTx_netIn (l : Fin 31) (d : Bool) (v : List TxMsg) : (setTx s l d v).netIn = s.netIn := rfl
@[simp] theorem setTx_hostPort (l : Fin 31) (d : Bool) (v : List TxMsg) : (setTx s l d v).hostPort = s.hostPort := rfl
@[simp] theorem setTx_power (l : Fin 31) (d : Bool) (v : List TxMsg) : (setTx s l d v).power = s.power := rfl
@[simp] theorem setTx_mg (l : Fin 31) (d : Bool) (v : List TxMsg) : (setTx s l d v).mg = s.mg := rfl
@[simp] theorem setTx_pins (l : Fin 31) (d : Bool) (v : List TxMsg) : (setTx s l d v).pins = s.pins := rfl
@[simp] theorem setTx_freeCount (l : Fin 31) (d : Bool) (v : List TxMsg) : (setTx s l d v).freeCount = s.freeCount := rfl
@[simp] theorem setTx_resv (l : Fin 31) (d : Bool) (v : List TxMsg) : (setTx s l d v).resv = s.resv := rfl
@[simp] theorem setTx_resp (l : Fin 31) (d : Bool) (v : List TxMsg) : (setTx s l d v).resp = s.resp := rfl

/-! txPut. -/

@[simp] theorem txPut_pending (l : Nat) (m : Msg) (b : Bool) (h : List Hop) : (txPut s l m b h).pending = s.pending := by cases h <;> rfl
@[simp] theorem txPut_fuses (l : Nat) (m : Msg) (b : Bool) (h : List Hop) : (txPut s l m b h).fuses = s.fuses := by cases h <;> rfl
@[simp] theorem txPut_regs (l : Nat) (m : Msg) (b : Bool) (h : List Hop) : (txPut s l m b h).regs = s.regs := by cases h <;> rfl
@[simp] theorem txPut_heldReset (l : Nat) (m : Msg) (b : Bool) (h : List Hop) : (txPut s l m b h).heldReset = s.heldReset := by cases h <;> rfl
@[simp] theorem txPut_log (l : Nat) (m : Msg) (b : Bool) (h : List Hop) : (txPut s l m b h).log = s.log := by cases h <;> rfl
@[simp] theorem txPut_bays (l : Nat) (m : Msg) (b : Bool) (h : List Hop) : (txPut s l m b h).bays = s.bays := by cases h <;> rfl
@[simp] theorem txPut_harts (l : Nat) (m : Msg) (b : Bool) (h : List Hop) : (txPut s l m b h).harts = s.harts := by cases h <;> rfl
@[simp] theorem txPut_caches (l : Nat) (m : Msg) (b : Bool) (h : List Hop) : (txPut s l m b h).caches = s.caches := by cases h <;> rfl
@[simp] theorem txPut_sysc (l : Nat) (m : Msg) (b : Bool) (h : List Hop) : (txPut s l m b h).sysc = s.sysc := by cases h <;> rfl
@[simp] theorem txPut_dram (l : Nat) (m : Msg) (b : Bool) (h : List Hop) : (txPut s l m b h).dram = s.dram := by cases h <;> rfl
@[simp] theorem txPut_side (l : Nat) (m : Msg) (b : Bool) (h : List Hop) : (txPut s l m b h).side = s.side := by cases h <;> rfl
@[simp] theorem txPut_chans (l : Nat) (m : Msg) (b : Bool) (h : List Hop) : (txPut s l m b h).chans = s.chans := by cases h <;> rfl
@[simp] theorem txPut_stkTemp (l : Nat) (m : Msg) (b : Bool) (h : List Hop) : (txPut s l m b h).stkTemp = s.stkTemp := by cases h <;> rfl
@[simp] theorem txPut_links (l : Nat) (m : Msg) (b : Bool) (h : List Hop) : (txPut s l m b h).links = s.links := by cases h <;> rfl
@[simp] theorem txPut_ports (l : Nat) (m : Msg) (b : Bool) (h : List Hop) : (txPut s l m b h).ports = s.ports := by cases h <;> rfl
@[simp] theorem txPut_routes (l : Nat) (m : Msg) (b : Bool) (h : List Hop) : (txPut s l m b h).routes = s.routes := by cases h <;> rfl
@[simp] theorem txPut_catalogue (l : Nat) (m : Msg) (b : Bool) (h : List Hop) : (txPut s l m b h).catalogue = s.catalogue := by cases h <;> rfl
@[simp] theorem txPut_flows (l : Nat) (m : Msg) (b : Bool) (h : List Hop) : (txPut s l m b h).flows = s.flows := by cases h <;> rfl
@[simp] theorem txPut_flowDies (l : Nat) (m : Msg) (b : Bool) (h : List Hop) : (txPut s l m b h).flowDies = s.flowDies := by cases h <;> rfl
@[simp] theorem txPut_ces (l : Nat) (m : Msg) (b : Bool) (h : List Hop) : (txPut s l m b h).ces = s.ces := by cases h <;> rfl
@[simp] theorem txPut_job (l : Nat) (m : Msg) (b : Bool) (h : List Hop) : (txPut s l m b h).job = s.job := by cases h <;> rfl
@[simp] theorem txPut_acc (l : Nat) (m : Msg) (b : Bool) (h : List Hop) : (txPut s l m b h).acc = s.acc := by cases h <;> rfl
@[simp] theorem txPut_netOut (l : Nat) (m : Msg) (b : Bool) (h : List Hop) : (txPut s l m b h).netOut = s.netOut := by cases h <;> rfl
@[simp] theorem txPut_netIn (l : Nat) (m : Msg) (b : Bool) (h : List Hop) : (txPut s l m b h).netIn = s.netIn := by cases h <;> rfl
@[simp] theorem txPut_hostPort (l : Nat) (m : Msg) (b : Bool) (h : List Hop) : (txPut s l m b h).hostPort = s.hostPort := by cases h <;> rfl
@[simp] theorem txPut_power (l : Nat) (m : Msg) (b : Bool) (h : List Hop) : (txPut s l m b h).power = s.power := by cases h <;> rfl
@[simp] theorem txPut_mg (l : Nat) (m : Msg) (b : Bool) (h : List Hop) : (txPut s l m b h).mg = s.mg := by cases h <;> rfl
@[simp] theorem txPut_pins (l : Nat) (m : Msg) (b : Bool) (h : List Hop) : (txPut s l m b h).pins = s.pins := by cases h <;> rfl
@[simp] theorem txPut_freeCount (l : Nat) (m : Msg) (b : Bool) (h : List Hop) : (txPut s l m b h).freeCount = s.freeCount := by cases h <;> rfl
@[simp] theorem txPut_resv (l : Nat) (m : Msg) (b : Bool) (h : List Hop) : (txPut s l m b h).resv = s.resv := by cases h <;> rfl
@[simp] theorem txPut_resp (l : Nat) (m : Msg) (b : Bool) (h : List Hop) : (txPut s l m b h).resp = s.resp := by cases h <;> rfl

/-! sendMsg. -/

@[simp] theorem sendMsg_pending (l : Nat) (m : Msg) : (sendMsg s l m).pending = s.pending := by unfold sendMsg; simp
@[simp] theorem sendMsg_fuses (l : Nat) (m : Msg) : (sendMsg s l m).fuses = s.fuses := by unfold sendMsg; simp
@[simp] theorem sendMsg_regs (l : Nat) (m : Msg) : (sendMsg s l m).regs = s.regs := by unfold sendMsg; simp
@[simp] theorem sendMsg_heldReset (l : Nat) (m : Msg) : (sendMsg s l m).heldReset = s.heldReset := by unfold sendMsg; simp
@[simp] theorem sendMsg_log (l : Nat) (m : Msg) : (sendMsg s l m).log = s.log := by unfold sendMsg; simp
@[simp] theorem sendMsg_bays (l : Nat) (m : Msg) : (sendMsg s l m).bays = s.bays := by unfold sendMsg; simp
@[simp] theorem sendMsg_harts (l : Nat) (m : Msg) : (sendMsg s l m).harts = s.harts := by unfold sendMsg; simp
@[simp] theorem sendMsg_caches (l : Nat) (m : Msg) : (sendMsg s l m).caches = s.caches := by unfold sendMsg; simp
@[simp] theorem sendMsg_sysc (l : Nat) (m : Msg) : (sendMsg s l m).sysc = s.sysc := by unfold sendMsg; simp
@[simp] theorem sendMsg_dram (l : Nat) (m : Msg) : (sendMsg s l m).dram = s.dram := by unfold sendMsg; simp
@[simp] theorem sendMsg_side (l : Nat) (m : Msg) : (sendMsg s l m).side = s.side := by unfold sendMsg; simp
@[simp] theorem sendMsg_chans (l : Nat) (m : Msg) : (sendMsg s l m).chans = s.chans := by unfold sendMsg; simp
@[simp] theorem sendMsg_stkTemp (l : Nat) (m : Msg) : (sendMsg s l m).stkTemp = s.stkTemp := by unfold sendMsg; simp
@[simp] theorem sendMsg_links (l : Nat) (m : Msg) : (sendMsg s l m).links = s.links := by unfold sendMsg; simp
@[simp] theorem sendMsg_ports (l : Nat) (m : Msg) : (sendMsg s l m).ports = s.ports := by unfold sendMsg; simp
@[simp] theorem sendMsg_routes (l : Nat) (m : Msg) : (sendMsg s l m).routes = s.routes := by unfold sendMsg; simp
@[simp] theorem sendMsg_catalogue (l : Nat) (m : Msg) : (sendMsg s l m).catalogue = s.catalogue := by unfold sendMsg; simp
@[simp] theorem sendMsg_flows (l : Nat) (m : Msg) : (sendMsg s l m).flows = s.flows := by unfold sendMsg; simp
@[simp] theorem sendMsg_flowDies (l : Nat) (m : Msg) : (sendMsg s l m).flowDies = s.flowDies := by unfold sendMsg; simp
@[simp] theorem sendMsg_ces (l : Nat) (m : Msg) : (sendMsg s l m).ces = s.ces := by unfold sendMsg; simp
@[simp] theorem sendMsg_job (l : Nat) (m : Msg) : (sendMsg s l m).job = s.job := by unfold sendMsg; simp
@[simp] theorem sendMsg_acc (l : Nat) (m : Msg) : (sendMsg s l m).acc = s.acc := by unfold sendMsg; simp
@[simp] theorem sendMsg_netOut (l : Nat) (m : Msg) : (sendMsg s l m).netOut = s.netOut := by unfold sendMsg; simp
@[simp] theorem sendMsg_netIn (l : Nat) (m : Msg) : (sendMsg s l m).netIn = s.netIn := by unfold sendMsg; simp
@[simp] theorem sendMsg_hostPort (l : Nat) (m : Msg) : (sendMsg s l m).hostPort = s.hostPort := by unfold sendMsg; simp
@[simp] theorem sendMsg_power (l : Nat) (m : Msg) : (sendMsg s l m).power = s.power := by unfold sendMsg; simp
@[simp] theorem sendMsg_mg (l : Nat) (m : Msg) : (sendMsg s l m).mg = s.mg := by unfold sendMsg; simp
@[simp] theorem sendMsg_pins (l : Nat) (m : Msg) : (sendMsg s l m).pins = s.pins := by unfold sendMsg; simp
@[simp] theorem sendMsg_freeCount (l : Nat) (m : Msg) : (sendMsg s l m).freeCount = s.freeCount := by unfold sendMsg; simp
@[simp] theorem sendMsg_resv (l : Nat) (m : Msg) : (sendMsg s l m).resv = s.resv := by unfold sendMsg; simp
@[simp] theorem sendMsg_resp (l : Nat) (m : Msg) : (sendMsg s l m).resp = s.resp := by unfold sendMsg; simp

/-! takeMsg. -/

@[simp] theorem takeMsg_pending (l : Nat) (m : Msg) : (takeMsg s l m).pending = s.pending := rfl
@[simp] theorem takeMsg_fuses (l : Nat) (m : Msg) : (takeMsg s l m).fuses = s.fuses := rfl
@[simp] theorem takeMsg_regs (l : Nat) (m : Msg) : (takeMsg s l m).regs = s.regs := rfl
@[simp] theorem takeMsg_heldReset (l : Nat) (m : Msg) : (takeMsg s l m).heldReset = s.heldReset := rfl
@[simp] theorem takeMsg_log (l : Nat) (m : Msg) : (takeMsg s l m).log = s.log := rfl
@[simp] theorem takeMsg_bays (l : Nat) (m : Msg) : (takeMsg s l m).bays = s.bays := rfl
@[simp] theorem takeMsg_harts (l : Nat) (m : Msg) : (takeMsg s l m).harts = s.harts := rfl
@[simp] theorem takeMsg_caches (l : Nat) (m : Msg) : (takeMsg s l m).caches = s.caches := rfl
@[simp] theorem takeMsg_sysc (l : Nat) (m : Msg) : (takeMsg s l m).sysc = s.sysc := rfl
@[simp] theorem takeMsg_dram (l : Nat) (m : Msg) : (takeMsg s l m).dram = s.dram := rfl
@[simp] theorem takeMsg_side (l : Nat) (m : Msg) : (takeMsg s l m).side = s.side := rfl
@[simp] theorem takeMsg_chans (l : Nat) (m : Msg) : (takeMsg s l m).chans = s.chans := rfl
@[simp] theorem takeMsg_stkTemp (l : Nat) (m : Msg) : (takeMsg s l m).stkTemp = s.stkTemp := rfl
@[simp] theorem takeMsg_links (l : Nat) (m : Msg) : (takeMsg s l m).links = s.links := rfl
@[simp] theorem takeMsg_ports (l : Nat) (m : Msg) : (takeMsg s l m).ports = s.ports := rfl
@[simp] theorem takeMsg_routes (l : Nat) (m : Msg) : (takeMsg s l m).routes = s.routes := rfl
@[simp] theorem takeMsg_catalogue (l : Nat) (m : Msg) : (takeMsg s l m).catalogue = s.catalogue := rfl
@[simp] theorem takeMsg_flows (l : Nat) (m : Msg) : (takeMsg s l m).flows = s.flows := rfl
@[simp] theorem takeMsg_flowDies (l : Nat) (m : Msg) : (takeMsg s l m).flowDies = s.flowDies := rfl
@[simp] theorem takeMsg_ces (l : Nat) (m : Msg) : (takeMsg s l m).ces = s.ces := rfl
@[simp] theorem takeMsg_job (l : Nat) (m : Msg) : (takeMsg s l m).job = s.job := rfl
@[simp] theorem takeMsg_acc (l : Nat) (m : Msg) : (takeMsg s l m).acc = s.acc := rfl
@[simp] theorem takeMsg_netOut (l : Nat) (m : Msg) : (takeMsg s l m).netOut = s.netOut := rfl
@[simp] theorem takeMsg_netIn (l : Nat) (m : Msg) : (takeMsg s l m).netIn = s.netIn := rfl
@[simp] theorem takeMsg_hostPort (l : Nat) (m : Msg) : (takeMsg s l m).hostPort = s.hostPort := rfl
@[simp] theorem takeMsg_power (l : Nat) (m : Msg) : (takeMsg s l m).power = s.power := rfl
@[simp] theorem takeMsg_mg (l : Nat) (m : Msg) : (takeMsg s l m).mg = s.mg := rfl
@[simp] theorem takeMsg_pins (l : Nat) (m : Msg) : (takeMsg s l m).pins = s.pins := rfl
@[simp] theorem takeMsg_freeCount (l : Nat) (m : Msg) : (takeMsg s l m).freeCount = s.freeCount := rfl
@[simp] theorem takeMsg_resv (l : Nat) (m : Msg) : (takeMsg s l m).resv = s.resv := rfl
@[simp] theorem takeMsg_resp (l : Nat) (m : Msg) : (takeMsg s l m).resp = s.resp := rfl

/-! setCredits. -/

@[simp] theorem setCredits_pending (d h n : Nat) : (setCredits s d h n).pending = s.pending := rfl
@[simp] theorem setCredits_fuses (d h n : Nat) : (setCredits s d h n).fuses = s.fuses := rfl
@[simp] theorem setCredits_regs (d h n : Nat) : (setCredits s d h n).regs = s.regs := rfl
@[simp] theorem setCredits_heldReset (d h n : Nat) : (setCredits s d h n).heldReset = s.heldReset := rfl
@[simp] theorem setCredits_log (d h n : Nat) : (setCredits s d h n).log = s.log := rfl
@[simp] theorem setCredits_bays (d h n : Nat) : (setCredits s d h n).bays = s.bays := rfl
@[simp] theorem setCredits_harts (d h n : Nat) : (setCredits s d h n).harts = s.harts := rfl
@[simp] theorem setCredits_caches (d h n : Nat) : (setCredits s d h n).caches = s.caches := rfl
@[simp] theorem setCredits_sysc (d h n : Nat) : (setCredits s d h n).sysc = s.sysc := rfl
@[simp] theorem setCredits_dram (d h n : Nat) : (setCredits s d h n).dram = s.dram := rfl
@[simp] theorem setCredits_side (d h n : Nat) : (setCredits s d h n).side = s.side := rfl
@[simp] theorem setCredits_chans (d h n : Nat) : (setCredits s d h n).chans = s.chans := rfl
@[simp] theorem setCredits_stkTemp (d h n : Nat) : (setCredits s d h n).stkTemp = s.stkTemp := rfl
@[simp] theorem setCredits_links (d h n : Nat) : (setCredits s d h n).links = s.links := rfl
@[simp] theorem setCredits_ports (d h n : Nat) : (setCredits s d h n).ports = s.ports := rfl
@[simp] theorem setCredits_routes (d h n : Nat) : (setCredits s d h n).routes = s.routes := rfl
@[simp] theorem setCredits_catalogue (d h n : Nat) : (setCredits s d h n).catalogue = s.catalogue := rfl
@[simp] theorem setCredits_flows (d h n : Nat) : (setCredits s d h n).flows = s.flows := rfl
@[simp] theorem setCredits_flowDies (d h n : Nat) : (setCredits s d h n).flowDies = s.flowDies := rfl
@[simp] theorem setCredits_ces (d h n : Nat) : (setCredits s d h n).ces = s.ces := rfl
@[simp] theorem setCredits_job (d h n : Nat) : (setCredits s d h n).job = s.job := rfl
@[simp] theorem setCredits_acc (d h n : Nat) : (setCredits s d h n).acc = s.acc := rfl
@[simp] theorem setCredits_netOut (d h n : Nat) : (setCredits s d h n).netOut = s.netOut := rfl
@[simp] theorem setCredits_netIn (d h n : Nat) : (setCredits s d h n).netIn = s.netIn := rfl
@[simp] theorem setCredits_hostPort (d h n : Nat) : (setCredits s d h n).hostPort = s.hostPort := rfl
@[simp] theorem setCredits_power (d h n : Nat) : (setCredits s d h n).power = s.power := rfl
@[simp] theorem setCredits_mg (d h n : Nat) : (setCredits s d h n).mg = s.mg := rfl
@[simp] theorem setCredits_pins (d h n : Nat) : (setCredits s d h n).pins = s.pins := rfl
@[simp] theorem setCredits_freeCount (d h n : Nat) : (setCredits s d h n).freeCount = s.freeCount := rfl
@[simp] theorem setCredits_resv (d h n : Nat) : (setCredits s d h n).resv = s.resv := rfl
@[simp] theorem setCredits_resp (d h n : Nat) : (setCredits s d h n).resp = s.resp := rfl

/-! biStart. -/

@[simp] theorem biStart_pending (l k : Nat) : (biStart s l k).pending = s.pending := by unfold biStart; split <;> rfl
@[simp] theorem biStart_fuses (l k : Nat) : (biStart s l k).fuses = s.fuses := by unfold biStart; split <;> rfl
@[simp] theorem biStart_regs (l k : Nat) : (biStart s l k).regs = s.regs := by unfold biStart; split <;> rfl
@[simp] theorem biStart_heldReset (l k : Nat) : (biStart s l k).heldReset = s.heldReset := by unfold biStart; split <;> rfl
@[simp] theorem biStart_log (l k : Nat) : (biStart s l k).log = s.log := by unfold biStart; split <;> rfl
@[simp] theorem biStart_bays (l k : Nat) : (biStart s l k).bays = s.bays := by unfold biStart; split <;> rfl
@[simp] theorem biStart_harts (l k : Nat) : (biStart s l k).harts = s.harts := by unfold biStart; split <;> rfl
@[simp] theorem biStart_caches (l k : Nat) : (biStart s l k).caches = s.caches := by unfold biStart; split <;> rfl
@[simp] theorem biStart_sysc (l k : Nat) : (biStart s l k).sysc = s.sysc := by unfold biStart; split <;> rfl
@[simp] theorem biStart_dram (l k : Nat) : (biStart s l k).dram = s.dram := by unfold biStart; split <;> rfl
@[simp] theorem biStart_side (l k : Nat) : (biStart s l k).side = s.side := by unfold biStart; split <;> rfl
@[simp] theorem biStart_coh (l k : Nat) : (biStart s l k).coh = s.coh := by unfold biStart; split <;> rfl
@[simp] theorem biStart_chans (l k : Nat) : (biStart s l k).chans = s.chans := by unfold biStart; split <;> rfl
@[simp] theorem biStart_stkTemp (l k : Nat) : (biStart s l k).stkTemp = s.stkTemp := by unfold biStart; split <;> rfl
@[simp] theorem biStart_links (l k : Nat) : (biStart s l k).links = s.links := by unfold biStart; split <;> rfl
@[simp] theorem biStart_ports (l k : Nat) : (biStart s l k).ports = s.ports := by unfold biStart; split <;> rfl
@[simp] theorem biStart_routes (l k : Nat) : (biStart s l k).routes = s.routes := by unfold biStart; split <;> rfl
@[simp] theorem biStart_catalogue (l k : Nat) : (biStart s l k).catalogue = s.catalogue := by unfold biStart; split <;> rfl
@[simp] theorem biStart_flows (l k : Nat) : (biStart s l k).flows = s.flows := by unfold biStart; split <;> rfl
@[simp] theorem biStart_flowDies (l k : Nat) : (biStart s l k).flowDies = s.flowDies := by unfold biStart; split <;> rfl
@[simp] theorem biStart_ces (l k : Nat) : (biStart s l k).ces = s.ces := by unfold biStart; split <;> rfl
@[simp] theorem biStart_job (l k : Nat) : (biStart s l k).job = s.job := by unfold biStart; split <;> rfl
@[simp] theorem biStart_acc (l k : Nat) : (biStart s l k).acc = s.acc := by unfold biStart; split <;> rfl
@[simp] theorem biStart_netOut (l k : Nat) : (biStart s l k).netOut = s.netOut := by unfold biStart; split <;> rfl
@[simp] theorem biStart_netIn (l k : Nat) : (biStart s l k).netIn = s.netIn := by unfold biStart; split <;> rfl
@[simp] theorem biStart_power (l k : Nat) : (biStart s l k).power = s.power := by unfold biStart; split <;> rfl
@[simp] theorem biStart_mg (l k : Nat) : (biStart s l k).mg = s.mg := by unfold biStart; split <;> rfl
@[simp] theorem biStart_pins (l k : Nat) : (biStart s l k).pins = s.pins := by unfold biStart; split <;> rfl
@[simp] theorem biStart_freeCount (l k : Nat) : (biStart s l k).freeCount = s.freeCount := by unfold biStart; split <;> rfl
@[simp] theorem biStart_resv (l k : Nat) : (biStart s l k).resv = s.resv := by unfold biStart; split <;> rfl
@[simp] theorem biStart_resp (l k : Nat) : (biStart s l k).resp = s.resp := by unfold biStart; split <;> rfl

/-! setLink. -/

@[simp] theorem setLink_pending (l : Fin 31) (v : Link) : (setLink s l v).pending = s.pending := rfl
@[simp] theorem setLink_fuses (l : Fin 31) (v : Link) : (setLink s l v).fuses = s.fuses := rfl
@[simp] theorem setLink_regs (l : Fin 31) (v : Link) : (setLink s l v).regs = s.regs := rfl
@[simp] theorem setLink_heldReset (l : Fin 31) (v : Link) : (setLink s l v).heldReset = s.heldReset := rfl
@[simp] theorem setLink_log (l : Fin 31) (v : Link) : (setLink s l v).log = s.log := rfl
@[simp] theorem setLink_bays (l : Fin 31) (v : Link) : (setLink s l v).bays = s.bays := rfl
@[simp] theorem setLink_harts (l : Fin 31) (v : Link) : (setLink s l v).harts = s.harts := rfl
@[simp] theorem setLink_caches (l : Fin 31) (v : Link) : (setLink s l v).caches = s.caches := rfl
@[simp] theorem setLink_sysc (l : Fin 31) (v : Link) : (setLink s l v).sysc = s.sysc := rfl
@[simp] theorem setLink_dram (l : Fin 31) (v : Link) : (setLink s l v).dram = s.dram := rfl
@[simp] theorem setLink_side (l : Fin 31) (v : Link) : (setLink s l v).side = s.side := rfl
@[simp] theorem setLink_coh (l : Fin 31) (v : Link) : (setLink s l v).coh = s.coh := rfl
@[simp] theorem setLink_chans (l : Fin 31) (v : Link) : (setLink s l v).chans = s.chans := rfl
@[simp] theorem setLink_stkTemp (l : Fin 31) (v : Link) : (setLink s l v).stkTemp = s.stkTemp := rfl
@[simp] theorem setLink_links_new (l : Fin 31) (v : Link) : (setLink s l v).links = mset {} s.links l.val v := rfl
@[simp] theorem setLink_ports (l : Fin 31) (v : Link) : (setLink s l v).ports = s.ports := rfl
@[simp] theorem setLink_routes (l : Fin 31) (v : Link) : (setLink s l v).routes = s.routes := rfl
@[simp] theorem setLink_catalogue (l : Fin 31) (v : Link) : (setLink s l v).catalogue = s.catalogue := rfl
@[simp] theorem setLink_flows (l : Fin 31) (v : Link) : (setLink s l v).flows = s.flows := rfl
@[simp] theorem setLink_flowDies (l : Fin 31) (v : Link) : (setLink s l v).flowDies = s.flowDies := rfl
@[simp] theorem setLink_ces (l : Fin 31) (v : Link) : (setLink s l v).ces = s.ces := rfl
@[simp] theorem setLink_job (l : Fin 31) (v : Link) : (setLink s l v).job = s.job := rfl
@[simp] theorem setLink_acc (l : Fin 31) (v : Link) : (setLink s l v).acc = s.acc := rfl
@[simp] theorem setLink_netOut (l : Fin 31) (v : Link) : (setLink s l v).netOut = s.netOut := rfl
@[simp] theorem setLink_netIn (l : Fin 31) (v : Link) : (setLink s l v).netIn = s.netIn := rfl
@[simp] theorem setLink_hostPort (l : Fin 31) (v : Link) : (setLink s l v).hostPort = s.hostPort := rfl
@[simp] theorem setLink_power (l : Fin 31) (v : Link) : (setLink s l v).power = s.power := rfl
@[simp] theorem setLink_mg (l : Fin 31) (v : Link) : (setLink s l v).mg = s.mg := rfl
@[simp] theorem setLink_pins (l : Fin 31) (v : Link) : (setLink s l v).pins = s.pins := rfl
@[simp] theorem setLink_freeCount (l : Fin 31) (v : Link) : (setLink s l v).freeCount = s.freeCount := rfl
@[simp] theorem setLink_resv (l : Fin 31) (v : Link) : (setLink s l v).resv = s.resv := rfl
@[simp] theorem setLink_resp (l : Fin 31) (v : Link) : (setLink s l v).resp = s.resp := rfl

/-! setResv. -/

@[simp] theorem setResv_pending (w : ResvBy) (l : Option ResvLine) : (setResv s w l).pending = s.pending := rfl
@[simp] theorem setResv_fuses (w : ResvBy) (l : Option ResvLine) : (setResv s w l).fuses = s.fuses := rfl
@[simp] theorem setResv_regs (w : ResvBy) (l : Option ResvLine) : (setResv s w l).regs = s.regs := rfl
@[simp] theorem setResv_heldReset (w : ResvBy) (l : Option ResvLine) : (setResv s w l).heldReset = s.heldReset := rfl
@[simp] theorem setResv_log (w : ResvBy) (l : Option ResvLine) : (setResv s w l).log = s.log := rfl
@[simp] theorem setResv_bays (w : ResvBy) (l : Option ResvLine) : (setResv s w l).bays = s.bays := rfl
@[simp] theorem setResv_harts (w : ResvBy) (l : Option ResvLine) : (setResv s w l).harts = s.harts := rfl
@[simp] theorem setResv_caches (w : ResvBy) (l : Option ResvLine) : (setResv s w l).caches = s.caches := rfl
@[simp] theorem setResv_sysc (w : ResvBy) (l : Option ResvLine) : (setResv s w l).sysc = s.sysc := rfl
@[simp] theorem setResv_dram (w : ResvBy) (l : Option ResvLine) : (setResv s w l).dram = s.dram := rfl
@[simp] theorem setResv_side (w : ResvBy) (l : Option ResvLine) : (setResv s w l).side = s.side := rfl
@[simp] theorem setResv_coh (w : ResvBy) (l : Option ResvLine) : (setResv s w l).coh = s.coh := rfl
@[simp] theorem setResv_chans (w : ResvBy) (l : Option ResvLine) : (setResv s w l).chans = s.chans := rfl
@[simp] theorem setResv_stkTemp (w : ResvBy) (l : Option ResvLine) : (setResv s w l).stkTemp = s.stkTemp := rfl
@[simp] theorem setResv_links (w : ResvBy) (l : Option ResvLine) : (setResv s w l).links = s.links := rfl
@[simp] theorem setResv_ports (w : ResvBy) (l : Option ResvLine) : (setResv s w l).ports = s.ports := rfl
@[simp] theorem setResv_routes (w : ResvBy) (l : Option ResvLine) : (setResv s w l).routes = s.routes := rfl
@[simp] theorem setResv_catalogue (w : ResvBy) (l : Option ResvLine) : (setResv s w l).catalogue = s.catalogue := rfl
@[simp] theorem setResv_flows (w : ResvBy) (l : Option ResvLine) : (setResv s w l).flows = s.flows := rfl
@[simp] theorem setResv_flowDies (w : ResvBy) (l : Option ResvLine) : (setResv s w l).flowDies = s.flowDies := rfl
@[simp] theorem setResv_ces (w : ResvBy) (l : Option ResvLine) : (setResv s w l).ces = s.ces := rfl
@[simp] theorem setResv_job (w : ResvBy) (l : Option ResvLine) : (setResv s w l).job = s.job := rfl
@[simp] theorem setResv_acc (w : ResvBy) (l : Option ResvLine) : (setResv s w l).acc = s.acc := rfl
@[simp] theorem setResv_netOut (w : ResvBy) (l : Option ResvLine) : (setResv s w l).netOut = s.netOut := rfl
@[simp] theorem setResv_netIn (w : ResvBy) (l : Option ResvLine) : (setResv s w l).netIn = s.netIn := rfl
@[simp] theorem setResv_hostPort (w : ResvBy) (l : Option ResvLine) : (setResv s w l).hostPort = s.hostPort := rfl
@[simp] theorem setResv_power (w : ResvBy) (l : Option ResvLine) : (setResv s w l).power = s.power := rfl
@[simp] theorem setResv_mg (w : ResvBy) (l : Option ResvLine) : (setResv s w l).mg = s.mg := rfl
@[simp] theorem setResv_pins (w : ResvBy) (l : Option ResvLine) : (setResv s w l).pins = s.pins := rfl
@[simp] theorem setResv_freeCount (w : ResvBy) (l : Option ResvLine) : (setResv s w l).freeCount = s.freeCount := rfl
@[simp] theorem setResv_resp (w : ResvBy) (l : Option ResvLine) : (setResv s w l).resp = s.resp := rfl

/-! loseLine. -/

@[simp] theorem loseLine_pending (l : ResvLine) : (loseLine s l).pending = s.pending := rfl
@[simp] theorem loseLine_fuses (l : ResvLine) : (loseLine s l).fuses = s.fuses := rfl
@[simp] theorem loseLine_regs (l : ResvLine) : (loseLine s l).regs = s.regs := rfl
@[simp] theorem loseLine_heldReset (l : ResvLine) : (loseLine s l).heldReset = s.heldReset := rfl
@[simp] theorem loseLine_log (l : ResvLine) : (loseLine s l).log = s.log := rfl
@[simp] theorem loseLine_bays (l : ResvLine) : (loseLine s l).bays = s.bays := rfl
@[simp] theorem loseLine_harts (l : ResvLine) : (loseLine s l).harts = s.harts := rfl
@[simp] theorem loseLine_caches (l : ResvLine) : (loseLine s l).caches = s.caches := rfl
@[simp] theorem loseLine_sysc (l : ResvLine) : (loseLine s l).sysc = s.sysc := rfl
@[simp] theorem loseLine_dram (l : ResvLine) : (loseLine s l).dram = s.dram := rfl
@[simp] theorem loseLine_side (l : ResvLine) : (loseLine s l).side = s.side := rfl
@[simp] theorem loseLine_coh (l : ResvLine) : (loseLine s l).coh = s.coh := rfl
@[simp] theorem loseLine_chans (l : ResvLine) : (loseLine s l).chans = s.chans := rfl
@[simp] theorem loseLine_stkTemp (l : ResvLine) : (loseLine s l).stkTemp = s.stkTemp := rfl
@[simp] theorem loseLine_links (l : ResvLine) : (loseLine s l).links = s.links := rfl
@[simp] theorem loseLine_ports (l : ResvLine) : (loseLine s l).ports = s.ports := rfl
@[simp] theorem loseLine_routes (l : ResvLine) : (loseLine s l).routes = s.routes := rfl
@[simp] theorem loseLine_catalogue (l : ResvLine) : (loseLine s l).catalogue = s.catalogue := rfl
@[simp] theorem loseLine_flows (l : ResvLine) : (loseLine s l).flows = s.flows := rfl
@[simp] theorem loseLine_flowDies (l : ResvLine) : (loseLine s l).flowDies = s.flowDies := rfl
@[simp] theorem loseLine_ces (l : ResvLine) : (loseLine s l).ces = s.ces := rfl
@[simp] theorem loseLine_job (l : ResvLine) : (loseLine s l).job = s.job := rfl
@[simp] theorem loseLine_acc (l : ResvLine) : (loseLine s l).acc = s.acc := rfl
@[simp] theorem loseLine_netOut (l : ResvLine) : (loseLine s l).netOut = s.netOut := rfl
@[simp] theorem loseLine_netIn (l : ResvLine) : (loseLine s l).netIn = s.netIn := rfl
@[simp] theorem loseLine_hostPort (l : ResvLine) : (loseLine s l).hostPort = s.hostPort := rfl
@[simp] theorem loseLine_power (l : ResvLine) : (loseLine s l).power = s.power := rfl
@[simp] theorem loseLine_mg (l : ResvLine) : (loseLine s l).mg = s.mg := rfl
@[simp] theorem loseLine_pins (l : ResvLine) : (loseLine s l).pins = s.pins := rfl
@[simp] theorem loseLine_freeCount (l : ResvLine) : (loseLine s l).freeCount = s.freeCount := rfl
@[simp] theorem loseLine_resp (l : ResvLine) : (loseLine s l).resp = s.resp := rfl

/-! setPort. -/

@[simp] theorem setPort_pending (p : Fin 32) (v : Port) : (setPort s p v).pending = s.pending := rfl
@[simp] theorem setPort_fuses (p : Fin 32) (v : Port) : (setPort s p v).fuses = s.fuses := rfl
@[simp] theorem setPort_regs (p : Fin 32) (v : Port) : (setPort s p v).regs = s.regs := rfl
@[simp] theorem setPort_heldReset (p : Fin 32) (v : Port) : (setPort s p v).heldReset = s.heldReset := rfl
@[simp] theorem setPort_log (p : Fin 32) (v : Port) : (setPort s p v).log = s.log := rfl
@[simp] theorem setPort_bays (p : Fin 32) (v : Port) : (setPort s p v).bays = s.bays := rfl
@[simp] theorem setPort_harts (p : Fin 32) (v : Port) : (setPort s p v).harts = s.harts := rfl
@[simp] theorem setPort_caches (p : Fin 32) (v : Port) : (setPort s p v).caches = s.caches := rfl
@[simp] theorem setPort_sysc (p : Fin 32) (v : Port) : (setPort s p v).sysc = s.sysc := rfl
@[simp] theorem setPort_dram (p : Fin 32) (v : Port) : (setPort s p v).dram = s.dram := rfl
@[simp] theorem setPort_side (p : Fin 32) (v : Port) : (setPort s p v).side = s.side := rfl
@[simp] theorem setPort_coh (p : Fin 32) (v : Port) : (setPort s p v).coh = s.coh := rfl
@[simp] theorem setPort_chans (p : Fin 32) (v : Port) : (setPort s p v).chans = s.chans := rfl
@[simp] theorem setPort_stkTemp (p : Fin 32) (v : Port) : (setPort s p v).stkTemp = s.stkTemp := rfl
@[simp] theorem setPort_links (p : Fin 32) (v : Port) : (setPort s p v).links = s.links := rfl
@[simp] theorem setPort_ports_new (p : Fin 32) (v : Port) : (setPort s p v).ports = mset {} s.ports p.val v := rfl
@[simp] theorem setPort_routes (p : Fin 32) (v : Port) : (setPort s p v).routes = s.routes := rfl
@[simp] theorem setPort_catalogue (p : Fin 32) (v : Port) : (setPort s p v).catalogue = s.catalogue := rfl
@[simp] theorem setPort_flows (p : Fin 32) (v : Port) : (setPort s p v).flows = s.flows := rfl
@[simp] theorem setPort_flowDies (p : Fin 32) (v : Port) : (setPort s p v).flowDies = s.flowDies := rfl
@[simp] theorem setPort_ces (p : Fin 32) (v : Port) : (setPort s p v).ces = s.ces := rfl
@[simp] theorem setPort_job (p : Fin 32) (v : Port) : (setPort s p v).job = s.job := rfl
@[simp] theorem setPort_acc (p : Fin 32) (v : Port) : (setPort s p v).acc = s.acc := rfl
@[simp] theorem setPort_netOut (p : Fin 32) (v : Port) : (setPort s p v).netOut = s.netOut := rfl
@[simp] theorem setPort_netIn (p : Fin 32) (v : Port) : (setPort s p v).netIn = s.netIn := rfl
@[simp] theorem setPort_hostPort (p : Fin 32) (v : Port) : (setPort s p v).hostPort = s.hostPort := rfl
@[simp] theorem setPort_power (p : Fin 32) (v : Port) : (setPort s p v).power = s.power := rfl
@[simp] theorem setPort_mg (p : Fin 32) (v : Port) : (setPort s p v).mg = s.mg := rfl
@[simp] theorem setPort_pins (p : Fin 32) (v : Port) : (setPort s p v).pins = s.pins := rfl
@[simp] theorem setPort_freeCount (p : Fin 32) (v : Port) : (setPort s p v).freeCount = s.freeCount := rfl
@[simp] theorem setPort_resv (p : Fin 32) (v : Port) : (setPort s p v).resv = s.resv := rfl
@[simp] theorem setPort_resp (p : Fin 32) (v : Port) : (setPort s p v).resp = s.resp := rfl

/-! netTake. -/

@[simp] theorem netTake_pending (k : Packet) : (netTake s k).pending = s.pending := rfl
@[simp] theorem netTake_fuses (k : Packet) : (netTake s k).fuses = s.fuses := rfl
@[simp] theorem netTake_regs (k : Packet) : (netTake s k).regs = s.regs := rfl
@[simp] theorem netTake_heldReset (k : Packet) : (netTake s k).heldReset = s.heldReset := rfl
@[simp] theorem netTake_log (k : Packet) : (netTake s k).log = s.log := rfl
@[simp] theorem netTake_bays (k : Packet) : (netTake s k).bays = s.bays := rfl
@[simp] theorem netTake_harts (k : Packet) : (netTake s k).harts = s.harts := rfl
@[simp] theorem netTake_caches (k : Packet) : (netTake s k).caches = s.caches := rfl
@[simp] theorem netTake_sysc (k : Packet) : (netTake s k).sysc = s.sysc := rfl
@[simp] theorem netTake_dram (k : Packet) : (netTake s k).dram = s.dram := rfl
@[simp] theorem netTake_side (k : Packet) : (netTake s k).side = s.side := rfl
@[simp] theorem netTake_coh (k : Packet) : (netTake s k).coh = s.coh := rfl
@[simp] theorem netTake_chans (k : Packet) : (netTake s k).chans = s.chans := rfl
@[simp] theorem netTake_stkTemp (k : Packet) : (netTake s k).stkTemp = s.stkTemp := rfl
@[simp] theorem netTake_links (k : Packet) : (netTake s k).links = s.links := rfl
@[simp] theorem netTake_ports (k : Packet) : (netTake s k).ports = s.ports := rfl
@[simp] theorem netTake_routes (k : Packet) : (netTake s k).routes = s.routes := rfl
@[simp] theorem netTake_catalogue (k : Packet) : (netTake s k).catalogue = s.catalogue := rfl
@[simp] theorem netTake_flows (k : Packet) : (netTake s k).flows = s.flows := rfl
@[simp] theorem netTake_flowDies (k : Packet) : (netTake s k).flowDies = s.flowDies := rfl
@[simp] theorem netTake_ces (k : Packet) : (netTake s k).ces = s.ces := rfl
@[simp] theorem netTake_job (k : Packet) : (netTake s k).job = s.job := rfl
@[simp] theorem netTake_acc (k : Packet) : (netTake s k).acc = s.acc := rfl
@[simp] theorem netTake_netOut (k : Packet) : (netTake s k).netOut = s.netOut := rfl
@[simp] theorem netTake_netIn_new (k : Packet) : (netTake s k).netIn = s.netIn.erase k := rfl
@[simp] theorem netTake_hostPort (k : Packet) : (netTake s k).hostPort = s.hostPort := rfl
@[simp] theorem netTake_power (k : Packet) : (netTake s k).power = s.power := rfl
@[simp] theorem netTake_mg (k : Packet) : (netTake s k).mg = s.mg := rfl
@[simp] theorem netTake_pins (k : Packet) : (netTake s k).pins = s.pins := rfl
@[simp] theorem netTake_freeCount (k : Packet) : (netTake s k).freeCount = s.freeCount := rfl
@[simp] theorem netTake_resv (k : Packet) : (netTake s k).resv = s.resv := rfl
@[simp] theorem netTake_resp (k : Packet) : (netTake s k).resp = s.resp := rfl

/-! netSend. -/

@[simp] theorem netSend_pending (f : Fin 2) (k : Packet) : (netSend s f k).pending = s.pending := rfl
@[simp] theorem netSend_fuses (f : Fin 2) (k : Packet) : (netSend s f k).fuses = s.fuses := rfl
@[simp] theorem netSend_regs (f : Fin 2) (k : Packet) : (netSend s f k).regs = s.regs := rfl
@[simp] theorem netSend_heldReset (f : Fin 2) (k : Packet) : (netSend s f k).heldReset = s.heldReset := rfl
@[simp] theorem netSend_log (f : Fin 2) (k : Packet) : (netSend s f k).log = s.log := rfl
@[simp] theorem netSend_bays (f : Fin 2) (k : Packet) : (netSend s f k).bays = s.bays := rfl
@[simp] theorem netSend_harts (f : Fin 2) (k : Packet) : (netSend s f k).harts = s.harts := rfl
@[simp] theorem netSend_caches (f : Fin 2) (k : Packet) : (netSend s f k).caches = s.caches := rfl
@[simp] theorem netSend_sysc (f : Fin 2) (k : Packet) : (netSend s f k).sysc = s.sysc := rfl
@[simp] theorem netSend_dram (f : Fin 2) (k : Packet) : (netSend s f k).dram = s.dram := rfl
@[simp] theorem netSend_side (f : Fin 2) (k : Packet) : (netSend s f k).side = s.side := rfl
@[simp] theorem netSend_coh (f : Fin 2) (k : Packet) : (netSend s f k).coh = s.coh := rfl
@[simp] theorem netSend_chans (f : Fin 2) (k : Packet) : (netSend s f k).chans = s.chans := rfl
@[simp] theorem netSend_stkTemp (f : Fin 2) (k : Packet) : (netSend s f k).stkTemp = s.stkTemp := rfl
@[simp] theorem netSend_links (f : Fin 2) (k : Packet) : (netSend s f k).links = s.links := rfl
@[simp] theorem netSend_ports (f : Fin 2) (k : Packet) : (netSend s f k).ports = s.ports := rfl
@[simp] theorem netSend_routes (f : Fin 2) (k : Packet) : (netSend s f k).routes = s.routes := rfl
@[simp] theorem netSend_catalogue (f : Fin 2) (k : Packet) : (netSend s f k).catalogue = s.catalogue := rfl
@[simp] theorem netSend_flows (f : Fin 2) (k : Packet) : (netSend s f k).flows = s.flows := rfl
@[simp] theorem netSend_flowDies (f : Fin 2) (k : Packet) : (netSend s f k).flowDies = s.flowDies := rfl
@[simp] theorem netSend_ces (f : Fin 2) (k : Packet) : (netSend s f k).ces = s.ces := rfl
@[simp] theorem netSend_job (f : Fin 2) (k : Packet) : (netSend s f k).job = s.job := rfl
@[simp] theorem netSend_acc (f : Fin 2) (k : Packet) : (netSend s f k).acc = s.acc := rfl
@[simp] theorem netSend_netOut_new (f : Fin 2) (k : Packet) : (netSend s f k).netOut = s.netOut ++ [(f, k)] := rfl
@[simp] theorem netSend_netIn (f : Fin 2) (k : Packet) : (netSend s f k).netIn = s.netIn := rfl
@[simp] theorem netSend_hostPort (f : Fin 2) (k : Packet) : (netSend s f k).hostPort = s.hostPort := rfl
@[simp] theorem netSend_power (f : Fin 2) (k : Packet) : (netSend s f k).power = s.power := rfl
@[simp] theorem netSend_mg (f : Fin 2) (k : Packet) : (netSend s f k).mg = s.mg := rfl
@[simp] theorem netSend_pins (f : Fin 2) (k : Packet) : (netSend s f k).pins = s.pins := rfl
@[simp] theorem netSend_freeCount (f : Fin 2) (k : Packet) : (netSend s f k).freeCount = s.freeCount := rfl
@[simp] theorem netSend_resv (f : Fin 2) (k : Packet) : (netSend s f k).resv = s.resv := rfl
@[simp] theorem netSend_resp (f : Fin 2) (k : Packet) : (netSend s f k).resp = s.resp := rfl

/-! setBay. -/

@[simp] theorem setBay_pending (b : BayId) (v : Bay) : (setBay s b v).pending = s.pending := rfl
@[simp] theorem setBay_fuses (b : BayId) (v : Bay) : (setBay s b v).fuses = s.fuses := rfl
@[simp] theorem setBay_regs (b : BayId) (v : Bay) : (setBay s b v).regs = s.regs := rfl
@[simp] theorem setBay_heldReset (b : BayId) (v : Bay) : (setBay s b v).heldReset = s.heldReset := rfl
@[simp] theorem setBay_log (b : BayId) (v : Bay) : (setBay s b v).log = s.log := rfl
@[simp] theorem setBay_bays_new (b : BayId) (v : Bay) : (setBay s b v).bays = mset {} s.bays b.val v := rfl
@[simp] theorem setBay_harts (b : BayId) (v : Bay) : (setBay s b v).harts = s.harts := rfl
@[simp] theorem setBay_caches (b : BayId) (v : Bay) : (setBay s b v).caches = s.caches := rfl
@[simp] theorem setBay_sysc (b : BayId) (v : Bay) : (setBay s b v).sysc = s.sysc := rfl
@[simp] theorem setBay_dram (b : BayId) (v : Bay) : (setBay s b v).dram = s.dram := rfl
@[simp] theorem setBay_side (b : BayId) (v : Bay) : (setBay s b v).side = s.side := rfl
@[simp] theorem setBay_coh (b : BayId) (v : Bay) : (setBay s b v).coh = s.coh := rfl
@[simp] theorem setBay_chans (b : BayId) (v : Bay) : (setBay s b v).chans = s.chans := rfl
@[simp] theorem setBay_stkTemp (b : BayId) (v : Bay) : (setBay s b v).stkTemp = s.stkTemp := rfl
@[simp] theorem setBay_links (b : BayId) (v : Bay) : (setBay s b v).links = s.links := rfl
@[simp] theorem setBay_ports (b : BayId) (v : Bay) : (setBay s b v).ports = s.ports := rfl
@[simp] theorem setBay_routes (b : BayId) (v : Bay) : (setBay s b v).routes = s.routes := rfl
@[simp] theorem setBay_catalogue (b : BayId) (v : Bay) : (setBay s b v).catalogue = s.catalogue := rfl
@[simp] theorem setBay_flows (b : BayId) (v : Bay) : (setBay s b v).flows = s.flows := rfl
@[simp] theorem setBay_flowDies (b : BayId) (v : Bay) : (setBay s b v).flowDies = s.flowDies := rfl
@[simp] theorem setBay_ces (b : BayId) (v : Bay) : (setBay s b v).ces = s.ces := rfl
@[simp] theorem setBay_job (b : BayId) (v : Bay) : (setBay s b v).job = s.job := rfl
@[simp] theorem setBay_acc (b : BayId) (v : Bay) : (setBay s b v).acc = s.acc := rfl
@[simp] theorem setBay_netOut (b : BayId) (v : Bay) : (setBay s b v).netOut = s.netOut := rfl
@[simp] theorem setBay_netIn (b : BayId) (v : Bay) : (setBay s b v).netIn = s.netIn := rfl
@[simp] theorem setBay_hostPort (b : BayId) (v : Bay) : (setBay s b v).hostPort = s.hostPort := rfl
@[simp] theorem setBay_power (b : BayId) (v : Bay) : (setBay s b v).power = s.power := rfl
@[simp] theorem setBay_mg (b : BayId) (v : Bay) : (setBay s b v).mg = s.mg := rfl
@[simp] theorem setBay_pins (b : BayId) (v : Bay) : (setBay s b v).pins = s.pins := rfl
@[simp] theorem setBay_freeCount (b : BayId) (v : Bay) : (setBay s b v).freeCount = s.freeCount := rfl
@[simp] theorem setBay_resv (b : BayId) (v : Bay) : (setBay s b v).resv = s.resv := rfl
@[simp] theorem setBay_resp (b : BayId) (v : Bay) : (setBay s b v).resp = s.resp := rfl

/-! modBay. -/

@[simp] theorem modBay_pending (b : BayId) (f : Bay → Bay) : (modBay s b f).pending = s.pending := rfl
@[simp] theorem modBay_fuses (b : BayId) (f : Bay → Bay) : (modBay s b f).fuses = s.fuses := rfl
@[simp] theorem modBay_regs (b : BayId) (f : Bay → Bay) : (modBay s b f).regs = s.regs := rfl
@[simp] theorem modBay_heldReset (b : BayId) (f : Bay → Bay) : (modBay s b f).heldReset = s.heldReset := rfl
@[simp] theorem modBay_log (b : BayId) (f : Bay → Bay) : (modBay s b f).log = s.log := rfl
@[simp] theorem modBay_bays_new (b : BayId) (f : Bay → Bay) : (modBay s b f).bays = mset {} s.bays b.val (f (bayOf s b)) := rfl
@[simp] theorem modBay_harts (b : BayId) (f : Bay → Bay) : (modBay s b f).harts = s.harts := rfl
@[simp] theorem modBay_caches (b : BayId) (f : Bay → Bay) : (modBay s b f).caches = s.caches := rfl
@[simp] theorem modBay_sysc (b : BayId) (f : Bay → Bay) : (modBay s b f).sysc = s.sysc := rfl
@[simp] theorem modBay_dram (b : BayId) (f : Bay → Bay) : (modBay s b f).dram = s.dram := rfl
@[simp] theorem modBay_side (b : BayId) (f : Bay → Bay) : (modBay s b f).side = s.side := rfl
@[simp] theorem modBay_coh (b : BayId) (f : Bay → Bay) : (modBay s b f).coh = s.coh := rfl
@[simp] theorem modBay_chans (b : BayId) (f : Bay → Bay) : (modBay s b f).chans = s.chans := rfl
@[simp] theorem modBay_stkTemp (b : BayId) (f : Bay → Bay) : (modBay s b f).stkTemp = s.stkTemp := rfl
@[simp] theorem modBay_links (b : BayId) (f : Bay → Bay) : (modBay s b f).links = s.links := rfl
@[simp] theorem modBay_ports (b : BayId) (f : Bay → Bay) : (modBay s b f).ports = s.ports := rfl
@[simp] theorem modBay_routes (b : BayId) (f : Bay → Bay) : (modBay s b f).routes = s.routes := rfl
@[simp] theorem modBay_catalogue (b : BayId) (f : Bay → Bay) : (modBay s b f).catalogue = s.catalogue := rfl
@[simp] theorem modBay_flows (b : BayId) (f : Bay → Bay) : (modBay s b f).flows = s.flows := rfl
@[simp] theorem modBay_flowDies (b : BayId) (f : Bay → Bay) : (modBay s b f).flowDies = s.flowDies := rfl
@[simp] theorem modBay_ces (b : BayId) (f : Bay → Bay) : (modBay s b f).ces = s.ces := rfl
@[simp] theorem modBay_job (b : BayId) (f : Bay → Bay) : (modBay s b f).job = s.job := rfl
@[simp] theorem modBay_acc (b : BayId) (f : Bay → Bay) : (modBay s b f).acc = s.acc := rfl
@[simp] theorem modBay_netOut (b : BayId) (f : Bay → Bay) : (modBay s b f).netOut = s.netOut := rfl
@[simp] theorem modBay_netIn (b : BayId) (f : Bay → Bay) : (modBay s b f).netIn = s.netIn := rfl
@[simp] theorem modBay_hostPort (b : BayId) (f : Bay → Bay) : (modBay s b f).hostPort = s.hostPort := rfl
@[simp] theorem modBay_power (b : BayId) (f : Bay → Bay) : (modBay s b f).power = s.power := rfl
@[simp] theorem modBay_mg (b : BayId) (f : Bay → Bay) : (modBay s b f).mg = s.mg := rfl
@[simp] theorem modBay_pins (b : BayId) (f : Bay → Bay) : (modBay s b f).pins = s.pins := rfl
@[simp] theorem modBay_freeCount (b : BayId) (f : Bay → Bay) : (modBay s b f).freeCount = s.freeCount := rfl
@[simp] theorem modBay_resv (b : BayId) (f : Bay → Bay) : (modBay s b f).resv = s.resv := rfl
@[simp] theorem modBay_resp (b : BayId) (f : Bay → Bay) : (modBay s b f).resp = s.resp := rfl

/-! setHart. -/

@[simp] theorem setHart_pending (n : CoreId) (v : Hart) : (setHart s n v).pending = s.pending := rfl
@[simp] theorem setHart_fuses (n : CoreId) (v : Hart) : (setHart s n v).fuses = s.fuses := rfl
@[simp] theorem setHart_regs (n : CoreId) (v : Hart) : (setHart s n v).regs = s.regs := rfl
@[simp] theorem setHart_heldReset (n : CoreId) (v : Hart) : (setHart s n v).heldReset = s.heldReset := rfl
@[simp] theorem setHart_log (n : CoreId) (v : Hart) : (setHart s n v).log = s.log := rfl
@[simp] theorem setHart_bays (n : CoreId) (v : Hart) : (setHart s n v).bays = s.bays := rfl
@[simp] theorem setHart_harts_new (n : CoreId) (v : Hart) : (setHart s n v).harts = mset {} s.harts n.val v := rfl
@[simp] theorem setHart_caches (n : CoreId) (v : Hart) : (setHart s n v).caches = s.caches := rfl
@[simp] theorem setHart_sysc (n : CoreId) (v : Hart) : (setHart s n v).sysc = s.sysc := rfl
@[simp] theorem setHart_dram (n : CoreId) (v : Hart) : (setHart s n v).dram = s.dram := rfl
@[simp] theorem setHart_side (n : CoreId) (v : Hart) : (setHart s n v).side = s.side := rfl
@[simp] theorem setHart_coh (n : CoreId) (v : Hart) : (setHart s n v).coh = s.coh := rfl
@[simp] theorem setHart_chans (n : CoreId) (v : Hart) : (setHart s n v).chans = s.chans := rfl
@[simp] theorem setHart_stkTemp (n : CoreId) (v : Hart) : (setHart s n v).stkTemp = s.stkTemp := rfl
@[simp] theorem setHart_links (n : CoreId) (v : Hart) : (setHart s n v).links = s.links := rfl
@[simp] theorem setHart_ports (n : CoreId) (v : Hart) : (setHart s n v).ports = s.ports := rfl
@[simp] theorem setHart_routes (n : CoreId) (v : Hart) : (setHart s n v).routes = s.routes := rfl
@[simp] theorem setHart_catalogue (n : CoreId) (v : Hart) : (setHart s n v).catalogue = s.catalogue := rfl
@[simp] theorem setHart_flows (n : CoreId) (v : Hart) : (setHart s n v).flows = s.flows := rfl
@[simp] theorem setHart_flowDies (n : CoreId) (v : Hart) : (setHart s n v).flowDies = s.flowDies := rfl
@[simp] theorem setHart_ces (n : CoreId) (v : Hart) : (setHart s n v).ces = s.ces := rfl
@[simp] theorem setHart_job (n : CoreId) (v : Hart) : (setHart s n v).job = s.job := rfl
@[simp] theorem setHart_acc (n : CoreId) (v : Hart) : (setHart s n v).acc = s.acc := rfl
@[simp] theorem setHart_netOut (n : CoreId) (v : Hart) : (setHart s n v).netOut = s.netOut := rfl
@[simp] theorem setHart_netIn (n : CoreId) (v : Hart) : (setHart s n v).netIn = s.netIn := rfl
@[simp] theorem setHart_hostPort (n : CoreId) (v : Hart) : (setHart s n v).hostPort = s.hostPort := rfl
@[simp] theorem setHart_power (n : CoreId) (v : Hart) : (setHart s n v).power = s.power := rfl
@[simp] theorem setHart_mg (n : CoreId) (v : Hart) : (setHart s n v).mg = s.mg := rfl
@[simp] theorem setHart_pins (n : CoreId) (v : Hart) : (setHart s n v).pins = s.pins := rfl
@[simp] theorem setHart_freeCount (n : CoreId) (v : Hart) : (setHart s n v).freeCount = s.freeCount := rfl
@[simp] theorem setHart_resv (n : CoreId) (v : Hart) : (setHart s n v).resv = s.resv := rfl
@[simp] theorem setHart_resp (n : CoreId) (v : Hart) : (setHart s n v).resp = s.resp := rfl

/-! setCache. -/

@[simp] theorem setCache_pending (c : CacheId) (v : Cache) : (setCache s c v).pending = s.pending := rfl
@[simp] theorem setCache_fuses (c : CacheId) (v : Cache) : (setCache s c v).fuses = s.fuses := rfl
@[simp] theorem setCache_regs (c : CacheId) (v : Cache) : (setCache s c v).regs = s.regs := rfl
@[simp] theorem setCache_heldReset (c : CacheId) (v : Cache) : (setCache s c v).heldReset = s.heldReset := rfl
@[simp] theorem setCache_log (c : CacheId) (v : Cache) : (setCache s c v).log = s.log := rfl
@[simp] theorem setCache_bays (c : CacheId) (v : Cache) : (setCache s c v).bays = s.bays := rfl
@[simp] theorem setCache_harts (c : CacheId) (v : Cache) : (setCache s c v).harts = s.harts := rfl
@[simp] theorem setCache_caches_new (c : CacheId) (v : Cache) : (setCache s c v).caches = mset {} s.caches c.key v := rfl
@[simp] theorem setCache_sysc (c : CacheId) (v : Cache) : (setCache s c v).sysc = s.sysc := rfl
@[simp] theorem setCache_dram (c : CacheId) (v : Cache) : (setCache s c v).dram = s.dram := rfl
@[simp] theorem setCache_side (c : CacheId) (v : Cache) : (setCache s c v).side = s.side := rfl
@[simp] theorem setCache_coh (c : CacheId) (v : Cache) : (setCache s c v).coh = s.coh := rfl
@[simp] theorem setCache_chans (c : CacheId) (v : Cache) : (setCache s c v).chans = s.chans := rfl
@[simp] theorem setCache_stkTemp (c : CacheId) (v : Cache) : (setCache s c v).stkTemp = s.stkTemp := rfl
@[simp] theorem setCache_links (c : CacheId) (v : Cache) : (setCache s c v).links = s.links := rfl
@[simp] theorem setCache_ports (c : CacheId) (v : Cache) : (setCache s c v).ports = s.ports := rfl
@[simp] theorem setCache_routes (c : CacheId) (v : Cache) : (setCache s c v).routes = s.routes := rfl
@[simp] theorem setCache_catalogue (c : CacheId) (v : Cache) : (setCache s c v).catalogue = s.catalogue := rfl
@[simp] theorem setCache_flows (c : CacheId) (v : Cache) : (setCache s c v).flows = s.flows := rfl
@[simp] theorem setCache_flowDies (c : CacheId) (v : Cache) : (setCache s c v).flowDies = s.flowDies := rfl
@[simp] theorem setCache_ces (c : CacheId) (v : Cache) : (setCache s c v).ces = s.ces := rfl
@[simp] theorem setCache_job (c : CacheId) (v : Cache) : (setCache s c v).job = s.job := rfl
@[simp] theorem setCache_acc (c : CacheId) (v : Cache) : (setCache s c v).acc = s.acc := rfl
@[simp] theorem setCache_netOut (c : CacheId) (v : Cache) : (setCache s c v).netOut = s.netOut := rfl
@[simp] theorem setCache_netIn (c : CacheId) (v : Cache) : (setCache s c v).netIn = s.netIn := rfl
@[simp] theorem setCache_hostPort (c : CacheId) (v : Cache) : (setCache s c v).hostPort = s.hostPort := rfl
@[simp] theorem setCache_power (c : CacheId) (v : Cache) : (setCache s c v).power = s.power := rfl
@[simp] theorem setCache_mg (c : CacheId) (v : Cache) : (setCache s c v).mg = s.mg := rfl
@[simp] theorem setCache_pins (c : CacheId) (v : Cache) : (setCache s c v).pins = s.pins := rfl
@[simp] theorem setCache_freeCount (c : CacheId) (v : Cache) : (setCache s c v).freeCount = s.freeCount := rfl
@[simp] theorem setCache_resv (c : CacheId) (v : Cache) : (setCache s c v).resv = s.resv := rfl
@[simp] theorem setCache_resp (c : CacheId) (v : Cache) : (setCache s c v).resp = s.resp := rfl

/-! setFlw. -/

@[simp] theorem setFlw_pending (i : Nat) (v : FlowState) : (setFlw s i v).pending = s.pending := rfl
@[simp] theorem setFlw_fuses (i : Nat) (v : FlowState) : (setFlw s i v).fuses = s.fuses := rfl
@[simp] theorem setFlw_regs (i : Nat) (v : FlowState) : (setFlw s i v).regs = s.regs := rfl
@[simp] theorem setFlw_heldReset (i : Nat) (v : FlowState) : (setFlw s i v).heldReset = s.heldReset := rfl
@[simp] theorem setFlw_log (i : Nat) (v : FlowState) : (setFlw s i v).log = s.log := rfl
@[simp] theorem setFlw_bays (i : Nat) (v : FlowState) : (setFlw s i v).bays = s.bays := rfl
@[simp] theorem setFlw_harts (i : Nat) (v : FlowState) : (setFlw s i v).harts = s.harts := rfl
@[simp] theorem setFlw_caches (i : Nat) (v : FlowState) : (setFlw s i v).caches = s.caches := rfl
@[simp] theorem setFlw_sysc (i : Nat) (v : FlowState) : (setFlw s i v).sysc = s.sysc := rfl
@[simp] theorem setFlw_dram (i : Nat) (v : FlowState) : (setFlw s i v).dram = s.dram := rfl
@[simp] theorem setFlw_side (i : Nat) (v : FlowState) : (setFlw s i v).side = s.side := rfl
@[simp] theorem setFlw_coh (i : Nat) (v : FlowState) : (setFlw s i v).coh = s.coh := rfl
@[simp] theorem setFlw_chans (i : Nat) (v : FlowState) : (setFlw s i v).chans = s.chans := rfl
@[simp] theorem setFlw_stkTemp (i : Nat) (v : FlowState) : (setFlw s i v).stkTemp = s.stkTemp := rfl
@[simp] theorem setFlw_links (i : Nat) (v : FlowState) : (setFlw s i v).links = s.links := rfl
@[simp] theorem setFlw_ports (i : Nat) (v : FlowState) : (setFlw s i v).ports = s.ports := rfl
@[simp] theorem setFlw_routes (i : Nat) (v : FlowState) : (setFlw s i v).routes = s.routes := rfl
@[simp] theorem setFlw_catalogue (i : Nat) (v : FlowState) : (setFlw s i v).catalogue = s.catalogue := rfl
@[simp] theorem setFlw_flows_new (i : Nat) (v : FlowState) : (setFlw s i v).flows = mset {} s.flows i v := rfl
@[simp] theorem setFlw_flowDies (i : Nat) (v : FlowState) : (setFlw s i v).flowDies = s.flowDies := rfl
@[simp] theorem setFlw_ces (i : Nat) (v : FlowState) : (setFlw s i v).ces = s.ces := rfl
@[simp] theorem setFlw_job (i : Nat) (v : FlowState) : (setFlw s i v).job = s.job := rfl
@[simp] theorem setFlw_acc (i : Nat) (v : FlowState) : (setFlw s i v).acc = s.acc := rfl
@[simp] theorem setFlw_netOut (i : Nat) (v : FlowState) : (setFlw s i v).netOut = s.netOut := rfl
@[simp] theorem setFlw_netIn (i : Nat) (v : FlowState) : (setFlw s i v).netIn = s.netIn := rfl
@[simp] theorem setFlw_hostPort (i : Nat) (v : FlowState) : (setFlw s i v).hostPort = s.hostPort := rfl
@[simp] theorem setFlw_power (i : Nat) (v : FlowState) : (setFlw s i v).power = s.power := rfl
@[simp] theorem setFlw_mg (i : Nat) (v : FlowState) : (setFlw s i v).mg = s.mg := rfl
@[simp] theorem setFlw_pins (i : Nat) (v : FlowState) : (setFlw s i v).pins = s.pins := rfl
@[simp] theorem setFlw_freeCount (i : Nat) (v : FlowState) : (setFlw s i v).freeCount = s.freeCount := rfl
@[simp] theorem setFlw_resv (i : Nat) (v : FlowState) : (setFlw s i v).resv = s.resv := rfl
@[simp] theorem setFlw_resp (i : Nat) (v : FlowState) : (setFlw s i v).resp = s.resp := rfl

/-! setAcc. -/

@[simp] theorem setAcc_pending (f : Acc → Acc) : (setAcc s f).pending = s.pending := rfl
@[simp] theorem setAcc_fuses (f : Acc → Acc) : (setAcc s f).fuses = s.fuses := rfl
@[simp] theorem setAcc_regs (f : Acc → Acc) : (setAcc s f).regs = s.regs := rfl
@[simp] theorem setAcc_heldReset (f : Acc → Acc) : (setAcc s f).heldReset = s.heldReset := rfl
@[simp] theorem setAcc_log (f : Acc → Acc) : (setAcc s f).log = s.log := rfl
@[simp] theorem setAcc_bays (f : Acc → Acc) : (setAcc s f).bays = s.bays := rfl
@[simp] theorem setAcc_harts (f : Acc → Acc) : (setAcc s f).harts = s.harts := rfl
@[simp] theorem setAcc_caches (f : Acc → Acc) : (setAcc s f).caches = s.caches := rfl
@[simp] theorem setAcc_sysc (f : Acc → Acc) : (setAcc s f).sysc = s.sysc := rfl
@[simp] theorem setAcc_dram (f : Acc → Acc) : (setAcc s f).dram = s.dram := rfl
@[simp] theorem setAcc_side (f : Acc → Acc) : (setAcc s f).side = s.side := rfl
@[simp] theorem setAcc_coh (f : Acc → Acc) : (setAcc s f).coh = s.coh := rfl
@[simp] theorem setAcc_chans (f : Acc → Acc) : (setAcc s f).chans = s.chans := rfl
@[simp] theorem setAcc_stkTemp (f : Acc → Acc) : (setAcc s f).stkTemp = s.stkTemp := rfl
@[simp] theorem setAcc_links (f : Acc → Acc) : (setAcc s f).links = s.links := rfl
@[simp] theorem setAcc_ports (f : Acc → Acc) : (setAcc s f).ports = s.ports := rfl
@[simp] theorem setAcc_routes (f : Acc → Acc) : (setAcc s f).routes = s.routes := rfl
@[simp] theorem setAcc_catalogue (f : Acc → Acc) : (setAcc s f).catalogue = s.catalogue := rfl
@[simp] theorem setAcc_flows (f : Acc → Acc) : (setAcc s f).flows = s.flows := rfl
@[simp] theorem setAcc_flowDies (f : Acc → Acc) : (setAcc s f).flowDies = s.flowDies := rfl
@[simp] theorem setAcc_ces (f : Acc → Acc) : (setAcc s f).ces = s.ces := rfl
@[simp] theorem setAcc_job (f : Acc → Acc) : (setAcc s f).job = s.job := rfl
@[simp] theorem setAcc_acc_new (f : Acc → Acc) : (setAcc s f).acc = f s.acc := rfl
@[simp] theorem setAcc_netOut (f : Acc → Acc) : (setAcc s f).netOut = s.netOut := rfl
@[simp] theorem setAcc_netIn (f : Acc → Acc) : (setAcc s f).netIn = s.netIn := rfl
@[simp] theorem setAcc_hostPort (f : Acc → Acc) : (setAcc s f).hostPort = s.hostPort := rfl
@[simp] theorem setAcc_power (f : Acc → Acc) : (setAcc s f).power = s.power := rfl
@[simp] theorem setAcc_mg (f : Acc → Acc) : (setAcc s f).mg = s.mg := rfl
@[simp] theorem setAcc_pins (f : Acc → Acc) : (setAcc s f).pins = s.pins := rfl
@[simp] theorem setAcc_freeCount (f : Acc → Acc) : (setAcc s f).freeCount = s.freeCount := rfl
@[simp] theorem setAcc_resv (f : Acc → Acc) : (setAcc s f).resv = s.resv := rfl
@[simp] theorem setAcc_resp (f : Acc → Acc) : (setAcc s f).resp = s.resp := rfl

/-! dropHeld. -/

@[simp] theorem dropHeld_pending (p : Page) : (dropHeld s p).pending = s.pending := rfl
@[simp] theorem dropHeld_fuses (p : Page) : (dropHeld s p).fuses = s.fuses := rfl
@[simp] theorem dropHeld_regs (p : Page) : (dropHeld s p).regs = s.regs := rfl
@[simp] theorem dropHeld_log (p : Page) : (dropHeld s p).log = s.log := rfl
@[simp] theorem dropHeld_bays (p : Page) : (dropHeld s p).bays = s.bays := rfl
@[simp] theorem dropHeld_harts (p : Page) : (dropHeld s p).harts = s.harts := rfl
@[simp] theorem dropHeld_caches (p : Page) : (dropHeld s p).caches = s.caches := rfl
@[simp] theorem dropHeld_sysc (p : Page) : (dropHeld s p).sysc = s.sysc := rfl
@[simp] theorem dropHeld_dram (p : Page) : (dropHeld s p).dram = s.dram := rfl
@[simp] theorem dropHeld_side (p : Page) : (dropHeld s p).side = s.side := rfl
@[simp] theorem dropHeld_coh (p : Page) : (dropHeld s p).coh = s.coh := rfl
@[simp] theorem dropHeld_chans (p : Page) : (dropHeld s p).chans = s.chans := rfl
@[simp] theorem dropHeld_stkTemp (p : Page) : (dropHeld s p).stkTemp = s.stkTemp := rfl
@[simp] theorem dropHeld_links (p : Page) : (dropHeld s p).links = s.links := rfl
@[simp] theorem dropHeld_ports (p : Page) : (dropHeld s p).ports = s.ports := rfl
@[simp] theorem dropHeld_routes (p : Page) : (dropHeld s p).routes = s.routes := rfl
@[simp] theorem dropHeld_catalogue (p : Page) : (dropHeld s p).catalogue = s.catalogue := rfl
@[simp] theorem dropHeld_flows (p : Page) : (dropHeld s p).flows = s.flows := rfl
@[simp] theorem dropHeld_flowDies (p : Page) : (dropHeld s p).flowDies = s.flowDies := rfl
@[simp] theorem dropHeld_ces (p : Page) : (dropHeld s p).ces = s.ces := rfl
@[simp] theorem dropHeld_job (p : Page) : (dropHeld s p).job = s.job := rfl
@[simp] theorem dropHeld_acc (p : Page) : (dropHeld s p).acc = s.acc := rfl
@[simp] theorem dropHeld_netOut (p : Page) : (dropHeld s p).netOut = s.netOut := rfl
@[simp] theorem dropHeld_netIn (p : Page) : (dropHeld s p).netIn = s.netIn := rfl
@[simp] theorem dropHeld_hostPort (p : Page) : (dropHeld s p).hostPort = s.hostPort := rfl
@[simp] theorem dropHeld_power (p : Page) : (dropHeld s p).power = s.power := rfl
@[simp] theorem dropHeld_mg (p : Page) : (dropHeld s p).mg = s.mg := rfl
@[simp] theorem dropHeld_pins (p : Page) : (dropHeld s p).pins = s.pins := rfl
@[simp] theorem dropHeld_freeCount (p : Page) : (dropHeld s p).freeCount = s.freeCount := rfl
@[simp] theorem dropHeld_resv (p : Page) : (dropHeld s p).resv = s.resv := rfl
@[simp] theorem dropHeld_resp (p : Page) : (dropHeld s p).resp = s.resp := rfl

/-! reply. -/

@[simp] theorem reply_pending (c : Nat) (d : List Byte) : (reply s c d).pending = s.pending := rfl
@[simp] theorem reply_fuses (c : Nat) (d : List Byte) : (reply s c d).fuses = s.fuses := rfl
@[simp] theorem reply_regs (c : Nat) (d : List Byte) : (reply s c d).regs = s.regs := rfl
@[simp] theorem reply_heldReset (c : Nat) (d : List Byte) : (reply s c d).heldReset = s.heldReset := rfl
@[simp] theorem reply_log (c : Nat) (d : List Byte) : (reply s c d).log = s.log := rfl
@[simp] theorem reply_bays (c : Nat) (d : List Byte) : (reply s c d).bays = s.bays := rfl
@[simp] theorem reply_harts (c : Nat) (d : List Byte) : (reply s c d).harts = s.harts := rfl
@[simp] theorem reply_caches (c : Nat) (d : List Byte) : (reply s c d).caches = s.caches := rfl
@[simp] theorem reply_sysc (c : Nat) (d : List Byte) : (reply s c d).sysc = s.sysc := rfl
@[simp] theorem reply_dram (c : Nat) (d : List Byte) : (reply s c d).dram = s.dram := rfl
@[simp] theorem reply_side (c : Nat) (d : List Byte) : (reply s c d).side = s.side := rfl
@[simp] theorem reply_coh (c : Nat) (d : List Byte) : (reply s c d).coh = s.coh := rfl
@[simp] theorem reply_chans (c : Nat) (d : List Byte) : (reply s c d).chans = s.chans := rfl
@[simp] theorem reply_stkTemp (c : Nat) (d : List Byte) : (reply s c d).stkTemp = s.stkTemp := rfl
@[simp] theorem reply_links (c : Nat) (d : List Byte) : (reply s c d).links = s.links := rfl
@[simp] theorem reply_ports (c : Nat) (d : List Byte) : (reply s c d).ports = s.ports := rfl
@[simp] theorem reply_routes (c : Nat) (d : List Byte) : (reply s c d).routes = s.routes := rfl
@[simp] theorem reply_catalogue (c : Nat) (d : List Byte) : (reply s c d).catalogue = s.catalogue := rfl
@[simp] theorem reply_flows (c : Nat) (d : List Byte) : (reply s c d).flows = s.flows := rfl
@[simp] theorem reply_flowDies (c : Nat) (d : List Byte) : (reply s c d).flowDies = s.flowDies := rfl
@[simp] theorem reply_ces (c : Nat) (d : List Byte) : (reply s c d).ces = s.ces := rfl
@[simp] theorem reply_job (c : Nat) (d : List Byte) : (reply s c d).job = s.job := rfl
@[simp] theorem reply_acc (c : Nat) (d : List Byte) : (reply s c d).acc = s.acc := rfl
@[simp] theorem reply_netOut (c : Nat) (d : List Byte) : (reply s c d).netOut = s.netOut := rfl
@[simp] theorem reply_netIn (c : Nat) (d : List Byte) : (reply s c d).netIn = s.netIn := rfl
@[simp] theorem reply_hostPort (c : Nat) (d : List Byte) : (reply s c d).hostPort = s.hostPort := rfl
@[simp] theorem reply_power (c : Nat) (d : List Byte) : (reply s c d).power = s.power := rfl
@[simp] theorem reply_mg (c : Nat) (d : List Byte) : (reply s c d).mg = s.mg := rfl
@[simp] theorem reply_pins (c : Nat) (d : List Byte) : (reply s c d).pins = s.pins := rfl
@[simp] theorem reply_freeCount (c : Nat) (d : List Byte) : (reply s c d).freeCount = s.freeCount := rfl
@[simp] theorem reply_resv (c : Nat) (d : List Byte) : (reply s c d).resv = s.resv := rfl
@[simp] theorem reply_resp_new (c : Nat) (d : List Byte) : (reply s c d).resp = BitVec.ofNat 8 c :: d := rfl

end Sys2Proof.Machine
end

