-- ==== Sys2Proof/Tests/Slice0.lean ====
section
/-! SUPPORT. Tests of the model: ill-formed commands, the spec's worked examples, and for every statement with hypotheses states and operands that
meet them, clause by clause. -/

open Sys2Proof Sys2Proof.Machine

set_option maxRecDepth 100000
set_option Elab.async false

namespace Sys2Proof.Tests

/-! One ill-formed command for each check of `WellFormed`. -/

theorem test_illformed_register_write : WellFormed (.registerWrite .hubFirmware 0 0 0) = false := by decide
theorem test_illformed_dcs_access : WellFormed (.dcsAccess .hubFirmware 0 65 none) = false := by decide
theorem test_illformed_af_push : WellFormed (.afPush 0 0 2 0) = false := by decide
theorem test_illformed_catalogue_write : WellFormed (.catalogueWrite 0 16 0) = false := by decide
theorem test_illformed_mov_payload :
    WellFormed (.movInline 0 0 { asel := 0, di := 0, space := false, addr := 0, payload := List.replicate 257 0 } 0 0) = false := by decide +kernel
theorem test_illformed_mov_desc_payload :
    WellFormed (.movDesc 0 0 { asel := 0, di := 0, space := false, addr := 0, payload := List.replicate 257 0 } 0 0 .none) = false := by decide +kernel
theorem test_illformed_gather_row : WellFormed (.gatherRowArrival 0 0 (2 ^ 24) .ok .none 0) = false := by decide
theorem test_illformed_way_power_down : WellFormed (.wayPowerDown (.bcache 0) 16) = false := by decide
theorem test_illformed_way_power_up : WellFormed (.wayPowerUp (.sysc 0) 23) = false := by decide
theorem test_illformed_way_off : WellFormed (.wayOff (.sysc 0) 16) = false := by decide
theorem test_illformed_way_on : WellFormed (.wayOn (.bcache 47) 20) = false := by decide
theorem test_illformed_atomic_size : WellFormed (.atomicRequest 0 0 0 { aop := 0, size := 2, off := 0, operand := 0, compare := 0 }) = false := by decide
theorem test_illformed_atomic_alignment :
    WellFormed (.atomicRequest 0 0 0 { aop := 0, size := 8, off := 4, operand := 0, compare := 0 }) = false := by decide
theorem test_illformed_atomic_line : WellFormed (.atomicRequest 0 0 0 { aop := 0, size := 8, off := 64, operand := 0, compare := 0 }) = false := by decide
theorem test_illformed_block_write : WellFormed (.blockWrite 0 0 { data := [0], crc := none, tag := 0, poison := false }) = false := by decide
theorem test_illformed_partial_write : WellFormed (.readModifyWrite 0 0 0 [] false .ok) = false := by decide
theorem test_illformed_stack_sample : WellFormed (.stackTempSample 0 []) = false := by decide
theorem test_illformed_die_flit :
    WellFormed (.flitReceive 0 false { seq := 0, kind := 0, channel := 0, lane := false, nak := false, ack := 0, payload := List.replicate 1017 0 } true)
      = false := by decide +kernel
theorem test_illformed_training_ab : WellFormed (.linkTrain 0 { capA := none, capB := none, badAB := [4160], badBA := [] }) = false := by decide
theorem test_illformed_training_ba : WellFormed (.linkTrain 0 { capA := none, capB := none, badAB := [], badBA := [4160] }) = false := by decide
theorem test_illformed_check_flit : WellFormed (.checkFlit 0 false [1, 5000]) = false := by decide
theorem test_illformed_wire_test : WellFormed (.wireTest 0 false [4160]) = false := by decide
theorem test_illformed_wire_spare : WellFormed (.wireSpare 0 false 4160) = false := by decide
theorem test_illformed_identity_frame : WellFormed (.identityFrame 0 [0xD9, 0, 0, 0]) = false := by decide
theorem test_illformed_fabric_credit :
    WellFormed (.fabricFlit 0 { seq := 0, kind := 0, ack := 0, nak := false, vc := 0, credit := [1, 1, 1, 1, 1], body := .empty } .clean false true) = false := by
  decide
theorem test_illformed_fabric_packet :
    WellFormed (.fabricFlit 0 { seq := 0, kind := 0, ack := 0, nak := false, vc := 0, credit := [], body := .packet (mkPkt 1 0 0 (List.replicate 257 0)) } .clean false true)
      = false := by decide +kernel
theorem test_illformed_fec_window : WellFormed (.fecWindow 0 [0] 0) = false := by decide
theorem test_illformed_packet : WellFormed (.writePacket (mkPkt 1 0 0 (List.replicate 257 0))) = false := by decide +kernel
theorem test_illformed_datagram : WellFormed (.verdict { src := 0, jobId := 0, jobEpoch := 0, payload := List.replicate 249 0 }) = false := by
  decide +kernel
theorem test_illformed_cap_period : WellFormed (.capPeriod 0 []) = false := by decide
theorem test_illformed_rate_window : WellFormed (.rateWindow 0 0 0 0 []) = false := by decide
theorem test_illformed_update_data : WellFormed (.updateData .i3c 0 (List.replicate 1025 0)) = false := by decide +kernel
theorem test_illformed_config_write : WellFormed (.configWrite .i3c 0 (List.replicate 1025 0) true) = false := by decide +kernel
theorem test_illformed_dma_completion : WellFormed (.dmaReadCompletion 0 (.data (List.replicate 4097 0) false)) = false := by decide +kernel

/-! Worked examples of the spec. -/

/-- The page of mover 2 in bay 5 lies at 0x115_6000 (02_control_pages.md). -/
theorem test_slot_of_mover : 4096 * (Page.mov 5 2).slot = 0x1156000 := by decide
/-- DC.PUSH x10, x11, x12 encodes as 0x00C5_850B (06_long_word_streams.md). -/
theorem test_dc_push_word : encDc 0 10 11 12 = 0x00C5850B := by decide
/-- TG.MTX x10, x11 encodes as 0x00B5_702B (07_thread_groups.md). -/
theorem test_tg_mtx_word : encXtg 7 0 0 10 11 = 0x00B5702B := by decide
/-- The frame D9 A5 4E 31 F9 is valid (13_fabric_ports.md). -/
theorem test_identity_frame : frameOk [0xD9, 0xA5, 0x4E, 0x31, 0xF9] = true := by decide +kernel
/-- Port 17 of a module with enclosure 314 and SLOT 37 sends it (13_fabric_ports.md). -/
theorem test_identity_frame_sent : identityFrame (wr (wr State.reset (.router 0) rtrIdentEnclosure 314) (.router 0) rtrIdentSlot 37) 17 =
    [0xD9, 0xA5, 0x4E, 0x31, 0xF9] := by decide +kernel
/-- In far mode, address 0x1_2345_6700 lies on stack 6 at 0x1234_5700 (11_stacked_memory.md). -/
theorem test_far_mode_address :
    stackOf (wr (wr State.reset (.mchan 0 0) mchMemmapMode 1) (.mchan 0 0) mchMemmapNMin 31) 0x123456700 = some (6, 0x12345700) := by decide +kernel
/-- `i` sixteenths. -/
def sixteenths (i : Int) : Val := .fin (decide (i < 0)) i.natAbs (-4)
/-- The E2M1 example in two-level form (03_number_formats.md): its block is 7B 00 00 00, 78 3B 01 50, and so on; one element is flushed. -/
theorem test_quantise_e2m1 :
    (let r := quantise { fmt := { el := .e2m1, form := .two } } ([1536, -768, 384, 192, 96, -48, 0, 960, 8, -4, 2, 6, -8, 1, 4, -2, 0, 0, 0, 0, 0, 0, 0, 0,
        32, -16, 0, 24, -40, 12, 48, -8].map sixteenths) 0
     (r.1, r.2.countP (·.2))) =
    ([0x7B, 0, 0, 0, 0x78, 0x3B, 0x01, 0x50, 0xD7, 0x23, 0x81, 0x60, 0xD7, 0x63, 0x1F, 0xB5, 0, 0, 0, 0, 0xC6, 0x50, 0x3E, 0xA7], 1) := by
  decide +kernel
/-- The RNE ties of the Q3 example: 2.5 rounds to 2 and 1.5 to 2. -/
theorem test_rne_ties : roundQ .rne false 5 2 = 2 ∧ roundQ .rne false 3 2 = 2 ∧ roundQ .rne true 1 2 = 0 := by decide
/-- The Q3 example in single-scale form with one escape (03_number_formats.md), from its FP32 values: two elements are flushed. -/
theorem test_quantise_q3 :
    (let r := quantise { fmt := { el := .q3, form := .single }, nesc := 1 } ((
        [0x3F000000, 0xBE800000, 0x3F400000, 0x3DCCCCCD, 0xBF19999A, 0x42200000, 0x3E99999A, 0xBE000000, 0x3E800000, 0x3E800000, 0xBF000000, 0x3F000000, 0, 0, 0x3F333333, 0xBF333333, 
        0xBF400000, 0x3EC00000, 0x3F200000, 0, 0, 0, 0, 
        0x3E4CCCCD, 0, 0, 0, 0, 0, 0, 0, 0] : List Nat).map (decF f32)) 0
     (r.1, r.2.countP (·.1), r.2.countP (·.2))) =
    ([0x7D, 0x01, 0, 0, 0xFA, 0x60, 0x06, 0x89, 0x05, 0xAC, 0x95, 0, 0x20, 0, 0, 0, 0x20, 0x42, 0x05, 0, 0, 0, 0, 0], 0, 2) := by
  decide +kernel

/-! Witnesses without a state of their own. -/

/-- EveryCommandCompletes: its hypothesis holds of every command but VIN_CHANGE, and of VIN_CHANGE at 60.0 V. -/
theorem witness_EveryCommandCompletes :
    (∀ mv, Instr.pbrake = .vinChange mv → mv.toNat ≤ 60000) ∧ (∀ mv, Instr.vinChange 60000 = .vinChange mv → mv.toNat ≤ 60000) :=
  ⟨fun _ h => (nomatch h), fun mv h => by cases h; decide⟩

/-- OnlyTheirCommandsChange: CAP_WRITE answers a next state and is none of the commands named. -/
theorem witness_OnlyTheirCommandsChange_inner :
    (∃ t, exec (.capWrite 2000) State.reset = .next t) ∧ mayWriteDram (.capWrite 2000) = false ∧ resetsOrDispatches (.capWrite 2000) = false ∧
      trainsLinks (.capWrite 2000) = false ∧ writesRoutes (.capWrite 2000) = false ∧ writesCatalogue (.capWrite 2000) = false ∧
      movesPins (.capWrite 2000) = false ∧ samplesStacks (.capWrite 2000) = false :=
  ⟨⟨_, rfl⟩, rfl, rfl, rfl, rfl, rfl, rfl, rfl⟩

/-! The small states of the witnesses. -/

/-- The reset state with some register fields written. -/
def stl (l : List (Page × Row × Nat)) : State := l.foldl (fun s x => wr s x.1 x.2.1 x.2.2) State.reset

/-- The reset state with a page in a state. -/
def inSt (p : Page) (k : Nat) : State := stl [(p, hdrState, k)]

/-- One channel of memory in service, and the coherent domain up. -/
def memL : List (Page × Row × Nat) :=
  [(.mchan 0 0, mchMemmapNStack, 1), (.mchan 0 0, mchMemmapNMin, 1), (.mchan 0 0, mchSpaceSize, chanBytes), (.mchan 0 0, mchLocInService, 1),
   (.mchan 0 0, hdrState, 4), (.hub, hubDomainUp, 1)]

/-- That state, with some register fields written. -/
def stm (l : List (Page × Row × Nat)) : State := stl (memL ++ l)

/-- Bytes of a record with some fields (offset, length, value) set. -/
def mk (n : Nat) (l : List (Nat × Nat × Nat)) : List Byte := l.foldl (fun d x => splice d x.1 (toLE x.2.1 x.2.2)) (List.replicate n 0)

/-- A state whose bay `b` is `y`. -/
def stb (b : BayId) (y : Bay) (s : State) : State := { s with bays := [(b.val, y)] }

/-- After a completed start, with the host link up. -/
def std (l : List (Page × Row × Nat)) : State :=
  { stl l with mg := { startDone := true }, hostPort := { link := some (8, 2) } }

/-- A queue whose ring holds one word. -/
def ringS : State :=
  { stb 0 { tlb := [{ vpn := 1, size := 12, asid := 0, pte := 0xD7, ppn := 1 }] } (stm [(.issue 0, hdrState, 4), (.issue 0, issQQcfg 3, 1),
      (.issue 0, issQRingBase 3, 0x1000), (.issue 0, issQRingSize 3, 8), (.issue 0, issQCons 3, 5), (.issue 0, issQProd 3, 8),
      (.xlate 0, hdrState, 4), (.bcache 0, hdrState, 4)]) with dram := putBytes [] 0x1014 (toLE 4 0xA03020) }
/-- After the header is read. -/
def ringS1 : State := (ringWords 0 0x1000 8 .ok 1 5 [] ringS).2
/-- After the word is read. -/
def ringS2 : State := (ringWords 0 0x1000 8 .ok 3 5 [] ringS1).2

/-- A bay whose group 63 runs threads 0 and 31 in block 7, each with `x5 = v` and `x6 = v'`. -/
def grp (v v' : BitVec 64) (mask : BitVec 32) (hold : Hold) : Group :=
  { block := 7, num := 3, paths := [{ pc := 0x1000, mask := mask, hold := hold }], threads := List.replicate 32 { x := [(5, v), (6, v')] }, keep := true }
/-- Its path. -/
def pth (mask : BitVec 32) (hold : Hold) : Path := { pc := 0x1000, mask := mask, hold := hold }
/-- Its launch and block. -/
def lch : Launch := { id := 5, desc := 0, bytes := mk 64 [(0, 8, 0x1000), (8, 4, 128), (20, 4, 4096), (24, 8, 0x40000000)], q := .queue 1, sig := 0 }
/-- The block. -/
def blk7 : Block := { launch := lch, threads := 128, seq := 1, order := 1, live := 128 }
/-- The unit with it. -/
def tgu63 (gr : Group) : Tgu := { blocks := [(7, some blk7)], groups := [(63, some gr)] }
/-- The state with it. -/
def stg (gr : Group) (y : Bay) (l : List (Page × Row × Nat)) : State := stb 0 { y with tgu := tgu63 gr } (stm ((.tgu 0, hdrState, 4) :: l))
/-- A launch queue with one entry. -/
def stq : State := stb 0 { tgu := { queue := [lch] } } (stl [(.tgu 0, hdrState, 4)])

/-- A thread group whose next instruction is in the instruction cache. -/
def addiS : State := stb 0 { tlb := [{ vpn := 1, size := 12, asid := 0, pte := 0xDF, ppn := 1 }], tgu := { tgu63 (grp 2 7 0x80000001 .none) with
  icache := [(0x40, toLE 4 0xfff30293 ++ List.replicate 60 0)] } } (stm [(.tgu 0, hdrState, 4), (.xlate 0, hdrState, 4)])
/-- A core before an ADDI. -/
def coreS : State := { stm [(.core 7, hdrState, 4), (.l3 0, hdrState, 4), (.clus 0 0, hdrState, 4), (.core 7, corePc, 0x1000)] with harts := [(7, { x := [(6, 5)], l1i := { lines := [(2048, some { line := 0x40 })] } })], coh := { agents := [(agKey 12 0x40, { st := .S, data := toLE 4 0xfff30293 ++ List.replicate 60 0 })] } }
/-- A core before an ECALL. -/
def coreE : State := { stm [(.core 7, hdrState, 4), (.l3 0, hdrState, 4), (.clus 0 0, hdrState, 4), (.core 7, corePc, 0x1000)] with harts := [(7, { csr := [(0x305, 0x80000001)], l1i := { lines := [(2048, some { line := 0x40 })] } })], coh := { agents := [(agKey 12 0x40, { st := .S, data := toLE 4 0x73 ++ List.replicate 60 0 })] } }

/-- A packet: operation, flow, PSN, address, length, data. -/
def pkt (op flow psn addr len : Nat) (data : List Byte) : Packet :=
  { mkPkt op addr len data with dstFlow := BitVec.ofNat 18 flow, psn := BitVec.ofNat 24 psn, dstRank := 3, srcRank := 5, srcPlace := 77, srcEpoch := 258,
                                tag := 0x80 }
/-- Flow 9, OPEN, to rank 5, with every permission. -/
def flow9 : FlowState := { ctx0 := 0xFFFFF80000000005 + 2 ^ 34, ctx1 := 0x0000070000000000, ctx2 := 0x2000, ctx3 := 2 }
/-- This module with rank 3, flow 9 and its domain. -/
def netS (v : FlowState) (l : List (Page × Row × Nat)) : State :=
  { stm ([(.router 0, hdrState, 4), (.router 0, rtrRankRank, 3), (.router 0, rtrRankValid, 1), (.flow 0, hdrState, 4), (.flow 0, flowDom 0, 10 * 2 ^ 60),
      (.ce 0, hdrState, 4), (.ce 1, hdrState, 4)] ++ l) with
    flows := [(9, v)],
    flowDies := [(0, { tlb := [(0, { vpn := 1, size := 12, asid := 0, pte := 0xD7, ppn := 1 }), (0, { vpn := 2, size := 12, asid := 0, pte := 0xD7, ppn := 2 })] })] }
/-- Rows none of which has arrived. -/
theorem addrs_false (l : List GthRun) (h : l.all (fun r => r.addrs.all (fun x => !x.2)) = true) : ∀ r ∈ l, ∀ x ∈ r.addrs, x.2 = false := by
  intro r hr x hx
  have := List.all_eq_true.mp (List.all_eq_true.mp h r hr) x hx
  simpa using this

/-- A collective of two members. -/
def coll (op self : Nat) : Collective :=
  { entry := mk 128 [(0, 1, op), (1, 1, 2), (2, 1, 2), (3, 1, 2), (16, 4, 7), (24, 8, 32), (32, 8, 0x1000), (40, 8, 0x1400), (56, 8, 0x2000), (64, 8, 0x1800)], n := 2,
    self := self, peers := [(1 - self, 9, 5)] }
/-- A state in which queue 1 of CE 0 holds it. -/
def collS (c : Collective) : State := { netS flow9 [] with ces := [(0, { running := [(1, some c)] })], catalogue := [(5, 0x8000000000000007)] }
/-- A ring with one entry, a BARRIER of ranks 3 and 5. -/
def ceRingS : State := { netS flow9 [(.ce 0, ceQRingBase 1, 0x1000), (.ce 0, ceQProd 1, 3), (.ce 0, ceQCons 1, 2), (.ce 0, ceMembBase, 6)] with
  dram := putBytes (putBytes (putBytes [] 0x1100 (coll 6 0).entry) 0x2000 (mk 32 [(0, 4, 2), (16, 2, 3), (24, 2, 5), (26, 4, 9)])) 0x3000 [0x28] }
/-- After the entry. -/
def ceRingS1 : State := (domReadV ceRingS 0 0 0x1100 128 .ok).2.2
/-- After the group's header. -/
def ceRingS2 : State := (domReadV (wrapAdd ceRingS1 (.ce 0) (ceQCons 1) 1) 0 0 0x2000 16 .ok).2.2
/-- After the group's table. -/
def ceRingS3 : State := (domReadV ceRingS2 0 0 0x2010 16 .ok).2.2
/-- A job that this member is in. -/
def jobS (l : List (Page × Row × Nat)) : State := stm ([(.ce 0, hdrState, 4), (.ce 1, hdrState, 4), (.ce 0, ceJobValid, 1), (.ce 0, ceJobId, 77), (.ce 0, ceJobEpoch, 8),
  (.router 0, rtrRankRank, 3), (.router 0, rtrRankValid, 1), (.router 0, hdrState, 4)] ++ l)
/-- A datagram of that job. -/
def dgm (src : BitVec 16) (p : List Byte) : Datagram := { src := src, jobId := 77, jobEpoch := 8, payload := p }
/-- A child of the accession tree. -/
def kid : Child := { rank := 5, port := 255, flow := 9 }

/-- The state after the table meets the invariant. -/
theorem ce_ring_inv :
    StateInv ceRingS3 := by decide +kernel

/-- The entry as it is read. -/
theorem ce_ring_entry :
    domReadV ceRingS (0 : Fin 2) (ceDomain ceRingS (0 : Fin 2)) ((rd ceRingS (.ce (0 : Fin 2)) (ceQRingBase (1 : QueueId).val) + 128 * (rd
      ceRingS (.ce (0 : Fin 2)) (ceQCons (1 : QueueId).val) % 2 ^ rd ceRingS (.ce (0 : Fin 2)) (ceQRingLog2 (1 : QueueId).val))) % 2 ^ 64)
      128 .ok = (.ok (coll 6 0).entry false, false, ceRingS1) := by decide +kernel

/-- The group's header as it is read. -/
theorem ce_ring_header :
    domReadV (wrapAdd ceRingS1 (.ce (0 : Fin 2)) (ceQCons (1 : QueueId).val) 1) (0 : Fin 2) (ceDomain ceRingS (0 : Fin 2)) (fieldAt (coll 6
      0).entry 56 8) 16 .ok = (.ok (mk 16 [(0, 4, 2)]) false, false, ceRingS2) := by decide +kernel

/-- The group's table as it is read. -/
theorem ce_ring_table :
    domReadV ceRingS2 (0 : Fin 2) (ceDomain ceRingS (0 : Fin 2)) (fieldAt (coll 6 0).entry 56 8 + 16) (8 * fieldAt (mk 16 [(0, 4, 2)]) 0 4)
      .ok = (.ok (mk 16 [(0, 2, 3), (8, 2, 5), (10, 4, 9)]) false, false, ceRingS3) := by decide +kernel

/-- The group is a good one. -/
theorem ce_ring_group :
    ((let n := fieldAt (mk 16 [(0, 4, 2)]) 0 4; let self := fieldAt (mk 16 [(0, 4, 2)]) 4 4; let ranks := (List.range n).map (fun i =>
      (fieldAt (mk 16 [(0, 2, 3), (8, 2, 5), (10, 4, 9)]) (8 * i) 2, fieldAt (mk 16 [(0, 2, 3), (8, 2, 5), (10, 4, 9)]) (8 * i) 8 / 65536 %
      2 ^ 18)); badGroup ceRingS3 { entry := (coll 6 0).entry, n := n, self := self, root := rootOf ceRingS3 (coll 6 0).entry ranks, peers
      := (cePeers (cOp (coll 6 0).entry) (cAlg (coll 6 0).entry) (cWire (coll 6 0).entry) n self (rootOf ceRingS3 (coll 6 0).entry ranks)
      (if cOp (coll 6 0).entry = 6 then 0 else cCount (coll 6 0).entry)).map (fun m => (m, (ranks.getD m (0, 0)).2, (ranks.getD m (0,
      0)).1)) } ranks = false)) := by decide +kernel

/-- The host attached over a link that is up, with a window of 4 MiB·64 at 0. -/
def hostL : List (Page × Row × Nat) :=
  memL ++ [(.host, hdrState, 4), (.host, hostLinkUp, 1), (.host, hostLinkWidth, 8), (.host, hostLinkRate, 2), (.host, hostExwCfg, 1), (.host, hostExwSize, 1), (.host, hostAttachAttached, 1)]
/-- That state, with some register fields written. -/
def sth (l : List (Page × Row × Nat)) : State := { stl (hostL ++ l) with hostPort := { link := some (8, 2) } }
/-- The host-port record written. -/
def sthp (l : List (Page × Row × Nat)) (h : HostPort) : State := { sth l with hostPort := { h with link := some (8, 2) } }
/-- A host-queue entry of 256 bytes with some fields set. -/
def hqe (l : List (Nat × Nat × Nat)) : List Byte := mk 256 l
/-- Queue 0 holds entry `e`, executed or not. -/
def sthq (e : List Byte) (x : Bool) : State := sthp [(.host, hostHqQstatState 0, 2)] { queues := [(0, { entry := e, executed := x })] }
/-- Queue 0 has a WRITE entry in device memory. -/
def hqS : State := { sth [(.host, hostHqCfgEn 0, 1), (.host, hostHqCfgLog2 0, 4), (.host, hostHqProd 0, 1)] with
  dram := putBytes [] 0 (hqe [(0, 1, 1), (2, 2, 8), (8, 8, 0x100), (32, 8, 0x1122334455667788)]) }
/-- After the read of the entry. -/
def hqS2 : State := (cohBlocks hqS 0 256 28 .ok).2.2.2
/-- It meets the invariant. -/
theorem hq_read_inv : StateInv hqS2 := by decide +kernel
/-- The entry as it is read. -/
theorem hq_read : cohBlocks hqS (hqNext hqS 0) 256 28 .ok =
    (hqe [(0, 1, 1), (2, 2, 8), (8, 8, 0x100), (32, 8, 0x1122334455667788)], false, false, hqS2) := by decide +kernel

/-- The reset state with its power record and some register fields written. -/
def stp (l : List (Page × Row × Nat)) (p : Power) : State := { stl l with power := p }
/-- The reset state with its MG record and some register fields written. -/
def stg2 (l : List (Page × Row × Nat)) (m : Mg) : State := { stl l with mg := m }
/-- A record of the start ledger. -/
def lent (k u a : Nat) : LedgerEntry := { seq := 9, boot := 3, step := 4, kind := k, outcome := 1, action := 0, unit := u, arg := a }
/-- The bytes of a configuration write but the last, which the buffer holds. -/
def cfgD : List Byte := mk 4096 [(0, 4, 0xD9C00001)]
/-- The last bytes of the write, which end in its checksum. -/
def cfgE : List Byte := (let d := slice cfgD 0 4092; (d ++ toLE 4 (crc32c d).toNat).drop 3100)
/-- That state with the host link up. -/
def stgh (m : Mg) : State := { stg2 [] m with hostPort := { link := some (8, 2) } }

/-! Witnesses. -/

/-- States and operands that meet the hypotheses of each clause of PageCommandsMoveThePageState. -/
theorem witness_PageCommandsMoveThePageState :
    (∃ (s : State) (p : Page), StateInv s ∧ p.runctl = true ∧ pgState s p = 2 ∧ rd s p hdrBusy = 0 ∧ dieHeld s (pageDie p) = false ∧ runCheck s p =
      []) ∧
    (∃ (s : State) (p : Page), StateInv s ∧ p.runctl = true ∧ pgState s p = 3) ∧
    (∃ (s : State) (p : Page), StateInv s ∧ p.runctl = true ∧ pgState s p = 3 ∧ ((∀ b a, p = .arr b a → rd s p arrCheckMode ≠ 2))) ∧
    (∃ (s : State) (p : Page), StateInv s ∧ p.runctl = true ∧ pgState s p = 4) ∧
    (∃ (s : State) (p : Page), StateInv s ∧ p.runctl = true ∧ pgState s p = 4) ∧
    (∃ (s : State) (b : BayId) (m : Fin 4), StateInv s ∧ pgState s (.mov b m) = 2 ∧ rd s (.mov b m) hdrBusy = 0) ∧
    (∃ (s : State) (p : Page), StateInv s ∧ pgState s p ≠ 0) ∧
    (∃ (s : State) (b : BayId) (m : Fin 4), StateInv s ∧ pgState s (.mov b m) = 5 ∧ movList s b m = [] ∧ (¬ (Page.mov b m).slot ∈ s.heldReset)) ∧
    (∃ (s : State) (p : Page), StateInv s ∧ p.sleepctl = true ∧ pgState s p = 2 ∧ rd s p hdrBusy = 0 ∧ sleepOk s p = true ∧ ((∃ b, p = .bayCtl b) ∨ (∃
      d, p = .pdCtl d) ∨ (∃ n, p = .core n))) ∧
    (∃ (s : State) (b : BayId) (m : Fin 4), StateInv s ∧ pgState s (.mov b m) = 2 ∧ rd s (.mov b m) hdrBusy = 0) ∧
    (∃ (s : State) (n : CoreId), StateInv s ∧ pgState s (.core n) = 2 ∧ rd s (.core n) hdrBusy = 1) ∧
    (∃ (s : State) (p : Page), StateInv s ∧ p.sleepctl = true ∧ pgState s p = 1 ∧ unitSleeps s p = false) ∧
    (∃ (s : State) (b : BayId) (m : Fin 4), StateInv s ∧ pgState s (.mov b m) = 1 ∧ rd s (.mov b m) hdrBusy = 1) :=
  ⟨⟨std [(.mov 0 0, engDescCount, 1)], .mov 0 0, by and_intros <;> decide +kernel⟩,
   ⟨inSt (.mov 0 0) 3, .mov 0 0, by and_intros <;> decide +kernel⟩,
   ⟨inSt (.mov 0 0) 3, .mov 0 0, by and_intros <;> decide +kernel⟩,
   ⟨inSt (.mov 0 0) 4, .mov 0 0, by and_intros <;> decide +kernel⟩,
   ⟨inSt (.mov 0 0) 4, .mov 0 0, by and_intros <;> decide +kernel⟩,
   ⟨State.reset, 0, 0, by and_intros <;> decide +kernel⟩,
   ⟨stl [(.mov 0 0, hdrErr, 5)], .mov 0 0, by and_intros <;> decide +kernel⟩,
   ⟨inSt (.mov 0 0) 5, 0, 0, by and_intros <;> decide +kernel⟩,
   ⟨State.reset, .core 0, by and_intros <;> decide +kernel⟩,
   ⟨State.reset, 0, 0, by and_intros <;> decide +kernel⟩,
   ⟨stl [(.core 0, hdrBusy, 1)], 0, by and_intros <;> decide +kernel⟩,
   ⟨inSt (.mov 0 0) 1, .mov 0 0, by and_intros <;> decide +kernel⟩,
   ⟨stl [(.mov 0 0, hdrState, 1), (.mov 0 0, hdrBusy, 1)], 0, 0, by and_intros <;> decide +kernel⟩⟩

/-- States and operands that meet the hypotheses of each clause of DcsAccessesReadAndWrite. -/
theorem witness_DcsAccessesReadAndWrite :
    (∃ (s : State) (who : Requester) (p : Page), held s = false ∧ dcsReaches s who (4096 * p.slot) = true) ∧
    (∃ (s : State) (who : Requester) (p : Page) (v : BitVec 32), StateInv s ∧ pgState s p ≠ 0 ∧ dcsReaches s who (4096 * p.slot + 0x28) = true) ∧
    (∃ (s : State) (who : Requester) (off : BitVec 26) (size : Nat) (v : BitVec 64), StateInv s ∧ held s = false ∧ dcsReaches s who off.toNat = true ∧
      dcsAligned off.toNat size = false ∧ rd s .hub hubLogHead - rd s .hub hubLogTail < 256) :=
  ⟨⟨std [], .host, .mov 3 2, by and_intros <;> decide +kernel⟩,
   ⟨std [(.doc 3, hdrState, 4)], .docent 3, .mov 3 2, 0x12345678, by and_intros <;> decide +kernel⟩,
   ⟨std [(.core 5, hdrState, 4)], .core 5, 6, 4, 1, by and_intros <;> decide +kernel⟩⟩

/-- States and operands that meet the hypotheses of each clause of HubRegistersFollowTheirEvents. -/
theorem witness_HubRegistersFollowTheirEvents :
    (∃ (s : State) (v : BitVec 32), StateInv s ∧ rd s .hub hubLogTail ≤ v.toNat ∧ v.toNat ≤ rd s .hub hubLogHead) ∧
    (∃ (s : State) (v : BitVec 32), StateInv s ∧ pgState s .hub ≠ 0 ∧ (v.toNat < rd s .hub hubLogTail ∨ rd s .hub hubLogHead < v.toNat)) ∧
    (∃ (s : State) (i : Fin 75) (ps : BitVec 16), StateInv s) ∧
    (∃ (s : State), StateInv s) ∧
    (∃ (s : State), StateInv s ∧ s.pins.refclk = true ∧ held s = false ∧ rd s .hub hubClkstatHoldover = 1) ∧
    (∃ (s : State), s.pins.refclk = true ∧ held s = false ∧ rd s .hub hubClkstatHoldover = 0) :=
  ⟨⟨stl [(.hub, hubLogHead, 5)], 3, by and_intros <;> decide +kernel⟩,
   ⟨State.reset, 3, by and_intros <;> decide +kernel⟩,
   ⟨State.reset, 7, 513, by decide +kernel⟩,
   ⟨stl [(.hub, hubClkstatRefclkOk, 0)], by decide +kernel⟩,
   ⟨stl [(.hub, hubClkstatHoldover, 1)], by and_intros <;> decide +kernel⟩,
   ⟨State.reset, by and_intros <;> decide +kernel⟩⟩

/-- States and operands that meet the hypotheses of each clause of ModuleResetKeepsWhatItMust. -/
theorem witness_ModuleResetKeepsWhatItMust :
    (∃ (s : State), held s = false) ∧
    (∃ (s : State) (key : BitVec 16), key ≠ 0xD5A7) ∧
    (∃ (s : State), s.pins.modResetLow = false ∧ s.power.pwrGood = true) ∧
    (∃ (s : State) (straps : BitVec 6), StateInv s ∧ s.pins.modResetLow = true) ∧
    (∃ (s : State), StateInv s ∧ domainUp s = false ∧ s.coh.restarting = false ∧ s.coh.downSeq = false ∧ s.coh.salvTurn = none ∧ rd s .coh
      cohStatusSalvaged ≠ 1) :=
  ⟨⟨{ stl [(.mgpwr, pwrCap, 2000)] with mg := { bootCount := 7 } }, by decide +kernel⟩,
   ⟨State.reset, 5, by decide +kernel⟩,
   ⟨State.reset, by and_intros <;> decide +kernel⟩,
   ⟨{ State.reset with pins := { modResetLow := true } }, 9, by and_intros <;> decide +kernel⟩,
   ⟨State.reset, by and_intros <;> decide +kernel⟩⟩

/-- States and operands that meet the hypotheses of each clause of DieLinksTrainCarryAndRepair. -/
theorem witness_DieLinksTrainCarryAndRepair :
    (∃ (s : State) (l : Fin 31) (dir : Bool) (f : Flit), StateInv s ∧ linkUp s l = true ∧ linkPaused s l = false ∧ linkCarries s l f = true ∧
      flitChosen (rd s .hub hubTimer) (txOf s l dir) f = true ∧ 1 ≤ f.kind.toNat ∧ f.kind.toNat ≤ 4 ∧ f.seq = (linkDir s l dir).txSeq ∧ f.seq =
      (linkDir s l dir).rxSeq ∧ (linkDir s l dir).buffer.length < retryDepth s l dir) ∧
    (∃ (s : State) (l : Fin 31) (dir : Bool) (f : Flit), StateInv s ∧ linkUp s l = true ∧ linkCarries s l f = true ∧ f.seq ≠ (linkDir s l dir).txSeq) ∧
    (∃ (s : State) (l : Fin 31) (dir : Bool), StateInv s ∧ linkUp s l = true ∧ (linkDir s l dir).nak = true ∧ linkPaused s l = false) ∧
    (∃ (s : State) (l : Fin 31) (r : TrainResult), StateInv s ∧ pgState s (.dlink l) = 2 ∧ linkReleased s l = true ∧ s.mg.snapshot = [] ∧ r.capA =
      none ∧ r.capB = none ∧ r.badAB = [] ∧ r.badBA = []) ∧
    (∃ (s : State) (l : Fin 31) (r : TrainResult) (a : BitVec 128) (b : BitVec 128), (StateInv s ∧ pgState s (.dlink l) = 2 ∧ linkReleased s l = true
      ∧ s.mg.snapshot = [] ∧ r.capA = some a ∧ r.capB = some b ∧ capOk a.toNat = true ∧ capOk b.toNat = true ∧ capIdent l a.toNat b.toNat = true) ∧
      a.toNat % 256 = 2 ∧ b.toNat % 256 = 2 ∧ bits a.toNat 55 52 = 3 ∧ bits b.toNat 55 52 = 3 ∧ bits a.toNat 51 48 = 15 ∧ bits b.toNat 51 48 = 15 ∧
      bits a.toNat 59 56 = 15 ∧ bits b.toNat 59 56 = 15 ∧ r.badAB = [] ∧ r.badBA = []) ∧
    (∃ (s : State) (l : Fin 31) (r : TrainResult) (a : BitVec 128), StateInv s ∧ pgState s (.dlink l) = 2 ∧ linkReleased s l = true ∧ r.capA = some a
      ∧ capOk a.toNat = false ∧ (linkOf s l).retried = false) ∧
    (∃ (s : State) (l : Fin 31), StateInv s ∧ pgState s (.dlink l) = 2 ∧ linkReleased s l = true ∧ (linkOf s l).retried = false) ∧
    (∃ (s : State) (l : Fin 31), StateInv s ∧ pgState s (.dlink l) = 2 ∧ linkReleased s l = true ∧ (linkOf s l).retried = true) ∧
    (∃ (s : State) (l : Fin 31) (dir : Bool) (w : Nat) (x : Nat), StateInv s ∧ linkUp s l = true ∧ w < linkWires l + linkSpares l ∧ Rising (linkDir s
      l dir).suspects ∧ (¬ w ∈ (linkDir s l dir).excluded) ∧ mget [] (linkDir s l dir).suspects w = [x] ∧ rd s .hub hubTimer < x + 100000) ∧
    (∃ (s : State) (l : Fin 31) (dir : Bool) (bad : List Nat), StateInv s ∧ linkUp s l = true ∧ (linkDir s l dir).testing = true) ∧
    (∃ (s : State) (l : Fin 31) (dir : Bool) (w : Nat), StateInv s ∧ linkUp s l = true ∧ w ∈ (linkDir s l dir).faulty ∧ w < 4160 ∧ rd s (.dlink l)
      (dlSpareLeft (b2n dir)) ≠ 0) ∧
    (∃ (s : State) (l : Fin 31) (dir : Bool) (ov : Bool), StateInv s ∧ linkUp s l = true ∧ (linkDir s l dir).faulty ≠ [] ∧ rd s (.dlink l)
      (dlSpareLeft (b2n dir)) = 0 ∧ linkRing l.val = true ∧ domainUp s = true) ∧
    (∃ (s : State) (l : Fin 31) (dir : Bool) (ov : Bool), StateInv s ∧ linkUp s l = true ∧ (linkDir s l dir).faulty ≠ [] ∧ rd s (.dlink l)
      (dlSpareLeft (b2n dir)) = 0 ∧ linkMgmt l.val = true) ∧
    (∃ (s : State) (l : Fin 31), StateInv s ∧ linkUp s l = true ∧ linkMgmt l.val = true) ∧
    (∃ (s : State) (l : Fin 31), StateInv s ∧ linkUp s l = true ∧ linkMgmt l.val = false ∧ domainUp s = true) :=
  ⟨⟨stl [(.dlink 3, hdrState, 4), (.dlink 3, dlNegWidth, 4), (.dlink 3, dlNegProto, 15), (.dlink 3, dlCap 0 1, 0x4000)], 3, false,
     { seq := 0, kind := 3, channel := 0, lane := false, nak := false, ack := 0, payload := [1, 2] }, by and_intros <;> decide +kernel⟩,
   ⟨stl [(.dlink 3, hdrState, 4), (.dlink 3, dlNegWidth, 4), (.dlink 3, dlNegProto, 15)], 3, false,
     { seq := 5, kind := 3, channel := 0, lane := false, nak := false, ack := 0, payload := [1, 2] }, by and_intros <;> decide +kernel⟩,
   ⟨{ stl [(.dlink 3, hdrState, 4), (.dlink 3, dlNegWidth, 4), (.dlink 3, dlNegProto, 15)] with links := [(3, { ab := { nak := true, buffer := [{ seq := 0, kind := 3, channel := 0, lane := false, nak := false, ack := 0, payload := [1, 2] }] } })] },
     3, false, by and_intros <;> decide +kernel⟩,
   ⟨{ stl [] with mg := { startStep := 3 } }, 0, { capA := none, capB := none, badAB := [], badBA := [] }, by and_intros <;> decide +kernel⟩,
   ⟨{ stl [] with mg := { startStep := 3 } }, 0,
     { capA := some 0xd93e3234000040400f3f00010d9b0002, capB := some 0x7cdef7e5000040400f3f04010d9b0002, badAB := [], badBA := [] },
     0xd93e3234000040400f3f00010d9b0002, 0x7cdef7e5000040400f3f04010d9b0002, by and_intros <;> decide +kernel, by and_intros <;> decide +kernel⟩,
   ⟨{ stl [] with mg := { startStep := 3 } }, 0, { capA := some 5, capB := some 5, badAB := [], badBA := [] }, 5, by and_intros <;> decide +kernel⟩,
   ⟨{ stl [] with mg := { startStep := 3 } }, 0, by and_intros <;> decide +kernel⟩,
   ⟨{ stl [] with mg := { startStep := 3 }, links := [(0, { retried := true })] }, 0, by and_intros <;> decide +kernel⟩,
   ⟨{ stl [(.dlink 3, hdrState, 4), (.dlink 3, dlNegWidth, 4), (.dlink 3, dlNegProto, 15), (.hub, hubTimer, 100050)] with links := [(3, { ab := { suspects := [(4159, [51])] } })] },
     3, false, 4159, 51, by and_intros <;> decide +kernel⟩,
   ⟨{ stl [(.dlink 3, hdrState, 4), (.dlink 3, dlNegWidth, 4), (.dlink 3, dlNegProto, 15)] with links := [(3, { ba := { testing := true, faulty := [7] } })] },
     3, true, [7, 8, 5000], by and_intros <;> decide +kernel⟩,
   ⟨{ stl [(.dlink 3, hdrState, 4), (.dlink 3, dlNegWidth, 4), (.dlink 3, dlNegProto, 15)] with links := [(3, { ba := { faulty := [7] } })] }, 3,
     true, 7, by and_intros <;> decide +kernel⟩,
   ⟨{ stl [(.dlink 0, hdrState, 4), (.dlink 0, dlNegWidth, 4), (.dlink 0, dlNegProto, 15), (.dlink 0, dlSpareLeft 0, 0), (.hub, hubDomainUp, 1)] with links := [(0, { ab := { faulty := [7] } })] },
     0, false, true, by and_intros <;> decide +kernel⟩,
   ⟨{ stl [(.dlink 9, hdrState, 4), (.dlink 9, dlNegWidth, 4), (.dlink 9, dlNegProto, 15), (.dlink 9, dlSpareLeft 1, 0), (.hub, hubDomainUp, 1)] with links := [(9, { ba := { faulty := [7] } })] },
     9, true, false, by and_intros <;> decide +kernel⟩,
   ⟨stl [(.dlink 9, hdrState, 4), (.dlink 9, dlNegWidth, 4), (.dlink 9, dlNegProto, 15), (.hub, hubDomainUp, 1)], 9, by and_intros <;> decide +kernel⟩,
   ⟨stl [(.dlink 0, hdrState, 4), (.dlink 0, dlNegWidth, 4), (.dlink 0, dlNegProto, 15), (.hub, hubDomainUp, 1)], 0, by and_intros <;> decide +kernel⟩⟩

/-- States and operands that meet the hypotheses of BlockWriteThenReadReturnsTheBlock. -/
theorem witness_BlockWriteThenReadReturnsTheBlock :
    ∃ (s : State) (blk : BitVec 32) (cls : Fin 32) (cls' : Fin 32) (fill : Bool) (w : BlockWr) (p : Place), StateInv s ∧ placeOf s blk.toNat = some p
      ∧ (chanOf s p.st p.ch).reqs = [] ∧ chanOpen s p = true ∧ chanDead s p.st p.ch = false ∧ ((wayFind s (.sysc p.st) (syscSlot p) blk.toNat).isSome
      = true ∨ syscBlk s blk.toNat = none) ∧ w.data.length = 256 ∧ (w.crc = none ∨ w.crc = some (crc32c w.data)) :=
  ⟨stm [], 5, 3, 25, false, { data := List.replicate 256 7, crc := none, tag := 1, poison := true }, ⟨0, 0, 5⟩, by and_intros <;> decide +kernel⟩

/-- States and operands that meet the hypotheses of each clause of MemoryAndStoreMaintenanceTakesEffect. -/
theorem witness_MemoryAndStoreMaintenanceTakesEffect :
    (∃ (s : State) (blk : BitVec 32) (cls : Fin 32) (mask : BitVec 256) (data : List Byte) (poison : Bool) (p : Place), StateInv s ∧ placeOf s
      blk.toNat = some p ∧ chanFree s p blk.toNat = true ∧ chanOpen s p = true ∧ regFree (chanOf s p.st p.ch).reqs cls.val p.q = true ∧ chanDead s
      p.st p.ch = false ∧ syscBlk s blk.toNat = none ∧ crcGood (dramData s blk.toNat) (dramSide s blk.toNat) = true) ∧
    (∃ (s : State) (blk : BitVec 32) (p : Place), StateInv s ∧ placeOf s blk.toNat = some p ∧ memHeld s blk.toNat = false ∧ chanDead s p.st p.ch =
      false ∧ syscBlk s blk.toNat = none ∧ crcGood (dramData s blk.toNat) (dramSide s blk.toNat) = true) ∧
    (∃ (s : State) (st : Fin 16) (ch : Fin 32) (bank : Fin 32), StateInv s ∧ Rising (chanOf s st ch).openRow ∧ bank.val = (chanOf s st
      ch).refreshTurn) ∧
    (∃ (s : State) (st : Fin 16) (ch : Fin 32) (bank : Fin 32), StateInv s ∧ Rising (chanOf s st ch).openRow) ∧
    (∃ (s : State) (st : Fin 16) (ch : Fin 32), StateInv s ∧ rd s (.mchan st ch) mchLocInService = 1 ∧ chanDead s st ch = false ∧ (chanOf s st
      ch).retraining = false) ∧
    (∃ (s : State) (st : Fin 16) (ch : Fin 32), StateInv s ∧ pgState s (.mchan st ch) ≠ 0 ∧ (chanOf s st ch).retraining = true ∧ (chanOf s st ch).reqs
      = []) ∧
    (∃ (s : State) (st : Fin 16) (ch : Fin 32) (en : Bool), StateInv s ∧ pgState s (.mchan st ch) ≠ 0) ∧
    (∃ (s : State) (st : Fin 16) (ch : Fin 32), StateInv s ∧ rd s (.mchan st ch) mchLocInService = 1 ∧ chanDead s st ch = false ∧ rd s (.mchan st ch)
      mchCfgPatrolEn = 1 ∧ rd s (.mchan st ch) mchPatrol + 1 < chanBlocks ∧ memHeld s (blockAt s st ch (rd s (.mchan st ch) mchPatrol)) = false ∧ ((∃
      b, syscBlk s (blockAt s st ch (rd s (.mchan st ch) mchPatrol)) = some b ∧ b.dirty = true))) ∧
    (∃ (s : State) (st : Fin 16) (ch : Fin 32), StateInv s ∧ rd s (.mchan st ch) mchLocInService = 1 ∧ chanDead s st ch = false) ∧
    (∃ (s : State) (st : Fin 16) (ch : Fin 32) (key : BitVec 16), key ≠ 0xD5A7) ∧
    (∃ (s : State) (st : Fin 16) (v : List (BitVec 16)), StateInv s ∧ v.length = 8) ∧
    (∃ (s : State) (b : BayId) (line : Fin 2097152), StateInv s ∧ Rising (storeOf s b).ue ∧ Rising (storeOf s b).poison ∧ Rising (storeOf s b).ce) :=
  ⟨⟨{ stm [] with dram := [(1281, 9)], side := [(5, { poison := 7 })] }, 5, 3, 3, List.replicate 256 1, false, ⟨0, 0, 5⟩,
     by and_intros <;> decide +kernel⟩,
   ⟨stm [(.mchan 0 0, mchRrCount, 2 ^ 32 - 1)], 5, ⟨0, 0, 5⟩, by and_intros <;> decide +kernel⟩,
   ⟨{ stm [] with chans := [(0, { openRow := [(31, some 2)], refreshTurn := 31 })] }, 0, 0, 31, by and_intros <;> decide +kernel⟩,
   ⟨{ stm [] with chans := [(0, { openRow := [(31, some 2)], refreshTurn := 3 })] }, 0, 0, 31, by and_intros <;> decide +kernel⟩,
   ⟨stm [], 0, 0, by and_intros <;> decide +kernel⟩,
   ⟨{ stm [] with chans := [(0, { retraining := true })] }, 0, 0, by and_intros <;> decide +kernel⟩,
   ⟨stm [], 0, 0, true, by and_intros <;> decide +kernel⟩,
   ⟨{ stm [(.mchan 0 0, mchCfgPatrolEn, 1), (.mchan 0 0, mchPatrol, 6291454)] with sysc := [(6291454, some { data := [], side := {}, dirty := true, carried := false })] },
     0, 0, by and_intros <;> decide +kernel⟩,
   ⟨stm [], 0, 0, by and_intros <;> decide +kernel⟩,
   ⟨stm [], 0, 0, 3, by decide +kernel⟩,
   ⟨stm [], 0, [1,2,3,4,5,6,7,8], by and_intros <;> decide +kernel⟩,
   ⟨{ State.reset with bays := [(47, { store := { ue := [(2097151, true)] } })] }, 47, 2097151, by and_intros <;> decide +kernel⟩⟩

/-- States and operands that meet the hypotheses of each clause of CachesLookUpAndPowerTheirWays. -/
theorem witness_CachesLookUpAndPowerTheirWays :
    (∃ (s : State) (c : CacheId) (w : Fin 24), StateInv s ∧ w.val < c.page.ways ∧ bitOf (rd s c.page cacheWaypwr) w.val = true ∧ bitOf (rd s c.page
      cacheWaystat) w.val = true) ∧
    (∃ (s : State) (c : CacheId) (w : Fin 24), StateInv s ∧ w.val < c.page.ways ∧ bitOf (rd s c.page cacheWaypwr) w.val = false ∧ bitOf (rd s c.page
      cacheWaydis) w.val = false) ∧
    (∃ (s : State) (c : CacheId) (w : Fin 24), StateInv s ∧ pgState s c.page = 4 ∧ w.val ∈ (cacheOf s c).cleaning ∧ (cacheOf s c).lines = [] ∧
      (cacheOf s c).disabling = []) ∧
    (∃ (s : State) (c : CacheId) (w : Fin 24), StateInv s ∧ w.val < c.page.ways ∧ bitOf (rd s c.page cacheWaypwr) w.val = true ∧ bitOf (rd s c.page
      cacheWaystat) w.val = false ∧ (¬ w.val ∈ (cacheOf s c).cleaning)) ∧
    (∃ (s : State) (c : CacheId) (cls : Fin 32) (mask : BitVec 24), StateInv s ∧ c.page.reaches cls.val = true) ∧
    (∃ (s : State) (c : CacheId) (cls : Fin 32) (line : BitVec 34) (k : Nat) (l : Nat) (w : Nat), StateInv s ∧ pgState s c.page = 4 ∧ lookupKey s c
      line.toNat = some (k, l) ∧ wayFind s c k l = some w ∧ Rising (cacheOf s c).plru ∧ (cacheOf s c).miss = [] ∧ (cacheOf s c).inputs = [] ∧ ((∀ a,
      cacheAgent c = some a → (agentOf s a line.toNat).st ∈ [LineState.S, .E, .O, .M, .SM, .OM]))) ∧
    (∃ (s : State) (st : Fin 16) (cls : Fin 32) (line : BitVec 34) (k : Nat) (l : Nat), StateInv s ∧ pgState s (.sysc st) = 4 ∧ lookupKey s (.sysc st)
      line.toNat = some (k, l) ∧ wayFind s (.sysc st) k l = none ∧ (cacheOf s (.sysc st)).miss = [] ∧ (cacheOf s (.sysc st)).inputs = []) ∧
    (∃ (s : State) (c : CacheId), StateInv s ∧ (cacheOf s c).range = none) ∧
    (∃ (s : State) (c : CacheId) (r : RangeCmd), StateInv s ∧ pgState s c.page = 4 ∧ (cacheOf s c).range = some r ∧ (cacheOf s c).lines = [] ∧ ((∀ a,
      cacheAgent c = some a → ∀ x ∈ s.coh.agents, x.1 / 2 ^ 34 = a.val → x.2.st ≠ .MI ∧ x.2.st ≠ .OI ∧ x.2.st ≠ .II))) :=
  ⟨⟨stl [(.l3 0, cacheWaypwr, 0xFFFFFF), (.l3 0, cacheWaystat, 0xFFFFFF)], .l3 0, 15, by and_intros <;> decide +kernel⟩,
   ⟨stl [(.l3 0, cacheWaypwr, 1)], .l3 0, 1, by and_intros <;> decide +kernel⟩,
   ⟨{ stl [(.l3 0, cacheWaystat, 2)] with caches := [(0, { cleaning := [1] })] }, .l3 0, 1, by and_intros <;> decide +kernel⟩,
   ⟨stl [(.l3 0, cacheWaystat, 1)], .l3 0, 1, by and_intros <;> decide +kernel⟩,
   ⟨stl [], .l3 0, 0, 0xFFFFFF, by and_intros <;> decide +kernel⟩,
   ⟨{ stl [] with caches := [(0, { lines := [(40960 * 32 + 1, some { line := 5 })] })], coh := { agents := [(agKey 12 5, { st := .S, data := List.replicate 64 9 })] } },
     .l3 0, 0, 5, 40960, 5, 1, by and_intros <;> decide +kernel⟩,
   ⟨stm [], 0, 0, 5, 1, 1, by and_intros <;> decide +kernel⟩,
   ⟨stl [(.bcache 3, cacheRangeBase, 5), (.bcache 3, cacheRangeSize, 6)], .bcache 3, by and_intros <;> decide +kernel⟩,
   ⟨{ stl [] with caches := [(0, { range := some ⟨1, 5, 6⟩ })] }, .l3 0, ⟨1, 5, 6⟩, by and_intros <;> decide +kernel⟩⟩

/-- States and operands that meet the hypotheses of each clause of AgentsRequestAndTakeReplies. -/
theorem witness_AgentsRequestAndTakeReplies :
    (∃ (s : State) (a : AgentId) (line : BitVec 34) (h : Nat), domainUp s = true ∧ (agentOf s a line.toNat).st = .I ∧ homeIx s line.toNat = some h ∧ 1
      ≤ credits s (agentDie a) h ∧ credits s (agentDie a) h ≤ 64) ∧
    (∃ (s : State) (a : AgentId) (line : BitVec 34) (h : Nat), domainUp s = true ∧ (agentOf s a line.toNat).st = .I ∧ homeIx s line.toNat = some h ∧ 1
      ≤ credits s (agentDie a) h ∧ credits s (agentDie a) h ≤ 64) ∧
    (∃ (s : State) (a : AgentId) (line : BitVec 34), domainUp s = true ∧ a ≠ 16 ∧ (agentOf s a line.toNat).st = .E) ∧
    (∃ (s : State) (a : AgentId) (cls : Fin 32) (line : BitVec 34), Rising s.coh.agents ∧ domainUp s = true ∧ a ≠ 16 ∧ (agentOf s a line.toNat).st =
      .E) ∧
    (∃ (s : State) (a : AgentId) (cls : Fin 32) (line : BitVec 34) (h : Nat), domainUp s = true ∧ a ≠ 16 ∧ (agentOf s a line.toNat).st = .M ∧ homeIx s
      line.toNat = some h ∧ 1 ≤ credits s (agentDie a) h) ∧
    (∃ (s : State) (a : AgentId) (line : BitVec 34) (d : List Byte) (p : Bool), domainUp s = true ∧ a ≠ 16 ∧ ((∀ c ∈ agentCaches a, (cacheOf s c).miss
      = [])) ∧ (agentOf s a line.toNat).waitLoad = false ∧ (agentOf s a line.toNat).waitStore = false) ∧
    (∃ (s : State) (a : AgentId) (line : BitVec 34), Rising s.coh.agents ∧ domainUp s = true ∧ a ≠ 16 ∧ (agentOf s a line.toNat).waitLoad = false ∧ (agentOf s a line.toNat).waitStore = false ∧ (agentOf s a line.toNat).st = .MI ∧ findMsg s line.toNat (fun m => match m with | .rep k' (.agent b) _ _ => k' == RepKind.wback && b == a | _ => false) = some (.rep .wback (.agent a) [] false)) ∧
    (∃ (s : State) (d : DieId) (line : BitVec 34) (v : List Byte) (p : Bool), domainUp s = true) :=
  ⟨⟨stm [], 0, 5, 0, by and_intros <;> decide +kernel⟩,
   ⟨stm [], 0, 5, 0, by and_intros <;> decide +kernel⟩,
   ⟨{ stm [] with coh := { agents := [(agKey 3 5, { st := .E, data := List.replicate 64 9 })] } }, 3, 5, by and_intros <;> decide +kernel⟩,
   ⟨{ stm [] with coh := { agents := [(agKey 3 5, { st := .E, data := List.replicate 64 9 })] } }, 3, 12, 5, by and_intros <;> decide +kernel⟩,
   ⟨{ stm [] with coh := { agents := [(agKey 3 5, { st := .M, data := List.replicate 64 9 })] } }, 3, 12, 5, 0, by and_intros <;> decide +kernel⟩,
   ⟨{ stm [] with coh := { agents := [(agKey 3 5, { st := .IS, data := List.replicate 64 9 })], msgs := [(5, .rep .gnts (.agent 3) [1] false)] } }, 3,
     5, [1], false, by and_intros <;> decide +kernel⟩,
   ⟨{ stm [] with coh := { agents := [(agKey 3 5, { st := .MI, data := List.replicate 64 9 })], msgs := [(5, .rep .wback (.agent 3) [] false)] } }, 3,
     5, by and_intros <;> decide +kernel⟩,
   ⟨{ stm [] with coh := { msgs := [(5, .rep .cmp (.die 3) [1] false)] } }, 3, 5, [1], false, by decide +kernel⟩⟩

/-- States and operands that meet the hypotheses of each clause of HomesBeginAndCollect. -/
theorem witness_HomesBeginAndCollect :
    (∃ (s : State) (a : AgentId) (line : BitVec 34) (r : Req), domainUp s = true ∧ r.who = .agent a ∧ (homeOf s line.toNat).st = .free ∧ findMsg s line.toNat (fun m => match m with | .req r => r.who == .agent a && r.kind == .rds | _ => false) = some (.req r)) ∧
    (∃ (s : State) (a : AgentId) (line : BitVec 34) (r : Req), domainUp s = true ∧ r.who = .agent a ∧ (homeOf s line.toNat).st = .free ∧ findMsg s line.toNat (fun m => match m with | .req r => r.who == .agent a && r.kind == .rdx | _ => false) = some (.req r)) ∧
    (∃ (s : State) (a : AgentId) (line : BitVec 34) (r : Req), domainUp s = true ∧ r.who = .agent a ∧ r.kind = .upg ∧ (homeOf s line.toNat).st = .free ∧ findMsg s line.toNat (fun m => match m with | .req r => r.who == .agent a && r.kind == .upg | _ => false) = some (.req r)) ∧
    (∃ (s : State) (a : AgentId) (line : BitVec 34) (r : Req), domainUp s = true ∧ r.who = .agent a ∧ r.kind = .wb ∧ (homeOf s line.toNat).st = .free ∧ (a.val, line.toNat) ∈ s.coh.wbxNotes ∧ findMsg s line.toNat (fun m => match m with | .req r => r.who == .agent a && r.kind == .wb | _ => false) = some (.req r)) ∧
    (∃ (s : State) (d : DieId) (cls : Fin 32) (line : BitVec 34) (h : Nat), domainUp s = true ∧ d.val ≠ 19 ∧ homeIx s line.toNat = some h ∧ 1 ≤
      credits s d.val h ∧ (homeOf s line.toNat).st = .free) ∧
    (∃ (s : State) (a : AgentId) (b : AgentId) (line : BitVec 34) (r : Req) (l : List AgentId), domainUp s = true ∧ a ≠ b ∧ findMsg s line.toNat (fun m => match m with | .ans _ b _ _ => b == a | _ => false) = some (.ans .rspI a [] false) ∧ (homeOf s line.toNat).st = .snoop ∧ (homeOf s line.toNat).cur = some r ∧ (reqSnoop r.kind).isSome ∧ (homeOf s line.toNat).waiting = a :: b :: l) ∧
    (∃ (s : State) (a : AgentId) (line : BitVec 34) (r : Req), Rising s.coh.homes ∧ domainUp s = true ∧ findMsg s line.toNat (· == .cmpack a) = some
      (.cmpack a) ∧ (homeOf s line.toNat).st = .ack ∧ (homeOf s line.toNat).cur = some r ∧ r.who = .agent a ∧ (homeOf s line.toNat).queue = []) ∧
    (∃ (s : State) (line : BitVec 34) (chk : Check) (r : Req), domainUp s = true ∧ (homeOf s line.toNat).st = .snoop ∧ (homeOf s line.toNat).cur =
      some r ∧ needsData r.kind (homeOf s line.toNat).asRdx = true ∧ (homeOf s line.toNat).mem = none ∧ ((syscBlk s (line.toNat / 4)).isSome = true ∨
      memHeld s (line.toNat / 4) = false)) :=
  ⟨⟨{ stm [] with coh := { msgs := [(5, .req { who := .agent 3, kind := .rds })] } }, 3, 5, { who := .agent 3, kind := .rds },
     by and_intros <;> decide +kernel⟩,
   ⟨{ stm [] with coh := { msgs := [(5, .req { who := .agent 3, kind := .rdx })] } }, 3, 5, { who := .agent 3, kind := .rdx },
     by and_intros <;> decide +kernel⟩,
   ⟨{ stm [] with coh := { msgs := [(5, .req { who := .agent 3, kind := .upg })] } }, 3, 5, { who := .agent 3, kind := .upg },
     by and_intros <;> decide +kernel⟩,
   ⟨{ stm [] with coh := { msgs := [(5, .req { who := .agent 3, kind := .wb })], wbxNotes := [(3, 5)] } }, 3, 5, { who := .agent 3, kind := .wb },
     by and_intros <;> decide +kernel⟩,
   ⟨stm [], 18, 12, 5, 0, by and_intros <;> decide +kernel⟩,
   ⟨{ stm [] with coh := { msgs := [(5, .ans .rspI 3 [] false)], homes := [(5, { st := .snoop, cur := some { who := .agent 7, kind := .rds }, waiting := [3, 16] })] } },
     3, 16, 5, { who := .agent 7, kind := .rds }, [], by and_intros <;> decide +kernel⟩,
   ⟨{ stm [] with coh := { msgs := [(5, .cmpack 3)], homes := [(5, { st := .ack, cur := some { who := .agent 3, kind := .rds } })] } }, 3, 5,
     { who := .agent 3, kind := .rds }, by and_intros <;> decide +kernel⟩,
   ⟨{ stm [] with coh := { homes := [(5, { st := .snoop, cur := some { who := .agent 7, kind := .rds }, waiting := [3, 16] })] } }, 5, .ok,
     { who := .agent 7, kind := .rds }, by and_intros <;> decide +kernel⟩⟩

/-- States and operands that meet the hypotheses of SnoopedAgentsAnswerByTheTable. -/
theorem witness_SnoopedAgentsAnswerByTheTable :
    ∃ (s : State) (a : AgentId) (line : BitVec 34), Rising s.coh.agents ∧ domainUp s = true :=
  ⟨{ stm [] with coh := { agents := [(agKey 3 5, { st := .S, data := List.replicate 64 9 })], msgs := [(5, .snp .snps 3)] } }, 3, 5,
    by and_intros <;> decide +kernel⟩

/-- States and operands that meet the hypotheses of each clause of DomainGoesDownAndRestarts. -/
theorem witness_DomainGoesDownAndRestarts :
    (∃ (s : State) (a : AgentId) (line : BitVec 34), StateInv s ∧ domainUp s = true ∧ (homeOf s line.toNat).st = .snoop ∧ a ∈ (homeOf s
      line.toNat).waiting) ∧
    (∃ (s : State) (line : BitVec 34), StateInv s ∧ domainUp s = true ∧ (homeOf s line.toNat).st = .ack) ∧
    (∃ (s : State) (d : DieId) (line : BitVec 34) (m : Nat), StateInv s ∧ domainUp s = true ∧ outstanding s d line.toNat = some m) ∧
    (∃ (s : State), StateInv s ∧ domainUp s = true) ∧
    (∃ (s : State), StateInv s ∧ s.coh.restarting = true) ∧
    (∃ (s : State) (key : BitVec 16), key ≠ 0xD5A7) ∧
    (∃ (s : State), StateInv s ∧ s.coh.downSeq = true ∧ s.coh.restartHeld = false) ∧
    (∃ (s : State), StateInv s ∧ domainUp s = false ∧ s.coh.salvTurn = none ∧ rd s .coh cohStatusSalvaged ≠ 1 ∧ s.coh.restarting = false) ∧
    (∃ (s : State) (n : Nat), s.coh.salvTurn = some n ∧ n < 16 ∧ salvageLeft s n = false) ∧
    (∃ (s : State), StateInv s ∧ s.coh.salvTurn = some 16 ∧ salvageLeft s 16 = false ∧ s.coh.restartHeld = false) ∧
    (∃ (s : State) (n : Nat), StateInv s ∧ s.coh.salvTurn = some n ∧ n < 16) ∧
    (∃ (s : State) (a : AgentId) (line : BitVec 34), s.coh.salvTurn = some a.val ∧ a ≠ 16 ∧ (agentOf s a line.toNat).st = .M) ∧
    (∃ (s : State) (addr : BitVec 64), StateInv s ∧ rd s .coh cohDumpStatBusy ≠ 1) ∧
    (∃ (s : State) (k : BitVec 64), StateInv s ∧ s.coh.dump = some k ∧ inDram s (256 * k.toNat) 256 = true ∧ syscBlk s k.toNat = none) ∧
    (∃ (s : State), StateInv s ∧ s.coh.restarting = true ∧ hostLines s = []) ∧
    (∃ (s : State), StateInv s ∧ s.coh.restarting = true ∧ hostLines s = []) :=
  ⟨⟨{ stm [] with coh := { homes := [(5, { st := .snoop, cur := some { who := .agent 7, kind := .rds }, waiting := [3, 16] })] } }, 16, 5,
     by and_intros <;> decide +kernel⟩,
   ⟨{ stm [] with coh := { homes := [(5, { st := .ack, cur := some { who := .agent 7, kind := .rds } })] } }, 5, by and_intros <;> decide +kernel⟩,
   ⟨{ stm [] with coh := { agents := [(agKey 3 5, { st := .IS, data := List.replicate 64 9 })], msgs := [(5, .req { who := .agent 3, kind := .rds })] } },
     3, 5, 1, by and_intros <;> decide +kernel⟩,
   ⟨stm [], by and_intros <;> decide +kernel⟩,
   ⟨{ stl [] with coh := { restarting := true } }, by and_intros <;> decide +kernel⟩,
   ⟨stm [], 3, by decide +kernel⟩,
   ⟨{ stl [] with coh := { downSeq := true } }, by and_intros <;> decide +kernel⟩,
   ⟨stl [], by and_intros <;> decide +kernel⟩,
   ⟨{ stl [] with coh := { salvTurn := some 15 } }, 15, by and_intros <;> decide +kernel⟩,
   ⟨{ stl [(.coh, cohStatusSalvaging, 1)] with coh := { salvTurn := some 16 } }, by and_intros <;> decide +kernel⟩,
   ⟨{ stl [] with coh := { salvTurn := some 15, agents := [(agKey 15 5, { st := .M, data := List.replicate 64 9 })] } }, 15,
     by and_intros <;> decide +kernel⟩,
   ⟨{ stm [(.hub, hubDomainUp, 0)] with coh := { salvTurn := some 15, agents := [(agKey 15 5, { st := .M, data := List.replicate 64 9 })] } }, 15, 5,
     by and_intros <;> decide +kernel⟩,
   ⟨stl [], 0xFFFFFFFFFFFFFFFF, by and_intros <;> decide +kernel⟩,
   ⟨{ stm [(.coh, cohDumpStatBusy, 1)] with coh := { dump := some 4 } }, 4, by and_intros <;> decide +kernel⟩,
   ⟨{ stl [] with coh := { restarting := true } }, by and_intros <;> decide +kernel⟩,
   ⟨{ stl [(.hub, hubDomainRestarts, 15)] with coh := { restarting := true } }, by and_intros <;> decide +kernel⟩⟩

/-- States and operands that meet the hypotheses of each clause of MatrixOperationsRunThroughTheirPhases. -/
theorem witness_MatrixOperationsRunThroughTheirPhases :
    (∃ (s : State) (b : BayId) (op : MtxOp) (src : OpSrc) (sig : BitVec 8) (u : Upset), mmaAccepts s b op = true ∧ op.op = 1 ∧ op.start ≠ 3 ∧ op.kb ≠
      0 ∧ op.la.toNat % 2 ^ op.gang.toNat = 0 ∧ op.mfd.toNat < rd s (arrPage b op.la.toNat) arrMfdCount ∧
      ((let r := storeRead (storeUpset s b u) b (arrPage b op.la.toNat) (srcUnit src) (64 * (rd s (arrPage b op.la.toNat) arrMfdBase + op.mfd.toNat)) 64 .ok .none; mmaCheck r.2.2 b op (mfdOf r.1) = none))) ∧
    (∃ (s : State) (b : BayId) (a : ArrId) (o : ArrOp) (l : List ArrOp), arrGoes s b a.val = true ∧ (arrOf s b a.val).ops = o :: l ∧ o.phase = .issued
      ∧ o.late = false ∧ o.op.la.toNat = a.val ∧ o.op.gang = 0 ∧ o.op.start = 0) ∧
    (∃ (s : State) (b : BayId) (a : ArrId) (u : Upset) (o : ArrOp) (l : List ArrOp), (arrOf s b a.val).ops = o :: l ∧ o.phase = .arith ∧ o.op.wb =
      true) ∧
    (∃ (s : State) (b : BayId) (a : ArrId) (u : Upset) (o : ArrOp) (l : List ArrOp), (arrOf s b a.val).ops = o :: l ∧ o.phase = .arith ∧ o.op.wb =
      false ∧ escalates o o.sent = false ∧ o.late = false ∧ (arrOf s b a.val).accId.all (fun n => decide (n ≤ o.id)) = true) ∧
    (∃ (s : State) (b : BayId) (a : ArrId) (u : Upset) (o : ArrOp) (l : List ArrOp), (arrOf s b a.val).ops = o :: l ∧ o.phase = .drain ∧ (mfdOf
      o.mfd).fbA = 0 ∧ (mfdOf o.mfd).fbB = 0 ∧ o.late = false ∧ (arrOf s b a.val).accId.all (fun n => decide (n ≤ o.id)) = true) ∧
    (∃ (s : State) (b : BayId) (a : ArrId) (u : Upset) (o : ArrOp) (l : List ArrOp), (arrOf s b a.val).ops = o :: l ∧ o.phase = .recompute ∧ o.op.wb =
      false ∧ o.late = false ∧ (arrOf s b a.val).accId.all (fun n => decide (n ≤ o.id)) = true) ∧
    (∃ (s : State) (b : BayId) (a : ArrId), StateInv s ∧ pgState s (.arr b a) = 2 ∧ rd s (.arr b a) arrCheckEn = 1) ∧
    (∃ (s : State) (b : BayId) (a : ArrId), StateInv s ∧ pgState s (.arr b a) = 5 ∧ (arrOf s b a.val).selfTest = true ∧ (¬ (Page.arr b a).slot ∈
      s.heldReset)) :=
  ⟨⟨stb 0 { store := { bytes := putBytes [] 0 (mk 64 [(0,1,3),(1,1,3),(2,1,2),(8,4,64),(12,4,64),(16,4,256)]) } } (stl [(.arr 0 0, hdrState, 4), (.arr
     0 0, arrMfdCount, 1)]), 0,
     { op := 1, la := 0, gang := 0, start := 0, wb := false, kb := 1, mfd := 0, aAddr := 0, bAddr := 64, cAddr := 128, salt := 0 }, .queue 1, 0,
     .none, by and_intros <;> decide +kernel⟩,
   ⟨stb 0
     { arrays := [(7, { ops := [{ id := 5, op := { op := 1, la := 7, gang := 0, start := 0, wb := false, kb := 1, mfd := 0, aAddr := 0, bAddr := 64, cAddr := 128, salt := 0 }, member := 0, src := .queue 1, mfd := mk 64 [(0,1,3),(1,1,3),(2,1,2),(8,4,64),(12,4,64),(16,4,256)], sent := 0, seed := 0, chkCol := 0, phase := .issued, start := List.replicate 4096 0, startPoison := false, result := [], poison := false, checked := true, mismatch := false, satMarks := [], startMarks := [], trigger := 0 }] })] }
     (stl [(.arr 0 7, hdrState, 4)]), 0, 7,
     { id := 5, op := { op := 1, la := 7, gang := 0, start := 0, wb := false, kb := 1, mfd := 0, aAddr := 0, bAddr := 64, cAddr := 128, salt := 0 }, member := 0, src := .queue 1, mfd := mk 64 [(0,1,3),(1,1,3),(2,1,2),(8,4,64),(12,4,64),(16,4,256)], sent := 0, seed := 0, chkCol := 0, phase := .issued, start := List.replicate 4096 0, startPoison := false, result := [], poison := false, checked := true, mismatch := false, satMarks := [], startMarks := [], trigger := 0 },
     [], by and_intros <;> decide +kernel⟩,
   ⟨stb 0
     { arrays := [(7, { ops := [{ id := 5, op := { op := 1, la := 7, gang := 0, start := 0, wb := true, kb := 1, mfd := 0, aAddr := 0, bAddr := 64, cAddr := 128, salt := 0 }, member := 0, src := .queue 1, mfd := mk 64 [(0,1,3),(1,1,3),(2,1,2),(8,4,64),(12,4,64),(16,4,256)], sent := 0, seed := 0, chkCol := 0, phase := .arith, start := List.replicate 4096 0, startPoison := false, result := [], poison := false, checked := true, mismatch := false, satMarks := [], startMarks := [], trigger := 0 }] })] }
     (stl [(.arr 0 7, hdrState, 4)]), 0, 7, .none,
     { id := 5, op := { op := 1, la := 7, gang := 0, start := 0, wb := true, kb := 1, mfd := 0, aAddr := 0, bAddr := 64, cAddr := 128, salt := 0 }, member := 0, src := .queue 1, mfd := mk 64 [(0,1,3),(1,1,3),(2,1,2),(8,4,64),(12,4,64),(16,4,256)], sent := 0, seed := 0, chkCol := 0, phase := .arith, start := List.replicate 4096 0, startPoison := false, result := [], poison := false, checked := true, mismatch := false, satMarks := [], startMarks := [], trigger := 0 },
     [], by and_intros <;> decide +kernel⟩,
   ⟨stb 0
     { arrays := [(7, { ops := [{ id := 5, op := { op := 1, la := 7, gang := 0, start := 0, wb := false, kb := 1, mfd := 0, aAddr := 0, bAddr := 64, cAddr := 128, salt := 0 }, member := 0, src := .queue 1, mfd := mk 64 [(0,1,3),(1,1,3),(2,1,2),(8,4,64),(12,4,64),(16,4,256)], sent := 0, seed := 0, chkCol := 0, phase := .arith, start := List.replicate 4096 0, startPoison := false, result := [], poison := false, checked := true, mismatch := false, satMarks := [], startMarks := [], trigger := 0 }] })] }
     (stl [(.arr 0 7, hdrState, 4)]), 0, 7, .none,
     { id := 5, op := { op := 1, la := 7, gang := 0, start := 0, wb := false, kb := 1, mfd := 0, aAddr := 0, bAddr := 64, cAddr := 128, salt := 0 }, member := 0, src := .queue 1, mfd := mk 64 [(0,1,3),(1,1,3),(2,1,2),(8,4,64),(12,4,64),(16,4,256)], sent := 0, seed := 0, chkCol := 0, phase := .arith, start := List.replicate 4096 0, startPoison := false, result := [], poison := false, checked := true, mismatch := false, satMarks := [], startMarks := [], trigger := 0 },
     [], by and_intros <;> decide +kernel⟩,
   ⟨stb 0
     { arrays := [(7, { ops := [{ id := 5, op := { op := 1, la := 7, gang := 0, start := 0, wb := true, kb := 1, mfd := 0, aAddr := 0, bAddr := 64, cAddr := 128, salt := 0 }, member := 0, src := .queue 1, mfd := mk 64 [(0,1,3),(1,1,3),(2,1,2),(8,4,64),(12,4,64),(16,4,256)], sent := 0, seed := 0, chkCol := 0, phase := .drain, start := List.replicate 4096 0, startPoison := false, result := [1, 2], poison := false, checked := true, mismatch := false, satMarks := [], startMarks := [], trigger := 0 }] })] }
     (stl [(.arr 0 7, hdrState, 4)]), 0, 7, .none,
     { id := 5, op := { op := 1, la := 7, gang := 0, start := 0, wb := true, kb := 1, mfd := 0, aAddr := 0, bAddr := 64, cAddr := 128, salt := 0 }, member := 0, src := .queue 1, mfd := mk 64 [(0,1,3),(1,1,3),(2,1,2),(8,4,64),(12,4,64),(16,4,256)], sent := 0, seed := 0, chkCol := 0, phase := .drain, start := List.replicate 4096 0, startPoison := false, result := [1, 2], poison := false, checked := true, mismatch := false, satMarks := [], startMarks := [], trigger := 0 },
     [], by and_intros <;> decide +kernel⟩,
   ⟨stb 0
     { arrays := [(7, { ops := [{ id := 5, op := { op := 1, la := 7, gang := 0, start := 0, wb := false, kb := 1, mfd := 0, aAddr := 0, bAddr := 64, cAddr := 128, salt := 0 }, member := 0, src := .queue 1, mfd := mk 64 [(0,1,3),(1,1,3),(2,1,2),(8,4,64),(12,4,64),(16,4,256)], sent := 0, seed := 0, chkCol := 0, phase := .recompute, start := List.replicate 4096 0, startPoison := false, result := [], poison := false, checked := true, mismatch := false, satMarks := [], startMarks := [], trigger := 0 }] })] }
     (stl [(.arr 0 7, hdrState, 4)]), 0, 7, .none,
     { id := 5, op := { op := 1, la := 7, gang := 0, start := 0, wb := false, kb := 1, mfd := 0, aAddr := 0, bAddr := 64, cAddr := 128, salt := 0 }, member := 0, src := .queue 1, mfd := mk 64 [(0,1,3),(1,1,3),(2,1,2),(8,4,64),(12,4,64),(16,4,256)], sent := 0, seed := 0, chkCol := 0, phase := .recompute, start := List.replicate 4096 0, startPoison := false, result := [], poison := false, checked := true, mismatch := false, satMarks := [], startMarks := [], trigger := 0 },
     [], by and_intros <;> decide +kernel⟩,
   ⟨stl [(.arr 0 7, arrCheckEn, 1), (.arr 0 7, arrCheckMode, 1)], 0, 7, by and_intros <;> decide +kernel⟩,
   ⟨stb 0 { arrays := [(7, { selfTest := true })] } (stl [(.arr 0 7, hdrState, 5), (.arr 0 7, arrCheckMode, 2)]), 0, 7,
     by and_intros <;> decide +kernel⟩⟩

/-- States and operands that meet the hypotheses of each clause of VectorPassesRunAndComplete. -/
theorem witness_VectorPassesRunAndComplete :
    (∃ (s : State) (b : BayId) (op : VecOp) (q : QueueId) (sig : BitVec 8), vecAccepts s b = true) ∧
    (∃ (s : State) (b : BayId) (h : PassRun) (u : Upset), StateInv s ∧ (bayOf s b).vec = { running := none, held := some h } ∧ pgWorks s (.vec b) =
      true ∧ h.op.op = 1 ∧ h.op.n = 0 ∧ h.op.vpd.toNat < rd s (.vec b) vecVpdCount ∧ passCheck (stBytes (storeOf s b) (64 * rd s (.vec b) vecVpdBase +
      128 * h.op.vpd.toNat) 128) h.op [] = none) ∧
    (∃ (s : State) (b : BayId) (u : Upset) (r : PassRun), (bayOf s b).vec.running = some r ∧ 1024 * r.spans < r.op.n.toNat ∧ fieldAt r.vpd 7 1 < 16) ∧
    (∃ (s : State) (b : BayId) (r : PassRun), StateInv s ∧ (bayOf s b).vec.running = some r ∧ r.op.n.toNat ≤ 1024 * r.spans) :=
  ⟨⟨stl [(.vec 0, hdrState, 4)], 0, { op := 1, vpd := 0, n := 5, in0 := 0, out0 := 0 }, 3, 255, by decide +kernel⟩,
   ⟨stb 0 { vec := { held := some { id := 3, op := { op := 1, vpd := 0, n := 0, in0 := 0, out0 := 0 }, src := .queue 0, sig := 0 } } } (stl [(.vec 0,
     hdrState, 4), (.vec 0, vecVpdCount, 1), (.vec 0, vecPassSeq, 0xFFFFFFFF)]), 0,
     { id := 3, op := { op := 1, vpd := 0, n := 0, in0 := 0, out0 := 0 }, src := .queue 0, sig := 0 }, .none, by and_intros <;> decide +kernel⟩,
   ⟨stb 0
     { vec := { running := some { id := 3, op := { op := 1, vpd := 0, n := 1025, in0 := 0, out0 := 0 }, src := .queue 0, sig := 0, spans := 1, vpd := mk 128 [(0,1,2)] } } }
     (stl [(.vec 0, hdrState, 4)]), 0, .none,
     { id := 3, op := { op := 1, vpd := 0, n := 1025, in0 := 0, out0 := 0 }, src := .queue 0, sig := 0, spans := 1, vpd := mk 128 [(0,1,2)] },
     by and_intros <;> decide +kernel⟩,
   ⟨stb 0
     { vec := { running := some { id := 3, op := { op := 1, vpd := 0, n := 1024, in0 := 0, out0 := 0 }, src := .queue 0, sig := 0, spans := 1 } } }
     (stl [(.vec 0, hdrState, 4)]), 0,
     { id := 3, op := { op := 1, vpd := 0, n := 1024, in0 := 0, out0 := 0 }, src := .queue 0, sig := 0, spans := 1 },
     by and_intros <;> decide +kernel⟩⟩

/-- States and operands that meet the hypotheses of each clause of MoversTakeMoveAndComplete. -/
theorem witness_MoversTakeMoveAndComplete :
    (∃ (s : State) (b : BayId) (m : Fin 4) (op : MovOp) (q : QueueId) (sig : BitVec 8) (u : Upset), movAccepts s b m = true ∧ op.asel = 0 ∧
      op.di.toNat < rd s (.mov b m) engDescCount ∧
      ((let d := movDesc (stBytes (storeOf s b) (64 * (rd s (.mov b m) engDescBase + op.di.toNat)) 64); d.rows ≠ 0 ∧ d.rowLen ≠ 0 ∧ movForm d op.payload.length = none ∧ movCheck d op.payload.length = none))) ∧
    (∃ (s : State) (b : BayId) (m : Fin 4) (op : MovOp) (q : QueueId) (sig : BitVec 8), movAccepts s b m = true ∧ op.payload ≠ [] ∧ (op.space = false
      ∨ storeWritable (op.addr.toNat % 2 ^ 27) op.payload.length = true)) ∧
    (∃ (s : State) (b : BayId) (m : Fin 4) (op : MovOp) (q : QueueId), StateInv s ∧ movAccepts s b m = true ∧ op.payload = []) ∧
    (∃ (s : State) (b : BayId) (m : Fin 4) (r : MovRun) (ahead : Nat), pgWorks s (.mov b m) = true ∧ movList s b m = [r] ∧ r.performed = false ∧
      r.fail = none ∧ r.inline = none ∧ r.row = 0 ∧ r.pos = 0 ∧ (storeOf s b).carried = [] ∧ (storeOf s b).poison = [] ∧ (storeOf s b).ue = [] ∧
      Rising (storeOf s b).bytes ∧ r.bufPoison = false ∧
      ((let d := movDesc r.desc; d.kind = 0 ∧ d.srcSpace = 0 ∧ d.dstSpace = 0 ∧ d.afEn = false ∧ d.rows = 1 ∧ 0 < d.rowLen ∧ d.src % 256 + d.rowLen ≤ 256 ∧ d.dst % 256 + d.rowLen ≤ 256 ∧ inStore d.src d.rowLen = true ∧ storeWritable d.dst d.rowLen = true))) ∧
    (∃ (s : State) (b : BayId) (m : Fin 4) (r : MovRun) (ahead : Nat), pgWorks s (.mov b m) = true ∧ movList s b m = [r] ∧ r.performed = false ∧
      r.fail = none ∧ r.inline = none ∧ r.row = 0 ∧ r.pos = 0 ∧ (storeOf s b).carried = [] ∧ (storeOf s b).poison = [] ∧ (storeOf s b).ue = [] ∧
      Rising (storeOf s b).bytes ∧ r.bufPoison = false ∧
      ((let d := movDesc r.desc; d.kind = 1 ∧ d.fmtS = 2 ∧ d.fmtD = 2 ∧ d.srcSpace = 0 ∧ d.dstSpace = 0 ∧ d.afEn = false ∧ d.sentEn = false ∧ d.given = false ∧ d.rows = 1 ∧ d.rowLen = 1 ∧ d.sr = false ∧ inStore d.src 4 = true ∧ storeWritable d.dst 4 = true ∧ fieldAt (stBytes (storeOf s b) d.src 4) 0 4 = 0x3F800000))) ∧
    (∃ (s : State) (b : BayId) (m : Fin 4) (r : MovRun) (l : List MovRun), StateInv s ∧ pgWorks s (.mov b m) = true ∧ movList s b m = r :: l ∧
      r.inline = none ∧ r.performed = true ∧ r.outst = 0 ∧ r.fail = none ∧ r.lastHost = none) :=
  ⟨⟨stb 0 { store := { bytes := putBytes [] 0 (mk 64 [(8,8,256),(16,8,1024),(24,4,256),(28,4,1)]) } } (stl [(.mov 0 3, hdrState, 4), (.mov 0 3,
     engDescCount, 1)]), 0, 3, { asel := 0, di := 0, space := false, addr := 0, payload := [] }, 0, 7, .none, by and_intros <;> decide +kernel⟩,
   ⟨stl [(.mov 0 3, hdrState, 4)], 0, 3, { asel := 0, di := 0, space := true, addr := 512, payload := [1, 2, 3, 4] }, 0, 7,
     by and_intros <;> decide +kernel⟩,
   ⟨stl [(.mov 0 3, hdrState, 4)], 0, 3, { asel := 0, di := 0, space := true, addr := 512, payload := [] }, 0, by and_intros <;> decide +kernel⟩,
   ⟨stb 0
     { store := { bytes := putBytes [] 256 ([1, 2, 3, 0, 9]) }, movs := [(3, [{ id := 5, desc := mk 64 [(8,8,256),(16,8,1024),(24,4,256),(28,4,1)], inline := none, payload := [], src := .queue 1, sig := 0 }])] }
     (stl [(.mov 0 3, hdrState, 4)]), 0, 3,
     { id := 5, desc := mk 64 [(8,8,256),(16,8,1024),(24,4,256),(28,4,1)], inline := none, payload := [], src := .queue 1, sig := 0 }, 0,
     by and_intros <;> decide +kernel⟩,
   ⟨stb 0
     { store := { bytes := putBytes [] 256 (toLE 4 0x3F800000) }, movs := [(3, [{ id := 5, desc := mk 64 [(0,1,1),(2,1,2),(3,1,2),(8,8,256),(16,8,1024),(24,4,1),(28,4,1)], inline := none, payload := [], src := .queue 1, sig := 0 }])] }
     (stl [(.mov 0 3, hdrState, 4)]), 0, 3,
     { id := 5, desc := mk 64 [(0,1,1),(2,1,2),(3,1,2),(8,8,256),(16,8,1024),(24,4,1),(28,4,1)], inline := none, payload := [], src := .queue 1, sig := 0 },
     0, by and_intros <;> decide +kernel⟩,
   ⟨stb 0
     { ops := [{ id := 5, src := .queue 1, sig := 0, left := 1 }], movs := [(3, [{ id := 5, desc := mk 64 [(8,8,256),(16,8,1024),(24,4,256),(28,4,1)], inline := none, payload := [], src := .queue 1, sig := 0, performed := true }, { id := 5, desc := mk 64 [(8,8,256),(16,8,1024),(24,4,256),(28,4,1)], inline := none, payload := [], src := .queue 1, sig := 0 }])] }
     (stl [(.mov 0 3, hdrState, 4)]), 0, 3,
     { id := 5, desc := mk 64 [(8,8,256),(16,8,1024),(24,4,256),(28,4,1)], inline := none, payload := [], src := .queue 1, sig := 0, performed := true },
     [{ id := 5, desc := mk 64 [(8,8,256),(16,8,1024),(24,4,256),(28,4,1)], inline := none, payload := [], src := .queue 1, sig := 0 }],
     by and_intros <;> decide +kernel⟩⟩

/-- States and operands that meet the hypotheses of RemoteMoverOperationsSendTheirPackets. -/
theorem witness_RemoteMoverOperationsSendTheirPackets :
    ∃ (s : State) (b : BayId) (m : Fin 4) (r : MovRun) (pl : Nat), (StateInv s ∧ pgWorks s (.mov b m) = true ∧ movList s b m = [r] ∧ r.performed =
      false ∧ r.fail = none ∧ r.inline = none ∧ r.row = 0 ∧ r.pos = 0 ∧ r.outst = 0 ∧ r.bufPoison = false) ∧ (movDesc r.desc).afEn = false ∧ (movDesc
      r.desc).rows = 1 ∧ 0 < (movDesc r.desc).rowLen ∧ flwSt (flw s (movDesc r.desc).flow) = 1 ∧ rankPlace s (movDesc r.desc).rank = some pl ∧ pgState
      s (.flow (flowDie (movDesc r.desc).flow)) = 4 ∧ rankValid s = true ∧ (flw s (movDesc r.desc).flow).closing = false ∧ (flw s (movDesc
      r.desc).flow).unacked.length < 8 ∧ whoReach s (.mov b m r.id) (movDesc r.desc).flow = true :=
  ⟨{ stb 0 { store := { bytes := putBytes [] 256 ([1, 2, 3, 0, 9]) }, movs := [(3, [{ id := 5, desc := mk 64 [(0,1,2),(1,1,32),(8,8,256),(16,8,1024),(24,4,64),(28,4,1),(40,2,5),(44,4,9)], inline := none, payload := [], src := .queue 1, sig := 0 }])] } (stl [(.mov 0 3, hdrState, 4), (.flow 0, hdrState, 4), (.router 0, rtrRankValid, 1), (.router 0, hdrState, 4)]) with flows := [(9, { ctx0 := 1 <<< 34 })], catalogue := [(5, 0x8000000000000007)] },
    0, 3,
    { id := 5, desc := mk 64 [(0,1,2),(1,1,32),(8,8,256),(16,8,1024),(24,4,64),(28,4,1),(40,2,5),(44,4,9)], inline := none, payload := [], src := .queue 1, sig := 0 },
    7, by and_intros <;> decide +kernel, by and_intros <;> decide +kernel⟩

/-- States and operands that meet the hypotheses of each clause of GathersAndInvalidationsComplete. -/
theorem witness_GathersAndInvalidationsComplete :
    (∃ (s : State) (b : BayId) (g : Fin 2) (op : GthOp) (src : OpSrc) (u : Upset), StateInv s ∧ gthAccepts s b g = true ∧ op.op = 1 ∧ op.afs = 0 ∧
      op.di.toNat < rd s (.gth b g) engDescCount ∧ op.count = 0) ∧
    (∃ (s : State) (b : BayId) (g : Fin 2) (r : GthRun) (ahead : Nat), StateInv s ∧ pgWorks s (.gth b g) = true ∧ gthList s b g = [r] ∧ (gthDesc
      r.desc).space = 0 ∧ r.op.count = 1 ∧ r.addrs.length = 1 ∧ r.done = [] ∧ r.fail = none ∧ r.asked = 0) ∧
    (∃ (s : State) (b : BayId) (g : Fin 2) (r : GthRun), StateInv s ∧ pgWorks s (.gth b g) = true ∧ gthList s b g = [r] ∧ r.done.length =
      r.op.count.toNat ∧ r.fail = none) ∧
    (∃ (s : State) (b : BayId) (scope : BitVec 2) (asid : BitVec 16), StateInv s ∧ pgState s (.xlate b) ≠ 0 ∧ pgState s (.xlate b) ≠ 3 ∧ pgState s
      (.xlate b) ≠ 5 ∧ (bayOf s b).inval = none ∧ (bayOf s b).invalWait = []) ∧
    (∃ (s : State) (b : BayId) (v : Inval), StateInv s ∧ (bayOf s b).inval = some v ∧ (bayOf s b).invalWait = [] ∧ pgState s (.xlate b) ≠ 3 ∧ pgState
      s (.xlate b) ≠ 5) :=
  ⟨⟨stl [(.gth 0 1, hdrState, 4), (.gth 0 1, engDescCount, 1)], 0, 1, { op := 1, afs := 0, di := 0, count := 0, dst := 16 }, .queue 3, .none,
     by and_intros <;> decide +kernel⟩,
   ⟨stb 0
     { gths := [(1, [{ id := 5, op := { op := 1, afs := 0, di := 0, count := 1, dst := 16 }, desc := mk 64 [(4,4,64),(8,8,0),(16,8,64),(24,4,512),(28,4,64)], src := .queue 1, sig := 0, addrs := [(4096, false)] }])] }
     (stl [(.gth 0 1, hdrState, 4)]), 0, 1,
     { id := 5, op := { op := 1, afs := 0, di := 0, count := 1, dst := 16 }, desc := mk 64 [(4,4,64),(8,8,0),(16,8,64),(24,4,512),(28,4,64)], src := .queue 1, sig := 0, addrs := [(4096, false)] },
     0, by and_intros <;> decide +kernel⟩,
   ⟨stb 0
     { gths := [(1, [{ id := 5, op := { op := 1, afs := 0, di := 0, count := 1, dst := 16 }, desc := mk 64 [(4,4,64),(8,8,0),(16,8,64),(24,4,512),(28,4,64)], src := .queue 1, sig := 0, addrs := [(4096, false)], done := [0] }])] }
     (stl [(.gth 0 1, hdrState, 4)]), 0, 1,
     { id := 5, op := { op := 1, afs := 0, di := 0, count := 1, dst := 16 }, desc := mk 64 [(4,4,64),(8,8,0),(16,8,64),(24,4,512),(28,4,64)], src := .queue 1, sig := 0, addrs := [(4096, false)], done := [0] },
     by and_intros <;> decide +kernel⟩,
   ⟨stl [(.xlate 0, xlInvalVa, 4096)], 0, 2, 7, by and_intros <;> decide +kernel⟩,
   ⟨stb 0
     { inval := some { scope := 2, asid := 7, va := 4096 }, tlb := [{ vpn := 1, size := 12, asid := 7, pte := 0, ppn := 0 }, { vpn := 1, size := 0, asid := 8, pte := 0, ppn := 0 }] }
     (stl [(.xlate 0, hdrBusy, 1)]), 0, { scope := 2, asid := 7, va := 4096 }, by and_intros <;> decide +kernel⟩⟩

/-- States and operands that meet the hypotheses of each clause of SlotsOfLongWordsTakeEffect. -/
theorem witness_SlotsOfLongWordsTakeEffect :
    (∃ (s : State) (b : BayId) (q : QueueId) (v : Nat), (SoleSlot s b q 0 v none []) ∧ StateInv s ∧ bits v 19 16 = 0) ∧
    (∃ (s : State) (b : BayId) (q : QueueId) (v : Nat) (f : Frame), (SoleSlot s b q 0 v (some f) []) ∧ StateInv s ∧ bits v 19 16 = 1 ∧ f.off < f.len) ∧
    (∃ (s : State) (b : BayId) (q : QueueId) (v : Nat) (f : Frame), (SoleSlot s b q 0 v (some f) []) ∧ StateInv s ∧ bits v 19 16 = 3 ∧ f.off < f.len) ∧
    (∃ (s : State) (b : BayId) (q : QueueId) (v : Nat) (f : Frame), (SoleSlot s b q 0 v none [f]) ∧ StateInv s ∧ bits v 19 16 = 2) ∧
    (∃ (s : State) (b : BayId) (q : QueueId) (v : Nat), (SoleSlot s b q 0 v none []) ∧ ((∀ d, (queueOf s b q).decoded = [d] → slotFirst s b q 0 d.seq
      v = true)) ∧ StateInv s ∧ bits v 19 16 = 4 ∧ pgState s (.tgu b) = 4 ∧ (bayOf s b).tgu.queue.length < 4 ∧ (storeOf s b).carried = [] ∧ (storeOf s
      b).poison = [] ∧ (storeOf s b).ue = [] ∧ fieldAt (stBytes (storeOf s b) (64 * bits v 40 20) 64) 8 4 ≠ 0) ∧
    (∃ (s : State) (b : BayId) (q : QueueId) (v : Nat), (SoleSlot s b q 0 v none []) ∧ StateInv s ∧ bits v 19 16 = 5) ∧
    (∃ (s : State) (b : BayId) (q : QueueId) (v : Nat), (SoleSlot s b q 0 v none []) ∧ StateInv s ∧ bits v 19 16 = 6) ∧
    (∃ (s : State) (b : BayId) (q : QueueId) (v : Nat) (r : Recording), (SoleSlot s b q 0 v none []) ∧ StateInv s ∧ bits v 19 16 = 7 ∧ (queueOf s b
      q).recording = some r ∧ Rising (storeOf s b).bytes) ∧
    (∃ (s : State) (b : BayId) (q : QueueId) (v : Nat), (SoleSlot s b q 5 v none []) ∧ StateInv s ∧ bits v 19 16 = 0) ∧
    (∃ (s : State) (b : BayId) (q : QueueId) (v : Nat), (SoleSlot s b q 5 v none []) ∧ StateInv s ∧ bits v 19 16 = 1) ∧
    (∃ (s : State) (b : BayId) (q : QueueId) (v : Nat), (SoleSlot s b q 5 v none []) ∧ StateInv s ∧ bits v 19 16 = 2) ∧
    (∃ (s : State) (b : BayId) (q : QueueId) (v : Nat), (SoleSlot s b q 5 v none []) ∧ StateInv s ∧ bits v 19 16 = 3) ∧
    (∃ (s : State) (b : BayId) (q : QueueId) (v : Nat), (SoleSlot s b q 5 v none []) ∧ StateInv s ∧ bits v 19 16 = 4) ∧
    (∃ (s : State) (b : BayId) (q : QueueId) (v : Nat), (SoleSlot s b q 5 v none []) ∧ StateInv s ∧ bits v 19 16 = 5 ∧ (bayOf s b).ops = []) :=
  ⟨⟨stb 0
     { queues := [(3, { decoded := [{ slots := (List.range 6).map (fun k => if k = 0 then some (0x0) else none), thr := [], payload := [], raw := [], addr := none, ring := false, issued := [], checked := true, opens := none }], frames := [] })] }
     (stl [(.issue 0, hdrState, 4)]), 0, 3, 0x0, by unfold SoleSlot; refine ⟨?_, ?_, ?_, ?_, _, rfl, ?_⟩ <;> decide +kernel,
     by and_intros <;> decide +kernel⟩,
   ⟨stb 0
     { queues := [(3, { decoded := [{ slots := (List.range 6).map (fun k => if k = 0 then some (0x10000) else none), thr := [], payload := [], raw := [], addr := none, ring := false, issued := [], checked := true, opens := some { kind := .call, base := 1000, len := 4, off := 0, more := 0, pbase := 0, id := 0, sig := 0 } }], frames := [] })] }
     (stl [(.issue 0, hdrState, 4)]), 0, 3, 0x10000, { kind := .call, base := 1000, len := 4, off := 0, more := 0, pbase := 0, id := 0, sig := 0 },
     by unfold SoleSlot; refine ⟨?_, ?_, ?_, ?_, _, rfl, ?_⟩ <;> decide +kernel, by and_intros <;> decide +kernel⟩,
   ⟨stb 0
     { queues := [(3, { decoded := [{ slots := (List.range 6).map (fun k => if k = 0 then some (0x30000) else none), thr := [], payload := [], raw := [], addr := none, ring := false, issued := [], checked := true, opens := some { kind := .call, base := 1000, len := 4, off := 0, more := 0, pbase := 0, id := 0, sig := 0 } }], frames := [] })] }
     (stl [(.issue 0, hdrState, 4)]), 0, 3, 0x30000, { kind := .call, base := 1000, len := 4, off := 0, more := 0, pbase := 0, id := 0, sig := 0 },
     by unfold SoleSlot; refine ⟨?_, ?_, ?_, ?_, _, rfl, ?_⟩ <;> decide +kernel, by and_intros <;> decide +kernel⟩,
   ⟨stb 0
     { queues := [(3, { decoded := [{ slots := (List.range 6).map (fun k => if k = 0 then some (0x20000) else none), thr := [], payload := [], raw := [], addr := none, ring := false, issued := [], checked := true, opens := none }], frames := [{ kind := .call, base := 1000, len := 4, off := 4, more := 0, pbase := 0, id := 9, sig := 0 }] })] }
     (stl [(.issue 0, hdrState, 4)]), 0, 3, 0x20000, { kind := .call, base := 1000, len := 4, off := 4, more := 0, pbase := 0, id := 9, sig := 0 },
     by unfold SoleSlot; refine ⟨?_, ?_, ?_, ?_, _, rfl, ?_⟩ <;> decide +kernel, by and_intros <;> decide +kernel⟩,
   ⟨stb 0
     { queues := [(3, { decoded := [{ slots := (List.range 6).map (fun k => if k = 0 then some (0x140000) else none), thr := [], payload := [], raw := [], addr := none, ring := false, issued := [], checked := true, opens := none }], frames := [] })], store := { bytes := putBytes [] 64 (mk 64 [(8,4,32)]) } }
     (stl [(.issue 0, hdrState, 4), (.tgu 0, hdrState, 4)]), 0, 3, 0x140000,
     by unfold SoleSlot; refine ⟨?_, ?_, ?_, ?_, _, rfl, ?_⟩ <;> decide +kernel, fun d h => by cases h; decide +kernel,
     by and_intros <;> decide +kernel⟩,
   ⟨stb 0
     { queues := [(3, { decoded := [{ slots := (List.range 6).map (fun k => if k = 0 then some (0xff50000) else none), thr := [], payload := [], raw := [], addr := none, ring := false, issued := [], checked := true, opens := none }], frames := [] })] }
     (stl [(.issue 0, hdrState, 4), (.issue 0, issNotifyCount, 0xFFFFFF)]), 0, 3, 0xff50000,
     by unfold SoleSlot; refine ⟨?_, ?_, ?_, ?_, _, rfl, ?_⟩ <;> decide +kernel, by and_intros <;> decide +kernel⟩,
   ⟨stb 0
     { queues := [(3, { decoded := [{ slots := (List.range 6).map (fun k => if k = 0 then some (0xc80000760000) else none), thr := [], payload := [], raw := [], addr := none, ring := false, issued := [], checked := true, opens := none }], frames := [] })] }
     (stl [(.issue 0, hdrState, 4)]), 0, 3, 0xc80000760000, by unfold SoleSlot; refine ⟨?_, ?_, ?_, ?_, _, rfl, ?_⟩ <;> decide +kernel,
     by and_intros <;> decide +kernel⟩,
   ⟨stb 0
     { queues := [(3, { decoded := [{ slots := (List.range 6).map (fun k => if k = 0 then some (0x70000) else none), thr := [], payload := [], raw := [], addr := none, ring := false, issued := [], checked := true, opens := none }], frames := [], recording := some { list := 7, maxw := 100, copied := 5 } })] }
     (stl [(.issue 0, hdrState, 4)]), 0, 3, 0x70000, { list := 7, maxw := 100, copied := 5 },
     by unfold SoleSlot; refine ⟨?_, ?_, ?_, ?_, _, rfl, ?_⟩ <;> decide +kernel, by and_intros <;> decide +kernel⟩,
   ⟨stb 0
     { queues := [(3, { decoded := [{ slots := (List.range 6).map (fun k => if k = 5 then some (0x0) else none), thr := [], payload := [], raw := [], addr := none, ring := false, issued := [], checked := true, opens := none }], frames := [] })] }
     (stl [(.issue 0, hdrState, 4), (.issue 0, issQQseq 3, 0xFFFFFFFF)]), 0, 3, 0x0,
     by unfold SoleSlot; refine ⟨?_, ?_, ?_, ?_, _, rfl, ?_⟩ <;> decide +kernel, by and_intros <;> decide +kernel⟩,
   ⟨stb 0
     { queues := [(3, { decoded := [{ slots := (List.range 6).map (fun k => if k = 5 then some (0xfffffffff10000) else none), thr := [], payload := [], raw := [], addr := none, ring := false, issued := [], checked := true, opens := none }], frames := [] })] }
     (stl [(.issue 0, hdrState, 4), (.sync 0, syncCnt 15, 7)]), 0, 3, 0xfffffffff10000,
     by unfold SoleSlot; refine ⟨?_, ?_, ?_, ?_, _, rfl, ?_⟩ <;> decide +kernel, by and_intros <;> decide +kernel⟩,
   ⟨stb 0
     { queues := [(3, { decoded := [{ slots := (List.range 6).map (fun k => if k = 5 then some (0xfffffffff20000) else none), thr := [], payload := [], raw := [], addr := none, ring := false, issued := [], checked := true, opens := none }], frames := [] })] }
     (stl [(.issue 0, hdrState, 4), (.sync 0, syncCnt 15, 7)]), 0, 3, 0xfffffffff20000,
     by unfold SoleSlot; refine ⟨?_, ?_, ?_, ?_, _, rfl, ?_⟩ <;> decide +kernel, by and_intros <;> decide +kernel⟩,
   ⟨stb 0
     { queues := [(3, { decoded := [{ slots := (List.range 6).map (fun k => if k = 5 then some (0x3f30000) else none), thr := [], payload := [], raw := [], addr := none, ring := false, issued := [], checked := true, opens := none }], frames := [] })] }
     (stl [(.issue 0, hdrState, 4), (.sync 0, syncFlags, 2 ^ 63 + 1)]), 0, 3, 0x3f30000,
     by unfold SoleSlot; refine ⟨?_, ?_, ?_, ?_, _, rfl, ?_⟩ <;> decide +kernel, by and_intros <;> decide +kernel⟩,
   ⟨stb 0
     { queues := [(3, { decoded := [{ slots := (List.range 6).map (fun k => if k = 5 then some (0x3f40000) else none), thr := [], payload := [], raw := [], addr := none, ring := false, issued := [], checked := true, opens := none }], frames := [] })] }
     (stl [(.issue 0, hdrState, 4), (.sync 0, syncFlags, 2 ^ 63 + 1)]), 0, 3, 0x3f40000,
     by unfold SoleSlot; refine ⟨?_, ?_, ?_, ?_, _, rfl, ?_⟩ <;> decide +kernel, by and_intros <;> decide +kernel⟩,
   ⟨stb 0
     { queues := [(3, { decoded := [{ slots := (List.range 6).map (fun k => if k = 5 then some (0x50000) else none), thr := [], payload := [], raw := [], addr := none, ring := false, issued := [], checked := true, opens := none }], frames := [] })] }
     (stl [(.issue 0, hdrState, 4)]), 0, 3, 0x50000, by unfold SoleSlot; refine ⟨?_, ?_, ?_, ?_, _, rfl, ?_⟩ <;> decide +kernel,
     by and_intros <;> decide +kernel⟩⟩

/-- States and operands that meet the hypotheses of each clause of IssueQueuesTakeWordsAndStall. -/
theorem witness_IssueQueuesTakeWordsAndStall :
    (∃ (s : State) (b : BayId) (q : QueueId) (a : Option (BitVec 64)) (raw : List (BitVec 32)) (rest : List (Option (BitVec 64) × List (BitVec 32)))
      (slots : List (Option Nat)) (thr : List Nat) (pay : List Byte), StateInv s ∧ pgState s (.issue b) = 4 ∧ Rising (bayOf s b).queues ∧ (queueOf s b
      q).words = (a, raw) :: rest ∧ (queueOf s b q).decoded = [] ∧ (queueOf s b q).frames = [] ∧ (queueOf s b q).recording = none ∧ decodeWord raw
      (arrCount s b) (fun n => rd s (.issue b) (issQParam q.val n)) 0 = .inl (slots, thr, pay) ∧ slots.getD 0 none = none ∧ ((∃ i, i < 6 ∧ (slots.getD
      i none).isSome = true))) ∧
    (∃ (s : State) (s1 : State) (s2 : State) (b : BayId) (q : QueueId) (chk : Check) (h : List (BitVec 32)) (ws : List (BitVec 32)), StateInv s ∧
      pgState s (.issue b) = 4 ∧ rd s (.issue b) (issQQcfg q.val) = 1 ∧ rd s (.issue b) (issQRingSize q.val) ≠ 0 ∧ rd s (.issue b) (issQProd q.val) ≠
      rd s (.issue b) (issQCons q.val) ∧ ringWords b (rd s (.issue b) (issQRingBase q.val)) (rd s (.issue b) (issQRingSize q.val)) chk 1 (rd s (.issue
      b) (issQCons q.val)) [] s = ((.ok [], h), s1) ∧ (rd s (.issue b) (issQProd q.val) + 2 ^ 32 - rd s (.issue b) (issQCons q.val)) % 2 ^ 32 ≤ rd s
      (.issue b) (issQRingSize q.val) ∧ wordLen (wAt h 0) ≤ (rd s (.issue b) (issQProd q.val) + 2 ^ 32 - rd s (.issue b) (issQCons q.val)) % 2 ^ 32 ∧
      queueRoom s1 b q (wordLen (wAt h 0)) = true ∧ ringWords b (rd s (.issue b) (issQRingBase q.val)) (rd s (.issue b) (issQRingSize q.val)) chk
      (wordLen (wAt h 0)) (rd s (.issue b) (issQCons q.val)) [] s1 = ((.ok [], ws), s2) ∧ StateInv s2) ∧
    (∃ (s : State) (b : BayId) (q : QueueId) (f : Frame), StateInv s ∧ pgState s (.issue b) = 4 ∧ Rising (bayOf s b).queues ∧ (queueOf s b q).frames =
      [f] ∧ (queueOf s b q).decoded = [] ∧ f.off = f.len ∧ f.more = 0) ∧
    (∃ (s : State) (b : BayId) (q : QueueId) (n : BitVec 32), StateInv s ∧ pgState s (.issue b) ≠ 0) ∧
    (∃ (s : State) (b : BayId) (f : Fin 4) (v : BitVec 64), StateInv s ∧ pgState s (.issue b) ≠ 0 ∧ afRoom s b f.val = true) ∧
    (∃ (s : State) (b : BayId) (f : Fin 4) (v : BitVec 64), StateInv s ∧ pgState s (.issue b) ≠ 0 ∧ afRoom s b f.val = false) ∧
    (∃ (s : State) (b : BayId) (mask : BitVec 64), StateInv s ∧ pgState s (.sync b) ≠ 0) ∧
    (∃ (s : State) (b : BayId) (mask : BitVec 64), StateInv s ∧ pgState s (.sync b) ≠ 0) ∧
    (∃ (s : State) (b : BayId) (n : Fin 16) (v : BitVec 32), StateInv s ∧ pgState s (.sync b) ≠ 0) ∧
    (∃ (s : State) (b : BayId) (n : Fin 16) (v : BitVec 32), StateInv s ∧ pgState s (.sync b) ≠ 0) ∧
    (∃ (s : State) (b : BayId) (qs : List QueueId) (w : Option (Nat × Nat)), StateInv s ∧ quiet s b = some (qs, w)) ∧
    (∃ (s : State) (p : Page), StateInv s ∧ p.runctl = true ∧ pgState s p = 4) :=
  ⟨⟨stb 0 { queues := [(3, { words := [(none, [0xa03020, 0, 0]), (none, [])] })] } (stl [(.issue 0, hdrState, 4)]), 0, 3, none, [0xa03020, 0, 0],
     [(none, [])], [none, none, none, none, none, some 0], [0, 0, 0, 0, 0, 0], [], by and_intros <;> decide +kernel⟩,
   ⟨ringS, ringS1, ringS2, 0, 3, .ok, [0xa03020], [0xa03020, 0, 0], by and_intros <;> decide +kernel⟩,
   ⟨stb 0
     { queues := [(3, { frames := [{ kind := .call, base := 1000, len := 4, off := 4, more := 0, pbase := 0, id := 9, sig := 0 }], words := [(none, [1])] })] }
     (stl [(.issue 0, hdrState, 4)]), 0, 3, { kind := .call, base := 1000, len := 4, off := 4, more := 0, pbase := 0, id := 9, sig := 0 },
     by and_intros <;> decide +kernel⟩,
   ⟨stl [(.issue 0, issQProd 3, 0xFFFFFFFF)], 0, 3, 2, by and_intros <;> decide +kernel⟩,
   ⟨stb 0 { afifo := [(3, List.replicate 255 7)] } (stl [(.issue 0, issAfLevel 3, 255)]), 0, 3, 5, by and_intros <;> decide +kernel⟩,
   ⟨stb 0 { afifo := [(3, List.replicate 256 7)] } (stl [(.issue 0, issAfLevel 3, 255)]), 0, 3, 5, by and_intros <;> decide +kernel⟩,
   ⟨stl [(.sync 0, syncFlags, 2 ^ 63 + 1)], 0, 0xFFFFFFFF00000000, by and_intros <;> decide +kernel⟩,
   ⟨stl [(.sync 0, syncFlags, 2 ^ 63 + 1)], 0, 0xFFFFFFFF00000000, by and_intros <;> decide +kernel⟩,
   ⟨stl [], 0, 15, 0xFFFFFFFF, by and_intros <;> decide +kernel⟩,
   ⟨stl [(.sync 0, syncCnt 15, 9)], 0, 15, 0xFFFFFFFF, by and_intros <;> decide +kernel⟩,
   ⟨stb 0
     { queues := [(3, { decoded := [{ slots := (List.range 6).map (fun k => if k = 5 then some 0x80 else none), thr := [], payload := [], raw := [], addr := none, ring := false, issued := [], checked := true }] })] }
     (stl [(.issue 0, hdrState, 4)]), 0, [3], none, by and_intros <;> decide +kernel⟩,
   ⟨inSt (.mov 0 0) 4, (.mov 0 0), by and_intros <;> decide +kernel⟩⟩

/-- States and operands that meet the hypotheses of each clause of DocentPushesWaitsAndReads. -/
theorem witness_DocentPushesWaitsAndReads :
    (∃ (s : State) (b : BayId) (rd' : Fin 32) (rs1 : Fin 32) (rs2 : Fin 32) (q : QueueId) (ws : List (BitVec 32)), StateInv s ∧ docReady s b = true ∧
      Rising (bayOf s b).doc.x ∧ (docX s b rs2.val).toNat % 4 = q.val ∧ pushWord s b q (docX s b rs1.val).toNat = .ok ws ∧ pushFits s b q ws.length =
      true) ∧
    (∃ (s : State) (b : BayId) (rd' : Fin 32) (rs1 : Fin 32) (rs2 : Fin 32) (q : QueueId) (ws : List (BitVec 32)), StateInv s ∧ docReady s b = true ∧
      (docX s b rs2.val).toNat % 4 = q.val ∧ pushWord s b q (docX s b rs1.val).toNat = .ok ws ∧ pushFits s b q ws.length = false) ∧
    (∃ (s : State) (b : BayId) (rd' : Fin 32) (q : QueueId) (ws : List (BitVec 32)), StateInv s ∧ pgState s (.doc b) = 4 ∧ (bayOf s b).doc.stall =
      .push q rd' ws ∧ pushFits s b q ws.length = true) ∧
    (∃ (s : State) (b : BayId) (rs1 : Fin 32) (rs2 : Fin 32) (f : Fin 4), StateInv s ∧ docReady s b = true ∧ (docX s b rs2.val).toNat % 4 = f.val ∧
      afFits s b f.val = true) ∧
    (∃ (s : State) (b : BayId) (f : Fin 4) (v : BitVec 64), StateInv s ∧ pgState s (.doc b) = 4 ∧ (bayOf s b).doc.stall = .afp f v ∧ afFits s b f.val
      = true) ∧
    (∃ (s : State) (b : BayId) (rs1 : Fin 32) (rs2 : Fin 32) (w : BitVec 8) (t' : BitVec 32), StateInv s ∧ docReady s b = true ∧ BitVec.ofNat 8 (docX
      s b rs1.val).toNat = w ∧ BitVec.ofNat 32 (docX s b rs2.val).toNat = t' ∧ dcByteBad w.toNat = false) ∧
    (∃ (s : State) (b : BayId) (w : BitVec 8) (t' : BitVec 32), StateInv s ∧ pgState s (.doc b) = 4 ∧ (bayOf s b).doc.stall = .wait w t' ∧ docWaitOk s
      b w.toNat t'.toNat = true) ∧
    (∃ (s : State) (b : BayId) (rs1 : Fin 32), StateInv s ∧ docReady s b = true ∧ dcByteBad ((docX s b rs1.val).toNat % 256) = false) ∧
    (∃ (s : State) (b : BayId) (rd' : Fin 32) (rs1 : Fin 32), StateInv s ∧ docReady s b = true ∧ Rising (bayOf s b).doc.x ∧ dcByteBad ((docX s b
      rs1.val).toNat % 256) = false ∧ rd' ≠ 0) ∧
    (∃ (s : State) (b : BayId) (rd' : Fin 32) (rs1 : Fin 32) (rs2 : Fin 32) (v : Nat), StateInv s ∧ docReady s b = true ∧ Rising (bayOf s b).doc.x ∧
      rd' ≠ 0 ∧ sumField s b ((docX s b rs1.val).toNat % 4) ((docX s b rs2.val).toNat % 16) = some v) ∧
    (∃ (s : State) (b : BayId) (rs1 : Fin 32), StateInv s ∧ docReady s b = true ∧ dcByteBad ((docX s b rs1.val).toNat % 256) = true) :=
  ⟨⟨stb 0 { doc := { x := [(10, 0x10000), (11, 3)], dmem := putBytes [] 0 (toLE 4 0xA03020) } } (stl [(.doc 0, hdrState, 4), (.issue 0, hdrState,
     4)]), 0, 12, 10, 11, 3, [0xA03020, 0, 0], by and_intros <;> decide +kernel⟩,
   ⟨stb 0
     { doc := { x := [(10, 0x10000), (11, 3)], dmem := putBytes [] 0 (toLE 4 0xA03020) }, queues := [(3, { words := [(none, List.replicate 510 0)] })] }
     (stl [(.doc 0, hdrState, 4), (.issue 0, hdrState, 4)]), 0, 12, 10, 11, 3, [0xA03020, 0, 0], by and_intros <;> decide +kernel⟩,
   ⟨stb 0 { doc := { x := [(10, 0x10000), (11, 3)], stall := .push 3 12 [1, 2], dmem := putBytes [] 0 (toLE 4 0xA03020) } } (stl [(.doc 0, hdrState,
     4), (.doc 0, docStatusPushStall, 1)]), 0, 12, 3, [1, 2], by and_intros <;> decide +kernel⟩,
   ⟨stb 0 { doc := { x := [(10, 77), (11, 3)] } } (stl [(.doc 0, hdrState, 4)]), 0, 10, 11, 3, by and_intros <;> decide +kernel⟩,
   ⟨stb 0 { doc := { stall := .afp 3 77 } } (stl [(.doc 0, hdrState, 4), (.doc 0, docStatusAfpStall, 1)]), 0, 3, 77, by and_intros <;> decide +kernel⟩,
   ⟨stb 0 { doc := { x := [(10, 0xBF)] } } (stl [(.doc 0, hdrState, 4), (.sync 0, syncFlags, 2 ^ 63)]), 0, 10, 11, 0xBF, 0,
     by and_intros <;> decide +kernel⟩,
   ⟨stb 0 { doc := { stall := .wait 0x80 0 } } (stl [(.doc 0, hdrState, 4), (.sync 0, syncFlags, 1)]), 0, 0x80, 0, by and_intros <;> decide +kernel⟩,
   ⟨stb 0 { doc := { x := [(10, 0x80)] } } (stl [(.doc 0, hdrState, 4)]), 0, 10, by and_intros <;> decide +kernel⟩,
   ⟨stb 0 { doc := { x := [(10, 0xBF)] } } (stl [(.doc 0, hdrState, 4), (.sync 0, syncFlags, 2 ^ 63)]), 0, 31, 10, by and_intros <;> decide +kernel⟩,
   ⟨stb 0 { doc := { x := [(10, 3), (11, 0)] } } (stl [(.doc 0, hdrState, 4), (.vec 0, vecSlotSum 3, 9)]), 0, 31, 10, 11, (sumField (stl [(.vec 0,
     vecSlotSum 3, 9)]) 0 3 0).getD 0, by and_intros <;> decide +kernel⟩,
   ⟨stb 0 { doc := { x := [(10, 0x10)] } } (stl [(.doc 0, hdrState, 4)]), 0, 10, by and_intros <;> decide +kernel⟩⟩

/-- States and operands that meet the hypotheses of each clause of DocentRunsItsInstructions. -/
theorem witness_DocentRunsItsInstructions :
    (∃ (s : State) (b : BayId) (w : Nat) (ue : Bool), StateInv s ∧ docReady s b = true ∧ Rising (bayOf s b).doc.x ∧ (docPcV s b).toNat % 2 = 0 ∧
      (docPcV s b).toNat + 4 ≤ 0x10000 ∧ leNat (docBytes (bayOf s b).doc.imem (docPcV s b).toNat 4) = w ∧ leNat (docBytes (bayOf s b).doc.imem (docPcV
      s b).toNat 2) % 4 = 3 ∧ w % 128 = 0x13 ∧ bits w 14 12 = 0 ∧ bits w 11 7 ≠ 0) ∧
    (∃ (s : State) (b : BayId) (c : Bool), StateInv s ∧ docReady s b = true) ∧
    (∃ (s : State) (b : BayId) (ue : Bool) (de : Bool) (u : Upset), StateInv s ∧ docReady s b = true ∧ (docPcV s b).toNat % 2 ≠ 0) ∧
    (∃ (s : State) (b : BayId) (v : BitVec 64), StateInv s ∧ pgState s (.doc b) = 2 ∧ Rising (bayOf s b).doc.dmem ∧ Rising (bayOf s b).doc.imem) ∧
    (∃ (s : State) (b : BayId), StateInv s ∧ pgState s (.doc b) = 2) :=
  ⟨⟨stb 0 { doc := { x := [(6, 5)], imem := putBytes [] 0xFFFC (toLE 4 0xfff30293) } } (stl [(.doc 0, hdrState, 4), (.doc 0, docPc, 0xFFFC)]), 0,
     0xfff30293, false, by and_intros <;> decide +kernel⟩,
   ⟨inSt (.doc 0) 4, 0, true, by and_intros <;> decide +kernel⟩,
   ⟨stl [(.doc 0, hdrState, 4), (.doc 0, docPc, 1)], 0, true, false, .none, by and_intros <;> decide +kernel⟩,
   ⟨stl [(.doc 0, docMemAddrOffset, 8191)], 0, 0x0102030405060708, by and_intros <;> decide +kernel⟩,
   ⟨stb 0 { doc := { dmem := [(8, 4)], imem := [(8, 5)] } } (stl [(.doc 0, hdrState, 4), (.doc 0, hdrState, 2), (.doc 0, docMemAddrOffset, 1), (.doc
     0, docMemAddrSpace, 1)]), 0, by and_intros <;> decide +kernel⟩⟩

/-- States and operands that meet the hypotheses of each clause of ThreadGroupsExchangeFenceAndExit. -/
theorem witness_ThreadGroupsExchangeFenceAndExit :
    (∃ (s : State) (b : BayId) (g : Fin 64) (gr : Group) (p : Path) (rest : List Path) (bl : Block) (rd' : Fin 32) (rs1 : Fin 32) (rs2 : Fin 32),
      (GroupOn s b g gr p rest bl) ∧ StateInv s ∧ rd' ≠ 0) ∧
    (∃ (s : State) (b : BayId) (g : Fin 64) (gr : Group) (p : Path) (rest : List Path) (bl : Block), (GroupOn s b g gr p rest bl) ∧ StateInv s) ∧
    (∃ (s : State) (b : BayId) (g : Fin 64) (gr : Group) (p : Path) (rest : List Path) (bl : Block), (GroupOn s b g gr p rest bl) ∧ StateInv s ∧
      (lanesOf p.mask).length < bl.live ∧ bl.live ≤ 1024) ∧
    (∃ (s : State) (b : BayId) (g : Fin 64) (lane : Fin 32) (gr : Group) (p : Path) (rest : List Path), StateInv s ∧ pgWorks s (.tgu b) = true ∧
      groupOf s b g.val = some gr ∧ gr.paths = p :: rest ∧ bitOf p.mask.toNat lane.val = true ∧ p.hold = .fence false) :=
  ⟨⟨stg (grp 0 0 0x80000001 .none) {} [], 0, 63, (grp 0 0 0x80000001 .none), (pth 0x80000001 .none), [], blk7, 31, 5, 6,
     by unfold GroupOn; decide +kernel, by and_intros <;> decide +kernel⟩,
   ⟨stg (grp 2 0 0x80000001 .none) {} [], 0, 63, (grp 2 0 0x80000001 .none), (pth 0x80000001 .none), [], blk7, by unfold GroupOn; decide +kernel,
     by decide +kernel⟩,
   ⟨stg (grp 2 0 0x80000001 .none) {} [], 0, 63, (grp 2 0 0x80000001 .none), (pth 0x80000001 .none), [], blk7, by unfold GroupOn; decide +kernel,
     by and_intros <;> decide +kernel⟩,
   ⟨stg (grp 2 0 0x80000001 (.fence false)) {} [], 0, 63, 31, (grp 2 0 0x80000001 (.fence false)), (pth 0x80000001 (.fence false)), [],
     by and_intros <;> decide +kernel⟩⟩

/-- States and operands that meet the hypotheses of each clause of BarriersAndLocksHoldAndRelease. -/
theorem witness_BarriersAndLocksHoldAndRelease :
    (∃ (s : State) (b : BayId) (g : Fin 64) (g' : Fin 64) (gr : Group) (gr2 : Group) (p : Path) (rest : List Path) (bl : Block) (rs1 : Fin 32) (n :
      Fin 16) (l' : Nat), (GroupOn s b g gr p rest bl) ∧ StateInv s ∧ bl.barriers = [] ∧ g' ≠ g ∧ groupOf s b g'.val = some gr2 ∧ gr2.block = gr.block
      ∧ gr2.num ≠ gr.num ∧ l' ∈ liveLanes gr2 ∧ ((∀ l ∈ lanesOf p.mask, (thX (thOf gr l) rs1.val).toNat % 16 = n.val))) ∧
    (∃ (s : State) (b : BayId) (k : Fin 8) (n : Fin 16) (g : Fin 64) (gr : Group), StateInv s ∧ pgWorks s (.tgu b) = true ∧ groupOf s b g.val = some
      gr ∧ gr.block = k) ∧
    (∃ (s : State) (b : BayId) (k : Fin 8) (n : Fin 16) (bl : Block), StateInv s ∧ pgState s (.tgu b) = 4 ∧ blockOf s b k.val = some bl ∧ (mget {}
      bl.barriers n.val).begun = true ∧ rd s (.tgu b) hdrErr = 0) ∧
    (∃ (s : State) (b : BayId) (g : Fin 64) (gr : Group) (p : Path) (rest : List Path) (bl : Block) (rd' : Fin 32) (rs1 : Fin 32) (l : Nat) (a : Nat),
      (GroupOn s b g gr p rest bl) ∧ StateInv s ∧ lanesOf p.mask = [l] ∧ rd' ≠ 0 ∧ (thX (thOf gr l) rs1.val).toNat = a ∧ a % 8 = 0 ∧ fieldAt
      bl.launch.bytes 24 8 ≤ a ∧ a < fieldAt bl.launch.bytes 24 8 + fieldAt bl.launch.bytes 20 4 ∧ (storeOf s b).carried = [] ∧ (storeOf s b).poison =
      [] ∧ (storeOf s b).ue = [] ∧ Rising (storeOf s b).bytes) :=
  ⟨⟨stb 0
     { tgu := { blocks := [(7, some blk7)], groups := [(62, some { (grp 1 1 0x80000001 .none) with num := 2 }), (63, some (grp 15 0 0x80000001 .none))] } }
     (stm [(.tgu 0, hdrState, 4)]), 0, 63, 62, (grp 15 0 0x80000001 .none), { (grp 1 1 0x80000001 .none) with num := 2 }, (pth 0x80000001 .none), [],
     blk7, 5, 15, 0, by unfold GroupOn; decide +kernel, by and_intros <;> decide +kernel⟩,
   ⟨stg (grp 2 0 0x80000001 (.barDone 15)) {} [], 0, 7, 15, 63, (grp 2 0 0x80000001 (.barDone 15)), by and_intros <;> decide +kernel⟩,
   ⟨stb 0
     { tgu := { blocks := [(7, some { blk7 with barriers := [(15, { begun := true, arrived := [96, 127] })] })], groups := [(63, some (grp 2 0 0x80000001 .none))] } }
     (stl [(.tgu 0, hdrState, 4)]), 0, 7, 15, { blk7 with barriers := [(15, { begun := true, arrived := [96, 127] })] },
     by and_intros <;> decide +kernel⟩,
   ⟨stg (grp 0x40000FF8 0 0x80000000 .none) {} [], 0, 63, (grp 0x40000FF8 0 0x80000000 .none), (pth 0x80000000 .none), [], blk7, 31, 5, 31,
     0x40000FF8, by unfold GroupOn; decide +kernel, by and_intros <;> decide +kernel⟩⟩

/-- States and operands that meet the hypotheses of each clause of ThreadGroupsSubmitAndBlocksComplete. -/
theorem witness_ThreadGroupsSubmitAndBlocksComplete :
    (∃ (s : State) (b : BayId) (g : Fin 64) (gr : Group) (p : Path) (rest : List Path) (bl : Block) (rs1 : Fin 32) (rs2 : Fin 32) (w : Nat), (GroupOn
      s b g gr p rest bl) ∧ StateInv s ∧ (thX (thOf gr (firstLane p)) rs1.val).toNat % 256 = w ∧ byteV w = true ∧ byteBad w = false) ∧
    (∃ (s : State) (b : BayId) (g : Fin 64) (gr : Group) (p : Path) (rest : List Path) (bl : Block) (rs1 : Fin 32) (rs2 : Fin 32) (v : Nat), (GroupOn
      s b g gr p rest bl) ∧ StateInv s ∧ (thX (thOf gr (firstLane p)) rs1.val).toNat + 2 ^ 64 * (thX (thOf gr (firstLane p)) rs2.val).toNat = v ∧
      xtgBad v = false) ∧
    (∃ (s : State) (b : BayId) (g : Fin 64) (lane : Fin 32) (gr : Group) (p : Path) (rest : List Path), StateInv s ∧ pgWorks s (.tgu b) = true ∧
      groupOf s b g.val = some gr ∧ gr.paths = p :: rest ∧ bitOf p.mask.toNat lane.val = true) ∧
    (∃ (s : State) (b : BayId) (l : Launch) (rest : List Launch), StateInv s ∧ pgState s (.tgu b) = 4 ∧ (tguOf s b).queue = l :: rest ∧ launchBad
      l.desc l.bytes = false ∧ ((∃ k : Fin 8, blockOf s b k.val = none)) ∧ (fieldAt l.bytes 8 4 + 31) / 32 ≤ ((List.range 64).filter (fun g =>
      (groupOf s b g).isNone)).length) ∧
    (∃ (s : State) (s1 : State) (b : BayId) (g : Fin 64) (chk : Check) (gr : Group) (p : Path) (rest : List Path) (bl : Block) (pa : Nat) (w : Nat) (x
      : Byte) (ln : List Byte), (GroupOn s b g gr p rest bl) ∧ StateInv s ∧ groupReady s b g = some (gr, p, rest, s1) ∧ bayXlate s1 b 25 p.pc.toNat
      .exec = (.ok pa, s1) ∧ inDram s1 pa 4 = true ∧ mget [] (tguOf s b).icache (pa / 64) = x :: ln ∧ fieldAt (x :: ln) (pa % 64) 4 = w ∧ w % 128 =
      0x13 ∧ bits w 14 12 = 0 ∧ bits w 11 7 ≠ 0) ∧
    (∃ (s : State) (b : BayId) (ready : BitVec 64) (g : Fin 64) (o : Nat) (n : Nat) (w : Nat), StateInv s ∧ pgWorks s (.tgu b) = true ∧ readyGroups s
      b ready = [(g, o, n, w)] ∧ Rising (tguOf s b).groups) ∧
    (∃ (s : State) (b : BayId) (k : Fin 8) (l : Launch) (rest : List (Nat × Launch)), StateInv s ∧ pgState s (.tgu b) ≠ 0 ∧ (tguOf s b).ended =
      (k.val, l) :: rest) :=
  ⟨⟨stg (grp 0xBF 0 0x80000001 .none) {} [], 0, 63, (grp 0xBF 0 0x80000001 .none), (pth 0x80000001 .none), [], blk7, 5, 6, 0xBF,
     by unfold GroupOn; decide +kernel, by and_intros <;> decide +kernel⟩,
   ⟨stg (grp 0x110000 0 0x80000001 .none) {} [], 0, 63, (grp 0x110000 0 0x80000001 .none), (pth 0x80000001 .none), [], blk7, 5, 6, 0x110000,
     by unfold GroupOn; decide +kernel, by and_intros <;> decide +kernel⟩,
   ⟨stg (grp 0 0 0x80000001 (.fwait 0x80 0)) {} [(.sync 0, syncFlags, 1)], 0, 63, 0, (grp 0 0 0x80000001 (.fwait 0x80 0)), (pth 0x80000001 (.fwait
     0x80 0)), [], by and_intros <;> decide +kernel⟩,
   ⟨stq, 0, lch, [], by and_intros <;> decide +kernel⟩,
   ⟨addiS, addiS, 0, 63, .ok, (grp 2 7 0x80000001 .none), (pth 0x80000001 .none), [], blk7, 0x1000, 0xfff30293, 0x93, (toLE 4 0xfff30293).tail ++
     List.replicate 60 0, by unfold GroupOn; decide +kernel, by and_intros <;> decide +kernel⟩,
   ⟨stg (grp 2 7 0x80000001 .none) {} [], 0, 2 ^ 63, 63, 1, 3, 0, by and_intros <;> decide +kernel⟩,
   ⟨stb 0 { tgu := { ended := [(7, lch)] } } (stl [(.tgu 0, hdrState, 4)]), 0, 7, lch, [], by and_intros <;> decide +kernel⟩⟩

/-- States and operands that meet the hypotheses of each clause of CoresRunAndActOnCacheBlocks. -/
theorem witness_CoresRunAndActOnCacheBlocks :
    (∃ (s : State) (s1 : State) (n : CoreId) (d : List Byte) (w : Nat), StateInv s1 ∧ pgState s (.core n) = 4 ∧ coreIntr s n = none ∧ coreFetch s n =
      (.ok d, s1) ∧ d.length = 4 ∧ leNat d = w ∧ w % 128 = 0x13 ∧ bits w 14 12 = 0 ∧ bits w 11 7 ≠ 0 ∧ Rising (hartOf s1 n).x) ∧
    (∃ (s : State) (s1 : State) (n : CoreId) (d : List Byte), StateInv s1 ∧ pgState s (.core n) = 4 ∧ coreIntr s n = none ∧ coreFetch s n = (.ok d,
      s1) ∧ d.length = 4 ∧ leNat d = 0x73 ∧ modeOf s1 n = 3 ∧ Rising (hartOf s1 n).csr) ∧
    (∃ (s : State) (n : CoreId) (file : Fin 3), StateInv s ∧ pgState s (.core n) = 4) ∧
    (∃ (s : State) (n : CoreId) (fetch : Bool) (f : BitVec 34 × Fin 4 × Nat) (l : List (BitVec 34 × Fin 4 × Nat)), StateInv s ∧ fillsOf (hartOf s n)
      fetch = f :: l) ∧
    (∃ (s : State) (n : CoreId), StateInv s ∧ pgState s (.core n) = 4) ∧
    (∃ (s : State) (n : CoreId) (lv : PrivLevel) (line : BitVec 34), StateInv s ∧ pgState s (.core n) = 4 ∧ privHas (hartOf s n) lv line.toNat = true
      ∧ privDirty (hartOf s n) lv line.toNat = false) ∧
    (∃ (s : State) (n : CoreId) (va : BitVec 64), StateInv s ∧ Rising s.coh.agents ∧ pgState s (.core n) = 4 ∧ dataMode s n .read = 3 ∧ modeOf s n = 3
      ∧ inDram s (va.toNat / 64 * 64) 64 = true ∧ lineBusy s (coreDie n) (va.toNat / 64) true = false) :=
  ⟨⟨coreS, (coreFetch coreS 7).2, 7, toLE 4 0xfff30293, 0xfff30293, by and_intros <;> decide +kernel⟩,
   ⟨coreE, (coreFetch coreE 7).2, 7, toLE 4 0x73, by and_intros <;> decide +kernel⟩,
   ⟨inSt (.core 7) 4, 7, 2, by and_intros <;> decide +kernel⟩,
   ⟨{ State.reset with harts := [(7, { fills := [(5, 2, 3)] })] }, 7, false, (5, 2, 3), [], by and_intros <;> decide +kernel⟩,
   ⟨coreS, 7, by and_intros <;> decide +kernel⟩,
   ⟨coreS, 7, .l1i, 0x40, by and_intros <;> decide +kernel⟩,
   ⟨stm [(.core 7, hdrState, 4)], 7, 0x1FF, by and_intros <;> decide +kernel⟩⟩

/-- States and operands that meet the hypotheses of each clause of FabricPortsTrainAndCarry. -/
theorem witness_FabricPortsTrainAndCarry :
    (∃ (s : State) (p : Fin 32) (bytes : List Byte), StateInv s ∧ portOn s p = true ∧ lstate s p = 1 ∧ frameOk bytes = true ∧ bytes = (portOf s
      p).lastFrame ∧ 2 ≤ (portOf s p).sameFrames ∧ fieldAt bytes 1 2 ≠ myPlace s ∧ held s = false) ∧
    (∃ (s : State) (p : Fin 32) (r : PeerRecord), StateInv s ∧ portOn s p = true ∧ lstate s p = 2 ∧ r.place.toNat = rd s (.fport p) fpNbrIdPlace ∧ rd
      s (.fport p) fpCfgMinWidth ≤ lanesIn (laneAnd r.lanes.toNat (rd s (.fport p) fpCfgLanes))) ∧
    (∃ (s : State) (p : Fin 32), StateInv s ∧ portOn s p = true ∧ lstate s p = 2) ∧
    (∃ (s : State) (p : Fin 32) (highNs : Nat), StateInv s ∧ held s = false ∧ 125 ≤ highNs ∧ highNs < 900 ∧ (portOf s p).lastHb = hbDecode highNs ∧ 3
      ≤ (portOf s p).sameHb ∧ rd s (.fport p) fpSbNbrHb ≠ hbDecode highNs) ∧
    (∃ (s : State) (p : Fin 32) (highNs : Nat), highNs < 125) ∧
    (∃ (s : State) (p : Fin 32) (f : FabricFlit) (fec : Fec) (second : Bool) (k : Packet), StateInv s ∧ portOn s p = true ∧ lstate s p = 3 ∧ f.kind =
      1 ∧ f.seq = (portOf s p).rxSeq ∧ f.body = .packet k ∧ fec ≠ .uncorrectable) ∧
    (∃ (s : State) (p : Fin 32) (f : FabricFlit) (fec : Fec) (crcOk : Bool), StateInv s ∧ portOn s p = true ∧ lstate s p = 3 ∧ (portOf s p).discarding
      = false ∧ (fec = .uncorrectable ∨ crcOk = false)) ∧
    (∃ (s : State) (p : Fin 32), StateInv s ∧ portOn s p = true ∧ lstate s p = 3 ∧ (portOf s p).nak = true ∧ (portOf s p).nakCount < 8) ∧
    (∃ (s : State) (p : Fin 32), StateInv s ∧ portOn s p = true ∧ lstate s p = 3 ∧ (portOf s p).nak = true ∧ 8 ≤ (portOf s p).nakCount) ∧
    (∃ (s : State) (p : Fin 32) (c : List Nat) (lost : BitVec 8) (i : Fin 8), StateInv s ∧ portOn s p = true ∧ lstate s p = 3 ∧ bitOf (rd s (.fport p)
      fpLinkLanesUp) i.val = true ∧ lost.getLsbD i.val = true) ∧
    (∃ (s : State) (p : Fin 32) (lane : Fin 8), StateInv s ∧ lstate s p = 4 ∧ bitOf (rd s (.fport p) fpLinkLanesUp) lane.val = true ∧ bitOf (rd s
      (.fport p) fpLaneFail) lane.val = true ∧ rd s (.fport p) fpCfgMinWidth ≤ lanesIn (clrBit (rd s (.fport p) fpLinkLanesUp) lane.val) ∧ laneAnd
      (clrBit (rd s (.fport p) fpLinkLanesUp) lane.val) (rd s (.fport p) fpLaneFail) = 0) :=
  ⟨⟨{ stm [(.fport 3, hdrState, 4), (.fport 3, fpLinkLstate, 1)] with ports := [(3, { lastFrame := [217, 7, 1, 35, 129], sameFrames := 2 })] }, 3,
     [217, 7, 1, 35, 129], by and_intros <;> decide +kernel⟩,
   ⟨stm [(.fport 3, hdrState, 4), (.fport 3, fpLinkLstate, 2), (.fport 3, fpNbrIdPlace, 263)], 3,
     { place := 263, port := 3, rank := 5, epoch := 7, lanes := 0xF0, rtt := 0 }, by and_intros <;> decide +kernel⟩,
   ⟨{ stm [(.fport 3, hdrState, 4), (.fport 3, fpLinkLstate, 2)] with ports := [(3, { lastFrame := [217, 7, 1, 35, 129], sameFrames := 2 })] }, 3,
     by and_intros <;> decide +kernel⟩,
   ⟨{ stm [(.fport 3, hdrState, 4), (.fport 3, fpSbTxPhase, 2), (.fport 3, fpSbNbrHb, 3)] with ports := [(3, { lastHb := hbDecode 250, sameHb := 3 })] },
     3, 250, by and_intros <;> decide +kernel⟩,
   ⟨stm [(.fport 3, hdrState, 4)], 3, 124, by decide +kernel⟩,
   ⟨stm [(.fport 3, hdrState, 4), (.fport 3, fpLinkLstate, 3)], 3,
     { seq := 0, kind := 1, ack := 0, nak := false, vc := 0, credit := [], body := .packet (pkt 1 9 7 0x1004 8 [1, 2]) }, .clean, true, pkt 1 9 7
     0x1004 8 [1, 2], by and_intros <;> decide +kernel⟩,
   ⟨stm [(.fport 3, hdrState, 4), (.fport 3, fpLinkLstate, 3), (.fport 3, fpNaks, 0xFFFFFFFF)], 3,
     { seq := 0, kind := 1, ack := 0, nak := false, vc := 0, credit := [], body := .packet (pkt 1 9 7 0x1004 8 [1, 2]) }, .clean, false,
     by and_intros <;> decide +kernel⟩,
   ⟨{ stm [(.fport 3, hdrState, 4), (.fport 3, fpLinkLstate, 3)] with ports := [(3, { nak := true, nakCount := 7 })] }, 3,
     by and_intros <;> decide +kernel⟩,
   ⟨{ stm [(.fport 3, hdrState, 4), (.fport 3, fpLinkLstate, 3)] with ports := [(3, { nak := true, nakCount := 8, buffer := [{ seq := 0, kind := 1, ack := 0, nak := false, vc := 0, credit := [], body := .packet (pkt 1 9 7 0x1004 8 [1, 2]) }] })] },
     3, by and_intros <;> decide +kernel⟩,
   ⟨stm [(.fport 3, hdrState, 4), (.fport 3, fpLinkLstate, 3), (.fport 3, fpLinkLanesUp, 255)], 3, [], 0x80, 7, by and_intros <;> decide +kernel⟩,
   ⟨stm [(.fport 3, hdrState, 4), (.fport 3, fpLinkLstate, 4), (.fport 3, fpLinkLanesUp, 255), (.fport 3, fpLaneFail, 128)], 3, 7,
     by and_intros <;> decide +kernel⟩⟩

/-- States and operands that meet the hypotheses of each clause of RoutersForwardAndFlowsOpen. -/
theorem witness_RoutersForwardAndFlowsOpen :
    (∃ (s : State) (f : Fin 2) (k : Packet), StateInv s ∧ (pgState s (.router f) = 4 ∨ pgState s (.router f) = 7) ∧ (f, k) ∈ s.netOut ∧
      k.dstPlace.toNat = myPlace s) ∧
    (∃ (s : State) (f : Fin 2) (k : Packet) (p : Fin 32), StateInv s ∧ (pgState s (.router f) = 4 ∨ pgState s (.router f) = 7) ∧ (f, k) ∉ s.netOut ∧
      p.val / 16 = f.val ∧ k ∈ (portOf s p).ingress ∧ ((∀ q : Fin 32, q < p → k ∉ (portOf s q).ingress)) ∧ k.dstPlace.toNat = myPlace s) ∧
    (∃ (s : State) (f : Fin 2) (k : Packet), StateInv s ∧ (pgState s (.router f) = 4 ∨ pgState s (.router f) = 7) ∧ (f, k) ∈ s.netOut ∧
      k.dstPlace.toNat ≠ myPlace s ∧ k.hops = 63) ∧
    (∃ (s : State) (f : Fin 2) (k : Packet) (p : Fin 32) (dl : Bool), StateInv s ∧ (pgState s (.router f) = 4 ∨ pgState s (.router f) = 7) ∧ (f, k) ∈
      s.netOut ∧ k.dstPlace.toNat ≠ myPlace s ∧ k.hops ≠ 63 ∧ routeChoice s f k = some (p, dl) ∧ (portOf s p).egress = [] ∧ mget 128 (portOf s
      p).credits (vcOf k.cls (k.level || dl)) ≠ 0 ∧ (portOf s p).buffer.length < 512 ∧ s.pins.jtag ≠ .boundaryScan) ∧
    (∃ (s : State) (f : Fin 2) (e : BitVec 32), StateInv s) ∧
    (∃ (s : State) (r : Fin 16384) (v : BitVec 64), StateInv s ∧ s.flows = []) ∧
    (∃ (s : State) (f : Fin 2), StateInv s ∧ flwSt (flw s (selFlow s f)) = 0) ∧
    (∃ (s : State) (f : Fin 2), StateInv s ∧ flwSt (flw s (selFlow s f)) = 1 ∧ (flw s (selFlow s f)).unacked = []) ∧
    (∃ (s : State) (f : Fin 2), StateInv s ∧ flwSt (flw s (selFlow s f)) = 1 ∧ (flw s (selFlow s f)).unacked ≠ []) ∧
    (∃ (s : State) (i : BitVec 18), StateInv s ∧ flwSt (flw s i.toNat) = 1 ∧ (flw s i.toNat).closing = true ∧ (flw s i.toNat).unacked = []) ∧
    (∃ (s : State) (f : Fin 2), StateInv s ∧ (flw s (selFlow s f)).owners = []) ∧
    (∃ (s : State) (f : Fin 2) (n : Fin 64) (satp : BitVec 64), StateInv s ∧ pgState s (.flow f) ≠ 0) :=
  ⟨⟨{ stm [(.router 1, hdrState, 4)] with netOut := [(1, { pkt 1 9 7 0x1004 8 [1, 2] with dstPlace := 63 })] }, 1,
     { pkt 1 9 7 0x1004 8 [1, 2] with dstPlace := 63 }, by and_intros <;> decide +kernel⟩,
   ⟨{ stm [(.router 1, hdrState, 4)] with ports := [(19, { ingress := [{ pkt 1 9 7 0x1004 8 [1, 2] with dstPlace := 63 }] })] }, 1,
     { pkt 1 9 7 0x1004 8 [1, 2] with dstPlace := 63 }, 19, by and_intros <;> decide +kernel⟩,
   ⟨{ stm [(.router 1, hdrState, 4)] with netOut := [(1, { pkt 1 9 7 0x1004 8 [1, 2] with hops := 63, dstPlace := 7 })] }, 1,
     { pkt 1 9 7 0x1004 8 [1, 2] with hops := 63, dstPlace := 7 }, by and_intros <;> decide +kernel⟩,
   ⟨{ stm [(.router 1, hdrState, 4), (.fport 19, fpLinkLstate, 3)] with netOut := [(1, { pkt 1 9 7 0x1004 8 [1, 2] with hops := 62, dstPlace := 7 })], routes := [(65536 + 7, 0xB3)], ports := [(19, { owed := [(1, 3)], nakDue := true })] },
     1, { pkt 1 9 7 0x1004 8 [1, 2] with hops := 62, dstPlace := 7 }, 19, true, by and_intros <;> decide +kernel⟩,
   ⟨{ stl [(.router 1, rtrRtIndex, 65535)] with routes := [(131071, 5)] }, 1, 0, by decide +kernel⟩,
   ⟨{ State.reset with catalogue := [(16383, 5)] }, 16383, 0x8000FFFFFFFF0007, by and_intros <;> decide +kernel⟩,
   ⟨{ stl [(.flow 1, flowSel, 131071)] with flows := [(262143, { ctx0 := 5, ctx1 := 6, ctx2 := 7 })] }, 1, by and_intros <;> decide +kernel⟩,
   ⟨{ stl [(.flow 1, flowSel, 131071)] with flows := [(262143, { ctx0 := 1 <<< 34, ctx1 := 6, ctx2 := 7 })] }, 1, by and_intros <;> decide +kernel⟩,
   ⟨{ stl [(.flow 1, flowSel, 131071)] with flows := [(262143, { ctx0 := 1 <<< 34, ctx1 := 6, unacked := [pkt 1 9 7 0x1004 8 [1, 2]] })] }, 1,
     by and_intros <;> decide +kernel⟩,
   ⟨{ stl [(.flow 1, flowSel, 131071)] with flows := [(262143, { ctx0 := 1 <<< 34, ctx1 := 6, closing := true })] }, 262143,
     by and_intros <;> decide +kernel⟩,
   ⟨{ stl [(.flow 1, flowSel, 131071)] with flows := [(262143, { ctx0 := 1 <<< 34, ctx1 := 6, unacked := [pkt 1 9 7 0x1004 8 [1, 2]] })] }, 1,
     by and_intros <;> decide +kernel⟩,
   ⟨{ stl [] with flowDies := [(1, { tlb := [(62, { vpn := 1, size := 12, asid := 0, pte := 0xDF, ppn := 1 }), (63, { vpn := 1, size := 12, asid := 0, pte := 0xDF, ppn := 1 })] })] },
     1, 63, 0xA000000000000005, by and_intros <;> decide +kernel⟩⟩

/-- States and operands that meet the hypotheses of each clause of PacketsAreAnsweredAndTaken. -/
theorem witness_PacketsAreAnsweredAndTaken :
    (∃ (s : State) (s2 : State) (k : Packet) (pa : Nat), StateInv s ∧ targetStatus s k = 0 ∧ rxNew (flw s k.dstFlow.toNat) k.psn.toNat = true ∧
      domRange (learnEpoch s k.dstFlow.toNat k.srcEpoch) (flowDie k.dstFlow.toNat) (flwDomain (flw s k.dstFlow.toNat)) k.addr.toNat k.len.toNat .write
      = (.inr [(pa, k.len.toNat)], s2) ∧ k.len.toNat < 256) ∧
    (∃ (s : State) (s2 : State) (s3 : State) (k : Packet) (pa : Nat) (pb : Nat), StateInv s ∧ targetStatus s k = 0 ∧ rxNew (flw s k.dstFlow.toNat)
      k.psn.toNat = true ∧ flwRx (flw s k.dstFlow.toNat) = k.psn.toNat ∧ 0 < k.len.toNat ∧ k.len.toNat < 256 ∧ k.addr.toNat % 256 + k.len.toNat ≤ 256
      ∧ domRange (learnEpoch s k.dstFlow.toNat k.srcEpoch) (flowDie k.dstFlow.toNat) (flwDomain (flw s k.dstFlow.toNat)) k.addr.toNat k.len.toNat
      .read = (.inr [(pa, k.len.toNat)], s2) ∧ domXlate s2 (flowDie k.dstFlow.toNat) (flwDomain (flw s2 k.dstFlow.toNat)) k.addr.toNat .read = (.ok
      pb, s3)) ∧
    (∃ (s : State) (s2 : State) (k : Packet) (pa : Nat), StateInv s ∧ targetStatus s k = 0 ∧ rxNew (flw s k.dstFlow.toNat) k.psn.toNat = true ∧ flwRx
      (flw s k.dstFlow.toNat) = k.psn.toNat ∧ k.tag.toNat / 16 = 8 ∧ domRange (learnEpoch s k.dstFlow.toNat k.srcEpoch) (flowDie k.dstFlow.toNat)
      (flwDomain (flw s k.dstFlow.toNat)) k.addr.toNat 8 .write = (.inr [(pa, 8)], s2)) ∧
    (∃ (s : State) (s2 : State) (k : Packet) (z : Bool) (hb : List Byte), (domPut (setFlw (learnEpoch s k.dstFlow.toNat k.srcEpoch) k.dstFlow.toNat
      { flw (learnEpoch s k.dstFlow.toNat k.srcEpoch) k.dstFlow.toNat with headSeen := (flw s k.dstFlow.toNat).headSeen }) (flowDie k.dstFlow.toNat)
      (flwDomain (flw s k.dstFlow.toNat)) ((flw s k.dstFlow.toNat).ctx2.toNat / 256 * 256 + 512 * (flwTail (flw s k.dstFlow.toNat) % 2 ^ ((flw s
      k.dstFlow.toNat).ctx3.toNat % 32))) (slice k.data 0 256 ++ toLE 8 (k.srcRank.toNat + k.len.toNat % 512 * 65536 + flwTail (flw s k.dstFlow.toNat)
      * 2 ^ 32)) k.poison = (.ok hb z, s2)) ∧ StateInv s ∧ targetStatus s k = 0 ∧ rxNew (flw s k.dstFlow.toNat) k.psn.toNat = true ∧ flwRx (flw s
      k.dstFlow.toNat) = k.psn.toNat ∧ (flwTail (flw s k.dstFlow.toNat) + 2 ^ 32 - (flw s k.dstFlow.toNat).headSeen.toNat) % 2 ^ 32 < 2 ^ ((flw s
      k.dstFlow.toNat).ctx3.toNat % 32)) ∧
    (∃ (s : State) (k : Packet), StateInv s ∧ targetStatus s k = 2) ∧
    (∃ (s : State) (k : Packet) (req : Packet) (o : FlowOwner) (b : BayId) (g : Fin 2) (id : Nat), ((∀ r ∈ gthList s b g, ∀ x ∈ r.addrs, x.2 = false))
      ∧ (StateInv s ∧ rspCheck s k = (true, s) ∧ (flw s k.dstFlow.toNat).owners = [o] ∧ (flw s k.dstFlow.toNat).unacked = [req] ∧ o.psn = k.psn.toNat
      ∧ req.psn = k.psn ∧ o.who = .gth b g id ∧ o.got = []) ∧ k.poison = false ∧ k.carried = false ∧ 0 < k.len.toNat ∧ k.data.length = k.len.toNat ∧
      req.addr.toNat ≤ k.addr.toNat ∧ k.addr.toNat + k.len.toNat ≤ req.addr.toNat + req.len.toNat ∧ 2 ≤ (req.addr.toNat + req.len.toNat - 1) / 256 -
      req.addr.toNat / 256 + 1 ∧ whoReach s o.who k.dstFlow.toNat = true ∧ Rising (storeOf s b).bytes) ∧
    (∃ (s : State) (k : Packet) (req : Packet) (o : FlowOwner) (b : BayId) (m : Fin 4) (r : MovRun), StateInv s ∧ rspCheck s k = (true, s) ∧ (flw s
      k.dstFlow.toNat).owners = [o] ∧ (flw s k.dstFlow.toNat).unacked = [req] ∧ o.psn = k.psn.toNat ∧ req.psn = k.psn ∧ o.who = .mov b m r.id ∧
      movList s b m = [r] ∧ r.fail = none ∧ k.poison = false) ∧
    (∃ (s : State) (k : Packet) (req : Packet) (o : FlowOwner) (b : BayId) (m : Fin 4) (r : MovRun), StateInv s ∧ rspCheck s k = (true, s) ∧ (flw s
      k.dstFlow.toNat).owners = [o] ∧ (flw s k.dstFlow.toNat).unacked = [req] ∧ o.psn = req.psn.toNat ∧ req.op = 1 ∧ psnBefore req.psn.toNat
      k.addr.toNat = true ∧ o.who = .mov b m r.id ∧ movList s b m = [r] ∧ r.fail = none) ∧
    (∃ (s : State) (k : Packet), StateInv s ∧ rspCheck s k = (true, s) ∧ k.status = 8) ∧
    (∃ (s : State) (i : BitVec 18), StateInv s ∧ flwSt (flw s i.toNat) = 1 ∧ (flw s i.toNat).unacked ≠ [] ∧ pgState s (.flow (flowDie i.toNat)) = 4 ∧
      (flw s i.toNat).retries < rd s (.flow (flowDie i.toNat)) flowRetry) :=
  ⟨⟨netS flow9 [], (domRange (learnEpoch (netS flow9 []) 9 258) 0 0 0x1004 8 .write).2, pkt 1 9 7 0x1004 8 [1, 2], 0x1004,
     by and_intros <;> decide +kernel⟩,
   ⟨netS flow9 [], (domRange (learnEpoch (netS flow9 []) 9 258) 0 0 0x1004 8 .read).2, (domXlate ((domRange (learnEpoch (netS flow9 []) 9 258) 0 0
     0x1004 8 .read).2) 0 0 0x1004 .read).2, pkt 2 9 7 0x1004 8 [], 0x1004, 0x1004, by and_intros <;> decide +kernel⟩,
   ⟨netS flow9 [], (domRange (learnEpoch (netS flow9 []) 9 258) 0 0 0x1008 8 .write).2, pkt 4 9 7 0x1008 16 (List.replicate 16 1), 0x1008,
     by and_intros <;> decide +kernel⟩,
   ⟨netS flow9 [], (domPut (setFlw (learnEpoch (netS flow9 []) 9 258) 9 { flw (learnEpoch (netS flow9 []) 9 258) 9 with headSeen := 0 }) 0 0 0x2000
     (slice [1, 2, 3, 4] 0 256 ++ toLE 8 (5 + 4 * 65536)) false).2, pkt 6 9 7 0 4 [1, 2, 3, 4], false, [], Prod.ext (by decide +kernel) rfl,
     by and_intros <;> decide +kernel⟩,
   ⟨{ netS flow9 [(.router 0, rtrRankValid, 0)] with netIn := [pkt 1 9 7 0x1004 8 [1, 2]] }, pkt 1 9 7 0x1004 8 [1, 2],
     by and_intros <;> decide +kernel⟩,
   ⟨{ { netS ({ flow9 with epochKnown := true, ctx1 := 258, owners := [{ psn := 7, who := .gth 0 1 5, dst := 1024 }], unacked := [pkt 2 9 7 0x10F0 64 []] }) [] with netIn := [{ pkt 3 9 7 0x10F0 16 (List.replicate 16 9) with srcEpoch := 258 }] } with bays := [(0, { gths := [(1, [{ id := 5, op := { op := 1, afs := 0, di := 0, count := 1, dst := 16 }, desc := [], src := .queue 1, sig := 0, addrs := [(0x10F0, false)], asked := 1 }])] })] },
     { pkt 3 9 7 0x10F0 16 (List.replicate 16 9) with srcEpoch := 258 }, pkt 2 9 7 0x10F0 64 [], { psn := 7, who := .gth 0 1 5, dst := 1024 }, 0, 1,
     5, addrs_false _ (by decide +kernel), by and_intros <;> decide +kernel, by and_intros <;> decide +kernel⟩,
   ⟨{ netS ({ flow9 with epochKnown := true, ctx1 := 258, owners := [{ psn := 7, who := .mov 0 3 5, dst := 1024 }], unacked := [pkt 4 9 7 0 8 []] }) [(.mov 0 3, hdrState, 4)] with bays := [(0, { movs := [(3, [{ id := 5, desc := [], inline := none, payload := [], src := .queue 1, sig := 0, outst := 1, performed := true }])] })] },
     pkt 5 9 7 0 8 (toLE 8 5), pkt 4 9 7 0 8 [], { psn := 7, who := .mov 0 3 5, dst := 1024 }, 0, 3,
     { id := 5, desc := [], inline := none, payload := [], src := .queue 1, sig := 0, outst := 1, performed := true },
     by and_intros <;> decide +kernel⟩,
   ⟨{ netS ({ flow9 with epochKnown := true, ctx1 := 258, owners := [{ psn := 7, who := .mov 0 3 5, dst := 1024 }], unacked := [pkt 1 9 7 0 8 []] }) [(.mov 0 3, hdrState, 4)] with bays := [(0, { movs := [(3, [{ id := 5, desc := [], inline := none, payload := [], src := .queue 1, sig := 0, outst := 1, performed := true }])] })] },
     pkt 7 9 9 8 0 [], pkt 1 9 7 0 8 [], { psn := 7, who := .mov 0 3 5, dst := 1024 }, 0, 3,
     { id := 5, desc := [], inline := none, payload := [], src := .queue 1, sig := 0, outst := 1, performed := true },
     by and_intros <;> decide +kernel⟩,
   ⟨netS ({ flow9 with epochKnown := true, ctx1 := 258 }) [], { pkt 8 9 7 0 0 [] with status := 8 }, by and_intros <;> decide +kernel⟩,
   ⟨netS ({ flow9 with epochKnown := true, ctx1 := 258, retries := 6, unacked := [pkt 2 9 7 0x10F0 64 []] }) [], 9, by and_intros <;> decide +kernel⟩⟩

/-- States and operands that meet the hypotheses of each clause of CollectiveQueuesFetch. -/
theorem witness_CollectiveQueuesFetch :
    (∃ (s : State) (f : Fin 2) (q : QueueId) (n : BitVec 32), StateInv s ∧ rd s (.ce f) (ceQBindEn q.val) = 0) ∧
    (∃ (s : State) (f : Fin 2) (q : QueueId) (b : BayId), StateInv s ∧ rd s (.ce f) (ceQBindEn q.val) = 1 ∧ rd s (.ce f) (ceQBindBay q.val) = b.val) ∧
    (∃ (s : State) (s1 : State) (s2 : State) (s3 : State) (f : Fin 2) (q : QueueId) (e : List Byte) (h : List Byte) (tb : List Byte) (v1 : Bool) (v2 :
      Bool) (v3 : Bool), (StateInv s3) ∧ (domReadV s f (ceDomain s f) ((rd s (.ce f) (ceQRingBase q.val) + 128 * (rd s (.ce f) (ceQCons q.val) % 2 ^
      rd s (.ce f) (ceQRingLog2 q.val))) % 2 ^ 64) 128 .ok = (.ok e false, v1, s1)) ∧ (domReadV (wrapAdd s1 (.ce f) (ceQCons q.val) 1) f (ceDomain s
      f) (fieldAt e 56 8) 16 .ok = (.ok h false, v2, s2)) ∧ (domReadV s2 f (ceDomain s f) (fieldAt e 56 8 + 16) (8 * fieldAt h 0 4) .ok = (.ok tb
      false, v3, s3)) ∧
      ((let n := fieldAt h 0 4; let self := fieldAt h 4 4; let ranks := (List.range n).map (fun i => (fieldAt tb (8 * i) 2, fieldAt tb (8 * i) 8 / 65536 % 2 ^ 18)); badGroup s3 { entry := e, n := n, self := self, root := rootOf s3 e ranks, peers := (cePeers (cOp e) (cAlg e) (cWire e) n self (rootOf s3 e ranks) (if cOp e = 6 then 0 else cCount e)).map (fun m => (m, (ranks.getD m (0, 0)).2, (ranks.getD m (0, 0)).1)) } ranks = false))
      ∧ StateInv s ∧ pgState s (.ce f) = 4 ∧ ceRun s f q = none ∧ s.job.held = false ∧ rd s (.ce f) (ceQProd q.val) ≠ rd s (.ce f) (ceQCons q.val) ∧
      ceOver s f q = false ∧ fieldAt e 8 2 = rd s (.ce f) hdrEpoch % 65536 ∧ fieldAt h 0 4 ≤ 16384 ∧ fieldAt h 4 4 < fieldAt h 0 4 ∧ badCmd e (fieldAt
      h 0 4) = false ∧ cOp e ≠ 4 ∧ badFormat e = false) ∧
    (∃ (s : State) (f : Fin 2) (q : QueueId) (c : Collective), StateInv s ∧ ceRun s f q = some c ∧ c.data = true ∧ rd s (.ce f) (ceQChunks q.val) ≠
      c.lastCount ∧ rd s (.ce f) ceWdogLimit ≠ 0) :=
  ⟨⟨stl [(.ce 0, ceQProd 1, 0xFFFFFFFF)], 0, 1, 0xFFFFFFFF, by and_intros <;> decide +kernel⟩,
   ⟨stl [(.ce 0, ceQBindEn 1, 1), (.ce 0, ceQBindBay 1, 47), (.ce 0, ceQBindCounter 1, 15), (.sync 47, syncCnt 15, 99)], 0, 1, 47,
     by and_intros <;> decide +kernel⟩,
   ⟨ceRingS, ceRingS1, ceRingS2, ceRingS3, 0, 1, (coll 6 0).entry, mk 16 [(0, 4, 2)], mk 16 [(0, 2, 3), (8, 2, 5), (10, 4, 9)], false, false, false,
     ce_ring_inv, ce_ring_entry, ce_ring_header, ce_ring_table, ce_ring_group, by and_intros <;> decide +kernel⟩,
   ⟨(let x := collS { coll 6 0 with data := true, lastCount := 3 }; { x with regs := (stl [(.ce 0, ceQChunks 1, 4)]).regs }), 0, 1,
     { coll 6 0 with data := true, lastCount := 3 }, by and_intros <;> decide +kernel⟩⟩

/-- States and operands that meet the hypotheses of each clause of CollectivesArriveReceiveAndComplete. -/
theorem witness_CollectivesArriveReceiveAndComplete :
    (∃ (s : State) (f : Fin 2) (q : QueueId) (c : Collective) (pl : Nat), (StateInv s ∧ ceRun s f q = some c ∧ c.begun = false ∧ c.data = false ∧
      c.tokSent = 0 ∧ c.round = 0 ∧ 2 ≤ c.n ∧ pgState s (.ce f) = 4) ∧ (mget ({} : CeUnit) s.ces 0).tokens = [] ∧ (mget ({} : CeUnit) s.ces 1).tokens
      = [] ∧ flwSt (flw s (cePeer c ((c.self + 1) % c.n)).1) = 1 ∧ rankPlace s (cePeer c ((c.self + 1) % c.n)).2 = some pl ∧ pgState s (.flow (flowDie
      (cePeer c ((c.self + 1) % c.n)).1)) = 4 ∧ rankValid s = true ∧ whoReach s (.ce f q) (cePeer c ((c.self + 1) % c.n)).1 = true ∧ (flw s (cePeer c
      ((c.self + 1) % c.n)).1).closing = false ∧ (flw s (cePeer c ((c.self + 1) % c.n)).1).unacked.length < 256) ∧
    (∃ (s : State) (k : Packet), StateInv s ∧ targetStatus s k = 0 ∧ rxNew (flw s k.dstFlow.toNat) k.psn.toNat = true ∧ ceFind s (bits k.addr.toNat 47
      32) k.dstFlow.toNat = none ∧ (mget ({} : CeUnit) s.ces (flowDie k.dstFlow.toNat).val).tokens.length < 4096) ∧
    (∃ (s : State) (k : Packet) (f : Fin 2) (q : QueueId) (c : Collective) (x : Xfer) (l : List Xfer), (StateInv s ∧ targetStatus s k = 0 ∧ rxNew (flw
      s k.dstFlow.toNat) k.psn.toNat = true ∧ ceFind s (bits k.addr.toNat 47 32) k.dstFlow.toNat = some (f, q) ∧ ceRun s f q = some c ∧ ceSched c = x
      :: l ∧ c.data = true ∧ pgState s (.ce f) = 4) ∧ x.send = false ∧ (¬ 0 ∈ c.moved) ∧ (cePeer c x.peer).1 = k.dstFlow.toNat ∧ x.step % 256 = bits
      k.addr.toNat 55 48 ∧ x.wirePos % 2 ^ 32 = k.addr.toNat % 2 ^ 32 ∧ wireBytes (cWire c.entry) x.len = k.len.toNat ∧ k.tag.toNat = cWire c.entry ∧
      k.poison = false) ∧
    (∃ (s : State) (f : Fin 2) (q : QueueId) (c : Collective), StateInv s ∧ pgState s (.ce f) = 4 ∧ ceRun s f q = some c ∧ cOp c.entry = 6 ∧ c.begun =
      true ∧ ceRounds c.n ≤ c.round ∧ c.data = false ∧ c.poisoned = false ∧ domStops s f (ceDomain s f) (entCpl c.entry) 16 = none ∧ Rising (mget ({}
      : CeUnit) s.ces f.val).running) ∧
    (∃ (len : Nat) (n : Nat) (i : Nat), 0 < n ∧ i < n) :=
  ⟨⟨collS (coll 1 0), 0, 1, coll 1 0, 7, by and_intros <;> decide +kernel, by and_intros <;> decide +kernel⟩,
   ⟨netS flow9 [], pkt 9 9 7 0x0003000500000000 0 [], by and_intros <;> decide +kernel⟩,
   ⟨collS { coll 4 1 with begun := true, data := true }, { pkt 9 9 7 0x0000000700000000 128 (List.replicate 128 1) with tag := 2 }, 0, 1,
     { coll 4 1 with begun := true, data := true }, { send := false, peer := 0, step := 0, pos := 0, wirePos := 0, len := 32, final := true }, [],
     by and_intros <;> decide +kernel, by and_intros <;> decide +kernel⟩,
   ⟨collS { coll 6 0 with begun := true, round := 1 }, 0, 1, { coll 6 0 with begun := true, round := 1 }, by and_intros <;> decide +kernel⟩,
   ⟨100, 3, 0, by and_intros <;> decide +kernel⟩⟩

/-- States and operands that meet the hypotheses of each clause of CensusAndVerdictsApply. -/
theorem witness_CensusAndVerdictsApply :
    (∃ (s : State) (d : Datagram), StateInv s ∧ ctrlFor s d = false) ∧
    (∃ (s : State) (d : Datagram), StateInv s ∧ s.ces = [] ∧ ctrlFor s d = true ∧ s.job.running = false ∧ rd s (.ce 0) ceJobFenced = 0) ∧
    (∃ (s : State) (f : Fin 2), StateInv s ∧ s.ces = [] ∧ pgState s (.ce f) ≠ 0 ∧ rd s (.ce 0) ceJobValid = 1 ∧ s.job.running = false ∧ rd s (.ce 0)
      ceJobFenced = 0) ∧
    (∃ (s : State) (d : Datagram) (pl : Nat), StateInv s ∧ ctrlFor s d = true ∧ s.job.running = true ∧ s.job.pledged = none ∧ rankPlace s (fieldAt
      d.payload 0 2) = some pl) ∧
    (∃ (s : State) (d : Datagram), StateInv s ∧ ctrlFor s d = true ∧ s.job.coordinating = true) ∧
    (∃ (s : State) (d : Datagram), StateInv s ∧ ctrlFor s d = true) ∧
    (∃ (s : State), s.job.running = true ∧ s.job.coordinating = false ∧ s.job.pledged ≠ none ∧ s.job.waits = 0) ∧
    (∃ (s : State) (r : Nat) (ty : Nat) (pl : Nat) (pay : List Byte), s.job.resend = [(r, ty, pay)] ∧ rankPlace s r = some pl) ∧
    (∃ (s : State) (f : Fin 2), StateInv s ∧ s.ces = [] ∧ pgState s (.ce f) ≠ 0 ∧ s.job.running = false) ∧
    (∃ (s : State) (d : Datagram) (epoch : Nat) (lead : Nat), StateInv s ∧ ctrlFor s d = true ∧ verdictOpen s d = false ∧ rd s (.ce 0) ceJobFenced = 0
      ∧ fieldAt d.payload 0 2 = epoch ∧ fieldAt d.payload 2 2 = lead ∧ s.job.verdictEpoch = epoch ∧ s.job.verdictLead = lead ∧ (minsert s.job.parts
      (fieldAt d.payload 4 1 % 16) (slice d.payload 5 128)).length = 16) ∧
    (∃ (s : State) (f : Fin 2) (rank : BitVec 16), StateInv s ∧ pgState s (.ce f) ≠ 0 ∧ rd s (.ce 0) ceJobValid = 1 ∧ rankValid s = true ∧ rd s (.ce
      0) ceLead = myRank s ∧ s.job.running = false ∧ rd s (.ce 0) ceJobFenced = 0) ∧
    (∃ (s : State) (d : Datagram), StateInv s ∧ s.ces = [] ∧ s.flows = [] ∧ ctrlFor s d = true ∧ rd s (.ce 0) ceJobFenced = 0) ∧
    (∃ (s : State) (f : Fin 2), StateInv s ∧ pgState s (.ce f) ≠ 0 ∧ rd s (.ce 0) ceJobFenced = 1 ∧ ((∀ p ∈ jobPages, pgState s p ≠ 7))) :=
  ⟨⟨jobS [(.ce 0, ceCtrlDrop, 0xFFFFFFFF)], { dgm 5 [] with jobEpoch := 9 }, by and_intros <;> decide +kernel⟩,
   ⟨jobS [], dgm 5 [], by and_intros <;> decide +kernel⟩,
   ⟨jobS [], 1, by and_intros <;> decide +kernel⟩,
   ⟨{ jobS [] with job := { running := true }, catalogue := [(5, 0x8000000000000007)] }, dgm 6 (toLE 2 5), 7, by and_intros <;> decide +kernel⟩,
   ⟨{ jobS [] with job := { running := true, coordinating := true, answers := [4] } }, dgm 5 [], by and_intros <;> decide +kernel⟩,
   ⟨{ jobS [] with job := { resend := [(5, 0x13, []), (4, 0x13, [])] } }, dgm 5 [], by and_intros <;> decide +kernel⟩,
   ⟨{ jobS [] with job := { running := true, pledged := some 4 } }, by and_intros <;> decide +kernel⟩,
   ⟨{ jobS [] with job := { resend := [(5, 0x13, [1])] }, catalogue := [(5, 0x8000000000000007)] }, 5, 0x13, 7, [1], by and_intros <;> decide +kernel⟩,
   ⟨{ jobS [] with job := { held := true } }, 1, by and_intros <;> decide +kernel⟩,
   ⟨{ jobS [] with job := { running := true, verdictEpoch := 9, verdictLead := 5, parts := (List.range 15).map (fun i => (i, List.replicate 128 (0 : Byte))) } },
     dgm 5 (toLE 2 9 ++ toLE 2 5 ++ [15] ++ List.replicate 128 1), 9, 5, by and_intros <;> decide +kernel⟩,
   ⟨jobS [(.ce 0, ceLead, 3), (.ce 0, ceJobEpoch, 65535)], 1, 6, by and_intros <;> decide +kernel⟩,
   ⟨jobS [(.doc 0, hdrState, 4), (.mov 3 2, hdrState, 4)], dgm 5 [], by and_intros <;> decide +kernel⟩,
   ⟨jobS [(.ce 0, ceJobFenced, 1)], 1, by and_intros <;> decide +kernel⟩⟩

/-- States and operands that meet the hypotheses of each clause of AccessionCarriesTheImage. -/
theorem witness_AccessionCarriesTheImage :
    (∃ (s : State) (f : Fin 2), StateInv s ∧ pgState s (.ce f) ≠ 0 ∧ rd s (.ce 0) ceJobValid = 1 ∧ rankValid s = true ∧ rd s (.ce 0) ceAccStatState =
      0 ∧ rd s (.ce 0) ceAccCfg = 1) ∧
    (∃ (s : State) (f : Fin 2), StateInv s ∧ pgState s (.ce f) ≠ 0 ∧ s.acc.running = true ∧ rd s (.ce 0) ceAccStatState = 2 ∧ chunkOk s 0 = false) ∧
    (∃ (s : State) (d : Datagram), StateInv s ∧ ctrlFor s d = true ∧ s.acc.running = true) ∧
    (∃ (s : State), StateInv s ∧ s.acc.running = true ∧ rd s (.ce 0) ceAccStatState = 1 ∧ s.acc.waitsLead = false ∧ s.acc.parent ≠ 0xFFFF ∧ s.acc.mode
      = 0) ∧
    (∃ (s : State), StateInv s ∧ held s = false ∧ rd s (.ce 0) ceAccStatState = 3) ∧
    (∃ (s : State), StateInv s ∧ s.acc.running = true ∧ rd s (.ce 0) ceAccStatState = 1 ∧ s.acc.waitsLead = true) ∧
    (∃ (s : State) (d : Datagram), StateInv s ∧ ctrlFor s d = true ∧ s.acc.running = true ∧ d.src.toNat = s.acc.parent ∧ s.acc.parentPort = 255 ∧
      chunkOk (ctrlGot s (fun _ t => t == 0x24)) (fieldAt d.payload 0 2) = false ∧ s.acc.failedOnce = []) ∧
    (∃ (s : State) (d : Datagram) (c : Child), StateInv s ∧ ctrlFor s d = true ∧ s.acc.running = true ∧ s.acc.children = [c] ∧ c.rank = d.src.toNat ∧
      c.cur = none ∧ c.redo = [] ∧ c.acked ≤ fieldAt d.payload 0 2 ∧ fieldAt d.payload 0 2 + 1 = c.sent ∧ c.sent = s.acc.total ∧ c.awaits = false) ∧
    (∃ (s : State) (d : Datagram) (c : Child), StateInv s ∧ ctrlFor s d = true ∧ s.acc.children = [c] ∧ c.rank = d.src.toNat ∧ c.awaits = true ∧ c.cur
      = none ∧ c.redo = [] ∧ s.acc.total = fieldAt d.payload 0 2 + 1 ∧ fieldAt d.payload 0 2 < 65535) ∧
    (∃ (s : State) (d : Datagram) (c : Child), StateInv s ∧ ctrlFor s d = true ∧ s.acc.children = [c] ∧ c.rank = d.src.toNat ∧ s.acc.orphans = []) ∧
    (∃ (s : State) (c : Child), StateInv s ∧ s.acc.running = true ∧ s.acc.children = [c] ∧ c.grand = [] ∧ c.done = false ∧ c.awaits = true ∧ c.rank <
      65536) ∧
    (∃ (s : State) (d : Datagram), StateInv s ∧ ctrlFor s d = true ∧ s.acc.running = true ∧ rd s (.ce 0) ceLead = myRank s ∧ s.acc.orphans = [] ∧
      s.acc.children = [] ∧ d.payload.length = 2) ∧
    (∃ (s : State) (p : Fin 32), StateInv s ∧ portOn s p = true ∧ rd s (.fport p) fpNbrIdValid = 1 ∧ s.acc.children = [] ∧ s.catalogue = []) ∧
    (∃ (s : State) (p : Fin 32), StateInv s ∧ portOn s p = true ∧ rd s (.fport p) fpNbrIdValid = 1 ∧ rd s (.fport p) fpSbNbrHb = 1 ∧ lstate s p = 3 ∧
      s.acc.children = [] ∧ s.catalogue = []) ∧
    (∃ (s : State) (p : Fin 32) (chunk : Byte), StateInv s ∧ held s = false ∧ s.acc.running = true ∧ rd s (.fport p) fpSbTxPhase = 1 ∧
      s.acc.parentPort = p.val ∧ s.acc.mode = 0) :=
  ⟨⟨jobS [(.ce 0, ceAccCfg, 1)], 1, by and_intros <;> decide +kernel⟩,
   ⟨{ jobS [(.ce 0, ceAccStatState, 2)] with acc := { running := true } }, 1, by and_intros <;> decide +kernel⟩,
   ⟨{ jobS [] with acc := { running := true, parent := 5, waitsLead := true } }, dgm 5 (toLE 2 6), by and_intros <;> decide +kernel⟩,
   ⟨{ jobS [(.ce 0, ceAccStatState, 1)] with acc := { running := true, parent := 5 } }, by and_intros <;> decide +kernel⟩,
   ⟨{ jobS [(.ce 0, ceAccStatState, 3)] with acc := { running := true, parent := 5 } }, by and_intros <;> decide +kernel⟩,
   ⟨{ jobS [(.ce 0, ceAccStatState, 1)] with acc := { running := true, parent := 0xFFFE, waitsLead := true } }, by and_intros <;> decide +kernel⟩,
   ⟨{ jobS [] with acc := { running := true, parent := 5 } }, dgm 5 (toLE 2 3), by and_intros <;> decide +kernel⟩,
   ⟨{ jobS [] with acc := { running := true, total := 4, children := [{ kid with sent := 4, acked := 2 }] } }, dgm 5 (toLE 2 3),
     { kid with sent := 4, acked := 2 }, by and_intros <;> decide +kernel⟩,
   ⟨{ jobS [] with acc := { running := true, total := 4, children := [{ kid with awaits := true }] } }, dgm 5 (toLE 2 3), { kid with awaits := true },
     by and_intros <;> decide +kernel⟩,
   ⟨{ jobS [] with acc := { running := true, children := [kid] } }, dgm 5 [], kid, by and_intros <;> decide +kernel⟩,
   ⟨{ jobS [] with acc := { running := true, children := [{ kid with awaits := true }] } }, { kid with awaits := true },
     by and_intros <;> decide +kernel⟩,
   ⟨{ jobS [(.ce 0, ceLead, 3)] with acc := { running := true } }, dgm 5 (toLE 2 6), by and_intros <;> decide +kernel⟩,
   ⟨jobS [(.fport 3, hdrState, 4), (.fport 3, fpNbrIdValid, 1), (.fport 3, fpLinkLstate, 3)], 3, by and_intros <;> decide +kernel⟩,
   ⟨jobS [(.fport 3, hdrState, 4), (.fport 3, fpNbrIdValid, 1), (.fport 3, fpLinkLstate, 3), (.fport 3, fpSbNbrHb, 1)], 3,
     by and_intros <;> decide +kernel⟩,
   ⟨{ jobS [(.fport 3, hdrState, 4), (.fport 3, fpSbTxPhase, 1)] with acc := { running := true, parent := 5, parentPort := 3 } }, 3, 0,
     by and_intros <;> decide +kernel⟩⟩

/-- States and operands that meet the hypotheses of each clause of HostsClaimAndTakeMessages. -/
theorem witness_HostsClaimAndTakeMessages :
    (∃ (s : State), StateInv s) ∧
    (∃ (s : State), StateInv s ∧ hostUp s = true ∧ rd s .host hostLinkUp = 1 ∧ hostLostNow s = true) ∧
    (∃ (s : State), StateInv s ∧ hostUp s = false ∧ s.hostPort.perstLow = false) ∧
    (∃ (s : State) (width : BitVec 4) (rate : BitVec 2), StateInv s ∧ s.hostPort.funcReset = false ∧ s.hostPort.perstLow = false ∧ rd s .hub
      hubClkstatHoldover = 0 ∧ (width = 4 ∨ width = 8) ∧ (rate = 1 ∨ rate = 2) ∧ rd s .host hostLinkUp = 0) ∧
    (∃ (s : State) (v : Nat), StateInv s ∧ s.hostPort.funcReset = false ∧ s.hostPort.msixOn = false ∧ (v ∈ mkeys s.hostPort.msixRaise ∨ (v < 41 ∧
      lineHeld s v = true))) ∧
    (∃ (s : State) (v : Fin 64), StateInv s ∧ hostUp s = true ∧ s.pins.jtag ≠ .boundaryScan ∧ s.hostPort.msixOn = true ∧ mget false
      s.hostPort.msixPend v.val = true ∧ s.hostPort.msixFuncMask = false ∧ mget false s.hostPort.msixMask v.val = false ∧ (domainUp s = true ∨ v.val =
      0) ∧ Rising s.hostPort.msixPend) ∧
    (∃ (s : State), StateInv s ∧ hostUp s = true ∧ rd s .host hostAttachAttached = 0) ∧
    (∃ (s : State) (key : BitVec 16), key ≠ 0xD5A7) ∧
    (∃ (s : State), StateInv s ∧ hostUp s = true ∧ rd s .host hostAttachAttached = 1 ∧ s.hostPort.detaching = false) ∧
    (∃ (s : State), StateInv s ∧ s.hostPort.detaching = true ∧ hostLines s = [] ∧ s.hostPort.bi = []) ∧
    (∃ (s : State) (line : BitVec 34), StateInv s ∧ pgState s .host ≠ 0 ∧ biOf s line.toNat ≠ 0 ∧ hostLostNow s = false ∧ hostLines s = [] ∧
      s.hostPort.dma = []) :=
  ⟨⟨sthp [(.host, hostLinkIde, 1)] { msixOn := true, msixPend := [(3, true)] }, by decide +kernel⟩,
   ⟨sthp [(.host, hostAttachAttached, 0), (.host, hostAttachCause, 1)] { funcReset := false, msixOn := true }, by and_intros <;> decide +kernel⟩,
   ⟨{ sth [(.host, hostLinkUp, 0)] with hostPort := { perstLow := false, funcReset := false, msixOn := true } }, by and_intros <;> decide +kernel⟩,
   ⟨sthp [(.host, hostLinkUp, 0), (.hub, hdrEvtEn, 0)] { perstLow := false, funcReset := false }, 8, 2, by and_intros <;> decide +kernel⟩,
   ⟨sthp [] { funcReset := false, msixRaise := [(50, true)] }, 50, by and_intros <;> decide +kernel⟩,
   ⟨sthp [] { msixOn := true, msixPend := [(63, true)] }, 63, by and_intros <;> decide +kernel⟩,
   ⟨sth [(.host, hostAttachAttached, 0), (.host, hostAttachGen, 65535), (.host, hostAttachOrphaned, 1)], by and_intros <;> decide +kernel⟩,
   ⟨sth [], 0xD5A6, by decide +kernel⟩,
   ⟨{ sth [] with coh := { (sth []).coh with agents := [(16 * 2 ^ 34 + 5, { st := .S }), (16 * 2 ^ 34 + 6, { st := .M })] } },
     by and_intros <;> decide +kernel⟩,
   ⟨sthp [] { detaching := true }, by and_intros <;> decide +kernel⟩,
   ⟨sthp [] { bi := [(5, 1)] }, 5, by and_intros <;> decide +kernel⟩⟩

/-- States and operands that meet the hypotheses of each clause of ExhibitWindowServesTheHost. -/
theorem witness_ExhibitWindowServesTheHost :
    (∃ (s : State) (line : BitVec 34) (m : Meta) (data : BitVec 512) (mask : BitVec 64) (p : Bool) (chk : Check), StateInv s ∧ hostUp s = true ∧
      windowOpen s = false ∧ windowBeyond s line.toNat = false) ∧
    (∃ (s : State) (line : BitVec 34) (chk : Check) (d : List Byte) (p : Bool) (s2 : State), StateInv s ∧ hostUp s = true ∧ windowRefuses s line.toNat
      = false ∧ hostWaits s (windowLine s line.toNat) = false ∧ hostTrk s (windowLine s line.toNat) = 0) ∧
    (∃ (s : State) (line : BitVec 34), StateInv s ∧ Rising s.coh.agents ∧ hostUp s = true ∧ domainUp s = true ∧ windowBeyond s line.toNat = false ∧
      hostWaits s (windowLine s line.toNat) = false ∧ (hostTrk s (windowLine s line.toNat) = 1 ∨ hostTrk s (windowLine s line.toNat) = 2)) ∧
    (∃ (s : State) (line : BitVec 34) (d : Option (BitVec 512)), StateInv s ∧ Rising s.hostPort.bi ∧ biOf s line.toNat ≠ 0 ∧ hostUp s = true ∧
      s.pins.jtag ≠ .boundaryScan ∧ hostTrk s line.toNat = 0) :=
  ⟨⟨sth [(.host, hostExwCfg, 0), (.host, hostExwDiscard, 0xFFFFFFFF)], 5, .any, 7, 1, true, .ok, by and_intros <;> decide +kernel⟩,
   ⟨sth [], 5, .ok, (funcRead (sth []) 5 28 true .ok).1, (funcRead (sth []) 5 28 true .ok).2.1, (funcRead (sth []) 5 28 true .ok).2.2,
     by and_intros <;> decide +kernel⟩,
   ⟨{ sthp [] {} with coh := { (sth []).coh with agents := [(16 * 2 ^ 34 + 5, { st := .S })] } }, 5, by and_intros <;> decide +kernel⟩,
   ⟨sthp [] { bi := [(5, 1)] }, 5, some 3, by and_intros <;> decide +kernel⟩⟩

/-- States and operands that meet the hypotheses of each clause of HostQueuesFetchAndExecute. -/
theorem witness_HostQueuesFetchAndExecute :
    (∃ (s : State) (q : Fin 16) (n : BitVec 32), StateInv s) ∧
    (∃ (s : State) (q : Fin 16) (chk : Check), StateInv s ∧ hqReady s q = true ∧ rd s .host (hostHqCfgSpace q.val) = 1) ∧
    (∃ (s : State) (s2 : State) (q : Fin 16) (e : List Byte) (v : Bool), (StateInv s2) ∧ (cohBlocks s (hqNext s q) 256 28 .ok = (e, false, v, s2)) ∧
      hqReady s q = true ∧ hqOver s q = false ∧ rd s .host (hostHqCfgSpace q.val) = 0 ∧ rangeBusy s 18 (hqNext s q) 256 false = false ∧ hqRefusal s2
      (hqEntry e) = none) ∧
    (∃ (s : State) (q : Fin 16) (tag : Nat) (d : DmaRead) (bytes : List Byte), StateInv s ∧ s.pins.jtag ≠ .boundaryScan ∧ dmaFind s tag = some d ∧
      d.who = .hq q ∧ bytes.length = 256 ∧ hqRefusal s (hqEntry bytes) = none) ∧
    (∃ (s : State) (q : Fin 16) (tag : Nat) (d : DmaRead), StateInv s ∧ dmaFind s tag = some d ∧ d.who = .hq q) ∧
    (∃ (s : State) (q : Fin 16), StateInv s ∧ hqState s q = 3 ∧ (hqOf s q).back ≠ 3) ∧
    (∃ (s : State) (q : Fin 16), StateInv s ∧ hqRuns s q 0 = true) ∧
    (∃ (s : State) (q : Fin 16), StateInv s ∧ hqRuns s q 1 = true ∧ rangeBusy s 18 (hqEntry (hqOf s q).entry).dst (hqEntry (hqOf s q).entry).len true
      = false) ∧
    (∃ (s : State) (q : Fin 16), StateInv s ∧ hqRuns s q 2 = true ∧ (hqEntry (hqOf s q).entry).len = 8) ∧
    (∃ (s : State) (q : Fin 16) (b : BayId), StateInv s ∧ hqRuns s q 3 = true ∧ (hqEntry (hqOf s q).entry).bay = b.val ∧ byteV (hqEntry (hqOf s
      q).entry).sig = true ∧ byteK (hqEntry (hqOf s q).entry).sig = false) ∧
    (∃ (s : State) (q : Fin 16), StateInv s ∧ pgState s .host = 4 ∧ (hqOf s q).entry ≠ [] ∧ (hqOf s q).executed = true ∧ (hqEntry (hqOf s
      q).entry).cpl = false ∧ (hqEntry (hqOf s q).entry).msi = false ∧ (hqOf s q).back = 0 ∧ (hqOf s q).suspend = false ∧ Rising s.hostPort.queues) :=
  ⟨⟨sth [(.host, hostHqProd 15, 0xFFFFFFFF)], 15, 2, by decide +kernel⟩,
   ⟨sth [(.host, hostHqCfgEn 3, 1), (.host, hostHqCfgSpace 3, 1), (.host, hostHqCfgLog2 3, 4), (.host, hostHqProd 3, 1), (.host, hostHqBase 3, 16)],
     3, .ok, by and_intros <;> decide +kernel⟩,
   ⟨hqS, hqS2, 0, hqe [(0, 1, 1), (2, 2, 8), (8, 8, 0x100), (32, 8, 0x1122334455667788)], false, hq_read_inv, hq_read,
     by and_intros <;> decide +kernel⟩,
   ⟨sthp [] { dma := [{ tag := 7, who := .hq 4, addr := 0x1000, len := 256 }] }, 4, 7, { tag := 7, who := .hq 4, addr := 0x1000, len := 256 }, hqe
     [(0, 1, 1), (2, 2, 8), (8, 8, 0x100), (32, 8, 0x1122334455667788)], by and_intros <;> decide +kernel⟩,
   ⟨sthp [(.host, hostDmaErr, 0xFFFFFFFF)] { dma := [{ tag := 7, who := .hq 4, addr := 0x1000, len := 256 }] }, 4, 7,
     { tag := 7, who := .hq 4, addr := 0x1000, len := 256 }, by and_intros <;> decide +kernel⟩,
   ⟨sth [(.host, hostHqQstatState 4, 3), (.host, hostHqQstatStatus 4, 1), (.host, hostHqDone 4, 0xFFFFFFFF)], 4, by and_intros <;> decide +kernel⟩,
   ⟨sthq (hqe [(24, 1, 1)]) false, 0, by and_intros <;> decide +kernel⟩,
   ⟨sthq (hqe [(0, 1, 1), (2, 2, 8), (8, 8, 0x100), (32, 8, 0x1122334455667788)]) false, 0, by and_intros <;> decide +kernel⟩,
   ⟨sthq (hqe [(0, 1, 2), (2, 2, 8), (8, 8, 0x40), (32, 8, 1)]) false, 0, by and_intros <;> decide +kernel⟩,
   ⟨sthq (hqe [(0, 1, 3), (4, 1, 0x85), (5, 1, 47)]) false, 0, 47, by and_intros <;> decide +kernel⟩,
   ⟨sthq (hqe [(0, 1, 1), (2, 2, 8), (8, 8, 0x100), (32, 8, 0x1122334455667788)]) true, 0, by and_intros <;> decide +kernel⟩⟩

/-- States and operands that meet the hypotheses of each clause of PowerSettingsAreChecked. -/
theorem witness_PowerSettingsAreChecked :
    (∃ (s : State) (v : BitVec 13), StateInv s ∧ held s = false ∧ (rd s .mgpwr pwrMode = 0 ∨ rd s .mgpwr pwrMode = 2) ∧ 1500 ≤ v.toNat ∧ v.toNat ≤
      4400) ∧
    (∃ (s : State) (v : BitVec 13), StateInv s ∧ pgState s .mgpwr ≠ 0 ∧ (v.toNat < 1500 ∨ 4400 < v.toNat ∨ (rd s .mgpwr pwrMode = 1 ∧ v.toNat <
      4400))) ∧
    (∃ (s : State) (v : BitVec 8), StateInv s ∧ held s = false ∧ 80 ≤ v.toNat ∧ v.toNat ≤ 105) ∧
    (∃ (s : State) (v : BitVec 8), StateInv s ∧ pgState s .mgpwr ≠ 0 ∧ (v.toNat < 80 ∨ 105 < v.toNat)) ∧
    (∃ (s : State) (v : BitVec 2), StateInv s ∧ held s = false ∧ v.toNat ≠ 3 ∧ ((v.toNat = 1 → 4400 ≤ rd s .mgpwr pwrCap ∧ 4400 ≤ rd s .mgpwr
      pwrCapMax)) ∧ s.power.modeTo = none ∧ v.toNat ≠ rd s .mgpwr pwrStatusModeInForce) ∧
    (∃ (s : State) (v : BitVec 2), StateInv s ∧ pgState s .mgpwr ≠ 0 ∧ (v.toNat = 3 ∨ (v.toNat = 1 ∧ rd s .mgpwr pwrCap < 4400))) ∧
    (∃ (s : State), StateInv s ∧ s.power.modeTo = some 0 ∧ rd s .mgpwr pwrStatusModeInForce ≠ 0) ∧
    (∃ (s : State) (u : Fin 72) (v : BitVec 6), StateInv s ∧ pgState s (unitPage u) ≠ 0 ∧ 4 ≤ v.toNat ∧ v.toNat ≤ 32) ∧
    (∃ (s : State) (u : Fin 72) (v : BitVec 6), StateInv s ∧ pgState s (unitPage u) ≠ 0 ∧ (v.toNat < 4 ∨ 32 < v.toNat)) :=
  ⟨⟨stl [], 1500, by and_intros <;> decide +kernel⟩,
   ⟨stl [], 1499, by and_intros <;> decide +kernel⟩,
   ⟨stl [], 80, by and_intros <;> decide +kernel⟩,
   ⟨stl [], 79, by and_intros <;> decide +kernel⟩,
   ⟨stl [], 1, by and_intros <;> decide +kernel⟩,
   ⟨stl [], 3, by and_intros <;> decide +kernel⟩,
   ⟨stp [(.mgpwr, pwrStatusModeInForce, 2)] { modeTo := some 0 }, by and_intros <;> decide +kernel⟩,
   ⟨stl [], 71, 4, by and_intros <;> decide +kernel⟩,
   ⟨stl [], 71, 3, by and_intros <;> decide +kernel⟩⟩

/-- States and operands that meet the hypotheses of each clause of CapLoopBoundsTheLevels. -/
theorem witness_CapLoopBoundsTheLevels :
    (∃ (s : State) (p : Nat) (cls : List UnitClass), StateInv s ∧ loopRuns s = true ∧ s.power.pbrakeLow = false ∧ s.power.alerts = [] ∧ ((∀ u ∈
      awakeUnits s, pacerBad s cls u = false)) ∧ rd s .mgpwr pwrStatusModeInForce = 0) ∧
    (∃ (s : State) (p : Nat) (cls : List UnitClass) (u : Fin 72), StateInv s ∧ loopRuns s = true) ∧
    (∃ (s : State) (p : Nat) (cls : List UnitClass) (u : Fin 72), StateInv s ∧ loopRuns s = true ∧ rd s .mgpwr pwrStatusModeInForce = 2 ∧ unitOn s u =
      true) ∧
    (∃ (s : State) (u : PacerId) (p : Page), StateInv s ∧ p ∈ pacerPages u) ∧
    (∃ (s : State) (b : BayId), StateInv s ∧ held s = false ∧ rd s (.pace b) hdrState ≠ 1) ∧
    (∃ (s : State) (bayNs : Nat) (power : BitVec 16) (iin : BitVec 32) (coolant : BitVec 16) (tj : List Temp), StateInv s ∧ held s = false ∧ tj.length
      ≤ 20) :=
  ⟨⟨{ stl [] with mg := { startDone := true } }, 5000, [], by and_intros <;> decide +kernel⟩,
   ⟨{ stl [] with mg := { startDone := true } }, 1000, [], 71, by and_intros <;> decide +kernel⟩,
   ⟨{ stl [(.mgpwr, pwrStatusModeInForce, 2)] with mg := { startDone := true } }, 1000, [], 3, by and_intros <;> decide +kernel⟩,
   ⟨stl [(.vec 3, hdrState, 4), (.vec 3, hdrSteps, 2^64-1)], .bay 3, .vec 3, by and_intros <;> decide +kernel⟩,
   ⟨stl [(.pace 47, paceCeil, 8)], 47, by and_intros <;> decide +kernel⟩,
   ⟨stl [], 1, 2, 3, 4, List.replicate 20 1600, by and_intros <;> decide +kernel⟩⟩

/-- States and operands that meet the hypotheses of each clause of PowerIsLimitedAndHeld. -/
theorem witness_PowerIsLimitedAndHeld :
    (∃ (s : State), StateInv s ∧ pgState s .mgpwr ≠ 0 ∧ s.power.pbrakeLow = false ∧ s.power.braking = false) ∧
    (∃ (s : State), StateInv s ∧ pgState s .mgpwr ≠ 0 ∧ s.power.alerts = [] ∧ s.power.braking = false) ∧
    (∃ (s : State), StateInv s ∧ s.power.pbrakeLow = true ∧ s.power.braking = true ∧ s.power.alerts = [] ∧ s.power.holding = false) ∧
    (∃ (s : State), StateInv s ∧ s.power.alerts = [1] ∧ s.power.braking = true ∧ s.power.pbrakeLow = false ∧ s.power.holding = false) ∧
    (∃ (s : State), StateInv s ∧ s.power.holding = true) ∧
    (∃ (s : State) (mv : BitVec 16), 60000 < mv.toNat) ∧
    (∃ (s : State) (mv : BitVec 16), StateInv s ∧ held s = false ∧ s.power.converters = true ∧ s.power.alerts = [] ∧ s.power.overV = false ∧ 50000 ≤
      s.power.vin ∧ s.power.vin ≤ 57500 ∧ 50000 ≤ mv.toNat ∧ mv.toNat ≤ 57500) ∧
    (∃ (s : State) (mv : BitVec 16), StateInv s ∧ pgState s .mgpwr ≠ 0 ∧ s.power.converters = true ∧ s.power.overV = false ∧ s.power.alerts = [] ∧
      50000 ≤ s.power.vin ∧ 44000 ≤ mv.toNat ∧ mv.toNat < 50000) ∧
    (∃ (s : State) (mv : BitVec 16), s.power.converters = true ∧ mv.toNat < 44000) ∧
    (∃ (s : State), s.power.converters = true) ∧
    (∃ (s : State), s.power.converters = false ∧ s.power.overV = false ∧ s.power.therm = false ∧ 48000 ≤ s.power.vin) ∧
    (∃ (s : State), s.power.converters = true ∧ s.power.pwrGood = false) ∧
    (∃ (s : State) (c : Fin 8), StateInv s ∧ pgState s .mgpwr ≠ 0 ∧ (¬ s.power.convOut.contains c.val) ∧ s.power.braking = false) ∧
    (∃ (s : State) (d : DieId), s.power.therm = false ∧ s.power.converters = true) ∧
    (∃ (s : State), s.power.vin < 36000) ∧
    (∃ (s : State), 36000 ≤ s.power.vin) :=
  ⟨⟨stl [(.mgpwr, pwrBrakes, 0xFFFFFFFF)], by and_intros <;> decide +kernel⟩,
   ⟨stl [], by and_intros <;> decide +kernel⟩,
   ⟨stp [(.mgpwr, pwrStatusBrake, 1)] { pbrakeLow := true, braking := true }, by and_intros <;> decide +kernel⟩,
   ⟨stp [(.mgpwr, pwrStatusRegAlert, 1)] { alerts := [1], braking := true }, by and_intros <;> decide +kernel⟩,
   ⟨stp [(.mgpwr, pwrStatusHold, 1)] { holding := true, braking := true }, by and_intros <;> decide +kernel⟩,
   ⟨State.reset, 60001, by decide +kernel⟩,
   ⟨stl [], 50000, by and_intros <;> decide +kernel⟩,
   ⟨stl [], 44000, by and_intros <;> decide +kernel⟩,
   ⟨stl [], 43999, by and_intros <;> decide +kernel⟩,
   ⟨stl [], by decide +kernel⟩,
   ⟨stp [] { converters := false, pwrEn := false }, by and_intros <;> decide +kernel⟩,
   ⟨stp [] { pwrGood := false }, by and_intros <;> decide +kernel⟩,
   ⟨stl [], 7, by and_intros <;> decide +kernel⟩,
   ⟨stl [], 19, by and_intros <;> decide +kernel⟩,
   ⟨stp [] { vin := 35999, therm := true }, by decide +kernel⟩,
   ⟨stp [] { vin := 36000, therm := true }, by decide +kernel⟩⟩

/-- States and operands that meet the hypotheses of each clause of WatchdogsAndStartSteps. -/
theorem witness_WatchdogsAndStartSteps :
    (∃ (s : State), held s = false ∧ s.power.convOut.length < 2) ∧
    (∃ (s : State) (d : DieId) (r : Byte), StateInv s ∧ held s = false ∧ s.power.convOut.length < 2 ∧ mget 0 s.power.badReads (256 * d.val + r.toNat)
      = 4 ∧ rd s .hub hubLogHead - rd s .hub hubLogTail < 256) ∧
    (∃ (s : State), held s = false ∧ linkGone s 23 = false) ∧
    (∃ (s : State), linkGone s 23 = true) ∧
    (∃ (s : State), held s = false ∧ s.mg.lost = false ∧ s.mg.startDone = true) ∧
    (∃ (s : State), StateInv s ∧ pgState s .hub ≠ 0 ∧ s.mg.lost = false) ∧
    (∃ (s : State) (e : LedgerEntry), StateInv s ∧ held s = false ∧ linkGone s 23 = false ∧ s.mg.lost = true ∧ s.mg.hubQueue = [e] ∧ s.mg.ledger = []) ∧
    (∃ (s : State), StateInv s ∧ pgState s .sec ≠ 0 ∧ startRuns s = true ∧ s.mg.startStep ≠ 7 ∧ s.mg.startStep < 10) ∧
    (∃ (s : State) (o : StepOutcome), StateInv s ∧ startRuns s = true ∧ s.mg.startStep = 7 ∧ ((∀ p : Fin 32, lstate s p = 3))) ∧
    (∃ (s : State), StateInv s ∧ startRuns s = true ∧ s.mg.startStep = 7 ∧ portsAllUp s = false) ∧
    (∃ (s : State), StateInv s ∧ startRuns s = true ∧ s.mg.startStep = 3 ∧ ((∀ l : Fin 31, pgState s (.dlink l) = 4)) ∧ s.mg.snapshot = [] ∧ s.links =
      [] ∧ s.power.convOut = [] ∧ ((∀ l : Fin 31, rd s (.dlink l) dlNegWidth = 4))) ∧
    (∃ (s : State), StateInv s ∧ startRuns s = true ∧ s.mg.startStep = 4 ∧ s.mg.snapshot = []) ∧
    (∃ (s : State), StateInv s ∧ Rising s.mg.pending ∧ held s = false ∧ s.mg.startDone = false ∧ s.mg.usedPending ≠ []) :=
  ⟨⟨stp [] { badReads := [(3, 2)], convOut := [1] }, by and_intros <;> decide +kernel⟩,
   ⟨stp [] { badReads := [(5 * 256 + 255, 4)] }, 5, 255, by and_intros <;> decide +kernel⟩,
   ⟨stl [(.hub, hubTimer, 1000)], by and_intros <;> decide +kernel⟩,
   ⟨stl [(.dlink 23, hdrState, 6), (.dlink 23, dlNegWidth, 0)], by decide +kernel⟩,
   ⟨stg2 [] { startDone := true }, by and_intros <;> decide +kernel⟩,
   ⟨stl [], by and_intros <;> decide +kernel⟩,
   ⟨stg2 [] { lost := true, hubQueue := [lent 0x20 3 4], nextSeq := 7 }, lent 0x20 3 4, by and_intros <;> decide +kernel⟩,
   ⟨stg2 [] { startStep := 1 }, by and_intros <;> decide +kernel⟩,
   ⟨{ stl ((List.finRange 32).map (fun p => (.fport p, fpLinkLstate, 3))) with mg := { startStep := 7 } }, .ok, by and_intros <;> decide +kernel⟩,
   ⟨stg2 [(.fport 3, fpLinkLstate, 3)] { startStep := 7 }, by and_intros <;> decide +kernel⟩,
   ⟨{ stl ((List.finRange 31).flatMap (fun l => [(.dlink l, hdrState, 4), (.dlink l, dlNegWidth, 4)])) with mg := { startStep := 3 } },
     by and_intros <;> decide +kernel⟩,
   ⟨stg2 [] { startStep := 4 }, by and_intros <;> decide +kernel⟩,
   ⟨stg2 [] { startStep := 5, pending := [(1, some 1), (3, some 0)], usedPending := [1, 3] }, by and_intros <;> decide +kernel⟩⟩

/-- States and operands that meet the hypotheses of each clause of ManagementAnswersAndUpdates. -/
theorem witness_ManagementAnswersAndUpdates :
    (∃ (s : State) (port : MgmtPort) (nonce : List Byte), mgReach s port = true ∧ s.mg.lost = false ∧ nonce.length = 32) ∧
    (∃ (s : State) (port : MgmtPort) (nonce : List Byte), mgReach s port = true ∧ s.mg.lost = false ∧ nonce.length ≠ 32) ∧
    (∃ (s : State) (port : MgmtPort) (first : Nat), mgReach s port = true ∧ s.mg.lost = false) ∧
    (∃ (s : State) (port : MgmtPort) (off : Nat), mgReach s port = true ∧ s.mg.lost = false) ∧
    (∃ (s : State) (nonce : List Byte), mgReach s .hostPort = true ∧ s.mg.lost = false) ∧
    (∃ (s : State) (i : Nat), mgReach s .hostPort = true ∧ s.mg.lost = false ∧ 1 ≤ i ∧ i ≤ s.mg.prov.length ∧ i < 255) ∧
    (∃ (s : State) (type : Fin 4) (size : Nat), mgReach s .i3c = true ∧ s.mg.lost = false ∧ s.mg.recovery = false ∧ s.mg.update = none ∧
      s.mg.startDone = true ∧ size ≤ 512 + Config.flashArea (type.val + 1)) ∧
    (∃ (s : State) (bytes : List Byte) (u : Update), mgReach s .i3c = true ∧ s.mg.lost = false ∧ s.mg.update = some u ∧ bytes.length ≤ 1024 ∧ u.next +
      bytes.length ≤ u.size) ∧
    (∃ (s : State) (u : Update), mgReach s .i3c = true ∧ s.mg.lost = false ∧ s.mg.recovery = false ∧ s.mg.update = some u) ∧
    (∃ (s : State) (key : BitVec 16) (mask : BitVec 4), s.mg.lost = false ∧ key ≠ 0xD5A7) ∧
    (∃ (s : State) (port : MgmtPort) (slot : Fin 256), mgReach s port = true ∧ s.mg.lost = false) ∧
    (∃ (s : State) (slot : Fin 256) (e : LedgerEntry), Rising s.mg.ledger ∧ mgReach s .i3c = true ∧ s.mg.lost = false ∧ mget none s.mg.ledger slot.val
      = some e ∧ e.seq < 2 ^ 32) ∧
    (∃ (s : State), StateInv s ∧ Rising s.mg.ledger ∧ held s = false ∧ s.mg.lost = false) ∧
    (∃ (s : State), held s = false ∧ s.mg.lost = false) ∧
    (∃ (s : State) (key : BitVec 16), s.mg.lost = false ∧ key ≠ 0xD5A7) ∧
    (∃ (s : State) (port : MgmtPort) (off : Nat), mgReach s port = true ∧ s.mg.lost = false) ∧
    (∃ (s : State) (off : Nat) (bytes : List Byte), mgReach s .i3c = true ∧ s.mg.lost = false ∧ bytes.length ≤ 1024 ∧ off + bytes.length ≤ 4096) ∧
    (∃ (s : State), s.power.pwrGood = true ∧ s.pins.jtag = .idcode) ∧
    (∃ (s : State), s.power.pwrGood = true ∧ s.pins.jtag = .idcode) :=
  ⟨⟨stl [], .i3c, List.replicate 32 7, by and_intros <;> decide +kernel⟩,
   ⟨stgh { startDone := true }, .hostPort, List.replicate 31 7, by and_intros <;> decide +kernel⟩,
   ⟨stg2 [] { prov := [List.replicate 64 1, List.replicate 64 2] }, .i3c, 1, by and_intros <;> decide +kernel⟩,
   ⟨stl [], .i3c, 3, by and_intros <;> decide +kernel⟩,
   ⟨stgh { startDone := true }, [1], by and_intros <;> decide +kernel⟩,
   ⟨stgh { startDone := true, prov := [List.replicate 64 1] }, 1, by and_intros <;> decide +kernel⟩,
   ⟨stg2 [] { startDone := true, active := [(2, 1)] }, 1, 0, by and_intros <;> decide +kernel⟩,
   ⟨stg2 [] { startDone := true, update := some { type := 2, copy := 1, size := 600, next := 100 } }, List.replicate 500 1,
     { type := 2, copy := 1, size := 600, next := 100 }, by and_intros <;> decide +kernel⟩,
   ⟨stg2 [] { startDone := true, update := some { type := 2, copy := 1, size := 600, next := 100 } },
     { type := 2, copy := 1, size := 600, next := 100 }, by and_intros <;> decide +kernel⟩,
   ⟨stl [], 0xD5A6, 3, by and_intros <;> decide +kernel⟩,
   ⟨stg2 [] { ledger := [(255, some (lent 5 3 4))] }, .i3c, 255, by and_intros <;> decide +kernel⟩,
   ⟨stg2 [] { ledger := [(255, some (lent 5 3 4))] }, 255, lent 5 3 4, by and_intros <;> decide +kernel⟩,
   ⟨stg2 [(.sec, secLedgerIdx, 200)] { ledger := [(7, some (lent 5 3 4)), (200, some (lent 6 3 4))] }, by and_intros <;> decide +kernel⟩,
   ⟨stg2 [] { ledger := [(7, some (lent 5 3 4)), (200, some { lent 6 3 4 with action := 1 })] }, by and_intros <;> decide +kernel⟩,
   ⟨stl [], 0xD5A6, by and_intros <;> decide +kernel⟩,
   ⟨stl [], .i3c, 4000, by and_intros <;> decide +kernel⟩,
   ⟨stl [], 4000, List.replicate 96 3, by and_intros <;> decide +kernel⟩,
   ⟨stl [], by and_intros <;> decide +kernel⟩,
   ⟨stl [], by and_intros <;> decide +kernel⟩⟩

/-- States and operands that meet the hypotheses of StepRunsTheFrontCommand. -/
theorem witness_StepRunsTheFrontCommand :
    ∃ (s : State) (c : Instr) (rest : List Instr), s.pending = c :: rest :=
  ⟨{ State.reset with pending := [.pbrake, .regAlert] }, .pbrake, [.regAlert], by decide +kernel⟩

/-- States and operands that meet the hypotheses of each clause of EmptyQueueCountsTheTimer. -/
theorem witness_EmptyQueueCountsTheTimer :
    (∃ (s : State), StateInv s ∧ s.pending = [] ∧ held s = false) ∧
    (∃ (s : State), s.pending = [] ∧ held s = true) :=
  ⟨⟨stl [(.hub, hubTimer, 0xFFFFFFFFFFFFFFFF)], by and_intros <;> decide +kernel⟩,
   ⟨stp [] { pwrGood := false }, by and_intros <;> decide +kernel⟩⟩

/-- States and operands that meet the hypotheses of CommandsLeaveTheQueue. -/
theorem witness_CommandsLeaveTheQueue :
    ∃ (c : Instr) (s : State) (t : State), exec c s = .next t :=
  ⟨.capWrite 2000, State.reset, _, rfl⟩

/-- States and operands that meet the hypotheses of EveryStepKeepsTheInvariant. -/
theorem witness_EveryStepKeepsTheInvariant :
    ∃ (s : State) (t : State), (step s = .next t) ∧ StateInv s :=
  ⟨State.reset, _, rfl, by decide +kernel⟩

/-- States and operands that meet the hypotheses of each clause of FusesOnlyAdvance. -/
theorem witness_FusesOnlyAdvance :
    (∃ (c : Instr) (s : State) (t : State), (exec c s = .next t) ∧ blowsFuses c = false) ∧
    (∃ (c : Instr) (s : State) (t : State), (exec c s = .next t) ∧ StateInv s) ∧
    (∃ (s : State) (port : MgmtPort) (mask : BitVec 4) (k : Nat), (k = 1 ∨ k = 2 ∨ k = 3 ∨ k = 4) ∧ bitOf mask.toNat (k - 1) = true ∧ mget none
      s.mg.pending k ≠ none ∧ mgReach s port = true) ∧
    (∃ (s : State) (t : State) (key : BitVec 16) (mask : BitVec 4) (k : Nat), (exec (.secCommit key mask) s = .next t) ∧ (k = 1 ∨ k = 2 ∨ k = 3 ∨ k =
      4) ∧ bitOf mask.toNat (k - 1) = true ∧ mget none s.mg.pending k ≠ none) ∧
    (∃ (s : State) (mask : BitVec 4), StateInv s ∧ mgReach s .i3c = true ∧ s.mg.lost = false ∧ s.mg.pending = []) ∧
    (∃ (s : State) (mask : BitVec 4), StateInv s ∧ held s = false ∧ s.mg.lost = false ∧ s.mg.pending = []) ∧
    (∃ (s : State) (k : Nat) (c : Nat), imgSvn (imgCopy s k c) < svnFuse s k) :=
  ⟨⟨.capWrite 2000, State.reset, _, rfl, by decide +kernel⟩,
   ⟨.capWrite 2000, State.reset, _, rfl, by decide +kernel⟩,
   ⟨stg2 [] { pending := [(4, some 1)] }, .i3c, 8, 4, by and_intros <;> decide +kernel⟩,
   ⟨stg2 [] { pending := [(4, some 1)] }, _, 0xD5A7, 8, 4, rfl, by and_intros <;> decide +kernel⟩,
   ⟨stl [], 15, by and_intros <;> decide +kernel⟩,
   ⟨stl [], 15, by and_intros <;> decide +kernel⟩,
   ⟨{ stl [] with fuses := { State.reset.fuses with svn := [(3, 5)] } }, 3, 0, by decide +kernel⟩⟩

/-- States and operands that meet the hypotheses of UpdateBeginClearsTheCopysImageEntries. -/
theorem witness_UpdateBeginClearsTheCopysImageEntries :
    ∃ (s : State) (port : MgmtPort) (type : Fin 4) (size : Nat) (u : Update) (t : State), (exec (.updateBegin port type size) s = .next t) ∧
      (t.mg.update = some u) ∧ s.mg.update = none :=
  ⟨stg2 [] { startDone := true }, .i3c, 0, 0, { type := 1, copy := 1, size := 0 }, _, rfl, rfl, by decide +kernel⟩

/-- States and operands that meet the hypotheses of ConfigWriteReplacesTheOlderCopy. -/
theorem witness_ConfigWriteReplacesTheOlderCopy :
    ∃ (s : State) (bytes : List Byte) (off : Nat), mgReach s .i3c = true ∧ s.mg.lost = false ∧ bytes.length ≤ 1024 ∧ off + bytes.length ≤ 4096 ∧
      ((let d := splice (slice s.mg.cfgBuf 0 4096) off bytes; fieldAt d 4092 4 = (crc32c (slice d 0 4092)).toNat)) ∧ fieldAt s.mg.cfgA 4 4 ≠ fieldAt
      s.mg.cfgB 4 4 ∧ max (fieldAt s.mg.cfgA 4 4) (fieldAt s.mg.cfgB 4 4) + 1 < 2 ^ 32 :=
  ⟨stg2 [] { cfgA := mk 4096 [(4, 4, 5)], cfgBuf := cfgD }, cfgE, 3100, by and_intros <;> decide +kernel⟩

/-- States and operands that meet the hypotheses of each clause of RunChecksTheSettings. -/
theorem witness_RunChecksTheSettings :
    (∃ (s : State) (p : Page), StateInv s ∧ ((∃ b a, p = .arr b a) ∨ (∃ b, p = .vec b)) ∧ pgState s p = 2 ∧ rd s p hdrBusy = 0 ∧ dieHeld s (pageDie p)
      = false) ∧
    (∃ (s : State) (b : BayId), StateInv s ∧ pgState s (.tgu b) = 2 ∧ rd s (.tgu b) hdrBusy = 0 ∧ dieHeld s (pageDie (.tgu b)) = false) :=
  ⟨⟨std [(.arr 3 7, arrMfdBase, 0), (.arr 3 7, arrMfdCount, 0)], .arr 3 7, by and_intros <;> decide +kernel⟩,
   ⟨std [(.tgu 3, tguBarTimeout, 0)], 3, by and_intros <;> decide +kernel⟩⟩

/-- States and operands that meet the hypotheses of each clause of ControlWritesFollowPrecedence. -/
theorem witness_ControlWritesFollowPrecedence :
    (∃ (s : State) (who : Requester) (p : Page), held s = false ∧ dcsReaches s who (4096 * p.slot + 0x10) = true) ∧
    (∃ (s : State) (who : Requester) (p : Page) (v : BitVec 32), dcsReaches s who (4096 * p.slot + 0x10) = true ∧ pgState s p ≠ 0) ∧
    (∃ (s : State) (p : Page), (p.runctl = false ∨ pgState s p ≠ 2)) ∧
    (∃ (s : State) (p : Page), (p.runctl = false ∨ (pgState s p ≠ 3 ∧ pgState s p ≠ 4 ∧ pgState s p ≠ 6))) ∧
    (∃ (s : State) (p : Page), (pgState s p = 0 ∨ pgState s p = 1 ∨ (pgState s p = 7 ∧ domainUp s = false))) ∧
    (∃ (s : State) (p : Page), (p.sleepctl = false ∨ pgState s p ≠ 2)) ∧
    (∃ (s : State) (p : Page), (p.sleepctl = false ∨ pgState s p ≠ 1)) ∧
    (∃ (s : State) (p : Page), pgState s p = 0) :=
  ⟨⟨std [], .hubFirmware, .vec 3, by and_intros <;> decide +kernel⟩,
   ⟨std [(.vec 3, hdrErr, 6)], .hubFirmware, .vec 3, 0, by and_intros <;> decide +kernel⟩,
   ⟨stl [], .hub, by decide +kernel⟩,
   ⟨inSt (.vec 3) 2, .vec 3, by decide +kernel⟩,
   ⟨inSt (.vec 3) 1, .vec 3, by decide +kernel⟩,
   ⟨inSt (.vec 3) 4, .vec 3, by decide +kernel⟩,
   ⟨inSt (.vec 3) 2, .vec 3, by decide +kernel⟩,
   ⟨inSt (.vec 3) 0, .vec 3, by decide +kernel⟩⟩

/-- States and operands that meet the hypotheses of each clause of PagesHaveTheirOwnSlots. -/
theorem witness_PagesHaveTheirOwnSlots :
    (∃ (p : Page) (q : Page), p.slot = q.slot) ∧
    (∃ (p : Page) (q : Page), pgId p = pgId q) :=
  ⟨⟨.core 191, .core 191, by decide +kernel⟩,
   ⟨.core 191, .core 191, by decide +kernel⟩⟩

/-- States and operands that meet the hypotheses of each clause of ErrorsAreCapturedAndLogged. -/
theorem witness_ErrorsAreCapturedAndLogged :
    (∃ (s : State) (p : Page) (e : Err), StateInv s ∧ pgState s p ≠ 0 ∧ e.stop = false ∧ e.bit < 32 ∧ bitOf (rd s p hdrErr) e.bit = false ∧ rd s .hub
      hubLogHead - rd s .hub hubLogTail < 256) ∧
    (∃ (s : State) (addr : Nat) (src : Nat) (code : Nat) (sev : Nat) (info : Nat) (va : Bool), StateInv s ∧ 256 ≤ rd s .hub hubLogHead - rd s .hub
      hubLogTail) :=
  ⟨⟨stl [], .vec 3, { bit := 5, unit := 3, addr := some 77 }, by and_intros <;> decide +kernel⟩,
   ⟨stl [(.hub, hubLogHead, 300)], 1, 2, 3, 4, 5, true, by and_intros <;> decide +kernel⟩⟩

/-- States and operands that meet the hypotheses of ExactConversionsKeepTheValue. -/
theorem witness_ExactConversionsKeepTheValue :
    ∃ (x : Elem) (y : Elem) (c : Nat) (rm : RMode), (x, y) ∈ exactPairs ∧ c < 2 ^ x.width :=
  ⟨.fp16, .fp64, 0x3C01, .rne, by and_intros <;> decide +kernel⟩

/-- States and operands that meet the hypotheses of each clause of ElementsArePackedFromTheLeastBit. -/
theorem witness_ElementsArePackedFromTheLeastBit :
    (∃ (w : Nat) (l : List Nat) (i : Nat), 0 < w ∧ ((∀ c ∈ l, c < 2 ^ w)) ∧ i < l.length) ∧
    (∃ (w : Nat) (l : List Nat) (i : Nat), ((∀ c ∈ l, c < 2 ^ w)) ∧ i < l.length) ∧
    (∃ (k : Nat) (field : Nat) (n : Nat), n < k) ∧
    (∃ (k : Nat) (field : Nat), field < 2 ^ (8 * k)) :=
  ⟨⟨3, [5, 6, 7], 2, by and_intros <;> decide +kernel⟩,
   ⟨3, [5, 6, 7], 2, by and_intros <;> decide +kernel⟩,
   ⟨4, 0x12345678, 2, by decide +kernel⟩,
   ⟨4, 0x12345678, by decide +kernel⟩⟩

/-- States and operands that meet the hypotheses of RoundingGoesToNearestEven. -/
theorem witness_RoundingGoesToNearestEven :
    ∃ (neg : Bool) (n : Nat) (d : Nat), 0 < d :=
  ⟨true, 5, 2, by decide +kernel⟩

/-- States and operands that meet the hypotheses of BayEnginesStayInTheirBay. -/
theorem witness_BayEnginesStayInTheirBay :
    ∃ (b : BayId) (c : Instr) (s : State) (t : State), (exec c s = .next t) ∧ bayEngine b c = true :=
  ⟨3, .invalDone 3, State.reset, _, rfl, by decide +kernel⟩

/-- States and operands that meet the hypotheses of SettingsWritesTouchRegistersOnly. -/
theorem witness_SettingsWritesTouchRegistersOnly :
    ∃ (c : Instr) (s : State) (t : State), (exec c s = .next t) ∧ writesSettings c = true :=
  ⟨.capWrite 2000, State.reset, _, rfl, by decide +kernel⟩

/-- States and operands that meet the hypotheses of OnlyTheirCommandsChange. -/
theorem witness_OnlyTheirCommandsChange :
    ∃ (c : Instr) (s : State) (t : State), exec c s = .next t :=
  ⟨.capWrite 2000, State.reset, _, rfl⟩

end Sys2Proof.Tests
end

section
/-! The scope statements: the state after reset (R12) and the accesses of the device control space (R10, R43). -/

namespace Sys2Proof.Machine

/-! ### The state after reset. -/

/-- Settles O46: no map of the reset state lists an entry. -/
theorem resetMeetsTheInvariant : Obligations.ResetMeetsTheInvariant :=
  ⟨⟨.nil, .nil _, .nil _, .nil _, .nil _, .nil _, .nil _, .nil _, .nil _, .nil _, .nil _, .nil _, .nil _, .nil _, .nil _, .nil _, .nil _⟩,
    .nil _, by simp [State.reset]⟩

/-- The reset state lists no register, so each field reads as its table's reset value. -/
theorem rd_reset (p : Page) (r : Row) : rd State.reset p r = r.rst p % 2 ^ 64 % 2 ^ r.width := by
  simp [rd, State.reset, mget]

/-- Settles O45: every register reads its table's value, and the rest of the state is empty. -/
theorem resetLeavesTheTablesValues : Obligations.ResetLeavesTheTablesValues := by
  have hceil : ∀ u, rd State.reset (unitPage u) paceCeil = 32 := fun u => rd_reset _ _
  have hseed : ∀ b, rd State.reset (.bayCtl b) baySrSeed = 1 := fun b => rd_reset _ _
  have hcount : ∀ b, arrCount State.reset b = 8 := fun b => by
    simp only [arrCount, rd_reset]; rfl
  have harr : ∀ b a, pgState State.reset (.arr b a) = 2 := fun b a => by
    have hin : ¬ 8 ≤ a.val := by omega
    have hrun : held State.reset = false := rfl
    simp only [pgState, hrun, hcount, hin, rd_reset, if_false, Bool.false_eq_true]
    rfl
  have hhub : pgState State.reset .hub = 4 := rfl
  exact ⟨rd_reset, rd_reset .hub hubRstCause, rd_reset .hub hubTimer, rd_reset .mgpwr pwrCap, rd_reset .mgpwr pwrTjLimit, hceil, hseed, harr,
    hhub, fun _ => rfl, rfl, rfl⟩

/-! ### Slots and offsets of the control pages (R45 to R49). -/

theorem finOf_val {n : Nat} (i : Fin n) : finOf n i.val = some i := by simp [finOf]

theorem finOf_eq {n k : Nat} (i : Fin n) (h : k = i.val) : finOf n k = some i := h ▸ finOf_val i

/-- R47: slot `j` of the region of bay `b`. -/
theorem pageOfSlot_bay (b : BayId) {j : Nat} (hj : j < 64) : pageOfSlot (0x1000 + j + 64 * b.val) = bayPage b j := by
  have hb := b.isLt
  have hq : (0x1000 + j + 64 * b.val - 0x1000) / 64 = b.val := by omega
  have hr : (0x1000 + j + 64 * b.val - 0x1000) % 64 = j := by omega
  simp only [pageOfSlot, hq, hr, finOf_val, Option.bind_some]
  simp (disch := omega) only [if_neg, if_pos]

/-- R49: slot `j` of the region of processor die `d`. -/
theorem pageOfSlot_pd (d : Fin 4) {j : Nat} (hj : j < 256) : pageOfSlot (0x3000 + j + 256 * d.val) = pdPage d j := by
  have hd := d.isLt
  have hq : (0x3000 + j + 256 * d.val - 0x3000) / 256 = d.val := by omega
  have hr : (0x3000 + j + 256 * d.val - 0x3000) % 256 = j := by omega
  simp only [pageOfSlot, hq, hr, finOf_val, Option.bind_some]
  simp (disch := omega) only [if_neg, if_pos]

/-- R45 to R49: a page is the one that its slot holds. -/
theorem pageOfSlot_slot (p : Page) : pageOfSlot p.slot = some p := by
  cases p with
  | hub | mgpwr | sec | coh | host => rfl
  | bayCtl b => exact pageOfSlot_bay b (j := 0) (by decide)
  | doc b => exact pageOfSlot_bay b (j := 1) (by decide)
  | issue b => exact pageOfSlot_bay b (j := 2) (by decide)
  | sync b => exact pageOfSlot_bay b (j := 3) (by decide)
  | pace b => exact pageOfSlot_bay b (j := 4) (by decide)
  | vec b => exact pageOfSlot_bay b (j := 16) (by decide)
  | tgu b => exact pageOfSlot_bay b (j := 17) (by decide)
  | store b => exact pageOfSlot_bay b (j := 24) (by decide)
  | bcache b => exact pageOfSlot_bay b (j := 25) (by decide)
  | xlate b => exact pageOfSlot_bay b (j := 26) (by decide)
  | arr b a =>
    have hs : (Page.arr b a).slot = 0x1000 + (8 + a.val) + 64 * b.val := by simp only [Page.slot]; omega
    rw [hs, pageOfSlot_bay b (by omega)]
    simp (disch := omega) [bayPage, finOf_eq a, if_neg, if_pos]
  | gth b g =>
    have hs : (Page.gth b g).slot = 0x1000 + (18 + g.val) + 64 * b.val := by simp only [Page.slot]; omega
    rw [hs, pageOfSlot_bay b (by omega)]
    simp (disch := omega) [bayPage, finOf_eq g, if_neg, if_pos]
  | mov b m =>
    have hs : (Page.mov b m).slot = 0x1000 + (20 + m.val) + 64 * b.val := by simp only [Page.slot]; omega
    rw [hs, pageOfSlot_bay b (by omega)]
    simp (disch := omega) [bayPage, finOf_eq m, if_neg, if_pos]
  | pdCtl d => exact pageOfSlot_pd d (j := 0) (by decide)
  | l3 d => exact pageOfSlot_pd d (j := 8) (by decide)
  | clus d j =>
    have hs : (Page.clus d j).slot = 0x3000 + (1 + j.val) + 256 * d.val := by simp only [Page.slot]; omega
    rw [hs, pageOfSlot_pd d (by omega)]
    simp (disch := omega) [pdPage, finOf_eq j, if_neg, if_pos]
  | core n =>
    have hd : n.val / 48 < 4 := by omega
    have hs : (Page.core n).slot = 0x3000 + (16 + n.val % 48) + 256 * (⟨n.val / 48, hd⟩ : Fin 4).val := by simp only [Page.slot]; omega
    rw [hs, pageOfSlot_pd _ (by omega)]
    simp (disch := omega) [pdPage, finOf_eq n, if_neg, if_pos]
  | dlink n => unfold Page.slot pageOfSlot; simp (disch := omega) only [finOf_eq n, if_neg, if_pos, Option.map_some]
  | mchan t c => unfold Page.slot pageOfSlot; simp (disch := omega) only [finOf_eq t, finOf_eq c, if_neg, if_pos, Option.bind_some, Option.map_some]
  | sysc t => unfold Page.slot pageOfSlot; simp (disch := omega) only [finOf_eq t, if_neg, if_pos, Option.map_some]
  | fport q => unfold Page.slot pageOfSlot; simp (disch := omega) only [finOf_eq q, if_neg, if_pos, Option.map_some]
  | router f | flow f | ce f => fin_cases f <;> rfl

/-- R45, R46: slots lie below 0x3400, and no page's slot lies in the error log or in the catalogue. -/
theorem slot_range (p : Page) : p.slot < 0x3400 ∧ (p.slot < 1 ∨ 3 ≤ p.slot) ∧ (p.slot < 0x2B00 ∨ 0x2B20 ≤ p.slot) := by
  cases p <;> simp only [Page.slot] <;> omega

/-- The block registers of a page start at offset 0x100, past the common header. -/
theorem pageRows_off (p : Page) {r : Row} (hr : r ∈ pageRows p) : 0x100 ≤ r.off := by
  have hall : (pageRows p).all (fun r => decide (0x100 ≤ r.off)) = true := by
    cases p <;> simp only [pageRows] <;> decide +kernel
  simpa using List.all_eq_true.mp hall r hr

/-- No stored field of a page lies in PG_ID and PG_VER. -/
theorem pageFieldRows_off (p : Page) {r : Row} (hr : r ∈ hdrRows ++ pageRows p) : 0xC ≤ r.off := by
  rcases List.mem_append.mp hr with h | h
  · have hall : hdrRows.all (fun r => decide (0xC ≤ r.off)) = true := rfl
    simpa using List.all_eq_true.mp hall r h
  · exact Nat.le_trans (by decide) (pageRows_off p h)

/-- The offset of byte `o` of a page, as an operand of a control-space access. -/
theorem dcsOffset_toNat (p : Page) {o : Nat} (ho : o < 4096) : (BitVec.ofNat 26 (4096 * p.slot + o)).toNat = 4096 * p.slot + o := by
  have hp := (slot_range p).1
  simp only [BitVec.toNat_ofNat]
  omega

/-- A naturally aligned 4-byte access. -/
theorem dcsAligned_four (p : Page) {o : Nat} (ho : o % 4 = 0) : dcsAligned (4096 * p.slot + o) 4 = true := by
  have : (4096 * p.slot + o) % 4 = 0 := by omega
  simp [dcsAligned, this]

/-- A read within a page, but of MEM_DATA, shows the page's fields and changes nothing. -/
theorem dcsRead_page {s : State} (hs : held s = false) (p : Page) {o : Nat} (ho : o < 4096) (hm : o ≠ 0x118) (size : Nat) :
    dcsRead s (4096 * p.slot + o) size = (pageRead s p o size, s) := by
  have hr := slot_range p
  have hlog : ¬ (0x1000 ≤ 4096 * p.slot + o ∧ 4096 * p.slot + o < 0x3000) := by omega
  have hcat : ¬ (0x2B00000 ≤ 4096 * p.slot + o ∧ 4096 * p.slot + o < 0x2B20000) := by omega
  have hslot : (4096 * p.slot + o) / 4096 = p.slot := by omega
  have hoff : (4096 * p.slot + o) % 4096 = o := by omega
  unfold dcsRead
  rw [if_neg (by simp [hs]), if_neg hlog, if_neg hcat, hslot, pageOfSlot_slot, hoff]
  dsimp only
  split
  · contradiction
  · rfl

/-- A write within a page is the page's. -/
theorem dcsWrite_page {s : State} (hs : held s = false) (who : Requester) (p : Page) {o : Nat} (ho : o < 4096) (size v : Nat) :
    dcsWrite s who (4096 * p.slot + o) size v = pageWrite s p o size v := by
  have hr := slot_range p
  have hcat : ¬ (0x2B00000 ≤ 4096 * p.slot + o ∧ 4096 * p.slot + o < 0x2B20000) := by omega
  have hslot : (4096 * p.slot + o) / 4096 = p.slot := by omega
  have hoff : (4096 * p.slot + o) % 4096 = o := by omega
  unfold dcsWrite
  rw [if_neg (by simp [hs]), if_neg hcat, hslot, pageOfSlot_slot, hoff]

/-! ### A read of PG_ID. -/

/-- A field past the bytes read shows nothing. -/
theorem FieldVal.part_past (f : FieldVal) {off size : Nat} (h : 8 * (off + size) ≤ f.bit) : f.part off size = 0 := by
  unfold FieldVal.part
  exact if_pos (by omega)

/-- R50: PG_ID is 32 bits wide. -/
theorem pgId_lt (p : Page) : pgId p < 2 ^ 32 := by
  unfold pgId
  cases p <;> simp only [Page.type, Page.inst] <;> omega

/-- PG_ID is the first field of a page, and every other field lies past its 4 bytes. -/
theorem pageFields_pgId (s : State) (p : Page) : ∃ l, pageFields s p = ⟨0, 32, pgId p⟩ :: l ∧ ∀ f ∈ l, 32 ≤ f.bit := by
  unfold pageFields
  extract_lets id t own
  split
  · exact ⟨_, rfl, by simp⟩
  · have hown : ∀ f ∈ own, 32 ≤ f.bit := by
      cases p with
      | flow f =>
        refine List.forall_mem_map.mpr fun w _ => ?_
        show 32 ≤ 8 * (0x140 + 8 * w)
        omega
      | _ => simp [own]
    refine ⟨[⟨32, 32, 0x01000000⟩, ⟨64, 32, pgCap t p⟩] ++ own ++ (hdrRows ++ pageRows p).map (fun r => ⟨8 * r.off + r.lsb, r.width, rd t p r⟩),
      rfl, List.forall_mem_append.mpr ⟨List.forall_mem_append.mpr ⟨by simp, hown⟩, List.forall_mem_map.mpr fun r hr => ?_⟩⟩
    have hoff := pageFieldRows_off p hr
    show 32 ≤ 8 * r.off + r.lsb
    omega

/-- R50: the first 4 bytes of a page, there or ABSENT, are PG_ID. -/
theorem pageRead_pgId (s : State) (p : Page) : pageRead s p 0 4 = pgId p := by
  obtain ⟨l, hl, hpast⟩ := pageFields_pgId s p
  have hid : (⟨0, 32, pgId p⟩ : FieldVal).part 0 4 = pgId p := by
    simpa [FieldVal.part] using pgId_lt p
  have hrest : (l.map (fun f => f.part 0 4)).sum = 0 := List.sum_eq_zero (by
    simp only [List.mem_map]
    rintro _ ⟨f, hf, rfl⟩
    exact f.part_past (hpast f hf))
  rw [pageRead, hl, List.map_cons, List.sum_cons, hid, hrest, Nat.add_zero]

/-! ### The host's completion. -/

section
variable (s : State) (who : Requester)
@[simp] theorem dcsGood_regs : (dcsGood s who).regs = s.regs := by cases who <;> rfl
@[simp] theorem dcsGood_fuses : (dcsGood s who).fuses = s.fuses := by cases who <;> rfl
@[simp] theorem dcsGood_mg : (dcsGood s who).mg = s.mg := by cases who <;> rfl
@[simp] theorem dcsGood_power : (dcsGood s who).power = s.power := by cases who <;> rfl
@[simp] theorem held_dcsGood : held (dcsGood s who) = held s := held_congr (by simp) (by simp)
@[simp] theorem rd_dcsGood (p : Page) (r : Row) : rd (dcsGood s who) p r = rd s p r := rd_congr (by simp) p r
@[simp] theorem pgState_dcsGood (p : Page) : pgState (dcsGood s who) p = pgState s p :=
  pgState_congr (by simp) (by simp) (by simp) (by simp) (by simp)
end

/-- A page that is not ABSENT is not held in reset. -/
theorem held_of_pgState {s : State} {p : Page} (h : pgState s p ≠ 0) : held s = false := by
  by_contra hc
  simp [pgState, hc] at h

/-! ### A write of PG_EVTEN. -/

/-- No register whose write does more than store lies in the common header (64 bits wide). -/
theorem write64_header (s : State) (p : Page) {o : Nat} (ho : o < 0x100) (mask v size off : Nat) : write64 s p o mask v size off = none := by
  cases p <;> simp (disch := omega) only [write64, if_neg]

/-- No register whose write does more than store lies in the common header (32 bits wide, PG_CTRL apart). -/
theorem write32_header (s : State) (p : Page) {o : Nat} (ho : o < 0x100) (v : Nat) : write32 s p o v = none := by
  cases p <;> simp (disch := omega) only [write32, ceilUnit, cacheOfPage, if_neg, ite_self, Option.bind_fun_none]

/-- A field that starts past the bytes written is not covered. -/
theorem covered_past {bit width off size v : Nat} (h : 8 * (off + size) ≤ bit) : covered bit width off size v = none := by
  unfold covered
  exact if_pos (by omega)

/-- A write to the common header covers no RW field. -/
theorem coversRw_header (p : Page) {o size : Nat} (ho : o + size ≤ 0x100) : coversRw p o size = false := by
  refine List.any_eq_false.mpr fun r hr => ?_
  have hoff := pageRows_off p hr
  rw [covered_past (by omega)]
  simp

/-- One field of a 32-bit word written by its access code. -/
def writeRow (p : Page) (o v : Nat) (s : State) (r : Row) : State :=
  match covered (8 * r.off + r.lsb) r.width o 4 v with
  | none => s
  | some (mask, new) => match r.acc with
    | .ro | .w1s => s
    | .w1c => wr s p r (rd s p r - (rd s p r &&& new))
    | .rwl => wr s p r (merge (rd s p r) mask (if r.off = hdrEvtEn.off then new &&& p.evtMask else new))
    | .rw => if pgState s p = 2 then wr s p r (merge (rd s p r) mask new) else s

theorem writeRows_eq (s : State) (p : Page) (o v : Nat) : writeRows s p o v = (hdrRows ++ pageRows p).foldl (writeRow p o v) s := rfl

theorem writeRow_uncovered {r : Row} {o v : Nat} (h : covered (8 * r.off + r.lsb) r.width o 4 v = none) (p : Page) (s : State) :
    writeRow p o v s r = s := by
  unfold writeRow; rw [h]

/-- Of a write to the common header the block registers see nothing. -/
theorem writeRows_header (s : State) (p : Page) {o : Nat} (ho : o + 4 ≤ 0x100) (v : Nat) :
    writeRows s p o v = hdrRows.foldl (writeRow p o v) s := by
  rw [writeRows_eq, List.foldl_append]
  generalize hdrRows.foldl (writeRow p o v) s = t
  refine List.foldlRecOn (motive := (· = t)) _ _ rfl ?_
  rintro _ rfl r hr
  have hoff := pageRows_off p hr
  exact writeRow_uncovered (covered_past (by omega)) p _

/-- R11, R63: the word at PG_EVTEN replaces the bits that are not reserved. -/
theorem writeRows_evtEn (s : State) (p : Page) (v : Nat) : writeRows s p 0x28 v = wr s p hdrEvtEn (v % 2 ^ 32 &&& p.evtMask) := by
  have hall : merge (rd s p hdrEvtEn) (2 ^ 32 - 1) (v % 2 ^ 32 &&& p.evtMask) = v % 2 ^ 32 &&& p.evtMask := by
    have hlt : rd s p hdrEvtEn < 2 ^ 32 := rd_lt s p hdrEvtEn
    rw [merge, Nat.and_two_pow_sub_one_eq_mod, Nat.mod_eq_of_lt hlt, Nat.sub_self, Nat.zero_add]
  rw [writeRows_header s p (by decide), ← hall]
  simp [hdrRows, writeRow, covered, hdrEpoch, hdrState, hdrBusy, hdrErr, hdrErrInfo, hdrErrAddr, hdrEvtEn, hdrEvt, hdrSteps]

/-- A 4-byte write of PG_EVTEN of a page that is there stores the bits that are not reserved. -/
theorem pageWrite_evtEn {s : State} {p : Page} (hp : pgState s p ≠ 0) (v : Nat) :
    pageWrite s p 0x28 4 v = wr s p hdrEvtEn (v % 2 ^ 32 &&& p.evtMask) := by
  have hlock : coversRw p 0x28 4 = false := coversRw_header p (by decide)
  have hword : writeWord s p 0x28 (v % 2 ^ 32) = wr s p hdrEvtEn (v % 2 ^ 32 &&& p.evtMask) := by
    rw [writeWord, if_neg (by decide), write32_header s p (by decide)]
    exact (writeRows_evtEn s p (v % 2 ^ 32)).trans (by rw [Nat.mod_mod])
  unfold pageWrite
  rw [if_neg hp]
  extract_lets lock sh w t
  have hl : lock = false := by simp only [lock, hlock, Bool.and_false, Bool.false_and]
  have ht : t = w := by
    simp only [t, write64_header s p (show 0x28 / 8 * 8 < 0x100 by decide)]
    rfl
  rw [hl, ht]
  exact hword

/-! ### Accesses as commands. -/

/-- A REGISTER_WRITE and a DCS_ACCESS that writes are the same access. -/
theorem exec_dcsAccess_write (who : Requester) (off : BitVec 26) (size : Nat) (v : BitVec 64) (s : State) :
    exec (.dcsAccess who off size (some v)) s = exec (.registerWrite who off size v) s := rfl

theorem exec_dcsAccess_read {s : State} {who : Requester} {off : BitVec 26} {size : Nat} (hs : held s = false)
    (hr : dcsReaches s who off.toNat = true) (ha : dcsAligned off.toNat size = true) :
    exec (.dcsAccess who off size none) s =
      .next { (dcsRead (dcsGood s who) off.toNat size).2 with resp := toLE size (dcsRead (dcsGood s who) off.toNat size).1 } := by
  show execDcsAccess who off size none s = _
  simp [execDcsAccess, hs, hr, ha]

theorem exec_registerWrite_aligned {s : State} {who : Requester} {off : BitVec 26} {size : Nat} (hs : held s = false)
    (hr : dcsReaches s who off.toNat = true) (ha : dcsAligned off.toNat size = true) (v : BitVec 64) :
    exec (.registerWrite who off size v) s = .next (dcsWrite (dcsGood s who) who off.toNat size (v.toNat % 2 ^ (8 * size))) := by
  show execRegisterWrite who off size v s = _
  simp [execRegisterWrite, hs, hr, ha]

theorem exec_registerWrite_refused {s : State} {who : Requester} {off : BitVec 26} {size : Nat} (hs : held s = false)
    (hr : dcsReaches s who off.toNat = true) (ha : dcsAligned off.toNat size = false) (v : BitVec 64) :
    exec (.registerWrite who off size v) s = .next (dcsBad s who off.toNat true) := by
  show execRegisterWrite who off size v s = _
  simp [execRegisterWrite, hs, hr, ha]

/-! ### A refused access. -/

theorem StateInv.regs_rising {s : State} (h : StateInv s) : Rising s.regs := by
  obtain ⟨⟨hregs, -⟩, -⟩ := h
  exact hregs

theorem StateInv.log_rising {s : State} (h : StateInv s) : Rising s.log := by
  obtain ⟨⟨-, ⟨hlog, -⟩, -⟩, -⟩ := h
  exact hlog

section
variable (s : State) (n : CoreId)
@[simp] theorem modHart_regs (f : Hart → Hart) : (modHart s n f).regs = s.regs := rfl
@[simp] theorem modHart_log (f : Hart → Hart) : (modHart s n f).log = s.log := rfl
@[simp] theorem setCsr_regs (k v : Nat) : (setCsr s n k v).regs = s.regs := rfl
@[simp] theorem setCsr_log (k v : Nat) : (setCsr s n k v).log = s.log := rfl
@[simp] theorem coreGo_log (pc : BitVec 64) : (coreGo s n pc).log = s.log := rfl

/-- Of the registers a jump writes CORE.PC alone. -/
theorem coreGo_fields {s t : State} (h : t.regs = s.regs) (hs : Rising s.regs) (pc : BitVec 64) :
    FieldsBut [corePc.key (.core n)] s (coreGo t n pc) :=
  (FieldsBut.of_regs [] h).trans (FieldsBut.wr t _ _ _ (h ▸ hs))

/-- A trap leaves the error log. -/
theorem coreTrap_log (intr : Bool) (cause : Nat) (val : BitVec 64) : (coreTrap s n intr cause val).log = s.log := by
  unfold coreTrap
  extract_lets _ _ _ _ _ _ _ put
  split <;> simp [put]

/-- Of the registers a trap writes CORE.PC alone. -/
theorem coreTrap_fields (intr : Bool) (cause : Nat) (val : BitVec 64) (hs : Rising s.regs) :
    FieldsBut [corePc.key (.core n)] s (coreTrap s n intr cause val) := by
  unfold coreTrap
  extract_lets _ _ _ _ _ _ _ put
  split <;> exact coreGo_fields n (by simp [put]) hs _
end

/-- R68: with room in the log, an entry is written at LOG_HEAD, which counts it. -/
theorem logWrite_room {s : State} (addr src code sev : Nat) (va : Bool) (info : Nat) (hs : StateInv s)
    (hroom : rd s .hub hubLogHead - rd s .hub hubLogTail < 256) :
    FieldsBut [hubLogHead.key .hub, hdrEvt.key .hub] s (logWrite s addr src code sev va info) ∧
    ∃ e, mget none (logWrite s addr src code sev va info).log (rd s .hub hubLogHead % 256) = some e ∧
      e.code = BitVec.ofNat 16 code ∧ e.info = BitVec.ofNat 32 info := by
  unfold logWrite
  extract_lets h x e
  rw [if_neg (by omega)]
  have hlog : mget none (mset none s.log (h % 256) (some e)) (h % 256) = some e := mget_mset_same none s.log _ _ hs.log_rising
  have hrise := hs.regs_rising
  generalize mset none s.log (h % 256) (some e) = l at hlog ⊢
  have hnew : FieldsBut [] s { s with log := l } := .of_regs _ rfl
  refine ⟨(hnew.trans (.wr _ _ _ _ hrise)).trans (setEvt_fields _ _ _ (wr_rising _ _ _ _ hrise)), e, ?_, rfl, rfl⟩
  rw [setEvt_events]
  exact hlog

/-- R43, R68: with room in the log, a refused access is logged with its requester. -/
theorem dcsRefuse_room {s : State} (who : Requester) (hs : StateInv s) (hh : held s = false)
    (hroom : rd s .hub hubLogHead - rd s .hub hubLogTail < 256) :
    FieldsBut [hubLogHead.key .hub, hdrEvt.key .hub] s (dcsRefuse s who) ∧
    ∃ e, mget none (dcsRefuse s who).log (rd s .hub hubLogHead % 256) = some e ∧
      e.code = 0x102 ∧ e.info = BitVec.ofNat 32 (requesterCode who) := by
  rw [dcsRefuse, if_neg (by simp [hh])]
  exact logWrite_room _ _ _ _ _ _ hs hroom

theorem dcsRefuse_rising {s : State} (who : Requester) (hs : Rising s.regs) : Rising (dcsRefuse s who).regs := by
  unfold dcsRefuse
  split
  · exact hs
  · exact logWrite_rising _ _ _ _ _ _ _ hs

/-- A core's access fault and the host's completer abort leave the error log. -/
theorem dcsBad_log (s : State) (who : Requester) (off : Nat) (write : Bool) : (dcsBad s who off write).log = (dcsRefuse s who).log := by
  cases who with
  | core n => exact coreTrap_log ..
  | docent b | host | hubFirmware | mgFirmware => rfl

/-- Of the registers a refused access writes, beside those of its log entry, the PC of the core that traps. -/
theorem dcsBad_fields {s : State} (who : Requester) (off : Nat) (write : Bool) (hs : Rising s.regs) :
    FieldsBut (match who with | .core n => [corePc.key (.core n)] | _ => []) (dcsRefuse s who) (dcsBad s who off write) := by
  cases who with
  | core n => exact coreTrap_fields _ n _ _ _ (dcsRefuse_rising _ hs)
  | docent b | host | hubFirmware | mgFirmware => exact .of_regs _ rfl

/-- R492: a requester's code fits INFO. -/
theorem requesterCode_lt (who : Requester) : requesterCode who < 2 ^ 32 := by
  cases who <;> simp only [requesterCode] <;> omega

/-! ### The obligation. -/

/-- R50: a read of PG_ID answers the page's identity and changes nothing but the answer and the host's completion. -/
theorem dcsAccess_pgId {s : State} {who : Requester} {p : Page} (hs : held s = false) (hr : dcsReaches s who (4096 * p.slot) = true) :
    exec (.dcsAccess who (BitVec.ofNat 26 (4096 * p.slot)) 4 none) s =
      .next { dcsGood s who with resp := toLE 4 (p.type * 65536 + p.inst) } := by
  have hoff : (BitVec.ofNat 26 (4096 * p.slot)).toNat = 4096 * p.slot + 0 := dcsOffset_toNat p (o := 0) (by decide)
  have hread := dcsRead_page (s := dcsGood s who) (by simpa using hs) p (o := 0) (by decide) (by decide) 4
  rw [exec_dcsAccess_read hs (by rw [hoff]; exact hr) (by rw [hoff]; exact dcsAligned_four p (by decide)), hoff, hread, pageRead_pgId]
  rfl

/-- R11, R63: a write of PG_EVTEN of a page that is there stores the bits that are not reserved. -/
theorem registerWrite_evtEn {s : State} {who : Requester} {p : Page} (v : BitVec 32) (hp : pgState s p ≠ 0)
    (hr : dcsReaches s who (4096 * p.slot + 0x28) = true) :
    exec (.registerWrite who (BitVec.ofNat 26 (4096 * p.slot + 0x28)) 4 (v.zeroExtend 64)) s =
      .next (wr (dcsGood s who) p hdrEvtEn (v.toNat &&& p.evtMask)) := by
  have hs := held_of_pgState hp
  have hoff := dcsOffset_toNat p (o := 0x28) (by decide)
  have hv : (v.zeroExtend 64).toNat % 2 ^ (8 * 4) % 2 ^ 32 = v.toNat := by
    have := v.isLt
    simp only [BitVec.truncate_eq_setWidth, BitVec.toNat_setWidth]
    omega
  rw [exec_registerWrite_aligned hs (by rw [hoff]; exact hr) (by rw [hoff]; exact dcsAligned_four p (by decide)), hoff,
    dcsWrite_page (by simpa using hs) who p (o := 0x28) (by decide), pageWrite_evtEn (by simpa using hp), hv]

/-- Settles O2: each clause is what its access does to the page or, refused, to the log. -/
theorem dcsAccessesReadAndWrite : Obligations.DcsAccessesReadAndWrite := by
  refine ⟨fun s who p hs hr => ⟨_, dcsAccess_pgId hs hr, rfl⟩, fun s who p v hinv hp hr => ?_, fun s who off size v hinv hs hr ha hroom => ?_⟩
  · have hrise : Rising (dcsGood s who).regs := by simpa using hinv.regs_rising
    have hfield : v.toNat &&& p.evtMask < 2 ^ 32 := Nat.lt_of_le_of_lt Nat.and_le_left v.isLt
    have hkeep : FieldsBut [] s (dcsGood s who) := .of_regs _ (by simp)
    refine ⟨_, registerWrite_evtEn v hp hr, ?_, .wr .., hkeep.trans (.wr _ _ _ _ hrise)⟩
    rw [rd_wr_same _ _ _ _ hrise (by decide)]
    exact Nat.mod_eq_of_lt hfield
  · obtain ⟨hfields, e, hlog, hcode, hinfo⟩ := dcsRefuse_room who hinv hs hroom
    have hexec := exec_registerWrite_refused hs hr ha v
    refine ⟨_, hexec, (exec_dcsAccess_write ..).trans hexec, ?_, hfields.trans (dcsBad_fields who _ _ hinv.regs_rising), ?_⟩
    · rw [dcsBad_log, hlog, Option.map_some, hcode, hinfo, BitVec.toNat_ofNat, Nat.mod_eq_of_lt (requesterCode_lt who)]
      rfl
    · rintro rfl
      rfl

end Sys2Proof.Machine
end

section
/-! The module's parts: the local timer (R40), and the engines of a bay (R17). -/

namespace Sys2Proof.Machine

/-! ### The local timer. -/

/-- R40: TIMER counts one unit of 10 ns and wraps at its 64 bits. -/
theorem rd_timerTick {s : State} (hs : Rising s.regs) (hh : held s = false) :
    rd (timerTick s) .hub hubTimer = (rd s .hub hubTimer + 1) % 2 ^ 64 := by
  rw [timerTick, if_neg (by simp [hh])]
  exact rd_wr_same s .hub hubTimer _ hs (by decide)

/-- On an empty queue a step is a tick of the local timer. -/
theorem step_of_empty {s : State} (hp : s.pending = []) : step s = .next (timerTick s) := by
  rw [step, hp]

/-- Settles O42: of the local timer's tick TIMER alone is a register, and a held module does not tick. -/
theorem emptyQueueCountsTheTimer : Obligations.EmptyQueueCountsTheTimer := by
  refine ⟨fun s hinv hp hh => ⟨timerTick s, step_of_empty hp, rd_timerTick hinv.regs_rising hh, ?_, ?_⟩, fun s hp hh => ?_⟩
  · rw [timerTick, if_neg (by simp [hh])]
    exact .wr ..
  · rw [timerTick, if_neg (by simp [hh])]
    exact .wr _ _ _ _ hinv.regs_rising
  · rw [step_of_empty hp, timerTick, if_pos hh]

/-! ### The engines of a bay. -/

/-- A state whose table of bays lists bay 5 before bay 2, and bay 5 at its reset value. -/
def unsortedBays : State := { State.reset with bays := [(5, {}), (2, { nextOp := 1 })] }

/-- Refutes O58: the statement does not ask that the table of bays be in its canonical form. In `unsortedBays` a write-back of bay 5 finds nothing
to correct and stores the bay as it is; that drops the entry of bay 5, before which bay 2 was not found, and bay 2 reads otherwise. -/
theorem not_bayEnginesStayInTheirBay : ¬ Obligations.BayEnginesStayInTheirBay := by
  intro h
  obtain ⟨hother, -⟩ := h 5 (.correctionWriteback 5 0) unsortedBays _ rfl rfl
  have hbay : bayOf { unsortedBays with bays := [(2, { nextOp := 1 })] } 2 = bayOf unsortedBays 2 := hother 2 (by decide)
  have hop : (1 : Nat) = 0 := congrArg Bay.nextOp hbay
  exact absurd hop (by decide)

end Sys2Proof.Machine
end

section
/-! The cap loop and the pacers (R31, R37, R457 to R466, R485): what a period, a frame and a rate window do to the registers. -/

namespace Sys2Proof.Machine

/-! ### Frames of the register store. -/

/-- From a register store in its canonical form: it stays so, and the fields at the keys of `K` read as before. -/
structure RegsKept (K : Nat → Prop) (s t : State) : Prop where
  kept : Rising s.regs → Rising t.regs ∧ ∀ p r, K (r.key p) → rd t p r = rd s p r

section
variable {K : Nat → Prop} {s t u : State} {p : Page} {r : Row}

theorem RegsKept.rising (h : RegsKept K s t) (hs : Rising s.regs) : Rising t.regs := (h.kept hs).1

theorem RegsKept.rd_eq (h : RegsKept K s t) (hs : Rising s.regs) (hk : K (r.key p)) : rd t p r = rd s p r := (h.kept hs).2 p r hk

theorem RegsKept.of_regs (h : t.regs = s.regs := by rfl) : RegsKept K s t := ⟨fun hs => ⟨h ▸ hs, fun p r _ => rd_congr h p r⟩⟩

theorem RegsKept.refl (s : State) : RegsKept K s s := .of_regs rfl

theorem RegsKept.trans (h1 : RegsKept K s t) (h2 : RegsKept K t u) : RegsKept K s u :=
  ⟨fun hs => ⟨h2.rising (h1.rising hs), fun _ _ hk => (h2.rd_eq (h1.rising hs) hk).trans (h1.rd_eq hs hk)⟩⟩

theorem RegsKept.of_fields {ks : List Nat} (h : RegsKept K s t) (hr : Rising t.regs → Rising u.regs) (hf : Rising t.regs → FieldsBut ks t u)
    (hk : ∀ k ∈ ks, ¬ K k) : RegsKept K s u :=
  h.trans ⟨fun hs => ⟨hr hs, fun p r h => hf hs p r (fun hm => hk _ hm h)⟩⟩

theorem RegsKept.wr (h : RegsKept K s t) (hk : ¬ K (r.key p)) {v : Nat} : RegsKept K s (wr t p r v) :=
  h.of_fields (wr_rising t p r v) (.wr t p r v) (by simpa using hk)

theorem RegsKept.setEvt (h : RegsKept K s t) (hk : ¬ K (hdrEvt.key p)) {b : Nat} : RegsKept K s (setEvt t p b) :=
  h.of_fields (setEvt_rising t p b) (setEvt_fields t p b) (by simpa using hk)

theorem RegsKept.enter (h : RegsKept K s t) (h1 : ¬ K (hdrState.key p)) (h2 : ¬ K (hdrBusy.key p)) (h3 : ¬ K (hdrEvt.key p)) {st : Nat} :
    RegsKept K s (enter t p st) :=
  h.of_fields (enter_rising t p st) (enter_fields t p st) (by simp [h1, h2, h3])

theorem RegsKept.logWrite (h : RegsKept K s t) (hk : ∀ k ∈ logKeys, ¬ K k) {addr src code sev : Nat} {va : Bool} {info : Nat} :
    RegsKept K s (logWrite t addr src code sev va info) :=
  h.of_fields (logWrite_rising t addr src code sev va info) (logWrite_fields t addr src code sev va info) hk

theorem RegsKept.raise (h : RegsKept K s t) {e : Err} (he : e.stop = false) (hk : ∀ k ∈ raiseKeys p, ¬ K k) : RegsKept K s (raise t p e) :=
  h.of_fields (raise_rising t p e he) (raise_fields t p e he) hk

theorem RegsKept.foldl {α : Type} {f : State → α → State} {l : List α} (h : RegsKept K s t) (hf : ∀ s, ∀ a ∈ l, RegsKept K s (f s a)) :
    RegsKept K s (l.foldl f t) :=
  List.foldlRecOn l f h fun _ hx a ha => hx.trans (hf _ a ha)
end

/-- Slots tell pages apart. -/
theorem Page.slot_injective : Function.Injective Page.slot := fun p q h => by
  have hp := pageOfSlot_slot p
  rw [h, pageOfSlot_slot q] at hp
  exact (Option.some.inj hp).symm

/-- Fields of different pages have different keys. -/
theorem key_ne_page {p q : Page} {r r' : Row} (hr : r.off * 8 + r.lsb < 32768) (hr' : r'.off * 8 + r'.lsb < 32768) (h : r.home p ≠ r'.home q) :
    r.key p ≠ r'.key q := fun he => by
  refine h (Page.slot_injective ?_)
  unfold Row.key at he
  omega

/-! ### The fields that the cap loop reads. -/

/-- A unit's page is a bay's PACE page or a CLUS page. -/
theorem unitPage_cases (u : Fin 72) : (∃ b, unitPage u = .pace b) ∨ ∃ d j, unitPage u = .clus d j := by
  unfold unitPage
  split
  · exact .inl ⟨_, rfl⟩
  · exact .inr ⟨_, _, rfl⟩

theorem unitPage_injective : Function.Injective unitPage := fun u v h => by
  unfold unitPage at h
  split at h <;> split at h <;> simp at h <;> omega

theorem home_unitPage (r : Row) (u : Fin 72) : r.home (unitPage u) = unitPage u := by
  obtain ⟨b, h⟩ | ⟨d, j, h⟩ := unitPage_cases u <;> rw [h] <;> rfl

/-- A field of one unit's page has another key than that of another's. -/
theorem key_unitPage_ne {r : Row} (hr : r.off * 8 + r.lsb < 32768) {u v : Fin 72} (h : u ≠ v) : r.key (unitPage u) ≠ r.key (unitPage v) :=
  key_ne_page hr hr (by simpa only [home_unitPage] using fun he => h (unitPage_injective he))

/-- The keys of the units' loop levels and page states, and of the mode in force. -/
def loopKey (k : Nat) : Prop :=
  (∃ u, k = paceLevelLoop.key (unitPage u) ∨ k = hdrState.key (unitPage u)) ∨ k = pwrStatusModeInForce.key .mgpwr

theorem loopKey_level (u : Fin 72) : loopKey (paceLevelLoop.key (unitPage u)) := .inl ⟨u, .inl rfl⟩
theorem loopKey_state (u : Fin 72) : loopKey (hdrState.key (unitPage u)) := .inl ⟨u, .inr rfl⟩
theorem loopKey_mode : loopKey (pwrStatusModeInForce.key .mgpwr) := .inr rfl

/-- A field at another place of its page is none of them. -/
theorem not_loopKey_off {r : Row} (h : r.off * 8 + r.lsb < 32768 ∧ r.off * 8 + r.lsb ∉ [2056, 160, 2112]) (p : Page) : ¬ loopKey (r.key p) := by
  obtain ⟨hr, hn⟩ := h
  have hm := key_mod p r hr
  rintro (⟨u, he | he⟩ | he) <;> rw [he, key_mod _ _ (by decide)] at hm <;> exact hn (by rw [← hm]; decide)

/-- A field of a page that is neither a unit's nor MGPWR's is none of them. -/
theorem not_loopKey_page {r : Row} {p : Page} (hr : r.off * 8 + r.lsb < 32768) (hu : ∀ u, r.home p ≠ unitPage u) (hm : r.home p ≠ .mgpwr) :
    ¬ loopKey (r.key p) := by
  rintro (⟨u, he | he⟩ | he)
  · exact key_ne_page hr (by decide) (by rw [home_unitPage]; exact hu u) he
  · exact key_ne_page hr (by decide) (by rw [home_unitPage]; exact hu u) he
  · exact key_ne_page hr (by decide) hm he

theorem logKeys_not_loopKey : ∀ k ∈ logKeys, ¬ loopKey k := by
  simp only [logKeys, errKeys, List.forall_mem_cons, List.not_mem_nil, false_implies, implies_true, and_true]
  refine ⟨?_, ?_, ?_, ?_, ?_, ?_⟩ <;> exact not_loopKey_off (by decide) _

theorem raiseKeys_not_loopKey (p : Page) : ∀ k ∈ raiseKeys p, ¬ loopKey k := by
  refine List.forall_mem_append.mpr ⟨?_, logKeys_not_loopKey⟩
  simp only [errKeys, List.forall_mem_cons, List.not_mem_nil, false_implies, implies_true, and_true]
  refine ⟨?_, ?_, ?_, ?_⟩ <;> exact not_loopKey_off (by decide) _

/-! ### A brake in a period (R468) leaves them. -/

theorem forcedUnit_loopKept (x : State × Bool) (u : Fin 72) : RegsKept loopKey x.1 (forcedUnit x u).1 := by
  unfold forcedUnit
  extract_lets s p b h t
  split
  · exact .refl _
  · exact .setEvt (.wr (.wr (.wr (.refl s) (not_loopKey_off (by decide) p)) (not_loopKey_off (by decide) p)) (not_loopKey_off (by decide) p))
      (not_loopKey_off (by decide) p)

theorem forcedUnits_loopKept (l : List (Fin 72)) (x : State × Bool) : RegsKept loopKey x.1 (l.foldl forcedUnit x).1 :=
  List.foldlRecOn (motive := fun y : State × Bool => RegsKept loopKey x.1 y.1) l forcedUnit (.refl _) fun _ h u _ => h.trans (forcedUnit_loopKept _ u)

theorem forcedUpdate_loopKept (s : State) : RegsKept loopKey s (forcedUpdate s) := by
  have hr := forcedUnits_loopKept (List.finRange 72) (s, false)
  unfold forcedUpdate
  extract_lets r
  split
  · exact hr.setEvt (not_loopKey_off (by decide) _)
  · exact hr

theorem brakeError_loopKept (s : State) : RegsKept loopKey s (brakeError s) := by
  unfold brakeError
  split
  · exact (RegsKept.refl s).logWrite logKeys_not_loopKey
  · exact (RegsKept.refl s).raise rfl (raiseKeys_not_loopKey _)

theorem brakeCause_loopKept (s : State) : RegsKept loopKey s (brakeCause s) := by
  unfold brakeCause
  split
  · exact .refl s
  · split
    · dsimp only
      exact .wr .of_regs (not_loopKey_off (by decide) _)
    · extract_lets _ x
      have hcount : RegsKept loopKey s (satAdd x .mgpwr pwrBrakes 1) := .wr .of_regs (not_loopKey_off (by decide) _)
      exact ((hcount.trans (brakeError_loopKept _)).setEvt (not_loopKey_off (by decide) _)).trans (forcedUpdate_loopKept _)

/-! ### STOP of the pages of a unit (R485) leaves them. -/

/-- The pages with RUNCTL of a bay, and of a core. -/
def enginePage : Page → Bool
  | .doc _ | .issue _ | .arr _ _ | .vec _ | .tgu _ | .gth _ _ | .mov _ _ | .xlate _ | .core _ => true
  | _ => false

theorem bayPages_engine {b : BayId} {p : Page} (hp : p ∈ bayPages b) (hrun : p.runctl = true) : enginePage p = true := by
  cases p with
  | doc _ | issue _ | arr _ _ | vec _ | tgu _ | gth _ _ | mov _ _ | xlate _ | core _ => rfl
  | fport _ | router _ | flow _ | ce _ | host => simp [bayPages] at hp
  | _ => cases hrun

theorem unitRunPages_engine {u : Fin 72} {p : Page} (h : p ∈ unitRunPages u) : enginePage p = true := by
  unfold unitRunPages at h
  split at h
  · obtain ⟨hp, hrun⟩ := List.mem_filter.mp h
    exact bayPages_engine hp hrun
  · obtain ⟨n, -, rfl⟩ := List.mem_map.mp h
    rfl

theorem not_loopKey_engine {p : Page} (hp : enginePage p = true) {r : Row} (hr : r.off * 8 + r.lsb < 32768) : ¬ loopKey (r.key p) := by
  have hhome : r.home p = p := by
    cases p with
    | doc _ | issue _ | arr _ _ | vec _ | tgu _ | gth _ _ | mov _ _ | xlate _ | core _ => rfl
    | _ => cases hp
  refine not_loopKey_page hr (fun u he => ?_) (fun he => ?_) <;> rw [hhome] at he
  · obtain ⟨b, h⟩ | ⟨d, j, h⟩ := unitPage_cases u <;> rw [he, h] at hp <;> cases hp
  · rw [he] at hp
    cases hp

section
variable {s t : State}

theorem RegsKept.wrEngine {p : Page} (h : RegsKept loopKey s t) (hp : enginePage p = true) {r : Row} (hr : r.off * 8 + r.lsb < 32768) {v : Nat} :
    RegsKept loopKey s (Machine.wr t p r v) :=
  h.wr (not_loopKey_engine hp hr)

theorem RegsKept.enterEngine {p : Page} (h : RegsKept loopKey s t) (hp : enginePage p = true) {st : Nat} :
    RegsKept loopKey s (Machine.enter t p st) :=
  h.enter (not_loopKey_engine hp (by decide)) (not_loopKey_engine hp (by decide)) (not_loopKey_engine hp (by decide))
end

theorem opsDrop_regs (b : BayId) (l : List Nat) (s : State) : (opsDrop s b l).regs = s.regs :=
  List.foldlRecOn (motive := fun t : State => t.regs = s.regs) l _ rfl fun _ ht _ _ => ht

theorem arrDiscard_regs (s : State) (b : BayId) (a : Nat) : (arrDiscard s b a).regs = s.regs := by
  unfold arrDiscard
  refine List.foldlRecOn (motive := fun t : State => t.regs = s.regs) _ _ rfl fun t ht o _ => ?_
  show ((gangOf o.op).foldl _ t).regs = s.regs
  exact List.foldlRecOn (motive := fun t : State => t.regs = s.regs) _ _ ht fun _ ht _ _ => ht

theorem vecDiscard_regs (s : State) (b : BayId) : (vecDiscard s b).regs = s.regs := by
  have ha : (vecAbandon s b).regs = s.regs := by
    unfold vecAbandon
    dsimp only
    split <;> rfl
  unfold vecDiscard
  dsimp only
  split <;> exact ha

theorem tguDiscard_loopKept (s : State) (b : BayId) : RegsKept loopKey s (tguDiscard s b) := by
  unfold tguDiscard
  extract_lets t ids x y
  have hx : RegsKept loopKey s x := .of_regs (opsDrop_regs _ _ _)
  have hy : RegsKept loopKey s y := hx.foldl fun s k hk => by
    have hk := List.mem_range.mp hk
    refine .wrEngine (.wrEngine (.wrEngine (.wrEngine (.refl s) rfl ?_) rfl ?_) rfl ?_) rfl ?_
    all_goals simp only [tguBlkDescValid, tguBlkLive, tguBlkBarpend, tguBlkShapeThreads]; omega
  exact .wrEngine (.wrEngine (.wrEngine hy rfl (by decide)) rfl (by decide)) rfl (by decide)

theorem issueDiscard_loopKept (s : State) (b : BayId) : RegsKept loopKey s (issueDiscard s b) := by
  unfold issueDiscard
  extract_lets ids x
  have hx : RegsKept loopKey s x := .of_regs (opsDrop_regs _ _ _)
  refine hx.foldl fun s q hq => ?_
  have hq := List.mem_range.mp hq
  refine .wrEngine (.wrEngine (.wrEngine (.wrEngine (.refl s) rfl ?_) rfl ?_) rfl ?_) rfl ?_
  all_goals simp only [issQQstatState, issQQstatDepth, issQQstatRec, issQQstatPending]; omega

theorem movDiscard_loopKept (s : State) (b : BayId) (m : Fin 4) : RegsKept loopKey s (movDiscard s b m) := by
  have hset : RegsKept loopKey s (setMovs s b m []) := .wrEngine .of_regs rfl (by decide)
  exact hset.trans (.of_regs (opsDrop_regs _ _ _))

theorem gthDiscard_loopKept (s : State) (b : BayId) (g : Fin 2) : RegsKept loopKey s (gthDiscard s b g) := by
  have hset : RegsKept loopKey s (setGths s b g []) := .wrEngine .of_regs rfl (by decide)
  exact hset.trans (.of_regs (opsDrop_regs _ _ _))

theorem blockDiscard_loopKept {p : Page} (hp : enginePage p = true) (s : State) : RegsKept loopKey s (blockDiscard s p) := by
  cases p with
  | arr b a => exact .of_regs (arrDiscard_regs s b a.val)
  | vec b => exact .of_regs (vecDiscard_regs s b)
  | tgu b => exact tguDiscard_loopKept s b
  | mov b m => exact movDiscard_loopKept s b m
  | gth b g => exact gthDiscard_loopKept s b g
  | issue b => exact issueDiscard_loopKept s b
  | doc b => exact .of_regs
  | xlate b | core n => exact .refl s
  | _ => cases hp

theorem docAbandon_loopKept (s : State) (b : BayId) : RegsKept loopKey s (docAbandon s b) := by
  unfold docAbandon
  extract_lets x
  exact .wrEngine (.wrEngine (.wrEngine .of_regs rfl (by decide)) rfl (by decide)) rfl (by decide)

theorem stopBegin_loopKept {p : Page} (hp : enginePage p = true) (s : State) : RegsKept loopKey s (stopBegin s p) := by
  have he := (RegsKept.refl s).enterEngine hp (st := 5)
  cases p with
  | doc b => exact he.trans (docAbandon_loopKept _ b)
  | issue _ | arr _ _ | vec _ | tgu _ | gth _ _ | mov _ _ | xlate _ | core _ => exact he
  | _ => cases hp

theorem stopEnd_loopKept {p : Page} (hp : enginePage p = true) (s : State) : RegsKept loopKey s (stopEnd s p) := by
  cases p with
  | doc b => exact (docAbandon_loopKept s b).wrEngine rfl (by decide)
  | issue _ | arr _ _ | vec _ | tgu _ | gth _ _ | mov _ _ | xlate _ | core _ => exact .refl s
  | _ => cases hp

theorem enterStopped_loopKept {p : Page} (hp : enginePage p = true) (s : State) : RegsKept loopKey s (enterStopped s p) := by
  unfold enterStopped
  split
  · split
    · exact .enterEngine .of_regs hp
    · exact .enterEngine (.refl s) hp
  · exact .enterEngine (.refl s) hp

theorem stopCmd_loopKept {p : Page} (hp : enginePage p = true) (s : State) : RegsKept loopKey s (stopCmd s p) := by
  unfold stopCmd
  split
  · exact .refl s
  · extract_lets st
    split
    · exact (stopEnd_loopKept hp s).trans (enterStopped_loopKept hp _)
    · split
      · exact stopBegin_loopKept hp s
      · split
        · exact ((blockDiscard_loopKept hp s).trans (stopEnd_loopKept hp _)).trans (enterStopped_loopKept hp _)
        · exact .refl s

theorem pacerCheck_loopKept (s : State) (u : Fin 72) : RegsKept loopKey s (pacerCheck s u) := by
  unfold pacerCheck
  extract_lets x y
  have hy : RegsKept loopKey s y := (RegsKept.refl s).logWrite logKeys_not_loopKey
  refine .foldl ?_ fun s p hp => stopCmd_loopKept (unitRunPages_engine hp) s
  exact hy.trans .of_regs

/-! ### A period of the loop (R459). -/

theorem tjPeriod_only (s : State) : tjPeriod s = { s with power := { s.power with units := (tjPeriod s).power.units } } := by
  unfold tjPeriod
  refine List.foldlRecOn (motive := fun t : State => t = { s with power := { s.power with units := t.power.units } }) _ _ rfl fun t ht u _ => ?_
  rw [ht]

/-- The state with which the loop computes its levels: a cause that reset has hidden brakes, the pacers are checked, the junction limits set. -/
def loopStart (s : State) (cls : List UnitClass) : State :=
  let s := if (s.power.pbrakeLow ∨ s.power.alerts ≠ []) ∧ !s.power.braking then
      brakeCause (wr (wr s .mgpwr pwrStatusBrake (b2n s.power.pbrakeLow)) .mgpwr pwrStatusRegAlert (b2n (!s.power.alerts.isEmpty)))
    else s
  tjPeriod (levelsClear (((awakeUnits s).filter (pacerBad s cls)).foldl pacerCheck s))

/-- The state once the loop has set its levels in the mode in force. -/
def loopLevels (s : State) (p : Nat) (cls : List UnitClass) : State :=
  if rd s .mgpwr pwrStatusModeInForce = 0 then cappedPeriod s p cls else heldPeriod s (rd s .mgpwr pwrStatusModeInForce == 2)

theorem exec_capPeriod {s : State} (h : loopRuns s = true) (p : Nat) (cls : List UnitClass) :
    exec (.capPeriod p cls) s = .next (forcedUpdate { loopLevels (loopStart s cls) p cls with
      power := { (loopLevels (loopStart s cls) p cls).power with climb := false } }) := by
  show execCapPeriod p cls s = _
  unfold execCapPeriod
  rw [if_neg (by simp [h])]
  rfl

theorem loopStart_loopKept (s : State) (cls : List UnitClass) : RegsKept loopKey s (loopStart s cls) := by
  unfold loopStart
  extract_lets x
  have hx : RegsKept loopKey s x := by
    simp only [x]
    split
    · exact (RegsKept.wr (.wr (.refl s) (not_loopKey_off (by decide) _)) (not_loopKey_off (by decide) _)).trans (brakeCause_loopKept _)
    · exact .refl s
  have hcheck := hx.foldl (l := (awakeUnits x).filter (pacerBad x cls)) fun s u _ => pacerCheck_loopKept s u
  refine hcheck.trans (.of_regs ?_)
  rw [tjPeriod_only]
  rfl

/-! ### Loop levels within bounds. -/

/-- The loop level of a unit. -/
abbrev loopLevel (s : State) (u : Fin 72) : Nat := rd s (unitPage u) paceLevelLoop

theorem RegsKept.loopLevel_eq {s t : State} (h : RegsKept loopKey s t) (hs : Rising s.regs) (u : Fin 72) : loopLevel t u = loopLevel s u :=
  h.rd_eq hs (loopKey_level u)

theorem loopSet_only (s : State) (u : Fin 72) (v : Nat) : OnlyRegs s (loopSet s u v) := .wr ..

theorem loopSet_rising {s : State} (hs : Rising s.regs) (u : Fin 72) (v : Nat) : Rising (loopSet s u v).regs := wr_rising _ _ _ _ hs

/-- The level set is the value asked for or lower, but where R485 holds it at 4. -/
theorem loopLevel_loopSet_same {s : State} (hs : Rising s.regs) (u : Fin 72) (v : Nat) : loopLevel (loopSet s u v) u ≤ max v 4 := by
  unfold loopSet
  extract_lets a b
  have ha : a ≤ v := by
    simp only [a]
    split <;> omega
  have hb : b ≤ max v 4 := by
    simp only [b]
    split <;> omega
  rw [loopLevel, rd_wr_same _ _ _ _ hs (by decide)]
  exact Nat.le_trans (Nat.mod_le _ _) (by omega)

theorem loopLevel_loopSet_other {s : State} (hs : Rising s.regs) {u w : Fin 72} (h : w ≠ u) (v : Nat) :
    loopLevel (loopSet s u v) w = loopLevel s w :=
  rd_wr_other _ _ _ _ _ _ hs (key_unitPage_ne (by decide) h)

/-- In a canonical register store no unit's loop level exceeds its bound. -/
structure LevelsWithin (B : Fin 72 → Nat) (s : State) : Prop where
  rising : Rising s.regs
  le : ∀ u, loopLevel s u ≤ B u

theorem LevelsWithin.loopSet {B : Fin 72 → Nat} {s : State} (h : LevelsWithin B s) {u : Fin 72} {v : Nat} (hv : max v 4 ≤ B u) :
    LevelsWithin B (loopSet s u v) where
  rising := loopSet_rising h.rising u v
  le w := by
    by_cases hw : w = u
    · subst hw
      exact Nat.le_trans (loopLevel_loopSet_same h.rising w v) hv
    · rw [loopLevel_loopSet_other h.rising hw]
      exact h.le w

theorem LevelsWithin.of_kept {B : Fin 72 → Nat} {s t : State} (h : LevelsWithin B s) (hk : RegsKept loopKey s t) : LevelsWithin B t :=
  ⟨hk.rising h.rising, fun u => by rw [hk.loopLevel_eq h.rising]; exact h.le u⟩

/-! CAPPED: targets lie within 4 of the levels, and trimming only lowers them. -/

theorem loopTargets_le {s : State} {cls : List UnitClass} {x : LoopUnit} (h : x ∈ loopTargets s cls) : x.t ≤ loopLevel s x.u + 4 := by
  obtain ⟨u, -, rfl⟩ := List.mem_map.mp h
  unfold loopLevel
  dsimp only
  split
  · omega
  · split <;> omega

theorem loopTrim_le {B : Fin 72 → Nat} (every : Bool) (a n : Nat) (l : List LoopUnit) (h : ∀ x ∈ l, x.t ≤ B x.u) :
    ∀ x ∈ loopTrim every a n l, x.t ≤ B x.u := by
  induction n generalizing l with
  | zero => exact h
  | succ n ih =>
    rw [loopTrim]
    split
    · exact h
    · split
      · exact h
      · refine ih _ fun x hx => ?_
        obtain ⟨y, hy, rfl⟩ := List.mem_map.mp hx
        have hle := h y hy
        split
        · exact Nat.le_trans (Nat.sub_le _ _) hle
        · exact hle

theorem cappedPeriod_within {s : State} (hs : Rising s.regs) (p : Nat) (cls : List UnitClass) :
    LevelsWithin (fun u => loopLevel s u + 4) (cappedPeriod s p cls) := by
  unfold cappedPeriod
  extract_lets a l
  have hl : ∀ x ∈ l, x.t ≤ loopLevel s x.u + 4 :=
    loopTrim_le (B := fun u => loopLevel s u + 4) true a 576 _ (loopTrim_le (B := fun u => loopLevel s u + 4) false a 576 _ fun _ => loopTargets_le)
  have h0 : LevelsWithin (fun u => loopLevel s u + 4) { s with power := { s.power with allowance := a } } :=
    ⟨hs, fun u => Nat.le_add_right _ 4⟩
  refine List.foldlRecOn _ _ h0 fun t ht x hx => ht.loopSet ?_
  have := hl x hx
  omega

/-! FIXED and LOWEST: each awake unit is set once, to 4 or at most 4 above its level. -/

/-- The level that a period of FIXED or LOWEST sets for a unit. -/
def heldLevel (lowest : Bool) (s : State) (u : Fin 72) : Nat := if lowest then 4 else min 32 (loopLevel s u + 4)

theorem heldPeriod_eq (s : State) (lowest : Bool) :
    heldPeriod s lowest = allowanceHold ((awakeUnits s).foldl (fun s u => loopSet s u (heldLevel lowest s u)) s) := rfl

theorem heldLevels_within (lowest : Bool) {B : Fin 72 → Nat} (h4 : ∀ u, 4 ≤ B u) (l : List (Fin 72)) (hl : l.Nodup) {s : State}
    (hs : LevelsWithin B s) (hB : ∀ u ∈ l, loopLevel s u + 4 ≤ B u) :
    LevelsWithin B (l.foldl (fun s u => loopSet s u (heldLevel lowest s u)) s) := by
  induction l generalizing s with
  | nil => exact hs
  | cons u l ih =>
    obtain ⟨hu, hl⟩ := List.nodup_cons.mp hl
    have hv : max (heldLevel lowest s u) 4 ≤ B u := by
      have := hB u (by simp)
      have := h4 u
      unfold heldLevel
      split <;> omega
    refine ih hl (hs.loopSet hv) fun w hw => ?_
    have hne : w ≠ u := fun h => hu (h ▸ hw)
    rw [loopLevel_loopSet_other hs.rising hne]
    exact hB w (by simp [hw])

theorem heldLevels_lowest (l : List (Fin 72)) {s : State} (hs : Rising s.regs) {u : Fin 72} (h : u ∈ l ∨ loopLevel s u ≤ 4) :
    loopLevel (l.foldl (fun s u => loopSet s u (heldLevel true s u)) s) u ≤ 4 := by
  induction l generalizing s with
  | nil => simpa using h
  | cons w l ih =>
    refine ih (loopSet_rising hs ..) ?_
    by_cases hw : u = w
    · subst hw
      exact .inr (loopLevel_loopSet_same hs u _)
    · rw [loopLevel_loopSet_other hs hw]
      simpa [hw] using h

theorem awakeUnits_nodup (s : State) : (awakeUnits s).Nodup := (List.nodup_finRange 72).filter _

theorem allowanceHold_loopKept (s : State) : RegsKept loopKey s (allowanceHold s) := .of_regs

theorem heldPeriod_within {s : State} (hs : Rising s.regs) (lowest : Bool) : LevelsWithin (fun u => loopLevel s u + 4) (heldPeriod s lowest) := by
  rw [heldPeriod_eq]
  exact (heldLevels_within lowest (by simp) _ (awakeUnits_nodup s) ⟨hs, by simp⟩ (by simp)).of_kept (allowanceHold_loopKept _)

theorem heldPeriod_lowest {s : State} (hs : Rising s.regs) {u : Fin 72} (hu : unitOn s u = true) : loopLevel (heldPeriod s true) u ≤ 4 :=
  heldLevels_lowest _ hs (.inl (List.mem_filter.mpr ⟨List.mem_finRange u, hu⟩))

theorem loopLevels_within {s : State} (hs : Rising s.regs) (p : Nat) (cls : List UnitClass) :
    LevelsWithin (fun u => loopLevel s u + 4) (loopLevels s p cls) := by
  unfold loopLevels
  split
  · exact cappedPeriod_within hs p cls
  · exact heldPeriod_within hs _

/-- The end of a period leaves the levels. -/
theorem periodEnd_loopKept (s : State) : RegsKept loopKey s (forcedUpdate { s with power := { s.power with climb := false } }) :=
  .trans .of_regs (forcedUpdate_loopKept _)

/-! ### The allowance (R459). -/

theorem setEvt_power (s : State) (p : Page) (b : Nat) : (setEvt s p b).power = s.power := by rw [setEvt_events]

theorem forcedUpdate_power (s : State) : (forcedUpdate s).power = s.power := by
  have hunit : ∀ x u, (forcedUnit x u).1.power = x.1.power := fun x u => by
    unfold forcedUnit
    extract_lets s p b h t
    split
    · rfl
    · exact setEvt_power _ _ _
  have hall : ∀ l : List (Fin 72), (l.foldl forcedUnit (s, false)).1.power = s.power := fun l =>
    List.foldlRecOn (motive := fun x : State × Bool => x.1.power = s.power) l _ rfl fun x hx u _ => (hunit x u).trans hx
  unfold forcedUpdate
  generalize List.finRange 72 = l
  have hr := hall l
  extract_lets r
  split
  · exact (setEvt_power r.1 .mgpwr 17).trans hr
  · exact hr

theorem cappedPeriod_allowance (s : State) (p : Nat) (cls : List UnitClass) :
    (cappedPeriod s p cls).power.allowance = allowanceAfter s p (awakeUnits s).length := by
  unfold cappedPeriod
  extract_lets a l
  have h : OnlyRegs { s with power := { s.power with allowance := a } }
      (l.foldl (fun s x => loopSet s x.u (min x.t (rd s (unitPage x.u) paceCeil))) { s with power := { s.power with allowance := a } }) :=
    List.foldlRecOn _ _ (.refl _) fun t ht x _ => ht.trans (loopSet_only ..)
  rw [h]

/-- Without a brake to begin and without a pacer that fails its check, the loop starts from the state's registers and allowance. -/
theorem loopStart_quiet {s : State} {cls : List UnitClass} (hp : s.power.pbrakeLow = false) (ha : s.power.alerts = [])
    (hb : ∀ u ∈ awakeUnits s, pacerBad s cls u = false) :
    loopStart s cls = { s with power := { s.power with units := (loopStart s cls).power.units } } := by
  have hfilter : (awakeUnits s).filter (pacerBad s cls) = [] := List.filter_eq_nil_iff.mpr (by simpa using hb)
  have hstart : loopStart s cls = tjPeriod (levelsClear s) := by
    unfold loopStart
    simp only [hp, ha, Bool.false_eq_true, ne_eq, not_true_eq_false, or_self, false_and, if_false, hfilter, List.foldl_nil]
  rw [hstart, tjPeriod_only]
  rfl

theorem allowance_capPeriod {s : State} {p : Nat} {cls : List UnitClass} (hp : s.power.pbrakeLow = false) (ha : s.power.alerts = [])
    (hb : ∀ u ∈ awakeUnits s, pacerBad s cls u = false) (hm : rd s .mgpwr pwrStatusModeInForce = 0) :
    (loopLevels (loopStart s cls) p cls).power.allowance = allowanceAfter s p (awakeUnits s).length := by
  have hmode : rd (loopStart s cls) .mgpwr pwrStatusModeInForce = 0 := by rw [loopStart_quiet hp ha hb]; exact hm
  rw [loopLevels, if_pos hmode, cappedPeriod_allowance, loopStart_quiet hp ha hb]
  rfl

/-! ### Frames of a pacer (R31, R37). -/

theorem home_hdr {r : Row} (hr : r.off < 0x100) (p : Page) : r.home p = p := by
  cases p <;> simp [Row.home] <;> omega

/-- PG_STEPS of one page has another key than PG_STEPS of another page. -/
theorem key_steps_ne {p q : Page} (h : p ≠ q) : hdrSteps.key p ≠ hdrSteps.key q :=
  key_ne_page (by decide) (by decide) (by simpa only [home_hdr (r := hdrSteps) (by decide)] using h)

theorem frameSteps_cons (s : State) (q : Page) (l : List Page) :
    frameSteps s (q :: l) = frameSteps (if pgState s q = 4 then wrapAdd s q hdrSteps 32 else s) l := rfl

theorem frameSteps_only (s : State) (l : List Page) : OnlyRegs s (frameSteps s l) :=
  List.foldlRecOn l _ (OnlyRegs.refl s) fun t ht q _ => by
    split
    · exact ht.trans (.wr ..)
    · exact ht

theorem frameSteps_kept {K : Nat → Prop} {l : List Page} (hk : ∀ q ∈ l, ¬ K (hdrSteps.key q)) (s : State) : RegsKept K s (frameSteps s l) :=
  (RegsKept.refl s).foldl fun s q hq => by
    split
    · exact .wr (.refl s) (hk q hq)
    · exact .refl s

/-- The state of a page follows PG_STATE, the hold and, for an array's page, the bay's count of arrays. -/
theorem RegsKept.pgState_eq {K : Nat → Prop} {s t : State} (h : RegsKept K s t) (hs : Rising s.regs) (hheld : held t = held s)
    (hf : t.fuses = s.fuses) {p : Page} (hp : K (hdrState.key p)) (ha : ∀ b, K (issArrays.key (.issue b))) : pgState t p = pgState s p := by
  have harr : ∀ b, arrCount t b = arrCount s b := fun b => arrCount_congr hf (h.rd_eq hs (ha b))
  unfold pgState
  simp only [hheld, h.rd_eq hs hp, harr]

/-- What the count of a page's steps depends on: PG_STEPS, PG_STATE and the counts of arrays. -/
def stepKey (p : Page) (k : Nat) : Prop := k = hdrSteps.key p ∨ k = hdrState.key p ∨ ∃ b, k = issArrays.key (.issue b)

/-- A field at another place of its page is none of them. -/
theorem not_stepKey_off {r : Row} (h : r.off * 8 + r.lsb < 32768 ∧ r.off * 8 + r.lsb ∉ [384, 160, 2048]) (p q : Page) : ¬ stepKey p (r.key q) := by
  obtain ⟨hr, hn⟩ := h
  have hm := key_mod q r hr
  rintro (he | he | ⟨b, he⟩) <;> rw [he, key_mod _ _ (by decide)] at hm <;> exact hn (by rw [← hm]; decide)

theorem not_stepKey_steps {p q : Page} (h : q ≠ p) : ¬ stepKey p (hdrSteps.key q) := by
  have hoff : ∀ {p' : Page} {r : Row}, r.off * 8 + r.lsb < 32768 ∧ r.off * 8 + r.lsb ≠ 384 → hdrSteps.key q ≠ r.key p' := fun hr =>
    key_ne_off _ _ (by decide) hr.1 (fun he => hr.2 he.symm)
  rintro (he | he | ⟨b, he⟩)
  · exact key_steps_ne h he
  · exact hoff (by decide) he
  · exact hoff (by decide) he

/-- PG_STEPS of one page after a step of the fold. -/
theorem rd_frameSteps {p : Page} {l : List Page} (hl : l.Nodup) (hp : p ∈ l) {s : State} (hs : Rising s.regs) :
    rd (frameSteps s l) p hdrSteps = if pgState s p = 4 then (rd s p hdrSteps + 32) % 2 ^ 64 else rd s p hdrSteps := by
  induction l generalizing s with
  | nil => cases hp
  | cons q l ih =>
    obtain ⟨hq, hl⟩ := List.nodup_cons.mp hl
    rw [frameSteps_cons]
    by_cases hqp : q = p
    · subst hqp
      have hrest : ∀ t : State, Rising t.regs → rd (frameSteps t l) q hdrSteps = rd t q hdrSteps := fun t ht =>
        (frameSteps_kept (K := fun k => k = hdrSteps.key q) (fun x hx => key_steps_ne (fun he => hq (he ▸ hx))) t).rd_eq ht rfl
      split
      · exact (hrest _ (wr_rising _ _ _ _ hs)).trans (rd_wr_same _ _ _ _ hs (by decide))
      · exact hrest s hs
    · have hhead : RegsKept (stepKey p) s (if pgState s q = 4 then wrapAdd s q hdrSteps 32 else s) := by
        split
        · exact .wr (.refl s) (not_stepKey_steps hqp)
        · exact .refl s
      have honly : OnlyRegs s (if pgState s q = 4 then wrapAdd s q hdrSteps 32 else s) := by
        split
        · exact .wr ..
        · exact .refl s
      generalize (if pgState s q = 4 then wrapAdd s q hdrSteps 32 else s) = t at hhead honly ⊢
      have hstate : pgState t p = pgState s p :=
        hhead.pgState_eq hs (held_congr (by rw [honly]) (by rw [honly])) (by rw [honly]) (.inr (.inl rfl)) fun b => .inr (.inr ⟨b, rfl⟩)
      rw [ih hl (by simpa [Ne.symm hqp] using hp) (hhead.rising hs), hstate, hhead.rd_eq hs (.inl rfl)]

theorem bayPages_nodup (b : BayId) : (bayPages b).Nodup := by
  have hmov : ((List.finRange 4).map (Page.mov b)).Nodup := (List.nodup_finRange 4).map fun m n h => by simpa using h
  have harr : ((List.finRange 8).map (Page.arr b)).Nodup := (List.nodup_finRange 8).map fun m n h => by simpa using h
  simp [bayPages, List.nodup_append, hmov, harr]

theorem pacerPages_nodup (u : PacerId) : (pacerPages u).Nodup := by
  cases u with
  | bay b => exact bayPages_nodup b
  | cluster k =>
    have hcore : (((List.finRange 192).filter (fun n => n.val / 8 == k.val)).map Page.core).Nodup :=
      ((List.nodup_finRange 192).filter _).map fun m n h => by simpa using h
    simpa [pacerPages] using hcore
  | fabric f =>
    have hport : (((List.finRange 32).filter (fun p => p.val / 16 == f.val)).map Page.fport).Nodup :=
      ((List.nodup_finRange 32).filter _).map fun m n h => by simpa using h
    simp [pacerPages, hport]

/-! The levels and the blocks' steps (R223, R457). -/

theorem frameLevel_held (s : State) (u : Fin 72) : held (frameLevel s u) = held s := by
  unfold frameLevel
  split <;> rfl

theorem frameLevel_fuses (s : State) (u : Fin 72) : (frameLevel s u).fuses = s.fuses := by
  unfold frameLevel
  split <;> rfl

theorem frameLevel_kept {K : Nat → Prop} {u : Fin 72} (hk : ¬ K (paceLevelLevel.key (unitPage u))) (s : State) : RegsKept K s (frameLevel s u) := by
  unfold frameLevel
  split
  · exact .refl s
  · exact .wr .of_regs hk

theorem blockSteps_only (s : State) (b : BayId) : OnlyRegs s (blockSteps s b) :=
  List.foldlRecOn _ _ (OnlyRegs.refl s) fun t ht k _ => by
    split
    · exact ht.trans (.wr ..)
    · exact ht

theorem blockSteps_kept {K : Nat → Prop} {b : BayId} (hk : ∀ k < 8, ¬ K ((tguBlkSteps k).key (.tgu b))) (s : State) :
    RegsKept K s (blockSteps s b) :=
  (RegsKept.refl s).foldl fun s k h => by
    split
    · exact .wr (.refl s) (hk k (List.mem_range.mp h))
    · exact .refl s

/-- What a frame does before PG_STEPS count: the level of a compute unit, and the steps of a bay's blocks. -/
def frameUnit (u : PacerId) (s : State) : State :=
  match u with
  | .bay b => blockSteps (frameLevel s ⟨b.val, by omega⟩) b
  | .cluster k => frameLevel s ⟨48 + k.val, by omega⟩
  | .fabric _ => s

theorem exec_pacerFrame (u : PacerId) (s : State) : exec (.pacerFrame u) s = .next (frameSteps (frameUnit u s) (pacerPages u)) := by
  cases u <;> rfl

theorem blockSteps_errors (s : State) (b : BayId) : OnlyErrors s (blockSteps s b) := .of_events (.of_regs (blockSteps_only s b))

theorem blockSteps_held (s : State) (b : BayId) : held (blockSteps s b) = held s :=
  held_congr (blockSteps_errors s b).mg (blockSteps_errors s b).power

theorem blockSteps_fuses (s : State) (b : BayId) : (blockSteps s b).fuses = s.fuses := (blockSteps_errors s b).fuses

theorem frameUnit_held (u : PacerId) (s : State) : held (frameUnit u s) = held s := by
  cases u <;> simp only [frameUnit, blockSteps_held, frameLevel_held]

theorem frameUnit_fuses (u : PacerId) (s : State) : (frameUnit u s).fuses = s.fuses := by
  cases u <;> simp only [frameUnit, blockSteps_fuses, frameLevel_fuses]

/-- LEVEL of a unit's page is at the place of ISSUE.ARRAYS, but on another page. -/
theorem not_stepKey_level (p : Page) (u : Fin 72) : ¬ stepKey p (paceLevelLevel.key (unitPage u)) := by
  rintro (he | he | ⟨b, he⟩)
  · exact key_ne_off _ _ (by decide) (by decide) (by decide) he
  · exact key_ne_off _ _ (by decide) (by decide) (by decide) he
  · refine key_ne_page (by decide) (by decide) ?_ he
    rw [home_unitPage]
    obtain ⟨b', h⟩ | ⟨d, j, h⟩ := unitPage_cases u <;> rw [h] <;> simp [Row.home]

theorem tguBlkSteps_off {k : Nat} (h : k < 8) :
    (tguBlkSteps k).off * 8 + (tguBlkSteps k).lsb < 32768 ∧ 2048 < (tguBlkSteps k).off * 8 + (tguBlkSteps k).lsb := by
  simp only [tguBlkSteps]
  omega

theorem frameUnit_stepKept (u : PacerId) (s : State) (p : Page) : RegsKept (stepKey p) s (frameUnit u s) := by
  cases u with
  | bay b =>
    refine (frameLevel_kept (not_stepKey_level p _) s).trans (blockSteps_kept (fun k hk => ?_) _)
    obtain ⟨h1, h2⟩ := tguBlkSteps_off hk
    exact not_stepKey_off ⟨h1, by simp; omega⟩ p _
  | cluster k => exact frameLevel_kept (not_stepKey_level p _) s
  | fabric f => exact .refl s

/-- R31: a frame counts 32 steps on a RUNNING page of its pacer. -/
theorem rd_frameSteps_frameUnit {u : PacerId} {p : Page} (hp : p ∈ pacerPages u) {s : State} (hs : Rising s.regs) :
    rd (frameSteps (frameUnit u s) (pacerPages u)) p hdrSteps =
      if pgState s p = 4 then (rd s p hdrSteps + 32) % 2 ^ 64 else rd s p hdrSteps := by
  have hk := frameUnit_stepKept u s p
  have hstate : pgState (frameUnit u s) p = pgState s p :=
    hk.pgState_eq hs (frameUnit_held u s) (frameUnit_fuses u s) (.inr (.inl rfl)) fun b => .inr (.inr ⟨b, rfl⟩)
  rw [rd_frameSteps (pacerPages_nodup u) hp (hk.rising hs), hstate, hk.rd_eq hs (.inl rfl)]

/-- R457: a unit's level fits its field. -/
theorem unitLevel_lt (s : State) (u : Fin 72) : unitLevel s u < 64 := by
  have hceil : rd s (unitPage u) paceCeil < 64 := rd_lt s (unitPage u) paceCeil
  unfold unitLevel
  omega

theorem unitPage_bay (b : BayId) (h : b.val < 72) : unitPage ⟨b.val, h⟩ = .pace b := by
  unfold unitPage
  rw [dif_pos b.isLt]

/-- R37, R457: the page of an awake unit takes its level. -/
theorem rd_frameLevel {s : State} (hs : Rising s.regs) {u : Fin 72} (hh : held s = false) (hu : unitOn s u = true) :
    rd (frameLevel s u) (unitPage u) paceLevelLevel = unitLevel s u := by
  unfold frameLevel
  rw [if_neg (by simp [hh, hu])]
  extract_lets l x _ t
  have ht : Rising t.regs := hs
  rw [rd_wr_same t _ _ _ ht (by decide)]
  exact Nat.mod_eq_of_lt (unitLevel_lt s u)

theorem rd_frame_level {s : State} (hs : Rising s.regs) {b : BayId} (hh : held s = false) (hon : rd s (.pace b) hdrState ≠ 1) :
    rd (frameSteps (frameUnit (.bay b) s) (pacerPages (.bay b))) (.pace b) paceLevelLevel = unitLevel s ⟨b.val, by omega⟩ := by
  have hpage := unitPage_bay b (by omega)
  have hu : unitOn s ⟨b.val, by omega⟩ = true := by simpa [unitOn, hpage] using hon
  have hlevel := rd_frameLevel hs hh hu
  rw [hpage] at hlevel
  have hrise : Rising (frameLevel s ⟨b.val, by omega⟩).regs := (frameLevel_kept (K := fun _ => False) (by simp) s).rising hs
  have hblocks : RegsKept (· = paceLevelLevel.key (.pace b)) (frameLevel s ⟨b.val, by omega⟩) (blockSteps (frameLevel s ⟨b.val, by omega⟩) b) :=
    blockSteps_kept (fun k hk => by
      obtain ⟨h1, h2⟩ := tguBlkSteps_off hk
      exact key_ne_off _ _ h1 (by decide) (Nat.ne_of_gt h2)) _
  have hsteps := frameSteps_kept (K := (· = paceLevelLevel.key (.pace b))) (l := pacerPages (.bay b))
    (fun q _ => key_ne_off q (.pace b) (by decide) (by decide) (by decide)) (blockSteps (frameLevel s ⟨b.val, by omega⟩) b)
  simp only [frameUnit]
  rw [(hblocks.trans hsteps).rd_eq hrise rfl, hlevel]

/-! ### The rate window (R465, R466). -/

/-- The keys of what a window measures: RATE, POWER, IIN, the coolant, VIN and the junctions. -/
def measuredKeys : List Nat :=
  ([pwrRate, pwrPower, pwrIin, pwrCoolant, pwrVin] ++ (List.range 20).map pwrTj).map (·.key .mgpwr)

theorem raiseKeys_not_measured : ∀ k ∈ raiseKeys .mgpwr, k ∉ measuredKeys := by decide

/-- After the reading of a die is stored, what follows of it leaves the measurements. -/
theorem tjDie_kept (s : State) (d t : Nat) : RegsKept (· ∈ measuredKeys) (wr s .mgpwr (pwrTj d) t) (tjDie s d t) := by
  unfold tjDie
  extract_lets lim v x
  split
  · refine .setEvt (.raise ?_ rfl raiseKeys_not_measured) (raiseKeys_not_measured _ (by decide))
    exact .of_regs
  · split
    · exact .of_regs
    · exact .refl x

theorem tjDie_pulses (s : State) (d t : Nat) : (tjDie s d t).power.pulses = s.power.pulses := by
  unfold tjDie
  extract_lets lim v x
  split
  · rw [setEvt_power, (raise_errors _ _ _ rfl).power]
    rfl
  · split <;> rfl

/-- A window's readings, of the dies from `d` on. -/
def tjDies (s : State) (l : List Temp) (d : Nat) : State := (l.zipIdx d).foldl (fun s x => tjDie s x.2 x.1.toNat) s

theorem tjDies_cons (s : State) (t : Temp) (l : List Temp) (d : Nat) : tjDies s (t :: l) d = tjDies (tjDie s d t.toNat) l (d + 1) := rfl

theorem tjDies_pulses (s : State) (l : List Temp) (d : Nat) : (tjDies s l d).power.pulses = s.power.pulses :=
  List.foldlRecOn (motive := fun t : State => t.power.pulses = s.power.pulses) _ _ rfl fun _ ht _ _ => (tjDie_pulses ..).trans ht

theorem pwrTj_key_ne {i j : Nat} (h : i ≠ j) : (pwrTj i).key .mgpwr ≠ (pwrTj j).key .mgpwr := by
  simp only [Row.key, Row.home, pwrTj, Page.slot]
  omega

theorem pwrTj_measured {d : Nat} (hd : d < 20) : (pwrTj d).key .mgpwr ∈ measuredKeys :=
  List.mem_map.mpr ⟨pwrTj d, List.mem_append_right _ (List.mem_map.mpr ⟨d, List.mem_range.mpr hd, rfl⟩), rfl⟩

/-- The readings from die `d` on leave every other measurement. -/
theorem tjDies_kept {K : Nat → Prop} (hK : ∀ k, K k → k ∈ measuredKeys) (s : State) (l : List Temp) {d : Nat}
    (hd : ∀ i, d ≤ i → ¬ K ((pwrTj i).key .mgpwr)) : RegsKept K s (tjDies s l d) := by
  induction l generalizing s d with
  | nil => exact .refl s
  | cons t l ih =>
    have hrest : RegsKept K (wr s .mgpwr (pwrTj d) t.toNat) (tjDie s d t.toNat) :=
      ⟨fun hs => ⟨(tjDie_kept s d t.toNat).rising hs, fun _ _ hk => (tjDie_kept s d t.toNat).rd_eq hs (hK _ hk)⟩⟩
    rw [tjDies_cons]
    exact ((RegsKept.wr (.refl s) (hd d (Nat.le_refl d))).trans hrest).trans (ih _ fun i hi => hd i (by omega))

/-- Each reading is stored. -/
theorem rd_tjDies {s : State} (hs : Rising s.regs) (l : List Temp) (d : Nat) (hd : d + l.length ≤ 20) (i : Nat) (hi : i < l.length) :
    rd (tjDies s l d) .mgpwr (pwrTj (d + i)) = (l[i]).toNat := by
  induction l generalizing s d i with
  | nil => cases hi
  | cons t l ih =>
    rw [List.length_cons] at hd hi
    have hwr : Rising (wr s .mgpwr (pwrTj d) t.toNat).regs := wr_rising _ _ _ _ hs
    have hdie := tjDie_kept s d t.toNat
    rw [tjDies_cons]
    cases i with
    | zero =>
      have hkeep : RegsKept (· = (pwrTj d).key .mgpwr) (tjDie s d t.toNat) (tjDies (tjDie s d t.toNat) l (d + 1)) :=
        tjDies_kept (K := (· = (pwrTj d).key .mgpwr)) (fun k (hk : k = _) => hk ▸ pwrTj_measured (by omega)) _ l fun i hi => pwrTj_key_ne (by omega)
      simp only [Nat.add_zero, List.getElem_cons_zero]
      rw [hkeep.rd_eq (hdie.rising hwr) rfl, hdie.rd_eq hwr (pwrTj_measured (by omega)), rd_wr_same _ _ _ _ hs (show 16 ≤ 64 by decide)]
      exact Nat.mod_eq_of_lt t.isLt
    | succ i =>
      have h := ih (hdie.rising hwr) (d + 1) (by omega) i (by omega)
      rw [Nat.add_right_comm] at h
      exact h

/-- The registers of a window but the junctions'. -/
def rateRegs (bayNs : Nat) (power : BitVec 16) (iin : BitVec 32) (coolant : BitVec 16) (s : State) : State :=
  let s := wr (wr s .mgpwr pwrRate (s.power.pulses * 1000 / bayNs)) .mgpwr pwrPower power.toNat
  let s := { s with power := { s.power with pulses := 0 } }
  wr (wr (wr s .mgpwr pwrIin iin.toNat) .mgpwr pwrCoolant coolant.toNat) .mgpwr pwrVin s.power.vin

/-- A window stores the measurements, then the junctions, and what it derives of them: STATUS.TJ, TJ_HOT. -/
theorem exec_rateWindow {s : State} (hh : held s = false) (bayNs : Nat) (power : BitVec 16) (iin : BitVec 32) (coolant : BitVec 16)
    {tj : List Temp} (hl : tj.length ≤ 20) :
    ∃ t, exec (.rateWindow bayNs power iin coolant tj) s = .next t ∧
      RegsKept (· ∈ measuredKeys) (tjDies (rateRegs bayNs power iin coolant s) tj 0) t ∧
      t.power = (tjDies (rateRegs bayNs power iin coolant s) tj 0).power := by
  have hexec : exec (.rateWindow bayNs power iin coolant tj) s = execRateWindow bayNs power iin coolant tj s := rfl
  have htake : tj.take 20 = tj := List.take_of_length_le hl
  rw [hexec, execRateWindow, if_neg (by simp [hh])]
  simp only [htake]
  cases tj with
  | nil => exact ⟨_, rfl, .wr (.refl _) (by decide), rfl⟩
  | cons t l => exact ⟨_, rfl, .wr (.wr (.wr (.refl _) (by decide)) (by decide)) (by decide), rfl⟩

theorem rateRegs_kept {K : Nat → Prop} (hK : ∀ r ∈ [pwrRate, pwrPower, pwrIin, pwrCoolant, pwrVin], ¬ K (r.key .mgpwr)) (bayNs : Nat) (power : BitVec 16)
    (iin : BitVec 32) (coolant : BitVec 16) (s : State) : RegsKept K s (rateRegs bayNs power iin coolant s) := by
  have h : RegsKept K s (wr (wr s .mgpwr pwrRate (s.power.pulses * 1000 / bayNs)) .mgpwr pwrPower power.toNat) :=
    .wr (.wr (.refl s) (hK _ (by simp))) (hK _ (by simp))
  exact .wr (.wr (.wr (h.trans .of_regs) (hK _ (by simp))) (hK _ (by simp))) (hK _ (by simp))

/-- What a window measures is in its registers. -/
theorem rd_rateRegs {s : State} (hs : Rising s.regs) (bayNs : Nat) (power : BitVec 16) (iin : BitVec 32) (coolant : BitVec 16) :
    let t := rateRegs bayNs power iin coolant s
    rd t .mgpwr pwrRate = s.power.pulses * 1000 / bayNs % 2 ^ pwrRate.width ∧ rd t .mgpwr pwrPower = power.toNat ∧
      rd t .mgpwr pwrIin = iin.toNat ∧ rd t .mgpwr pwrCoolant = coolant.toNat ∧ rd t .mgpwr pwrVin = s.power.vin % 65536 := by
  unfold rateRegs
  extract_lets a _ c t
  have ha : Rising a.regs := wr_rising _ _ _ _ (wr_rising _ _ _ _ hs)
  have hc : Rising c.regs := ha
  have h1 := wr_rising c .mgpwr pwrIin iin.toNat hc
  have h2 := wr_rising _ .mgpwr pwrCoolant coolant.toNat h1
  have hkeep : ∀ r ∈ [pwrRate, pwrPower], rd t .mgpwr r = rd a .mgpwr r := fun r hr => by
    have hk : r.key .mgpwr ≠ pwrIin.key .mgpwr ∧ r.key .mgpwr ≠ pwrCoolant.key .mgpwr ∧ r.key .mgpwr ≠ pwrVin.key .mgpwr := by
      simp only [List.mem_cons, List.not_mem_nil, or_false] at hr
      rcases hr with rfl | rfl <;> decide
    simp only [t]
    rw [rd_wr_other _ _ _ _ _ _ h2 hk.2.2, rd_wr_other _ _ _ _ _ _ h1 hk.2.1, rd_wr_other _ _ _ _ _ _ hc hk.1]
    exact rd_congr rfl _ _
  have hrate := wr_rising s .mgpwr pwrRate (s.power.pulses * 1000 / bayNs) hs
  refine ⟨?_, ?_, ?_, ?_, rd_wr_same _ _ _ _ h2 (by decide)⟩
  · rw [hkeep _ (by simp), rd_wr_other _ _ _ _ _ _ hrate (by decide), rd_wr_same _ _ _ _ hs (by decide)]
  · rw [hkeep _ (by simp), rd_wr_same _ _ _ _ hrate (by decide)]
    exact Nat.mod_eq_of_lt power.isLt
  · rw [rd_wr_other _ _ _ _ _ _ h2 (by decide), rd_wr_other _ _ _ _ _ _ h1 (by decide), rd_wr_same _ _ _ _ hc (by decide)]
    exact Nat.mod_eq_of_lt iin.isLt
  · rw [rd_wr_other _ _ _ _ _ _ h2 (by decide), rd_wr_same _ _ _ _ h1 (by decide)]
    exact Nat.mod_eq_of_lt coolant.isLt

/-- R465: the measurements stand after the junctions have been read. -/
theorem rateWindow_stores {s : State} (hs : Rising s.regs) (hh : held s = false) (bayNs : Nat) (power : BitVec 16) (iin : BitVec 32)
    (coolant : BitVec 16) {tj : List Temp} (hl : tj.length ≤ 20) :
    ∃ t, exec (.rateWindow bayNs power iin coolant tj) s = .next t ∧ rd t .mgpwr pwrRate = s.power.pulses * 1000 / bayNs % 2 ^ pwrRate.width ∧
      t.power.pulses = 0 ∧ rd t .mgpwr pwrPower = power.toNat ∧ rd t .mgpwr pwrIin = iin.toNat ∧
      rd t .mgpwr pwrCoolant = coolant.toNat ∧ rd t .mgpwr pwrVin = s.power.vin % 65536 ∧
      (∀ d, (h : d < tj.length) → rd t .mgpwr (pwrTj d) = (tj[d]).toNat) := by
  obtain ⟨t, hexec, hkept, hpower⟩ := exec_rateWindow hh bayNs power iin coolant hl
  obtain ⟨hrate, hpow, hiin, hcool, hvin⟩ := rd_rateRegs hs bayNs power iin coolant
  have hregs : Rising (rateRegs bayNs power iin coolant s).regs := (rateRegs_kept (K := fun _ => False) (by simp) ..).rising hs
  have hdies : RegsKept (fun k => k ∈ measuredKeys ∧ ∀ i, k ≠ (pwrTj i).key .mgpwr) (rateRegs bayNs power iin coolant s)
      (tjDies (rateRegs bayNs power iin coolant s) tj 0) := tjDies_kept (fun _ h => h.1) _ tj fun i _ h => h.2 i rfl
  have hdiesR := hdies.rising hregs
  have hfield : ∀ r ∈ [pwrRate, pwrPower, pwrIin, pwrCoolant, pwrVin], rd t .mgpwr r = rd (rateRegs bayNs power iin coolant s) .mgpwr r := by
    intro r hr
    have hmem : r.key .mgpwr ∈ measuredKeys := List.mem_map.mpr ⟨r, List.mem_append_left _ hr, rfl⟩
    have hoff : ∀ i, r.key .mgpwr ≠ (pwrTj i).key .mgpwr := fun i => by
      have : r.off * 8 + r.lsb < 0x200 * 8 := by
        simp only [List.mem_cons, List.not_mem_nil, or_false] at hr
        rcases hr with rfl | rfl | rfl | rfl | rfl <;> decide
      simp only [Row.key, Row.home, pwrTj, Page.slot]
      omega
    rw [hkept.rd_eq hdiesR hmem, hdies.rd_eq hregs ⟨hmem, hoff⟩]
  have hpulses : t.power.pulses = 0 := by
    rw [hpower, tjDies_pulses]
    rfl
  refine ⟨t, hexec, (hfield _ (by simp)).trans hrate, hpulses, (hfield _ (by simp)).trans hpow, (hfield _ (by simp)).trans hiin,
    (hfield _ (by simp)).trans hcool, (hfield _ (by simp)).trans hvin, fun d h => ?_⟩
  have hread := rd_tjDies hregs tj 0 (by omega) d h
  rw [Nat.zero_add] at hread
  rw [hkept.rd_eq hdiesR (pwrTj_measured (by omega)), hread]

/-- Settles O37: a period of the loop starts from the levels, sets them within their bounds and leaves them; a frame and a window are stores. -/
theorem capLoopBoundsTheLevels : Obligations.CapLoopBoundsTheLevels := by
  refine ⟨fun s p cls hinv hrun hp ha hb hm => ⟨_, exec_capPeriod hrun p cls, ?_⟩, fun s p cls u hinv hrun => ⟨_, exec_capPeriod hrun p cls, ?_⟩,
    fun s p cls u hinv hrun hm hu => ⟨_, exec_capPeriod hrun p cls, ?_⟩,
    fun s u p hinv hp => ⟨_, exec_pacerFrame u s, rd_frameSteps_frameUnit hp hinv.regs_rising⟩,
    fun s b hinv hh hon => ⟨_, exec_pacerFrame (.bay b) s, rd_frame_level hinv.regs_rising hh hon⟩,
    fun s bayNs power iin coolant tj hinv hh hl => rateWindow_stores hinv.regs_rising hh bayNs power iin coolant hl⟩
  · rw [forcedUpdate_power]
    dsimp only
    exact allowance_capPeriod hp ha hb hm
  · have hstart := loopStart_loopKept s cls
    have hrise := hstart.rising hinv.regs_rising
    have hwithin := (loopLevels_within hrise p cls).of_kept (periodEnd_loopKept _)
    have hle := hwithin.le u
    rwa [hstart.loopLevel_eq hinv.regs_rising] at hle
  · have hstart := loopStart_loopKept s cls
    have hrise := hstart.rising hinv.regs_rising
    have hmode : rd (loopStart s cls) .mgpwr pwrStatusModeInForce = 2 := (hstart.rd_eq hinv.regs_rising loopKey_mode).trans hm
    have hon : unitOn (loopStart s cls) u = true := by rwa [unitOn, hstart.rd_eq hinv.regs_rising (loopKey_state u)]
    have hlevels : loopLevels (loopStart s cls) p cls = heldPeriod (loopStart s cls) true := by
      rw [loopLevels, if_neg (by rw [hmode]; decide), hmode]
      rfl
    have hrise' := (loopLevels_within hrise p cls).rising
    have hle := heldPeriod_lowest hrise hon
    rw [← hlevels, ← (periodEnd_loopKept _).loopLevel_eq hrise'] at hle
    exact hle

end Sys2Proof.Machine
end

section
/-! The processor cores (R20, R257 to R276, R486): instructions, traps, their own caches, and the cache-block operations. -/

namespace Sys2Proof.Machine

/-! ### The registers and CSRs of a hart. -/

section
variable {s : State} {n : CoreId}

theorem StateInv.harts_rising (h : StateInv s) : Rising s.harts := by
  obtain ⟨⟨-, -, -, ⟨hharts, -⟩, -⟩, -⟩ := h
  exact hharts

@[simp] theorem modHart_coh (f : Hart → Hart) : (modHart s n f).coh = s.coh := rfl
@[simp] theorem modHart_power (f : Hart → Hart) : (modHart s n f).power = s.power := rfl
@[simp] theorem modHart_mg (f : Hart → Hart) : (modHart s n f).mg = s.mg := rfl
@[simp] theorem modHart_fuses (f : Hart → Hart) : (modHart s n f).fuses = s.fuses := rfl

theorem modHart_rising (h : Rising s.harts) (f : Hart → Hart) : Rising (modHart s n f).harts := h.mset _ _ _

theorem hartOf_modHart_same (h : Rising s.harts) (f : Hart → Hart) : hartOf (modHart s n f) n = f (hartOf s n) := mget_mset_same _ _ _ _ h

theorem hartOf_modHart_other (h : Rising s.harts) (f : Hart → Hart) {m : CoreId} (hm : m ≠ n) : hartOf (modHart s n f) m = hartOf s m :=
  mget_mset_other _ _ _ _ _ _ (fun he => hm (Fin.ext he)) h

@[simp] theorem hartOf_coreGo (pc : BitVec 64) (m : CoreId) : hartOf (coreGo s n pc) m = hartOf s m := rfl

theorem corePcV_coreGo (h : Rising s.regs) (pc : BitVec 64) : corePcV (coreGo s n pc) n = pc := by
  have hpc : rd (coreGo s n pc) (.core n) corePc = pc.toNat := (rd_wr_same _ _ _ _ h (by decide)).trans (Nat.mod_eq_of_lt pc.isLt)
  rw [corePcV, hpc, BitVec.ofNat_toNat, BitVec.setWidth_eq]

/-- The hart with a CSR replaced. -/
def Hart.withCsr (h : Hart) (k v : Nat) : Hart := { h with csr := mset 0 h.csr k (BitVec.ofNat 64 v) }

/-- A CSR of a hart as stored. -/
def Hart.csrVal (h : Hart) (k : Nat) : Nat := (mget 0 h.csr k).toNat

theorem setCsr_eq (k v : Nat) : setCsr s n k v = modHart s n (fun h => h.withCsr k v) := rfl
theorem csrOf_eq (k : Nat) : csrOf s n k = (hartOf s n).csrVal k := rfl

theorem Hart.withCsr_rising {h : Hart} (hr : Rising h.csr) (k v : Nat) : Rising (h.withCsr k v).csr := hr.mset _ _ _

theorem Hart.csrVal_withCsr_same {h : Hart} (hr : Rising h.csr) (k v : Nat) : (h.withCsr k v).csrVal k = v % 2 ^ 64 := by
  rw [Hart.csrVal, Hart.withCsr, mget_mset_same _ _ _ _ hr, BitVec.toNat_ofNat]

theorem Hart.csrVal_withCsr_other {h : Hart} (hr : Rising h.csr) {k j : Nat} (hj : j ≠ k) (v : Nat) : (h.withCsr k v).csrVal j = h.csrVal j := by
  rw [Hart.csrVal, Hart.withCsr, mget_mset_other _ _ _ _ _ _ hj hr]
  rfl
end

/-! ### One instruction (R20). -/

/-- A running core without an interrupt and without an error in its caches runs what it fetches. -/
theorem exec_coreInstruction_none {s : State} {n : CoreId} (h : pgState s (.core n) = 4) : exec (.coreInstruction n .none) s = coreRun n s := by
  show execCoreInstruction n .none s = _
  unfold execCoreInstruction
  rw [if_neg (by simp [h])]
  rfl

/-- A four-byte word that is neither a vector access nor a vector configuration is a scalar instruction. -/
theorem coreRun_scalar {s s1 : State} {n : CoreId} {d : List Byte} (hi : coreIntr s n = none) (hf : coreFetch s n = (.ok d, s1)) (hd : d.length = 4)
    (hv : isVecMem (leNat d) = false) (hc : leNat d % 128 ≠ 0x57) : coreRun n s = .next (coreAct s1 n (leNat d) (corePcV s1 n + 4)) := by
  unfold coreRun
  rw [hi, hf]
  simp [hd, hv, hc]

/-- The immediate of an I-type word. -/
theorem sx64_immI (w : Nat) : sx64 12 (bits w 31 20) = BitVec.ofInt 64 (sbits w 31 20) := by
  have hlt : bits w 31 20 < 2 ^ 12 := Nat.mod_lt _ (by decide)
  have hsign : toInt 12 (bits w 31 20) = sbits w 31 20 := by
    simp only [toInt, sbits, Nat.mod_eq_of_lt hlt]
  rw [sx64, hsign]

theorem rvExec_addi {w : Nat} (hop : w % 128 = 0x13) (hf3 : bits w 14 12 = 0) (pc : BitVec 64) (x f : Nat → BitVec 64) (frm : Nat) :
    rvExec isaCore w pc x f frm = .xwr (bits w 11 7) (x (bits w 19 15) + BitVec.ofInt 64 (sbits w 31 20)) 0 := by
  unfold rvExec
  simp only [hop, hf3, opI, sx64_immI]

theorem isFpWord_of_op {w : Nat} (h : w % 128 = 0x13 ∨ w % 128 = 0x73) : isFpWord w = false := by
  rcases h with h | h <;> simp [isFpWord, h]

theorem isVecMem_of_op {w : Nat} (h : w % 128 = 0x13 ∨ w % 128 = 0x73) : isVecMem w = false := by
  rcases h with h | h <;> simp [isVecMem, h]

theorem coreAct_addi (s : State) (n : CoreId) {w : Nat} (hop : w % 128 = 0x13) (hf3 : bits w 14 12 = 0) (next : BitVec 64) :
    coreAct s n w next = coreGo (setCoreX s n (bits w 11 7) (coreX s n (bits w 19 15) + BitVec.ofInt 64 (sbits w 31 20))) n next := by
  unfold coreAct
  simp only [rvExec_addi hop hf3, isFpWord_of_op (.inl hop)]
  rfl

theorem coreAct_ecall (s : State) (n : CoreId) (hm : modeOf s n = 3) (next : BitVec 64) : coreAct s n 0x73 next = coreTrap s n false 11 0 := by
  have hsys : ∀ x : Nat → BitVec 64, opSys isaCore 0x73 x = .ecall := fun x => rfl
  have hexec : ∀ pc x f frm, rvExec isaCore 0x73 pc x f frm = .ecall := fun pc x f frm => rfl
  unfold coreAct
  simp only [hexec, isFpWord_of_op (w := 0x73) (.inr rfl), hm]
  rfl

/-- R20: ADDI writes its destination alone and goes on. -/
theorem coreInstruction_addi {s s1 : State} {n : CoreId} {d : List Byte} {w : Nat} (hinv : StateInv s1) (hst : pgState s (.core n) = 4)
    (hi : coreIntr s n = none) (hf : coreFetch s n = (.ok d, s1)) (hd : d.length = 4) (hw : leNat d = w) (hop : w % 128 = 0x13)
    (hf3 : bits w 14 12 = 0) (hrd : bits w 11 7 ≠ 0) (hx : Rising (hartOf s1 n).x) :
    ∃ t, exec (.coreInstruction n .none) s = .next t ∧ corePcV t n = corePcV s1 n + 4 ∧
      coreX t n (bits w 11 7) = coreX s1 n (bits w 19 15) + BitVec.ofInt 64 (sbits w 31 20) ∧
      (∀ r, r ≠ bits w 11 7 → coreX t n r = coreX s1 n r) ∧ FieldsBut [corePc.key (.core n)] s1 t ∧
      (∀ m, m ≠ n → hartOf t m = hartOf s1 m) := by
  subst hw
  have hexec := (exec_coreInstruction_none hst).trans (coreRun_scalar hi hf hd (isVecMem_of_op (.inl hop)) (by simp [hop]))
  rw [coreAct_addi s1 n hop hf3, setCoreX, if_neg hrd] at hexec
  have hhart := hartOf_modHart_same (n := n) hinv.harts_rising
  refine ⟨_, hexec, corePcV_coreGo (by simpa using hinv.regs_rising) _, ?_, fun r hr => ?_, coreGo_fields n (by simp) hinv.regs_rising _,
    fun m hm => (hartOf_coreGo ..).trans (hartOf_modHart_other hinv.harts_rising _ hm)⟩
  · simp only [coreX, hrd, if_false, hartOf_coreGo, hhart]
    rw [mget_mset_same _ _ _ _ hx]
  · simp only [coreX, hartOf_coreGo, hhart]
    rw [mget_mset_other _ _ _ _ _ _ hr hx]

/-- The hart after a trap to machine mode. -/
def Hart.trapped (h : Hart) (pc code val st : Nat) : Hart :=
  { (((h.withCsr 0x341 pc).withCsr 0x342 code).withCsr 0x343 val).withCsr csrMstatus st with mode := 3 }

theorem setCsr_rising {s : State} {n : CoreId} (h : Rising s.harts) (k v : Nat) : Rising (setCsr s n k v).harts := modHart_rising h _

/-- The state whose hart has trapped to machine mode, before it goes on. -/
def machineTrap (s : State) (n : CoreId) (code val st : Nat) : State :=
  modHart (setCsr (setCsr (setCsr (setCsr s n 0x341 (rd s (.core n) corePc)) n 0x342 code) n 0x343 val) n csrMstatus st) n
    (fun h => { h with mode := 3 })

theorem machineTrap_regs (s : State) (n : CoreId) (code val st : Nat) : (machineTrap s n code val st).regs = s.regs := by
  simp [machineTrap]

theorem hartOf_machineTrap {s : State} {n : CoreId} (hs : Rising s.harts) (code val st : Nat) :
    hartOf (machineTrap s n code val st) n = (hartOf s n).trapped (rd s (.core n) corePc) code val st := by
  have h1 := setCsr_rising (n := n) hs 0x341 (rd s (.core n) corePc)
  have h2 := setCsr_rising (n := n) h1 0x342 code
  have h3 := setCsr_rising (n := n) h2 0x343 val
  rw [machineTrap, hartOf_modHart_same (setCsr_rising h3 _ _), setCsr_eq, hartOf_modHart_same h3, setCsr_eq, hartOf_modHart_same h2, setCsr_eq,
    hartOf_modHart_same h1, setCsr_eq, hartOf_modHart_same hs]
  rfl

/-- An exception in machine mode goes on at the base of mtvec. -/
theorem coreTrap_machine {s : State} {n : CoreId} (hm : modeOf s n = 3) (cause : Nat) (val : BitVec 64) :
    ∃ st, coreTrap s n false cause val = coreGo (machineTrap s n cause val.toNat st) n (BitVec.ofNat 64 (csrOf s n 0x305 / 4 * 4)) := by
  have hnone : ¬ ((hartOf s n).mode.toNat ≤ 1) := by
    have h : (hartOf s n).mode.toNat = 3 := hm
    omega
  refine ⟨withBits (withBits (withBits (mstatusV s n) 7 1 (bits (mstatusV s n) 3 3)) 3 1 0) 11 2 (hartOf s n).mode.toNat, ?_⟩
  unfold coreTrap machineTrap
  simp only [hnone, b2n, Bool.false_eq_true, if_false, decide_false, Bool.false_and, Nat.zero_mul, Nat.add_zero]

/-- The CSRs that a trap has written, as they read. -/
theorem Hart.trapped_csrs {h : Hart} (hr : Rising h.csr) (pc code val st : Nat) :
    (h.trapped pc code val st).csrVal 0x341 = pc % 2 ^ 64 ∧ (h.trapped pc code val st).csrVal 0x342 = code % 2 ^ 64 := by
  have h1 := Hart.withCsr_rising hr 0x341 pc
  have h2 := Hart.withCsr_rising h1 0x342 code
  have h3 := Hart.withCsr_rising h2 0x343 val
  have hval : ∀ k, (h.trapped pc code val st).csrVal k = ((((h.withCsr 0x341 pc).withCsr 0x342 code).withCsr 0x343 val).withCsr csrMstatus st).csrVal k :=
    fun _ => rfl
  constructor
  · rw [hval, Hart.csrVal_withCsr_other h3 (by decide), Hart.csrVal_withCsr_other h2 (by decide), Hart.csrVal_withCsr_other h1 (by decide),
      Hart.csrVal_withCsr_same hr]
  · rw [hval, Hart.csrVal_withCsr_other h3 (by decide), Hart.csrVal_withCsr_other h2 (by decide), Hart.csrVal_withCsr_same h1]

/-- R20: ECALL in machine mode. -/
theorem coreInstruction_ecall {s s1 : State} {n : CoreId} {d : List Byte} (hinv : StateInv s1) (hst : pgState s (.core n) = 4)
    (hi : coreIntr s n = none) (hf : coreFetch s n = (.ok d, s1)) (hd : d.length = 4) (hw : leNat d = 0x73) (hm : modeOf s1 n = 3)
    (hcsr : Rising (hartOf s1 n).csr) :
    ∃ t, exec (.coreInstruction n .none) s = .next t ∧ csrOf t n 0x342 = 11 ∧ csrOf t n 0x341 = rd s1 (.core n) corePc ∧ modeOf t n = 3 ∧
      (corePcV t n).toNat = csrOf s1 n 0x305 / 4 * 4 := by
  have hexec := (exec_coreInstruction_none hst).trans (coreRun_scalar hi hf hd (by rw [hw]; exact isVecMem_of_op (.inr rfl)) (by rw [hw]; decide))
  obtain ⟨st, htrap⟩ := coreTrap_machine hm 11 0
  have hhart := hartOf_machineTrap (n := n) hinv.harts_rising 11 (0 : BitVec 64).toNat st
  rw [hw, coreAct_ecall s1 n hm, htrap] at hexec
  obtain ⟨hepc, hcause⟩ := Hart.trapped_csrs hcsr (rd s1 (.core n) corePc) 11 (0 : BitVec 64).toNat st
  have hpc : rd s1 (.core n) corePc < 2 ^ 64 := rd_lt s1 (.core n) corePc
  have hrise : Rising (machineTrap s1 n 11 (0 : BitVec 64).toNat st).regs := by
    rw [machineTrap_regs]
    exact hinv.regs_rising
  have hvec : csrOf s1 n 0x305 < 2 ^ 64 := BitVec.isLt _
  refine ⟨_, hexec, ?_, ?_, ?_, ?_⟩
  · rw [csrOf_eq, hartOf_coreGo, hhart, hcause]
    rfl
  · rw [csrOf_eq, hartOf_coreGo, hhart, hepc, Nat.mod_eq_of_lt hpc]
  · rw [modeOf, hartOf_coreGo, hhart]
    rfl
  · rw [corePcV_coreGo hrise, BitVec.toNat_ofNat]
    exact Nat.mod_eq_of_lt (by omega)

/-! ### A register parity mismatch (R486). -/

/-- An error that stops the block is recorded, and then takes the page to FAULT. -/
theorem raise_stop (s : State) (p : Page) {e : Err} (he : e.stop = true) :
    ∃ sev, raise s p e = toFault (raise s p { e with stop := false, sev := some sev }) p := by
  by_cases hp : pgState s p = 0
  · refine ⟨0, ?_⟩
    simp [raise, toFault, hp]
  · refine ⟨e.sev.getD (if pgState s p == 3 || pgState s p == 4 || pgState s p == 5 then 2 else 1), ?_⟩
    unfold raise
    simp only [hp, if_false, he, Bool.true_and, if_true, Bool.false_eq_true, Option.getD_some]
    rfl

theorem coreKey_not_raised (n : CoreId) : ∀ k ∈ raiseKeys (.core n), k ≠ hdrState.key (.core n) := by
  have hlog : hdrState.key (.core n) ∉ logKeys := hdr_not_logKeys (by simp) (by decide) (by decide)
  refine List.forall_mem_append.mpr ⟨?_, fun k hk he => hlog (he ▸ hk)⟩
  simp only [errKeys, List.forall_mem_cons, List.not_mem_nil, false_implies, implies_true, and_true]
  refine ⟨?_, ?_, ?_, ?_⟩ <;> exact key_hdr_ne _ (by decide) (by decide) (by decide)

/-- An error that stops the block takes a RUNNING core to FAULT and sets its bit. -/
theorem raise_stop_core {s : State} {n : CoreId} (hs : Rising s.regs) (hst : pgState s (.core n) = 4) {e : Err} (he : e.stop = true) (hb : e.bit < 32) :
    pgState (raise s (.core n) e) (.core n) = 6 ∧ bitOf (rd (raise s (.core n) e) (.core n) hdrErr) e.bit = true := by
  obtain ⟨sev, hraise⟩ := raise_stop s (.core n) he
  have hrec := raise_errors s (.core n) { e with stop := false, sev := some sev } rfl
  have hbit := raise_bit s (.core n) { e with stop := false, sev := some sev } rfl hs (by rw [hst]; decide) hb
  have hkept : RegsKept (· = hdrState.key (.core n)) s (raise s (.core n) { e with stop := false, sev := some sev }) :=
    (RegsKept.refl s).raise rfl (coreKey_not_raised n)
  rw [hraise]
  generalize raise s (.core n) { e with stop := false, sev := some sev } = t at hrec hbit hkept
  have ht : pgState t (.core n) = 4 := (pgState_congr hrec.mg hrec.power hrec.fuses (hkept.rd_eq hs rfl) (by simp)).trans hst
  have hfault : toFault t (.core n) = enter (dropHeld t (.core n)) (.core n) 6 := by
    simp [toFault, ht, faultHook]
  have hrise := hkept.rising hs
  have hdrop : pgState (dropHeld t (.core n)) (.core n) = 4 := ht
  rw [hfault]
  refine ⟨enter_pgState _ _ 6 hrise (by rw [hdrop]; decide), ?_⟩
  have hne : ∀ r ∈ [hdrState, hdrBusy, hdrEvt], hdrErr.key (.core n) ≠ r.key (.core n) := by
    simp only [List.forall_mem_cons, List.not_mem_nil, false_implies, implies_true, and_true]
    refine ⟨?_, ?_, ?_⟩ <;> exact key_hdr_ne _ (by decide) (by decide) (by decide)
  rw [enter_fields (dropHeld t (.core n)) _ 6 hrise _ _ (by simpa using hne)]
  exact hbit

theorem exec_registerParityMismatch {s : State} {n : CoreId} (h : pgState s (.core n) = 4) (file : Fin 3) :
    exec (.registerParityMismatch n file) s = .next (raise s (.core n) { bit := 6, unit := file.val, stop := true }) := by
  show execRegisterParityMismatch n file s = _
  simp [execRegisterParityMismatch, h]

/-! ### The fills of the L1s (R262). -/

/-- The hart after the next chunk of a side's oldest fill. -/
def Hart.chunk (h : Hart) (fetch : Bool) : Hart :=
  if fetch then { h with ifills := nextChunk h.ifills } else { h with fills := nextChunk h.fills }

theorem exec_l1FillChunk (n : CoreId) (fetch : Bool) (s : State) : exec (.l1FillChunk n fetch) s = .next (modHart s n (fun h => h.chunk fetch)) := rfl

theorem fillsOf_chunk (h : Hart) (fetch : Bool) :
    fillsOf (h.chunk fetch) fetch = nextChunk (fillsOf h fetch) ∧ fillsOf (h.chunk fetch) (!fetch) = fillsOf h (!fetch) := by
  cases fetch <;> exact ⟨rfl, rfl⟩

/-! ### Errors in a core's own caches (R259, R275). -/

theorem pgState_satAdd_core {s : State} (hs : Rising s.regs) (n : CoreId) {r : Row} (hr : 0x100 ≤ r.off ∧ r.off * 8 + r.lsb < 32768) :
    pgState (satAdd s (.core n) r 1) (.core n) = pgState s (.core n) := by
  have hk : hdrState.key (.core n) ≠ r.key (.core n) := key_ne_off _ _ (by decide) hr.2 (by simp only [hdrState]; omega)
  show pgState (wr s (.core n) r _) (.core n) = _
  exact pgState_congr (s := s) (t := wr s (.core n) r _) rfl rfl rfl (rd_wr_other _ _ _ _ _ _ hs hk) (by simp)

theorem exec_coreInstruction_corrected {s : State} {n : CoreId} (h : pgState s (.core n) = 4) :
    exec (.coreInstruction n .corrected) s = coreRun n (satAdd s (.core n) coreCeCount 1) := by
  show execCoreInstruction n .corrected s = _
  unfold execCoreInstruction
  rw [if_neg (by simp [h])]
  rfl

/-- An uncorrectable error of a clean line that the cache holds is counted, and the line leaves the cache. -/
theorem exec_coreInstruction_dataUe {s : State} {n : CoreId} {lv : PrivLevel} {line : BitVec 34} (h : pgState s (.core n) = 4)
    (hh : privHas (hartOf s n) lv line.toNat = true) (hd : privDirty (hartOf s n) lv line.toNat = false) :
    exec (.coreInstruction n (.dataUe lv line)) s = coreRun n (modHart (satAdd s (.core n) coreUeCount 1) n (privDropFrom lv line.toNat)) := by
  show execCoreInstruction n (.dataUe lv line) s = _
  unfold execCoreInstruction
  rw [if_neg (by simp [h])]
  simp [coreCacheError, hh, hd]

/-! ### What the memory system leaves of the agents' copies. -/

/-- The agents' copies are untouched, and registers in their canonical form stay in it. -/
structure AgentsKept (s t : State) : Prop where
  rising : Rising s.regs → Rising t.regs
  agents : t.coh.agents = s.coh.agents

section
variable {s t u : State} {p : Page}

theorem AgentsKept.of_eq (hr : t.regs = s.regs := by rfl) (ha : t.coh.agents = s.coh.agents := by rfl) : AgentsKept s t := ⟨fun h => hr ▸ h, ha⟩

theorem AgentsKept.refl (s : State) : AgentsKept s s := .of_eq

theorem AgentsKept.trans (h1 : AgentsKept s t) (h2 : AgentsKept t u) : AgentsKept s u := ⟨h2.rising ∘ h1.rising, h2.agents.trans h1.agents⟩

theorem AgentsKept.of_errors (h : AgentsKept s t) (hr : Rising t.regs → Rising u.regs) (he : OnlyErrors t u) : AgentsKept s u :=
  ⟨hr ∘ h.rising, .trans (by rw [he]) h.agents⟩

theorem AgentsKept.wr (h : AgentsKept s t) {r : Row} {v : Nat} : AgentsKept s (wr t p r v) := ⟨fun hs => wr_rising _ _ _ _ (h.rising hs), h.agents⟩

theorem AgentsKept.satAdd (h : AgentsKept s t) {r : Row} {k : Nat} : AgentsKept s (satAdd t p r k) := h.wr

theorem AgentsKept.setEvt (h : AgentsKept s t) {b : Nat} : AgentsKept s (setEvt t p b) :=
  h.of_errors (setEvt_rising t p b) (.of_events (setEvt_events t p b))

theorem AgentsKept.logWrite (h : AgentsKept s t) {addr src code sev : Nat} {va : Bool} {info : Nat} : AgentsKept s (logWrite t addr src code sev va info) :=
  h.of_errors (logWrite_rising t addr src code sev va info) (logWrite_errors t addr src code sev va info)

theorem AgentsKept.raise (h : AgentsKept s t) {e : Err} (he : e.stop = false) : AgentsKept s (raise t p e) :=
  h.of_errors (raise_rising t p e he) (raise_errors t p e he)

theorem AgentsKept.foldl {α : Type} {f : State → α → State} {l : List α} (h : AgentsKept s t) (hf : ∀ s a, AgentsKept s (f s a)) :
    AgentsKept s (l.foldl f t) :=
  List.foldlRecOn l f h fun _ hx a _ => hx.trans (hf _ a)
end

theorem raiseEach_agents (s : State) (p : Page) {e : Err} (he : e.stop = false) : AgentsKept s (raiseEach s p e) := by
  unfold raiseEach
  split
  · exact (AgentsKept.refl s).logWrite
  · exact (AgentsKept.refl s).raise he

/-- A channel's page that goes to FAULT has no other state to change. -/
theorem toFault_mchan_agents (s : State) (i : Fin 16) (c : Fin 32) : AgentsKept s (toFault s (.mchan i c)) := by
  unfold toFault
  extract_lets st
  split
  · have hdrop : AgentsKept s (dropHeld s (.mchan i c)) := .of_eq
    exact hdrop.of_errors (enter_rising _ _ 6) (.of_events (enter_events _ _ 6 (by simp)))
  · exact .refl s

theorem raise_mchan_stop_agents (s : State) (i : Fin 16) (c : Fin 32) {e : Err} (he : e.stop = true) : AgentsKept s (raise s (.mchan i c) e) := by
  obtain ⟨sev, h⟩ := raise_stop s (.mchan i c) he
  rw [h]
  exact ((AgentsKept.refl s).raise rfl).trans (toFault_mchan_agents _ i c)

/-! ### The ledger's entry of a deaccession (R502, R503). -/

theorem ledgered_agents (s : State) (e : LedgerEntry) (on : Bool) : AgentsKept s (ledgered s e on) := by
  unfold ledgered
  split
  · exact (AgentsKept.refl s).wr
  · exact .refl s

theorem ledgerStore_agents (s : State) (e : LedgerEntry) : AgentsKept s (ledgerStore s e) := by
  unfold ledgerStore
  split
  · next i _ =>
    have hput : AgentsKept s { s with mg := { s.mg with
        ledger := mset none s.mg.ledger i (some { e with seq := s.mg.nextSeq })
        nextSeq := s.mg.nextSeq + 1
        stepEntries := s.mg.stepEntries + 1 } } := .of_eq
    exact (AgentsKept.wr hput).setEvt.trans (ledgered_agents _ e true)
  · split
    · exact .refl s
    · exact ((AgentsKept.refl s).wr.raise rfl).setEvt

theorem ledgerNote_agents (s : State) (kind unit arg : Nat) : AgentsKept s (ledgerNote s kind unit arg) := by
  unfold ledgerNote ledgerAdd
  extract_lets e
  split
  · split
    · exact .of_eq
    · exact .refl s
  · exact ledgerStore_agents s e

/-! ### The channels and the system cache (R260, R314 to R327). -/

section
variable {s t : State}

theorem AgentsKept.waySet (h : AgentsKept s t) {c : CacheId} {k w : Nat} {v : Option CacheLine} : AgentsKept s (waySet t c k w v) := h.trans .of_eq

theorem AgentsKept.wayTouch (h : AgentsKept s t) {c : CacheId} {k w : Nat} : AgentsKept s (wayTouch t c k w) := h.trans .of_eq

theorem AgentsKept.setSysc (h : AgentsKept s t) {k : Nat} {v : Option SyscBlock} : AgentsKept s (setSysc t k v) := h.trans .of_eq

theorem AgentsKept.setChan (h : AgentsKept s t) {i : Fin 16} {c : Fin 32} {v : Chan} : AgentsKept s (setChan t i c v) := h.trans .of_eq
end

theorem discarded_agents (s : State) (i : Fin 16) (c : Fin 32) : AgentsKept s (discarded s i c) := (AgentsKept.refl s).satAdd

theorem openRow_agents (s : State) (p : Place) : AgentsKept s (openRow s p) := (AgentsKept.refl s).setChan

theorem chanPush_agents (s : State) (p : Place) (k cls : Nat) (kind : ChanKind) : AgentsKept s (chanPush s p k cls kind) := (AgentsKept.refl s).setChan

theorem chanSettle_agents (s : State) (i : Fin 16) (c : Fin 32) : AgentsKept s (chanSettle s i c) := by
  unfold chanSettle
  extract_lets u
  split
  · exact (AgentsKept.refl s).setChan
  · exact .refl s

theorem chanWrite_agents (s : State) (p : Place) (k : Nat) (d : List Byte) (sd : Side) : AgentsKept s (chanWrite s p k d sd) := by
  have hput : AgentsKept s (dramPut s k d sd) := .of_eq
  exact hput.setChan.trans (chanSettle_agents ..)

theorem syscDrop_agents (s : State) (p : Place) (k : Nat) : AgentsKept s (syscDrop s p k) := by
  unfold syscDrop
  extract_lets c x
  refine AgentsKept.setSysc ?_
  simp only [x]
  split
  · exact (AgentsKept.refl s).waySet
  · exact .refl s

theorem syscClean_agents (s : State) (p : Place) (k : Nat) : AgentsKept s (syscClean s p k) := by
  unfold syscClean
  split
  · exact .refl s
  · split
    · exact .refl s
    · extract_lets sd x y
      have hx : AgentsKept s x := by
        simp only [x]
        split
        · exact discarded_agents ..
        · exact chanWrite_agents ..
      refine AgentsKept.setSysc ?_
      simp only [y]
      split
      · exact hx.waySet
      · exact hx

theorem syscDropChan_agents (s : State) (i : Fin 16) (c : Fin 32) : AgentsKept s (syscDropChan s i c) := by
  refine (AgentsKept.refl s).foldl fun s k => ?_
  split
  · split
    · refine AgentsKept.trans ?_ (syscDrop_agents ..)
      split
      · exact discarded_agents ..
      · exact .refl s
    · exact .refl s
  · exact .refl s

theorem deaccess_agents (s : State) (i : Fin 16) (c : Fin 32) (cause : Nat) : AgentsKept s (deaccess s i c cause) := by
  unfold deaccess
  split
  · exact .refl s
  · extract_lets p u x y z w v
    have hz : AgentsKept s z := (AgentsKept.refl s).setChan.satAdd.wr.wr
    have hw : AgentsKept s w := hz.trans (syscDropChan_agents ..)
    have hv : AgentsKept s v := (hw.trans (raise_mchan_stop_agents _ i c rfl)).setEvt
    exact hv.trans (ledgerNote_agents ..)

theorem permEvent_agents (s : State) (p : Place) (k : Nat) : AgentsKept s (permEvent s p k) := by
  unfold permEvent
  extract_lets pg _ x y z now lim u times w last
  have hx : AgentsKept s x := .of_eq
  have hz : AgentsKept s z := hx.satAdd.wr.trans (raiseEach_agents _ _ rfl)
  have hw : AgentsKept s w := hz.setChan
  split
  · exact hw.trans (deaccess_agents ..)
  · exact hw

theorem ctrlVerify_agents (s : State) (p : Place) (k : Nat) (chk : Check) : AgentsKept s (ctrlVerify s p k chk) := by
  unfold ctrlVerify
  split
  · exact .refl s
  · split
    · exact permEvent_agents ..
    · split
      · exact (AgentsKept.refl s).satAdd
      · exact .refl s

theorem syscAlloc_agents (s : State) (p : Place) (k cls : Nat) (b : SyscBlock) {miss : State → State} (hm : ∀ s, AgentsKept s (miss s)) :
    AgentsKept s (syscAlloc s p k cls b miss) := by
  unfold syscAlloc
  extract_lets c slot
  split
  · exact hm s
  · extract_lets x
    have hx : AgentsKept s x := by
      simp only [x]
      split
      · exact .refl s
      · split
        · exact (syscClean_agents ..).trans (syscDrop_agents ..)
        · exact .refl s
    exact hx.waySet.wayTouch.setSysc

theorem syscTouch_agents (s : State) (p : Place) (k : Nat) : AgentsKept s (syscTouch s p k) := by
  unfold syscTouch
  split
  · exact (AgentsKept.refl s).wayTouch
  · exact .refl s

theorem syscRefresh_agents (s : State) (p : Place) (k : Nat) (b : SyscBlock) (chk : Check) : AgentsKept s (syscRefresh s p k b chk) := by
  unfold syscRefresh
  split
  · exact (AgentsKept.refl s).setSysc
  · extract_lets x
    have hx : AgentsKept s x := (openRow_agents ..).trans (ctrlVerify_agents ..)
    split
    · exact hx.setSysc
    · exact hx

/-- R291: a home that reads memory leaves the agents' copies. -/
theorem memRead_agents (s : State) (k cls : Nat) (verify : Bool) (chk : Check) : AgentsKept s (memRead s k cls verify chk).2 := by
  unfold memRead
  split
  · exact .refl s
  · split
    · extract_lets x sd
      have hx : AgentsKept s x := syscTouch_agents ..
      split
      · exact hx
      · exact hx.trans (syscRefresh_agents ..)
    · split
      · exact .refl s
      · next p _ _ _ =>
        extract_lets x y d sd
        have hx : AgentsKept s x := openRow_agents ..
        have hy : AgentsKept s y := by
          simp only [y]
          split
          · exact hx.trans (ctrlVerify_agents ..)
          · exact hx
        dsimp only
        split
        · exact hy
        · exact hy.trans (syscAlloc_agents _ _ _ _ _ fun s => .refl s)

theorem partNow_agents (s : State) (p : Place) (k off mask : Nat) (d : List Byte) (poison : Bool) (chk : Check) :
    AgentsKept s (partNow s p k off mask d poison chk) := by
  unfold partNow
  split
  · extract_lets sd x
    refine AgentsKept.setSysc ?_
    simp only [x]
    split
    · exact (AgentsKept.refl s).waySet.wayTouch
    · exact .refl s
  · extract_lets x sd
    have hx : AgentsKept s x := (openRow_agents ..).trans (ctrlVerify_agents ..)
    split
    · exact hx.trans (discarded_agents ..)
    · exact hx.trans (chanWrite_agents ..)

/-- R314: a home that writes a line to memory leaves the agents' copies. -/
theorem lineWrite_agents (s : State) (line cls mask : Nat) (d : List Byte) (poison : Bool) : AgentsKept s (lineWrite s line cls mask d poison) := by
  unfold lineWrite memWritePart
  split
  · exact .refl s
  · split
    · exact discarded_agents ..
    · split
      · exact partNow_agents ..
      · exact chanPush_agents ..

/-! ### The caches of an agent (R257, R280). -/

theorem dieHarts_agents (s : State) (d : Nat) (f : Hart → Hart) : AgentsKept s (dieHarts s d f) := by
  refine (AgentsKept.refl s).foldl fun s k => ?_
  split
  · split
    · exact .of_eq
    · exact .refl s
  · exact .refl s

theorem privDrop_agents (s : State) (a : AgentId) (line : Nat) : AgentsKept s (privDrop s a line) := by
  unfold privDrop
  split
  · exact dieHarts_agents ..
  · exact .refl s

theorem agentDrop_agents (s : State) (a : AgentId) (line : Nat) : AgentsKept s (agentDrop s a line) := by
  refine (privDrop_agents s a line).foldl fun s c => ?_
  split
  · exact (AgentsKept.refl s).waySet
  · exact .refl s

theorem cleanMarks_agents (s : State) (a : AgentId) (line : Nat) : AgentsKept s (cleanMarks s a line) := by
  unfold cleanMarks
  extract_lets x
  have hx : AgentsKept s x := (AgentsKept.refl s).foldl fun s c => by
    split
    · exact (AgentsKept.refl s).waySet
    · exact .refl s
  split
  · exact hx.trans (dieHarts_agents ..)
  · exact hx

/-! ### The agents' copies of a line (R280, R288). -/

/-- Registers and copies in their canonical form stay in it. -/
structure KeepsForm (s t : State) : Prop where
  regs : Rising s.regs → Rising t.regs
  agents : Rising s.coh.agents → Rising t.coh.agents

section
variable {s t u : State}

theorem AgentsKept.form (h : AgentsKept s t) : KeepsForm s t := ⟨h.rising, fun ha => h.agents ▸ ha⟩

theorem KeepsForm.refl (s : State) : KeepsForm s s := ⟨id, id⟩

theorem KeepsForm.trans (h1 : KeepsForm s t) (h2 : KeepsForm t u) : KeepsForm s u := ⟨h2.regs ∘ h1.regs, h2.agents ∘ h1.agents⟩

theorem KeepsForm.kept (h1 : KeepsForm s t) (h2 : AgentsKept t u) : KeepsForm s u := h1.trans h2.form

theorem KeepsForm.setAgent (h : KeepsForm s t) {a : AgentId} {line : Nat} {v : AgentLine} : KeepsForm s (setAgent t a line v) :=
  ⟨h.regs, fun ha => (h.agents ha).mset _ _ _⟩

theorem KeepsForm.foldl {α : Type} {f : State → α → State} {l : List α} (h : KeepsForm s t) (hf : ∀ s a, KeepsForm s (f s a)) :
    KeepsForm s (l.foldl f t) :=
  List.foldlRecOn l f h fun _ hx a _ => hx.trans (hf _ a)

theorem AgentsKept.agentOf_eq (h : AgentsKept s t) (a : AgentId) (line : Nat) : agentOf t a line = agentOf s a line := by
  rw [agentOf, h.agents, agentOf]
end

section
variable {s : State} {a b : AgentId} {line : Nat}

theorem agentOf_setAgent_same (h : Rising s.coh.agents) (v : AgentLine) : agentOf (setAgent s a line v) a line = v := mget_mset_same _ _ _ _ h

theorem agentOf_setAgent_other (h : Rising s.coh.agents) (hb : b ≠ a) (v : AgentLine) : agentOf (setAgent s a line v) b line = agentOf s b line :=
  mget_mset_other _ _ _ _ _ _ (fun he => hb (Fin.ext (by unfold agKey at he; omega))) h
end

/-- A step on each agent's copy of a line, `f` on the state and `g` on the copy. -/
structure CopyStep (line : Nat) (f : State → AgentId → State) (g : AgentLine → AgentLine) : Prop where
  form : ∀ s a, KeepsForm s (f s a)
  same : ∀ s a, Rising s.coh.agents → agentOf (f s a) a line = g (agentOf s a line)
  other : ∀ s a b, Rising s.coh.agents → b ≠ a → agentOf (f s a) b line = agentOf s b line

section
variable {line : Nat} {f : State → AgentId → State} {g : AgentLine → AgentLine}

/-- Agents that the steps pass over keep their copies. -/
theorem CopyStep.foldl_other (h : CopyStep line f g) {b : AgentId} {l : List AgentId} {s : State} (hs : Rising s.coh.agents) (hb : b ∉ l) :
    agentOf (l.foldl f s) b line = agentOf s b line := by
  induction l generalizing s with
  | nil => rfl
  | cons a l ih =>
    rw [List.mem_cons, not_or] at hb
    obtain ⟨hne, hl⟩ := hb
    exact (ih ((h.form s a).agents hs) hl).trans (h.other s a b hs hne)

/-- Every agent's copy takes its step once. -/
theorem CopyStep.foldl_mem (h : CopyStep line f g) {b : AgentId} {l : List AgentId} {s : State} (hs : Rising s.coh.agents) (hl : l.Nodup)
    (hb : b ∈ l) : agentOf (l.foldl f s) b line = g (agentOf s b line) := by
  induction l generalizing s with
  | nil => cases hb
  | cons a l ih =>
    obtain ⟨ha, hl⟩ := List.nodup_cons.mp hl
    have hs' := (h.form s a).agents hs
    by_cases he : b = a
    · rw [List.foldl_cons, h.foldl_other hs' (he ▸ ha), he]
      exact h.same s a hs
    · rw [List.foldl_cons, ih hs' hl (List.mem_of_ne_of_mem he hb)]
      exact congrArg g (h.other s a b hs he)

theorem CopyStep.all_agents (h : CopyStep line f g) {s : State} (hs : Rising s.coh.agents) (b : AgentId) :
    agentOf ((List.finRange 17).foldl f s) b line = g (agentOf s b line) :=
  h.foldl_mem hs (List.nodup_finRange 17) (List.mem_finRange b)

theorem CopyStep.all_form (h : CopyStep line f g) (s : State) : KeepsForm s ((List.finRange 17).foldl f s) := (KeepsForm.refl s).foldl h.form
end

/-! ### Every dirty copy written back (R276: CBO.CLEAN). -/

/-- A copy once its data is in memory. -/
def AgentLine.written (g : AgentLine) : AgentLine :=
  if g.st = .M then { g with st := .E } else if g.st = .O then { g with st := .S } else g

/-- A stable copy is clean then. -/
theorem AgentLine.written_clean {g : AgentLine} (h : isStable g.st = true) : isDirty g.written.st = false := by
  obtain ⟨st⟩ := g
  cases st with
  | I | S | E | O | M => rfl
  | _ => cases h

/-- The state in which the data of an agent's copy has reached memory. -/
def writtenBack (s : State) (a : AgentId) (line : Nat) : State :=
  cleanMarks (lineWrite s line (agentOwnCls a).val allMask (agentOf s a line).data (agentOf s a line).poison) a line

theorem writtenBack_agents (s : State) (a : AgentId) (line : Nat) : AgentsKept s (writtenBack s a line) := (lineWrite_agents ..).trans (cleanMarks_agents ..)

/-- A copy is written back and marked clean, or was clean. -/
theorem cleanCopy_eq (s : State) (a : AgentId) (line : Nat) :
    cleanCopy s a line = setAgent (writtenBack s a line) a line (agentOf s a line).written ∨
      cleanCopy s a line = s ∧ (agentOf s a line).written = agentOf s a line := by
  unfold cleanCopy
  extract_lets g w
  split
  · next hM =>
    have hw : g.written = { g with st := .E } := if_pos hM
    exact .inl (congrArg (setAgent (writtenBack s a line) a line) hw.symm)
  · next hO =>
    have hM : ¬ g.st = .M := by rw [hO]; decide
    have hw : g.written = { g with st := .S } := (if_neg hM).trans (if_pos hO)
    exact .inl (congrArg (setAgent (writtenBack s a line) a line) hw.symm)
  · next hM hO => exact .inr ⟨rfl, (if_neg hM).trans (if_neg hO)⟩

theorem cleanCopy_step (line : Nat) : CopyStep line (fun s a => cleanCopy s a line) AgentLine.written where
  form s a := by
    rcases cleanCopy_eq s a line with h | ⟨h, -⟩ <;> rw [h]
    · exact (writtenBack_agents s a line).form.setAgent
    · exact .refl s
  same s a hs := by
    have hw := writtenBack_agents s a line
    rcases cleanCopy_eq s a line with h | ⟨h, hg⟩ <;> rw [h]
    · exact agentOf_setAgent_same (hw.form.agents hs) _
    · exact hg.symm
  other s a b hs hb := by
    have hw := writtenBack_agents s a line
    rcases cleanCopy_eq s a line with h | ⟨h, -⟩ <;> rw [h]
    exact (agentOf_setAgent_other (hw.form.agents hs) hb _).trans (hw.agentOf_eq b line)

theorem domainClean_form (s : State) (line : Nat) : KeepsForm s (domainClean s line) := (cleanCopy_step line).all_form s

/-- R276: CBO.CLEAN leaves no dirty copy of a line whose copies are stable. -/
theorem domainClean_clean {s : State} (hs : Rising s.coh.agents) {line : Nat} (h : ∀ a, isStable (agentOf s a line).st = true) (a : AgentId) :
    isDirty (agentOf (domainClean s line) a line).st = false := by
  rw [domainClean, (cleanCopy_step line).all_agents hs]
  exact AgentLine.written_clean (h a)

/-! ### Every copy given up (R276: CBO.FLUSH, CBO.INVAL). -/

/-- A copy given up. -/
def AgentLine.dropped (g : AgentLine) : AgentLine := if g.st = .I then g else toSt g .I

theorem AgentLine.dropped_st (g : AgentLine) : g.dropped.st = .I := by
  unfold AgentLine.dropped
  split
  · assumption
  · rfl

theorem agentTo_I (s : State) (a : AgentId) (line : Nat) :
    agentTo s a line .I = agentDrop (setAgent s a line (toSt (agentOf s a line) .I)) a line := rfl

theorem agentTo_I_form (s : State) (a : AgentId) (line : Nat) : KeepsForm s (agentTo s a line .I) :=
  (KeepsForm.refl s).setAgent.kept (agentDrop_agents ..)

/-- An agent gives up its copy of a line, if it has one. -/
def giveUp (line : Nat) (s : State) (a : AgentId) : State := if (agentOf s a line).st = .I then s else agentTo s a line .I

theorem giveUp_step (line : Nat) : CopyStep line (giveUp line) AgentLine.dropped where
  form s a := by
    unfold giveUp
    split
    · exact .refl s
    · exact agentTo_I_form s a line
  same s a hs := by
    unfold giveUp AgentLine.dropped
    split
    · rfl
    · exact (AgentsKept.agentOf_eq (agentDrop_agents ..) a line).trans (agentOf_setAgent_same hs _)
  other s a b hs hb := by
    unfold giveUp
    split
    · rfl
    · exact (AgentsKept.agentOf_eq (agentDrop_agents ..) b line).trans (agentOf_setAgent_other hs hb _)

theorem dropCopies_none (s : State) (line : Nat) : dropCopies s line none = (List.finRange 17).foldl (giveUp line) (loseLine s (.dram line)) := by
  unfold dropCopies
  simp only [reduceCtorEq, false_or]
  rfl

theorem dropCopies_form (s : State) (line : Nat) (keep : Option AgentId) : KeepsForm s (dropCopies s line keep) := by
  have hlose : KeepsForm s (loseLine s (.dram line)) := ⟨id, id⟩
  refine hlose.foldl fun s a => ?_
  split
  · exact .refl s
  · exact agentTo_I_form s a line

/-- R276: no agent has a copy left. -/
theorem dropCopies_invalid {s : State} (hs : Rising s.coh.agents) (line : Nat) (a : AgentId) : (agentOf (dropCopies s line none) a line).st = .I := by
  rw [dropCopies_none, (giveUp_step line).all_agents (s := loseLine s (.dram line)) hs]
  exact AgentLine.dropped_st _

theorem domainFlush_form (s : State) (line : Nat) : KeepsForm s (domainFlush s line) := (domainClean_form s line).trans (dropCopies_form ..)

theorem domainFlush_invalid {s : State} (hs : Rising s.coh.agents) (line : Nat) (a : AgentId) : (agentOf (domainFlush s line) a line).st = .I :=
  dropCopies_invalid ((domainClean_form s line).agents hs) line a

/-! ### A core's store of a whole line (R276: CBO.ZERO). -/

theorem hostUsed_form (s : State) (a : AgentId) (line : Nat) : KeepsForm s (hostUsed s a line) := by
  unfold hostUsed
  split
  · exact (KeepsForm.refl s).setAgent
  · exact .refl s

theorem slice_length (l : List Byte) (off len : Nat) : (slice l off len).length = len := by
  simp only [slice, List.length_append, List.length_replicate, List.length_take]
  omega

theorem funcRead_form (s : State) (line cls : Nat) (verify : Bool) (chk : Check) : KeepsForm s (funcRead s line cls verify chk).2.2 := by
  unfold funcRead
  split
  · exact hostUsed_form ..
  · exact (memRead_agents ..).form

theorem funcRead_length (s : State) (line cls : Nat) (verify : Bool) (chk : Check) : (funcRead s line cls verify chk).1.length = 64 := by
  unfold funcRead
  split <;> exact slice_length ..

theorem evictCopy_form (s : State) (a : AgentId) (cls line : Nat) : KeepsForm s (evictCopy s a cls line) := by
  unfold evictCopy
  split
  · exact .refl s
  · extract_lets g x
    have hx : KeepsForm s x := by
      simp only [x]
      split
      · exact (lineWrite_agents ..).form
      · exact .refl s
    split
    · exact hx.setAgent.kept (privDrop_agents ..)
    · exact hx

theorem cacheInstall_form (s : State) (c : CacheId) (a : AgentId) (cls line : Nat) (write : Bool) : KeepsForm s (cacheInstall s c a cls line write).2 := by
  unfold cacheInstall
  extract_lets k
  split
  · extract_lets x
    have hx : AgentsKept s x := by
      simp only [x]
      split
      · exact (AgentsKept.refl s).waySet
      · exact .refl s
    exact hx.wayTouch.form
  · split
    · exact .refl s
    · extract_lets old x
      have hx : KeepsForm s x := (AgentsKept.refl s).waySet.wayTouch.form
      clear_value old
      cases old with
      | none => exact hx
      | some e => exact hx.trans (evictCopy_form ..)

theorem funcWrite_form (s : State) (line cls mask : Nat) (d : List Byte) (poison : Bool) : KeepsForm s (funcWrite s line cls mask d poison) := by
  unfold funcWrite
  split <;> exact (dropCopies_form ..).kept (lineWrite_agents ..)

theorem funcWrite_invalid {s : State} (hs : Rising s.coh.agents) (line cls mask : Nat) (d : List Byte) (poison : Bool) (a : AgentId) :
    (agentOf (funcWrite s line cls mask d poison) a line).st = .I := by
  unfold funcWrite
  split <;> rw [AgentsKept.agentOf_eq (lineWrite_agents ..)] <;> exact dropCopies_invalid hs line a

/-- A mask of a whole line takes every byte of the data. -/
theorem mergeBytes_whole {old d : List Byte} (ho : old.length = 64) (hd : d.length = 64) : mergeBytes old 0 allMask d = d := by
  refine List.ext_getElem (by simp [mergeBytes, ho, hd]) fun i h1 h2 => ?_
  have hi : i < 64 := hd ▸ h2
  have hbit : bitOf allMask i = true := by
    interval_cases i <;> decide
  simp [mergeBytes, hbit, hi, hd]

/-- The copy of a line that a store of a whole line leaves in its agent, where it leaves one. -/
theorem cohStore_whole {s : State} (hs : Rising s.coh.agents) (a : AgentId) (c : CacheId) (cls line : Nat) {d : List Byte} (hd : d.length = 64) :
    (agentOf (cohStore s a c cls line allMask d) a line).st = .M → (agentOf (cohStore s a c cls line allMask d) a line).data = d := by
  unfold cohStore
  extract_lets g r ci x cover poison
  have hr : KeepsForm s r.2.2 ∧ r.1.length = 64 := by
    simp only [r]
    split
    · exact ⟨.refl s, slice_length ..⟩
    · exact ⟨funcRead_form .., funcRead_length ..⟩
  have hci : Rising ci.2.coh.agents := (cacheInstall_form ..).agents (hr.1.agents hs)
  split
  · rw [funcWrite_invalid hci]
    intro h; cases h
  · rw [agentOf_setAgent_same ((dropCopies_form ..).agents hci)]
    exact fun _ => mergeBytes_whole hr.2 hd

theorem cohStore_form (s : State) (a : AgentId) (c : CacheId) (cls line mask : Nat) (d : List Byte) : KeepsForm s (cohStore s a c cls line mask d) := by
  unfold cohStore
  extract_lets g r ci x cover poison
  have hr : KeepsForm s r.2.2 := by
    simp only [r]
    split
    · exact .refl s
    · exact funcRead_form ..
  have hci : KeepsForm s ci.2 := hr.trans (cacheInstall_form ..)
  split
  · exact hci.trans (funcWrite_form ..)
  · exact (hci.trans (dropCopies_form ..)).setAgent

/-! ### Cache-block operations of a core in machine mode (R276). -/

/-- Nothing holds a line up: no copy of it is in motion. -/
theorem stable_of_not_busy {s : State} {die line : Nat} {write : Bool} (h : lineBusy s die line write = false) (a : AgentId) :
    isStable (agentOf s a line).st = true := by
  simp only [lineBusy, Bool.or_eq_false_iff, List.any_eq_false, Bool.not_eq_true, Bool.not_eq_false'] at h
  obtain ⟨⟨⟨⟨⟨-, hstable⟩, -⟩, -⟩, -⟩, -⟩ := h
  exact hstable a (List.mem_finRange a)

/-- A line of which the host has no copy is free to be read where it is free to be written. -/
theorem lineBusy_read {s : State} {die line : Nat} (h : lineBusy s die line true = false) : lineBusy s die line false = false := by
  simp only [lineBusy, Bool.or_eq_false_iff] at h ⊢
  obtain ⟨⟨⟨⟨hfront, hhost⟩, hbi⟩, hmem⟩, hreach⟩ := h
  refine ⟨⟨⟨⟨hfront, ?_⟩, hbi⟩, hmem⟩, hreach⟩
  have htrk : hostTrk s line = 0 := by simpa [hostHolds] using hhost
  simp [hostHolds, htrk]

theorem coreXlate_machine {s : State} {n : CoreId} {k : Acc3} (h : dataMode s n k = 3) (va : Nat) (cause : Acc3) : coreXlate s n va k cause = (.inl va, s) := by
  unfold coreXlate
  simp only [h, true_or, if_true]

theorem dataMode_write (s : State) (n : CoreId) : dataMode s n .write = dataMode s n .read := by
  simp [dataMode]

theorem cboAllowed_machine {s : State} {n : CoreId} (h : modeOf s n = 3) (kind : Nat) : cboAllowed s n kind = true := by
  simp [cboAllowed, h]

/-- What a cache-block operation of a kind does to its line. -/
def cboLine (s : State) (n : CoreId) (kind line : Nat) : State :=
  if kind = 1 then domainClean s line else if kind = 4 then coreStoreLine s n (64 * line) (List.replicate 64 0) else domainFlush s line

theorem cboLine_clean (s : State) (n : CoreId) (line : Nat) : cboLine s n 1 line = domainClean s line := if_pos rfl

theorem cboLine_zero (s : State) (n : CoreId) (line : Nat) : cboLine s n 4 line = coreStoreLine s n (64 * line) (List.replicate 64 0) :=
  (if_neg (by decide)).trans (if_pos rfl)

/-- INVAL acts as FLUSH. -/
theorem cboLine_flush (s : State) (n : CoreId) {kind : Nat} (h : kind = 0 ∨ kind = 2) (line : Nat) : cboLine s n kind line = domainFlush s line :=
  (if_neg (by omega)).trans (if_neg (by omega))

/-- A core in machine mode carries a cache-block operation out on a line that nothing holds up, and goes on. -/
theorem cboGo_machine {s : State} {n : CoreId} (hd : dataMode s n .read = 3) (hm : modeOf s n = 3) {va : Nat} (hdram : inDram s (va / 64 * 64) 64 = true)
    (hfree : lineBusy s (coreDie n) (va / 64) true = false) (kind w : Nat) (next : BitVec 64) :
    cboGo s n kind va w next = coreGo (cboLine s n kind (va / 64)) n next := by
  have hx : dataMode s n (if kind = 4 then .write else .read) = 3 := by
    split
    · exact (dataMode_write s n).trans hd
    · exact hd
  have hbusy : lineBusy s (coreDie n) (va / 64) (kind != 1) = false := by
    cases kind != 1
    · exact lineBusy_read hfree
    · exact hfree
  have hline : va / 64 * 64 / 64 = va / 64 := Nat.mul_div_cancel _ (by decide)
  unfold cboGo
  extract_lets k a
  rw [cboAllowed_machine hm, coreXlate_machine hx]
  simp only [a, hdram, hline, hbusy, Bool.not_true, Bool.false_eq_true, if_false]
  rfl

/-! ### The lines of the four kinds. -/

/-- The state in which a core's store of a line of zeros has reached its agent. -/
def zeroStored (s : State) (n : CoreId) (line : Nat) : State :=
  cohStore (setHart (dieHarts s (n.val / 48) (privLose line)) n (hartOf s n)) (coreAgent n) (coreCache n) (coreCls n) line allMask (List.replicate 64 0)

theorem coreStoreLine_zero_agents (s : State) (n : CoreId) (line : Nat) :
    AgentsKept (zeroStored s n line) (coreStoreLine s n (64 * line) (List.replicate 64 0)) := by
  have hdiv : 64 * line / 64 = line := Nat.mul_div_cancel_left _ (by decide)
  have hmod : 64 * line % 64 = 0 := Nat.mul_mod_right ..
  unfold coreStoreLine
  simp only [hdiv, hmod, List.length_replicate, List.replicate_zero, List.nil_append, pow_zero, Nat.mul_one]
  show AgentsKept (zeroStored s n line) { (if (agentOf (zeroStored s n line) (coreAgent n) line).st = .M then
    modHart (zeroStored s n line) n (fun h => privTake .l1d line true (privTake .l2 line false h)) else zeroStored s n line) with resv := _ }
  split <;> exact .of_eq

theorem zeroStored_start_agents (s : State) (n : CoreId) (line : Nat) :
    AgentsKept s (setHart (dieHarts s (n.val / 48) (privLose line)) n (hartOf s n)) := (dieHarts_agents ..).trans .of_eq

theorem coreStoreLine_zero_form (s : State) (n : CoreId) (line : Nat) : KeepsForm s (coreStoreLine s n (64 * line) (List.replicate 64 0)) :=
  ((zeroStored_start_agents s n line).form.trans (cohStore_form ..)).kept (coreStoreLine_zero_agents s n line)

/-- R276: CBO.ZERO leaves zeros in the core's copy. -/
theorem coreStoreLine_zero_data {s : State} (hs : Rising s.coh.agents) (n : CoreId) (line : Nat) :
    (agentOf (coreStoreLine s n (64 * line) (List.replicate 64 0)) (coreAgent n) line).st = .M →
      (agentOf (coreStoreLine s n (64 * line) (List.replicate 64 0)) (coreAgent n) line).data = List.replicate 64 0 := by
  rw [(coreStoreLine_zero_agents s n line).agentOf_eq]
  exact cohStore_whole ((zeroStored_start_agents s n line).form.agents hs) _ _ _ _ List.length_replicate

theorem cboLine_form (s : State) (n : CoreId) (kind line : Nat) : KeepsForm s (cboLine s n kind line) := by
  unfold cboLine
  split
  · exact domainClean_form ..
  · split
    · exact coreStoreLine_zero_form ..
    · exact domainFlush_form ..

/-- R276: the instruction leaves the copies that the operation leaves, and goes on at the next one. -/
theorem coreGo_cboLine {s : State} (hs : Rising s.regs) (n : CoreId) (kind line : Nat) (next : BitVec 64) :
    corePcV (coreGo (cboLine s n kind line) n next) n = next ∧
      ∀ a, agentOf (coreGo (cboLine s n kind line) n next) a line = agentOf (cboLine s n kind line) a line :=
  ⟨corePcV_coreGo ((cboLine_form ..).regs hs) next, fun _ => rfl⟩

/-- In machine mode, on a line that nothing holds up, the four instructions carry out their kind. -/
theorem exec_cbo_machine {s : State} {n : CoreId} {va : BitVec 64} (hst : pgState s (.core n) = 4) (hd : dataMode s n .read = 3) (hm : modeOf s n = 3)
    (hdram : inDram s (va.toNat / 64 * 64) 64 = true) (hfree : lineBusy s (coreDie n) (va.toNat / 64) true = false) :
    exec (.cboClean n va) s = .next (coreGo (cboLine s n 1 (va.toNat / 64)) n (corePcV s n + 4)) ∧
    exec (.cboFlush n va) s = .next (coreGo (cboLine s n 2 (va.toNat / 64)) n (corePcV s n + 4)) ∧
    exec (.cboInval n va) s = .next (coreGo (cboLine s n 0 (va.toNat / 64)) n (corePcV s n + 4)) ∧
    exec (.cboZero n va) s = .next (coreGo (cboLine s n 4 (va.toNat / 64)) n (corePcV s n + 4)) := by
  have hgo := fun kind w => cboGo_machine hd hm hdram hfree kind w (corePcV s n + 4)
  refine ⟨?_, ?_, ?_, ?_⟩
  · show execCboClean n va s = _
    rw [execCboClean, if_pos hst, hgo]
  · show execCboFlush n va s = _
    rw [execCboFlush, if_pos hst, hgo]
  · show execCboInval n va s = _
    rw [execCboInval, if_pos hst, hgo]
  · show execCboZero n va s = _
    rw [execCboZero, if_pos hst, hgo]

/-- Settles O25, clause by clause: each is the law of its instruction, of the errors in a core's own caches, or of the cache-block operations. -/
theorem coresRunAndActOnCacheBlocks : Obligations.CoresRunAndActOnCacheBlocks := by
  unfold Obligations.CoresRunAndActOnCacheBlocks
  refine ⟨?addi, ?ecall, ?parity, ?fill, ?corrected, ?dataUe, ?cbo⟩
  case addi =>
    intro s s1 n d w hinv hst hi hf hd hw hop hf3 hrd hx
    exact coreInstruction_addi hinv hst hi hf hd hw hop hf3 hrd hx
  case ecall =>
    intro s s1 n d hinv hst hi hf hd hw hm hcsr
    exact coreInstruction_ecall hinv hst hi hf hd hw hm hcsr
  case parity =>
    intro s n file hinv hst
    exact ⟨_, exec_registerParityMismatch hst file, raise_stop_core hinv.regs_rising hst rfl (show 6 < 32 by decide)⟩
  case fill =>
    intro s n fetch f l hinv hl
    obtain ⟨hsame, hother⟩ := fillsOf_chunk (hartOf s n) fetch
    rw [hl] at hsame
    have hn := hartOf_modHart_same (n := n) hinv.harts_rising (fun h => h.chunk fetch)
    exact ⟨_, exec_l1FillChunk n fetch s, hn ▸ hsame, hn ▸ hother, fun m hm => hartOf_modHart_other hinv.harts_rising _ hm⟩
  case corrected =>
    intro s n hinv hst
    rw [exec_coreInstruction_corrected hst, exec_coreInstruction_none]
    exact (pgState_satAdd_core hinv.regs_rising n (by decide)).trans hst
  case dataUe =>
    intro s n lv line hinv hst hh hd
    rw [exec_coreInstruction_dataUe hst hh hd, exec_coreInstruction_none]
    exact (pgState_satAdd_core hinv.regs_rising n (by decide)).trans hst
  case cbo =>
    intro s n va hinv hag hst hd hm hdram hfree
    obtain ⟨hclean, hflush, hinval, hzero⟩ := exec_cbo_machine hst hd hm hdram hfree
    have hleft := fun kind => coreGo_cboLine hinv.regs_rising n kind (va.toNat / 64) (corePcV s n + 4)
    refine ⟨⟨_, hclean, (hleft 1).1, fun a => ?_⟩, ⟨_, hflush, (hleft 2).1, fun a => ?_⟩, ⟨_, hinval, (hleft 0).1, fun a => ?_⟩,
      ⟨_, hzero, (hleft 4).1, ?_⟩⟩
    · rw [(hleft 1).2, cboLine_clean]
      exact domainClean_clean hag (stable_of_not_busy hfree) a
    · rw [(hleft 2).2, cboLine_flush s n (.inr rfl)]
      exact domainFlush_invalid hag _ a
    · rw [(hleft 0).2, cboLine_flush s n (.inl rfl)]
      exact domainFlush_invalid hag _ a
    · rw [(hleft 4).2, cboLine_zero]
      exact coreStoreLine_zero_data hag n _

end Sys2Proof.Machine
end

section
/-! The control pages (R42 to R68): their slots and identities, PG_CTRL, errors and the error log, and the commands that write settings. -/

namespace Sys2Proof.Machine

/-! ### Slots and identities (R42 to R50). -/

/-- R50: the page that a PG_ID with this TYPE and INSTANCE names. -/
def pageNamed (type inst : Nat) : Option Page :=
  match type with
  | 0x0001 => some .hub
  | 0x0002 => some .mgpwr
  | 0x0003 => some .sec
  | 0x0004 => some .coh
  | 0x0005 => (finOf 31 inst).map .dlink
  | 0x0010 => (finOf 48 inst).map .bayCtl
  | 0x0011 => (finOf 48 inst).map .doc
  | 0x0012 => (finOf 48 inst).map .issue
  | 0x0013 => (finOf 48 inst).map .sync
  | 0x0014 => (finOf 48 inst).map .pace
  | 0x0018 => (finOf 48 (inst / 8)).bind fun b => (finOf 8 (inst % 8)).map (.arr b)
  | 0x0020 => (finOf 48 inst).map .vec
  | 0x0021 => (finOf 48 inst).map .tgu
  | 0x0022 => (finOf 48 (inst / 2)).bind fun b => (finOf 2 (inst % 2)).map (.gth b)
  | 0x0023 => (finOf 48 (inst / 4)).bind fun b => (finOf 4 (inst % 4)).map (.mov b)
  | 0x0024 => (finOf 48 inst).map .store
  | 0x0025 => (finOf 48 inst).map .bcache
  | 0x0026 => (finOf 48 inst).map .xlate
  | 0x0030 => (finOf 16 (inst / 32)).bind fun t => (finOf 32 (inst % 32)).map (.mchan t)
  | 0x0031 => (finOf 16 inst).map .sysc
  | 0x0040 => (finOf 32 inst).map .fport
  | 0x0041 => (finOf 2 inst).map .router
  | 0x0042 => (finOf 2 inst).map .flow
  | 0x0043 => (finOf 2 inst).map .ce
  | 0x0050 => some .host
  | 0x0060 => (finOf 4 inst).map .pdCtl
  | 0x0061 => (finOf 4 (inst / 6)).bind fun d => (finOf 6 (inst % 6)).map (.clus d)
  | 0x0062 => (finOf 4 inst).map .l3
  | 0x0063 => (finOf 192 inst).map .core
  | _ => none

/-- The number `n * i + j` names `i` and `j`. -/
theorem finOf_mul_add {m n : Nat} (i : Fin m) (j : Fin n) :
    finOf m ((n * i.val + j.val) / n) = some i ∧ finOf n ((n * i.val + j.val) % n) = some j := by
  have hj := j.isLt
  have hn : 0 < n := by omega
  refine ⟨finOf_eq i ?_, finOf_eq j ?_⟩
  · rw [Nat.mul_add_div hn, Nat.div_eq_of_lt hj, Nat.add_zero]
  · rw [Nat.mul_add_mod, Nat.mod_eq_of_lt hj]

theorem pageNamed_type_inst (p : Page) : pageNamed p.type p.inst = some p := by
  cases p with
  | arr i j | gth i j | mov i j | mchan i j | clus i j =>
    obtain ⟨hi, hj⟩ := finOf_mul_add i j
    simp only [Page.type, Page.inst, pageNamed, hi, hj, Option.bind_some, Option.map_some]
  | _ => simp only [Page.type, Page.inst, pageNamed, finOf_val, Option.map_some]

theorem inst_lt (p : Page) : p.inst < 65536 := by
  cases p <;> simp only [Page.inst] <;> omega

/-- R50: PG_ID tells pages apart. -/
theorem pgId_injective : Function.Injective pgId := fun p q h => by
  have hp := inst_lt p
  have hq := inst_lt q
  unfold pgId at h
  have htype : p.type = q.type := by omega
  have hinst : p.inst = q.inst := by omega
  have hn := pageNamed_type_inst p
  rw [htype, hinst, pageNamed_type_inst q] at hn
  exact (Option.some.inj hn).symm

/-- Settles O53: the slot and PG_ID each name the page. -/
theorem pagesHaveTheirOwnSlots : Obligations.PagesHaveTheirOwnSlots :=
  ⟨fun p => ⟨pageOfSlot_slot p, Nat.lt_trans (slot_range p).1 (by decide)⟩, fun _ _ h => Page.slot_injective h, fun _ _ h => pgId_injective h⟩

/-! ### PG_CTRL (R52). -/

/-- A field that ends before the bytes read shows nothing. -/
theorem FieldVal.part_before (f : FieldVal) {off size : Nat} (h : f.bit + f.width ≤ 8 * off) : f.part off size = 0 := by
  unfold FieldVal.part
  exact if_pos (by omega)

/-- No field of a page shows in the 4 bytes of PG_CTRL. -/
theorem pageFields_ctrl (s : State) (p : Page) : ∀ f ∈ pageFields s p, f.bit + f.width ≤ 128 ∨ 160 ≤ f.bit := by
  unfold pageFields
  extract_lets id t own
  have hid : ∀ f ∈ id, f.bit + f.width ≤ 128 ∨ 160 ≤ f.bit := by simp [id]
  have hown : ∀ f ∈ own, f.bit + f.width ≤ 128 ∨ 160 ≤ f.bit := by
    cases p with
    | flow f => exact List.forall_mem_map.mpr fun w _ => .inr (show 160 ≤ 8 * (0x140 + 8 * w) by omega)
    | _ => simp [own]
  have hhdr : ∀ r ∈ hdrRows, 8 * r.off + r.lsb + r.width ≤ 128 ∨ 160 ≤ 8 * r.off + r.lsb := by decide
  split
  · exact hid
  · refine List.forall_mem_append.mpr ⟨List.forall_mem_append.mpr ⟨List.forall_mem_append.mpr ⟨hid, by simp⟩, hown⟩,
      List.forall_mem_map.mpr fun r hr => ?_⟩
    rcases List.mem_append.mp hr with hr | hr
    · exact hhdr r hr
    · have hoff := pageRows_off p hr
      exact .inr (show 160 ≤ 8 * r.off + r.lsb by omega)

theorem pageRead_ctrl (s : State) (p : Page) : pageRead s p 0x10 4 = 0 := List.sum_eq_zero (by
  simp only [List.mem_map]
  rintro _ ⟨f, hf, rfl⟩
  exact (pageFields_ctrl s p f hf).elim (f.part_before (off := 0x10)) (f.part_past (off := 0x10) (size := 4)))

/-- A read of PG_CTRL answers 0 and changes nothing but the answer and the host's completion. -/
theorem dcsAccess_ctrl {s : State} {who : Requester} {p : Page} (hs : held s = false) (hr : dcsReaches s who (4096 * p.slot + 0x10) = true) :
    exec (.dcsAccess who (BitVec.ofNat 26 (4096 * p.slot + 0x10)) 4 none) s = .next { dcsGood s who with resp := [0, 0, 0, 0] } := by
  have hoff := dcsOffset_toNat p (o := 0x10) (by decide)
  have hread := dcsRead_page (s := dcsGood s who) (by simpa using hs) p (o := 0x10) (by decide) (by decide) 4
  have hzero : toLE 4 0 = [0, 0, 0, 0] := by decide
  rw [exec_dcsAccess_read hs (by rw [hoff]; exact hr) (by rw [hoff]; exact dcsAligned_four p (by decide)), hoff, hread, pageRead_ctrl, hzero]

/-- A 4-byte write of PG_CTRL of a page that is there gives the page its commands. -/
theorem pageWrite_ctrl {s : State} {p : Page} (hp : pgState s p ≠ 0) (v : Nat) : pageWrite s p 0x10 4 v = ctrlWrite s p (v % 2 ^ 32) := by
  have hlock : coversRw p 0x10 4 = false := coversRw_header p (by decide)
  unfold pageWrite
  rw [if_neg hp]
  extract_lets lock sh w t
  have hl : lock = false := by simp only [lock, hlock, Bool.and_false, Bool.false_and]
  have ht : t = w := by
    simp only [t, write64_header s p (show 0x10 / 8 * 8 < 0x100 by decide)]
    rfl
  have hw : w = ctrlWrite s p (v % 2 ^ 32) := if_pos rfl
  rw [hl, ht, hw]
  exact if_neg (by decide)

theorem registerWrite_ctrl {s : State} {who : Requester} {p : Page} (v : BitVec 32) (hp : pgState s p ≠ 0)
    (hr : dcsReaches s who (4096 * p.slot + 0x10) = true) :
    exec (.registerWrite who (BitVec.ofNat 26 (4096 * p.slot + 0x10)) 4 (v.zeroExtend 64)) s = .next (ctrlWrite (dcsGood s who) p v.toNat) := by
  have hs := held_of_pgState hp
  have hoff := dcsOffset_toNat p (o := 0x10) (by decide)
  have hv : (v.zeroExtend 64).toNat % 2 ^ (8 * 4) % 2 ^ 32 = v.toNat := by
    have := v.isLt
    simp only [BitVec.truncate_eq_setWidth, BitVec.toNat_setWidth]
    omega
  rw [exec_registerWrite_aligned hs (by rw [hoff]; exact hr) (by rw [hoff]; exact dcsAligned_four p (by decide)), hoff,
    dcsWrite_page (by simpa using hs) who p (o := 0x10) (by decide), pageWrite_ctrl (by simpa using hp), hv]

/-- The commands of PG_CTRL always answer a next state. -/
theorem ctrlCommands_next (s : State) (p : Page) : (∃ t, execReset p s = .next t) ∧ (∃ t, execStop p s = .next t) ∧ (∃ t, execSleep p s = .next t) ∧
    (∃ t, execWake p s = .next t) ∧ ∃ t, execRun p s = .next t := by
  refine ⟨?_, ⟨_, rfl⟩, ?_, ?_, ?_⟩
  · unfold execReset
    dsimp only
    repeat' split
    all_goals exact ⟨_, rfl⟩
  · unfold execSleep
    repeat' split
    all_goals exact ⟨_, rfl⟩
  · unfold execWake
    split <;> exact ⟨_, rfl⟩
  · unfold execRun
    repeat' split
    all_goals exact ⟨_, rfl⟩

theorem next_after {o : Out} (h : ∃ t, o = .next t) (s : State) : .next (after s o) = o := by
  obtain ⟨t, rfl⟩ := h
  rfl

/-- R52: CLR_ERR first, then the one command of highest precedence: RESET, STOP, SLEEP, WAKE, RUN. -/
theorem next_ctrlWrite (s : State) (p : Page) (v : Nat) : .next (ctrlWrite s p v) =
    (let s' := if bitOf v 3 then (if pgState s p = 0 then s else wr s p hdrErr 0) else s
     if bitOf v 2 then execReset p s' else if bitOf v 1 then execStop p s' else if bitOf v 4 then execSleep p s'
     else if bitOf v 5 then execWake p s' else if bitOf v 0 then execRun p s' else .next s') := by
  unfold ctrlWrite
  extract_lets t t'
  have ht : t = t' := rfl
  obtain ⟨hreset, hstop, hsleep, hwake, hrun⟩ := ctrlCommands_next t p
  rw [← ht]
  simp only [apply_ite (Host.Outcome.next (φ := Fault) (ρ := Refusal)), next_after hreset, next_after hstop, next_after hsleep,
    next_after hwake, next_after hrun]

/-! Commands that the page does not accept or offer change nothing. -/

section
variable {s : State} {p : Page}

theorem exec_run_refused (h : p.runctl = false ∨ pgState s p ≠ 2) : exec (.run p) s = .next s := by
  show execRun p s = _
  exact if_pos (by rcases h with h | h <;> simp [h])

theorem exec_stop_refused (h : p.runctl = false ∨ (pgState s p ≠ 3 ∧ pgState s p ≠ 4 ∧ pgState s p ≠ 6)) : exec (.stop p) s = .next s := by
  show Host.Outcome.next (stopCmd s p) = _
  unfold stopCmd
  rcases h with h | ⟨h3, h4, h6⟩
  · simp [h]
  · simp [h3, h4, h6]

theorem exec_reset_refused (h : pgState s p = 0 ∨ pgState s p = 1 ∨ (pgState s p = 7 ∧ domainUp s = false)) : exec (.reset p) s = .next s := by
  show execReset p s = _
  unfold execReset
  rcases h with h | h | ⟨h, hd⟩
  · simp [h]
  · simp [h]
  · simp [h, hd]

theorem exec_sleep_refused (h : p.sleepctl = false ∨ pgState s p ≠ 2) : exec (.sleep p) s = .next s := by
  show execSleep p s = _
  exact if_pos (by rcases h with h | h <;> simp [h])

theorem exec_wake_refused (h : p.sleepctl = false ∨ pgState s p ≠ 1) : exec (.wake p) s = .next s := by
  show execWake p s = _
  exact if_pos (by rcases h with h | h <;> simp [h])

theorem exec_clrErr_refused (h : pgState s p = 0) : exec (.clrErr p) s = .next s := congrArg Host.Outcome.next (if_pos h)
end

/-- Settles O52: the read, the write, and the commands refused, each by its law. -/
theorem controlWritesFollowPrecedence : Obligations.ControlWritesFollowPrecedence :=
  ⟨fun _ _ _ hs hr => dcsAccess_ctrl hs hr,
    fun _ _ _ v hr hp => ⟨_, rfl, (registerWrite_ctrl v hp hr).trans (next_ctrlWrite ..)⟩,
    fun _ _ => exec_run_refused, fun _ _ => exec_stop_refused, fun _ _ => exec_reset_refused, fun _ _ => exec_sleep_refused,
    fun _ _ => exec_wake_refused, fun _ _ => exec_clrErr_refused⟩

/-! ### The commands that write settings. -/

/-- If the outcome is a next state, it differs from `s` in register fields, what an event reaches, and the error log alone. -/
def ErrorsOnly (s : State) (o : Out) : Prop := ∀ t, o = .next t → OnlyErrors s t

section
variable {s t u : State} {p : Page} {c : Prop} [Decidable c]

theorem ErrorsOnly.next (h : OnlyErrors s t) : ErrorsOnly s (.next t) := fun u hu => by cases hu; exact h

theorem ErrorsOnly.ite {o o' : Out} (h : ErrorsOnly s o) (h' : ErrorsOnly s o') : ErrorsOnly s (if c then o else o') := by
  split
  exacts [h, h']

theorem OnlyErrors.ite (h : OnlyErrors s t) (h' : OnlyErrors s u) : OnlyErrors s (if c then t else u) := by
  split
  exacts [h, h']

theorem OnlyRegs.errors (h : OnlyRegs s t) : OnlyErrors s t := .of_events (.of_regs h)

theorem OnlyRegs.foldl {α : Type} {f : State → α → State} (hf : ∀ s a, OnlyRegs s (f s a)) (l : List α) (s : State) : OnlyRegs s (l.foldl f s) :=
  List.foldlRecOn l f (.refl s) fun t ht a _ => ht.trans (hf t a)

/-- A field of a page stored, or not: nothing else changes. -/
theorem ErrorsOnly.unless_wr {r : Row} {v : Nat} : ErrorsOnly s (if c then .next s else .next (wr s p r v)) := .ite (.next (.refl s)) (.next (.wr ..))

theorem ErrorsOnly.if_wr {r : Row} {v : Nat} : ErrorsOnly s (if c then .next (wr s p r v) else .next s) := .ite (.next (.wr ..)) (.next (.refl s))
end

/-- R56: RUN refused raises CFG_ZERO, CFG_RANGE or both. -/
theorem runRefuse_errors (s : State) (p : Page) (l : List (Nat × Nat)) : OnlyErrors s (runRefuse s p l) := by
  have hput : ∀ (s : State) (bit : Nat),
      OnlyErrors s (match lowestOf l bit with | some o => raise s p { bit := bit, detail := o } | none => s) := fun s bit => by
    split
    · exact raise_errors s p _ rfl
    · exact .refl s
  exact .ite ((hput ..).trans (hput ..)) ((hput ..).trans (hput ..))

/-- RUN of a page but XLATE moves its state or raises what its settings lack. -/
theorem run_errors {p : Page} (hp : ∀ b, p ≠ .xlate b) (s : State) : ErrorsOnly s (execRun p s) := by
  have hentry : OnlyErrors s (enter s p 3) := .of_events (enter_events s p 3 hp)
  unfold execRun
  refine .ite (.next (.refl s)) ?_
  split
  · cases p with
    | xlate b => exact absurd rfl (hp b)
    | _ => exact .next hentry
  · exact .next (runRefuse_errors ..)

/-- R462, R463: MODE left as it is, CAP and TJ_LIMIT are stored, or refused with CFG_RANGE. -/
theorem pwrStore_errors (s : State) (c t : Option Nat) (off : Nat) : OnlyErrors s (pwrStore s none c t off) := by
  unfold pwrStore
  extract_lets mode cap badMode badCap badTj x y
  have hx : OnlyErrors s x := by
    cases c with
    | none => exact .refl s
    | some v => exact .wr ..
  have hy : OnlyErrors x y := by
    cases t with
    | none => exact .refl x
    | some v => exact .wr ..
  exact .ite (raise_errors s .mgpwr _ rfl) (hx.trans hy)

/-- R30, R31: a meter's window writes meters and steps. -/
theorem meterWindow_errors (i : Fin 75) (ps : BitVec 16) (s : State) : ErrorsOnly s (execMeterWindow i ps s) := by
  unfold execMeterWindow
  extract_lets x y
  have hy : OnlyRegs s y := (OnlyRegs.wr ..).trans (.foldl (fun s p => by split; exacts [.wr .., .refl s]) _ x)
  split
  · exact .next (hy.trans (.wr ..)).errors
  · split
    · exact .next (hy.trans (.wr ..)).errors
    · exact .next hy.errors

/-- Settles O59, command by command: each stores a field, moves a page's state, or raises an error that does not stop the block. -/
theorem settingsWritesTouchRegistersOnly : Obligations.SettingsWritesTouchRegistersOnly := by
  suffices h : ∀ c s, writesSettings c = true → ErrorsOnly s (exec c s) from fun c s t hc => h c s hc t
  intro c s hc
  cases c with
  | run p => exact run_errors (fun b hb => by subst hb; cases hc) s
  | wake p => exact ErrorsOnly.unless_wr
  | clrErr p => exact .next (.ite (.refl s) (.wr ..))
  | capWrite v => exact .next (.ite (.refl s) (pwrStore_errors ..))
  | tjLimitWrite v => exact .next (.ite (.refl s) (pwrStore_errors ..))
  | ceilWrite u v => exact .ite (.next (.refl s)) (.ite (.next (raise_errors _ _ _ rfl)) (.next (.wr ..)))
  | logTailWrite v => exact .ite (.next (raise_errors _ _ _ rfl)) (.next (.wr ..))
  | meterWindow i ps => exact meterWindow_errors i ps s
  | patrolEnWrite i ch en => exact ErrorsOnly.unless_wr
  | waymaskWrite u cls mask => exact ErrorsOnly.if_wr
  | wayPowerUp u way => exact ErrorsOnly.if_wr
  | wayOn u way => exact ErrorsOnly.if_wr
  | _ => cases hc

/-! ### Errors and the error log (R53, R62, R68). -/

theorem setBit_lt {v i n : Nat} (hv : v < 2 ^ n) (hi : i < n) : setBit v i < 2 ^ n := by
  unfold setBit
  split
  · exact hv
  · rename_i h
    obtain ⟨d, rfl⟩ : ∃ d, n = i + (d + 1) := ⟨n - i - 1, by omega⟩
    have hpow : 2 ^ (i + (d + 1)) = 2 ^ i * (2 * 2 ^ d) := by ring
    rw [hpow] at hv ⊢
    have hq : v / 2 ^ i < 2 * 2 ^ d := Nat.div_lt_of_lt_mul hv
    have hpar : ¬ v / 2 ^ i % 2 = 1 := by simpa [bitOf] using h
    refine Nat.mul_comm (2 ^ i) _ ▸ (Nat.div_lt_iff_lt_mul (Nat.two_pow_pos i)).mp ?_
    rw [Nat.add_div_right _ (Nat.two_pow_pos i)]
    omega

/-- PG_ERRINFO is 32 bits wide. -/
theorem errInfo_lt (e : Err) : errInfo e < 2 ^ 32 := by
  have hb : ∀ b : Bool, b2n b ≤ 1 := by decide
  have hva := hb e.va
  have haddr := hb e.addr.isSome
  unfold errInfo
  omega

section
variable {s : State} {p q : Page} {r : Row}

/-- A counter that has not reached its end counts. -/
theorem rd_satAdd_same (hs : Rising s.regs) (hw : r.width ≤ 64) (k : Nat) : rd (satAdd s p r k) p r = min (rd s p r + k) (2 ^ r.width - 1) := by
  have := Nat.two_pow_pos r.width
  rw [satAdd, rd_wr_same s p r _ hs hw]
  exact Nat.mod_eq_of_lt (by omega)

/-- A header field other than PG_EVT is not an event's. -/
theorem rd_setEvt_hdr (hs : Rising s.regs) (b : Nat) (hr : r.off * 8 + r.lsb < 32768) (hn : r.off * 8 + r.lsb ≠ 0x160) :
    rd (setEvt s p b) q r = rd s q r :=
  setEvt_fields s p b hs q r (by simpa using key_ne_off q p hr (r' := hdrEvt) (by decide) hn)

/-- R63: an event sets its bit of PG_EVT. -/
theorem bitOf_setEvt_same (hs : Rising s.regs) {b : Nat} (hb : b < 32) : bitOf (rd (setEvt s p b) p hdrEvt) b = true := by
  rw [rd_congr (setEvt_regs s p b), rd_wr_same s p hdrEvt _ hs (by decide)]
  exact (bitOf_mod _ 32 b hb).trans (bitOf_setBit ..)

/-- R63: an event clears no bit of PG_EVT. -/
theorem bitOf_setEvt_mono (hs : Rising s.regs) {b i : Nat} (hi : i < 32) (h : bitOf (rd s q hdrEvt) i = true) :
    bitOf (rd (setEvt s p b) q hdrEvt) i = true := by
  rw [rd_congr (setEvt_regs s p b)]
  by_cases hq : q = p
  · subst hq
    rw [rd_wr_same s q hdrEvt _ hs (by decide)]
    refine (bitOf_mod _ 32 i hi).trans ?_
    by_cases hb : i = b
    · exact hb ▸ bitOf_setBit ..
    · exact (bitOf_setBit_other _ _ _ hb).trans h
  · rw [rd_wr_other _ _ _ _ _ _ hs (key_ne_page (by decide) (by decide) (by simpa only [home_hdr (r := hdrEvt) (by decide)] using hq))]
    exact h
end

/-! The first-error record (R53, R62). -/

section
variable {s : State} (hs : Rising s.regs) (p : Page) (e : Err)
include hs

/-- R62: an error sets its bit. -/
theorem rd_captureErr_err (he : e.bit < 32) : rd (captureErr s p e) p hdrErr = setBit (rd s p hdrErr) e.bit := by
  unfold captureErr
  extract_lets old x
  have hx : Rising x.regs := wr_rising _ _ _ _ hs
  have hold : old < 2 ^ 32 := rd_lt s p hdrErr
  have hbit : rd x p hdrErr = setBit old e.bit := (rd_wr_same s p hdrErr _ hs (by decide)).trans (Nat.mod_eq_of_lt (setBit_lt hold he))
  split
  · rw [rd_setEvt_hdr (wr_rising _ _ _ _ (wr_rising _ _ _ _ hx)) _ (by decide) (by decide),
      rd_wr_other _ _ _ _ _ _ (wr_rising _ _ _ _ hx) (key_ne_off p p (by decide) (by decide) (by decide)),
      rd_wr_other _ _ _ _ _ _ hx (key_ne_off p p (by decide) (by decide) (by decide))]
    exact hbit
  · rw [rd_wr_other _ _ _ _ _ _ hx (key_ne_off p p (by decide) (by decide) (by decide))]
    exact hbit

/-- R53, R62: the first error since PG_ERR was zero is captured whole and raises its event. -/
theorem captureErr_first (h : rd s p hdrErr = 0) :
    rd (captureErr s p e) p hdrErrInfo = errInfo e ∧ rd (captureErr s p e) p hdrErrAddr = e.addr.getD 0 % 2 ^ 64 ∧
      bitOf (rd (captureErr s p e) p hdrEvt) 0 = true := by
  unfold captureErr
  extract_lets old x
  have hx : Rising x.regs := wr_rising _ _ _ _ hs
  have hinfo := wr_rising x p hdrErrInfo (errInfo e) hx
  have haddr := wr_rising _ p hdrErrAddr (e.addr.getD 0) hinfo
  rw [if_pos h]
  refine ⟨?_, ?_, bitOf_setEvt_same haddr (by decide)⟩
  · rw [rd_setEvt_hdr haddr _ (by decide) (by decide), rd_wr_other _ _ _ _ _ _ hinfo (key_ne_off p p (by decide) (by decide) (by decide)),
      rd_wr_same _ _ _ _ hx (by decide)]
    exact Nat.mod_eq_of_lt (errInfo_lt e)
  · rw [rd_setEvt_hdr haddr _ (by decide) (by decide), rd_wr_same _ _ _ _ hinfo (by decide)]
    rfl

/-- R62: a later error sets MULTI and keeps the record. -/
theorem captureErr_later (h : rd s p hdrErr ≠ 0) :
    rd (captureErr s p e) p hdrErrInfo = setBit (rd s p hdrErrInfo) 24 ∧ rd (captureErr s p e) p hdrErrAddr = rd s p hdrErrAddr := by
  unfold captureErr
  extract_lets old x
  have hx : Rising x.regs := wr_rising _ _ _ _ hs
  have hkept : ∀ {r : Row}, r.off * 8 + r.lsb < 32768 ∧ r.off * 8 + r.lsb ≠ 192 → rd x p r = rd s p r := fun hr =>
    rd_wr_other _ _ _ _ _ _ hs (key_ne_off p p hr.1 (by decide) hr.2)
  have hlt : rd s p hdrErrInfo < 2 ^ 32 := rd_lt s p hdrErrInfo
  rw [if_neg h]
  refine ⟨?_, ?_⟩
  · rw [rd_wr_same _ _ _ _ hx (by decide), hkept (by decide)]
    exact Nat.mod_eq_of_lt (setBit_lt hlt (by decide))
  · rw [rd_wr_other _ _ _ _ _ _ hx (key_ne_off p p (by decide) (by decide) (by decide)), hkept (by decide)]
end

theorem captureErr_log (s : State) (p : Page) (e : Err) : (captureErr s p e).log = s.log := by
  have h := captureErr_events s p e
  rw [h]

/-- A field at another place of its page is not of a first-error record. -/
theorem not_errKeys_off {r : Row} {p q : Page} (h : r.off * 8 + r.lsb < 32768 ∧ r.off * 8 + r.lsb ∉ [192, 224, 256, 352]) : r.key q ∉ errKeys p := by
  obtain ⟨hr, hn⟩ := h
  have hm := key_mod q r hr
  intro hk
  simp only [errKeys, List.mem_cons, List.not_mem_nil, or_false] at hk
  rcases hk with he | he | he | he <;> rw [he, key_mod _ _ (by decide)] at hm <;> exact hn (by rw [← hm]; decide)

/-! The log with room, and full (R68). -/

/-- R68: with room, LOG_HEAD counts the entry, which names its source, code and INFO; of the registers the entry's event alone follows. -/
theorem logWrite_entry {s : State} (hs : Rising s.regs) (hl : Rising s.log) (addr src code sev : Nat) (va : Bool) (info : Nat)
    (hroom : rd s .hub hubLogHead - rd s .hub hubLogTail < 256) :
    FieldsBut [hubLogHead.key .hub, hdrEvt.key .hub] s (logWrite s addr src code sev va info) ∧
    (∀ q i, i < 32 → bitOf (rd s q hdrEvt) i = true → bitOf (rd (logWrite s addr src code sev va info) q hdrEvt) i = true) ∧
    rd (logWrite s addr src code sev va info) .hub hubLogHead = (rd s .hub hubLogHead + 1) % 2 ^ 32 ∧
    (mget none (logWrite s addr src code sev va info).log (rd s .hub hubLogHead % 256)).map (fun x => (x.src.toNat, x.code.toNat, x.info.toNat)) =
      some (src % 2 ^ 32, code % 2 ^ 16, info % 2 ^ 32) := by
  unfold logWrite
  extract_lets h x e
  rw [if_neg (by omega)]
  have hlog : mget none (mset none s.log (h % 256) (some e)) (h % 256) = some e := mget_mset_same none s.log _ _ hl
  generalize mset none s.log (h % 256) (some e) = l at hlog ⊢
  have hnew : Rising { s with log := l }.regs := hs
  have hwr := wr_rising _ .hub hubLogHead (h + 1) hnew
  have hlogKept : FieldsBut [] s { s with log := l } := .of_regs _ rfl
  refine ⟨(hlogKept.trans (.wr _ _ _ _ hnew)).trans (setEvt_fields _ _ _ hwr), fun q i hi hb => ?_, ?_, ?_⟩
  · refine bitOf_setEvt_mono hwr hi ?_
    rw [rd_wr_other _ _ _ _ _ _ hnew (key_ne_off q .hub (by decide) (by decide) (by decide))]
    exact hb
  · rw [rd_setEvt_hdr hwr _ (by decide) (by decide), rd_wr_same _ _ _ _ hnew (by decide)]
    rfl
  · have hevt := setEvt_events (wr { s with log := l } .hub hubLogHead (h + 1)) .hub 16
    rw [hevt]
    show (mget none l _).map _ = _
    rw [hlog]
    simp only [Option.map_some, e, BitVec.toNat_ofNat]

/-- R61, R68: an error whose bit was 0, and that does not stop the block, is captured and logged. -/
theorem raise_new {s : State} {p : Page} {e : Err} (hp : pgState s p ≠ 0) (hstop : e.stop = false) (hbit : bitOf (rd s p hdrErr) e.bit = false) :
    ∃ addr sev va, raise s p e = logWrite (captureErr s p e) addr (pgId p) e.bit sev va (rd (captureErr s p e) p hdrErrInfo) := by
  unfold raise
  simp only [hp, hstop, hbit, if_false, Bool.false_eq_true]
  exact ⟨_, _, _, rfl⟩

/-- R53, R62, R68: what a new error leaves of its page's record and of the log, where the log has room. -/
theorem raise_captured_logged {s : State} {p : Page} {e : Err} (hinv : StateInv s) (hp : pgState s p ≠ 0) (hstop : e.stop = false) (he : e.bit < 32)
    (hbit : bitOf (rd s p hdrErr) e.bit = false) (hroom : rd s .hub hubLogHead - rd s .hub hubLogTail < 256) :
    (∀ r ∈ [hdrErr, hdrErrInfo, hdrErrAddr], rd (raise s p e) p r = rd (captureErr s p e) p r) ∧
    (bitOf (rd (captureErr s p e) p hdrEvt) 0 = true → bitOf (rd (raise s p e) p hdrEvt) 0 = true) ∧
    rd (raise s p e) .hub hubLogHead = (rd s .hub hubLogHead + 1) % 2 ^ 32 ∧
    (mget none (raise s p e).log (rd s .hub hubLogHead % 256)).map (fun x => (x.src.toNat, x.code.toNat, x.info.toNat)) =
      some (pgId p, e.bit, rd (captureErr s p e) p hdrErrInfo) := by
  have hs := hinv.regs_rising
  have hhead : rd (captureErr s p e) .hub hubLogHead = rd s .hub hubLogHead := captureErr_fields s p e hs _ _ (not_errKeys_off (by decide))
  have htail : rd (captureErr s p e) .hub hubLogTail = rd s .hub hubLogTail := captureErr_fields s p e hs _ _ (not_errKeys_off (by decide))
  obtain ⟨addr, sev, va, hraise⟩ := raise_new hp hstop hbit
  obtain ⟨hfields, hevt, hcount, hentry⟩ := logWrite_entry (captureErr_rising s p e hs) (by rw [captureErr_log]; exact hinv.log_rising) addr (pgId p)
    e.bit sev va (rd (captureErr s p e) p hdrErrInfo) (by rw [hhead, htail]; exact hroom)
  have hinfo : rd (captureErr s p e) p hdrErrInfo < 2 ^ 32 := rd_lt _ p hdrErrInfo
  rw [hhead] at hcount hentry
  rw [hraise]
  refine ⟨fun r hr => hfields p r ?_, hevt p 0 (by decide), hcount, ?_⟩
  · simp only [List.mem_cons, List.not_mem_nil, or_false] at hr ⊢
    rcases hr with rfl | rfl | rfl <;>
      exact not_or.mpr ⟨key_ne_off p .hub (by decide) (by decide) (by decide), key_ne_off p .hub (by decide) (by decide) (by decide)⟩
  · rw [hentry, Nat.mod_eq_of_lt (pgId_lt p), Nat.mod_eq_of_lt (show e.bit < 2 ^ 16 by omega), Nat.mod_eq_of_lt hinfo]

/-- R68: a full log keeps its entries; the one discarded is counted, and LOG_FULL stands in HUB PG_ERR. -/
theorem logWrite_full {s : State} (hs : Rising s.regs) (addr src code sev : Nat) (va : Bool) (info : Nat)
    (hfull : 256 ≤ rd s .hub hubLogHead - rd s .hub hubLogTail) :
    (logWrite s addr src code sev va info).log = s.log ∧
    FieldsBut (hubLogOvf.key .hub :: errKeys .hub) s (logWrite s addr src code sev va info) ∧
    bitOf (rd (logWrite s addr src code sev va info) .hub hdrErr) 16 = true ∧
    min (rd s .hub hubLogOvf + 1) (2 ^ 32 - 1) ≤ rd (logWrite s addr src code sev va info) .hub hubLogOvf := by
  unfold logWrite
  extract_lets h x e
  have hx : Rising x.regs := wr_rising _ _ _ _ hs
  have hovf : rd x .hub hubLogOvf = min (rd s .hub hubLogOvf + 1) (2 ^ 32 - 1) := rd_satAdd_same hs (by decide) 1
  have hxf : FieldsBut [hubLogOvf.key .hub] s x := .wr _ _ _ _ hs
  rw [if_pos hfull]
  split
  · rename_i hset
    exact ⟨rfl, hxf.mono (by simp), hset, hovf ▸ Nat.le_refl _⟩
  · have hy := captureErr_rising x .hub { bit := 16 } hx
    have hyf := captureErr_fields x .hub { bit := 16 } hx
    refine ⟨captureErr_log .., ?_, ?_, ?_⟩
    · exact (hxf.trans (hyf.trans (.wr _ _ _ _ hy))).mono (by simp; tauto)
    · rw [satAdd, rd_wr_other _ _ _ _ _ _ hy (by decide)]
      exact captureErr_bit x .hub _ hx (by decide)
    · rw [rd_satAdd_same hy (by decide), hyf .hub hubLogOvf (by decide), hovf]
      show _ ≤ min _ (2 ^ 32 - 1)
      omega

/-- Settles O54: the record and the entry of a new error, and the log when it is full. -/
theorem errorsAreCapturedAndLogged : Obligations.ErrorsAreCapturedAndLogged := by
  refine ⟨fun s p e hinv hp hstop he hbit hroom => ?_, fun s addr src code sev info va hinv hfull => ?_⟩
  · have hs := hinv.regs_rising
    obtain ⟨hkept, hevt, hhead, hentry⟩ := raise_captured_logged hinv hp hstop he hbit hroom
    have herr := (hkept hdrErr (by simp)).trans (rd_captureErr_err hs p e he)
    have hinfo := hkept hdrErrInfo (by simp)
    have haddr := hkept hdrErrAddr (by simp)
    refine ⟨herr ▸ bitOf_setBit .., fun i hi => herr ▸ bitOf_setBit_other _ _ _ hi, fun hz => ?_, fun hnz => ?_, hhead, hinfo ▸ hentry⟩
    · obtain ⟨hi, ha, hb⟩ := captureErr_first hs p e hz
      exact ⟨hinfo.trans hi, haddr.trans ha, hevt hb⟩
    · obtain ⟨hi, ha⟩ := captureErr_later hs p e hnz
      exact ⟨hinfo.trans hi, haddr.trans ha⟩
  · obtain ⟨hlog, hfields, hset, hovf⟩ := logWrite_full hinv.regs_rising addr src code sev va info hfull
    refine ⟨hlog, hfields .hub hubLogHead (by decide), hfields .hub hubLogTail (by decide), hset, ?_, fun hlt => ?_⟩
    · have hle : rd s .hub hubLogOvf < 2 ^ 32 := rd_lt s .hub hubLogOvf
      omega
    · omega

end Sys2Proof.Machine
end

section
/-! The states of the control pages (R51 to R59, R471): RUN, STOP, RESET, sleep and wake. -/

namespace Sys2Proof.Machine

/-! ### Entering a state. -/

theorem StateInv.bays_rising {s : State} (h : StateInv s) : Rising s.bays := by
  obtain ⟨⟨-, -, ⟨hbays, -⟩, -⟩, -⟩ := h
  exact hbays

theorem bayOf_setBay_same {s : State} (hs : Rising s.bays) (b : BayId) (v : Bay) : bayOf (setBay s b v) b = v := mget_mset_same _ _ _ _ hs

theorem modBay_otherBays {s : State} (hs : Rising s.bays) (b : BayId) (f : Bay → Bay) : OtherBays b s (modBay s b f) := fun _ h =>
  mget_mset_other _ _ _ _ _ _ (fun he => h (Fin.ext he)) hs

/-- An invalidation of the page's translations runs. -/
def invalRuns (s : State) : Page → Bool
  | .xlate b => (bayOf s b).inval.isSome
  | _ => false

theorem invalRuns_congr {s t : State} (h : t.bays = s.bays) (p : Page) : invalRuns t p = invalRuns s p := by
  cases p <;> simp only [invalRuns, bayOf, h]

/-- A page that RUN starts is no cache's. -/
theorem cacheOfPage_runctl {p : Page} (h : p.runctl = true) : cacheOfPage p = none := by
  cases p with
  | l3 d | bcache b | sysc t => cases h
  | _ => rfl

/-- R51, R256: out of a transition, BUSY of a page with RUN tells whether an invalidation runs. -/
theorem busyAt_idle {s : State} {p : Page} {st : Nat} (hs : Rising s.regs) (hb : ∀ b, p = .xlate b → Rising s.bays) (hp : p.runctl = true)
    (h3 : st ≠ 3) (h5 : st ≠ 5) :
    rd (busyAt s p st) p hdrBusy = b2n (invalRuns (busyAt s p st) p) := by
  have hrd : ∀ (t : State) (q : Page) (v : Nat), Rising t.regs → rd (wr t q hdrBusy v) q hdrBusy = v % 2 := fun t q v ht =>
    rd_wr_same t q _ _ ht (by decide)
  have hcache := cacheOfPage_runctl hp
  cases p with
  | xlate b =>
    show rd (invalNext s b st) _ _ = b2n (bayOf (invalNext s b st) b).inval.isSome
    unfold invalNext
    extract_lets y q
    split
    · rename_i h
      have hruns : y.inval.isSome = true := by tauto
      rw [hrd _ _ _ hs]
      exact (congrArg b2n hruns).symm
    · rename_i h
      have hnone : y.inval.isSome = false := by simpa [h3, h5] using h
      split
      · rw [hrd _ _ _ hs]
        exact (congrArg b2n hnone).symm
      · rename_i v rest _
        rw [hrd _ _ _ (show Rising (setBay s b _).regs from hs)]
        exact (congrArg (fun y : Bay => b2n y.inval.isSome)
          (bayOf_setBay_same (hb b rfl) b { y with inval := some { v with va := BitVec.ofNat 64 (rd s q xlInvalVa) }, invalWait := rest })).symm
  | _ =>
    rw [busyAt_wr _ _ _ (by simp), hrd _ _ _ hs, hcache]
    simp [h3, h5, invalRuns, b2n]

theorem setEvt_bays (s : State) (p : Page) (b : Nat) : (setEvt s p b).bays = s.bays := by rw [setEvt_events]

theorem enter_bays (s : State) (p : Page) (st : Nat) : (enter s p st).bays = (busyAt (wr s p hdrState st) p st).bays := by
  unfold enter
  extract_lets old x
  split
  · exact setEvt_bays ..
  · rfl

section
variable {s : State} {p : Page} {st : Nat}

theorem enter_idle (hs : Rising s.regs) (hb : ∀ b, p = .xlate b → Rising s.bays) (hp : p.runctl = true) (h3 : st ≠ 3) (h5 : st ≠ 5) :
    rd (enter s p st) p hdrBusy = b2n (invalRuns (enter s p st) p) := by
  rw [(enter_rd s p st hs).2, invalRuns_congr (enter_bays s p st) p]
  exact busyAt_idle (wr_rising _ _ _ _ hs) hb hp h3 h5

/-- A transition makes its page busy. -/
theorem enter_transition (hs : Rising s.regs) (h : st = 3 ∨ st = 5) : rd (enter s p st) p hdrBusy = 1 :=
  (enter_rd s p st hs).2.trans (busyAt_busy _ p st (wr_rising _ _ _ _ hs) h)

/-- A transition starts no invalidation. -/
theorem enter_transition_bays (h : st = 3 ∨ st = 5) : (enter s p st).bays = s.bays := by
  rw [enter_bays]
  cases p with
  | xlate b =>
    show (invalNext _ b st).bays = _
    unfold invalNext
    extract_lets y q
    rw [if_pos (by tauto)]
    rfl
  | _ =>
    rw [busyAt_wr _ _ _ (by simp)]
    rfl

/-- STARTING raises no event. -/
theorem enter_starting_regs (hp : ∀ b, p ≠ .xlate b) : OnlyRegs s (enter s p 3) := by
  unfold enter
  extract_lets old x
  rw [if_neg (by simp)]
  show OnlyRegs s (busyAt _ p 3)
  rw [busyAt_wr _ _ _ hp]
  exact .wr ..
end

/-! What a page does around its commands leaves its state and BUSY. -/

/-- The keys of a page's STATE, BUSY and epoch. -/
def stateKey (p : Page) (k : Nat) : Prop := k = hdrState.key p ∨ k = hdrBusy.key p ∨ k = hdrEpoch.key p

theorem not_stateKey_off {p q : Page} {r : Row} (h : r.off * 8 + r.lsb < 32768 ∧ r.off * 8 + r.lsb ∉ [96, 160, 168]) : ¬ stateKey p (r.key q) := by
  obtain ⟨hr, hn⟩ := h
  have hm := key_mod q r hr
  rintro (he | he | he) <;> rw [he, key_mod _ _ (by decide)] at hm <;> exact hn (by rw [← hm]; decide)

/-- The page reads the same STATE and BUSY. -/
structure PageSame (p : Page) (s t : State) : Prop where
  state : pgState t p = pgState s p
  busy : rd t p hdrBusy = rd s p hdrBusy
  inval : invalRuns t p = invalRuns s p

theorem PageSame.refl (p : Page) (s : State) : PageSame p s s := ⟨rfl, rfl, rfl⟩

/-- Neither STATE, BUSY and the epoch of the page nor the module's hold have changed. -/
structure PageKept (p : Page) (s t : State) : Prop where
  regs : RegsKept (stateKey p) s t
  mg : t.mg = s.mg
  power : t.power = s.power
  inval : invalRuns t p = invalRuns s p

section
variable {p q : Page} {s t u : State} {r : Row}

theorem PageKept.of_regs (h : t.regs = s.regs := by rfl) (hm : t.mg = s.mg := by rfl) (hw : t.power = s.power := by rfl)
    (hb : t.bays = s.bays := by rfl) : PageKept p s t :=
  ⟨.of_regs h, hm, hw, invalRuns_congr hb p⟩

theorem PageKept.refl : PageKept p s s := .of_regs

theorem PageKept.trans (h1 : PageKept p s t) (h2 : PageKept p t u) : PageKept p s u :=
  ⟨h1.regs.trans h2.regs, h2.mg.trans h1.mg, h2.power.trans h1.power, h2.inval.trans h1.inval⟩

theorem PageKept.wr (h : PageKept p s t) {v : Nat} (hr : r.off * 8 + r.lsb < 32768 ∧ r.off * 8 + r.lsb ∉ [96, 160, 168] := by decide) :
    PageKept p s (wr t q r v) :=
  ⟨h.regs.wr (not_stateKey_off hr), h.mg, h.power, h.inval⟩

theorem PageKept.setEvt (h : PageKept p s t) {b : Nat} : PageKept p s (setEvt t q b) := by
  have he := setEvt_events t q b
  exact h.trans ⟨(RegsKept.refl t).setEvt (not_stateKey_off (by decide)), by rw [he], by rw [he], invalRuns_congr (by rw [he]) p⟩

theorem PageKept.foldl {α : Type} {f : State → α → State} {l : List α} (h : PageKept p s t) (hf : ∀ s, ∀ a ∈ l, PageKept p s (f s a)) :
    PageKept p s (l.foldl f t) :=
  List.foldlRecOn l f h fun _ hx a ha => hx.trans (hf _ a ha)

theorem PageKept.same (h : PageKept p s t) (hs : Rising s.regs) (hp : ∀ b a, p ≠ .arr b a) : PageSame p s t where
  state := by
    have hheld : held t = held s := held_congr h.mg h.power
    have hstate : rd t p hdrState = rd s p hdrState := h.regs.rd_eq hs (.inl rfl)
    cases p with
    | arr b a => exact absurd rfl (hp b a)
    | _ => simp only [pgState, hheld, hstate]
  busy := h.regs.rd_eq hs (.inr (.inl rfl))
  inval := h.inval
end

theorem PageKept.epoch {p : Page} {s t : State} (h : PageKept p s t) (hs : Rising s.regs) : rd t p hdrEpoch = rd s p hdrEpoch :=
  h.regs.rd_eq hs (.inr (.inr rfl))

/-! The fabric ports and the host port (R364, R366, R382, R450). -/

section
variable (p : Page) (s : State)

theorem portHb_kept (i : Fin 32) : PageKept p s (portHb s i) := .wr .refl

theorem portsUp_kept (i : Fin 32) (up : Bool) : PageKept p s (portsUp s i up) := PageKept.refl.foldl fun _ _ _ => .wr .refl

theorem setLstate_kept (i : Fin 32) (st : Nat) : PageKept p s (setLstate s i st) :=
  (PageKept.trans (.wr .refl) (portsUp_kept p _ i _)).trans (portHb_kept p _ i)

theorem portIdentity_kept (i : Fin 32) (keep : Bool) : PageKept p s (portIdentity s i keep) := by
  unfold portIdentity
  extract_lets u v x y z
  have hx : PageKept p s x := .of_regs
  have hy : PageKept p s y := hx.wr.wr.wr
  have hz : PageKept p s z := by
    simp only [z]
    split
    · exact hy
    · exact hy.wr.setEvt
  exact hz.trans (setLstate_kept p _ i 1)

theorem portDown_kept (i : Fin 32) : PageKept p s (portDown s i) :=
  PageKept.setEvt (.trans (.wr (.wr .refl)) (setLstate_kept p _ i 0))

theorem backInvalidateAll_kept : PageKept p s (backInvalidateAll s) :=
  PageKept.refl.foldl fun _ _ _ => .of_regs (by simp) (by simp) (by simp) (by simp)

theorem showHostLink_kept (up width rate : Nat) : PageKept p s (showHostLink s up width rate) := by
  unfold showHostLink
  split
  · exact .refl
  · exact .setEvt (.wr (.wr (.wr .refl)))

theorem setHostLink_kept (l : Option (BitVec 4 × BitVec 2)) : PageKept p s (setHostLink s l) := by
  have hset : PageKept p s (setHost s (fun h => { h with link := l })) := .of_regs
  unfold setHostLink
  cases l <;> exact hset.trans (showHostLink_kept ..)

theorem hqRestart_kept : PageKept p s (hqRestart s) := PageKept.refl.foldl fun s q _ => by
  have hstate : (hostHqQstatState q.val).off * 8 + (hostHqQstatState q.val).lsb < 32768 ∧
      (hostHqQstatState q.val).off * 8 + (hostHqQstatState q.val).lsb ∉ [96, 160, 168] := by
    simp only [hostHqQstatState, List.mem_cons, List.not_mem_nil, or_false]
    omega
  have hstatus : (hostHqQstatStatus q.val).off * 8 + (hostHqQstatStatus q.val).lsb < 32768 ∧
      (hostHqQstatStatus q.val).off * 8 + (hostHqQstatStatus q.val).lsb ∉ [96, 160, 168] := by
    simp only [hostHqQstatStatus, List.mem_cons, List.not_mem_nil, or_false]
    omega
  split
  · refine .wr (.wr ?_ hstate) hstatus
    split
    · exact .of_regs
    · exact .refl
  · exact .refl

theorem docAbandon_kept (b : BayId) : PageKept (.doc b) s (docAbandon s b) := by
  have hdoc : PageKept (.doc b) s (modBay s b (fun y => { y with doc := { y.doc with stall := .none } })) := ⟨.of_regs, rfl, rfl, rfl⟩
  exact hdoc.wr.wr.wr
end

/-! ### RUN and STOP.

The way into RUNNING, STOPPING and STOPPED: the state, then what the block does. -/

section
variable (s : State)

theorem startEnd_same {s : State} (hs : Rising s.regs) (p : Page) : PageSame p s (startEnd s p) := by
  cases p with
  | doc b => exact PageKept.same (.wr (.wr (.wr .refl))) hs (by simp)
  | fport i => exact (portIdentity_kept _ s i false).same hs (by simp)
  | host => exact ((setHostLink_kept _ s _).trans (hqRestart_kept ..)).same hs (by simp)
  | _ => exact .refl _ s

theorem stopBegin_same (hs : Rising s.regs) (p : Page) : PageSame p (enter s p 5) (stopBegin s p) := by
  have hx := enter_rising s p 5 hs
  cases p with
  | doc b => exact (docAbandon_kept _ b).same hx (by simp)
  | fport i => exact (portHb_kept _ _ i).same hx (by simp)
  | host => exact (backInvalidateAll_kept ..).same hx (by simp)
  | _ => exact .refl ..

theorem stopEnd_kept (p : Page) : PageKept p s (stopEnd s p) := by
  cases p with
  | doc b => exact (docAbandon_kept s b).wr
  | fport i =>
    show PageKept _ s (if lstate s i = 0 then s else portDown s i)
    split
    · exact .refl
    · exact portDown_kept ..
  | host => exact backInvalidateAll_kept ..
  | _ => exact .refl

theorem stopEnd_same {s : State} (hs : Rising s.regs) (p : Page) : PageSame p s (stopEnd s p) := by
  cases p with
  | arr b a => exact .refl _ s
  | _ => exact (stopEnd_kept s _).same hs (by simp)

/-- R117: only an array in SPARE_PENDING does not enter STOPPED at once. -/
theorem enterStopped_eq {s : State} {p : Page} (h : ∀ b a, p = .arr b a → rd s p arrCheckMode ≠ 2) : enterStopped s p = enter s p 2 := by
  cases p with
  | arr b a => exact if_neg (h b a rfl)
  | _ => rfl
end

section
variable {s : State} {p : Page}

theorem cleaning_idle (hb : rd s p hdrBusy = 0) : cleaning s p = false := by
  unfold cleaning
  rw [hb]
  exact Bool.and_false _

/-- R252: RUN of XLATE empties the TLB. -/
def tlbEmptied (s : State) (p : Page) : State :=
  match p with
  | .xlate b => modBay s b (fun y => { y with tlb := [] })
  | _ => s

/-- R54, R56: RUN of a STOPPED page with sound settings. -/
theorem exec_run_sound (hr : p.runctl = true) (hst : pgState s p = 2) (hb : rd s p hdrBusy = 0) (hd : dieHeld s (pageDie p) = false)
    (hc : runCheck s p = []) :
    exec (.run p) s = .next (enter (tlbEmptied s p) p 3) := by
  show execRun p s = _
  have hclean := cleaning_idle hb
  unfold execRun
  rw [if_neg (by simp only [hr, hst, hclean, hd, ne_eq, not_true_eq_false, Bool.not_true, Bool.false_eq_true, or_self, not_false_eq_true]), hc]
  rfl

/-- R54: a page started, from a register store in canonical form. -/
theorem run_starts (hinv : StateInv s) (hr : p.runctl = true) (hst : pgState s p = 2) (hb : rd s p hdrBusy = 0)
    (hd : dieHeld s (pageDie p) = false) (hc : runCheck s p = []) :
    ∃ t, exec (.run p) s = .next t ∧ pgState t p = 3 ∧ rd t p hdrBusy = 1 ∧ FieldsBut [hdrState.key p, hdrBusy.key p, hdrEvt.key p] s t ∧
      ((∀ b, p ≠ .xlate b) → OnlyRegs s t) ∧ (∀ b, p = .xlate b → (bayOf t b).tlb = [] ∧ OtherBays b s t) := by
  have hs := hinv.regs_rising
  refine ⟨_, exec_run_sound hr hst hb hd hc, ?_⟩
  have hstate : ∀ {x : State}, Rising x.regs → pgState x p = 2 → pgState (enter x p 3) p = 3 := fun hx h =>
    enter_pgState _ p 3 hx (by rw [h]; decide)
  cases p with
  | xlate b =>
    generalize hx : tlbEmptied s (.xlate b) = x
    have hregs : x.regs = s.regs := by rw [← hx]; rfl
    have hbay : ∀ b', bayOf (enter x (.xlate b) 3) b' = bayOf (tlbEmptied s (.xlate b)) b' := fun b' => by
      rw [hx, bayOf, enter_transition_bays (.inl rfl)]; rfl
    have hxs : Rising x.regs := hregs ▸ hs
    have hxst : pgState x (.xlate b) = 2 := by rw [← hx]; exact hst
    refine ⟨hstate hxs hxst, enter_transition hxs (.inl rfl), (FieldsBut.of_regs [] hregs).trans (enter_fields _ _ 3 hxs), fun h => absurd rfl (h b), ?_⟩
    rintro _ ⟨⟩
    refine ⟨?_, fun b' h => (hbay b').trans (modBay_otherBays hinv.bays_rising b _ b' h)⟩
    rw [hbay]
    exact congrArg Bay.tlb (bayOf_setBay_same hinv.bays_rising b _)
  | _ => exact ⟨hstate hs hst, enter_transition hs (.inl rfl), enter_fields _ _ 3 hs, fun h => enter_starting_regs h, fun _ h => by cases h⟩

/-- R54: STARTING_DONE. -/
theorem startingDone_runs (hinv : StateInv s) (hr : p.runctl = true) (hst : pgState s p = 3) :
    ∃ t, exec (.startingDone p) s = .next t ∧ pgState t p = 4 ∧ rd t p hdrBusy = b2n (invalRuns t p) := by
  have hs := hinv.regs_rising
  obtain ⟨hstate, hbusy, hinval⟩ := startEnd_same (enter_rising s p 4 hs) p
  refine ⟨_, congrArg Host.Outcome.next (if_pos hst), ?_, ?_⟩
  · rw [hstate, enter_pgState s p 4 hs (by rw [hst]; decide)]
  · rw [hbusy, hinval, enter_idle hs (fun _ _ => hinv.bays_rising) hr (by decide) (by decide)]

/-- R54: STOP of a page in STARTING. -/
theorem exec_stop_starting (hr : p.runctl = true) (hst : pgState s p = 3) : exec (.stop p) s = .next (enterStopped (stopEnd s p) p) := by
  show Host.Outcome.next (stopCmd s p) = _
  unfold stopCmd
  rw [if_neg (by simp [hr])]
  exact congrArg Host.Outcome.next (if_pos hst)

/-- R54, R57: STOP of a RUNNING page. -/
theorem exec_stop_running (hr : p.runctl = true) (hst : pgState s p = 4) : exec (.stop p) s = .next (stopBegin s p) := by
  show Host.Outcome.next (stopCmd s p) = _
  unfold stopCmd
  rw [if_neg (by simp [hr])]
  simp only [hst]
  rfl

theorem stopBegin_stopping (hs : Rising s.regs) (hst : pgState s p = 4) : pgState (stopBegin s p) p = 5 ∧ rd (stopBegin s p) p hdrBusy = 1 := by
  obtain ⟨hstate, hbusy, -⟩ := stopBegin_same s hs p
  exact ⟨hstate.trans (enter_pgState s p 5 hs (by rw [hst]; decide)), hbusy.trans (enter_transition hs (.inr rfl))⟩

/-- The pages of which STOP in STARTING changes no more than the state. -/
def stopsAlone : Page → Bool
  | .doc _ | .xlate _ | .fport _ | .host => false
  | _ => true

theorem stop_starting_stops (hinv : StateInv s) (hr : p.runctl = true) (hst : pgState s p = 3)
    (harr : ∀ b a, p = .arr b a → rd s p arrCheckMode ≠ 2) :
    ∃ t, exec (.stop p) s = .next t ∧ pgState t p = 2 ∧ rd t p hdrBusy = b2n (invalRuns t p) ∧
      (stopsAlone p = true → OnlyEvents s t ∧ FieldsBut [hdrState.key p, hdrBusy.key p, hdrEvt.key p] s t) := by
  have hs := hinv.regs_rising
  have hend : Rising (stopEnd s p).regs ∧ pgState (stopEnd s p) p ≠ 0 ∧ (∀ b, p = .xlate b → Rising (stopEnd s p).bays) ∧
      ∀ b a, p = .arr b a → rd (stopEnd s p) p arrCheckMode ≠ 2 := by
    refine ⟨(stopEnd_kept s p).regs.rising hs, ?_, ?_, ?_⟩
    · rw [(stopEnd_same hs p).state, hst]
      decide
    · rintro b rfl
      exact hinv.bays_rising
    · rintro b a rfl
      exact harr b a rfl
  obtain ⟨hx, h0, hb, hmode⟩ := hend
  refine ⟨_, exec_stop_starting hr hst, ?_⟩
  rw [enterStopped_eq hmode]
  refine ⟨enter_pgState _ p 2 hx h0, enter_idle hx hb hr (by decide) (by decide), fun hp => ?_⟩
  cases p with
  | doc b | xlate b | fport i | host => cases hp
  | _ => exact ⟨enter_events _ _ 2 (by simp), enter_fields _ _ 2 hs⟩

end

/-! ### RESET, sleep and wake (R12, R54, R59, R471). -/

/-- RESET writes a field of a page: it is not retained, not PG_STATE, and the page holds it. -/
def resets (p : Page) (r : Row) : Prop := ¬ (r.ret = true ∨ r.off = 0x014 ∨ rowFixed p r = true ∨ r.home p ≠ p)

section
variable {s : State} {p : Page} {r : Row}

theorem resetRows_cons_resets {l : List Row} (h : resets p r) : resetRows s p (r :: l) = resetRows (wr s p r (r.rst p)) p l :=
  congrArg (resetRows · p l) (if_neg h)

theorem resetRows_cons_kept {l : List Row} (h : ¬ resets p r) : resetRows s p (r :: l) = resetRows s p l :=
  congrArg (resetRows · p l) (if_pos (not_not.mp h))

theorem resetRows_kept {K : Nat → Prop} {l : List Row} (h : ∀ x ∈ l, resets p x → ¬ K (x.key p)) (s : State) : RegsKept K s (resetRows s p l) :=
  (RegsKept.refl s).foldl fun s x hx => by
    split
    · exact .refl s
    · rename_i hres
      exact .wr (.refl s) (h x hx hres)

theorem resetRows_only (s : State) (p : Page) (l : List Row) : OnlyRegs s (resetRows s p l) := .foldl (fun s r => by split; exacts [.refl s, .wr ..]) l s

/-- R12: a field that RESET writes reads its reset value. -/
theorem rd_resetRows (hs : Rising s.regs) {l : List Row} (hl : l.Pairwise (fun x y => x.key p ≠ y.key p)) (hr : r ∈ l) (h : resets p r)
    (hw : r.width ≤ 64) : rd (resetRows s p l) p r = r.rst p % 2 ^ r.width := by
  induction l generalizing s with
  | nil => cases hr
  | cons x l ih =>
    obtain ⟨hx, hl⟩ := List.pairwise_cons.mp hl
    rcases List.mem_cons.mp hr with rfl | hr
    · have hrest : RegsKept (· = r.key p) (wr s p r (r.rst p)) (resetRows (wr s p r (r.rst p)) p l) :=
        resetRows_kept (K := (· = r.key p)) (fun y hy _ => fun he => hx y hy he.symm) _
      rw [resetRows_cons_resets h, hrest.rd_eq (wr_rising _ _ _ _ hs) rfl, rd_wr_same _ _ _ _ hs hw]
    · by_cases hres : resets p x
      · rw [resetRows_cons_resets hres]
        exact ih (wr_rising _ _ _ _ hs) hl hr
      · rw [resetRows_cons_kept hres]
        exact ih hs hl hr

/-- The rows of a page that holds all its fields lie at distinct keys where they lie at distinct places. -/
theorem rows_pairwise_keys {l : List Row} (hp : ∀ r, r ∈ l → r.home p = p) (hl : (l.map fun r => r.off * 8 + r.lsb).Nodup) :
    l.Pairwise (fun x y => x.key p ≠ y.key p) := by
  refine (List.pairwise_map.mp hl).imp_of_mem fun {x y} hx hy hne => ?_
  unfold Row.key
  rw [hp x hx, hp y hy]
  omega

/-- R59: PG_EPOCH counts. -/
theorem rd_epochInc (hs : Rising s.regs) : rd (epochInc s p) p hdrEpoch = (rd s p hdrEpoch + 1) % 2 ^ 32 := by
  have hw := wr_rising s p hdrEpoch (rd s p hdrEpoch + 1) hs
  rw [epochInc, rd_setEvt_hdr (s := wrapAdd s p hdrEpoch 1) hw _ (by decide) (by decide), wrapAdd, rd_wr_same _ _ _ _ hs (by decide)]
  rfl

theorem epochInc_fields (hs : Rising s.regs) : FieldsBut [hdrEpoch.key p, hdrEvt.key p] s (epochInc s p) :=
  (FieldsBut.wr s p hdrEpoch _ hs).trans (setEvt_fields _ p 2 (wr_rising _ _ _ _ hs))

theorem epochInc_events (s : State) (p : Page) : OnlyEvents s (epochInc s p) := (OnlyEvents.wr ..).trans (setEvt_events ..)

/-- A count of the epoch leaves every other header field but PG_EVT. -/
theorem rd_epochInc_hdr (hs : Rising s.regs) (hr : r.off * 8 + r.lsb < 32768 ∧ r.off * 8 + r.lsb ∉ [0x60, 0x160]) : rd (epochInc s p) p r = rd s p r :=
  epochInc_fields hs p r (by
    obtain ⟨hlt, hn⟩ := hr
    simp only [List.mem_cons, List.not_mem_nil, or_false, not_or] at hn ⊢
    exact ⟨key_ne_off p p hlt (by decide) hn.1, key_ne_off p p hlt (by decide) hn.2⟩)

/-- A count of the epoch leaves the page's state. -/
theorem pgState_epochInc (hs : Rising s.regs) : pgState (epochInc s p) p = pgState s p := by
  have he := epochInc_events s p
  refine pgState_congr (by rw [he]) (by rw [he]) (by rw [he]) (rd_epochInc_hdr hs (by decide)) fun b a _ => epochInc_fields hs _ _ ?_
  simp only [List.mem_cons, List.not_mem_nil, or_false, not_or]
  exact ⟨key_ne_off _ _ (by decide) (by decide) (by decide), key_ne_off _ _ (by decide) (by decide) (by decide)⟩
end

/-- Entering a state writes STATE, BUSY and PG_EVT. -/
theorem rd_enter_off {s : State} {p q : Page} {r : Row} {st : Nat} (hs : Rising s.regs)
    (hr : r.off * 8 + r.lsb < 32768 ∧ r.off * 8 + r.lsb ∉ [160, 168, 352]) : rd (enter s p st) q r = rd s q r :=
  enter_fields s p st hs q r (by
    obtain ⟨hlt, hn⟩ := hr
    simp only [List.mem_cons, List.not_mem_nil, or_false, not_or] at hn ⊢
    exact ⟨key_ne_off q p hlt (by decide) hn.1, key_ne_off q p hlt (by decide) hn.2.1, key_ne_off q p hlt (by decide) hn.2.2⟩)

/-! A mover's page. -/

section
variable (s : State) (b : BayId) (m : Fin 4)

theorem opsDrop_bays (l : List Nat) : opsDrop s b l = { s with bays := (opsDrop s b l).bays } := by
  unfold opsDrop
  exact List.foldlRecOn (motive := fun t : State => t = { s with bays := t.bays }) l _ rfl fun t ht i _ => by rw [ht]; rfl

theorem movDiscard_kept : PageKept (.mov b m) s (movDiscard s b m) := by
  have hmovs : PageKept (.mov b m) s (modBay s b (fun y => { y with movs := mset [] y.movs m.val [] })) := ⟨.of_regs, rfl, rfl, rfl⟩
  have hset : PageKept (.mov b m) s (setMovs s b m []) := hmovs.wr
  refine hset.trans ?_
  unfold movDiscard
  rw [opsDrop_bays]
  exact ⟨.of_regs, rfl, rfl, rfl⟩

theorem engRows_places : ((hdrRows ++ engRows).map fun r => r.off * 8 + r.lsb).Nodup := by decide

/-- RESET writes none of STATE, BUSY and the epoch. -/
theorem engRows_not_stateKey : ∀ x ∈ hdrRows ++ engRows, resets (.mov b m) x → ¬ stateKey (.mov b m) (x.key (.mov b m)) := by
  have hall : ∀ x ∈ hdrRows ++ engRows, x.ret = true ∨ x.off = 0x14 ∨ (x.off * 8 + x.lsb < 32768 ∧ x.off * 8 + x.lsb ∉ [96, 160, 168]) := by decide
  intro x hx hres
  unfold resets at hres
  refine not_stateKey_off ?_
  have := hall x hx
  tauto

theorem pageReset_mov : pageReset s (.mov b m) = resetRows (movDiscard s b m) (.mov b m) (hdrRows ++ engRows) := rfl

theorem movReset_kept : PageKept (.mov b m) s (pageReset s (.mov b m)) := by
  rw [pageReset_mov]
  have hregs := resetRows_only (movDiscard s b m) (.mov b m) (hdrRows ++ engRows)
  exact (movDiscard_kept s b m).trans ⟨resetRows_kept (engRows_not_stateKey b m) _, by rw [hregs], by rw [hregs], by rw [hregs]; rfl⟩

/-- R12: RESET of a mover clears its errors and its event enables. -/
theorem movReset_cleared {s : State} (hs : Rising s.regs) :
    rd (pageReset s (.mov b m)) (.mov b m) hdrErr = 0 ∧ rd (pageReset s (.mov b m)) (.mov b m) hdrEvtEn = 0 := by
  have hd := (movDiscard_kept s b m).regs.rising hs
  have hpair := rows_pairwise_keys (p := .mov b m) (fun _ _ => rfl) engRows_places
  have hres : resets (.mov b m) hdrErr ∧ resets (.mov b m) hdrEvtEn := by
    simp [resets, hdrErr, hdrEvtEn, rowFixed, Row.home]
  rw [pageReset_mov]
  exact ⟨rd_resetRows hd hpair (by simp [hdrRows]) hres.1 (by decide), rd_resetRows hd hpair (by simp [hdrRows]) hres.2 (by decide)⟩

/-- R59: RESET of a STOPPED mover. -/
theorem reset_stopped_mov {s : State} (hs : Rising s.regs) (hst : pgState s (.mov b m) = 2) (hb : rd s (.mov b m) hdrBusy = 0) :
    ∃ t, exec (.reset (.mov b m)) s = .next t ∧ pgState t (.mov b m) = 2 ∧
      rd t (.mov b m) hdrEpoch = (rd s (.mov b m) hdrEpoch + 1) % 2 ^ 32 ∧ rd t (.mov b m) hdrErr = 0 ∧ rd t (.mov b m) hdrEvtEn = 0 := by
  have hexec : exec (.reset (.mov b m)) s = .next (epochInc (pageReset s (.mov b m)) (.mov b m)) := by
    show execReset (.mov b m) s = _
    have hclean := cleaning_idle hb
    unfold execReset
    simp only [hclean, hst]
    rfl
  have hk := movReset_kept s b m
  have hr := hk.regs.rising hs
  obtain ⟨herr, hen⟩ := movReset_cleared b m hs
  refine ⟨_, hexec, ?_, ?_, ?_, ?_⟩
  · rw [pgState_epochInc hr, (hk.same hs (by simp)).state, hst]
  · rw [rd_epochInc hr, hk.epoch hs]
  · rw [rd_epochInc_hdr hr (by decide), herr]
  · rw [rd_epochInc_hdr hr (by decide), hen]

/-- R54, R57: STOPPING ends once the mover has drained. -/
theorem stoppingDone_mov {s : State} (hinv : StateInv s) (hst : pgState s (.mov b m) = 5) (hl : movList s b m = [])
    (hh : ¬ (Page.mov b m).slot ∈ s.heldReset) :
    ∃ t, exec (.stoppingDone (.mov b m)) s = .next t ∧ pgState t (.mov b m) = 2 ∧ rd t (.mov b m) hdrBusy = 0 := by
  have hexec : exec (.stoppingDone (.mov b m)) s = .next (enter s (.mov b m) 2) := by
    show execStoppingDone (.mov b m) s = _
    have hdrained : drained s (.mov b m) = true := congrArg List.isEmpty hl
    unfold execStoppingDone
    rw [if_neg (by simp [hst, hdrained])]
    dsimp only
    rw [if_neg Bool.false_ne_true, if_neg (by simpa using hh)]
    rfl
  refine ⟨_, hexec, enter_pgState s _ 2 hinv.regs_rising (by rw [hst]; decide), ?_⟩
  exact enter_idle hinv.regs_rising (by simp) rfl (by decide) (by decide)

/-- R54, R471: SLEEP of a STOPPED mover. -/
theorem sleep_mov {s : State} (hs : Rising s.regs) (hst : pgState s (.mov b m) = 2) (hb : rd s (.mov b m) hdrBusy = 0) :
    ∃ t, exec (.sleep (.mov b m)) s = .next t ∧ pgState t (.mov b m) = 1 ∧ rd t (.mov b m) hdrBusy = 0 := by
  have hexec : exec (.sleep (.mov b m)) s = .next (powerOff s (.mov b m)) := by
    show execSleep (.mov b m) s = _
    have hclean := cleaning_idle hb
    unfold execSleep
    rw [if_neg (by simp [hst, hclean, Page.sleepctl, sleepOk])]
  have hk : PageKept (.mov b m) s (dropHeld (sleepLose s (.mov b m)) (.mov b m)) := (movDiscard_kept s b m).trans .of_regs
  have hr := hk.regs.rising hs
  exact ⟨_, hexec, enter_pgState _ _ 1 hr (by rw [(hk.same hs (by simp)).state, hst]; decide),
    enter_idle hr (by simp) rfl (by decide) (by decide)⟩

/-- R54, R59: at the end of its wake a mover is STOPPED, its epoch counted. -/
theorem wakeDone_mov {s : State} (hs : Rising s.regs) (hst : pgState s (.mov b m) = 1) (hb : rd s (.mov b m) hdrBusy = 1) :
    ∃ t, exec (.wakeDone (.mov b m)) s = .next t ∧ pgState t (.mov b m) = 2 ∧ rd t (.mov b m) hdrBusy = 0 ∧
      rd t (.mov b m) hdrEpoch = (rd s (.mov b m) hdrEpoch + 1) % 2 ^ 32 := by
  have hexec : exec (.wakeDone (.mov b m)) s = .next (toReset s (.mov b m)) := by
    show execWakeDone (.mov b m) s = _
    unfold execWakeDone
    rw [if_neg (by simp [hst, hb])]
  have hdrop : PageKept (.mov b m) s (dropHeld s (.mov b m)) := .of_regs
  have hk := hdrop.trans (movReset_kept _ b m)
  have hr := hk.regs.rising hs
  have he := enter_rising _ (.mov b m) 2 hr
  have hstate := enter_pgState _ (.mov b m) 2 hr (by rw [(hk.same hs (by simp)).state, hst]; decide)
  have hbusy := enter_idle (p := .mov b m) (st := 2) hr (fun _ h => nomatch h) rfl (by decide) (by decide)
  have hepoch : rd (enter (pageReset (dropHeld s (.mov b m)) (.mov b m)) (.mov b m) 2) (.mov b m) hdrEpoch = rd s (.mov b m) hdrEpoch :=
    (rd_enter_off hr (by decide)).trans (hk.epoch hs)
  refine ⟨_, hexec, ?_, ?_, ?_⟩
  · exact (pgState_epochInc he).trans hstate
  · exact (rd_epochInc_hdr he (by decide)).trans hbusy
  · exact (rd_epochInc he).trans (by rw [hepoch])
end

/-! A core's page, and the pages that clean before sleep (R20, R277, R471). -/

/-- The page of a cluster that sleeps with its last core leaves a core's page. -/
theorem clusOff_kept (n : CoreId) (s : State) : PageKept (.core n) s (clusOff s n) := by
  have hne : ∀ {r r' : Row}, r.off < 0x100 ∧ r.off * 8 + r.lsb < 32768 → r'.off < 0x100 ∧ r'.off * 8 + r'.lsb < 32768 →
      r.key (coreClus n) ≠ r'.key (.core n) := fun hr hr' =>
    key_ne_page hr.2 hr'.2 (by rw [home_hdr hr.1, home_hdr hr'.1]; simp [coreClus])
  have hkeys : ∀ {r : Row}, r.off < 0x100 ∧ r.off * 8 + r.lsb < 32768 → ¬ stateKey (.core n) (r.key (coreClus n)) := fun hr =>
    not_or.mpr ⟨hne hr (by decide), not_or.mpr ⟨hne hr (by decide), hne hr (by decide)⟩⟩
  have hoff : PageKept (.core n) s (powerOff s (coreClus n)) := by
    have hdrop : PageKept (.core n) s (dropHeld s (coreClus n)) := .of_regs
    obtain ⟨hmg, hpower, -⟩ := enter_keeps (dropHeld s (coreClus n)) (coreClus n) 1
    exact hdrop.trans ⟨(RegsKept.refl _).enter (hkeys (by decide)) (hkeys (by decide)) (hkeys (by decide)), hmg, hpower, rfl⟩
  unfold clusOff
  dsimp only
  split
  · exact hoff
  · exact .refl

/-- R277: a core is OFF once its cleaning ends. -/
theorem sleepCleanDone_core {s : State} (hs : Rising s.regs) {n : CoreId} (hst : pgState s (.core n) = 2) (hb : rd s (.core n) hdrBusy = 1) :
    ∃ t, exec (.sleepCleanDone (.core n)) s = .next t ∧ pgState t (.core n) = 1 := by
  have hclean : cleaning s (.core n) = true := by
    unfold cleaning
    rw [hst, hb]
    rfl
  have hexec : exec (.sleepCleanDone (.core n)) s = .next (clusOff (powerOff s (.core n)) n) := by
    show execSleepCleanDone (.core n) s = _
    unfold execSleepCleanDone
    rw [hclean]
    rfl
  have hoff : pgState (powerOff s (.core n)) (.core n) = 1 :=
    enter_pgState (dropHeld (sleepLose s (.core n)) (.core n)) (.core n) 1 hs (show pgState s (.core n) ≠ 0 by rw [hst]; decide)
  have hr : Rising (powerOff s (.core n)).regs := enter_rising (dropHeld (sleepLose s (.core n)) (.core n)) (.core n) 1 hs
  exact ⟨_, hexec, ((clusOff_kept n _).same hr (by simp)).state.trans hoff⟩

section
variable {s : State} {p : Page}

theorem pgState_wr_busy (hs : Rising s.regs) (v : Nat) : pgState (wr s p hdrBusy v) p = pgState s p :=
  pgState_congr (s := s) (t := wr s p hdrBusy v) rfl rfl rfl (rd_wr_other _ _ _ _ _ _ hs (key_ne_off p p (by decide) (by decide) (by decide)))
    fun b _ _ => rd_wr_other _ _ _ _ _ _ hs (key_ne_off (.issue b) p (by decide) (by decide) (by decide))

theorem rd_wr_busy (hs : Rising s.regs) : rd (wr s p hdrBusy 1) p hdrBusy = 1 := rd_wr_same _ _ _ _ hs (by decide)

/-- R471: SLEEP of a page that cleans first. -/
theorem sleep_cleans (hs : Rising s.regs) (hc : p.sleepctl = true) (hst : pgState s p = 2) (hb : rd s p hdrBusy = 0) (hok : sleepOk s p = true)
    (hp : (∃ b, p = .bayCtl b) ∨ (∃ d, p = .pdCtl d) ∨ ∃ n, p = .core n) :
    ∃ t, exec (.sleep p) s = .next t ∧ pgState t p = 2 ∧ rd t p hdrBusy = 1 ∧ FieldsBut [hdrBusy.key p] s t := by
  have hclean := cleaning_idle hb
  have hguard : ¬ ((!p.sleepctl) = true ∨ pgState s p ≠ 2 ∨ cleaning s p = true ∨ (!sleepOk s p) = true) := by simp [hc, hst, hclean, hok]
  have hstate := (pgState_wr_busy hs 1).trans hst
  have hbusy := rd_wr_busy (p := p) hs
  have hfields := FieldsBut.wr s p hdrBusy 1 hs
  rcases hp with ⟨b, rfl⟩ | ⟨d, rfl⟩ | ⟨n, rfl⟩
  · exact ⟨_, if_neg hguard, hstate, hbusy, hfields⟩
  · exact ⟨_, if_neg hguard, hstate, hbusy, hfields⟩
  · exact ⟨_, if_neg hguard, hstate, hbusy, hfields⟩

/-- R471: WAKE sets BUSY. -/
theorem wake_busy (hs : Rising s.regs) (hc : p.sleepctl = true) (hst : pgState s p = 1) (hu : unitSleeps s p = false) :
    ∃ t, exec (.wake p) s = .next t ∧ pgState t p = 1 ∧ rd t p hdrBusy = 1 ∧ OnlyRegs s t ∧ FieldsBut [hdrBusy.key p] s t :=
  ⟨_, if_neg (by simp [hc, hst, hu]), (pgState_wr_busy hs 1).trans hst, rd_wr_busy hs, .wr .., .wr _ _ _ _ hs⟩

theorem clrErr_clears (hs : Rising s.regs) (h0 : pgState s p ≠ 0) :
    ∃ t, exec (.clrErr p) s = .next t ∧ rd t p hdrErr = 0 ∧ OnlyRegs s t ∧ FieldsBut [hdrErr.key p] s t :=
  ⟨_, congrArg Host.Outcome.next (if_neg h0), rd_wr_same _ _ _ _ hs (by decide), .wr .., .wr _ _ _ _ hs⟩

/-- R57: RESET of a RUNNING page is held from STOPPING. -/
theorem reset_running_held (hs : Rising s.regs) (hr : p.runctl = true) (hst : pgState s p = 4) :
    ∃ t, exec (.reset p) s = .next t ∧ pgState t p = 5 ∧ p.slot ∈ t.heldReset := by
  have hexec : exec (.reset p) s = .next { stopBegin s p with heldReset := (stopBegin s p).heldReset ++ [p.slot] } := by
    have hnot : resetOnly p = false := by
      cases p with
      | bayCtl b | pdCtl d => cases hr
      | _ => rfl
    have hclean : cleaning s p = false := by
      unfold cleaning
      rw [hst]
      simp
    show execReset p s = _
    unfold execReset
    simp only [hnot, hclean, hr, hst]
    rfl
  exact ⟨_, hexec, (stopBegin_stopping hs hst).1, List.mem_append_right _ (List.mem_singleton_self _)⟩
end

/-- Settles O1, clause by clause. -/
theorem pageCommandsMoveThePageState : Obligations.PageCommandsMoveThePageState := by
  unfold Obligations.PageCommandsMoveThePageState
  refine ⟨?run, ?started, ?stopStarting, ?stopRunning, ?resetRunning, ?resetStopped, ?clrErr, ?stopped, ?sleepCleans, ?sleep, ?cleaned, ?wake, ?awake⟩
  case run => exact fun s p hinv hr hst hb hd hc => run_starts hinv hr hst hb hd hc
  case started => exact fun s p hinv hr hst => startingDone_runs hinv hr hst
  case stopStarting => exact fun s p hinv hr hst harr => stop_starting_stops hinv hr hst harr
  case stopRunning => exact fun s p hinv hr hst => ⟨_, exec_stop_running hr hst, stopBegin_stopping hinv.regs_rising hst⟩
  case resetRunning => exact fun s p hinv hr hst => reset_running_held hinv.regs_rising hr hst
  case resetStopped => exact fun s b m hinv hst hb => reset_stopped_mov b m hinv.regs_rising hst hb
  case clrErr => exact fun s p hinv h0 => clrErr_clears hinv.regs_rising h0
  case stopped => exact fun s b m hinv hst hl hh => stoppingDone_mov b m hinv hst hl hh
  case sleepCleans => exact fun s p hinv hc hst hb hok hp => sleep_cleans hinv.regs_rising hc hst hb hok hp
  case sleep => exact fun s b m hinv hst hb => sleep_mov b m hinv.regs_rising hst hb
  case cleaned => exact fun s n hinv hst hb => sleepCleanDone_core hinv.regs_rising hst hb
  case wake => exact fun s p hinv hc hst hu => wake_busy hinv.regs_rising hc hst hu
  case awake => exact fun s b m hinv hst hb => wakeDone_mov b m hinv.regs_rising hst hb

end Sys2Proof.Machine
end

section
/-! The domain restart (R303) from a state in which the hub's own page is FENCED. -/

namespace Sys2Proof.Machine

/-! ### The parts of RESTART_COMPLETE. -/

/-- The domain is up again, and the restart counted. -/
def restartFlags (s : State) : State :=
  let s := wr (satAdd { s with coh := { s.coh with restarting := false } } .hub hubDomainRestarts 1) .hub hubDomainUp 1
  wr (wr (wr s .coh cohStatusUp 1) .coh cohStatusRestarting 0) .coh cohStatusSalvaged 0

/-- The flags and counters of the bays are cleared, and COH's event is raised. -/
def restartSyncs (s : State) : State := setEvt ((List.finRange 48).foldl syncClear s) .coh 18

/-- The cores that were FENCED. -/
def fencedCores (s : State) : List CoreId := (List.finRange 192).filter (fun n => pgState s (.core n) = 7)

theorem exec_restartComplete {s : State} (hr : s.coh.restarting = true) (hl : hostLines s = []) :
    exec (.restartComplete true) s =
      .next (heldDeliver (portsHb ((fencedCores s).foldl coreStart (pfwAgain (restartSyncs (allPages.foldl restartPage (restartFlags s))))))) := by
  show execRestartComplete true s = _
  unfold execRestartComplete
  rw [if_neg (by simp [hr, hl]), if_neg (by decide)]
  rfl

/-! ### Pages that are not FENCED. -/

theorem pgState_cases (s : State) (p : Page) : pgState s p = 0 ∨ pgState s p = rd s p hdrState := by
  unfold pgState
  split
  · exact .inl rfl
  · split
    · split
      · exact .inl rfl
      · exact .inr rfl
    · exact .inr rfl

theorem not_fenced {s : State} {p : Page} (h : rd s p hdrState ≠ 7) : pgState s p ≠ 7 := by
  rcases pgState_cases s p with h0 | h0 <;> rw [h0]
  · decide
  · exact h

/-- R303: a restart leaves a page that is not FENCED. -/
theorem restartPage_not_fenced {s : State} {p : Page} (h : pgState s p ≠ 7) : restartPage s p = s := if_pos h

theorem restartPages_not_fenced {s : State} (l : List Page) (h : ∀ p ∈ l, pgState s p ≠ 7) : l.foldl restartPage s = s :=
  List.foldlRecOn (motive := (· = s)) l _ rfl fun _ ht p hp => by rw [ht]; exact restartPage_not_fenced (h p hp)

/-! ### The reset of the hub's page. -/

theorem hubRows_places : ((hdrRows ++ hubRows).map fun r => r.off * 8 + r.lsb).Nodup := by decide +kernel

theorem toReset_hub (s : State) : toReset s .hub = epochInc (enter (resetRows (dropHeld s .hub) .hub (hdrRows ++ hubRows)) .hub 2) .hub := rfl

/-- R12: RESET of the hub's page clears HUB.DOMAIN.UP. -/
theorem rd_toReset_hub_up {s : State} (hs : Rising s.regs) : rd (toReset s .hub) .hub hubDomainUp = 0 := by
  have hd : Rising (dropHeld s .hub).regs := hs
  have hpair := rows_pairwise_keys (p := .hub) (fun _ _ => rfl) hubRows_places
  have hres : resets .hub hubDomainUp := by simp [resets, hubDomainUp, rowFixed, Row.home]
  have hreset : Rising (resetRows (dropHeld s .hub) .hub (hdrRows ++ hubRows)).regs :=
    (resetRows_kept (K := fun _ => False) (fun _ _ _ => not_false) _).rising hd
  rw [toReset_hub, rd_epochInc_hdr (enter_rising _ _ _ hreset) (by decide), rd_enter_off hreset (by decide),
    rd_resetRows hd hpair (by simp [hubRows]) hres (by decide)]
  rfl

/-- The keys of the states of the pages but the hub's. -/
def otherState (k : Nat) : Prop := ∃ p : Page, p ≠ .hub ∧ k = hdrState.key p

theorem not_otherState_off {r : Row} (h : r.off * 8 + r.lsb < 32768 ∧ r.off * 8 + r.lsb ≠ 160) (q : Page) : ¬ otherState (r.key q) := by
  rintro ⟨p, -, he⟩
  exact key_ne_off q p (r' := hdrState) h.1 (by decide) h.2 he

theorem toReset_hub_kept (s : State) : RegsKept otherState s (toReset s .hub) ∧ (toReset s .hub).mg = s.mg := by
  have hoff : ∀ x ∈ hdrRows ++ hubRows, x.off = 0x14 ∨ (x.off * 8 + x.lsb < 32768 ∧ x.off * 8 + x.lsb ≠ 160) := by decide +kernel
  have hrows : RegsKept otherState s (resetRows (dropHeld s .hub) .hub (hdrRows ++ hubRows)) :=
    (RegsKept.of_regs (t := dropHeld s .hub)).trans (resetRows_kept (fun x hx hres => by
      refine not_otherState_off ?_ .hub
      have := hoff x hx
      unfold resets at hres
      tauto) _)
  have hhub : ¬ otherState (hdrState.key .hub) := by
    rintro ⟨p, hp, he⟩
    exact key_ne_page (by decide) (by decide) (by simpa only [home_hdr (r := hdrState) (by decide)] using Ne.symm hp) he
  have honly := resetRows_only (dropHeld s .hub) .hub (hdrRows ++ hubRows)
  rw [toReset_hub]
  refine ⟨?_, ?_⟩
  · exact ((hrows.enter hhub (not_otherState_off (by decide) _) (not_otherState_off (by decide) _)).wr (not_otherState_off (by decide) _)).setEvt
      (not_otherState_off (by decide) _)
  · rw [epochInc_events, (enter_keeps _ _ _).1, honly]
    rfl

/-! ### What follows the pages' restart leaves HUB.DOMAIN.UP. -/

/-- The key of HUB.DOMAIN.UP. -/
def upKey (k : Nat) : Prop := k = hubDomainUp.key .hub

theorem not_upKey_page {r : Row} {p : Page} (hr : r.off * 8 + r.lsb < 32768) (hp : r.home p ≠ .hub) : ¬ upKey (r.key p) :=
  key_ne_page hr (by decide) hp

theorem syncClear_up (s : State) (b : BayId) : RegsKept upKey s (syncClear s b) := by
  have hsync : ∀ {r : Row}, r.off * 8 + r.lsb < 32768 → ¬ upKey (r.key (.sync b)) := fun hr => not_upKey_page hr (by simp [Row.home])
  refine (RegsKept.wr (.refl s) (hsync (by decide))).foldl fun s n hn => .wr (.refl s) (hsync ?_)
  have := List.mem_range.mp hn
  simp only [syncCnt]
  omega

theorem restartSyncs_up (s : State) : RegsKept upKey s (restartSyncs s) :=
  ((RegsKept.refl s).foldl fun s b _ => syncClear_up s b).setEvt (not_upKey_page (by decide) (by decide))

theorem restartSyncs_mg (s : State) : (restartSyncs s).mg = s.mg := by
  have hsync : OnlyRegs s ((List.finRange 48).foldl syncClear s) := .foldl (fun s b => (OnlyRegs.wr ..).trans (.foldl (fun s n => .wr ..) _ _)) _ s
  rw [restartSyncs, setEvt_events, hsync]

theorem portsHb_up (s : State) : RegsKept upKey s (portsHb s) :=
  (RegsKept.refl s).foldl fun s q _ => .wr (.refl s) (not_upKey_page (by decide) (by simp [Row.home]))

theorem heldDeliver_up (s : State) : RegsKept upKey s (heldDeliver s) := by
  have hstart : RegsKept upKey s { s with coh := { s.coh with heldLines := [] } } := .of_regs
  unfold heldDeliver
  refine hstart.foldl fun s v _ => ?_
  dsimp only
  split
  · exact .of_regs (by rw [raiseHarts_only])
  · exact .of_regs (by rw [raiseMsix_only, raiseHarts_only])

/-- R497: where ledger entries mark both copies of the firmware, the firmware in place stays. -/
theorem pfwAgain_avoided {s : State} (h : ∀ c, c = usedCopy s 3 ∨ c = 1 - usedCopy s 3 → avoided s 3 c = true) : pfwAgain s = s := by
  have hcopy : pfwCopy s = (.none, s) := by
    unfold pfwCopy tryCopy
    simp only [h _ (.inl rfl), if_true]
    rw [if_pos (h _ (.inr rfl)), ite_self]
  unfold pfwAgain
  rw [hcopy, ite_self]

/-! ### The refutation. -/

/-- A ledger entry that marks a copy of the processor firmware (R502, R507). -/
def firmwareMark (c : Nat) : LedgerEntry := { seq := c, boot := 0, step := 0, kind := 0x10, outcome := 0, action := 0, unit := 3, arg := c }

/-- A restart whose tokens are awaited, with the hub's page FENCED, and ledger entries that mark both copies of the processor firmware. -/
def fencedHub : State :=
  { wr State.reset .hub hdrState 7 with
    coh := { restarting := true }
    mg := { State.reset.mg with snapshot := [(0, some (firmwareMark 0)), (1, some (firmwareMark 1))] } }

theorem fencedHub_inv : StateInv fencedHub := by decide +kernel

theorem resetState_cases (p : Page) : p.resetState = 2 ∨ p.resetState = 4 := by
  cases p <;> simp [Page.resetState, Page.alwaysRunning]

/-- No page but the hub's is FENCED. -/
theorem fencedHub_states {p : Page} (hp : p ≠ .hub) : rd fencedHub p hdrState ≠ 7 := by
  have hwr : rd fencedHub p hdrState = rd State.reset p hdrState :=
    rd_wr_other State.reset .hub p hdrState hdrState 7 .nil
      (key_ne_page (by decide) (by decide) (by simpa only [home_hdr (r := hdrState) (by decide)] using hp))
  rw [hwr, rd_reset]
  show p.resetState % 2 ^ 64 % 2 ^ 4 ≠ 7
  rcases resetState_cases p with h | h <;> rw [h] <;> decide

theorem fencedHub_avoided {s : State} (h : s.mg = fencedHub.mg) : ∀ c, c = usedCopy s 3 ∨ c = 1 - usedCopy s 3 → avoided s 3 c = true := by
  have hused : usedCopy s 3 = 0 := by rw [usedCopy, h]; rfl
  rw [hused]
  rintro c (rfl | rfl) <;> (unfold avoided; rw [h]; decide)

theorem restartFlags_kept (s : State) : RegsKept otherState s (restartFlags s) ∧ (restartFlags s).mg = s.mg := by
  have hoff : ∀ {r : Row}, r.off * 8 + r.lsb < 32768 ∧ r.off * 8 + r.lsb ≠ 160 → ∀ q, ¬ otherState (r.key q) := not_otherState_off
  have hup : RegsKept otherState s (wr (satAdd { s with coh := { s.coh with restarting := false } } .hub hubDomainRestarts 1) .hub hubDomainUp 1) :=
    .wr (.wr .of_regs (hoff (by decide) _)) (hoff (by decide) _)
  exact ⟨((hup.wr (hoff (by decide) _)).wr (hoff (by decide) _)).wr (hoff (by decide) _), rfl⟩

/-- The restart of the pages resets the hub's and leaves the others. -/
theorem fencedHub_pages :
    allPages.foldl restartPage (restartFlags fencedHub) = toReset (restartFlags fencedHub) .hub := by
  have hflags := restartFlags_kept fencedHub
  have hhub : restartPage (restartFlags fencedHub) .hub = toReset (restartFlags fencedHub) .hub := by
    unfold restartPage
    rw [if_neg (by decide +kernel)]
  have hall : allPages = .hub :: allPages.tail := rfl
  have htail : .hub ∉ allPages.tail := by decide +kernel
  rw [hall, List.foldl_cons, hhub]
  refine restartPages_not_fenced _ fun p hp => not_fenced ?_
  have hne : p ≠ .hub := fun h => htail (h ▸ hp)
  have hkept := hflags.1.trans (toReset_hub_kept (restartFlags fencedHub)).1
  rw [hkept.rd_eq fencedHub_inv.regs_rising ⟨p, hne, rfl⟩]
  exact fencedHub_states hne

theorem fencedHub_cores : fencedCores fencedHub = [] :=
  List.filter_eq_nil_iff.mpr fun n _ => by simpa using not_fenced (fencedHub_states (p := .core n) (by simp))

/-- Refutes O12: the last clause does not ask that the hub's own page be unfenced. A domain that goes down never fences it (R299), but from
`fencedHub` the restart resets every FENCED page (R303), the hub's with HUB.DOMAIN.UP among them, and the domain stays down. -/
theorem not_domainGoesDownAndRestarts : ¬ Obligations.DomainGoesDownAndRestarts := by
  unfold Obligations.DomainGoesDownAndRestarts
  rintro ⟨-, -, -, -, -, -, -, -, -, -, -, -, -, -, -, hrestart⟩
  obtain ⟨t, hexec, hup, -⟩ := hrestart fencedHub fencedHub_inv rfl rfl
  rw [exec_restartComplete rfl rfl, fencedHub_cores, fencedHub_pages, List.foldl_nil] at hexec
  have hflags := restartFlags_kept fencedHub
  have hs := hflags.1.rising fencedHub_inv.regs_rising
  have hreset := toReset_hub_kept (restartFlags fencedHub)
  have hmg : (restartSyncs (toReset (restartFlags fencedHub) .hub)).mg = fencedHub.mg := by rw [restartSyncs_mg, hreset.2, hflags.2]
  rw [pfwAgain_avoided (fencedHub_avoided hmg)] at hexec
  have hkept := ((restartSyncs_up (toReset (restartFlags fencedHub) .hub)).trans (portsHb_up _)).trans (heldDeliver_up _)
  have hdown : rd t .hub hubDomainUp = 0 := by
    rw [← Host.Outcome.next.inj hexec, hkept.rd_eq (hreset.1.rising hs) rfl, rd_toReset_hub_up hs]
  simp [domainUp, hdown] at hup

end Sys2Proof.Machine
end

section
/-! The number formats: the packing of element codes (R77) and rounding to nearest even (R84). -/

namespace Sys2Proof.Machine

/-! ### Packed elements and byte strings (R77). -/

/-- R77: the first element of a packed field. -/
theorem packedAt_zero (w field : Nat) : packedAt w field 0 = field % 2 ^ w := by simp [packedAt]

/-- R77: the elements above the first. -/
theorem packedAt_succ (w field i : Nat) : packedAt w field (i + 1) = packedAt w (field / 2 ^ w) i := by
  rw [packedAt, packedAt, Nat.div_div_eq_div_mul, ← Nat.pow_add, Nat.mul_succ, Nat.add_comm]

/-- An element of a field is its bits w·i to w·i + w − 1. -/
theorem bits_eq_packedAt {w : Nat} (hw : 0 < w) (field i : Nat) : bits field (w * i + w - 1) (w * i) = packedAt w field i := by
  have hwidth : w * i + w - 1 + 1 - w * i = w := by omega
  rw [bits, packedAt, hwidth]

theorem packedAt_packCodes (w : Nat) {l : List Nat} (hl : ∀ c ∈ l, c < 2 ^ w) {i : Nat} (hi : i < l.length) :
    packedAt w (packCodes w l) i = l[i] := by
  induction l generalizing i with
  | nil => simp at hi
  | cons c t ih =>
    have hc : c < 2 ^ w := hl c (by simp)
    cases i with
    | zero => rw [packedAt_zero, packCodes, Nat.add_mul_mod_self_left, Nat.mod_mod, Nat.mod_eq_of_lt hc]; rfl
    | succ i =>
      have htail : (c % 2 ^ w + 2 ^ w * packCodes w t) / 2 ^ w = packCodes w t := by
        rw [Nat.add_mul_div_left _ _ (by positivity), Nat.div_eq_of_lt (Nat.mod_lt _ (by positivity)), Nat.zero_add]
      rw [packedAt_succ, packCodes, htail, ih (fun c hc => hl c (by simp [hc])) (Nat.lt_of_succ_lt_succ hi)]
      rfl

/-- The n-th byte of a number's byte string is its n-th packed element of 8 bits. -/
theorem toLE_getD {k n : Nat} (field : Nat) (hn : n < k) : ((toLE k field).getD n 0).toNat = packedAt 8 field n := by
  induction k generalizing n field with
  | zero => omega
  | succ k ih =>
    cases n with
    | zero => simp [toLE, packedAt_zero]
    | succ n => rw [packedAt_succ, toLE, List.getD_cons_succ, ih _ (Nat.lt_of_succ_lt_succ hn)]; rfl

theorem leNat_toLE {k field : Nat} (h : field < 2 ^ (8 * k)) : leNat (toLE k field) = field := by
  induction k generalizing field with
  | zero => simp only [Nat.mul_zero, Nat.pow_zero, Nat.lt_one_iff] at h; simp [toLE, leNat, h]
  | succ k ih =>
    have htail : field / 256 < 2 ^ (8 * k) := by rw [Nat.div_lt_iff_lt_mul (by decide)]; rwa [Nat.mul_succ, Nat.pow_add] at h
    rw [toLE, leNat, ih htail, BitVec.toNat_ofNat]
    exact Nat.mod_add_div field 256

/-- Settles O56: an element is its bits, the packing is undone element by element, and a byte string is a packing of 8-bit elements. -/
theorem elementsArePackedFromTheLeastBit : Obligations.ElementsArePackedFromTheLeastBit := by
  refine ⟨fun w l i hw hl hi => ?_, fun w l i hl hi => packedAt_packCodes w hl hi, fun k field n hn => ?_, fun k field h => leNat_toLE h⟩
  · rw [bits_eq_packedAt hw, packedAt_packCodes w hl hi]
  · exact (toLE_getD field hn).trans (bits_eq_packedAt (by decide) field n).symm

/-! ### Rounding of a quotient (R84). -/

/-- R84: RNE goes up past the midpoint, and at the midpoint from an odd integer. -/
theorem roundQ_rne (neg : Bool) (n d : Nat) :
    roundQ .rne neg n d = if d < 2 * (n % d) ∨ 2 * (n % d) = d ∧ n / d % 2 = 1 then n / d + 1 else n / d := by
  simp [roundQ]

/-- Settles O57, by the remainder: below, at and above half the divisor. -/
theorem roundingGoesToNearestEven : Obligations.RoundingGoesToNearestEven := by
  intro neg n d hd
  have hn : d * (n / d) + n % d = n := Nat.div_add_mod n d
  have hr : n % d < d := Nat.mod_lt n hd
  rw [roundQ_rne]
  split
  · have hup : (n / d + 1) * d = d * (n / d) + d := by ring
    rw [hup]
    omega
  · rw [Nat.mul_comm (n / d) d]
    omega

end Sys2Proof.Machine
end

section
/-! Exact conversions between plain formats (R82): a magnitude is a rational, a layout holds some of them, and rounding to a layout keeps
those it holds. -/

namespace Sys2Proof.Machine

/-! ### Magnitudes as rationals. -/

/-- The magnitude of `.fin _ m e`. -/
def magQ (m : Nat) (e : Int) : ℚ := m * 2 ^ e

theorem magQ_nonneg (m : Nat) (e : Int) : 0 ≤ magQ m e := by unfold magQ; positivity

theorem magQ_pos {m : Nat} (hm : 0 < m) (e : Int) : 0 < magQ m e := by unfold magQ; positivity

theorem magQ_eq_zero {m : Nat} {e : Int} : magQ m e = 0 ↔ m = 0 := by simp [magQ, zpow_ne_zero]

theorem magQ_mul_pow (m k : Nat) (e : Int) : magQ (m * 2 ^ k) e = magQ m (e + k) := by
  rw [magQ, magQ, zpow_add₀ two_ne_zero, zpow_natCast]
  push_cast
  ring

/-- A magnitude in units of a smaller power of two. -/
theorem magQ_eq_of_le (m : Nat) {e q : Int} (h : q ≤ e) : magQ m e = magQ (m * 2 ^ (e - q).toNat) q := by
  rw [magQ_mul_pow]
  congr 1
  omega

theorem magQ_le_left {m n : Nat} {e : Int} : magQ m e ≤ magQ n e ↔ m ≤ n := by
  rw [magQ, magQ, mul_le_mul_iff_left₀ (by positivity), Nat.cast_le]

theorem magQ_inj_left {m n : Nat} {e : Int} (h : magQ m e = magQ n e) : m = n :=
  Nat.le_antisymm (magQ_le_left.mp h.le) (magQ_le_left.mp h.ge)

theorem magQ_lt_zpow {m n : Nat} {e t : Int} (hm : m < 2 ^ n) (ht : n + e ≤ t) : magQ m e < 2 ^ t := by
  calc magQ m e < magQ (1 * 2 ^ n) e := lt_of_not_ge fun h => absurd (magQ_le_left.mp h) (by omega)
    _ = 2 ^ (e + n) := by rw [magQ_mul_pow]; simp [magQ]
    _ ≤ 2 ^ t := zpow_le_zpow_right₀ one_le_two (by omega)

theorem zpow_le_magQ {m n : Nat} (hm : 2 ^ n ≤ m) (e : Int) : (2 : ℚ) ^ (n + e) ≤ magQ m e := by
  calc (2 : ℚ) ^ (n + e) = magQ (1 * 2 ^ n) e := by rw [magQ_mul_pow]; simp [magQ, add_comm]
    _ ≤ magQ m e := magQ_le_left.mpr (by omega)

/-- The model's comparison of magnitudes is the order of the rationals. -/
theorem leMag_iff {m n : Nat} {e g : Int} : leMag m e n g = true ↔ magQ m e ≤ magQ n g := by
  rw [magQ_eq_of_le m (min_le_left e g), magQ_eq_of_le n (min_le_right e g), magQ_le_left, leMag, decide_eq_true_iff]

theorem sameVal_fin {s t : Bool} {m n : Nat} {e g : Int} : SameVal (.fin s m e) (.fin t n g) ↔ s = t ∧ magQ m e = magQ n g := by
  rw [SameVal, leMag_iff, leMag_iff, ← le_antisymm_iff]

theorem SameVal.refl (v : Val) : SameVal v v := by
  cases v with
  | nan => trivial
  | inf s => rfl
  | fin s m e => exact sameVal_fin.mpr ⟨rfl, rfl⟩

/-! ### Rounding what is exact. -/

theorem flog2_one {m : Nat} (hm : 0 < m) (e : Int) : flog2 m 1 e = Nat.log2 m + e := by
  have hle : 2 ^ Nat.log2 m ≤ m := Nat.log2_self_le hm.ne'
  have hone : Nat.log2 1 = 0 := rfl
  simp [flog2, hone, hle, add_comm]

/-- The exponent depends on the magnitude only, not on how its mantissa is scaled. -/
theorem flog2_eq_log {m : Nat} (hm : 0 < m) (e : Int) : flog2 m 1 e = Int.log 2 (magQ m e) := by
  rw [flog2_one hm]
  refine le_antisymm ((Int.zpow_le_iff_le_log (by decide) (magQ_pos hm e)).mp ?_) (Int.lt_add_one_iff.mp ?_)
  · exact zpow_le_magQ (Nat.log2_self_le hm.ne') e
  · exact (Int.lt_zpow_iff_log_lt (by decide) (magQ_pos hm e)).mp (magQ_lt_zpow Nat.lt_log2_self (by push_cast; omega))

theorem roundQ_exact (rm : RMode) (neg : Bool) (k : Nat) {d : Nat} (hd : 0 < d) : roundQ rm neg (k * d) d = k := by
  cases rm <;> simp [roundQ, Nat.mul_div_cancel k hd, hd.ne, hd.not_ge]

/-- A magnitude that is a whole number of units is its number of units. -/
theorem roundQ_inUnits (rm : RMode) (neg : Bool) {m k : Nat} {e q : Int} (h : magQ m e = magQ k q) :
    roundQ rm neg (inUnits m 1 e q).1 (inUnits m 1 e q).2 = k := by
  unfold inUnits
  split
  case isTrue hle =>
    rw [magQ_eq_of_le m hle] at h
    simpa [magQ_inj_left h] using roundQ_exact rm neg k one_pos
  case isFalse hlt =>
    rw [magQ_eq_of_le k (Int.le_of_lt (Int.not_le.mp hlt))] at h
    simpa [magQ_inj_left h] using roundQ_exact rm neg k (d := 2 ^ (q - e).toNat) (by positivity)

/-! ### The codes of an IEEE layout (R70, R71). -/

/-- The sign bit of a code. -/
def FFmt.sign (f : FFmt) (neg : Bool) : Nat := if neg then 2 ^ (f.width - 1) else 0

/-- The finite magnitudes lie below 2 to this power, where E all-ones means infinity and NaN. -/
def FFmt.top (f : FFmt) : Int := (2 ^ f.eb : Nat) - 1 - (f.bias : Int)

/-- R71: a layout whose codes with E all-ones, those above the greatest finite one, are infinity and NaN. -/
structure FFmt.Ieee (f : FFmt) : Prop where
  ieee : f.ieee = true
  maxCode_succ : f.maxCode + 1 = (2 ^ f.eb - 1) * 2 ^ f.mb
  two_le_eb : 2 ≤ f.eb
  nan : ∃ c ∈ f.nan, c < 2 ^ f.width ∧ decF f c = .nan

/-- R70: the layouts that exact conversions reach. -/
def ieeeLayouts : List FFmt := [f64, f32, f16, fbf16]

theorem ieee_of_mem {f : FFmt} (h : f ∈ ieeeLayouts) : f.Ieee := by
  simp only [ieeeLayouts, List.mem_cons, List.not_mem_nil, or_false] at h
  rcases h with rfl | rfl | rfl | rfl
  all_goals exact ⟨rfl, rfl, by decide, _, rfl, by decide, by decide⟩

theorem FFmt.Ieee.three_lt_pow {f : FFmt} (hf : f.Ieee) : 3 < 2 ^ f.eb := Nat.pow_le_pow_right (n := 2) two_pos hf.two_le_eb

/-- The value of a magnitude code of an IEEE layout under a sign. -/
def FFmt.valOf (f : FFmt) (neg : Bool) (c : Nat) : Val :=
  if c / 2 ^ f.mb = 2 ^ f.eb - 1 then (if c % 2 ^ f.mb = 0 then .inf neg else .nan)
  else if c / 2 ^ f.mb = 0 then .fin neg (c % 2 ^ f.mb) f.q0
  else .fin neg (c % 2 ^ f.mb + 2 ^ f.mb) (f.q0 + (c / 2 ^ f.mb : Nat) - 1)

theorem decF_eq_valOf {f : FFmt} (hf : f.Ieee) (c : Nat) : decF f c = f.valOf (bitOf c (f.width - 1)) (c % 2 ^ (f.width - 1)) := by
  simp [decF, FFmt.valOf, hf.ieee]

theorem decF_sign_add {f : FFmt} (hf : f.Ieee) (neg : Bool) {c : Nat} (hc : c < 2 ^ (f.width - 1)) :
    decF f (f.sign neg + c) = f.valOf neg c := by
  rw [decF_eq_valOf hf]
  cases neg <;> simp [FFmt.sign, bitOf, Nat.mod_eq_of_lt hc, Nat.div_eq_of_lt hc]

/-- The magnitude codes: an exponent and a mantissa. -/
theorem FFmt.pow_width_pred (f : FFmt) : 2 ^ (f.width - 1) = 2 ^ f.eb * 2 ^ f.mb := by
  rw [← pow_add, FFmt.width, Nat.add_assoc, Nat.add_sub_cancel_left]

theorem FFmt.Ieee.maxCode_lt {f : FFmt} (hf : f.Ieee) : f.maxCode + 1 < 2 ^ (f.width - 1) := by
  rw [hf.maxCode_succ, f.pow_width_pred]
  exact Nat.mul_lt_mul_of_pos_right (Nat.sub_lt (by positivity) one_pos) (by positivity)

theorem FFmt.sign_add_lt (f : FFmt) (neg : Bool) {c : Nat} (hc : c < 2 ^ (f.width - 1)) : f.sign neg + c < 2 ^ f.width := by
  have hwidth : 2 * 2 ^ (f.width - 1) = 2 ^ f.width := mul_pow_sub_one (by simp [FFmt.width]) 2
  cases neg <;> simp only [FFmt.sign, if_true, Bool.false_eq_true, if_false] <;> omega

theorem FFmt.sign_add_mod (f : FFmt) (neg : Bool) {c : Nat} (hc : c < 2 ^ (f.width - 1)) : (f.sign neg + c) % 2 ^ (f.width - 1) = c := by
  cases neg <;> simp [FFmt.sign, Nat.mod_eq_of_lt hc]

/-- The magnitude k units of 2^j smallest subnormals as a code has it: a normal number's leading bit is bit `mb`. -/
abbrev FFmt.Normal (f : FFmt) (k j : Nat) : Prop := k < 2 ^ (f.mb + 1) ∧ (j = 0 ∨ 2 ^ f.mb ≤ k)

/-- The value of a finite code, by its parts. -/
theorem valOf_fin {f : FFmt} (hf : f.Ieee) (neg : Bool) {k j : Nat} (hk : f.Normal k j) (hc : j * 2 ^ f.mb + k ≤ f.maxCode) :
    f.valOf neg (j * 2 ^ f.mb + k) = .fin neg k (f.q0 + j) := by
  have hmax := hf.maxCode_succ
  have hdiv : (j * 2 ^ f.mb + k) / 2 ^ f.mb = j + k / 2 ^ f.mb := by
    rw [Nat.add_comm, Nat.add_mul_div_right _ _ (by positivity), Nat.add_comm]
  have hmod : (j * 2 ^ f.mb + k) % 2 ^ f.mb = k % 2 ^ f.mb := Nat.mul_add_mod_self_right ..
  have hlt : (j * 2 ^ f.mb + k) / 2 ^ f.mb < 2 ^ f.eb - 1 := by
    rw [Nat.div_lt_iff_lt_mul (by positivity)]; omega
  rw [FFmt.valOf, if_neg hlt.ne, hdiv, hmod]
  rcases Nat.lt_or_ge k (2 ^ f.mb) with hsub | hnorm
  · have hj : j = 0 := hk.2.resolve_right hsub.not_ge
    simp [hj, Nat.div_eq_of_lt hsub, Nat.mod_eq_of_lt hsub]
  · have hone : k / 2 ^ f.mb = 1 := Nat.div_eq_of_lt_le (by omega) (by rw [← pow_succ']; exact hk.1)
    have hrest : k % 2 ^ f.mb + 2 ^ f.mb = k := by simpa [hone] using Nat.mod_add_div k (2 ^ f.mb)
    rw [hone, if_neg (by omega), hrest]
    congr 1
    push_cast
    ring

/-- The code that stands above the finite ones. -/
theorem valOf_inf {f : FFmt} (hf : f.Ieee) (neg : Bool) : f.valOf neg (f.maxCode + 1) = .inf neg := by
  rw [FFmt.valOf, hf.maxCode_succ, Nat.mul_div_cancel _ (by positivity), if_pos rfl, Nat.mul_mod_left, if_pos rfl]

/-! ### The magnitudes a layout holds. -/

/-- A magnitude of at most `mb` + 1 significant bits, in units no smaller than the smallest subnormal, below infinity. -/
def FFmt.Holds (f : FFmt) (x : ℚ) : Prop :=
  ∃ k e, x = magQ k e ∧ k < 2 ^ (f.mb + 1) ∧ f.q0 ≤ e ∧ x < 2 ^ f.top

theorem holds_magQ {f : FFmt} {k n : Nat} {e : Int} (hk : k < 2 ^ n) (hn : n ≤ f.mb + 1) (he : f.q0 ≤ e) (ht : n + e ≤ f.top) :
    f.Holds (magQ k e) :=
  ⟨k, e, rfl, hk.trans_le (Nat.pow_le_pow_right two_pos hn), he, magQ_lt_zpow hk ht⟩

/-- Doubling the mantissa and halving the unit brings a magnitude to the form of a code. -/
theorem exists_normal_magQ (f : FFmt) {k : Nat} (j : Nat) (hk : k < 2 ^ (f.mb + 1)) :
    ∃ k' j', f.Normal k' j' ∧ magQ k (f.q0 + j) = magQ k' (f.q0 + j') := by
  induction j generalizing k with
  | zero => exact ⟨k, 0, ⟨hk, .inl rfl⟩, rfl⟩
  | succ j ih =>
    rcases Nat.lt_or_ge k (2 ^ f.mb) with hsub | hnorm
    · obtain ⟨k', j', hn, hv⟩ := ih (k := k * 2 ^ 1) (by omega)
      refine ⟨k', j', hn, hv ▸ ?_⟩
      rw [magQ_mul_pow]
      congr 1
      push_cast
      ring
    · exact ⟨k, j + 1, ⟨hk, .inr hnorm⟩, rfl⟩

/-- A magnitude below infinity has a finite code. -/
theorem code_le_maxCode {f : FFmt} (hf : f.Ieee) {k j : Nat} (hk : f.Normal k j) (ht : magQ k (f.q0 + j) < 2 ^ f.top) :
    j + 3 ≤ 2 ^ f.eb ∧ j * 2 ^ f.mb + k ≤ f.maxCode := by
  have hmax := hf.maxCode_succ
  have hthree := hf.three_lt_pow
  have hj : j + 3 ≤ 2 ^ f.eb := by
    rcases hk.2 with rfl | hnorm
    · omega
    · have hlt := (zpow_lt_zpow_iff_right₀ one_lt_two).mp ((zpow_le_magQ hnorm _).trans_lt ht)
      rw [FFmt.q0, FFmt.top] at hlt
      omega
  refine ⟨hj, ?_⟩
  have hcodes : (j + 2) * 2 ^ f.mb ≤ (2 ^ f.eb - 1) * 2 ^ f.mb := Nat.mul_le_mul_right _ (by omega)
  have hk := hk.1
  rw [pow_succ] at hk
  rw [← hmax, Nat.add_mul] at hcodes
  omega

/-- A held magnitude as the layout's codes have it. -/
theorem FFmt.Holds.exists_normal {f : FFmt} (hf : f.Ieee) {x : ℚ} (h : f.Holds x) :
    ∃ k j, f.Normal k j ∧ x = magQ k (f.q0 + j) ∧ j + 3 ≤ 2 ^ f.eb ∧ j * 2 ^ f.mb + k ≤ f.maxCode := by
  obtain ⟨k, e, hx, hk, he, ht⟩ := h
  have hj : f.q0 + ((e - f.q0).toNat : Nat) = e := by omega
  obtain ⟨k', j', hn, hv⟩ := exists_normal_magQ f (e - f.q0).toNat hk
  rw [hj, ← hx] at hv
  exact ⟨k', j', hn, hv, code_le_maxCode hf hn (hv ▸ ht)⟩

/-- The greatest finite magnitude. -/
theorem valOf_maxCode {f : FFmt} (hf : f.Ieee) :
    ∃ j : Nat, 2 ^ f.eb = j + 3 ∧ f.valOf false f.maxCode = .fin false (2 ^ (f.mb + 1) - 1) (f.q0 + j) := by
  have hmax := hf.maxCode_succ
  obtain ⟨j, hj⟩ := Nat.exists_eq_add_of_le' hf.three_lt_pow.le
  have hpos : 0 < 2 ^ f.mb := by positivity
  have hcode : f.maxCode = j * 2 ^ f.mb + (2 ^ (f.mb + 1) - 1) := by
    have hsub : 2 ^ f.eb - 1 = j + 2 := by omega
    rw [hsub, Nat.add_mul] at hmax
    rw [pow_succ]
    omega
  refine ⟨j, hj, ?_⟩
  have hnormal : f.Normal (2 ^ (f.mb + 1) - 1) j := ⟨by omega, .inr (by omega)⟩
  rw [hcode, valOf_fin hf _ hnormal hcode.ge]

/-- A held magnitude is at most the greatest finite one. -/
theorem decF_maxCode {f : FFmt} (hf : f.Ieee) :
    ∃ m e, decF f f.maxCode = .fin false m e ∧ ∀ x, f.Holds x → x ≤ magQ m e := by
  obtain ⟨top, htop, hval⟩ := valOf_maxCode hf
  have hdec := decF_sign_add hf false (Nat.lt_of_succ_lt hf.maxCode_lt)
  rw [hval, FFmt.sign, if_neg (by decide), Nat.zero_add] at hdec
  refine ⟨_, _, hdec, fun x hx => ?_⟩
  obtain ⟨k, j, hn, rfl, hj, -⟩ := hx.exists_normal hf
  calc magQ k (f.q0 + j) ≤ magQ k (f.q0 + top) :=
        mul_le_mul_of_nonneg_left (zpow_le_zpow_right₀ one_le_two (by omega)) k.cast_nonneg
    _ ≤ magQ (2 ^ (f.mb + 1) - 1) (f.q0 + top) := magQ_le_left.mpr (by omega)

/-! ### Rounding to a layout keeps what it holds. -/

/-- The exponent at which a held magnitude is rounded is that of its unit. -/
theorem roundUnit_eq {f : FFmt} {k j m : Nat} {e : Int} (hn : f.Normal k j) (hm : 0 < m) (hv : magQ m e = magQ k (f.q0 + j)) :
    max (flog2 m 1 e - f.mb) f.q0 = f.q0 + j := by
  have hk : 0 < k := Nat.pos_of_ne_zero fun h => (magQ_pos hm e).ne' (hv.trans (magQ_eq_zero.mpr h))
  have hlog : Nat.log2 k ≤ f.mb := Nat.lt_succ_iff.mp ((Nat.log2_lt hk.ne').mpr hn.1)
  rw [flog2_eq_log hm, hv, ← flog2_eq_log hk, flog2_one hk]
  rcases hn.2 with rfl | hnorm
  · omega
  · have hge : f.mb ≤ Nat.log2 k := (Nat.le_log2 hk.ne').mpr hnorm
    omega

theorem roundRat_zero (f : FFmt) (rm : RMode) (neg : Bool) (d : Nat) (e : Int) : roundRat f rm neg 0 d e = (f.sign neg, 0) := rfl

/-- The magnitude code of n/d · 2^e rounded in units of 2^q. -/
def FFmt.codeAt (f : FFmt) (rm : RMode) (neg : Bool) (n d : Nat) (e q : Int) : Nat :=
  (q - f.q0).toNat * 2 ^ f.mb + roundQ rm neg (inUnits n d e q).1 (inUnits n d e q).2

/-- Rounding that does not overflow. -/
theorem roundRat_fst {f : FFmt} {rm : RMode} {neg : Bool} {n d : Nat} {e : Int} (hn : n ≠ 0)
    (hc : ¬ f.maxCode < f.codeAt rm neg n d e (max (flog2 n d e - f.mb) f.q0)) :
    (roundRat f rm neg n d e).1 = f.sign neg + f.codeAt rm neg n d e (max (flog2 n d e - f.mb) f.q0) :=
  congrArg Prod.fst ((if_neg hn).trans (if_neg hc))

theorem roundRat_exact {f : FFmt} (rm : RMode) (neg : Bool) {k j m : Nat} {e : Int} (hn : f.Normal k j)
    (hv : magQ m e = magQ k (f.q0 + j)) (hc : j * 2 ^ f.mb + k ≤ f.maxCode) :
    (roundRat f rm neg m 1 e).1 = f.sign neg + (j * 2 ^ f.mb + k) := by
  rcases Nat.eq_zero_or_pos m with rfl | hm
  · have hk : k = 0 := magQ_eq_zero.mp (hv.symm.trans (magQ_eq_zero.mpr rfl))
    have hj : j = 0 := hn.2.resolve_right (by simp [hk])
    simp [roundRat_zero, hk, hj]
  · have hcode : f.codeAt rm neg m 1 e (f.q0 + j) = j * 2 ^ f.mb + k := by
      rw [FFmt.codeAt, roundQ_inUnits rm neg hv, add_sub_cancel_left, Int.toNat_natCast]
    rw [← roundUnit_eq hn hm hv] at hcode
    rw [roundRat_fst hm.ne' (hcode ▸ hc.not_gt), hcode]

/-- A value of the layout: NaN, an infinity, or a magnitude it holds. -/
def FFmt.HasVal (f : FFmt) : Val → Prop
  | .fin _ m e => f.Holds (magQ m e)
  | _ => True

/-- An exact conversion: neither sentinel counts, and the code has the value under the destination's decoding. -/
def Cvt.Keeps (r : Cvt) (w : Nat) (dec : Nat → Val) (v : Val) : Prop :=
  r.sat = false ∧ r.flush = false ∧ r.code < 2 ^ w ∧ SameVal (dec r.code) v

theorem Cvt.keeps_code {c w : Nat} {dec : Nat → Val} {v : Val} (hc : c < 2 ^ w) (hv : SameVal (dec c) v) : Cvt.Keeps { code := c } w dec v :=
  ⟨rfl, rfl, hc, hv⟩

theorem cvtF_nan_kept {f : FFmt} (hf : f.Ieee) (rm : RMode) : (cvtF f true rm .nan).Keeps f.width (decF f) .nan := by
  obtain ⟨c, hnan, hlt, hdec⟩ := hf.nan
  have hcvt : cvtF f true rm .nan = { code := c } := by simp [cvtF, Option.mem_def.mp hnan]
  rw [hcvt]
  exact Cvt.keeps_code hlt (by rw [hdec]; trivial)

theorem cvtF_inf_kept {f : FFmt} (hf : f.Ieee) (rm : RMode) (neg : Bool) : (cvtF f true rm (.inf neg)).Keeps f.width (decF f) (.inf neg) := by
  have hcvt : cvtF f true rm (.inf neg) = { code := f.sign neg + (f.maxCode + 1) } := by simp [cvtF, hf.ieee, FFmt.sign, add_assoc]
  rw [hcvt]
  refine Cvt.keeps_code (f.sign_add_lt neg hf.maxCode_lt) ?_
  rw [decF_sign_add hf neg hf.maxCode_lt, valOf_inf hf]
  rfl

theorem cvtF_fin_kept {f : FFmt} (hf : f.Ieee) (rm : RMode) (neg : Bool) {m : Nat} {e : Int} (h : f.Holds (magQ m e)) :
    (cvtF f true rm (.fin neg m e)).Keeps f.width (decF f) (.fin neg m e) := by
  obtain ⟨M, E, hmax, hle⟩ := decF_maxCode hf
  obtain ⟨k, j, hn, hv, -, hc⟩ := h.exists_normal hf
  have hlt : j * 2 ^ f.mb + k < 2 ^ (f.width - 1) := hc.trans_lt (Nat.lt_of_succ_lt hf.maxCode_lt)
  have hflush : 0 < m → j * 2 ^ f.mb + k ≠ 0 := fun hm h0 =>
    (magQ_pos hm e).ne' (hv.trans (magQ_eq_zero.mpr (Nat.eq_zero_of_add_eq_zero_left h0)))
  have hcvt : cvtF f true rm (.fin neg m e) = { code := f.sign neg + (j * 2 ^ f.mb + k) } := by
    simp only [cvtF, hmax, leMag_iff.mpr (hle _ h), roundRat_exact rm neg hn hv hc, f.sign_add_mod neg hlt]
    simpa using hflush
  rw [hcvt]
  refine Cvt.keeps_code (f.sign_add_lt neg hlt) ?_
  rw [decF_sign_add hf neg hlt, valOf_fin hf neg hn hc]
  exact sameVal_fin.mpr ⟨rfl, hv.symm⟩

theorem cvtF_kept {f : FFmt} (hf : f.Ieee) (rm : RMode) {v : Val} (h : f.HasVal v) : (cvtF f true rm v).Keeps f.width (decF f) v := by
  cases v with
  | nan => exact cvtF_nan_kept hf rm
  | inf neg => exact cvtF_inf_kept hf rm neg
  | fin neg m e => exact cvtF_fin_kept hf rm neg h

theorem decElem_flt {x : Elem} {f : FFmt} (hx : f ∈ x.flt) (c : Nat) : decElem x c = decF f c := by
  simp only [decElem, Option.mem_def.mp hx]

theorem cvtPlain_flt {y : Elem} {f : FFmt} (hy : f ∈ y.flt) (rm : RMode) (v : Val) : cvtPlain y rm v = cvtF f true rm v := by
  simp only [cvtPlain, Option.mem_def.mp hy]

theorem cvtPlain_flt_kept {y : Elem} {f : FFmt} (hy : f ∈ y.flt) (hw : f.width = y.width) (hf : f.Ieee) (rm : RMode) {v : Val}
    (h : f.HasVal v) : (cvtPlain y rm v).Keeps y.width (decElem y) v := by
  have hdec : decElem y = decF f := funext fun c => decElem_flt hy c
  rw [cvtPlain_flt hy, hdec, ← hw]
  exact cvtF_kept hf rm h

/-! ### The values of the source formats. -/

theorem valOf_hasVal {f : FFmt} (hf : f.Ieee) (neg : Bool) {c : Nat} (hc : c / 2 ^ f.mb < 2 ^ f.eb) : f.HasVal (f.valOf neg c) := by
  have hm : c % 2 ^ f.mb < 2 ^ f.mb := Nat.mod_lt _ (by positivity)
  have hthree := hf.three_lt_pow
  rw [FFmt.valOf]
  generalize c / 2 ^ f.mb = ex at *
  split
  · split <;> trivial
  · split
    · exact holds_magQ hm (Nat.le_succ _) le_rfl (by rw [FFmt.top, FFmt.q0]; omega)
    · exact holds_magQ (n := f.mb + 1) (by rw [pow_succ]; omega) le_rfl (by omega) (by rw [FFmt.top, FFmt.q0]; omega)

theorem decF_hasVal {f : FFmt} (hf : f.Ieee) (c : Nat) : f.HasVal (decF f c) := by
  rw [decF_eq_valOf hf]
  refine valOf_hasVal hf _ ?_
  rw [Nat.div_lt_iff_lt_mul (by positivity), ← f.pow_width_pred]
  exact Nat.mod_lt _ (by positivity)

/-- Every magnitude of the first layout is one of the second. -/
abbrev FFmt.Within (g f : FFmt) : Prop := g.mb ≤ f.mb ∧ f.q0 ≤ g.q0 ∧ g.top ≤ f.top

theorem FFmt.Holds.mono {g f : FFmt} (hgf : g.Within f) {x : ℚ} (h : g.Holds x) : f.Holds x := by
  obtain ⟨hmb, hq0, htop⟩ := hgf
  obtain ⟨k, e, hx, hk, he, ht⟩ := h
  exact ⟨k, e, hx, hk.trans_le (Nat.pow_le_pow_right two_pos (by omega)), hq0.trans he,
    ht.trans_le (zpow_le_zpow_right₀ one_le_two htop)⟩

theorem FFmt.HasVal.mono {g f : FFmt} (hgf : g.Within f) {v : Val} (h : g.HasVal v) : f.HasVal v := by
  cases v with
  | nan | inf _ => trivial
  | fin neg m e => exact FFmt.Holds.mono hgf h

/-- The integers of w bits. -/
abbrev InRange (w : Nat) (i : Int) : Prop := -(2 ^ (w - 1) : Nat) ≤ i ∧ i < (2 ^ (w - 1) : Nat)

theorem toInt_inRange {w : Nat} (hw : 0 < w) (c : Nat) : InRange w (toInt w c) := by
  have hlt : c % 2 ^ w < 2 ^ w := Nat.mod_lt _ (by positivity)
  have hpow : 2 * 2 ^ (w - 1) = 2 ^ w := mul_pow_sub_one hw.ne' 2
  unfold toInt InRange
  split <;> omega

theorem ofInt_lt (w : Nat) (i : Int) : ofInt w i < 2 ^ w := by
  have hpos : 0 < 2 ^ w := by positivity
  have hlt := Int.emod_lt_of_pos i (Int.natCast_pos.mpr hpos)
  unfold ofInt
  omega

theorem toInt_ofInt {w : Nat} (hw : 0 < w) {i : Int} (hi : InRange w i) : toInt w (ofInt w i) = i := by
  have hpow : 2 * 2 ^ (w - 1) = 2 ^ w := mul_pow_sub_one hw.ne' 2
  obtain ⟨hlo, hhi⟩ := hi
  rw [toInt, Nat.mod_eq_of_lt (ofInt_lt w i), ofInt]
  rcases Int.lt_or_le i 0 with hneg | hpos
  · have hmod : i % (2 ^ w : Nat) = i + (2 ^ w : Nat) := by
      rw [← Int.add_emod_right, Int.emod_eq_of_lt (by omega) (by omega)]
    rw [hmod, if_neg (by omega)]
    omega
  · rw [Int.emod_eq_of_lt hpos (by omega), if_pos (by omega)]
    omega

/-- The two's-complement formats of R82's exact conversions. -/
abbrev Elem.IsInt (x : Elem) : Prop := x = .int32 ∨ x = .int16 ∨ x = .int8

theorem decElem_int {x : Elem} (hx : x.IsInt) (c : Nat) : decElem x c = ofI (toInt x.width c) := by
  rcases hx with rfl | rfl | rfl <;> rfl

theorem width_pos (x : Elem) : 0 < x.width := by cases x <;> decide

/-- An integer of a layout's precision is one of its values. -/
theorem ofI_hasVal {f : FFmt} {w : Nat} {i : Int} (hw : 0 < w) (hi : InRange w i) (hmb : w ≤ f.mb + 1) (hq0 : f.q0 ≤ 0) (htop : w ≤ f.top) :
    f.HasVal (ofI i) := by
  have hpow : 2 * 2 ^ (w - 1) = 2 ^ w := mul_pow_sub_one hw.ne' 2
  have hpos : 0 < 2 ^ (w - 1) := by positivity
  exact holds_magQ (n := w) (by omega) hmb hq0 (by omega)

theorem decElem_e8m0 (c : Nat) : decElem .e8m0 c = if c = 255 then .nan else .fin false 1 ((c : Int) - 127) := rfl

/-- R70: the powers of two of E8M0. -/
theorem e8m0_hasVal {f : FFmt} {c : Nat} (hc : c < 256) (hq0 : f.q0 ≤ -127) (htop : 128 ≤ f.top) : f.HasVal (decElem .e8m0 c) := by
  rw [decElem_e8m0]
  split
  · trivial
  · exact holds_magQ (n := 1) (by decide) (by omega) (by omega) (by push_cast; omega)

/-! ### Conversions to the integers and to E8M0. -/

theorem cvtPlain_int {y : Elem} (hy : y.IsInt) (rm : RMode) (i : Int) :
    cvtPlain y rm (ofI i) = cvtI y.width (2 ^ (y.width - 1)) (2 ^ (y.width - 1) - 1) rm (decide (i < 0)) i.natAbs 1 := by
  rcases hy with rfl | rfl | rfl <;> simp [cvtPlain, ofI, inUnits, Elem.flt]

/-- An integer within the destination's range converts to its own code. -/
theorem cvtI_exact {w : Nat} (rm : RMode) {i : Int} (hi : InRange w i) :
    cvtI w (2 ^ (w - 1)) (2 ^ (w - 1) - 1) rm (decide (i < 0)) i.natAbs 1 = { code := ofInt w i } := by
  have hpos : 0 < 2 ^ (w - 1) := by positivity
  have hround : roundQ rm (decide (i < 0)) i.natAbs 1 = i.natAbs := by simpa using roundQ_exact rm (decide (i < 0)) i.natAbs one_pos
  have hval : (if decide (i < 0) = true then -(i.natAbs : Int) else i.natAbs) = i := by
    simp only [decide_eq_true_iff]
    split <;> omega
  have hlim : ¬ (if decide (i < 0) = true then 2 ^ (w - 1) else 2 ^ (w - 1) - 1) * 1 < i.natAbs := by
    simp only [decide_eq_true_iff]
    split <;> omega
  simp only [cvtI, if_neg hlim, hround, hval]
  simp

theorem cvtPlain_int_kept {y : Elem} (hy : y.IsInt) (rm : RMode) {i : Int} (hi : InRange y.width i) :
    (cvtPlain y rm (ofI i)).Keeps y.width (decElem y) (ofI i) := by
  rw [cvtPlain_int hy, cvtI_exact rm hi]
  refine Cvt.keeps_code (ofInt_lt _ _) ?_
  rw [decElem_int hy, toInt_ofInt (width_pos y) hi]
  exact SameVal.refl _

/-- R86: the exponent of an E8M0 value is its code's. -/
theorem cvtE8m0_decElem {c : Nat} (hc : c < 256) : cvtE8m0 (decElem .e8m0 c) = { code := c } := by
  rw [decElem_e8m0]
  split
  case isTrue h => rw [h]; rfl
  case isFalse h =>
    have hlog : flog2 1 1 ((c : Int) - 127) = (c : Int) - 127 := (flog2_one one_pos _).trans (Int.zero_add _)
    simp only [cvtE8m0, hlog]
    rw [if_neg (by decide), if_neg (by omega), if_neg (by omega)]
    congr 1
    omega

theorem cvtPlain_e8m0_kept (rm : RMode) {c : Nat} (hc : c < 256) :
    (cvtPlain .e8m0 rm (decElem .e8m0 c)).Keeps 8 (decElem .e8m0) (decElem .e8m0 c) := by
  have hcvt : cvtPlain .e8m0 rm (decElem .e8m0 c) = { code := c } := cvtE8m0_decElem hc
  rw [hcvt]
  exact Cvt.keeps_code hc (SameVal.refl _)

/-! ### The table of exact conversions (R82). -/

/-- The source formats all of whose values a layout has. -/
abbrev Elem.Embeds (x : Elem) (f : FFmt) : Prop :=
  (∃ g ∈ x.flt, g ∈ ieeeLayouts ∧ g.Within f) ∨ (x.IsInt ∧ x.width ≤ f.mb + 1 ∧ f.q0 ≤ 0 ∧ x.width ≤ f.top) ∨
    (x = .e8m0 ∧ f.q0 ≤ -127 ∧ 128 ≤ f.top)

theorem Elem.Embeds.hasVal {x : Elem} {f : FFmt} (h : x.Embeds f) {c : Nat} (hc : c < 2 ^ x.width) : f.HasVal (decElem x c) := by
  rcases h with ⟨g, hg, hgl, hwithin⟩ | ⟨hint, hmb, hq0, htop⟩ | ⟨rfl, hq0, htop⟩
  · rw [decElem_flt hg]
    exact (decF_hasVal (ieee_of_mem hgl) c).mono hwithin
  · rw [decElem_int hint]
    exact ofI_hasVal (width_pos x) (toInt_inRange (width_pos x) c) hmb hq0 htop
  · exact e8m0_hasVal hc hq0 htop

/-- R82: an exact conversion embeds the source in a layout, widens an integer, or keeps an E8M0 code. -/
theorem exactPairs_cases {x y : Elem} (h : (x, y) ∈ exactPairs) :
    (∃ f ∈ y.flt, f.width = y.width ∧ f ∈ ieeeLayouts ∧ x.Embeds f) ∨ (x.IsInt ∧ y.IsInt ∧ x.width ≤ y.width) ∨
      (x = .e8m0 ∧ y = .e8m0) := by
  have hall : ∀ p ∈ exactPairs, (∃ f ∈ p.2.flt, f.width = p.2.width ∧ f ∈ ieeeLayouts ∧ p.1.Embeds f) ∨
      (p.1.IsInt ∧ p.2.IsInt ∧ p.1.width ≤ p.2.width) ∨ (p.1 = .e8m0 ∧ p.2 = .e8m0) := by decide
  exact hall (x, y) h

/-- Settles O55: by the three kinds of exact conversions. -/
theorem exactConversionsKeepTheValue : Obligations.ExactConversionsKeepTheValue := by
  intro x y c rm hxy hc
  rcases exactPairs_cases hxy with ⟨f, hf, hw, hfl, hx⟩ | ⟨hx, hy, hw⟩ | ⟨rfl, rfl⟩
  · exact cvtPlain_flt_kept hf hw (ieee_of_mem hfl) rm (hx.hasVal hc)
  · rw [decElem_int hx]
    obtain ⟨hlo, hhi⟩ := toInt_inRange (width_pos x) c
    have hle : 2 ^ (x.width - 1) ≤ 2 ^ (y.width - 1) := Nat.pow_le_pow_right two_pos (by omega)
    exact cvtPlain_int_kept hy rm ⟨by omega, by omega⟩
  · exact cvtPlain_e8m0_kept rm hc

end Sys2Proof.Machine
end

section
/-! RUN of the table engines and of the thread-group unit checks their sizing fields (R56, R124, R155, R224). -/

namespace Sys2Proof.Machine

/-! ### Errors that do not stop the block. -/

section
variable {s : State} {p : Page} {e : Err}

/-- What RUN reads and leaves: the states of the pages, and what they depend on. -/
def runKey (k : Nat) : Prop := (∃ p : Page, k = hdrState.key p) ∨ ∃ b, k = issArrays.key (.issue b)

theorem raiseKeys_not_runKey (p : Page) : ∀ k ∈ raiseKeys p, ¬ runKey k := by
  have hoff : ∀ {r : Row} (q : Page), r.off * 8 + r.lsb < 32768 ∧ r.off * 8 + r.lsb ∉ [160, 2048] → ¬ runKey (r.key q) := by
    rintro r q ⟨hr, hn⟩ (⟨p', he⟩ | ⟨b, he⟩) <;> exact hn (by rw [← key_mod q r hr, he, key_mod _ _ (by decide)]; decide)
  intro k hk
  simp only [raiseKeys, errKeys, logKeys, List.mem_append, List.mem_cons, List.not_mem_nil, or_false] at hk
  rcases hk with (rfl | rfl | rfl | rfl) | rfl | rfl | rfl | rfl | rfl | rfl <;> exact hoff _ (by decide)

/-- R55: an error that does not stop the block leaves the page in its state. -/
theorem pgState_raise (hs : Rising s.regs) (he : e.stop = false) (q : Page) : pgState (raise s p e) q = pgState s q :=
  have honly := raise_errors s p e he
  RegsKept.pgState_eq (.raise (.refl s) he (raiseKeys_not_runKey p)) hs (held_congr honly.mg honly.power) honly.fuses (.inl ⟨q, rfl⟩)
    fun b => .inr ⟨b, rfl⟩

/-- R62: an error clears no error bit of its page. -/
theorem bitOf_raise_mono (hs : Rising s.regs) (hp : p ≠ .hub) (h0 : pgState s p ≠ 0) (he : e.stop = false) (hb : e.bit < 32) {i : Nat}
    (hi : bitOf (rd s p hdrErr) i = true) : bitOf (rd (raise s p e) p hdrErr) i = true := by
  by_cases hset : bitOf (rd s p hdrErr) e.bit = true
  · have hsame : raise s p e = s := by
      unfold raise
      simp only [h0, hset, he, if_false, if_true, Bool.false_eq_true]
    rwa [hsame]
  · obtain ⟨addr, sev, va, hraise⟩ := raise_new h0 he (Bool.eq_false_iff.mpr hset)
    have hlog := hdr_not_logKeys hp (r := hdrErr) (by decide) (by decide)
    rw [hraise, logWrite_fields _ _ _ _ _ _ _ (captureErr_rising s p e hs) p hdrErr hlog, rd_captureErr_err hs p e hb, bitOf_setBit_other]
    · exact hi
    · rintro rfl
      exact hset hi
end

/-! ### RUN refused (R56). -/

/-- R56: RUN raises CFG_ZERO or CFG_RANGE where the checks found it. -/
def runRaise (p : Page) (l : List (Nat × Nat)) (s : State) (bit : Nat) : State :=
  match lowestOf l bit with
  | some o => raise s p { bit := bit, detail := o }
  | none => s

theorem runRefuse_eq (s : State) (p : Page) (l : List (Nat × Nat)) :
    runRefuse s p l = runRaise p l (runRaise p l s 1) 2 ∨ runRefuse s p l = runRaise p l (runRaise p l s 2) 1 :=
  (ite_eq_or_eq ..).imp id id

theorem lowestOf_ne_none {l : List (Nat × Nat)} {bit o : Nat} (h : (bit, o) ∈ l) : lowestOf l bit ≠ none := by
  have hmem : o ∈ (l.filter (fun x => x.1 == bit)).map (·.2) := List.mem_map.mpr ⟨(bit, o), List.mem_filter.mpr ⟨h, beq_self_eq_true bit⟩, rfl⟩
  unfold lowestOf
  split
  · rename_i hnil
    rw [hnil] at hmem
    cases hmem
  · exact Option.some_ne_none _

section
variable {s : State} {p : Page} {l : List (Nat × Nat)} {bit : Nat}

theorem runRaise_rising (hs : Rising s.regs) : Rising (runRaise p l s bit).regs := by
  unfold runRaise
  split
  exacts [raise_rising s p _ rfl hs, hs]

theorem pgState_runRaise (hs : Rising s.regs) (q : Page) : pgState (runRaise p l s bit) q = pgState s q := by
  unfold runRaise
  split
  exacts [pgState_raise hs rfl q, rfl]

theorem bitOf_runRaise_mono (hs : Rising s.regs) (hp : p ≠ .hub) (h0 : pgState s p ≠ 0) (hb : bit < 32) {i : Nat}
    (hi : bitOf (rd s p hdrErr) i = true) : bitOf (rd (runRaise p l s bit) p hdrErr) i = true := by
  unfold runRaise
  split
  exacts [bitOf_raise_mono hs hp h0 rfl hb hi, hi]

theorem bitOf_runRaise_same (hs : Rising s.regs) (h0 : pgState s p ≠ 0) (hb : bit < 32) {o : Nat} (h : (bit, o) ∈ l) :
    bitOf (rd (runRaise p l s bit) p hdrErr) bit = true := by
  unfold runRaise
  split
  · exact raise_bit s p _ rfl hs h0 hb
  · rename_i hnone
    exact absurd hnone (lowestOf_ne_none h)

/-- R56: a refused RUN leaves the page in its state. -/
theorem pgState_runRefuse (hs : Rising s.regs) : pgState (runRefuse s p l) p = pgState s p := by
  rcases runRefuse_eq s p l with h | h <;>
    rw [h, pgState_runRaise (runRaise_rising hs), pgState_runRaise hs]

/-- R56: a refused RUN sets the bit of every check that failed. -/
theorem bitOf_runRefuse (hs : Rising s.regs) (hp : p ≠ .hub) (h0 : pgState s p ≠ 0) {o : Nat} (hbit : bit = 1 ∨ bit = 2) (h : (bit, o) ∈ l) :
    bitOf (rd (runRefuse s p l) p hdrErr) bit = true := by
  have hb : bit < 32 := by omega
  have hfirst : ∀ {j : Nat}, j < 32 → bitOf (rd (runRaise p l (runRaise p l s bit) j) p hdrErr) bit = true := fun hj =>
    bitOf_runRaise_mono (runRaise_rising hs) hp (by rwa [pgState_runRaise hs]) hj (bitOf_runRaise_same hs h0 hb h)
  have hlast : ∀ {j : Nat}, bitOf (rd (runRaise p l (runRaise p l s j) bit) p hdrErr) bit = true := fun {j} =>
    bitOf_runRaise_same (runRaise_rising hs) (by rwa [pgState_runRaise hs]) hb h
  rcases runRefuse_eq s p l with he | he <;> rw [he] <;> rcases hbit with rfl | rfl
  exacts [hfirst (by decide), hlast, hlast, hfirst (by decide)]

/-- R54, R56: RUN of a STOPPED page whose settings are not sound. -/
theorem exec_run_unsound (hr : p.runctl = true) (hst : pgState s p = 2) (hb : rd s p hdrBusy = 0) (hd : dieHeld s (pageDie p) = false)
    (hc : runCheck s p ≠ []) : exec (.run p) s = .next (runRefuse s p (runCheck s p)) := by
  show execRun p s = _
  have hclean := cleaning_idle hb
  unfold execRun
  rw [if_neg (by simp only [hr, hst, hclean, hd, ne_eq, not_true_eq_false, Bool.not_true, Bool.false_eq_true, or_self, not_false_eq_true])]
  split
  · rename_i hnil
    exact absurd hnil hc
  · rfl

/-- R56: RUN of a STOPPED page sets the bit of each check that fails and leaves the page STOPPED; where none fails, it starts the page and leaves
PG_ERR. -/
theorem run_checks (hinv : StateInv s) (hp : p ≠ .hub) (hr : p.runctl = true) (hst : pgState s p = 2) (hb : rd s p hdrBusy = 0)
    (hd : dieHeld s (pageDie p) = false) :
    ∃ t, exec (.run p) s = .next t ∧
      (∀ bit o, bit = 1 ∨ bit = 2 → (bit, o) ∈ runCheck s p → bitOf (rd t p hdrErr) bit = true) ∧
      (runCheck s p ≠ [] → pgState t p = 2) ∧ (runCheck s p = [] → pgState t p = 3 ∧ rd t p hdrErr = rd s p hdrErr) := by
  have hs := hinv.regs_rising
  by_cases hc : runCheck s p = []
  · obtain ⟨t, hexec, hstate, -, hfields, -, -⟩ := run_starts hinv hr hst hb hd hc
    refine ⟨t, hexec, fun bit o _ h => ?_, fun h => absurd hc h, fun _ => ⟨hstate, hfields p hdrErr ?_⟩⟩
    · rw [hc] at h
      cases h
    · simp only [List.mem_cons, List.not_mem_nil, or_false, not_or]
      exact ⟨key_hdr_ne p (by decide) (by decide) (by decide), key_hdr_ne p (by decide) (by decide) (by decide),
        key_hdr_ne p (by decide) (by decide) (by decide)⟩
  · exact ⟨_, exec_run_unsound hr hst hb hd hc, fun bit o hbit h => bitOf_runRefuse hs hp (by rw [hst]; decide) hbit h,
      fun _ => (pgState_runRefuse hs).trans hst, fun h => absurd h hc⟩
end

/-! ### The tables (R124, R155). -/

/-- R124, R155: a table leaves bay store or touches the protected region. -/
theorem tableBad_iff (base n len : Nat) :
    tableBad base n len = true ↔ 0x8000000 < 64 * base + len * n ∨ (0 < len * n ∧ 0x7800000 < 64 * base + len * n) := by
  simp only [tableBad, storeWritable, inStore, inColl, storeSize, collBase, Nat.mul_comm n len, Bool.not_eq_true', Bool.and_eq_false_iff,
    decide_eq_false_iff_not, Bool.not_eq_false', Bool.and_eq_true, decide_eq_true_eq]
  omega

/-- R124, R155: what the checks of a descriptor table find. -/
theorem tableCheck_finds (base n max len : Nat) (hlen : 0 < len) :
    let range := max < n ∨ 0x8000000 < 64 * base + len * n ∨ (0 < n ∧ 0x7800000 < 64 * base + len * n)
    (n = 0 → (1, 0x104) ∈ tableCheck base n max len) ∧ (range → ∃ o, (2, o) ∈ tableCheck base n max len) ∧
      (n ≠ 0 → ¬ range → tableCheck base n max len = []) := by
  have hpos : 0 < len * n ↔ 0 < n := Nat.mul_pos_iff_of_pos_left hlen
  have hbad := tableBad_iff base n len
  rw [hpos] at hbad
  unfold tableCheck
  refine ⟨fun h => by simp [h], fun h => ?_, fun h0 h => ?_⟩
  · by_cases hmax : max < n
    · exact ⟨0x104, by simp [hmax]⟩
    · exact ⟨0x100, by simp [hbad.mpr (h.resolve_left hmax)]⟩
  · obtain ⟨hmax, hin⟩ := not_or.mp h
    rw [if_neg h0, if_neg hmax, if_neg (fun hb => hin (hbad.mp hb))]
    rfl

/-- R124, R155: RUN of a STOPPED page whose settings are a descriptor table. -/
theorem run_table {s : State} {p : Page} (hinv : StateInv s) (hp : p ≠ .hub) (hr : p.runctl = true) (hst : pgState s p = 2) (hb : rd s p hdrBusy = 0)
    (hd : dieHeld s (pageDie p) = false) {base n max len : Nat} (hlen : 0 < len) (hc : runCheck s p = tableCheck base n max len) :
    let range := max < n ∨ 0x8000000 < 64 * base + len * n ∨ (0 < n ∧ 0x7800000 < 64 * base + len * n)
    ∃ t, exec (.run p) s = .next t ∧ (n = 0 → bitOf (rd t p hdrErr) 1 = true) ∧ (range → bitOf (rd t p hdrErr) 2 = true) ∧
      (n = 0 ∨ range → pgState t p = 2) ∧ (¬ n = 0 → ¬ range → pgState t p = 3 ∧ rd t p hdrErr = rd s p hdrErr) := by
  intro range
  obtain ⟨hzero, hrange, hsound⟩ := tableCheck_finds base n max len hlen
  obtain ⟨t, hexec, hbits, hstays, hstarts⟩ := run_checks hinv hp hr hst hb hd
  rw [hc] at hbits hstays hstarts
  refine ⟨t, hexec, fun h => hbits 1 _ (.inl rfl) (hzero h), fun h => ?_, fun h => hstays ?_, fun h0 h => hstarts (hsound h0 h)⟩
  · obtain ⟨o, ho⟩ := hrange h
    exact hbits 2 o (.inr rfl) ho
  · rcases h with h | h
    · exact List.ne_nil_of_mem (hzero h)
    · obtain ⟨o, ho⟩ := hrange h
      exact List.ne_nil_of_mem ho

/-- Settles O51: RUN of an array's, the vector engine's and the thread-group unit's page, each by its checks. -/
theorem runChecksTheSettings : Obligations.RunChecksTheSettings := by
  refine ⟨?_, fun s b hinv hst hb hd => ?_⟩
  · rintro s p hinv (⟨b, a, rfl⟩ | ⟨b, rfl⟩) hst hb hd
    · exact run_table hinv (by simp) rfl hst hb hd (len := 64) (by decide) rfl
    · exact run_table hinv (by simp) rfl hst hb hd (len := 128) (by decide) rfl
  · obtain ⟨t, hexec, hbits, hstays, hstarts⟩ := run_checks hinv (p := .tgu b) (by simp) rfl hst hb hd
    have hcheck : runCheck s (.tgu b) = if rd s (.tgu b) tguBarTimeout = 0 then [(1, 0x100)] else [] := rfl
    refine ⟨t, hexec, fun h => ?_, fun h => hstarts (hcheck.trans (if_neg h))⟩
    rw [hcheck, if_pos h] at hbits hstays
    exact ⟨hbits 1 0x100 (.inl rfl) (by simp), hstays (by simp)⟩

end Sys2Proof.Machine
end

section
/-! The arrays of a bay (R94 to R118): what reads and writes of bay store, errors and completions leave of them, and what an array reads after a change. -/

namespace Sys2Proof.Machine

/-! ### Sparse maps, whatever the order of their keys.

A write of a value other than the default is read back and leaves the other keys, from any map: only an entry taken out lets a later one be found. -/

section
variable {α : Type} {d d' v : α} {m : SMap α} {j k : Nat}

/-- A key found shields the lower ones: what is taken out above it was never reached, and what is taken out below them was passed. -/
theorem mget_merase_apart {e : Nat} (hk : mget d m k ≠ d) (hjk : j ≤ k) (he : e < j ∨ k < e) : mget d' (merase m e) j = mget d' m j := by
  induction m with
  | nil => rfl
  | cons x m ih =>
    obtain ⟨i, w⟩ := x
    have hik : i ≤ k := by
      by_contra hlt
      exact hk (by simp [mget, show k ≠ i by omega, show k < i by omega])
    simp only [merase]
    split
    · subst_vars
      simp [mget, show j ≠ i by omega, show ¬ j < i by omega]
    · split
      · rfl
      · by_cases hji : j ≤ i
        · rcases Nat.lt_or_eq_of_le hji with h | rfl
          · simp [mget, h, show j ≠ i by omega]
          · simp [mget]
        · have hrest : mget d m k ≠ d := by simpa [mget, show k ≠ i by omega, show ¬ k < i by omega] using hk
          simpa [mget, show j ≠ i by omega, show ¬ j < i by omega] using ih hrest

variable [DecidableEq α]

theorem mset_of_ne (h : v ≠ d) (m : SMap α) (k : Nat) : mset d m k v = minsert m k v := if_neg h

theorem mget_mset_listed (h : v ≠ d) : mget d (mset d m k v) k = v := by
  rw [mset_of_ne h]
  exact mget_minsert_same ..

theorem mget_mset_listed_other (h : v ≠ d) (hj : j ≠ k) : mget d' (mset d m k v) j = mget d' m j := by
  rw [mset_of_ne h]
  exact mget_minsert_other _ _ _ _ _ hj

theorem mset_ne_nil (h : v ≠ d) : mset d m k v ≠ [] := fun he => by
  have hv := mget_mset_listed (m := m) (k := k) h
  rw [he] at hv
  exact h hv.symm

theorem mget_mset_apart {e : Nat} {c : α} (hk : mget d m k ≠ d) (hjk : j ≤ k) (he : e < j ∨ k < e) : mget d' (mset c m e v) j = mget d' m j := by
  unfold mset
  split
  · exact mget_merase_apart hk hjk he
  · exact mget_minsert_other _ _ _ _ _ (by omega)
end

/-- R230: a double-bit error not found before is counted and recorded. -/
theorem storeUpset_uncorrectable (s : State) (b : BayId) (w : BitVec 27) :
    storeUpset s b (.uncorrectable w) =
      if mget false (storeOf s b).ue (w.toNat / 64) = true then s
      else raise (satAdd (setStore s b { storeOf s b with ue := mset false (storeOf s b).ue (w.toNat / 64) true }) (.store b) stoUeCount 1) (.store b)
        { bit := 16, addr := some (64 * (w.toNat / 64)) } := rfl

/-! ### The table of an array's descriptors (R95, R123).

MFD_BASE and MFD_COUNT read as before after what SECDED finds, from any register store: MFD_COUNT is not 0, so its field is found. -/

/-- Where MFD_COUNT of array `a` is not 0, it and MFD_BASE have not changed. -/
def TableKept (b : BayId) (a : ArrId) (s t : State) : Prop :=
  rd s (.arr b a) arrMfdCount ≠ 0 → rd t (.arr b a) arrMfdCount = rd s (.arr b a) arrMfdCount ∧ rd t (.arr b a) arrMfdBase = rd s (.arr b a) arrMfdBase

/-- No field of page `q` lies between MFD_BASE and MFD_COUNT of array `a`. -/
def TableApart (b : BayId) (a : ArrId) (q : Page) : Prop :=
  ∀ r : Row, r.off * 8 + r.lsb < 32768 → r.key q < arrMfdBase.key (.arr b a) ∨ arrMfdCount.key (.arr b a) < r.key q

theorem tableApart_hub (b : BayId) (a : ArrId) : TableApart b a .hub := fun r hr => by
  simp only [Row.key, Row.home, Page.slot]
  omega

theorem tableApart_store (b : BayId) (a : ArrId) : TableApart b a (.store b) := fun r hr => by
  simp only [Row.key, Row.home, Page.slot, arrMfdCount]
  omega

section
variable {b : BayId} {a : ArrId} {q : Page} {s t u : State}

theorem TableKept.refl (b : BayId) (a : ArrId) (s : State) : TableKept b a s s := fun _ => ⟨rfl, rfl⟩

theorem TableKept.trans (h1 : TableKept b a s t) (h2 : TableKept b a t u) : TableKept b a s u := fun h0 => by
  obtain ⟨hcount, hbase⟩ := h1 h0
  obtain ⟨hcount', hbase'⟩ := h2 (by rwa [hcount])
  exact ⟨hcount'.trans hcount, hbase'.trans hbase⟩

theorem TableKept.of_regs (hs : TableKept b a s t) (h : u.regs = t.regs) : TableKept b a s u :=
  hs.trans fun _ => ⟨rd_congr h _ _, rd_congr h _ _⟩

theorem TableKept.wr {r : Row} {v : Nat} (hs : TableKept b a s t) (ha : TableApart b a q) (hr : r.off * 8 + r.lsb < 32768 := by decide) :
    TableKept b a s (wr t q r v) := by
  refine hs.trans fun h0 => ?_
  have hfound : mget 0#64 t.regs (arrMfdCount.key (.arr b a)) ≠ 0#64 := fun h => h0 (by
    change (mget 0#64 t.regs (arrMfdCount.key (.arr b a))).toNat % _ = 0
    rw [h]
    rfl)
  have hle : arrMfdBase.key (.arr b a) ≤ arrMfdCount.key (.arr b a) := by
    simp only [Row.key, Row.home, arrMfdBase, arrMfdCount]
    omega
  have hkey := ha r hr
  unfold rd Machine.wr
  rw [mget_mset_apart hfound (Nat.le_refl _) (by omega), mget_mset_apart hfound hle hkey]
  exact ⟨rfl, rfl⟩

theorem TableKept.setEvt (hs : TableKept b a s t) (ha : TableApart b a q) {i : Nat} : TableKept b a s (setEvt t q i) :=
  (hs.wr ha).of_regs (setEvt_regs t q i)

theorem TableKept.captureErr (hs : TableKept b a s t) (ha : TableApart b a q) {e : Err} : TableKept b a s (captureErr t q e) := by
  unfold Machine.captureErr
  extract_lets old x
  split
  · exact (((hs.wr ha).wr ha).wr ha).setEvt ha
  · exact (hs.wr ha).wr ha

theorem TableKept.logWrite (hs : TableKept b a s t) (ha : TableApart b a .hub) {addr src code sev : Nat} {va : Bool} {info : Nat} :
    TableKept b a s (logWrite t addr src code sev va info) := by
  unfold Machine.logWrite
  extract_lets h x e
  have hx : TableKept b a s x := hs.wr ha
  split
  · split
    · exact hx
    · exact (hx.captureErr ha).wr ha
  · have hlog : TableKept b a s { t with log := mset none t.log (h % 256) (some e) } := hs.of_regs rfl
    exact (hlog.wr ha).setEvt ha

theorem TableKept.raise (hs : TableKept b a s t) (ha : TableApart b a q) (hhub : TableApart b a .hub) {e : Err} (he : e.stop = false) :
    TableKept b a s (raise t q e) := by
  unfold Machine.raise
  simp only [he, Bool.false_eq_true, if_false]
  split
  · exact hs
  · split
    · exact hs
    · exact (hs.captureErr ha).logWrite hhub

/-- R230: what SECDED finds reaches STORE and the log, no array's table. -/
theorem storeUpset_table (s : State) (b : BayId) (a : ArrId) (f : Upset) : TableKept b a s (storeUpset s b f) := by
  have hstore := tableApart_store b a
  have hs := TableKept.refl b a s
  cases f with
  | none => exact hs
  | logic => exact hs
  | corrected w =>
    have hcount : TableKept b a s (satAdd s (.store b) stoCeCount 1) := hs.wr hstore
    have haddr : TableKept b a s (wr (satAdd s (.store b) stoCeCount 1) (.store b) stoCeAddr (w.toNat / 8 * 8)) := hcount.wr hstore
    refine TableKept.setEvt ?_ hstore
    exact haddr.of_regs rfl
  | uncorrectable w =>
    rw [storeUpset_uncorrectable]
    split
    · exact hs
    · have hset : TableKept b a s (setStore s b { storeOf s b with ue := mset false (storeOf s b).ue (w.toNat / 64) true }) := hs.of_regs rfl
      exact (hset.wr (r := stoUeCount) hstore).raise hstore (tableApart_hub b a) rfl
end

/-! ### What leaves the arrays of a bay (R226 to R232, R175). -/

/-- If bay `b` lists arrays, they have not changed. -/
structure ArraysKept (b : BayId) (s t : State) : Prop where
  kept : (bayOf s b).arrays ≠ [] → (bayOf t b).arrays = (bayOf s b).arrays

section
variable {b : BayId} {s t u : State}

theorem Bay.ne_default {y : Bay} (h : y.arrays ≠ []) : y ≠ {} := by
  rintro rfl
  exact h rfl

theorem bayOf_setBay_listed {v : Bay} (h : v.arrays ≠ []) : bayOf (setBay s b v) b = v := mget_mset_listed (Bay.ne_default h)

theorem ArraysKept.refl (b : BayId) (s : State) : ArraysKept b s s := ⟨fun _ => rfl⟩

theorem ArraysKept.trans (h1 : ArraysKept b s t) (h2 : ArraysKept b t u) : ArraysKept b s u :=
  ⟨fun h => (h2.kept (by rwa [h1.kept h])).trans (h1.kept h)⟩

theorem ArraysKept.bays (h : ArraysKept b s t) (hb : u.bays = t.bays := by rfl) : ArraysKept b s u :=
  h.trans ⟨fun _ => by rw [bayOf, hb]; rfl⟩

theorem ArraysKept.errors (h : ArraysKept b s t) (he : OnlyErrors t u) : ArraysKept b s u := h.bays he.bays

theorem ArraysKept.setBay (h : ArraysKept b s t) {v : Bay} (hv : v.arrays = (bayOf t b).arrays) : ArraysKept b s (setBay t b v) :=
  h.trans ⟨fun hne => by rw [bayOf_setBay_listed (by rwa [hv]), hv]⟩

theorem ArraysKept.modBay (h : ArraysKept b s t) {f : Bay → Bay} (hf : ∀ y, (f y).arrays = y.arrays := by exact fun _ => rfl) :
    ArraysKept b s (modBay t b f) := h.setBay (hf _)

theorem ArraysKept.foldl {α : Type} {f : State → α → State} {l : List α} (h : ArraysKept b s t) (hf : ∀ s, ∀ x ∈ l, ArraysKept b s (f s x)) :
    ArraysKept b s (l.foldl f t) :=
  List.foldlRecOn l f h fun _ hx x hm => hx.trans (hf _ x hm)

theorem ArraysKept.raiseAt (h : ArraysKept b s t) {p : Page} {bit unit addr : Nat} {va : Bool} (hb : stops bit = false) :
    ArraysKept b s (raiseAt t p bit unit addr va) := h.errors (raise_errors _ _ _ hb)

theorem storeUpset_arrays (b : BayId) (s : State) (f : Upset) : ArraysKept b s (storeUpset s b f) := by
  have hs := ArraysKept.refl b s
  cases f with
  | none => exact hs
  | logic => exact hs
  | corrected w =>
    have hwr : ArraysKept b s (wr (satAdd s (.store b) stoCeCount 1) (.store b) stoCeAddr (w.toNat / 8 * 8)) := hs.bays
    exact hwr.modBay.errors (.of_events (setEvt_events ..))
  | uncorrectable w =>
    rw [storeUpset_uncorrectable]
    split
    · exact hs
    · have hset : ArraysKept b s (setStore s b { storeOf s b with ue := mset false (storeOf s b).ue (w.toNat / 64) true }) := hs.modBay
      exact hset.bays.errors (raise_errors _ _ _ rfl)

theorem logicCheck_arrays (b : BayId) (s : State) (p : Page) (unit : Nat) (f : Upset) : ArraysKept b s (logicCheck s p unit f) := by
  unfold logicCheck
  split
  · exact .errors (.errors (.refl b s) (raise_errors _ _ _ rfl)) (logWrite_errors ..)
  · exact .refl b s

theorem storeRead_arrays (b : BayId) (s : State) (p : Page) (unit addr len : Nat) (chk : Check) (f : Upset) :
    ArraysKept b s (storeRead s b p unit addr len chk f).2.2 := by
  unfold storeRead
  extract_lets x t0 v y bad at_ z w
  have hz : ArraysKept b s z := by
    have hy : ArraysKept b s y := (storeUpset_arrays b s f).modBay
    show ArraysKept b s (if _ then _ else _)
    split
    · exact hy.raiseAt rfl
    · exact hy
  show ArraysKept b s (if _ then _ else _)
  split
  · exact hz
  · exact hz.raiseAt rfl

theorem operandLines_arrays (b : BayId) (s : State) (p : Page) (unit code start stride k : Nat) :
    ArraysKept b s (operandLines s b p unit code start stride k).2.2 := by
  unfold operandLines
  split
  · exact .refl b s
  · exact List.foldlRecOn (motive := fun x : List (List Val) × Bool × State => ArraysKept b s x.2.2) _ _ (.refl b s)
      fun _ hx _ _ => hx.trans (storeRead_arrays ..)

theorem tile_arrays (b : BayId) (s : State) (a : Nat) (o : ArrOp) (fb : Bool) : ArraysKept b s (tile s b a o fb).2.2.2 :=
  (operandLines_arrays ..).trans (operandLines_arrays ..)

theorem storePut_arrays (b : BayId) (s : State) (addr : Nat) (d : List Byte) (poison : Bool) : ArraysKept b s (storePut s b addr d poison) :=
  (ArraysKept.refl b s).modBay.foldl fun t _ _ => (ArraysKept.refl b t).bays

theorem vecOver_arrays (b : BayId) (s : State) (addr n : Nat) : ArraysKept b s (vecOver s b addr n) := by
  unfold vecOver
  extract_lets v note
  split
  · exact .refl b s
  · exact (ArraysKept.refl b s).modBay

theorem storeWrite_arrays (b : BayId) (s : State) (addr : Nat) (d : List Byte) (poison : Bool) : ArraysKept b s (storeWrite s b addr d poison) :=
  (storePut_arrays ..).trans (vecOver_arrays ..)

theorem writeBack_arrays (b : BayId) (s : State) (o : ArrOp) (acc : AccFmt) : ArraysKept b s (writeBack s b o acc).1 := by
  unfold writeBack
  extract_lets d
  split
  · exact .refl b s
  · exact List.foldlRecOn (motive := fun x : State × Nat × Nat => ArraysKept b s x.1) _ _ (.refl b s) fun _ hx _ _ => hx.trans (storeWrite_arrays ..)

theorem writeTsr_arrays (b : BayId) (s : State) (o : ArrOp) (tsr : Nat) : ArraysKept b s (writeTsr s b o tsr) := by
  unfold writeTsr
  extract_lets d cS
  split
  · exact storeWrite_arrays ..
  · exact .refl b s

theorem signal_regs (s : State) (b : BayId) (sig : Nat) : OnlyRegs s (signal s b sig) := by
  unfold signal
  split
  · split
    · exact .wr ..
    · unfold flagSignal
      split <;> exact .wr ..
  · exact .refl s

theorem opDone_arrays (b : BayId) (s : State) (id : Nat) : ArraysKept b s (opDone s b id) := by
  unfold opDone
  split
  · exact .refl b s
  · split
    · exact (ArraysKept.refl b s).modBay.errors (signal_regs ..).errors
    · exact (ArraysKept.refl b s).modBay
end

/-! ### One array (R99, R105). -/

section
variable {b : BayId} {s t : State} {a a' : Nat}

theorem ArrayUnit.ne_default {v : ArrayUnit} (h : v.ops ≠ []) : v ≠ {} := by
  rintro rfl
  exact h rfl

/-- An array that holds something is listed, and so unchanged with the arrays of its bay. -/
theorem ArraysKept.arrOf_eq (h : ArraysKept b s t) (ha : arrOf s b a ≠ {}) : arrOf t b a = arrOf s b a := by
  have hne : (bayOf s b).arrays ≠ [] := fun he => ha (by rw [arrOf, he]; rfl)
  rw [arrOf, h.kept hne, arrOf]

theorem bayOf_setArr {v : ArrayUnit} (hv : v ≠ {}) : bayOf (setArr s b a v) b = { bayOf s b with arrays := mset {} (bayOf s b).arrays a v } :=
  bayOf_setBay_listed (mset_ne_nil hv)

theorem arrOf_setArr_same {v : ArrayUnit} (hv : v ≠ {}) : arrOf (setArr s b a v) b a = v := by
  rw [arrOf, bayOf_setArr hv]
  exact mget_mset_listed hv

theorem arrOf_setArr_other {v : ArrayUnit} (hv : v ≠ {}) (h : a' ≠ a) : arrOf (setArr s b a v) b a' = arrOf s b a' := by
  rw [arrOf, bayOf_setArr hv]
  exact mget_mset_listed_other hv h

theorem arrPage_val (b : BayId) (a : ArrId) : arrPage b a.val = .arr b a := congrArg (Page.arr b) (Fin.ext (Nat.mod_eq_of_lt a.isLt))

/-- A change to an operation held. -/
theorem mem_modArrOp {o : ArrOp} (ho : o ∈ (arrOf s b a).ops) (f : ArrOp → ArrOp) : f o ∈ (arrOf (modArrOp s b a o.id f) b a).ops := by
  have hmem : f o ∈ (arrOf s b a).ops.map (fun x => if x.id == o.id then f x else x) := List.mem_map.mpr ⟨o, ho, if_pos (beq_self_eq_true _)⟩
  unfold modArrOp
  extract_lets v
  rwa [arrOf_setArr_same (ArrayUnit.ne_default (List.ne_nil_of_mem hmem))]

/-- R115, R116: of its array the comparison of the check column changes the count of matches alone. -/
theorem checkCompare_arr (ha : (arrOf s b a).ops ≠ []) (o : ArrOp) (mismatch : Bool) :
    ∃ n, arrOf (checkCompare s b a o mismatch) b a = { arrOf s b a with matches_ := n } := by
  have hset : ∀ {x : State} (n : Nat), arrOf (setArr x b a { arrOf s b a with matches_ := n }) b a = { arrOf s b a with matches_ := n } := fun n =>
    arrOf_setArr_same (ArrayUnit.ne_default ha)
  unfold checkCompare
  extract_lets p c mode v again s1 s2
  split
  · exact ⟨_, rfl⟩
  · split
    · have h1 : ∃ n, arrOf s1 b a = { arrOf s b a with matches_ := n } := by
        change ∃ n, arrOf (if mode = 2 ∨ 2 < mode then s else if again then _ else _) b a = _
        split
        · exact ⟨_, rfl⟩
        · split
          · exact ⟨_, rfl⟩
          · exact ⟨0, hset 0⟩
      obtain ⟨n, hn⟩ := h1
      have hkept : ArraysKept b s1 (raise (setEvt s2 p 16) p { bit := 19, unit := c, detail := o.op.mfd.toNat }) :=
        .errors (.errors (.bays (.refl b s1)) (.of_events (setEvt_events ..))) (raise_errors _ _ _ rfl)
      exact ⟨n, (hkept.arrOf_eq (by rw [hn]; exact ArrayUnit.ne_default ha)).trans hn⟩
    · split
      · split
        · exact ⟨0, hset 0⟩
        · exact ⟨_, hset _⟩
      · exact ⟨_, rfl⟩

/-- R106, R113: at the end of an arithmetic phase the operation holds the tile, its number, its fields and what it was accepted with stay, and of the
array the count of matches alone has changed. -/
theorem arithFinish_eq (ha : (arrOf s b a).ops ≠ []) (o : ArrOp) (f : Upset) (mismatch fb : Bool) :
    ∃ marks poison mm x n, arithFinish s b a o f mismatch fb = ({ o with
        result := (tile (logicCheck (storeUpset s b f) (arrPage b a) (srcUnit o.src) f) b a o fb).1
        satMarks := marks, poison := poison, mismatch := mm }, x) ∧
      arrOf x b a = { arrOf s b a with matches_ := n } := by
  have hkept : ArraysKept b s (tile (logicCheck (storeUpset s b f) (arrPage b a) (srcUnit o.src) f) b a o fb).2.2.2 :=
    ((storeUpset_arrays ..).trans (logicCheck_arrays ..)).trans (tile_arrays ..)
  have heq := hkept.arrOf_eq (ArrayUnit.ne_default ha)
  obtain ⟨n, hn⟩ := checkCompare_arr (by rwa [heq]) o mismatch
  rw [heq] at hn
  exact ⟨_, _, _, _, n, rfl, hn⟩

/-- R99, R113: a completed operation's result is the accumulator, where no later operation has left it already and no FAULT came between, and the
operation has left its array. -/
theorem mmaComplete_leaves {o : ArrOp} (hlate : o.late = false) (hid : (arrOf s b a).accId.all (fun n => decide (n ≤ o.id)) = true) (tsr : Nat)
    (acc : AccFmt) :
    (arrOf (mmaComplete s b a o tsr acc) b a).acc = o.result ∧ ∀ x ∈ (arrOf (mmaComplete s b a o tsr acc) b a).ops, x.id ≠ o.id := by
  have hstays : ¬ (o.late = true ∨ (arrOf s b a).accId.any (fun n => decide (o.id < n)) = true) := by
    rw [hlate]
    cases hacc : (arrOf s b a).accId with
    | none => simp
    | some n => simpa [hacc] using hid
  unfold mmaComplete
  extract_lets p v rest x w
  have hw : arrOf w b a = { v with acc := o.result, accFmt := acc, accPoison := o.poison, accSat := o.satMarks, accId := some o.id, ops := rest } :=
    (congrArg (arrOf · b a) (if_neg hstays)).trans (arrOf_setArr_same fun he => by cases congrArg ArrayUnit.accId he)
  have hdone : ArraysKept b w (opDone (wr w p arrLastTsr tsr) b o.id) := .trans (.bays (.refl b w)) (opDone_arrays ..)
  rw [hdone.arrOf_eq (fun he => by cases congrArg ArrayUnit.accId (hw.symm.trans he)), hw]
  exact ⟨rfl, fun x hx => by simpa using (List.mem_filter.mp hx).2⟩

end

end Sys2Proof.Machine
end

section
/-! Matrix operations (R95 to R118): what an operation leaves in its array as it enters, begins its arithmetic, ends it, is written back and completes;
the check column's modes. -/

namespace Sys2Proof.Machine

/-! ### An operation enters its arrays (R97, R98, R104, R105). -/

/-- Array `a` holds the operation `op` of `src`, its arithmetic not begun. -/
def HoldsIssued (s : State) (b : BayId) (a : Nat) (op : MtxOp) (src : OpSrc) : Prop :=
  ∃ o ∈ (arrOf s b a).ops, o.op = op ∧ o.src = src ∧ o.phase = .issued

section
variable {s t : State} {b : BayId} {a : Nat} {op : MtxOp} {src : OpSrc}

theorem HoldsIssued.kept (h : HoldsIssued s b a op src) (hk : ArraysKept b s t) : HoldsIssued t b a op src := by
  obtain ⟨o, ho, hop⟩ := h
  exact ⟨o, by rwa [hk.arrOf_eq (ArrayUnit.ne_default (List.ne_nil_of_mem ho))], hop⟩

/-- A member's operation is put after those its array holds; what is read and counted before leaves the arrays. -/
theorem mmaEnter_eq (s : State) (b : BayId) (op : MtxOp) (src : OpSrc) (id : Nat) (mfd : List Byte) (poison : Bool) (j : Nat) :
    ∃ t o, ArraysKept b s t ∧ (o.op = op ∧ o.src = src ∧ o.phase = .issued) ∧
      mmaEnter s b op src id mfd poison j =
        setArr t b (op.la.toNat + j) { arrOf t b (op.la.toNat + j) with ops := (arrOf t b (op.la.toNat + j)).ops ++ [o] } := by
  unfold mmaEnter
  extract_lets n p d armed aS bS ra rb x mode col chk y v
  have hra : ArraysKept b s ra.2.2 := by
    change ArraysKept b s (if armed then _ else _ : List Byte × Bool × State).2.2
    split
    exacts [storeRead_arrays .., .refl b s]
  have hrb : ArraysKept b s rb.2.2 := by
    change ArraysKept b s (if armed then _ else _ : List Byte × Bool × State).2.2
    split
    exacts [hra.trans (storeRead_arrays ..), hra]
  have hy : ArraysKept b s y := by
    change ArraysKept b s (if mode = 0 then _ else _)
    split
    exacts [hrb.bays, hrb]
  exact ⟨y, _, hy, ⟨rfl, rfl, rfl⟩, rfl⟩

theorem mmaEnter_holds (s : State) (b : BayId) (op : MtxOp) (src : OpSrc) (id : Nat) (mfd : List Byte) (poison : Bool) (j : Nat) :
    HoldsIssued (mmaEnter s b op src id mfd poison j) b (op.la.toNat + j) op src := by
  obtain ⟨t, o, -, ho, heq⟩ := mmaEnter_eq s b op src id mfd poison j
  have hmem := List.mem_concat_self (a := o) (xs := (arrOf t b (op.la.toNat + j)).ops)
  exact ⟨o, by rwa [heq, arrOf_setArr_same (ArrayUnit.ne_default (List.ne_nil_of_mem hmem))], ho⟩

theorem HoldsIssued.mmaEnter (h : HoldsIssued s b a op src) (id : Nat) (mfd : List Byte) (poison : Bool) (j : Nat) :
    HoldsIssued (mmaEnter s b op src id mfd poison j) b a op src := by
  obtain ⟨t, o, hkept, -, heq⟩ := mmaEnter_eq s b op src id mfd poison j
  have hv : ({ arrOf t b (op.la.toNat + j) with ops := (arrOf t b (op.la.toNat + j)).ops ++ [o] } : ArrayUnit) ≠ {} :=
    ArrayUnit.ne_default (List.ne_nil_of_mem List.mem_concat_self)
  obtain ⟨x, hx, hop⟩ := h.kept hkept
  refine ⟨x, ?_, hop⟩
  rw [heq]
  by_cases ha : a = op.la.toNat + j
  · subst ha
    rw [arrOf_setArr_same hv]
    exact List.mem_append_left _ hx
  · rwa [arrOf_setArr_other hv ha]

/-- The members of a gang enter one after the other. -/
theorem mmaEnters_hold (id : Nat) (mfd : List Byte) (poison : Bool) (l : List Nat) (s : State) :
    ∀ j ∈ l, HoldsIssued (l.foldl (fun s j => mmaEnter s b op src id mfd poison j) s) b (op.la.toNat + j) op src := by
  induction l generalizing s with
  | nil => exact fun j hj => absurd hj List.not_mem_nil
  | cons i l ih =>
    intro j hj
    rcases List.mem_cons.mp hj with rfl | hj
    · exact List.foldlRecOn (motive := fun t => HoldsIssued t b (op.la.toNat + j) op src) l _ (mmaEnter_holds ..) fun _ h k _ => h.mmaEnter ..
    · exact ih _ j hj

/-- R95, R98: the read of an operation's descriptor from the table at `base`. -/
def mfdRead (s : State) (b : BayId) (op : MtxOp) (src : OpSrc) (base : Nat) : List Byte × Bool × State :=
  storeRead s b (arrPage b op.la.toNat) (srcUnit src) (64 * (base + op.mfd.toNat)) 64 .ok .none

/-- R98, R105: an operation that passes its checks enters every array of its gang. -/
theorem mmaIssue_enters {sig : BitVec 8} (hop : op.op = 1) (hstart : op.start ≠ 3) (hkb : op.kb ≠ 0) (hla : op.la.toNat % 2 ^ op.gang.toNat = 0)
    (hmfd : op.mfd.toNat < rd s (arrPage b op.la.toNat) arrMfdCount)
    {base : Nat} (hbase : rd s (arrPage b op.la.toNat) arrMfdBase = base)
    (hcheck : mmaCheck (mfdRead s b op src base).2.2 b op (mfdOf (mfdRead s b op src base).1) = none) :
    ∃ id mfd poison t,
      mmaIssue s b op src sig = (List.range (2 ^ op.gang.toNat)).foldl (fun s j => mmaEnter s b op src id mfd poison j) t := by
  subst hbase
  unfold mmaIssue
  extract_lets p r x
  rw [if_neg (by simp [hop]), if_neg (by simp [hla]), if_neg (by simpa using hstart), if_neg (by simpa using hmfd)]
  have hnone : mmaCheck x b op (mfdOf r.1) = none := hcheck
  rw [hnone]
  exact ⟨_, _, _, _, if_neg hkb⟩

/-- R105, R106: an accepted operation whose checks find nothing. -/
theorem mma_enters {sig : BitVec 8} {f : Upset} (hacc : mmaAccepts s b op = true) (hop : op.op = 1) (hstart : op.start ≠ 3) (hkb : op.kb ≠ 0)
    (hla : op.la.toNat % 2 ^ op.gang.toNat = 0) (hmfd : op.mfd.toNat < rd s (arrPage b op.la.toNat) arrMfdCount)
    {base : Nat} (hbase : rd s (arrPage b op.la.toNat) arrMfdBase = base)
    (hcheck : mmaCheck (mfdRead (storeUpset s b f) b op src base).2.2 b op (mfdOf (mfdRead (storeUpset s b f) b op src base).1) = none) :
    ∃ t, exec (.mma b op src sig f) s = .next t ∧ ∀ a ∈ gangOf op, HoldsIssued t b a op src := by
  obtain ⟨hcount, hkept⟩ := storeUpset_table s b (arrId op.la.toNat) f (Nat.ne_of_gt (Nat.zero_lt_of_lt hmfd))
  obtain ⟨id, mfd, poison, t, hissue⟩ := mmaIssue_enters (sig := sig) hop hstart hkb hla (Nat.lt_of_lt_of_eq hmfd hcount.symm) (hkept.trans hbase) hcheck
  refine ⟨_, congrArg Host.Outcome.next (if_pos hacc), fun a ha => ?_⟩
  obtain ⟨j, hj, rfl⟩ := List.mem_map.mp ha
  rw [hissue, Nat.add_comm]
  exact mmaEnters_hold id mfd poison _ t j hj
end

/-! ### The arithmetic begins (R94, R106). -/

section
variable {s : State} {b : BayId} {a : ArrId} {o : ArrOp} {l : List ArrOp}

theorem find?_phase {ph : ArrPhase} (ho : (arrOf s b a.val).ops = o :: l) (hph : o.phase = ph) :
    (arrOf s b a.val).ops.find? (fun o => o.phase == ph) = some o := by
  rw [ho, List.find?_cons_of_pos (by simp [hph])]

/-- R104: an operation without a gang runs on the array it names. -/
theorem gangOf_single (hla : o.op.la.toNat = a.val) (hgang : o.op.gang = 0) : gangOf o.op = [a.val] := by
  rw [gangOf, hgang, hla]
  simp [rangeFrom]

/-- R106: the first operation held may begin. -/
theorem releasable_first (hgoes : arrGoes s b a.val = true) (ho : (arrOf s b a.val).ops = o :: l) (hph : o.phase = .issued) (hlate : o.late = false) :
    releasable s b a.val o.id = true := by
  simp [releasable, hgoes, ho, hph, hlate]

/-- R94: START 0 starts from zero. -/
theorem startValue_zero (hstart : o.op.start = 0) (acc : AccFmt) : startValue s b a.val o acc = ({ vals := List.replicate 4096 0 }, s) := by
  unfold startValue
  rw [hstart]
  exact (if_neg (by decide)).trans (if_neg (by decide))

/-- R106: the first operation of an array begins its arithmetic. -/
theorem exec_arithStart (hgoes : arrGoes s b a.val = true) (ho : (arrOf s b a.val).ops = o :: l) (hph : o.phase = .issued) (hlate : o.late = false)
    (hla : o.op.la.toNat = a.val) (hgang : o.op.gang = 0) : exec (.arithStart b a) s = .next (arithBegin s b a.val o) := by
  have hall : (gangOf o.op).all (fun m => releasable s b m o.id) = true := by
    simp [gangOf_single hla hgang, releasable_first hgoes ho hph hlate]
  have hfind : (arrOf s b a.val).ops.find? (fun x => x.id == o.id) = some o := by simp [ho]
  change execArithStart b a s = _
  unfold execArithStart
  rw [find?_phase ho hph]
  simp only [hall, if_true]
  simp only [gangOf_single hla hgang, List.foldl_cons, List.foldl_nil, hfind]

theorem arithStart_zero (hgoes : arrGoes s b a.val = true) (ho : (arrOf s b a.val).ops = o :: l) (hph : o.phase = .issued) (hlate : o.late = false)
    (hla : o.op.la.toNat = a.val) (hgang : o.op.gang = 0) (hstart : o.op.start = 0) :
    ∃ t, exec (.arithStart b a) s = .next t ∧
      ∃ o' ∈ (arrOf t b a.val).ops, o'.id = o.id ∧ o'.phase = .arith ∧ o'.start = List.replicate 4096 0 := by
  have hmem : o ∈ (arrOf s b a.val).ops := by rw [ho]; exact List.mem_cons_self
  refine ⟨_, exec_arithStart hgoes ho hph hlate hla hgang, ?_⟩
  unfold arithBegin
  extract_lets acc v
  have hv : v = ({ vals := List.replicate 4096 0 }, s) := startValue_zero hstart acc
  rw [hv]
  exact ⟨_, mem_modArrOp hmem _, rfl, rfl, rfl⟩
end

/-! ### The arithmetic ends; the tile is written back or recomputed (R106, R108, R113). -/

section
variable {s : State} {b : BayId} {a : ArrId} {f : Upset} {o : ArrOp} {l : List ArrOp} (ho : (arrOf s b a.val).ops = o :: l)
include ho

/-- R106: the tile of an operation that writes goes on to its write-back. -/
theorem arithEnd_drains (hph : o.phase = .arith) (hwb : o.op.wb = true) :
    ∃ t, exec (.arithEnd b a f false) s = .next t ∧ ∃ o' ∈ (arrOf t b a.val).ops, o'.id = o.id ∧ o'.phase = .drain ∧
      o'.result = (tile (logicCheck (storeUpset s b f) (arrPage b a.val) (srcUnit o.src) f) b a.val o false).1 := by
  obtain ⟨marks, poison, mm, x, n, heq, harr⟩ := arithFinish_eq (by simp [ho] : (arrOf s b a.val).ops ≠ []) o f false false
  generalize tile (logicCheck (storeUpset s b f) (arrPage b a.val) (srcUnit o.src) f) b a.val o false = c at heq ⊢
  have hmem : o ∈ (arrOf x b a.val).ops := by simp [harr, ho]
  change ∃ t, execArithEnd b a f false s = .next t ∧ _
  unfold execArithEnd
  rw [find?_phase ho hph]
  simp only [heq]
  exact ⟨_, if_pos hwb, _, mem_modArrOp hmem _, rfl, rfl, rfl⟩

/-- R106, R113: the tile of an operation that keeps it, and does not escalate, becomes the accumulator. -/
theorem arithEnd_keeps (hph : o.phase = .arith) (hwb : o.op.wb = false) (hesc : escalates o o.sent = false) (hlate : o.late = false)
    (hid : (arrOf s b a.val).accId.all (fun n => decide (n ≤ o.id)) = true) :
    ∃ t, exec (.arithEnd b a f false) s = .next t ∧
      (arrOf t b a.val).acc = (tile (logicCheck (storeUpset s b f) (arrPage b a.val) (srcUnit o.src) f) b a.val o false).1 ∧
      ∀ o' ∈ (arrOf t b a.val).ops, o'.id ≠ o.id := by
  obtain ⟨marks, poison, mm, x, n, heq, harr⟩ := arithFinish_eq (by simp [ho] : (arrOf s b a.val).ops ≠ []) o f false false
  generalize tile (logicCheck (storeUpset s b f) (arrPage b a.val) (srcUnit o.src) f) b a.val o false = c at heq ⊢
  change ∃ t, execArithEnd b a f false s = .next t ∧ _
  unfold execArithEnd
  rw [find?_phase ho hph]
  simp only [heq]
  exact ⟨_, (if_neg (Bool.eq_false_iff.mp hwb)).trans (if_neg (Bool.eq_false_iff.mp hesc)),
    mmaComplete_leaves (o := { o with result := c.1, satMarks := marks, poison := poison, mismatch := mm, trigger := o.sent }) hlate
      (by rw [harr]; exact hid) _ _⟩

/-- R108, R113: the drained result of an operation without fallbacks becomes the accumulator. -/
theorem drainEnd_completes (hph : o.phase = .drain) (hA : (mfdOf o.mfd).fbA = 0) (hB : (mfdOf o.mfd).fbB = 0) (hlate : o.late = false)
    (hid : (arrOf s b a.val).accId.all (fun n => decide (n ≤ o.id)) = true) :
    ∃ t, exec (.drainEnd b a f) s = .next t ∧ (arrOf t b a.val).acc = o.result ∧ ∀ o' ∈ (arrOf t b a.val).ops, o'.id ≠ o.id := by
  change ∃ t, execDrainEnd b a f s = .next t ∧ _
  unfold execDrainEnd
  rw [find?_phase ho hph]
  simp -zeta only
  extract_lets acc x o1 w n o2 tsr
  have hkept : ArraysKept b s (writeTsr w.1 b o2 tsr) := ((logicCheck_arrays ..).trans (writeBack_arrays ..)).trans (writeTsr_arrays ..)
  have harr := hkept.arrOf_eq (a := a.val) (ArrayUnit.ne_default (by simp [ho]))
  have hesc : escalates o2 n = false := by simp [escalates, o2, o1, hA, hB]
  rw [if_neg (Bool.eq_false_iff.mp hesc)]
  exact ⟨_, rfl, mmaComplete_leaves (o := o2) hlate (by rw [harr]; exact hid) _ _⟩

/-- R113: the recomputed tile of an operation that keeps it becomes the accumulator. -/
theorem recomputeEnd_completes (hph : o.phase = .recompute) (hwb : o.op.wb = false) (hlate : o.late = false)
    (hid : (arrOf s b a.val).accId.all (fun n => decide (n ≤ o.id)) = true) :
    ∃ t, exec (.recomputeEnd b a f false) s = .next t ∧
      (arrOf t b a.val).acc = (tile (logicCheck (storeUpset s b f) (arrPage b a.val) (srcUnit o.src) f) b a.val o true).1 ∧
      ∀ o' ∈ (arrOf t b a.val).ops, o'.id ≠ o.id := by
  obtain ⟨marks, poison, mm, x, n, heq, harr⟩ := arithFinish_eq (by simp [ho] : (arrOf s b a.val).ops ≠ []) o f false true
  generalize tile (logicCheck (storeUpset s b f) (arrPage b a.val) (srcUnit o.src) f) b a.val o true = c at heq ⊢
  change ∃ t, execRecomputeEnd b a f false s = .next t ∧ _
  unfold execRecomputeEnd
  rw [find?_phase ho hph]
  simp only [heq]
  exact ⟨_, if_neg (Bool.eq_false_iff.mp hwb),
    mmaComplete_leaves (o := { o with result := c.1, satMarks := marks, poison := poison, mismatch := mm }) hlate (by rw [harr]; exact hid) _ _⟩
end

/-! ### The check column (R117, R118). -/

section
variable {s : State} {b : BayId} {a : ArrId}

/-- R118: CHECK.EN of a STOPPED array set to 0 puts it in UNCHECKED; of the registers no other changes, and no other bay. -/
theorem checkEnWrite_clears (hinv : StateInv s) (hst : pgState s (.arr b a) = 2) (hen : rd s (.arr b a) arrCheckEn = 1) :
    ∃ t, exec (.checkEnWrite b a false) s = .next t ∧ rd t (.arr b a) arrCheckEn = 0 ∧ rd t (.arr b a) arrCheckMode = 4 ∧
      FieldsBut [arrCheckEn.key (.arr b a), arrCheckMode.key (.arr b a)] s t ∧ OtherBays b s t := by
  have hs := hinv.regs_rising
  have hen' := wr_rising s (.arr b a) arrCheckEn 0 hs
  have hexec : exec (.checkEnWrite b a false) s = .next (setArr (wr (wr s (.arr b a) arrCheckEn 0) (.arr b a) arrCheckMode 4) b a.val
      { arrOf s b a.val with heldMode := BitVec.ofNat 3 (rd s (.arr b a) arrCheckMode) }) := by
    change execCheckEnWrite b a false s = _
    unfold execCheckEnWrite
    simp only [hst]
    unfold checkEnSet
    simp only [arrPage_val, hen]
    rfl
  refine ⟨_, hexec, ?_, ?_, ?_, ?_⟩
  · have hkey : arrCheckEn.key (.arr b a) ≠ arrCheckMode.key (.arr b a) := key_ne_off _ _ (by decide) (by decide) (by decide)
    exact (rd_congr rfl _ _).trans ((rd_wr_other _ (.arr b a) (.arr b a) arrCheckMode arrCheckEn 4 hen' hkey).trans (rd_wr_same _ _ _ _ hs (by decide)))
  · exact (rd_congr rfl _ _).trans (rd_wr_same _ (.arr b a) arrCheckMode 4 hen' (by decide))
  · exact ((FieldsBut.wr s (.arr b a) arrCheckEn 0 hs).trans (.wr _ (.arr b a) arrCheckMode 4 hen')).trans (.of_regs [] rfl)
  · exact modBay_otherBays (s := wr (wr s (.arr b a) arrCheckEn 0) (.arr b a) arrCheckMode 4) hinv.bays_rising b _

/-- R117: a self-test that finds nothing returns the array to CHECK.MODE 0 and stops it. -/
theorem selfTestDone_passes (hinv : StateInv s) (hst : pgState s (.arr b a) = 5) (htest : (arrOf s b a.val).selfTest = true)
    (hheld : ¬ (Page.arr b a).slot ∈ s.heldReset) :
    ∃ t, exec (.selfTestDone b a false false) s = .next t ∧ rd t (.arr b a) arrCheckMode = 0 ∧ pgState t (.arr b a) = 2 ∧
      rd t (.arr b a) hdrBusy = 0 := by
  have hs := hinv.regs_rising
  generalize hx : dropHeld (wr (setArr s b a.val { arrOf s b a.val with selfTest := false, matches_ := 0 }) (.arr b a) arrCheckMode 0) (.arr b a) = x
  have hexec : exec (.selfTestDone b a false false) s = .next (enter x (.arr b a) 2) := by
    change execSelfTestDone b a false false s = _
    unfold execSelfTestDone
    have hcont : s.heldReset.contains (Page.arr b a).slot = false := by simpa using hheld
    simp only [htest, hst, ← hx]
    exact congrArg Host.Outcome.next (if_neg (Bool.eq_false_iff.mp hcont))
  have hwr : x.regs = (wr s (.arr b a) arrCheckMode 0).regs := by rw [← hx]; rfl
  have hxs : Rising x.regs := hwr ▸ wr_rising s (.arr b a) arrCheckMode 0 hs
  have hfields : ∀ {q : Page} {r : Row}, r.off * 8 + r.lsb < 32768 ∧ r.off * 8 + r.lsb ≠ 2113 → rd x q r = rd s q r := fun {q r} hr =>
    (rd_congr hwr q r).trans (rd_wr_other _ _ _ _ _ _ hs (key_ne_off _ _ hr.1 (by decide) hr.2))
  have hstate : pgState x (.arr b a) = 5 := by
    rw [← hst]
    exact pgState_congr (by rw [← hx]; rfl) (by rw [← hx]; rfl) (by rw [← hx]; rfl) (hfields (by decide)) fun _ _ _ => hfields (by decide)
  refine ⟨_, hexec, ?_, enter_pgState x _ 2 hxs (by rw [hstate]; decide), enter_idle hxs (by simp) rfl (by decide) (by decide)⟩
  rw [enter_fields x _ 2 hxs, rd_congr hwr]
  · exact rd_wr_same _ _ _ _ hs (by decide)
  · simp only [List.mem_cons, List.not_mem_nil, or_false, not_or]
    exact ⟨key_ne_off _ _ (by decide) (by decide) (by decide), key_ne_off _ _ (by decide) (by decide) (by decide),
      key_ne_off _ _ (by decide) (by decide) (by decide)⟩
end

/-- Settles O13, phase by phase and mode by mode. -/
theorem matrixOperationsRunThroughTheirPhases : Obligations.MatrixOperationsRunThroughTheirPhases :=
  ⟨fun _ _ _ _ _ _ hacc hop hstart hkb hla hmfd hcheck => mma_enters hacc hop hstart hkb hla hmfd rfl hcheck,
   fun _ _ _ _ _ hgoes ho hph hlate hla hgang hstart => arithStart_zero hgoes ho hph hlate hla hgang hstart,
   fun _ _ _ _ _ _ ho hph hwb => arithEnd_drains ho hph hwb,
   fun _ _ _ _ _ _ ho hph hwb hesc hlate hid => arithEnd_keeps ho hph hwb hesc hlate hid,
   fun _ _ _ _ _ _ ho hph hA hB hlate hid => drainEnd_completes ho hph hA hB hlate hid,
   fun _ _ _ _ _ _ ho hph hwb hlate hid => recomputeEnd_completes ho hph hwb hlate hid,
   fun _ _ _ hinv hst hen => checkEnWrite_clears hinv hst hen,
   fun _ _ _ hinv hst htest hheld => selfTestDone_passes hinv hst htest hheld⟩

end Sys2Proof.Machine
end

section
/-! The vector engine (R127 to R156): what reads and writes of bay store, errors and completions leave of it; what a pass that enters, ends a span and
completes leaves in it. -/

namespace Sys2Proof.Machine

/-! ### What leaves the engine's passes, its table of descriptors and PASS_SEQ. -/

/-- The keys of PASS_SEQ and of the descriptor table's base and count. -/
def vecKey (b : BayId) (k : Nat) : Prop := k = vecPassSeq.key (.vec b) ∨ k = vecVpdBase.key (.vec b) ∨ k = vecVpdCount.key (.vec b)

/-- A field at another place of its page is none of them. -/
theorem not_vecKey_off {b : BayId} {q : Page} {r : Row} (h : r.off * 8 + r.lsb < 32768 ∧ r.off * 8 + r.lsb ∉ [2176, 2054, 2080]) :
    ¬ vecKey b (r.key q) := by
  obtain ⟨hr, hn⟩ := h
  have hm := key_mod q r hr
  rintro (he | he | he) <;> rw [he, key_mod _ _ (by decide)] at hm <;> exact hn (by rw [← hm]; decide)

theorem not_vecKey_page {b : BayId} {q : Page} {r : Row} (hr : r.off * 8 + r.lsb < 32768) (hq : r.home q ≠ .vec b) : ¬ vecKey b (r.key q) := by
  rintro (he | he | he) <;> exact key_ne_page hr (by decide) hq he

/-- R154: the fields of the summary slots lie above them. -/
theorem not_vecKey_slot {b : BayId} {k c lsb width : Nat} {acc : Access} {ret : Bool} {rst : Page → Nat} :
    ¬ vecKey b ((⟨0x200 + 0x40 * k + c, lsb, width, acc, ret, rst⟩ : Row).key (.vec b)) := by
  simp only [vecKey, Row.key, Row.home, vecPassSeq, vecVpdBase, vecVpdCount]
  omega

theorem raiseKeys_not_vecKey (b : BayId) (p : Page) : ∀ k ∈ raiseKeys p, ¬ vecKey b k := by
  simp only [raiseKeys, errKeys, logKeys, List.cons_append, List.nil_append, List.forall_mem_cons, List.not_mem_nil, false_implies, implies_true,
    and_true]
  and_intros <;> exact not_vecKey_off (by decide)

/-- Neither the passes of bay `b`'s vector engine nor its table of descriptors nor PASS_SEQ have changed; the bays stay in canonical order. -/
structure VecKept (b : BayId) (s t : State) : Prop where
  regs : RegsKept (vecKey b) s t
  bays : Rising s.bays → Rising t.bays ∧ (bayOf t b).vec = (bayOf s b).vec

section
variable {b : BayId} {s t u : State}

theorem VecKept.refl (b : BayId) (s : State) : VecKept b s s := ⟨.refl s, fun h => ⟨h, rfl⟩⟩

theorem VecKept.trans (h1 : VecKept b s t) (h2 : VecKept b t u) : VecKept b s u :=
  ⟨h1.regs.trans h2.regs, fun hs => by
    obtain ⟨ht, hst⟩ := h1.bays hs
    obtain ⟨hu, htu⟩ := h2.bays ht
    exact ⟨hu, htu.trans hst⟩⟩

theorem VecKept.only (h : VecKept b s t) (hr : RegsKept (vecKey b) t u) (hb : u.bays = t.bays) : VecKept b s u :=
  h.trans ⟨hr, fun ht => ⟨hb ▸ ht, by rw [bayOf, hb, bayOf]⟩⟩

theorem VecKept.of_eq (hr : t.regs = s.regs := by rfl) (hb : t.bays = s.bays := by rfl) : VecKept b s t := (refl b s).only (.of_regs hr) hb

theorem VecKept.foldl {α : Type} {f : State → α → State} {l : List α} (h : VecKept b s t) (hf : ∀ s, ∀ x ∈ l, VecKept b s (f s x)) :
    VecKept b s (l.foldl f t) :=
  List.foldlRecOn l f h fun _ hx x hm => hx.trans (hf _ x hm)

theorem VecKept.wr (h : VecKept b s t) {q : Page} {r : Row} {v : Nat} (hk : ¬ vecKey b (r.key q) := by exact not_vecKey_off (by decide)) :
    VecKept b s (wr t q r v) :=
  h.only (.wr (.refl t) hk) rfl

theorem VecKept.wrSlot (h : VecKept b s t) {k c lsb width : Nat} {acc : Access} {ret : Bool} {rst : Page → Nat} {v : Nat} :
    VecKept b s (Machine.wr t (.vec b) ⟨0x200 + 0x40 * k + c, lsb, width, acc, ret, rst⟩ v) :=
  h.wr not_vecKey_slot

theorem VecKept.setEvt (h : VecKept b s t) {q : Page} {i : Nat} : VecKept b s (setEvt t q i) :=
  h.only (.setEvt (.refl t) (not_vecKey_off (by decide))) (setEvt_bays t q i)

theorem VecKept.raise (h : VecKept b s t) {q : Page} {e : Err} (he : e.stop = false) : VecKept b s (raise t q e) :=
  h.only (.raise (.refl t) he (raiseKeys_not_vecKey b q)) (raise_errors t q e he).bays

theorem VecKept.modBay (h : VecKept b s t) {f : Bay → Bay} (hf : ∀ y, (f y).vec = y.vec := by exact fun _ => rfl) : VecKept b s (modBay t b f) :=
  h.trans ⟨.of_regs, fun ht => ⟨ht.mset _ _ _, by rw [Machine.modBay, bayOf_setBay_same ht, hf]⟩⟩

theorem storeUpset_vec (b : BayId) (s : State) (f : Upset) : VecKept b s (storeUpset s b f) := by
  have hs := VecKept.refl b s
  cases f with
  | none => exact hs
  | logic => exact hs
  | corrected w =>
    have hwr : VecKept b s (wr (satAdd s (.store b) stoCeCount 1) (.store b) stoCeAddr (w.toNat / 8 * 8)) := hs.wr.wr
    exact hwr.modBay.setEvt
  | uncorrectable w =>
    rw [storeUpset_uncorrectable]
    split
    · exact hs
    · have hset : VecKept b s (setStore s b { storeOf s b with ue := mset false (storeOf s b).ue (w.toNat / 64) true }) := hs.modBay
      exact (hset.wr (not_vecKey_page (by decide) (by simp [Row.home]))).raise rfl

theorem storeRead_vec (b : BayId) (s : State) (p : Page) (unit addr len : Nat) (chk : Check) (f : Upset) :
    VecKept b s (storeRead s b p unit addr len chk f).2.2 := by
  unfold storeRead
  extract_lets x t0 v y bad at_ z w
  have hz : VecKept b s z := by
    have hy : VecKept b s y := (storeUpset_vec b s f).modBay
    show VecKept b s (if _ then _ else _)
    split
    · exact hy.raise rfl
    · exact hy
  show VecKept b s (if _ then _ else _)
  split
  · exact hz
  · exact hz.raise rfl

theorem storePut_vec (b : BayId) (s : State) (addr : Nat) (d : List Byte) (poison : Bool) : VecKept b s (storePut s b addr d poison) :=
  (VecKept.refl b s).modBay.foldl fun _ _ _ => .of_eq

theorem signal_vec (b : BayId) (s : State) (sig : Nat) : VecKept b s (signal s b sig) := by
  have hs := VecKept.refl b s
  unfold signal
  split
  · split
    · refine hs.wr (not_vecKey_page ?_ (by simp [Row.home]))
      simp only [syncCnt]
      omega
    · unfold flagSignal
      split <;> exact hs.wr
  · exact hs

theorem opDone_vec (b : BayId) (s : State) (id : Nat) : VecKept b s (opDone s b id) := by
  have hs := VecKept.refl b s
  unfold opDone
  split
  · exact hs
  · split
    · exact hs.modBay.trans (signal_vec ..)
    · exact hs.modBay

theorem slotWrite_vec (b : BayId) (s : State) (k : Nat) (r : PassRun) (seq : Nat) : VecKept b s (slotWrite s b k r seq) :=
  (VecKept.refl b s).wrSlot.wrSlot.wrSlot.wrSlot.wrSlot.wrSlot.wrSlot.wrSlot.wrSlot.wrSlot.wrSlot.wrSlot

theorem slotFree_vec (b : BayId) (s : State) (k : Nat) : VecKept b s (slotFree s b k) :=
  (VecKept.refl b s).foldl fun s r hr => by
    have hfresh : VecKept b s (fresh s).2 := .of_eq
    simp only [List.mem_cons, List.not_mem_nil, or_false] at hr
    rcases hr with rfl | rfl | rfl | rfl | rfl | rfl | rfl | rfl | rfl <;> exact hfresh.wrSlot

theorem freeBytes_vec (b : BayId) (s : State) (n : Nat) : VecKept b s (freeBytes s n).2 := .of_eq

theorem freeElems_vec (b : BayId) (s : State) (r : PassRun) (k : Nat) (h : Nat × Nat) : VecKept b s (freeElems s b r k h) := by
  unfold freeElems
  split
  · exact .refl b s
  · exact (freeBytes_vec ..).trans (storePut_vec ..)

theorem passUndefined_vec (b : BayId) (s : State) (r : PassRun) : VecKept b s (passUndefined s b r) := by
  unfold passUndefined
  extract_lets l x y
  have hx : VecKept b s x := (VecKept.refl b s).foldl fun s h _ => (freeElems_vec b s r 0 h).trans (freeElems_vec ..)
  have hy : VecKept b s y := hx.foldl fun s k _ => by
    split
    · exact (freeBytes_vec ..).trans (storePut_vec ..)
    · exact .refl b s
  split
  · exact .refl b s
  · split
    · exact hy.trans (slotFree_vec ..)
    · exact hy
end

/-! ### What reads of bay store give (R230, R232). -/

theorem stVerify_bytes (t : Store) (r : Nat) (bad : Bool) : (stVerify t r bad).1.bytes = t.bytes := by
  unfold stVerify
  split
  · rfl
  · dsimp only
    split
    · rfl
    · split <;> rfl

theorem stBytes_congr {t u : Store} (h : u.bytes = t.bytes) (addr len : Nat) : stBytes u addr len = stBytes t addr len := by
  rw [stBytes, h, stBytes]

theorem storeOf_errors {s t : State} (h : OnlyErrors s t) (b : BayId) : storeOf t b = storeOf s b := by rw [storeOf, bayOf, h.bays]; rfl

theorem setStore_bytes {s : State} (hs : Rising s.bays) (b : BayId) (t : Store) : (storeOf (setStore s b t) b).bytes = t.bytes := by
  rw [storeOf, setStore, modBay, bayOf_setBay_same hs]

/-- R230: what SECDED finds leaves the bytes as stored. -/
theorem storeUpset_bytes {s : State} (hs : Rising s.bays) (b : BayId) (f : Upset) :
    (storeOf (storeUpset s b f) b).bytes = (storeOf s b).bytes := by
  cases f with
  | none => rfl
  | logic => rfl
  | corrected w =>
    have hcount : Rising (wr (satAdd s (.store b) stoCeCount 1) (.store b) stoCeAddr (w.toNat / 8 * 8)).bays := hs
    exact (congrArg Store.bytes (storeOf_errors (.of_events (setEvt_events ..)) b)).trans (setStore_bytes hcount b _)
  | uncorrectable w =>
    rw [storeUpset_uncorrectable]
    split
    · rfl
    · exact (congrArg Store.bytes (storeOf_errors ((OnlyErrors.wr ..).trans (raise_errors _ _ _ rfl)) b)).trans (setStore_bytes hs b _)

/-- A read in which SECDED finds nothing gives the bytes stored. -/
theorem storeRead_bytes (s : State) (b : BayId) (p : Page) (unit addr len : Nat) (chk : Check) :
    (storeRead s b p unit addr len chk .none).1 = stBytes (storeOf s b) addr len := by
  unfold storeRead
  extract_lets x t0 v
  have hv : v.1.bytes = t0.bytes :=
    List.foldlRecOn (motive := fun y : Store × Bool => y.1.bytes = t0.bytes) _ _ rfl fun _ hy _ _ => (stVerify_bytes ..).trans hy
  exact stBytes_congr hv addr len

/-! ### A pass enters, starts, runs its spans and completes. -/

section
variable {s : State} {b : BayId}

theorem bayOf_setBay_of_ne {v : Bay} (h : v ≠ {}) : bayOf (setBay s b v) b = v := mget_mset_listed h

theorem bayOf_modBay_running (r : PassRun) :
    bayOf (modBay s b (fun y => { y with vec := { y.vec with running := some r } })) b =
      { bayOf s b with vec := { (bayOf s b).vec with running := some r } } :=
  bayOf_setBay_of_ne fun he => by simpa using congrArg (fun y : Bay => y.vec.running) he

/-- R128, R86: an accepted pass is held with a number of its own and the seed of its issue. -/
theorem pass_enters {op : VecOp} {q : QueueId} {sig : BitVec 8} (h : vecAccepts s b = true) :
    exec (.pass b op q sig) s = .next (passIssue s b op q sig) ∧
    bayOf (passIssue s b op q sig) b = { bayOf s b with
      nextOp := (bayOf s b).nextOp + 1
      ops := (bayOf s b).ops ++ [{ id := (bayOf s b).nextOp, src := .queue q, sig := sig, left := 1 }]
      vec := { (bayOf s b).vec with held := some {
        id := (bayOf s b).nextOp, op := op, src := .queue q, sig := sig, seed := BitVec.ofNat 32 (rd s (.bayCtl b) baySrSeed) } } } := by
  have hnew : bayOf (newOp s b (.queue q) sig 1).2 b = { bayOf s b with
      nextOp := (bayOf s b).nextOp + 1
      ops := (bayOf s b).ops ++ [{ id := (bayOf s b).nextOp, src := .queue q, sig := sig, left := 1 }] } :=
    bayOf_setBay_of_ne fun he => by simpa using congrArg Bay.ops he
  refine ⟨congrArg Host.Outcome.next (if_pos h), ?_⟩
  unfold passIssue modBay
  extract_lets n
  rw [hnew]
  exact bayOf_setBay_of_ne fun he => by simpa using congrArg Bay.ops he

/-- R149, R153: a completed pass leaves the engine, and PASS_SEQ counts it. -/
theorem passFinish_leaves (hr : Rising s.regs) (hb : Rising s.bays) (r : PassRun) :
    (bayOf (passFinish s b r) b).vec = { (bayOf s b).vec with running := none } ∧
    rd (passFinish s b r) (.vec b) vecPassSeq = (rd s (.vec b) vecPassSeq + 1) % 2 ^ 32 := by
  unfold passFinish
  extract_lets p x y z w
  have hx : VecKept b s x := (VecKept.refl b s).foldl fun s k _ => by
    split
    · exact storePut_vec ..
    · exact .refl b s
  have hz : VecKept b y z := by
    show VecKept b y (if _ then _ else _)
    split
    · exact slotWrite_vec ..
    · exact .refl b y
  have hw : VecKept b y w := by
    refine VecKept.trans ?_ (passUndefined_vec ..)
    split
    · exact hz.setEvt
    · exact hz
  have hdone := opDone_vec b (modBay w b (fun v => { v with vec := { v.vec with running := none } })) r.id
  obtain ⟨hxb, hxv⟩ := hx.bays hb
  obtain ⟨hwb, hwv⟩ := hw.bays hxb
  have hyr : Rising y.regs := wr_rising _ _ _ _ (hx.regs.rising hr)
  have hwr : Rising w.regs := hw.regs.rising hyr
  constructor
  · rw [(hdone.bays (hwb.mset _ _ _)).2, modBay, bayOf_setBay_same hwb]
    show { (bayOf w b).vec with running := none } = _
    rw [hwv]
    exact congrArg (fun v : VecUnit => { v with running := none }) hxv
  · calc rd (opDone _ b r.id) (.vec b) vecPassSeq
        = rd w (.vec b) vecPassSeq := hdone.regs.rd_eq hwr (.inl rfl)
      _ = rd y (.vec b) vecPassSeq := hw.regs.rd_eq hyr (.inl rfl)
      _ = (rd x (.vec b) vecPassSeq + 1) % 2 ^ 32 := rd_wr_same _ _ _ _ (hx.regs.rising hr) (by decide)
      _ = (rd s (.vec b) vecPassSeq + 1) % 2 ^ 32 := by rw [hx.regs.rd_eq hr (.inl rfl)]

/-- R128: the state in which the held pass has left its place to start its issue phase. -/
def startedBay (s : State) (b : BayId) : State := setBay s b { bayOf s b with vec := { (bayOf s b).vec with held := none } }

/-- R128 to R132: with no pass running, a held pass without elements whose descriptor is in the table and passes the checks completes at once: but for
what SECDED and the carried checksums find while it reads, it completes from the state in which it is no longer held. -/
theorem passIssueStart_empty (hb : Rising s.bays) (hr : Rising s.regs) {h : PassRun} (u : Upset)
    (hvec : (bayOf s b).vec = { running := none, held := some h }) (hworks : pgWorks s (.vec b) = true) (hop : h.op.op = 1) (hn : h.op.n = 0)
    (hcount : h.op.vpd.toNat < rd s (.vec b) vecVpdCount)
    (hcheck : passCheck (stBytes (storeOf s b) (64 * rd s (.vec b) vecVpdBase + 128 * h.op.vpd.toNat) 128) h.op [] = none) :
    ∃ t r, exec (.passIssueStart b u) s = .next (passFinish t b r) ∧ VecKept b (startedBay s b) t := by
  show ∃ t r, execPassIssueStart b u s = _ ∧ _
  unfold execPassIssueStart
  extract_lets p y v x
  split
  next h' hrun hheld =>
    obtain rfl : h = h' := Option.some.inj ((congrArg VecUnit.held hvec).symm.trans hheld)
    have hx : VecKept b (startedBay s b) x := storeUpset_vec ..
    have hxcount : rd x p vecVpdCount = rd s p vecVpdCount := hx.regs.rd_eq hr (.inr (.inr rfl))
    have hxbase : rd x p vecVpdBase = rd s p vecVpdBase := hx.regs.rd_eq hr (.inr (.inl rfl))
    have hxbytes : (storeOf x b).bytes = (storeOf s b).bytes := by
      refine (storeUpset_bytes (hb.mset _ _ _) b u).trans ?_
      rw [storeOf, bayOf_setBay_same hb, storeOf]
    extract_lets q rd0 d x1 progOk rd1 x2 words r
    have hd : d = stBytes (storeOf s b) (64 * rd s p vecVpdBase + 128 * h.op.vpd.toNat) 128 := by
      rw [← hxbase, ← stBytes_congr hxbytes]
      exact storeRead_bytes ..
    have hprog : progOk = false := by simp [progOk, hn]
    have hwords : words = [] := by simp [words, hprog]
    have hx2 : VecKept b (startedBay s b) x2 := by
      simp only [x2, rd1, hprog]
      exact hx.trans (storeRead_vec ..)
    have hpass : passCheck d h.op (words.map microOf) = none := by rwa [hwords, hd]
    rw [if_neg (by simp [p, hworks]), if_neg (by simp [hop]), if_neg (by rw [hxcount]; exact Nat.not_le.mpr hcount), hpass]
    exact ⟨x2, _, if_pos (.inl hn), hx2⟩
  next hnot => exact (hnot h (congrArg VecUnit.running hvec) (congrArg VecUnit.held hvec)).elim

/-- R139 to R147: the span of a pass without traps ends: the running pass has counted it. -/
theorem spanEnd_counts (u : Upset) {r : PassRun} (hrun : (bayOf s b).vec.running = some r) (hleft : 1024 * r.spans < r.op.n.toNat)
    (htrap : fieldAt r.vpd 7 1 < 16) :
    ∃ t r', exec (.spanEnd b u) s = .next (modBay t b (fun y => { y with vec := { y.vec with running := some r' } })) ∧
      r'.spans = r.spans + 1 ∧ r'.id = r.id ∧ r'.op = r.op := by
  show ∃ t r', execSpanEnd b u s = _ ∧ _
  unfold execSpanEnd
  extract_lets p
  split
  next hnone => exact absurd (hrun.symm.trans hnone) nofun
  next r' hr' =>
    obtain rfl : r = r' := Option.some.inj (hrun.symm.trans hr')
    extract_lets total first n q x fi cl rds rm mk z els fl w trap
    have htrap0 : trap = 0 := Nat.div_eq_of_lt htrap
    rw [if_neg (Nat.not_le.mpr hleft)]
    split
    next i hi => simpa [htrap0] using List.find?_some hi
    next => exact ⟨_, _, rfl, rfl, rfl, rfl⟩

theorem passComplete_finishes {r : PassRun} (hrun : (bayOf s b).vec.running = some r) (hdone : r.op.n.toNat ≤ 1024 * r.spans) :
    exec (.passComplete b) s = .next (passFinish s b r) := by
  show execPassComplete b s = _
  unfold execPassComplete
  rw [hrun]
  exact if_pos hdone
end

/-- Settles O14: entry, the start of an empty pass, the end of a span and completion, each from its lemma. -/
theorem vectorPassesRunAndComplete : Obligations.VectorPassesRunAndComplete := by
  refine ⟨fun s b op q sig hacc => ?enters, fun s b h u hinv hvec hworks hop hn hcount hcheck => ?empty, fun s b u r hrun hleft htrap => ?span,
    fun s b r hinv hrun hdone => ?completes⟩
  case enters =>
    obtain ⟨hexec, hbay⟩ := pass_enters (op := op) (q := q) (sig := sig) hacc
    exact ⟨_, hexec, by rw [hbay], by rw [hbay], by rw [hbay], rfl⟩
  case empty =>
    obtain ⟨t, r, hexec, hkept⟩ := passIssueStart_empty hinv.bays_rising hinv.regs_rising u hvec hworks hop hn hcount hcheck
    have hstart : (bayOf (startedBay s b) b).vec = {} := by rw [startedBay, bayOf_setBay_same hinv.bays_rising, hvec]
    obtain ⟨htb, htv⟩ := hkept.bays (hinv.bays_rising.mset _ _ _)
    obtain ⟨hv, hseq⟩ := passFinish_leaves (hkept.regs.rising hinv.regs_rising) htb r
    refine ⟨_, hexec, by rw [hv, htv, hstart], ?_⟩
    rw [hseq, hkept.regs.rd_eq hinv.regs_rising (.inl rfl)]
    rfl
  case span =>
    obtain ⟨t, r', hexec, hspans, hid, hop⟩ := spanEnd_counts u hrun hleft htrap
    refine ⟨_, hexec, r', ?_, hspans, hid, hop⟩
    rw [bayOf_modBay_running]
  case completes =>
    obtain ⟨hv, hseq⟩ := passFinish_leaves hinv.regs_rising hinv.bays_rising r
    exact ⟨_, passComplete_finishes hrun hdone, by rw [hv], hseq⟩

end Sys2Proof.Machine
end

section
/-! The issue queues of a bay (R161 to R164, R175): what a change within the bay leaves, and what a queue reads after a change. -/

namespace Sys2Proof.Machine

/-! ### Changes within a bay. -/

/-- Of the registers only the fields at the keys `ks` have changed, of the bays only bay `b`; registers, bays and the bay's queues stay in canonical
order. -/
structure InBay (b : BayId) (ks : List Nat) (s t : State) : Prop where
  regs : Rising t.regs
  bays : Rising t.bays
  queues : Rising (bayOf s b).queues → Rising (bayOf t b).queues
  fields : FieldsBut ks s t
  others : OtherBays b s t

theorem bayOf_modBay {s : State} (hs : Rising s.bays) (b : BayId) (f : Bay → Bay) : bayOf (modBay s b f) b = f (bayOf s b) :=
  bayOf_setBay_same hs b _

@[simp] theorem bayOf_wr (s : State) (p : Page) (r : Row) (v : Nat) (b : BayId) : bayOf (wr s p r v) b = bayOf s b := rfl

@[simp] theorem bayOf_setEvt (s : State) (p : Page) (i : Nat) (b : BayId) : bayOf (setEvt s p i) b = bayOf s b := by
  rw [bayOf, setEvt_bays, bayOf]

section
variable {b : BayId} {ks js : List Nat} {s t u : State} {p : Page} {r : Row}

theorem InBay.refl (hr : Rising s.regs) (hb : Rising s.bays) : InBay b [] s s := ⟨hr, hb, id, .refl _ _, fun _ _ => rfl⟩

theorem InBay.of_inv (h : StateInv s) : InBay b [] s s := .refl h.regs_rising h.bays_rising

theorem InBay.trans (h1 : InBay b ks s t) (h2 : InBay b js t u) : InBay b (ks ++ js) s u :=
  ⟨h2.regs, h2.bays, h2.queues ∘ h1.queues, h1.fields.trans h2.fields, fun b' hb => (h2.others b' hb).trans (h1.others b' hb)⟩

theorem InBay.mono (h : InBay b ks s t) (hs : ∀ k ∈ ks, k ∈ js) : InBay b js s t := ⟨h.regs, h.bays, h.queues, h.fields.mono hs, h.others⟩

/-- A field at another key reads as before. -/
theorem InBay.rd_eq (h : InBay b ks s t) (hk : r.key p ∉ ks) : rd t p r = rd s p r := h.fields p r hk

/-- A change of registers alone. -/
theorem InBay.only (h : InBay b ks s t) (hr : Rising u.regs) (hf : FieldsBut js t u) (hb : u.bays = t.bays) : InBay b (ks ++ js) s u :=
  h.trans ⟨hr, hb ▸ h.bays, fun hq => by rwa [bayOf, hb], hf, fun b' _ => by rw [bayOf, hb, bayOf]⟩

theorem InBay.wr (h : InBay b ks s t) {v : Nat} : InBay b (ks ++ [r.key p]) s (wr t p r v) :=
  h.only (wr_rising _ _ _ _ h.regs) (.wr _ _ _ _ h.regs) rfl

theorem InBay.setEvt (h : InBay b ks s t) {i : Nat} : InBay b (ks ++ [hdrEvt.key p]) s (setEvt t p i) :=
  h.only (setEvt_rising _ _ _ h.regs) (setEvt_fields _ _ _ h.regs) (setEvt_bays ..)

theorem InBay.raise (h : InBay b ks s t) {e : Err} (he : e.stop = false) : InBay b (ks ++ raiseKeys p) s (raise t p e) :=
  h.only (raise_rising _ _ _ he h.regs) (raise_fields _ _ _ he h.regs) (raise_errors _ _ _ he).bays

/-- A change of the bay alone. -/
theorem InBay.modBay (h : InBay b ks s t) {f : Bay → Bay} (hf : ∀ y : Bay, Rising y.queues → Rising (f y).queues := by exact fun _ hq => hq) :
    InBay b ks s (modBay t b f) :=
  (h.trans (u := Machine.modBay t b f) (js := [])
    ⟨h.regs, h.bays.mset _ _ _, fun hq => by rw [bayOf_modBay h.bays]; exact hf _ hq, .of_regs _ rfl, modBay_otherBays h.bays b f⟩).mono (by simp)

theorem InBay.setQueue (h : InBay b ks s t) {q : QueueId} {v : IssQueue} : InBay b ks s (setQueue t b q v) :=
  h.modBay fun _ hq => hq.mset _ _ _

theorem InBay.modQueue (h : InBay b ks s t) {q : QueueId} {f : IssQueue → IssQueue} : InBay b ks s (modQueue t b q f) := h.setQueue
end

/-! ### Queues. -/

section
variable {s : State} {b : BayId} {q : QueueId}

theorem bayOf_setQueue (hb : Rising s.bays) (v : IssQueue) :
    bayOf (setQueue s b q v) b = { bayOf s b with queues := mset {} (bayOf s b).queues q.val v } := bayOf_modBay hb b _

theorem queueOf_setQueue (hb : Rising s.bays) (hq : Rising (bayOf s b).queues) (v : IssQueue) : queueOf (setQueue s b q v) b q = v := by
  rw [queueOf, bayOf_setQueue hb]
  exact mget_mset_same _ _ _ _ hq

/-- A queue that holds something is listed, whatever the order of the bay's queues. -/
theorem queueOf_setQueue_of_ne (hb : Rising s.bays) {v : IssQueue} (hv : v ≠ {}) : queueOf (setQueue s b q v) b q = v := by
  rw [queueOf, bayOf_setQueue hb]
  exact mget_mset_listed hv

theorem queueOf_setQueue_other (hb : Rising s.bays) (hq : Rising (bayOf s b).queues) (v : IssQueue) {r : QueueId} (h : r ≠ q) :
    queueOf (setQueue s b q v) b r = queueOf s b r := by
  rw [queueOf, bayOf_setQueue hb]
  exact mget_mset_other _ _ _ _ _ _ (fun he => h (Fin.ext he)) hq

/-- Of bay `b` only the issue queues have changed. -/
def QueuesOnly (b : BayId) (s t : State) : Prop := bayOf t b = { bayOf s b with queues := (bayOf t b).queues }

theorem QueuesOnly.of_bays {t : State} (h : t.bays = s.bays := by rfl) : QueuesOnly b s t := by
  rw [QueuesOnly, show bayOf t b = bayOf s b by rw [bayOf, h, bayOf]]

theorem QueuesOnly.setQueue {t : State} (h : QueuesOnly b s t) (hb : Rising t.bays) (v : IssQueue) : QueuesOnly b s (setQueue t b q v) := by
  rw [QueuesOnly, bayOf_setQueue hb, h]

theorem QueuesOnly.trans {t u : State} (h1 : QueuesOnly b s t) (h2 : QueuesOnly b t u) : QueuesOnly b s u := by
  unfold QueuesOnly at *
  rw [h2, h1]

theorem queueOf_congr {t : State} (h : (bayOf t b).queues = (bayOf s b).queues) : queueOf t b q = queueOf s b q := by rw [queueOf, h, queueOf]

theorem queueOf_modQueue (hb : Rising s.bays) (hq : Rising (bayOf s b).queues) (f : IssQueue → IssQueue) :
    queueOf (modQueue s b q f) b q = f (queueOf s b q) := queueOf_setQueue hb hq _
end

end Sys2Proof.Machine
end

section
/-! Flags and counters of a bay (R167, R175, R192): what a signal, a clear and an addition leave in each of them. -/

namespace Sys2Proof.Machine

/-! ### Bits. -/

theorem bitOf_setBit_eq (v i j : Nat) : bitOf (setBit v i) j = (bitOf v j || j == i) := by
  by_cases h : j = i
  · subst h
    simp [bitOf_setBit]
  · simp [bitOf_setBit_other _ _ _ h, h]

theorem bitOf_clrBit_same (v i : Nat) : bitOf (clrBit v i) i = false := by
  unfold clrBit
  split
  next h =>
    simp only [bitOf, decide_eq_true_eq, decide_eq_false_iff_not] at *
    have hsub : (v - 2 ^ i) / 2 ^ i = v / 2 ^ i - 1 := by simpa using Nat.sub_mul_div v (2 ^ i) 1
    omega
  next h => simpa using h

theorem bitOf_clrBit_other (v : Nat) {i j : Nat} (hj : j ≠ i) : bitOf (clrBit v i) j = bitOf v j := by
  have hback : bitOf v i = true → setBit (clrBit v i) i = v := fun h => by
    have hle : 2 ^ i ≤ v := by
      by_contra hlt
      simp [bitOf, Nat.div_eq_of_lt (Nat.not_le.mp hlt)] at h
    rw [setBit, if_neg (by simp [bitOf_clrBit_same]), clrBit, if_pos h]
    omega
  by_cases h : bitOf v i = true
  · conv_rhs => rw [← hback h]
    exact (bitOf_setBit_other _ _ _ hj).symm
  · rw [clrBit, if_neg h]

theorem bitOf_clrBit_eq (v i j : Nat) : bitOf (clrBit v i) j = (bitOf v j && j != i) := by
  by_cases h : j = i
  · subst h
    simp [bitOf_clrBit_same]
  · simp [bitOf_clrBit_other v h, h]

/-! ### Flags. -/

section
variable {s : State} {b : BayId}

theorem overset_key_ne (b : BayId) : syncOverset.key (.sync b) ≠ syncFlags.key (.sync b) := key_ne_off _ _ (by decide) (by decide) (by decide)

theorem OnlyRegs.flagSignal (s : State) (b : BayId) (i : Nat) : OnlyRegs s (flagSignal s b i) := by
  unfold Machine.flagSignal
  split <;> exact .wr ..

theorem flagSignal_fields (hs : Rising s.regs) (b : BayId) (i : Nat) :
    Rising (flagSignal s b i).regs ∧ FieldsBut [syncFlags.key (.sync b), syncOverset.key (.sync b)] s (flagSignal s b i) := by
  unfold flagSignal
  split <;> exact ⟨wr_rising _ _ _ _ hs, (FieldsBut.wr _ _ _ _ hs).mono (by simp)⟩

/-- R175: a signalled flag is set, the others keep their value. -/
theorem flagIs_flagSignal (hs : Rising s.regs) (i : Nat) {j : Nat} (hj : j < 64) : flagIs (flagSignal s b i) b j = (flagIs s b j || j == i) := by
  unfold flagSignal
  split
  next h =>
    have hkept : flagIs (wr s (.sync b) syncOverset (setBit (rd s (.sync b) syncOverset) i)) b j = flagIs s b j := by
      rw [flagIs, rd_wr_other _ _ _ _ _ _ hs (overset_key_ne b).symm, flagIs]
    rw [hkept]
    by_cases hji : j = i
    · subst hji
      rw [h]
      rfl
    · simp [hji]
  next =>
    rw [flagIs, rd_wr_same _ _ _ _ hs (by decide), bitOf_mod _ _ _ (show j < syncFlags.width from hj), bitOf_setBit_eq, flagIs]

/-- R175: OVERSET marks a signal on a flag that was set. -/
theorem overset_flagSignal (hs : Rising s.regs) (i : Nat) {j : Nat} (hj : j < 64) :
    bitOf (rd (flagSignal s b i) (.sync b) syncOverset) j = (bitOf (rd s (.sync b) syncOverset) j || (j == i && flagIs s b i)) := by
  unfold flagSignal
  split
  next h =>
    rw [rd_wr_same _ _ _ _ hs (by decide), bitOf_mod _ _ _ (show j < syncOverset.width from hj), bitOf_setBit_eq, h, Bool.and_true]
  next h => rw [rd_wr_other _ _ _ _ _ _ hs (overset_key_ne b), Bool.eq_false_iff.mpr h, Bool.and_false, Bool.or_false]

theorem flagIs_flagClear (hs : Rising s.regs) (i : Nat) {j : Nat} (hj : j < 64) : flagIs (flagClear s b i) b j = (flagIs s b j && j != i) := by
  rw [flagIs, flagClear, rd_wr_same _ _ _ _ hs (by decide), bitOf_mod _ _ _ (show j < syncFlags.width from hj), bitOf_clrBit_eq, flagIs]
end

/-! ### Counters. -/

section
variable {s : State} {b : BayId}

theorem cnt_cntSet (hs : Rising s.regs) (n v : Nat) : cnt (cntSet s b n v) b n = v % 2 ^ 32 := rd_wr_same _ _ _ _ hs (show 32 ≤ 64 by decide)

theorem cnt_cntAdd (hs : Rising s.regs) (n v : Nat) : cnt (cntAdd s b n v) b n = (cnt s b n + v) % 2 ^ 32 := cnt_cntSet hs n _
end

end Sys2Proof.Machine
end

section
/-! Words of an issue queue (R163, R174, R178): the check of the head, its retirement, and the issue of the only slot of a word. -/

namespace Sys2Proof.Machine

/-! ### The head is checked. -/

section
variable {s : State} {b : BayId} {q : QueueId} {d : Decoded}

theorem headCheck_nil (h : (queueOf s b q).decoded = []) : headCheck s b q = s := by
  unfold headCheck
  rw [h]

theorem headCheck_checked {l : List Decoded} (h : (queueOf s b q).decoded = d :: l) (hd : d.checked = true) : headCheck s b q = s := by
  unfold headCheck
  rw [h]
  exact if_pos hd

/-- A sound word without a CTL slot is ready to issue. -/
theorem headCheck_plain {l : List Decoded} (h : (queueOf s b q).decoded = d :: l) (hd : d.checked = false) (hbad : d.bad = none)
    (hctl : d.slot 0 = none) (hopen : (List.range 6).any d.open_ = true) :
    headCheck s b q = setQueue s b q { queueOf s b q with decoded := { d with checked := true, opens := none } :: l } := by
  unfold headCheck
  rw [h]
  simp only [hd, hbad, hctl, hopen, Bool.false_eq_true, if_false, if_true]
  rfl

theorem headPump_fixed (h : headCheck s b q = s) : headPump s b q = s := by
  have hstep : (if pgState s (.issue b) = 4 then headCheck s b q else s) = s := by rw [h, ite_self]
  unfold headPump
  exact List.foldlRecOn (motive := (· = s)) _ _ rfl fun t ht _ _ => ht ▸ hstep

theorem headPump_nil (h : (queueOf s b q).decoded = []) : headPump s b q = s := headPump_fixed (headCheck_nil h)

theorem headPump_checked {l : List Decoded} (h : (queueOf s b q).decoded = d :: l) (hd : d.checked = true) : headPump s b q = s :=
  headPump_fixed (headCheck_checked h hd)

/-- Where one check settles the head, the following ones leave it. -/
theorem headPump_once (hst : pgState s (.issue b) = 4) (h : headCheck (headCheck s b q) b q = headCheck s b q) :
    headPump s b q = headCheck s b q := by
  have hfirst : (if pgState s (.issue b) = 4 then headCheck s b q else s) = headCheck s b q := if_pos hst
  have hstep : (if pgState (headCheck s b q) (.issue b) = 4 then headCheck (headCheck s b q) b q else headCheck s b q) = headCheck s b q := by
    rw [h, ite_self]
  unfold headPump
  rw [show List.range 4 = 0 :: [1, 2, 3] from rfl, List.foldl_cons, hfirst]
  exact List.foldlRecOn (motive := (· = headCheck s b q)) _ _ rfl fun t ht _ _ => ht ▸ hstep
end

/-! ### Signals and completions (R175, R185). -/

/-- R167: an absent SIG signals nothing. -/
theorem signal_absent (s : State) (b : BayId) : signal s b 0 = s := rfl

/-- What completes an operation leaves the bay's queues. -/
theorem opDone_queues {s : State} (hb : Rising s.bays) (b : BayId) (id : Nat) :
    Rising (opDone s b id).bays ∧ (bayOf (opDone s b id) b).queues = (bayOf s b).queues := by
  unfold opDone
  split
  · exact ⟨hb, rfl⟩
  · split
    · have hsig := (signal_regs (modBay s b (fun y => { y with ops := y.ops.filter (fun o => o.id != id) })) b ‹Op›.sig.toNat).errors.bays
      rw [bayOf, hsig]
      exact ⟨hb.mset _ _ _, by rw [← bayOf, bayOf_modBay hb]⟩
    · exact ⟨hb.mset _ _ _, by rw [bayOf_modBay hb]⟩

/-! ### The head changes and retires. -/

/-- The head word changed. -/
def onHead (s : State) (b : BayId) (q : QueueId) (f : Decoded → Decoded) : State :=
  modQueue s b q (fun u => { u with decoded := match u.decoded with | d :: r => f d :: r | [] => [] })

theorem InBay.onHead {b : BayId} {ks : List Nat} {s t : State} {q : QueueId} (h : InBay b ks s t) {f : Decoded → Decoded} :
    InBay b ks s (onHead t b q f) := h.modQueue

section
variable {s : State} {b : BayId} {q : QueueId} {d : Decoded}

theorem queueOf_onHead (hb : Rising s.bays) (h : (queueOf s b q).decoded = [d]) (f : Decoded → Decoded) :
    queueOf (onHead s b q f) b q = { queueOf s b q with decoded := [f d] } := by
  unfold onHead modQueue
  simp only [h]
  exact queueOf_setQueue_of_ne hb fun he => by simpa using congrArg IssQueue.decoded he

theorem bayOf_onHead (hb : Rising s.bays) (f : Decoded → Decoded) :
    QueuesOnly b s (onHead s b q f) := .setQueue .of_bays hb _

/-- R178: a frame with words left to issue does not start again. -/
theorem frameLoop_id {u : IssQueue} (h : ∀ f ∈ u.frames.head?, f.off < f.len ∨ f.more = 0) : frameLoop u = u := by
  unfold frameLoop
  split
  next f r hf =>
    have hf' := h f (by simp [hf])
    rw [if_neg (by omega)]
  next => rfl

/-- The sole word of queue `q` in `s` has retired in `t` and left the frames `fr`: QSEQ has counted it, and of the bay only its queues have
changed. -/
structure HeadRetired (b : BayId) (q : QueueId) (fr : List Frame) (s t : State) : Prop where
  step : InBay b [(issQQseq q.val).key (.issue b)] s t
  count : rd t (.issue b) (issQQseq q.val) = (rd s (.issue b) (issQQseq q.val) + 1) % 2 ^ 32
  queue : ∃ snap, queueOf t b q = { queueOf s b q with decoded := [], frames := fr, snapshot := snap }
  bay : QueuesOnly b s t

/-- R163, R177: the sole word at depth 0 retires; the frame that it opens is the only one. -/
theorem headRetire_top (hr : Rising s.regs) (hb : Rising s.bays) (hq : Rising (bayOf s b).queues) (hdec : (queueOf s b q).decoded = [d])
    (hends : d.ends = false) (hfr : (queueOf s b q).frames = []) (hopens : ∀ f ∈ d.opens, f.off < f.len) :
    HeadRetired b q d.opens.toList s (headRetire s b q) := by
  have heq : ∃ snap, headRetire s b q = modQueue (setQueue (wrapAdd s (.issue b) (issQQseq q.val) 1) b q
      { queueOf s b q with decoded := [], frames := d.opens.toList, snapshot := snap }) b q frameLoop := by
    unfold headRetire
    simp only [hdec, hfr, hends, List.isEmpty_nil, if_true, List.append_nil, Bool.false_eq_true, if_false]
    exact ⟨_, rfl⟩
  obtain ⟨snap, heq⟩ := heq
  rw [heq]
  have hcount : InBay b [(issQQseq q.val).key (.issue b)] s (wrapAdd s (.issue b) (issQQseq q.val) 1) := (InBay.refl hr hb).wr
  have hset := hcount.setQueue (q := q) (v := { queueOf s b q with decoded := [], frames := d.opens.toList, snapshot := snap })
  refine ⟨hset.modQueue, rd_wr_same _ _ _ _ hr (show 32 ≤ 64 by decide), ⟨snap, ?_⟩, ?_⟩
  · rw [queueOf_modQueue hset.bays (hset.queues hq), queueOf_setQueue hcount.bays hq]
    refine frameLoop_id fun f hf => .inl (hopens f ?_)
    simpa using hf
  · exact .setQueue (.setQueue .of_bays hcount.bays _) hset.bays _

/-- R178: the end of the innermost frame takes it off the stack. -/
theorem framePop_queue (hb : Rising s.bays) (hq : Rising (bayOf s b).queues) {f : Frame} {r : List Frame} (hfr : (queueOf s b q).frames = f :: r) :
    Rising (framePop s b q).bays ∧ Rising (bayOf (framePop s b q) b).queues ∧
    queueOf (framePop s b q) b q = { queueOf s b q with frames := r } := by
  have heq : framePop s b q = opDone (modQueue s b q (fun u => { u with frames := u.frames.drop 1 })) b f.id := by
    unfold framePop
    simp only [hfr]
  have hb1 : Rising (modQueue s b q (fun u => { u with frames := u.frames.drop 1 })).bays := hb.mset _ _ _
  obtain ⟨hb2, hq2⟩ := opDone_queues hb1 b f.id
  rw [heq]
  refine ⟨hb2, ?_, ?_⟩
  · rw [hq2, modQueue, bayOf_setQueue hb]
    exact hq.mset _ _ _
  · rw [queueOf_congr hq2, queueOf_modQueue hb hq, hfr]
    rfl

/-- R178: the sole word of the outermost frame, which ends it, retires. -/
theorem headRetire_ends (hb : Rising s.bays) (hq : Rising (bayOf s b).queues) (hdec : (queueOf s b q).decoded = [d]) {f : Frame}
    (hends : d.ends = true) (hopens : d.opens = none) (hfr : (queueOf s b q).frames = [f]) :
    (queueOf (headRetire s b q) b q).decoded = [] ∧ (queueOf (headRetire s b q) b q).frames = [] := by
  have heq : headRetire s b q = modQueue (framePop (setQueue s b q { queueOf s b q with decoded := [], frames := [f] }) b q) b q frameLoop := by
    unfold headRetire
    simp [hdec, hfr, hends, hopens]
  have hset := queueOf_setQueue (q := q) hb hq { queueOf s b q with decoded := [], frames := [f] }
  have hq1 : Rising (bayOf (setQueue s b q { queueOf s b q with decoded := [], frames := [f] }) b).queues := by
    rw [bayOf_setQueue hb]
    exact hq.mset _ _ _
  obtain ⟨hb2, hq2, hpop⟩ := framePop_queue (q := q) (hb.mset _ _ _) hq1 (congrArg IssQueue.frames hset)
  rw [heq, queueOf_modQueue hb2 hq2, hpop, hset]
  exact ⟨rfl, rfl⟩
end

/-! ### The only slot of a word issues. -/

/-- The slot's WAIT has been satisfied. -/
def Decoded.took (d : Decoded) (i : Nat) : Decoded := { d with taken := markAt d.taken i }

/-- The slot has issued. -/
def Decoded.issuedAt (d : Decoded) (i : Nat) : Decoded := { d with issued := markAt d.issued i }

/-- The head word's slot `i` has had its WAIT satisfied. -/
abbrev slotWaited (s : State) (b : BayId) (q : QueueId) (i : Nat) : State := onHead s b q (·.took i)

section
variable {s : State} {b : BayId} {q : QueueId} {d d' : Decoded} {i v : Nat}

/-- The slots of a word with slot `i` alone. -/
def soleSlots (i v : Nat) : List (Option Nat) := (List.range 6).map (fun k => if k = i then some v else none)

theorem slot_soleSlots (hd : d.slots = soleSlots i v) (hi : i < 6) (k : Nat) : d.slot k = if k = i then some v else none := by
  rw [Decoded.slot, hd, soleSlots]
  by_cases hk : k < 6
  · simp [hk]
  · simp [show ¬ k = i by omega, hk]

/-- A slot of a word whose other slots are absent has issued: none is left. -/
theorem sole_closed (hd : d.slots = soleSlots i v) (hi : i < 6) : (List.range 6).any (d.issuedAt i).open_ = false := by
  refine List.any_eq_false.mpr fun k hk => ?_
  have hslot : (d.issuedAt i).slot k = if k = i then some v else none := slot_soleSlots hd hi k
  unfold Decoded.open_
  rw [hslot]
  by_cases hki : k = i
  · subst hki
    simp [Decoded.issuedAt, markAt, hi]
  · simp [hki]

/-- R163, R175: the only slot of a checked word, without WAIT, completes its handshake once its engine accepts and no other queue's slot goes before
it; the word retires. -/
theorem slotGo_sole (hst : pgState s (.issue b) = 4) (hdec : (queueOf s b q).decoded = [d]) (hchk : d.checked = true) (hiss : d.issued = [])
    (htk : d.taken = []) (hd : d.slots = soleSlots i v) (hi : i < 6) (hwait : v % 256 = 0)
    (hacc : slotAccepts (slotWaited s b q i) b q i v = true) (hfirst : slotFirst (slotWaited s b q i) b q i d.seq v = true)
    (hdec' : (queueOf (onHead (slotTake (slotWaited s b q i) b q d i v) b q (·.issuedAt i)) b q).decoded = [d'])
    (hdone : (List.range 6).any d'.open_ = false) :
    slotGo s b q i = headPump (headRetire (onHead (slotTake (slotWaited s b q i) b q d i v) b q (·.issuedAt i)) b q) b q := by
  have hslot : d.slot i = some v := by rw [slot_soleSlots hd hi, if_pos rfl]
  have hopen : d.open_ i = true := by simp [Decoded.open_, hslot, hiss]
  have hfree : slotHeld s b d i = false := by simp [slotHeld, waitOk, hslot, hwait, byteV, bitOf]
  have hflag : flagFirst s b q i d.seq (v % 256) = true := by simp [flagFirst, hwait, byteV, bitOf]
  have htake : waitTake s b (v % 256) = s := by rw [hwait]; rfl
  have hv : (d.slot i).getD 0 = v := by rw [hslot]; rfl
  have htaken : d.taken.getD i false = false := by rw [htk]; rfl
  unfold slotGo
  simp only [headPump_checked hdec hchk, hdec, hst, hchk, hopen, hfree, hflag, hv, htaken, htake, Bool.not_true, Bool.not_false, Bool.false_eq_true,
    ne_eq, not_true_eq_false, and_false, or_self, if_false]
  have hgo : ¬ ((!slotAccepts (slotWaited s b q i) b q i v) = true ∨ (!slotFirst (slotWaited s b q i) b q i d.seq v) = true) := by
    simp [hacc, hfirst]
  refine (if_neg hgo).trans ?_
  split
  next x l hx =>
    obtain ⟨rfl, rfl⟩ : x = d' ∧ l = [] := by simpa using hx.symm.trans hdec'
    rw [hdone]
    rfl
  next hx => cases hx.symm.trans hdec'

/-- R163: when the only slot of the sole word at depth 0 has taken effect, in the state `x`, the word retires. -/
theorem slotGo_retires {o o' : Option Frame} {x : State} {ks : List Nat} (hinv : StateInv s) (h : SoleSlot s b q i v o []) (hi : i < 6)
    (hacc : slotAccepts (slotWaited s b q i) b q i v = true)
    (hfirst : ∀ d, (queueOf s b q).decoded = [d] → slotFirst (slotWaited s b q i) b q i d.seq v = true)
    (hx : ∀ d, slotTake (slotWaited s b q i) b q d i v = x) (hstep : InBay b ks s x) (hfr : (queueOf x b q).frames = [])
    (hdec : ∀ d, (queueOf (slotWaited s b q i) b q).decoded = [d] → (queueOf x b q).decoded = [{ d with opens := o' }])
    (ho' : ∀ f ∈ o', f.off < f.len) : HeadRetired b q o'.toList x (slotGo s b q i) := by
  obtain ⟨hst, hq, hv, -, d, hd, hchk, hiss, htk, hends, -, hslots⟩ := h
  have htook := congrArg IssQueue.decoded (queueOf_onHead hinv.bays_rising hd (·.took i))
  have hdecx := hdec _ htook
  have hmark := queueOf_onHead hstep.bays hdecx (·.issuedAt i)
  have hmarked : InBay b [] x (onHead x b q (·.issuedAt i)) := (InBay.refl hstep.regs hstep.bays).onHead
  have hclosed : (List.range 6).any ({ d.took i with opens := o' }.issuedAt i).open_ = false := sole_closed (i := i) (v := v) hslots hi
  have hret := headRetire_top hmarked.regs hmarked.bays (hmarked.queues (hstep.queues hq)) (congrArg IssQueue.decoded hmark) hends
    ((congrArg IssQueue.frames hmark).trans hfr) ho'
  rw [slotGo_sole hst hd hchk hiss htk hslots hi (by omega) hacc (hfirst d hd) (by rw [hx]; exact congrArg IssQueue.decoded hmark) hclosed, hx]
  obtain ⟨hin, hcount, ⟨snap, hqueue⟩, hbay⟩ := hret
  rw [headPump_nil (congrArg IssQueue.decoded hqueue)]
  refine ⟨hmarked.trans hin, hcount, ⟨snap, ?_⟩, (bayOf_onHead hstep.bays _).trans hbay⟩
  rw [hqueue, hmark]
  rfl

/-- The word has retired since `s`, where its slot's effect left QSEQ. -/
theorem HeadRetired.retired {fr : List Frame} {x t : State} {ks : List Nat} (h : HeadRetired b q fr x t) (hx : InBay b ks s x)
    (hk : (issQQseq q.val).key (.issue b) ∉ ks) : Retired s t b q := by
  obtain ⟨-, hcount, ⟨snap, hqueue⟩, -⟩ := h
  exact ⟨congrArg IssQueue.decoded hqueue, by rw [hcount, hx.rd_eq hk]⟩

/-- A command that names the operation of the word's only slot issues that slot. -/
theorem ctlSlot_sole {o : Option Frame} {fr : List Frame} {op : Nat} (h : SoleSlot s b q i v o fr) (hi : i < 6) (hop : bits v 19 16 = op) :
    ctlSlot s b q i op = slotGo s b q i := by
  obtain ⟨-, -, -, -, d, hd, -, -, -, -, -, hslots⟩ := h
  have hslot : d.slot i = some v := by rw [slot_soleSlots hslots hi, if_pos rfl]
  unfold ctlSlot
  simp [hd, hslot, hop]
end

end Sys2Proof.Machine
end

section
/-! The CTL and SYN slots of a long word (R168, R173, R178 to R180, R195). -/

namespace Sys2Proof.Machine

/-! ### The engines of the CTL and SYN slots. -/

section
variable {s : State} {b : BayId} {q : QueueId} {v n : Nat}

/-- R163: a slot that shares its engine with no other queue's slot goes first. -/
theorem slotFirst_of_apart {i : Nat} (h : ∀ w, sameEngine i v w = false) : slotFirst s b q i n v = true := by
  refine List.all_eq_true.mpr fun r _ => ?_
  cases hr : slotOffers s b r i with
  | none => simp
  | some x => simp [h]

theorem slotAccepts_ctl (h : bits v 19 16 ≠ 4) : slotAccepts s b q 0 v = true := by simp [slotAccepts, h]

theorem slotFirst_ctl (h : bits v 19 16 ≠ 4) : slotFirst s b q 0 n v = true := slotFirst_of_apart fun w => by simp [sameEngine, h]

theorem slotFirst_syn : slotFirst s b q 5 n v = true := slotFirst_of_apart fun _ => rfl

/-- The SIG byte of a slot without WAIT and SIG. -/
theorem sig_absent (h : v % 65536 = 0) : bits v 15 8 = 0 := by
  unfold bits
  omega

theorem qseq_lt (q : QueueId) : (issQQseq q.val).off * 8 + (issQQseq q.val).lsb < 32768 := by
  simp only [issQQseq]
  omega

/-- No field of another page lies at QSEQ. -/
theorem qseq_key_ne {p : Page} {r : Row} (hr : r.off * 8 + r.lsb < 32768) (hp : r.home p ≠ .issue b) :
    (issQQseq q.val).key (.issue b) ≠ r.key p := (key_ne_page hr (qseq_lt q) hp).symm

/-- No header or status field of the page before its queues' registers lies at QSEQ. -/
theorem qseq_key_ne_head {p : Page} {r : Row} (hr : r.off * 8 + r.lsb < 0x1000) : (issQQseq q.val).key (.issue b) ≠ r.key p :=
  key_ne_off _ _ (qseq_lt q) (by omega) (by simp only [issQQseq]; omega)

/-- The state in which the only slot's WAIT has been satisfied differs in the queue alone. -/
theorem waited_inBay (hinv : StateInv s) (i : Nat) : InBay b [] s (slotWaited s b q i) := (InBay.of_inv hinv).onHead

/-- What is not a queue of the bay reads as before. -/
theorem QueuesOnly.reads {α : Type} {t : State} (h : QueuesOnly b s t) (f : Bay → α)
    (hf : ∀ y l, f { y with queues := l } = f y := by exact fun _ _ => rfl) : f (bayOf t b) = f (bayOf s b) := by
  rw [h, hf]

/-- A new operation is in flight; else the bay is as it was. -/
theorem InBay.newOp {ks : List Nat} {t : State} (h : InBay b ks s t) {src : OpSrc} {sig : BitVec 8} {left : Nat} :
    InBay b ks s (newOp t b src sig left).2 :=
  h.modBay (f := fun y => { y with nextOp := y.nextOp + 1, ops := y.ops ++ [{ id := y.nextOp, src := src, sig := sig, left := left }] })

theorem bayOf_newOp (hb : Rising s.bays) (src : OpSrc) (sig : BitVec 8) (left : Nat) :
    bayOf (newOp s b src sig left).2 b = { bayOf s b with
      nextOp := (bayOf s b).nextOp + 1
      ops := (bayOf s b).ops ++ [{ id := (bayOf s b).nextOp, src := src, sig := sig, left := left }] } :=
  bayOf_setBay_same hb b _

@[simp] theorem queueOf_newOp (hb : Rising s.bays) (src : OpSrc) (sig : BitVec 8) (left : Nat) :
    queueOf (newOp s b src sig left).2 b q = queueOf s b q :=
  queueOf_congr (by rw [bayOf_newOp hb])

theorem bits_lt (v hi lo : Nat) : bits v hi lo < 2 ^ (hi + 1 - lo) := Nat.mod_lt _ (Nat.two_pow_pos _)

/-- R163: the only slot has taken effect, in the state `x`, with its word and the frames as they stood: the word retires. -/
theorem slotGo_retires_kept {i : Nat} {o : Option Frame} {x : State} {ks : List Nat} (hinv : StateInv s) (h : SoleSlot s b q i v o []) (hi : i < 6)
    (hacc : slotAccepts (slotWaited s b q i) b q i v = true)
    (hfirst : ∀ d, (queueOf s b q).decoded = [d] → slotFirst (slotWaited s b q i) b q i d.seq v = true)
    (hx : ∀ d, slotTake (slotWaited s b q i) b q d i v = x) (hstep : InBay b ks (slotWaited s b q i) x)
    (hfr : (queueOf x b q).frames = (queueOf (slotWaited s b q i) b q).frames)
    (hdec : (queueOf x b q).decoded = (queueOf (slotWaited s b q i) b q).decoded) (ho : ∀ f ∈ o, f.off < f.len) :
    HeadRetired b q o.toList x (slotGo s b q i) := by
  have hwait : InBay b [] s (slotWaited s b q i) := waited_inBay hinv i
  obtain ⟨-, -, -, hnone, d, hd, -, -, -, -, hopens, -⟩ := id h
  have htook := queueOf_onHead hinv.bays_rising hd (·.took i)
  refine slotGo_retires hinv h hi hacc hfirst hx (hwait.trans hstep) ?_ (fun d' hd' => ?_) ho
  · rw [hfr, htook]
    exact hnone
  · have hd'' : d' = d.took i := by simpa [htook] using hd'.symm
    have hkeep : ({ d' with opens := o } : Decoded) = d' := by
      rw [hd'', ← hopens]
      rfl
    rw [hdec, hd', hkeep]
end

/-! ### The SYN slot (R173). -/

section
variable {s x : State} {b : BayId} {q : QueueId} {v : Nat} {ks : List Nat}

/-- The SYN slot's word has retired in `t` and its operation, which left the registers of `x`, changed none but the fields at `ks`. -/
structure SynRetired (b : BayId) (q : QueueId) (ks : List Nat) (s x t : State) : Prop where
  retired : Retired s t b q
  fields : FieldsBut ((issQQseq q.val).key (.issue b) :: ks) s t
  others : OtherBays b s t
  reads : ∀ p r, r.key p ≠ (issQQseq q.val).key (.issue b) → rd t p r = rd x p r

/-- R173: the SYN slot's operation acts on the registers, and the word retires. -/
theorem slotGo_syn (hinv : StateInv s) (h : SoleSlot s b q 5 v none []) (hacc : slotAccepts (slotWaited s b q 5) b q 5 v = true)
    (hx : synGo (slotWaited s b q 5) b v = x) (hr : Rising x.regs) (hf : FieldsBut ks (slotWaited s b q 5) x)
    (hbays : x.bays = (slotWaited s b q 5).bays) (hk : (issQQseq q.val).key (.issue b) ∉ ks) :
    SynRetired b q ks s x (slotGo s b q 5) := by
  have hwait : InBay b [] s (slotWaited s b q 5) := waited_inBay hinv 5
  have hstep : InBay b ks (slotWaited s b q 5) x := (InBay.refl hwait.regs hwait.bays).only hr hf hbays
  have hqueue : queueOf x b q = queueOf (slotWaited s b q 5) b q := queueOf_congr (by rw [bayOf, hbays, bayOf])
  have hret : HeadRetired b q [] x (slotGo s b q 5) := slotGo_retires_kept hinv h (by decide) hacc (fun _ _ => slotFirst_syn) (fun _ => hx) hstep
    (by rw [hqueue]) (by rw [hqueue]) (by simp)
  have hall := (hwait.trans hstep).trans hret.step
  exact ⟨hret.retired (hwait.trans hstep) hk, hall.fields.mono (by simp; tauto), hall.others,
    fun p r hr => hret.step.rd_eq (by simpa using hr)⟩

theorem slotAccepts_syn (h : bits v 19 16 ≠ 5) : slotAccepts s b q 5 v = true := by simp [slotAccepts, h]

theorem syncCnt_lt {n : Nat} (hn : n < 16) : (syncCnt n).off * 8 + (syncCnt n).lsb < 32768 := by
  simp only [syncCnt]
  omega

/-- QSEQ lies on another page than the flags and counters. -/
theorem qseq_sync_ne {r : Row} (hr : r.off * 8 + r.lsb < 32768) : (issQQseq q.val).key (.issue b) ≠ r.key (.sync b) :=
  qseq_key_ne hr (by simp [Row.home])

/-- R173: NOP changes no flag or counter. -/
theorem slotGo_synNop (hinv : StateInv s) (h : SoleSlot s b q 5 v none []) (hop : bits v 19 16 = 0) :
    SynRetired b q [] s (slotWaited s b q 5) (slotGo s b q 5) :=
  slotGo_syn hinv h (slotAccepts_syn (by omega)) (by simp only [synGo, hop, sig_absent h.2.2.1, signal_absent]) hinv.regs_rising (.refl _ _) rfl
    (by simp)

/-- R173: CADD adds to a counter. -/
theorem slotGo_cadd (hinv : StateInv s) (h : SoleSlot s b q 5 v none []) (hop : bits v 19 16 = 1) :
    SynRetired b q [(syncCnt (bits v 23 20)).key (.sync b)] s (cntAdd (slotWaited s b q 5) b (bits v 23 20) (bits v 55 24)) (slotGo s b q 5) :=
  slotGo_syn hinv h (slotAccepts_syn (by omega)) (by simp only [synGo, hop, sig_absent h.2.2.1, signal_absent])
    (wr_rising _ _ _ _ hinv.regs_rising) (.wr _ _ _ _ hinv.regs_rising) rfl (by simpa using qseq_sync_ne (syncCnt_lt (bits_lt v 23 20)))

/-- R173: CSET sets a counter. -/
theorem slotGo_cset (hinv : StateInv s) (h : SoleSlot s b q 5 v none []) (hop : bits v 19 16 = 2) :
    SynRetired b q [(syncCnt (bits v 23 20)).key (.sync b)] s (cntSet (slotWaited s b q 5) b (bits v 23 20) (bits v 55 24)) (slotGo s b q 5) :=
  slotGo_syn hinv h (slotAccepts_syn (by omega)) (by simp only [synGo, hop, sig_absent h.2.2.1, signal_absent])
    (wr_rising _ _ _ _ hinv.regs_rising) (.wr _ _ _ _ hinv.regs_rising) rfl (by simpa using qseq_sync_ne (syncCnt_lt (bits_lt v 23 20)))

/-- R173: FCLR clears a flag. -/
theorem slotGo_fclr (hinv : StateInv s) (h : SoleSlot s b q 5 v none []) (hop : bits v 19 16 = 3) :
    SynRetired b q [syncFlags.key (.sync b)] s (flagClear (slotWaited s b q 5) b (bits v 25 20)) (slotGo s b q 5) :=
  slotGo_syn hinv h (slotAccepts_syn (by omega)) (by simp only [synGo, hop, sig_absent h.2.2.1, signal_absent])
    (wr_rising _ _ _ _ hinv.regs_rising) (.wr _ _ _ _ hinv.regs_rising) rfl (by simpa using qseq_sync_ne (r := syncFlags) (by decide))

/-- R173: FSET signals a flag. -/
theorem slotGo_fset (hinv : StateInv s) (h : SoleSlot s b q 5 v none []) (hop : bits v 19 16 = 4) :
    SynRetired b q [syncFlags.key (.sync b), syncOverset.key (.sync b)] s (flagSignal (slotWaited s b q 5) b (bits v 25 20)) (slotGo s b q 5) := by
  obtain ⟨hr, hf⟩ := flagSignal_fields (s := slotWaited s b q 5) hinv.regs_rising b (bits v 25 20)
  exact slotGo_syn hinv h (slotAccepts_syn (by omega)) (by simp only [synGo, hop, sig_absent h.2.2.1, signal_absent]) hr hf
    (OnlyRegs.flagSignal ..).errors.bays
    (by simpa using ⟨qseq_sync_ne (r := syncFlags) (by decide), qseq_sync_ne (r := syncOverset) (by decide)⟩)

/-- R173: DRAIN accepts once nothing of its queue is in flight. -/
theorem slotGo_drain (hinv : StateInv s) (h : SoleSlot s b q 5 v none []) (hop : bits v 19 16 = 5) (hops : (bayOf s b).ops = []) :
    SynRetired b q [] s (slotWaited s b q 5) (slotGo s b q 5) := by
  have hkept : QueuesOnly b s (slotWaited s b q 5) := bayOf_onHead hinv.bays_rising _
  have hidle : queueBusy (slotWaited s b q 5) b q = false := by
    have hnone : (bayOf (slotWaited s b q 5) b).ops = [] := (hkept.reads (·.ops)).trans hops
    simp [queueBusy, hnone]
  exact slotGo_syn hinv h (by simp [slotAccepts, hidle]) (by simp only [synGo, hop, sig_absent h.2.2.1, signal_absent]) hinv.regs_rising
    (.refl _ _) rfl (by simp)
end

end Sys2Proof.Machine
end

section
/-! The CTL slot of a long word (R168, R178 to R180, R195). -/

namespace Sys2Proof.Machine

section
variable {s x : State} {b : BayId} {q : QueueId} {v : Nat} {ks : List Nat} {o : Option Frame}

/-- R168: the CTL slot has taken effect, in the state `x`, with its word and the frames as they stood: the word retires. -/
theorem slotGo_ctl (hinv : StateInv s) (h : SoleSlot s b q 0 v o []) (hop : bits v 19 16 ≠ 4) (hx : ctlGo (slotWaited s b q 0) b q v = x)
    (hstep : InBay b ks (slotWaited s b q 0) x) (hfr : (queueOf x b q).frames = (queueOf (slotWaited s b q 0) b q).frames)
    (hdec : (queueOf x b q).decoded = (queueOf (slotWaited s b q 0) b q).decoded) (hk : (issQQseq q.val).key (.issue b) ∉ ks)
    (ho : ∀ f ∈ o, f.off < f.len) : Retired s (slotGo s b q 0) b q ∧ HeadRetired b q o.toList x (slotGo s b q 0) := by
  have hret := slotGo_retires_kept hinv h (by decide) (slotAccepts_ctl hop) (fun _ _ => slotFirst_ctl hop) (fun _ => hx) hstep hfr hdec ho
  exact ⟨hret.retired ((waited_inBay hinv 0).trans hstep) hk, hret⟩

/-- The frame that the head word opens, once its slot's WAIT has been satisfied. -/
theorem opens_waited (hinv : StateInv s) (h : SoleSlot s b q 0 v o []) :
    (queueOf (slotWaited s b q 0) b q).decoded.head?.bind (·.opens) = o := by
  obtain ⟨-, -, -, -, d, hd, -, -, -, -, hopens, -⟩ := h
  rw [queueOf_onHead hinv.bays_rising hd, ← hopens]
  rfl

/-- R168: NOP. -/
theorem slotGo_ctlNop (hinv : StateInv s) (h : SoleSlot s b q 0 v none []) (hop : bits v 19 16 = 0) : Retired s (slotGo s b q 0) b q := by
  have hwait : InBay b [] s (slotWaited s b q 0) := waited_inBay hinv 0
  have hgo : ctlGo (slotWaited s b q 0) b q v = slotWaited s b q 0 := by
    unfold ctlGo
    simp only [hop, opens_waited hinv h, sig_absent h.2.2.1]
    rfl
  exact (slotGo_ctl hinv h (by omega) hgo (.refl hwait.regs hwait.bays) rfl rfl (by simp) (by simp)).1

/-- The frame that the word opens has the number of its operation. -/
def Decoded.opened (n : Nat) (d : Decoded) : Decoded := { d with opens := d.opens.map (fun f => { f with id := n }) }

/-- R178, R180: CALL and REPLAY open the frame that their check has found, as an operation in flight. -/
theorem slotGo_opens {f : Frame} (hinv : StateInv s) (h : SoleSlot s b q 0 v (some f) []) (hop : bits v 19 16 = 1 ∨ bits v 19 16 = 3)
    (hlen : f.off < f.len) :
    Retired s (slotGo s b q 0) b q ∧ (queueOf (slotGo s b q 0) b q).frames = [{ f with id := (bayOf s b).nextOp }] := by
  have hwait : InBay b [] s (slotWaited s b q 0) := waited_inBay hinv 0
  have hkept : QueuesOnly b s (slotWaited s b q 0) := bayOf_onHead hinv.bays_rising _
  have hnum : (bayOf (slotWaited s b q 0) b).nextOp = (bayOf s b).nextOp := hkept.reads (·.nextOp)
  have hop4 : bits v 19 16 ≠ 4 := by omega
  obtain ⟨-, -, -, hnone, d, hd, -, -, -, -, hopens, -⟩ := id h
  have htook := queueOf_onHead hinv.bays_rising hd (·.took 0)
  have hnew : InBay b [] s (newOp (slotWaited s b q 0) b (.queue q) (BitVec.ofNat 8 (bits v 15 8)) 1).2 := hwait.newOp
  have hsame : queueOf (newOp (slotWaited s b q 0) b (.queue q) (BitVec.ofNat 8 (bits v 15 8)) 1).2 b q =
      queueOf (slotWaited s b q 0) b q :=
    queueOf_newOp hwait.bays ..
  have hgo : ctlGo (slotWaited s b q 0) b q v = onHead (newOp (slotWaited s b q 0) b (.queue q) (BitVec.ofNat 8 (bits v 15 8)) 1).2 b q
      (·.opened (bayOf s b).nextOp) := by
    unfold ctlGo
    rcases hop with hop | hop <;>
    · simp only [hop, opens_waited hinv h, Option.isSome_some, if_true]
      rw [← hnum]
      rfl
  have hhead := queueOf_onHead hnew.bays (hsame.trans htook ▸ rfl : (queueOf _ b q).decoded = [d.took 0])
    (·.opened (bayOf s b).nextOp)
  have hret := slotGo_retires (o' := some { f with id := (bayOf s b).nextOp }) hinv h (by decide) (slotAccepts_ctl hop4)
    (fun _ _ => slotFirst_ctl hop4) (fun _ => hgo) hnew.onHead (by rw [hhead, hsame, htook]; exact hnone)
    (fun d' hd' => by
      have hd'' : d' = d.took 0 := by simpa [htook] using hd'.symm
      rw [hhead, hd'']
      exact congrArg (fun o => [{ d.took 0 with opens := o }]) (congrArg (Option.map _) hopens))
    (by simpa using hlen)
  obtain ⟨snap, hqueue⟩ := hret.queue
  exact ⟨hret.retired hnew.onHead (by simp), congrArg IssQueue.frames hqueue⟩

/-- R178: RET ends the innermost frame. -/
theorem slotGo_ret {f : Frame} (hinv : StateInv s) (h : SoleSlot s b q 0 v none [f]) (hop : bits v 19 16 = 2) :
    (queueOf (slotGo s b q 0) b q).decoded = [] ∧ (queueOf (slotGo s b q 0) b q).frames = [] := by
  have hwait : InBay b [] s (slotWaited s b q 0) := waited_inBay hinv 0
  have hop4 : bits v 19 16 ≠ 4 := by omega
  obtain ⟨hst, hq, hv, hfr, d, hd, hchk, hiss, htk, -, hopens, hslots⟩ := id h
  have htook := queueOf_onHead hinv.bays_rising hd (·.took 0)
  have hends : ∀ d, slotTake (slotWaited s b q 0) b q d 0 v = onHead (slotWaited s b q 0) b q (fun d => { d with ends := true }) := fun d => by
    show ctlGo _ b q v = _
    unfold ctlGo
    simp only [hop, sig_absent hv]
    rfl
  have hx : InBay b [] s (onHead (slotWaited s b q 0) b q (fun d => { d with ends := true })) := hwait.onHead
  have hend := queueOf_onHead hwait.bays (congrArg IssQueue.decoded htook) (fun d => { d with ends := true })
  have hmark := queueOf_onHead hx.bays (congrArg IssQueue.decoded hend) (·.issuedAt 0)
  have hm : InBay b [] s (onHead (onHead (slotWaited s b q 0) b q (fun d => { d with ends := true })) b q (·.issuedAt 0)) := hx.onHead
  have hclosed : (List.range 6).any ({ d.took 0 with ends := true }.issuedAt 0).open_ = false := sole_closed (i := 0) (v := v) hslots (by decide)
  have hret := headRetire_ends hm.bays (hm.queues hq) (congrArg IssQueue.decoded hmark) rfl hopens
    (f := f) (by rw [hmark, hend, htook]; exact hfr)
  rw [slotGo_sole hst hd hchk hiss htk hslots (by decide) (by omega) (slotAccepts_ctl hop4) (slotFirst_ctl hop4)
    (by rw [hends]; exact congrArg IssQueue.decoded hmark) hclosed, hends, headPump_nil hret.1]
  exact hret

/-- NOTIFY has shown the slot's code, counted and raised its event. -/
def notified (s : State) (b : BayId) (v : Nat) : State :=
  setEvt (wrapAdd (wr s (.issue b) issNotifyCode (bits v 27 20)) (.issue b) issNotifyCount 1) (.issue b) 16

theorem notified_reads (hs : Rising s.regs) (hb : Rising s.bays) (v : Nat) :
    InBay b [issNotifyCode.key (.issue b), issNotifyCount.key (.issue b), hdrEvt.key (.issue b)] s (notified s b v) ∧
    rd (notified s b v) (.issue b) issNotifyCode = bits v 27 20 ∧
    rd (notified s b v) (.issue b) issNotifyCount = (rd s (.issue b) issNotifyCount + 1) % 2 ^ 24 ∧
    bitOf (rd (notified s b v) (.issue b) hdrEvt) 16 = true := by
  have hcode : InBay b _ s (wr s (.issue b) issNotifyCode (bits v 27 20)) := (InBay.refl hs hb).wr
  have hcount : InBay b _ s (wrapAdd (wr s (.issue b) issNotifyCode (bits v 27 20)) (.issue b) issNotifyCount 1) := hcode.wr
  have hne : issNotifyCode.key (.issue b) ≠ issNotifyCount.key (.issue b) := key_ne_off _ _ (by decide) (by decide) (by decide)
  refine ⟨hcount.setEvt, ?_, ?_, bitOf_setEvt_same hcount.regs (by decide)⟩ <;> unfold notified
  · rw [rd_setEvt_hdr hcount.regs _ (by decide) (by decide), wrapAdd, rd_wr_other _ _ _ _ _ _ hcode.regs hne, rd_wr_same _ _ _ _ hs (by decide)]
    exact Nat.mod_eq_of_lt (bits_lt v 27 20)
  · rw [rd_setEvt_hdr hcount.regs _ (by decide) (by decide), wrapAdd, rd_wr_same _ _ _ _ hcode.regs (by decide),
      rd_wr_other _ _ _ _ _ _ hs hne.symm]
    rfl

/-- R168, R189: NOTIFY shows its code, counts and raises its event. -/
theorem slotGo_notify (hinv : StateInv s) (h : SoleSlot s b q 0 v none []) (hop : bits v 19 16 = 5) :
    Retired s (slotGo s b q 0) b q ∧ rd (slotGo s b q 0) (.issue b) issNotifyCode = bits v 27 20 ∧
      rd (slotGo s b q 0) (.issue b) issNotifyCount = (rd s (.issue b) issNotifyCount + 1) % 2 ^ 24 ∧
      bitOf (rd (slotGo s b q 0) (.issue b) hdrEvt) 16 = true := by
  have hwait : InBay b [] s (slotWaited s b q 0) := waited_inBay hinv 0
  have hgo : ctlGo (slotWaited s b q 0) b q v = notified (slotWaited s b q 0) b v := by
    unfold ctlGo
    simp only [hop, sig_absent h.2.2.1]
    rfl
  obtain ⟨hstep, hcode, hcount, hevt⟩ := notified_reads (b := b) hwait.regs hwait.bays v
  have hqueue : queueOf (notified (slotWaited s b q 0) b v) b q = queueOf (slotWaited s b q 0) b q :=
    queueOf_congr (by rw [notified, bayOf_setEvt]; rfl)
  obtain ⟨hdone, hret⟩ := slotGo_ctl hinv h (by omega) hgo hstep (by rw [hqueue]) (by rw [hqueue])
    (by simpa using ⟨qseq_key_ne_head (by decide), qseq_key_ne_head (by decide), qseq_key_ne_head (by decide)⟩) (by simp)
  have hread : ∀ r : Row, r.off * 8 + r.lsb < 0x1000 →
      rd (slotGo s b q 0) (.issue b) r = rd (notified (slotWaited s b q 0) b v) (.issue b) r :=
    fun r hr => hret.step.rd_eq (by simpa using (qseq_key_ne_head hr).symm)
  exact ⟨hdone, (hread _ (by decide)).trans hcode, (hread _ (by decide)).trans hcount, by rw [hread _ (by decide), hevt]⟩
end

end Sys2Proof.Machine
end

section
/-! RECORD, ENDREC and LAUNCH (R168, R179, R195), and what a write and a clean read of bay store leave. -/

namespace Sys2Proof.Machine

/-! ### Bay store. -/

section
variable {s t : State} {b : BayId} {ks : List Nat}

theorem InBay.of_same {u : State} (h : InBay b ks s t) (hr : u.regs = t.regs) (hb : u.bays = t.bays) : InBay b ks s u :=
  (h.only (js := []) (hr ▸ h.regs) (.of_regs _ hr) hb).mono (by simp)

/-- The reservations that a write ends are neither registers nor bays. -/
theorem loseLines_same (s : State) (l : List Nat) (f : Nat → ResvLine) :
    (l.foldl (fun s n => loseLine s (f n)) s).regs = s.regs ∧ (l.foldl (fun s n => loseLine s (f n)) s).bays = s.bays :=
  List.foldlRecOn (motive := fun t : State => t.regs = s.regs ∧ t.bays = s.bays) _ _ ⟨rfl, rfl⟩ fun _ ht _ _ => ht

theorem InBay.storePut (h : InBay b ks s t) {a : Nat} {d : List Byte} {p : Bool} : InBay b ks s (storePut t b a d p) := by
  obtain ⟨hr, hb⟩ := loseLines_same (setStore t b (stWrite (storeOf t b) a d p)) (linesOf a d.length) (.store b)
  exact InBay.of_same (t := setStore t b (stWrite (storeOf t b) a d p)) h.modBay hr hb

theorem InBay.storeWrite (h : InBay b ks s t) {a : Nat} {d : List Byte} {p : Bool} : InBay b ks s (storeWrite t b a d p) := by
  unfold Machine.storeWrite vecOver
  extract_lets v note
  split
  · exact h.storePut
  · exact h.storePut.modBay

/-- R226: a write changes the store, and the vector engine's passes note it (R131); the rest of the bay stands. -/
theorem bayOf_storeWrite (hb : Rising s.bays) (a : Nat) (d : List Byte) (p : Bool) :
    ∃ vec, bayOf (storeWrite s b a d p) b = { bayOf s b with store := stWrite (storeOf s b) a d p, vec := vec } := by
  have hset : Rising (setStore s b (stWrite (storeOf s b) a d p)).bays := hb.mset _ _ _
  obtain ⟨-, hbays⟩ := loseLines_same (setStore s b (stWrite (storeOf s b) a d p)) (linesOf a d.length) (.store b)
  have hput : bayOf (storePut s b a d p) b = { bayOf s b with store := stWrite (storeOf s b) a d p } := by
    rw [bayOf, storePut, hbays]
    exact bayOf_modBay hb b _
  unfold storeWrite vecOver
  extract_lets v note
  split
  · exact ⟨_, hput⟩
  · rw [bayOf_modBay (by rw [storePut, hbays]; exact hset), hput]
    exact ⟨_, rfl⟩

/-- R230, R232: a read of a store without poison and carried checksums only gives its bytes. -/
theorem storeRead_clean (p : Page) (unit a n : Nat) (hc : (storeOf s b).carried = []) (hp : (storeOf s b).poison = [])
    (hu : (storeOf s b).ue = []) :
    storeRead s b p unit a n .ok .none = (stBytes (storeOf s b) a n, false, setStore s b (storeOf s b)) := by
  have hverify : ∀ r, stVerify (storeOf s b) r false = (storeOf s b, false) := fun r => by
    unfold stVerify
    rw [hc]
    rfl
  have hfold : (regionsOf a n).foldl (fun (x : Store × Bool) r => let y := stVerify x.1 r (Check.ok == .twice); (y.1, x.2 || y.2))
      (storeOf s b, false) =
      (storeOf s b, false) :=
    List.foldlRecOn (motive := (· = (storeOf s b, false))) _ _ rfl fun x hx r _ => by
      rw [hx]
      exact congrArg (fun y : Store × Bool => (y.1, false || y.2)) (hverify r)
  have hclean : (linesOf a n).filter (linePoison (storeOf s b)) = [] := List.filter_eq_nil_iff.mpr fun l _ => by
    simp [linePoison, hp, hu, mget]
  unfold storeRead
  simp only [storeUpset, hfold, hclean, List.isEmpty_nil, if_true, Bool.false_eq_true, if_false, Bool.not_true]
end

section
variable {s : State} {b : BayId} {q : QueueId} {v : Nat}

/-! ### Recording (R179). -/

/-- R179: RECORD begins the recording. -/
theorem slotGo_record (hinv : StateInv s) (h : SoleSlot s b q 0 v none []) (hop : bits v 19 16 = 6) :
    Retired s (slotGo s b q 0) b q ∧
      (queueOf (slotGo s b q 0) b q).recording = some { list := bits v 40 20, maxw := bits v 60 41, copied := 0 } := by
  have hwait : InBay b [] s (slotWaited s b q 0) := waited_inBay hinv 0
  have hgo : ctlGo (slotWaited s b q 0) b q v = modQueue (slotWaited s b q 0) b q
      (fun u => { u with recording := some { list := bits v 40 20, maxw := bits v 60 41, copied := 0 } }) := by
    unfold ctlGo
    simp only [hop, sig_absent h.2.2.1]
    rfl
  have hqueue := queueOf_modQueue (q := q) hwait.bays (hwait.queues h.2.1)
    (fun u => { u with recording := some { list := bits v 40 20, maxw := bits v 60 41, copied := 0 } })
  obtain ⟨hdone, hret⟩ := slotGo_ctl hinv h (by omega) hgo (InBay.refl hwait.regs hwait.bays).modQueue (by rw [hqueue]) (by rw [hqueue])
    (by simp) (by simp)
  obtain ⟨snap, hend⟩ := hret.queue
  exact ⟨hdone, by rw [hend, hqueue]⟩

/-- R179: ENDREC writes the list's header and ends the recording. -/
theorem slotGo_endrec {r : Recording} (hinv : StateInv s) (h : SoleSlot s b q 0 v none []) (hop : bits v 19 16 = 7)
    (hrec : (queueOf s b q).recording = some r) (hbytes : Rising (storeOf s b).bytes) :
    Retired s (slotGo s b q 0) b q ∧ (queueOf (slotGo s b q 0) b q).recording = none ∧
      stBytes (storeOf (slotGo s b q 0) b) (64 * r.list) 8 = toLE 4 r.copied ++ [0xA5, 0, 0, 0] := by
  obtain ⟨-, hq, hv, -, d, hd, -⟩ := id h
  have hwait : InBay b [] s (slotWaited s b q 0) := waited_inBay hinv 0
  have htook := queueOf_onHead hinv.bays_rising hd (·.took 0)
  have hended := queueOf_modQueue (q := q) hwait.bays (hwait.queues hq) (fun u => { u with recording := none })
  have hend : InBay b [] (slotWaited s b q 0) (modQueue (slotWaited s b q 0) b q (fun u => { u with recording := none })) :=
    (InBay.refl hwait.regs hwait.bays).modQueue
  obtain ⟨vec, hbay⟩ := bayOf_storeWrite (b := b) hend.bays (64 * r.list) (toLE 4 r.copied ++ [0xA5, 0, 0, 0]) false
  have hgo : ctlGo (slotWaited s b q 0) b q v = storeWrite (modQueue (slotWaited s b q 0) b q (fun u => { u with recording := none })) b
      (64 * r.list) (toLE 4 r.copied ++ [0xA5, 0, 0, 0]) false := by
    unfold ctlGo recEnd
    simp only [hop, sig_absent hv, htook, hrec]
    rfl
  have hqueue : queueOf (storeWrite (modQueue (slotWaited s b q 0) b q (fun u => { u with recording := none })) b (64 * r.list)
      (toLE 4 r.copied ++ [0xA5, 0, 0, 0]) false) b q = _ := (queueOf_congr (by rw [hbay])).trans hended
  have hstore : storeOf (modQueue (slotWaited s b q 0) b q (fun u => { u with recording := none })) b = storeOf s b :=
    ((QueuesOnly.setQueue .of_bays hwait.bays _).reads (·.store)).trans ((bayOf_onHead hinv.bays_rising _).reads (·.store))
  obtain ⟨hdone, hret⟩ := slotGo_ctl hinv h (by omega) hgo hend.storeWrite (by rw [hqueue]) (by rw [hqueue]) (by simp) (by simp)
  obtain ⟨snap, hlast⟩ := hret.queue
  refine ⟨hdone, by rw [hlast, hqueue], ?_⟩
  have hwritten : storeOf (slotGo s b q 0) b = stWrite (storeOf s b) (64 * r.list) (toLE 4 r.copied ++ [0xA5, 0, 0, 0]) false := by
    rw [storeOf, hret.bay.reads (·.store), hbay, ← hstore]
  rw [hwritten]
  exact stBytes_stWrite hbytes (64 * r.list) (toLE 4 r.copied ++ [0xA5, 0, 0, 0]) false

/-! ### LAUNCH (R195). -/

/-- What a slot of another queue offers does not depend on this one's words. -/
theorem slotOffers_onHead (hinv : StateInv s) (hq : Rising (bayOf s b).queues) {r : QueueId} (hr : r ≠ q) (f : Decoded → Decoded) (i : Nat) :
    slotOffers (onHead s b q f) b r i = slotOffers s b r i := by
  have hqueue : queueOf (onHead s b q f) b r = queueOf s b r := queueOf_setQueue_other hinv.bays_rising hq _ hr
  unfold slotOffers
  rw [hqueue]
  rfl

theorem slotAccepts_launch (hinv : StateInv s) (f : Decoded → Decoded) (r : QueueId) (w : Nat) :
    slotAccepts (onHead s b q f) b r 0 w = slotAccepts s b r 0 w := by
  have hkept : QueuesOnly b s (onHead s b q f) := bayOf_onHead hinv.bays_rising _
  show (bits w 19 16 != 4 || (pgState s (.tgu b) == 4 && decide ((bayOf (onHead s b q f) b).tgu.queue.length < 4))) = _
  rw [hkept.reads (·.tgu)]
  rfl

theorem slotFirst_launch (hinv : StateInv s) (hq : Rising (bayOf s b).queues) (f : Decoded → Decoded) (n : Nat) :
    slotFirst (onHead s b q f) b q 0 n v = slotFirst s b q 0 n v := by
  have hturn : ∀ r : QueueId, (r == q || match slotOffers (onHead s b q f) b r 0 with
      | none => true
      | some (m, w) => !sameEngine 0 v w || !slotAccepts (onHead s b q f) b r 0 w || decide (n < m ∨ (n = m ∧ q < r))) =
      (r == q || match slotOffers s b r 0 with
      | none => true
      | some (m, w) => !sameEngine 0 v w || !slotAccepts s b r 0 w || decide (n < m ∨ (n = m ∧ q < r))) := fun r => by
    by_cases hr : r = q
    · rw [beq_iff_eq.mpr hr, Bool.true_or, Bool.true_or]
    · rw [slotOffers_onHead hinv hq hr]
      simp only [slotAccepts_launch hinv]
  exact congrArg ((List.finRange 4).all) (funext hturn)

theorem tguCount_inBay {ks : List Nat} {t : State} (h : InBay b ks s t) :
    InBay b (ks ++ [tguResidentBlocks.key (.tgu b)] ++ [tguResidentGroups.key (.tgu b)] ++ [tguResidentLq.key (.tgu b)]) s (tguCount t b) :=
  h.wr.wr.wr

@[simp] theorem bayOf_tguCount (s : State) (b : BayId) : bayOf (tguCount s b) b = bayOf s b := rfl

/-- A launch at the end of the TGU's queue. -/
def launchEnters (l : Launch) (y : Bay) : Bay := { y with tgu := { y.tgu with queue := y.tgu.queue ++ [l] } }

/-- R195: a launch of threads enters the queue as an operation in flight. -/
theorem launchIssue_threads {src : OpSrc} {sig : BitVec 8} (hc : (storeOf s b).carried = []) (hp : (storeOf s b).poison = [])
    (hu : (storeOf s b).ue = []) (hthreads : fieldAt (stBytes (storeOf s b) (64 * bits v 40 20) 64) 8 4 ≠ 0) :
    launchIssue s b src v sig = tguCount (modBay (newOp (setStore s b (storeOf s b)) b src sig 1).2 b (launchEnters
      { id := (newOp (setStore s b (storeOf s b)) b src sig 1).1, desc := bits v 40 20, bytes := stBytes (storeOf s b) (64 * bits v 40 20) 64
        q := src, sig := sig })) b := by
  unfold launchIssue
  simp only [storeRead_clean _ _ _ _ hc hp hu, if_neg hthreads]
  rfl

/-- The launch is the last of the queue and has the number of its operation; no issue queue changes. -/
theorem launchIssue_enters {src : OpSrc} {sig : BitVec 8} (hr : Rising s.regs) (hb : Rising s.bays) (hc : (storeOf s b).carried = [])
    (hp : (storeOf s b).poison = []) (hu : (storeOf s b).ue = []) (hthreads : fieldAt (stBytes (storeOf s b) (64 * bits v 40 20) 64) 8 4 ≠ 0) :
    InBay b [tguResidentBlocks.key (.tgu b), tguResidentGroups.key (.tgu b), tguResidentLq.key (.tgu b)] s (launchIssue s b src v sig) ∧
    (bayOf (launchIssue s b src v sig) b).queues = (bayOf s b).queues ∧
    ∃ l, (bayOf (launchIssue s b src v sig) b).tgu.queue = (bayOf s b).tgu.queue ++ [l] ∧ l.desc = bits v 40 20 ∧
      l.id = (bayOf s b).nextOp := by
  have hread : InBay b [] s (setStore s b (storeOf s b)) := (InBay.refl hr hb).modBay
  have hsame : bayOf (setStore s b (storeOf s b)) b = bayOf s b := bayOf_modBay hb b _
  have hnew : InBay b [] s (newOp (setStore s b (storeOf s b)) b src sig 1).2 := hread.newOp
  have hid : (newOp (setStore s b (storeOf s b)) b src sig 1).1 = (bayOf s b).nextOp := congrArg Bay.nextOp hsame
  rw [launchIssue_threads hc hp hu hthreads, hid, bayOf_tguCount, bayOf_modBay hnew.bays, bayOf_newOp hread.bays, hsame]
  exact ⟨tguCount_inBay (hnew.modBay (f := launchEnters _)), rfl, _, rfl, rfl, rfl⟩

/-- R195: LAUNCH, in its turn, enters the launch queue. -/
theorem slotGo_launch (hinv : StateInv s) (h : SoleSlot s b q 0 v none []) (hop : bits v 19 16 = 4) (hst : pgState s (.tgu b) = 4)
    (hturn : ∀ d, (queueOf s b q).decoded = [d] → slotFirst s b q 0 d.seq v = true) (hlen : (bayOf s b).tgu.queue.length < 4)
    (hc : (storeOf s b).carried = []) (hp : (storeOf s b).poison = []) (hu : (storeOf s b).ue = [])
    (hthreads : fieldAt (stBytes (storeOf s b) (64 * bits v 40 20) 64) 8 4 ≠ 0) :
    Retired s (slotGo s b q 0) b q ∧ ∃ l, (bayOf (slotGo s b q 0) b).tgu.queue = (bayOf s b).tgu.queue ++ [l] ∧ l.desc = bits v 40 20 ∧
      l.id = (bayOf s b).nextOp := by
  have hwait : InBay b [] s (slotWaited s b q 0) := waited_inBay hinv 0
  have hkept : QueuesOnly b s (slotWaited s b q 0) := bayOf_onHead hinv.bays_rising _
  have hstore : storeOf (slotWaited s b q 0) b = storeOf s b := hkept.reads (·.store)
  obtain ⟨hx, hqueues, l, hl, hdesc, hid⟩ := launchIssue_enters (s := slotWaited s b q 0) (b := b) (v := v) (src := .queue q)
    (sig := BitVec.ofNat 8 (bits v 15 8)) hwait.regs hwait.bays (by rw [hstore, hc]) (by rw [hstore, hp]) (by rw [hstore, hu]) (by rwa [hstore])
  have hgo : ∀ d, slotTake (slotWaited s b q 0) b q d 0 v =
      launchIssue (slotWaited s b q 0) b (.queue q) v (BitVec.ofNat 8 (bits v 15 8)) := fun d => by
    show ctlGo (slotWaited s b q 0) b q v = _
    unfold ctlGo
    simp only [hop]
  have hret := slotGo_retires_kept hinv h (by decide) (by rw [slotAccepts_launch hinv]; simp [slotAccepts, hst, hlen])
    (fun d hd => by rw [slotFirst_launch hinv h.2.1]; exact hturn d hd) hgo hx (by rw [queueOf_congr hqueues])
    (by rw [queueOf_congr hqueues]) (by simp)
  refine ⟨hret.retired (hwait.trans hx) ?_, l, ?_, hdesc, hid.trans (hkept.reads (·.nextOp))⟩
  · simpa using ⟨qseq_key_ne (r := tguResidentBlocks) (by decide) (by simp [Row.home]),
      qseq_key_ne (r := tguResidentGroups) (by decide) (by simp [Row.home]), qseq_key_ne (r := tguResidentLq) (by decide) (by simp [Row.home])⟩
  · rw [hret.bay.reads (·.tgu), hl, hkept.reads (·.tgu)]
end

end Sys2Proof.Machine
end

section
/-! The obligation about the CTL and SYN slots. -/

namespace Sys2Proof.Machine

/-- A command that names the operation of the sole slot issues that slot. -/
theorem exec_sole {s : State} {b : BayId} {q : QueueId} {i v op : Nat} {o : Option Frame} {fr : List Frame} {c : Instr} {P : State → Prop}
    (h : SoleSlot s b q i v o fr) (hi : i < 6) (hop : bits v 19 16 = op) (hc : exec c s = .next (ctlSlot s b q i op)) (hP : P (slotGo s b q i)) :
    ∃ t, exec c s = .next t ∧ P t :=
  ⟨_, hc.trans (by rw [ctlSlot_sole h hi hop]), hP⟩

section
variable {s x t : State} {b : BayId} {q : QueueId} {ks : List Nat}

theorem SynRetired.cnt_eq (h : SynRetired b q ks s x t) {n : Nat} (hn : n < 16) : cnt t b n = cnt x b n :=
  h.reads _ _ (qseq_sync_ne (syncCnt_lt hn)).symm

theorem SynRetired.flagIs_eq (h : SynRetired b q ks s x t) (i : Nat) : flagIs t b i = flagIs x b i := by
  rw [flagIs, h.reads _ _ (qseq_sync_ne (r := syncFlags) (by decide)).symm, flagIs]
end

/-- Settles O18: the word's only slot issues, its operation takes effect, and the word retires. -/
theorem slotsOfLongWordsTakeEffect : Obligations.SlotsOfLongWordsTakeEffect := by
  unfold Obligations.SlotsOfLongWordsTakeEffect
  refine ⟨?nop, ?call, ?replay, ?ret, ?launch, ?notify, ?record, ?endrec, ?synNop, ?cadd, ?cset, ?fclr, ?fset, ?drain⟩
  case nop => exact fun s b q v hinv h hop => exec_sole h (by decide) hop rfl (slotGo_ctlNop hinv h hop)
  case call => exact fun s b q v f hinv h hop hlen => exec_sole h (by decide) hop rfl (slotGo_opens hinv h (.inl hop) hlen)
  case replay => exact fun s b q v f hinv h hop hlen => exec_sole h (by decide) hop rfl (slotGo_opens hinv h (.inr hop) hlen)
  case ret => exact fun s b q v f hinv h hop => exec_sole h (by decide) hop rfl (slotGo_ret hinv h hop)
  case launch =>
    exact fun s b q v hinv h hop hst hturn hlen hc hp hu hthreads =>
      exec_sole h (by decide) hop rfl (slotGo_launch hinv h hop hst hturn hlen hc hp hu hthreads)
  case notify => exact fun s b q v hinv h hop => exec_sole h (by decide) hop rfl (slotGo_notify hinv h hop)
  case record => exact fun s b q v hinv h hop => exec_sole h (by decide) hop rfl (slotGo_record hinv h hop)
  case endrec => exact fun s b q v r hinv h hop hrec hbytes => exec_sole h (by decide) hop rfl (slotGo_endrec hinv h hop hrec hbytes)
  case synNop =>
    intro s b q v hinv h hop
    have hdone := slotGo_synNop hinv h hop
    exact exec_sole h (by decide) hop rfl ⟨hdone.retired, hdone.fields, hdone.others⟩
  case cadd =>
    intro s b q v hinv h hop
    have hdone := slotGo_cadd hinv h hop
    refine exec_sole h (by decide) hop rfl ⟨hdone.retired, ?_, hdone.fields, hdone.others⟩
    exact (hdone.cnt_eq (bits_lt v 23 20)).trans (cnt_cntAdd (s := slotWaited s b q 5) hinv.regs_rising _ _)
  case cset =>
    intro s b q v hinv h hop
    have hdone := slotGo_cset hinv h hop
    refine exec_sole h (by decide) hop rfl ⟨rfl, hdone.retired, ?_, hdone.fields, hdone.others⟩
    rw [hdone.cnt_eq (bits_lt v 23 20), cnt_cntSet (s := slotWaited s b q 5) hinv.regs_rising]
    exact Nat.mod_eq_of_lt (bits_lt v 55 24)
  case fclr =>
    intro s b q v hinv h hop
    have hdone := slotGo_fclr hinv h hop
    refine exec_sole h (by decide) hop rfl ⟨hdone.retired, ?_, hdone.fields, hdone.others⟩
    rw [hdone.flagIs_eq, flagIs_flagClear (s := slotWaited s b q 5) hinv.regs_rising _ (bits_lt v 25 20)]
    simp
  case fset =>
    intro s b q v hinv h hop
    have hdone := slotGo_fset hinv h hop
    refine exec_sole h (by decide) hop rfl ⟨hdone.retired, ?_, hdone.fields, hdone.others⟩
    rw [hdone.flagIs_eq, flagIs_flagSignal (s := slotWaited s b q 5) hinv.regs_rising _ (bits_lt v 25 20)]
    simp
  case drain =>
    intro s b q v hinv h hop hops
    have hdone := slotGo_drain hinv h hop hops
    exact exec_sole h (by decide) hop rfl ⟨hdone.retired, hdone.fields, hdone.others⟩

end Sys2Proof.Machine
end

section
/-! An error that stops a page (R55, R61): the record, FAULT, and the fields it may change. -/

namespace Sys2Proof.Machine

/-- The fields that entry into FAULT changes beside those of the header (R99, R148, R188). -/
def hookKeys : Page → List Nat
  | .arr b a => [arrAccValid.key (.arr b a)]
  | .vec b => (List.range 4).map (fun k => (vecSlotSflagsValid k).key (.vec b))
  | .doc b => [docStatusState.key (.doc b)]
  | _ => []

/-- The fields that an error which stops the page may change. -/
def stopKeys (p : Page) : List Nat := raiseKeys p ++ ([hdrState.key p, hdrBusy.key p, hdrEvt.key p] ++ hookKeys p)

section
variable {s t : State} {p q : Page} {r : Row} {e : Err}

/-! ### Entry into FAULT. -/

theorem vecInvalidate_fields (hs : Rising s.regs) (b : BayId) :
    Rising (vecInvalidate s b).regs ∧ FieldsBut (hookKeys (.vec b)) s (vecInvalidate s b) := by
  unfold vecInvalidate
  refine List.foldlRecOn (motive := fun t : State => Rising t.regs ∧ FieldsBut (hookKeys (.vec b)) s t) _ _ ⟨hs, .refl _ _⟩ ?_
  rintro t ⟨ht, hf⟩ k hk
  refine ⟨wr_rising _ _ _ _ ht, (hf.trans (.wr _ _ _ _ ht)).mono fun key hkey => ?_⟩
  rcases List.mem_append.mp hkey with h | h
  · exact h
  · rw [List.mem_singleton.mp h]
    exact List.mem_map.mpr ⟨k, hk, rfl⟩

theorem vecAbandon_regs (s : State) (b : BayId) : (vecAbandon s b).regs = s.regs := by
  unfold vecAbandon
  extract_lets y
  split <;> rfl

theorem faultHook_fields (hs : Rising s.regs) : Rising (faultHook s p).regs ∧ FieldsBut (hookKeys p) s (faultHook s p) := by
  cases p with
  | arr b a => exact ⟨wr_rising s (.arr b a) arrAccValid 0 hs, (FieldsBut.wr s (.arr b a) arrAccValid 0 hs).trans (.of_regs [] rfl)⟩
  | vec b =>
    obtain ⟨hr, hf⟩ := vecInvalidate_fields (s := vecAbandon s b) (by rwa [vecAbandon_regs]) b
    exact ⟨hr, fun p' r hk => (hf p' r hk).trans (rd_congr (vecAbandon_regs s b) ..)⟩
  | doc b => exact ⟨wr_rising _ _ _ _ hs, .wr _ _ _ _ hs⟩
  | _ => exact ⟨hs, .refl _ _⟩

/-- The MG die, the power and the fuses stand. -/
def BoardKept (s t : State) : Prop := t.mg = s.mg ∧ t.power = s.power ∧ t.fuses = s.fuses

theorem BoardKept.refl (s : State) : BoardKept s s := ⟨rfl, rfl, rfl⟩

theorem BoardKept.trans {u : State} (h1 : BoardKept s t) (h2 : BoardKept t u) : BoardKept s u :=
  ⟨h2.1.trans h1.1, h2.2.1.trans h1.2.1, h2.2.2.trans h1.2.2⟩

theorem faultHook_keeps (s : State) (p : Page) : BoardKept s (faultHook s p) := by
  cases p with
  | vec b =>
    have habandon : BoardKept s (vecAbandon s b) := by
      unfold vecAbandon
      extract_lets y
      split <;> exact .refl s
    exact habandon.trans (List.foldlRecOn (motive := BoardKept (vecAbandon s b)) _ _ (.refl _) fun _ hu _ _ => hu)
  | _ => exact .refl s

theorem hookKeys_not_runKey (p : Page) : ∀ k ∈ hookKeys p, ¬ runKey k := by
  have hoff : ∀ {r : Row} (q : Page), r.off * 8 + r.lsb < 32768 → r.off * 8 + r.lsb ∉ [160, 2048] → ¬ runKey (r.key q) := by
    rintro r q hr hn (⟨p', he⟩ | ⟨b, he⟩) <;> exact hn (by rw [← key_mod q r hr, he, key_mod _ _ (by decide)]; decide)
  cases p with
  | arr b a => simpa [hookKeys] using hoff (r := arrAccValid) (.arr b a) (by decide) (by decide)
  | vec b =>
    simp only [hookKeys, List.forall_mem_map]
    intro k hk
    have hk4 := List.mem_range.mp hk
    exact hoff _ (by simp only [vecSlotSflagsValid]; omega) (by simp [vecSlotSflagsValid]; omega)
  | doc b => simpa [hookKeys] using hoff (r := docStatusState) (.doc b) (by decide) (by decide)
  | _ => simp [hookKeys]

theorem pgState_faultHook (hs : Rising s.regs) (q : Page) : pgState (faultHook s p) q = pgState s q := by
  obtain ⟨hm, hp, hf⟩ := faultHook_keeps s p
  have hkept : RegsKept runKey s (faultHook s p) :=
    (RegsKept.refl s).of_fields (fun h => (faultHook_fields h).1) (fun h => (faultHook_fields h).2) (hookKeys_not_runKey p)
  exact hkept.pgState_eq hs (held_congr hm hp) hf (.inl ⟨q, rfl⟩) fun b => .inr ⟨b, rfl⟩

/-! ### The error. -/

theorem hdr_not_hookKeys (hr : r.off * 8 + r.lsb < 0x800) (p q : Page) : r.key q ∉ hookKeys p := by
  cases p with
  | arr b a => simpa [hookKeys] using key_ne_off _ _ (by omega) (by decide) (by simp only [arrAccValid]; omega)
  | vec b =>
    simp only [hookKeys, List.mem_map, not_exists, not_and]
    intro k hk
    have hk4 := List.mem_range.mp hk
    exact key_ne_off _ _ (by simp only [vecSlotSflagsValid]; omega) (by omega) (by simp only [vecSlotSflagsValid]; omega)
  | doc b => simpa [hookKeys] using key_ne_off _ _ (by omega) (by decide) (by simp only [docStatusState]; omega)
  | _ => simp [hookKeys]

/-- R55: from STARTING, RUNNING or STOPPING, the block enters FAULT. -/
theorem toFault_eq (h : pgState s p = 3 ∨ pgState s p = 4 ∨ pgState s p = 5) : toFault s p = faultHook (enter (dropHeld s p) p 6) p := if_pos h

theorem toFault_fields (hs : Rising s.regs) :
    Rising (toFault s p).regs ∧ FieldsBut ([hdrState.key p, hdrBusy.key p, hdrEvt.key p] ++ hookKeys p) s (toFault s p) := by
  unfold toFault
  extract_lets st
  split
  · have henter := enter_rising (dropHeld s p) p 6 hs
    obtain ⟨hr, hf⟩ := faultHook_fields (p := p) henter
    exact ⟨hr, (enter_fields (dropHeld s p) p 6 hs).trans hf⟩
  · exact ⟨hs, .refl _ _⟩

/-- What an error that stops the page may change of the registers. -/
theorem raise_stop_fields (hs : Rising s.regs) (he : e.stop = true) : Rising (raise s p e).regs ∧ FieldsBut (stopKeys p) s (raise s p e) := by
  obtain ⟨sev, hraise⟩ := raise_stop s p he
  obtain ⟨hr, hf⟩ := toFault_fields (p := p) (raise_rising s p { e with stop := false, sev := some sev } rfl hs)
  rw [hraise]
  exact ⟨hr, (raise_fields s p { e with stop := false, sev := some sev } rfl hs).trans hf⟩

/-- R55, R61: an error that stops the block sets its bit, and takes a page that starts, runs or stops to FAULT. -/
theorem raise_stop_page (hs : Rising s.regs) (hst : pgState s p = 3 ∨ pgState s p = 4 ∨ pgState s p = 5) (he : e.stop = true) (hb : e.bit < 32) :
    pgState (raise s p e) p = 6 ∧ bitOf (rd (raise s p e) p hdrErr) e.bit = true := by
  obtain ⟨sev, hraise⟩ := raise_stop s p he
  have hst' := pgState_raise (p := p) (e := { e with stop := false, sev := some sev }) hs rfl p
  have hr := raise_rising s p { e with stop := false, sev := some sev } rfl hs
  have hthere : pgState s p ≠ 0 := by omega
  have hbit := raise_bit s p { e with stop := false, sev := some sev } rfl hs hthere hb
  have hne : hdrErr.key p ∉ [hdrState.key p, hdrBusy.key p, hdrEvt.key p] ++ hookKeys p := by
    simp only [List.mem_append, List.mem_cons, List.not_mem_nil, or_false, not_or]
    exact ⟨⟨key_hdr_ne _ (by decide) (by decide) (by decide), key_hdr_ne _ (by decide) (by decide) (by decide),
      key_hdr_ne _ (by decide) (by decide) (by decide)⟩, hdr_not_hookKeys (by decide) p p⟩
  rw [hraise, (toFault_fields hr).2 _ _ hne, toFault_eq (by rwa [hst'])]
  generalize raise s p { e with stop := false, sev := some sev } = t at hr hst' hbit
  have hdrop : pgState (dropHeld t p) p = pgState s p := hst'
  rw [pgState_faultHook (enter_rising (dropHeld t p) p 6 hr)]
  exact ⟨enter_pgState (dropHeld t p) p 6 hr (by rwa [hdrop]), hbit⟩

/-- R188: a docent that enters FAULT reads TRAPPED. -/
theorem raise_stop_trapped {b : BayId} (hs : Rising s.regs) (hst : pgState s (.doc b) = 4) (he : e.stop = true) :
    rd (raise s (.doc b) e) (.doc b) docStatusState = 3 := by
  obtain ⟨sev, hraise⟩ := raise_stop s (.doc b) he
  have hst' := pgState_raise (p := .doc b) (e := { e with stop := false, sev := some sev }) hs rfl (.doc b)
  rw [hraise, toFault_eq (.inr (.inl (hst'.trans hst)))]
  exact rd_wr_same _ _ _ _ (enter_rising _ _ _ (raise_rising s (.doc b) { e with stop := false, sev := some sev } rfl hs)) (by decide)

/-- Where no error's field, page state or log register lies. -/
theorem not_stopKeys (hq : r.home q ≠ .hub) (hr : r.off * 8 + r.lsb < 32768) (hn : 0x800 ≤ r.off * 8 + r.lsb) (hk : r.key q ∉ hookKeys p) :
    r.key q ∉ stopKeys p := by
  have hhub : ∀ {x : Row}, x.off * 8 + x.lsb < 32768 → r.key q ≠ x.key .hub := fun hx => key_ne_page hr hx hq
  have hhdr : ∀ {x : Row} (p' : Page), x.off * 8 + x.lsb < 0x800 → r.key q ≠ x.key p' := fun p' hx => key_ne_off q p' hr (by omega) (by omega)
  simp only [stopKeys, raiseKeys, errKeys, logKeys, List.mem_append, List.mem_cons, List.not_mem_nil, or_false, not_or]
  exact ⟨⟨⟨hhdr p (by decide), hhdr p (by decide), hhdr p (by decide), hhdr p (by decide)⟩,
    hhub (by decide), hhub (by decide), hhub (by decide), hhub (by decide), hhub (by decide), hhub (by decide)⟩,
    ⟨hhdr p (by decide), hhdr p (by decide), hhdr p (by decide)⟩, hk⟩
end

end Sys2Proof.Machine
end

section
/-! The docent (R157 to R159, R187): its registers and PC, its exceptions, the end of its program, and MEM_DATA. -/

namespace Sys2Proof.Machine

/-! ### Registers and PC. -/

section
variable {s t : State} {b : BayId} {ks : List Nat}

theorem docReady_iff : docReady s b = true ↔ pgState s (.doc b) = 4 ∧ (bayOf s b).doc.stall = .none := by simp [docReady]

theorem docPcV_docGo (hs : Rising s.regs) (pc : BitVec 64) : docPcV (docGo s b pc) b = pc := by
  have hrd : rd (docGo s b pc) (.doc b) docPc = pc.toNat % 2 ^ 64 := rd_wr_same _ _ _ _ hs (by decide)
  rw [docPcV, hrd, Nat.mod_eq_of_lt pc.isLt, BitVec.ofNat_toNat, BitVec.setWidth_eq]

theorem InBay.docGo (h : InBay b ks s t) {pc : BitVec 64} : InBay b (ks ++ [docPc.key (.doc b)]) s (docGo t b pc) := h.wr

theorem InBay.setDocX (h : InBay b ks s t) {r : Nat} {v : BitVec 64} : InBay b ks s (setDocX t b r v) := by
  unfold Machine.setDocX
  split
  · exact h
  · exact h.modBay

theorem docX_congr (h : (bayOf t b).doc.x = (bayOf s b).doc.x) (r : Nat) : docX t b r = docX s b r := by rw [docX, h, docX]

theorem docX_setDocX_same (hb : Rising s.bays) (hx : Rising (bayOf s b).doc.x) {r : Nat} (hr : r ≠ 0) (v : BitVec 64) :
    docX (setDocX s b r v) b r = v := by
  rw [docX, if_neg hr, setDocX, if_neg hr, bayOf_modBay hb]
  exact mget_mset_same _ _ _ _ hx

theorem docX_setDocX_other (hb : Rising s.bays) (hx : Rising (bayOf s b).doc.x) {r i : Nat} (hi : i ≠ r) (v : BitVec 64) :
    docX (setDocX s b r v) b i = docX s b i := by
  unfold setDocX
  split
  · rfl
  · unfold docX
    rw [bayOf_modBay hb, mget_mset_other _ _ _ _ _ _ hi hx]

theorem bayOf_setDocX (hb : Rising s.bays) (r : Nat) (v : BitVec 64) :
    ∃ x, bayOf (setDocX s b r v) b = { bayOf s b with doc := { (bayOf s b).doc with x := x } } := by
  unfold setDocX
  split
  · exact ⟨_, rfl⟩
  · exact ⟨_, bayOf_modBay hb b _⟩

/-! ### ADDI (R158). -/

theorem rvExec_addi_doc {w : Nat} (hop : w % 128 = 0x13) (hf3 : bits w 14 12 = 0) (pc : BitVec 64) (x f : Nat → BitVec 64) (frm : Nat) :
    rvExec isaDoc w pc x f frm = .xwr (bits w 11 7) (x (bits w 19 15) + BitVec.ofInt 64 (sbits w 31 20)) 0 := by
  unfold rvExec
  simp only [hop, hf3, opI, sx64_immI]

theorem docAct_addi {w : Nat} (hop : w % 128 = 0x13) (hf3 : bits w 14 12 = 0) (ue : Bool) :
    docAct b w 4 ue s = docGo (setDocX s b (bits w 11 7) (docX s b (bits w 19 15) + BitVec.ofInt 64 (sbits w 31 20))) b (docPcV s b + 4) := by
  unfold docAct
  simp only [rvExec_addi_doc hop hf3]
  rfl

/-- R158: a sound 4-byte instruction that is fetched is carried out. -/
theorem exec_docent_long {w : Nat} (ue : Bool) (hready : docReady s b = true) (heven : (docPcV s b).toNat % 2 = 0)
    (hin : (docPcV s b).toNat + 4 ≤ 0x10000) (hw : leNat (docBytes (bayOf s b).doc.imem (docPcV s b).toNat 4) = w)
    (hlong : leNat (docBytes (bayOf s b).doc.imem (docPcV s b).toNat 2) % 4 = 3) :
    exec (.docentInstruction b false ue .none) s = .next (docAct b w 4 ue s) := by
  show execDocentInstruction b false ue .none s = _
  unfold execDocentInstruction
  simp only [hready, heven, hlong, hw, storeUpset, ne_eq, not_true_eq_false, if_false, if_true, Bool.not_true, Bool.false_eq_true, true_and,
    show ¬ 0x10000 < (docPcV s b).toNat + 2 by omega, show ¬ 0x10000 < (docPcV s b).toNat + 4 by omega]
  rfl

/-! ### Exceptions (R159, R188). -/

/-- A field that is neither STATE nor ARRAYS decides no page's state. -/
theorem pgState_wr (hs : Rising s.regs) {p : Page} {r : Row} (v : Nat) (q : Page)
    (hr : r.off * 8 + r.lsb < 32768 ∧ r.off * 8 + r.lsb ∉ [160, 2048] := by decide) : pgState (wr s p r v) q = pgState s q := by
  obtain ⟨hlt, hn⟩ := hr
  simp only [List.mem_cons, List.not_mem_nil, or_false, not_or] at hn
  exact pgState_congr (s := s) (t := wr s p r v) rfl rfl rfl
    (rd_wr_other _ _ _ _ _ _ hs (key_ne_off (r := hdrState) _ _ (by decide) hlt (Ne.symm hn.1)))
    fun b a _ => rd_wr_other _ _ _ _ _ _ hs (key_ne_off (r := issArrays) _ _ (by decide) hlt (Ne.symm hn.2))

/-- A field written reads back at another offset as before. -/
theorem rd_wr_off (hs : Rising s.regs) {p q : Page} {r x : Row} (v : Nat)
    (h : x.off * 8 + x.lsb < 32768 ∧ r.off * 8 + r.lsb < 32768 ∧ x.off * 8 + x.lsb ≠ r.off * 8 + r.lsb := by decide) :
    rd (wr s p r v) q x = rd s q x :=
  rd_wr_other _ _ _ _ _ _ hs (key_ne_off _ _ h.1 h.2.1 h.2.2)

/-- R188: the registers of an exception. -/
def docRecord (s : State) (b : BayId) (cause : Nat) (val : BitVec 64) : State :=
  wr (wr (wr s (.doc b) docTrapCause cause) (.doc b) docTrapPc (rd s (.doc b) docPc)) (.doc b) docTrapVal val.toNat

theorem docTrap_eq (s : State) (b : BayId) (cause : Nat) (val : BitVec 64) :
    docTrap s b cause val = raise (docRecord s b cause val) (.doc b) { bit := 16, stop := true } := rfl

theorem docRecord_reads (hs : Rising s.regs) (cause : Nat) (val : BitVec 64) :
    Rising (docRecord s b cause val).regs ∧ pgState (docRecord s b cause val) (.doc b) = pgState s (.doc b) ∧
    rd (docRecord s b cause val) (.doc b) docTrapCause = cause % 2 ^ 32 ∧ rd (docRecord s b cause val) (.doc b) docTrapPc = rd s (.doc b) docPc ∧
    rd (docRecord s b cause val) (.doc b) docTrapVal = val.toNat := by
  have h1 := wr_rising s (.doc b) docTrapCause cause hs
  have h2 := wr_rising _ (.doc b) docTrapPc (rd s (.doc b) docPc) h1
  refine ⟨wr_rising _ _ _ _ h2, ?_, ?_, ?_, ?_⟩ <;> unfold docRecord
  · rw [pgState_wr h2, pgState_wr h1, pgState_wr hs]
  · rw [rd_wr_off h2, rd_wr_off h1]
    exact rd_wr_same _ _ _ _ hs (by decide)
  · rw [rd_wr_off h2, rd_wr_same _ _ _ _ h1 (by decide)]
    exact Nat.mod_eq_of_lt (rd_lt s (.doc b) docPc)
  · exact (rd_wr_same _ _ _ _ h2 (by decide)).trans (Nat.mod_eq_of_lt val.isLt)

/-- R159, R188: an exception is recorded with its cause, PC and value, and the docent traps. -/
theorem docTrap_faults (hs : Rising s.regs) (hst : pgState s (.doc b) = 4) (cause : Nat) (val : BitVec 64) :
    pgState (docTrap s b cause val) (.doc b) = 6 ∧ bitOf (rd (docTrap s b cause val) (.doc b) hdrErr) 16 = true ∧
    rd (docTrap s b cause val) (.doc b) docTrapCause = cause % 2 ^ 32 ∧ rd (docTrap s b cause val) (.doc b) docTrapPc = rd s (.doc b) docPc ∧
    rd (docTrap s b cause val) (.doc b) docTrapVal = val.toNat ∧ rd (docTrap s b cause val) (.doc b) docStatusState = 3 := by
  obtain ⟨hr, hst', hcause, hpc, hval⟩ := docRecord_reads (b := b) hs cause val
  have hrun := hst'.trans hst
  obtain ⟨hfault, hbit⟩ := raise_stop_page (p := .doc b) (e := { bit := 16, stop := true }) hr (.inr (.inl hrun)) rfl (by decide)
  obtain ⟨-, hfields⟩ := raise_stop_fields (p := .doc b) (e := { bit := 16, stop := true }) hr rfl
  rw [docTrap_eq]
  have hkept : ∀ r ∈ [docTrapCause, docTrapPc, docTrapVal],
      rd (raise (docRecord s b cause val) (.doc b) { bit := 16, stop := true }) (.doc b) r = rd (docRecord s b cause val) (.doc b) r :=
    fun r hmem => by
      have hplace : ∀ x ∈ [docTrapCause, docTrapPc, docTrapVal], x.off * 8 + x.lsb < 32768 ∧ 0x800 ≤ x.off * 8 + x.lsb ∧
          x.off * 8 + x.lsb ≠ docStatusState.off * 8 + docStatusState.lsb := by decide
      obtain ⟨hlt, hlo, hne⟩ := hplace r hmem
      exact hfields _ _ (not_stopKeys (by simp [Row.home]) hlt hlo (by simpa [hookKeys] using key_ne_off _ _ hlt (by decide) hne))
  exact ⟨hfault, hbit, (hkept _ (by simp)).trans hcause, (hkept _ (by simp)).trans hpc, (hkept _ (by simp)).trans hval,
    raise_stop_trapped hr hrun rfl⟩

/-! ### EBREAK (R159). -/

/-- R159: the docent's end stops its page with its event; PC names the next instruction. -/
theorem docHalt_stops (hs : Rising s.regs) (hst : pgState s (.doc b) = 4) (len : Nat) :
    pgState (docHalt b len s) (.doc b) = 2 ∧ rd (docHalt b len s) (.doc b) docStatusState = 2 ∧
    docPcV (docHalt b len s) b = docPcV s b + BitVec.ofNat 64 len ∧ bitOf (rd (docHalt b len s) (.doc b) hdrEvt) 16 = true ∧
    OnlyEvents s (docHalt b len s) := by
  have h1 : Rising (docGo s b (docPcV s b + BitVec.ofNat 64 len)).regs := wr_rising _ _ _ _ hs
  have hgo := docPcV_docGo (b := b) hs (docPcV s b + BitVec.ofNat 64 len)
  have hgone : OnlyEvents s (docGo s b (docPcV s b + BitVec.ofNat 64 len)) := .wr ..
  have hst1 : pgState (docGo s b (docPcV s b + BitVec.ofNat 64 len)) (.doc b) = 4 := (pgState_wr hs _ _).trans hst
  unfold docHalt
  generalize docGo s b (docPcV s b + BitVec.ofNat 64 len) = x at *
  have h2 := wr_rising x (.doc b) docStatusState 2 h1
  have h3 := enter_rising _ (.doc b) 2 h2
  have hlast := setEvt_events (enter (wr x (.doc b) docStatusState 2) (.doc b) 2) (.doc b) 16
  refine ⟨?_, ?_, ?_, bitOf_setEvt_same h3 (by decide), ?_⟩
  · refine (pgState_congr (by rw [hlast]) (by rw [hlast]) (by rw [hlast]) (rd_setEvt_hdr h3 _ (by decide) (by decide)) (by simp)).trans ?_
    exact enter_pgState _ _ 2 h2 (by rw [pgState_wr h1, hst1]; decide)
  · rw [rd_setEvt_hdr h3 _ (by decide) (by decide), rd_enter_off h2 (by decide), rd_wr_same _ _ _ _ h1 (by decide)]
    rfl
  · rw [docPcV, rd_setEvt_hdr h3 _ (by decide) (by decide), rd_enter_off h2 (by decide), rd_wr_off h1]
    exact hgo
  · exact ((hgone.trans (.wr ..)).trans (enter_events _ _ _ (by simp))).trans hlast

/-! ### MEM_DATA (R187). -/

/-- A read of bytes just written gives them back. -/
theorem bytes_putBytes {m : SMap Byte} (hm : Rising m) (a : Nat) (d : List Byte) :
    (List.range d.length).map (fun i => mget 0 (putBytes m a d) (a + i)) = d :=
  stBytes_stWrite (t := { bytes := m }) hm a d false

/-- The bay whose docent memory, the one that MEM_ADDR selects, holds the bytes. -/
def docMemPut (s : State) (b : BayId) (d : List Byte) (y : Bay) : Bay :=
  { y with doc := if rd s (.doc b) docMemAddrSpace = 1 then { y.doc with dmem := putBytes (docMemBytes s b).1 (docMemBytes s b).2 d }
    else { y.doc with imem := putBytes (docMemBytes s b).1 (docMemBytes s b).2 d } }

theorem rd_wrapAdd_same {p : Page} {r : Row} (hs : Rising s.regs) (hw : r.width ≤ 64) (k : Nat) :
    rd (wrapAdd s p r k) p r = (rd s p r + k) % 2 ^ r.width := rd_wr_same _ _ _ _ hs hw
end

/-- Settles O21: ADDI by its equation, EBREAK and the exception by what ends a program, MEM_DATA by the bytes read back. -/
theorem docentRunsItsInstructions : Obligations.DocentRunsItsInstructions := by
  unfold Obligations.DocentRunsItsInstructions
  refine ⟨?addi, ?ebreak, ?misaligned, ?memWrite, ?memRead⟩
  case addi =>
    intro s b w ue hinv hready hx heven hin hw hlong hop hf3 hrd
    have hset : InBay b [] s (setDocX s b (bits w 11 7) (docX s b (bits w 19 15) + BitVec.ofInt 64 (sbits w 31 20))) := (InBay.of_inv hinv).setDocX
    have hgo := hset.docGo (pc := docPcV s b + 4)
    exact ⟨_, (exec_docent_long ue hready heven hin hw hlong).trans (by rw [docAct_addi hop hf3]), docPcV_docGo hset.regs _,
      docX_setDocX_same hinv.bays_rising hx hrd _, hgo.fields, fun r hr => docX_setDocX_other hinv.bays_rising hx hr _, hgo.others⟩
  case ebreak =>
    intro s b c hinv hready
    have hexec : exec (.ebreak b c) s = .next (docHalt b (if c then 2 else 4) s) := by
      show execEbreak b c s = _
      rw [execEbreak, if_pos hready]
    obtain ⟨hst, hstatus, hpc, hevt, honly⟩ := docHalt_stops hinv.regs_rising (docReady_iff.mp hready).1 (if c then 2 else 4)
    refine ⟨_, hexec, hst, hstatus, ?_, hevt, honly⟩
    rw [hpc]
    cases c <;> rfl
  case misaligned =>
    intro s b ue de u hinv hready hodd
    have hexec : exec (.docentInstruction b ue de u) s = .next (docTrap s b 0 (BitVec.ofNat 64 (docPcV s b).toNat)) := by
      show execDocentInstruction b ue de u s = _
      unfold execDocentInstruction
      simp only [hready, hodd, Bool.not_true, Bool.false_eq_true, if_false, ne_eq, not_false_eq_true, if_true]
    obtain ⟨hst, -, hcause, -, hval, hstatus⟩ :=
      docTrap_faults hinv.regs_rising (docReady_iff.mp hready).1 0 (BitVec.ofNat 64 (docPcV s b).toNat)
    exact ⟨_, hexec, hst, hcause, hval.trans (by simp), hstatus⟩
  case memWrite =>
    intro s b v hinv hst hd hi
    have hexec : exec (.memDataAccess b (some v)) s =
        .next (wrapAdd (modBay s b (docMemPut s b (toLE 8 v.toNat))) (.doc b) docMemAddrOffset 1) := by
      show execMemDataAccess b (some v) s = _
      simp only [execMemDataAccess, memData, hst]
      rfl
    have hput : InBay b [] s (modBay s b (docMemPut s b (toLE 8 v.toNat))) := (InBay.of_inv hinv).modBay
    have hstep := hput.wr (p := .doc b) (r := docMemAddrOffset) (v := rd s (.doc b) docMemAddrOffset + 1)
    refine ⟨_, hexec, ?_, rd_wrapAdd_same hput.regs (by decide) 1, hstep.fields, hstep.others⟩
    rw [wrapAdd, bayOf_wr, bayOf_modBay hinv.bays_rising]
    by_cases hspace : rd s (.doc b) docMemAddrSpace = 1
    · simp only [hspace, if_true, docMemPut, docMemBytes]
      exact bytes_putBytes hd _ (toLE 8 v.toNat)
    · simp only [hspace, if_false, docMemPut, docMemBytes]
      exact bytes_putBytes hi _ (toLE 8 v.toNat)
  case memRead =>
    intro s b hinv hst
    have hexec : exec (.memDataAccess b none) s = .next { wrapAdd s (.doc b) docMemAddrOffset 1 with
        resp := toLE 8 (leNat ((List.range 8).map (fun i => mget 0 (docMemBytes s b).1 ((docMemBytes s b).2 + i)))) } := by
      show execMemDataAccess b none s = _
      simp [execMemDataAccess, memData, hst]
    exact ⟨_, hexec, rfl, rd_wrapAdd_same hinv.regs_rising (by decide) 1⟩

end Sys2Proof.Machine
end

section
/-! The docent's own instructions (R160, R175): pushes, waits, signals, tests and summaries. -/

namespace Sys2Proof.Machine

/-! ### Completion and stalls. -/

section
variable {s t : State} {b : BayId} {ks : List Nat}

theorem setDocX_regs (s : State) (b : BayId) (r : Nat) (v : BitVec 64) : (setDocX s b r v).regs = s.regs := by
  unfold setDocX
  split <;> rfl

theorem docPcV_congr (h : rd t (.doc b) docPc = rd s (.doc b) docPc) : docPcV t b = docPcV s b := by rw [docPcV, h, docPcV]

theorem InBay.docDone (h : InBay b ks s t) {r : Nat} {v : BitVec 64} : InBay b (ks ++ [docPc.key (.doc b)]) s (docDone t b r v) := h.setDocX.docGo

/-- R160: a completed instruction takes DOC.PC on. -/
theorem docPcV_docDone (hs : Rising s.regs) (r : Nat) (v : BitVec 64) : docPcV (docDone s b r v) b = docPcV s b + 4 :=
  docPcV_docGo (by rwa [setDocX_regs]) _

theorem bayOf_docDone (hb : Rising s.bays) (r : Nat) (v : BitVec 64) :
    ∃ x, bayOf (docDone s b r v) b = { bayOf s b with doc := { (bayOf s b).doc with x := x } } := bayOf_setDocX hb r v

/-- An instruction without a result changes DOC.PC alone. -/
theorem docDone_plain (s : State) (b : BayId) : docDone s b 0 0 = docGo s b (docPcV s b + 4) := rfl

/-- The docent with another stall. -/
def setStall (s : State) (b : BayId) (st : DocStall) : State := modBay s b (fun y => { y with doc := { y.doc with stall := st } })

theorem docStallIn_eq (s : State) (b : BayId) (st : DocStall) (r : Row) : docStallIn s b st r = wr (setStall s b st) (.doc b) r 1 := rfl

theorem docUnstall_eq (s : State) (b : BayId) (r : Row) : docUnstall s b r = wr (setStall s b .none) (.doc b) r 0 := rfl

theorem bayOf_setStall (hb : Rising s.bays) (st : DocStall) :
    bayOf (setStall s b st) b = { bayOf s b with doc := { (bayOf s b).doc with stall := st } } := bayOf_modBay hb b _

theorem InBay.setStall (h : InBay b ks s t) {st : DocStall} : InBay b ks s (setStall t b st) := h.modBay

theorem bayOf_docStallIn (hb : Rising s.bays) (st : DocStall) (r : Row) :
    bayOf (docStallIn s b st r) b = { bayOf s b with doc := { (bayOf s b).doc with stall := st } } := by
  rw [docStallIn_eq, bayOf_wr, bayOf_setStall hb]

theorem bayOf_docUnstall (hb : Rising s.bays) (r : Row) :
    bayOf (docUnstall s b r) b = { bayOf s b with doc := { (bayOf s b).doc with stall := .none } } := by
  rw [docUnstall_eq, bayOf_wr, bayOf_setStall hb]

theorem InBay.docUnstall (h : InBay b ks s t) {r : Row} : InBay b (ks ++ [r.key (.doc b)]) s (docUnstall t b r) := h.setStall.wr

theorem rd_docStallIn (hs : Rising s.regs) (st : DocStall) {r : Row} (hw : 0 < r.width ∧ r.width ≤ 64 := by decide) :
    rd (docStallIn s b st r) (.doc b) r = 1 :=
  (rd_wr_same (setStall s b st) _ _ _ hs hw.2).trans (Nat.mod_eq_of_lt (Nat.one_lt_two_pow (by omega)))

theorem rd_docUnstall (hs : Rising s.regs) {r : Row} (hw : r.width ≤ 64 := by decide) : rd (docUnstall s b r) (.doc b) r = 0 :=
  (rd_wr_same (setStall s b .none) _ _ _ hs hw).trans (Nat.zero_mod _)

/-- A stall that begins or ends leaves DOC.PC. -/
theorem docPcV_docStallIn (hs : Rising s.regs) (st : DocStall) {r : Row}
    (hr : docPc.off * 8 + docPc.lsb < 32768 ∧ r.off * 8 + r.lsb < 32768 ∧ docPc.off * 8 + docPc.lsb ≠ r.off * 8 + r.lsb := by decide) :
    docPcV (docStallIn s b st r) b = docPcV s b :=
  docPcV_congr (rd_wr_off (s := setStall s b st) hs _ hr)

theorem docPcV_docUnstall (hs : Rising s.regs) {r : Row}
    (hr : docPc.off * 8 + docPc.lsb < 32768 ∧ r.off * 8 + r.lsb < 32768 ∧ docPc.off * 8 + docPc.lsb ≠ r.off * 8 + r.lsb := by decide) :
    docPcV (docUnstall s b r) b = docPcV s b :=
  docPcV_congr (rd_wr_off (s := setStall s b .none) hs _ hr)

/-- A field of the docent's page other than DOC.PC survives a completion. -/
theorem rd_docDone (hs : Rising s.regs) (k : Nat) (v : BitVec 64) {p : Page} {r : Row}
    (hr : r.off * 8 + r.lsb < 32768 ∧ docPc.off * 8 + docPc.lsb < 32768 ∧ r.off * 8 + r.lsb ≠ docPc.off * 8 + docPc.lsb := by decide) :
    rd (docDone s b k v) p r = rd s p r :=
  (rd_wr_off (s := setDocX s b k v) (by rwa [setDocX_regs]) _ hr).trans (rd_congr (setDocX_regs s b k v) ..)
end

/-! ### DC.PUSH. -/

section
variable {s : State} {b : BayId} {q : QueueId} {ws : List (BitVec 32)} {a : Option (BitVec 64)}

/-- The word is the last of its queue; of the bay only its queues have changed. -/
theorem queueOf_queuePut (hb : Rising s.bays) :
    queueOf (queuePut s b q a ws) b q = { queueOf s b q with words := (queueOf s b q).words ++ [(a, ws)] } :=
  queueOf_setQueue_of_ne hb fun he => by simpa using congrArg IssQueue.words he

theorem queuePut_queuesOnly (hb : Rising s.bays) : QueuesOnly b s (queuePut s b q a ws) := .setQueue .of_bays hb _

theorem queueOf_docDone (hb : Rising s.bays) (r : Nat) (v : BitVec 64) : queueOf (docDone s b r v) b q = queueOf s b q := by
  obtain ⟨x, hbay⟩ := bayOf_docDone (b := b) hb r v
  exact queueOf_congr (by rw [hbay])

/-- R160: the word is pushed, and the docent goes on. -/
theorem pushDone_enters (hr : Rising s.regs) (hb : Rising s.bays) (k : Nat) :
    (queueOf (pushDone s b q k ws) b q).words = (queueOf s b q).words ++ [(none, ws)] ∧ docPcV (pushDone s b q k ws) b = docPcV s b + 4 ∧
    (bayOf (pushDone s b q k ws) b).doc.stall = (bayOf s b).doc.stall ∧ OtherBays b s (pushDone s b q k ws) := by
  have hput : InBay b [] s (queuePut s b q none ws) := (InBay.refl hr hb).modQueue
  refine ⟨?_, docPcV_docDone (s := queuePut s b q none ws) hr .., ?_, hput.docDone.others⟩
  · rw [pushDone, queueOf_docDone hput.bays, queueOf_queuePut hb]
  · obtain ⟨x, hbay⟩ := bayOf_docDone (b := b) hput.bays k (BitVec.ofNat 64 (queuePos (queuePut s b q none ws) b q))
    rw [pushDone, hbay]
    exact (queuePut_queuesOnly hb).reads (·.doc.stall)

/-- R160, R189: rd takes the word's position; the other registers stay. -/
theorem pushDone_reads (hr : Rising s.regs) (hb : Rising s.bays) (hx : Rising (bayOf s b).doc.x) (k : Nat) :
    (k ≠ 0 → docX (pushDone s b q k ws) b k = BitVec.ofNat 64 (queuePos (pushDone s b q k ws) b q)) ∧
    ∀ r, r ≠ k → docX (pushDone s b q k ws) b r = docX s b r := by
  have hput : InBay b [] s (queuePut s b q none ws) := (InBay.refl hr hb).modQueue
  have hdoc : (bayOf (queuePut s b q none ws) b).doc = (bayOf s b).doc := (queuePut_queuesOnly hb).reads (·.doc)
  have hx' : Rising (bayOf (queuePut s b q none ws) b).doc.x := hdoc ▸ hx
  refine ⟨fun hk => ?_, fun r hne => ?_⟩
  · have hseq : rd (pushDone s b q k ws) (.issue b) (issQQseq q.val) = rd (queuePut s b q none ws) (.issue b) (issQQseq q.val) :=
      rd_docDone hput.regs _ _ ⟨qseq_lt q, by decide, by simp only [issQQseq, docPc]; omega⟩
    have hqueue : queueOf (pushDone s b q k ws) b q = queueOf (queuePut s b q none ws) b q := queueOf_docDone hput.bays _ _
    have hpos : queuePos (pushDone s b q k ws) b q = queuePos (queuePut s b q none ws) b q := by
      unfold queuePos
      rw [hseq, hqueue]
    rw [hpos]
    exact docX_setDocX_same hput.bays hx' hk _
  · rw [← docX_congr (congrArg Docent.x hdoc) r]
    exact docX_setDocX_other hput.bays hx' hne _

theorem rd_pushDone (hs : Rising s.regs) (k : Nat) {p : Page} {r : Row}
    (hr : r.off * 8 + r.lsb < 32768 ∧ docPc.off * 8 + docPc.lsb < 32768 ∧ r.off * 8 + r.lsb ≠ docPc.off * 8 + docPc.lsb := by decide) :
    rd (pushDone s b q k ws) p r = rd s p r :=
  rd_docDone (s := queuePut s b q none ws) hs _ _ hr

theorem queueOf_docUnstall (hb : Rising s.bays) (r : Row) : queueOf (docUnstall s b r) b q = queueOf s b q :=
  queueOf_congr (by rw [bayOf_docUnstall hb])

theorem exec_dcPush {rd' rs1 rs2 : Fin 32} (hready : docReady s b = true) (hq : (docX s b rs2.val).toNat % 4 = q.val)
    (hws : pushWord s b q (docX s b rs1.val).toNat = .ok ws) : exec (.dcPush b rd' rs1 rs2) s =
      .next (if pushFits s b q ws.length then pushDone s b q rd'.val ws else docStallIn s b (.push q rd' ws) docStatusPushStall) := by
  obtain rfl : (⟨(docX s b rs2.val).toNat % 4, Nat.mod_lt _ (by decide)⟩ : QueueId) = q := Fin.ext hq
  show execDcPush b rd' rs1 rs2 s = _
  rw [execDcPush, if_pos hready, dcPushAct]
  simp only [hws]
end

/-! ### DC.AFP. -/

section
variable {s t : State} {b : BayId} {ks : List Nat} {f : Nat} {v : BitVec 64}

/-- An entry at the end of a FIFO. -/
def afAppend (s : State) (b : BayId) (f : Nat) (v : BitVec 64) : State :=
  modBay s b (fun y => { y with afifo := mset [] y.afifo f (mget [] (bayOf s b).afifo f ++ [v]) })

theorem afPut_eq (s : State) (b : BayId) (f : Nat) (v : BitVec 64) :
    afPut s b f v = wr (afAppend s b f v) (.issue b) (issAfLevel f) (mget [] (bayOf s b).afifo f ++ [v]).length := rfl

theorem InBay.afAppend (h : InBay b ks s t) : InBay b ks s (afAppend t b f v) := h.modBay

theorem InBay.afPut (h : InBay b ks s t) : InBay b (ks ++ [(issAfLevel f).key (.issue b)]) s (afPut t b f v) := h.afAppend.wr

theorem bayOf_afPut (hb : Rising s.bays) :
    bayOf (afPut s b f v) b = { bayOf s b with afifo := mset [] (bayOf s b).afifo f (mget [] (bayOf s b).afifo f ++ [v]) } := by
  rw [afPut_eq, bayOf_wr, afAppend, bayOf_modBay hb]

/-- R183: the entry is the FIFO's last. -/
theorem afPut_enters (hb : Rising s.bays) : mget [] (bayOf (afPut s b f v) b).afifo f = mget [] (bayOf s b).afifo f ++ [v] := by
  rw [bayOf_afPut hb]
  exact mget_mset_listed (by simp)

theorem docPcV_afPut (hs : Rising s.regs) (hf : f < 4) : docPcV (afPut s b f v) b = docPcV s b :=
  docPcV_congr (rd_wr_off (s := afAppend s b f v) hs _ ⟨by decide, by simp only [issAfLevel]; omega, by simp only [issAfLevel, docPc]; omega⟩)

theorem exec_dcAfp {rs1 rs2 : Fin 32} {g : Fin 4} (hready : docReady s b = true) (hf : (docX s b rs2.val).toNat % 4 = g.val)
    (hfits : afFits s b g.val = true) : exec (.dcAfp b rs1 rs2) s = .next (docDone (afPut s b g.val (docX s b rs1.val)) b 0 0) := by
  obtain rfl : (⟨(docX s b rs2.val).toNat % 4, Nat.mod_lt _ (by decide)⟩ : Fin 4) = g := Fin.ext hf
  show execDcAfp b rs1 rs2 s = _
  rw [execDcAfp, if_pos hready, dcAfpAct]
  simp only [hfits, if_true]
end

/-! ### Waits and signals (R175). -/

section
variable {s : State} {b : BayId} {w : Nat}

theorem byteIdx_lt (w : Nat) : byteIdx w < 64 := Nat.mod_lt _ (by decide)

/-- R160: a byte of a legal instruction names a flag, or a counter below 16. -/
theorem dcByte_ok (h : dcByteBad w = false) : byteV w = true ∧ (byteK w = true → byteIdx w < 16) := by
  simp only [dcByteBad, byteBad, Bool.or_eq_false_iff, Bool.not_eq_false'] at h
  obtain ⟨hv, -, hk⟩ := h
  refine ⟨hv, fun hc => ?_⟩
  simpa [hv, hc] using hk

theorem waitTake_onlyRegs (s : State) (b : BayId) (w : Nat) : OnlyRegs s (waitTake s b w) := by
  unfold waitTake
  split
  · exact .wr ..
  · rfl

theorem waitTake_fields (hs : Rising s.regs) (b : BayId) (w : Nat) :
    Rising (waitTake s b w).regs ∧ FieldsBut [syncFlags.key (.sync b)] s (waitTake s b w) := by
  unfold waitTake
  split
  · exact ⟨wr_rising _ _ _ _ hs, .wr _ _ _ _ hs⟩
  · exact ⟨hs, .refl _ _⟩

/-- R175: a satisfied wait on a flag consumes it. -/
theorem flagIs_waitTake (hs : Rising s.regs) (hbad : dcByteBad w = false) (hk : byteK w = false) : flagIs (waitTake s b w) b (byteIdx w) = false := by
  have htake : waitTake s b w = flagClear s b (byteIdx w) := if_pos (by simp [(dcByte_ok hbad).1, hk])
  rw [htake, flagIs_flagClear hs _ (byteIdx_lt w)]
  simp

theorem signal_rising (hs : Rising s.regs) (b : BayId) (w : Nat) : Rising (signal s b w).regs := by
  unfold signal
  split
  · split
    · exact wr_rising _ _ _ _ hs
    · exact (flagSignal_fields hs b _).1
  · exact hs

theorem docPcV_signal (hs : Rising s.regs) (b : BayId) (w : Nat) : docPcV (signal s b w) b = docPcV s b := by
  refine docPcV_congr ?_
  unfold signal flagSignal
  split
  · split
    · exact rd_wr_off hs _ ⟨by decide, by simp only [syncCnt]; omega, by simp only [syncCnt, docPc]; omega⟩
    · split <;> exact rd_wr_off hs _
  · rfl

/-- R175: a signal sets its flag, or counts. -/
theorem signal_acts (hs : Rising s.regs) (hbad : dcByteBad w = false) :
    (byteK w = false → flagIs (signal s b w) b (byteIdx w) = true) ∧
    (byteK w = true → cnt (signal s b w) b (byteIdx w) = (cnt s b (byteIdx w) + 1) % 2 ^ 32) := by
  obtain ⟨hv, hlt⟩ := dcByte_ok hbad
  refine ⟨fun hk => ?_, fun hk => ?_⟩
  · have hsig : signal s b w = flagSignal s b (byteIdx w) := by simp [signal, hv, hk]
    rw [hsig, flagIs_flagSignal hs _ (byteIdx_lt w)]
    simp
  · have hsig : signal s b w = cntAdd s b (byteIdx w) 1 := by simp [signal, hv, hk, Nat.mod_eq_of_lt (hlt hk)]
    rw [hsig, cnt_cntAdd hs]
end

/-! ### What each instruction does. -/

section
variable {s : State} {b : BayId}

theorem exec_dcWait {rs1 rs2 : Fin 32} {w : BitVec 8} {t' : BitVec 32} (hready : docReady s b = true)
    (hw : BitVec.ofNat 8 (docX s b rs1.val).toNat = w) (ht : BitVec.ofNat 32 (docX s b rs2.val).toNat = t') (hbad : dcByteBad w.toNat = false) :
    exec (.dcWait b rs1 rs2) s = .next (if docWaitOk s b w.toNat t'.toNat then docDone (waitTake s b w.toNat) b 0 0
      else wr (wr (docStallIn s b (.wait w t') docStatusWaiting) (.doc b) docAwait w.toNat) (.doc b) docAwaitThr t'.toNat) := by
  show execDcWait b rs1 rs2 s = _
  rw [execDcWait, if_pos hready, dcWaitAct]
  simp only [hw, ht, hbad, Bool.false_eq_true, if_false]

theorem exec_dcSig {rs1 : Fin 32} (hready : docReady s b = true) :
    exec (.dcSig b rs1) s = .next (if dcByteBad ((docX s b rs1.val).toNat % 256) then docIllegal s b (encDc 4 0 rs1.val 0)
      else docDone (signal s b ((docX s b rs1.val).toNat % 256)) b 0 0) := by
  show execDcSig b rs1 s = _
  rw [execDcSig, if_pos hready, dcSigAct]

variable (hinv : StateInv s)
include hinv

/-- R160: a DC.PUSH that waits for room completes once there is room. -/
theorem dcPushRoom_completes {rd' : Fin 32} {q : QueueId} {ws : List (BitVec 32)} (hst : pgState s (.doc b) = 4)
    (hstall : (bayOf s b).doc.stall = .push q rd' ws) (hfits : pushFits s b q ws.length = true) :
    ∃ t, exec (.dcPushRoom b) s = .next t ∧ (queueOf t b q).words = (queueOf s b q).words ++ [(none, ws)] ∧
      (bayOf t b).doc.stall = .none ∧ rd t (.doc b) docStatusPushStall = 0 ∧ docPcV t b = docPcV s b + 4 := by
  have hexec : exec (.dcPushRoom b) s = .next (pushDone (docUnstall s b docStatusPushStall) b q rd'.val ws) := by
    show execDcPushRoom b s = _
    unfold execDcPushRoom
    simp only [hstall, hst, hfits, and_self, if_true]
  have hfree : InBay b _ s (docUnstall s b docStatusPushStall) := (InBay.of_inv hinv).docUnstall
  obtain ⟨hwords, hpc, hnone, -⟩ := pushDone_enters (q := q) (ws := ws) hfree.regs hfree.bays rd'.val
  refine ⟨_, hexec, ?_, ?_, ?_, ?_⟩
  · rw [hwords, queueOf_docUnstall hinv.bays_rising]
  · rw [hnone, bayOf_docUnstall hinv.bays_rising]
  · rw [rd_pushDone hfree.regs, rd_docUnstall hinv.regs_rising]
  · rw [hpc, docPcV_docUnstall hinv.regs_rising]

/-- R160: DC.AFP appends its value where there is room. -/
theorem dcAfp_completes {rs1 rs2 : Fin 32} {f : Fin 4} (hready : docReady s b = true) (hf : (docX s b rs2.val).toNat % 4 = f.val)
    (hfits : afFits s b f.val = true) :
    ∃ t, exec (.dcAfp b rs1 rs2) s = .next t ∧
      mget [] (bayOf t b).afifo f.val = mget [] (bayOf s b).afifo f.val ++ [docX s b rs1.val] ∧ docPcV t b = docPcV s b + 4 ∧
      (bayOf t b).doc = (bayOf s b).doc ∧ OtherBays b s t := by
  have hput : InBay b _ s (afPut s b f.val (docX s b rs1.val)) := (InBay.of_inv hinv).afPut
  refine ⟨_, exec_dcAfp hready hf hfits, ?_, ?_, ?_, hput.docDone.others⟩
  · rw [docDone_plain, docGo, bayOf_wr, afPut_enters hinv.bays_rising]
  · rw [docPcV_docDone hput.regs, docPcV_afPut hinv.regs_rising f.isLt]
  · rw [docDone_plain, docGo, bayOf_wr, bayOf_afPut hinv.bays_rising]

/-- R160: a DC.AFP that waits for room completes once there is room. -/
theorem dcAfpRoom_completes {f : Fin 4} {v : BitVec 64} (hst : pgState s (.doc b) = 4) (hstall : (bayOf s b).doc.stall = .afp f v)
    (hfits : afFits s b f.val = true) :
    ∃ t, exec (.dcAfpRoom b) s = .next t ∧ mget [] (bayOf t b).afifo f.val = mget [] (bayOf s b).afifo f.val ++ [v] ∧
      (bayOf t b).doc.stall = .none ∧ rd t (.doc b) docStatusAfpStall = 0 ∧ docPcV t b = docPcV s b + 4 := by
  have hexec : exec (.dcAfpRoom b) s = .next (docDone (afPut (docUnstall s b docStatusAfpStall) b f.val v) b 0 0) := by
    show execDcAfpRoom b s = _
    unfold execDcAfpRoom
    simp only [hstall, hst, hfits, and_self, if_true]
  have hfree : InBay b _ s (docUnstall s b docStatusAfpStall) := (InBay.of_inv hinv).docUnstall
  have hput : InBay b _ s (afPut (docUnstall s b docStatusAfpStall) b f.val v) := hfree.afPut
  have happ : InBay b _ s (afAppend (docUnstall s b docStatusAfpStall) b f.val v) := hfree.afAppend
  refine ⟨_, hexec, ?_, ?_, ?_, ?_⟩
  · rw [docDone_plain, docGo, bayOf_wr, afPut_enters hfree.bays, bayOf_docUnstall hinv.bays_rising]
  · rw [docDone_plain, docGo, bayOf_wr, bayOf_afPut hfree.bays, bayOf_docUnstall hinv.bays_rising]
  · have hstatus : rd (afAppend (docUnstall s b docStatusAfpStall) b f.val v) (.doc b) docStatusAfpStall = 0 := rd_docUnstall hinv.regs_rising
    rw [rd_docDone hput.regs, afPut_eq, rd_wr_off happ.regs _
      ⟨by decide, by simp only [issAfLevel]; omega, by simp only [issAfLevel, docStatusAfpStall]; omega⟩, hstatus]
  · rw [docPcV_docDone hput.regs, docPcV_afPut hfree.regs f.isLt, docPcV_docUnstall hinv.regs_rising]

theorem docPcV_waitTake (w : Nat) : docPcV (waitTake s b w) b = docPcV s b :=
  docPcV_congr ((waitTake_fields hinv.regs_rising b w).2 _ _
    (by simpa using key_ne_off (r := docPc) (r' := syncFlags) _ _ (by decide) (by decide) (by decide)))

/-- R175: a satisfied wait consumes its flag, and the docent goes on. -/
theorem dcWait_completes {w : Nat} (hbad : dcByteBad w = false) :
    docPcV (docDone (waitTake s b w) b 0 0) b = docPcV s b + 4 ∧ OnlyRegs s (docDone (waitTake s b w) b 0 0) ∧
    (byteK w = false → flagIs (docDone (waitTake s b w) b 0 0) b (byteIdx w) = false) ∧
    FieldsBut [docPc.key (.doc b), syncFlags.key (.sync b)] s (docDone (waitTake s b w) b 0 0) := by
  obtain ⟨hr, hf⟩ := waitTake_fields hinv.regs_rising b w
  refine ⟨?_, (waitTake_onlyRegs s b w).trans (.wr ..), fun hk => ?_, ?_⟩
  · rw [docPcV_docDone hr, docPcV_waitTake hinv]
  · rw [flagIs, rd_docDone hr]
    exact flagIs_waitTake hinv.regs_rising hbad hk
  · exact (hf.trans (.wr _ (.doc b) docPc _ hr)).mono (by simp)

/-- R160: an unsatisfied wait stalls the docent, and AWAIT names it. -/
theorem dcWait_stalls (w : BitVec 8) (t' : BitVec 32) {x : State}
    (hx : x = wr (wr (docStallIn s b (.wait w t') docStatusWaiting) (.doc b) docAwait w.toNat) (.doc b) docAwaitThr t'.toNat) :
    (bayOf x b).doc.stall = .wait w t' ∧ rd x (.doc b) docStatusWaiting = 1 ∧ rd x (.doc b) docAwait = w.toNat ∧
    rd x (.doc b) docAwaitThr = t'.toNat ∧ docPcV x b = docPcV s b := by
  have hst : Rising (docStallIn s b (.wait w t') docStatusWaiting).regs := wr_rising _ _ _ _ hinv.regs_rising
  have haw := wr_rising _ (.doc b) docAwait w.toNat hst
  rw [hx]
  refine ⟨?_, ?_, ?_, ?_, ?_⟩
  · rw [bayOf_wr, bayOf_wr, bayOf_docStallIn hinv.bays_rising]
  · rw [rd_wr_off haw, rd_wr_off hst, rd_docStallIn hinv.regs_rising]
  · rw [rd_wr_off haw, rd_wr_same _ _ _ _ hst (by decide)]
    exact Nat.mod_eq_of_lt w.isLt
  · rw [rd_wr_same _ _ _ _ haw (by decide)]
    exact Nat.mod_eq_of_lt t'.isLt
  · rw [docPcV_congr (rd_wr_off haw _), docPcV_congr (rd_wr_off hst _), docPcV_docStallIn hinv.regs_rising]

/-- R175: the docent's wait is satisfied. -/
theorem dcWaitSatisfied_completes {w : BitVec 8} {t' : BitVec 32} (hst : pgState s (.doc b) = 4) (hstall : (bayOf s b).doc.stall = .wait w t')
    (hok : docWaitOk s b w.toNat t'.toNat = true) :
    ∃ t, exec (.dcWaitSatisfied b) s = .next t ∧ (bayOf t b).doc.stall = .none ∧ rd t (.doc b) docStatusWaiting = 0 ∧
      docPcV t b = docPcV s b + 4 := by
  have hexec : exec (.dcWaitSatisfied b) s = .next (docDone (waitTake (docUnstall s b docStatusWaiting) b w.toNat) b 0 0) := by
    show execDcWaitSatisfied b s = _
    unfold execDcWaitSatisfied
    simp only [hstall, hst, hok, and_self, if_true]
  have hfree : Rising (docUnstall s b docStatusWaiting).regs := wr_rising _ _ _ _ hinv.regs_rising
  obtain ⟨hr, hf⟩ := waitTake_fields hfree b w.toNat
  have hbays := (waitTake_onlyRegs (docUnstall s b docStatusWaiting) b w.toNat).errors.bays
  have hkept : ∀ r ∈ [docStatusWaiting, docPc], rd (waitTake (docUnstall s b docStatusWaiting) b w.toNat) (.doc b) r =
      rd (docUnstall s b docStatusWaiting) (.doc b) r := fun r hr => hf _ _ (by
    have hplace : ∀ x ∈ [docStatusWaiting, docPc], x.off * 8 + x.lsb < 32768 ∧
        x.off * 8 + x.lsb ≠ syncFlags.off * 8 + syncFlags.lsb := by decide
    simpa using key_ne_off (.doc b) (.sync b) (hplace r hr).1 (by decide) (hplace r hr).2)
  refine ⟨_, hexec, ?_, ?_, ?_⟩
  · rw [docDone_plain, docGo, bayOf_wr, bayOf, hbays, ← bayOf, bayOf_docUnstall hinv.bays_rising]
  · rw [rd_docDone hr, hkept _ (by simp), rd_docUnstall hinv.regs_rising]
  · rw [docPcV_docDone hr, docPcV_congr (hkept _ (by simp)), docPcV_docUnstall hinv.regs_rising]

/-- R160: DC.SIG signals, and the docent goes on. -/
theorem dcSig_completes {w : Nat} (hbad : dcByteBad w = false) :
    docPcV (docDone (signal s b w) b 0 0) b = docPcV s b + 4 ∧ OnlyRegs s (docDone (signal s b w) b 0 0) ∧
    (byteK w = false → flagIs (docDone (signal s b w) b 0 0) b (byteIdx w) = true) ∧
    (byteK w = true → cnt (docDone (signal s b w) b 0 0) b (byteIdx w) = (cnt s b (byteIdx w) + 1) % 2 ^ 32) := by
  have hr := signal_rising hinv.regs_rising b w
  obtain ⟨hflag, hcnt⟩ := signal_acts (b := b) hinv.regs_rising hbad
  refine ⟨?_, (signal_regs s b w).trans (.wr ..), fun hk => ?_, fun hk => ?_⟩
  · rw [docPcV_docDone hr, docPcV_signal hinv.regs_rising]
  · rw [flagIs, rd_docDone hr]
    exact hflag hk
  · rw [← hcnt hk]
    exact rd_docDone hr _ _ ⟨syncCnt_lt ((dcByte_ok hbad).2 hk), by decide, by simp only [syncCnt, docPc]; omega⟩

/-- R160: an instruction with a result in a register other than x0. -/
theorem docDone_gives (hx : Rising (bayOf s b).doc.x) {r : Fin 32} (hr : r ≠ 0) (v : BitVec 64) :
    docPcV (docDone s b r.val v) b = docPcV s b + 4 ∧ docX (docDone s b r.val v) b r.val = v ∧
    FieldsBut [docPc.key (.doc b)] s (docDone s b r.val v) ∧ OtherBays b s (docDone s b r.val v) := by
  have hdone := (InBay.of_inv hinv (b := b)).docDone (r := r.val) (v := v)
  exact ⟨docPcV_docDone hinv.regs_rising .., docX_setDocX_same hinv.bays_rising hx (fun h => hr (Fin.ext h)) v, hdone.fields, hdone.others⟩
end

/-! ### The obligation. -/

/-- Settles O20: each instruction by its equation and the rules of queues, FIFOs, flags, counters and stalls. -/
theorem docentPushesWaitsAndReads : Obligations.DocentPushesWaitsAndReads := by
  unfold Obligations.DocentPushesWaitsAndReads
  refine ⟨?push, ?pushStall, ?pushRoom, ?afp, ?afpRoom, ?wait, ?waitSatisfied, ?sig, ?test, ?sum, ?illegal⟩
  case push =>
    intro s b rd' rs1 rs2 q ws hinv hready hx hq hws hfits
    obtain ⟨hwords, hpc, -, hothers⟩ := pushDone_enters (b := b) (q := q) (ws := ws) hinv.regs_rising hinv.bays_rising rd'.val
    obtain ⟨hpos, hkept⟩ := pushDone_reads (q := q) (ws := ws) hinv.regs_rising hinv.bays_rising hx rd'.val
    exact ⟨_, (exec_dcPush hready hq hws).trans (by rw [if_pos hfits]), hwords, hpc, hpos, hkept, hothers⟩
  case pushStall =>
    intro s b rd' rs1 rs2 q ws hinv hready hq hws hfits
    have hbay := bayOf_docStallIn (b := b) hinv.bays_rising (.push q rd' ws) docStatusPushStall
    exact ⟨_, (exec_dcPush hready hq hws).trans (by rw [if_neg (by simp [hfits])]), by rw [hbay], rd_docStallIn hinv.regs_rising _,
      docPcV_docStallIn hinv.regs_rising _, congrArg IssQueue.words (queueOf_congr (by rw [hbay]))⟩
  case pushRoom => exact fun s b rd' q ws hinv => dcPushRoom_completes hinv
  case afp => exact fun s b rs1 rs2 f hinv => dcAfp_completes hinv
  case afpRoom => exact fun s b f v hinv => dcAfpRoom_completes hinv
  case wait =>
    intro s b rs1 rs2 w t' hinv hready hw ht hbad
    have hexec := exec_dcWait hready hw ht hbad
    exact ⟨fun hok => ⟨_, hexec.trans (by rw [if_pos hok]), dcWait_completes hinv hbad⟩,
      fun hok => ⟨_, hexec.trans (by rw [if_neg (by simp [hok])]), dcWait_stalls hinv w t' rfl⟩⟩
  case waitSatisfied => exact fun s b w t' hinv => dcWaitSatisfied_completes hinv
  case sig =>
    intro s b rs1 hinv hready hbad
    exact ⟨_, (exec_dcSig hready).trans (by rw [if_neg (by simp [hbad])]), dcSig_completes hinv hbad⟩
  case test =>
    intro s b rd' rs1 hinv hready hx hbad hrd
    refine ⟨_, ?_, docDone_gives hinv hx hrd _⟩
    show execDcTest b rd' rs1 s = _
    rw [execDcTest, if_pos hready, dcTestAct]
    simp only [hbad, Bool.false_eq_true, if_false]
  case sum =>
    intro s b rd' rs1 rs2 v hinv hready hx hrd hv
    refine ⟨_, ?_, docDone_gives hinv hx hrd _⟩
    show execDcSum b rd' rs1 rs2 s = _
    rw [execDcSum, if_pos hready, dcSumAct]
    simp only [hv]
  case illegal =>
    intro s b rs1 hinv hready hbad
    obtain ⟨hst, hbit, hcause, hpc, -⟩ := docTrap_faults hinv.regs_rising (docReady_iff.mp hready).1 2
      (Config.trapValue 2 (BitVec.ofNat 32 (encDc 4 0 rs1.val 0)))
    exact ⟨_, (exec_dcSig hready).trans (by rw [if_pos hbad, docIllegal]), hst, hcause, hpc, hbit⟩

end Sys2Proof.Machine
end

section
/-! Words enter an issue queue and frames end (R162, R174, R178); writes to the ISSUE and SYNC pages (R183, R192). -/

namespace Sys2Proof.Machine

/-! ### WORD_DECODE. -/

section
variable {s : State} {b : BayId} {q : QueueId}

/-- R174: a sound word without a CTL slot that joins an empty queue of decoded words is its head, ready to issue. -/
theorem headPump_joins {d : Decoded} {u : IssQueue} (hb : Rising s.bays) (hst : pgState s (.issue b) = 4) (hu : queueOf s b q = u)
    (hdec : u.decoded = [d]) (hd : d.checked = false) (hbad : d.bad = none) (hctl : d.slot 0 = none)
    (hopen : (List.range 6).any d.open_ = true) :
    queueOf (headPump s b q) b q = { u with decoded := [{ d with checked := true, opens := none }] } := by
  have hcheck := headCheck_plain (hu ▸ hdec) hd hbad hctl hopen
  have hqueue : queueOf (headCheck s b q) b q = { u with decoded := [{ d with checked := true, opens := none }] } := by
    rw [hcheck, hu]
    exact queueOf_setQueue_of_ne hb fun he => by simpa using congrArg IssQueue.decoded he
  rw [headPump_once hst (headCheck_checked (congrArg IssQueue.decoded hqueue) rfl), hqueue]

/-- The words of a queue without frames: the first is the next. -/
theorem nextWord_top {a : Option (BitVec 64)} {raw : List (BitVec 32)} {rest : List (Option (BitVec 64) × List (BitVec 32))}
    (hw : (queueOf s b q).words = (a, raw) :: rest) (hfr : (queueOf s b q).frames = []) :
    nextWord s b q = some (raw, a, false, setQueue s b q { queueOf s b q with words := rest }) := by
  unfold nextWord
  simp only [hfr, hw]

/-- R177: at depth 0 a word reads the page's parameters. -/
theorem paramOf_top (h : (queueOf s b q).frames = []) : paramOf s b q = fun n => rd s (.issue b) (issQParam q.val n) := by
  funext n
  simp [paramOf, h]
end

/-- A word as WORD_DECODE leaves it. -/
def freshDecoded (slots : List (Option Nat)) (thr : List Nat) (pay : List Byte) (raw : List (BitVec 32)) (a : Option (BitVec 64)) (seq : Nat) :
    Decoded :=
  { slots := slots, thr := thr, payload := pay, raw := raw, addr := a, ring := a.isSome, bad := none, issued := [], seq := seq }

/-- The decoded word joins its queue as the next of the bay's decodes. -/
def decodedJoins (s : State) (b : BayId) (q : QueueId) (d : Decoded) : State :=
  modQueue (modBay s b (fun y => { y with nextDec := y.nextDec + 1 })) b q (fun u => { u with decoded := u.decoded ++ [d] })

theorem InBay.decodedJoins {s t : State} {b : BayId} {ks : List Nat} {q : QueueId} {d : Decoded} (h : InBay b ks s t) :
    InBay b ks s (decodedJoins t b q d) := by
  have hcounted : InBay b ks s (Machine.modBay t b (fun y => { y with nextDec := y.nextDec + 1 })) := h.modBay
  exact hcounted.modQueue

theorem queueOf_decodedJoins {s : State} {b : BayId} {q : QueueId} (hb : Rising s.bays) (hq : Rising (bayOf s b).queues) (d : Decoded) :
    queueOf (decodedJoins s b q d) b q = { queueOf s b q with decoded := (queueOf s b q).decoded ++ [d] } := by
  have hbay := bayOf_modBay hb b (fun y => { y with nextDec := y.nextDec + 1 })
  have hsame : queueOf (modBay s b (fun y => { y with nextDec := y.nextDec + 1 })) b q = queueOf s b q := queueOf_congr (by rw [hbay])
  rw [decodedJoins, queueOf_modQueue (hb.mset _ _ _) (by rw [hbay]; exact hq), hsame]

section
variable {s : State} {b : BayId} {q : QueueId} {a : Option (BitVec 64)} {raw : List (BitVec 32)}
  {rest : List (Option (BitVec 64) × List (BitVec 32))} {slots : List (Option Nat)} {thr : List Nat} {pay : List Byte}

/-- R163, R177: the queue's next word is decoded with its references resolved and joins the decoded words. -/
theorem exec_wordDecode {x : State} (hst : pgState s (.issue b) = 4) (hdec : (queueOf s b q).decoded = []) (hfr : (queueOf s b q).frames = [])
    (hrec : (queueOf s b q).recording = none) (hnext : nextWord s b q = some (raw, a, false, x))
    (hword : decodeWord raw (arrCount x b) (paramOf x b q) 0 = .inl (slots, thr, pay)) :
    exec (.wordDecode b q .none) s =
      .next (headPump (decodedJoins x b q (freshDecoded slots thr pay raw a (bayOf x b).nextDec)) b q) := by
  show execWordDecode b q .none s = _
  unfold execWordDecode
  simp only [storeUpset, headPump_nil hdec, hst, hdec, hnext, hfr, hrec, List.map_nil, List.foldl_nil, hword, List.length_nil, List.any_nil,
    List.isEmpty_nil]
  simp only [ne_eq, not_true_eq_false, Nat.le_zero, OfNat.ofNat_ne_zero, Bool.false_eq_true, or_self, if_false, Bool.and_true]
  rfl

theorem wordDecode_decodes (hinv : StateInv s) (hst : pgState s (.issue b) = 4) (hq : Rising (bayOf s b).queues)
    (hw : (queueOf s b q).words = (a, raw) :: rest) (hdec : (queueOf s b q).decoded = []) (hfr : (queueOf s b q).frames = [])
    (hrec : (queueOf s b q).recording = none)
    (hword : decodeWord raw (arrCount s b) (fun n => rd s (.issue b) (issQParam q.val n)) 0 = .inl (slots, thr, pay))
    (hctl : slots.getD 0 none = none) (hslot : ∃ i, i < 6 ∧ (slots.getD i none).isSome = true) :
    ∃ t, exec (.wordDecode b q .none) s = .next t ∧ (queueOf t b q).words = rest ∧
      ∃ d, (queueOf t b q).decoded = [d] ∧ d.slots = slots ∧ d.thr = thr ∧ d.payload = pay ∧ d.checked = true := by
  have htaken : InBay b [] s (setQueue s b q { queueOf s b q with words := rest }) := (InBay.of_inv hinv).setQueue
  have hqueue : queueOf (setQueue s b q { queueOf s b q with words := rest }) b q = { queueOf s b q with words := rest } :=
    queueOf_setQueue hinv.bays_rising hq _
  have hparam : paramOf (setQueue s b q { queueOf s b q with words := rest }) b q = fun n => rd s (.issue b) (issQParam q.val n) :=
    paramOf_top (by rw [hqueue]; exact hfr)
  have hcount : arrCount (setQueue s b q { queueOf s b q with words := rest }) b = arrCount s b := rfl
  have hexec := exec_wordDecode hst hdec hfr hrec (nextWord_top hw hfr) (by rw [hcount, hparam]; exact hword)
  generalize (bayOf (setQueue s b q { queueOf s b q with words := rest }) b).nextDec = seq at hexec
  have hjoin := queueOf_decodedJoins (q := q) htaken.bays (htaken.queues hq) (freshDecoded slots thr pay raw a seq)
  have hjoined : InBay b [] s (decodedJoins (setQueue s b q { queueOf s b q with words := rest }) b q (freshDecoded slots thr pay raw a seq)) :=
    htaken.decodedJoins
  obtain ⟨i, hi, hsome⟩ := hslot
  have hopen : (List.range 6).any (freshDecoded slots thr pay raw a seq).open_ = true :=
    List.any_eq_true.mpr ⟨i, List.mem_range.mpr hi, by
      have hissued : (freshDecoded slots thr pay raw a seq).issued.getD i false = false := rfl
      rw [Decoded.open_, hissued]
      exact (Bool.and_true _).trans hsome⟩
  have hhead := headPump_joins (d := freshDecoded slots thr pay raw a seq) hjoined.bays hst hjoin (by rw [hqueue]; exact congrArg (· ++ _) hdec)
    rfl rfl hctl hopen
  exact ⟨_, hexec, by rw [hhead, hqueue], _, by rw [hhead], rfl, rfl, rfl, rfl⟩
end

/-! ### RING_FETCH and FRAME_RETURN. -/

section
variable {s : State} {b : BayId} {q : QueueId}

/-- R162: the ring's next word, which PROD covers whole and for which there is room, joins the queue. -/
theorem exec_ringFetch {s1 s2 : State} {chk : Check} {h ws : List (BitVec 32)} (hst : pgState s (.issue b) = 4)
    (hcfg : rd s (.issue b) (issQQcfg q.val) = 1) (hsize : rd s (.issue b) (issQRingSize q.val) ≠ 0)
    (hhead : ringWords b (rd s (.issue b) (issQRingBase q.val)) (rd s (.issue b) (issQRingSize q.val)) chk 1 (rd s (.issue b) (issQCons q.val)) [] s =
      ((.ok [], h), s1))
    (hpast : (rd s (.issue b) (issQProd q.val) + 2 ^ 32 - rd s (.issue b) (issQCons q.val)) % 2 ^ 32 ≤ rd s (.issue b) (issQRingSize q.val))
    (hlen : wordLen (wAt h 0) ≤ (rd s (.issue b) (issQProd q.val) + 2 ^ 32 - rd s (.issue b) (issQCons q.val)) % 2 ^ 32)
    (hroom : queueRoom s1 b q (wordLen (wAt h 0)) = true)
    (hwhole : ringWords b (rd s (.issue b) (issQRingBase q.val)) (rd s (.issue b) (issQRingSize q.val)) chk (wordLen (wAt h 0))
      (rd s (.issue b) (issQCons q.val)) [] s1 = ((.ok [], ws), s2)) :
    ∃ a, exec (.ringFetch b q chk) s = .next (wrapAdd (queuePut s2 b q (some a) ws) (.issue b) (issQCons q.val) (wordLen (wAt h 0))) := by
  have hpos : 0 < wordLen (wAt h 0) := Nat.lt_of_lt_of_le Nat.zero_lt_one (Nat.le_max_left ..)
  refine ⟨BitVec.ofNat 64 (rd s (.issue b) (issQRingBase q.val) +
    4 * (rd s (.issue b) (issQCons q.val) % rd s (.issue b) (issQRingSize q.val))), ?_⟩
  show execRingFetch b q chk s = _
  unfold execRingFetch
  have hsome : (rd s (.issue b) (issQProd q.val) + 2 ^ 32 - rd s (.issue b) (issQCons q.val)) % 2 ^ 32 ≠ 0 := by omega
  simp only [hst, hcfg, hsome, hsize, hhead, Nat.not_lt.mpr hpast, Nat.not_lt.mpr hlen, hroom, hwhole, ne_eq, not_true_eq_false, one_ne_zero,
    or_self, if_false, decide_false, Bool.false_eq_true, Bool.not_true]

/-- R178: the end of the last repetition takes the outermost frame off. -/
theorem frameReturn_pops {f : Frame} (hinv : StateInv s) (hst : pgState s (.issue b) = 4) (hq : Rising (bayOf s b).queues)
    (hfr : (queueOf s b q).frames = [f]) (hdec : (queueOf s b q).decoded = []) (hoff : f.off = f.len) (hmore : f.more = 0) :
    ∃ t, exec (.frameReturn b q) s = .next t ∧ (queueOf t b q).frames = [] ∧ (queueOf t b q).words = (queueOf s b q).words := by
  have hexec : exec (.frameReturn b q) s = .next (modQueue (framePop s b q) b q frameLoop) := by
    show execFrameReturn b q s = _
    unfold execFrameReturn
    simp [hfr, hst, hdec, hoff, hmore]
  obtain ⟨hb, hq', hpop⟩ := framePop_queue hinv.bays_rising hq hfr
  have hlast : queueOf (modQueue (framePop s b q) b q frameLoop) b q = { queueOf s b q with frames := [] } := by
    rw [queueOf_modQueue hb hq', hpop]
    rfl
  exact ⟨_, hexec, by rw [hlast], by rw [hlast]⟩
end

end Sys2Proof.Machine
end

section
/-! Writes to the ISSUE and SYNC pages (R162, R183, R192). -/

namespace Sys2Proof.Machine

/-! ### DOORBELL (R162). -/

section
variable {s : State} {b : BayId} {q : QueueId}

theorem doorbell_absent (n : Nat) (h : pgState s (.issue b) = 0 ∨ n = 0) : doorbell s b q n = s := if_pos h

/-- R162: a doorbell adds to PROD, and past the ring's size sets DB_OVR. -/
theorem doorbell_adds {n : Nat} (hst : pgState s (.issue b) ≠ 0) (hn : n ≠ 0) : doorbell s b q n =
    if rd (wrapAdd s (.issue b) (issQProd q.val) n) (.issue b) (issQRingSize q.val) <
      (rd (wrapAdd s (.issue b) (issQProd q.val) n) (.issue b) (issQProd q.val) + 2 ^ 32 -
        rd (wrapAdd s (.issue b) (issQProd q.val) n) (.issue b) (issQCons q.val)) % 2 ^ 32
    then raise (wrapAdd s (.issue b) (issQProd q.val) n) (.issue b) { bit := 19, unit := q.val }
    else wrapAdd s (.issue b) (issQProd q.val) n := if_neg (by tauto)

/-- A queue's register outside the header is none of an error's. -/
theorem rd_raise_own {p : Page} {r : Row} {e : Err} (hs : Rising s.regs) (he : e.stop = false) (hp : r.home p ≠ .hub)
    (hr : r.off * 8 + r.lsb < 32768 ∧ 0x800 ≤ r.off * 8 + r.lsb) (hk : r.key p ∉ hookKeys p) : rd (raise s p e) p r = rd s p r :=
  raise_fields s p e he hs p r fun h => not_stopKeys hp hr.1 hr.2 hk (List.mem_append_left _ h)

/-- R162: what a doorbell does to PROD, and where it goes past the ring's size. -/
theorem doorbell_acts (hs : Rising s.regs) (hst : pgState s (.issue b) ≠ 0) {n : Nat} (hn : n ≠ 0) :
    rd (doorbell s b q n) (.issue b) (issQProd q.val) = (rd s (.issue b) (issQProd q.val) + n) % 2 ^ 32 ∧
    ((rd (doorbell s b q n) (.issue b) (issQProd q.val) + 2 ^ 32 - rd (doorbell s b q n) (.issue b) (issQCons q.val)) % 2 ^ 32 ≤
        rd s (.issue b) (issQRingSize q.val) →
      OnlyRegs s (doorbell s b q n) ∧ FieldsBut [(issQProd q.val).key (.issue b)] s (doorbell s b q n)) ∧
    (rd s (.issue b) (issQRingSize q.val) <
        (rd (doorbell s b q n) (.issue b) (issQProd q.val) + 2 ^ 32 - rd (doorbell s b q n) (.issue b) (issQCons q.val)) % 2 ^ 32 →
      bitOf (rd (doorbell s b q n) (.issue b) hdrErr) 19 = true ∧ OnlyErrors s (doorbell s b q n)) := by
  have hx : Rising (wrapAdd s (.issue b) (issQProd q.val) n).regs := wr_rising _ _ _ _ hs
  have hprod : rd (wrapAdd s (.issue b) (issQProd q.val) n) (.issue b) (issQProd q.val) = (rd s (.issue b) (issQProd q.val) + n) % 2 ^ 32 :=
    rd_wr_same _ _ _ _ hs (show 32 ≤ 64 by decide)
  have hsize : rd (wrapAdd s (.issue b) (issQProd q.val) n) (.issue b) (issQRingSize q.val) = rd s (.issue b) (issQRingSize q.val) :=
    rd_wr_off hs _ ⟨by simp only [issQRingSize]; omega, by simp only [issQProd]; omega, by simp only [issQRingSize, issQProd]; omega⟩
  have honly : OnlyRegs s (wrapAdd s (.issue b) (issQProd q.val) n) := .wr ..
  have hfields : FieldsBut [(issQProd q.val).key (.issue b)] s (wrapAdd s (.issue b) (issQProd q.val) n) := .wr _ _ _ _ hs
  have hthere : pgState (wrapAdd s (.issue b) (issQProd q.val) n) (.issue b) ≠ 0 := by
    rwa [wrapAdd, pgState_wr hs _ _ ⟨by simp only [issQProd]; omega, by simp [issQProd]; omega⟩]
  rw [doorbell_adds hst hn, hsize]
  generalize wrapAdd s (.issue b) (issQProd q.val) n = x at *
  split
  next hover =>
    have hp : rd (raise x (.issue b) { bit := 19, unit := q.val }) (.issue b) (issQProd q.val) = rd x (.issue b) (issQProd q.val) :=
      rd_raise_own hx rfl (by simp [Row.home]) ⟨by simp only [issQProd]; omega, by simp only [issQProd]; omega⟩ (by simp [hookKeys])
    have hc : rd (raise x (.issue b) { bit := 19, unit := q.val }) (.issue b) (issQCons q.val) = rd x (.issue b) (issQCons q.val) :=
      rd_raise_own hx rfl (by simp [Row.home]) ⟨by simp only [issQCons]; omega, by simp only [issQCons]; omega⟩ (by simp [hookKeys])
    have hbit := raise_bit x (.issue b) { bit := 19, unit := q.val } rfl hx hthere (show 19 < 32 by decide)
    rw [hp, hc]
    exact ⟨hprod, fun hle => absurd hover (Nat.not_lt.mpr hle), fun _ => ⟨hbit, honly.errors.trans (raise_errors _ _ _ rfl)⟩⟩
  next hfits => exact ⟨hprod, fun _ => ⟨honly, hfields⟩, fun hlt => absurd hlt hfits⟩
end

/-! ### FSET and FCLR (R192). -/

section
variable {s : State} {b : BayId}

/-- Flags signalled by a mask, in ascending order, up to flag `n`. -/
def flagsSignalled (s : State) (b : BayId) (mask n : Nat) : State :=
  (List.range n).foldl (fun s i => if bitOf mask i then flagSignal s b i else s) s

/-- Flags cleared by a mask up to flag `n`. -/
def flagsCleared (s : State) (b : BayId) (mask n : Nat) : State :=
  (List.range n).foldl (fun s i => if bitOf mask i then flagClear s b i else s) s

theorem flagsSignalled_succ (mask n : Nat) : flagsSignalled s b mask (n + 1) =
    if bitOf mask n then flagSignal (flagsSignalled s b mask n) b n else flagsSignalled s b mask n := by
  rw [flagsSignalled, List.range_succ, List.foldl_append]
  rfl

theorem flagsCleared_succ (mask n : Nat) : flagsCleared s b mask (n + 1) =
    if bitOf mask n then flagClear (flagsCleared s b mask n) b n else flagsCleared s b mask n := by
  rw [flagsCleared, List.range_succ, List.foldl_append]
  rfl

/-- The mask names flag `i`, which is below `n`. -/
def maskBelow (mask n i : Nat) : Bool := bitOf mask i && decide (i < n)

theorem maskBelow_succ (mask n i : Nat) : maskBelow mask (n + 1) i = (maskBelow mask n i || (bitOf mask n && i == n)) := by
  unfold maskBelow
  by_cases h : i = n
  · simp [h]
  · simp [h, show i < n + 1 ↔ i < n by omega]

@[simp] theorem maskBelow_self (mask n : Nat) : maskBelow mask n n = false := by simp [maskBelow]

@[simp] theorem maskBelow_zero (mask i : Nat) : maskBelow mask 0 i = false := by simp [maskBelow]

/-- R175, R192: each flag of the mask below `n` is signalled once. -/
theorem flagsSignalled_acts (hs : Rising s.regs) (mask : Nat) {n : Nat} (hn : n ≤ 64) :
    Rising (flagsSignalled s b mask n).regs ∧ OnlyRegs s (flagsSignalled s b mask n) ∧
    FieldsBut [syncFlags.key (.sync b), syncOverset.key (.sync b)] s (flagsSignalled s b mask n) ∧
    (∀ i, i < 64 → flagIs (flagsSignalled s b mask n) b i = (flagIs s b i || maskBelow mask n i)) ∧
    ∀ i, i < 64 → bitOf (rd (flagsSignalled s b mask n) (.sync b) syncOverset) i =
      (bitOf (rd s (.sync b) syncOverset) i || (maskBelow mask n i && flagIs s b i)) := by
  induction n with
  | zero => exact ⟨hs, rfl, .refl _ _, fun i _ => by simp [flagsSignalled], fun i _ => by simp [flagsSignalled]⟩
  | succ n ih =>
    obtain ⟨hr, honly, hf, hflag, hover⟩ := ih (by omega)
    simp only [flagsSignalled_succ, maskBelow_succ]
    generalize flagsSignalled s b mask n = t at *
    split
    next hm =>
      obtain ⟨hr', hf'⟩ := flagSignal_fields hr b n
      refine ⟨hr', honly.trans (.flagSignal ..), (hf.trans hf').mono (by simp), fun i hi => ?_, fun i hi => ?_⟩
      · rw [flagIs_flagSignal hr n hi, hflag i hi, hm, Bool.true_and, Bool.or_assoc]
      · rw [overset_flagSignal hr n hi, hover i hi, hflag n (by omega), maskBelow_self, hm]
        by_cases h : i = n
        · simp [h]
        · simp [beq_false_of_ne h]
    next hm => simpa [hm] using ⟨hr, honly, hf, hflag, hover⟩

/-- R192: each flag of the mask below `n` is cleared. -/
theorem flagsCleared_acts (hs : Rising s.regs) (mask : Nat) {n : Nat} (hn : n ≤ 64) :
    Rising (flagsCleared s b mask n).regs ∧ OnlyRegs s (flagsCleared s b mask n) ∧
    FieldsBut [syncFlags.key (.sync b)] s (flagsCleared s b mask n) ∧
    ∀ i, i < 64 → flagIs (flagsCleared s b mask n) b i = (flagIs s b i && !maskBelow mask n i) := by
  induction n with
  | zero => exact ⟨hs, rfl, .refl _ _, fun i _ => by simp [flagsCleared]⟩
  | succ n ih =>
    obtain ⟨hr, honly, hf, hflag⟩ := ih (by omega)
    simp only [flagsCleared_succ, maskBelow_succ]
    generalize flagsCleared s b mask n = t at *
    split
    next hm =>
      refine ⟨wr_rising _ _ _ _ hr, honly.trans (.wr ..), (hf.trans (.wr _ _ _ _ hr)).mono (by simp), fun i hi => ?_⟩
      rw [flagIs_flagClear hr n hi, hflag i hi, hm, Bool.true_and, Bool.not_or, Bool.and_assoc]
      rfl
    next hm => simpa [hm] using ⟨hr, honly, hf, hflag⟩

theorem bitOf_toNat {w : Nat} (v : BitVec w) (i : Nat) : bitOf v.toNat i = v.getLsbD i := by
  rw [bitOf, ← BitVec.testBit_toNat, Nat.testBit_eq_decide_div_mod_eq]

theorem exec_syncFset (mask : BitVec 64) (hst : pgState s (.sync b) ≠ 0) :
    exec (.syncFset b mask) s = .next (flagsSignalled s b mask.toNat 64) := by
  show execSyncFset b mask s = _
  rw [execSyncFset, fsetWrite, if_neg hst]
  rfl

theorem exec_syncFclr (mask : BitVec 64) (hst : pgState s (.sync b) ≠ 0) :
    exec (.syncFclr b mask) s = .next (flagsCleared s b mask.toNat 64) := by
  show execSyncFclr b mask s = _
  rw [execSyncFclr, fclrWrite, if_neg hst]
  rfl
end

end Sys2Proof.Machine
end

section
/-! The wait monitor and the stall watchdog (R185, R186, R483). -/

namespace Sys2Proof.Machine

/-! ### What an error that stops a page leaves of the machine. -/

section
variable {s : State} {p : Page} {e : Err}

theorem toFault_keeps (s : State) (p : Page) : BoardKept s (toFault s p) := by
  unfold toFault
  extract_lets st
  split
  · have henter : BoardKept s (enter (dropHeld s p) p 6) := enter_keeps (dropHeld s p) p 6
    exact henter.trans (faultHook_keeps _ p)
  · exact .refl s

theorem raise_stop_keeps (s : State) (p : Page) (he : e.stop = true) : BoardKept s (raise s p e) := by
  obtain ⟨sev, hraise⟩ := raise_stop s p he
  have hrec := raise_errors s p { e with stop := false, sev := some sev } rfl
  have hrecord : BoardKept s (raise s p { e with stop := false, sev := some sev }) := ⟨hrec.mg, hrec.power, hrec.fuses⟩
  rw [hraise]
  exact hrecord.trans (toFault_keeps _ p)
end

/-! ### The fields of a declared deadlock. -/

/-- What a deadlock shows: fields of the ISSUE page but its events. -/
def shownKey (b : BayId) (k : Nat) : Prop := k / 32768 = (Page.issue b).slot ∧ k % 32768 ≠ 0x160

/-- From `s` to `t` the ISSUE page of bay `b` keeps its fields but its events, and its state. -/
structure ShownKept (b : BayId) (s t : State) : Prop where
  regs : RegsKept (shownKey b) s t
  board : BoardKept s t

section
variable {s t u : State} {b : BayId} {p : Page} {r : Row}

theorem key_div (p : Page) {r : Row} (hr : r.off * 8 + r.lsb < 32768) : r.key p / 32768 = (r.home p).slot := by
  unfold Row.key
  omega

theorem not_shownKey (hr : r.off * 8 + r.lsb < 32768) (hp : r.home p ≠ .issue b) : ¬ shownKey b (r.key p) := fun h =>
  hp (Page.slot_injective ((key_div p hr).symm.trans h.1))

theorem shownKey_own (hr : r.off * 8 + r.lsb < 32768) (hn : r.off * 8 + r.lsb ≠ 0x160) : shownKey b (r.key (.issue b)) :=
  ⟨key_div _ hr, by rwa [key_mod _ _ hr]⟩

theorem ShownKept.refl (s : State) : ShownKept b s s := ⟨.refl s, .refl s⟩

theorem ShownKept.trans (h1 : ShownKept b s t) (h2 : ShownKept b t u) : ShownKept b s u :=
  ⟨h1.regs.trans h2.regs, h1.board.trans h2.board⟩

/-- A field of another page is written. -/
theorem ShownKept.wr (h : ShownKept b s t) (hr : r.off * 8 + r.lsb < 32768) (hp : r.home p ≠ .issue b) {v : Nat} : ShownKept b s (wr t p r v) :=
  h.trans ⟨(RegsKept.refl t).wr (not_shownKey hr hp), .refl t⟩

theorem ShownKept.setEvt (h : ShownKept b s t) {i : Nat} : ShownKept b s (setEvt t p i) := by
  have honly := setEvt_events t p i
  refine h.trans ⟨(RegsKept.refl t).setEvt fun hk => ?_, by rw [honly], by rw [honly], by rw [honly]⟩
  exact hk.2 (key_mod p hdrEvt (by decide))

theorem stopKeys_not_shown (b : BayId) : ∀ k ∈ stopKeys (.doc b), ¬ shownKey b k := by
  have hhub : ∀ {r : Row}, r.off * 8 + r.lsb < 32768 → ¬ shownKey b (r.key .hub) := fun hr => not_shownKey hr (by simp [Row.home])
  have hdoc : ∀ {r : Row}, r.off * 8 + r.lsb < 32768 → ¬ shownKey b (r.key (.doc b)) := fun hr => not_shownKey hr (by simp [Row.home])
  intro k hk
  simp only [stopKeys, raiseKeys, errKeys, logKeys, hookKeys, List.mem_append, List.mem_cons, List.not_mem_nil, or_false] at hk
  rcases hk with ((rfl | rfl | rfl | rfl) | rfl | rfl | rfl | rfl | rfl | rfl) | (rfl | rfl | rfl) | rfl
  exacts [hdoc (by decide), hdoc (by decide), hdoc (by decide), hdoc (by decide), hhub (by decide), hhub (by decide), hhub (by decide),
    hhub (by decide), hhub (by decide), hhub (by decide), hdoc (by decide), hdoc (by decide), hdoc (by decide), hdoc (by decide)]

theorem ShownKept.raise_doc (h : ShownKept b s t) {e : Err} (he : e.stop = true) : ShownKept b s (raise t (.doc b) e) :=
  h.trans ⟨(RegsKept.refl t).of_fields (fun hs => (raise_stop_fields hs he).1) (fun hs => (raise_stop_fields hs he).2) (stopKeys_not_shown b),
    raise_stop_keeps t (.doc b) he⟩

theorem ShownKept.rd_eq (h : ShownKept b s t) (hs : Rising s.regs) (hr : r.off * 8 + r.lsb < 32768 ∧ r.off * 8 + r.lsb ≠ 0x160 := by decide) :
    rd t (.issue b) r = rd s (.issue b) r :=
  h.regs.rd_eq hs (shownKey_own hr.1 hr.2)

theorem ShownKept.pgState_eq (h : ShownKept b s t) (hs : Rising s.regs) : pgState t (.issue b) = pgState s (.issue b) :=
  pgState_congr h.board.1 h.board.2.1 h.board.2.2 (h.rd_eq hs) (by simp)
end

/-! ### The queues brought up to date (R189). -/

section
variable {s t : State} {b : BayId}

/-- The status fields of the queues decide no page's state. -/
structure StatesKept (s t : State) : Prop where
  regs : RegsKept runKey s t
  only : OnlyRegs s t

theorem not_runKey_off {p : Page} {r : Row} (hr : r.off * 8 + r.lsb < 32768) (hn : r.off * 8 + r.lsb ∉ [160, 2048]) : ¬ runKey (r.key p) := by
  rintro (⟨p', he⟩ | ⟨b, he⟩) <;> exact hn (by rw [← key_mod p r hr, he, key_mod _ _ (by decide)]; decide)

theorem StatesKept.refl (s : State) : StatesKept s s := ⟨.refl s, rfl⟩

theorem StatesKept.trans {u : State} (h1 : StatesKept s t) (h2 : StatesKept t u) : StatesKept s u :=
  ⟨h1.regs.trans h2.regs, h1.only.trans h2.only⟩

/-- A field past the head of the ISSUE page is written. -/
theorem StatesKept.wr (h : StatesKept s t) {r : Row} {v : Nat} (hr : 0x200 ≤ r.off ∧ r.off < 0x800 ∧ r.lsb < 64) :
    StatesKept s (wr t (.issue b) r v) :=
  h.trans ⟨(RegsKept.refl t).wr (not_runKey_off (by omega) (by simp; omega)), .wr ..⟩

theorem StatesKept.pgState_eq (h : StatesKept s t) (hs : Rising s.regs) (p : Page) : pgState t p = pgState s p :=
  h.regs.pgState_eq hs (held_congr h.only.errors.mg h.only.errors.power) h.only.errors.fuses (.inl ⟨p, rfl⟩) fun b => .inr ⟨b, rfl⟩

theorem queueShow_states (s : State) (b : BayId) (q : QueueId) : StatesKept s (queueShow s b q) := by
  unfold queueShow
  extract_lets u p n d pend aw head kept x y
  have hq : n < 4 := q.isLt
  have hx : StatesKept s x :=
    ((((StatesKept.refl s).wr (by simp only [issQQstatState]; omega)).wr (by simp only [issQQstatDepth]; omega)).wr
      (by simp only [issQQstatRec]; omega)).wr (by simp only [issQQstatPending]; omega)
  have hy : StatesKept s y := (hx.wr (by simp only [issQHeadptrAddr]; omega)).wr (by simp only [issQHeadptrSrc]; omega)
  have haw : ∀ w i v t,
      StatesKept s (wr (wr (wr (wr y p (issQAwaitWait n) w) p (issQAwaitSlot n) i) p (issQAwaitValid n) v) p (issQAwaitThr n) t) :=
    fun w i v t => (((hy.wr (by simp only [issQAwaitWait]; omega)).wr (by simp only [issQAwaitSlot]; omega)).wr
      (by simp only [issQAwaitValid]; omega)).wr (by simp only [issQAwaitThr]; omega)
  split
  · exact hy
  · clear_value aw
    cases aw with
    | none => exact haw ..
    | some x => exact haw ..

theorem issueShow_states (s : State) (b : BayId) : StatesKept s (issueShow s b) :=
  List.foldlRecOn (motive := StatesKept s) _ _ (.refl s) fun t ht q _ => ht.trans (queueShow_states t b q)
end

/-! ### The deadlock (R186). -/

section
variable {s t : State} {b : BayId}

/-- The mask of the held queues. -/
def heldMask (held : List QueueId) : Nat := held.foldl (fun v q => v + 2 ^ q.val) 0

/-- QMASK is 4 bits wide and names each held queue. -/
theorem heldMask_bits (f : QueueId → Bool) : heldMask ((List.finRange 4).filter f) < 16 ∧
    ∀ q ∈ (List.finRange 4).filter f, bitOf (heldMask ((List.finRange 4).filter f)) q.val = true := by
  have hall : ∀ f : Fin 4 → Bool, heldMask ((List.finRange 4).filter f) < 16 ∧
      ∀ q ∈ (List.finRange 4).filter f, bitOf (heldMask ((List.finRange 4).filter f)) q.val = true := by decide
  exact hall f

theorem quiet_some {qs : List QueueId} {w : Option (Nat × Nat)} (h : quiet s b = some (qs, w)) :
    pgState s (.issue b) = 4 ∧ qs = (List.finRange 4).filter (fun q => (queueHeld s b q).isSome) := by
  unfold quiet at h
  extract_lets doc docRuns docW docOk held waits at h
  split at h
  next hq => exact ⟨hq.1, (Prod.mk.inj (Option.some.inj h)).1.symm⟩
  next => cases h

/-- R186: DLOCK on the ISSUE page, whose queues are brought up to date. -/
def dlockShow (s : State) (b : BayId) (qs : List QueueId) (w : Option (Nat × Nat)) : State :=
  wr (wr (wr (issueShow s b) (.issue b) issDlockQmask (heldMask qs)) (.issue b) issDlockDoc (b2n w.isSome)) (.issue b) issDlockDeclared 1

/-- R186: the deadlock's STALL. -/
def dlockErr (qs : List QueueId) (w : Option (Nat × Nat)) : Err := { bit := 5, unit := heldMask qs + 16 * b2n w.isSome, stop := true }

/-- R186: DLOCK and STALL on the ISSUE page. -/
def dlockIssue (s : State) (b : BayId) (qs : List QueueId) (w : Option (Nat × Nat)) : State :=
  raise (dlockShow s b qs w) (.issue b) (dlockErr qs w)

/-- R186: a held docent's AWAIT and STALL. -/
def dlockDoc (s : State) (b : BayId) : Option (Nat × Nat) → State
  | some (w, t) => wr (setStall (raise (wr (wr s (.doc b) docAwait w) (.doc b) docAwaitThr t) (.doc b) { bit := 5, stop := true }) b .none) (.doc b)
      docStatusWaiting 0
  | none => s

theorem exec_deadlockDeclared {qs : List QueueId} {w : Option (Nat × Nat)} (h : quiet s b = some (qs, w)) :
    exec (.deadlockDeclared b) s = .next (setEvt (dlockDoc (dlockIssue s b qs w) b w) (.issue b) 17) := by
  show execDeadlockDeclared b s = _
  unfold execDeadlockDeclared
  rw [h]
  cases w <;> rfl

theorem dlockShow_reads (hs : Rising s.regs) (qs : List QueueId) (w : Option (Nat × Nat)) :
    Rising (dlockShow s b qs w).regs ∧ pgState (dlockShow s b qs w) (.issue b) = pgState s (.issue b) ∧
    rd (dlockShow s b qs w) (.issue b) issDlockDeclared = 1 ∧ rd (dlockShow s b qs w) (.issue b) issDlockQmask = heldMask qs % 16 := by
  have hshow := issueShow_states s b
  have h0 := hshow.regs.rising hs
  have h1 := wr_rising _ (.issue b) issDlockQmask (heldMask qs) h0
  have h2 := wr_rising _ (.issue b) issDlockDoc (b2n w.isSome) h1
  refine ⟨wr_rising _ _ _ _ h2, ?_, rd_wr_same _ _ _ _ h2 (by decide), ?_⟩ <;> unfold dlockShow
  · rw [pgState_wr h2, pgState_wr h1, pgState_wr h0, hshow.pgState_eq hs]
  · rw [rd_wr_off h2, rd_wr_off h1]
    exact rd_wr_same _ _ _ _ h0 (by decide)

theorem dlockIssue_shows (hs : Rising s.regs) (hst : pgState s (.issue b) = 4) (qs : List QueueId) (w : Option (Nat × Nat)) :
    Rising (dlockIssue s b qs w).regs ∧ pgState (dlockIssue s b qs w) (.issue b) = 6 ∧
    rd (dlockIssue s b qs w) (.issue b) issDlockDeclared = 1 ∧ bitOf (rd (dlockIssue s b qs w) (.issue b) hdrErr) 5 = true ∧
    rd (dlockIssue s b qs w) (.issue b) issDlockQmask = heldMask qs % 16 := by
  obtain ⟨h, hrun, hdecl, hmask⟩ := dlockShow_reads (b := b) hs qs w
  obtain ⟨hfault, hbit⟩ := raise_stop_page (e := dlockErr qs w) h (.inr (.inl (hrun.trans hst))) rfl (show 5 < 32 by decide)
  obtain ⟨hr, hf⟩ := raise_stop_fields (p := .issue b) (e := dlockErr qs w) h rfl
  have hkept : ∀ r : Row, r.off * 8 + r.lsb < 32768 → 0x800 ≤ r.off * 8 + r.lsb →
      rd (dlockIssue s b qs w) (.issue b) r = rd (dlockShow s b qs w) (.issue b) r :=
    fun r hlt hlo => hf _ _ (not_stopKeys (by simp [Row.home]) hlt hlo (by simp [hookKeys]))
  exact ⟨hr, hfault, (hkept _ (by decide) (by decide)).trans hdecl, hbit, (hkept _ (by decide) (by decide)).trans hmask⟩

theorem dlockDoc_kept (s : State) (b : BayId) (w : Option (Nat × Nat)) : ShownKept b s (dlockDoc s b w) := by
  have hdoc : ∀ r : Row, r.home (.doc b) ≠ .issue b := fun r => by simp [Row.home]
  cases w with
  | none => exact .refl s
  | some x =>
    have hraised := ((ShownKept.refl s |>.wr (by decide) (hdoc docAwait) (v := x.1)).wr (by decide) (hdoc docAwaitThr) (v := x.2)).raise_doc
      (e := { bit := 5, stop := true }) rfl
    have hfree := hraised.trans (u := setStall _ b .none) ⟨.of_regs, .refl _⟩
    exact hfree.wr (by decide) (hdoc docStatusWaiting)

/-- R186: a bay that has been quiet: its deadlock is declared. -/
theorem deadlockDeclared_shows (hs : Rising s.regs) {qs : List QueueId} {w : Option (Nat × Nat)} (h : quiet s b = some (qs, w)) :
    ∃ t, exec (.deadlockDeclared b) s = .next t ∧ pgState t (.issue b) = 6 ∧ rd t (.issue b) issDlockDeclared = 1 ∧
      bitOf (rd t (.issue b) hdrErr) 5 = true ∧ (∀ q ∈ qs, bitOf (rd t (.issue b) issDlockQmask) q.val = true) := by
  obtain ⟨hst, hqs⟩ := quiet_some h
  obtain ⟨hr, hfault, hdecl, hbit, hmask⟩ := dlockIssue_shows hs hst qs w
  have hkept : ShownKept b (dlockIssue s b qs w) (setEvt (dlockDoc (dlockIssue s b qs w) b w) (.issue b) 17) := (dlockDoc_kept _ b w).setEvt
  obtain ⟨hlt, hbits⟩ := heldMask_bits fun q => (queueHeld s b q).isSome
  rw [← hqs] at hlt hbits
  refine ⟨_, exec_deadlockDeclared h, ?_, ?_, ?_, fun q hq => ?_⟩
  · rw [hkept.pgState_eq hr, hfault]
  · rw [hkept.rd_eq hr, hdecl]
  · rw [hkept.rd_eq hr, hbit]
  · rw [hkept.rd_eq hr, hmask, Nat.mod_eq_of_lt hlt, hbits q hq]

/-- R483: the stall watchdog takes a running page to FAULT. -/
theorem stallWatchdog_faults {p : Page} (hs : Rising s.regs) (hp : p.runctl = true) (hst : pgState s p = 4) :
    ∃ t, exec (.stallWatchdog p) s = .next t ∧ pgState t p = 6 ∧ bitOf (rd t p hdrErr) 5 = true := by
  have hexec : exec (.stallWatchdog p) s = .next (raise (fresh s).2 p { bit := 5, unit := (fresh s).1.toNat, stop := true }) := by
    show execStallWatchdog p s = _
    unfold execStallWatchdog
    simp [hp, hst]
  have hrun : pgState (fresh s).2 p = 4 := hst
  obtain ⟨hfault, hbit⟩ := raise_stop_page (s := (fresh s).2) (e := { bit := 5, unit := (fresh s).1.toNat, stop := true }) hs
    (.inr (.inl hrun)) rfl (show 5 < 32 by decide)
  exact ⟨_, hexec, hfault, hbit⟩
end

/-! ### The obligation. -/

/-- Settles O19: words and frames by the queue's rules, the page writes by their equations, the deadlock and the watchdog by an error that stops
the page. -/
theorem issueQueuesTakeWordsAndStall : Obligations.IssueQueuesTakeWordsAndStall := by
  unfold Obligations.IssueQueuesTakeWordsAndStall
  refine ⟨?decode, ?fetch, ?frame, ?doorbell, ?afPush, ?afFull, ?fset, ?fclr, ?cnt, ?cadd, ?deadlock, ?stall⟩
  case decode =>
    exact fun s b q a raw rest slots thr pay hinv hst hq hw hdec hfr hrec hword hctl hslot =>
      wordDecode_decodes hinv hst hq hw hdec hfr hrec hword hctl hslot
  case fetch =>
    intro s s1 s2 b q chk h ws _ hst hcfg hsize _ hhead hpast hlen hroom hwhole hinv2
    obtain ⟨a, hexec⟩ := exec_ringFetch hst hcfg hsize hhead hpast hlen hroom hwhole
    refine ⟨_, hexec, a, ?_, rd_wrapAdd_same (s := queuePut s2 b q (some a) ws) hinv2.regs_rising (show 32 ≤ 64 by decide) _⟩
    exact congrArg IssQueue.words (queueOf_queuePut hinv2.bays_rising)
  case frame => exact fun s b q f hinv hst hq hfr hdec hoff hmore => frameReturn_pops hinv hst hq hfr hdec hoff hmore
  case doorbell =>
    intro s b q n hinv hst
    refine ⟨doorbell s b q n.toNat, rfl, ?_⟩
    by_cases hn : n = 0
    · have hzero : n.toNat = 0 := by rw [hn]; rfl
      rw [doorbell_absent _ (.inr hzero), hzero]
      exact ⟨(Nat.mod_eq_of_lt (rd_lt s (.issue b) (issQProd q.val))).symm, fun _ => ⟨rfl, fun _ _ _ => rfl⟩, fun hne => absurd hn hne⟩
    · obtain ⟨hprod, hfits, hover⟩ := doorbell_acts (q := q) hinv.regs_rising hst (n := n.toNat) (fun h => hn (BitVec.eq_of_toNat_eq h))
      exact ⟨hprod, hfits, fun _ => hover⟩
  case afPush =>
    intro s b f v hinv hst hroom
    have hexec : exec (.afPush b f 8 v) s = .next (afPut s b f.val v) := by
      show execAfPush b f 8 v s = _
      simp [execAfPush, afWrite, hst, hroom]
    have hput := (InBay.of_inv hinv (b := b)).afPut (f := f.val) (v := v)
    have hlen : (mget [] (bayOf s b).afifo f.val).length < 256 := by simpa [afRoom] using hroom
    refine ⟨_, hexec, afPut_enters hinv.bays_rising, ?_, hput.others, hput.fields⟩
    rw [afPut_eq, rd_wr_same (afAppend s b f.val v) _ _ _ hinv.regs_rising (show 9 ≤ 64 by decide), List.length_append]
    exact Nat.mod_eq_of_lt (show _ < 2 ^ 9 by simp; omega)
  case afFull =>
    intro s b f v hinv hst hroom
    have hexec : exec (.afPush b f 8 v) s = .next (raise s (.issue b) { bit := 20, unit := f.val }) := by
      show execAfPush b f 8 v s = _
      simp [execAfPush, afWrite, hst, hroom]
    have hbit := raise_bit s (.issue b) { bit := 20, unit := f.val } rfl hinv.regs_rising hst (show 20 < 32 by decide)
    exact ⟨_, hexec, hbit, raise_errors _ _ _ rfl⟩
  case fset =>
    intro s b mask hinv hst
    obtain ⟨-, honly, hfields, hflag, hover⟩ := flagsSignalled_acts (b := b) hinv.regs_rising mask.toNat (le_refl 64)
    have hmask : ∀ i, i < 64 → maskBelow mask.toNat 64 i = mask.getLsbD i := fun i hi => by simp [maskBelow, bitOf_toNat, hi]
    exact ⟨_, exec_syncFset mask hst, fun i hi => by rw [hflag i hi, hmask i hi], fun i hi => by rw [hover i hi, hmask i hi], honly, hfields⟩
  case fclr =>
    intro s b mask hinv hst
    obtain ⟨-, honly, hfields, hflag⟩ := flagsCleared_acts (b := b) hinv.regs_rising mask.toNat (le_refl 64)
    have hmask : ∀ i, i < 64 → maskBelow mask.toNat 64 i = mask.getLsbD i := fun i hi => by simp [maskBelow, bitOf_toNat, hi]
    exact ⟨_, exec_syncFclr mask hst, fun i hi => by rw [hflag i hi, hmask i hi], honly, hfields⟩
  case cnt =>
    intro s b n v hinv hst
    have hexec : exec (.cntWrite b n v) s = .next (cntSet s b n.val v.toNat) := by
      show execCntWrite b n v s = _
      rw [execCntWrite, if_neg hst]
    exact ⟨_, hexec, (cnt_cntSet hinv.regs_rising _ _).trans (Nat.mod_eq_of_lt v.isLt), .wr .., .wr _ _ _ _ hinv.regs_rising⟩
  case cadd =>
    intro s b n v hinv hst
    have hexec : exec (.caddWrite b n v) s = .next (cntAdd s b n.val v.toNat) := by
      show execCaddWrite b n v s = _
      rw [execCaddWrite, if_neg hst]
    exact ⟨_, hexec, cnt_cntAdd hinv.regs_rising _ _, .wr .., .wr _ _ _ _ hinv.regs_rising⟩
  case deadlock => exact fun s b qs w hinv h => deadlockDeclared_shows hinv.regs_rising h
  case stall => exact fun s p hinv hp hst => stallWatchdog_faults hinv.regs_rising hp hst

end Sys2Proof.Machine
end

section
/-! The thread-group unit of a bay (R193 to R218): its group and block slots, the lanes of a path, and a path that goes on. -/

namespace Sys2Proof.Machine

/-! ### Group and block slots. -/

section
variable {s t : State} {b : BayId} {i j k : Nat}

theorem tguOf_congr (h : t.bays = s.bays) : tguOf t b = tguOf s b := by rw [tguOf, bayOf, h]; rfl

theorem groupOf_congr (h : tguOf t b = tguOf s b) (j : Nat) : groupOf t b j = groupOf s b j := by rw [groupOf, h, groupOf]

theorem blockOf_congr (h : tguOf t b = tguOf s b) (k : Nat) : blockOf t b k = blockOf s b k := by rw [blockOf, h, blockOf]

theorem tguOf_modTgu (hb : Rising s.bays) (f : Tgu → Tgu) : tguOf (modTgu s b f) b = f (tguOf s b) := by
  rw [tguOf, modTgu, bayOf_modBay hb, tguOf]

theorem modTgu_rising (hb : Rising s.bays) (f : Tgu → Tgu) : Rising (modTgu s b f).bays := hb.mset _ _ _

theorem setGroup_rising (hb : Rising s.bays) (v : Option Group) : Rising (setGroup s b j v).bays := modTgu_rising hb _

theorem setBlock_rising (hb : Rising s.bays) (v : Option Block) : Rising (setBlock s b k v).bays := modTgu_rising hb _

theorem groupOf_setGroup_same (hb : Rising s.bays) (gr : Group) : groupOf (setGroup s b j (some gr)) b j = some gr := by
  rw [groupOf, setGroup, tguOf_modTgu hb]
  exact mget_mset_listed (Option.some_ne_none gr)

theorem groupOf_setGroup_other (hb : Rising s.bays) (gr : Group) (h : i ≠ j) : groupOf (setGroup s b j (some gr)) b i = groupOf s b i := by
  rw [groupOf, setGroup, tguOf_modTgu hb]
  exact mget_mset_listed_other (Option.some_ne_none gr) h

theorem blockOf_setGroup (hb : Rising s.bays) (v : Option Group) : blockOf (setGroup s b j v) b k = blockOf s b k := by
  rw [blockOf, setGroup, tguOf_modTgu hb, blockOf]

theorem blockOf_setBlock_same (hb : Rising s.bays) (bl : Block) : blockOf (setBlock s b k (some bl)) b k = some bl := by
  rw [blockOf, setBlock, tguOf_modTgu hb]
  exact mget_mset_listed (Option.some_ne_none bl)

theorem groupOf_setBlock (hb : Rising s.bays) (v : Option Block) : groupOf (setBlock s b k v) b j = groupOf s b j := by
  rw [groupOf, setBlock, tguOf_modTgu hb, groupOf]

theorem mem_groupsOf {x : Nat × Group} : x ∈ groupsOf s b k ↔ x.1 < 64 ∧ groupOf s b x.1 = some x.2 ∧ x.2.block.val = k := by
  obtain ⟨g, gr⟩ := x
  simp only [groupsOf, List.mem_filterMap, List.mem_range, Option.bind_eq_some_iff, Option.ite_none_right_eq_some, Option.some.injEq, Prod.mk.injEq]
  constructor
  · rintro ⟨g', hlt, gr', hgr, hk, rfl, rfl⟩
    exact ⟨hlt, hgr, hk⟩
  · rintro ⟨hlt, hgr, hk⟩
    exact ⟨g, hlt, gr, hgr, hk, rfl, rfl⟩

/-- Each group of a block stands in one slot. -/
theorem groupsOf_nodup (s : State) (b : BayId) (k : Nat) : ((groupsOf s b k).map Prod.fst).Nodup := by
  have hsub : List.Sublist ((groupsOf s b k).map Prod.fst) (List.range 64) := by
    unfold groupsOf
    induction List.range 64 with
    | nil => exact .slnil
    | cons g l ih =>
      rw [List.filterMap_cons]
      split
      · exact ih.cons g
      next x hx =>
        simp only [Option.bind_eq_some_iff, Option.ite_none_right_eq_some, Option.some.injEq] at hx
        obtain ⟨gr, -, -, rfl⟩ := hx
        exact ih.cons_cons g
  exact List.nodup_range.sublist hsub

/-- The groups of a list of slots, each replaced. -/
def writeGroups (s : State) (b : BayId) (f : Group → Group) (l : List (Nat × Group)) : State :=
  l.foldl (fun s x => setGroup s b x.1 (some (f x.2))) s

theorem groupOf_writeGroups_other {f : Group → Group} {l : List (Nat × Group)} (hb : Rising s.bays) (h : ∀ x ∈ l, j ≠ x.1) :
    groupOf (writeGroups s b f l) b j = groupOf s b j := by
  induction l generalizing s with
  | nil => rfl
  | cons x l ih =>
    rw [List.forall_mem_cons] at h
    exact (ih (setGroup_rising hb _) h.2).trans (groupOf_setGroup_other hb _ h.1)

theorem groupOf_writeGroups_mem {f : Group → Group} {l : List (Nat × Group)} {x : Nat × Group} (hb : Rising s.bays)
    (hl : (l.map Prod.fst).Nodup) (hx : x ∈ l) : groupOf (writeGroups s b f l) b x.1 = some (f x.2) := by
  induction l generalizing s with
  | nil => exact absurd hx List.not_mem_nil
  | cons y l ih =>
    rw [List.map_cons, List.nodup_cons] at hl
    rcases List.mem_cons.mp hx with rfl | hx
    · have hother : ∀ y ∈ l, x.1 ≠ y.1 := fun y hy he => hl.1 (he ▸ List.mem_map_of_mem hy)
      exact (groupOf_writeGroups_other (setGroup_rising hb _) hother).trans (groupOf_setGroup_same hb _)
    · exact ih (setGroup_rising hb _) hl.2 hx
end

/-! ### Lanes. -/

section
variable {m : BitVec 32} {l : List Nat} {i : Nat}

theorem mem_lanesOf : i ∈ lanesOf m ↔ i < 32 ∧ bitOf m.toNat i = true := by simp [lanesOf]

theorem lane_lt (h : i ∈ lanesOf m) : i < 32 := (mem_lanesOf.mp h).1

theorem lanesOf_nodup (m : BitVec 32) : (lanesOf m).Nodup := List.nodup_range.filter _

theorem testBit_foldl_pow (l : List Nat) (v i : Nat) : (l.foldl (fun v i => v ||| 2 ^ i) v).testBit i = (v.testBit i || decide (i ∈ l)) := by
  induction l generalizing v with
  | nil => simp
  | cons j l ih =>
    rw [List.foldl_cons, ih, Nat.testBit_or, Nat.testBit_two_pow]
    simp only [List.mem_cons, Bool.decide_or, Bool.or_assoc, eq_comm (a := i)]

theorem getLsbD_maskOf (l : List Nat) (hi : i < 32) : (maskOf l).getLsbD i = decide (i ∈ l) := by
  rw [maskOf, BitVec.getLsbD_ofNat, testBit_foldl_pow]
  simp [hi]

theorem lanesOf_maskOf_lanesOf (m : BitVec 32) : lanesOf (maskOf (lanesOf m)) = lanesOf m := by
  refine List.filter_congr fun i hi => ?_
  have hlt := List.mem_range.mp hi
  rw [bitOf_toNat, getLsbD_maskOf _ hlt, Bool.eq_iff_iff, decide_eq_true_eq, mem_lanesOf]
  simp [hlt]
end

/-! ### Threads of a group. -/

/-- The threads of some lanes changed. -/
def mapLanes (f : Nat → Thread → Thread) (gr : Group) (l : List Nat) : Group := l.foldl (fun gr i => setLane gr i (f i (thOf gr i))) gr

section
variable {f : Nat → Thread → Thread} {gr : Group} {l : List Nat} {i j : Nat} {t : Thread}

theorem thOf_setLane_same (h : i < gr.threads.length) : thOf (setLane gr i t) i = t := by simp [thOf, setLane, h]

theorem thOf_setLane_other (h : j ≠ i) : thOf (setLane gr i t) j = thOf gr j := by simp [thOf, setLane, h.symm]

/-- Only the threads change. -/
theorem mapLanes_only (f : Nat → Thread → Thread) (gr : Group) (l : List Nat) : mapLanes f gr l = { gr with threads := (mapLanes f gr l).threads } :=
  List.foldlRecOn (motive := fun x : Group => x = { gr with threads := x.threads }) l _ rfl fun x hx i _ => by
    rw [hx]
    rfl

theorem mapLanes_block : (mapLanes f gr l).block = gr.block := by rw [mapLanes_only]

theorem mapLanes_num : (mapLanes f gr l).num = gr.num := by rw [mapLanes_only]

theorem mapLanes_length : (mapLanes f gr l).threads.length = gr.threads.length :=
  List.foldlRecOn (motive := fun x : Group => x.threads.length = gr.threads.length) l _ rfl fun x hx i _ => by
    rw [← hx]
    exact List.length_set

theorem thOf_mapLanes_other (h : i ∉ l) : thOf (mapLanes f gr l) i = thOf gr i := by
  induction l generalizing gr with
  | nil => rfl
  | cons j l ih =>
    rw [List.mem_cons, not_or] at h
    exact (ih h.2).trans (thOf_setLane_other h.1)

theorem thOf_mapLanes_mem (hn : l.Nodup) (hlen : ∀ i ∈ l, i < gr.threads.length) (h : i ∈ l) : thOf (mapLanes f gr l) i = f i (thOf gr i) := by
  induction l generalizing gr with
  | nil => exact absurd h List.not_mem_nil
  | cons j l ih =>
    rw [List.nodup_cons] at hn
    rw [List.forall_mem_cons] at hlen
    rcases List.mem_cons.mp h with rfl | h
    · exact (thOf_mapLanes_other hn.1).trans (thOf_setLane_same hlen.1)
    · have hij : i ≠ j := fun he => hn.1 (he ▸ h)
      rw [mapLanes, List.foldl_cons, ← mapLanes, ih hn.2 (fun i hi => by rw [setLane, List.length_set]; exact hlen.2 i hi) h, thOf_setLane_other hij]

theorem thX_thSetX_same {t : Thread} (ht : Rising t.x) {r : Nat} (hr : r ≠ 0) (v : BitVec 64) : thX (thSetX t r v) r = v := by
  rw [thX, if_neg hr, thSetX, if_neg hr]
  exact mget_mset_same _ _ _ _ ht

theorem thOf_mem (h : i < gr.threads.length) : thOf gr i ∈ gr.threads := by simp [thOf, h]

theorem mapLanes_lanesOf {p : Path} (hlen : gr.threads.length = 32) (h : i ∈ lanesOf p.mask) :
    thOf (mapLanes f gr (lanesOf p.mask)) i = f i (thOf gr i) :=
  thOf_mapLanes_mem (lanesOf_nodup _) (fun _ hj => hlen ▸ lane_lt hj) h

/-- R194: what has retired one more instruction. -/
def retired (t : Thread) : Thread := { t with instret := t.instret + 1 }

theorem retireAll_eq (gr : Group) (m : BitVec 32) : retireAll gr m = mapLanes (fun _ => retired) gr (lanesOf m) := rfl

theorem retireAll_block (gr : Group) (m : BitVec 32) : (retireAll gr m).block = gr.block := by rw [retireAll_eq, mapLanes_block]

theorem retireAll_num (gr : Group) (m : BitVec 32) : (retireAll gr m).num = gr.num := by rw [retireAll_eq, mapLanes_num]

theorem laneResults_eq (gr : Group) (p : Path) (rd : Nat) (v : Nat → BitVec 64) :
    laneResults gr p rd v = mapLanes (fun i t => thSetX t rd (v i)) gr (lanesOf p.mask) := rfl
end

/-! ### A path goes on (R205, R218). -/

theorem eraseDups_const {α : Type} [BEq α] [LawfulBEq α] {l : List α} {a : α} (hne : l ≠ []) (h : ∀ x ∈ l, x = a) : l.eraseDups = [a] := by
  cases l with
  | nil => exact absurd rfl hne
  | cons x l =>
    rw [List.forall_mem_cons] at h
    have hrest : l.filter (fun y => !y == x) = [] := List.filter_eq_nil_iff.mpr fun y hy => by simp [h.1, h.2 y hy]
    rw [List.eraseDups_cons, hrest, h.1]
    rfl

section
variable {s : State} {b : BayId} {g : Fin 64} {gr gr1 : Group} {p : Path} {rest : List Path} {bl : Block}

/-- The current path goes on in the group `gr1`, its threads' results written. -/
theorem groupWent_of_setGroup (hb : Rising s.bays) (hblock : gr1.block = gr.block) (hnum : gr1.num = gr.num) {q : Path} (hpaths : gr1.paths = q :: rest)
    (hpc : q.pc = p.pc + 4) (hmask : lanesOf q.mask = lanesOf p.mask) :
    GroupWent (setGroup s b g.val (some gr1)) b g gr gr1 p rest q.hold :=
  ⟨groupOf_setGroup_same hb gr1, hblock, hnum, q, hpaths, hpc, rfl, hmask⟩

/-- The group after PATH_HOLD. -/
def heldGroup (gr : Group) (p : Path) (rest : List Path) (h : Hold) : Group :=
  { retireAll gr p.mask with paths := { p with pc := p.pc + 4, hold := h } :: rest, keep := gr.keep && h == .none }

theorem pathHold_eq (h : Hold) : pathHold s b g gr p rest h = setGroup s b g.val (some (heldGroup gr p rest h)) := rfl

theorem pathHold_went (hb : Rising s.bays) (hblock : gr1.block = gr.block) (hnum : gr1.num = gr.num) (h : Hold) :
    GroupWent (pathHold s b g gr1 p rest h) b g gr (heldGroup gr1 p rest h) p rest h := by
  have hblock1 : (heldGroup gr1 p rest h).block = gr.block := (retireAll_block gr1 p.mask).trans hblock
  have hnum1 : (heldGroup gr1 p rest h).num = gr.num := (retireAll_num gr1 p.mask).trans hnum
  rw [pathHold_eq]
  exact groupWent_of_setGroup (q := { p with pc := p.pc + 4, hold := h }) hb hblock1 hnum1 rfl rfl rfl

/-- The group after its current path has gone on as a whole; `sw`: with DEFER set. -/
def movedGroup (gr : Group) (p : Path) (rest : List Path) (sw : Bool) : Group :=
  { gr with
    paths := { p with pc := p.pc + 4, mask := maskOf (lanesOf p.mask), defer := p.defer || sw } :: rest
    keep := gr.keep && !sw }

/-- R205: a path whose threads all go on at the next instruction does not divide. -/
theorem pathMove_next (hne : lanesOf p.mask ≠ []) (sw : Bool) :
    pathMove s b g gr p rest ((lanesOf p.mask).map (fun l => ⟨l, p.pc + 4, false⟩)) sw = setGroup s b g.val (some (movedGroup gr p rest sw)) := by
  have hpcs : (List.replicate (lanesOf p.mask).length (p.pc + 4#64)).eraseDups = [p.pc + 4#64] :=
    eraseDups_const (by simpa using hne) fun _ hx => List.eq_of_mem_replicate hx
  have hback : (lanesOf p.mask).any (fun _ => false) = false := List.any_eq_false.mpr fun _ _ => Bool.false_ne_true
  unfold pathMove
  simp [List.filter_map, Function.comp_def, hback, hpcs, movedGroup]

theorem movedGroup_went (hb : Rising s.bays) (hblock : gr1.block = gr.block) (hnum : gr1.num = gr.num) (sw : Bool) :
    GroupWent (setGroup s b g.val (some (movedGroup gr1 p rest sw))) b g gr (movedGroup gr1 p rest sw) p rest p.hold :=
  groupWent_of_setGroup (gr1 := movedGroup gr1 p rest sw)
    (q := { p with pc := p.pc + 4, mask := maskOf (lanesOf p.mask), defer := p.defer || sw }) hb hblock hnum rfl rfl
    (lanesOf_maskOf_lanesOf _)
end

end Sys2Proof.Machine
end

section
/-! The Xtg instructions of a thread group (R208): their words, and what each comes to on a group that can issue. -/

namespace Sys2Proof.Machine

/-! ### Words. -/

section
variable {f3 f7 rd rs1 rs2 : Nat}

theorem encXtg_rd (hrd : rd < 32) : bits (encXtg f3 f7 rd rs1 rs2) 11 7 = rd := by
  simp only [bits, encXtg, encR]
  omega

theorem encXtg_f3 (hrd : rd < 32) (h3 : f3 < 8) : bits (encXtg f3 f7 rd rs1 rs2) 14 12 = f3 := by
  simp only [bits, encXtg, encR]
  omega

theorem encXtg_rs1 (hrd : rd < 32) (h3 : f3 < 8) (h1 : rs1 < 32) : bits (encXtg f3 f7 rd rs1 rs2) 19 15 = rs1 := by
  simp only [bits, encXtg, encR]
  omega

theorem encXtg_rs2 (hrd : rd < 32) (h3 : f3 < 8) (h1 : rs1 < 32) (h2 : rs2 < 32) : bits (encXtg f3 f7 rd rs1 rs2) 24 20 = rs2 := by
  simp only [bits, encXtg, encR]
  omega

theorem encXtg_f7 (hrd : rd < 32) (h3 : f3 < 8) (h1 : rs1 < 32) (h2 : rs2 < 32) (h7 : f7 < 128) :
    bits (encXtg f3 f7 rd rs1 rs2) 31 25 = f7 := by
  simp only [bits, encXtg, encR]
  omega

/-- The word's operation, as R208 tells its forms without rs2 apart. -/
theorem encXtg_op (hrd : rd < 32) (h3 : f3 < 8) (h1 : rs1 < 32) (h2 : rs2 < 32) :
    encXtg f3 f7 rd rs1 rs2 / 4096 % 8 = f3 ∧ encXtg f3 f7 rd rs1 rs2 / 33554432 = f7 := by
  simp only [encXtg, encR]
  omega
end

/-! ### A group that can issue. -/

section
variable {s : State} {b : BayId} {g : Fin 64} {gr : Group} {p : Path} {rest : List Path} {bl : Block}

theorem dropResv_bays (s : State) (b : BayId) (g : Fin 64) (m : BitVec 32) : (dropResv s b g m).bays = s.bays := rfl

/-- R205: a group that can issue stands with its current path first, and that path is ready. -/
theorem groupReady_iff {x : State} : groupReady s b g = some (gr, p, rest, x) ↔
    pgWorks s (.tgu b) = true ∧ (groupOf s b g.val).bind selectPath = some gr ∧ gr.paths = p :: rest ∧ x = dropResv s b g p.mask := by
  unfold groupReady
  cases hw : pgWorks s (.tgu b)
  · simp
  cases hsel : (groupOf s b g.val).bind selectPath with
  | none => simp
  | some gr0 =>
    cases hp : gr0.paths with
    | nil =>
      simp only [hp, Bool.not_true, Bool.false_eq_true, if_false, true_and, Option.some.injEq, reduceCtorEq, false_iff, not_and]
      rintro rfl
      simp [hp]
    | cons q r =>
      simp only [hp, Bool.not_true, Bool.false_eq_true, if_false, true_and, Option.some.injEq, Prod.mk.injEq]
      constructor
      · rintro ⟨rfl, rfl, rfl, rfl⟩
        exact ⟨rfl, hp, rfl⟩
      · rintro ⟨rfl, hpaths, rfl⟩
        rw [hp, List.cons.injEq] at hpaths
        obtain ⟨rfl, rfl⟩ := hpaths
        exact ⟨rfl, rfl, rfl, rfl⟩

theorem GroupOn.ready (h : GroupOn s b g gr p rest bl) : groupReady s b g = some (gr, p, rest, dropResv s b g p.mask) := by
  obtain ⟨⟨gr0, p0, rest0, x⟩, hx, he⟩ := Option.map_eq_some_iff.mp h.1
  rw [Prod.mk.injEq, Prod.mk.injEq] at he
  obtain ⟨rfl, rfl, rfl⟩ := he
  obtain ⟨-, -, -, rfl⟩ := groupReady_iff.mp hx
  exact hx

theorem GroupOn.block (h : GroupOn s b g gr p rest bl) : blockOf s b gr.block.val = some bl := by
  obtain ⟨-, hblock, -⟩ := h
  exact hblock

theorem GroupOn.length (h : GroupOn s b g gr p rest bl) : gr.threads.length = 32 := by
  obtain ⟨-, -, hlength, -⟩ := h
  exact hlength

theorem GroupOn.ne_nil (h : GroupOn s b g gr p rest bl) : lanesOf p.mask ≠ [] := by
  obtain ⟨-, -, -, -, hne, -⟩ := h
  exact hne

theorem GroupOn.groups_rising (h : GroupOn s b g gr p rest bl) : Rising (tguOf s b).groups := by
  obtain ⟨-, -, -, -, -, hgroups, -⟩ := h
  exact hgroups

theorem GroupOn.lane_rising (h : GroupOn s b g gr p rest bl) {l : Nat} (hl : l ∈ lanesOf p.mask) : Rising (thOf gr l).x := by
  have hlt : l < gr.threads.length := h.length ▸ lane_lt hl
  obtain ⟨-, -, -, hthreads, -⟩ := h
  exact hthreads _ (thOf_mem hlt)

/-- An Xtg instruction whose accesses need not wait runs. -/
theorem xtgGo_run (h : GroupOn s b g gr p rest bl) {w : Nat} (hwaits : xtgWaits (dropResv s b g p.mask) b gr bl p w = none) :
    xtgGo s b g w = xtgTake (dropResv s b g p.mask) b gr p (xtgExec (dropResv s b g p.mask) b g gr bl p rest w) := by
  unfold xtgGo
  simp only [h.ready, h.block, hwaits]

/-- One without accesses runs at once. -/
theorem xtgGo_eq (h : GroupOn s b g gr p rest bl) {w : Nat} (hw : bits w 14 12 ≠ 4) :
    xtgGo s b g w = xtgTake (dropResv s b g p.mask) b gr p (xtgExec (dropResv s b g p.mask) b g gr bl p rest w) :=
  xtgGo_run h (if_pos hw)

/-- A path that goes on as a whole. -/
theorem xtgGo_holds (hb : Rising s.bays) (h : GroupOn s b g gr p rest bl) {w : Nat} {gr1 : Group} {hold : Hold} {x : State} (hw : bits w 14 12 ≠ 4)
    (hx : x.bays = s.bays) (hblock : gr1.block = gr.block) (hnum : gr1.num = gr.num)
    (hexec : xtgExec (dropResv s b g p.mask) b g gr bl p rest w = .ok (pathHold x b g gr1 p rest hold)) :
    xtgGo s b g w = pathHold x b g gr1 p rest hold ∧
      GroupWent (xtgGo s b g w) b g gr (heldGroup gr1 p rest hold) p rest hold := by
  have hgo : xtgGo s b g w = pathHold x b g gr1 p rest hold := by
    rw [xtgGo_eq h hw, hexec]
    rfl
  exact ⟨hgo, hgo ▸ pathHold_went (hx ▸ hb) hblock hnum hold⟩

theorem thOf_heldGroup (hlen : gr.threads.length = 32) (h : Hold) {l : Nat} (hl : l ∈ lanesOf p.mask) :
    thOf (heldGroup gr p rest h) l = retired (thOf gr l) :=
  mapLanes_lanesOf (f := fun _ => retired) hlen hl

theorem thX_laneResults {rd : Nat} (h : GroupOn s b g gr p rest bl) (hrd : rd ≠ 0) (v : Nat → BitVec 64) (hold : Hold) {l : Nat}
    (hl : l ∈ lanesOf p.mask) : thX (thOf (heldGroup (laneResults gr p rd v) p rest hold) l) rd = v l := by
  rw [laneResults_eq, thOf_heldGroup (mapLanes_length.trans h.length) hold hl, mapLanes_lanesOf h.length hl]
  exact thX_thSetX_same (h.lane_rising hl) hrd (v l)

/-- An Xtg instruction that writes a result in every active thread. -/
theorem xtgGo_results (hb : Rising s.bays) (h : GroupOn s b g gr p rest bl) {w rd : Nat} {v : Nat → BitVec 64} (hw : bits w 14 12 ≠ 4) (hrd : rd ≠ 0)
    (hexec : xtgExec (dropResv s b g p.mask) b g gr bl p rest w = .ok (pathNext (dropResv s b g p.mask) b g (laneResults gr p rd v) p rest)) :
    ∃ gr', GroupWent (xtgGo s b g w) b g gr gr' p rest .none ∧ ∀ l ∈ lanesOf p.mask, thX (thOf gr' l) rd = v l := by
  have hblock : (laneResults gr p rd v).block = gr.block := by rw [laneResults_eq, mapLanes_block]
  have hnum : (laneResults gr p rd v).num = gr.num := by rw [laneResults_eq, mapLanes_num]
  exact ⟨_, (xtgGo_holds (hold := .none) hb h hw (dropResv_bays s b g p.mask) hblock hnum hexec).2, fun _ hl => thX_laneResults h hrd v .none hl⟩
end

/-! ### What each comes to. -/

section
variable {s : State} {b : BayId} {g : Fin 64} {gr : Group} {p : Path} {rest : List Path} {bl : Block} {rd rs1 rs2 : Fin 32}

theorem xtgExec_id : xtgExec s b g gr bl p rest (encXtg 0 0 rd.val rs1.val 0) =
    .ok (pathNext s b g (laneResults gr p rd.val (fun l => tgIdItem b gr bl l (thX (thOf gr l) rs1.val))) p rest) := by
  simp [xtgExec, encXtg_rd, encXtg_f3, encXtg_rs1, encXtg_rs2, encXtg_f7]

theorem xtgExec_voteAny : xtgExec s b g gr bl p rest (encXtg 0 1 rd.val rs1.val 0) =
    .ok (pathNext s b g (laneResults gr p rd.val fun _ => if (lanesOf p.mask).any (fun l => thX (thOf gr l) rs1.val != 0) then 1 else 0) p rest) := by
  simp [xtgExec, encXtg_rd, encXtg_f3, encXtg_rs1, encXtg_rs2, encXtg_f7]

theorem xtgExec_voteAll : xtgExec s b g gr bl p rest (encXtg 0 2 rd.val rs1.val 0) =
    .ok (pathNext s b g (laneResults gr p rd.val fun _ => if (lanesOf p.mask).all (fun l => thX (thOf gr l) rs1.val != 0) then 1 else 0) p rest) := by
  simp [xtgExec, encXtg_rd, encXtg_f3, encXtg_rs1, encXtg_rs2, encXtg_f7]

theorem xtgExec_ballot : xtgExec s b g gr bl p rest (encXtg 0 3 rd.val rs1.val 0) =
    .ok (pathNext s b g (laneResults gr p rd.val fun _ =>
      BitVec.ofNat 64 (maskOf ((lanesOf p.mask).filter (fun l => thX (thOf gr l) rs1.val != 0))).toNat) p rest) := by
  simp [xtgExec, encXtg_rd, encXtg_f3, encXtg_rs1, encXtg_rs2, encXtg_f7]

theorem xtgExec_shfl {f7 : Nat} (h7 : f7 ≤ 3) : xtgExec s b g gr bl p rest (encXtg 1 f7 rd.val rs1.val rs2.val) =
    .ok (pathNext s b g (laneResults gr p rd.val (shfl gr p f7 rs1.val rs2.val)) p rest) := by
  obtain ⟨h3, -⟩ := encXtg_op (f3 := 1) (f7 := f7) rd.isLt (by decide) rs1.isLt rs2.isLt
  simp [xtgExec, encXtg_rd, encXtg_f3, encXtg_rs1, encXtg_rs2, encXtg_f7, h3, show f7 < 128 by omega, show ¬ 3 < f7 by omega]

theorem xtgExec_yield : xtgExec s b g gr bl p rest (encXtg 2 2 0 0 0) =
    .ok (pathMove s b g (retireAll gr p.mask) p rest ((lanesOf p.mask).map (fun l => ⟨l, p.pc + 4, false⟩)) true) := by
  simp [xtgExec, encXtg_rd, encXtg_f3, encXtg_rs1, encXtg_rs2, encXtg_f7]

theorem xtgExec_exit : xtgExec s b g gr bl p rest (encXtg 2 3 0 0 0) =
    .ok (pathMove s b g gr p rest ((lanesOf p.mask).map (fun l => ⟨l, 0, true⟩)) false) := by
  simp [xtgExec, encXtg_rd, encXtg_f3, encXtg_rs1, encXtg_rs2, encXtg_f7]

theorem xtgExec_bar : xtgExec s b g gr bl p rest (encXtg 2 0 0 rs1.val 0) = .ok (tgBarGo s b g gr p rest rs1.val false) := by
  simp [xtgExec, encXtg_rd, encXtg_f3, encXtg_rs1, encXtg_rs2, encXtg_f7]

theorem xtgExec_barArv : xtgExec s b g gr bl p rest (encXtg 2 1 0 rs1.val 0) = .ok (tgBarGo s b g gr p rest rs1.val true) := by
  simp [xtgExec, encXtg_rd, encXtg_f3, encXtg_rs1, encXtg_rs2, encXtg_f7]

/-- R218: a G or B fence only goes on. -/
theorem xtgExec_fenceNear {f7 : Nat} (h7 : f7 < 2) : xtgExec s b g gr bl p rest (encXtg 3 f7 0 0 0) = .ok (pathNext s b g gr p rest) := by
  have hword : bits (encXtg 3 f7 0 0 0) 31 25 = f7 := encXtg_f7 (by decide) (by decide) (by decide) (by decide) (by omega)
  unfold xtgExec
  interval_cases f7 <;> simp [encXtg_rd, encXtg_f3, encXtg_rs1, encXtg_rs2, hword]

/-- R218: a D or S fence holds the path. -/
theorem xtgExec_fenceFar (sys : Bool) : xtgExec s b g gr bl p rest (encXtg 3 (if sys then 3 else 2) 0 0 0) = .ok (pathHold s b g gr p rest (.fence sys)) := by
  cases sys <;> simp [xtgExec, encXtg_rd, encXtg_f3, encXtg_rs1, encXtg_rs2, encXtg_f7]

theorem xtgExec_scope : xtgExec s b g gr bl p rest (encXtg 3 4 0 rs1.val 0) =
    .ok (pathNext s b g (mapLanes (fun l t => { t with scope := BitVec.ofNat 2 (thX (thOf gr l) rs1.val).toNat }) gr (lanesOf p.mask)) p rest) := by
  simp [xtgExec, encXtg_rd, encXtg_f3, encXtg_rs1, encXtg_rs2, encXtg_f7, mapLanes]
end

/-! ### The values of shuffles (R208). -/

section
variable {gr : Group} {p : Path} {f7 rs1 rs2 l k : Nat}

/-- The source lane of a shuffle, where it is a lane or above. -/
theorem shfl_source (h : shflLane f7 l (thX (thOf gr l) rs2) = (k : Int)) : shfl gr p f7 rs1 rs2 l =
    if k ∈ lanesOf p.mask then thX (thOf gr k) rs1 else thX (thOf gr l) rs1 := by
  unfold shfl
  simp only [h, mem_lanesOf, Int.toNat_natCast, Int.natCast_nonneg, true_and, Nat.cast_lt_ofNat]

/-- Below lane 0 there is no source lane. -/
theorem shfl_below (h : shflLane f7 l (thX (thOf gr l) rs2) < 0) : shfl gr p f7 rs1 rs2 l = thX (thOf gr l) rs1 := by
  unfold shfl
  exact if_neg fun hsrc => absurd hsrc.1 (by omega)

theorem shfl_up : shfl gr p 1 rs1 rs2 l = (let k := (thX (thOf gr l) rs2).toNat % 32
    if k ≤ l ∧ l - k ∈ lanesOf p.mask then thX (thOf gr (l - k)) rs1 else thX (thOf gr l) rs1) := by
  extract_lets k
  by_cases hk : k ≤ l
  · have hsrc : shflLane 1 l (thX (thOf gr l) rs2) = ((l - k : Nat) : Int) := (Int.ofNat_sub hk).symm
    simp only [shfl_source hsrc, hk, true_and]
  · have hsrc : shflLane 1 l (thX (thOf gr l) rs2) < 0 := Int.sub_neg_of_lt (Int.ofNat_lt.mpr (Nat.lt_of_not_le hk))
    rw [shfl_below hsrc, if_neg fun h => hk h.1]
end

/-! ### Exchanges, votes and identity (R208). -/

section
variable {s : State} {b : BayId} {g : Fin 64} {gr : Group} {p : Path} {rest : List Path} {bl : Block} {rd rs1 rs2 : Fin 32}

theorem word_apart {f3 f7 rd rs1 rs2 : Nat} (hrd : rd < 32) (h3 : f3 < 8) (h : f3 ≠ 4) : bits (encXtg f3 f7 rd rs1 rs2) 14 12 ≠ 4 := by
  rwa [encXtg_f3 hrd h3]

theorem ballot_bit (l : List Nat) (hl : ∀ i ∈ l, i < 32) {i : Nat} (hi : i < 64) : (BitVec.ofNat 64 (maskOf l).toNat).getLsbD i = true ↔ i ∈ l := by
  rw [BitVec.getLsbD_ofNat, BitVec.testBit_toNat, decide_eq_true hi, Bool.true_and]
  by_cases h32 : i < 32
  · rw [getLsbD_maskOf l h32, decide_eq_true_eq]
  · rw [BitVec.getLsbD_of_ge _ _ (Nat.le_of_not_lt h32)]
    exact iff_of_false Bool.false_ne_true fun h => h32 (hl i h)
end

end Sys2Proof.Machine
end

section
/-! Threads that exit (R193, R200, R208): LIVE, the block that goes on, and the group without threads. -/

namespace Sys2Proof.Machine

/-- The bays, and the group slots of bay `b`, are in order. -/
structure TguRising (b : BayId) (s : State) : Prop where
  bays : Rising s.bays
  groups : Rising (tguOf s b).groups

/-- From `s` to `t` block `k` of bay `b` keeps its count of live threads, LIVE shows the same, and a free group slot stays free. -/
structure LiveKept (b : BayId) (k : Nat) (s t : State) : Prop where
  rising : TguRising b s → TguRising b t
  live : TguRising b s → ∀ bl, blockOf s b k = some bl → ∃ bl', blockOf t b k = some bl' ∧ bl'.live = bl.live
  free : TguRising b s → ∀ j, groupOf s b j = none → groupOf t b j = none
  shown : RegsKept (· = (tguBlkLive k).key (.tgu b)) s t

section
variable {b : BayId} {k j : Nat} {s t u : State}

theorem LiveKept.refl (b : BayId) (k : Nat) (s : State) : LiveKept b k s s := ⟨id, fun _ bl h => ⟨bl, h, rfl⟩, fun _ _ => id, .refl s⟩

theorem LiveKept.trans (h1 : LiveKept b k s t) (h2 : LiveKept b k t u) : LiveKept b k s u where
  rising hs := h2.rising (h1.rising hs)
  live hs bl h := by
    obtain ⟨bl1, hbl1, hlive1⟩ := h1.live hs bl h
    obtain ⟨bl2, hbl2, hlive2⟩ := h2.live (h1.rising hs) bl1 hbl1
    exact ⟨bl2, hbl2, hlive2.trans hlive1⟩
  free hs j h := h2.free (h1.rising hs) j (h1.free hs j h)
  shown := h1.shown.trans h2.shown

/-- A field of the page other than LIVE. -/
theorem LiveKept.wr {p : Page} {r : Row} {v : Nat} (h : LiveKept b k s t) (hk : r.key p ≠ (tguBlkLive k).key (.tgu b)) : LiveKept b k s (wr t p r v) :=
  h.trans ⟨fun hs => ⟨hs.bays, hs.groups⟩, fun _ bl hbl => ⟨bl, hbl, rfl⟩, fun _ _ => id,
    RegsKept.wr (K := (· = (tguBlkLive k).key (.tgu b))) (.refl t) hk⟩

theorem setGroup_tguRising (hs : TguRising b s) (v : Option Group) : TguRising b (setGroup s b j v) :=
  ⟨setGroup_rising hs.bays v, by rw [setGroup, tguOf_modTgu hs.bays]; exact hs.groups.mset _ _ _⟩

theorem groupOf_setGroup_none (hs : TguRising b s) : groupOf (setGroup s b j none) b j = none := by
  rw [groupOf, setGroup, tguOf_modTgu hs.bays]
  exact mget_mset_same none _ j none hs.groups

theorem groupOf_setGroup_ne (hs : TguRising b s) (v : Option Group) {i : Nat} (h : i ≠ j) : groupOf (setGroup s b j v) b i = groupOf s b i := by
  rw [groupOf, setGroup, tguOf_modTgu hs.bays]
  exact mget_mset_other _ _ _ _ _ _ h hs.groups

/-- A group slot in use is written, or one is freed. -/
theorem LiveKept.setGroup {v : Option Group} (h : LiveKept b k s t) (hj : v = none ∨ (TguRising b s → groupOf s b j ≠ none)) :
    LiveKept b k s (setGroup t b j v) where
  rising hs := setGroup_tguRising (h.rising hs) v
  live hs bl hbl := by
    obtain ⟨bl', hbl', hlive⟩ := h.live hs bl hbl
    exact ⟨bl', (blockOf_setGroup (h.rising hs).bays v).trans hbl', hlive⟩
  free hs i hi := by
    by_cases hij : i = j
    · rcases hj with rfl | hj
      · rw [hij]
        exact groupOf_setGroup_none (h.rising hs)
      · exact absurd (hij ▸ hi) (hj hs)
    · rw [groupOf_setGroup_ne (h.rising hs) v hij]
      exact h.free hs i hi
  shown := h.shown.trans .of_regs

/-- The block's barriers change. -/
theorem LiveKept.setBlock {bl bl' : Block} (hbl : blockOf s b k = some bl) (hlive : bl'.live = bl.live) : LiveKept b k s (setBlock s b k (some bl')) where
  rising hs := ⟨setBlock_rising hs.bays _, by rw [Machine.setBlock, tguOf_modTgu hs.bays]; exact hs.groups⟩
  live hs bl0 hbl0 := by
    obtain rfl := Option.some.inj (hbl.symm.trans hbl0)
    exact ⟨bl', blockOf_setBlock_same hs.bays bl', hlive⟩
  free hs j hj := (groupOf_setBlock hs.bays _).trans hj
  shown := .of_regs

theorem LiveKept.foldl {α : Type} {f : State → α → State} {l : List α} (hf : ∀ t, LiveKept b k s t → ∀ x ∈ l, LiveKept b k s (f t x)) :
    LiveKept b k s (l.foldl f s) := List.foldlRecOn l f (.refl b k s) fun t ht x hx => hf t ht x hx

theorem barComplete_live (n : Fin 16) (fuel : Nat) (s : State) : LiveKept b k s (barComplete b k n fuel s) := by
  induction fuel generalizing s with
  | zero => exact .refl b k s
  | succ fuel ih =>
    unfold barComplete
    split
    · exact .refl b k s
    next bl hbl =>
      extract_lets br waiting x y
      split
      · exact .refl b k s
      · have hx : LiveKept b k s x := .setBlock hbl rfl
        have hy : LiveKept b k x y := .foldl fun t ht z hz => ht.setGroup (.inr fun _ => by simp [(mem_groupsOf.mp hz).2.1])
        exact (hx.trans hy).trans (ih y)

theorem barpend_apart (k : Nat) (b : BayId) (hk : k < 8) : (tguBlkBarpend k).key (.tgu b) ≠ (tguBlkLive k).key (.tgu b) :=
  key_ne_off _ _ (by simp only [tguBlkBarpend]; omega) (by simp only [tguBlkLive]; omega) (by simp only [tguBlkBarpend, tguBlkLive]; omega)

/-- R212: the barriers of a block are looked at. -/
theorem barPump_live (hk : k < 8) (s : State) : LiveKept b k s (barPump s b k) := by
  have hfold : LiveKept b k s ((List.finRange 16).foldl (fun s n => barComplete b k n 3 s) s) :=
    .foldl fun t ht n _ => ht.trans (barComplete_live n 3 t)
  unfold barPump showBar
  split
  · exact hfold
  · exact hfold.wr (barpend_apart k b hk)

theorem tguCount_live (hk : k < 8) (s : State) : LiveKept b k s (tguCount s b) := by
  have hapart : ∀ {r : Row}, r.off * 8 + r.lsb < 0x1000 → r.key (.tgu b) ≠ (tguBlkLive k).key (.tgu b) := fun {r} hr =>
    key_ne_off _ _ (by omega) (by simp only [tguBlkLive]; omega) (by simp only [tguBlkLive]; omega)
  exact (((LiveKept.refl b k s).wr (hapart (by decide))).wr (hapart (by decide))).wr (hapart (by decide))

/-- R200: the group slots of a block whose threads have all exited become free. -/
def freeEmpty (s : State) (b : BayId) (l : List (Nat × Group)) : State := l.foldl (fun s x => if x.2.paths.isEmpty then setGroup s b x.1 none else s) s

theorem freeEmpty_live (l : List (Nat × Group)) (s : State) : LiveKept b k s (freeEmpty s b l) := .foldl fun t ht x _ => by
  split
  · exact ht.setGroup (.inl rfl)
  · exact ht

theorem freeEmpty_free {l : List (Nat × Group)} {x : Nat × Group} (hs : TguRising b s) (hx : x ∈ l) (hempty : x.2.paths = []) :
    groupOf (freeEmpty s b l) b x.1 = none := by
  induction l generalizing s with
  | nil => exact absurd hx List.not_mem_nil
  | cons y l ih =>
    rcases List.mem_cons.mp hx with rfl | hx
    · have hfirst : freeEmpty s b (x :: l) = freeEmpty (setGroup s b x.1 none) b l := by simp [freeEmpty, hempty]
      rw [hfirst]
      exact (freeEmpty_live (k := 0) l _).free (setGroup_tguRising hs _) _ (groupOf_setGroup_none hs)
    · refine ih (s := if y.2.paths.isEmpty then setGroup s b y.1 none else s) ?_ hx
      split
      · exact setGroup_tguRising hs _
      · exact hs

/-- R193: LIVE of a block counts down. -/
def countDown (s : State) (b : BayId) (k : Nat) (bl : Block) (n : Nat) : State :=
  wr (setBlock (resvPrune s b) b k (some { bl with live := bl.live - n })) (.tgu b) (tguBlkLive k) (bl.live - n)

/-- R193, R200: what the exit of some of a block's threads comes to. -/
theorem afterExit_eq {bl : Block} {n : Nat} (hbl : blockOf s b k = some bl) (hlive : n < bl.live) :
    afterExit s b k n =
      tguCount (barPump (freeEmpty (countDown s b k bl n) b (groupsOf (countDown s b k bl n) b k)) b k) b := by
  have hpruned : blockOf (resvPrune s b) b k = some bl := hbl
  unfold afterExit
  simp only [hpruned, show bl.live - n ≠ 0 by omega, if_false]
  rfl

theorem tguOf_countDown (hb : Rising s.bays) (bl : Block) (n : Nat) : tguOf (countDown s b k bl n) b =
    { tguOf s b with blocks := mset none (tguOf s b).blocks k (some { bl with live := bl.live - n }) } := by
  have hprune : Rising (resvPrune s b).bays := hb
  change tguOf (setBlock (resvPrune s b) b k _) b = _
  rw [setBlock, tguOf_modTgu hprune]
  rfl

theorem countDown_rising (hs : TguRising b s) (bl : Block) (n : Nat) : TguRising b (countDown s b k bl n) :=
  ⟨setBlock_rising (s := resvPrune s b) hs.bays _, by rw [tguOf_countDown hs.bays]; exact hs.groups⟩

theorem groupOf_countDown (hb : Rising s.bays) (bl : Block) (n j : Nat) : groupOf (countDown s b k bl n) b j = groupOf s b j := by
  rw [groupOf, tguOf_countDown hb, groupOf]

theorem blockOf_countDown (hb : Rising s.bays) (bl : Block) (n : Nat) : blockOf (countDown s b k bl n) b k = some { bl with live := bl.live - n } := by
  rw [blockOf, tguOf_countDown hb]
  exact mget_mset_listed (Option.some_ne_none _)

theorem rd_countDown (hr : Rising s.regs) {bl : Block} (hmax : bl.live ≤ 1024) (n : Nat) :
    rd (countDown s b k bl n) (.tgu b) (tguBlkLive k) = bl.live - n := by
  have hrd : rd (countDown s b k bl n) (.tgu b) (tguBlkLive k) = (bl.live - n) % 2 ^ 11 := rd_wr_same _ _ _ _ hr (show 11 ≤ 64 by decide)
  rw [hrd, Nat.mod_eq_of_lt (by omega)]

theorem afterExit_acts {bl : Block} {n : Nat} (hs : TguRising b s) (hr : Rising s.regs) (hk : k < 8) (hbl : blockOf s b k = some bl) (hn : n < bl.live)
    (hmax : bl.live ≤ 1024) :
    rd (afterExit s b k n) (.tgu b) (tguBlkLive k) = bl.live - n ∧
      (∃ bl', blockOf (afterExit s b k n) b k = some bl' ∧ bl'.live = bl.live - n) ∧
      ∀ j gr, j < 64 → groupOf s b j = some gr → gr.block.val = k → gr.paths = [] → groupOf (afterExit s b k n) b j = none := by
  have hdown := countDown_rising (k := k) hs bl n
  have hfree : LiveKept b k _ _ := freeEmpty_live (b := b) (k := k) (groupsOf (countDown s b k bl n) b k) (countDown s b k bl n)
  have hpump : LiveKept b k _ (afterExit s b k n) := afterExit_eq hbl hn ▸ (barPump_live hk _).trans (tguCount_live hk _)
  have hall := hfree.trans hpump
  refine ⟨(hall.shown.rd_eq (wr_rising _ _ _ _ hr) rfl).trans (rd_countDown hr hmax n), hall.live hdown _ (blockOf_countDown hs.bays bl n),
    fun j gr hj hgr hblock hempty => ?_⟩
  have hmem : (j, gr) ∈ groupsOf (countDown s b k bl n) b k := mem_groupsOf.mpr ⟨hj, (groupOf_countDown hs.bays bl n j).trans hgr, hblock⟩
  exact hpump.free (hfree.rising hdown) j (freeEmpty_free hdown hmem hempty)
end

end Sys2Proof.Machine
end

section
/-! Exchanges, fences, exits and released paths of a thread group (R205 to R218). -/

namespace Sys2Proof.Machine

/-! ### Exchanges. -/

section
variable {s : State} {b : BayId} {g : Fin 64} {gr : Group} {p : Path} {rest : List Path} {bl : Block}

/-- An Xtg instruction that writes a result in every active thread, as a command. -/
theorem xtg_gives {i : Instr} {f3 f7 rs1 rs2 : Nat} {rd : Fin 32} {v v' : Nat → BitVec 64} (hb : Rising s.bays) (h : GroupOn s b g gr p rest bl)
    (hrd : rd ≠ 0) (h3 : f3 < 8) (h4 : f3 ≠ 4) (hi : exec i s = .next (xtgGo s b g (encXtg f3 f7 rd.val rs1 rs2)))
    (hexec : xtgExec (dropResv s b g p.mask) b g gr bl p rest (encXtg f3 f7 rd.val rs1 rs2) =
      .ok (pathNext (dropResv s b g p.mask) b g (laneResults gr p rd.val v) p rest))
    (hv : ∀ l ∈ lanesOf p.mask, v l = v' l) :
    ∃ t gr', exec i s = .next t ∧ GroupWent t b g gr gr' p rest .none ∧ ∀ l ∈ lanesOf p.mask, thX (thOf gr' l) rd.val = v' l := by
  obtain ⟨gr', hwent, hval⟩ := xtgGo_results hb h (word_apart rd.isLt h3 h4) (Fin.val_ne_of_ne hrd) hexec
  exact ⟨_, gr', hi, hwent, fun l hl => (hval l hl).trans (hv l hl)⟩

theorem tgBallot_gives {rd rs1 : Fin 32} (hb : Rising s.bays) (h : GroupOn s b g gr p rest bl) (hrd : rd ≠ 0) :
    ∃ t gr', exec (.tgBallot b g rd rs1) s = .next t ∧ GroupWent t b g gr gr' p rest .none ∧ ∀ l ∈ lanesOf p.mask, ∀ i, i < 64 →
      ((thX (thOf gr' l) rd.val).getLsbD i = true ↔ i ∈ lanesOf p.mask ∧ thX (thOf gr i) rs1.val ≠ 0) := by
  obtain ⟨t, gr', hexec, hwent, hval⟩ := xtg_gives hb h hrd (by decide) (by decide) (i := .tgBallot b g rd rs1) rfl xtgExec_ballot fun _ _ => rfl
  refine ⟨t, gr', hexec, hwent, fun l hl i hi => ?_⟩
  rw [hval l hl, ballot_bit _ (fun i hi => lane_lt (List.mem_filter.mp hi).1) hi, List.mem_filter, bne_iff_ne]

/-! ### Fences and scope (R208, R218). -/

/-- An Xtg instruction after which the path is held, or goes on. -/
theorem xtg_holds {i : Instr} {f3 f7 rs1 rs2 : Nat} {hold : Hold} (hb : Rising s.bays) (h : GroupOn s b g gr p rest bl) (h3 : f3 < 8) (h4 : f3 ≠ 4)
    (hi : exec i s = .next (xtgGo s b g (encXtg f3 f7 0 rs1 rs2)))
    (hexec : xtgExec (dropResv s b g p.mask) b g gr bl p rest (encXtg f3 f7 0 rs1 rs2) = .ok (pathHold (dropResv s b g p.mask) b g gr p rest hold)) :
    ∃ t gr', exec i s = .next t ∧ GroupWent t b g gr gr' p rest hold :=
  ⟨_, _, hi, (xtgGo_holds hb h (word_apart (by decide) h3 h4) (dropResv_bays s b g p.mask) rfl rfl hexec).2⟩

theorem tgScope_sets (hb : Rising s.bays) (h : GroupOn s b g gr p rest bl) (rs1 : Fin 32) :
    ∃ t gr', exec (.tgScope b g rs1) s = .next t ∧ GroupWent t b g gr gr' p rest .none ∧
      ∀ l ∈ lanesOf p.mask, (thOf gr' l).scope = BitVec.ofNat 2 (thX (thOf gr l) rs1.val).toNat := by
  have hwent := xtgGo_holds hb h (word_apart (by decide) (by decide) (by decide)) (dropResv_bays s b g p.mask) mapLanes_block mapLanes_num
    (xtgExec_scope (rs1 := rs1))
  refine ⟨_, _, rfl, hwent.2, fun l hl => ?_⟩
  rw [thOf_heldGroup (mapLanes_length.trans h.length) _ hl, mapLanes_lanesOf h.length hl]
  rfl

/-- R205: TG.YIELD goes on with DEFER set. -/
theorem tgYield_defers (hb : Rising s.bays) (h : GroupOn s b g gr p rest bl) :
    ∃ t gr', exec (.tgYield b g) s = .next t ∧ GroupWent t b g gr gr' p rest p.hold ∧ (gr'.paths.map (·.defer)).head? = some true ∧
      gr'.keep = false := by
  have hgo : xtgGo s b g (encXtg 2 2 0 0 0) =
      setGroup (dropResv s b g p.mask) b g.val (some (movedGroup (retireAll gr p.mask) p rest true)) := by
    rw [xtgGo_eq h (word_apart (by decide) (by decide) (by decide)), xtgExec_yield, pathMove_next h.ne_nil]
    rfl
  refine ⟨_, movedGroup (retireAll gr p.mask) p rest true, rfl, ?_, ?_, ?_⟩
  · rw [hgo]
    exact movedGroup_went (s := dropResv s b g p.mask) hb (retireAll_block _ _) (retireAll_num _ _) true
  · exact congrArg some (Bool.or_true _)
  · exact Bool.and_false _

/-! ### Exits (R206, R208). -/

/-- R206: threads that return to address 0 exit. -/
theorem pathMove_exit (hne : lanesOf p.mask ≠ []) :
    pathMove s b g gr p rest ((lanesOf p.mask).map (fun l => ⟨l, 0, true⟩)) false =
      afterExit (setGroup s b g.val (some { gr with paths := rest, keep := false })) b gr.block.val (lanesOf p.mask).length := by
  have hnone : (lanesOf p.mask).filter (fun _ => false) = [] := List.filter_eq_nil_iff.mpr fun _ _ => Bool.false_ne_true
  unfold pathMove
  simp [List.filter_map, Function.comp_def, hnone, hne]

theorem tgExit_ends (hr : Rising s.regs) (hb : Rising s.bays) (h : GroupOn s b g gr p rest bl) (hlive : (lanesOf p.mask).length < bl.live)
    (hmax : bl.live ≤ 1024) :
    ∃ t, exec (.tgExit b g) s = .next t ∧
      rd t (.tgu b) (tguBlkLive gr.block.val) = bl.live - (lanesOf p.mask).length ∧
      (∃ bl', blockOf t b gr.block.val = some bl' ∧ bl'.live = bl.live - (lanesOf p.mask).length) ∧
      (rest = [] → groupOf t b g.val = none) := by
  have hgo : xtgGo s b g (encXtg 2 3 0 0 0) = afterExit
      (setGroup (dropResv s b g p.mask) b g.val (some { gr with paths := rest, keep := false })) b gr.block.val (lanesOf p.mask).length := by
    rw [xtgGo_eq h (word_apart (by decide) (by decide) (by decide)), xtgExec_exit, pathMove_exit h.ne_nil]
    rfl
  have hs : TguRising b (dropResv s b g p.mask) := ⟨hb, h.groups_rising⟩
  obtain ⟨hshown, hblock, hfree⟩ := afterExit_acts (setGroup_tguRising hs (some { gr with paths := rest, keep := false })) hr gr.block.isLt
    ((blockOf_setGroup hs.bays _).trans h.block) hlive hmax
  refine ⟨_, rfl, ?_⟩
  rw [hgo]
  exact ⟨hshown, hblock, fun hrest => hfree g.val _ g.isLt (groupOf_setGroup_same hs.bays _) rfl hrest⟩
end

/-! ### A path is released. -/

section
variable {s x : State} {b : BayId} {g : Fin 64} {lane : Fin 32} {gr : Group} {p : Path} {rest : List Path}

/-- The current path is released, where what releases it leaves its group. -/
theorem releasePath_first {i : Instr} {go : Group → Path → Option State} (hi : exec i s = .next (releasePath s b g lane go))
    (hw : pgWorks s (.tgu b) = true) (hgr : groupOf s b g.val = some gr) (hp : gr.paths = p :: rest) (hlane : bitOf p.mask.toNat lane.val = true)
    (hx : groupOf x b g.val = some gr) (hgo : go gr p = some x) :
    ∃ gr', exec i s = .next (setGroup x b g.val (some gr')) ∧ gr'.paths.head? = some { p with hold := .none } := by
  have hfind : gr.paths.find? (fun p => bitOf p.mask.toNat lane.val) = some p := by rw [hp]; exact List.find?_cons_of_pos hlane
  refine ⟨{ gr with paths := gr.paths.map (fun q => if q.mask = p.mask then { q with hold := .none } else q) }, hi.trans ?_, by simp [hp]⟩
  unfold releasePath
  simp only [hw, hgr, hfind, hgo, hx, Bool.not_true, Bool.false_eq_true, if_false]
end

/-! ### The obligation. -/

/-- Settles O22, from one equation per instruction on a group that can issue and the count of a block's live threads. -/
theorem threadGroupsExchangeFenceAndExit : Obligations.ThreadGroupsExchangeFenceAndExit := by
  unfold Obligations.ThreadGroupsExchangeFenceAndExit
  refine ⟨?exchanges, ?fences, ?exit, ?release⟩
  case exchanges =>
    intro s b g gr p rest bl rd' rs1 rs2 hinv hon hrd
    have hb := hinv.bays_rising
    exact ⟨xtg_gives hb hon hrd (by decide) (by decide) rfl xtgExec_id fun _ _ => rfl,
      xtg_gives hb hon hrd (by decide) (by decide) rfl xtgExec_voteAny fun _ _ => by simp,
      xtg_gives hb hon hrd (by decide) (by decide) rfl xtgExec_voteAll fun _ _ => by simp,
      tgBallot_gives hb hon hrd,
      xtg_gives hb hon hrd (by decide) (by decide) rfl (xtgExec_shfl (by decide)) fun _ _ => shfl_source rfl,
      xtg_gives hb hon hrd (by decide) (by decide) rfl (xtgExec_shfl (by decide)) fun _ _ => shfl_up,
      xtg_gives hb hon hrd (by decide) (by decide) rfl (xtgExec_shfl (by decide)) fun _ _ => shfl_source rfl,
      xtg_gives hb hon hrd (by decide) (by decide) rfl (xtgExec_shfl (by decide)) fun _ _ => shfl_source rfl⟩
  case fences =>
    intro s b g gr p rest bl hinv hon
    have hb := hinv.bays_rising
    exact ⟨xtg_holds hb hon (by decide) (by decide) rfl (xtgExec_fenceNear (by decide)),
      xtg_holds hb hon (by decide) (by decide) rfl (xtgExec_fenceNear (by decide)),
      xtg_holds hb hon (by decide) (by decide) rfl (xtgExec_fenceFar false),
      xtg_holds hb hon (by decide) (by decide) rfl (xtgExec_fenceFar true), tgScope_sets hb hon, tgYield_defers hb hon⟩
  case exit =>
    intro s b g gr p rest bl hinv hon hlive hmax
    exact tgExit_ends hinv.regs_rising hinv.bays_rising hon hlive hmax
  case release =>
    intro s b g lane gr p rest hinv hw hgr hp hlane hhold
    obtain ⟨gr', hexec, hhead⟩ := releasePath_first (i := .tgFenceDone b g lane) rfl hw hgr hp hlane hgr (by rw [hhold]; rfl)
    exact ⟨_, gr', hexec, groupOf_setGroup_same hinv.bays_rising gr', hhead⟩

end Sys2Proof.Machine
end

section
/-! Barriers of a block (R212, R213): threads arrive, paths are held and resume, and a phase is stranded. -/

namespace Sys2Proof.Machine

/-! ### Threads arrive. -/

/-- From `s` to `t` threads of block `bl` (slot `k`) have arrived, those of `tids`, all at barrier `n`; the groups stand. -/
structure Arrived (b : BayId) (k n : Nat) (bl : Block) (tids : List Nat) (s t : State) : Prop where
  bays : Rising t.bays
  groups : ∀ j, groupOf t b j = groupOf s b j
  barriers : ∃ bs, blockOf t b k = some { bl with barriers := bs } ∧ (mget {} bs n).arrived = tids ∧ ∀ m, m ≠ n → mget {} bs m = {}

section
variable {b : BayId} {k n tid rs1 : Nat} {bl : Block} {tids : List Nat} {s t : State}

theorem Arrived.start (hb : Rising s.bays) (hbl : blockOf s b k = some bl) (hbar : bl.barriers = []) : Arrived b k n bl [] s s :=
  ⟨hb, fun _ => rfl, [], by rw [hbl, ← hbar], rfl, fun _ _ => rfl⟩

/-- R212: one more thread arrives. -/
theorem Arrived.arrive (h : Arrived b k n bl tids s t) (hnew : tid ∉ tids) :
    (barArrive t b k n tid).1 = false ∧ Arrived b k n bl (tids ++ [tid]) s (barArrive t b k n tid).2 := by
  obtain ⟨bs, hbl, harr, hother⟩ := h.barriers
  have hnot : (mget {} bs n).arrived.contains tid = false := by simpa [harr] using hnew
  have hstep : barArrive t b k n tid = (false, setBlock t b k
      (some { bl with barriers := mset {} bs n { begun := true, arrived := (mget {} bs n).arrived ++ [tid] } })) := by
    unfold barArrive
    simp only [hbl, hnot, Bool.false_eq_true, if_false]
  have hlisted : ({ begun := true, arrived := (mget {} bs n).arrived ++ [tid] } : BarrierState) ≠ {} := fun he => by
    cases congrArg BarrierState.begun he
  rw [hstep]
  refine ⟨rfl, setBlock_rising h.bays _, fun j => (groupOf_setBlock h.bays _).trans (h.groups j), _, blockOf_setBlock_same h.bays _, ?_, fun m hm => ?_⟩
  · rw [mget_mset_listed hlisted, harr]
  · rw [mget_mset_listed_other hlisted hm]
    exact hother m hm

/-- R212: the lanes of a path arrive in order; the flags say which had reached the phase before. -/
def arrivals (b : BayId) (gr : Group) (rs1 : Nat) (l : List Nat) (x : List (Nat × Bool) × State) : List (Nat × Bool) × State :=
  l.foldl (fun x l =>
    let r := barArrive x.2 b gr.block.val ((thX (thOf gr l) rs1).toNat % 16) (tidOf gr l)
    (x.1 ++ [(l, r.1)], r.2)) x

theorem arrivals_new {gr : Group} {l : List Nat} {acc : List (Nat × Bool)} (h : Arrived b gr.block.val n bl tids s t) (hl : l.Nodup)
    (hnew : ∀ i ∈ l, tidOf gr i ∉ tids) (hn : ∀ i ∈ l, (thX (thOf gr i) rs1).toNat % 16 = n) :
    ∃ x, arrivals b gr rs1 l (acc, t) = (acc ++ l.map (fun i => (i, false)), x) ∧ Arrived b gr.block.val n bl (tids ++ l.map (tidOf gr)) s x := by
  induction l generalizing t acc tids with
  | nil => exact ⟨t, by simp [arrivals], by simpa using h⟩
  | cons i l ih =>
    rw [List.nodup_cons] at hl
    rw [List.forall_mem_cons] at hnew hn
    obtain ⟨hflag, harr⟩ := h.arrive hnew.1
    have hrest : ∀ j ∈ l, tidOf gr j ∉ tids ++ [tidOf gr i] := fun j hj hmem => by
      rcases List.mem_append.mp hmem with hmem | hmem
      · exact hnew.2 j hj hmem
      · have hji : j = i := Nat.add_left_cancel (List.mem_singleton.mp hmem)
        exact hl.1 (hji ▸ hj)
    obtain ⟨x, hx, hxarr⟩ := ih (acc := acc ++ [(i, false)]) harr hl.2 hrest hn.2
    refine ⟨x, ?_, by simpa using hxarr⟩
    rw [arrivals, List.foldl_cons, ← arrivals]
    simp only [hn.1, hflag, hx]
    simp
end

/-! ### A phase that goes on. -/

section
variable {b : BayId} {k : Nat} {s : State} {bl : Block}

/-- R212: a phase for which a live thread has not arrived does not complete. -/
theorem barComplete_waits {n : Fin 16} (hbl : blockOf s b k = some bl)
    (h : (mget {} bl.barriers n.val).begun = true → ∃ t ∈ liveThreads s b k, t ∉ (mget {} bl.barriers n.val).arrived) (fuel : Nat) :
    barComplete b k n fuel s = s := by
  cases fuel with
  | zero => rfl
  | succ fuel =>
    unfold barComplete
    simp only [hbl]
    refine if_pos ?_
    cases hbegun : (mget {} bl.barriers n.val).begun with
    | false => rfl
    | true =>
      obtain ⟨t, hlive, hnot⟩ := h hbegun
      have hall : (liveThreads s b k).all (fun t => (mget {} bl.barriers n.val).arrived.contains t) = false :=
        List.all_eq_false.mpr ⟨t, hlive, by simpa using hnot⟩
      rw [hall]
      rfl

theorem barPump_waits (hbl : blockOf s b k = some bl)
    (h : ∀ n : Fin 16, (mget {} bl.barriers n.val).begun = true → ∃ t ∈ liveThreads s b k, t ∉ (mget {} bl.barriers n.val).arrived) :
    barPump s b k = showBar s b k := by
  unfold barPump
  rw [List.foldlRecOn (motive := (· = s)) (List.finRange 16) _ rfl fun t ht n _ => by rw [ht, barComplete_waits hbl (h n)]]

theorem tguOf_showBar (s : State) (b : BayId) (k : Nat) : tguOf (showBar s b k) b = tguOf s b := by
  unfold showBar
  split <;> rfl

theorem mem_liveThreads {g : Nat} {gr : Group} {l : Nat} (hg : g < 64) (hgr : groupOf s b g = some gr) (hk : gr.block.val = k) (hl : l ∈ liveLanes gr) :
    tidOf gr l ∈ liveThreads s b k :=
  List.mem_flatMap.mpr ⟨(g, gr), mem_groupsOf.mpr ⟨hg, hgr, hk⟩, List.mem_map_of_mem hl⟩
end

/-! ### TG.BAR and TG.BAR.ARV. -/

section
variable {s : State} {b : BayId} {g g' : Fin 64} {gr gr2 : Group} {p : Path} {rest : List Path} {bl : Block} {rs1 : Fin 32} {n : Fin 16} {l' : Nat}

/-- What holds a path that has arrived at barrier `n`. -/
def barHold (n : Fin 16) (arv : Bool) : Hold := if arv then .none else .barrier n

/-- The group whose current path has arrived. -/
def barGroup (gr : Group) (p : Path) (rest : List Path) (h : Hold) : Group :=
  { retireAll gr p.mask with
    paths := { p with pc := p.pc + 4, mask := maskOf (lanesOf p.mask), hold := h } :: rest
    keep := gr.keep && [h] == [.none] }

/-- R212: a path whose threads arrive at one barrier, none of them for the second time, does not divide. -/
theorem tgBarGo_eq {x : State} (hne : lanesOf p.mask ≠ []) (hn : ∀ l ∈ lanesOf p.mask, (thX (thOf gr l) rs1.val).toNat % 16 = n.val)
    (hx : arrivals b gr rs1.val (lanesOf p.mask) ([], s) = ((lanesOf p.mask).map (fun i => (i, false)), x)) (arv : Bool) :
    tgBarGo s b g gr p rest rs1.val arv = barPump (setGroup x b g.val (some (barGroup gr p rest (barHold n arv)))) b gr.block.val := by
  unfold tgBarGo
  extract_lets k bar y holdOf holds parts src gr'
  have hy : y = ((lanesOf p.mask).map (fun i => (i, false)), x) := hx
  have hhold : ∀ l ∈ lanesOf p.mask, holdOf (l, false) = barHold n arv := fun l hl => by
    have hmod : bar l % 16 = n.val := by rw [show bar l = n.val from hn l hl, Nat.mod_eq_of_lt n.isLt]
    cases arv
    · exact congrArg Hold.barrier (Fin.ext hmod)
    · rfl
  have hall : ∀ z ∈ y.1, holdOf z = barHold n arv := fun z hz => by
    rw [hy] at hz
    obtain ⟨l, hl, rfl⟩ := List.mem_map.mp hz
    exact hhold l hl
  have hholds : holds = [barHold n arv] := eraseDups_const (by simpa [hy] using hne) fun h hh => by
    obtain ⟨z, hz, rfl⟩ := List.mem_map.mp hh
    exact hall z hz
  have hlanes : (y.1.filter (fun z => holdOf z == barHold n arv)).map (·.1) = lanesOf p.mask := by
    rw [List.filter_eq_self.mpr fun z hz => by rw [hall z hz]; exact beq_self_eq_true _, hy]
    simp [Function.comp_def]
  have hparts : parts = [{ p with pc := p.pc + 4, mask := maskOf (lanesOf p.mask), hold := barHold n arv }] := by
    simp only [parts, hholds, List.map_cons, List.map_nil, hlanes]
  have hgroup : gr' = barGroup gr p rest (barHold n arv) := by
    simp only [gr', src, hparts, hholds, List.cons_append, List.nil_append, barGroup]
  rw [hgroup, hy]

/-- R212: where another group of the block has a thread that has not arrived, the path is held at the barrier, or only marks its threads as arrived. -/
theorem tgBarGo_waits (hb : Rising s.bays) (hon : GroupOn s b g gr p rest bl) (hbar : bl.barriers = []) (hg : g' ≠ g)
    (hgr2 : groupOf s b g'.val = some gr2) (hblock : gr2.block = gr.block) (hnum : gr2.num ≠ gr.num) (hl' : l' ∈ liveLanes gr2)
    (hn : ∀ l ∈ lanesOf p.mask, (thX (thOf gr l) rs1.val).toNat % 16 = n.val) (arv : Bool) :
    ∃ bl', GroupWent (tgBarGo (dropResv s b g p.mask) b g gr p rest rs1.val arv) b g gr (barGroup gr p rest (barHold n arv)) p rest (barHold n arv) ∧
      blockOf (tgBarGo (dropResv s b g p.mask) b g gr p rest rs1.val arv) b gr.block.val = some bl' ∧
      ∀ l ∈ lanesOf p.mask, tidOf gr l ∈ (mget {} bl'.barriers n.val).arrived := by
  have hstart : Arrived b gr.block.val n.val bl [] (dropResv s b g p.mask) (dropResv s b g p.mask) := .start hb hon.block hbar
  obtain ⟨x, hx, harr⟩ := arrivals_new (rs1 := rs1.val) (acc := []) hstart (lanesOf_nodup p.mask) (fun _ _ => List.not_mem_nil) hn
  obtain ⟨bs, hbl, htids, hother⟩ := harr.barriers
  let y := setGroup x b g.val (some (barGroup gr p rest (barHold n arv)))
  have hyblock : blockOf y b gr.block.val = some { bl with barriers := bs } := (blockOf_setGroup harr.bays _).trans hbl
  have hygr2 : groupOf y b g'.val = some gr2 :=
    (groupOf_setGroup_other harr.bays _ (fun h => hg (Fin.ext h))).trans ((harr.groups _).trans hgr2)
  have hlive : tidOf gr2 l' ∈ liveThreads y b gr.block.val := mem_liveThreads g'.isLt hygr2 (congrArg Fin.val hblock) hl'
  have hlate : tidOf gr2 l' ∉ (mget {} bs n.val).arrived := fun hmem => by
    rw [htids, List.nil_append] at hmem
    obtain ⟨l, hl, he⟩ := List.mem_map.mp hmem
    have hl32 := lane_lt hl
    have hl'32 := List.mem_range.mp (List.mem_filter.mp hl').1
    simp only [tidOf] at he
    omega
  have hwaits : barPump y b gr.block.val = showBar y b gr.block.val := barPump_waits hyblock fun m hbegun => by
    by_cases hm : m.val = n.val
    · exact ⟨_, hlive, hm ▸ hlate⟩
    · rw [hother m.val hm] at hbegun
      cases hbegun
  have hgo : tgBarGo (dropResv s b g p.mask) b g gr p rest rs1.val arv = showBar y b gr.block.val :=
    (tgBarGo_eq hon.ne_nil hn hx arv).trans hwaits
  have hwent : GroupWent y b g gr (barGroup gr p rest (barHold n arv)) p rest (barHold n arv) :=
    groupWent_of_setGroup (gr1 := barGroup gr p rest (barHold n arv))
      (q := { p with pc := p.pc + 4, mask := maskOf (lanesOf p.mask), hold := barHold n arv }) harr.bays (retireAll_block gr p.mask)
      (retireAll_num gr p.mask) rfl rfl (lanesOf_maskOf_lanesOf _)
  obtain ⟨hgroup, hrest⟩ := hwent
  rw [hgo]
  refine ⟨{ bl with barriers := bs }, ⟨(groupOf_congr (tguOf_showBar ..) _).trans hgroup, hrest⟩, (blockOf_congr (tguOf_showBar ..) _).trans hyblock,
    fun l hl => ?_⟩
  rw [htids, List.nil_append]
  exact List.mem_map_of_mem hl

/-- TG.BAR and TG.BAR.ARV as commands: `i` runs the word that arrives. -/
theorem xtgGo_bar {w : Nat} {arv : Bool} (hon : GroupOn s b g gr p rest bl) (hw : bits w 14 12 ≠ 4)
    (hexec : xtgExec (dropResv s b g p.mask) b g gr bl p rest w = .ok (tgBarGo (dropResv s b g p.mask) b g gr p rest rs1.val arv)) :
    xtgGo s b g w = tgBarGo (dropResv s b g p.mask) b g gr p rest rs1.val arv := by
  rw [xtgGo_eq hon hw, hexec]
  rfl
end

/-! ### Held paths resume (R212). -/

section
variable {s : State} {b : BayId}

/-- A group whose paths held at the completed phase of barrier `n` go on. -/
def resumed (n : Fin 16) (gr : Group) : Group :=
  { gr with paths := gr.paths.map (fun p => if p.hold = .barDone n then { p with hold := .none } else p) }

theorem exec_barrierResume {k : Fin 8} {n : Fin 16} (hw : pgWorks s (.tgu b) = true) :
    exec (.barrierResume b k n) s = .next (writeGroups s b (resumed n) (groupsOf s b k.val)) := by
  show execBarrierResume b k n s = _
  unfold execBarrierResume
  rw [hw]
  rfl

/-! ### A stranded phase (R213). -/

/-- The fields of a stranded phase. -/
def strandRecord (s : State) (b : BayId) (k : Fin 8) (n : Fin 16) (here : List Nat) : State :=
  (List.range 16).foldl (fun s i => wr s (.tgu b) (tguStrandMask i) ((here.filter (fun t => t / 64 == i)).foldl (fun v t => v + 2 ^ (t % 64)) 0))
    (wr (wr (wr s (.tgu b) tguStrandBarrier n.val) (.tgu b) tguStrandBlock k.val) (.tgu b) tguStrandArrived here.length)

theorem exec_barrierStranded {k : Fin 8} {n : Fin 16} {bl : Block} (hw : pgWorks s (.tgu b) = true) (hbl : blockOf s b k.val = some bl)
    (hbegun : (mget {} bl.barriers n.val).begun = true) (hclean : rd s (.tgu b) hdrErr = 0) :
    ∃ here, exec (.barrierStranded b k n) s =
      .next (setEvt (raise (strandRecord s b k n here) (.tgu b) { bit := 17, unit := k.val * 32 + n.val, stop := true }) (.tgu b) 17) := by
  refine ⟨(List.range ((bl.threads + 31) / 32 * 32)).filter
    (fun t => (mget {} bl.barriers n.val).arrived.contains t || !(liveThreads s b k.val).contains t), ?_⟩
  show execBarrierStranded b k n s = _
  unfold execBarrierStranded
  simp only [hbl, hw, hbegun, tguClean, hclean]
  rfl

/-- The masks of a stranded phase lie above its other fields. -/
theorem strandMasks_kept (s : State) (b : BayId) (f : Nat → Nat) :
    RegsKept (· % 32768 < 0xA00) s ((List.range 16).foldl (fun s i => wr s (.tgu b) (tguStrandMask i) (f i)) s) := by
  refine (RegsKept.refl s).foldl fun t i hi => ?_
  have hi16 := List.mem_range.mp hi
  have hmod := key_mod (.tgu b) (tguStrandMask i) (by simp only [tguStrandMask]; omega)
  exact (RegsKept.refl t).wr (by rw [hmod]; simp only [tguStrandMask]; omega)

theorem strandRecord_shows (hr : Rising s.regs) (k : Fin 8) (n : Fin 16) (here : List Nat) :
    Rising (strandRecord s b k n here).regs ∧ pgState (strandRecord s b k n here) (.tgu b) = pgState s (.tgu b) ∧
      rd (strandRecord s b k n here) (.tgu b) tguStrandBarrier = n.val ∧ rd (strandRecord s b k n here) (.tgu b) tguStrandBlock = k.val := by
  let x := wr s (.tgu b) tguStrandBarrier n.val
  let y := wr x (.tgu b) tguStrandBlock k.val
  let z := wr y (.tgu b) tguStrandArrived here.length
  have hx : Rising x.regs := wr_rising _ _ _ _ hr
  have hy : Rising y.regs := wr_rising _ _ _ _ hx
  have hz : Rising z.regs := wr_rising _ _ _ _ hy
  have hkept := strandMasks_kept z b (fun i => (here.filter (fun t => t / 64 == i)).foldl (fun v t => v + 2 ^ (t % 64)) 0)
  have hlow : ∀ {q : Page} {r : Row}, r.off * 8 + r.lsb < 0xA00 → r.key q % 32768 < 0xA00 := fun {q r} h => by rwa [key_mod q r (by omega)]
  have honly : OnlyRegs z (strandRecord s b k n here) := List.foldlRecOn (motive := OnlyRegs z) _ _ (.refl z) fun _ ht _ _ => ht.trans (.wr ..)
  have hstate : pgState z (.tgu b) = pgState s (.tgu b) := ((pgState_wr hy _ _).trans (pgState_wr hx _ _)).trans (pgState_wr hr _ _)
  refine ⟨hkept.rising hz, (hkept.pgState_eq hz (held_congr honly.errors.mg honly.errors.power) honly.errors.fuses (hlow (by decide))
    fun _ => hlow (by decide)).trans hstate, (hkept.rd_eq hz (hlow (by decide))).trans ?_, (hkept.rd_eq hz (hlow (by decide))).trans ?_⟩
  · rw [rd_wr_off hy _, rd_wr_off hx _, rd_wr_same _ _ _ _ hr (by decide)]
    exact Nat.mod_eq_of_lt n.isLt
  · rw [rd_wr_off hy _, rd_wr_same _ _ _ _ hx (by decide)]
    exact Nat.mod_eq_of_lt k.isLt

/-- R213: the page enters FAULT and shows the stranded phase. -/
theorem barrierStranded_faults {k : Fin 8} {n : Fin 16} {bl : Block} (hr : Rising s.regs) (hst : pgState s (.tgu b) = 4)
    (hbl : blockOf s b k.val = some bl) (hbegun : (mget {} bl.barriers n.val).begun = true) (hclean : rd s (.tgu b) hdrErr = 0) :
    ∃ t, exec (.barrierStranded b k n) s = .next t ∧ pgState t (.tgu b) = 6 ∧ bitOf (rd t (.tgu b) hdrErr) 17 = true ∧
      rd t (.tgu b) tguStrandBarrier = n.val ∧ rd t (.tgu b) tguStrandBlock = k.val := by
  obtain ⟨here, hexec⟩ := exec_barrierStranded (by simp [pgWorks, hst]) hbl hbegun hclean
  obtain ⟨hrec, hstate, hbarrier, hblock⟩ := strandRecord_shows hr k n here
  have herr : ({ bit := 17, unit := k.val * 32 + n.val, stop := true } : Err).stop = true := rfl
  obtain ⟨hraised, hfields⟩ := raise_stop_fields (p := .tgu b) hrec herr
  obtain ⟨hfault, hbit⟩ := raise_stop_page (p := .tgu b) hrec (.inr (.inl (hstate.trans hst))) herr (show 17 < 32 by decide)
  have hshown : ∀ {r : Row}, r.home (.tgu b) ≠ .hub → r.off * 8 + r.lsb < 32768 → 0x800 ≤ r.off * 8 + r.lsb →
      rd (setEvt (raise (strandRecord s b k n here) (.tgu b) { bit := 17, unit := k.val * 32 + n.val, stop := true }) (.tgu b) 17) (.tgu b) r =
        rd (strandRecord s b k n here) (.tgu b) r := fun {r} hhome hlt hge => by
    rw [rd_setEvt_hdr hraised _ hlt (by omega)]
    exact hfields _ _ (not_stopKeys hhome hlt hge List.not_mem_nil)
  refine ⟨_, hexec, ?_, ?_, ?_, ?_⟩
  · rw [← hfault]
    have hevt := OnlyErrors.of_events (setEvt_events (raise (strandRecord s b k n here) (.tgu b)
      { bit := 17, unit := k.val * 32 + n.val, stop := true }) (.tgu b) 17)
    exact pgState_congr hevt.mg hevt.power hevt.fuses (rd_setEvt_hdr hraised _ (by decide) (by decide)) (by simp)
  · rw [rd_setEvt_hdr hraised _ (by decide) (by decide)]
    exact hbit
  · exact (hshown nofun (by decide) (by decide)).trans hbarrier
  · exact (hshown nofun (by decide) (by decide)).trans hblock
end

end Sys2Proof.Machine
end

section
/-! Locks in the window of a block (R209, R211). -/

namespace Sys2Proof.Machine

/-! ### Addresses in the window (R216). -/

section
variable {s : State} {b : BayId} {bl : Block} {a : Nat}

/-- A doubleword of a block's window. -/
def InWindow (bl : Block) (a : Nat) : Prop :=
  a % 8 = 0 ∧ fieldAt bl.launch.bytes 24 8 ≤ a ∧ a < fieldAt bl.launch.bytes 24 8 + fieldAt bl.launch.bytes 20 4

/-- Where it lies in bay store. -/
def windowAt (bl : Block) (a : Nat) : Nat := fieldAt bl.launch.bytes 16 4 + (a - fieldAt bl.launch.bytes 24 8)

theorem thTarget_window (h : InWindow bl a) (k : Acc3) : thTarget s b bl a 8 k = (.store (windowAt bl a), s) := by
  obtain ⟨halign, hlow, hhigh⟩ := h
  unfold thTarget
  simp only [halign, hlow, hhigh, ne_eq, not_true_eq_false, if_false, and_self, if_true]
  rfl

/-- No poison, no carried checksum and no error in a bay's store. -/
structure CleanStore (s : State) (b : BayId) : Prop where
  carried : (storeOf s b).carried = []
  poison : (storeOf s b).poison = []
  ue : (storeOf s b).ue = []

theorem thRead_window (hs : CleanStore s b) (unit a : Nat) :
    thRead s b unit (.store a) 8 .ok = (stBytes (storeOf s b) a 8, false, setStore s b (storeOf s b)) :=
  storeRead_clean (.tgu b) unit a 8 hs.carried hs.poison hs.ue

theorem setStore_rising (hb : Rising s.bays) (v : Store) : Rising (setStore s b v).bays := hb.mset _ _ _

theorem storeOf_setStore (hb : Rising s.bays) (v : Store) : storeOf (setStore s b v) b = v := congrArg Bay.store (bayOf_modBay hb b _)

/-- R209: a write in the window changes the bytes. -/
theorem thWriteOwn_window (hr : Rising s.regs) (hb : Rising s.bays) (who : ResvBy) (a : Nat) (d : List Byte) :
    Rising (thWriteOwn s b who (.store a) d).bays ∧ storeOf (thWriteOwn s b who (.store a) d) b = stWrite (storeOf s b) a d false := by
  have hwrite : InBay b [] s (storeWrite s b a d false) := (InBay.refl hr hb).storeWrite
  obtain ⟨vec, hbay⟩ := bayOf_storeWrite (b := b) hb a d false
  exact ⟨hwrite.bays, congrArg Bay.store hbay⟩

theorem storeOf_setGroup (hb : Rising s.bays) (j : Nat) (v : Option Group) : storeOf (setGroup s b j v) b = storeOf s b := by
  rw [storeOf, setGroup, modTgu, bayOf_modBay hb, storeOf]
end

/-! ### One thread takes or releases a lock. -/

section
variable {s : State} {b : BayId} {g : Fin 64} {gr gr1 : Group} {p : Path} {rest : List Path} {bl : Block} {rd rs1 : Fin 32} {l a : Nat}

/-- R211: a thread's identity as a lock holds it. -/
def lockId (b : BayId) (gr : Group) (l : Nat) : Nat := 8192 * b.val + 1024 * gr.block.val + tidOf gr l + 1

/-- The thread of a lane as a lock names it. -/
def laneName (b : BayId) (g : Fin 64) (l : Nat) : ResvBy := .thread b g ⟨l % 32, Nat.mod_lt _ (by decide)⟩

theorem lockLanes_lock (hs : CleanStore s b) (hwin : InWindow bl a) (ha : (thX (thOf gr l) rs1.val).toNat = a) :
    lockLanes b g bl true rd.val rs1.val [l] gr s =
      if leNat (stBytes (storeOf s b) (windowAt bl a) 8) = 0 then
        ((none, setLane gr l (thSetX (thOf gr l) rd.val 1), false),
          thWriteOwn (setStore s b (storeOf s b)) b (laneName b g l) (.store (windowAt bl a)) (toLE 8 (lockId b gr l)))
      else ((none, setLane gr l (thSetX (thOf gr l) rd.val 0), true), setStore s b (storeOf s b)) := by
  unfold lockLanes
  simp only [ha, thTarget_window hwin, thRead_window hs, if_true, Bool.false_eq_true, if_false, lockLanes, Bool.false_or]
  split <;> simp only [*, decide_true, decide_false] <;> rfl

theorem lockLanes_unlock (hwin : InWindow bl a) (ha : (thX (thOf gr l) rs1.val).toNat = a) :
    lockLanes b g bl false 0 rs1.val [l] gr s =
      ((none, gr, false), thWriteOwn s b (laneName b g l) (.store (windowAt bl a)) (toLE 8 0)) := by
  unfold lockLanes
  simp only [ha, thTarget_window hwin, Bool.false_eq_true, if_false]
  rfl

theorem xtgExec_lock {failed : Bool} {x : State} (h : lockLanes b g bl true rd.val rs1.val (lanesOf p.mask) gr s = ((none, gr1, failed), x)) :
    xtgExec s b g gr bl p rest (encXtg 4 0 rd.val rs1.val 0) =
      .ok (pathMove x b g (retireAll gr1 p.mask) p rest ((lanesOf p.mask).map (fun l => ⟨l, p.pc + 4, false⟩)) failed) := by
  simp [xtgExec, encXtg_rd, encXtg_f3, encXtg_rs1, encXtg_rs2, encXtg_f7, h]

theorem xtgExec_unlock {failed : Bool} {x : State} (h : lockLanes b g bl false 0 rs1.val (lanesOf p.mask) gr s = ((none, gr1, failed), x)) :
    xtgExec s b g gr bl p rest (encXtg 4 1 0 rs1.val 0) =
      .ok (pathMove x b g (retireAll gr1 p.mask) p rest ((lanesOf p.mask).map (fun l => ⟨l, p.pc + 4, false⟩)) failed) := by
  simp [xtgExec, encXtg_rd, encXtg_f3, encXtg_rs1, encXtg_rs2, encXtg_f7, h]

/-- An access in the window does not wait. -/
theorem xtgWaits_window {f7 : Nat} (hwin : InWindow bl a) (hl : lanesOf p.mask = [l]) (ha : (thX (thOf gr l) rs1.val).toNat = a) :
    xtgWaits s b gr bl p (encXtg 4 f7 rd.val rs1.val 0) = none := by
  have hf3 : bits (encXtg 4 f7 rd.val rs1.val 0) 14 12 = 4 := encXtg_f3 rd.isLt (by decide)
  have hrs1 : bits (encXtg 4 f7 rd.val rs1.val 0) 19 15 = rs1.val := encXtg_rs1 rd.isLt (by decide) rs1.isLt
  unfold xtgWaits
  rw [if_neg (by rw [hf3]; decide), hrs1, hl]
  simp only [List.findSome?_cons, List.findSome?_nil, ha, thTarget_window hwin]

/-- TG.LOCK and TG.UNLOCK by one thread: the path goes on, and with DEFER set where the attempt failed. -/
theorem xtgGo_locks {f7 : Nat} {failed : Bool} {x : State} (hon : GroupOn s b g gr p rest bl) (hwin : InWindow bl a) (hl : lanesOf p.mask = [l])
    (ha : (thX (thOf gr l) rs1.val).toNat = a)
    (hexec : xtgExec (dropResv s b g p.mask) b g gr bl p rest (encXtg 4 f7 rd.val rs1.val 0) =
      .ok (pathMove x b g (retireAll gr1 p.mask) p rest ((lanesOf p.mask).map (fun l => ⟨l, p.pc + 4, false⟩)) failed)) :
    xtgGo s b g (encXtg 4 f7 rd.val rs1.val 0) = setGroup x b g.val (some (movedGroup (retireAll gr1 p.mask) p rest failed)) := by
  rw [xtgGo_run hon (xtgWaits_window hwin hl ha), hexec, pathMove_next hon.ne_nil]
  rfl

/-- The group in which one thread's result is written goes on. -/
theorem lockWent {x : State} (hb : Rising x.bays) (v : Thread) (failed : Bool) :
    GroupWent (setGroup x b g.val (some (movedGroup (retireAll (setLane gr l v) p.mask) p rest failed))) b g gr
      (movedGroup (retireAll (setLane gr l v) p.mask) p rest failed) p rest p.hold :=
  movedGroup_went hb (retireAll_block (setLane gr l v) p.mask) (retireAll_num (setLane gr l v) p.mask) failed

theorem thX_locked (hon : GroupOn s b g gr p rest bl) (hl : l ∈ lanesOf p.mask) (hrd : rd ≠ 0) (v : BitVec 64) (failed : Bool) :
    thX (thOf (movedGroup (retireAll (setLane gr l (thSetX (thOf gr l) rd.val v)) p.mask) p rest failed) l) rd.val = v := by
  have hlen : (setLane gr l (thSetX (thOf gr l) rd.val v)).threads.length = 32 := List.length_set.trans hon.length
  have hlane : thOf (movedGroup (retireAll (setLane gr l (thSetX (thOf gr l) rd.val v)) p.mask) p rest failed) l =
      retired (thSetX (thOf gr l) rd.val v) := by
    have hret := mapLanes_lanesOf (f := fun _ => retired) hlen hl
    rw [thOf_setLane_same (hon.length ▸ lane_lt hl)] at hret
    exact hret
  rw [hlane]
  exact thX_thSetX_same (hon.lane_rising hl) (Fin.val_ne_of_ne hrd) v

/-- R211: a free lock is taken, and one that is held is left. -/
theorem tgLock_acts (hr : Rising s.regs) (hb : Rising s.bays) (hon : GroupOn s b g gr p rest bl) (hl : lanesOf p.mask = [l]) (hrd : rd ≠ 0)
    (ha : (thX (thOf gr l) rs1.val).toNat = a) (hwin : InWindow bl a) (hs : CleanStore s b) :
    (leNat (stBytes (storeOf s b) (windowAt bl a) 8) = 0 → Rising (storeOf s b).bytes →
      ∃ t gr', exec (.tgLock b g rd rs1) s = .next t ∧ GroupWent t b g gr gr' p rest p.hold ∧ thX (thOf gr' l) rd.val = 1 ∧
        stBytes (storeOf t b) (windowAt bl a) 8 = toLE 8 (lockId b gr l)) ∧
    (leNat (stBytes (storeOf s b) (windowAt bl a) 8) ≠ 0 →
      ∃ t gr', exec (.tgLock b g rd rs1) s = .next t ∧ GroupWent t b g gr gr' p rest p.hold ∧ thX (thOf gr' l) rd.val = 0 ∧
        (storeOf t b).bytes = (storeOf s b).bytes) := by
  have hmem : l ∈ lanesOf p.mask := hl ▸ List.mem_singleton_self l
  have hclean : CleanStore (dropResv s b g p.mask) b := ⟨hs.carried, hs.poison, hs.ue⟩
  have hlanes := lockLanes_lock (s := dropResv s b g p.mask) (g := g) (rd := rd) hclean hwin ha
  have hbytes : storeOf (dropResv s b g p.mask) b = storeOf s b := rfl
  rw [← hl, hbytes] at hlanes
  have hset : Rising (setStore (dropResv s b g p.mask) b (storeOf s b)).bays := setStore_rising hb _
  have hkept : storeOf (setStore (dropResv s b g p.mask) b (storeOf s b)) b = storeOf s b := storeOf_setStore (s := dropResv s b g p.mask) hb _
  constructor
  · intro hfree hrise
    rw [if_pos hfree] at hlanes
    obtain ⟨hx, hstore⟩ := thWriteOwn_window (s := setStore (dropResv s b g p.mask) b (storeOf s b)) hr hset (laneName b g l) (windowAt bl a)
      (toLE 8 (lockId b gr l))
    refine ⟨_, _, congrArg Host.Outcome.next (xtgGo_locks hon hwin hl ha (xtgExec_lock hlanes)), lockWent hx _ false, thX_locked hon hmem hrd 1 false, ?_⟩
    rw [storeOf_setGroup hx, hstore, hkept]
    exact stBytes_stWrite hrise (windowAt bl a) (toLE 8 (lockId b gr l)) false
  · intro htaken
    rw [if_neg htaken] at hlanes
    refine ⟨_, _, congrArg Host.Outcome.next (xtgGo_locks hon hwin hl ha (xtgExec_lock hlanes)), lockWent hset _ true, thX_locked hon hmem hrd 0 true, ?_⟩
    rw [storeOf_setGroup hset, hkept]

/-- R211: a lock is released. -/
theorem tgUnlock_acts (hr : Rising s.regs) (hb : Rising s.bays) (hon : GroupOn s b g gr p rest bl) (hl : lanesOf p.mask = [l])
    (ha : (thX (thOf gr l) rs1.val).toNat = a) (hwin : InWindow bl a) (hrise : Rising (storeOf s b).bytes) :
    ∃ t gr', exec (.tgUnlock b g rs1) s = .next t ∧ GroupWent t b g gr gr' p rest p.hold ∧
      stBytes (storeOf t b) (windowAt bl a) 8 = toLE 8 0 := by
  have hlanes := lockLanes_unlock (s := dropResv s b g p.mask) (b := b) (g := g) hwin ha
  rw [← hl] at hlanes
  obtain ⟨hx, hstore⟩ := thWriteOwn_window (s := dropResv s b g p.mask) hr hb (laneName b g l) (windowAt bl a) (toLE 8 0)
  refine ⟨_, _, congrArg Host.Outcome.next (xtgGo_locks (rd := 0) hon hwin hl ha (xtgExec_unlock hlanes)),
    movedGroup_went hx (retireAll_block gr p.mask) (retireAll_num gr p.mask) false, ?_⟩
  rw [storeOf_setGroup hx, hstore]
  exact stBytes_stWrite hrise (windowAt bl a) (toLE 8 0) false
end

/-! ### The obligation. -/

/-- Settles O23: what has arrived at a barrier, from the arrival of each lane in turn; a lock, from one access in the window. -/
theorem barriersAndLocksHoldAndRelease : Obligations.BarriersAndLocksHoldAndRelease := by
  unfold Obligations.BarriersAndLocksHoldAndRelease
  refine ⟨?barrier, ?resume, ?stranded, ?lock⟩
  case barrier =>
    intro s b g g' gr gr2 p rest bl rs1 n l' hinv hon hbar hg hgr2 hblock hnum hl' hn
    have hwaits := tgBarGo_waits hinv.bays_rising hon hbar hg hgr2 hblock hnum hl' hn
    constructor
    · obtain ⟨bl', hwent, hbl', harrived⟩ := hwaits false
      have hgo := xtgGo_bar hon (word_apart (by decide) (by decide) (by decide)) (xtgExec_bar (rs1 := rs1))
      exact ⟨_, _, bl', congrArg Host.Outcome.next hgo, hwent, hbl', harrived⟩
    · obtain ⟨bl', hwent, hbl', harrived⟩ := hwaits true
      have hgo := xtgGo_bar hon (word_apart (by decide) (by decide) (by decide)) (xtgExec_barArv (rs1 := rs1))
      exact ⟨_, _, bl', congrArg Host.Outcome.next hgo, hwent, hbl', harrived⟩
  case resume =>
    intro s b k n g gr hinv hw hgr hk
    have hmem : (g.val, gr) ∈ groupsOf s b k.val := mem_groupsOf.mpr ⟨g.isLt, hgr, congrArg Fin.val hk⟩
    exact ⟨_, resumed n gr, exec_barrierResume hw, groupOf_writeGroups_mem hinv.bays_rising (groupsOf_nodup s b k.val) hmem, rfl⟩
  case stranded =>
    intro s b k n bl hinv hst hbl hbegun hclean
    exact barrierStranded_faults hinv.regs_rising hst hbl hbegun hclean
  case lock =>
    intro s b g gr p rest bl rd' rs1 l a hinv hon hl hrd ha halign hlow hhigh hcarried hpoison hue hrise
    obtain ⟨hfree, htaken⟩ := tgLock_acts hinv.regs_rising hinv.bays_rising hon hl hrd ha ⟨halign, hlow, hhigh⟩ ⟨hcarried, hpoison, hue⟩
    exact ⟨fun h => hfree h hrise, htaken, tgUnlock_acts hinv.regs_rising hinv.bays_rising hon hl ha ⟨halign, hlow, hhigh⟩ hrise⟩

end Sys2Proof.Machine
end

section
/-! What a matrix operation's issue leaves of the thread-group unit (R98, R105, R214). -/

namespace Sys2Proof.Machine

/-- Where the bays are in order, they stay so, and the thread-group unit of bay `b` has not changed. -/
structure TguKept (b : BayId) (s t : State) : Prop where
  kept : Rising s.bays → Rising t.bays ∧ tguOf t b = tguOf s b

section
variable {b : BayId} {s t u : State}

theorem TguKept.refl (b : BayId) (s : State) : TguKept b s s := ⟨fun h => ⟨h, rfl⟩⟩

theorem TguKept.trans (h1 : TguKept b s t) (h2 : TguKept b t u) : TguKept b s u :=
  ⟨fun h => ⟨(h2.kept (h1.kept h).1).1, (h2.kept (h1.kept h).1).2.trans (h1.kept h).2⟩⟩

theorem TguKept.bays (h : TguKept b s t) (hb : u.bays = t.bays := by rfl) : TguKept b s u := h.trans ⟨fun ht => ⟨hb ▸ ht, tguOf_congr hb⟩⟩

theorem TguKept.errors (h : TguKept b s t) (he : OnlyErrors t u) : TguKept b s u := h.bays he.bays

theorem TguKept.modBay (h : TguKept b s t) {f : Bay → Bay} (hf : ∀ y, (f y).tgu = y.tgu := by exact fun _ => rfl) : TguKept b s (modBay t b f) :=
  h.trans ⟨fun ht => ⟨ht.mset _ _ _, by rw [tguOf, bayOf_modBay ht, hf, tguOf]⟩⟩

theorem TguKept.foldl {α : Type} {f : State → α → State} {l : List α} (h : TguKept b s t) (hf : ∀ s, ∀ x ∈ l, TguKept b s (f s x)) :
    TguKept b s (l.foldl f t) := List.foldlRecOn l f h fun _ hx x hm => hx.trans (hf _ x hm)

theorem TguKept.raiseAt (h : TguKept b s t) {p : Page} {bit unit addr : Nat} {va : Bool} (hb : stops bit = false) :
    TguKept b s (raiseAt t p bit unit addr va) := h.errors (raise_errors _ _ _ hb)

theorem TguKept.setArr (h : TguKept b s t) {a : Nat} {v : ArrayUnit} : TguKept b s (setArr t b a v) :=
  h.modBay (f := fun y => { y with arrays := mset {} y.arrays a v })

theorem faultHook_arr_tgu (s : State) (b : BayId) (a : ArrId) : TguKept b s (faultHook s (.arr b a)) := by
  have hwr : TguKept b s (wr s (.arr b a) arrAccValid 0) := .bays (.refl b s)
  exact hwr.setArr

/-- R99: an array's page that enters FAULT gives up what its array holds. -/
theorem raise_arr_tgu {a : ArrId} {e : Err} (he : e.stop = true) : TguKept b s (raise s (.arr b a) e) := by
  obtain ⟨sev, hraise⟩ := raise_stop s (.arr b a) he
  have hrecord : TguKept b s (raise s (.arr b a) { e with stop := false, sev := some sev }) := .errors (.refl b s) (raise_errors _ _ _ rfl)
  rw [hraise]
  refine hrecord.trans ?_
  unfold toFault
  extract_lets st
  split
  · exact (TguKept.errors (.bays (.refl b _)) (.of_events (enter_events _ _ 6 (by simp)))).trans (faultHook_arr_tgu ..)
  · exact .refl b _

theorem storeUpset_tgu (s : State) (b : BayId) (f : Upset) : TguKept b s (storeUpset s b f) := by
  have hs := TguKept.refl b s
  cases f with
  | none => exact hs
  | logic => exact hs
  | corrected w =>
    have hcount : TguKept b s (wr (satAdd s (.store b) stoCeCount 1) (.store b) stoCeAddr (w.toNat / 8 * 8)) := hs.bays
    exact hcount.modBay.errors (.of_events (setEvt_events ..))
  | uncorrectable w =>
    rw [storeUpset_uncorrectable]
    split
    · exact hs
    · have hset : TguKept b s (setStore s b { storeOf s b with ue := mset false (storeOf s b).ue (w.toNat / 64) true }) := hs.modBay
      exact hset.bays.errors (raise_errors _ _ _ rfl)

theorem storeRead_tgu (b : BayId) (s : State) (p : Page) (unit addr len : Nat) (chk : Check) (f : Upset) :
    TguKept b s (storeRead s b p unit addr len chk f).2.2 := by
  unfold storeRead
  extract_lets x t0 v y bad at_ z w
  have hz : TguKept b s z := by
    have hy : TguKept b s y := (storeUpset_tgu s b f).modBay
    change TguKept b s (if _ then _ else _)
    split
    · exact hy.raiseAt rfl
    · exact hy
  change TguKept b s (if _ then _ else _)
  split
  · exact hz
  · exact hz.raiseAt rfl

theorem opDone_tgu (b : BayId) (s : State) (id : Nat) : TguKept b s (opDone s b id) := by
  unfold opDone
  split
  · exact .refl b s
  · split
    · exact (TguKept.refl b s).modBay.errors (signal_regs ..).errors
    · exact (TguKept.refl b s).modBay

theorem mmaEnter_tgu (s : State) (b : BayId) (op : MtxOp) (src : OpSrc) (id : Nat) (mfd : List Byte) (poison : Bool) (j : Nat) :
    TguKept b s (mmaEnter s b op src id mfd poison j) := by
  unfold mmaEnter
  extract_lets n p d armed aS bS ra rb x mode col chk y v
  have hra : TguKept b s ra.2.2 := by
    change TguKept b s (if armed then _ else _ : List Byte × Bool × State).2.2
    split
    exacts [storeRead_tgu .., .refl b s]
  have hrb : TguKept b s rb.2.2 := by
    change TguKept b s (if armed then _ else _ : List Byte × Bool × State).2.2
    split
    exacts [hra.trans (storeRead_tgu ..), hra]
  have hy : TguKept b s y := by
    change TguKept b s (if mode = 0 then _ else _)
    split
    exacts [hrb.bays, hrb]
  exact hy.setArr

/-- R98, R105: whether it is refused or enters its arrays. -/
theorem mmaIssue_tgu (s : State) (b : BayId) (op : MtxOp) (src : OpSrc) (sig : BitVec 8) : TguKept b s (mmaIssue s b op src sig) := by
  have hrefuse : ∀ {x : State} {bit off : Nat}, TguKept b s x → TguKept b s (mmaRefuse x b op src bit off) := fun hx => hx.trans (raise_arr_tgu rfl)
  have hs := TguKept.refl b s
  unfold mmaIssue
  extract_lets p r x n
  have hx : TguKept b s x := storeRead_tgu ..
  split
  · exact hrefuse hs
  split
  · exact hrefuse hs
  split
  · exact hrefuse hs
  split
  · exact hrefuse hs
  split
  · exact hrefuse hx
  · have hn : TguKept b s n.2 := hx.modBay (f := fun y => { y with
      nextOp := y.nextOp + 1, ops := y.ops ++ [{ id := y.nextOp, src := src, sig := sig, left := if op.kb = 0 then 1 else 2 ^ op.gang.toNat }] })
    split
    · exact hn.trans (opDone_tgu ..)
    · exact hn.foldl fun _ _ _ => mmaEnter_tgu ..
end

end Sys2Proof.Machine
end

section
/-! Flags and engine operations of a thread group (R208, R210, R214, R215). -/

namespace Sys2Proof.Machine

/-! ### What the instructions come to. -/

section
variable {s : State} {b : BayId} {g : Fin 64} {gr : Group} {p : Path} {rest : List Path} {bl : Block} {rd rs1 rs2 : Fin 32} {w v : Nat}

theorem xtgExec_fsig (hw : (thX (thOf gr (firstLane p)) rs1.val).toNat % 256 = w) (hv : byteV w = true) (hbad : byteBad w = false) :
    xtgExec s b g gr bl p rest (encXtg 5 0 0 rs1.val 0) = .ok (pathNext (signal s b w) b g gr p rest) := by
  simp [xtgExec, encXtg_rd, encXtg_f3, encXtg_rs1, encXtg_rs2, encXtg_f7, hw, hv, hbad]

theorem xtgExec_fwait (hw : (thX (thOf gr (firstLane p)) rs1.val).toNat % 256 = w) (hv : byteV w = true) (hbad : byteBad w = false) :
    xtgExec s b g gr bl p rest (encXtg 5 1 0 rs1.val rs2.val) =
      .ok (pathHold s b g gr p rest (.fwait (BitVec.ofNat 8 w) (BitVec.ofNat 32 (thX (thOf gr (firstLane p)) rs2.val).toNat))) := by
  obtain ⟨hf3, hf7⟩ := encXtg_op (f3 := 5) (f7 := 1) (rd := 0) (by decide) (by decide) rs1.isLt rs2.isLt
  simp [xtgExec, encXtg_rd, encXtg_f3, encXtg_rs1, encXtg_rs2, encXtg_f7, hf3, hf7, hw, hv, hbad]

theorem xtgExec_ftest (hw : (thX (thOf gr (firstLane p)) rs1.val).toNat % 256 = w) (hv : byteV w = true) (hbad : byteBad w = false) :
    xtgExec s b g gr bl p rest (encXtg 5 2 rd.val rs1.val 0) = .ok (pathNext s b g (laneResults gr p rd.val fun _ =>
      BitVec.ofNat 64 (if byteK w then cnt s b (byteIdx w) else b2n (flagIs s b (byteIdx w)))) p rest) := by
  simp [xtgExec, encXtg_rd, encXtg_f3, encXtg_rs1, encXtg_rs2, encXtg_f7, hw, hv, hbad]

theorem xtgExec_gth (hv : (thX (thOf gr (firstLane p)) rs1.val).toNat + 2 ^ 64 * (thX (thOf gr (firstLane p)) rs2.val).toNat = v)
    (hbad : xtgBad v = false) (hhigh : bits v 127 79 = 0) :
    xtgExec s b g gr bl p rest (encXtg 6 0 0 rs1.val rs2.val) = .ok (pathHold s b g gr p rest
      (.gth ⟨bits v 20 20 % 2, Nat.mod_lt _ (by decide)⟩ (gthOpOf v) (BitVec.ofNat 8 (bits v 15 8)))) := by
  obtain ⟨hf3, -⟩ := encXtg_op (f3 := 6) (f7 := 0) (rd := 0) (by decide) (by decide) rs1.isLt rs2.isLt
  simp only [Nat.reducePow] at hv
  simp [xtgExec, encXtg_rd, encXtg_f3, encXtg_rs1, encXtg_rs2, encXtg_f7, hf3, hv, hbad, hhigh]

theorem xtgExec_mtx (hv : (thX (thOf gr (firstLane p)) rs1.val).toNat + 2 ^ 64 * (thX (thOf gr (firstLane p)) rs2.val).toNat = v)
    (hbad : xtgBad v = false) (hhigh : bits v 127 126 = 0) (harr : bits v 22 20 + 2 ^ bits v 24 23 ≤ arrCount s b) :
    xtgExec s b g gr bl p rest (encXtg 7 0 0 rs1.val rs2.val) =
      .ok (pathHold s b g gr p rest (.mtx (mtxOf v) (BitVec.ofNat 8 (bits v 15 8)))) := by
  obtain ⟨hf3, -⟩ := encXtg_op (f3 := 7) (f7 := 0) (rd := 0) (by decide) (by decide) rs1.isLt rs2.isLt
  simp only [Nat.reducePow] at hv
  simp [xtgExec, encXtg_rd, encXtg_f3, encXtg_rs1, encXtg_rs2, encXtg_f7, hf3, hv, hbad, hhigh, Nat.not_lt.mpr harr]

/-- R208: TG.FSIG signals its flag or counter. -/
theorem tgFsig_signals (hr : Rising s.regs) (hb : Rising s.bays) (hon : GroupOn s b g gr p rest bl)
    (hw : (thX (thOf gr (firstLane p)) rs1.val).toNat % 256 = w) (hv : byteV w = true) (hbad : byteBad w = false) :
    ∃ t gr', exec (.tgFsig b g rs1) s = .next t ∧ GroupWent t b g gr gr' p rest .none ∧
      (byteK w = false → flagIs t b (byteIdx w) = true) ∧ (byteK w = true → cnt t b (byteIdx w) = (cnt s b (byteIdx w) + 1) % 2 ^ 32) := by
  have hbays : (signal (dropResv s b g p.mask) b w).bays = s.bays := (signal_regs (dropResv s b g p.mask) b w).errors.bays
  obtain ⟨hgo, hwent⟩ := xtgGo_holds (gr1 := gr) (hold := .none) hb hon (word_apart (by decide) (by decide) (by decide)) hbays rfl rfl
    (xtgExec_fsig hw hv hbad)
  have hacts := signal_acts (s := dropResv s b g p.mask) (b := b) hr (show dcByteBad w = false by simp [dcByteBad, hv, hbad])
  refine ⟨_, _, rfl, hwent, ?_⟩
  rw [hgo]
  exact hacts
end

/-! ### What the paths wait for. -/

section
variable {s : State} {b : BayId} {g : Fin 64} {lane : Fin 32} {gr : Group} {p : Path} {rest : List Path}

theorem waitTake_regs (s : State) (b : BayId) (w : Nat) : OnlyRegs s (waitTake s b w) := by
  unfold waitTake
  split
  · exact .wr ..
  · exact .refl s

/-- R210: a wait that is satisfied, and whose turn it is, takes its flag and releases the path. -/
theorem tgFwaitSatisfied_releases {w : BitVec 8} {thr : BitVec 32} (hr : Rising s.regs) (hb : Rising s.bays) (hwork : pgWorks s (.tgu b) = true)
    (hgr : groupOf s b g.val = some gr) (hp : gr.paths = p :: rest) (hlane : bitOf p.mask.toNat lane.val = true) (hhold : p.hold = .fwait w thr)
    (hok : waitOk s b w.toNat thr.toNat = true) (hfirst : fwaitFirst s b gr p w.toNat = true) :
    ∃ t gr', exec (.tgFwaitSatisfied b g lane) s = .next t ∧ groupOf t b g.val = some gr' ∧ gr'.paths.head? = some { p with hold := .none } ∧
      (byteV w.toNat = true → byteK w.toNat = false → flagIs t b (byteIdx w.toNat) = false) := by
  have hbays : (waitTake s b w.toNat).bays = s.bays := (waitTake_regs s b w.toNat).errors.bays
  obtain ⟨gr', hexec, hhead⟩ := releasePath_first (i := .tgFwaitSatisfied b g lane) rfl hwork hgr hp hlane
    ((groupOf_congr (tguOf_congr hbays) _).trans hgr) (by simp only [hhold, hok, hfirst]; rfl)
  exact ⟨_, gr', hexec, groupOf_setGroup_same (hbays ▸ hb) gr', hhead,
    fun hv hk => flagIs_waitTake (b := b) (w := w.toNat) hr (by simp [dcByteBad, byteBad, hv, hk]) hk⟩

/-- R214: the arrays accept the operation on which a path is held, in its turn. -/
theorem xtgHandshake_releases {op : MtxOp} {sig : BitVec 8} (u : Upset) (hb : Rising s.bays) (hwork : pgWorks s (.tgu b) = true)
    (hgr : groupOf s b g.val = some gr) (hp : gr.paths = p :: rest) (hlane : bitOf p.mask.toNat lane.val = true) (hhold : p.hold = .mtx op sig)
    (hacc : mmaAccepts s b op = true) (hfirst : xtgFirst s b gr p.hold = true) :
    ∃ t gr', exec (.xtgHandshake b g lane u) s = .next t ∧ groupOf t b g.val = some gr' ∧ gr'.paths.head? = some { p with hold := .none } := by
  obtain ⟨hbays, htgu⟩ := ((storeUpset_tgu s b u).trans (mmaIssue_tgu _ b op (.group g) sig)).kept hb
  obtain ⟨gr', hexec, hhead⟩ := releasePath_first (i := .xtgHandshake b g lane u) rfl hwork hgr hp hlane ((groupOf_congr htgu _).trans hgr)
    (by rw [hfirst]; simp only [hhold, hacc]; rfl)
  exact ⟨_, gr', hexec, groupOf_setGroup_same hbays gr', hhead⟩
end

end Sys2Proof.Machine
end

section
/-! Thread instructions and their issue (R194, R198, R202, R203). -/

namespace Sys2Proof.Machine

/-! ### A thread instruction that is fetched runs in every active thread (R194, R198). -/

section
variable {s : State} {b : BayId} {g : Fin 64} {gr : Group} {p : Path} {rest : List Path} {bl : Block} {w : Nat} {pc : BitVec 64} {chk : Check}

theorem rvExec_addi_thread (hop : w % 128 = 0x13) (hf3 : bits w 14 12 = 0) (pc : BitVec 64) (x f : Nat → BitVec 64) (frm : Nat) :
    rvExec isaThread w pc x f frm = .xwr (bits w 11 7) (x (bits w 19 15) + BitVec.ofInt 64 (sbits w 31 20)) 0 := by
  unfold rvExec
  simp only [hop, hf3, opI, sx64_immI]

/-- R194: a thread after ADDI. -/
def addiThread (w : Nat) (t : Thread) : Thread :=
  thFlags (thSetX t (bits w 11 7) (thX t (bits w 19 15) + BitVec.ofInt 64 (sbits w 31 20))) 0

theorem laneExec_addi (hop : w % 128 = 0x13) (hf3 : bits w 14 12 = 0) (lane : Fin 32) :
    laneExec s b g gr bl lane w pc chk = (.ok (addiThread w (thOf gr lane.val)) (pc + 4) false, s) := by
  unfold laneExec
  simp only [rvExec_addi_thread hop hf3]
  rfl

theorem lanesWait_addi (hop : w % 128 = 0x13) (hf3 : bits w 14 12 = 0) : lanesWait s b g gr bl p w = none := by
  unfold lanesWait
  simp only [laneExec_addi hop hf3]
  exact List.findSome?_eq_none_iff.mpr fun _ _ => rfl

theorem lanesRun_addi (hop : w % 128 = 0x13) (hf3 : bits w 14 12 = 0) {l : List Nat} (hl : ∀ i ∈ l, i < 32) :
    lanesRun b g bl w pc chk l gr s =
      ((none, mapLanes (fun _ t => retired (addiThread w t)) gr l, l.map (fun i => ⟨i, pc + 4, false⟩), false), s) := by
  induction l generalizing gr with
  | nil => rfl
  | cons i l ih =>
    rw [List.forall_mem_cons] at hl
    have hi : i % 32 = i := Nat.mod_eq_of_lt hl.1
    unfold lanesRun
    simp only [laneExec_addi hop hf3, ih hl.2, hi]
    rfl

/-- R198: a fetch that the instruction cache answers. -/
theorem thFetch_cached {pa unit : Nat} {x : Byte} {ln : List Byte} (hx : bayXlate s b 25 pc.toNat .exec = (.ok pa, s)) (hpa : inDram s pa 4 = true)
    (hline : mget [] (tguOf s b).icache (pa / 64) = x :: ln) : thFetch s b unit pc chk = (.inl (fieldAt (x :: ln) (pa % 64) 4), s) := by
  unfold thFetch
  simp only [hx, hpa, hline, Bool.not_true, Bool.false_eq_true, if_false]

theorem threadStep_addi {s1 : State} (hon : GroupOn s b g gr p rest bl) (hready : groupReady s b g = some (gr, p, rest, s1))
    (hfetch : thFetch s1 b (tguUnit gr) p.pc chk = (.inl w, s1)) (hop : w % 128 = 0x13) (hf3 : bits w 14 12 = 0) :
    threadStep s b g chk =
      setGroup s1 b g.val (some (movedGroup (mapLanes (fun _ t => retired (addiThread w t)) gr (lanesOf p.mask)) p rest false)) := by
  have hplain : w % 128 ≠ 0x2B := by omega
  unfold threadStep
  simp only [hready, hon.block, hfetch, hplain, if_false, lanesWait_addi hop hf3, lanesRun_addi hop hf3 fun _ hl => lane_lt hl, pathMove_next hon.ne_nil,
    Bool.false_eq_true]

theorem thX_addiThread (t : Thread) (ht : Rising t.x) (hrd : bits w 11 7 ≠ 0) :
    thX (addiThread w t) (bits w 11 7) = thX t (bits w 19 15) + BitVec.ofInt 64 (sbits w 31 20) := thX_thSetX_same ht hrd _

theorem addiThread_instret (w : Nat) (t : Thread) : (addiThread w t).instret = t.instret := by
  unfold addiThread thSetX
  split <;> rfl

/-- R194: ADDI in the active threads of a group. -/
theorem threadInstruction_addi {s1 : State} (hb : Rising s.bays) (hon : GroupOn s b g gr p rest bl)
    (hready : groupReady s b g = some (gr, p, rest, s1)) (hfetch : thFetch s1 b (tguUnit gr) p.pc chk = (.inl w, s1)) (hop : w % 128 = 0x13)
    (hf3 : bits w 14 12 = 0) (hrd : bits w 11 7 ≠ 0) :
    ∃ t gr', exec (.threadInstruction b g chk .none) s = .next t ∧ GroupWent t b g gr gr' p rest p.hold ∧
      ∀ l ∈ lanesOf p.mask, thX (thOf gr' l) (bits w 11 7) = thX (thOf gr l) (bits w 19 15) + BitVec.ofInt 64 (sbits w 31 20) ∧
        (thOf gr' l).instret = (thOf gr l).instret + 1 := by
  obtain ⟨hw, -, -, hs1⟩ := groupReady_iff.mp hready
  have hexec : exec (.threadInstruction b g chk .none) s = .next (threadStep s b g chk) := by
    show execThreadInstruction b g chk .none s = _
    unfold execThreadInstruction
    rw [hw]
    rfl
  have hb1 : Rising s1.bays := hs1 ▸ hb
  refine ⟨_, _, hexec.trans (congrArg Host.Outcome.next (threadStep_addi hon hready hfetch hop hf3)),
    movedGroup_went hb1 mapLanes_block mapLanes_num false, fun l hl => ?_⟩
  have hlane : thOf (movedGroup (mapLanes (fun _ t => retired (addiThread w t)) gr (lanesOf p.mask)) p rest false) l =
      retired (addiThread w (thOf gr l)) := mapLanes_lanesOf (f := fun _ t => retired (addiThread w t)) hon.length hl
  rw [hlane]
  exact ⟨thX_addiThread _ (hon.lane_rising hl) hrd, congrArg (· + 1) (addiThread_instret w _)⟩
end

/-! ### TGU_ISSUE (R202, R203). -/

section
variable {s : State} {b : BayId}

/-- R203: the count of the steps that a ready group has waited; `waits`: it does not issue now. -/
def countWaited (b : BayId) (waits : Fin 64 → Bool) (s : State) (g : Fin 64) : State :=
  match groupOf s b g.val with
  | none => s
  | some gr => setGroup s b g.val (some { gr with waited := if waits g then gr.waited + 1 else 0 })

theorem countWaited_regs (waits : Fin 64 → Bool) (s : State) (g : Fin 64) : (countWaited b waits s g).regs = s.regs := by
  unfold countWaited
  split <;> rfl

theorem countWaited_rising {waits : Fin 64 → Bool} {g : Fin 64} (hb : Rising s.bays) : Rising (countWaited b waits s g).bays := by
  unfold countWaited
  split
  · exact hb
  · exact setGroup_rising hb _

/-- The group that issues, or is not ready, waits no more. -/
theorem groupOf_countWaited (hb : Rising s.bays) {waits : Fin 64 → Bool} {g : Fin 64} (hg : waits g = false) (j : Nat) :
    groupOf (countWaited b waits s g) b j = if j = g.val then (groupOf s b j).map (fun gr => { gr with waited := 0 }) else groupOf s b j := by
  unfold countWaited
  cases hgr : groupOf s b g.val with
  | none => by_cases hj : j = g.val <;> simp [hj, hgr]
  | some gr =>
    simp only [hg, Bool.false_eq_true, if_false]
    by_cases hj : j = g.val
    · rw [if_pos hj, hj, groupOf_setGroup_same hb, hgr]
      rfl
    · rw [if_neg hj]
      exact groupOf_setGroup_other hb _ hj

theorem countWaited_all {waits : Fin 64 → Bool} (hw : ∀ g, waits g = false) {l : List (Fin 64)} (hb : Rising s.bays) (hl : l.Nodup) (j : Nat) :
    groupOf (l.foldl (countWaited b waits) s) b j =
      if j ∈ l.map Fin.val then (groupOf s b j).map (fun gr => { gr with waited := 0 }) else groupOf s b j := by
  induction l generalizing s with
  | nil => rfl
  | cons g l ih =>
    rw [List.nodup_cons] at hl
    rw [List.foldl_cons, ih (countWaited_rising hb) hl.2, groupOf_countWaited hb (hw g), List.map_cons]
    by_cases hj : j = g.val
    · have hnot : j ∉ l.map Fin.val := fun h => by
        obtain ⟨i, hi, he⟩ := List.mem_map.mp h
        exact hl.1 (Fin.ext (he.trans hj) ▸ hi)
      simp [hj, hj ▸ hnot]
    · simp [hj]

/-- R202: the only ready group issues, and no group has waited. -/
theorem tguIssue_only {ready : BitVec 64} {g : Fin 64} {o n w : Nat} (hb : Rising s.bays) (hwork : pgWorks s (.tgu b) = true)
    (hready : readyGroups s b ready = [(g, o, n, w)]) :
    ∃ s', exec (.tguIssue b ready) s = .next (threadStep s' b g .ok) ∧ s'.regs = s.regs ∧
      ∀ k, k < 64 → groupOf s' b k = (groupOf s b k).map (fun gr => { gr with waited := 0 }) := by
  let waits : Fin 64 → Bool := fun i => [(g, o, n, w)].any (fun x => x.1 == i) && !([g].contains i)
  have hwaits : ∀ i, waits i = false := fun i => by by_cases h : g = i <;> simp [waits, h, Ne.symm]
  refine ⟨(List.finRange 64).foldl (countWaited b waits) s, ?_, ?_, fun k hk => ?_⟩
  · show execTguIssue b ready s = _
    unfold execTguIssue
    rw [hwork, hready]
    extract_lets l g0 l1 most g1 go x
    have hl1 : l1 = [] := List.filter_eq_nil_iff.mpr fun y hy => by simp [g0, l, List.mem_singleton.mp hy, oldestGroup]
    have hgo : go = [g] := by
      have hg1 : g1 = none := by
        simp only [g1, hl1]
        split <;> rfl
      simp only [go, hg1]
      rfl
    have hx : x = (List.finRange 64).foldl (countWaited b waits) s := by
      simp only [x, hgo]
      exact List.foldl_ext _ _ _ fun t i _ => rfl
    rw [hgo, hx]
    simp only [Bool.not_true, Bool.false_eq_true, if_false, List.foldl_cons, List.foldl_nil]
  · exact List.foldlRecOn (motive := fun t : State => t.regs = s.regs) _ _ rfl fun t ht i _ => (countWaited_regs waits t i).trans ht
  · rw [countWaited_all hwaits hb (List.nodup_finRange 64)]
    exact if_pos (List.mem_map.mpr ⟨⟨k, hk⟩, List.mem_finRange _, rfl⟩)
end

end Sys2Proof.Machine
end

section
/-! Blocks become resident and complete (R197, R198, R200), and the obligation about what thread groups submit. -/

namespace Sys2Proof.Machine

/-! ### Blocks become resident. -/

section
variable {s t u : State} {b : BayId}

/-- From `s` to `t`, where the bays are in order, only group slots of bay `b` have changed: no register and nothing else of its thread-group unit. -/
structure GroupsOnly (b : BayId) (s t : State) : Prop where
  bays : Rising t.bays
  regs : t.regs = s.regs
  tgu : tguOf t b = { tguOf s b with groups := (tguOf t b).groups }

theorem GroupsOnly.refl (hb : Rising s.bays) (b : BayId) : GroupsOnly b s s := ⟨hb, rfl, rfl⟩

theorem GroupsOnly.setGroup (h : GroupsOnly b s t) (j : Nat) (v : Option Group) : GroupsOnly b s (setGroup t b j v) :=
  ⟨setGroup_rising h.bays v, h.regs, by rw [Machine.setGroup, tguOf_modTgu h.bays, h.tgu]⟩

/-- The fields that show a resident block. -/
def showBlock (s : State) (b : BayId) (k desc threads n : Nat) : State :=
  let p := Page.tgu b
  let s := wr (wr (wr s p (tguBlkDescDesc k) desc) p (tguBlkDescValid k) 1) p (tguBlkShapeThreads k) threads
  wr (wr (wr (wr s p (tguBlkShapeGroups k) n) p (tguBlkLive k) threads) p (tguBlkBarpend k) 0) p (tguBlkSteps k) 0

/-- No field of a block, nor RESIDENT, is LAUNCHED. -/
theorem launched_apart {r : Row} (h : r.off * 8 + r.lsb < 32768) (hn : r.off * 8 + r.lsb ≠ 0x840) :
    ¬ (r.key (.tgu b) = tguLaunched.key (.tgu b)) := key_ne_off _ _ h (by decide) hn

theorem showBlock_launched {k : Nat} (hk : k < 8) (desc threads n : Nat) :
    RegsKept (· = tguLaunched.key (.tgu b)) s (tguCount (showBlock s b k desc threads n) b) := by
  have hs := RegsKept.refl (K := (· = tguLaunched.key (.tgu b))) s
  have hblock : ∀ {r : Row}, 0x1000 ≤ r.off * 8 + r.lsb ∧ r.off * 8 + r.lsb < 32768 → ¬ (r.key (.tgu b) = tguLaunched.key (.tgu b)) :=
    fun h => launched_apart h.2 (by omega)
  have hdesc := (hs.wr (v := desc) (hblock (r := tguBlkDescDesc k) (by simp only [tguBlkDescDesc]; omega))).wr (v := 1)
    (hblock (r := tguBlkDescValid k) (by simp only [tguBlkDescValid]; omega))
  have hshape := (hdesc.wr (v := threads) (hblock (r := tguBlkShapeThreads k) (by simp only [tguBlkShapeThreads]; omega))).wr (v := n)
    (hblock (r := tguBlkShapeGroups k) (by simp only [tguBlkShapeGroups]; omega))
  have hlive := (hshape.wr (v := threads) (hblock (r := tguBlkLive k) (by simp only [tguBlkLive]; omega))).wr (v := 0)
    (hblock (r := tguBlkBarpend k) (by simp only [tguBlkBarpend]; omega))
  have hshow := hlive.wr (v := 0) (hblock (r := tguBlkSteps k) (by simp only [tguBlkSteps]; omega))
  exact ((hshow.wr (launched_apart (by decide) (by decide))).wr (launched_apart (by decide) (by decide))).wr (launched_apart (by decide) (by decide))

theorem tguOf_shown (s : State) (b : BayId) (k desc threads n : Nat) : tguOf (tguCount (showBlock s b k desc threads n) b) b = tguOf s b :=
  tguOf_congr (by simp only [tguCount, showBlock, wr_bays])

/-- R198: a launch leaves the queue, and its block takes a slot. -/
def enterBlock (s : State) (b : BayId) (rest : List Launch) (k : Nat) (bl : Block) (icache : SMap (List Byte)) : State :=
  modTgu (wrapAdd s (.tgu b) tguLaunched 1) b
    (fun t => { t with queue := rest, blocks := mset none t.blocks k (some bl), icache := icache })

/-- The block of a launch as it starts. -/
def launchBlock (l : Launch) (seq : BitVec 32) (order : Nat) : Block :=
  { launch := l, threads := fieldAt l.bytes 8 4, seq := seq, order := order, live := fieldAt l.bytes 8 4 }

theorem launchBlock_shows (l : Launch) (seq : BitVec 32) (order : Nat) : (launchBlock l seq order).launch = l ∧
    (launchBlock l seq order).threads = fieldAt l.bytes 8 4 ∧ (launchBlock l seq order).live = fieldAt l.bytes 8 4 := by
  simp only [launchBlock, and_self]

theorem exec_blockResident {l : Launch} {rest : List Launch} (hb : Rising s.bays) (hst : pgState s (.tgu b) = 4) (hq : (tguOf s b).queue = l :: rest)
    (hok : launchBad l.desc l.bytes = false) (hslot : ∃ k : Fin 8, blockOf s b k.val = none)
    (hgroups : (fieldAt l.bytes 8 4 + 31) / 32 ≤ ((List.range 64).filter (fun g => (groupOf s b g).isNone)).length) :
    ∃ (k : Fin 8) (seq : BitVec 32) (order : Nat) (icache : SMap (List Byte)) (x : State), blockOf s b k.val = none ∧
      exec (.blockResident b) s =
        .next (tguCount (showBlock x b k.val l.desc (fieldAt l.bytes 8 4) ((fieldAt l.bytes 8 4 + 31) / 32)) b) ∧
      GroupsOnly b (enterBlock s b rest k.val (launchBlock l seq order) icache) x := by
  obtain ⟨k, hk⟩ := Option.isSome_iff_exists.mp
    ((List.find?_isSome (p := fun k : Fin 8 => (blockOf s b k.val).isNone) (xs := List.finRange 8)).mpr
      (hslot.imp fun k hk => ⟨List.mem_finRange k, by rw [hk]; rfl⟩))
  have hfree : blockOf s b k.val = none := Option.isNone_iff_eq_none.mp (List.find?_some (p := fun k : Fin 8 => (blockOf s b k.val).isNone) hk)
  change ∃ k seq order icache x, _ ∧ execBlockResident b s = _ ∧ _
  unfold execBlockResident
  simp only [hq, hst, hok, hk, ne_eq, not_true_eq_false, if_false, Bool.false_eq_true, Nat.not_lt.mpr hgroups]
  exact ⟨k, _, _, _, _, hfree, rfl, List.foldlRecOn (motive := GroupsOnly b _) _ _ (.refl (modTgu_rising (s := wrapAdd s (.tgu b) tguLaunched 1) hb _) b)
    fun _ ht _ _ => ht.setGroup ..⟩
theorem tguOf_enterBlock (hb : Rising s.bays) (rest : List Launch) (k : Nat) (bl : Block) (icache : SMap (List Byte)) :
    tguOf (enterBlock s b rest k bl icache) b =
      { tguOf s b with queue := rest, blocks := mset none (tguOf s b).blocks k (some bl), icache := icache } :=
  tguOf_modTgu (s := wrapAdd s (.tgu b) tguLaunched 1) hb _

/-- R197, R198: a sound launch whose slots are free becomes resident. -/
theorem blockResident_enters {l : Launch} {rest : List Launch} (hr : Rising s.regs) (hb : Rising s.bays) (hst : pgState s (.tgu b) = 4)
    (hq : (tguOf s b).queue = l :: rest) (hok : launchBad l.desc l.bytes = false) (hslot : ∃ k : Fin 8, blockOf s b k.val = none)
    (hgroups : (fieldAt l.bytes 8 4 + 31) / 32 ≤ ((List.range 64).filter (fun g => (groupOf s b g).isNone)).length) :
    ∃ t, exec (.blockResident b) s = .next t ∧ (tguOf t b).queue = rest ∧
      rd t (.tgu b) tguLaunched = (rd s (.tgu b) tguLaunched + 1) % 2 ^ 32 ∧
      ∃ (k : Fin 8) (bl : Block), blockOf s b k.val = none ∧ blockOf t b k.val = some bl ∧ bl.launch = l ∧ bl.threads = fieldAt l.bytes 8 4 ∧
        bl.live = fieldAt l.bytes 8 4 := by
  obtain ⟨k, seq, order, icache, x, hfree, hexec, hx⟩ := exec_blockResident hb hst hq hok hslot hgroups
  have htgu := tguOf_shown x b k.val l.desc (fieldAt l.bytes 8 4) ((fieldAt l.bytes 8 4 + 31) / 32)
  have henter := hx.tgu
  rw [tguOf_enterBlock hb] at henter
  have hrx : Rising x.regs := hx.regs ▸ wr_rising _ _ _ _ hr
  have hlaunched : rd x (.tgu b) tguLaunched = (rd s (.tgu b) tguLaunched + 1) % 2 ^ 32 :=
    (rd_congr hx.regs _ _).trans (rd_wrapAdd_same hr (by decide) 1)
  refine ⟨_, hexec, ?_, ((showBlock_launched k.isLt _ _ _).rd_eq hrx rfl).trans hlaunched, k, launchBlock l seq order, hfree, ?_,
    launchBlock_shows l seq order⟩
  · rw [htgu, henter]
  · rw [blockOf_congr htgu, blockOf, henter]
    exact mget_mset_listed (Option.some_ne_none _)
end

/-! ### Blocks complete. -/

section
variable {s : State} {b : BayId}

/-- A field of the thread-group unit's page. -/
def tguKey (b : BayId) (k : Nat) : Prop := k / 32768 = (Page.tgu b).slot

theorem tguKey_own {r : Row} (h : r.off * 8 + r.lsb < 32768) (hp : r.home (.tgu b) = .tgu b) : tguKey b (r.key (.tgu b)) := by
  unfold tguKey Row.key
  rw [hp]
  omega

theorem tguKey_sync {r : Row} (h : r.off * 8 + r.lsb < 32768) (hp : r.home (.sync b) = .sync b) : ¬ tguKey b (r.key (.sync b)) := by
  unfold tguKey Row.key
  rw [hp]
  have hne : (Page.sync b).slot ≠ (Page.tgu b).slot := fun he => by cases Page.slot_injective he
  omega

/-- R175: a signal reaches the SYNC page alone. -/
theorem signal_tguFields (s : State) (b : BayId) (w : Nat) : RegsKept (tguKey b) s (signal s b w) := by
  unfold signal flagSignal
  split
  · split
    · exact (RegsKept.refl s).wr (tguKey_sync (by simp only [syncCnt]; omega) rfl)
    · split
      · exact (RegsKept.refl s).wr (tguKey_sync (by decide) rfl)
      · exact (RegsKept.refl s).wr (tguKey_sync (by decide) rfl)
  · exact .refl s

theorem opDone_tguFields (s : State) (b : BayId) (id : Nat) : RegsKept (tguKey b) s (opDone s b id) := by
  unfold opDone
  split
  · exact .refl s
  · split
    · exact (RegsKept.of_regs (t := modBay s b _)).trans (signal_tguFields ..)
    · exact .of_regs

/-- R200: a block whose last thread has exited completes. -/
theorem blockComplete_counts {k : Fin 8} {l : Launch} {rest : List (Nat × Launch)} (hr : Rising s.regs) (hb : Rising s.bays)
    (hst : pgState s (.tgu b) ≠ 0) (hended : (tguOf s b).ended = (k.val, l) :: rest) :
    ∃ t, exec (.blockComplete b k) s = .next t ∧ (tguOf t b).ended = rest ∧
      rd t (.tgu b) tguCompleted = (rd s (.tgu b) tguCompleted + 1) % 2 ^ 32 ∧ bitOf (rd t (.tgu b) hdrEvt) 16 = true := by
  let x := modTgu s b (fun t => { t with ended := t.ended.erase (k.val, l) })
  let y := wrapAdd x (.tgu b) tguCompleted 1
  have hfind : (tguOf s b).ended.find? (fun x => x.1 == k.val) = some (k.val, l) := by rw [hended]; exact List.find?_cons_of_pos (beq_self_eq_true _)
  have hexec : exec (.blockComplete b k) s = .next (opDone (setEvt y (.tgu b) 16) b l.id) := by
    show execBlockComplete b k s = _
    unfold execBlockComplete
    simp only [hfind, hst, if_false]
    rfl
  have hx : tguOf x b = { tguOf s b with ended := rest } := by rw [tguOf_modTgu hb, hended, List.erase_cons_head]
  have hy : Rising y.regs := wr_rising _ _ _ _ hr
  have hye : Rising (setEvt y (.tgu b) 16).regs := setEvt_rising _ _ _ hy
  have hevt : (setEvt y (.tgu b) 16).bays = x.bays := setEvt_bays ..
  have hkept := (opDone_tgu b (setEvt y (.tgu b) 16) l.id).kept (hevt ▸ modTgu_rising hb _)
  have hfields := opDone_tguFields (setEvt y (.tgu b) 16) b l.id
  refine ⟨_, hexec, ?_, ?_, ?_⟩
  · rw [hkept.2, tguOf_congr hevt, hx]
  · rw [hfields.rd_eq hye (tguKey_own (by decide) rfl), rd_setEvt_hdr hy _ (by decide) (by decide)]
    exact rd_wrapAdd_same (s := x) hr (by decide) 1
  · rw [hfields.rd_eq hye (tguKey_own (by decide) rfl)]
    exact bitOf_setEvt_same hy (by decide)
end

/-! ### The obligation. -/

/-- Settles O24: the words of flags and engines on a group that can issue, the release of its path, and the counts of blocks. -/
theorem threadGroupsSubmitAndBlocksComplete : Obligations.ThreadGroupsSubmitAndBlocksComplete := by
  unfold Obligations.ThreadGroupsSubmitAndBlocksComplete
  refine ⟨?flags, ?engines, ?release, ?resident, ?addi, ?issue, ?complete⟩
  case flags =>
    intro s b g gr p rest bl rs1 rs2 w hinv hon hw hv hbad
    have hb := hinv.bays_rising
    exact ⟨tgFsig_signals hinv.regs_rising hb hon hw hv hbad, xtg_holds hb hon (by decide) (by decide) rfl (xtgExec_fwait hw hv hbad),
      fun rd' hrd => xtg_gives hb hon hrd (by decide) (by decide) rfl (xtgExec_ftest hw hv hbad) fun _ _ => rfl⟩
  case engines =>
    intro s b g gr p rest bl rs1 rs2 v hinv hon hv hbad
    have hb := hinv.bays_rising
    refine ⟨fun hhigh => ?_, fun hhigh harr => xtg_holds hb hon (by decide) (by decide) rfl (xtgExec_mtx hv hbad hhigh harr)⟩
    obtain ⟨t, gr', hexec, hwent⟩ := xtg_holds (i := .tgGth b g rs1 rs2) hb hon (by decide) (by decide) rfl (xtgExec_gth hv hbad hhigh)
    exact ⟨t, gr', hexec, ⟨bits v 20 20 % 2, Nat.mod_lt _ (by decide)⟩, Nat.mod_eq_of_lt (bits_lt v 20 20), hwent⟩
  case release =>
    intro s b g lane gr p rest hinv hwork hgr hp hlane
    have hb := hinv.bays_rising
    exact ⟨fun w thr hhold hok hfirst => tgFwaitSatisfied_releases hinv.regs_rising hb hwork hgr hp hlane hhold hok hfirst,
      fun op sig u hhold hacc hfirst => xtgHandshake_releases u hb hwork hgr hp hlane hhold hacc hfirst⟩
  case resident =>
    intro s b l rest hinv hst hq hok hslot hgroups
    exact blockResident_enters hinv.regs_rising hinv.bays_rising hst hq hok hslot hgroups
  case addi =>
    intro s s1 b g chk gr p rest bl pa w x ln hinv hon hready hxlate hpa hline hw hop hf3 hrd
    have hcache : mget [] (tguOf s1 b).icache (pa / 64) = x :: ln := by
      obtain ⟨-, -, -, rfl⟩ := groupReady_iff.mp hready
      exact hline
    have hfetch : thFetch s1 b (tguUnit gr) p.pc chk = (.inl w, s1) := by rw [thFetch_cached hxlate hpa hcache, hw]
    exact threadInstruction_addi hinv.bays_rising hon hready hfetch hop hf3 hrd
  case issue =>
    intro s b ready g o n w hinv hwork hready _
    exact tguIssue_only hinv.bays_rising hwork hready
  case complete =>
    intro s b k l rest hinv hst hended
    exact blockComplete_counts hinv.regs_rising hinv.bays_rising hst hended

end Sys2Proof.Machine
end

section
/-! Memory channels (R314 to R327): partial writes, re-reads, refresh, retraining, patrol and deaccession. -/

namespace Sys2Proof.Machine

/-! ### Channels and blocks in DRAM. -/

section
variable {s : State}

theorem StateInv.dram_rising (h : StateInv s) : Rising s.dram := by
  obtain ⟨⟨-, -, -, -, -, -, ⟨hdram, -⟩, -⟩, -⟩ := h
  exact hdram

theorem StateInv.side_rising (h : StateInv s) : Rising s.side := by
  obtain ⟨⟨-, -, -, -, -, -, -, ⟨hside, -⟩, -⟩, -⟩ := h
  exact hside

theorem StateInv.chans_rising (h : StateInv s) : Rising s.chans := by
  obtain ⟨⟨-, -, -, -, -, -, -, -, ⟨hchans, -⟩, -⟩, -⟩ := h
  exact hchans

theorem StateInv.stkTemp_rising (h : StateInv s) : Rising s.stkTemp := by
  obtain ⟨⟨-, -, -, -, -, -, -, -, -, ⟨htemp, -⟩, -⟩, -⟩ := h
  exact htemp

theorem chanOf_setChan (h : Rising s.chans) (st : Fin 16) (ch : Fin 32) (v : Chan) : chanOf (setChan s st ch v) st ch = v := mget_mset_same _ _ _ _ h

/-- A block written to the array reads back. -/
theorem dramData_dramPut (h : Rising s.dram) (k : Nat) {d : List Byte} (hd : d.length = 256) (sd : Side) : dramData (dramPut s k d sd) k = d := by
  have hs : slice d 0 256 = d := by simp [slice, ← hd]
  refine List.ext_getElem (by simp [dramData, hd]) fun i h1 h2 => ?_
  have hi := mget_putBytes_in h (256 * k) d i h2
  rw [← putDram_eq] at hi
  simpa [dramData, dramPut, hs] using hi

theorem dramSide_dramPut (h : Rising s.side) (k : Nat) (d : List Byte) (sd : Side) : dramSide (dramPut s k d sd) k = sd := mget_mset_same _ _ _ _ h

theorem dramData_length (s : State) (k : Nat) : (dramData s k).length = 256 := by simp [dramData]

theorem mergeBytes_length (old : List Byte) (off mask : Nat) (d : List Byte) : (mergeBytes old off mask d).length = old.length := by simp [mergeBytes]

/-- R312: three equal copies of a poison mark agree. -/
theorem majority_triple (p : Bool) : majority (triple p) = p := by cases p <;> decide

/-- R315: an intact block passes the controller's check. -/
theorem ctrlVerify_intact {p : Place} {k : Nat} (h : crcGood (dramData s k) (dramSide s k) = true) : ctrlVerify s p k .ok = s := by
  simp [ctrlVerify, h]

theorem dramData_congr {t : State} (h : t.dram = s.dram) (k : Nat) : dramData t k = dramData s k := by rw [dramData, h, dramData]

/-- R319: a block written is in the array, and of the rest only channel controllers change. -/
theorem chanWrite_array (s : State) (p : Place) (k : Nat) (d : List Byte) (sd : Side) :
    (chanWrite s p k d sd).dram = (dramPut s k d sd).dram ∧ (chanWrite s p k d sd).side = (dramPut s k d sd).side := by
  unfold chanWrite chanSettle
  extract_lets x u u'
  split <;> exact ⟨rfl, rfl⟩

theorem chanWrite_only (s : State) (p : Place) (k : Nat) (d : List Byte) (sd : Side) :
    chanWrite s p k d sd = { s with dram := (chanWrite s p k d sd).dram, side := (chanWrite s p k d sd).side, chans := (chanWrite s p k d sd).chans } := by
  unfold chanWrite chanSettle
  extract_lets x u u'
  split <;> rfl

/-- R319: a block written reads back from the array. -/
theorem dramData_chanWrite (h : Rising s.dram) (p : Place) (k : Nat) {d : List Byte} (hd : d.length = 256) (sd : Side) :
    dramData (chanWrite s p k d sd) k = d :=
  (dramData_congr (chanWrite_array s p k d sd).1 k).trans (dramData_dramPut h k hd sd)

theorem dramSide_chanWrite (h : Rising s.side) (p : Place) (k : Nat) (d : List Byte) (sd : Side) : dramSide (chanWrite s p k d sd) k = sd := by
  rw [dramSide, (chanWrite_array ..).2]
  exact dramSide_dramPut h k d sd
end

/-! ### A partial write and a re-read (R314, R315). -/

section
variable {s : State} {p : Place} {k : Nat}

/-- R314: a partial write of an intact block in DRAM that nothing holds up. -/
theorem memWritePart_merges {cls mask : Nat} {d : List Byte} {poison : Bool} (hp : placeOf s k = some p) (hfree : chanFree s p k = true)
    (hopen : chanOpen s p = true) (hreg : regFree (chanOf s p.st p.ch).reqs cls p.q = true) (hlive : chanDead s p.st p.ch = false)
    (hmiss : syscBlk s k = none) (hcrc : crcGood (dramData s k) (dramSide s k) = true) :
    memWritePart s k cls 0 mask d poison .ok =
      chanWrite (openRow s p) p k (mergeBytes (dramData s k) 0 mask d) { poison := triple (poison || majority (dramSide s k).poison) } := by
  have hmiss' : syscBlk (openRow s p) k = none := hmiss
  have hverify : ctrlVerify (openRow s p) p k .ok = openRow s p := ctrlVerify_intact hcrc
  have hlive' : chanDead (openRow s p) p.st p.ch = false := hlive
  simp only [memWritePart, hp, hlive, hfree, hopen, hreg, hmiss, partNow, hverify, hlive', Bool.false_eq_true, if_false, Bool.and_self, Bool.or_true,
    if_true]
  rfl

theorem readModifyWrite_merges {blk : BitVec 32} {cls : Fin 32} {mask : BitVec 256} {data : List Byte} {poison : Bool} (hinv : StateInv s)
    (hp : placeOf s blk.toNat = some p) (hfree : chanFree s p blk.toNat = true) (hopen : chanOpen s p = true)
    (hreg : regFree (chanOf s p.st p.ch).reqs cls.val p.q = true) (hlive : chanDead s p.st p.ch = false) (hmiss : syscBlk s blk.toNat = none)
    (hcrc : crcGood (dramData s blk.toNat) (dramSide s blk.toNat) = true) :
    ∃ t, exec (.readModifyWrite blk cls mask data poison .ok) s = .next t ∧
      dramData t blk.toNat = mergeBytes (dramData s blk.toNat) 0 mask.toNat (slice data 0 256) ∧
      majority (dramSide t blk.toNat).poison = (poison || majority (dramSide s blk.toNat).poison) ∧
      (∀ a, a / 256 ≠ blk.toNat → mget 0 t.dram a = mget 0 s.dram a) ∧
      t = { s with dram := t.dram, side := t.side, chans := t.chans } := by
  generalize hk : blk.toNat = k at *
  have hlen : (mergeBytes (dramData s k) 0 mask.toNat (slice data 0 256)).length = 256 := (mergeBytes_length ..).trans (dramData_length s k)
  refine ⟨_, congrArg Host.Outcome.next ((congrArg (fun n => memWritePart s n _ _ _ _ _ _) hk).trans
    (memWritePart_merges hp hfree hopen hreg hlive hmiss hcrc)), ?_⟩
  refine ⟨dramData_chanWrite (s := openRow s p) hinv.dram_rising p k hlen _, ?_, fun a ha => ?_, chanWrite_only (openRow s p) ..⟩
  · rw [dramSide_chanWrite (s := openRow s p) hinv.side_rising, majority_triple]
  · rw [(chanWrite_array ..).1]
    exact dramPut_other (s := openRow s p) hinv.dram_rising k _ _ a (by omega)

/-- R315: a re-read that nothing holds up is counted and gives an intact block. -/
theorem reread_delivers {blk : BitVec 32} (hinv : StateInv s) (hp : placeOf s blk.toNat = some p) (hheld : memHeld s blk.toNat = false)
    (hlive : chanDead s p.st p.ch = false) (hmiss : syscBlk s blk.toNat = none) (hcrc : crcGood (dramData s blk.toNat) (dramSide s blk.toNat) = true) :
    ∃ t, exec (.reread blk .ok) s = .next t ∧
      rd t (.mchan p.st p.ch) mchRrCount = min (rd s (.mchan p.st p.ch) mchRrCount + 1) (2 ^ mchRrCount.width - 1) ∧
      t.resp = dramData s blk.toNat ++ [BitVec.ofNat 8 (b2n (majority (dramSide s blk.toNat).poison))] ∧
      t = { s with regs := t.regs, chans := t.chans, resp := t.resp } := by
  generalize hk : blk.toNat = k at *
  generalize hy : satAdd s (.mchan p.st p.ch) mchRrCount 1 = y
  have hregs : ∀ r, rd (openRow y p) (.mchan p.st p.ch) r = rd y (.mchan p.st p.ch) r := fun r => rfl
  have hverify : ctrlVerify (openRow y p) p k .ok = openRow y p := by subst hy; exact ctrlVerify_intact hcrc
  have hmiss' : syscBlk y k = none := by subst hy; exact hmiss
  have hmiss2 : syscBlk (openRow y p) k = none := hmiss'
  have hread : homeReread s k .ok = openRow y p := by
    simp only [homeReread, hp, hlive, Bool.false_eq_true, if_false, hy, hmiss', hverify]
  have hdead : chanDead (openRow y p) p.st p.ch = false := by
    subst hy
    unfold chanDead at hlive ⊢
    rw [hregs, satAdd, rd_wr_other _ _ _ _ _ _ hinv.regs_rising (key_ne_off _ _ (by decide) (by decide) (by decide))]
    exact hlive
  have hexec : exec (.reread blk .ok) s = .next (answerBlk (openRow y p) (blkOf (dramData s k) (dramSide s k))) := by
    show execReread blk .ok s = _
    unfold execReread
    simp only [hk, hp, hheld, Bool.false_eq_true, if_false, hread, hmiss2, hdead, Bool.or_false]
    subst hy
    rfl
  refine ⟨_, hexec, ?_, rfl, ?_⟩
  · show rd y _ _ = _
    subst hy
    exact rd_satAdd_same hinv.regs_rising (by decide) 1
  · subst hy
    rfl
end

/-! ### Rows, retraining and the conservator (R318, R322, R324, R326). -/

section
variable {s : State} {st : Fin 16} {ch : Fin 32}

theorem bankRefresh_closes {bank : Fin 32} (hinv : StateInv s) (hrow : Rising (chanOf s st ch).openRow) (hturn : bank.val = (chanOf s st ch).refreshTurn) :
    ∃ t, exec (.bankRefresh st ch bank) s = .next t ∧ mget none (chanOf t st ch).openRow bank.val = none ∧
      (chanOf t st ch).refreshTurn = (bank.val + 1) % 32 ∧ t = { s with chans := t.chans } := by
  refine ⟨_, if_neg (by simpa using hturn), ?_, ?_, rfl⟩ <;> rw [chanOf_setChan hinv.chans_rising]
  show mget none (mset none (chanOf s st ch).openRow bank.val none) bank.val = none
  exact mget_mset_same none _ _ _ hrow

theorem rowIdleClose_closes (hinv : StateInv s) (hrow : Rising (chanOf s st ch).openRow) (bank : Fin 32) :
    ∃ t, exec (.rowIdleClose st ch bank) s = .next t ∧ mget none (chanOf t st ch).openRow bank.val = none ∧
      (chanOf t st ch).refreshTurn = (chanOf s st ch).refreshTurn ∧ t = { s with chans := t.chans } := by
  refine ⟨_, rfl, ?_, ?_, rfl⟩ <;> rw [chanOf_setChan hinv.chans_rising]
  show mget none (mset none (chanOf s st ch).openRow bank.val none) bank.val = none
  exact mget_mset_same none _ _ _ hrow

/-- R326: of the errors of the last millisecond the sixteen newest count, and sixteen at once are enough. -/
theorem channelRetrain_starts (hinv : StateInv s) (hserv : rd s (.mchan st ch) mchLocInService = 1) (hlive : chanDead s st ch = false)
    (hidle : (chanOf s st ch).retraining = false) :
    ∃ t, exec (.channelRetrain st ch 16) s = .next t ∧ (chanOf t st ch).retraining = true ∧ t = { s with chans := t.chans } := by
  have hdrop : ∀ (l : List Nat) (now : Nat), (l ++ List.replicate 16 now).drop ((l ++ List.replicate 16 now).length - 16) = List.replicate 16 now :=
    fun l now => by simp
  refine ⟨setChan s st ch { chanOf s st ch with retraining := true, ifErrs := [] }, ?_, by rw [chanOf_setChan hinv.chans_rising], rfl⟩
  show execChannelRetrain st ch 16 s = _
  unfold execChannelRetrain
  extract_lets u now l l'
  have hl : l' = List.replicate 16 now := hdrop _ _
  have hidle' : u.retraining = false := hidle
  rw [if_neg (by simp [hserv, hlive, hidle']), if_pos (by simp [hl])]

/-- R326: a retraining that has ended sets INTERFACE; a channel that nothing waits for is free. -/
theorem channelRetrainDone_frees (hinv : StateInv s) (hst : pgState s (.mchan st ch) ≠ 0) (hbusy : (chanOf s st ch).retraining = true)
    (hnone : (chanOf s st ch).reqs = []) :
    ∃ t, exec (.channelRetrainDone st ch true) s = .next t ∧ (chanOf t st ch).retraining = false ∧ bitOf (rd t (.mchan st ch) hdrErr) 17 = true := by
  generalize hx : setChan s st ch { chanOf s st ch with retraining := false } = x
  have hchan : chanOf x st ch = { chanOf s st ch with retraining := false } := by rw [← hx, chanOf_setChan hinv.chans_rising]
  have hrise : Rising x.chans := by subst hx; exact hinv.chans_rising.mset _ _ _
  have hregs : Rising x.regs := by subst hx; exact hinv.regs_rising
  have hst' : pgState x (.mchan st ch) ≠ 0 := by subst hx; exact hst
  have hraise := raise_errors x (.mchan st ch) { bit := 17, sev := some 0 } rfl
  have hbit := raise_bit x (.mchan st ch) { bit := 17, sev := some 0 } rfl hregs hst' (by decide)
  have hexec : exec (.channelRetrainDone st ch true) s = .next (chanSettle (raise x (.mchan st ch) { bit := 17, sev := some 0 }) st ch) := by
    show execChannelRetrainDone st ch true s = _
    unfold execChannelRetrainDone
    rw [if_pos hbusy, if_pos rfl, hx]
    simp only [hchan, hnone, List.length_nil, chanPump]
  generalize raise x (.mchan st ch) { bit := 17, sev := some 0 } = y at hraise hbit hexec
  have hy : chanOf y st ch = { chanOf s st ch with retraining := false } := by rw [chanOf, hraise.chans]; exact hchan
  refine ⟨_, hexec, ?_⟩
  unfold chanSettle
  extract_lets u
  split
  · rw [chanOf_setChan (hraise.chans ▸ hrise)]
    refine ⟨?_, hbit⟩
    show (u.wbuf.foldl rowOpened u).retraining = false
    exact List.foldlRecOn (motive := fun v : Chan => v.retraining = false) _ _ (congrArg Chan.retraining hy) fun _ hv _ _ => hv
  · exact ⟨congrArg Chan.retraining hy, hbit⟩

theorem patrolEnWrite_sets (hinv : StateInv s) (hst : pgState s (.mchan st ch) ≠ 0) (en : Bool) :
    ∃ t, exec (.patrolEnWrite st ch en) s = .next t ∧ rd t (.mchan st ch) mchCfgPatrolEn = b2n en ∧ OnlyRegs s t ∧
      FieldsBut [mchCfgPatrolEn.key (.mchan st ch)] s t := by
  refine ⟨_, if_neg hst, ?_, .wr .., .wr _ _ _ _ hinv.regs_rising⟩
  rw [rd_wr_same _ _ _ _ hinv.regs_rising (by decide)]
  cases en <;> rfl

/-- R324: a block dirty in the system cache is not read; the conservator goes on to the next. -/
theorem patrolRead_advances (hinv : StateInv s) (hserv : rd s (.mchan st ch) mchLocInService = 1) (hlive : chanDead s st ch = false)
    (hen : rd s (.mchan st ch) mchCfgPatrolEn = 1) (hmore : rd s (.mchan st ch) mchPatrol + 1 < chanBlocks)
    (hheld : memHeld s (blockAt s st ch (rd s (.mchan st ch) mchPatrol)) = false) {b : SyscBlock}
    (hb : syscBlk s (blockAt s st ch (rd s (.mchan st ch) mchPatrol)) = some b) (hdirty : b.dirty = true) :
    ∃ t, exec (.patrolRead st ch .ok false false) s = .next t ∧
      rd t (.mchan st ch) mchPatrol = rd s (.mchan st ch) mchPatrol + 1 ∧ OnlyRegs s t := by
  refine ⟨wr s (.mchan st ch) mchPatrol (rd s (.mchan st ch) mchPatrol + 1), ?_, ?_, .wr ..⟩
  · show execPatrolRead st ch .ok false false s = _
    simp [execPatrolRead, hserv, hlive, hen, hheld, hb, hdirty, Nat.ne_of_lt hmore]
  · rw [rd_wr_same _ _ _ _ hinv.regs_rising (by decide)]
    exact Nat.mod_eq_of_lt (Nat.lt_trans hmore (by decide))
end

end Sys2Proof.Machine
end
section
/-! Deaccession (R326, R327, R330), the temperature of a stack (R321, R323), and what a bank of bay store writes back (R230). -/

namespace Sys2Proof.Machine

/-! ### Deaccession.

STATUS of the channel reads as deaccession wrote it, whatever leaves the channel after that. -/

/-- The fields of STATUS of a channel that deaccession writes at once. -/
def chanStatusKey (st : Fin 16) (ch : Fin 32) (k : Nat) : Prop :=
  k = mchStatusDeaccessioned.key (.mchan st ch) ∨ k = mchStatusCause.key (.mchan st ch)

section
variable {s t : State} {st : Fin 16} {ch : Fin 32}

theorem not_chanStatusKey_off {p : Page} {r : Row} (h : r.off * 8 + r.lsb < 32768 ∧ r.off * 8 + r.lsb ∉ [0xA20, 0xA22]) :
    ¬ chanStatusKey st ch (r.key p) := by
  obtain ⟨hr, hn⟩ := h
  rintro (he | he) <;> exact key_ne_off p (.mchan st ch) hr (by decide) (fun hm => hn (by rw [hm]; decide)) he

theorem not_chanStatusKey_page {p : Page} {r : Row} (hr : r.off * 8 + r.lsb < 32768) (hp : r.home p ≠ .mchan st ch) :
    ¬ chanStatusKey st ch (r.key p) := by
  rintro (he | he) <;> exact key_ne_page hr (by decide) hp he

theorem raiseKeys_not_chanStatusKey (p : Page) : ∀ k ∈ raiseKeys p, ¬ chanStatusKey st ch k := by
  simp only [raiseKeys, errKeys, logKeys, List.cons_append, List.nil_append, List.forall_mem_cons, List.not_mem_nil, false_implies, implies_true, and_true]
  and_intros <;> exact not_chanStatusKey_off (by decide)

/-- STATUS of the channel and what the MG die holds have not changed. -/
structure StatusKept (st : Fin 16) (ch : Fin 32) (s t : State) : Prop where
  regs : RegsKept (chanStatusKey st ch) s t
  mg : t.mg = s.mg

theorem StatusKept.of_eq (hr : t.regs = s.regs := by rfl) (hm : t.mg = s.mg := by rfl) : StatusKept st ch s t := ⟨.of_regs hr, hm⟩

theorem StatusKept.trans {u : State} (h1 : StatusKept st ch s t) (h2 : StatusKept st ch t u) : StatusKept st ch s u :=
  ⟨h1.regs.trans h2.regs, h2.mg.trans h1.mg⟩

theorem syscDrop_status (s : State) (p : Place) (k : Nat) : StatusKept st ch s (syscDrop s p k) := by
  unfold syscDrop
  extract_lets c x
  have hx : StatusKept st ch s x := by
    simp only [x]
    split
    · exact .of_eq
    · exact .of_eq
  exact hx.trans .of_eq

theorem discarded_status (s : State) (i : Fin 16) (c : Fin 32) : StatusKept st ch s (discarded s i c) :=
  ⟨(RegsKept.refl s).wr (not_chanStatusKey_off (by decide)), rfl⟩

theorem syscDropChan_status (s : State) (i : Fin 16) (c : Fin 32) : StatusKept st ch s (syscDropChan s i c) :=
  List.foldlRecOn (motive := StatusKept st ch s) _ _ .of_eq fun x hx k _ => hx.trans (by
    split
    · next b _ _ =>
      split
      · refine StatusKept.trans ?_ (syscDrop_status ..)
        split
        · exact discarded_status ..
        · exact .of_eq
      · exact .of_eq
    · exact .of_eq)

/-- R55: an error that stops the channel leaves its STATUS. -/
theorem raise_chan_status (s : State) {e : Err} (he : e.stop = true) : StatusKept st ch s (raise s (.mchan st ch) e) := by
  obtain ⟨sev, hraise⟩ := raise_stop s (.mchan st ch) he
  have hrec := raise_errors s (.mchan st ch) { e with stop := false, sev := some sev } rfl
  have hkept : StatusKept st ch s (raise s (.mchan st ch) { e with stop := false, sev := some sev }) :=
    ⟨(RegsKept.refl s).raise rfl (raiseKeys_not_chanStatusKey _), hrec.mg⟩
  rw [hraise]
  generalize raise s (.mchan st ch) { e with stop := false, sev := some sev } = x at hkept
  refine hkept.trans ?_
  unfold toFault
  extract_lets n
  split
  · have henter := enter_events (dropHeld x (.mchan st ch)) (.mchan st ch) 6 (by simp)
    have hdrop : RegsKept (chanStatusKey st ch) x (dropHeld x (.mchan st ch)) := .of_regs
    exact ⟨hdrop.enter (not_chanStatusKey_off (by decide)) (not_chanStatusKey_off (by decide)) (not_chanStatusKey_off (by decide)),
      (OnlyErrors.of_events henter).mg⟩
  · exact .of_eq

theorem setEvt_status (s : State) (p : Page) (i : Nat) : StatusKept st ch s (setEvt s p i) :=
  ⟨(RegsKept.refl s).setEvt (not_chanStatusKey_off (by decide)), (OnlyErrors.of_events (setEvt_events s p i)).mg⟩

/-- R502, R503: the entry of the deaccession leaves what STATUS says already. -/
theorem ledgerNote_status (s : State) (unit arg : Nat) : RegsKept (chanStatusKey st ch) s (ledgerNote s 5 unit arg) := by
  unfold ledgerNote ledgerAdd
  extract_lets e
  split
  · split <;> exact .of_regs
  · unfold ledgerStore
    split
    · next i _ =>
      unfold ledgered
      rw [if_pos (by rfl)]
      refine RegsKept.wr ?_ (not_chanStatusKey_off (by decide))
      exact ((RegsKept.of_regs (by rfl)).wr (not_chanStatusKey_page (by decide) (by simp [Row.home]))).setEvt (not_chanStatusKey_off (by decide))
    · split
      · exact .refl s
      · exact (((RegsKept.refl s).wr (not_chanStatusKey_page (by decide) (by simp [Row.home]))).raise rfl
          (raiseKeys_not_chanStatusKey _)).setEvt (not_chanStatusKey_off (by decide))

/-- R330: a stored entry of a channel's deaccession shows in its STATUS. -/
theorem ledgerNote_ledgered (hs : Rising s.regs) (arg : Nat) (hlost : s.mg.lost = false)
    (hslot : (ledgerSlot s.mg.ledger 5 (32 * st.val + ch.val)).isSome = true) :
    rd (ledgerNote s 5 (32 * st.val + ch.val) arg) (.mchan st ch) mchStatusLedgered = 1 := by
  obtain ⟨i, hi⟩ := Option.isSome_iff_exists.mp hslot
  have hpage : Page.mchan ⟨(32 * st.val + ch.val) / 32 % 16, Nat.mod_lt _ (by decide)⟩ ⟨(32 * st.val + ch.val) % 32, Nat.mod_lt _ (by decide)⟩ =
      .mchan st ch := by
    congr 1 <;> ext <;> dsimp only <;> omega
  unfold ledgerNote ledgerAdd
  extract_lets e
  have hcase : ledgerStore s e = ledgered (setEvt (ledgerCount { s with mg := { s.mg with
      ledger := mset none s.mg.ledger i (some { e with seq := s.mg.nextSeq }), nextSeq := s.mg.nextSeq + 1, stepEntries := s.mg.stepEntries + 1 } }) .sec 16)
      e true := by
    unfold ledgerStore
    rw [show ledgerSlot s.mg.ledger e.kind e.unit = some i from hi]
  rw [if_neg (by simp [hlost]), hcase]
  unfold ledgered
  rw [if_pos (by rfl)]
  show rd (wr _ (Page.mchan ⟨(32 * st.val + ch.val) / 32 % 16, _⟩ ⟨(32 * st.val + ch.val) % 32, _⟩) mchStatusLedgered 1) _ _ = 1
  rw [hpage]
  exact rd_wr_same _ _ _ _ (setEvt_rising _ _ _ (wr_rising _ _ _ _ hs)) (by decide)

/-- R326, R327: DEACC with its key takes a channel in service out of it. -/
theorem deaccession_removes (hinv : StateInv s) (hserv : rd s (.mchan st ch) mchLocInService = 1) (hlive : chanDead s st ch = false) :
    ∃ t, exec (.deaccession st ch 0xD5A7) s = .next t ∧ rd t (.mchan st ch) mchStatusDeaccessioned = 1 ∧ rd t (.mchan st ch) mchStatusCause = 3 ∧
      (s.mg.lost = false → (ledgerSlot s.mg.ledger 5 (32 * st.val + ch.val)).isSome = true → rd t (.mchan st ch) mchStatusLedgered = 1) := by
  refine ⟨_, if_pos ⟨rfl, hserv⟩, ?_⟩
  unfold deaccess
  rw [if_neg (by simp [hlive])]
  extract_lets p u x y z w v
  have hy : Rising y.regs := wr_rising _ _ _ _ hinv.regs_rising
  have hz : Rising z.regs := wr_rising _ _ _ _ (wr_rising _ _ _ _ hy)
  have hdead : rd z p mchStatusDeaccessioned = 1 :=
    (rd_wr_other _ _ _ _ _ _ (wr_rising _ _ _ _ hy) (key_ne_off p p (by decide) (by decide) (by decide))).trans (rd_wr_same _ _ _ _ hy (by decide))
  have hcause : rd z p mchStatusCause = 3 := rd_wr_same _ _ _ _ (wr_rising _ _ _ _ hy) (by decide)
  have hv : StatusKept st ch z v := ((syscDropChan_status ..).trans (raise_chan_status _ rfl)).trans (setEvt_status ..)
  have hnote : RegsKept (chanStatusKey st ch) z (ledgerNote v 5 (32 * st.val + ch.val) 3) := hv.regs.trans (ledgerNote_status ..)
  have hmg : v.mg = s.mg := hv.mg
  refine ⟨(hnote.rd_eq hz (.inl rfl)).trans hdead, (hnote.rd_eq hz (.inr rfl)).trans hcause, fun hlost hslot => ?_⟩
  exact ledgerNote_ledgered (hv.regs.rising hz) 3 (hmg ▸ hlost) (hmg ▸ hslot)
end

/-! ### The temperature of a stack. -/

section
variable {s t : State}

theorem OnlyErrors.stkTemp (h : OnlyErrors s t) : t.stkTemp = s.stkTemp := by rw [h]

/-- R321: what a sample shows on a channel's page is registers, events and errors. -/
theorem tempPage_errors (t : Int) (valid ignored : Bool) (s : State) (p : Page) : OnlyErrors s (tempPage t valid ignored s p) := by
  unfold tempPage
  extract_lets rate0 hot0 rate hot x y z w v
  have hx : OnlyErrors s x := by
    change OnlyErrors s (if _ then _ else _)
    split
    · exact .wr ..
    · exact .refl s
  have hy : OnlyErrors s y := hx.trans (((OnlyErrors.wr ..).trans (OnlyErrors.wr ..)).trans (OnlyErrors.wr ..))
  have hz : OnlyErrors s z := hy.trans (.ite (.of_events (setEvt_events ..)) (.refl y))
  have hw : OnlyErrors s w := hz.trans (.ite (.of_events (setEvt_events ..)) (.refl z))
  have hv : OnlyErrors s v := hw.trans (.ite (raise_errors _ _ _ rfl) (.refl w))
  exact hv.trans (.ite (raise_errors _ _ _ rfl) (.refl v))

/-- R476: the units' forced limits are registers and events. -/
theorem forcedUpdate_events (s : State) : OnlyEvents s (forcedUpdate s) := by
  have hunit : ∀ x u, OnlyEvents x.1 (forcedUnit x u).1 := fun x u => by
    unfold forcedUnit
    extract_lets s p b h t
    split
    · exact .refl _
    · exact (((OnlyEvents.wr ..).trans (OnlyEvents.wr ..)).trans (OnlyEvents.wr ..)).trans (setEvt_events ..)
  have hall : ∀ l : List (Fin 72), OnlyEvents s (l.foldl forcedUnit (s, false)).1 := fun l =>
    List.foldlRecOn (motive := fun x : State × Bool => OnlyEvents s x.1) l _ (.refl s) fun x hx u _ => hx.trans (hunit x u)
  unfold forcedUpdate
  generalize List.finRange 72 = l
  have hr := hall l
  extract_lets r
  split
  · exact hr.trans (setEvt_events ..)
  · exact hr

/-- R323: a stack is HOT as told, and what is remembered of its sensors stays. -/
theorem stackHotSet_temp (h : Rising s.stkTemp) (st : Fin 16) (hot : Bool) :
    mget {} (stackHotSet s st hot).stkTemp st.val = { mget {} s.stkTemp st.val with hot := hot } := by
  unfold stackHotSet
  extract_lets u x y
  split
  · next heq =>
    subst heq
    rfl
  · have hkept : OnlyErrors x (forcedUpdate (if hot = true then setEvt y .mgpwr 19 else y)) :=
      OnlyErrors.trans (t := if hot = true then setEvt y .mgpwr 19 else y) (.trans (.wr ..) (.ite (.of_events (setEvt_events ..)) (.refl y)))
        (.of_events (forcedUpdate_events _))
    rw [hkept.stkTemp]
    exact mget_mset_same _ _ _ _ h

/-- R321, R323: with a reading of every sensor none is ignored, and HOT follows the largest. -/
theorem stackTempSample_sets {st : Fin 16} {v : List (BitVec 16)} (hinv : StateInv s) (hv : v.length = 8) :
    ∃ t, exec (.stackTempSample st (v.map some)) s = .next t ∧ (mget {} t.stkTemp st.val).ignored = [] ∧ (mget {} t.stkTemp st.val).failed = [] ∧
      (mget {} t.stkTemp st.val).hot = hotAfter (mget {} s.stkTemp st.val).hot (maxInt (v.map (fun x => toInt 16 x.toNat))) := by
  have hexec : ∃ t, exec (.stackTempSample st (v.map some)) s = .next t := ⟨_, rfl⟩
  obtain ⟨t, ht⟩ := hexec
  refine ⟨t, ht, ?_⟩
  change execStackTempSample st (v.map some) s = _ at ht
  unfold execStackTempSample at ht
  extract_lets u missing ignored vals x y at ht
  have hmissing : missing = [] := List.filter_eq_nil_iff.mpr fun i hi => by
    have hlt : i < v.length := by rw [hv]; exact List.mem_range.mp hi
    simp [hlt]
  have hignored : ignored = [] := if_pos (by rw [hmissing]; rfl)
  have hvals : vals = v.map (fun x => toInt 16 x.toNat) := by
    simp only [vals]
    rw [List.take_of_length_le (by simp [hv])]
    simp [List.filterMap_map]
  have hsome : vals.isEmpty = false := by
    rw [hvals]
    cases v with
    | nil => cases hv
    | cons _ _ => rfl
  have hy : OnlyErrors x y := List.foldlRecOn (motive := OnlyErrors x) _ _ (.refl x) fun z hz c _ => hz.trans (.ite (tempPage_errors ..) (.refl z))
  have htemp : mget {} y.stkTemp st.val = { u with failed := [], ignored := [] } := by
    rw [hy.stkTemp]
    exact (mget_mset_same _ _ _ _ hinv.stkTemp_rising).trans (by rw [hmissing, hignored])
  have hrise : Rising y.stkTemp := by
    rw [hy.stkTemp]
    exact hinv.stkTemp_rising.mset _ _ _
  rw [hsome, if_neg (by decide)] at ht
  rw [← Host.Outcome.next.inj ht, stackHotSet_temp hrise, htemp, ← hvals]
  exact ⟨rfl, rfl, rfl⟩
end

/-! ### Bay store. -/

/-- R230: the line or the word that SECDED found is written back; every line is delivered as before. -/
theorem correctionWriteback_restores {s : State} {b : BayId} {line : Fin 2097152} (hinv : StateInv s) (hue : Rising (storeOf s b).ue)
    (hpoison : Rising (storeOf s b).poison) (hce : Rising (storeOf s b).ce) :
    ∃ t, exec (.correctionWriteback b line) s = .next t ∧
      (mget false (storeOf s b).ue line.val = true → mget false (storeOf t b).poison line.val = true ∧ mget false (storeOf t b).ue line.val = false) ∧
      (mget false (storeOf s b).ue line.val = false → mget false (storeOf t b).ce line.val = false ∧ (storeOf t b).poison = (storeOf s b).poison) ∧
      (storeOf t b).bytes = (storeOf s b).bytes ∧ (∀ l, linePoison (storeOf t b) l = linePoison (storeOf s b) l) ∧
      OtherBays b s t ∧ t = { s with bays := t.bays } := by
  have hset : ∀ v, storeOf (setStore s b v) b = v := fun v => congrArg Bay.store (bayOf_modBay hinv.bays_rising b _)
  cases hfound : mget false (storeOf s b).ue line.val with
  | true =>
    refine ⟨_, if_pos hfound, ?_⟩
    rw [hset]
    have hpoisoned := mget_mset_same false (storeOf s b).poison line.val true hpoison
    have hcleared := mget_mset_same false (storeOf s b).ue line.val false hue
    refine ⟨fun _ => ⟨hpoisoned, hcleared⟩, by simp, rfl, fun l => ?_, modBay_otherBays hinv.bays_rising b _, rfl⟩
    by_cases hl : l = line.val
    · subst hl
      simp only [linePoison, hpoisoned, hcleared, hfound, Bool.or_true, Bool.or_false]
    · simp only [linePoison, mget_mset_other _ _ _ _ _ _ hl hpoison, mget_mset_other _ _ _ _ _ _ hl hue]
  | false =>
    refine ⟨_, if_neg (by rw [hfound]; decide), ?_⟩
    rw [hset]
    exact ⟨by simp, fun _ => ⟨mget_mset_same false (storeOf s b).ce line.val false hce, rfl⟩, rfl, fun _ => rfl, modBay_otherBays hinv.bays_rising b _, rfl⟩

/-- Settles O7: each of the operations by its own lemma. -/
theorem memoryAndStoreMaintenanceTakesEffect : Obligations.MemoryAndStoreMaintenanceTakesEffect :=
  ⟨fun _ _ _ _ _ _ _ hinv hp hfree hopen hreg hlive hmiss hcrc => readModifyWrite_merges hinv hp hfree hopen hreg hlive hmiss hcrc,
    fun _ _ _ hinv hp hheld hlive hmiss hcrc => reread_delivers hinv hp hheld hlive hmiss hcrc,
    fun _ _ _ _ hinv hrow hturn => bankRefresh_closes hinv hrow hturn,
    fun _ _ _ bank hinv hrow => rowIdleClose_closes hinv hrow bank,
    fun _ _ _ hinv hserv hlive hidle => channelRetrain_starts hinv hserv hlive hidle,
    fun _ _ _ hinv hst hbusy hnone => channelRetrainDone_frees hinv hst hbusy hnone,
    fun _ _ _ en hinv hst => patrolEnWrite_sets hinv hst en,
    fun _ _ _ hinv hserv hlive hen hmore hheld ⟨_, hb, hdirty⟩ => patrolRead_advances hinv hserv hlive hen hmore hheld hb hdirty,
    fun _ _ _ hinv hserv hlive => deaccession_removes hinv hserv hlive,
    fun _ _ _ _ hkey => if_neg fun h => hkey h.1,
    fun _ _ _ hinv hv => stackTempSample_sets hinv hv,
    fun _ _ _ hinv hue hpoison hce => correctionWriteback_restores hinv hue hpoison hce⟩

end Sys2Proof.Machine
end

section
/-! The movers (R233 to R241): the operations a mover holds, an operation of one row, and the packets of PUT, GET and ATOMIC. -/

namespace Sys2Proof.Machine

/-! ### The operations a mover holds. -/

section
variable {s t x : State} {b : BayId} {m : Fin 4} {r : MovRun} {l : List MovRun}

/-- A list with an operation in it is found again, whatever the order of the tables. -/
theorem movList_setMovs (h : l ≠ []) : movList (setMovs s b m l) b m = l := by
  have hne : ({ bayOf s b with movs := mset [] (bayOf s b).movs m.val l } : Bay) ≠ {} := fun he => mset_ne_nil h (congrArg Bay.movs he)
  show mget [] (bayOf (setBay s b _) b).movs m.val = l
  rw [bayOf_setBay_of_ne hne]
  exact mget_mset_listed h

theorem movList_congr (h : t.bays = s.bays) : movList t b m = movList s b m := by rw [movList, bayOf, h]; rfl

theorem modMov_single (h : movList s b m = [r]) (f : MovRun → MovRun) : modMov s b m r.id f = setMovs s b m [f r] := by
  simp [modMov, h]

theorem movList_modMov (h : movList s b m = [r]) (f : MovRun → MovRun) : movList (modMov s b m r.id f) b m = [f r] := by
  rw [modMov_single h, movList_setMovs (by simp)]

theorem setMovs_bays_rising (hb : Rising s.bays) : Rising (setMovs s b m l).bays := hb.mset _ _ _

theorem storeOf_setMovs (hb : Rising s.bays) : storeOf (setMovs s b m l) b = storeOf s b := by
  have hbay : bayOf (setMovs s b m l) b = { bayOf s b with movs := mset [] (bayOf s b).movs m.val l } := bayOf_modBay hb b fun y =>
    { y with movs := mset [] y.movs m.val l }
  rw [storeOf, hbay]
  rfl

/-- Bay store put back as it is leaves the movers. -/
theorem movList_setStore (hb : Rising s.bays) (v : Store) : movList (setStore s b v) b m = movList s b m := by
  have hbay : bayOf (setStore s b v) b = { bayOf s b with store := v } := bayOf_modBay hb b fun y => { y with store := v }
  rw [movList, hbay]
  rfl
end

/-! ### The descriptor (R234). -/

theorem leNat_lt (l : List Byte) : leNat l < 2 ^ (8 * l.length) := by
  induction l with
  | nil => simp [leNat]
  | cons x l ih =>
    have hx := x.isLt
    rw [leNat, List.length_cons, Nat.mul_succ, Nat.pow_add]
    omega

theorem fieldAt_lt (l : List Byte) (off len : Nat) : fieldAt l off len < 2 ^ (8 * len) := by
  have h := leNat_lt (slice l off len)
  rwa [slice_length] at h

theorem movDesc_src_lt (l : List Byte) : (movDesc l).src < 2 ^ 64 := fieldAt_lt l 8 8
theorem movDesc_dst_lt (l : List Byte) : (movDesc l).dst < 2 ^ 64 := fieldAt_lt l 16 8

/-! ### An operation of one row (R235). -/

/-- An operation that has moved nothing yet, the only one of its mover; its descriptor `d` has one row, and gives that row's addresses. -/
structure OneRow (s : State) (b : BayId) (m : Fin 4) (r : MovRun) (d : MovDesc) : Prop where
  works : pgWorks s (.mov b m) = true
  only : movList s b m = [r]
  performed : r.performed = false
  fail : r.fail = none
  inline : r.inline = none
  row : r.row = 0
  pos : r.pos = 0
  outst : r.outst = 0
  desc : movDesc r.desc = d
  afEn : d.afEn = false
  rows : d.rows = 1

/-- The operation as its data steps begin. -/
def MovRun.begun (r : MovRun) : MovRun := { r with started := true }

/-- The state in which they begin. -/
def movBegun (s : State) (b : BayId) (m : Fin 4) (r : MovRun) : State := setMovs s b m [r.begun]

/-- The state after a piece of `n` bytes of the operation has left state `x` with a packet sent. -/
def movSent (x : State) (b : BayId) (m : Fin 4) (r : MovRun) (d : MovDesc) (n : Nat) : State :=
  movNext (modMov x b m r.id (fun r => { r with outst := r.outst + 1 })) b m r.id d n

section
variable {s t x : State} {b : BayId} {m : Fin 4} {r r' : MovRun} {d : MovDesc} {k : Nat} {piece : State → MovRun → MovDesc → MovRes}

theorem OneRow.current (h : OneRow s b m r d) : movCurrent s b m = some r := by
  simp [movCurrent, h.only, h.performed, h.fail]

theorem OneRow.srcAddr (h : OneRow s b m r d) : movSrcAddr r.begun d + r.begun.pos = d.src := by
  have hlt : d.src < 2 ^ 64 := h.desc ▸ movDesc_src_lt r.desc
  have hmod : movSrcAddr r.begun d + r.begun.pos = d.src % 2 ^ 64 := by simp [movSrcAddr, MovRun.begun, h.afEn, h.row, h.pos]
  rw [hmod, Nat.mod_eq_of_lt hlt]

theorem OneRow.dstAddr (h : OneRow s b m r d) : movDstAddr r.begun d + r.begun.pos = d.dst := by
  have hlt : d.dst < 2 ^ 64 := h.desc ▸ movDesc_dst_lt r.desc
  have hmod : movDstAddr r.begun d + r.begun.pos = d.dst % 2 ^ 64 := by simp [movDstAddr, MovRun.begun, h.afEn, h.row, h.pos]
  rw [hmod, Nat.mod_eq_of_lt hlt]

theorem movFinish_performs (hk : d.kind ≠ 1) : movFinish s b m r d = .ok (modMov s b m r.id (fun r => { r with performed := true })) := by
  simp [movFinish, hk]

/-- A row whose bytes the piece has all taken is done. -/
theorem movAdvance_ends (h : d.srcLen ≤ r.pos + k ∨ d.kind = 4) :
    movAdvance d k r = { r with row := r.row + 1, pos := 0, rowAddr := none, buf := [], asked := false } :=
  if_neg fun ⟨hlt, _, hk⟩ => h.elim (fun hle => absurd hlt (Nat.not_lt.mpr hle)) hk

/-- A piece that takes the operation past its only row leaves it performed. -/
theorem OneRow.movRun_performs (h : OneRow s b m r d) (hkind : d.kind = k) (hk : k ≠ 1) (hpiece : piece (movBegun s b m r) r.begun d = .ok t)
    (hlist : movList t b m = [r']) (hid : r'.id = r.id) (hdesc : r'.desc = r.desc) (hrow : r'.row = 1) :
    movRun s b m k piece = modMov t b m r.id (fun r => { r with performed := true }) := by
  have hbegun : movList (movBegun s b m r) b m = [r.begun] := movList_setMovs (by simp)
  have hfirst : ([r.begun].find? (fun y => y.id == r.id)) = some r.begun := by simp [MovRun.begun]
  have hnext : ([r'].find? (fun y => y.id == r.id)) = some r' := by simp [hid]
  have haf : movAf (movBegun s b m r) b m r.begun d = some (r.begun, movBegun s b m r) := if_pos (by simp [h.afEn])
  have hrow0 : ¬ d.rows ≤ r.begun.row := by rw [h.rows]; show ¬ 1 ≤ r.row; rw [h.row]; decide
  have hdone : movFinish t b m r' d = .ok (modMov t b m r.id (fun r => { r with performed := true })) := by
    rw [movFinish_performs (by rw [hkind]; exact hk), hid]
  have hstep : ∀ n, movLoop piece b m r.id (n + 2) (movBegun s b m r) = modMov t b m r.id (fun r => { r with performed := true }) := fun n => by
    have hlast : movLoop piece b m r.id (n + 1) t = modMov t b m r.id (fun r => { r with performed := true }) := by
      simp only [movLoop, hlist, hnext, hdesc, h.desc, h.rows, hrow, Nat.le_refl, if_true, hdone]
    unfold movLoop
    simp only [hbegun, hfirst]
    rw [show movDesc r.begun.desc = d from h.desc, if_neg hrow0]
    simp only [haf, hpiece, hlast]
  unfold movRun
  rw [if_neg (by simp [h.works]), h.current]
  dsimp only
  rw [h.desc, if_neg (by simp [h.inline, hkind]), modMov_single h.only]
  exact hstep _

/-- R235: an operation whose only piece sends a packet is performed, and waits for the answer. -/
theorem OneRow.movRun_sends (h : OneRow s b m r d) (hkind : d.kind = k) (hk : k ≠ 1) {n : Nat}
    (hpiece : piece (movBegun s b m r) r.begun d = .ok (movSent x b m r d n)) (hx : movList x b m = [r.begun]) (hlast : d.srcLen ≤ n ∨ d.kind = 4) :
    (movRun s b m k piece).flows = x.flows ∧ ∃ r', movList (movRun s b m k piece) b m = [r'] ∧ r'.outst = 1 ∧ r'.performed = true := by
  have hcount : movList (modMov x b m r.id (fun r => { r with outst := r.outst + 1 })) b m = [{ r.begun with outst := r.outst + 1 }] := movList_modMov hx _
  have hnext := movList_modMov hcount (movAdvance d n)
  rw [movAdvance_ends (by simpa [MovRun.begun, h.pos] using hlast)] at hnext
  have hrun := h.movRun_performs hkind hk hpiece hnext rfl rfl (by show r.row + 1 = 1; rw [h.row])
  have hlist := movList_modMov hnext (fun r => { r with performed := true })
  rw [hrun]
  exact ⟨rfl, _, hlist, congrArg (· + 1) h.outst, rfl⟩
end

/-! ### A flow that takes a packet (R361, R371, R374). -/

/-- What a flow and the module need for a packet to rank `rank` to be sent now. -/
structure FlowTakes (s : State) (i rank : Nat) (who : FlowWho) : Prop where
  opened : flwSt (flw s i) = 1
  place : (rankPlace s rank).isSome = true
  page : pgState s (.flow (flowDie i)) = 4
  ranked : rankValid s = true
  stays : (flw s i).closing = false
  room : (flw s i).unacked.length < 8
  reach : whoReach s who i = true

/-- The flow keeps packet `k` behind those that it kept before. -/
def FlowKeeps (s t : State) (i : Nat) (k : Packet) : Prop :=
  ∃ k', (flw t i).unacked = (flw s i).unacked ++ [k'] ∧ k'.op = k.op ∧ k'.addr = k.addr ∧ k'.len = k.len ∧ k'.data = k.data ∧ k'.last = k.last

section
variable {s t : State} {b : BayId} {m : Fin 4} {i rank : Nat} {who : FlowWho}

theorem flw_setFlw {v : FlowState} (h : v.unacked ≠ []) : flw (setFlw s i v) i = v :=
  mget_mset_listed fun he => h (congrArg FlowState.unacked he)

/-- R374: the packet is kept, with its numbers and places filled in, until it is acknowledged. -/
theorem FlowTakes.sends {o : FlowOwner} (h : FlowTakes s i rank o.who) (k : Packet) :
    ∃ t, flowSend s i rank k o = .sent t ∧ t.bays = s.bays ∧ FlowKeeps s t i k := by
  obtain ⟨pl, hpl⟩ := Option.isSome_iff_exists.mp h.place
  have hroom := h.room
  have hatomics := List.length_filter_le (fun x : Packet => x.op == 4) (flw s i).unacked
  unfold flowSend
  extract_lets v
  have hv : v = flw s i := rfl
  rw [if_neg (not_not.mpr h.opened), hpl]
  dsimp only
  rw [if_neg (by simp [hv, h.page, h.ranked, h.stays, h.reach]), if_neg (by rw [hv]; omega)]
  refine ⟨_, rfl, rfl, ?_⟩
  refine ⟨_, (congrArg FlowState.unacked (flw_setFlw ?_)).trans rfl, rfl, rfl, rfl, rfl, rfl⟩
  simp

theorem whoReach_congr (h : ∀ l, linkGone t l = linkGone s l) (w : FlowWho) (i : Nat) : whoReach t w i = whoReach s w i := by
  cases w <;> simp only [whoReach, dieReach, h]

/-- The count of the operations a mover holds is none of the fields a flow looks at. -/
theorem FlowTakes.setMovs (h : FlowTakes s i rank who) (hs : Rising s.regs) (l : List MovRun) : FlowTakes (setMovs s b m l) i rank who := by
  generalize ht : Machine.setMovs s b m l = t
  have hrd : ∀ (p : Page) (r : Row), r.key p ≠ engHeld.key (.mov b m) → rd t p r = rd s p r := fun p r hk => by
    subst ht
    exact rd_wr_other (modBay s b fun y => { y with movs := mset [] y.movs m.val l }) _ _ _ _ _ hs hk
  have hsame : t.mg = s.mg ∧ t.power = s.power ∧ t.fuses = s.fuses ∧ t.flows = s.flows ∧ t.catalogue = s.catalogue := by
    subst ht
    exact ⟨rfl, rfl, rfl, rfl, rfl⟩
  obtain ⟨hmg, hpower, hfuses, hflows, hcat⟩ := hsame
  have hpg : ∀ p : Page, (∀ b a, p ≠ .arr b a) → pgState t p = pgState s p := fun p hp =>
    pgState_congr hmg hpower hfuses (hrd p hdrState (key_ne_off _ _ (by decide) (by decide) (by decide))) fun b a he => absurd he (hp b a)
  have hgone : ∀ j, linkGone t j = linkGone s j := fun j => by
    unfold linkGone
    rw [hpg _ (by simp), hrd _ _ (key_ne_page (by decide) (by decide) (by simp [Row.home]))]
  have hranked : rankValid t = rankValid s := by
    unfold rankValid
    rw [hrd _ _ (key_ne_page (by decide) (by decide) (by simp [Row.home, rtrRankValid]))]
  have hflw : flw t i = flw s i := by rw [flw, hflows, flw]
  have hplace : rankPlace t rank = rankPlace s rank := by rw [rankPlace, hcat, rankPlace]
  exact ⟨hflw ▸ h.opened, hplace ▸ h.place, (hpg _ (by simp)).trans h.page, hranked.trans h.ranked, hflw ▸ h.stays, hflw ▸ h.room,
    (whoReach_congr hgone who i).trans h.reach⟩

/-- Nor is bay store. -/
theorem FlowTakes.setStore (h : FlowTakes s i rank who) (v : Store) : FlowTakes (setStore s b v) i rank who :=
  ⟨h.opened, h.place, h.page, h.ranked, h.stays, h.room, h.reach⟩
end

/-! ### PUT, GET and ATOMIC (R235, R372). -/

section
variable {s : State} {b : BayId} {m : Fin 4} {r : MovRun} {d : MovDesc}

/-- R230: the read of a row in a clean bay store. -/
theorem movRead_begun (r : MovRun) (hb : Rising s.bays) (hspace : d.srcSpace = 0) (hin : inStore d.src d.rowLen = true)
    (hc : (storeOf s b).carried = []) (hp : (storeOf s b).poison = []) (hu : (storeOf s b).ue = []) :
    movRead (movBegun s b m r) b m r.begun d d.src r.begun.pos d.rowLen .ok =
      (.inr (stBytes (storeOf s b) d.src d.rowLen, false), setStore (movBegun s b m r) b (storeOf s b)) := by
  have hstore : storeOf (movBegun s b m r) b = storeOf s b := storeOf_setMovs hb
  have hclean := storeRead_clean (s := movBegun s b m r) (b := b) (.mov b m) (srcUnit r.begun.src) d.src d.rowLen (by rw [hstore, hc])
    (by rw [hstore, hp]) (by rw [hstore, hu])
  rw [hstore] at hclean
  unfold movRead
  simp only [hspace, hin, Bool.not_true, Bool.false_eq_true, if_false, hclean]

/-- R230, R235: PUT reads its row from bay store and sends it in one WRITE packet. -/
theorem OneRow.movPutPiece_sends (h : OneRow s b m r d) (hinv : StateInv s) (hflow : FlowTakes s d.flow d.rank (.mov b m r.id))
    (hspace : d.srcSpace = 0) (hsrc : d.src % 256 + d.rowLen ≤ 256) (hdst : d.dst % 256 + d.rowLen ≤ 256) (hin : inStore d.src d.rowLen = true)
    (hc : (storeOf s b).carried = []) (hp : (storeOf s b).poison = []) (hu : (storeOf s b).ue = []) :
    ∃ x poison, movPutPiece (movBegun s b m r) b m r.begun d .ok = .ok (movSent x b m r d d.rowLen) ∧ movList x b m = [r.begun] ∧
      FlowKeeps s x d.flow { mkPkt 1 d.dst d.rowLen (stBytes (storeOf s b) d.src d.rowLen) with poison := poison, last := true } := by
  have hsrcLt : d.src < 2 ^ 64 := h.desc ▸ movDesc_src_lt r.desc
  have hdstLt : d.dst < 2 ^ 64 := h.desc ▸ movDesc_dst_lt r.desc
  have htakes : FlowTakes (setStore (movBegun s b m r) b (storeOf s b)) d.flow d.rank (.mov b m r.id) := (hflow.setMovs hinv.regs_rising _).setStore _
  have hlen : min (d.rowLen - r.begun.pos) (min (256 - d.src % 256) (256 - d.dst % 256)) = d.rowLen := by
    show min (d.rowLen - r.pos) _ = _
    rw [h.pos]
    omega
  have hlast : decide (r.begun.row + 1 = d.rows ∧ r.begun.pos + d.rowLen = d.rowLen) = true := by
    simp [MovRun.begun, h.row, h.pos, h.rows]
  obtain ⟨x, hsend, hbays, hkeeps⟩ := FlowTakes.sends (o := { psn := 0, who := .mov b m r.id, row := r.begun.row }) htakes
    { mkPkt 1 d.dst d.rowLen (stBytes (storeOf s b) d.src d.rowLen) with poison := false || movBad r.begun, last := true }
  refine ⟨x, false || movBad r.begun, ?_, ?_, hkeeps⟩
  · unfold movPutPiece
    simp only [h.srcAddr, h.dstAddr, Nat.mod_eq_of_lt hsrcLt, Nat.mod_eq_of_lt hdstLt, hlen, hspace, Nat.zero_ne_one, and_false, if_false,
      movRead_begun r hinv.bays_rising hspace hin hc hp hu, hlast]
    rw [show r.begun.id = r.id from rfl, hsend]
    rfl
  · have hkept : movList (setStore (movBegun s b m r) b (storeOf s b)) b m = movList (movBegun s b m r) b m :=
      movList_setStore (setMovs_bays_rising hinv.bays_rising) _
    rw [movList_congr hbays, hkept]
    exact movList_setMovs (by simp)

/-- R235: GET asks for its row with one READ packet. -/
theorem OneRow.movGetPiece_sends (h : OneRow s b m r d) (hinv : StateInv s) (hflow : FlowTakes s d.flow d.rank (.mov b m r.id))
    (hsrc : d.src % 4096 + d.rowLen ≤ 4096) :
    ∃ x, movGetPiece (movBegun s b m r) b m r.begun d = .ok (movSent x b m r d d.rowLen) ∧ movList x b m = [r.begun] ∧
      FlowKeeps s x d.flow (mkPkt 2 d.src d.rowLen []) := by
  have hsrcLt : d.src < 2 ^ 64 := h.desc ▸ movDesc_src_lt r.desc
  have hdstLt : d.dst < 2 ^ 64 := h.desc ▸ movDesc_dst_lt r.desc
  have htakes : FlowTakes (movBegun s b m r) d.flow d.rank (.mov b m r.id) := hflow.setMovs hinv.regs_rising _
  have hlen : min (d.rowLen - r.begun.pos) (4096 - d.src % 4096) = d.rowLen := by
    show min (d.rowLen - r.pos) _ = _
    rw [h.pos]
    omega
  obtain ⟨x, hsend, hbays, hkeeps⟩ := FlowTakes.sends (o := { psn := 0, who := .mov b m r.id, row := r.begun.row, dst := BitVec.ofNat 64 d.dst }) htakes
    (mkPkt 2 d.src d.rowLen [])
  refine ⟨x, ?_, (movList_congr hbays).trans (movList_setMovs (by simp)), hkeeps⟩
  unfold movGetPiece
  simp only [h.srcAddr, h.dstAddr, Nat.mod_eq_of_lt hsrcLt, Nat.mod_eq_of_lt hdstLt, hlen]
  rw [show r.begun.id = r.id from rfl, hsend]
  rfl

/-- R235: ATOMIC sends its operands in one ATOMIC packet. -/
theorem OneRow.movAtomicRow_sends (h : OneRow s b m r d) (hinv : StateInv s) (hflow : FlowTakes s d.flow d.rank (.mov b m r.id))
    (hremote : d.remote = true) (hdst : d.dst % d.rowLen = 0) :
    ∃ x tag, movAtomicRow (movBegun s b m r) b m r.begun d = .ok (movSent x b m r d 1) ∧ movList x b m = [r.begun] ∧
      FlowKeeps s x d.flow { mkPkt 4 d.dst 16 (toLE 8 d.operand ++ toLE 8 d.compare) with tag := tag } := by
  have htakes : FlowTakes (movBegun s b m r) d.flow d.rank (.mov b m r.id) := hflow.setMovs hinv.regs_rising _
  have hdstAddr : movDstAddr r.begun d = d.dst := by simpa [MovRun.begun, h.pos] using h.dstAddr
  obtain ⟨x, hsend, hbays, hkeeps⟩ := FlowTakes.sends (o := { psn := 0, who := .mov b m r.id, row := r.begun.row }) htakes
    { mkPkt 4 d.dst 16 (toLE 8 d.operand ++ toLE 8 d.compare) with tag := BitVec.ofNat 8 (d.aop + 16 * d.rowLen) }
  refine ⟨x, _, ?_, (movList_congr hbays).trans (movList_setMovs (by simp)), hkeeps⟩
  unfold movAtomicRow
  simp only [hdstAddr, hdst, ne_eq, not_true_eq_false, if_false, hremote, if_true]
  rw [show r.begun.id = r.id from rfl, hsend]
  rfl

/-- R249: PUT runs nothing ahead from bay store, and the datapath's checks have found nothing. -/
theorem OneRow.exec_movPut (h : OneRow s b m r d) (hkind : d.kind = 2) (hspace : d.srcSpace = 0) :
    exec (.movPut b m .ok .none 0) s = .next (movRun s b m 2 (fun s r d => movPutPiece s b m r d .ok)) := by
  show Host.Outcome.next (movWork s b m 2 .none 0 _) = _
  unfold movWork
  rw [h.current]
  dsimp only
  rw [h.desc, if_neg (by simp [h.works, h.inline, hkind])]
  simp [storeUpset, logicCheck, movAhead, hkind, hspace]
end

/-- Settles O16: each kind's only piece is sent on the flow. -/
theorem remoteMoverOperationsSendTheirPackets : Obligations.RemoteMoverOperationsSendTheirPackets := by
  intro s b m r pl hinv hworks hlist hperf hfail hinline hrow hpos houtst _ haf hrows _ hopen hplace hpage hranked hstays hroom hreach
  generalize hd : movDesc r.desc = d at *
  have h : OneRow s b m r d := ⟨hworks, hlist, hperf, hfail, hinline, hrow, hpos, houtst, hd, haf, hrows⟩
  have hflow : FlowTakes s d.flow d.rank (.mov b m r.id) := ⟨hopen, by rw [hplace]; rfl, hpage, hranked, hstays, hroom, hreach⟩
  have hsrcLt : d.src < 2 ^ 64 := hd ▸ movDesc_src_lt r.desc
  have hdstLt : d.dst < 2 ^ 64 := hd ▸ movDesc_dst_lt r.desc
  refine ⟨fun hkind hspace hsrc hdst hin hc hp hu => ?_, fun hkind hsrc => ?_, fun hkind hremote hdst => ?_⟩
  · obtain ⟨x, poison, hpiece, hx, k, hk, hop, haddr, -, hdata, hlast⟩ := h.movPutPiece_sends hinv hflow hspace hsrc hdst hin hc hp hu
    have hend : d.srcLen ≤ d.rowLen := by simp [MovDesc.srcLen, hkind]
    obtain ⟨hflows, hop'⟩ := h.movRun_sends (piece := fun s r d => movPutPiece s b m r d .ok) hkind (by decide) hpiece hx (.inl hend)
    refine ⟨_, h.exec_movPut hkind hspace, k, ?_, hop, hdata, ?_, hlast, hop'⟩
    · rw [← hk, flw, hflows, flw]
    · rw [haddr]
      exact Nat.mod_eq_of_lt hdstLt
  · obtain ⟨x, hpiece, hx, k, hk, hop, haddr, hlen, -, -⟩ := h.movGetPiece_sends hinv hflow hsrc
    have hend : d.srcLen ≤ d.rowLen := by simp [MovDesc.srcLen, hkind]
    obtain ⟨hflows, hop'⟩ := h.movRun_sends (piece := fun s r d => movGetPiece s b m r d) hkind (by decide) hpiece hx (.inl hend)
    refine ⟨_, rfl, k, ?_, hop, ?_, ?_, hop'⟩
    · rw [← hk, flw, hflows, flw]
    · rw [haddr]
      exact Nat.mod_eq_of_lt hsrcLt
    · rw [hlen]
      exact Nat.mod_eq_of_lt (by omega)
  · obtain ⟨x, tag, hpiece, hx, k, hk, hop, haddr, -, hdata, -⟩ := h.movAtomicRow_sends hinv hflow hremote hdst
    obtain ⟨hflows, hop'⟩ := h.movRun_sends (piece := fun s r d => movAtomicRow s b m r d) hkind (by decide) hpiece hx (.inr hkind)
    refine ⟨_, rfl, k, ?_, hop, ?_, hdata, hop'⟩
    · rw [← hk, flw, hflows, flw]
    · rw [haddr]
      exact Nat.mod_eq_of_lt hdstLt

end Sys2Proof.Machine
end

section
/-! The refutation of the obligation about local mover operations (R233 to R238). -/

namespace Sys2Proof.Machine

/-- An operation without rows left to move, performed. -/
def doneRun : MovRun := { id := 0, desc := [], inline := none, payload := [], src := .queue 0, sig := 0, performed := true }

/-- A state with mover 3 of bay 0 RUNNING, which the bay's table of movers lists twice, each time with one performed operation. -/
def moverListedTwice : State := { wr State.reset (.mov 0 3) hdrState 4 with bays := [(0, { movs := [(3, [doneRun]), (3, [doneRun])] })] }

/-- Refutes O15: the statement does not ask that a bay's table of movers be in its canonical form. In `moverListedTwice` the only operation of mover 3
completes and its empty list drops the mover's entry; the second entry is found then, and the mover still holds an operation. -/
theorem not_moversTakeMoveAndComplete : ¬ Obligations.MoversTakeMoveAndComplete := by
  rintro ⟨-, -, -, -, -, hcomplete⟩
  obtain ⟨t, ht, hnone, -⟩ := hcomplete moverListedTwice 0 3 doneRun [] (by decide +kernel) (by decide +kernel) rfl rfl rfl rfl rfl rfl
  have hleft : movList (after moverListedTwice (exec (.movComplete 0 3) moverListedTwice)) 0 3 = [doneRun] := by decide +kernel
  rw [ht] at hleft
  exact absurd (hnone.symm.trans hleft) (by decide)

end Sys2Proof.Machine
end

section
/-! The caches with a page (R263 to R274): what their registers and tables read after way power, lookups and range operations. -/

namespace Sys2Proof.Machine

/-! ### A cache's record and its registers. -/

theorem StateInv.caches_rising {s : State} (h : StateInv s) : Rising s.caches := by
  obtain ⟨⟨-, -, -, -, ⟨hcaches, -⟩, -⟩, -⟩ := h
  exact hcaches

section
variable {s : State} {c : CacheId} {p q : Page} {r : Row}

theorem cacheOf_setCache (hs : Rising s.caches) (v : Cache) : cacheOf (setCache s c v) c = v := mget_mset_same _ _ _ _ hs

@[simp] theorem cacheOf_wr (v : Nat) : cacheOf (wr s p r v) c = cacheOf s c := rfl

@[simp] theorem cacheOf_setEvt (b : Nat) : cacheOf (setEvt s p b) c = cacheOf s c := by
  rw [cacheOf, (OnlyErrors.of_events (setEvt_events s p b)).caches, cacheOf]

@[simp] theorem rd_setCache (v : Cache) : rd (setCache s c v) p r = rd s p r := rfl

/-- A bit of a field reads as written. -/
theorem bitOf_rd_wr (hs : Rising s.regs) (hw : r.width ≤ 64) {i : Nat} (hi : i < r.width) (v : Nat) : bitOf (rd (wr s p r v) p r) i = bitOf v i := by
  rw [rd_wr_same s p r v hs hw, bitOf_mod _ _ _ hi]
end

/-! ### BG_STAT and BUSY (R274). -/

/-- The fields that report what the background engine runs. -/
def bgStatKeys (p : Page) : List Nat := [cacheBgStatRangeBusy.key p, cacheBgStatWayBusy.key p, cacheBgStatHeld.key p, hdrBusy.key p]

/-- A field lies at none of the places of the fields of `bgStatKeys`: the three of BG_STAT (0x134), and BUSY (bit 8 at 0x014). -/
abbrev ApartBgStat (r : Row) : Prop := r.off * 8 + r.lsb < 32768 ∧ r.off * 8 + r.lsb ∉ [0x9A0, 0x9A1, 0x9A2, 0xA8]

theorem not_bgStatKey_off {p q : Page} {r : Row} (h : ApartBgStat r) : r.key q ∉ bgStatKeys p := by
  obtain ⟨hlt, hne⟩ := h
  simp only [List.mem_cons, List.not_mem_nil, or_false, not_or] at hne
  obtain ⟨hrange, hway, hheld, hbusy⟩ := hne
  simp only [bgStatKeys, List.mem_cons, List.not_mem_nil, or_false, not_or]
  exact ⟨key_ne_off q p hlt (by decide) hrange, key_ne_off q p hlt (by decide) hway, key_ne_off q p hlt (by decide) hheld,
    key_ne_off q p hlt (by decide) hbusy⟩

section
variable {s : State} {c : CacheId} {q : Page} {r : Row}

@[simp] theorem cacheOf_bgStat : cacheOf (bgStat s c) c = cacheOf s c := rfl

theorem bgStat_fields (hs : Rising s.regs) : FieldsBut (bgStatKeys c.page) s (bgStat s c) := by
  have h1 := wr_rising s c.page cacheBgStatRangeBusy (b2n (cacheOf s c).range.isSome) hs
  have h2 := wr_rising _ c.page cacheBgStatWayBusy (b2n !(cacheOf s c).cleaning.isEmpty) h1
  have h3 := wr_rising _ c.page cacheBgStatHeld (b2n (cacheOf s c).held.isSome) h2
  exact (((FieldsBut.wr _ _ _ _ hs).trans (.wr _ _ _ _ h1)).trans (.wr _ _ _ _ h2)).trans (.wr _ _ _ _ h3)

theorem rd_bgStat_other (hs : Rising s.regs) (h : ApartBgStat r) : rd (bgStat s c) q r = rd s q r :=
  bgStat_fields hs q r (not_bgStatKey_off h)

theorem rd_bgStat (hs : Rising s.regs) :
    rd (bgStat s c) c.page cacheBgStatRangeBusy = b2n (cacheOf s c).range.isSome ∧
      rd (bgStat s c) c.page cacheBgStatWayBusy = b2n !(cacheOf s c).cleaning.isEmpty := by
  have h1 := wr_rising s c.page cacheBgStatRangeBusy (b2n (cacheOf s c).range.isSome) hs
  have h2 := wr_rising _ c.page cacheBgStatWayBusy (b2n !(cacheOf s c).cleaning.isEmpty) h1
  have h3 := wr_rising _ c.page cacheBgStatHeld (b2n (cacheOf s c).held.isSome) h2
  unfold bgStat
  constructor
  · rw [rd_wr_other _ _ _ _ _ _ h3 (key_ne_off _ _ (by decide) (by decide) (by decide)),
      rd_wr_other _ _ _ _ _ _ h2 (key_ne_off _ _ (by decide) (by decide) (by decide)),
      rd_wr_other _ _ _ _ _ _ h1 (key_ne_off _ _ (by decide) (by decide) (by decide)), rd_wr_same _ _ _ _ hs (by decide)]
    cases (cacheOf s c).range <;> rfl
  · rw [rd_wr_other _ _ _ _ _ _ h3 (key_ne_off _ _ (by decide) (by decide) (by decide)),
      rd_wr_other _ _ _ _ _ _ h2 (key_ne_off _ _ (by decide) (by decide) (by decide)), rd_wr_same _ _ _ _ h1 (by decide)]
    cases (cacheOf s c).cleaning <;> rfl
end

/-- R269, R273: the background engine ends a piece of work: the cache's record is `v` then, event `i` is raised, and BG_STAT and BUSY follow. -/
def bgEnds (s : State) (c : CacheId) (v : Cache) (i : Nat) : State := bgStat (setEvt (setCache s c v) c.page i) c

section
variable {s : State} {c : CacheId} {v : Cache} {i : Nat} {r : Row}

theorem cacheOf_bgEnds (hs : Rising s.caches) : cacheOf (bgEnds s c v i) c = v := by
  rw [bgEnds, cacheOf_bgStat, cacheOf_setEvt, cacheOf_setCache hs]

theorem rd_bgEnds_other (hs : Rising s.regs) {q : Page} (h : ApartBgStat r) (hevt : r.off * 8 + r.lsb ≠ 0x160) :
    rd (bgEnds s c v i) q r = rd s q r := by
  have hc : Rising (setCache s c v).regs := hs
  rw [bgEnds, rd_bgStat_other (setEvt_rising _ _ _ hc) h, rd_setEvt_hdr hc _ h.1 hevt, rd_setCache]

theorem bitOf_bgEnds_evt (hs : Rising s.regs) (hi : i < 32) : bitOf (rd (bgEnds s c v i) c.page hdrEvt) i = true := by
  have hc : Rising (setCache s c v).regs := hs
  rw [bgEnds, rd_bgStat_other (setEvt_rising _ _ _ hc) (by decide)]
  exact bitOf_setEvt_same hc hi
end

/-! ### Way power (R268 to R270). -/

section
variable {s : State} {c : CacheId} {w : Fin 24}

theorem cacheOf_wayClean (hs : Rising s.caches) (w : Nat) :
    cacheOf (wayClean s c w) c =
      { cacheOf s c with cleaning := if (cacheOf s c).cleaning.contains w then (cacheOf s c).cleaning else (cacheOf s c).cleaning ++ [w] } :=
  cacheOf_setCache hs _

theorem mem_cleaning_wayClean (hs : Rising s.caches) (w : Nat) : w ∈ (cacheOf (wayClean s c w) c).cleaning := by
  rw [cacheOf_wayClean hs]
  dsimp only
  split
  next h => exact List.contains_iff_mem.mp h
  next => exact List.mem_append_right _ (List.mem_singleton_self w)

theorem rd_wayClean_other (hs : Rising s.regs) (w : Nat) {q : Page} {r : Row} (h : ApartBgStat r) : rd (wayClean s c w) q r = rd s q r :=
  rd_bgStat_other (by exact hs) h

/-- R269, R274: a way being cleaned shows in BG_STAT. -/
theorem rd_wayClean_wayBusy (hs : Rising s.regs) (hc : Rising s.caches) (w : Nat) : rd (wayClean s c w) c.page cacheBgStatWayBusy = 1 := by
  have hne := List.ne_nil_of_mem (mem_cleaning_wayClean (c := c) hc w)
  rw [wayClean, cacheOf_bgStat] at hne
  rw [wayClean, (rd_bgStat (by exact hs)).2, List.isEmpty_eq_false_iff.mpr hne]
  rfl

theorem cachePage_ways_le (c : CacheId) : c.page.ways ≤ 24 := by
  cases c <;> simp [CacheId.page, Page.ways]

/-- R269: a powered way that is switched off starts being cleaned. -/
theorem exec_wayPowerDown (hs : Rising s.regs) (hw : w.val < c.page.ways) (hon : bitOf (rd s c.page cacheWaypwr) w.val = true)
    (hstat : bitOf (rd s c.page cacheWaystat) w.val = true) :
    exec (.wayPowerDown c w) s = .next (wayClean (wr s c.page cacheWaypwr (clrBit (rd s c.page cacheWaypwr) w.val)) c w.val) := by
  show execWayPowerDown c w s = _
  unfold execWayPowerDown
  rw [if_pos ⟨hw, hon⟩]
  dsimp only
  rw [rd_wr_other _ _ _ _ _ _ hs (key_ne_off _ _ (by decide) (by decide) (by decide)), if_pos hstat]

theorem exec_wayPowerUp (hw : w.val < c.page.ways) (hoff : bitOf (rd s c.page cacheWaypwr) w.val = false)
    (hdis : bitOf (rd s c.page cacheWaydis) w.val = false) :
    exec (.wayPowerUp c w) s = .next (wr s c.page cacheWaypwr (setBit (rd s c.page cacheWaypwr) w.val)) :=
  if_pos ⟨hw, by simp [hoff], by simp [hdis]⟩

theorem exec_wayOn (hw : w.val < c.page.ways) (hon : bitOf (rd s c.page cacheWaypwr) w.val = true)
    (hstat : bitOf (rd s c.page cacheWaystat) w.val = false) (hclean : w.val ∉ (cacheOf s c).cleaning) :
    exec (.wayOn c w) s = .next (wr s c.page cacheWaystat (setBit (rd s c.page cacheWaystat) w.val)) :=
  if_pos ⟨hw, hon, by simp [hstat], by simpa using hclean⟩

/-- R268: the mask of a class that reaches the cache is stored within its ways. -/
theorem exec_waymaskWrite {cls : Fin 32} (hreach : c.page.reaches cls.val = true) (mask : BitVec 24) :
    exec (.waymaskWrite c cls mask) s = .next (wr s c.page (cacheWaymask cls.val) (mask.toNat % 2 ^ c.page.ways)) := if_pos hreach

/-- R269: with no line to write back, the cleaning of a way ends with the way off. -/
theorem exec_wayOff_empty (hst : pgState s c.page = 4) (hclean : w.val ∈ (cacheOf s c).cleaning) (hlines : (cacheOf s c).lines = [])
    (hdis : (cacheOf s c).disabling = []) :
    exec (.wayOff c w) s = .next (bgEnds (wr s c.page cacheWaystat (clrBit (rd s c.page cacheWaystat) w.val)) c
      { cacheOf s c with cleaning := (cacheOf s c).cleaning.filter (· != w.val), disabling := [] } 17) := by
  show execWayOff c w s = _
  simp [execWayOff, bgEnds, hst, hclean, hlines, hdis]
end

/-! ### Lookups (R263 to R267). -/

section
variable {s : State} {c : CacheId} {cls : Fin 32} {line : BitVec 34} {k l : Nat}

/-- R288: LOAD of a line that the agent may read changes nothing. -/
theorem evLoad_readable {a : AgentId} {n : Nat} (h : (agentOf s a n).st ∈ [LineState.S, .E, .O, .M, .SM, .OM]) : evLoad s a n = s := by
  unfold evLoad
  dsimp only
  generalize (agentOf s a n).st = st at h
  simp only [List.mem_cons, List.not_mem_nil, or_false] at h
  obtain rfl | rfl | rfl | rfl | rfl | rfl := h <;> rfl

/-- R267: a read that hits a line the cache may read touches its way. -/
theorem exec_cacheLookup_hit {w : Nat} (hst : pgState s c.page = 4) (hkey : lookupKey s c line.toNat = some (k, l))
    (hfind : wayFind s c k l = some w) (hmiss : (cacheOf s c).miss = []) (hin : (cacheOf s c).inputs = [])
    (hread : ∀ a, cacheAgent c = some a → (agentOf s a line.toNat).st ∈ [LineState.S, .E, .O, .M, .SM, .OM]) :
    exec (.cacheLookup c cls line false .none) s = .next (wayTouch (setCache s c { cacheOf s c with inputs := [] }) c k w) := by
  show execCacheLookup c cls line false .none s = _
  cases hagent : cacheAgent c with
  | none => simp [execCacheLookup, hst, hkey, hfind, hmiss, hin, inputAhead, hagent]
  | some a =>
    have hload : evLoad (wayTouch (setCache s c { cacheOf s c with inputs := [] }) c k w) a line.toNat = _ := evLoad_readable (hread a hagent)
    simpa [execCacheLookup, hst, hkey, hfind, hmiss, hin, inputAhead, hagent] using hload

/-- R264: a system cache with every miss register free takes one for a line that it does not hold. -/
theorem exec_cacheLookup_miss {st : Fin 16} (hst : pgState s (.sysc st) = 4) (hkey : lookupKey s (.sysc st) line.toNat = some (k, l))
    (hfind : wayFind s (.sysc st) k l = none) (hmiss : (cacheOf s (.sysc st)).miss = []) (hin : (cacheOf s (.sysc st)).inputs = []) :
    exec (.cacheLookup (.sysc st) cls line false .none) s =
      .next (setCache (setCache s (.sysc st) { cacheOf s (.sysc st) with inputs := [] }) (.sysc st)
        { cacheOf (setCache s (.sysc st) { cacheOf s (.sysc st) with inputs := [] }) (.sysc st) with
          miss := [{ line := l, cls := cls, write := false }] }) := by
  show execCacheLookup (.sysc st) cls line false .none s = _
  simp [execCacheLookup, CacheId.page, hst, hkey, hfind, hmiss, hin, inputAhead, cacheAgent, Page.missRegs, missShare]
end

/-! ### Range operations (R271 to R274). -/

section
variable {s : State} {c : CacheId}

/-- R271: a range command given while none runs starts at once, with the registers' values. -/
theorem rangeStart_idle (hidle : (cacheOf s c).range = none) {op : BitVec 2} (hop : op ≠ 0) :
    rangeStart s c op = bgStat (setCache s c { cacheOf s c with range := some ⟨op, BitVec.ofNat 64 (64 * rd s c.page cacheRangeBase),
      BitVec.ofNat 64 (64 * rd s c.page cacheRangeSize)⟩ }) c := by
  unfold rangeStart
  rw [if_neg hop]
  simp [hidle]

theorem rangeStart_runs (hinv : StateInv s) (hidle : (cacheOf s c).range = none) {op : BitVec 2} (hop : op ≠ 0) :
    rd (rangeStart s c op) c.page cacheBgStatRangeBusy = 1 ∧ (cacheOf (rangeStart s c op) c).range =
      some ⟨op, BitVec.ofNat 64 (64 * rd s c.page cacheRangeBase), BitVec.ofNat 64 (64 * rd s c.page cacheRangeSize)⟩ := by
  rw [rangeStart_idle hidle hop, (rd_bgStat (by exact hinv.regs_rising)).1, cacheOf_bgStat, cacheOf_setCache hinv.caches_rising]
  exact ⟨rfl, rfl⟩

/-- R273: a range operation on an empty cache, with no write-back of its agent under way, ends. -/
theorem exec_rangeDone_empty {r : RangeCmd} (hst : pgState s c.page = 4) (hrange : (cacheOf s c).range = some r) (hlines : (cacheOf s c).lines = [])
    (hback : ∀ a, cacheAgent c = some a → ∀ x ∈ s.coh.agents, x.1 / 2 ^ 34 = a.val → x.2.st ≠ .MI ∧ x.2.st ≠ .OI ∧ x.2.st ≠ .II) :
    exec (.rangeDone c) s = .next (bgEnds (wrapAdd s c.page cacheRangeDone 1) c { cacheOf s c with
      range := (cacheOf s c).held, held := (cacheOf s c).waiting.head?, waiting := (cacheOf s c).waiting.drop 1 } 16) := by
  have hnone : (cacheOf s c).lines.filterMap (fun x => x.2.map (fun e => (x.1, e))) = [] := by rw [hlines, List.filterMap_nil]
  show execRangeDone c s = _
  unfold execRangeDone
  dsimp only
  rw [hrange]
  dsimp only
  rw [hnone, if_neg]
  · rfl
  · simp only [hst, ne_eq, not_true_eq_false, List.any_nil, Bool.false_eq_true, or_false, false_or]
    cases hagent : cacheAgent c with
    | none => simp
    | some a =>
      simp only [List.any_eq_true, not_exists, not_and, Bool.and_eq_true, beq_iff_eq, List.contains_iff_mem]
      rintro x hx ⟨hkey, -⟩ hwriting
      obtain ⟨hMI, hOI, hII⟩ := hback a hagent x hx hkey
      simp [hMI, hOI, hII] at hwriting
end

/-- Settles O8: each command has one known effect, and the fields and the cache's record are read off it. -/
theorem cachesLookUpAndPowerTheirWays : Obligations.CachesLookUpAndPowerTheirWays := by
  refine ⟨?down, ?up, ?off, ?on, ?mask, ?hit, ?miss, ?start, ?done⟩
  case down =>
    intro s c w hinv hw hon hstat
    have hregs : Rising (wr s c.page cacheWaypwr (clrBit (rd s c.page cacheWaypwr) w.val)).regs := wr_rising _ _ _ _ hinv.regs_rising
    have hcaches : Rising (wr s c.page cacheWaypwr (clrBit (rd s c.page cacheWaypwr) w.val)).caches := hinv.caches_rising
    refine ⟨_, exec_wayPowerDown hinv.regs_rising hw hon hstat, ?_, mem_cleaning_wayClean hcaches _, rd_wayClean_wayBusy hregs hcaches _, ?_⟩
    · rw [rd_wayClean_other hregs _ (by decide), bitOf_rd_wr hinv.regs_rising (by decide) w.isLt]
      exact bitOf_clrBit_same ..
    · rw [cacheOf_wayClean hcaches, cacheOf_wr]
  case up =>
    intro s c w hinv hw hoff hdis
    refine ⟨_, exec_wayPowerUp hw hoff hdis, ?_, .wr .., .wr _ _ _ _ hinv.regs_rising⟩
    rw [bitOf_rd_wr hinv.regs_rising (by decide) w.isLt]
    exact bitOf_setBit ..
  case off =>
    intro s c w hinv hst hclean hlines hdis
    have hregs : Rising (wr s c.page cacheWaystat (clrBit (rd s c.page cacheWaystat) w.val)).regs := wr_rising _ _ _ _ hinv.regs_rising
    refine ⟨_, exec_wayOff_empty hst hclean hlines hdis, ?_, ?_, bitOf_bgEnds_evt hregs (by decide)⟩
    · rw [rd_bgEnds_other hregs (by decide) (by decide), bitOf_rd_wr hinv.regs_rising (by decide) w.isLt]
      exact bitOf_clrBit_same ..
    · rw [cacheOf_bgEnds (by exact hinv.caches_rising)]
      simp
  case on =>
    intro s c w hinv hw hon hstat hclean
    refine ⟨_, exec_wayOn hw hon hstat hclean, ?_, .wr .., .wr _ _ _ _ hinv.regs_rising⟩
    rw [bitOf_rd_wr hinv.regs_rising (by decide) w.isLt]
    exact bitOf_setBit ..
  case mask =>
    intro s c cls mask hinv hreach
    have hmask : mask.toNat % 2 ^ c.page.ways < 2 ^ 24 := (Nat.mod_lt _ (Nat.two_pow_pos _)).trans_le (pow_two_le_of_le (cachePage_ways_le c))
    refine ⟨_, exec_waymaskWrite hreach mask, ?_, .wr .., .wr _ _ _ _ hinv.regs_rising⟩
    rw [rd_wr_same _ _ _ _ hinv.regs_rising (by decide : 24 ≤ 64)]
    exact Nat.mod_eq_of_lt hmask
  case hit =>
    intro s c cls line k l w hinv hst hkey hfind hplru hmiss hin hread
    have hcaches : Rising (setCache s c { cacheOf s c with inputs := [] }).caches := hinv.caches_rising.mset _ _ _
    refine ⟨_, exec_cacheLookup_hit hst hkey hfind hmiss hin hread, ?_, ?_, rfl⟩ <;>
      rw [wayTouch, cacheOf_setCache hcaches, cacheOf_setCache hinv.caches_rising]
    exact mget_mset_same _ _ _ _ hplru
  case miss =>
    intro s st cls line k l hinv hst hkey hfind hmiss hin
    refine ⟨_, exec_cacheLookup_miss hst hkey hfind hmiss hin, ?_, rfl⟩
    rw [cacheOf_setCache (by exact hinv.caches_rising.mset _ _ _)]
  case start =>
    intro s c hinv hidle
    have hruns (op : BitVec 2) (hop : op ≠ 0) := rangeStart_runs hinv hidle hop
    exact ⟨⟨rangeStart s c 1, rfl, hruns 1 (by decide)⟩, ⟨rangeStart s c 2, rfl, hruns 2 (by decide)⟩,
      ⟨rangeStart s c 3, rfl, hruns 3 (by decide)⟩⟩
  case done =>
    intro s c r hinv hst hrange hlines hback
    have hregs : Rising (wrapAdd s c.page cacheRangeDone 1).regs := wr_rising _ _ _ _ hinv.regs_rising
    refine ⟨_, exec_rangeDone_empty hst hrange hlines hback, ?_, bitOf_bgEnds_evt hregs (by decide), ?_⟩
    · rw [cacheOf_bgEnds (by exact hinv.caches_rising)]
    · rw [rd_bgEnds_other hregs (by decide) (by decide)]
      exact rd_wr_same _ _ _ _ hinv.regs_rising (by decide)

end Sys2Proof.Machine
end

section
/-! The coherent domain (R280 to R293): what the messages, the credits, the agents' copies and the homes read after each operation of the protocol. -/

namespace Sys2Proof.Machine

/-! ### What the operations of the protocol leave unchanged. -/

/-- Nothing but the coherent domain has changed. -/
def OnlyCoh (s t : State) : Prop := t = { s with coh := t.coh }

/-- Nothing but caches has changed: those with a page, and those of cores. -/
def OnlyCaches (s t : State) : Prop := t = { s with caches := t.caches, harts := t.harts }

section
variable {s t u : State}

theorem OnlyCoh.trans (h1 : OnlyCoh s t) (h2 : OnlyCoh t u) : OnlyCoh s u := Eq.trans h2 (congrArg (fun x : State => { x with coh := u.coh }) h1)

/-- Seen from the state before a reservation was lost: the reservations have changed too. -/
theorem OnlyCoh.of_loseLine {l : ResvLine} (h : OnlyCoh (loseLine s l) t) : t = { s with coh := t.coh, resv := t.resv } := by
  have hresv : t.resv = (loseLine s l).resv := by rw [h]
  rw [hresv]
  exact h

theorem OnlyCaches.refl (s : State) : OnlyCaches s s := rfl

theorem OnlyCaches.trans (h1 : OnlyCaches s t) (h2 : OnlyCaches t u) : OnlyCaches s u :=
  Eq.trans h2 (congrArg (fun x : State => { x with caches := u.caches, harts := u.harts }) h1)

theorem OnlyCaches.foldl {α : Type} {f : State → α → State} {l : List α} (h : OnlyCaches s t) (hf : ∀ s a, OnlyCaches s (f s a)) :
    OnlyCaches s (l.foldl f t) :=
  List.foldlRecOn l f h fun _ hx a _ => hx.trans (hf _ a)

theorem OnlyCaches.coh (h : OnlyCaches s t) : t.coh = s.coh := by rw [h]

theorem OnlyCaches.dram (h : OnlyCaches s t) : t.dram = s.dram := by rw [h]

theorem OnlyCaches.regs (h : OnlyCaches s t) : t.regs = s.regs := by rw [h]
end

/-- Sending a message changes the messages under way and what waits at the links. -/
theorem sendMsg_eq (s : State) (line : Nat) (m : Msg) :
    sendMsg s line m = { s with coh := { s.coh with msgs := s.coh.msgs ++ [(line, m)], tx := (sendMsg s line m).coh.tx } } := by
  unfold sendMsg
  cases msgHops s line m <;> rfl

/-- A returned credit changes the credits. -/
theorem creditBack_eq (s : State) (die line : Nat) :
    creditBack s die line = { s with coh := { s.coh with credits := (creditBack s die line).coh.credits } } := by
  unfold creditBack
  split <;> rfl

theorem dieHarts_only (s : State) (d : Nat) (f : Hart → Hart) : OnlyCaches s (dieHarts s d f) := by
  refine (OnlyCaches.refl s).foldl fun s k => ?_
  split
  · split <;> rfl
  · rfl

theorem agentDrop_only (s : State) (a : AgentId) (line : Nat) : OnlyCaches s (agentDrop s a line) := by
  have hpriv : OnlyCaches s (privDrop s a line) := by
    unfold privDrop
    split
    · exact dieHarts_only ..
    · rfl
  refine hpriv.foldl fun s c => ?_
  split <;> rfl

section
variable (s : State) (a : AgentId) (line die h n : Nat) (m : Msg) (g : AgentLine) (v : HomeLine)

theorem setAgent_only : OnlyCoh s (setAgent s a line g) := rfl
theorem setHome_only : OnlyCoh s (setHome s line v) := rfl
theorem setCredits_only : OnlyCoh s (setCredits s die h n) := rfl
theorem takeMsg_only : OnlyCoh s (takeMsg s line m) := rfl
theorem addNotes_only (k : AnsKind) : OnlyCoh s (addNotes s a line k) := rfl
theorem sendMsg_only : OnlyCoh s (sendMsg s line m) := by rw [sendMsg_eq]; rfl
theorem creditBack_only : OnlyCoh s (creditBack s die line) := by rw [creditBack_eq]; rfl

/-! ### Messages. -/

@[simp] theorem sendMsg_msgs : (sendMsg s line m).coh.msgs = s.coh.msgs ++ [(line, m)] := by rw [sendMsg_eq]
@[simp] theorem setAgent_msgs : (setAgent s a line g).coh.msgs = s.coh.msgs := rfl
@[simp] theorem setHome_msgs : (setHome s line v).coh.msgs = s.coh.msgs := rfl
@[simp] theorem setCredits_msgs : (setCredits s die h n).coh.msgs = s.coh.msgs := rfl
@[simp] theorem agentDrop_msgs : (agentDrop s a line).coh.msgs = s.coh.msgs := by rw [(agentDrop_only s a line).coh]

theorem sendMsg_msgs_last : (sendMsg s line m).coh.msgs.getLast? = some (line, m) := by rw [sendMsg_msgs, List.getLast?_concat]

/-! ### The agents' copies. -/

@[simp] theorem sendMsg_cohAgents : (sendMsg s line m).coh.agents = s.coh.agents := by rw [sendMsg_eq]
@[simp] theorem creditBack_cohAgents : (creditBack s die line).coh.agents = s.coh.agents := by rw [creditBack_eq]
@[simp] theorem agentDrop_cohAgents : (agentDrop s a line).coh.agents = s.coh.agents := by rw [(agentDrop_only s a line).coh]

@[simp] theorem agentOf_sendMsg (l : Nat) : agentOf (sendMsg s line m) a l = agentOf s a l := by rw [agentOf, sendMsg_cohAgents, agentOf]
@[simp] theorem agentOf_creditBack (l : Nat) : agentOf (creditBack s die line) a l = agentOf s a l := by
  rw [agentOf, creditBack_cohAgents, agentOf]
@[simp] theorem agentOf_takeMsg (l : Nat) : agentOf (takeMsg s line m) a l = agentOf s a l := rfl
@[simp] theorem agentOf_setCredits (l : Nat) : agentOf (setCredits s die h n) a l = agentOf s a l := rfl
@[simp] theorem agentOf_agentDrop (l : Nat) : agentOf (agentDrop s a line) a l = agentOf s a l := by rw [agentOf, agentDrop_cohAgents, agentOf]

/-! ### Credits and homes. -/

@[simp] theorem credits_sendMsg (d x : Nat) : credits (sendMsg s line m) d x = credits s d x := by rw [credits, sendMsg_eq]; rfl
@[simp] theorem credits_setAgent (d x : Nat) : credits (setAgent s a line g) d x = credits s d x := rfl

@[simp] theorem homeOf_sendMsg (l : Nat) : homeOf (sendMsg s line m) l = homeOf s l := by rw [homeOf, sendMsg_eq]; rfl
@[simp] theorem homeOf_takeMsg (l : Nat) : homeOf (takeMsg s line m) l = homeOf s l := rfl
end

/-- A copy in a state other than I is listed. -/
theorem AgentLine.ne_default {g : AgentLine} (h : g.st ≠ .I) : g ≠ {} := fun he => h (he ▸ rfl)

/-- A line whose home serves a request is listed. -/
theorem HomeLine.ne_default {v : HomeLine} (h : v.st ≠ .free) : v ≠ {} := fun he => h (he ▸ rfl)

section
variable {s : State} {a : AgentId} {line : Nat}

/-- A copy reads as stored where it is listed, or where the agents' table is in its canonical form. -/
theorem agentOf_setAgent_of {g : AgentLine} (h : Rising s.coh.agents ∨ g.st ≠ .I) : agentOf (setAgent s a line g) a line = g :=
  h.elim (agentOf_setAgent_same · g) fun h => mget_mset_listed (AgentLine.ne_default h)

theorem homeOf_setHome_of {v : HomeLine} (h : v.st ≠ .free) : homeOf (setHome s line v) line = v := mget_mset_listed (HomeLine.ne_default h)

theorem homeOf_setHome_same (h : Rising s.coh.homes) (v : HomeLine) : homeOf (setHome s line v) line = v := mget_mset_same _ _ _ _ h

theorem credits_setCredits_of {die h n : Nat} (hn : n ≠ 64) : credits (setCredits s die h n) die h = n := mget_mset_listed hn
end

@[simp] theorem toSt_st (g : AgentLine) (st : LineState) : (toSt g st).st = st := by
  unfold toSt
  split <;> rfl

theorem toSt_of_keeps {st : LineState} (h : keepsData st = true) (g : AgentLine) : toSt g st = { g with st := st } := if_pos h

/-- A copy lost with no event waiting leaves nothing of the line. -/
theorem toSt_I_idle {g : AgentLine} (hload : g.waitLoad = false) (hstore : g.waitStore = false) : toSt g .I = {} := by
  unfold toSt
  rw [if_neg (by decide), hload, hstore]

section
variable {s : State} {a : AgentId} {line : Nat} {st : LineState}

theorem agentTo_keeps (h : keepsData st = true) : agentTo s a line st = setAgent s a line { agentOf s a line with st := st } := by
  unfold agentTo
  rw [if_pos h, toSt_of_keeps h]

/-- R288: an agent's copy moves to a state; the domain's messages, memory and registers stay. -/
theorem agentTo_moves (h : Rising s.coh.agents ∨ st ≠ .I) :
    (agentOf (agentTo s a line st) a line).st = st ∧ (agentTo s a line st).coh.msgs = s.coh.msgs ∧ (agentTo s a line st).dram = s.dram ∧
      (agentTo s a line st).regs = s.regs := by
  have hset : agentOf (setAgent s a line (toSt (agentOf s a line) st)) a line = toSt (agentOf s a line) st :=
    agentOf_setAgent_of (h.imp_right fun hst => by rwa [toSt_st])
  unfold agentTo
  dsimp only
  split
  · exact ⟨by rw [hset, toSt_st], rfl, rfl, rfl⟩
  · have hdrop := agentDrop_only (setAgent s a line (toSt (agentOf s a line) st)) a line
    exact ⟨by rw [agentOf_agentDrop, hset, toSt_st], by rw [hdrop.coh, setAgent_msgs], hdrop.dram, hdrop.regs⟩
end

/-! ### Messages that have arrived. -/

section
variable {s : State} {line : Nat} {m : Msg} {p : Msg → Bool}

/-- A message that was found is of the kind looked for. -/
theorem findMsg_sat (h : findMsg s line p = some m) : p m = true := by
  obtain ⟨x, hx, rfl⟩ := Option.map_eq_some_iff.mp h
  have hsat := List.find?_some hx
  simp only [Bool.and_eq_true] at hsat
  exact hsat.1.2
end

/-- A reply of kind `k` to agent `a`. -/
def isReply (k : RepKind) (a : AgentId) (m : Msg) : Bool :=
  match m with
  | .rep k' (.agent b) _ _ => k' == k && b == a
  | _ => false

/-- A reply of kind `k` to die `d`. -/
def isDieReply (k : RepKind) (d : DieId) (m : Msg) : Bool :=
  match m with
  | .rep k' (.die e) _ _ => k' == k && e == d
  | _ => false

/-- A request of kind `k` of agent `a`. -/
def isRequest (k : ReqKind) (a : AgentId) (m : Msg) : Bool :=
  match m with
  | .req r => r.who == .agent a && r.kind == k
  | _ => false

/-- An answer of agent `a`. -/
def isAnswer (a : AgentId) (m : Msg) : Bool :=
  match m with
  | .ans _ b _ _ => b == a
  | _ => false

/-! ### An agent's requests (R285 to R288). -/

section
variable {s : State} {a : AgentId} {cls : Fin 32} {line h : Nat} {k : ReqKind} {st : LineState} {data : List Byte} {poison : Bool}

theorem agentReq_eq (hhome : homeIx s line = some h) (hcredit : 1 ≤ credits s (agentDie a) h) :
    agentReq s a cls line k st data poison =
      setAgent (sendMsg (setCredits s (agentDie a) h (credits s (agentDie a) h - 1)) line
        (.req { who := .agent a, kind := k, cls := cls, data := data, poison := poison })) a line (toSt (agentOf s a line) st) := by
  unfold agentReq
  rw [hhome]
  dsimp only
  rw [if_neg (by omega), agentOf_sendMsg, agentOf_setCredits]

/-- R285, R288: with a credit, the request leaves, the credit is spent, and the line waits in its new state. -/
theorem agentReq_sends (hhome : homeIx s line = some h) (hcredit : 1 ≤ credits s (agentDie a) h) (hst : st ≠ .I) :
    agentOf (agentReq s a cls line k st data poison) a line = toSt (agentOf s a line) st ∧
      (agentReq s a cls line k st data poison).coh.msgs =
        s.coh.msgs ++ [(line, .req { who := .agent a, kind := k, cls := cls, data := data, poison := poison })] ∧
      OnlyCoh s (agentReq s a cls line k st data poison) := by
  rw [agentReq_eq hhome hcredit]
  refine ⟨agentOf_setAgent_of (.inr (by rwa [toSt_st])), by simp, ?_⟩
  exact ((setCredits_only ..).trans (sendMsg_only ..)).trans (setAgent_only ..)

theorem agentReq_credits (hhome : homeIx s line = some h) (hcredit : 1 ≤ credits s (agentDie a) h) (hle : credits s (agentDie a) h ≤ 64) :
    credits (agentReq s a cls line k st data poison) (agentDie a) h + 1 = credits s (agentDie a) h := by
  rw [agentReq_eq hhome hcredit, credits_setAgent, credits_sendMsg, credits_setCredits_of (by omega)]
  omega

theorem exec_load (hup : domainUp s = true) (line : BitVec 34) : exec (.load a line) s = .next (evLoad s a line.toNat) :=
  congrArg Host.Outcome.next (if_pos hup)

theorem exec_storeEvent (hup : domainUp s = true) (line : BitVec 34) :
    exec (.storeEvent a line) s = .next (evStore (loseLine s (.dram line.toNat)) a line.toNat) :=
  congrArg Host.Outcome.next (if_pos hup)

theorem evLoad_invalid (hst : (agentOf s a line).st = .I) : evLoad s a line = agentReq s a (agentCls s a line) line .rds .IS [] false := by
  simp only [evLoad, hst]

theorem evStore_invalid (hst : (agentOf s a line).st = .I) : evStore s a line = agentReq s a (agentCls s a line) line .rdx .IM [] false := by
  simp only [evStore, hst]

/-- R288: a store to an exclusive line modifies it without a message. -/
theorem evStore_modifies (ha : a ≠ 16) (hst : (agentOf s a line).st = .E) :
    agentOf (evStore s a line) a line = { agentOf s a line with st := .M } ∧ (evStore s a line).coh.msgs = s.coh.msgs := by
  have hstore : evStore s a line = hostUsed (agentTo s a line .M) a line := by simp only [evStore, hst]
  rw [hstore, hostUsed, if_neg ha, agentTo_keeps rfl]
  exact ⟨agentOf_setAgent_of (.inr (nofun : LineState.M ≠ .I)), rfl⟩

theorem evEvict_exclusive (hst : (agentOf s a line).st = .E) : evEvict s a cls line = agentTo s a line .I := by
  simp only [evEvict, hst]

/-- R27, R288: a modified line leaves for memory, with its data. -/
theorem evEvict_modified (hst : (agentOf s a line).st = .M) (hhome : homeIx s line = some h) (hcredit : 1 ≤ credits s (agentDie a) h) :
    evEvict s a cls line = agentDrop (agentReq s a cls line .wb .MI (agentOf s a line).data (agentOf s a line).poison) a line := by
  obtain ⟨hline, -, -⟩ := agentReq_sends (cls := cls) (k := .wb) (data := (agentOf s a line).data) (poison := (agentOf s a line).poison)
    hhome hcredit (by decide : LineState.MI ≠ .I)
  simp only [evEvict, hst]
  rw [if_pos (by rw [hline, toSt_st])]

theorem exec_evict (hup : domainUp s = true) (ha : a ≠ 16) (line : BitVec 34) :
    exec (.evict a cls line) s = .next (evEvict s a cls line.toNat) := by
  show execEvict a cls line s = _
  unfold execEvict
  rw [if_neg (by simp [hup]), if_neg (fun h => ha h.1)]
end

/-! ### An agent takes its reply (R288, R289). -/

/-- R289: the line that a reply leaves: an upgrade keeps the data, a write-back's end drops it, and a grant brings it. -/
def AgentLine.replied (g : AgentLine) (k : RepKind) (st : LineState) (d : List Byte) (p : Bool) : AgentLine :=
  if k == .gntupg then { g with st := st } else if k == .wback then toSt g st else { g with st := st, data := d, poison := p }

section
variable (g : AgentLine) (k : RepKind) (st : LineState) (d : List Byte) (p : Bool)

@[simp] theorem AgentLine.replied_st : (g.replied k st d p).st = st := by
  unfold AgentLine.replied
  split_ifs <;> simp

@[simp] theorem AgentLine.replied_waitLoad : (g.replied k st d p).waitLoad = g.waitLoad := by
  unfold AgentLine.replied toSt
  split_ifs <;> rfl

@[simp] theorem AgentLine.replied_waitStore : (g.replied k st d p).waitStore = g.waitStore := by
  unfold AgentLine.replied toSt
  split_ifs <;> rfl
end

theorem AgentLine.served_idle {g : AgentLine} (hload : g.waitLoad = false) (hstore : g.waitStore = false) :
    { g with waitLoad := false, waitStore := false } = g := by
  cases g
  cases hload
  cases hstore
  rfl

section
variable {s : State} {a : AgentId} {line : Nat}

/-- R289: with no event waiting, nothing is served. -/
theorem serveWait_idle (hload : (agentOf s a line).waitLoad = false) (hstore : (agentOf s a line).waitStore = false) :
    serveWait s a line = s ∨ serveWait s a line = setAgent s a line (agentOf s a line) := by
  have hsame := AgentLine.served_idle hload hstore
  unfold serveWait
  dsimp only
  rw [hsame, hload, hstore]
  split
  · exact .inl rfl
  · exact .inr rfl

theorem serveWait_idle_keeps (hload : (agentOf s a line).waitLoad = false) (hstore : (agentOf s a line).waitStore = false)
    (hform : Rising s.coh.agents ∨ (agentOf s a line).st ≠ .I) :
    agentOf (serveWait s a line) a line = agentOf s a line ∧ (serveWait s a line).coh.msgs = s.coh.msgs := by
  rcases serveWait_idle hload hstore with h | h <;> rw [h]
  · exact ⟨rfl, rfl⟩
  · exact ⟨agentOf_setAgent_of hform, rfl⟩

/-- R264: with no register of the agent's caches in use, data that arrives fills none. -/
theorem missFill_none (h : ∀ c ∈ agentCaches a, (cacheOf s c).miss = []) : missFill s a line = s := by
  unfold missFill
  refine List.foldlRecOn (motive := (· = s)) _ _ rfl fun t ht c hc => ?_
  subst ht
  rw [h c hc]
  rfl

variable {k : RepKind} {st : LineState} {d : List Byte} {p : Bool}

/-- The state once a reply has been installed and its credit has returned. -/
def replyTaken (s : State) (a : AgentId) (line : Nat) (k : RepKind) (st : LineState) (d : List Byte) (p : Bool) : State :=
  creditBack (setAgent (takeMsg s line (.rep k (.agent a) d p)) a line ((agentOf s a line).replied k st d p)) (agentDie a) line

theorem replyTaken_only : OnlyCoh s (replyTaken s a line k st d p) := ((takeMsg_only ..).trans (setAgent_only ..)).trans (creditBack_only ..)

theorem agentReply_eq (hup : domainUp s = true) (ha : a ≠ 16) (hmiss : k = .wback ∨ ∀ c ∈ agentCaches a, (cacheOf s c).miss = [])
    (hfind : findMsg s line (isReply k a) = some (.rep k (.agent a) d p)) (hact : replyAct (agentOf s a line).st k = some st) :
    agentReply s a line k = serveWait (sendMsg (replyTaken s a line k st d p) line (.cmpack a)) a line := by
  have hfill : (if k == .wback then replyTaken s a line k st d p else missFill (replyTaken s a line k st d p) a line) =
      replyTaken s a line k st d p := by
    split
    next => rfl
    next hk =>
      refine missFill_none fun c hc => ?_
      rw [cacheOf, replyTaken_only]
      exact hmiss.resolve_left (by simpa using hk) c hc
  unfold agentReply
  rw [if_neg (by simp [hup])]
  change (match findMsg s line (isReply k a) with | some (.rep k' dst d p) => _ | _ => s) = _
  rw [hfind]
  dsimp only
  rw [agentOf_takeMsg, hact]
  dsimp only
  rw [if_neg (fun h : a = 16 ∧ st = .M => ha h.1)]
  exact congrArg (fun t => serveWait (sendMsg t line (.cmpack a)) a line) hfill

/-- R289: an agent with no event waiting takes its reply and acknowledges it. -/
theorem agentReply_takes (hup : domainUp s = true) (ha : a ≠ 16) (hload : (agentOf s a line).waitLoad = false)
    (hstore : (agentOf s a line).waitStore = false) (hform : Rising s.coh.agents ∨ st ≠ .I)
    (hmiss : k = .wback ∨ ∀ c ∈ agentCaches a, (cacheOf s c).miss = [])
    (hact : replyAct (agentOf s a line).st k = some st) (hfind : findMsg s line (isReply k a) = some (.rep k (.agent a) d p)) :
    agentOf (agentReply s a line k) a line = (agentOf s a line).replied k st d p ∧
      (agentReply s a line k).coh.msgs.getLast? = some (line, .cmpack a) := by
  have hline : agentOf (sendMsg (replyTaken s a line k st d p) line (.cmpack a)) a line = (agentOf s a line).replied k st d p := by
    rw [agentOf_sendMsg, replyTaken, agentOf_creditBack]
    exact agentOf_setAgent_of (hform.imp_right fun hst => by rwa [AgentLine.replied_st])
  have hrising : Rising s.coh.agents → Rising (sendMsg (replyTaken s a line k st d p) line (.cmpack a)).coh.agents := fun h => by
    rw [sendMsg_cohAgents, replyTaken, creditBack_cohAgents]
    exact h.mset _ _ _
  obtain ⟨hkeeps, hmsgs⟩ := serveWait_idle_keeps (s := sendMsg (replyTaken s a line k st d p) line (.cmpack a)) (a := a) (line := line)
    (by simpa [hline] using hload) (by simpa [hline] using hstore) (by simpa [hline] using hform.imp_left hrising)
  rw [agentReply_eq hup ha hmiss hfind hact, hkeeps, hline, hmsgs, sendMsg_msgs_last]
  exact ⟨rfl, rfl⟩

/-- R291: a die that keeps no copy takes the data of its reply. -/
theorem dieReply_takes {die : DieId} (hfind : findMsg s line (isDieReply k die) = some (.rep k (.die die) d p)) :
    (dieReply s die line k).resp = d ++ [BitVec.ofNat 8 (b2n p)] ∧
      dieReply s die line k = { s with coh := (dieReply s die line k).coh, resp := (dieReply s die line k).resp } := by
  have heq : dieReply s die line k =
      { creditBack (takeMsg s line (.rep k (.die die) d p)) die.val line with resp := d ++ [BitVec.ofNat 8 (b2n p)] } := by
    unfold dieReply
    change (match findMsg s line (isDieReply k die) with | some (.rep k' dst d p) => _ | _ => s) = _
    rw [hfind]
  rw [heq, creditBack_eq]
  exact ⟨rfl, rfl⟩
end

end Sys2Proof.Machine
end

section
/-! The obligation about the local events of a caching agent and its replies (R285 to R289, R291). -/

namespace Sys2Proof.Machine

/-- Settles O9: each event by the request or the copy it leaves, each reply by what an agent or a die makes of it. -/
theorem agentsRequestAndTakeReplies : Obligations.AgentsRequestAndTakeReplies := by
  refine ⟨?load, ?store, ?modify, ?evictClean, ?evictDirty, ?grant, ?wback, ?noCopy⟩
  case load =>
    intro s a line h hup hst hhome hcredit hle
    obtain ⟨hline, hmsgs, honly⟩ := agentReq_sends (cls := agentCls s a line.toNat) (k := .rds) (data := []) (poison := false)
      hhome hcredit (by decide : LineState.IS ≠ .I)
    exact ⟨_, (exec_load hup line).trans (congrArg _ (evLoad_invalid hst)), by rw [hline, toSt_st], hmsgs,
      agentReq_credits hhome hcredit hle, honly⟩
  case store =>
    intro s a line h hup hst hhome hcredit hle
    obtain ⟨hline, hmsgs, honly⟩ := agentReq_sends (s := loseLine s (.dram line.toNat)) (cls := agentCls s a line.toNat) (k := .rdx) (data := [])
      (poison := false) hhome hcredit (by decide : LineState.IM ≠ .I)
    exact ⟨_, (exec_storeEvent hup line).trans (congrArg _ (evStore_invalid hst)), (congrArg AgentLine.st hline).trans (toSt_st ..), hmsgs,
      agentReq_credits hhome hcredit hle, honly.of_loseLine⟩
  case modify =>
    intro s a line hup ha hst
    obtain ⟨hline, hmsgs⟩ := evStore_modifies (s := loseLine s (.dram line.toNat)) ha hst
    exact ⟨_, exec_storeEvent hup line, by rw [hline], hmsgs, by rw [hline]; rfl⟩
  case evictClean =>
    intro s a cls line hform hup ha hst
    obtain ⟨hline, hmsgs, hdram, -⟩ := agentTo_moves (a := a) (line := line.toNat) (st := .I) (.inl hform)
    exact ⟨_, (exec_evict hup ha line).trans (by rw [evEvict_exclusive hst]), hline, hmsgs, hdram⟩
  case evictDirty =>
    intro s a cls line h hup ha hst hhome hcredit
    obtain ⟨hline, hmsgs, -⟩ := agentReq_sends (cls := cls) (k := .wb) (data := (agentOf s a line.toNat).data)
      (poison := (agentOf s a line.toNat).poison) hhome hcredit (by decide : LineState.MI ≠ .I)
    exact ⟨_, (exec_evict hup ha line).trans (by rw [evEvict_modified hst hhome hcredit]), by rw [agentOf_agentDrop, hline, toSt_st],
      by rw [agentDrop_msgs, hmsgs]⟩
  case grant =>
    intro s a line d p hup ha hmiss hload hstore
    have htakes {k : RepKind} {st : LineState} (hst : st ≠ .I) :=
      agentReply_takes (k := k) (st := st) (d := d) (p := p) hup ha hload hstore (.inr hst) (.inr hmiss)
    refine ⟨fun hst hfind => ?_, fun hst hfind => ?_, fun hst hfind => ?_, fun hst hfind => ?_⟩
    · obtain ⟨hline, hack⟩ := htakes (by decide : LineState.S ≠ .I) (by rw [hst]; rfl) hfind
      exact ⟨_, rfl, by rw [hline]; rfl, by rw [hline]; rfl, by rw [hline]; rfl, hack⟩
    · obtain ⟨hline, hack⟩ := htakes (by decide : LineState.E ≠ .I) (by rw [hst]; rfl) hfind
      exact ⟨_, rfl, by rw [hline]; rfl, by rw [hline]; rfl, hack⟩
    · obtain ⟨hline, hack⟩ := htakes (by decide : LineState.M ≠ .I) (by rw [hst]; rfl) hfind
      exact ⟨_, rfl, by rw [hline]; rfl, by rw [hline]; rfl, hack⟩
    · obtain ⟨hline, hack⟩ := htakes (by decide : LineState.M ≠ .I) (by rw [hst]; rfl) hfind
      exact ⟨_, rfl, by rw [hline]; rfl, by rw [hline]; rfl, hack⟩
  case wback =>
    intro s a line hform hup ha hload hstore hst hfind
    obtain ⟨hline, hack⟩ := agentReply_takes hup ha hload hstore (.inl hform) (.inl rfl) (by rw [hst]; rfl) hfind
    exact ⟨_, rfl, hline.trans (toSt_I_idle hload hstore), hack⟩
  case noCopy =>
    intro s d line v p hup
    exact ⟨fun hfind => ⟨_, congrArg Host.Outcome.next (if_pos hup), dieReply_takes hfind⟩,
      fun hfind => ⟨_, congrArg Host.Outcome.next (if_pos hup), dieReply_takes hfind⟩⟩

end Sys2Proof.Machine
end

section
/-! What a home begins and collects (R290 to R294), and what a snooped agent answers (R284, R288). -/

namespace Sys2Proof.Machine

/-! ### A request begins at its home. -/

/-- R292: what a note about a requester's line is filed under; a die has none. -/
def reqrNote (w : Reqr) (line : Nat) : Nat × Nat :=
  match w with
  | .agent a => (a.val, line)
  | .die _ => (99, line)

/-- R291, R292: the line at its home once a request other than a write-back has begun: every agent but the requester is to answer. -/
def snoopStarted (s : State) (line : Nat) (r : Req) : HomeLine where
  queue := (homeOf s line).queue
  st := .snoop
  cur := some r
  asRdx := r.kind == .upg && s.coh.upxNotes.contains (reqrNote r.who line)
  waiting := snooped r.who

section
variable {s : State} {line : Nat} {r : Req}

/-- Messages sent in turn leave the homes' lines. -/
theorem sends_keep {α : Type} (m : α → Msg) (l : List α) (s : State) :
    homeOf (l.foldl (fun s a => sendMsg s line (m a)) s) line = homeOf s line ∧ OnlyCoh s (l.foldl (fun s a => sendMsg s line (m a)) s) := by
  induction l generalizing s with
  | nil => exact ⟨rfl, rfl⟩
  | cons a l ih =>
    obtain ⟨hhome, honly⟩ := ih (sendMsg s line (m a))
    exact ⟨hhome.trans (homeOf_sendMsg ..), (sendMsg_only ..).trans honly⟩

theorem homeBegin_snoops (hkind : r.kind ≠ .wb) :
    homeOf (homeBegin s line r) line = snoopStarted s line r ∧ OnlyCoh s (homeBegin s line r) := by
  unfold homeBegin
  split
  next hk => exact absurd hk hkind
  next =>
    extract_lets note asRdx coh t k dst u
    have ht : homeOf t line = homeOf s line ∧ OnlyCoh s t := by
      unfold t
      split <;> exact ⟨rfl, rfl⟩
    obtain ⟨hkept, honly⟩ := sends_keep (line := line) (Msg.snp k) dst u
    have hset : homeOf u line = { queue := (homeOf t line).queue, st := .snoop, cur := some r, asRdx := asRdx, waiting := dst } :=
      homeOf_setHome_of (nofun : HomeState.snoop ≠ .free)
    refine ⟨hkept.trans (hset.trans ?_), (ht.2.trans (setHome_only ..)).trans honly⟩
    rw [ht.1]
    rfl

/-- R292: the state once the note of a write-back whose data a snoop has taken is used up. -/
def wbxUsed (s : State) (a : AgentId) (line : Nat) : State :=
  { s with coh := { s.coh with wbxNotes := s.coh.wbxNotes.erase (a.val, line) } }

theorem wbxUsed_only (a : AgentId) : OnlyCoh s (wbxUsed s a line) := rfl

/-- R292: a write-back whose data a snoop has already taken is acknowledged, and nothing is written. -/
theorem homeBegin_wbx {a : AgentId} (hwho : r.who = .agent a) (hkind : r.kind = .wb) (hnote : (a.val, line) ∈ s.coh.wbxNotes) :
    (homeOf (homeBegin s line r) line).st = .ack ∧ (line, .rep .wback (.agent a) [] false) ∈ (homeBegin s line r).coh.msgs ∧
      OnlyCoh s (homeBegin s line r) := by
  have hbegin : homeBegin s line r =
      sendMsg (setHome (wbxUsed s a line) line { homeOf s line with st := .ack, cur := some r }) line (.rep .wback (.agent a) [] false) := by
    simp only [homeBegin, hwho, hkind, List.contains_iff_mem.mpr hnote, if_true]
    rfl
  rw [hbegin]
  refine ⟨?_, by simp, ((wbxUsed_only a).trans (setHome_only ..)).trans (sendMsg_only ..)⟩
  rw [homeOf_sendMsg, homeOf_setHome_of (nofun : HomeState.ack ≠ .free)]

theorem homeArrive_free (hfree : (homeOf s line).st = .free) : homeArrive s line r = homeBegin s line r := if_pos hfree
end

section
variable {s : State} {a : AgentId} {line : Nat} {r : Req} {k : ReqKind}

/-- R290: a request of an agent that reaches a free home is served at once. -/
theorem agentArrives_free (hup : domainUp s = true) (hfree : (homeOf s line).st = .free) (hfind : findMsg s line (isRequest k a) = some (.req r)) :
    agentArrives s a line k = homeBegin (takeMsg s line (.req r)) line r := by
  unfold agentArrives
  rw [if_neg (by simp [hup])]
  change (match findMsg s line (isRequest k a) with | some (.req r) => _ | _ => _) = _
  rw [hfind]
  exact homeArrive_free hfree

/-- R291: a request of an agent other than a write-back has every other agent snooped. -/
theorem agentArrives_snoops (hup : domainUp s = true) (hfree : (homeOf s line).st = .free)
    (hfind : findMsg s line (isRequest k a) = some (.req r)) (hkind : k ≠ .wb) :
    homeOf (agentArrives s a line k) line = snoopStarted s line r ∧ OnlyCoh s (agentArrives s a line k) := by
  have hsat := findMsg_sat hfind
  simp only [isRequest, Bool.and_eq_true, beq_iff_eq] at hsat
  obtain ⟨hhome, honly⟩ := homeBegin_snoops (s := takeMsg s line (.req r)) (line := line) (hsat.2 ▸ hkind)
  rw [agentArrives_free hup hfree hfind]
  exact ⟨hhome, (takeMsg_only ..).trans honly⟩

/-- R285, R291: a request of a die that keeps no copy, with a credit, has every agent snooped. -/
theorem dieArrives_snoops {die : DieId} {h : Nat} (hup : domainUp s = true) (hdie : die.val ≠ 19) (hhome : homeIx s line = some h)
    (hcredit : 1 ≤ credits s die.val h) (hfree : (homeOf s line).st = .free) (hkind : r.kind ≠ .wb) :
    homeOf (dieArrives s die line r) line = snoopStarted s line r ∧ OnlyCoh s (dieArrives s die line r) := by
  have hbegin : dieArrives s die line r = homeBegin (setCredits s die.val h (credits s die.val h - 1)) line r := by
    unfold dieArrives
    rw [hup, hhome]
    dsimp only
    rw [if_neg (by omega)]
    exact homeArrive_free hfree
  obtain ⟨hline, honly⟩ := homeBegin_snoops (s := setCredits s die.val h (credits s die.val h - 1)) (line := line) hkind
  rw [hbegin]
  exact ⟨hline, (setCredits_only ..).trans honly⟩

theorem snooped_die (d : DieId) : snooped (.die d) = List.finRange 17 := List.filter_eq_self.mpr fun _ _ => rfl
end

/-! ### A home collects. -/

section
variable {s : State} {a : AgentId} {r : Req}

/-- R288: RspI can answer every snoop. -/
theorem ansFits_rspI (k : SnpKind) : ansFits k .rspI = true := by cases k <;> decide

/-- R291, R293: an answer without data, not the last one, is crossed off. -/
theorem execSnoopAnswer_crosses {line : BitVec 34} (hup : domainUp s = true)
    (hfind : findMsg s line.toNat (isAnswer a) = some (.ans .rspI a [] false)) (hst : (homeOf s line.toNat).st = .snoop)
    (hcur : (homeOf s line.toNat).cur = some r) (hsnoop : (reqSnoop r.kind).isSome) (hwait : a ∈ (homeOf s line.toNat).waiting)
    (hrest : (homeOf s line.toNat).waiting.erase a ≠ []) :
    execSnoopAnswer a line s = .next (setHome (addNotes (takeMsg s line.toNat (.ans .rspI a [] false)) a line.toNat .rspI) line.toNat
      { homeOf s line.toNat with waiting := (homeOf s line.toNat).waiting.erase a }) := by
  obtain ⟨x, hx⟩ := Option.isSome_iff_exists.mp hsnoop
  unfold execSnoopAnswer
  extract_lets +onlyGivenNames l
  rw [if_neg (by simp [hup])]
  change (match findMsg s l (isAnswer a) with | some (.ans k b d p) => _ | _ => _) = _
  rw [hfind]
  have hshare : (AnsKind.rspI == .rspS) = false ∧ (AnsKind.rspI == .rspOD) = false := ⟨rfl, rfl⟩
  simp [hst, hcur, hx, hwait, hrest, hshare, ansFits_rspI, ansData, ansWbx, ansUpx, l]

/-- R293: CmpAck of the requester ends its transaction. -/
theorem execCmpack_ends {line : BitVec 34} (hup : domainUp s = true) (hfind : findMsg s line.toNat (· == .cmpack a) = some (.cmpack a))
    (hst : (homeOf s line.toNat).st = .ack) (hcur : (homeOf s line.toNat).cur = some r) (hwho : r.who = .agent a) :
    execCmpack a line s = .next (homeNext (takeMsg s line.toNat (.cmpack a)) line.toNat) := by
  unfold execCmpack
  extract_lets l t h
  rw [if_neg (by simp [hup, hfind, l]), if_pos ⟨hst, by simp [h, t, l, hcur, hwho]⟩]

theorem homeNext_idle {line : Nat} (hqueue : (homeOf s line).queue = []) : homeNext s line = setHome s line {} := by
  unfold homeNext
  dsimp only
  rw [hqueue]

/-- R293: data from memory is kept while answers are outstanding. -/
theorem execMemReadReturn_keeps {line : BitVec 34} (chk : Check) (hup : domainUp s = true) (hst : (homeOf s line.toNat).st = .snoop)
    (hcur : (homeOf s line.toNat).cur = some r) (hneeds : needsData r.kind (homeOf s line.toNat).asRdx = true)
    (hmem : (homeOf s line.toNat).mem = none) (hheld : (syscBlk s (line.toNat / 4)).isSome = true ∨ memHeld s (line.toNat / 4) = false) :
    ∃ u x, execMemReadReturn line chk s = .next (setHome u line.toNat { homeOf s line.toNat with mem := some x }) := by
  unfold execMemReadReturn
  extract_lets l h
  have hcur' : h.cur = some r := hcur
  rw [hcur']
  dsimp only
  rw [if_pos ⟨hup, hneeds, by simp [h, l, hmem], .inl hst, hheld⟩, if_neg (by simp [h, l, hst])]
  exact ⟨_, _, rfl⟩
end

/-! ### A snooped agent answers. -/

section
variable {s : State} {a : AgentId} {line : Nat} {k : SnpKind}

/-- R288: the answer goes out by the table, with the copy's data where it carries data. -/
theorem answerSnoop_answered (hform : Rising s.coh.agents) : SnoopAnswered s (answerSnoop s a line k) a line k := by
  obtain ⟨hline, hmsgs, hdram, hregs⟩ := agentTo_moves (s := takeMsg s line (.snp k a)) (a := a) (line := line)
    (st := (snoopAct (agentOf s a line).st k).2) (.inl hform)
  unfold SnoopAnswered answerSnoop
  dsimp only
  refine ⟨?_, sendMsg_msgs_last .., ?_, ?_⟩
  · rw [agentOf_sendMsg, hline]
  · rw [sendMsg_dram, hdram, takeMsg_dram]
  · rw [sendMsg_regs, hregs, takeMsg_regs]

/-- R284, R437: an agent that a snoop has reached answers at once, the I/O agent for a line that the host need not give up. -/
theorem snoop_answered (hform : Rising s.coh.agents) (hup : domainUp s = true) (hfind : findMsg s line (· == .snp k a) ≠ none)
    (hhost : a ≠ 16 ∨ biFor k (hostTrk s line) = 0) : SnoopAnswered s (snoop s a line k) a line k := by
  have hsnoop : snoop s a line k = answerSnoop s a line k := by
    unfold snoop
    dsimp only
    rw [if_neg (by simp [hup, hfind]), if_neg (fun h => hhost.elim (· h.1) h.2)]
  rw [hsnoop]
  exact answerSnoop_answered hform
end

end Sys2Proof.Machine
end

section
/-! The obligations about the homes and about snooped agents. -/

namespace Sys2Proof.Machine

/-- Settles O10: a request by the line it begins at its home, an answer and an acknowledgement by what they leave of it. -/
theorem homesBeginAndCollect : Obligations.HomesBeginAndCollect := by
  refine ⟨?rds, ?rdx, ?upg, ?wb, ?die, ?answer, ?ack, ?memory⟩
  case rds =>
    intro s a line r hup hwho hfree hfind
    obtain ⟨hline, honly⟩ := agentArrives_snoops hup hfree hfind (nofun : ReqKind.rds ≠ .wb)
    exact ⟨_, rfl, by rw [hline]; rfl, by rw [hline]; rfl, by rw [hline, ← hwho]; rfl, honly⟩
  case rdx =>
    intro s a line r hup hwho hfree hfind
    obtain ⟨hline, honly⟩ := agentArrives_snoops hup hfree hfind (nofun : ReqKind.rdx ≠ .wb)
    exact ⟨_, rfl, by rw [hline]; rfl, by rw [hline]; rfl, by rw [hline, ← hwho]; rfl, honly⟩
  case upg =>
    intro s a line r hup hwho hkind hfree hfind
    obtain ⟨hline, honly⟩ := agentArrives_snoops hup hfree hfind (nofun : ReqKind.upg ≠ .wb)
    refine ⟨_, rfl, by rw [hline]; rfl, by rw [hline]; rfl, ?_, honly⟩
    rw [hline, snoopStarted, hkind, hwho]
    rfl
  case wb =>
    intro s a line r hup hwho hkind hfree hnote hfind
    obtain ⟨hst, hreply, honly⟩ := homeBegin_wbx (s := takeMsg s line.toNat (.req r)) hwho hkind hnote
    exact ⟨_, congrArg Host.Outcome.next (agentArrives_free hup hfree hfind), hst, hreply, (takeMsg_only ..).trans honly⟩
  case die =>
    intro s d cls line h hup hdie hhome hcredit hfree
    have hsnoops {r : Req} (hkind : r.kind ≠ .wb) := dieArrives_snoops hup hdie hhome hcredit hfree hkind
    refine ⟨?_, fun data => ?_, fun mask data => ?_, fun op => ?_⟩
    · obtain ⟨hline, honly⟩ := hsnoops (r := { who := .die d, kind := .rdcur, cls := dieCls d cls }) nofun
      exact ⟨_, rfl, by rw [hline]; rfl, by rw [hline]; exact snooped_die d, by rw [hline]; rfl, honly⟩
    · obtain ⟨hline, honly⟩ := hsnoops (r := { who := .die d, kind := .wrfull, cls := dieCls d cls, data := toLE 64 data.toNat }) nofun
      exact ⟨_, rfl, by rw [hline]; rfl, by rw [hline]; rfl, honly⟩
    · obtain ⟨hline, honly⟩ :=
        hsnoops (r := { who := .die d, kind := .wrpart, cls := dieCls d cls, data := toLE 64 data.toNat, mask := mask }) nofun
      exact ⟨_, rfl, by rw [hline]; rfl, by rw [hline]; rfl, honly⟩
    · obtain ⟨hline, honly⟩ := hsnoops (r := { who := .die d, kind := .atomic, cls := dieCls d cls, atomic := some op }) nofun
      exact ⟨_, rfl, by rw [hline]; rfl, by rw [hline]; rfl, honly⟩
  case answer =>
    intro s a b line r l hup _ hfind hst hcur hsnoop hwait
    have hrest : (homeOf s line.toNat).waiting.erase a = b :: l := by rw [hwait, List.erase_cons_head]
    have hline := homeOf_setHome_of (s := addNotes (takeMsg s line.toNat (.ans .rspI a [] false)) a line.toNat .rspI) (line := line.toNat)
      (v := { homeOf s line.toNat with waiting := (homeOf s line.toNat).waiting.erase a }) (by rw [hst]; nofun)
    refine ⟨_, execSnoopAnswer_crosses hup hfind hst hcur hsnoop (by simp [hwait]) (by simp [hrest]), ?_, ?_, ?_, ?_⟩
    · rw [hline, hst]
    · rw [hline, hrest]
    · rw [hline]
    · exact ((takeMsg_only ..).trans (addNotes_only ..)).trans (setHome_only ..)
  case ack =>
    intro s a line r hform hup hfind hst hcur hwho hqueue
    refine ⟨_, execCmpack_ends hup hfind hst hcur hwho, ?_, ?_⟩ <;> rw [homeNext_idle (s := takeMsg s line.toNat (.cmpack a)) hqueue]
    · exact homeOf_setHome_same hform {}
    · exact (takeMsg_only ..).trans (setHome_only ..)
  case memory =>
    intro s line chk r hup hst hcur hneeds hmem hheld
    obtain ⟨u, x, hexec⟩ := execMemReadReturn_keeps chk hup hst hcur hneeds hmem hheld
    have hline := homeOf_setHome_of (s := u) (line := line.toNat) (v := { homeOf s line.toNat with mem := some x }) (by rw [hst]; nofun)
    exact ⟨_, hexec, by rw [hline]; rfl, by rw [hline, hst]⟩

/-- Settles O11: each snoop by the one rule of a snooped agent. -/
theorem snoopedAgentsAnswerByTheTable : Obligations.SnoopedAgentsAnswerByTheTable := fun _ _ _ hform hup =>
  ⟨fun hfind hhost => ⟨_, rfl, snoop_answered hform hup hfind hhost⟩, fun hfind hhost => ⟨_, rfl, snoop_answered hform hup hfind hhost⟩,
    fun hfind hhost => ⟨_, rfl, snoop_answered hform hup hfind hhost⟩, fun hfind hhost => ⟨_, rfl, snoop_answered hform hup hfind hhost⟩⟩

end Sys2Proof.Machine
end
